-- ==== Sys2Proof/Word.lean ====
section
/-!
DEFINITION. The words of the machine and their plainest arithmetic: bit 0 is the least significant (spec/00 R2).
-/

namespace Sys2Proof

/-- A doubleword: the content of an x register (spec/07 R92). -/
abbrev Word := BitVec 64

/-- A 32-bit word: an instruction word, an f register, an FP32 value. -/
abbrev Half := BitVec 32

/-- A byte. -/
abbrev Byte := BitVec 8

/-- The 64 bytes of a vector register, byte 0 in bits 7:0 (spec/00 R2, spec/16 R249). -/
abbrev Vec := BitVec 512

/-- A byte offset of the 128 KiB instruction store, which wraps modulo 131,072 (spec/14 R203). -/
abbrev Pc := BitVec 17

/-- Register numbers of the five-bit x and v fields. -/
abbrev XReg := Fin 32
abbrev VReg := Fin 32
/-- f registers are 0 to 15 and m registers 0 to 7 (spec/14 R201). -/
abbrev FReg := Fin 16
abbrev MReg := Fin 8

/-- A core index y·64 + x (spec/00, Conventions). -/
abbrev CoreIx := Fin 4096
/-- A die, 0 to 7 (spec/01 R9). -/
abbrev DieIx := Fin 8

end Sys2Proof
end

