-- ==== Sys2Proof/Syntax.lean ====
section
/-!
DEFINITION. The instructions: one constructor of `Instr` per row of spec/opcode_table.json. A row of the table is a word of
one bundle slot, a matrix command, or a step of the device ("event"); an event has no encoding, and its operands name the
unit that moves and carry what the outside world supplies (log 1).
-/

namespace Sys2Proof

/-! ## Operand types of the bundle words -/

/-- The typed buffers, BUF codes 0 to 3 (spec/14 R203). -/
inductive Buf | w | a | c | l
  deriving DecidableEq, Repr

/-- The routing classes, codes 0 to 2 (spec/02 R30). -/
inductive RClass | ord | adp | spr
  deriving DecidableEq, Repr

/-- Full-empty modes of loads: codes 0, 1, 2 (spec/14 R206). -/
inductive LoadFe | plain | wf | tk
  deriving DecidableEq, Repr

/-- Full-empty modes of stores: codes 0, 3, 4 (spec/14 R206). -/
inductive StoreFe | plain | we | fl
  deriving DecidableEq, Repr

/-- Integer element types, ET 0 to 3 (spec/14 R207). -/
inductive IntEt | i8 | i16 | i32 | i64
  deriving DecidableEq, Repr

/-- Floating-point element types, ET 4 to 6 (spec/14 R207). -/
inductive FpEt | f32 | bf16 | fp16
  deriving DecidableEq, Repr

/-- Any element type, ET 0 to 6. -/
inductive Et | int (t : IntEt) | fp (t : FpEt)
  deriving DecidableEq, Repr

/-- The RM field: 0 to 3 and 7 (spec/14 R210). -/
inductive Rm | rne | rtz | rdn | rup | dyn
  deriving DecidableEq, Repr

/-- The SM field of AC: 0 to 2 (spec/14 R210). -/
inductive Sm | fpctl | sat | nosat
  deriving DecidableEq, Repr

/-- Element formats of spec/08 R125; `b8 p nonneg finite` is b8p{p+1}, and INT64 is code 0x07 of AC (spec/14 R207). -/
inductive Fmt | fp32 | bf16 | fp16 | int8 | int32 | mxf4 | int64 | b8 (p : Fin 7) (nonneg finite : Bool)
  deriving DecidableEq, Repr

/-- ESZ of the strided and indexed forms (spec/14 R203). -/
inductive Esz | e1 | e2 | e4 | e8
  deriving DecidableEq, Repr

/-- OP of LD (spec/15 R233). -/
inductive LdWidth | bu | b | hu | h | wu | w | d
  deriving DecidableEq, Repr

/-- OP of ST (spec/15 R234). -/
inductive StWidth | b | h | w | d
  deriving DecidableEq, Repr

/-- DIR of the neighbour queues (spec/14 R203). -/
inductive Dir | n | e | s | w
  deriving DecidableEq, Repr

/-- MODE of PART (spec/17 R285). -/
inductive PartMode | rank | meshX | meshY
  deriving DecidableEq, Repr

/-- Mode of CPREPLAY (spec/17 R300). -/
inductive ReplayMode | resume | abandon
  deriving DecidableEq, Repr

/-- Comparisons of VCMP, FN 0 to 9 (spec/16 R259). -/
inductive Cc | eq | ne | lt | le | gt | ge | ltu | leu | gtu | geu
  deriving DecidableEq, Repr

/-- Integer reductions, FN 0 to 7 (spec/16 R261). -/
inductive IntRed | sum | min | max | minu | maxu | and | or | xor
  deriving DecidableEq, Repr

/-- Floating-point reductions, FN 8 to 11 (spec/16 R261). -/
inductive FpRed | fsum | fmin | fmax | fmaxabs
  deriving DecidableEq, Repr

/-- The two forms of VRED: FN 0 to 7 write an x register, FN 8 to 11 an f register (spec/16 R261). -/
inductive RedForm | int (d : XReg) (op : IntRed) (et : IntEt) | fp (d : FReg) (op : FpRed) (et : FpEt)
  deriving DecidableEq, Repr

/-- The control registers by name (spec/14 R211). -/
inductive CReg
  | coreStatus | trapCause | trapPc | trapVal | trapScratch | tvec | intEn | intPend | time | timerCmp | qtimeout | wdog
  | fpctl | xphStat | vlen | arrayShape | mqAddr | mqStat | coreid | fduty | gmem (i : Fin 4) | gscope (i : Fin 4)
  | cpSrc | cpDst | cpIdx | cpStride (i : Fin 3) | cpCount (i : Fin 3) | cpClass | cpFlags | cpLaunch
  | strmCfg (i : Fin 4) | strmStr (i : Fin 4) | strmCnt (i : Fin 4) | relayCnt (i : Fin 8) | relayTerm (i : Fin 8)
  deriving DecidableEq, Repr

/-- The atomics (spec/15 R235). -/
inductive AtomicOp | add | min | max | and | or | xor | swap | cas | fadd
  deriving DecidableEq, Repr

/-! ## Matrix commands (spec/14 R213, R214) -/

/-- The format pair an MMA opcode names: `f16` says for A and for W whether it is FP16 (else BF16); in `sf` and `si` code 0
is INT8 and code P is b8p{P}sf or b8p{P}si (spec/14 R214). -/
inductive MmaPair | mxf4 | f16 (aFp16 wFp16 : Bool) | sf (a w : Fin 8) | si (a w : Fin 8)
  deriving DecidableEq, Repr

structure MloadCmd where
  tag  : BitVec 16
  gate : Bool
  scw  : Bool
  soff : BitVec 20
  boff : BitVec 20
  sstr : BitVec 16
  bstr : BitVec 20
  deriving DecidableEq, Repr

structure MswapCmd where
  tag  : BitVec 16
  gate : Bool
  deriving DecidableEq, Repr

structure MdrainCmd where
  tag  : BitVec 16
  gate : Bool
  rows : BitVec 12
  boff : BitVec 20
  bstr : BitVec 20
  dest : BitVec 64
  cls  : RClass
  dstr : BitVec 32
  deriving DecidableEq, Repr

structure MzeroCmd where
  tag  : BitVec 16
  gate : Bool
  rows : BitVec 12
  boff : BitVec 20
  bstr : BitVec 20
  deriving DecidableEq, Repr

structure MshapeCmd where
  tag   : BitVec 16
  gate  : Bool
  bands : BitVec 4
  deriving DecidableEq, Repr

structure MmaCmd where
  pair   : MmaPair
  cscale : BitVec 32
  tag    : BitVec 16
  sca    : Bool
  gate   : Bool
  swap   : Bool
  k      : BitVec 9
  rows   : BitVec 12
  soff   : BitVec 20
  boff   : BitVec 20
  sstr   : BitVec 16
  bstr   : BitVec 20
  coff   : BitVec 20
  deriving DecidableEq, Repr

/-- A well-formed record of the matrix queue. -/
inductive MatCmd
  | mload (c : MloadCmd) | mswap (c : MswapCmd) | mdrain (c : MdrainCmd) | mzero (c : MzeroCmd) | mshape (c : MshapeCmd)
  | mma (c : MmaCmd)
  deriving DecidableEq, Repr

/-! ## What the outside world supplies to an event -/

/-- A plain access as it travels: what it does at its home (spec/10 R145). Widths are in bytes. -/
inductive AccKind
  | load (width : Nat)
  | store (width : Nat) (data : Word)
  | atomic (op : AtomicOp) (operand compare : Word)
  | row (data : Vec)
  deriving DecidableEq, Repr

/-- Full-empty modes as a request carries them, codes 0 to 4 (spec/02 R30). -/
inductive FeMode | plain | wf | tk | we | fl
  deriving DecidableEq, Repr

/-- What a peer device answers to a request of this device: the extension header (spec/02 R30) with the status of R37, the data,
and what cryptography finds: whether the tag of an encrypted peer's packet holds (R36). -/
structure PeerReply where
  hdr    : Word
  data   : Word
  tagOk  : Bool := true
  deriving DecidableEq, Repr

/-- A request that arrives from a peer: its address and kind, the extension header as it stands in the packet (spec/02 R30), and
whether the tag of an encrypted peer's packet holds (R36). -/
structure FabReq where
  dev     : Fin 1024
  addr    : BitVec 50
  kind    : AccKind
  hdr     : Word
  tagOk   : Bool := true
  deriving DecidableEq, Repr

/-- Which request arrives at its home: one of this device's own, by its number, with the peer's answer if the home is on
another device; one of this device's own whose mesh flit CRC fails at the home's router (spec/01 R17, spec/06 R89); or one that
a peer sent. -/
inductive Arrival
  | own (id : Nat) (peer : PeerReply)
  | damaged (id : Nat)
  | fabric (r : FabReq)
  deriving DecidableEq, Repr

/-- A message from a peer's SEND (spec/09 R137), and whether its packets' XCRC and tag hold: the spec does not give their
layout. -/
structure PeerMsg where
  dev     : Fin 1024
  core    : CoreIx
  dst     : CoreIx
  tag     : BitVec 32
  payload : List Byte
  crcOk   : Bool := true
  tagOk   : Bool := true
  deriving DecidableEq, Repr

/-- Which message arrives at the Posted Receive Engine: one sent on this device, by its number, or a peer's. -/
inductive MsgArrival
  | own (id : Nat)
  | peer (m : PeerMsg)
  deriving DecidableEq, Repr

/-- A convoy write that arrives from a device (spec/03 R42): its convoy header and data, the extension header (spec/02 R30), and whether
XCRC and tag of its packet hold: the spec does not give the bits of the convoy header. -/
structure Chunk where
  dev    : Fin 1024
  graph  : Fin 16
  play   : BitVec 16
  op     : BitVec 12
  cidx   : Fin 16
  offset : Nat
  total  : Nat
  trig   : Option (Fin 256)
  data   : List Byte
  hdr    : Word := 0
  crcOk  : Bool := true
  tagOk  : Bool := true
  deriving DecidableEq, Repr

/-- Whether a convoy operation's outside partner answered, and how (spec/03 R41, R47). -/
inductive OpOutcome
  | own
  | answered (r : PeerReply)
  deriving DecidableEq, Repr

/-- The fields of a bind record but its action (spec/05 R68). -/
structure BindRec where
  prio  : BitVec 3
  ctx   : BitVec 12
  lid   : BitVec 16
  lrank : BitVec 12
  seq   : BitVec 8
  crec  : BitVec 40
  deriving DecidableEq, Repr

/-- Which party asks the token directory: a core of this device, or a peer (spec/02 R35). -/
inductive TokParty
  | core (k : CoreIx) (d : XReg) (flight : Nat)
  | peer (dev : Fin 1024)
  deriving DecidableEq, Repr

/-- The units with a break-even predictor (spec/06 R81). -/
inductive GatedUnit | band (b : Fin 4) | vector | sfu | copy
  deriving DecidableEq, Repr

/-- The fabric timeout registers (spec/02 R33). -/
inductive FabTimeout | fe | fabRsp | tok
  deriving DecidableEq, Repr

/-- The fields of a firmware image (spec/06 R84): its header, its two signatures, its two public keys and its body. -/
structure FwImage where
  magic  : BitVec 32
  svn    : BitVec 32
  len    : BitVec 64
  digest : BitVec 384
  edSig  : List Byte
  mlSig  : List Byte
  edKey  : List Byte
  mlKey  : List Byte
  body   : List Byte
  deriving DecidableEq, Repr

/-- An SPDM request (spec/06 R85); a key arrives over a session that is authenticated or is not. -/
inductive SpdmReq
  | measurements (slot : Fin 2) (nonce : BitVec 256)
  | certificate (slot : Fin 2)
  | fabricKey (slot : BitVec 8) (phase authenticated : Bool)
  | ideKey (stream : Fin 5) (authenticated : Bool)
  deriving DecidableEq, Repr

/-- A request of the vendor type 0x7E (spec/06 R86). -/
inductive OobReq
  | counters (ctx : BitVec 12)
  | errorLog
  deriving DecidableEq, Repr

/-- A PLDM monitoring-and-control or MCTP control request (spec/06 R86). -/
inductive PldmReq
  | readSensors
  | setPkgLimit (w : BitVec 12)
  | mctpControl
  deriving DecidableEq, Repr

/-- One sample of the sensors: 256 cluster temperatures in °C, the rails in mV and mA, the diodes (spec/06 R83). -/
structure SensorReading where
  temps  : List Nat
  rails  : List (Nat × Nat)
  diodes : List Nat
  deriving DecidableEq, Repr

/-- What a page request or an ATS translation of the host returns for a chunk (spec/04 R60). -/
inductive HostAccess
  | data (bytes : List Byte)
  | noAccess (iova : Word)
  | needsPage (page : Word)
  deriving DecidableEq, Repr

/-! ## The instructions -/

inductive Instr
  -- C and A slot no-operations (spec/14 R204, R208)
  | cSlotNop
  | aSlotNop
  -- literals (spec/15 R218)
  | li (d : XReg) (lit : Half)
  | liU (d : XReg) (lit : Half)
  | liH (d : XReg) (lit : Half)
  | liF (d : FReg) (lit : Half)
  -- integer register-register (spec/15 R219, R220)
  | add (d a b : XReg)
  | sub (d a b : XReg)
  | and (d a b : XReg)
  | or (d a b : XReg)
  | xor (d a b : XReg)
  | sll (d a b : XReg)
  | srl (d a b : XReg)
  | sra (d a b : XReg)
  | slt (d a b : XReg)
  | sltu (d a b : XReg)
  | mul (d a b : XReg)
  | mulh (d a b : XReg)
  | mulhu (d a b : XReg)
  | div (d a b : XReg)
  | divu (d a b : XReg)
  | rem (d a b : XReg)
  | remu (d a b : XReg)
  | min (d a b : XReg)
  | max (d a b : XReg)
  | minu (d a b : XReg)
  | maxu (d a b : XReg)
  | clz (d a : XReg)
  | ctz (d a : XReg)
  | popc (d a : XReg)
  | shadd (d a b : XReg) (n : Fin 4)
  -- integer immediate (spec/15 R221)
  | addi (d a : XReg) (imm : BitVec 12)
  | andi (d a : XReg) (imm : BitVec 12)
  | ori (d a : XReg) (imm : BitVec 12)
  | xori (d a : XReg) (imm : BitVec 12)
  | slli (d a : XReg) (sh : Fin 64)
  | srli (d a : XReg) (sh : Fin 64)
  | srai (d a : XReg) (sh : Fin 64)
  | slti (d a : XReg) (imm : BitVec 12)
  | sltiu (d a : XReg) (imm : BitVec 12)
  | muli (d a : XReg) (imm : BitVec 12)
  -- halfword lanes and bitfields (spec/15 R222, R223)
  | hset (d : XReg) (imm : BitVec 16) (q : Fin 4)
  | hins (d : XReg) (imm : BitVec 16) (q : Fin 4)
  | bextu (d a : XReg) (pos lenm1 : Fin 64)
  | bext (d a : XReg) (pos lenm1 : Fin 64)
  | bins (d a : XReg) (pos lenm1 : Fin 64)
  -- scalar floating point (spec/16 R253–R255)
  | fadd (d a b : FReg) (rm : Rm)
  | fsub (d a b : FReg) (rm : Rm)
  | fmul (d a b : FReg) (rm : Rm)
  | fdiv (d a b : FReg) (rm : Rm)
  | fsqrt (d a : FReg) (rm : Rm)
  | fmin (d a b : FReg)
  | fmax (d a b : FReg)
  | feq (d : XReg) (a b : FReg)
  | flt (d : XReg) (a b : FReg)
  | fle (d : XReg) (a b : FReg)
  | fclass (d : XReg) (a : FReg)
  | fmvX (d : XReg) (a : FReg)
  | fmvF (d : FReg) (a : XReg)
  | fneg (d a : FReg)
  | fabs (d a : FReg)
  | fmadd (d a b c : FReg) (rm : Rm)
  | fmsub (d a b c : FReg) (rm : Rm)
  | fnmadd (d a b c : FReg) (rm : Rm)
  | fnmsub (d a b c : FReg) (rm : Rm)
  | fcvtf (d : FReg) (a : XReg) (fmt : Fmt) (sm : Sm) (rm : Rm)
  | fcvtx (d : XReg) (a : FReg) (fmt : Fmt) (sm : Sm) (rm : Rm)
  -- vector integer (spec/16 R256)
  | vadd (d a b : VReg) (m : MReg) (et : IntEt)
  | vsub (d a b : VReg) (m : MReg) (et : IntEt)
  | vmul (d a b : VReg) (m : MReg) (et : IntEt)
  | vmulh (d a b : VReg) (m : MReg) (et : IntEt)
  | vmin (d a b : VReg) (m : MReg) (et : IntEt)
  | vmax (d a b : VReg) (m : MReg) (et : IntEt)
  | vminu (d a b : VReg) (m : MReg) (et : IntEt)
  | vmaxu (d a b : VReg) (m : MReg) (et : IntEt)
  | vand (d a b : VReg) (m : MReg) (et : IntEt)
  | vor (d a b : VReg) (m : MReg) (et : IntEt)
  | vxor (d a b : VReg) (m : MReg) (et : IntEt)
  | vsll (d a b : VReg) (m : MReg) (et : IntEt)
  | vsrl (d a b : VReg) (m : MReg) (et : IntEt)
  | vsra (d a b : VReg) (m : MReg) (et : IntEt)
  | vadds (d a b : VReg) (m : MReg) (et : IntEt)
  | vsubs (d a b : VReg) (m : MReg) (et : IntEt)
  | vabs (d a : VReg) (m : MReg) (et : IntEt)
  | vneg (d a : VReg) (m : MReg) (et : IntEt)
  -- vector floating point (spec/16 R257, R258)
  | vfadd (d a b : VReg) (m : MReg) (et : FpEt)
  | vfsub (d a b : VReg) (m : MReg) (et : FpEt)
  | vfmul (d a b : VReg) (m : MReg) (et : FpEt)
  | vfdiv (d a b : VReg) (m : MReg) (et : FpEt)
  | vfsqrt (d a : VReg) (m : MReg) (et : FpEt)
  | vfmin (d a b : VReg) (m : MReg) (et : FpEt)
  | vfmax (d a b : VReg) (m : MReg) (et : FpEt)
  | vfabs (d a : VReg) (m : MReg) (et : FpEt)
  | vfneg (d a : VReg) (m : MReg) (et : FpEt)
  | vfmadd (d a b : VReg) (m : MReg) (et : FpEt) (rm : Rm)
  | vfmsub (d a b : VReg) (m : MReg) (et : FpEt) (rm : Rm)
  | vfnmadd (d a b : VReg) (m : MReg) (et : FpEt) (rm : Rm)
  | vfnmsub (d a b : VReg) (m : MReg) (et : FpEt) (rm : Rm)
  -- comparison, selection, reduction, permutation, broadcast (spec/16 R259–R263)
  | vcmp (d : MReg) (a b : VReg) (m : MReg) (cc : Cc) (et : Et)
  | vsel (d a b : VReg) (m : MReg) (et : Et)
  | vred (form : RedForm) (a : VReg) (m : MReg)
  | vperm (d a b : VReg) (m : MReg) (et : Et)
  | vbcastX (d : VReg) (a : XReg) (m : MReg) (et : Et)
  | vbcastF (d : VReg) (a : FReg) (m : MReg) (et : FpEt)
  | vbcastV (d a : VReg) (b : XReg) (m : MReg) (et : Et)
  -- conversion and quantization (spec/16 R264, R265)
  | vcvt (d a : VReg) (tfmt sfmt : Fmt) (part : Fin 4)
  | vquant (d a : VReg) (tfmt : Fmt) (xs : XReg)
  -- masks (spec/16 R266)
  | mand (d a b : MReg)
  | mor (d a b : MReg)
  | mxor (d a b : MReg)
  | mandn (d a b : MReg)
  | mnot (d a : MReg)
  | mfromx (d : MReg) (a : XReg)
  | mtox (d : XReg) (a : MReg)
  | mpopc (d : XReg) (a : MReg)
  -- SFU (spec/16 R267)
  | exp (d a : FReg)
  | log (d a : FReg)
  | rcp (d a : FReg)
  | rsqrt (d a : FReg)
  | tanh (d a : FReg)
  | sigm (d a : FReg)
  | gelu (d a : FReg)
  | vexp (d a : VReg) (m : MReg)
  | vlog (d a : VReg) (m : MReg)
  | vrcp (d a : VReg) (m : MReg)
  | vrsqrt (d a : VReg) (m : MReg)
  | vtanh (d a : VReg) (m : MReg)
  | vsigm (d a : VReg) (m : MReg)
  | vgelu (d a : VReg) (m : MReg)
  -- sequencer (spec/16 R268, R269)
  | vloop (blen : Fin 16) (a : XReg)
  | vsetl (d a : XReg)
  -- jumps and branches (spec/15 R224–R226)
  | jal (d : XReg) (off : BitVec 19)
  | jalr (d a : XReg) (imm : BitVec 14)
  | bmaskAny (m : MReg) (off : BitVec 14)
  | bmaskNone (m : MReg) (off : BitVec 14)
  | bmaskAll (m : MReg) (off : BitVec 14)
  | beq (a b : XReg) (off : BitVec 14)
  | bne (a b : XReg) (off : BitVec 14)
  | blt (a b : XReg) (off : BitVec 14)
  | bge (a b : XReg) (off : BitVec 14)
  | bltu (a b : XReg) (off : BitVec 14)
  | bgeu (a b : XReg) (off : BitVec 14)
  -- local loads and stores (spec/15 R228–R231)
  | llb (d a : XReg) (buf : Buf) (fe : LoadFe) (imm : BitVec 9)
  | llbu (d a : XReg) (buf : Buf) (fe : LoadFe) (imm : BitVec 9)
  | llh (d a : XReg) (buf : Buf) (fe : LoadFe) (imm : BitVec 9)
  | llhu (d a : XReg) (buf : Buf) (fe : LoadFe) (imm : BitVec 9)
  | llw (d a : XReg) (buf : Buf) (fe : LoadFe) (imm : BitVec 9)
  | llwu (d a : XReg) (buf : Buf) (fe : LoadFe) (imm : BitVec 9)
  | lld (d a : XReg) (buf : Buf) (fe : LoadFe) (imm : BitVec 9)
  | slb (d a : XReg) (buf : Buf) (fe : StoreFe) (imm : BitVec 9)
  | slh (d a : XReg) (buf : Buf) (fe : StoreFe) (imm : BitVec 9)
  | slw (d a : XReg) (buf : Buf) (fe : StoreFe) (imm : BitVec 9)
  | sld (d a : XReg) (buf : Buf) (fe : StoreFe) (imm : BitVec 9)
  | vld (v : VReg) (a : XReg) (buf : Buf) (m : MReg) (imm : BitVec 9)
  | vst (v : VReg) (a : XReg) (buf : Buf) (m : MReg) (imm : BitVec 9)
  | vlds (v : VReg) (a b : XReg) (buf : Buf) (m : MReg) (esz : Esz)
  | vsts (v : VReg) (a b : XReg) (buf : Buf) (m : MReg) (esz : Esz)
  | vldx (v : VReg) (a : XReg) (b : VReg) (buf : Buf) (m : MReg) (esz : Esz)
  | vstx (v : VReg) (a : XReg) (b : VReg) (buf : Buf) (m : MReg) (esz : Esz)
  -- global loads, stores and atomics (spec/15 R232–R235)
  | ld (d a : XReg) (cls : RClass) (fe : LoadFe) (op : LdWidth)
  | st (a b : XReg) (cls : RClass) (fe : StoreFe) (op : StWidth)
  | aadd (d a b : XReg) (cls : RClass) (wf : Bool)
  | amin (d a b : XReg) (cls : RClass) (wf : Bool)
  | amax (d a b : XReg) (cls : RClass) (wf : Bool)
  | aand (d a b : XReg) (cls : RClass) (wf : Bool)
  | aor (d a b : XReg) (cls : RClass) (wf : Bool)
  | axor (d a b : XReg) (cls : RClass) (wf : Bool)
  | aswap (d a b : XReg) (cls : RClass) (wf : Bool)
  | acas (d a b : XReg) (cls : RClass) (wf : Bool)
  | afadd (d a b : XReg) (cls : RClass) (wf : Bool)
  -- order, inbox, control registers (spec/15 R237–R243)
  | fence (cls : BitVec 3) (knd : BitVec 4) (a : XReg)
  | rfence
  | ifence
  | recv (d : XReg)
  | waitm
  | peekm (d : XReg)
  | svc
  | sret
  | wfi
  | halt
  | hret
  | getc (d : XReg) (c : CReg)
  | setc (a : XReg) (c : CReg)
  | safept (map : BitVec 16)
  -- supersteps and neighbour queues (spec/15 R244–R247)
  | sync (g : Fin 256)
  | xend (g : Fin 256)
  | xsend (d a : XReg) (slot : BitVec 8)
  | xexpect (a : XReg)
  | nqsend (v : VReg) (dir : Dir)
  | nqrecv (v : VReg) (dir : Dir)
  -- work lists, partitioning, groups (spec/17 R284–R288)
  | wlpush (v : VReg) (a : XReg)
  | wlpop (d : XReg) (v : VReg)
  | wldone (g : Fin 256)
  | part (d a : XReg) (g : Fin 256) (mode : PartMode)
  | gid (d : XReg) (g : Fin 256)
  -- receives and sends (spec/17 R289–R291)
  | postrx (d : XReg) (v : VReg)
  | send (d : XReg) (v : VReg)
  | cancelrx (a : XReg)
  -- market and residency (spec/17 R292–R297)
  | gatepost (v : VReg) (b : XReg)
  | mktrun (a b : XReg)
  | mktrd (d a : XReg)
  | mktwr (a b : XReg)
  | rqry (d a : XReg)
  | rqryFetch (d a : XReg)
  | rqryPin (d a : XReg)
  | rqryUnpin (d a : XReg)
  -- tokens, convoys, replay (spec/15 R248, spec/17 R298–R300)
  | tokacq (d a : XReg)
  | tokrel (d a : XReg)
  | cvarm (a b : XReg)
  | cvplay (v : VReg) (b : XReg)
  | cpreplay (d a b : XReg) (mode : ReplayMode)
  -- matrix commands (spec/17 R275–R280)
  | mload (k : CoreIx) (c : MloadCmd)
  | mswap (k : CoreIx) (c : MswapCmd)
  | mdrain (k : CoreIx) (c : MdrainCmd)
  | mzero (k : CoreIx) (c : MzeroCmd)
  | mshape (k : CoreIx) (c : MshapeCmd)
  | mma (k : CoreIx) (c : MmaCmd)
  -- events of a core
  | matrixCommandEnd (k : CoreIx)
  | drainRowDispatch (k : CoreIx)
  | resultLanding (k : CoreIx) (handler : Bool) (n : Nat)
  | responseTrap (k : CoreIx)
  | interruptTaken (k : CoreIx)
  | timerCompare (k : CoreIx)
  | watchdogExpiry (k : CoreIx)
  | queueTimeout (k : CoreIx)
  | neighbourQueueArrival (k : CoreIx) (dir : Dir)
  | streamElementArrival (k : CoreIx) (port : Fin 4)
  | syncRelease (k : CoreIx) (g : Fin 256)
  | xsendLinkEntry (id : Nat) (held : Bool)
  | xsendLanding (id : Nat)
  | xendReturn (k : CoreIx) (g : Fin 256)
  | safeTimeout (k : CoreIx)
  | contextSave (k : CoreIx)
  -- slot actions and launches
  | bindNew (i : CoreIx) (r : BindRec)
  | bindResume (i : CoreIx) (r : BindRec)
  | preempt (i : CoreIx) (r : BindRec)
  | release (i : CoreIx) (r : BindRec)
  | freeze (i : CoreIx) (r : BindRec)
  | slotActNone (i : CoreIx) (r : BindRec)
  | loadingComplete (i : CoreIx)
  | launchPacket (q : Fin 64) (seq : Nat)
  | launchReady (lid : BitVec 16)
  | launchPlacement (lid : BitVec 16)
  | launchEnd (lid : BitVec 16)
  | groupFaultHandling (k : CoreIx)
  -- host port
  | packetFetch (q : Fin 64) (bytes : BitVec 512)
  | packetReread (q : Fin 64) (bytes : BitVec 512)
  | nopPacket (q : Fin 64) (seq : Nat)
  | put (q : Fin 64) (seq : Nat)
  | get (q : Fin 64) (seq : Nat)
  | cancel (q : Fin 64) (seq : Nat)
  | packetCompletion (q : Fin 64) (seq : Nat)
  | sqTail (q : Fin 64) (val : BitVec 32)
  | cqHead (q : Fin 64) (val : BitVec 32)
  | featuresOk
  | functionReset
  | functionLevelReset
  | qiEnable (q : Fin 64)
  | qiDisable (q : Fin 64)
  | revoke (q : Fin 64)
  | ideIntegrityFailure (stream : Option (Fin 4)) (qs : List (Fin 64))
  | atsInvalidation (pasid : BitVec 20) (page : Word)
  | pageRequestResponse (q : Fin 64) (page : Word) (ok : Bool)
  -- engines
  | cpLaunch (d : XReg)
  | copyChunkLanding (k : CoreIx) (xid : BitVec 16) (chunk : Nat)
  | messageArrival (a : MsgArrival)
  | sendAnswer (k : CoreIx) (handle : BitVec 16) (r : PeerReply)
  | workItemArrival (id : Nat)
  | quiescenceMessage (k : CoreIx) (g : Fin 256)
  | gatepostChunkWrite (id : Nat)
  | marketStepComplete (p : Fin 16)
  | sortComplete (p : Fin 16)
  | residencyEntryStore (id : Nat)
  | convoyArmComplete (g : Fin 16)
  | playStart (g : Fin 16)
  | convoyOpComplete (g : Fin 16) (op : BitVec 12) (o : OpOutcome)
  | convoyChunkArrival (c : Chunk)
  | convoySendRetry (g : Fin 16) (op : BitVec 12) (r : PeerReply)
  | cvTimeout (g : Fin 16) (op : BitVec 12)
  | playStall (g : Fin 16)
  -- homes, fabric and tokens
  | accessPerform (a : Arrival)
  | feTimeout (id : Nat)
  | fabRspTimeout (id : Nat)
  | sprForward (r : FabReq)
  | tokenAcquire (region : BitVec 19) (p : TokParty)
  | tokenRelease (region : BitVec 19) (p : TokParty)
  | tokenRecall (dev : Fin 1024) (region : BitVec 19)
  | recallReply (region : BitVec 19)
  | tokTimeout (region : BitVec 19)
  | stationBringup (s : Fin 16) (lanes : Fin 5) (answers : List (Fin 1024 × Option (BitVec 64)))
  | stationLoss (s : Fin 16)
  | devid (v : Word)
  | domainEn (v : Word)
  | fabRspTimeoutWrite (r : FabTimeout) (v : Word)
  -- device registers and management; REGISTER_WRITE names the BARs below 0xC_0000 (BAR2 at its offset, BAR4 and BAR0 at the
  -- places of log 100) and a device register by its own address
  | xlatInv (v : Word)
  | acctClr (v : Word)
  | acctSnap (v : Word)
  | registerWrite (addr : BitVec 40) (v : Word)
  | budgetPeriod (demand : List Nat) (otherRails : Nat)
  | controllerInterval (k : Fin 256) (est : BitVec 16)
  | currentLimit
  | sensorSample (r : SensorReading)
  | unitWake (k : CoreIx) (u : GatedUnit) (idle : Nat)
  | thermalTrip (sensor : Fin 258)
  | railFault (rail : Fin 9)
  | clockLoss (clock : Fin 2)
  | powerUp (selfTestOk : Bool)
  | perstN
  | linkRetry (die : DieIx) (link : Fin 16)
  | moduleFailure (die : DieIx) (link module : Fin 16)
  | linkLoss (die : DieIx) (link : Fin 16)
  | refresh (die : DieIx) (port : Fin 16)
  | patrolScrub (die : DieIx) (burst : BitVec 40) (correctable : Bool)
  | violationLogCopy (die : DieIx)
  | firmwareImageWrite (slot : Bool) (img : List Byte)
  | firmwareCommit
  | spdmRequest (r : SpdmReq)
  | oobAccountingRead (r : OobReq)
  | storeAcknowledgement (id : Nat)
  | convoyPlayStop (g : Fin 16)
  | pldmMonitoringAndControl (r : PldmReq)
  | putGetChunk (q : Fin 64) (seq : Nat) (h : HostAccess)
  deriving DecidableEq, Repr

end Sys2Proof
end

