-- ==== Sys2Proof/WellFormed.lean ====
section
/-!
DEFINITION. The checks on an instruction that its type does not make: R201, R209, R215 and R216 of spec/14, and the sizes
of what an event carries.
-/

namespace Sys2Proof

/-- The opcode byte of an MMA (spec/14 R214). -/
def MmaPair.opc : MmaPair → Nat
  | .mxf4 => 0x10
  | .f16 false false => 0x20
  | .f16 true true => 0x21
  | .f16 false true => 0x22
  | .f16 true false => 0x23
  | .sf a w => 0x80 + 8 * a.val + w.val
  | .si a w => 0xC0 + 8 * a.val + w.val

/-- The largest K of a pair (spec/14 R214). -/
def MmaPair.maxK : MmaPair → Nat
  | .mxf4 => 256
  | .f16 _ _ => 64
  | .sf _ _ => 128
  | .si _ _ => 128

/-- bytes(K), the bytes an activation row of K elements holds (spec/17 R279). -/
def MmaPair.rowBytes (p : MmaPair) (k : Nat) : Nat :=
  match p with
  | .mxf4 => (k + 1) / 2
  | .f16 _ _ => 2 * k
  | .sf _ _ => k
  | .si _ _ => k

/-- Sizes of the typed buffers in bytes (spec/08 R114). -/
def Buf.size : Buf → Nat
  | .w => 0x80000
  | .a => 0x40000
  | .c => 0x20000
  | .l => 0x20000

/-- The malformed cases of MLOAD (spec/14 R215, spec/17 R275). -/
def MloadCmd.wf (c : MloadCmd) : Bool :=
  c.boff.toNat % 64 == 0 && c.bstr.toNat % 64 == 0 &&
  c.boff.toNat + 15 * c.bstr.toNat + 128 ≤ Buf.w.size &&
  (!c.scw || c.soff.toNat + 15 * c.sstr.toNat + 8 ≤ Buf.w.size)

/-- ROWS rows of 64 bytes from BOFF in steps of BSTR inside the C buffer (spec/14 R215, spec/17 R277, R280). -/
def rowsInC (rows : BitVec 12) (boff bstr : BitVec 20) : Bool :=
  1 ≤ rows.toNat && rows.toNat ≤ 2048 && boff.toNat % 64 == 0 && bstr.toNat % 64 == 0 &&
  boff.toNat + (rows.toNat - 1) * bstr.toNat + 64 ≤ Buf.c.size

def MzeroCmd.wf (c : MzeroCmd) : Bool := rowsInC c.rows c.boff c.bstr

/-- MDRAIN: its destination is checked when each row is written (spec/17 R280). -/
def MdrainCmd.wf (c : MdrainCmd) : Bool := rowsInC c.rows c.boff c.bstr && c.dstr.toNat % 64 == 0

/-- MMA (spec/17 R279). -/
def MmaCmd.wf (c : MmaCmd) : Bool :=
  c.pair != .si 0 0 &&
  1 ≤ c.k.toNat && c.k.toNat ≤ c.pair.maxK &&
  1 ≤ c.rows.toNat && c.rows.toNat ≤ 2048 &&
  c.boff.toNat % 64 == 0 && c.bstr.toNat % 64 == 0 && c.coff.toNat % 64 == 0 &&
  c.boff.toNat + (c.rows.toNat - 1) * c.bstr.toNat + c.pair.rowBytes c.k.toNat ≤ Buf.a.size &&
  (!c.sca || c.soff.toNat + (c.rows.toNat - 1) * c.sstr.toNat + (c.k.toNat + 31) / 32 ≤ Buf.a.size) &&
  c.coff.toNat + 64 * c.rows.toNat ≤ Buf.c.size &&
  (c.pair != .mxf4 || c.sca)

/-- A record that R215 does not call malformed. -/
def MatCmd.wf : MatCmd → Bool
  | .mload c => c.wf
  | .mswap _ => true
  | .mdrain c => c.wf
  | .mzero c => c.wf
  | .mshape _ => true
  | .mma c => c.wf

/-- FMT of FCVT: neither FP32 nor mxf4 (spec/16 R255). -/
def Fmt.forFcvt : Fmt → Bool
  | .fp32 => false
  | .mxf4 => false
  | _ => true

/-- TFMT and SFMT of VCVT: FP32, BF16, FP16, INT8, INT32 or a b8 format (spec/16 R264). -/
def Fmt.forVcvt : Fmt → Bool
  | .mxf4 => false
  | .int64 => false
  | _ => true

/-- TFMT of VQUANT: INT8, mxf4 or a b8 format (spec/16 R265). -/
def Fmt.forVquant : Fmt → Bool
  | .int8 => true
  | .mxf4 => true
  | .b8 _ _ _ => true
  | _ => false

/-- Element bytes of a format (spec/08 R125); two mxf4 elements share a byte. -/
def Fmt.bytes : Fmt → Nat
  | .fp32 => 4
  | .bf16 => 2
  | .fp16 => 2
  | .int8 => 1
  | .int32 => 4
  | .mxf4 => 1
  | .int64 => 8
  | .b8 _ _ _ => 1

/-- r of R264: how many parts the wider register has; PART ≥ r is illegal. -/
def vcvtParts (t s : Fmt) : Nat := max (t.bytes / s.bytes) (max (s.bytes / t.bytes) 1)

/-- FN 6 to 9 of VCMP take integer elements only (spec/16 R259). -/
def Cc.forEt : Cc → Et → Bool
  | .ltu, .fp _ => false
  | .leu, .fp _ => false
  | .gtu, .fp _ => false
  | .geu, .fp _ => false
  | _, _ => true

/-- What a plain access carries: the widths of R233 and R234. -/
def AccKind.wf : AccKind → Bool
  | .load w => w == 1 || w == 2 || w == 4 || w == 8
  | .store w _ => w == 1 || w == 2 || w == 4 || w == 8
  | .atomic _ _ _ => true
  | .row _ => true

/-- The sizes of the sensor record (spec/06 R83): 256 temperatures, 9 rails, 2 diodes. -/
def SensorReading.wf (r : SensorReading) : Bool :=
  r.temps.length == 256 && r.rails.length == 9 && r.diodes.length == 2

/-- A convoy write carries bytes inside its operation's payload (spec/03 R42). -/
def Chunk.wf (c : Chunk) : Bool := c.offset + c.data.length ≤ c.total

/-- An instruction that an encoding stands for (spec/14 R216), a matrix record that R215 accepts, an event whose operands
have the sizes of the spec. -/
def Instr.wf : Instr → Bool
  | .recv d => d.val % 2 == 0
  | .peekm d => d.val % 2 == 0
  | .bextu _ _ pos lenm1 => pos.val + lenm1.val ≤ 63
  | .bext _ _ pos lenm1 => pos.val + lenm1.val ≤ 63
  | .bins _ _ pos lenm1 => pos.val + lenm1.val ≤ 63
  | .fcvtf _ _ fmt _ _ => fmt.forFcvt
  | .fcvtx _ _ fmt _ _ => fmt.forFcvt
  | .vcmp _ _ _ _ cc et => cc.forEt et
  | .vcvt _ _ t s p => t.forVcvt && s.forVcvt && p.val < vcvtParts t s
  | .vquant _ a t _ => a.val % 2 == 0 && t.forVquant
  | .vloop blen _ => blen.val != 0
  | .mload _ c => c.wf
  | .mzero _ c => c.wf
  | .mdrain _ c => c.wf
  | .mma _ c => c.wf
  | .accessPerform (.fabric r) => r.kind.wf
  | .sprForward r => r.kind.wf
  | .convoyChunkArrival c => c.wf
  | .messageArrival (.peer m) => m.payload.length ≤ 2097152
  | .sensorSample r => r.wf
  | .budgetPeriod demand _ => demand.length == 256
  | _ => true

/-- Which part of a bundle an instruction is, or that it is no bundle word. -/
inductive Kind | cWord | aWord | matrix | event
  deriving DecidableEq, Repr

end Sys2Proof
end

