-- ==== Sys2Proof/Decode.lean ====
section
/-!
DEFINITION. The decoder of bundle words and matrix records, total on any bits and rejecting by name (spec/14 R198 to R216),
and after it the encoder, written from the same tables.
-/

namespace Sys2Proof

/-- Why bits are not an instruction: the list of spec/14 R216, and R215 for a matrix record. -/
inductive Illegal
  /-- a reserved C or A major opcode, or a reserved opcode of a matrix record -/
  | major
  /-- a reserved FN, SUB, OP, TEST, CIDX, MODE, ET, RM, SM, FMT or PART value -/
  | sub
  /-- an FE value that the instruction does not accept -/
  | fe
  /-- CLASS 11 -/
  | cls
  /-- a nonzero must-be-zero bit -/
  | mbz
  /-- a register field value ruled illegal by R201 -/
  | reg
  /-- BLEN 0, or POS + LENM1 > 63 -/
  | range
  /-- LI with L = 0 -/
  | liNoLit
  /-- a matrix record that R215 calls malformed for another reason -/
  | malformed
  deriving DecidableEq, Repr

/-- Bits lo + n - 1 down to lo of a word. -/
def fld (w lo n : Nat) : Nat := w / 2 ^ lo % 2 ^ n

/-- A field as a register number of a file of 32. -/
def toX (n : Nat) : Fin 32 := Fin.ofNat 32 n

/-- Refuse with a name unless the condition holds. -/
def need (b : Bool) (e : Illegal) : Except Illegal Unit := if b then .ok () else .error e

/-- An f register in a five-bit field (spec/14 R201). -/
def getF (n : Nat) : Except Illegal FReg := if h : n < 16 then .ok ⟨n, h⟩ else .error .reg

/-- An m register in a five-bit field (spec/14 R201). -/
def getM (n : Nat) : Except Illegal MReg := if h : n < 8 then .ok ⟨n, h⟩ else .error .reg

/-- MS and MD, three bits. -/
def toM (n : Nat) : MReg := Fin.ofNat 8 n

/-! ## Field tables -/

def bufOf : Nat → Buf
  | 0 => .w
  | 1 => .a
  | 2 => .c
  | _ => .l

def classOf : Nat → Except Illegal RClass
  | 0 => .ok .ord
  | 1 => .ok .adp
  | 2 => .ok .spr
  | _ => .error .cls

def loadFeOf : Nat → Except Illegal LoadFe
  | 0 => .ok .plain
  | 1 => .ok .wf
  | 2 => .ok .tk
  | _ => .error .fe

def storeFeOf : Nat → Except Illegal StoreFe
  | 0 => .ok .plain
  | 3 => .ok .we
  | 4 => .ok .fl
  | _ => .error .fe

/-- FE of the atomics: 0 or 1 (spec/14 R206). -/
def atomFeOf : Nat → Except Illegal Bool
  | 0 => .ok false
  | 1 => .ok true
  | _ => .error .fe

def intEtOf : Nat → Except Illegal IntEt
  | 0 => .ok .i8
  | 1 => .ok .i16
  | 2 => .ok .i32
  | 3 => .ok .i64
  | _ => .error .sub

def fpEtOf : Nat → Except Illegal FpEt
  | 4 => .ok .f32
  | 5 => .ok .bf16
  | 6 => .ok .fp16
  | _ => .error .sub

def etOf : Nat → Except Illegal Et
  | 0 => .ok (.int .i8)
  | 1 => .ok (.int .i16)
  | 2 => .ok (.int .i32)
  | 3 => .ok (.int .i64)
  | 4 => .ok (.fp .f32)
  | 5 => .ok (.fp .bf16)
  | 6 => .ok (.fp .fp16)
  | _ => .error .sub

def rmOf : Nat → Except Illegal Rm
  | 0 => .ok .rne
  | 1 => .ok .rtz
  | 2 => .ok .rdn
  | 3 => .ok .rup
  | 7 => .ok .dyn
  | _ => .error .sub

def smOf : Nat → Except Illegal Sm
  | 0 => .ok .fpctl
  | 1 => .ok .sat
  | 2 => .ok .nosat
  | _ => .error .sub

/-- The seven-bit EFMT codes of spec/08 R125, and 0x07 for INT64 (spec/14 R207). -/
def fmtOf (n : Nat) : Except Illegal Fmt :=
  match n with
  | 1 => .ok .fp32
  | 2 => .ok .bf16
  | 3 => .ok .fp16
  | 4 => .ok .int8
  | 5 => .ok .int32
  | 6 => .ok .mxf4
  | 7 => .ok .int64
  | _ =>
    if 0x44 ≤ n ∧ n ≤ 0x5F then
      .ok (.b8 (Fin.ofNat 7 ((n - 0x44) / 4)) (n / 2 % 2 == 1) (n % 2 == 1))
    else .error .sub

def eszOf : Nat → Esz
  | 0 => .e1
  | 1 => .e2
  | 2 => .e4
  | _ => .e8

def dirOf : Nat → Dir
  | 0 => .n
  | 1 => .e
  | 2 => .s
  | _ => .w

def ldWidthOf : Nat → Except Illegal LdWidth
  | 0 => .ok .bu
  | 1 => .ok .b
  | 2 => .ok .hu
  | 3 => .ok .h
  | 4 => .ok .wu
  | 5 => .ok .w
  | 6 => .ok .d
  | _ => .error .sub

def stWidthOf : Nat → Except Illegal StWidth
  | 0 => .ok .b
  | 2 => .ok .h
  | 4 => .ok .w
  | 6 => .ok .d
  | _ => .error .sub

def partModeOf : Nat → Except Illegal PartMode
  | 0 => .ok .rank
  | 1 => .ok .meshX
  | 2 => .ok .meshY
  | _ => .error .sub

def ccOf : Nat → Except Illegal Cc
  | 0 => .ok .eq
  | 1 => .ok .ne
  | 2 => .ok .lt
  | 3 => .ok .le
  | 4 => .ok .gt
  | 5 => .ok .ge
  | 6 => .ok .ltu
  | 7 => .ok .leu
  | 8 => .ok .gtu
  | 9 => .ok .geu
  | _ => .error .sub

/-- The control-register index (spec/14 R211). -/
def cregOf (n : Nat) : Except Illegal CReg :=
  match n with
  | 0x00 => .ok .coreStatus
  | 0x01 => .ok .trapCause
  | 0x02 => .ok .trapPc
  | 0x03 => .ok .trapVal
  | 0x04 => .ok .trapScratch
  | 0x05 => .ok .tvec
  | 0x06 => .ok .intEn
  | 0x07 => .ok .intPend
  | 0x08 => .ok .time
  | 0x09 => .ok .timerCmp
  | 0x0A => .ok .qtimeout
  | 0x0B => .ok .wdog
  | 0x0C => .ok .fpctl
  | 0x0D => .ok .xphStat
  | 0x0E => .ok .vlen
  | 0x0F => .ok .arrayShape
  | 0x10 => .ok .mqAddr
  | 0x11 => .ok .mqStat
  | 0x12 => .ok .coreid
  | 0x13 => .ok .fduty
  | 0x40 => .ok .cpSrc
  | 0x41 => .ok .cpDst
  | 0x42 => .ok .cpIdx
  | 0x49 => .ok .cpClass
  | 0x4A => .ok .cpFlags
  | 0x4B => .ok .cpLaunch
  | _ =>
    if 0x14 ≤ n ∧ n ≤ 0x17 then .ok (.gmem (Fin.ofNat 4 (n - 0x14)))
    else if 0x18 ≤ n ∧ n ≤ 0x1B then .ok (.gscope (Fin.ofNat 4 (n - 0x18)))
    else if 0x43 ≤ n ∧ n ≤ 0x45 then .ok (.cpStride (Fin.ofNat 3 (n - 0x43)))
    else if 0x46 ≤ n ∧ n ≤ 0x48 then .ok (.cpCount (Fin.ofNat 3 (n - 0x46)))
    else if 0x50 ≤ n ∧ n ≤ 0x53 then .ok (.strmCfg (Fin.ofNat 4 (n - 0x50)))
    else if 0x54 ≤ n ∧ n ≤ 0x57 then .ok (.strmStr (Fin.ofNat 4 (n - 0x54)))
    else if 0x58 ≤ n ∧ n ≤ 0x5B then .ok (.strmCnt (Fin.ofNat 4 (n - 0x58)))
    else if 0x60 ≤ n ∧ n ≤ 0x67 then .ok (.relayCnt (Fin.ofNat 8 (n - 0x60)))
    else if 0x68 ≤ n ∧ n ≤ 0x6F then .ok (.relayTerm (Fin.ofNat 8 (n - 0x68)))
    else .error .sub

/-! ## The C word (spec/14 R202 to R206) -/

/-- Format CX. -/
def decodeCX (mj w : Nat) : Except Illegal Instr := do
  let d := fld w 19 5
  let a := fld w 14 5
  let b := fld w 9 5
  let fn := fld w 0 9
  match mj, fn with
  | 0x26, 0x000 => need (d == 0 && a == 0 && b == 0) .mbz; pure .rfence
  | 0x26, 0x001 => need (d == 0 && a == 0 && b == 0) .mbz; pure .ifence
  | 0x26, 0x002 => need (a == 0 && b == 0) .mbz; need (d % 2 == 0) .reg; pure (.recv (toX d))
  | 0x26, 0x003 => need (d == 0 && a == 0 && b == 0) .mbz; pure .waitm
  | 0x26, 0x004 => need (a == 0 && b == 0) .mbz; need (d % 2 == 0) .reg; pure (.peekm (toX d))
  | 0x26, 0x008 => need (d == 0 && a == 0 && b == 0) .mbz; pure .svc
  | 0x26, 0x009 => need (d == 0 && a == 0 && b == 0) .mbz; pure .sret
  | 0x26, 0x00A => need (d == 0 && a == 0 && b == 0) .mbz; pure .wfi
  | 0x26, 0x00B => need (d == 0 && a == 0 && b == 0) .mbz; pure .halt
  | 0x26, 0x00C => need (d == 0 && a == 0 && b == 0) .mbz; pure .hret
  | 0x2C, 0 => need (d == 0 && b == 0) .mbz; pure (.xexpect (toX a))
  | 0x31, 0 => need (b == 0) .mbz; pure (.postrx (toX d) (toX a))
  | 0x32, 0 => need (b == 0) .mbz; pure (.send (toX d) (toX a))
  | 0x33, 0 => need (d == 0 && b == 0) .mbz; pure (.cancelrx (toX a))
  | 0x34, 0 => need (d == 0) .mbz; pure (.gatepost (toX a) (toX b))
  | 0x35, 0 => need (d == 0) .mbz; pure (.mktrun (toX a) (toX b))
  | 0x35, 1 => need (b == 0) .mbz; pure (.mktrd (toX d) (toX a))
  | 0x35, 2 => need (d == 0) .mbz; pure (.mktwr (toX a) (toX b))
  | 0x36, 0 => need (b == 0) .mbz; pure (.rqry (toX d) (toX a))
  | 0x36, 1 => need (b == 0) .mbz; pure (.rqryFetch (toX d) (toX a))
  | 0x36, 2 => need (b == 0) .mbz; pure (.rqryPin (toX d) (toX a))
  | 0x36, 3 => need (b == 0) .mbz; pure (.rqryUnpin (toX d) (toX a))
  | 0x37, 0 => need (b == 0) .mbz; pure (.tokacq (toX d) (toX a))
  | 0x37, 1 => need (b == 0) .mbz; pure (.tokrel (toX d) (toX a))
  | 0x38, 0 => need (d == 0) .mbz; pure (.cvarm (toX a) (toX b))
  | 0x38, 1 => need (d == 0) .mbz; pure (.cvplay (toX a) (toX b))
  | 0x39, 0 => pure (.cpreplay (toX d) (toX a) (toX b) .resume)
  | 0x39, 1 => pure (.cpreplay (toX d) (toX a) (toX b) .abandon)
  | _, _ => .error .sub

/-- Format CB and the jumps. -/
def decodeBranch (mj w : Nat) : Except Illegal Instr :=
  let a := toX (fld w 19 5)
  let b := toX (fld w 14 5)
  let off := BitVec.ofNat 14 (fld w 0 14)
  match mj with
  | 0x01 => .ok (.jal a (BitVec.ofNat 19 (fld w 0 19)))
  | 0x02 => .ok (.jalr a b off)
  | 0x04 => .ok (.beq a b off)
  | 0x05 => .ok (.bne a b off)
  | 0x06 => .ok (.blt a b off)
  | 0x07 => .ok (.bge a b off)
  | 0x08 => .ok (.bltu a b off)
  | 0x09 => .ok (.bgeu a b off)
  | _ => .error .major

/-- Format CM. -/
def decodeCM (w : Nat) : Except Illegal Instr := do
  let m := toM (fld w 21 3)
  let off := BitVec.ofNat 14 (fld w 0 14)
  need (fld w 14 5 == 0) .mbz
  match fld w 19 2 with
  | 0 => pure (.bmaskAny m off)
  | 1 => pure (.bmaskNone m off)
  | 2 => pure (.bmaskAll m off)
  | _ => .error .sub

/-- LI, format CN with the literal of the bundle (spec/14 R199, R203). -/
def decodeLi (w : Nat) (lit : Option Half) : Except Illegal Instr := do
  let d := fld w 19 5
  need (fld w 0 17 == 0) .mbz
  match lit with
  | none => .error .liNoLit
  | some l =>
    match fld w 17 2 with
    | 0 => pure (.li (toX d) l)
    | 1 => pure (.liU (toX d) l)
    | 2 => pure (.liH (toX d) l)
    | _ => do let f ← getF d; pure (.liF f l)

/-- Format CL. -/
def decodeCL (mj w : Nat) : Except Illegal Instr := do
  let d := toX (fld w 19 5)
  let a := toX (fld w 14 5)
  let buf := bufOf (fld w 12 2)
  let imm := BitVec.ofNat 9 (fld w 0 9)
  match mj with
  | 0x10 => do let fe ← loadFeOf (fld w 9 3); pure (.llb d a buf fe imm)
  | 0x11 => do let fe ← loadFeOf (fld w 9 3); pure (.llbu d a buf fe imm)
  | 0x12 => do let fe ← loadFeOf (fld w 9 3); pure (.llh d a buf fe imm)
  | 0x13 => do let fe ← loadFeOf (fld w 9 3); pure (.llhu d a buf fe imm)
  | 0x14 => do let fe ← loadFeOf (fld w 9 3); pure (.llw d a buf fe imm)
  | 0x15 => do let fe ← loadFeOf (fld w 9 3); pure (.llwu d a buf fe imm)
  | 0x16 => do let fe ← loadFeOf (fld w 9 3); pure (.lld d a buf fe imm)
  | 0x18 => do let fe ← storeFeOf (fld w 9 3); pure (.slb d a buf fe imm)
  | 0x19 => do let fe ← storeFeOf (fld w 9 3); pure (.slh d a buf fe imm)
  | 0x1A => do let fe ← storeFeOf (fld w 9 3); pure (.slw d a buf fe imm)
  | 0x1B => do let fe ← storeFeOf (fld w 9 3); pure (.sld d a buf fe imm)
  | _ => .error .major

/-- Formats CV and CS. -/
def decodeLocalVec (mj w : Nat) : Except Illegal Instr := do
  let v := toX (fld w 19 5)
  let a := toX (fld w 14 5)
  match mj with
  | 0x1C => pure (.vld v a (bufOf (fld w 12 2)) (toM (fld w 9 3)) (BitVec.ofNat 9 (fld w 0 9)))
  | 0x1D => pure (.vst v a (bufOf (fld w 12 2)) (toM (fld w 9 3)) (BitVec.ofNat 9 (fld w 0 9)))
  | _ => do
    let b := toX (fld w 9 5)
    let buf := bufOf (fld w 7 2)
    let m := toM (fld w 4 3)
    let esz := eszOf (fld w 2 2)
    need (fld w 0 2 == 0) .mbz
    match mj with
    | 0x1E => pure (.vlds v a b buf m esz)
    | 0x1F => pure (.vsts v a b buf m esz)
    | 0x20 => pure (.vldx v a b buf m esz)
    | 0x21 => pure (.vstx v a b buf m esz)
    | _ => .error .major

/-- Format CG. -/
def decodeCG (mj w : Nat) : Except Illegal Instr := do
  let d := toX (fld w 19 5)
  let a := toX (fld w 14 5)
  let b := toX (fld w 9 5)
  let op := fld w 0 4
  let cls ← classOf (fld w 7 2)
  match mj with
  | 0x22 => do
    need (fld w 9 5 == 0) .mbz
    let fe ← loadFeOf (fld w 4 3)
    let ow ← ldWidthOf op
    pure (.ld d a cls fe ow)
  | 0x23 => do
    need (fld w 19 5 == 0) .mbz
    let fe ← storeFeOf (fld w 4 3)
    let ow ← stWidthOf op
    pure (.st a b cls fe ow)
  | _ => do
    let wf ← atomFeOf (fld w 4 3)
    match op with
    | 0 => pure (.aadd d a b cls wf)
    | 1 => pure (.amin d a b cls wf)
    | 2 => pure (.amax d a b cls wf)
    | 3 => pure (.aand d a b cls wf)
    | 4 => pure (.aor d a b cls wf)
    | 5 => pure (.axor d a b cls wf)
    | 6 => pure (.aswap d a b cls wf)
    | 7 => pure (.acas d a b cls wf)
    | 8 => pure (.afadd d a b cls wf)
    | _ => .error .sub

/-- Formats CF, CC, CP, CY. -/
def decodeCtl (mj w : Nat) : Except Illegal Instr := do
  match mj with
  | 0x25 => do
    need (fld w 0 12 == 0) .mbz
    pure (.fence (BitVec.ofNat 3 (fld w 21 3)) (BitVec.ofNat 4 (fld w 17 4)) (toX (fld w 12 5)))
  | 0x27 => do
    need (fld w 0 11 == 0) .mbz
    let c ← cregOf (fld w 11 8)
    pure (.getc (toX (fld w 19 5)) c)
  | 0x28 => do
    need (fld w 0 11 == 0) .mbz
    let c ← cregOf (fld w 11 8)
    pure (.setc (toX (fld w 19 5)) c)
  | 0x29 => do
    need (fld w 0 8 == 0) .mbz
    pure (.safept (BitVec.ofNat 16 (fld w 8 16)))
  | 0x2A => do
    need (fld w 9 7 == 0) .mbz
    match fld w 0 9 with
    | 0 => pure (.sync (Fin.ofNat 256 (fld w 16 8)))
    | 1 => pure (.xend (Fin.ofNat 256 (fld w 16 8)))
    | _ => .error .sub
  | 0x30 => do
    need (fld w 0 11 == 0) .mbz
    pure (.gid (toX (fld w 19 5)) (Fin.ofNat 256 (fld w 11 8)))
  | _ => .error .major

/-- Formats CQ and CN (NQSEND, NQRECV). -/
def decodeCQ (mj w : Nat) : Except Illegal Instr := do
  let d := fld w 19 5
  let a := fld w 14 5
  let g := fld w 6 8
  match mj with
  | 0x2B => do
    need (fld w 0 4 == 0 && fld w 4 2 == 0) .mbz
    pure (.xsend (toX d) (toX a) (BitVec.ofNat 8 g))
  | 0x2D => do
    need (fld w 0 16 == 0) .mbz
    if fld w 16 1 == 1 then pure (.nqsend (toX d) (dirOf (fld w 17 2)))
    else pure (.nqrecv (toX d) (dirOf (fld w 17 2)))
  | 0x2E => do
    need (fld w 0 4 == 0) .mbz
    match fld w 4 2 with
    | 0 => do need (g == 0) .mbz; pure (.wlpush (toX d) (toX a))
    | 1 => do need (g == 0) .mbz; pure (.wlpop (toX d) (toX a))
    | 2 => do need (d == 0 && a == 0) .mbz; pure (.wldone (Fin.ofNat 256 g))
    | _ => .error .sub
  | 0x2F => do
    need (fld w 0 4 == 0) .mbz
    let md ← partModeOf (fld w 4 2)
    pure (.part (toX d) (toX a) (Fin.ofNat 256 g) md)
  | _ => .error .major

/-- The C word: the map of spec/14 R204. The literal is that of a bundle with L = 1. -/
def decodeC (w : Nat) (lit : Option Half) : Except Illegal Instr :=
  let mj := fld w 24 6
  if mj == 0x00 then (if fld w 0 24 == 0 then .ok .cSlotNop else .error .mbz)
  else if mj == 0x03 then decodeCM w
  else if mj ≤ 0x09 then decodeBranch mj w
  else if mj == 0x0A then decodeLi w lit
  else if mj ≤ 0x0F then .error .major
  else if mj ≤ 0x1B then decodeCL mj w
  else if mj ≤ 0x21 then decodeLocalVec mj w
  else if mj ≤ 0x24 then decodeCG mj w
  else if mj == 0x25 then decodeCtl mj w
  else if mj == 0x26 then decodeCX mj w
  else if mj ≤ 0x2A then decodeCtl mj w
  else if mj == 0x2B then decodeCQ mj w
  else if mj == 0x2C then decodeCX mj w
  else if mj ≤ 0x2F then decodeCQ mj w
  else if mj == 0x30 then decodeCtl mj w
  else if mj ≤ 0x39 then decodeCX mj w
  else .error .major

/-! ## The A word (spec/14 R207 to R210) -/

/-- Major 0x01: integer register-register. -/
def decodeAR (w : Nat) : Except Illegal Instr :=
  let d := toX (fld w 21 5)
  let a := toX (fld w 16 5)
  let b := toX (fld w 11 5)
  let one (i : Instr) : Except Illegal Instr := if fld w 11 5 == 0 then .ok i else .error .mbz
  match fld w 0 11 with
  | 0x000 => .ok (.add d a b)
  | 0x001 => .ok (.sub d a b)
  | 0x002 => .ok (.and d a b)
  | 0x003 => .ok (.or d a b)
  | 0x004 => .ok (.xor d a b)
  | 0x005 => .ok (.sll d a b)
  | 0x006 => .ok (.srl d a b)
  | 0x007 => .ok (.sra d a b)
  | 0x008 => .ok (.slt d a b)
  | 0x009 => .ok (.sltu d a b)
  | 0x010 => .ok (.mul d a b)
  | 0x011 => .ok (.mulh d a b)
  | 0x012 => .ok (.mulhu d a b)
  | 0x013 => .ok (.div d a b)
  | 0x014 => .ok (.divu d a b)
  | 0x015 => .ok (.rem d a b)
  | 0x016 => .ok (.remu d a b)
  | 0x018 => .ok (.min d a b)
  | 0x019 => .ok (.max d a b)
  | 0x01A => .ok (.minu d a b)
  | 0x01B => .ok (.maxu d a b)
  | 0x020 => one (.clz d a)
  | 0x021 => one (.ctz d a)
  | 0x022 => one (.popc d a)
  | 0x028 => .ok (.shadd d a b 0)
  | 0x029 => .ok (.shadd d a b 1)
  | 0x02A => .ok (.shadd d a b 2)
  | 0x02B => .ok (.shadd d a b 3)
  | _ => .error .sub

/-- Major 0x02: integer immediate. -/
def decodeAI (w : Nat) : Except Illegal Instr :=
  let d := toX (fld w 21 5)
  let a := toX (fld w 16 5)
  let imm := BitVec.ofNat 12 (fld w 0 12)
  let sh (i : Instr) : Except Illegal Instr := if fld w 6 6 == 0 then .ok i else .error .mbz
  let n : Fin 64 := Fin.ofNat 64 (fld w 0 6)
  match fld w 12 4 with
  | 0 => .ok (.addi d a imm)
  | 1 => .ok (.andi d a imm)
  | 2 => .ok (.ori d a imm)
  | 3 => .ok (.xori d a imm)
  | 4 => sh (.slli d a n)
  | 5 => sh (.srli d a n)
  | 6 => sh (.srai d a n)
  | 7 => .ok (.slti d a imm)
  | 8 => .ok (.sltiu d a imm)
  | 9 => .ok (.muli d a imm)
  | _ => .error .sub

/-- Major 0x03: halfword lanes. -/
def decodeAM (w : Nat) : Except Illegal Instr := do
  let d := toX (fld w 21 5)
  let q : Fin 4 := Fin.ofNat 4 (fld w 18 2)
  let imm := BitVec.ofNat 16 (fld w 0 16)
  need (fld w 16 2 == 0) .mbz
  if fld w 20 1 == 0 then pure (.hset d imm q) else pure (.hins d imm q)

/-- Major 0x04: bitfields. -/
def decodeAB (w : Nat) : Except Illegal Instr := do
  let d := toX (fld w 21 5)
  let a := toX (fld w 16 5)
  let pos : Fin 64 := Fin.ofNat 64 (fld w 10 6)
  let lenm1 : Fin 64 := Fin.ofNat 64 (fld w 4 6)
  need (fld w 10 6 + fld w 4 6 ≤ 63) .range
  match fld w 0 4 with
  | 0 => pure (.bextu d a pos lenm1)
  | 1 => pure (.bext d a pos lenm1)
  | 2 => pure (.bins d a pos lenm1)
  | _ => .error .sub

/-- Major 0x08: scalar floating point. -/
def decodeFop (w : Nat) : Except Illegal Instr := do
  let d := fld w 21 5
  let a := fld w 16 5
  let b := fld w 11 5
  let fn := fld w 6 5
  need (fld w 0 3 == 0) .mbz
  if fn ≤ 3 then do
    let fd ← getF d
    let fa ← getF a
    let fb ← getF b
    let rm ← rmOf (fld w 3 3)
    match fn with
    | 0 => pure (.fadd fd fa fb rm)
    | 1 => pure (.fsub fd fa fb rm)
    | 2 => pure (.fmul fd fa fb rm)
    | _ => pure (.fdiv fd fa fb rm)
  else if fn == 4 then do
    need (b == 0) .mbz
    let fd ← getF d
    let fa ← getF a
    let rm ← rmOf (fld w 3 3)
    pure (.fsqrt fd fa rm)
  else if fn ≤ 14 then do
    need (fld w 3 3 == 0) .mbz
    need (fn ≤ 9 || b == 0) .mbz
    match fn with
    | 5 => do let fd ← getF d; let fa ← getF a; let fb ← getF b; pure (.fmin fd fa fb)
    | 6 => do let fd ← getF d; let fa ← getF a; let fb ← getF b; pure (.fmax fd fa fb)
    | 7 => do let fa ← getF a; let fb ← getF b; pure (.feq (toX d) fa fb)
    | 8 => do let fa ← getF a; let fb ← getF b; pure (.flt (toX d) fa fb)
    | 9 => do let fa ← getF a; let fb ← getF b; pure (.fle (toX d) fa fb)
    | 10 => do let fa ← getF a; pure (.fclass (toX d) fa)
    | 11 => do let fa ← getF a; pure (.fmvX (toX d) fa)
    | 12 => do let fd ← getF d; pure (.fmvF fd (toX a))
    | 13 => do let fd ← getF d; let fa ← getF a; pure (.fneg fd fa)
    | _ => do let fd ← getF d; let fa ← getF a; pure (.fabs fd fa)
  else .error .sub

/-- Major 0x09: scalar fused multiply-add. -/
def decodeFma (w : Nat) : Except Illegal Instr := do
  let fd ← getF (fld w 21 5)
  let fa ← getF (fld w 16 5)
  let fb ← getF (fld w 11 5)
  let fc ← getF (fld w 6 5)
  let rm ← rmOf (fld w 3 3)
  match fld w 0 3 with
  | 0 => pure (.fmadd fd fa fb fc rm)
  | 1 => pure (.fmsub fd fa fb fc rm)
  | 2 => pure (.fnmadd fd fa fb fc rm)
  | 3 => pure (.fnmsub fd fa fb fc rm)
  | _ => .error .sub

/-- Major 0x0A: scalar conversion. -/
def decodeAC (w : Nat) : Except Illegal Instr := do
  need (fld w 0 3 == 0) .mbz
  let fmt ← fmtOf (fld w 9 7)
  need fmt.forFcvt .sub
  let sm ← smOf (fld w 6 2)
  let rm ← rmOf (fld w 3 3)
  if fld w 8 1 == 0 then do
    let fd ← getF (fld w 21 5)
    pure (.fcvtf fd (toX (fld w 16 5)) fmt sm rm)
  else do
    let fa ← getF (fld w 16 5)
    pure (.fcvtx (toX (fld w 21 5)) fa fmt sm rm)

/-- Major 0x10: vector integer. -/
def decodeVint (w : Nat) : Except Illegal Instr := do
  let d := toX (fld w 21 5)
  let a := toX (fld w 16 5)
  let b := toX (fld w 11 5)
  let m := toM (fld w 8 3)
  let et ← intEtOf (fld w 5 3)
  match fld w 0 5 with
  | 0 => pure (.vadd d a b m et)
  | 1 => pure (.vsub d a b m et)
  | 2 => pure (.vmul d a b m et)
  | 3 => pure (.vmulh d a b m et)
  | 4 => pure (.vmin d a b m et)
  | 5 => pure (.vmax d a b m et)
  | 6 => pure (.vminu d a b m et)
  | 7 => pure (.vmaxu d a b m et)
  | 8 => pure (.vand d a b m et)
  | 9 => pure (.vor d a b m et)
  | 10 => pure (.vxor d a b m et)
  | 11 => pure (.vsll d a b m et)
  | 12 => pure (.vsrl d a b m et)
  | 13 => pure (.vsra d a b m et)
  | 14 => pure (.vadds d a b m et)
  | 15 => pure (.vsubs d a b m et)
  | 16 => do need (fld w 11 5 == 0) .mbz; pure (.vabs d a m et)
  | 17 => do need (fld w 11 5 == 0) .mbz; pure (.vneg d a m et)
  | _ => .error .sub

/-- Major 0x11: vector floating point. -/
def decodeVfp (w : Nat) : Except Illegal Instr := do
  let d := toX (fld w 21 5)
  let a := toX (fld w 16 5)
  let b := toX (fld w 11 5)
  let m := toM (fld w 8 3)
  let et ← fpEtOf (fld w 5 3)
  match fld w 0 5 with
  | 0 => pure (.vfadd d a b m et)
  | 1 => pure (.vfsub d a b m et)
  | 2 => pure (.vfmul d a b m et)
  | 3 => pure (.vfdiv d a b m et)
  | 4 => do need (fld w 11 5 == 0) .mbz; pure (.vfsqrt d a m et)
  | 5 => pure (.vfmin d a b m et)
  | 6 => pure (.vfmax d a b m et)
  | 7 => do need (fld w 11 5 == 0) .mbz; pure (.vfabs d a m et)
  | 8 => do need (fld w 11 5 == 0) .mbz; pure (.vfneg d a m et)
  | _ => .error .sub

/-- Major 0x12: vector fused multiply-add. -/
def decodeVfma (w : Nat) : Except Illegal Instr := do
  let d := toX (fld w 21 5)
  let a := toX (fld w 16 5)
  let b := toX (fld w 11 5)
  let m := toM (fld w 8 3)
  let et ← fpEtOf (fld w 5 3)
  let rm ← rmOf (fld w 0 3)
  match fld w 3 2 with
  | 0 => pure (.vfmadd d a b m et rm)
  | 1 => pure (.vfmsub d a b m et rm)
  | 2 => pure (.vfnmadd d a b m et rm)
  | _ => pure (.vfnmsub d a b m et rm)

/-- Majors 0x13 to 0x17: compare, select, reduce, permute, broadcast. -/
def decodeVmisc (mj w : Nat) : Except Illegal Instr := do
  let d := toX (fld w 21 5)
  let a := toX (fld w 16 5)
  let b := toX (fld w 11 5)
  let m := toM (fld w 8 3)
  let fn := fld w 0 5
  match mj with
  | 0x13 => do
    need (fld w 21 2 == 0) .mbz
    let et ← etOf (fld w 5 3)
    let cc ← ccOf fn
    need (cc.forEt et) .sub
    pure (.vcmp (toM (fld w 23 3)) a b m cc et)
  | 0x14 => do
    need (fn == 0) .sub
    let et ← etOf (fld w 5 3)
    pure (.vsel d a b m et)
  | 0x15 => do
    need (fld w 11 5 == 0) .mbz
    match fn with
    | 0 => do let et ← intEtOf (fld w 5 3); pure (.vred (.int d .sum et) a m)
    | 1 => do let et ← intEtOf (fld w 5 3); pure (.vred (.int d .min et) a m)
    | 2 => do let et ← intEtOf (fld w 5 3); pure (.vred (.int d .max et) a m)
    | 3 => do let et ← intEtOf (fld w 5 3); pure (.vred (.int d .minu et) a m)
    | 4 => do let et ← intEtOf (fld w 5 3); pure (.vred (.int d .maxu et) a m)
    | 5 => do let et ← intEtOf (fld w 5 3); pure (.vred (.int d .and et) a m)
    | 6 => do let et ← intEtOf (fld w 5 3); pure (.vred (.int d .or et) a m)
    | 7 => do let et ← intEtOf (fld w 5 3); pure (.vred (.int d .xor et) a m)
    | 8 => do let fd ← getF (fld w 21 5); let et ← fpEtOf (fld w 5 3); pure (.vred (.fp fd .fsum et) a m)
    | 9 => do let fd ← getF (fld w 21 5); let et ← fpEtOf (fld w 5 3); pure (.vred (.fp fd .fmin et) a m)
    | 10 => do let fd ← getF (fld w 21 5); let et ← fpEtOf (fld w 5 3); pure (.vred (.fp fd .fmax et) a m)
    | 11 => do let fd ← getF (fld w 21 5); let et ← fpEtOf (fld w 5 3); pure (.vred (.fp fd .fmaxabs et) a m)
    | _ => .error .sub
  | 0x16 => do
    need (fn == 0) .sub
    let et ← etOf (fld w 5 3)
    pure (.vperm d a b m et)
  | _ =>
    match fn with
    | 0 => do
      need (fld w 11 5 == 0) .mbz
      let et ← etOf (fld w 5 3)
      pure (.vbcastX d a m et)
    | 1 => do
      need (fld w 11 5 == 0) .mbz
      let fa ← getF (fld w 16 5)
      let et ← fpEtOf (fld w 5 3)
      pure (.vbcastF d fa m et)
    | 2 => do
      let et ← etOf (fld w 5 3)
      pure (.vbcastV d a b m et)
    | _ => .error .sub

/-- Major 0x18: vector conversion. -/
def decodeAVC (w : Nat) : Except Illegal Instr := do
  let t ← fmtOf (fld w 9 7)
  let s ← fmtOf (fld w 2 7)
  need (t.forVcvt && s.forVcvt && fld w 0 2 < vcvtParts t s) .sub
  pure (.vcvt (toX (fld w 21 5)) (toX (fld w 16 5)) t s (Fin.ofNat 4 (fld w 0 2)))

/-- Major 0x19: quantize. -/
def decodeAQ (w : Nat) : Except Illegal Instr := do
  need (fld w 0 4 == 0) .mbz
  need (fld w 16 5 % 2 == 0) .reg
  let t ← fmtOf (fld w 9 7)
  need t.forVquant .sub
  pure (.vquant (toX (fld w 21 5)) (toX (fld w 16 5)) t (toX (fld w 4 5)))

/-- Major 0x1A: masks. -/
def decodeMask (w : Nat) : Except Illegal Instr := do
  let d := fld w 21 5
  let a := fld w 16 5
  let b := fld w 11 5
  need (fld w 5 6 == 0) .mbz
  match fld w 0 5 with
  | 0 => do let md ← getM d; let ma ← getM a; let mb ← getM b; pure (.mand md ma mb)
  | 1 => do let md ← getM d; let ma ← getM a; let mb ← getM b; pure (.mor md ma mb)
  | 2 => do let md ← getM d; let ma ← getM a; let mb ← getM b; pure (.mxor md ma mb)
  | 3 => do let md ← getM d; let ma ← getM a; let mb ← getM b; pure (.mandn md ma mb)
  | 4 => do need (b == 0) .mbz; let md ← getM d; let ma ← getM a; pure (.mnot md ma)
  | 5 => do need (b == 0) .mbz; let md ← getM d; pure (.mfromx md (toX a))
  | 6 => do need (b == 0) .mbz; let ma ← getM a; pure (.mtox (toX d) ma)
  | 7 => do need (b == 0) .mbz; let ma ← getM a; pure (.mpopc (toX d) ma)
  | _ => .error .sub

/-- Major 0x1B: SFU. -/
def decodeSfu (w : Nat) : Except Illegal Instr := do
  need (fld w 0 9 == 0) .mbz
  if fld w 12 1 == 0 then do
    need (fld w 9 3 == 0) .mbz
    let fd ← getF (fld w 21 5)
    let fa ← getF (fld w 16 5)
    match fld w 13 3 with
    | 0 => pure (.exp fd fa)
    | 1 => pure (.log fd fa)
    | 2 => pure (.rcp fd fa)
    | 3 => pure (.rsqrt fd fa)
    | 4 => pure (.tanh fd fa)
    | 5 => pure (.sigm fd fa)
    | 6 => pure (.gelu fd fa)
    | _ => .error .sub
  else do
    let d := toX (fld w 21 5)
    let a := toX (fld w 16 5)
    let m := toM (fld w 9 3)
    match fld w 13 3 with
    | 0 => pure (.vexp d a m)
    | 1 => pure (.vlog d a m)
    | 2 => pure (.vrcp d a m)
    | 3 => pure (.vrsqrt d a m)
    | 4 => pure (.vtanh d a m)
    | 5 => pure (.vsigm d a m)
    | 6 => pure (.vgelu d a m)
    | _ => .error .sub

/-- Majors 0x1C and 0x1D: VLOOP and VSETL. -/
def decodeSeq (mj w : Nat) : Except Illegal Instr :=
  if mj == 0x1C then
    if fld w 0 17 == 0 then
      if fld w 22 4 == 0 then .error .range
      else .ok (.vloop (Fin.ofNat 16 (fld w 22 4)) (toX (fld w 17 5)))
    else .error .mbz
  else
    if fld w 0 16 == 0 then .ok (.vsetl (toX (fld w 21 5)) (toX (fld w 16 5))) else .error .mbz

/-- The A word: the map of spec/14 R208. -/
def decodeA (w : Nat) : Except Illegal Instr :=
  let mj := fld w 26 6
  if mj == 0x00 then (if fld w 0 26 == 0 then .ok .aSlotNop else .error .mbz)
  else if mj == 0x01 then decodeAR w
  else if mj == 0x02 then decodeAI w
  else if mj == 0x03 then decodeAM w
  else if mj == 0x04 then decodeAB w
  else if mj == 0x08 then decodeFop w
  else if mj == 0x09 then decodeFma w
  else if mj == 0x0A then decodeAC w
  else if mj == 0x10 then decodeVint w
  else if mj == 0x11 then decodeVfp w
  else if mj == 0x12 then decodeVfma w
  else if mj == 0x13 || mj == 0x14 || mj == 0x15 || mj == 0x16 || mj == 0x17 then decodeVmisc mj w
  else if mj == 0x18 then decodeAVC w
  else if mj == 0x19 then decodeAQ w
  else if mj == 0x1A then decodeMask w
  else if mj == 0x1B then decodeSfu w
  else if mj == 0x1C || mj == 0x1D then decodeSeq mj w
  else .error .major

/-! ## The bundle (spec/14 R198 to R200) -/

/-- A decoded bundle: its C instruction, its A instruction (the no-operation where the A word is a literal), the switch
marker S. -/
structure Bundle where
  c      : Instr
  a      : Instr
  marker : Bool
  deriving DecidableEq, Repr

/-- Decode the C word, then the A word; an illegal one is named with the word itself, which TRAP_VAL receives (R198). -/
def decodeBundle (cw aw : Half) : Except (Illegal × Half) Bundle :=
  let lit := fld cw.toNat 31 1 == 1
  let marker := fld cw.toNat 30 1 == 1
  match decodeC cw.toNat (if lit then some aw else none) with
  | .error e => .error (e, cw)
  | .ok c =>
    if lit then .ok { c := c, a := .aSlotNop, marker := marker }
    else
      match decodeA aw.toNat with
      | .error e => .error (e, aw)
      | .ok a => .ok { c := c, a := a, marker := marker }

/-! ## Matrix records (spec/14 R213 to R215) -/

/-- The MMA pair of an opcode byte. -/
def pairOf (opc : Nat) : Except Illegal MmaPair :=
  if opc == 0x10 then .ok .mxf4
  else if opc == 0x20 then .ok (.f16 false false)
  else if opc == 0x21 then .ok (.f16 true true)
  else if opc == 0x22 then .ok (.f16 false true)
  else if opc == 0x23 then .ok (.f16 true false)
  else if 0x80 ≤ opc ∧ opc ≤ 0xBF then .ok (.sf (Fin.ofNat 8 ((opc - 0x80) / 8)) (Fin.ofNat 8 (opc % 8)))
  else if 0xC1 ≤ opc ∧ opc ≤ 0xFF then .ok (.si (Fin.ofNat 8 ((opc - 0xC0) / 8)) (Fin.ofNat 8 (opc % 8)))
  else .error .major

/-- Whether each of the fields (low bit, width) of a record is zero. -/
def zeros (r : Nat) : List (Nat × Nat) → Bool
  | [] => true
  | (lo, n) :: rest => fld r lo n == 0 && zeros r rest

/-- A matrix record, bit 0 of byte 0 as bit 0; word k is bits 64·k + 63 to 64·k. -/
def decodeMat (r : Nat) : Except Illegal MatCmd := do
  let opc := fld r 0 8
  let tag := BitVec.ofNat 16 (fld r 16 16)
  let gate := fld r 9 1 == 1
  let rows := BitVec.ofNat 12 (fld r 104 12)
  let soff := BitVec.ofNat 20 (fld r 84 20)
  let boff := BitVec.ofNat 20 (fld r 64 20)
  let sstr := BitVec.ofNat 16 (fld r 168 16)
  let bstr := BitVec.ofNat 20 (fld r 148 20)
  if opc == 0x01 then do
    need (zeros r [(8, 1), (10, 1), (12, 4), (32, 32), (104, 24), (128, 20), (184, 328)]) .mbz
    let c : MloadCmd :=
      { tag := tag, gate := gate, scw := fld r 11 1 == 1, soff := soff, boff := boff, sstr := sstr, bstr := bstr }
    need c.wf .malformed
    pure (.mload c)
  else if opc == 0x02 then do
    need (zeros r [(8, 1), (10, 6), (32, 480)]) .mbz
    pure (.mswap { tag := tag, gate := gate })
  else if opc == 0x03 then do
    need (zeros r [(8, 1), (10, 6), (32, 32), (84, 20), (116, 12), (128, 20), (168, 24), (290, 222)]) .mbz
    let cls ← classOf (fld r 288 2)
    let c : MdrainCmd :=
      { tag := tag, gate := gate, rows := rows, boff := boff, bstr := bstr, dest := BitVec.ofNat 64 (fld r 192 64),
        cls := cls, dstr := BitVec.ofNat 32 (fld r 256 32) }
    need c.wf .malformed
    pure (.mdrain c)
  else if opc == 0x04 then do
    need (zeros r [(8, 1), (10, 6), (32, 32), (84, 20), (116, 12), (128, 20), (168, 344)]) .mbz
    let c : MzeroCmd := { tag := tag, gate := gate, rows := rows, boff := boff, bstr := bstr }
    need c.wf .malformed
    pure (.mzero c)
  else if opc == 0x05 then do
    need (zeros r [(8, 1), (10, 2), (32, 480)]) .mbz
    pure (.mshape { tag := tag, gate := gate, bands := BitVec.ofNat 4 (fld r 12 4) })
  else do
    let pair ← pairOf opc
    need (zeros r [(11, 5), (125, 3), (184, 328)]) .mbz
    let c : MmaCmd :=
      { pair := pair, cscale := BitVec.ofNat 32 (fld r 32 32), tag := tag, sca := fld r 10 1 == 1, gate := gate,
        swap := fld r 8 1 == 1, k := BitVec.ofNat 9 (fld r 116 9), rows := rows, soff := soff, boff := boff,
        sstr := sstr, bstr := bstr, coff := BitVec.ofNat 20 (fld r 128 20) }
    need c.wf .malformed
    pure (.mma c)

/-! ## The encoder -/

def Buf.code : Buf → Nat
  | .w => 0
  | .a => 1
  | .c => 2
  | .l => 3

def RClass.code : RClass → Nat
  | .ord => 0
  | .adp => 1
  | .spr => 2

def LoadFe.code : LoadFe → Nat
  | .plain => 0
  | .wf => 1
  | .tk => 2

def StoreFe.code : StoreFe → Nat
  | .plain => 0
  | .we => 3
  | .fl => 4

def IntEt.code : IntEt → Nat
  | .i8 => 0
  | .i16 => 1
  | .i32 => 2
  | .i64 => 3

def FpEt.code : FpEt → Nat
  | .f32 => 4
  | .bf16 => 5
  | .fp16 => 6

def Et.code : Et → Nat
  | .int t => t.code
  | .fp t => t.code

def Rm.code : Rm → Nat
  | .rne => 0
  | .rtz => 1
  | .rdn => 2
  | .rup => 3
  | .dyn => 7

def Sm.code : Sm → Nat
  | .fpctl => 0
  | .sat => 1
  | .nosat => 2

def Fmt.code : Fmt → Nat
  | .fp32 => 1
  | .bf16 => 2
  | .fp16 => 3
  | .int8 => 4
  | .int32 => 5
  | .mxf4 => 6
  | .int64 => 7
  | .b8 p n f => 0x44 + 4 * p.val + 2 * n.toNat + f.toNat

def Esz.code : Esz → Nat
  | .e1 => 0
  | .e2 => 1
  | .e4 => 2
  | .e8 => 3

def Dir.code : Dir → Nat
  | .n => 0
  | .e => 1
  | .s => 2
  | .w => 3

def LdWidth.code : LdWidth → Nat
  | .bu => 0
  | .b => 1
  | .hu => 2
  | .h => 3
  | .wu => 4
  | .w => 5
  | .d => 6

def StWidth.code : StWidth → Nat
  | .b => 0
  | .h => 2
  | .w => 4
  | .d => 6

def PartMode.code : PartMode → Nat
  | .rank => 0
  | .meshX => 1
  | .meshY => 2

def Cc.code : Cc → Nat
  | .eq => 0
  | .ne => 1
  | .lt => 2
  | .le => 3
  | .gt => 4
  | .ge => 5
  | .ltu => 6
  | .leu => 7
  | .gtu => 8
  | .geu => 9

def IntRed.code : IntRed → Nat
  | .sum => 0
  | .min => 1
  | .max => 2
  | .minu => 3
  | .maxu => 4
  | .and => 5
  | .or => 6
  | .xor => 7

def FpRed.code : FpRed → Nat
  | .fsum => 8
  | .fmin => 9
  | .fmax => 10
  | .fmaxabs => 11

def CReg.code : CReg → Nat
  | .coreStatus => 0x00
  | .trapCause => 0x01
  | .trapPc => 0x02
  | .trapVal => 0x03
  | .trapScratch => 0x04
  | .tvec => 0x05
  | .intEn => 0x06
  | .intPend => 0x07
  | .time => 0x08
  | .timerCmp => 0x09
  | .qtimeout => 0x0A
  | .wdog => 0x0B
  | .fpctl => 0x0C
  | .xphStat => 0x0D
  | .vlen => 0x0E
  | .arrayShape => 0x0F
  | .mqAddr => 0x10
  | .mqStat => 0x11
  | .coreid => 0x12
  | .fduty => 0x13
  | .gmem i => 0x14 + i.val
  | .gscope i => 0x18 + i.val
  | .cpSrc => 0x40
  | .cpDst => 0x41
  | .cpIdx => 0x42
  | .cpStride i => 0x43 + i.val
  | .cpCount i => 0x46 + i.val
  | .cpClass => 0x49
  | .cpFlags => 0x4A
  | .cpLaunch => 0x4B
  | .strmCfg i => 0x50 + i.val
  | .strmStr i => 0x54 + i.val
  | .strmCnt i => 0x58 + i.val
  | .relayCnt i => 0x60 + i.val
  | .relayTerm i => 0x68 + i.val

/-! Word builders, one per format; the words have S and L clear. -/

def encCX (mj : Nat) (d a b : Fin 32) (fn : Nat) : Nat :=
  mj * 2 ^ 24 + d.val * 2 ^ 19 + a.val * 2 ^ 14 + b.val * 2 ^ 9 + fn

def encCG (mj : Nat) (d a b : Fin 32) (cls : RClass) (fe op : Nat) : Nat :=
  mj * 2 ^ 24 + d.val * 2 ^ 19 + a.val * 2 ^ 14 + b.val * 2 ^ 9 + cls.code * 2 ^ 7 + fe * 2 ^ 4 + op

def encCS (mj : Nat) (v a b : Fin 32) (buf : Buf) (m : MReg) (esz : Esz) : Nat :=
  mj * 2 ^ 24 + v.val * 2 ^ 19 + a.val * 2 ^ 14 + b.val * 2 ^ 9 + buf.code * 2 ^ 7 + m.val * 2 ^ 4 + esz.code * 2 ^ 2

def encCL (mj : Nat) (d a : Fin 32) (buf : Buf) (fe : Nat) (imm : BitVec 9) : Nat :=
  mj * 2 ^ 24 + d.val * 2 ^ 19 + a.val * 2 ^ 14 + buf.code * 2 ^ 12 + fe * 2 ^ 9 + imm.toNat

def encCB (mj : Nat) (a b : Fin 32) (off : BitVec 14) : Nat :=
  mj * 2 ^ 24 + a.val * 2 ^ 19 + b.val * 2 ^ 14 + off.toNat

def encCM (test : Nat) (m : MReg) (off : BitVec 14) : Nat :=
  0x03 * 2 ^ 24 + m.val * 2 ^ 21 + test * 2 ^ 19 + off.toNat

def encCC (mj : Nat) (d : Fin 32) (i : Nat) : Nat := mj * 2 ^ 24 + d.val * 2 ^ 19 + i * 2 ^ 11

def encCQ (mj : Nat) (d a : Fin 32) (g sub : Nat) : Nat :=
  mj * 2 ^ 24 + d.val * 2 ^ 19 + a.val * 2 ^ 14 + g * 2 ^ 6 + sub * 2 ^ 4

def encCN (mj : Nat) (d mode snd : Nat) : Nat := mj * 2 ^ 24 + d * 2 ^ 19 + mode * 2 ^ 17 + snd * 2 ^ 16

def encAR (mj : Nat) (d a b : Nat) (fn : Nat) : Nat :=
  mj * 2 ^ 26 + d * 2 ^ 21 + a * 2 ^ 16 + b * 2 ^ 11 + fn

def encAI (d a : Fin 32) (fn imm : Nat) : Nat := 0x02 * 2 ^ 26 + d.val * 2 ^ 21 + a.val * 2 ^ 16 + fn * 2 ^ 12 + imm

def encAM (d : Fin 32) (k : Nat) (q : Fin 4) (imm : BitVec 16) : Nat :=
  0x03 * 2 ^ 26 + d.val * 2 ^ 21 + k * 2 ^ 20 + q.val * 2 ^ 18 + imm.toNat

def encAB (d a : Fin 32) (pos lenm1 : Fin 64) (fn : Nat) : Nat :=
  0x04 * 2 ^ 26 + d.val * 2 ^ 21 + a.val * 2 ^ 16 + pos.val * 2 ^ 10 + lenm1.val * 2 ^ 4 + fn

def encAF (mj : Nat) (d a b c : Nat) (rm var : Nat) : Nat :=
  mj * 2 ^ 26 + d * 2 ^ 21 + a * 2 ^ 16 + b * 2 ^ 11 + c * 2 ^ 6 + rm * 2 ^ 3 + var

def encAC (d a : Nat) (fmt : Fmt) (dir : Nat) (sm : Sm) (rm : Rm) : Nat :=
  0x0A * 2 ^ 26 + d * 2 ^ 21 + a * 2 ^ 16 + fmt.code * 2 ^ 9 + dir * 2 ^ 8 + sm.code * 2 ^ 6 + rm.code * 2 ^ 3

def encAV (mj : Nat) (d a b : Nat) (m : MReg) (et fn : Nat) : Nat :=
  mj * 2 ^ 26 + d * 2 ^ 21 + a * 2 ^ 16 + b * 2 ^ 11 + m.val * 2 ^ 8 + et * 2 ^ 5 + fn

def encAVC (d a : Fin 32) (t s : Fmt) (p : Fin 4) : Nat :=
  0x18 * 2 ^ 26 + d.val * 2 ^ 21 + a.val * 2 ^ 16 + t.code * 2 ^ 9 + s.code * 2 ^ 2 + p.val

def encAQ (d a : Fin 32) (t : Fmt) (xs : Fin 32) : Nat :=
  0x19 * 2 ^ 26 + d.val * 2 ^ 21 + a.val * 2 ^ 16 + t.code * 2 ^ 9 + xs.val * 2 ^ 4

def encAS (d a fn v m : Nat) : Nat :=
  0x1B * 2 ^ 26 + d * 2 ^ 21 + a * 2 ^ 16 + fn * 2 ^ 13 + v * 2 ^ 12 + m * 2 ^ 9

/-- Whether an instruction is a C word, an A word, a matrix command or an event. -/
def kindOf : Instr → Kind
  | .cSlotNop => .cWord
  | .li _ _ => .cWord
  | .liU _ _ => .cWord
  | .liH _ _ => .cWord
  | .liF _ _ => .cWord
  | .aSlotNop => .aWord
  | .add _ _ _ => .aWord
  | .sub _ _ _ => .aWord
  | .and _ _ _ => .aWord
  | .or _ _ _ => .aWord
  | .xor _ _ _ => .aWord
  | .sll _ _ _ => .aWord
  | .srl _ _ _ => .aWord
  | .sra _ _ _ => .aWord
  | .slt _ _ _ => .aWord
  | .sltu _ _ _ => .aWord
  | .mul _ _ _ => .aWord
  | .mulh _ _ _ => .aWord
  | .mulhu _ _ _ => .aWord
  | .div _ _ _ => .aWord
  | .divu _ _ _ => .aWord
  | .rem _ _ _ => .aWord
  | .remu _ _ _ => .aWord
  | .min _ _ _ => .aWord
  | .max _ _ _ => .aWord
  | .minu _ _ _ => .aWord
  | .maxu _ _ _ => .aWord
  | .clz _ _ => .aWord
  | .ctz _ _ => .aWord
  | .popc _ _ => .aWord
  | .shadd _ _ _ _ => .aWord
  | .addi _ _ _ => .aWord
  | .andi _ _ _ => .aWord
  | .ori _ _ _ => .aWord
  | .xori _ _ _ => .aWord
  | .slli _ _ _ => .aWord
  | .srli _ _ _ => .aWord
  | .srai _ _ _ => .aWord
  | .slti _ _ _ => .aWord
  | .sltiu _ _ _ => .aWord
  | .muli _ _ _ => .aWord
  | .hset _ _ _ => .aWord
  | .hins _ _ _ => .aWord
  | .bextu _ _ _ _ => .aWord
  | .bext _ _ _ _ => .aWord
  | .bins _ _ _ _ => .aWord
  | .fadd _ _ _ _ => .aWord
  | .fsub _ _ _ _ => .aWord
  | .fmul _ _ _ _ => .aWord
  | .fdiv _ _ _ _ => .aWord
  | .fsqrt _ _ _ => .aWord
  | .fmin _ _ _ => .aWord
  | .fmax _ _ _ => .aWord
  | .feq _ _ _ => .aWord
  | .flt _ _ _ => .aWord
  | .fle _ _ _ => .aWord
  | .fclass _ _ => .aWord
  | .fmvX _ _ => .aWord
  | .fmvF _ _ => .aWord
  | .fneg _ _ => .aWord
  | .fabs _ _ => .aWord
  | .fmadd _ _ _ _ _ => .aWord
  | .fmsub _ _ _ _ _ => .aWord
  | .fnmadd _ _ _ _ _ => .aWord
  | .fnmsub _ _ _ _ _ => .aWord
  | .fcvtf _ _ _ _ _ => .aWord
  | .fcvtx _ _ _ _ _ => .aWord
  | .vadd _ _ _ _ _ => .aWord
  | .vsub _ _ _ _ _ => .aWord
  | .vmul _ _ _ _ _ => .aWord
  | .vmulh _ _ _ _ _ => .aWord
  | .vmin _ _ _ _ _ => .aWord
  | .vmax _ _ _ _ _ => .aWord
  | .vminu _ _ _ _ _ => .aWord
  | .vmaxu _ _ _ _ _ => .aWord
  | .vand _ _ _ _ _ => .aWord
  | .vor _ _ _ _ _ => .aWord
  | .vxor _ _ _ _ _ => .aWord
  | .vsll _ _ _ _ _ => .aWord
  | .vsrl _ _ _ _ _ => .aWord
  | .vsra _ _ _ _ _ => .aWord
  | .vadds _ _ _ _ _ => .aWord
  | .vsubs _ _ _ _ _ => .aWord
  | .vabs _ _ _ _ => .aWord
  | .vneg _ _ _ _ => .aWord
  | .vfadd _ _ _ _ _ => .aWord
  | .vfsub _ _ _ _ _ => .aWord
  | .vfmul _ _ _ _ _ => .aWord
  | .vfdiv _ _ _ _ _ => .aWord
  | .vfsqrt _ _ _ _ => .aWord
  | .vfmin _ _ _ _ _ => .aWord
  | .vfmax _ _ _ _ _ => .aWord
  | .vfabs _ _ _ _ => .aWord
  | .vfneg _ _ _ _ => .aWord
  | .vfmadd _ _ _ _ _ _ => .aWord
  | .vfmsub _ _ _ _ _ _ => .aWord
  | .vfnmadd _ _ _ _ _ _ => .aWord
  | .vfnmsub _ _ _ _ _ _ => .aWord
  | .vcmp _ _ _ _ _ _ => .aWord
  | .vsel _ _ _ _ _ => .aWord
  | .vred _ _ _ => .aWord
  | .vperm _ _ _ _ _ => .aWord
  | .vbcastX _ _ _ _ => .aWord
  | .vbcastF _ _ _ _ => .aWord
  | .vbcastV _ _ _ _ _ => .aWord
  | .vcvt _ _ _ _ _ => .aWord
  | .vquant _ _ _ _ => .aWord
  | .mand _ _ _ => .aWord
  | .mor _ _ _ => .aWord
  | .mxor _ _ _ => .aWord
  | .mandn _ _ _ => .aWord
  | .mnot _ _ => .aWord
  | .mfromx _ _ => .aWord
  | .mtox _ _ => .aWord
  | .mpopc _ _ => .aWord
  | .exp _ _ => .aWord
  | .log _ _ => .aWord
  | .rcp _ _ => .aWord
  | .rsqrt _ _ => .aWord
  | .tanh _ _ => .aWord
  | .sigm _ _ => .aWord
  | .gelu _ _ => .aWord
  | .vexp _ _ _ => .aWord
  | .vlog _ _ _ => .aWord
  | .vrcp _ _ _ => .aWord
  | .vrsqrt _ _ _ => .aWord
  | .vtanh _ _ _ => .aWord
  | .vsigm _ _ _ => .aWord
  | .vgelu _ _ _ => .aWord
  | .vloop _ _ => .aWord
  | .vsetl _ _ => .aWord
  | .jal _ _ => .cWord
  | .jalr _ _ _ => .cWord
  | .bmaskAny _ _ => .cWord
  | .bmaskNone _ _ => .cWord
  | .bmaskAll _ _ => .cWord
  | .beq _ _ _ => .cWord
  | .bne _ _ _ => .cWord
  | .blt _ _ _ => .cWord
  | .bge _ _ _ => .cWord
  | .bltu _ _ _ => .cWord
  | .bgeu _ _ _ => .cWord
  | .llb _ _ _ _ _ => .cWord
  | .llbu _ _ _ _ _ => .cWord
  | .llh _ _ _ _ _ => .cWord
  | .llhu _ _ _ _ _ => .cWord
  | .llw _ _ _ _ _ => .cWord
  | .llwu _ _ _ _ _ => .cWord
  | .lld _ _ _ _ _ => .cWord
  | .slb _ _ _ _ _ => .cWord
  | .slh _ _ _ _ _ => .cWord
  | .slw _ _ _ _ _ => .cWord
  | .sld _ _ _ _ _ => .cWord
  | .vld _ _ _ _ _ => .cWord
  | .vst _ _ _ _ _ => .cWord
  | .vlds _ _ _ _ _ _ => .cWord
  | .vsts _ _ _ _ _ _ => .cWord
  | .vldx _ _ _ _ _ _ => .cWord
  | .vstx _ _ _ _ _ _ => .cWord
  | .ld _ _ _ _ _ => .cWord
  | .st _ _ _ _ _ => .cWord
  | .aadd _ _ _ _ _ => .cWord
  | .amin _ _ _ _ _ => .cWord
  | .amax _ _ _ _ _ => .cWord
  | .aand _ _ _ _ _ => .cWord
  | .aor _ _ _ _ _ => .cWord
  | .axor _ _ _ _ _ => .cWord
  | .aswap _ _ _ _ _ => .cWord
  | .acas _ _ _ _ _ => .cWord
  | .afadd _ _ _ _ _ => .cWord
  | .fence _ _ _ => .cWord
  | .rfence => .cWord
  | .ifence => .cWord
  | .recv _ => .cWord
  | .waitm => .cWord
  | .peekm _ => .cWord
  | .svc => .cWord
  | .sret => .cWord
  | .wfi => .cWord
  | .halt => .cWord
  | .hret => .cWord
  | .getc _ _ => .cWord
  | .setc _ _ => .cWord
  | .safept _ => .cWord
  | .sync _ => .cWord
  | .xend _ => .cWord
  | .xsend _ _ _ => .cWord
  | .xexpect _ => .cWord
  | .nqsend _ _ => .cWord
  | .nqrecv _ _ => .cWord
  | .wlpush _ _ => .cWord
  | .wlpop _ _ => .cWord
  | .wldone _ => .cWord
  | .part _ _ _ _ => .cWord
  | .gid _ _ => .cWord
  | .postrx _ _ => .cWord
  | .send _ _ => .cWord
  | .cancelrx _ => .cWord
  | .gatepost _ _ => .cWord
  | .mktrun _ _ => .cWord
  | .mktrd _ _ => .cWord
  | .mktwr _ _ => .cWord
  | .rqry _ _ => .cWord
  | .rqryFetch _ _ => .cWord
  | .rqryPin _ _ => .cWord
  | .rqryUnpin _ _ => .cWord
  | .tokacq _ _ => .cWord
  | .tokrel _ _ => .cWord
  | .cvarm _ _ => .cWord
  | .cvplay _ _ => .cWord
  | .cpreplay _ _ _ _ => .cWord
  | .mload _ _ => .matrix
  | .mswap _ _ => .matrix
  | .mdrain _ _ => .matrix
  | .mzero _ _ => .matrix
  | .mshape _ _ => .matrix
  | .mma _ _ => .matrix
  | .matrixCommandEnd _ => .event
  | .drainRowDispatch _ => .event
  | .resultLanding _ _ _ => .event
  | .responseTrap _ => .event
  | .interruptTaken _ => .event
  | .timerCompare _ => .event
  | .watchdogExpiry _ => .event
  | .queueTimeout _ => .event
  | .neighbourQueueArrival _ _ => .event
  | .streamElementArrival _ _ => .event
  | .syncRelease _ _ => .event
  | .xsendLinkEntry _ _ => .event
  | .xsendLanding _ => .event
  | .xendReturn _ _ => .event
  | .safeTimeout _ => .event
  | .contextSave _ => .event
  | .bindNew _ _ => .event
  | .bindResume _ _ => .event
  | .preempt _ _ => .event
  | .release _ _ => .event
  | .freeze _ _ => .event
  | .slotActNone _ _ => .event
  | .loadingComplete _ => .event
  | .launchPacket _ _ => .event
  | .launchReady _ => .event
  | .launchPlacement _ => .event
  | .launchEnd _ => .event
  | .groupFaultHandling _ => .event
  | .packetFetch _ _ => .event
  | .packetReread _ _ => .event
  | .nopPacket _ _ => .event
  | .put _ _ => .event
  | .get _ _ => .event
  | .cancel _ _ => .event
  | .packetCompletion _ _ => .event
  | .sqTail _ _ => .event
  | .cqHead _ _ => .event
  | .featuresOk => .event
  | .functionReset => .event
  | .functionLevelReset => .event
  | .qiEnable _ => .event
  | .qiDisable _ => .event
  | .revoke _ => .event
  | .ideIntegrityFailure _ _ => .event
  | .atsInvalidation _ _ => .event
  | .pageRequestResponse _ _ _ => .event
  | .cpLaunch _ => .event
  | .copyChunkLanding _ _ _ => .event
  | .messageArrival _ => .event
  | .sendAnswer _ _ _ => .event
  | .workItemArrival _ => .event
  | .quiescenceMessage _ _ => .event
  | .gatepostChunkWrite _ => .event
  | .marketStepComplete _ => .event
  | .sortComplete _ => .event
  | .residencyEntryStore _ => .event
  | .convoyArmComplete _ => .event
  | .playStart _ => .event
  | .convoyOpComplete _ _ _ => .event
  | .convoyChunkArrival _ => .event
  | .convoySendRetry _ _ _ => .event
  | .cvTimeout _ _ => .event
  | .playStall _ => .event
  | .accessPerform _ => .event
  | .feTimeout _ => .event
  | .fabRspTimeout _ => .event
  | .sprForward _ => .event
  | .tokenAcquire _ _ => .event
  | .tokenRelease _ _ => .event
  | .tokenRecall _ _ => .event
  | .recallReply _ => .event
  | .tokTimeout _ => .event
  | .stationBringup _ _ _ => .event
  | .stationLoss _ => .event
  | .devid _ => .event
  | .domainEn _ => .event
  | .fabRspTimeoutWrite _ _ => .event
  | .xlatInv _ => .event
  | .acctClr _ => .event
  | .acctSnap _ => .event
  | .registerWrite _ _ => .event
  | .budgetPeriod _ _ => .event
  | .controllerInterval _ _ => .event
  | .currentLimit => .event
  | .sensorSample _ => .event
  | .unitWake _ _ _ => .event
  | .thermalTrip _ => .event
  | .railFault _ => .event
  | .clockLoss _ => .event
  | .powerUp _ => .event
  | .perstN => .event
  | .linkRetry _ _ => .event
  | .moduleFailure _ _ _ => .event
  | .linkLoss _ _ => .event
  | .refresh _ _ => .event
  | .patrolScrub _ _ _ => .event
  | .violationLogCopy _ => .event
  | .firmwareImageWrite _ _ => .event
  | .firmwareCommit => .event
  | .spdmRequest _ => .event
  | .oobAccountingRead _ => .event
  | .storeAcknowledgement _ => .event
  | .convoyPlayStop _ => .event
  | .pldmMonitoringAndControl _ => .event
  | .putGetChunk _ _ _ => .event

/-- The word of a C or A instruction, L and S clear but for LI, whose L is set; 0 for what has no word. -/
def encodeWord : Instr → Nat
  | .cSlotNop => 0
  | .aSlotNop => 0
  | .li d _ => 2 ^ 31 + encCN 0x0A d.val 0 0
  | .liU d _ => 2 ^ 31 + encCN 0x0A d.val 1 0
  | .liH d _ => 2 ^ 31 + encCN 0x0A d.val 2 0
  | .liF d _ => 2 ^ 31 + encCN 0x0A d.val 3 0
  | .add d a b => encAR 0x01 d.val a.val b.val 0x000
  | .sub d a b => encAR 0x01 d.val a.val b.val 0x001
  | .and d a b => encAR 0x01 d.val a.val b.val 0x002
  | .or d a b => encAR 0x01 d.val a.val b.val 0x003
  | .xor d a b => encAR 0x01 d.val a.val b.val 0x004
  | .sll d a b => encAR 0x01 d.val a.val b.val 0x005
  | .srl d a b => encAR 0x01 d.val a.val b.val 0x006
  | .sra d a b => encAR 0x01 d.val a.val b.val 0x007
  | .slt d a b => encAR 0x01 d.val a.val b.val 0x008
  | .sltu d a b => encAR 0x01 d.val a.val b.val 0x009
  | .mul d a b => encAR 0x01 d.val a.val b.val 0x010
  | .mulh d a b => encAR 0x01 d.val a.val b.val 0x011
  | .mulhu d a b => encAR 0x01 d.val a.val b.val 0x012
  | .div d a b => encAR 0x01 d.val a.val b.val 0x013
  | .divu d a b => encAR 0x01 d.val a.val b.val 0x014
  | .rem d a b => encAR 0x01 d.val a.val b.val 0x015
  | .remu d a b => encAR 0x01 d.val a.val b.val 0x016
  | .min d a b => encAR 0x01 d.val a.val b.val 0x018
  | .max d a b => encAR 0x01 d.val a.val b.val 0x019
  | .minu d a b => encAR 0x01 d.val a.val b.val 0x01A
  | .maxu d a b => encAR 0x01 d.val a.val b.val 0x01B
  | .clz d a => encAR 0x01 d.val a.val 0 0x020
  | .ctz d a => encAR 0x01 d.val a.val 0 0x021
  | .popc d a => encAR 0x01 d.val a.val 0 0x022
  | .shadd d a b n => encAR 0x01 d.val a.val b.val (0x028 + n.val)
  | .addi d a imm => encAI d a 0 imm.toNat
  | .andi d a imm => encAI d a 1 imm.toNat
  | .ori d a imm => encAI d a 2 imm.toNat
  | .xori d a imm => encAI d a 3 imm.toNat
  | .slli d a sh => encAI d a 4 sh.val
  | .srli d a sh => encAI d a 5 sh.val
  | .srai d a sh => encAI d a 6 sh.val
  | .slti d a imm => encAI d a 7 imm.toNat
  | .sltiu d a imm => encAI d a 8 imm.toNat
  | .muli d a imm => encAI d a 9 imm.toNat
  | .hset d imm q => encAM d 0 q imm
  | .hins d imm q => encAM d 1 q imm
  | .bextu d a pos lenm1 => encAB d a pos lenm1 0
  | .bext d a pos lenm1 => encAB d a pos lenm1 1
  | .bins d a pos lenm1 => encAB d a pos lenm1 2
  | .fadd d a b rm => encAF 0x08 d.val a.val b.val 0 rm.code 0
  | .fsub d a b rm => encAF 0x08 d.val a.val b.val 1 rm.code 0
  | .fmul d a b rm => encAF 0x08 d.val a.val b.val 2 rm.code 0
  | .fdiv d a b rm => encAF 0x08 d.val a.val b.val 3 rm.code 0
  | .fsqrt d a rm => encAF 0x08 d.val a.val 0 4 rm.code 0
  | .fmin d a b => encAF 0x08 d.val a.val b.val 5 0 0
  | .fmax d a b => encAF 0x08 d.val a.val b.val 6 0 0
  | .feq d a b => encAF 0x08 d.val a.val b.val 7 0 0
  | .flt d a b => encAF 0x08 d.val a.val b.val 8 0 0
  | .fle d a b => encAF 0x08 d.val a.val b.val 9 0 0
  | .fclass d a => encAF 0x08 d.val a.val 0 10 0 0
  | .fmvX d a => encAF 0x08 d.val a.val 0 11 0 0
  | .fmvF d a => encAF 0x08 d.val a.val 0 12 0 0
  | .fneg d a => encAF 0x08 d.val a.val 0 13 0 0
  | .fabs d a => encAF 0x08 d.val a.val 0 14 0 0
  | .fmadd d a b c rm => encAF 0x09 d.val a.val b.val c.val rm.code 0
  | .fmsub d a b c rm => encAF 0x09 d.val a.val b.val c.val rm.code 1
  | .fnmadd d a b c rm => encAF 0x09 d.val a.val b.val c.val rm.code 2
  | .fnmsub d a b c rm => encAF 0x09 d.val a.val b.val c.val rm.code 3
  | .fcvtf d a fmt sm rm => encAC d.val a.val fmt 0 sm rm
  | .fcvtx d a fmt sm rm => encAC d.val a.val fmt 1 sm rm
  | .vadd d a b m et => encAV 0x10 d.val a.val b.val m et.code 0
  | .vsub d a b m et => encAV 0x10 d.val a.val b.val m et.code 1
  | .vmul d a b m et => encAV 0x10 d.val a.val b.val m et.code 2
  | .vmulh d a b m et => encAV 0x10 d.val a.val b.val m et.code 3
  | .vmin d a b m et => encAV 0x10 d.val a.val b.val m et.code 4
  | .vmax d a b m et => encAV 0x10 d.val a.val b.val m et.code 5
  | .vminu d a b m et => encAV 0x10 d.val a.val b.val m et.code 6
  | .vmaxu d a b m et => encAV 0x10 d.val a.val b.val m et.code 7
  | .vand d a b m et => encAV 0x10 d.val a.val b.val m et.code 8
  | .vor d a b m et => encAV 0x10 d.val a.val b.val m et.code 9
  | .vxor d a b m et => encAV 0x10 d.val a.val b.val m et.code 10
  | .vsll d a b m et => encAV 0x10 d.val a.val b.val m et.code 11
  | .vsrl d a b m et => encAV 0x10 d.val a.val b.val m et.code 12
  | .vsra d a b m et => encAV 0x10 d.val a.val b.val m et.code 13
  | .vadds d a b m et => encAV 0x10 d.val a.val b.val m et.code 14
  | .vsubs d a b m et => encAV 0x10 d.val a.val b.val m et.code 15
  | .vabs d a m et => encAV 0x10 d.val a.val 0 m et.code 16
  | .vneg d a m et => encAV 0x10 d.val a.val 0 m et.code 17
  | .vfadd d a b m et => encAV 0x11 d.val a.val b.val m et.code 0
  | .vfsub d a b m et => encAV 0x11 d.val a.val b.val m et.code 1
  | .vfmul d a b m et => encAV 0x11 d.val a.val b.val m et.code 2
  | .vfdiv d a b m et => encAV 0x11 d.val a.val b.val m et.code 3
  | .vfsqrt d a m et => encAV 0x11 d.val a.val 0 m et.code 4
  | .vfmin d a b m et => encAV 0x11 d.val a.val b.val m et.code 5
  | .vfmax d a b m et => encAV 0x11 d.val a.val b.val m et.code 6
  | .vfabs d a m et => encAV 0x11 d.val a.val 0 m et.code 7
  | .vfneg d a m et => encAV 0x11 d.val a.val 0 m et.code 8
  | .vfmadd d a b m et rm => encAV 0x12 d.val a.val b.val m et.code rm.code
  | .vfmsub d a b m et rm => encAV 0x12 d.val a.val b.val m et.code (8 + rm.code)
  | .vfnmadd d a b m et rm => encAV 0x12 d.val a.val b.val m et.code (16 + rm.code)
  | .vfnmsub d a b m et rm => encAV 0x12 d.val a.val b.val m et.code (24 + rm.code)
  | .vcmp d a b m cc et => encAV 0x13 (4 * d.val) a.val b.val m et.code cc.code
  | .vsel d a b m et => encAV 0x14 d.val a.val b.val m et.code 0
  | .vred (.int d op et) a m => encAV 0x15 d.val a.val 0 m et.code op.code
  | .vred (.fp d op et) a m => encAV 0x15 d.val a.val 0 m et.code op.code
  | .vperm d a b m et => encAV 0x16 d.val a.val b.val m et.code 0
  | .vbcastX d a m et => encAV 0x17 d.val a.val 0 m et.code 0
  | .vbcastF d a m et => encAV 0x17 d.val a.val 0 m et.code 1
  | .vbcastV d a b m et => encAV 0x17 d.val a.val b.val m et.code 2
  | .vcvt d a t s p => encAVC d a t s p
  | .vquant d a t xs => encAQ d a t xs
  | .mand d a b => encAR 0x1A d.val a.val b.val 0
  | .mor d a b => encAR 0x1A d.val a.val b.val 1
  | .mxor d a b => encAR 0x1A d.val a.val b.val 2
  | .mandn d a b => encAR 0x1A d.val a.val b.val 3
  | .mnot d a => encAR 0x1A d.val a.val 0 4
  | .mfromx d a => encAR 0x1A d.val a.val 0 5
  | .mtox d a => encAR 0x1A d.val a.val 0 6
  | .mpopc d a => encAR 0x1A d.val a.val 0 7
  | .exp d a => encAS d.val a.val 0 0 0
  | .log d a => encAS d.val a.val 1 0 0
  | .rcp d a => encAS d.val a.val 2 0 0
  | .rsqrt d a => encAS d.val a.val 3 0 0
  | .tanh d a => encAS d.val a.val 4 0 0
  | .sigm d a => encAS d.val a.val 5 0 0
  | .gelu d a => encAS d.val a.val 6 0 0
  | .vexp d a m => encAS d.val a.val 0 1 m.val
  | .vlog d a m => encAS d.val a.val 1 1 m.val
  | .vrcp d a m => encAS d.val a.val 2 1 m.val
  | .vrsqrt d a m => encAS d.val a.val 3 1 m.val
  | .vtanh d a m => encAS d.val a.val 4 1 m.val
  | .vsigm d a m => encAS d.val a.val 5 1 m.val
  | .vgelu d a m => encAS d.val a.val 6 1 m.val
  | .vloop blen a => 0x1C * 2 ^ 26 + blen.val * 2 ^ 22 + a.val * 2 ^ 17
  | .vsetl d a => encAR 0x1D d.val a.val 0 0
  | .jal d off => 0x01 * 2 ^ 24 + d.val * 2 ^ 19 + off.toNat
  | .jalr d a imm => encCB 0x02 d a imm
  | .bmaskAny m off => encCM 0 m off
  | .bmaskNone m off => encCM 1 m off
  | .bmaskAll m off => encCM 2 m off
  | .beq a b off => encCB 0x04 a b off
  | .bne a b off => encCB 0x05 a b off
  | .blt a b off => encCB 0x06 a b off
  | .bge a b off => encCB 0x07 a b off
  | .bltu a b off => encCB 0x08 a b off
  | .bgeu a b off => encCB 0x09 a b off
  | .llb d a buf fe imm => encCL 0x10 d a buf fe.code imm
  | .llbu d a buf fe imm => encCL 0x11 d a buf fe.code imm
  | .llh d a buf fe imm => encCL 0x12 d a buf fe.code imm
  | .llhu d a buf fe imm => encCL 0x13 d a buf fe.code imm
  | .llw d a buf fe imm => encCL 0x14 d a buf fe.code imm
  | .llwu d a buf fe imm => encCL 0x15 d a buf fe.code imm
  | .lld d a buf fe imm => encCL 0x16 d a buf fe.code imm
  | .slb d a buf fe imm => encCL 0x18 d a buf fe.code imm
  | .slh d a buf fe imm => encCL 0x19 d a buf fe.code imm
  | .slw d a buf fe imm => encCL 0x1A d a buf fe.code imm
  | .sld d a buf fe imm => encCL 0x1B d a buf fe.code imm
  | .vld v a buf m imm => encCL 0x1C v a buf m.val imm
  | .vst v a buf m imm => encCL 0x1D v a buf m.val imm
  | .vlds v a b buf m esz => encCS 0x1E v a b buf m esz
  | .vsts v a b buf m esz => encCS 0x1F v a b buf m esz
  | .vldx v a b buf m esz => encCS 0x20 v a b buf m esz
  | .vstx v a b buf m esz => encCS 0x21 v a b buf m esz
  | .ld d a cls fe op => encCG 0x22 d a 0 cls fe.code op.code
  | .st a b cls fe op => encCG 0x23 0 a b cls fe.code op.code
  | .aadd d a b cls wf => encCG 0x24 d a b cls wf.toNat 0
  | .amin d a b cls wf => encCG 0x24 d a b cls wf.toNat 1
  | .amax d a b cls wf => encCG 0x24 d a b cls wf.toNat 2
  | .aand d a b cls wf => encCG 0x24 d a b cls wf.toNat 3
  | .aor d a b cls wf => encCG 0x24 d a b cls wf.toNat 4
  | .axor d a b cls wf => encCG 0x24 d a b cls wf.toNat 5
  | .aswap d a b cls wf => encCG 0x24 d a b cls wf.toNat 6
  | .acas d a b cls wf => encCG 0x24 d a b cls wf.toNat 7
  | .afadd d a b cls wf => encCG 0x24 d a b cls wf.toNat 8
  | .fence cls knd a => 0x25 * 2 ^ 24 + cls.toNat * 2 ^ 21 + knd.toNat * 2 ^ 17 + a.val * 2 ^ 12
  | .rfence => encCX 0x26 0 0 0 0x000
  | .ifence => encCX 0x26 0 0 0 0x001
  | .recv d => encCX 0x26 d 0 0 0x002
  | .waitm => encCX 0x26 0 0 0 0x003
  | .peekm d => encCX 0x26 d 0 0 0x004
  | .svc => encCX 0x26 0 0 0 0x008
  | .sret => encCX 0x26 0 0 0 0x009
  | .wfi => encCX 0x26 0 0 0 0x00A
  | .halt => encCX 0x26 0 0 0 0x00B
  | .hret => encCX 0x26 0 0 0 0x00C
  | .getc d c => encCC 0x27 d c.code
  | .setc a c => encCC 0x28 a c.code
  | .safept n => 0x29 * 2 ^ 24 + n.toNat * 2 ^ 8
  | .sync g => 0x2A * 2 ^ 24 + g.val * 2 ^ 16
  | .xend g => 0x2A * 2 ^ 24 + g.val * 2 ^ 16 + 1
  | .xsend d a slot => encCQ 0x2B d a slot.toNat 0
  | .xexpect a => encCX 0x2C 0 a 0 0
  | .nqsend v dir => encCN 0x2D v.val dir.code 1
  | .nqrecv v dir => encCN 0x2D v.val dir.code 0
  | .wlpush v a => encCQ 0x2E v a 0 0
  | .wlpop d v => encCQ 0x2E d v 0 1
  | .wldone g => encCQ 0x2E 0 0 g.val 2
  | .part d a g mode => encCQ 0x2F d a g.val mode.code
  | .gid d g => encCC 0x30 d g.val
  | .postrx d v => encCX 0x31 d v 0 0
  | .send d v => encCX 0x32 d v 0 0
  | .cancelrx a => encCX 0x33 0 a 0 0
  | .gatepost v b => encCX 0x34 0 v b 0
  | .mktrun a b => encCX 0x35 0 a b 0
  | .mktrd d a => encCX 0x35 d a 0 1
  | .mktwr a b => encCX 0x35 0 a b 2
  | .rqry d a => encCX 0x36 d a 0 0
  | .rqryFetch d a => encCX 0x36 d a 0 1
  | .rqryPin d a => encCX 0x36 d a 0 2
  | .rqryUnpin d a => encCX 0x36 d a 0 3
  | .tokacq d a => encCX 0x37 d a 0 0
  | .tokrel d a => encCX 0x37 d a 0 1
  | .cvarm a b => encCX 0x38 0 a b 0
  | .cvplay v b => encCX 0x38 0 v b 1
  | .cpreplay d a b .resume => encCX 0x39 d a b 0
  | .cpreplay d a b .abandon => encCX 0x39 d a b 1
  | .mload _ _ => 0
  | .mswap _ _ => 0
  | .mdrain _ _ => 0
  | .mzero _ _ => 0
  | .mshape _ _ => 0
  | .mma _ _ => 0
  | .matrixCommandEnd _ => 0
  | .drainRowDispatch _ => 0
  | .resultLanding _ _ _ => 0
  | .responseTrap _ => 0
  | .interruptTaken _ => 0
  | .timerCompare _ => 0
  | .watchdogExpiry _ => 0
  | .queueTimeout _ => 0
  | .neighbourQueueArrival _ _ => 0
  | .streamElementArrival _ _ => 0
  | .syncRelease _ _ => 0
  | .xsendLinkEntry _ _ => 0
  | .xsendLanding _ => 0
  | .xendReturn _ _ => 0
  | .safeTimeout _ => 0
  | .contextSave _ => 0
  | .bindNew _ _ => 0
  | .bindResume _ _ => 0
  | .preempt _ _ => 0
  | .release _ _ => 0
  | .freeze _ _ => 0
  | .slotActNone _ _ => 0
  | .loadingComplete _ => 0
  | .launchPacket _ _ => 0
  | .launchReady _ => 0
  | .launchPlacement _ => 0
  | .launchEnd _ => 0
  | .groupFaultHandling _ => 0
  | .packetFetch _ _ => 0
  | .packetReread _ _ => 0
  | .nopPacket _ _ => 0
  | .put _ _ => 0
  | .get _ _ => 0
  | .cancel _ _ => 0
  | .packetCompletion _ _ => 0
  | .sqTail _ _ => 0
  | .cqHead _ _ => 0
  | .featuresOk => 0
  | .functionReset => 0
  | .functionLevelReset => 0
  | .qiEnable _ => 0
  | .qiDisable _ => 0
  | .revoke _ => 0
  | .ideIntegrityFailure _ _ => 0
  | .atsInvalidation _ _ => 0
  | .pageRequestResponse _ _ _ => 0
  | .cpLaunch _ => 0
  | .copyChunkLanding _ _ _ => 0
  | .messageArrival _ => 0
  | .sendAnswer _ _ _ => 0
  | .workItemArrival _ => 0
  | .quiescenceMessage _ _ => 0
  | .gatepostChunkWrite _ => 0
  | .marketStepComplete _ => 0
  | .sortComplete _ => 0
  | .residencyEntryStore _ => 0
  | .convoyArmComplete _ => 0
  | .playStart _ => 0
  | .convoyOpComplete _ _ _ => 0
  | .convoyChunkArrival _ => 0
  | .convoySendRetry _ _ _ => 0
  | .cvTimeout _ _ => 0
  | .playStall _ => 0
  | .accessPerform _ => 0
  | .feTimeout _ => 0
  | .fabRspTimeout _ => 0
  | .sprForward _ => 0
  | .tokenAcquire _ _ => 0
  | .tokenRelease _ _ => 0
  | .tokenRecall _ _ => 0
  | .recallReply _ => 0
  | .tokTimeout _ => 0
  | .stationBringup _ _ _ => 0
  | .stationLoss _ => 0
  | .devid _ => 0
  | .domainEn _ => 0
  | .fabRspTimeoutWrite _ _ => 0
  | .xlatInv _ => 0
  | .acctClr _ => 0
  | .acctSnap _ => 0
  | .registerWrite _ _ => 0
  | .budgetPeriod _ _ => 0
  | .controllerInterval _ _ => 0
  | .currentLimit => 0
  | .sensorSample _ => 0
  | .unitWake _ _ _ => 0
  | .thermalTrip _ => 0
  | .railFault _ => 0
  | .clockLoss _ => 0
  | .powerUp _ => 0
  | .perstN => 0
  | .linkRetry _ _ => 0
  | .moduleFailure _ _ _ => 0
  | .linkLoss _ _ => 0
  | .refresh _ _ => 0
  | .patrolScrub _ _ _ => 0
  | .violationLogCopy _ => 0
  | .firmwareImageWrite _ _ => 0
  | .firmwareCommit => 0
  | .spdmRequest _ => 0
  | .oobAccountingRead _ => 0
  | .storeAcknowledgement _ => 0
  | .convoyPlayStop _ => 0
  | .pldmMonitoringAndControl _ => 0
  | .putGetChunk _ _ _ => 0

/-- The literal an LI carries in its bundle. -/
def litOf : Instr → Option Half
  | .li _ l => some l
  | .liU _ l => some l
  | .liH _ l => some l
  | .liF _ l => some l
  | _ => none

/-- The words of an instruction: an LI with its literal behind it, and nothing for what has no word. -/
def encode (i : Instr) : List Half :=
  match kindOf i with
  | .cWord =>
    match litOf i with
    | some l => [BitVec.ofNat 32 (encodeWord i), l]
    | none => [BitVec.ofNat 32 (encodeWord i)]
  | .aWord => [BitVec.ofNat 32 (encodeWord i)]
  | .matrix => []
  | .event => []

/-- The instruction a slot reads from its own words: the C slot for C words, the A slot for A words. -/
def decodeOf (k : Kind) (ws : List Half) : Except Illegal Instr :=
  match k, ws with
  | .cWord, [w] => decodeC w.toNat none
  | .cWord, [w, l] => decodeC w.toNat (some l)
  | .aWord, [w] => decodeA w.toNat
  | _, _ => .error .major

/-- A matrix record (spec/14 R213). -/
def encodeMat : MatCmd → Nat
  | .mload c =>
    0x01 + c.gate.toNat * 2 ^ 9 + c.scw.toNat * 2 ^ 11 + c.tag.toNat * 2 ^ 16 + c.boff.toNat * 2 ^ 64 +
      c.soff.toNat * 2 ^ 84 + c.bstr.toNat * 2 ^ 148 + c.sstr.toNat * 2 ^ 168
  | .mswap c => 0x02 + c.gate.toNat * 2 ^ 9 + c.tag.toNat * 2 ^ 16
  | .mdrain c =>
    0x03 + c.gate.toNat * 2 ^ 9 + c.tag.toNat * 2 ^ 16 + c.boff.toNat * 2 ^ 64 + c.rows.toNat * 2 ^ 104 +
      c.bstr.toNat * 2 ^ 148 + c.dest.toNat * 2 ^ 192 + c.dstr.toNat * 2 ^ 256 + c.cls.code * 2 ^ 288
  | .mzero c =>
    0x04 + c.gate.toNat * 2 ^ 9 + c.tag.toNat * 2 ^ 16 + c.boff.toNat * 2 ^ 64 + c.rows.toNat * 2 ^ 104 +
      c.bstr.toNat * 2 ^ 148
  | .mshape c => 0x05 + c.gate.toNat * 2 ^ 9 + c.bands.toNat * 2 ^ 12 + c.tag.toNat * 2 ^ 16
  | .mma c =>
    c.pair.opc + c.swap.toNat * 2 ^ 8 + c.gate.toNat * 2 ^ 9 + c.sca.toNat * 2 ^ 10 + c.tag.toNat * 2 ^ 16 +
      c.cscale.toNat * 2 ^ 32 + c.boff.toNat * 2 ^ 64 + c.soff.toNat * 2 ^ 84 + c.rows.toNat * 2 ^ 104 +
      c.k.toNat * 2 ^ 116 + c.coff.toNat * 2 ^ 128 + c.bstr.toNat * 2 ^ 148 + c.sstr.toNat * 2 ^ 168

/-- The record of an instruction that is a matrix command. -/
def matOf : Instr → Option MatCmd
  | .mload _ c => some (.mload c)
  | .mswap _ c => some (.mswap c)
  | .mdrain _ c => some (.mdrain c)
  | .mzero _ c => some (.mzero c)
  | .mshape _ c => some (.mshape c)
  | .mma _ c => some (.mma c)
  | _ => none

/-! ## One word of the table -/

/-- Whether a 32-bit word that stands alone is read as an A word: spec/opcode_table.json gives a row's word without saying
which slot of the bundle it stands in, and 32 bits may be legal in both. With bit 31 set only an LI is legal, a C word.
With bits 31:30 = 01 the word is an A word of majors 0x10 to 0x1F where it is legal as one. With bits 31:30 = 00 it is an A
word where it is legal as one and its D field is below 8, and otherwise a C word where it is legal as one. DESIGN CHOICE
(log 15); no step of the machine reads a word this way. -/
def tableWordIsA (w : Nat) : Bool :=
  match decodeA w with
  | .error _ => false
  | .ok _ =>
    if fld w 30 1 == 1 then true
    else if fld w 24 2 == 0 && w != 0 then true
    else
      match decodeC w none with
      | .ok _ => false
      | .error _ => true

/-- The instruction the decoder reads from a word of the opcode table: the word fills its slot of a bundle, the other slot
holds its no-operation, and the bits above the 32 of the table (an LI's literal) are zero. -/
def decodeTableWord (nbits w : Nat) : Option Instr :=
  if nbits == 32 then
    if tableWordIsA w then
      match decodeBundle 0 (BitVec.ofNat 32 w) with
      | .ok b => some b.a
      | .error _ => none
    else
      match decodeBundle (BitVec.ofNat 32 w) 0 with
      | .ok b => some b.c
      | .error _ => none
  else none

end Sys2Proof
end

