-- ==== Sys2Proof/Config.lean ====
section
/-!
DEFINITION. What the device fixes, and the free values: constants without a body where the spec leaves a value open, so
that what is proved holds for every value (log 13, 14, 23).
-/

namespace Sys2Proof.Config

/-- Which of the FP32 values within the bound of spec/12 R181 the SFU gives: by function (0 exp, 1 log, 2 reciprocal,
3 reciprocal square root, 4 tanh, 5 sigmoid, 6 GELU) and input, identical on every core (log 13). -/
opaque sfuPick : Nat → Half → Nat

/-- Which of the FP32 values within a relative error of 2^-22 the market exponential gives (spec/11 R165, log 14). -/
opaque mexpPick : Half → Nat

/-- The address that a refusal without a memory address reports: 0 a WLPUSH, 1 an NQSEND, by the core it aimed at (log 29). -/
opaque refusedAddr : Nat → Nat → BitVec 50

/-- Source core and device in the completion of a receive that no message reached (spec/09 R138, log 30). -/
opaque unmatchedCore : Nat → BitVec 16
opaque unmatchedDev : Nat → BitVec 10

/-- Cycles and nanojoules that the spec does not fix, charged to the accounting counters (spec/06 R87, log 23). -/
opaque cost : Nat → Nat

/-- P_LEAK and E_PAIR by unit kind, 0 matrix band, 1 vector unit, 2 SFU, 3 Copy Engine (spec/06 R81): the management hart fixes
them at boot. -/
opaque pLeak : Fin 4 → Nat
opaque ePair : Fin 4 → Nat

/-- SHA-384 of a string of bytes, the digest of ROM, and the digest of the configuration area as it stands (spec/06 R84, R85). -/
opaque sha384 : List Byte → BitVec 384
opaque romDigest : BitVec 384
opaque configDigest : List Host.Cell → BitVec 384

/-- Whether an Ed25519 and an ML-DSA-65 signature verify: the key, the signature, the bytes it covers (spec/06 R84, log 82). -/
opaque edVerify : List Byte → List Byte → List Byte → Bool
opaque mlVerify : List Byte → List Byte → List Byte → Bool

/-- The signature by which a certificate slot answers a nonce and measurement blocks, and the certificate chain of a slot
(spec/06 R85). -/
opaque spdmSig : Fin 2 → BitVec 256 → List Word → List Word
opaque certificate : Fin 2 → List Word

/-- Which of the n peers that may serve a source picks as the intermediate of a .spr request: uniformly at random (spec/02 R30). -/
opaque sprPick : Nat → Nat

/-- What another device answers to an engine of this one: its status, 0x9 where no response comes, and, for a read, its data (log 24). -/
opaque peerStatus : Nat → BitVec 4
opaque peerData : Nat → Word

/-- Whether the tag of a packet of an encrypted peer holds, where no operand of a step says it: a response to an engine, a packet of the
token protocol (spec/02 R36, log 24). -/
opaque peerTag : Nat → Bool

/-- The 64 bytes of the convoy header of a chunk, whose bits spec/03 R42 does not give, by graph, play, operation, contributor, offset,
length and trigger (log 101). -/
opaque convoyHeader : Fin 16 → BitVec 16 → BitVec 12 → Fin 16 → Nat → Nat → Option (Fin 256) → List Byte

/-- TRAP_VAL[7:0] of cause 0x0E when the handler's fault is a write or an instruction that spec/07 R104 forbids it and that is
no trap of the main context: the spec gives it no cause (log 25). -/
opaque handlerCause : Nat → BitVec 8

/-- Doublewords of the areas of a context record whose inner layout spec/05 R75 does not give (log 36). -/
opaque savedWord : Nat → Word

/-- Where the scheduler hart puts the context record of a core it pre-empts, in units of 64 bytes of the stacks: the spec
leaves the place to its firmware (log 38). -/
opaque recordPlace : Nat → Nat

/-- Which of the n matrix commands in execution that may end next ends first (spec/17 R271, log 109). -/
opaque endPick : Nat → Nat

/-- Whether the self-test that follows PERST_N passes, and the modules, by die, link and number, that do not train at a power-up or after
PERST_N (spec/01 R18, spec/06 R91, log 103). -/
opaque selfTest : Nat → Bool
opaque untrained : Nat → List (DieIx × Fin 16 × Fin 16)

/-- Feature word 0 as offered: every feature of spec/04 R55. -/
def featDev (word : BitVec 2) : Word := if word == 0 then 0x7F else 0

/-- Ticks of the 1.8 GHz clock in a microsecond (spec/00 R7). -/
def ticksPerUs : Nat := 1800

end Sys2Proof.Config
end

