-- ==== Sys2Proof/Machine/Flags.lean ====
section
/-!
DEFINITION. Number formats, exact values, rounding and the flags of FPCTL (spec/12 R170 to R182).
-/

namespace Sys2Proof.Machine

/-! ## Flags and rounding modes -/

/-- The flags of FPCTL bits 5:0: SAT, DZ, NV, OF, UF, NX (spec/12 R175). -/
abbrev FpFlags := BitVec 6

def FpFlags.none : FpFlags := 0
def FpFlags.nx : FpFlags := 1
def FpFlags.uf : FpFlags := 2
def FpFlags.of : FpFlags := 4
def FpFlags.nv : FpFlags := 8
def FpFlags.dz : FpFlags := 16
def FpFlags.sat : FpFlags := 32

/-- The rounding modes of FPCTL.RM: 0 to nearest even, 1 toward zero, 2 down, 3 up. -/
inductive RMode | rne | rtz | rdn | rup
  deriving DecidableEq, Repr

def rmodeOfBits : Nat → RMode
  | 0 => .rne
  | 1 => .rtz
  | 2 => .rdn
  | _ => .rup

/-- FPCTL.RM. -/
def fpctlRm (fpctl : Word) : RMode := rmodeOfBits (fpctl.toNat / 256 % 4)

/-- FPCTL.SATM. -/
def fpctlSatm (fpctl : Word) : Bool := fpctl.getLsbD 10

/-- The RM field of an encoding, 7 meaning FPCTL.RM (spec/14 R210). -/
def resolveRm (rm : Rm) (fpctl : Word) : RMode :=
  match rm with
  | .rne => .rne
  | .rtz => .rtz
  | .rdn => .rdn
  | .rup => .rup
  | .dyn => fpctlRm fpctl

/-- The SM field of AC (spec/14 R210). -/
def resolveSm (sm : Sm) (fpctl : Word) : Bool :=
  match sm with
  | .fpctl => fpctlSatm fpctl
  | .sat => true
  | .nosat => false

/-- Sticky flags are ORed into FPCTL (spec/16 R252). -/
def orFlags (fpctl : Word) (fl : FpFlags) : Word := fpctl ||| fl.zeroExtend 64

/-! ## Exact values -/

/-- A real as an operation leaves it before rounding: a NaN, an infinity, or (-1)^neg · mag · 2^exp; with `sticky`, the
magnitude lies strictly between mag · 2^exp and (mag + 1) · 2^exp. A zero keeps its sign. -/
inductive Val
  | nan
  | inf (neg : Bool)
  | fin (neg : Bool) (mag : Nat) (exp : Int) (sticky : Bool)
  deriving DecidableEq, Repr

/-- A floating-point format (spec/12 R170 to R173): trailing bits, exponent of the smallest normal value, magnitude code of
the largest finite value, of infinity and of the canonical NaN (whole code), sign bit, whether it has −0. Magnitude codes
rise by one from each value to the next. -/
structure FpFmt where
  t       : Nat
  emin    : Int
  maxCode : Nat
  infCode : Option Nat
  nanCode : Nat
  sign    : Option Nat
  negZero : Bool
  deriving DecidableEq, Repr

def fp32 : FpFmt :=
  { t := 23, emin := -126, maxCode := 0x7F7FFFFF, infCode := some 0x7F800000, nanCode := 0x7FC00000, sign := some 31,
    negZero := true }

def bf16 : FpFmt :=
  { t := 7, emin := -126, maxCode := 0x7F7F, infCode := some 0x7F80, nanCode := 0x7FC0, sign := some 15, negZero := true }

def fp16 : FpFmt :=
  { t := 10, emin := -14, maxCode := 0x7BFF, infCode := some 0x7C00, nanCode := 0x7E00, sign := some 15, negZero := true }

/-- OCP MX E2M1 (spec/12 R173); its NaN code is never written, since no NaN reaches to_fmt. -/
def mxf4 : FpFmt := { t := 1, emin := 0, maxCode := 7, infCode := none, nanCode := 0, sign := some 3, negZero := true }

/-- b8p{p}, p from 1 to 7 (spec/12 R172). -/
def b8 (p : Nat) (nonneg finite : Bool) : FpFmt :=
  let w := if nonneg then 9 - p else 8 - p
  { t := p - 1, emin := 1 - (2 : Int) ^ (w - 1),
    maxCode := if nonneg then (if finite then 0xFE else 0xFD) else (if finite then 0x7F else 0x7E),
    infCode := if finite then none else some (if nonneg then 0xFE else 0x7F),
    nanCode := if nonneg then 0xFF else 0x80,
    sign := if nonneg then none else some 7, negZero := false }

/-- What a format of EFMT is: a floating-point format, or an integer of so many bits. -/
inductive FmtKind | flt (f : FpFmt) | int (bits : Nat)
  deriving DecidableEq, Repr

def fmtKind : Fmt → FmtKind
  | .fp32 => .flt fp32
  | .bf16 => .flt bf16
  | .fp16 => .flt fp16
  | .int8 => .int 8
  | .int32 => .int 32
  | .mxf4 => .flt mxf4
  | .int64 => .int 64
  | .b8 p n f => .flt (b8 (p.val + 1) n f)

def fpEtFmt : FpEt → FpFmt
  | .f32 => fp32
  | .bf16 => bf16
  | .fp16 => fp16

/-- The value of a magnitude code. -/
def codeVal (f : FpFmt) (neg : Bool) (c : Nat) : Val :=
  if c / 2 ^ f.t = 0 then .fin neg c (f.emin - f.t) false
  else .fin neg (2 ^ f.t + c % 2 ^ f.t) (f.emin - f.t + (c / 2 ^ f.t : Nat) - 1) false

/-- The value of a code of a format (spec/12 R170, R172, R173). -/
def fpDecode (f : FpFmt) (bits : Nat) : Val :=
  match f.sign with
  | none =>
    if bits = f.nanCode then .nan
    else if f.infCode = some bits then .inf false
    else codeVal f false bits
  | some s =>
    let neg := bits / 2 ^ s % 2 == 1
    let c := bits % 2 ^ s
    if f.negZero then
      match f.infCode with
      | some i => if c > i then .nan else if c = i then .inf neg else codeVal f neg c
      | none => codeVal f neg c
    else if bits = f.nanCode then .nan
    else if f.infCode = some c then .inf neg
    else codeVal f neg c

/-- A magnitude code with its sign. -/
def fpPack (f : FpFmt) (neg : Bool) (c : Nat) : Nat :=
  match f.sign with
  | none => c
  | some s => if neg then 2 ^ s + c else c

/-- Whether a magnitude is rounded up, from its lower neighbour's code, the remainder against half a spacing
(−1 below, 0 at, 1 above; exact when `isZero`). Ties to even take the even code (spec/12 R175). -/
def roundsUp (rm : RMode) (neg : Bool) (code : Nat) (exact : Bool) (half : Ordering) : Bool :=
  if exact then false
  else
    match rm with
    | .rne => half == .gt || (half == .eq && code % 2 == 1)
    | .rtz => false
    | .rdn => neg
    | .rup => !neg

/-- The lower neighbour's code of a positive magnitude, whether it is exact, and the remainder against half a spacing,
with F's subnormal spacing below and the exponent unbounded above. -/
def lowerCode (f : FpFmt) (mag : Nat) (exp : Int) (sticky : Bool) : Nat × Bool × Ordering :=
  let top : Int := exp + (Nat.log2 mag : Nat)
  let e := if top < f.emin then f.emin else top
  let q := e - f.t
  let base : Nat := if top < f.emin then 0 else (e - f.emin).toNat * 2 ^ f.t
  if exp ≥ q then
    let m := mag * 2 ^ (exp - q).toNat
    (base + m, !sticky, .lt)
  else
    let sh := (q - exp).toNat
    let m := mag / 2 ^ sh
    let r := mag % 2 ^ sh
    let h := 2 ^ (sh - 1)
    let cmp : Ordering := if r < h then .lt else if r = h then (if sticky then .gt else .eq) else .gt
    (base + m, r = 0 && !sticky, cmp)

/-- to_fmt(v, F, rm, sat) of spec/12 R176, with the flags it sets. -/
def toFmt (v : Val) (f : FpFmt) (rm : RMode) (sat : Bool) : Nat × FpFlags :=
  let negOf (neg nonzero : Bool) : Bool := f.sign.isNone && neg && nonzero
  match v with
  | .nan => (f.nanCode, .none)
  | .inf neg =>
    if negOf neg true then (0, .nv)
    else
      match f.infCode with
      | some i => (fpPack f neg i, .none)
      | none => if sat then (fpPack f neg f.maxCode, .sat) else (f.nanCode, .nv)
  | .fin neg mag exp sticky =>
    if negOf neg (mag != 0 || sticky) then (0, .nv)
    else if mag = 0 && !sticky then (if f.negZero then fpPack f neg 0 else 0, .none)
    else
      let (lo, exact, half) := if mag = 0 then (0, false, Ordering.lt) else lowerCode f mag exp sticky
      let c := if roundsUp rm neg lo exact half then lo + 1 else lo
      let nx : FpFlags := if exact then .none else .nx
      let uf : FpFlags := if !exact && c < 2 ^ f.t then .uf else .none
      if c > f.maxCode then
        let fl := FpFlags.of ||| FpFlags.nx
        if sat then (fpPack f neg f.maxCode, fl ||| .sat)
        else if rm = .rtz || (rm = .rdn && !neg) || (rm = .rup && neg) then (fpPack f neg f.maxCode, fl)
        else
          match f.infCode with
          | some i => (fpPack f neg i, fl)
          | none => (f.nanCode, fl ||| .nv)
      else if c = 0 && !f.negZero then (0, nx ||| uf)
      else (fpPack f neg c, nx ||| uf)

/-- The integer nearest a magnitude under a rounding mode, and whether it is exact. -/
def roundMag (rm : RMode) (neg : Bool) (mag : Nat) (exp : Int) (sticky : Bool) : Nat × Bool :=
  if exp ≥ 0 then (mag * 2 ^ exp.toNat, !sticky)
  else
    let sh := (-exp).toNat
    let m := mag / 2 ^ sh
    let r := mag % 2 ^ sh
    let h := 2 ^ (sh - 1)
    let cmp : Ordering := if r < h then .lt else if r = h then (if sticky then .gt else .eq) else .gt
    let exact := r = 0 && !sticky
    (if roundsUp rm neg m exact cmp then m + 1 else m, exact)

/-- to_int(v, n, rm) of spec/12 R177, as an integer, with its flags. -/
def toInt (v : Val) (n : Nat) (rm : RMode) : Int × FpFlags :=
  let hi : Int := 2 ^ (n - 1) - 1
  let lo : Int := -(2 ^ (n - 1))
  match v with
  | .nan => (0, .nv)
  | .inf neg => (if neg then lo else hi, .nv)
  | .fin neg mag exp sticky =>
    let (m, exact) := roundMag rm neg mag exp sticky
    let i : Int := if neg then -(m : Int) else m
    let nx : FpFlags := if exact then .none else .nx
    if i > hi then (hi, nx ||| .nv)
    else if i < lo then (lo, nx ||| .nv)
    else (i, nx)

/-- An integer as an exact value. -/
def valOfInt (i : Int) : Val := .fin (i < 0) i.natAbs 0 false

/-! ## Exact operations (spec/12 R180) -/

def Val.neg : Val → Val
  | .nan => .nan
  | .inf s => .inf (!s)
  | .fin s m e k => .fin (!s) m e k

def Val.abs : Val → Val
  | .nan => .nan
  | .inf _ => .inf false
  | .fin _ m e k => .fin false m e k

/-- The sum of two exact values, and whether it is invalid (∞ − ∞). An exact zero of opposite signs is +0, and −0 when
rounding down. -/
def addVal (rm : RMode) (a b : Val) : Val × Bool :=
  match a, b with
  | .nan, _ => (.nan, false)
  | _, .nan => (.nan, false)
  | .inf s, .inf t => if s = t then (.inf s, false) else (.nan, true)
  | .inf s, .fin _ _ _ _ => (.inf s, false)
  | .fin _ _ _ _, .inf t => (.inf t, false)
  | .fin s m e _, .fin t n g _ =>
    let lo := if e ≤ g then e else g
    let am := m * 2 ^ (e - lo).toNat
    let bm := n * 2 ^ (g - lo).toNat
    if s = t then (.fin s (am + bm) lo false, false)
    else if am = bm then (.fin (rm = .rdn) 0 lo false, false)
    else if am > bm then (.fin s (am - bm) lo false, false)
    else (.fin t (bm - am) lo false, false)

/-- The product of two exact values, and whether it is invalid (0 × ∞). -/
def mulVal (a b : Val) : Val × Bool :=
  match a, b with
  | .nan, _ => (.nan, false)
  | _, .nan => (.nan, false)
  | .inf s, .inf t => (.inf (s != t), false)
  | .inf s, .fin t m _ _ => if m = 0 then (.nan, true) else (.inf (s != t), false)
  | .fin s m _ _, .inf t => if m = 0 then (.nan, true) else (.inf (s != t), false)
  | .fin s m e _, .fin t n g _ => (.fin (s != t) (m * n) (e + g) false, false)

/-- The quotient, to 96 bits and sticky, with the flags DZ and NV. -/
def divVal (a b : Val) : Val × FpFlags :=
  match a, b with
  | .nan, _ => (.nan, .none)
  | _, .nan => (.nan, .none)
  | .inf _, .inf _ => (.nan, .nv)
  | .inf s, .fin t _ _ _ => (.inf (s != t), .none)
  | .fin s _ _ _, .inf t => (.fin (s != t) 0 0 false, .none)
  | .fin s m e _, .fin t n g _ =>
    if n = 0 then (if m = 0 then (.nan, .nv) else (.inf (s != t), .dz))
    else
      let sh := 96 + Nat.log2 n
      let q := m * 2 ^ sh / n
      (.fin (s != t) q (e - g - sh) (m * 2 ^ sh % n != 0), .none)

/-- The integer square root, bit by bit from bit `k` − 1. -/
def isqrt (n : Nat) : Nat → Nat → Nat
  | 0, r => r
  | k + 1, r => let c := r + 2 ^ k; isqrt n k (if c * c ≤ n then c else r)

/-- The square root, to at least 63 bits and sticky, with the flag NV below −0. -/
def sqrtVal (a : Val) : Val × FpFlags :=
  match a with
  | .nan => (.nan, .none)
  | .inf false => (.inf false, .none)
  | .inf true => (.nan, .nv)
  | .fin s m e _ =>
    if m = 0 then (.fin s 0 0 false, .none)
    else if s then (.nan, .nv)
    else
      let odd : Nat := (e % 2).toNat
      let n := m * 2 ^ (128 + odd)
      let r := isqrt n (Nat.log2 n / 2 + 1) 0
      (.fin false r ((e - odd) / 2 - 64) (r * r != n), .none)

/-- Exact comparison of two values; none with a NaN. Zeros are equal. -/
def cmpVal (a b : Val) : Option Ordering :=
  let key (s : Bool) (m : Nat) : Int := if s then -(m : Int) else m
  match a, b with
  | .nan, _ => none
  | _, .nan => none
  | .inf s, .inf t => some (if s = t then .eq else if s then .lt else .gt)
  | .inf s, .fin _ _ _ _ => some (if s then .lt else .gt)
  | .fin _ _ _ _, .inf t => some (if t then .gt else .lt)
  | .fin s m e _, .fin t n g _ =>
    let lo := if e ≤ g then e else g
    some (compare (key s (m * 2 ^ (e - lo).toNat)) (key t (n * 2 ^ (g - lo).toNat)))

def valNeg : Val → Bool
  | .nan => false
  | .inf s => s
  | .fin s _ _ _ => s

def valNan : Val → Bool
  | .nan => true
  | .inf _ => false
  | .fin _ _ _ _ => false

/-- Whether a is the one MIN takes: the lower, −0 below +0 (spec/12 R180). -/
def minTakesFirst (a b : Val) : Bool :=
  match cmpVal a b with
  | some .lt => true
  | some .gt => false
  | _ => valNeg a || !valNeg b

/-! ## Operations on codes -/

def nvIf (b : Bool) : FpFlags := if b then .nv else .none

def fpAdd (f : FpFmt) (rm : RMode) (sat : Bool) (a b : Nat) : Nat × FpFlags :=
  let (v, bad) := addVal rm (fpDecode f a) (fpDecode f b)
  let (r, fl) := toFmt v f rm sat
  (r, fl ||| nvIf bad)

def fpSub (f : FpFmt) (rm : RMode) (sat : Bool) (a b : Nat) : Nat × FpFlags :=
  let (v, bad) := addVal rm (fpDecode f a) (fpDecode f b).neg
  let (r, fl) := toFmt v f rm sat
  (r, fl ||| nvIf bad)

def fpMul (f : FpFmt) (rm : RMode) (sat : Bool) (a b : Nat) : Nat × FpFlags :=
  let (v, bad) := mulVal (fpDecode f a) (fpDecode f b)
  let (r, fl) := toFmt v f rm sat
  (r, fl ||| nvIf bad)

def fpDiv (f : FpFmt) (rm : RMode) (sat : Bool) (a b : Nat) : Nat × FpFlags :=
  let (v, g) := divVal (fpDecode f a) (fpDecode f b)
  let (r, fl) := toFmt v f rm sat
  (r, fl ||| g)

def fpSqrt (f : FpFmt) (rm : RMode) (sat : Bool) (a : Nat) : Nat × FpFlags :=
  let (v, g) := sqrtVal (fpDecode f a)
  let (r, fl) := toFmt v f rm sat
  (r, fl ||| g)

/-- The variants of the fused multiply-add (spec/16 R254): whether the product and the addend are negated. -/
def fpFma (f : FpFmt) (rm : RMode) (sat : Bool) (negP negC : Bool) (a b c : Nat) : Nat × FpFlags :=
  let (p, bad1) := mulVal (fpDecode f a) (fpDecode f b)
  let p := if negP then p.neg else p
  let cv := fpDecode f c
  let cv := if negC then cv.neg else cv
  let (v, bad2) := addVal rm p cv
  let (r, fl) := toFmt v f rm sat
  (r, fl ||| nvIf (bad1 || bad2))

/-- MIN and MAX (spec/12 R180): the non-NaN operand when exactly one is NaN, −0 below +0, no flag. -/
def fpMin (f : FpFmt) (a b : Nat) : Nat :=
  let va := fpDecode f a
  let vb := fpDecode f b
  if valNan va && valNan vb then f.nanCode
  else if valNan va then b
  else if valNan vb then a
  else if minTakesFirst va vb then a else b

def fpMax (f : FpFmt) (a b : Nat) : Nat :=
  let va := fpDecode f a
  let vb := fpDecode f b
  if valNan va && valNan vb then f.nanCode
  else if valNan va then b
  else if valNan vb then a
  else if minTakesFirst va vb then b else a

/-- Equality: false with a NaN, no flag. -/
def fpEq (f : FpFmt) (a b : Nat) : Bool := cmpVal (fpDecode f a) (fpDecode f b) == some .eq

/-- Ordered comparisons: false and NV with a NaN (spec/12 R180). -/
def fpLt (f : FpFmt) (a b : Nat) : Bool × FpFlags :=
  match cmpVal (fpDecode f a) (fpDecode f b) with
  | none => (false, .nv)
  | some o => (o == .lt, .none)

def fpLe (f : FpFmt) (a b : Nat) : Bool × FpFlags :=
  match cmpVal (fpDecode f a) (fpDecode f b) with
  | none => (false, .nv)
  | some o => (o != .gt, .none)

/-- The sign bit inverted, a NaN giving the canonical one (spec/16 R253, R257). -/
def fpNeg (f : FpFmt) (a : Nat) : Nat :=
  match fpDecode f a, f.sign with
  | .nan, _ => f.nanCode
  | _, some s => if a / 2 ^ s % 2 = 1 then a - 2 ^ s else a + 2 ^ s
  | _, none => a

/-- The sign bit cleared, a NaN giving the canonical one. -/
def fpAbs (f : FpFmt) (a : Nat) : Nat :=
  match fpDecode f a, f.sign with
  | .nan, _ => f.nanCode
  | _, some s => a % 2 ^ s
  | _, none => a

/-- FCLASS of an FP32 code (spec/16 R253): the bit it sets. -/
def fclassBit (a : Nat) : Nat :=
  let neg := a / 2 ^ 31 % 2 = 1
  let c := a % 2 ^ 31
  if c > 0x7F800000 then 8
  else if c = 0x7F800000 then (if neg then 0 else 7)
  else if c = 0 then (if neg then 3 else 4)
  else if c < 0x00800000 then (if neg then 2 else 5)
  else if neg then 1 else 6

/-! ## The helpers of spec/12 R182 -/

def roundFp32 (v : Val) : Nat := (toFmt v fp32 .rne false).1

/-- round_fp32_sat with its SAT indication. -/
def roundFp32Sat (v : Val) : Nat × Bool :=
  let (r, fl) := toFmt v fp32 .rne true
  (r, fl.getLsbD 5)

def roundBf16 (v : Val) : Nat := (toFmt v bf16 .rne false).1

def fp32OfBf16 (b : Nat) : Nat := b * 2 ^ 16

/-- floor(log2) of a positive magnitude. -/
def floorLog2 (mag : Nat) (exp : Int) : Int := exp + (Nat.log2 mag : Nat)

/-- emax(F) of spec/12 R174. -/
def emaxOf (t : Fmt) : Int :=
  match fmtKind t with
  | .int _ => 6
  | .flt f => f.emin - 1 + (f.maxCode / 2 ^ f.t : Nat)

/-- block_scale(amax, F, sat) of spec/12 R174. -/
def blockScale (amax : Val) (t : Fmt) (sat : Bool) : Nat :=
  match amax with
  | .nan => 0xFF
  | .inf _ => if sat then 254 else 0xFF
  | .fin _ mag exp _ =>
    if mag = 0 then 127
    else
      let e := floorLog2 mag exp - emaxOf t + 127
      if e < 0 then 0 else if e > 254 then 254 else e.toNat

/-- v · 2^n. -/
def scaleVal (v : Val) (n : Int) : Val :=
  match v with
  | .nan => .nan
  | .inf s => .inf s
  | .fin s m e k => .fin s m (e + n) k

end Sys2Proof.Machine
end

