-- ==== Sys2Proof/Machine/State.lean ====
section
/-!
DEFINITION. The state of one device: its cores, memory, requests on their way, engines, scheduler, host port and
management, as spec/00 to spec/22 give them; its stops; and the device right after reset. INVENTORY.md lists every field
with its rule and reset value. Times are ticks of the 1.8 GHz clock (spec/00 R7).
-/

namespace Sys2Proof.Machine

/-- A table that lists what differs from its default, keys rising. -/
abbrev Assoc (α : Type) := List (Nat × α)

/-- An inbox message (spec/00 R8). -/
structure Msg where
  kind    : BitVec 8
  status  : BitVec 8
  source  : BitVec 16
  xid     : BitVec 16
  payload : Word
  deriving DecidableEq, Repr

/-- What becomes free when a completion is placed in the inbox (spec/09 R132, spec/17 R270, R290). -/
inductive PlaceAct | keep | freeXfer (xid : BitVec 16) | freeHandle (h : BitVec 16) | freeSend (h : BitVec 16)
  deriving DecidableEq, Repr

/-- Messages that are placed adjacent, and what their placing frees (spec/09 R130, R135). -/
structure Completion where
  msgs : List Msg
  act  : PlaceAct
  deriving DecidableEq, Repr

/-! ## A core -/

/-- The destination of a variable-latency result. -/
inductive FDst | x (i : XReg) | f (i : FReg)
  deriving DecidableEq, Repr

/-- A variable-latency result outstanding (spec/07 R94): the values that have arrived and not landed, oldest first; whether
more are to come; whether a later bundle has issued; whether a later fixed-latency write has superseded it. -/
structure Flight where
  id   : Nat
  dst  : FDst
  vals : List Word
  more : Bool
  aged : Bool
  dead : Bool
  deriving DecidableEq, Repr

/-- The main context (spec/07 R92). `npc` is PC_next of spec/15 R224; `marker` says that a bundle with S set has issued and
its context waits for its results. -/
structure MainCtx where
  x       : Vector Word 32
  f       : Vector Half 16
  v       : Vector Vec 32
  m       : Vector Word 8
  pc      : Pc
  npc     : Pc
  marker  : Bool
  flights : List Flight
  deriving DecidableEq, Repr

/-- The row that the handler context holds (spec/07 R103, spec/17 R280): the number of its MDRAIN, where HRET writes it and in which
class. -/
structure Row where
  stamp : Nat
  dest : Word
  cls  : RClass
  last : Bool
  deriving DecidableEq, Repr

/-- The handler context (spec/07 R92, R103). `faults` are the handler faults not yet taken by the main context, oldest first: the handler's
cause and PC (R104). -/
structure HandlerCtx where
  x       : Vector Word 16
  v       : Vector Vec 8
  pc      : Pc
  npc     : Pc
  marker  : Bool
  flights : List Flight
  priv    : Bool
  row     : Option Row
  faults  : List (BitVec 8 × Pc)
  deriving DecidableEq, Repr

/-- The control registers that hold a value of their own (spec/14 R211). CORE_STATUS without its computed PREQ and EXPH;
TIME is the tick count less `timeOff`. INT_PEND, MQ_STAT, COREID, XPH_STAT and ARRAY_SHAPE are read from the state they show. -/
structure CtlRegs where
  coreStatus  : Word
  trapCause   : Word
  trapPc      : Word
  trapVal     : Word
  trapScratch : Word
  tvec        : Word
  intEn       : Word
  timeOff     : Word
  timerCmp    : Word
  qtimeout    : Word
  wdog        : Word
  fpctl       : Word
  vlen        : Word
  mqAddr      : Word
  fduty       : Word
  gmem        : Vector Word 4
  gscope      : Vector Word 4
  deriving DecidableEq, Repr

/-- The shadow registers of the Copy Engine (spec/09 R131). -/
structure CpRegs where
  src    : Word
  dst    : Word
  idx    : Word
  stride : Vector Word 3
  count  : Vector Word 3
  cls    : Word
  flags  : Word
  deriving DecidableEq, Repr

/-- A write in the buffer of an output port: its number among the core's operations, its address and its element. -/
structure PortWrite where
  id   : Nat
  stamp : Nat
  addr : Nat
  data : Vec
  deriving DecidableEq, Repr

/-- A stream port (spec/07 R101): its registers, the indices of the next element, the elements of an input port that
have arrived, none for one that is uncorrectable, and the write buffer of an output port, oldest first. -/
structure Port where
  cfg     : Word
  str     : Word
  cnt     : Word
  i0      : Nat
  i1      : Nat
  i2      : Nat
  arrived : List (Option Vec)
  outq    : List PortWrite
  deriving DecidableEq, Repr

/-- An entry of the vector sequencer (spec/07 R99): its instruction, the scalars captured at issue, the result it owes, the
context and bundle that issued it, and its number among the core's operations. -/
structure SeqEntry where
  ins     : Instr
  a       : Word
  b       : Word
  flight  : Option Nat
  handler : Bool
  pc      : Pc
  stamp   : Nat
  deriving DecidableEq, Repr

/-- A VLOOP block (spec/07 R100, spec/16 R269): entries still to capture, the count, the block, the next entry of the block,
the iterations left, and its number among the core's operations. -/
structure Loop where
  stamp : Nat
  want  : Nat
  count : Nat
  body  : List SeqEntry
  pos   : Nat
  left  : Nat
  deriving DecidableEq, Repr

/-- The sequencer, the stream ports and the neighbour queues (spec/07 R99 to R102); queues in the order N, E, S, W. `nqIn`
holds the entries on their way, each with the handler bundle that sent it, if one did; `nqWait` is the tick since which the oldest entry waits on a queue; `drain` says that a trap or a
safe-point stop came during a VLOOP and waits until the sequencer is empty (R100). -/
structure SeqState where
  queue  : List SeqEntry
  loop   : Option Loop
  ports  : Vector Port 4
  nq     : Vector (List Vec) 4
  nqIn   : Vector (List (Option Pc × Vec)) 4
  nqWait : Option Nat
  drain  : Bool
  deriving DecidableEq, Repr

/-- A barrier a core is parked in. -/
inductive Barrier | none | sync (g : Fin 256) | xend (g : Fin 256)
  deriving DecidableEq, Repr

/-- The exchange of a core (spec/07 R105, spec/15 R244, R245). `group` is the group whose SYNC opened it; `back` says that
the barrier has returned and the parked bundle completes; `ovrDue` that trap 0x07 is due; its TRAP_VAL, REMAIN when the
first excess byte landed, is 0 under R105. -/
structure Exchange where
  parked   : Barrier
  back     : Bool
  group    : Option (Fin 256)
  t0       : Nat
  ncol     : BitVec 16
  ovr      : Bool
  xcol     : Bool
  remain   : BitVec 32
  held     : Nat
  expected : Bool
  ovrDue   : Bool
  deriving DecidableEq, Repr

/-- A failing response that has reached the core (spec/07 R111): cause and TRAP_VAL. -/
structure RespTrap where
  cause : BitVec 8
  val   : Word
  deriving DecidableEq, Repr

/-- A cached tensor shape record (spec/08 R126): its address, the device-physical places of its 24 words if they are this
core's own, its words, its stale mark. -/
structure CachedRec where
  ga    : Word
  phys  : List Nat
  words : List Word
  stale : Bool
  deriving DecidableEq, Repr

/-- Traps, inbox and holds of a core. `fenceAt` and `fenceH` number the operations
before the FENCE in which the main and the handler context stand. `peer` lists the faulted cores of kind 0x10 messages whose 0x0B is not yet taken;
`parkedAt` is the bundle of a WFI that parks or of a SAFEPT that waits to stop.
`qto` and `wdogHit` are pending 0x0D (with TRAP_VAL and the bundle) and 0x0F, `qtoIn` and `wdogIn` whether they were raised in a
trap handler. -/
structure EventState where
  respTraps   : List RespTrap
  peer        : List (BitVec 16)
  qto         : Option (Word × Pc)
  qtoIn       : Bool
  wdogHit     : Bool
  wdogIn      : Bool
  inbox       : List Msg
  held        : List Completion
  errQ        : List (DieIx × Nat)
  records     : List CachedRec
  holdSince   : Option Nat
  parkedAt    : Option Pc
  fenceAt     : Option Nat
  fenceH      : Option Nat
  safeIgnored : Nat
  dropped     : Nat
  deriving DecidableEq, Repr

/-- State of a Copy Engine transfer (spec/09 R132, R135). -/
inductive XferState | prepared | running | suspended
  deriving DecidableEq, Repr

/-- A Residency fetch: the entry and the members' core indices in rank order with the W offset (spec/22 R319). -/
structure FetchInfo where
  entry   : Nat
  members : List Nat
  wbase   : Nat
  plen    : Nat
  srcVa   : Nat
  deriving DecidableEq, Repr

/-- A transfer slot (spec/09 R132 to R136): `base` is the chunk it last started from, `started` how many chunks have begun
from there, `landed` and `lost` those that have landed and that have failed, `failed` the lowest failing chunk with its cause
and address. -/
structure Xfer where
  xid     : BitVec 16
  stamp   : Nat
  regs    : CpRegs
  priv    : Bool
  state   : XferState
  base    : Nat
  started : Nat
  landed  : List Nat
  lost    : List Nat
  failed  : Option (Nat × BitVec 8 × Word)
  fetch   : Option FetchInfo
  ended   : Bool
  deriving DecidableEq, Repr

/-- A SEND without its completion (spec/17 R290): its number while the message travels, the tick at which a peer's response is
overdue (spec/02 R33), its answer when it is known. -/
structure SendRec where
  handle : BitVec 16
  id     : Nat
  dst    : CoreIx
  dev    : Fin 1024
  tag    : BitVec 32
  len    : Nat
  due    : Nat
  answer : Option (BitVec 8 × BitVec 4)
  deriving DecidableEq, Repr

/-- Engines of a core: copies, the two ID counters, handles held, sends, the groups in whose work set the core has voted. -/
structure CoreEng where
  cp      : CpRegs
  copies  : List Xfer
  xid     : BitVec 16
  handle  : BitVec 16
  handles : List (BitVec 16)
  sends   : List SendRec
  votes   : List (Fin 256)
  relayCnt  : Vector Word 8
  relayTerm : Vector Word 8
  deriving DecidableEq, Repr

/-- A command of the matrix queue (spec/17 R271): started, rows dispatched, released by the Relay. -/
structure MatEntry where
  cmd      : MatCmd
  stamp    : Nat
  started  : Bool
  rows     : Nat
  released : Bool
  deriving DecidableEq, Repr

/-- A plane (spec/17 R274): 16 columns of 128 bytes and 8 scale bytes each, byte 0 lowest. -/
structure Plane where
  cols   : Vector (BitVec 1024) 16
  scales : Vector (BitVec 64) 16
  deriving DecidableEq, Repr

/-- The matrix unit (spec/17 R271 to R280, spec/14 R212, spec/09 R144): `nextBands` is a SETC of ARRAY_SHAPE that waits for
a command boundary. -/
structure MatState where
  mq        : List MatEntry
  active    : Plane
  shadow    : Plane
  bands     : BitVec 4
  nextBands : Option (BitVec 4)
  banked    : BitVec 8
  deriving DecidableEq, Repr

/-- STATE of SLOT_STAT (spec/05 R68). -/
inductive SlotSt | idle | loading | running | stopping | saving | frozen | halted
  deriving DecidableEq, Repr

/-- How a stopping core has stopped (spec/05 R73). -/
inductive StopKind | no | safe (map : BitVec 16) | forced
  deriving DecidableEq, Repr

/-- What a LOADING core does (spec/05 R69). -/
inductive LoadKind | none | new | resume
  deriving DecidableEq, Repr

/-- The slot of a core (spec/05 R68): its bind record as written, words 0 and 1; the binding in force; SLOT_STAT, the
pre-emption request and how the core stopped. -/
structure Slot where
  rec0    : Word
  rec1    : Word
  act     : BitVec 4
  prio    : BitVec 3
  ctx     : BitVec 12
  lid     : BitVec 16
  lrank   : BitVec 12
  seq     : BitVec 8
  crec    : BitVec 40
  aseq    : BitVec 8
  err     : Bool
  st      : SlotSt
  skind   : BitVec 2
  load    : LoadKind
  preq    : Option Nat
  stop    : StopKind
  fatal   : Option (BitVec 8 × Word)
  deriving DecidableEq, Repr

/-- The break-even predictors (spec/06 R81): T of bands 0 to 3, vector unit, SFU and Copy Engine, and which are gated. -/
structure Gating where
  t     : Vector Nat 7
  gated : Vector Bool 7
  deriving DecidableEq, Repr

structure Core where
  main : MainCtx
  hnd  : HandlerCtx
  ctl  : CtlRegs
  seq  : SeqState
  exch : Exchange
  evt  : EventState
  eng  : CoreEng
  mat  : MatState
  slot : Slot
  pwr  : Gating
  deriving DecidableEq, Repr

/-! ## Requests on their way -/

/-- Who issued a request: a context of a core with the bundle's PC, an HRET row with the number of its MDRAIN, a peer and whether its
request carried no header, the Caravanserai cache, which writes a dirty word back (spec/02 R35), or a core that a launch has left since:
its stores are still performed (spec/05 R71). -/
inductive ReqSrc
  | core (k : CoreIx) (handler : Bool) (pc : Pc)
  | row (k : CoreIx) (pc : Pc) (drain : Nat)
  | peer (dev : Fin 1024) (core : CoreIx) (bare : Bool)
  | cache
  | left (k : CoreIx) (lid : BitVec 16)
  deriving DecidableEq, Repr

/-- What a request asks of its home: an access, a query of a Residency entry (spec/17 R296), an acquire or a release of a
token (spec/15 R248). -/
inductive ReqOp
  | acc (kind : AccKind)
  | query (fn : Fin 4) (e : Fin 1024)
  | tok (release : Bool)
  deriving DecidableEq, Repr

/-- How an answered load extends its value. -/
inductive Ext | zero (width : Nat) | sign (width : Nat)
  deriving DecidableEq, Repr

/-- Where a request stands (spec/02 R32, spec/19 R309): on its way; in a retry list until a tick; answered with a status,
the answer not yet at the core; ended by a translation fault that is not yet at the core. The waiting requests stand in the
list of requests in the order of their arrival. -/
inductive Phase | sent | waiting (due : Nat) | answered (status : BitVec 4) | faulted
  deriving DecidableEq, Repr

/-- A request. `reg` says that its address is of the register kind (spec/08 R117); `loc` that it is a local access that waits
(spec/15 R229) or that stands behind an entry of the sequencer (spec/10 R150). `due` is the tick at which its response is
overdue (spec/02 R33). -/
structure Req where
  id     : Nat
  src    : ReqSrc
  op     : ReqOp
  cls    : RClass
  fe     : FeMode
  ga     : Word
  sys    : BitVec 50
  reg    : Bool
  loc    : Bool
  tokchk : Bool
  ext    : Ext
  flight : Option Nat
  phase  : Phase
  due    : Nat
  ctx    : BitVec 12
  nocache : Bool
  plane  : Option (Fin 16)
  deriving DecidableEq, Repr

/-- An exchange transfer on its way (spec/07 R105, spec/15 R246): its bytes' source and destination with the global address that named it, its slot, the earliest tick at
which it may enter its links, whether its delay is counted, whether it is in a link. -/
structure XTransfer where
  id     : Nat
  src    : CoreIx
  buf    : Buf
  off    : Nat
  len    : Nat
  dst    : Nat
  ga     : Word
  slot   : BitVec 8
  start  : Nat
  late   : Bool
  entered : Bool
  deriving DecidableEq, Repr

/-! ## Translation -/

/-- A cached leaf (spec/08 R121, R122): its context, the virtual page in units of its size, the size, its address and
permissions. -/
structure Leaf where
  ctx  : BitVec 12
  page : Nat
  bits : Nat
  addr : Nat
  nc   : Bool
  e    : Bool
  w    : Bool
  r    : Bool
  deriving DecidableEq, Repr

/-! ## Engines of the device -/

/-- A pushed item on its way to its list (spec/09 R140, R141); `hpc` is the handler bundle that pushed it, if one did. -/
structure PushedItem where
  id   : Nat
  src  : CoreIx
  hpc  : Option Pc
  dst  : CoreIx
  item : BitVec 128
  deriving DecidableEq, Repr

/-- An item in a work list or a spill area (spec/09 R140): the core it is for, the launch of its push, its bytes. -/
structure WorkItem where
  core : CoreIx
  lid  : BitVec 16
  item : BitVec 128
  deriving DecidableEq, Repr

/-- A posted receive (spec/09 R137, spec/17 R289), of a core of a launch and in a context. -/
structure PostedRecv where
  core    : CoreIx
  lid     : BitVec 16
  ctx     : BitVec 12
  handle  : BitVec 16
  recGa   : Word
  words   : List Word
  mask    : BitVec 32
  tag     : BitVec 32
  anyDev  : Bool
  anyCore : Bool
  fromCore : CoreIx
  fromDev  : Fin 1024
  deriving DecidableEq, Repr

/-- A message that travels, or that the engine holds as unexpected for a launch. -/
structure Message where
  id      : Nat
  dev     : Fin 1024
  core    : CoreIx
  dst     : CoreIx
  tag     : BitVec 32
  cls     : RClass
  payload : List Byte
  handle  : BitVec 16
  lid     : BitVec 16
  deriving DecidableEq, Repr

/-- The Posted Receive Engine (spec/09 R137). -/
structure Pre where
  posted     : List PostedRecv
  unexpected : List Message
  sent       : List Message
  discarded  : Nat
  deriving DecidableEq, Repr

/-- A Residency Table entry (spec/08 R128). -/
structure ResEntry where
  state : BitVec 2
  hgrp  : BitVec 8
  pin   : BitVec 8
  ctx   : BitVec 12
  last  : BitVec 32
  xid   : BitVec 16
  srcVa : BitVec 48
  plen  : BitVec 20
  wbase : BitVec 19
  deriving DecidableEq, Repr

/-- A market step that runs (spec/11 R161 to R167): its core, tokens and output address. -/
structure MktStep where
  core   : CoreIx
  tokens : Nat
  out    : Word
  deriving DecidableEq, Repr

/-- The Sort Engine's work after a step (spec/09 R142): core, records as (position, expert, ready), output, STEP. -/
structure SortJob where
  core   : CoreIx
  recs   : List (Nat × Nat × Bool)
  nexp   : Nat
  ebase  : Nat
  out    : Word
  step   : BitVec 32
  fail   : Option Word
  deriving DecidableEq, Repr

/-- What an instruction asks of the Market (spec/17 R293, R294): a read with the result it owes, a write, a run. -/
inductive MktOp
  | read (sel : Word) (flight : Nat) (more : Bool)
  | write (sel val : Word)
  | run (a out : Word)
  deriving DecidableEq, Repr

/-- What waits at the Market (spec/11 R159, spec/17 R295): its partition, the core, its number among what has reached the Market, the
handler bundle that issued it, if one did. -/
structure MktWait where
  part  : Fin 16
  core  : CoreIx
  stamp : Nat
  hpc   : Option Pc
  op    : MktOp
  deriving DecidableEq, Repr

/-- A partition (spec/11 R159) and the launch that holds it. -/
structure Partition where
  cfg   : Word
  eps   : Word
  step  : Word
  bids  : Word
  stat  : Word
  owner : Option (BitVec 16 × BitVec 12)
  run   : Option MktStep
  sort  : List SortJob
  deriving DecidableEq, Repr

/-- A posted chunk (spec/11 R160): its own number and that of its GATEPOST among the core's operations; once it has reached its Broker, the
bid table and the chunks of a row as the partition held them then (spec/18 R306). -/
structure Posting where
  id    : Nat
  stamp : Nat
  core  : CoreIx
  word  : Word
  data  : Vec
  taken : Option (Word × Nat)
  deriving DecidableEq, Repr

/-- An operation of an armed graph (spec/03 R39). -/
structure ConvOp where
  w0 : Word
  w1 : Word
  w2 : Word
  deriving DecidableEq, Repr

/-- How an operation of a running play stands: waiting on its counter; ready; with its timer since a tick; ended; never to become ready,
because an operation before it has faulted (spec/03 R47). -/
inductive OpState | waiting (cnt : Nat) | ready | timed (since : Nat) | done | failed | barred
  deriving DecidableEq, Repr

/-- A chunk that waits for its RECV (spec/21 R315), that arrives at one, or a contribution staged in a slot (spec/03 R44), and the
words of it whose SECDED has an error, with whether that is correctable (spec/06 R89). -/
structure Staged where
  play : BitVec 16
  op   : Nat
  cidx : Nat
  data : List Byte
  got  : Nat
  trig : Option (Fin 256)
  errs : List (Nat × Bool)
  deriving DecidableEq, Repr

/-- A running play (spec/03 R41, R47): bases, operations, outcome so far, tick of the last progress, SENDs that are retried with
the tick of their first attempt, SENDs without an answer, or whose answer was discarded, with the tick at which it is overdue (spec/02 R33,
R36), chunks of which a part has arrived at a RECV. -/
structure Play where
  bases    : List Word
  ops      : List OpState
  flags    : BitVec 4
  partials : List (Nat × BitVec 16)
  lates    : Nat
  fault    : Option (Nat × BitVec 4 × BitVec 48)
  progress : Nat
  sends    : List (Nat × Nat)
  lost     : List (Nat × Nat)
  landing  : List Staged
  deriving DecidableEq, Repr

/-- A convoy graph (spec/03 R38 to R48): the context that armed it, the arming core and its launch, the image, the play number, the running
and the operations of the last ended play, the queued play, the bases of the last play, the held-chunk area, triggers held for
the next play. -/
structure Graph where
  ctx     : BitVec 12
  core    : CoreIx
  lid     : BitVec 16
  armed   : Bool
  header  : Word
  peers   : List Nat
  trigs   : List (BitVec 128)
  ops     : List ConvOp
  play    : BitVec 16
  run     : Option Play
  ended   : List OpState
  queued  : Option (List Word)
  bases   : List Word
  area    : Option Staged
  nextTrigs : List Nat
  discarded : Nat
  deriving DecidableEq, Repr

/-- What waits for its arm completion (spec/17 R298): an image address, or 0 to disarm. -/
structure ArmReq where
  core  : CoreIx
  lid   : BitVec 16
  ctx   : BitVec 12
  image : Word
  deriving DecidableEq, Repr

/-- A play that waits for the release of its core's earlier stores (spec/17 R299). -/
structure PlayReq where
  core  : CoreIx
  lid   : BitVec 16
  ctx   : BitVec 12
  bases : List Word
  stamp : Nat
  deriving DecidableEq, Repr

/-- A reduction slot (spec/03 R44): its key and the staged contributions. -/
structure RedSlot where
  key    : Option (Fin 16 × BitVec 16 × Nat)
  staged : List Staged
  deriving DecidableEq, Repr

/-- The Convoy Sequencer (spec/03, spec/21); `empties` lists the chunk-buffer words whose full-empty bit is empty (spec/08 R124),
by slot, contributor and word; `fired` the trigger entries that chunks of plays have fired and that have yet to act, none between
moves (R45). -/
structure Convoy where
  graphs : Assoc Graph
  arms   : List (Fin 16 × ArmReq)
  plays  : List (Fin 16 × PlayReq)
  slots  : Assoc RedSlot
  late   : Nat
  empties : List Nat
  fired  : List (BitVec 16 × Fin 256)
  deriving DecidableEq, Repr

/-! ## The fabric -/

/-- A token-directory entry (spec/02 R34) with its queue of acquires and the tick at which the answer to its
recall is overdue. -/
structure TokEntry where
  checked : Bool
  moving  : Bool
  holder  : Fin 1024
  queue   : List TokParty
  recallDue : Option Nat
  deriving DecidableEq, Repr

/-- A peer-table entry (spec/02 R29). -/
structure PeerEntry where
  planes  : BitVec 16
  keyslot : BitVec 8
  enc     : Bool
  xt      : Bool
  foreign : Bool
  valid   : Bool
  deriving DecidableEq, Repr

/-- A station (spec/02 R26, R30): trained, and its requests outstanding. -/
structure Station where
  up          : Bool
  outstanding : Nat
  deriving DecidableEq, Repr

/-- A key slot (spec/02 R36): the key in use and, per key, whether it is installed and its packet counter. -/
structure KeySlot where
  kphase    : Bool
  installed : Vector Bool 2
  counter   : Vector Nat 2
  deriving DecidableEq, Repr

/-- A cached line of a remote region (spec/10 R147): its eight words, which of them are present and which are dirty. -/
structure Line where
  data  : Vec
  valid : BitVec 8
  dirty : BitVec 8
  deriving DecidableEq, Repr

/-- What the device sends onto the fabric, in order: the access of a core or the write-back of a cached word, with its extension header
and the intermediate of its first leg, a token move that a core asks for, the answer to a peer's request with its header, an engine's
read or write, a recall, its reply, a grant or status of the token protocol, a forwarded request with the plane of its second leg
(spec/02), a message (spec/09 R138), a convoy chunk (spec/21 R315). -/
inductive FabOut
  | request (sys : BitVec 50) (kind : AccKind) (hdr : Word) (via : Option Nat)
  | tokAsk (sys : BitVec 50) (release : Bool)
  | reply (dev : Fin 1024) (status : BitVec 4) (hdr data : Word)
  | read (sys : BitVec 50) (width : Nat) (hdr : Word)
  | write (sys : BitVec 50) (width : Nat) (data hdr : Word)
  | recall (dev : Fin 1024) (region : Nat)
  | recallReply (dev : Fin 1024) (region : Nat)
  | token (dev : Fin 1024) (region : Nat) (status : BitVec 8)
  | forward (r : FabReq) (plane : Fin 16)
  | message (dev : Fin 1024) (m : Message)
  | chunk (dev : Fin 1024) (c : Chunk)
  deriving DecidableEq, Repr

/-- Fabric registers and tokens (spec/02). `held` lists the tokens this device holds of other devices' regions, `overdue` the
requests that timed out and whose response has not come; `fixed` says that the peer table is fixed until the next bring-up. -/
structure Fabric where
  idSet     : Bool
  devid     : Fin 1024
  domainEn  : Bool
  fixed     : Bool
  peers     : Assoc PeerEntry
  stations  : Vector Station 16
  keys      : Assoc KeySlot
  feTimeout  : BitVec 32
  rspTimeout : BitVec 32
  tokTimeout : BitVec 32
  tokens    : Assoc TokEntry
  held      : List (Nat × Nat)
  cache     : Assoc Line
  tagFails  : Nat
  lateResponses : Nat
  overdue   : List Nat
  out       : List FabOut
  deriving DecidableEq, Repr

/-! ## Device registers, scheduler -/

/-- A violation-log entry (spec/06 R90). -/
structure VlogEntry where
  status : BitVec 4
  dev    : BitVec 10
  addr   : BitVec 50
  core   : BitVec 12
  src    : BitVec 4
  time   : BitVec 48
  deriving DecidableEq, Repr

/-- A die's violation log (spec/06 R90): its places, VLOG_CNT, entries already copied, the overflow counter. -/
structure Vlog where
  entries  : Assoc VlogEntry
  count    : Nat
  copied   : Nat
  overflow : Nat
  deriving DecidableEq, Repr

/-- A crossing of the mesh whose flits may fail their CRC at the destination router (spec/01 R17, spec/06 R89): an engine's access to a word
of this device; the response to a request, an exchange transfer, a pushed item or a message of this device, by its number; the next entry of a
neighbour queue. -/
inductive Crossing
  | word (sys : BitVec 50)
  | item (id : Nat)
  | queue (k : CoreIx) (dir : Dir)
  deriving DecidableEq, Repr

/-- Device registers that hold a value (spec/02, 03, 05, 06, 08, 09). `torn` lists the crossings whose flit CRC fails. `invPend` lists the accesses for which the GO bit of XLAT_INV
still reads 1 (spec/08 R122), `replicas` the Residency replicas that do not yet hold what the home holds, by 8·entry + die (R129);
`corrected` counts by 4·die + memory, 0 the stack, 1 the buffers, 2 the chunk buffers as die 8; `modules` lists what a link has
lost or not trained. -/
structure DevRegs where
  cvTimeout   : BitVec 32
  safeTimeout : BitVec 32
  fabImport   : Assoc Word
  xlatRoot    : Assoc Word
  xlatInv     : Word
  invPend     : List Nat
  wlSpill     : Assoc Word
  residency   : Assoc ResEntry
  replicas    : Assoc ResEntry
  vlogs       : Assoc Vlog
  acct        : Assoc (Vector Word 16)
  acctSnap    : Word
  snapBuf     : Vector Word 16
  oobBuf      : Vector Word 16
  linkCount   : Assoc Nat
  corrected   : Assoc Nat
  modules     : Assoc (List (Fin 16))
  torn        : List Crossing
  deriving DecidableEq, Repr

/-- A data-section entry (spec/05 R65). -/
structure DataEntry where
  src   : Nat
  buf   : Buf
  all   : Bool
  lrank : Nat
  off   : Nat
  len   : Nat
  deriving DecidableEq, Repr

inductive LaunchSt | pending | ready | running | ended
  deriving DecidableEq, Repr

/-- A launch (spec/05 R64, R70 to R72): where it came from, its header as read, its state and how it ends. -/
structure Launch where
  lid      : BitVec 16
  queue    : Fin 64
  pseq     : Nat
  tag      : BitVec 16
  prio     : BitVec 3
  ctx      : BitVec 12
  hdrVa    : Word
  param    : Word
  deps     : List (BitVec 16)
  hdr      : List Word
  groups   : List (List Nat)
  data     : List DataEntry
  st       : LaunchSt
  x0       : Nat
  y0       : Nat
  reason   : BitVec 8
  cause    : BitVec 8
  core     : BitVec 12
  arrival  : Nat
  started  : Nat
  saved    : Bool
  exitVal  : Option (BitVec 32)
  cancelAt : Option Nat
  deriving DecidableEq, Repr

/-- The scheduler hart (spec/05). -/
structure Sched where
  launches : List Launch
  lidNext  : BitVec 16
  arrivals : Nat
  faults   : List CoreIx
  deriving DecidableEq, Repr

/-! ## The host port -/

/-- A fetched packet (spec/04 R57): its place in fetch order, its words, what it has moved, and its status and RESULT once
its work has finished, with its number in the order of finishing (R63). -/
structure Packet where
  seq     : Nat
  words   : List Word
  started : Bool
  moved   : Nat
  retried : List Word
  waitPage : Option Word
  result  : Option (BitVec 8 × Word)
  fin     : Nat
  deriving DecidableEq, Repr

inductive QiState | disabled | active | error | revoked
  deriving DecidableEq, Repr

/-- A queue interface (spec/04 R53, R56, R57, R61). `rereads` counts the reads of an invalid packet since `rereadAt`; `closing`
says that EN = 0 has been written and completions are still to be written. -/
structure Qi where
  sqBase   : BitVec 64
  cqBase   : BitVec 64
  pasid    : BitVec 20
  ctx      : BitVec 12
  cqLog2   : BitVec 5
  sqLog2   : BitVec 5
  err      : BitVec 8
  ien      : Bool
  st       : QiState
  cqTail   : Nat
  sqHead   : Nat
  sqTail   : BitVec 32
  cqHead   : BitVec 32
  sqPass   : Nat
  cqPass   : Nat
  errors   : Nat
  rereads  : Nat
  rereadAt : Option Nat
  nextSeq  : Nat
  packets  : List Packet
  failed   : List (BitVec 16)
  closing  : Bool
  past     : List (Option (Fin 4))
  deriving DecidableEq, Repr

/-- A vector of the MSI-X table in BAR4 (spec/04 R50, R53). -/
structure MsixVector where
  addr   : Word
  data   : BitVec 32
  masked : Bool
  deriving DecidableEq, Repr

/-- What the device sends to the host, in order (spec/04 R51): `value` answers a read of a device register. -/
inductive HostWrite
  | completion (q : Fin 64) (index : Nat) (w0 w1 : Word)
  | data (q : Fin 64) (iova : Word) (bytes : List Byte)
  | msix (q : Fin 64)
  | pageRequest (pasid : BitVec 20) (page : Word)
  | invalidated (pasid : BitVec 20) (page : Word)
  | value (addr : Nat) (v : Word)
  deriving DecidableEq, Repr

/-- The host port (spec/04). `msix` and `pba` are BAR4; `streams` gives the selective stream that an interface's traffic is bound
to, where it has one. -/
structure HostPort where
  ready       : Bool
  featSel     : BitVec 2
  featDrv     : Vector Word 4
  featOk      : Bool
  featBad     : Bool
  qis         : Assoc Qi
  atc         : List (BitVec 20 × Word)
  pageReqs    : List (Nat × Word)
  out         : List HostWrite
  refusals    : List (Nat × Nat)
  msix        : Assoc MsixVector
  pba         : List Nat
  streams     : Assoc (Fin 4)
  deriving DecidableEq, Repr

/-! ## Management -/

/-- An entry of the persistent error log (spec/06 R83): a violation, an event, or a word pair of an accounting block. -/
inductive LogEntry | violation (e : VlogEntry) | event (code : BitVec 8) (subject : BitVec 24) (time : BitVec 48) | raw (w0 w1 : Word)
  deriving DecidableEq, Repr

/-- Power, sensors, firmware and the fatal state (spec/06, spec/01). Integrators are in milliwatts, the gains of R80 in 1/256;
`cap`, `vstep`, `est` are CL_VF; `booted` is the slot that booted, true for B; `fusedKeys` are the two fused key digests (R84) and
`config` the bytes of the configuration and calibration area (R83). -/
structure Mgmt where
  powered   : Bool
  compute   : Bool
  fatal     : Option (BitVec 8 × BitVec 24)
  thermN    : Bool
  pkgLimit  : BitVec 12
  budget    : Assoc (BitVec 20)
  cap       : Assoc (BitVec 4)
  vstep     : Assoc (BitVec 4)
  est       : Assoc (BitVec 16)
  integ     : Assoc Int
  kp        : BitVec 16
  ki        : BitVec 16
  sensors   : SensorReading
  plog      : List LogEntry
  slotA     : Option FwImage
  slotB     : Option FwImage
  booted    : Option Bool
  committed : Bool
  fuseSvn   : Nat
  bootSvn   : Nat
  bootConfig : List Host.Cell
  fusedKeys : BitVec 384 × BitVec 384
  config    : List Host.Cell
  locked    : Bool
  ideKeys   : List (Fin 5)
  answers   : List (List Word)
  deriving DecidableEq, Repr

/-! ## The device -/

/-- How the bundle being executed stands (log 9). -/
inductive BundleSt | ok | held | trapped
  deriving DecidableEq, Repr

/-- The scalar registers as the bundle's first slot found them (spec/07 R94, log 9). -/
structure SlotSrc where
  x : Vector Word 32
  f : Vector Half 16
  deriving DecidableEq, Repr

/-- A move of the device (log 2): an event, a bundle of a core, an entry of a core's sequencer, ticks that pass; a write of a
stream port that reaches its buffer (spec/07 R101); a replica of a Residency entry that takes what the home holds (spec/08 R129); an
error that falls on a stored word or burst, or on a word of the chunk buffers, or on the flits of a crossing (spec/06 R89); a read of a device register; an
interface whose traffic is bound to a selective IDE stream (spec/04 R50); a byte of the configuration area that the management
hart writes (spec/06 R83). -/
inductive Move
  | run (i : Instr)
  | issue (k : CoreIx)
  | seq (k : CoreIx)
  | elapse (ticks : Nat)
  | port (k : CoreIx) (n : Fin 4)
  | replicate (e : Fin 1024) (die : DieIx)
  | upset (addr : BitVec 40) (correctable : Bool)
  | upsetChunk (slot : Fin 64) (cidx : Fin 16) (word : Nat) (correctable : Bool)
  | tear (c : Crossing)
  | read (addr : BitVec 40)
  | bindStream (q : Fin 64) (stream : Option (Fin 4))
  | configure (offset : BitVec 22) (v : Byte)
  deriving DecidableEq, Repr

/-- What a safe save writes (spec/05 R74): the live x, v, f and m registers, the areas whose flags are set, the ranges as
buffer, offset and length. -/
structure SaveMap where
  x      : BitVec 32
  v      : BitVec 32
  f      : BitVec 16
  m      : BitVec 8
  nq     : Bool
  strm   : Bool
  planes : Bool
  hnd    : Bool
  ranges : List (Buf × Nat × Nat)
  deriving DecidableEq, Repr

/-- A saved core (spec/05 R75): where its record lies, what it holds, the core as it stopped, which keeps what the record's
areas hold without a layout, and the completions held until it resumes. -/
structure SavedCore where
  crec : Nat
  map  : SaveMap
  core : Core
  held : List Completion
  deriving DecidableEq, Repr

/-- An engine access that waits: for a token move in a home's retry list (spec/02 R32, R34), or for the response of another device
(R33): its number, the core and the SRC code it acts for, its address, the tick at which FE_TIMEOUT or FAB_RSP_TIMEOUT ends it, and
whether it has. -/
structure EngWait where
  id      : Nat
  core    : Nat
  src     : BitVec 4
  sys     : BitVec 50
  due     : Nat
  expired : Bool
  deriving DecidableEq, Repr

structure State where
  cores   : Assoc Core
  saves   : Assoc SavedCore
  mem     : List Host.Cell
  empties : List Nat
  bad     : List Nat
  weak    : List Nat
  istore  : Assoc (List Host.Cell)
  text    : Assoc (BitVec 16 × Nat)
  tlb     : Assoc (List Leaf)
  net     : List Req
  engWaits : List EngWait
  xfers   : List XTransfer
  nextId  : Nat
  lists   : Assoc (List WorkItem)
  spilled : Assoc (List WorkItem)
  pushed  : List PushedItem
  pre     : Pre
  parts   : Assoc Partition
  mktWaits : List MktWait
  prices  : Assoc Half
  caps    : Assoc Nat
  posts   : List Posting
  postsLost : Nat
  convoy  : Convoy
  fab     : Fabric
  dev     : DevRegs
  sched   : Sched
  host    : HostPort
  mgmt    : Mgmt
  now     : Nat
  cur     : CoreIx
  curH    : Bool
  agenda  : List Move
  turn    : Bool
  bundle  : BundleSt
  word    : Half
  slotSrc : Option SlotSrc
  free    : Nat
  seqHold : Bool
  deriving DecidableEq, Repr

/-! ## Reset -/

def MainCtx.reset : MainCtx :=
  { x := Vector.replicate 32 0, f := Vector.replicate 16 0, v := Vector.replicate 32 0, m := Vector.replicate 8 0,
    pc := 0, npc := 0, marker := false, flights := [] }

def HandlerCtx.reset : HandlerCtx :=
  { x := Vector.replicate 16 0, v := Vector.replicate 8 0, pc := 0, npc := 0, marker := false, flights := [],
    priv := true, row := none, faults := [] }

/-- Reset values of spec/07 R93 to R113, spec/12 R175, spec/14 R212, spec/06 R79, spec/05 R67. -/
def CtlRegs.reset : CtlRegs :=
  { coreStatus := 1, trapCause := 0, trapPc := 0, trapVal := 0, trapScratch := 0, tvec := 0, intEn := 0, timeOff := 0,
    timerCmp := 0xFFFFFFFFFFFFFFFF, qtimeout := 10000, wdog := 100000, fpctl := 0, vlen := 64,
    mqAddr := 0x800000000001FFC0, fduty := 16, gmem := Vector.replicate 4 0, gscope := Vector.replicate 4 0 }

/-- Reset values of spec/09 R131. -/
def CpRegs.reset : CpRegs :=
  { src := 0, dst := 0, idx := 0, stride := Vector.replicate 3 0, count := Vector.replicate 3 1, cls := 0, flags := 1 }

/-- Reset values of spec/07 R101. -/
def Port.reset : Port := { cfg := 0, str := 1, cnt := 0x100010001, i0 := 0, i1 := 0, i2 := 0, arrived := [], outq := [] }

def SeqState.reset : SeqState :=
  { queue := [], loop := none, ports := Vector.replicate 4 Port.reset, nq := Vector.replicate 4 [],
    nqIn := Vector.replicate 4 [], nqWait := none, drain := false }

def Exchange.reset : Exchange :=
  { parked := .none, back := false, group := none, t0 := 0, ncol := 0, ovr := false, xcol := false, remain := 0, held := 0,
    expected := false, ovrDue := false }

def EventState.reset : EventState :=
  { respTraps := [], peer := [], qto := none, qtoIn := false, wdogHit := false, wdogIn := false, inbox := [], held := [], errQ := [], records := [],
    holdSince := none, parkedAt := none, fenceAt := none, fenceH := none, safeIgnored := 0, dropped := 0 }

/-- RELAY_CNT resets to THRESH 1 (spec/09 R143). -/
def CoreEng.reset : CoreEng :=
  { cp := CpRegs.reset, copies := [], xid := 0, handle := 0, handles := [], sends := [], votes := [],
    relayCnt := Vector.replicate 8 0x10000, relayTerm := Vector.replicate 8 0 }

/-- Zero bytes, scales of 127 (spec/17 R274). -/
def Plane.reset : Plane := { cols := Vector.replicate 16 0, scales := Vector.replicate 16 0x7F7F7F7F7F7F7F7F }

def MatState.reset : MatState :=
  { mq := [], active := Plane.reset, shadow := Plane.reset, bands := 0xF, nextBands := none, banked := 0 }

def Slot.reset : Slot :=
  { rec0 := 0, rec1 := 0, act := 0, prio := 0, ctx := 0, lid := 0, lrank := 0, seq := 0, crec := 0, aseq := 0, err := false, st := .idle,
    skind := 0, load := .none, preq := none, stop := .no, fatal := none }

def Gating.reset : Gating := { t := Vector.replicate 7 0, gated := Vector.replicate 7 false }

/-- A core that no bind has reached. -/
def Core.reset : Core :=
  { main := MainCtx.reset, hnd := HandlerCtx.reset, ctl := CtlRegs.reset, seq := SeqState.reset, exch := Exchange.reset,
    evt := EventState.reset, eng := CoreEng.reset, mat := MatState.reset, slot := Slot.reset, pwr := Gating.reset }

/-- Reset values of spec/11 R159. -/
def Partition.reset : Partition :=
  { cfg := 0x0404000000000000, eps := 0x3C000000, step := 0, bids := 0, stat := 0, owner := none, run := none,
    sort := [] }

def ResEntry.reset : ResEntry :=
  { state := 0, hgrp := 0, pin := 0, ctx := 0, last := 0, xid := 0, srcVa := 0, plen := 0, wbase := 0 }

def Qi.reset : Qi :=
  { sqBase := 0, cqBase := 0, pasid := 0, ctx := 0, cqLog2 := 0, sqLog2 := 0, err := 0, ien := false, st := .disabled,
    cqTail := 0, sqHead := 0, sqTail := 0, cqHead := 0, sqPass := 0, cqPass := 0, errors := 0, rereads := 0,
    rereadAt := none, nextSeq := 0, packets := [], failed := [], closing := false, past := [] }

def Fabric.reset : Fabric :=
  { idSet := false, devid := 0, domainEn := false, fixed := false, peers := [],
    stations := Vector.replicate 16 { up := false, outstanding := 0 }, keys := [], feTimeout := 1000, rspTimeout := 10000,
    tokTimeout := 1000, tokens := [], held := [], cache := [], tagFails := 0, lateResponses := 0, overdue := [], out := [] }

def DevRegs.reset : DevRegs :=
  { cvTimeout := 100, safeTimeout := 2000, fabImport := [], xlatRoot := [], xlatInv := 0, invPend := [], wlSpill := [], residency := [],
    replicas := [], vlogs := [], acct := [], acctSnap := 0, snapBuf := Vector.replicate 16 0, oobBuf := Vector.replicate 16 0,
    linkCount := [], corrected := [], modules := [], torn := [] }

def HostPort.reset : HostPort :=
  { ready := false, featSel := 0, featDrv := Vector.replicate 4 0, featOk := false, featBad := false, qis := [], atc := [],
    pageReqs := [], out := [], refusals := [], msix := [], pba := [], streams := [] }

def SensorReading.reset : SensorReading := { temps := [], rails := [], diodes := [] }

/-- The image that has booted in the state after reset: slot A, one of version 0 with zero keys and signatures and without a body (log 42). -/
def FwImage.reset : FwImage :=
  { magic := 0x464C4657, svn := 0, len := 0, digest := Config.sha384 [], edSig := List.replicate 64 0, mlSig := List.replicate 3309 0,
    edKey := List.replicate 32 0, mlKey := List.replicate 1952 0, body := [] }

/-- PWR_CFG: KP 0.5 and KI 0.125 in 8.8 (spec/06 R80); PKG_LIMIT 2,800 (R78). -/
def Mgmt.reset : Mgmt :=
  { powered := true, compute := true, fatal := none, thermN := true, pkgLimit := 2800, budget := [], cap := [], vstep := [],
    est := [], integ := [], kp := 0x0080, ki := 0x0020, sensors := SensorReading.reset, plog := [],
    slotA := some FwImage.reset, slotB := none, booted := some false, committed := false, fuseSvn := 0, bootSvn := 0, bootConfig := [],
    fusedKeys := (Config.sha384 FwImage.reset.edKey, Config.sha384 FwImage.reset.mlKey), config := [], locked := false, ideKeys := [],
    answers := [] }

/-- The device right after reset: rails up, self-test done (stack words zero and full, spec/08 R124), every slot IDLE,
every register at the value the spec gives, or that log 10 names. -/
def State.reset : State :=
  { cores := [], saves := [], mem := [], empties := [], bad := [], weak := [], istore := [], text := [], tlb := [], net := [], engWaits := [],
    xfers := [], nextId := 0,
    lists := [], spilled := [], pushed := [], pre := { posted := [], unexpected := [], sent := [], discarded := 0 },
    parts := [], mktWaits := [], prices := [], caps := [], posts := [], postsLost := 0,
    convoy := { graphs := [], arms := [], plays := [], slots := [], late := 0, empties := [], fired := [] },
    fab := Fabric.reset, dev := DevRegs.reset, sched := { launches := [], lidNext := 1, arrivals := 0, faults := [] },
    host := HostPort.reset, mgmt := Mgmt.reset, now := 0, cur := 0, curH := false, agenda := [], turn := false,
    bundle := .ok, word := 0, slotSrc := none, free := 0, seqHold := false }

/-! ## Stops -/

/-- Why the machine stops. Both are raised by `step` alone, when the agenda names no move, and both are safe: the spec lets
no core, engine or queue move in these conditions. -/
inductive Fault
  /-- the device is in the fatal state of spec/06 R91; it leaves it through PERST_N or a power cycle, moves of the agenda -/
  | fatalState
  /-- the device has no power or presents no compute function (spec/01 R18, R21, spec/06 R84); a POWER_UP may follow -/
  | noCompute
  deriving DecidableEq, Repr

/-- Why the machine gives no meaning. Safe. -/
inductive Refusal
  /-- an arm of `exec` without a meaning raises it -/
  | notModelled (mnemonic : String)
  deriving DecidableEq, Repr

end Sys2Proof.Machine
end

