-- ==== Sys2Proof/Machine/Operands.lean ====
section
/-!
DEFINITION. Tables, cores, registers and operand forms: how a context reads and writes its registers (spec/07 R92, R94,
spec/14 R201), variable-latency results, vector elements and masks (spec/16 R249), local offsets (spec/14 R203).
-/

namespace Sys2Proof.Machine

/-- What a meaning answers. -/
abbrev Out := Host.Outcome State Fault Refusal

/-! ## Tables -/

def look {α : Type} (d : α) (l : Assoc α) (k : Nat) : α :=
  match l with
  | [] => d
  | (k', a) :: r => if k' = k then a else look d r k

def put {α : Type} (l : Assoc α) (k : Nat) (a : α) : Assoc α :=
  match l with
  | [] => [(k, a)]
  | (k', b) :: r => if k' = k then (k, a) :: r else if k < k' then (k, a) :: (k', b) :: r else (k', b) :: put r k a

def lookup {α : Type} (l : Assoc α) (k : Nat) : Option α :=
  match l with
  | [] => none
  | (k', a) :: r => if k' = k then some a else lookup r k

def drop {α : Type} (l : Assoc α) (k : Nat) : Assoc α := l.filter fun p => p.1 != k

/-! ## Cores -/

def State.core (s : State) (k : CoreIx) : Core := look Core.reset s.cores k.val

def State.setCore (s : State) (k : CoreIx) (c : Core) : State := { s with cores := put s.cores k.val c }

def State.modCore (s : State) (k : CoreIx) (f : Core → Core) : State := s.setCore k (f (s.core k))

/-- The core whose bundle is executed. -/
def State.cc (s : State) : Core := s.core s.cur

def State.mod (s : State) (f : Core → Core) : State := s.modCore s.cur f

/-- Coordinates, die, cluster of a core (spec/01 R9, spec/06 R77). -/
def coreX (k : Nat) : Nat := k % 64
def coreY (k : Nat) : Nat := k / 64 % 64
def dieOf (k : Nat) : Nat := coreX k / 16 + 4 * (coreY k / 32)
def clusterOf (k : Nat) : Nat := 32 * dieOf k + coreX k % 16 / 4 + 4 * (coreY k % 32 / 4)

def toCore (n : Nat) : CoreIx := Fin.ofNat 4096 n
def toDie (n : Nat) : DieIx := Fin.ofNat 8 n

/-- All core indices that hold something, in rising order. -/
def State.listed (s : State) : List CoreIx := s.cores.map fun p => toCore p.1

/-! ## Scalar registers of a context -/

/-- The x registers as a context names them: handler code's x0 to x15 are its own (spec/07 R92). -/
def Core.xView (c : Core) (h : Bool) (i : XReg) : Word :=
  if i = 0 then 0
  else if h then (if hi : i.val < 16 then c.hnd.x[i.val] else c.main.x[i])
  else c.main.x[i]

/-- x[i] as the executing slot reads it: both slots of a bundle read before either writes (spec/07 R94). -/
def State.rx (s : State) (i : XReg) : Word :=
  match s.slotSrc with
  | some src => if i = 0 then 0 else src.x[i]
  | none => s.cc.xView s.curH i

/-- f[i] as the executing slot reads it. -/
def State.rf (s : State) (i : FReg) : Half :=
  match s.slotSrc with
  | some src => src.f[i]
  | none => s.cc.main.f[i]

/-- m[i]; m0 reads all ones (spec/07, Masks and divergence). -/
def Core.mask (c : Core) (i : MReg) : Word := if i = 0 then 0xFFFFFFFFFFFFFFFF else c.main.m[i]

def Core.setMask (c : Core) (i : MReg) (w : Word) : Core :=
  if i = 0 then c else { c with main := { c.main with m := c.main.m.set i w } }

/-- v[i] as a context names it: handler code's v0 to v7 are its own. -/
def Core.vView (c : Core) (h : Bool) (i : VReg) : Vec :=
  if h then (if hi : i.val < 8 then c.hnd.v[i.val] else c.main.v[i]) else c.main.v[i]

def Core.setV (c : Core) (h : Bool) (i : VReg) (w : Vec) : Core :=
  if h then
    (if hi : i.val < 8 then { c with hnd := { c.hnd with v := c.hnd.v.set i.val w } }
     else { c with main := { c.main with v := c.main.v.set i w } })
  else { c with main := { c.main with v := c.main.v.set i w } }

/-- The raw content of an x register of a context; x0 keeps nothing. -/
def Core.setX (c : Core) (h : Bool) (i : XReg) (w : Word) : Core :=
  if i = 0 then c
  else if h then
    (if hi : i.val < 16 then { c with hnd := { c.hnd with x := c.hnd.x.set i.val w } } else c)
  else { c with main := { c.main with x := c.main.x.set i w } }

def Core.setF (c : Core) (i : FReg) (w : Half) : Core := { c with main := { c.main with f := c.main.f.set i w } }

/-! ## Variable-latency results (spec/07 R94, log 6, log 7) -/

def Core.flights (c : Core) (h : Bool) : List Flight := if h then c.hnd.flights else c.main.flights

def Core.setFlights (c : Core) (h : Bool) (l : List Flight) : Core :=
  if h then { c with hnd := { c.hnd with flights := l } } else { c with main := { c.main with flights := l } }

/-- A fixed-latency write supersedes what is still in flight to its register: writes land in issue order. -/
def supersede (dst : FDst) (l : List Flight) : List Flight :=
  l.map fun fl => if fl.dst = dst then { fl with dead := true } else fl

/-- A fixed-latency write of x[i]; a write to x0 is discarded. -/
def State.wx (s : State) (i : XReg) (w : Word) : State :=
  if i = 0 then s
  else s.mod fun c => (c.setX s.curH i w).setFlights s.curH (supersede (.x i) (c.flights s.curH))

/-- A fixed-latency write of f[i]. -/
def State.wf (s : State) (i : FReg) (w : Half) : State :=
  s.mod fun c => (c.setF i w).setFlights s.curH (supersede (.f i) (c.flights s.curH))

/-- Put a result in flight, its values known so far; its number is the one before the new `nextId`. -/
def State.fly (s : State) (dst : FDst) (vals : List Word) (more : Bool) : State :=
  let fl : Flight := { id := s.nextId, dst := dst, vals := vals, more := more, aged := false, dead := false }
  { s.mod (fun c => c.setFlights s.curH (c.flights s.curH ++ [fl])) with nextId := s.nextId + 1 }

/-- A result whose value is known at issue. -/
def State.flyX (s : State) (i : XReg) (w : Word) : State := s.fly (.x i) [w] false

/-- A result whose value comes later. -/
def State.flyOpen (s : State) (i : XReg) : State := s.fly (.x i) [] true

/-- A value arrives for a flight; `more` says whether others follow. -/
def giveFlight (id : Nat) (w : Word) (more : Bool) (l : List Flight) : List Flight :=
  l.map fun fl => if fl.id = id then { fl with vals := fl.vals ++ [w], more := more } else fl

/-- No further value comes: what has arrived still lands, and a flight without a value is over (an access that failed). -/
def closeFlight (id : Nat) (l : List Flight) : List Flight :=
  (l.map fun fl => if fl.id = id then { fl with more := false } else fl).filter fun fl =>
    !(fl.id = id && fl.vals.isEmpty)

def State.give (s : State) (k : CoreIx) (h : Bool) (id : Nat) (w : Word) : State :=
  s.modCore k fun c => c.setFlights h (giveFlight id w false (c.flights h))

def State.giveMore (s : State) (k : CoreIx) (h : Bool) (id : Nat) (w : Word) : State :=
  s.modCore k fun c => c.setFlights h (giveFlight id w true (c.flights h))

def State.close (s : State) (k : CoreIx) (h : Bool) (id : Nat) : State :=
  s.modCore k fun c => c.setFlights h (closeFlight id (c.flights h))

/-- The register write of a landing. -/
def Core.landWrite (c : Core) (h : Bool) (dst : FDst) (w : Word) : Core :=
  match dst with
  | .x i => c.setX h i w
  | .f i => c.setF i (w.setWidth 32)

/-- Land every value of every flight, oldest flight first; flights that still wait for values stay. -/
def landList (h : Bool) : List Flight → Core → Core
  | [], c => c
  | fl :: r, c => landList h r (if fl.dead then c else fl.vals.foldl (fun c w => c.landWrite h fl.dst w) c)

/-- Whether every result of a context has its last value. -/
def Core.settled (c : Core) (h : Bool) : Bool := (c.flights h).all fun fl => !fl.more

/-- Every variable-latency result of the context lands, as at a switch marker. -/
def Core.landAll (c : Core) (h : Bool) : Core := (landList h (c.flights h) c).setFlights h []

/-! ## Vector elements (spec/16 R249) -/

def IntEt.bytes : IntEt → Nat
  | .i8 => 1
  | .i16 => 2
  | .i32 => 4
  | .i64 => 8

def FpEt.bytes : FpEt → Nat
  | .f32 => 4
  | .bf16 => 2
  | .fp16 => 2

def Et.bytes : Et → Nat
  | .int t => IntEt.bytes t
  | .fp t => FpEt.bytes t

def Esz.bytes : Esz → Nat
  | .e1 => 1
  | .e2 => 2
  | .e4 => 4
  | .e8 => 8

/-- Element i of e bytes. -/
def elem (v : Vec) (e i : Nat) : Nat := v.toNat / 2 ^ (8 * e * i) % 2 ^ (8 * e)

/-- n elements of `bits` bits from a function, element 0 lowest. -/
def gather (bits : Nat) (g : Nat → Nat) : Nat → Nat
  | 0 => 0
  | i + 1 => gather bits g i + g i % 2 ^ bits * 2 ^ (bits * i)

/-- A vector whose elements of e bytes are given. -/
def vecOf (e : Nat) (g : Nat → Nat) : Vec := BitVec.ofNat 512 (gather (8 * e) g (64 / e))

/-- VLEN.VL as it acts (spec/14 R212). -/
def Core.vl (c : Core) : Nat := min (c.ctl.vlen.toNat % 128) 64

/-- Whether element i of e bytes is active under m[ms]. -/
def Core.active (c : Core) (ms : MReg) (e i : Nat) : Bool := (c.mask ms).getLsbD (i * e) && i * e < c.vl

/-- New elements where active, the old ones elsewhere. -/
def mapElems (c : Core) (ms : MReg) (e : Nat) (old : Vec) (g : Nat → Nat) : Vec :=
  vecOf e fun i => if c.active ms e i then g i else elem old e i

/-- The flags of the active elements together. -/
def flagsOf (c : Core) (ms : MReg) (e : Nat) (g : Nat → FpFlags) : Nat → FpFlags
  | 0 => .none
  | i + 1 => flagsOf c ms e g i ||| (if c.active ms e i then g i else .none)

/-- Signed reading of an n-bit value. -/
def sgn (n v : Nat) : Int := if v < 2 ^ (n - 1) then (v : Int) else (v : Int) - 2 ^ n

/-- An integer modulo 2^n. -/
def wrap (n : Nat) (i : Int) : Nat := (i % 2 ^ n).toNat

/-! ## Local offsets (spec/14 R203, spec/08 R114) -/

def winOff : Buf → Nat
  | .w => 0x00000
  | .a => 0x80000
  | .c => 0xC0000
  | .l => 0xE0000

/-- The device-physical address of offset o of a buffer of core k. -/
def winAddr (k : Nat) (b : Buf) (o : Nat) : Nat := k * 2 ^ 20 + winOff b + o

/-- The window global address of spec/15 R217. -/
def winGa (k : Nat) (b : Buf) (o : Nat) : Word := BitVec.ofNat 64 (2 ^ 62 + winAddr k b o)

/-- o of R228: (x[A] + n · sext(IMM9, 9)) mod size(BUF). -/
def localOff (base : Word) (n : Nat) (imm : BitVec 9) (b : Buf) : Nat :=
  (base + BitVec.ofNat 64 n * imm.signExtend 64).toNat % b.size

/-- Which buffer and offset a core-window offset names (spec/08 R114). -/
def bufOfWin (o : Nat) : Buf × Nat :=
  if o < 0x80000 then (.w, o) else if o < 0xC0000 then (.a, o - 0x80000) else if o < 0xE0000 then (.c, o - 0xC0000)
  else (.l, o - 0xE0000)

def bufIx : Buf → Nat
  | .w => 0
  | .a => 1
  | .c => 2
  | .l => 3

/-! ## Bit fields of registers -/

/-- Bits lo + n - 1 down to lo of a doubleword as a number. -/
def bits (w : Word) (lo n : Nat) : Nat := w.toNat / 2 ^ lo % 2 ^ n

/-- The doubleword with those bits replaced. -/
def setBits (w : Word) (lo n : Nat) (v : Nat) : Word :=
  let m := (BitVec.ofNat 64 (2 ^ n - 1)) <<< lo
  (w &&& ~~~m) ||| ((BitVec.ofNat 64 (v % 2 ^ n)) <<< lo)

def bit (w : Word) (i : Nat) : Bool := w.getLsbD i

end Sys2Proof.Machine
end

