-- ==== Sys2Proof/Machine/Memory.lean ====
section
/-!
DEFINITION. Memory: the core windows and the stacks in one list of bytes by device-physical address (spec/08 R114, R116),
the full-empty bits (spec/08 R124) and the stale marks of cached records (spec/08 R126). A byte that is not listed reads
as 0 (log 12).
-/

namespace Sys2Proof.Machine

/-! ## Bytes -/

/-- The byte at an address: 0 where nothing is listed (log 12). -/
def memGet (l : List Host.Cell) (a : Nat) : Byte :=
  match l with
  | [] => 0
  | (k, b) :: r => if k = a then b else if a < k then 0 else memGet r a

/-- Write a byte; a zero byte is not listed. -/
def memPut (l : List Host.Cell) (a : Nat) (v : Byte) : List Host.Cell :=
  match l with
  | [] => if v = 0 then [] else [(a, v)]
  | (k, b) :: r =>
    if k = a then (if v = 0 then r else (a, v) :: r)
    else if a < k then (if v = 0 then (k, b) :: r else (a, v) :: (k, b) :: r)
    else (k, b) :: memPut r a v

/-- n bytes from an address, little-endian (spec/00 R2). -/
def readLE (l : List Host.Cell) (a : Nat) : Nat → Nat
  | 0 => 0
  | n + 1 => (memGet l a).toNat + 256 * readLE l (a + 1) n

/-- Write the low n bytes of a number. -/
def writeLE (l : List Host.Cell) (a : Nat) : Nat → Nat → List Host.Cell
  | 0, _ => l
  | n + 1, v => writeLE (memPut l a (BitVec.ofNat 8 v)) (a + 1) n (v / 256)

/-- Addresses strictly rising from `lo`, no zero byte. -/
def memWf (lo : Nat) : List Host.Cell → Bool
  | [] => true
  | (k, b) :: r => lo ≤ k && b != 0 && memWf (k + 1) r

/-- The canonical form of memory. -/
def Memory.wf (l : List Host.Cell) : Bool := memWf 0 l

/-- A number of n bytes from a list of bytes, the first lowest. -/
def ofBytes : List Byte → Nat
  | [] => 0
  | b :: r => b.toNat + 256 * ofBytes r

/-- The n low bytes of a number, lowest first. -/
def toBytes : Nat → Nat → List Byte
  | 0, _ => []
  | n + 1, v => BitVec.ofNat 8 v :: toBytes n (v / 256)

/-- Eight steps of the CRC-32 register, reflected. -/
def crc32Bits : Nat → Nat → Nat
  | 0, c => c
  | n + 1, c => crc32Bits n (if c % 2 = 1 then c / 2 ^^^ 0xEDB88320 else c / 2)

/-- The CRC-32 of IEEE 802.3 over a string of bytes (spec/02 R31). -/
def crc32 (bs : List Byte) : Nat := bs.foldl (fun c b => crc32Bits 8 (c ^^^ b.toNat)) 0xFFFFFFFF ^^^ 0xFFFFFFFF

/-! ## The memory of the device -/

/-- The n bytes at a device-physical address as a number. -/
def State.load (s : State) (a n : Nat) : Nat := readLE s.mem a n

/-- The n bytes at an address as a list. -/
def State.bytes (s : State) (a n : Nat) : List Byte := toBytes n (s.load a n)

/-- A cached record that a write of [a, a + n) touches is stale (spec/08 R126). -/
def CachedRec.staleAt (r : CachedRec) (a n : Nat) : CachedRec :=
  if r.phys.any (fun w => w < a + n && a < w + 8) then { r with stale := true } else r

def Core.staleAt (c : Core) (a n : Nat) : Core :=
  { c with evt := { c.evt with records := c.evt.records.map (·.staleAt a n) } }

/-- A write of [a, a + n) reaches the record cache of the core whose window it lies in. -/
def State.touch (s : State) (a n : Nat) : State :=
  if a < 2 ^ 32 then
    let k := toCore (a / 2 ^ 20)
    match lookup s.cores k.val with
    | none => s
    | some c => if c.evt.records.isEmpty then s else s.setCore k (c.staleAt a n)
  else s

/-- Write n bytes at a device-physical address. -/
def State.store (s : State) (a n v : Nat) : State := { s with mem := writeLE s.mem a n v }.touch a n

/-! ## ECC (spec/01 R14, spec/06 R89) -/

def inStacks (a : Nat) : Bool := 0x1000000000 ≤ a && a < 0x7000000000

/-- The first byte of the unit that one ECC covers: a burst of 64 bytes in the stacks, a word in the buffers. -/
def eccUnit (a : Nat) : Nat := if inStacks a then a / 64 * 64 else a / 8 * 8

def eccLen (u : Nat) : Nat := if inStacks u then 64 else 8

/-- Whether a unit meets [a, a + n). -/
def eccMeets (a n u : Nat) : Bool := u < a + n && a < u + eccLen u

/-- Whether [a, a + n) holds an uncorrectable error. -/
def State.badAt (s : State) (a n : Nat) : Bool := s.bad.any (eccMeets a n)

/-- Die and memory of a unit, as the corrected errors are counted: 4·die + 0 in the stack, + 1 in the buffers. -/
def eccCounter (u : Nat) : Nat :=
  if inStacks u then 4 * ((u - 0x1000000000) / 0xC00000000) else 4 * dieOf (u / 2 ^ 20) + 1

def bump (l : Assoc Nat) (key : Nat) : Assoc Nat := put l key (look 0 l key + 1)

/-- An access of [a, a + n) corrects the correctable errors it meets, in place, and counts them. -/
def State.correct (s : State) (a n : Nat) : State :=
  { s with weak := s.weak.filter fun u => !eccMeets a n u,
           dev := { s.dev with corrected := (s.weak.filter (eccMeets a n)).foldl (fun l u => bump l (eccCounter u)) s.dev.corrected } }

/-! ## Full-empty bits -/

/-- The full-empty bit of the word that holds a byte. -/
def State.full (s : State) (a : Nat) : Bool := !s.empties.contains (a / 8)

def insertWord (w : Nat) : List Nat → List Nat
  | [] => [w]
  | k :: r => if k = w then k :: r else if w < k then w :: k :: r else k :: insertWord w r

def State.setEmpty (s : State) (a : Nat) : State := { s with empties := insertWord (a / 8) s.empties }

def State.setFull (s : State) (a : Nat) : State := { s with empties := s.empties.filter (· != a / 8) }

/-- The words that [a, a + n) holds, wholly or partly. -/
def wordsOf (a n : Nat) : List Nat := if n = 0 then [] else (List.range ((a + n - 1) / 8 - a / 8 + 1)).map (· + a / 8)

/-- Which of them are empty. -/
def State.emptyIn (s : State) (a n : Nat) : List Nat :=
  s.empties.filter fun w => n ≠ 0 ∧ a / 8 ≤ w ∧ w ≤ (a + n - 1) / 8

def State.setFullIn (s : State) (a n : Nat) : State :=
  { s with empties := s.empties.filter fun w => !(n ≠ 0 ∧ a / 8 ≤ w ∧ w ≤ (a + n - 1) / 8) }

/-! ## Counters that saturate -/

/-- Charge an accounting counter of a context (spec/06 R87): 64 bits, saturating. -/
def State.charge (s : State) (ctx : BitVec 12) (n amount : Nat) : State :=
  let old := look (Vector.replicate 16 0) s.dev.acct ctx.toNat
  let new := BitVec.ofNat 64 (min ((old.getD n 0).toNat + amount) (2 ^ 64 - 1))
  { s with dev := { s.dev with acct := put s.dev.acct ctx.toNat (old.setIfInBounds n new) } }

/-- Charge a counter of a context with an amount that the spec does not fix (spec/06 R87; log 23). -/
def State.chargeFree (s : State) (ctx : BitVec 12) (n : Nat) : State :=
  { s.charge ctx n (Config.cost s.free) with free := s.free + 1 }

/-- Microseconds since reset. -/
def State.us (s : State) : Nat := s.now / Config.ticksPerUs

end Sys2Proof.Machine
end

