-- ==== Sys2Proof/Machine/Access.lean ====
section
/-!
DEFINITION. Global addresses and homes: translation (spec/08 R117, R120 to R122), the homes (spec/10 R145), the checks that
decide whether a home performs an access (spec/02 R28, R34, R37, spec/08 R115, R116, R118, R119), the violation log
(spec/06 R90), performing an access with its full-empty mode and examining the waiting ones (spec/02 R32, spec/10 R145),
and the same for the engines.
-/

namespace Sys2Proof.Machine

def devOf (sys : BitVec 50) : Nat := sys.toNat / 2 ^ 40
def physOf (sys : BitVec 50) : Nat := sys.toNat % 2 ^ 40
def sysOf (dev a : Nat) : BitVec 50 := BitVec.ofNat 50 (dev * 2 ^ 40 + a % 2 ^ 40)
def State.own (s : State) : Nat := s.fab.devid.val

/-! ## Homes (spec/10 R145, spec/08 R116, spec/01 R13) -/

/-- The home of a device-physical address; `hole` is a range that R116 marks unmapped. -/
inductive Home | core (k : Nat) | stack (die port : Nat) | broker (die : Nat) | unit | hole
  deriving DecidableEq, Repr

def resBase : Nat := 0xF006000000

def homeOf (a : Nat) : Home :=
  if a < 2 ^ 32 then .core (a / 2 ^ 20)
  else if inStacks a then .stack ((a - 0x1000000000) / 0xC00000000) ((a - 0x1000000000) % 0xC00000000 / 1024 % 16)
  else if resBase ≤ a && a < resBase + 0x8000 then .broker ((a - resBase) / 32 % 8)
  else if 0xF000000000 ≤ a || (0x8000000000 ≤ a && a < 0x8100000000) then .unit
  else .hole

/-- The die a home lies on, if any. -/
def Home.die : Home → Option Nat
  | .core k => some (dieOf k)
  | .stack d _ => some d
  | .broker d => some d
  | .unit => none
  | .hole => none

/-! ## Logs (spec/06 R83, R90, spec/07 R113) -/

/-- The persistent error log holds 262,144 entries; when it wraps, the oldest is overwritten. -/
def logPut (l : List LogEntry) (e : LogEntry) : List LogEntry := if l.length < 262144 then l ++ [e] else (l ++ [e]).tail

/-- Ticks of a timeout register, whose 0 is treated as 1. -/
def toTicks (v : BitVec 32) : Nat := max 1 v.toNat * Config.ticksPerUs

/-- A management event joins the persistent error log. -/
def State.logEvent (s : State) (code : BitVec 8) (subject : Nat) : State :=
  { s with mgmt := { s.mgmt with plog := logPut s.mgmt.plog (.event code (BitVec.ofNat 24 subject) (BitVec.ofNat 48 s.us)) } }

def Vlog.reset : Vlog := { entries := [], count := 0, copied := 0, overflow := 0 }

def State.vlog (s : State) (die : Nat) : Vlog := look Vlog.reset s.dev.vlogs die

def State.setVlog (s : State) (die : Nat) (v : Vlog) : State :=
  { s with dev := { s.dev with vlogs := put s.dev.vlogs die v } }

/-- Write a violation-log entry of a die; an entry overwritten before it is copied is counted and its event logged, and a
failure of an engine operation of this device's core joins that core's error queue. -/
def State.logViolation (s : State) (die : Nat) (status : BitVec 4) (dev : Nat) (sys : BitVec 50) (core : Nat)
    (src : BitVec 4) : State :=
  let v := s.vlog die
  let e : VlogEntry := { status := status, dev := BitVec.ofNat 10 dev, addr := sys, core := BitVec.ofNat 12 core,
                         src := src, time := BitVec.ofNat 48 s.us }
  let lost := v.count ≥ v.copied + 64
  let s := if lost then s.logEvent 0x0A die else s
  let v' : Vlog := { entries := put v.entries (v.count % 64) e, count := v.count + 1,
                     copied := if lost then v.copied + 1 else v.copied,
                     overflow := if lost then v.overflow + 1 else v.overflow }
  if dev = s.own && (src == 1 || src == 2 || src == 3) then
    let k := toCore core
    let c := s.core k
    if c.evt.errQ.length < 16 then
      (s.setVlog die v').setCore k { c with evt := { c.evt with errQ := c.evt.errQ ++ [(toDie die, v.count % 64)] } }
    else s.setVlog die { v' with overflow := v'.overflow + 1 }
  else s.setVlog die v'

/-- The die whose log an entry goes to: the home's die; the requester's where the home lies on no die of this device and for the
statuses that the source logs (spec/02 R37). -/
def State.logDie (s : State) (status : BitVec 4) (sys : BitVec 50) (reqDie : Nat) : Nat :=
  if status == 1 || status == 9 || devOf sys ≠ s.own then reqDie else (homeOf (physOf sys)).die.getD reqDie

/-! ## Translation (spec/08 R117, R121, R122) -/

/-- What an access needs of a page; a token move needs only that it is mapped. -/
inductive Need | any | read | write | both
  deriving DecidableEq, Repr

/-- Why an address does not translate: a translation fault, or an uncorrectable error on the read of the table entry at an
address. -/
inductive XErr | fault | table (entry : Nat)
  deriving DecidableEq, Repr

/-- A translated address: the system address, the leaf's NC bit, whether the kind was register. -/
structure Xl where
  sys : BitVec 50
  nc  : Bool
  reg : Bool
  deriving DecidableEq, Repr

/-- V set and every reserved bit zero. -/
def entryOk (e : Word) : Bool := bit e 0 && bits e 50 14 == 0 && bits e 6 2 == 0

/-- ADDR of an entry. -/
def entryAddr (e : Word) : Nat := bits e 8 42 * 256

/-- The next table, if the pointer is one. -/
def tablePtr (e : Word) (align : Nat) : Option Nat :=
  let a := entryAddr e
  if inStacks a && a % align == 0 then some a else none

/-- The leaf of an entry that maps 2^bits bytes. -/
def leafOf (ctx : BitVec 12) (va : Nat) (e : Word) (nbits : Nat) : Option Leaf :=
  let a := entryAddr e
  if a % 2 ^ nbits = 0 then
    some { ctx := ctx, page := va / 2 ^ nbits, bits := nbits, addr := a, nc := bit e 5, e := bit e 4, w := bit e 3, r := bit e 2 }
  else none

/-- An entry at an address; an uncorrectable burst ends the walk with status 0x4, a correctable error is corrected and counted. -/
def State.entryAt (s : State) (a : Nat) : State × Except XErr Word :=
  if s.badAt a 8 then (s, .error (.table a)) else (s.correct a 8, .ok (BitVec.ofNat 64 (s.load a 8)))

/-- What an entry of a level says: the leaf of 2^nbits bytes, the table of the next level, or a fault. -/
inductive Entry | leaf (l : Leaf) | table (t : Nat) | bad
  deriving DecidableEq, Repr

/-- An entry of a level whose leaves map 2^nbits bytes and whose tables are aligned to `align`; the last level has none, `align` is 0. -/
def entryOf (ctx : BitVec 12) (va : Nat) (e : Word) (nbits align : Nat) : Entry :=
  if !entryOk e then .bad
  else if bit e 1 then (match leafOf ctx va e nbits with | some l => .leaf l | none => .bad)
  else if align = 0 then .bad
  else match tablePtr e align with | some t => .table t | none => .bad

/-- The walk from a table on, through the levels that are left. -/
def State.walkFrom (ctx : BitVec 12) (va : Nat) : List (Nat × Nat × Nat) → State → Nat → State × Except XErr Leaf
  | [], s, _ => (s, .error .fault)
  | (nbits, entries, align) :: r, s, t =>
    match s.entryAt (t + 8 * (va / 2 ^ nbits % entries)) with
    | (s, .error x) => (s, .error x)
    | (s, .ok e) =>
      match entryOf ctx va e nbits align with
      | .leaf l => (s, .ok l)
      | .table t => State.walkFrom ctx va r s t
      | .bad => (s, .error .fault)

/-- The walk of three levels, of 2^18, 512 and 32 entries. -/
def State.walk (s : State) (ctx : BitVec 12) (va : Nat) : State × Except XErr Leaf :=
  let root := look 0 s.dev.xlatRoot ctx.toNat
  if !bit root 63 then (s, .error .fault)
  else State.walkFrom ctx va [(30, 2 ^ 18, 4096), (21, 512, 256), (16, 32, 0)] s (bits root 21 19 * 2 ^ 21)

def Leaf.covers (l : Leaf) (ctx : BitVec 12) (va : Nat) : Bool := l.ctx == ctx && va / 2 ^ l.bits == l.page

/-- The leaf for an address, through the cluster's cache of 256 leaves, the most recently used first; a unit of the
Caravanserai names no cluster and walks the tables (log 26). -/
def State.leaf (s : State) (cl : Option Nat) (ctx : BitVec 12) (va : Nat) : State × Except XErr Leaf :=
  match cl with
  | none => s.walk ctx va
  | some k =>
    let l := look [] s.tlb k
    match l.find? (·.covers ctx va) with
    | some e => ({ s with tlb := put s.tlb k (e :: l.erase e) }, .ok e)
    | none =>
      match s.walk ctx va with
      | (s, .error x) => (s, .error x)
      | (s, .ok e) => ({ s with tlb := put s.tlb k ((e :: l).take 256) }, .ok e)

def Leaf.permits (l : Leaf) (eng : Bool) (n : Need) : Bool :=
  (!eng || l.e) &&
  match n with
  | .any => true
  | .read => l.r
  | .write => l.w
  | .both => l.r && l.w

/-- Translate a global address. -/
def State.xlate (s : State) (cl : Option Nat) (ctx : BitVec 12) (eng : Bool) (n : Need) (ga : Word) :
    State × Except XErr Xl :=
  match bits ga 62 2 with
  | 0 =>
    if bits ga 48 14 ≠ 0 then (s, .error .fault)
    else
      match s.leaf cl ctx (bits ga 0 48) with
      | (s, .error x) => (s, .error x)
      | (s, .ok l) =>
        if l.permits eng n then
          (s, .ok { sys := BitVec.ofNat 50 (l.addr + bits ga 0 48 % 2 ^ l.bits), nc := l.nc, reg := false })
        else (s, .error .fault)
  | 1 =>
    if bits ga 32 30 ≠ 0 then (s, .error .fault)
    else (s, .ok { sys := sysOf s.own (bits ga 0 32), nc := true, reg := false })
  | 2 =>
    if bits ga 40 22 ≠ 0 then (s, .error .fault)
    else (s, .ok { sys := sysOf s.own (bits ga 0 40), nc := true, reg := true })
  | _ => (s, .error .fault)

/-! ## The fabric at the source (spec/02 R28 to R30, R36) -/

def PeerEntry.reset : PeerEntry := { planes := 0, keyslot := 0, enc := false, xt := false, foreign := false, valid := false }

def State.peer (s : State) (dev : Nat) : PeerEntry := look PeerEntry.reset s.fab.peers dev

/-- Whether packets between this device and a peer carry no extension header: those of a peer whose XT bit is 1 carry one (R30). -/
def State.bare (s : State) (dev : Nat) : Bool := !(s.peer dev).xt

/-- Whether a request of a peer carries no extension header. Its sender decides that by its own peer table (R30): a FOREIGN peer's carries
none, and one of a peer that discovery has not told apart carries one where there is one (log 59). -/
def State.bareFrom (s : State) (dev : Nat) (hdr : Word) : Bool := s.bare dev && ((s.peer dev).foreign || hdr = 0)

def KeySlot.reset : KeySlot :=
  { kphase := false, installed := Vector.replicate 2 false, counter := Vector.replicate 2 0 }

/-- The first plane at or above p, modulo 16, whose bit is set. -/
def nextPlane (planes : BitVec 16) (p : Nat) : Nat → Option (Fin 16)
  | 0 => none
  | n + 1 => if planes.getLsbD (p % 16) then some (Fin.ofNat 16 p) else nextPlane planes (p + 1) n

/-- h(D) of R30. -/
def planeHash (d : Nat) : Nat := (d ^^^ (d >>> 4) ^^^ (d >>> 8)) % 16

/-- The reachable plane whose station has the fewest requests outstanding, the lowest station first. -/
def State.leastPlane (s : State) (planes : BitVec 16) : Option (Fin 16) :=
  (List.finRange 16).foldl (fun best p =>
    if planes.getLsbD p.val then
      match best with
      | none => some p
      | some b => if s.fab.stations[p].outstanding < s.fab.stations[b].outstanding then some p else best
    else best) none

/-- Whether the key of a peer is used up (spec/02 R36). -/
def State.keySpent (s : State) (p : PeerEntry) : Bool :=
  p.enc && (let k := look KeySlot.reset s.fab.keys p.keyslot.toNat
            (k.counter[if k.kphase then 1 else 0]'(by split <;> omega)) ≥ 2 ^ 63)

/-- The peers that may carry the first leg of a .spr request to a device (R30). -/
def State.intermediates (s : State) (dev : Nat) : List Nat :=
  (s.fab.peers.filter fun e => e.2.valid && e.2.xt && e.1 ≠ s.own && e.1 ≠ dev).map (·.1)

/-- The intermediate of a .spr request, if there is one. -/
def State.sprVia (s : State) (dev : Nat) : Option Nat :=
  let l := s.intermediates dev
  l[Config.sprPick s.free % l.length]?

/-- The device to which the packets of a request go first. -/
def State.firstHop (s : State) (dev : Nat) (cls : RClass) : Nat :=
  if cls = .spr && !(s.peer dev).foreign then (s.sprVia dev).getD dev else dev

/-- The plane of a request to another device, or the status with which the source refuses it. -/
def State.route (s : State) (dev : Nat) (cls : RClass) (plainFe : Bool) : Except (BitVec 4) (Fin 16) :=
  let p := s.peer dev
  if !s.fab.domainEn || !p.valid || p.planes == 0 then .error 1
  else if p.foreign && !plainFe then .error 2
  else if s.keySpent p then .error 3
  else
    let r := if cls = .ord && !p.foreign then nextPlane p.planes (planeHash dev) 16
             else s.leastPlane (s.peer (s.firstHop dev cls)).planes
    match r with
    | none => .error 1
    | some q => .ok q

/-- The keys after a packet to a peer: the counter of an encrypted peer's key advances. -/
def State.keysAfter (s : State) (dev : Nat) : Assoc KeySlot :=
  let p := s.peer dev
  if p.enc then
    let k := look KeySlot.reset s.fab.keys p.keyslot.toNat
    let i : Fin 2 := if k.kphase then 1 else 0
    put s.fab.keys p.keyslot.toNat { k with counter := k.counter.set i (k.counter[i] + 1) }
  else s.fab.keys

def State.addOutstanding (s : State) (p : Fin 16) : State :=
  let st := s.fab.stations[p]
  { s with fab := { s.fab with stations := s.fab.stations.set p { st with outstanding := st.outstanding + 1 } } }

def State.subOutstanding (s : State) (p : Fin 16) : State :=
  let st := s.fab.stations[p]
  { s with fab := { s.fab with stations := s.fab.stations.set p { st with outstanding := st.outstanding - 1 } } }

/-- The device under whose key a packet goes out; a forwarded one is not decrypted (R36). -/
def FabOut.keyed : FabOut → Option Nat
  | .request sys _ _ _ => some (devOf sys)
  | .tokAsk sys _ => some (devOf sys)
  | .reply d _ _ _ => some d.val
  | .read sys _ _ => some (devOf sys)
  | .write sys _ _ _ => some (devOf sys)
  | .recall d _ => some d.val
  | .recallReply d _ => some d.val
  | .token d _ _ => some d.val
  | .forward _ _ => none
  | .message d _ => some d.val
  | .chunk d _ => some d.val

/-- The fabric after a packet leaves; nothing leaves under a key that is used up (R36). -/
def State.outFab (s : State) (o : FabOut) : Fabric :=
  match o.keyed with
  | none => { s.fab with out := s.fab.out ++ [o] }
  | some d => if s.keySpent (s.peer d) then s.fab else { s.fab with keys := s.keysAfter d, out := s.fab.out ++ [o] }

def State.fabOut (s : State) (o : FabOut) : State := { s with fab := s.outFab o }

/-! ## The extension header (spec/02 R30, R31) -/

def clsCode : RClass → Nat
  | .ord => 0
  | .adp => 1
  | .spr => 2

def feCode : FeMode → Nat
  | .plain => 0
  | .wf => 1
  | .tk => 2
  | .we => 3
  | .fl => 4

def feOfCode : Nat → Option FeMode
  | 0 => some .plain
  | 1 => some .wf
  | 2 => some .tk
  | 3 => some .we
  | 4 => some .fl
  | _ => none

/-- XCRC over the system address, bits 31:0 of the header and the payload. -/
def xcrc (sys : BitVec 50) (low : Nat) (payload : List Byte) : Nat :=
  crc32 (toBytes 8 sys.toNat ++ toBytes 4 low ++ payload)

/-- A header with its XCRC. -/
def withCrc (sys : BitVec 50) (low : Nat) (payload : List Byte) : Word :=
  BitVec.ofNat 64 (low + xcrc sys low payload * 2 ^ 32)

/-- Whether XCRC of a header matches. -/
def crcMatches (sys : BitVec 50) (hdr : Word) (payload : List Byte) : Bool :=
  bits hdr 32 32 == xcrc sys (bits hdr 0 32) payload

/-- The payload of a request: the data of a write, the operands of an atomic. The spec gives no layout of an atomic's payload: the model
takes the operand in 8 bytes, also for AFADD, and then the comparand of ACAS in 8 bytes (DESIGN CHOICE, log 118). -/
def payloadOf : AccKind → List Byte
  | .load _ => []
  | .store w d => toBytes w d.toNat
  | .atomic op o c => toBytes 8 o.toNat ++ (if op = .cas then toBytes 8 c.toNat else [])
  | .row v => toBytes 64 v.toNat

/-- Bytes of data in the response. -/
def answerLen : AccKind → Nat
  | .load w => w
  | .atomic op _ _ => if op = .fadd then 4 else 8
  | _ => 0

/-- The key in use with a peer. -/
def State.kphase (s : State) (dev : Nat) : Bool :=
  let p := s.peer dev
  p.enc && (look KeySlot.reset s.fab.keys p.keyslot.toNat).kphase

/-- Bits 31:0 of the header of a request of this device. -/
def State.reqLow (s : State) (dev core : Nat) (tokchk : Bool) (fe : FeMode) (cls : RClass) : Nat :=
  2 ^ 28 + core % 4096 * 2 ^ 16 + (if s.kphase dev then 2 ^ 11 else 0) + (if tokchk then 2 ^ 9 else 0) + feCode fe * 2 ^ 6 + clsCode cls

/-- Bits 31:0 of the header of a response to a core of a peer. The spec gives no CLASS, FEMODE, TOKCHK and LEG of a response: the model
sends 0 (DESIGN CHOICE, log 118). -/
def State.replyLow (s : State) (dev core : Nat) (st : BitVec 4) (late : Bool) : Nat :=
  2 ^ 28 + core % 4096 * 2 ^ 16 + st.toNat * 2 ^ 12 + (if s.kphase dev then 2 ^ 11 else 0) + (if late then 4 else 0)

/-- The header of a packet to a device, where it carries one. -/
def State.header (s : State) (dev : Nat) (sys : BitVec 50) (low : Nat) (payload : List Byte) : Word :=
  if s.bare dev then 0 else withCrc sys low payload

/-- A response goes to a peer: its header, unless `bare`, as its request carried none, and the n bytes of its data. -/
def State.reply (s : State) (dev : Fin 1024) (bare : Bool) (core : Nat) (sys : BitVec 50) (st : BitVec 4) (late : Bool) (n : Nat) (v : Word) : State :=
  let w : Word := if st = 0 then v else 0
  let hdr := if bare then 0 else withCrc sys (s.replyLow dev.val core st late) (toBytes (if st = 0 then n else 0) w.toNat)
  s.fabOut (.reply dev st hdr w)

/-! ## Cached lines (spec/10 R147) -/

def State.line? (s : State) (sys : BitVec 50) : Option Line := lookup s.fab.cache (sys.toNat / 64)

/-- Who asks for a request, as far as the order of its requests goes: a core, or the cache. -/
def ReqSrc.origin : ReqSrc → Option CoreIx
  | .core k _ _ => some k
  | .row k _ _ => some k
  | .peer _ k _ => some k
  | .cache => none
  | .left k _ => some k

/-- Whether a request is one of a core of this device. -/
def ReqSrc.ownedBy : ReqSrc → CoreIx → Bool
  | .core j _ _, k => j = k
  | .row j _ _, k => j = k
  | .peer _ _ _, _ => false
  | .cache, _ => false
  | .left _ _, _ => false

/-- Bytes of an access. -/
def accWidth : AccKind → Nat
  | .load w => w
  | .store w _ => w
  | .atomic op _ _ => if op = .fadd then 4 else 8
  | .row _ => 64

/-- Whether two requests name a common doubleword. -/
def Req.meets (q r : Req) : Bool :=
  let n (x : Req) : Nat := match x.op with | .acc kind => accWidth kind | _ => 8
  q.sys.toNat / 8 * 8 < r.sys.toNat + n r && r.sys.toNat / 8 * 8 < q.sys.toNat + n q

/-- Whether a request is an access of a region of a device. -/
def Req.touches (r : Req) (dev region : Nat) : Bool :=
  (match r.op with | .acc _ => true | _ => false) && devOf r.sys == dev && physOf r.sys / 2 ^ 21 == region

/-- The home of a request on its device: a token move goes to the directory, a unit of the Caravanserai (spec/10 R145). -/
def Req.home (r : Req) : Home := match r.op with | .tok _ => .unit | _ => homeOf (physOf r.sys)

/-- Whether every .ord request to a device that went by another plane has its response (spec/02 R30). -/
def State.drained (s : State) (dev : Nat) (p : Fin 16) : Bool :=
  (s.peer dev).foreign ||
    !s.net.any fun q => q.phase = .sent && devOf q.sys == dev && q.cls = .ord && q.plane.isSome && q.plane ≠ some p

/-- Whether a request to another device may leave on a plane. One of class .ord leaves once those that went by another plane are answered
(spec/02 R30), and after the earlier ones of its source to its home (spec/10 R148). A write-back of a word goes before other requests to
it. A release of a token waits for this device's accesses to the region: all that are in flight, and those issued before it (R35). -/
def State.mayLeave (s : State) (r : Req) (p : Fin 16) : Bool :=
  let dev := devOf r.sys
  (r.cls ≠ .ord || s.drained dev p) &&
  !s.net.any fun q =>
    q.id ≠ r.id && q.phase = .sent && devOf q.sys == dev &&
      ((r.cls = .ord && q.cls = .ord && !(s.peer dev).foreign && q.plane.isNone && q.id < r.id && q.src.origin = r.src.origin
          && q.home = r.home) ||
        (q.src = .cache && r.src ≠ .cache && q.meets r) ||
        (r.op = .tok true && q.touches dev (physOf r.sys / 2 ^ 21) && (q.plane.isSome || q.id < r.id)))

/-- A dirty word of a line goes home as a write of the cache, under the token (spec/02 R35): it is refused at the source, leaves, or waits to
leave. The spec names no SRC_CORE and no CLASS of it: the model sends core 0 and .ord (DESIGN CHOICE, log 53). -/
def State.writeBack (s : State) (sys : BitVec 50) (w : Word) : State :=
  let dev := devOf sys
  let r : Req := { id := s.nextId, src := .cache, op := .acc (.store 8 w), cls := .ord, fe := .plain, ga := 0, sys := sys, reg := false,
                   loc := false, tokchk := true, ext := .zero 8, flight := none, phase := .sent, due := s.now + toTicks s.fab.rspTimeout,
                   ctx := 0, nocache := true, plane := none }
  let s := { s with nextId := s.nextId + 1 }
  match s.route dev .ord true with
  | .error st => s.logViolation 0 st s.own sys 0 0
  | .ok p =>
    if s.mayLeave r p then
      let hdr := s.header dev sys (s.reqLow dev 0 true .plain .ord) (toBytes 8 w.toNat)
      (({ s with net := s.net ++ [{ r with plane := some p }] }).fabOut (.request sys (.store 8 w) hdr none)).addOutstanding p
    else { s with net := s.net ++ [r] }

/-- The dirty words of a line go home, and the line is dropped. -/
def State.dropLine (s : State) (key : Nat) : State :=
  match lookup s.fab.cache key with
  | none => s
  | some l =>
    let s := { s with fab := { s.fab with cache := drop s.fab.cache key } }
    (List.range 8).foldl (fun s i =>
      if l.dirty.getLsbD i then s.writeBack (BitVec.ofNat 50 (key * 64 + 8 * i)) (BitVec.ofNat 64 (l.data.toNat / 2 ^ (64 * i)))
      else s) s

/-- XSTAT of a response. -/
def xstatOf (p : PeerReply) : BitVec 4 := BitVec.ofNat 4 (bits p.hdr 12 4)

/-- The LATE mark of a response. -/
def lateOf (p : PeerReply) : Bool := bit p.hdr 2

/-- The response with a status and data to an access of a system address that reads n bytes. -/
def mkReply (sys : BitVec 50) (st : BitVec 4) (late : Bool) (n : Nat) (v : Word) : PeerReply :=
  { hdr := withCrc sys (2 ^ 28 + st.toNat * 2 ^ 12 + (if late then 4 else 0)) (toBytes (if st = 0 then n else 0) v.toNat), data := v }

/-- The answer to a request at a home of this device: it carries no extension header. -/
def ownReply : PeerReply := { hdr := 0, data := 0 }

/-! ## Checks at home -/

/-- What decides a check: perform, wait in the retry list, or refuse with a status. -/
inductive Verdict | perform | wait | refuse (st : BitVec 4)
  deriving DecidableEq, Repr

/-- The accessors of the matrix of R115 that use global addresses. -/
inductive AccRow | load | store | atomic | row | copy | recv | convoy | sort | host
  deriving DecidableEq, Repr

/-- The matrix of R115: whether an accessor may touch a buffer, writing or reading. What the Posted Receive Engine, the Brokers and
the Convoy Sequencer read for a core the matrix does not name: it is admitted like a Copy Engine's read (log 47). -/
def bufAllows (r : AccRow) (write : Bool) (b : Buf) : Bool :=
  match r with
  | .load => true
  | .store => b != .w
  | .atomic => b == .c || b == .l
  | .row => b != .w
  | .copy => true
  | .recv => !write || b != .w
  | .convoy => true
  | .sort => !write || b == .a || b == .l
  | .host => true

/-- Whether memory of this device admits an access of a context (R115, R116, R118, R76): the status if not. Device registers
are decided elsewhere. -/
def State.permit (s : State) (ctx : BitVec 12) (r : AccRow) (write : Bool) (a : Nat) : Option (BitVec 4) :=
  match homeOf a with
  | .core k =>
    let sl := (s.core (toCore k)).slot
    if sl.st = .idle || sl.ctx ≠ ctx then some 3
    else if write && sl.st = .frozen then some 3
    else if bufAllows r write (bufOfWin (a % 2 ^ 20)).1 then none else some 3
  | .stack _ _ => none
  | .broker _ => some 3
  | .unit => some 3
  | .hole => some 3

def State.token (s : State) (region : Nat) : TokEntry :=
  look { checked := false, moving := false, holder := s.fab.devid, queue := [], recallDue := none } s.fab.tokens region

/-- The table of R34. -/
def State.tokenVerdict (s : State) (tokchk : Bool) (dev : Nat) (a : Nat) : Verdict :=
  let t := s.token (a / 2 ^ 21)
  if !t.checked then .perform
  else if tokchk && dev ≠ t.holder.val then .refuse 5
  else if t.moving && dev ≠ t.holder.val then .wait
  else if t.holder.val ≠ s.own && dev ≠ t.holder.val then .refuse 5
  else .perform

def accWrites : AccKind → Bool
  | .load _ => false
  | _ => true

def accRow : AccKind → AccRow
  | .load _ => .load
  | .store _ _ => .store
  | .atomic _ _ _ => .atomic
  | .row _ => .row

def accNeed : AccKind → Need
  | .load _ => .read
  | .atomic _ _ _ => .both
  | _ => .write

/-- Whether the full-empty condition of an access holds: .wf and .tk wait for full, .we for empty, .fl waits for nothing
(spec/02 R30, spec/15 R228; log 27). -/
def State.feHolds (s : State) (fe : FeMode) (a : Nat) : Bool :=
  match fe with
  | .plain => true
  | .wf => s.full a
  | .tk => s.full a
  | .we => !s.full a
  | .fl => true

/-- The new word of an atomic (spec/15 R235). -/
def atomicNew (op : AtomicOp) (old operand compare : Word) : Word :=
  match op with
  | .add => old + operand
  | .min => if old.slt operand then old else operand
  | .max => if old.slt operand then operand else old
  | .and => old &&& operand
  | .or => old ||| operand
  | .xor => old ^^^ operand
  | .swap => operand
  | .cas => if old = compare then operand else old
  | .fadd => ((fpAdd fp32 .rne false (old.toNat % 2 ^ 32) (operand.toNat % 2 ^ 32)).1 : Nat) |> BitVec.ofNat 64

/-- Perform an access at its home with its full-empty change, as one step; answer the value read. -/
def State.effect (s : State) (kind : AccKind) (fe : FeMode) (a : Nat) : State × Word :=
  match kind with
  | .load w => (if fe = .tk then s.setEmpty a else s, BitVec.ofNat 64 (s.load a w))
  | .store w d =>
    let s := s.store a w d.toNat
    (if fe = .we || fe = .fl then s.setFull a else s, 0)
  | .atomic op o c =>
    let old := BitVec.ofNat 64 (s.load a (accWidth kind))
    (s.store a (accWidth kind) (atomicNew op old o c).toNat, old)
  | .row d => ((s.store a 64 d.toNat).setFullIn a 64, 0)

/-! ## Residency Table words (spec/08 R128, R129) -/

def ResEntry.word (e : ResEntry) (i : Nat) : Word :=
  match i with
  | 0 => BitVec.ofNat 64 (e.state.toNat * 2 ^ 62 + e.hgrp.toNat * 2 ^ 54 + e.pin.toNat * 2 ^ 46 + e.ctx.toNat * 2 ^ 32
           + e.last.toNat)
  | 1 => BitVec.ofNat 64 (e.xid.toNat * 2 ^ 48 + e.srcVa.toNat)
  | 2 => BitVec.ofNat 64 (e.plen.toNat * 2 ^ 32 + e.wbase.toNat)
  | _ => 0

def State.res (s : State) (e : Nat) : ResEntry := look ResEntry.reset s.dev.residency e

/-- What the Broker of a die holds of entry e (R129). -/
def State.replica (s : State) (die e : Nat) : ResEntry := look (s.res e) s.dev.replicas (8 * e + die)

/-- The replicas that a change of entry e leaves behind: those of the dies that are not its home keep what they hold. -/
def State.leftBehind (s : State) (e : Nat) : Assoc ResEntry :=
  (List.range 8).foldl (fun l d => if d = e % 8 then l else put l (8 * e + d) (s.replica d e)) s.dev.replicas

/-- An entry changes at its home Broker; the other replicas take the change later (R129). -/
def State.setRes (s : State) (e : Nat) (r : ResEntry) : State :=
  { s with dev := { s.dev with residency := put s.dev.residency e r, replicas := s.leftBehind e } }

/-- A replica takes what the home holds. -/
def State.replicate (s : State) (e die : Nat) : State :=
  { s with dev := { s.dev with replicas := drop s.dev.replicas (8 * e + die) } }

/-- Whether every replica holds what the home of entry e holds. -/
def State.replicated (s : State) (e : Nat) : Bool := s.dev.replicas.all fun p => p.1 / 8 ≠ e

/-- An entry changes in every replica at once, as seen from outside (R321). -/
def State.setResAll (s : State) (e : Nat) (r : ResEntry) : State :=
  { s with dev := { s.dev with residency := put s.dev.residency e r, replicas := s.dev.replicas.filter fun p => p.1 / 8 ≠ e } }

/-- A store to word i of entry e by the owning context, as its 64 bits would become: accepted with the new entry, or
refused. -/
def ResEntry.write (e : ResEntry) (i : Nat) (w : Word) : Option ResEntry :=
  if e.state == 1 then none
  else
    let n : Option ResEntry :=
      match i with
      | 0 =>
        if bits w 62 2 ≠ 0 && bits w 62 2 ≠ e.state.toNat then none
        else some { e with state := BitVec.ofNat 2 (bits w 62 2), hgrp := BitVec.ofNat 8 (bits w 54 8) }
      | 1 => some { e with srcVa := BitVec.ofNat 48 (bits w 0 48) }
      | 2 => some { e with plen := BitVec.ofNat 20 (bits w 32 20), wbase := BitVec.ofNat 19 (bits w 0 19) }
      | _ => some e
    match n with
    | none => none
    | some n =>
      if n.plen.toNat % 64 ≠ 0 || n.plen.toNat > 524288 || n.wbase.toNat % 64 ≠ 0 || n.wbase.toNat + n.plen.toNat > 0x80000
      then none else some n

/-- FAB_CAP and FAB_ID (spec/02 R29). -/
def fabCap : Word := 0x464C533100000100
def State.fabId (s : State) : Word := BitVec.ofNat 64 ((if s.fab.idSet then 1024 else 0) + s.own)

/-- A core's access to the register space through the register kind (spec/08 R117, R129): the value, or refused. -/
def State.regAccess (s : State) (ctx : BitVec 12) (kind : AccKind) (a : Nat) : Option (State × Word) :=
  let cut (w : Word) (n : Nat) : Word := BitVec.ofNat 64 (w.toNat / 2 ^ (8 * (a % 8)) % 2 ^ (8 * n))
  if resBase ≤ a && a < resBase + 0x8000 then
    let n := (a - resBase) / 32
    let i := (a - resBase) / 8 % 4
    let e := s.res n
    if e.ctx ≠ ctx then none
    else
      match kind with
      | .load w => some (s, cut (e.word i) w)
      | .store w d =>
        match e.write i (setBits (e.word i) (8 * (a % 8)) (8 * w) d.toNat) with
        | some e' => some (s.setRes n e', 0)
        | none => none
      | _ => none
  else
    match kind with
    | .load w =>
      if a / 8 = 0xF000000000 / 8 then some (s, cut fabCap w)
      else if a / 8 = 0xF000000008 / 8 then some (s, cut s.fabId w) else none
    | _ => none

/-! ## Requests (spec/10 R145, spec/02 R32) -/

def State.req (s : State) (id : Nat) : Option Req := s.net.find? (·.id == id)

def State.dropReq (s : State) (id : Nat) : State := { s with net := s.net.filter (·.id != id) }

def State.putReq (s : State) (r : Req) : State := { s with net := s.net.map fun q => if q.id = r.id then r else q }

/-- A request begins to wait: it goes behind those that arrived before it. -/
def State.parkReq (s : State) (r : Req) : State := { s with net := (s.net.filter (·.id != r.id)) ++ [r] }

def ReqSrc.dev (r : ReqSrc) (own : Nat) : Nat :=
  match r with
  | .core _ _ _ => own
  | .row _ _ _ => own
  | .peer d _ _ => d.val
  | .cache => own
  | .left _ _ => own

def ReqSrc.coreOf : ReqSrc → CoreIx
  | .core k _ _ => k
  | .row k _ _ => k
  | .peer _ k _ => k
  | .cache => 0
  | .left k _ => k

/-- The die in whose log a violation of a home on no die is written. -/
def ReqSrc.die : ReqSrc → Nat
  | .core k _ _ => dieOf k.val
  | .row k _ _ => dieOf k.val
  | .peer _ _ _ => 0
  | .cache => 0
  | .left k _ => dieOf k.val

def Ext.apply (e : Ext) (w : Word) : Word :=
  match e with
  | .zero n => BitVec.ofNat 64 (w.toNat % 2 ^ (8 * n))
  | .sign n => BitVec.ofInt 64 (sgn (8 * n) (w.toNat % 2 ^ (8 * n)))

/-- Whether the flits of a crossing fail their CRC. -/
def State.isTorn (s : State) (c : Crossing) : Bool := s.dev.torn.contains c

/-- The crossing has been answered. -/
def State.mend (s : State) (c : Crossing) : State := { s with dev := { s.dev with torn := s.dev.torn.erase c } }

/-- Whether the response to a request of a core crosses the mesh and fails. -/
def State.answerTorn (s : State) (r : Req) : Bool :=
  !r.loc && s.isTorn (.item r.id) && (match r.src with | .core _ _ _ | .row _ _ _ => true | _ => false)

/-- The answer of a request: a value goes to the flight that waits for it, a performed local store and a performed row are
over, a performed global store still has to reach its core (spec/19 R309), an error too; a peer is answered. Where the response's flit fails,
the requester's die logs it and the request is answered with 0x8 (spec/01 R17, spec/06 R89). -/
def State.answer (s : State) (r : Req) (st : BitVec 4) (v : Word) : State :=
  if s.answerTorn r then
    ((s.mend (.item r.id)).logViolation r.src.die 8 s.own r.sys r.src.coreOf.val 0).putReq { r with phase := .answered 8 }
  else
  match r.src with
  | .core k h _ =>
    if st = 0 then
      match r.flight with
      | some f => (s.dropReq r.id).give k h f (r.ext.apply v)
      | none => if r.loc then s.dropReq r.id else s.putReq { r with phase := .answered 0 }
    else s.putReq { r with phase := .answered st }
  | .row _ _ _ => if st = 0 then s.dropReq r.id else s.putReq { r with phase := .answered st }
  | .peer d k bare =>
    let n := match r.op with | .acc kind => answerLen kind | _ => 8
    (s.dropReq r.id).reply d bare k.val r.sys st false n v
  | .cache => s.dropReq r.id
  | .left _ _ => s.dropReq r.id

/-- Refuse a request: its entry in the violation log, and its answer. -/
def State.refuse (s : State) (r : Req) (st : BitVec 4) : State :=
  (s.logViolation (s.logDie st r.sys r.src.die) st (r.src.dev s.own) r.sys r.src.coreOf.val 0).answer r st 0

/-- Correctable errors are corrected (spec/06 R89); bytes of the stacks are charged to the requester's context, bytes from the
fabric to the region's (spec/06 R87, spec/08 R119). -/
def State.chargeAccess (s : State) (r : Req) (kind : AccKind) (a : Nat) : State :=
  let s := s.correct a (accWidth kind)
  match r.src with
  | .peer _ _ _ =>
    if (accWrites kind) then
      s.charge (BitVec.ofNat 12 (bits (look 0 s.dev.fabImport ((a - 0x1000000000) / 2 ^ 30)) 0 12)) 13 (accWidth kind)
    else s
  | _ => if inStacks a then s.charge r.ctx (if (accWrites kind) then 11 else 10) (accWidth kind) else s

/-- The checks of a request at a home of this device before its token check. -/
def State.admits (s : State) (r : Req) (kind : AccKind) : Option (BitVec 4) :=
  let a := physOf r.sys
  match r.src with
  | .peer _ _ _ =>
    if !s.fab.domainEn then some 3
    else if inStacks a then
      if bit (look 0 s.dev.fabImport ((a - 0x1000000000) / 2 ^ 30)) 63 then none else some 3
    else some 3
  | _ => if r.loc then none else s.permit r.ctx (accRow kind) (accWrites kind) a

/-- The whole check of a request at a home of this device. -/
def State.verdict (s : State) (r : Req) (kind : AccKind) : Verdict :=
  let a := physOf r.sys
  match s.admits r kind with
  | some st => .refuse st
  | none =>
    match s.tokenVerdict r.tokchk (r.src.dev s.own) a with
    | .perform => if s.badAt a (accWidth kind) then .refuse 4 else if s.feHolds r.fe a then .perform else .wait
    | v => v

/-- Entries of the retry list of a home, those of engines among them. -/
def State.waitingAt (s : State) (h : Home) : Nat :=
  (s.net.filter fun r => (match r.phase with | .waiting _ => true | _ => false) && homeOf (physOf r.sys) = h).length
    + (s.engWaits.filter fun w => !w.expired && devOf w.sys == s.own && homeOf (physOf w.sys) = h).length

/-- Whether a request waits at a word of this device. -/
def Req.waitsAt (r : Req) (own w : Nat) : Bool :=
  (match r.phase with | .waiting _ => true | _ => false) && devOf r.sys == own && physOf r.sys / 8 == w

/-- One entry of an examination: it performs if it may; the second result says whether it left the list. -/
def State.tryWaiting (s : State) (id : Nat) : State × Bool :=
  match s.req id with
  | none => (s, false)
  | some r =>
    match r.op with
    | .acc kind =>
      match s.verdict r kind with
      | .wait => (s, false)
      | .refuse st => (s.refuse r st, true)
      | .perform =>
        let (s', v) := (s.chargeAccess r kind (physOf r.sys)).effect kind r.fe (physOf r.sys)
        (s'.answer r 0 v, true)
    | _ => (s, false)

/-- A pass over the entries that wait at a word, in arrival order. -/
def State.examinePass : List Nat → State → State × Bool
  | [], s => (s, false)
  | id :: r, s =>
    let (s1, b1) := s.tryWaiting id
    let (s2, b2) := State.examinePass r s1
    (s2, b1 || b2)

/-- Passes until one performs nothing (spec/02 R32); each entry performs at most once, so there are at most as many passes
as entries. -/
def State.examineN : Nat → Nat → State → State
  | 0, _, s => s
  | n + 1, w, s =>
    match State.examinePass ((s.net.filter (·.waitsAt s.own w)).map (·.id)) s with
    | (s', true) => State.examineN n w s'
    | (s', false) => s'

/-- Examine the entries that wait at words. -/
def State.examine (s : State) (ws : List Nat) : State :=
  ws.foldl (fun s w => State.examineN ((s.net.filter (·.waitsAt s.own w)).length) w s) s

/-- A request arrives at a home of this device: it is performed, begins to wait, or is refused; a word whose bit changed is
examined (spec/02 R32, spec/10 R145). -/
def State.arrive (s : State) (r : Req) (kind : AccKind) : State :=
  let a := physOf r.sys
  if r.reg || (0xF000000000 ≤ a && (match r.src with | .peer _ _ _ => true | _ => false)) then
    match r.src with
    | .peer _ _ _ => if a = 0xF000000000 && kind = .load 8 && r.fe = .plain then s.answer r 0 fabCap else s.refuse r 3
    | _ =>
      if r.fe ≠ .plain then s.refuse r 3
      else
        match s.regAccess r.ctx kind a with
        | some (s', v) => s'.answer r 0 v
        | none => s.refuse r 3
  else
    match s.verdict r kind with
    | .refuse st => s.refuse r st
    | .wait =>
      if s.waitingAt (homeOf a) ≥ 512 then s.refuse r 7 else s.parkReq { r with phase := .waiting (s.now + toTicks s.fab.feTimeout) }
    | .perform =>
      let before := s.full a
      let dirty := match kind with | .row _ => s.emptyIn a 64 | _ => []
      let (s', v) := (s.chargeAccess r kind a).effect kind r.fe a
      let s' := s'.answer r 0 v
      match kind with
      | .row _ => s'.examine dirty
      | _ => if s'.full a = before then s' else s'.examine [a / 8]

/-! ## Engine accesses -/

/-- Who an engine acts for: its context, the cluster whose translation cache it uses, the core and the SRC code of the
violation log, its row of R115, its class; `eng` says that the page needs E, `tok` that its writes are made under a held token
(spec/09 R131). -/
structure Acc where
  ctx  : BitVec 12
  cl   : Option Nat
  core : Nat
  src  : BitVec 4
  row  : AccRow
  cls  : RClass
  eng  : Bool
  tok  : Bool := false
  deriving DecidableEq, Repr

/-- How an engine access fails: a translation fault, an error response with the system address, or a token move to wait
for. -/
inductive AccErr | fault | status (st : BitVec 4) (sys : BitVec 50) | wait
  deriving DecidableEq, Repr

/-- Where an engine access goes: memory of this device, or another device. -/
inductive Target | own (a : Nat) | peer (sys : BitVec 50)
  deriving DecidableEq, Repr

/-- A refused engine access with its log entry. -/
def State.engRefuse (s : State) (e : Acc) (st : BitVec 4) (sys : BitVec 50) : State × Except AccErr Target :=
  (s.logViolation (s.logDie st sys (dieOf e.core)) st s.own sys e.core e.src, .error (.status st sys))

/-- The status of a response with n bytes of data as its requester takes it: 0x8 where its XCRC does not match (spec/02 R31), 0x2 for
a reserved one (R37); a peer's without a header has none to check. -/
def State.seenStatus (s : State) (sys : BitVec 50) (n : Nat) (p : PeerReply) : BitVec 4 :=
  if !s.bare (devOf sys) && !crcMatches sys p.hdr (toBytes (if xstatOf p = 0 then n else 0) p.data.toNat) then 8
  else if (xstatOf p).toNat ≥ 10 then 2
  else xstatOf p

/-- What the log of the requester's die gets of a status: what that die detects, 0x8 or 0x2 in place of the status sent, and what the
source die logs, 0x1 and 0x9 (R37). -/
def State.noteStatus (s : State) (sent seen : BitVec 4) (sys : BitVec 50) (core : CoreIx) (src : BitVec 4) : State :=
  if sent ≠ seen || seen = 1 || seen = 9 then s.logViolation (dieOf core.val) seen s.own sys core.val src else s

/-- Whether a packet of a peer is discarded because its tag fails or its encryption is missing (R36); it is counted and logged with
the sender (spec/06 R83). -/
def State.tagFails (s : State) (dev : Nat) (tagOk : Bool) : Option State :=
  if (s.peer dev).enc && !tagOk then some ({ s with fab := { s.fab with tagFails := s.fab.tagFails + 1 } }.logEvent 8 dev) else none

/-- A packet of a peer whose tag no operand of the step gives (log 24): the state, and whether the packet is taken. -/
def State.tagDrawn (s : State) (dev : Nat) : State × Bool :=
  if (s.peer dev).enc then
    match s.tagFails dev (Config.peerTag s.free) with
    | some s' => ({ s' with free := s.free + 1 }, false)
    | none => ({ s with free := s.free + 1 }, true)
  else (s, true)

/-- A request to a device is answered with 0x9: its late response will be counted (R33). -/
def State.expect (s : State) (id : Nat) : State := { s with fab := { s.fab with overdue := s.fab.overdue ++ [id] } }

/-- The entry of an engine access in a retry list. -/
def State.engWait? (s : State) (e : Acc) (sys : BitVec 50) : Option EngWait :=
  s.engWaits.find? fun w => w.core = e.core && w.src = e.src && w.sys = sys

/-- The engine access waits no longer. -/
def State.engLeave (s : State) (e : Acc) (sys : BitVec 50) : State :=
  { s with engWaits := s.engWaits.filter fun w => !(w.core = e.core && w.src = e.src && w.sys = sys) }

/-- An engine access that a token move holds waits in the retry list of its home (R32, R34), is refused by a full one, and ends at
FE_TIMEOUT. -/
def State.engStand (s : State) (e : Acc) (sys : BitVec 50) : State × Except AccErr Target :=
  match s.engWait? e sys with
  | some w => if w.expired then (s.engLeave e sys).engRefuse e 6 sys else (s, .error .wait)
  | none =>
    if s.waitingAt (homeOf (physOf sys)) ≥ 512 then s.engRefuse e 7 sys
    else
      let w : EngWait := { id := s.nextId, core := e.core, src := e.src, sys := sys, due := s.now + toTicks s.fab.feTimeout,
                           expired := false }
      ({ s with engWaits := s.engWaits ++ [w], nextId := s.nextId + 1 }, .error .wait)

/-- An engine operation that meets a token move has no effect yet but its place in the retry list. -/
def State.stall (s : State) (after : State) : State := { s with engWaits := after.engWaits, nextId := after.nextId }

/-- Loads on their way to a doubleword that a write of [sys, sys + n) touches no longer fill a cached copy of it (spec/10 R147). -/
def State.noFill (s : State) (sys : BitVec 50) (n : Nat) : State :=
  { s with net := s.net.map fun q =>
      if q.phase = .sent && sys.toNat < q.sys.toNat / 8 * 8 + 8 && q.sys.toNat / 8 * 8 < sys.toNat + n then { q with nocache := true } else q }

/-- The packet of an engine's access to another device. -/
def State.engPacket (s : State) (e : Acc) (wr : Option Word) (sys : BitVec 50) (n : Nat) : State :=
  let low := s.reqLow (devOf sys) e.core e.tok .plain e.cls
  match wr with
  | none => s.fabOut (.read sys n (s.header (devOf sys) sys low []))
  | some v => ((s.noFill sys n).charge e.ctx 12 n).fabOut (.write sys n v (s.header (devOf sys) sys low (toBytes n v.toNat)))

/-- The packet of an engine's access goes out, after the dirty words of a cached copy of its line (spec/10 R147). -/
def State.engSend (s : State) (e : Acc) (wr : Option Word) (sys : BitVec 50) (n : Nat) : State :=
  (s.dropLine (sys.toNat / 64)).engPacket e wr sys n

/-- Whether an engine's access to another device may leave on a plane: in class .ord, or where dirty words go before it, not before .ord
requests that went by another plane are answered (spec/02 R30). -/
def State.engReady (s : State) (e : Acc) (sys : BitVec 50) (p : Fin 16) : Bool :=
  (e.cls ≠ .ord && (s.line? sys).isNone) || s.drained (devOf sys) p

/-- Whether no response comes, or one whose tag fails (spec/02 R33, R36). -/
def State.engLost (s : State) (e : Acc) (sys : BitVec 50) : Bool :=
  (s.engWait? e sys).isSome || Config.peerStatus s.free = 9 || ((s.peer (devOf sys)).enc && !Config.peerTag s.free)

/-- An engine's access that has no response waits until FAB_RSP_TIMEOUT has passed, and ends with 0x9 (spec/02 R33). -/
def State.engOverdue (s : State) (e : Acc) (wr : Option Word) (sys : BitVec 50) (n : Nat) : State × Except AccErr Target :=
  match s.engWait? e sys with
  | none =>
    let w : EngWait := { id := s.nextId, core := e.core, src := e.src, sys := sys, due := s.now + toTicks s.fab.rspTimeout,
                         expired := false }
    ({ s with engWaits := s.engWaits ++ [w], nextId := s.nextId + 1 }, .error .wait)
  | some w =>
    if !w.expired then (s, .error .wait)
    else
      let s := ((s.engLeave e sys).engSend e wr sys n).expect w.id
      let s := (s.tagDrawn (devOf sys)).1.noteStatus 9 9 sys (toCore e.core) e.src
      (s, .error (.status 9 sys))

/-- An engine's access to another device: what that device answers is a free value (log 24), but 0x3 in its register space, a plain
read of FAB_CAP apart (R28). -/
def State.engPeer (s : State) (e : Acc) (wr : Option Word) (sys : BitVec 50) (n : Nat) : State × Except AccErr Target :=
  match s.route (devOf sys) e.cls true with
  | .error st => (s.engLeave e sys).engRefuse e st sys
  | .ok p =>
    if !s.engReady e sys p then (s, .error .wait)
    else if s.engLost e sys then s.engOverdue e wr sys n
    else
      let s := s.engSend e wr sys n
      let cap := wr.isNone && n = 8 && physOf sys = 0xF000000000
      let sent := if 0xF000000000 ≤ physOf sys && !cap then 3 else Config.peerStatus s.free
      let seen : BitVec 4 := if sent.toNat ≥ 10 then 2 else if sent ≠ 0 && bit (Config.peerData s.free) 0 then 8 else sent
      let s := { s with free := s.free + 1 }.noteStatus sent seen sys (toCore e.core) e.src
      if seen = 0 then (s, .ok (.peer sys)) else (s, .error (.status seen sys))

/-- Translate and check an engine access of n bytes: a write of `wr`, or a read. One whose flit fails is answered with 0x8. -/
def State.engTarget (s : State) (e : Acc) (wr : Option Word) (ga : Word) (n : Nat) : State × Except AccErr Target :=
  match s.xlate e.cl e.ctx e.eng (if wr.isSome then .write else .read) ga with
  | (s, .error .fault) => (s, .error .fault)
  | (s, .error (.table a)) => s.engRefuse e 4 (sysOf s.own a)
  | (s, .ok x) =>
    if x.reg then s.engRefuse e 3 x.sys
    else if devOf x.sys = s.own then
      let a := physOf x.sys
      if s.isTorn (.word x.sys) then ((s.mend (.word x.sys)).engLeave e x.sys).engRefuse e 8 x.sys else
      match s.permit e.ctx e.row wr.isSome a with
      | some st => s.engRefuse e st x.sys
      | none =>
        match s.tokenVerdict false s.own a with
        | .wait => s.engStand e x.sys
        | .refuse st => (s.engLeave e x.sys).engRefuse e st x.sys
        | .perform =>
          let s := s.engLeave e x.sys
          if s.badAt a n then s.engRefuse e 4 x.sys else (s.correct a n, .ok (.own a))
    else s.engPeer e wr x.sys n

/-- Read n bytes that lie in one aligned word. -/
def State.engRead (s : State) (e : Acc) (ga : Word) (n : Nat) : State × Except AccErr Nat :=
  match s.engTarget e none ga n with
  | (s, .error x) => (s, .error x)
  | (s, .ok (.own a)) => ((if inStacks a then s.charge e.ctx 10 n else s), .ok (s.load a n))
  | (s, .ok (.peer _)) => ({ s.charge e.ctx 13 n with free := s.free + 1 }, .ok ((Config.peerData s.free).toNat % 2 ^ (8 * n)))

/-- An engine's write of memory of this device: the words become full and what waits for them is examined (spec/08 R124). -/
def State.engineWrite (s : State) (a n v : Nat) : State :=
  let ws := s.emptyIn a n
  ((s.store a n v).setFullIn a n).examine ws

/-- Write n bytes that lie in one aligned word. -/
def State.engWrite (s : State) (e : Acc) (ga : Word) (n v : Nat) : State × Except AccErr Unit :=
  match s.engTarget e (some (BitVec.ofNat 64 (v % 2 ^ (8 * n)))) ga n with
  | (s, .error x) => (s, .error x)
  | (s, .ok (.own a)) => (((if inStacks a then s.charge e.ctx 11 n else s).engineWrite a n v), .ok ())
  | (s, .ok (.peer _)) => (s, .ok ())

/-- Read n bytes from a global address, cut at the aligned words. -/
def State.engReadBytes (e : Acc) : Nat → State → Word → State × Except AccErr (List Byte)
  | 0, s, _ => (s, .ok [])
  | n + 1, s, ga =>
    match s.engRead e ga 1 with
    | (s, .error x) => (s, .error x)
    | (s, .ok b) =>
      match State.engReadBytes e n s (ga + 1) with
      | (s, .error x) => (s, .error x)
      | (s, .ok r) => (s, .ok (BitVec.ofNat 8 b :: r))

/-- Read n aligned doublewords. -/
def State.engReadWords (e : Acc) : Nat → State → Word → State × Except AccErr (List Word)
  | 0, s, _ => (s, .ok [])
  | n + 1, s, ga =>
    match s.engRead e ga 8 with
    | (s, .error x) => (s, .error x)
    | (s, .ok b) =>
      match State.engReadWords e n s (ga + 8) with
      | (s, .error x) => (s, .error x)
      | (s, .ok r) => (s, .ok (BitVec.ofNat 64 b :: r))

/-- Write aligned doublewords; what was written before an error stays. -/
def State.engWriteWords (e : Acc) : List Word → State → Word → State × Except AccErr Unit
  | [], s, _ => (s, .ok ())
  | w :: r, s, ga =>
    match s.engWrite e ga 8 w.toNat with
    | (s, .error x) => (s, .error x)
    | (s, .ok ()) => State.engWriteWords e r s (ga + 8)

/-- The trap cause of a status (spec/02 R37). -/
def causeOf (st : BitVec 4) : BitVec 8 := if st == 5 then 8 else if st == 6 then 6 else 5

/-- The trap cause of a failed engine access, as its record names it. -/
def AccErr.cause : AccErr → BitVec 8
  | .fault => 4
  | .status st _ => causeOf st
  | .wait => 0

end Sys2Proof.Machine
end

