-- ==== Sys2Proof/Machine/Ops.lean ====
section
/-!
DEFINITION. The named operations over a core that the meanings share: the Relay (spec/09 R143, R144), placing completions in
the inbox (spec/09 R130), taking a trap and returning from one (spec/07 R111 to R113), the handler fault (spec/07 R104),
the events of a bundle boundary, groups (spec/05 R67) and how a bundle ends.
-/

namespace Sys2Proof.Machine

/-! ## Status and privilege (spec/07 R93) -/

def Core.priv (c : Core) : Bool := bit c.ctl.coreStatus 0
def Core.intrap (c : Core) : Bool := bit c.ctl.coreStatus 5

/-- The privilege of the executing context. -/
def State.privNow (s : State) : Bool := if s.curH then s.cc.hnd.priv else s.cc.priv

/-- TIME (spec/07 R113). -/
def State.time (s : State) (c : Core) : Word := BitVec.ofNat 64 s.now - c.ctl.timeOff

/-- CORE_STATUS as it reads: PREQ and EXPH are computed. -/
def Core.statusWord (c : Core) : Word :=
  setBits (setBits c.ctl.coreStatus 7 1 (if c.slot.preq.isSome then 1 else 0)) 6 1 (if c.exch.group.isSome then 1 else 0)

/-- INT_PEND (spec/07 R113). -/
def State.intPend (s : State) (c : Core) : Word :=
  let err := !c.evt.errQ.isEmpty || c.eng.relayTerm.toList.any fun t => bit t 43
  BitVec.ofNat 64 ((if c.slot.preq.isSome then 1 else 0)
    + (if c.evt.inbox.any fun m => m.kind != 0x10 then 2 else 0)
    + (if c.ctl.timerCmp.toNat ≤ (s.time c).toNat then 4 else 0)
    + (if err then 8 else 0))

/-! ## The Relay (spec/09 R143, R144) -/

/-- A counter after a pulse of source `src` with argument `arg`: VAL saturates. Source 3 asks for its transfer, source 6 for
its kind. -/
def relayCount (src arg : Nat) (w : Word) : Word :=
  let hit := bits w 60 4 == src && (src != 3 || bits w 44 16 == arg) && (src != 6 || bits w 44 8 == arg)
  if hit && bits w 0 16 < 0xFFFF then w + 1 else w

/-- A mask is met when it is nonzero and every counter it names has reached its threshold. -/
def maskMet (cnt : Vector Word 8) (m : Nat) : Bool :=
  m != 0 && (List.finRange 8).all fun i => !m.testBit i.val || bits cnt[i] 16 16 ≤ bits cnt[i] 0 16

/-- Subtract THRESH from the counters a mask names. -/
def maskSub (cnt : Vector Word 8) (m : Nat) : Vector Word 8 :=
  cnt.mapFinIdx fun i w _ => if m.testBit i then setBits w 0 16 (bits w 0 16 - bits w 16 16) else w

/-- Whether a firing takes anything from the counters of its mask. -/
def maskTakes (cnt : Vector Word 8) (m : Nat) : Bool :=
  (List.finRange 8).any fun i => m.testBit i.val && bits cnt[i] 16 16 != 0

def isGated (e : MatEntry) : Bool :=
  !e.released &&
  match e.cmd with
  | .mload c => c.gate
  | .mswap c => c.gate
  | .mdrain c => c.gate
  | .mzero c => c.gate
  | .mshape c => c.gate
  | .mma c => c.gate

/-- Release the oldest gated entry of a queue, if there is one. -/
def releaseFirst : List MatEntry → Option (List MatEntry)
  | [] => none
  | e :: r => if isGated e then some ({ e with released := true } :: r) else (releaseFirst r).map (e :: ·)

def Core.relayRelease (c : Core) : Core :=
  match releaseFirst c.mat.mq with
  | some q => { c with mat := { c.mat with mq := q } }
  | none => { c with mat := { c.mat with banked := if c.mat.banked == 255 then 255 else c.mat.banked + 1 } }

/-- The number that an operation takes which the Relay starts: no FENCE that stands then was issued after it (spec/07 R108). -/
def Core.startStamp (c : Core) (old : Nat) : Nat := max old (max (c.evt.fenceAt.getD 0) (c.evt.fenceH.getD 0))

/-- Start the prepared transfer of an ID as if the core issued it at this moment, under its privilege (spec/07 R108); none if no
such transfer is prepared. -/
def Core.startPrepared (c : Core) (xid : Nat) : Option Core :=
  if c.eng.copies.any fun x => x.xid.toNat == xid && x.state = .prepared then
    some { c with eng := { c.eng with copies := c.eng.copies.map fun x =>
                                        if x.xid.toNat == xid && x.state = .prepared then
                                          { x with state := .running, priv := c.priv, stamp := c.startStamp x.stamp } else x } }
  else none

/-- A term acts. -/
def Core.relayAct (c : Core) (i : Fin 8) : Core :=
  let t := c.eng.relayTerm[i]
  let pend (c : Core) : Core := { c with eng := { c.eng with relayTerm := c.eng.relayTerm.set i (setBits c.eng.relayTerm[i] 43 1 1) } }
  let c1 := if bit c.ctl.intEn 3 then pend c else c
  match bits t 60 3 with
  | 1 => c1.relayRelease
  | 2 =>
    match c1.startPrepared (bits t 44 16) with
    | some c2 => c2
    | none => pend c1
  | _ => c1

/-- Examine the terms in ascending index; the second result says whether a firing took anything from a counter. -/
def Core.relayTerms : List (Fin 8) → Core → Core × Bool
  | [], c => (c, false)
  | i :: r, c =>
    let t := c.eng.relayTerm[i]
    let m := if maskMet c.eng.relayCnt (bits t 0 8) then bits t 0 8
             else if maskMet c.eng.relayCnt (bits t 8 8) then bits t 8 8 else 0
    if bit t 63 && m != 0 then
      let c1 := Core.relayAct { c with eng := { c.eng with relayCnt := maskSub c.eng.relayCnt m } } i
      let (c2, b) := Core.relayTerms r c1
      (c2, b || maskTakes c.eng.relayCnt m)
    else Core.relayTerms r c

/-- Cycles of the Relay until no firing takes anything from a counter: later cycles fire again while counters hold enough
(spec/09 R144; log 28). A mask of zero thresholds fires once more with every cycle that passes. -/
def Core.relayCycles : Nat → Core → Core
  | 0, c => c
  | n + 1, c =>
    match Core.relayTerms (List.finRange 8) c with
    | (c', true) => Core.relayCycles n c'
    | (c', false) => c'

/-- The most firings that can take something: every counter's value. -/
def Core.relayFuel (c : Core) : Nat := c.eng.relayCnt.toList.foldl (fun n w => n + bits w 0 16) 1

def Core.relayFire (c : Core) : Core := c.relayCycles c.relayFuel

/-- Pulses of one cycle reach the Relay: all are counted before the terms are examined. -/
def Core.relayPulses (c : Core) (l : List (Nat × Nat)) : Core :=
  Core.relayFire { c with eng := { c.eng with
    relayCnt := l.foldl (fun cnt p => cnt.map (relayCount p.1 p.2)) c.eng.relayCnt } }

def Core.relayPulse (c : Core) (src arg : Nat) : Core := c.relayPulses [(src, arg)]

/-- Whether an enabled term is met. -/
def Core.relayMet (c : Core) : Bool :=
  (List.finRange 8).any fun i =>
    let t := c.eng.relayTerm[i]
    bit t 63 && (maskMet c.eng.relayCnt (bits t 0 8) || maskMet c.eng.relayCnt (bits t 8 8))

/-- Cycles without a pulse pass: terms whose thresholds are zero fire in each (R144). After as many cycles as the queue holds entries and
the bank releases a further firing changes nothing. -/
def Core.relayIdle (n : Nat) (c : Core) : Core :=
  if c.relayMet then (List.range (min n 264)).foldl (fun c _ => c.relayFire) c else c

def State.pulse (s : State) (k : CoreIx) (src arg : Nat) : State := s.modCore k (·.relayPulse src arg)

/-! ## The inbox (spec/09 R130) -/

def mkMsg (kind status source xid : Nat) (payload : Word) : Msg :=
  { kind := BitVec.ofNat 8 kind, status := BitVec.ofNat 8 status, source := BitVec.ofNat 16 source,
    xid := BitVec.ofNat 16 xid, payload := payload }

/-- The header doubleword of a message (spec/00 R8). -/
def Msg.header (m : Msg) : Word :=
  BitVec.ofNat 64 (m.kind.toNat + m.status.toNat * 2 ^ 8 + m.source.toNat * 2 ^ 16 + m.xid.toNat * 2 ^ 32)

/-- What a placed completion frees. -/
def Core.placeAct (c : Core) (a : PlaceAct) : Core :=
  match a with
  | .keep => c
  | .freeXfer x => { c with eng := { c.eng with copies := c.eng.copies.filter fun t => t.xid != x } }
  | .freeHandle h => { c with eng := { c.eng with handles := c.eng.handles.erase h } }
  | .freeSend h =>
    { c with eng := { c.eng with handles := c.eng.handles.erase h, sends := c.eng.sends.filter fun t => t.handle != h } }

/-- A message enters the inbox: a pulse of source 6; kind 0x10 raises 0x0B (spec/05 R76). -/
def Core.enter (c : Core) (m : Msg) : Core :=
  let c := { c with evt := { c.evt with inbox := c.evt.inbox ++ [m],
                                        peer := if m.kind == 0x10 then c.evt.peer ++ [m.source] else c.evt.peer } }
  c.relayPulse 6 m.kind.toNat

def Core.deliver (c : Core) (x : Completion) : Core := (x.msgs.foldl Core.enter c).placeAct x.act

/-- Place a completion: at once where the inbox has room and none is held; held otherwise; discarded and counted at a frozen
core without room, discarded with a slot that is idle (spec/05 R71, R76, spec/09 R130). -/
def Core.place (c : Core) (x : Completion) : Core :=
  if c.slot.st = .idle then c.placeAct x.act
  else if c.evt.inbox.length + x.msgs.length ≤ 256 && c.evt.held.isEmpty then c.deliver x
  else if c.slot.st = .frozen then { c with evt := { c.evt with dropped := c.evt.dropped + 1 } }.placeAct x.act
  else { c with evt := { c.evt with held := c.evt.held ++ [x] } }

def State.place (s : State) (k : CoreIx) (ms : List Msg) (a : PlaceAct) : State :=
  s.modCore k (·.place { msgs := ms, act := a })

/-- Memory with the bytes of [a, a + n) replaced by a block that lies inside it. -/
def memReplace (l : List Host.Cell) (a n : Nat) (block : List Host.Cell) : List Host.Cell :=
  l.filter (·.1 < a) ++ block ++ l.filter (a + n ≤ ·.1)

def State.clearImage (s : State) (a n : Nat) : State := { s with mem := memReplace s.mem a n [] }

/-- Doublewords from an address on. -/
def State.storeWords (s : State) (a : Nat) : List Word → State
  | [] => s
  | w :: r => State.storeWords (s.store a 8 w.toNat) (a + 8) r

/-- The inbox area of a context record: messages in arrival order (spec/05 R75). -/
def State.writeInbox (s : State) (r : Nat) (ms : List Msg) : State :=
  (s.clearImage (r + 0x4000) 4096).storeWords (r + 0x4000) (ms.map fun m => [m.header, m.payload]).flatten

/-- The key of a saved core: its launch and its index. -/
def saveKey (lid : BitVec 16) (k : CoreIx) : Nat := lid.toNat * 4096 + k.val

/-- A completion for a saved core: appended to the inbox area of its record, or held while that holds 256 messages (R75). -/
def State.placeSaved (s : State) (key : Nat) (sv : SavedCore) (x : Completion) : State :=
  if sv.core.evt.inbox.length + x.msgs.length ≤ 256 && sv.held.isEmpty then
    let c := { sv.core with evt := { sv.core.evt with inbox := sv.core.evt.inbox ++ x.msgs } }.placeAct x.act
    let s := { s with saves := put s.saves key { sv with core := c } }
    (s.writeInbox sv.crec c.evt.inbox).store (sv.crec + 20) 4 c.evt.inbox.length
  else { s with saves := put s.saves key { sv with held := sv.held ++ [x] } }

/-- A completion for a core of a launch: to the core where the launch binds it, to its record where it is saved; nowhere where it is
neither. -/
def State.placeFor (s : State) (k : CoreIx) (lid : BitVec 16) (ms : List Msg) (a : PlaceAct) : State :=
  if (s.core k).slot.st ≠ .idle && (s.core k).slot.lid = lid then s.place k ms a
  else
    match lookup s.saves (saveKey lid k) with
    | some sv => s.placeSaved (saveKey lid k) sv { msgs := ms, act := a }
    | none => s

/-- Room has come: held completions are placed, oldest first. -/
def Core.settleHeld (c : Core) : List Completion → Core
  | [] => c
  | x :: r =>
    if c.evt.inbox.length + x.msgs.length ≤ 256 then
      Core.settleHeld ({ c with evt := { c.evt with held := r } }.deliver x) r
    else c

def Core.settle (c : Core) : Core := c.settleHeld c.evt.held

/-! ## Matrix queue and drain (spec/17 R271, spec/07 R104) -/

/-- The drain that runs, if the command at the head is one that has started. -/
def Core.drain? (c : Core) : Option MatEntry :=
  match c.mat.mq with
  | e :: _ => if e.started then (match e.cmd with | .mdrain _ => some e | _ => none) else none
  | [] => none

/-- The drain in execution ends and leaves the queue, with its pulse of source 1; other pulses of the same cycle count with it. -/
def Core.endDrainWith (c : Core) (l : List (Nat × Nat)) : Core :=
  match c.drain? with
  | some _ => { c with mat := { c.mat with mq := c.mat.mq.tail } }.relayPulses ((1, 0) :: l)
  | none => c

def Core.endDrain (c : Core) : Core := c.endDrainWith []

/-- The handler faults (spec/07 R104): it stops, its row is discarded, the drain ends, a FENCE it stands in is over, and the fault
waits for the main context. -/
def Core.handlerFault (c : Core) (cause : BitVec 8) (pc : Pc) : Core :=
  let c1 := { c with evt := { c.evt with fenceH := none } }.endDrain
  { c1 with hnd := { c1.hnd with row := none, marker := false, faults := c.hnd.faults ++ [(cause, pc)] } }

/-- A failing response is at the core: a response trap of the main context, or a fault of the handler bundle that issued the
operation (spec/07 R104, R111). -/
def Core.respondTo (c : Core) (hpc : Option Pc) (cause : BitVec 8) (val : Word) : Core :=
  match hpc with
  | none => { c with evt := { c.evt with respTraps := c.evt.respTraps ++ [{ cause := cause, val := val }] } }
  | some pc => c.handlerFault cause pc

def State.respondTo (s : State) (k : CoreIx) (hpc : Option Pc) (cause : BitVec 8) (val : Word) : State :=
  s.modCore k (·.respondTo hpc cause val)

/-! ## Traps (spec/07 R112) -/

/-- A fatal fault of a core: it issues nothing more, and the scheduler hart learns of it (spec/05 R76). -/
def State.fatalCore (s : State) (k : CoreIx) (cause : BitVec 8) (val : Word) : State :=
  let s := s.modCore k fun c => { c with slot := { c.slot with fatal := some (cause, val) } }
  { s with sched := { s.sched with faults := s.sched.faults ++ [k] } }

/-- The status after a trap: PPRIV := PRIV, PRIV := S, PIE := IE, IE := 0, INTRAP := 1. -/
def trapStatus (st : Word) : Word :=
  let st := setBits st 4 1 (bits st 0 1)
  let st := setBits st 0 1 1
  let st := setBits st 3 1 (bits st 2 1)
  setBits (setBits st 2 1 0) 5 1 1

/-- The status after SRET: PRIV := PPRIV, IE := PIE, INTRAP := 0. -/
def sretStatus (st : Word) : Word := setBits (setBits (setBits st 0 1 (bits st 4 1)) 2 1 (bits st 3 1)) 5 1 0

/-- Registers at trap entry. -/
def Core.trapEntry (c : Core) (imp : Bool) (cause : BitVec 8) (pc : Pc) (val : Word) : Core :=
  let base : Pc := BitVec.ofNat 17 (bits c.ctl.tvec 3 14 * 8)
  { c with
    ctl := { c.ctl with
      trapCause := setBits (cause.setWidth 64) 63 1 (if imp then 1 else 0)
      trapPc := pc.setWidth 64
      trapVal := val
      coreStatus := trapStatus c.ctl.coreStatus }
    main := { c.main with pc := base, npc := base, marker := false }
    seq := { c.seq with drain := false }
    evt := { c.evt with fenceAt := none, holdSince := none } }

/-- Take a trap (R112): fatal while INTRAP is set or no handler is installed, and then the trap registers stay. -/
def State.takeTrap (s : State) (k : CoreIx) (imp : Bool) (cause : BitVec 8) (pc : Pc) (val : Word) : State :=
  let c := s.core k
  if c.intrap || !bit c.ctl.tvec 63 then s.fatalCore k cause val else s.setCore k (c.trapEntry imp cause pc val)

/-- A byte offset of a bundle: a multiple of 8 (spec/07 R92); what lies below or above the bundle's bits is ignored (log 17). -/
def pcOf (w : Word) : Pc := BitVec.ofNat 17 (bits w 3 14 * 8)

/-- The return from a trap. -/
def Core.trapReturn (c : Core) : Core :=
  let pc := pcOf c.ctl.trapPc
  { c with ctl := { c.ctl with coreStatus := sretStatus c.ctl.coreStatus }, main := { c.main with npc := pc } }

/-- Trap entry waits for the results of the context and, where it comes during a VLOOP, until the sequencer is empty (spec/07 R95,
R100). -/
def Core.calm (c : Core) : Bool := c.settled false && c.seq.loop.isNone && (!c.seq.drain || c.seq.queue.isEmpty)

/-- The bundle waits: nothing of it has an effect, and it issues again. -/
def State.hold (s : State) : State := { s with bundle := .held }

/-- The PC of the executing context's bundle. -/
def State.curPc (s : State) : Pc := if s.curH then s.cc.hnd.pc else s.cc.main.pc

/-- The results that the entries of a block owe that is never executed are over. -/
def Core.closeOwed (c : Core) (es : List SeqEntry) : Core :=
  es.foldl (fun c e =>
    match e.flight with
    | some f => c.setFlights e.handler (closeFlight f (c.flights e.handler))
    | none => c) c

/-- A block that is complete and has no iteration left is over (spec/07 R100, spec/16 R269). -/
def Core.endLoop (c : Core) : Core :=
  match c.seq.loop with
  | some l =>
    if l.want = 0 && (l.left = 0 || l.body.isEmpty) then
      let c := { c with seq := { c.seq with loop := none } }
      if l.count = 0 then c.closeOwed l.body else c
    else c
  | none => c

/-- A trap, a safe-point stop or a VLOOP ends the capture of a block early (spec/16 R269). -/
def Core.closeCapture (c : Core) : Core :=
  match c.seq.loop with
  | some l => { c with seq := { c.seq with loop := some { l with want := 0 } } }.endLoop
  | none => c

/-- A trap or a safe-point stop that comes during a VLOOP: the capture ends, and it waits until the sequencer is empty (spec/07
R100). -/
def Core.beginDrain (c : Core) : Core :=
  let q := c.closeCapture.seq
  if c.seq.loop.isSome then { c.closeCapture with seq := { q with drain := q.loop.isSome || !q.queue.isEmpty } } else c

/-- A precise trap of the bundle that executes: neither slot has an effect; in the handler it is a handler fault. -/
def State.trap (s : State) (cause : BitVec 8) (val : Word) : State :=
  if s.curH then { s.mod (fun c => c.handlerFault cause c.hnd.pc) with bundle := .trapped }
  else if s.cc.calm then
    { (s.mod (·.landAll false)).takeTrap s.cur false cause s.cc.main.pc val with bundle := .trapped }
  else (s.mod (·.beginDrain)).hold

/-- Cause 0x02 with the offending word. -/
def State.illegal (s : State) : State := s.trap 2 (s.word.setWidth 64)

/-- What the handler may not execute or write is a handler fault whose cause the spec does not give (spec/07 R104; log 25). -/
def State.forbidden (s : State) : State :=
  let s := { s with free := s.free + 1 }
  { s.mod (fun c => c.handlerFault (Config.handlerCause (s.free - 1)) c.hnd.pc) with bundle := .trapped }

/-! ## Events of a bundle boundary (spec/07 R113) -/

inductive Event
  | resp (r : RespTrap)
  | handler (cause : BitVec 8) (pc : Pc)
  | peer (core : BitVec 16)
  | queue (val : Word) (pc : Pc)
  | wdog
  | int (cause : BitVec 8)
  | overrun
  deriving DecidableEq, Repr

/-- The lowest enabled maskable interrupt: 0x0C, 0x10, 0x11, 0x12. -/
def intCause (m : Word) : Option (BitVec 8) :=
  if bit m 0 then some 0x0C else if bit m 1 then some 0x10 else if bit m 2 then some 0x11
  else if bit m 3 then some 0x12 else none

/-- Whether the core stands in SYNC or XEND and the barrier has not returned. -/
def Core.inBarrier (c : Core) : Bool := c.exch.parked ≠ .none && !c.exch.back

/-- Whether the core's barrier has returned and its bundle is about to complete. -/
def Core.returning (c : Core) : Bool := c.exch.parked ≠ .none && c.exch.back

/-- The event that the next boundary of a core takes. In SYNC and XEND only 0x0B and 0x0F are taken (spec/15 R244), and none
between the barrier's return and the end of its bundle, nor at a WFI that parks, which ends first (spec/17 R303), or a SAFEPT that waits to
stop (spec/05 R73); 0x0B, 0x0D, 0x0E and 0x0F wait while INTRAP is set, but 0x0D and 0x0F are fatal
where they were raised in a trap handler. -/
def State.boundary (s : State) (k : CoreIx) : Option Event :=
  let c := s.core k
  let open_ := !c.inBarrier
  if c.returning || c.evt.parkedAt = some c.main.pc then none
  else if c.exch.ovrDue then some .overrun
  else
  match (if open_ then c.evt.respTraps.head? else none) with
  | some r => some (.resp r)
  | none =>
    match (if open_ && !c.intrap then c.hnd.faults.head? else none) with
    | some (cause, pc) => some (.handler cause pc)
    | none =>
      match (if !c.intrap then c.evt.peer.head? else none) with
      | some i => some (.peer i)
      | none =>
        match (if open_ && (!c.intrap || c.evt.qtoIn) then c.evt.qto else none) with
        | some (v, pc) => some (.queue v pc)
        | none =>
          if c.evt.wdogHit && (!c.intrap || c.evt.wdogIn) then some .wdog
          else if open_ && bit c.ctl.coreStatus 2 then (intCause (s.intPend c &&& c.ctl.intEn)).map .int
          else none

/-- 0x0B and 0x0F withdraw a hold in SYNC or XEND: the core leaves the exchange. -/
def Core.leaveExchange (c : Core) : Core :=
  if c.exch.parked ≠ .none then { c with exch := { c.exch with parked := .none, back := false, group := none, ovrDue := false } } else c

/-- The lowest term whose PEND bit is set. -/
def pendTerm (t : Vector Word 8) : Option (Fin 8) := (List.finRange 8).find? fun i => bit t[i] 43

/-- Cause, IMP, TRAP_PC and TRAP_VAL of an event, and the core after its source is taken. -/
def State.eventTrap (s : State) (c : Core) (e : Event) : Core × Bool × BitVec 8 × Pc × Word :=
  let pc := c.main.pc
  match e with
  | .resp r => ({ c with evt := { c.evt with respTraps := c.evt.respTraps.tail } }, true, r.cause, pc, r.val)
  | .handler cause hpc =>
    ({ c with hnd := { c.hnd with faults := c.hnd.faults.tail } }, false, 0x0E, pc,
      BitVec.ofNat 64 (hpc.toNat * 256 + cause.toNat))
  | .peer i => (({ c with evt := { c.evt with peer := c.evt.peer.tail } }.leaveExchange), false, 0x0B, pc, i.setWidth 64)
  | .queue v qpc => ({ c with evt := { c.evt with qto := none } }, false, 0x0D, qpc, v)
  | .overrun => ({ c with exch := { c.exch with ovrDue := false } }, false, 7, pc, 0)
  | .wdog => (({ c with evt := { c.evt with wdogHit := false } }.leaveExchange), false, 0x0F, pc, 0)
  | .int cause =>
    if cause == 0x12 then
      match c.evt.errQ with
      | (d, i) :: r =>
        ({ c with evt := { c.evt with errQ := r } }, false, cause, pc, BitVec.ofNat 64 (0x10000 + 64 * d.val + i))
      | [] =>
        match pendTerm c.eng.relayTerm with
        | some n =>
          ({ c with eng := { c.eng with relayTerm := c.eng.relayTerm.set n (setBits c.eng.relayTerm[n] 43 1 0) } }, false,
            cause, pc, BitVec.ofNat 64 (0x100 + n.val))
        | none => (c, false, cause, pc, 0)
    else if cause == 0x11 then (c, false, cause, pc, s.time c)
    else (c, false, cause, pc, 0)

/-- Take an event at a boundary of the main context of a core that is calm. -/
def State.takeEvent (s : State) (k : CoreIx) (e : Event) : State :=
  match s.eventTrap (s.core k) e with
  | (c, imp, cause, pc, val) => (s.setCore k (c.landAll false)).takeTrap k imp cause pc val

/-! ## Groups (spec/05 R67) -/

/-- The GMEM entry of a group that the core belongs to. -/
def Core.groupEntry (c : Core) (g : Fin 256) : Option (Fin 4) :=
  (List.finRange 4).find? fun i => bit c.ctl.gmem[i] 37 && bits c.ctl.gmem[i] 29 8 == g.val

/-- The members of a group of a core's launch, by rank. -/
def State.members (s : State) (k : CoreIx) (g : Fin 256) : List CoreIx :=
  match s.sched.launches.find? fun l => l.lid == (s.core k).slot.lid && l.st ≠ .ended with
  | some l => (l.groups.getD g.val []).map toCore
  | none => []

/-! ## Bundles -/

/-- The next bundle of the executing context, unless a branch sets another (spec/15 R224). -/
def State.setNpc (s : State) (pc : Pc) : State :=
  s.mod fun c => if s.curH then { c with hnd := { c.hnd with npc := pc } } else { c with main := { c.main with npc := pc } }

/-- Record that the context's results so far are older than a bundle that has issued: they may land from now on. -/
def ageFlights (l : List Flight) : List Flight := l.map fun fl => { fl with aged := true }

/-- A context's results are due before the bundle may act: an instruction that acts as a switch marker (spec/07 R95). -/
def State.marked (s : State) : Bool := s.cc.settled s.curH

/-- A handler may write only its banked registers (spec/07 R104). -/
def State.mayX (s : State) (i : XReg) : Bool := !s.curH || i.val < 16
def State.mayV (s : State) (i : VReg) : Bool := !s.curH || i.val < 8

/-- A new number for an operation of the device. -/
def State.fresh (s : State) : State × Nat := ({ s with nextId := s.nextId + 1 }, s.nextId)

/-- The next state of an instruction. -/
def ok (s : State) : Out := .next s

/-- A fixed-latency result in x[d]. -/
def State.putX (s : State) (d : XReg) (w : Word) : Out := if s.mayX d then ok (s.wx d w) else ok s.forbidden

/-- A fixed-latency result in f[d]; f registers belong to the main context. -/
def State.putF (s : State) (d : FReg) (w : Half) : Out := if s.curH then ok s.forbidden else ok (s.wf d w)

/-- Whether the context may put n more results in flight (spec/07 R94). -/
def State.room (s : State) (n : Nat) : Bool := (s.cc.flights s.curH).length + n ≤ 32

/-- A variable-latency result in x[d] that is known at issue: the state s' the instruction leaves. -/
def State.flyOk (s : State) (d : XReg) (w : Word) (s' : State) : Out :=
  if !s.mayX d then ok s.forbidden else if s.room 1 then ok (s'.flyX d w) else ok s.hold

end Sys2Proof.Machine
end

