-- ==== Sys2Proof/Machine/SfuMath.lean ====
section
/-!
DEFINITION. The functions of the SFU (spec/12 R181): the exact function rounded to FP32, computed in integers scaled by
2^512, and a free choice among the FP32 values that lie within the bound of R181 around it (log 13).
-/

namespace Sys2Proof.Machine

/-- ln 2 and 1/√(2π), times 2^512. -/
def ln2Fix : Int := 9293584264128987901384440660653081117630633404975079641076009770578364573633075645167623918067512986930843040596952636663673675798576024949780480621393957
def invSqrt2Pi : Int := 5348941470755712198646750007682177443835115376392592444138995792460249438482006689649181438381986101946420819632906916886095183257957789698649401813142783

def fixOne : Int := 2 ^ 512

/-- Product of two scaled numbers. -/
def fixMul (a b : Int) : Int := a * b / fixOne

/-- mag · 2^exp with its sign, scaled. -/
def fixOf (neg : Bool) (mag : Nat) (exp : Int) : Int :=
  let m : Int := if exp + 512 ≥ 0 then mag * 2 ^ (exp + 512).toNat else mag / 2 ^ (-(exp + 512)).toNat
  if neg then -m else m

/-- Sum of the next n terms of the exponential series, t being term i - 1. -/
def expSeries (r : Int) : Nat → Int → Int → Int
  | 0, _, _ => 0
  | n + 1, i, t => let t := fixMul t r / i; t + expSeries r n (i + 1) t

/-- e^x for a scaled x as a scaled mantissa and a power of two. -/
def expFix (x : Int) : Int × Int :=
  let k := (2 * x + ln2Fix) / (2 * ln2Fix)
  (fixOne + expSeries (x - k * ln2Fix) 90 1 fixOne, k)

/-- e^x scaled; 0 where it is below 2^-512. -/
def expScaled (x : Int) : Int :=
  let (m, k) := expFix x
  if k ≥ 0 then m * 2 ^ k.toNat else m / 2 ^ (-k).toNat

/-- Sum of z^(2i+1) / (2i+1) over the next n terms, p being the power. -/
def atanhSeries (z2 : Int) : Nat → Int → Int → Int
  | 0, _, _ => 0
  | n + 1, i, p => p / i + atanhSeries z2 n (i + 2) (fixMul p z2)

/-- The natural logarithm of mag · 2^exp, mag > 0, scaled. -/
def lnScaled (mag : Nat) (exp : Int) : Int :=
  let l := Nat.log2 mag
  let y : Int := mag * 2 ^ (512 - l)
  let (y, e) := if 2 * y ≥ 3 * fixOne then (y / 2, (l : Int) + 1) else (y, (l : Int))
  let z := (y - fixOne) * fixOne / (y + fixOne)
  (e + exp) * ln2Fix + 2 * atanhSeries (fixMul z z) 120 1 z

/-- Sum of x^(2i+1) / (2i+1)!! over the next n terms, t being the term before division by i. -/
def phiSeries (x2 : Int) : Nat → Int → Int → Int
  | 0, _, _ => 0
  | n + 1, i, t => let t := t / i; t + phiSeries x2 n (i + 2) (fixMul t x2)

/-- Φ(x) for a scaled x of magnitude at most 16. -/
def phiScaled (x : Int) : Int :=
  let a := if x < 0 then -x else x
  let dens := fixMul invSqrt2Pi (expScaled (-(fixMul a a) / 2))
  let up := fixOne / 2 + fixMul dens (phiSeries (fixMul a a) 900 1 a)
  if x < 0 then fixOne - up else up

/-- The value of a scaled number that is not exact. -/
def valOfFix (x : Int) : Val := .fin (x < 0) x.natAbs (-512) true

/-! ## Choosing within the bound -/

/-- FP32 codes in numeric order: the code of a nonnegative value, less the magnitude code of a negative one. -/
def ordKey (c : Nat) : Int := if c < 2 ^ 31 then c else -((c - 2 ^ 31 : Nat) : Int)

def ofKey (neg : Bool) (k : Int) : Nat :=
  if k < 0 then 2 ^ 31 + k.natAbs else if k = 0 && neg then 2 ^ 31 else k.natAbs

/-- The largest key of a finite value. -/
def maxKey : Int := 0x7F7FFFFF

/-- The keys within an absolute bound around an FP32 code. -/
def absKeys (c : Nat) (bound : Val) : Int × Int :=
  let v := fpDecode fp32 c
  (ordKey (toFmt (addVal .rne v bound.neg).1 fp32 .rup false).1, ordKey (toFmt (addVal .rne v bound).1 fp32 .rdn false).1)

/-- A free choice among the finite FP32 values within `ulps` units in the last place of the code c, or within an absolute
bound where one is given. -/
def within (fn : Nat) (x : Half) (c : Nat) (ulps : Int) (bound : Option Val) : Nat :=
  let k := ordKey c
  let (lo, hi) := match bound with
    | none => (k - ulps, k + ulps)
    | some b => let (l, h) := absKeys c b; (min l (k - ulps), max h (k + ulps))
  let lo := max lo (-maxKey)
  let hi := min hi maxKey
  ofKey (c / 2 ^ 31 == 1) (lo + ((Config.sfuPick fn x % ((hi - lo).toNat + 1) : Nat) : Int))

/-! ## The functions -/

def fpNan : Nat := 0x7FC00000
def fpInf : Nat := 0x7F800000

/-- 2^-n as a value. -/
def pow2neg (n : Int) : Val := .fin false 1 (-n) false

/-- Whether mag · 2^exp exceeds the integer n in magnitude. -/
def exceeds (mag : Nat) (exp : Int) (n : Nat) : Bool :=
  if exp ≥ 0 then mag * 2 ^ exp.toNat > n else mag > n * 2 ^ (-exp).toNat

/-- The exact functions of a finite operand (-1)^s · m · 2^e, rounded to FP32; `x` is its code. -/
def expCode (s : Bool) (m : Nat) (e : Int) : Nat :=
  if s && exceeds m e 200 then 0
  else
    let (r, k) := expFix (fixOf s m e)
    roundFp32 (.fin false r.natAbs (k - 512) true)

def logCode (m : Nat) (e : Int) : Nat := roundFp32 (valOfFix (lnScaled m e))

def rcpCode (s : Bool) (m : Nat) (e : Int) : Nat := roundFp32 (divVal (.fin false 1 0 false) (.fin s m e false)).1

def rsqrtCode (m : Nat) (e : Int) : Nat := roundFp32 (sqrtVal (divVal (.fin false 1 0 false) (.fin false m e false)).1).1

def tanhCode (x : Half) (s : Bool) (m : Nat) (e : Int) : Nat :=
  if m = 0 then x.toNat
  else if exceeds m e 64 then (if s then 0xBF800000 else 0x3F800000)
  else
    let t := expScaled (2 * fixOf s m e)
    roundFp32 (valOfFix ((t - fixOne) * fixOne / (t + fixOne)))

def sigmCode (s : Bool) (m : Nat) (e : Int) : Nat :=
  if exceeds m e 200 then (if s then 0 else 0x3F800000)
  else
    let t := expScaled (fixOf true m e)
    roundFp32 (valOfFix ((if s then t else fixOne) * fixOne / (fixOne + t)))

def geluCode (x : Half) (s : Bool) (m : Nat) (e : Int) : Nat :=
  if m = 0 then x.toNat
  else if exceeds m e 16 then (if s then 2 ^ 31 else x.toNat)
  else
    let p := phiScaled (fixOf s m e)
    roundFp32 (.fin s (m * p.natAbs) (e - 512) true)

def sfuExp (x : Half) : Nat × FpFlags :=
  match fpDecode fp32 x.toNat with
  | .nan => (fpNan, .none)
  | .inf s => (if s then 0 else fpInf, .none)
  | .fin s m e _ =>
    if !s && 0x42B17218 ≤ x.toNat then (fpInf, .of)
    else (within 0 x (expCode s m e) 2 none, .none)

def sfuLog (x : Half) : Nat × FpFlags :=
  match fpDecode fp32 x.toNat with
  | .nan => (fpNan, .none)
  | .inf s => if s then (fpNan, .nv) else (fpInf, .none)
  | .fin s m e _ =>
    if m = 0 then (0xFF800000, .dz)
    else if s then (fpNan, .nv)
    else
      let near := 0x3F000000 ≤ x.toNat && x.toNat ≤ 0x40000000
      (within 1 x (logCode m e) 2 (if near then some (pow2neg 22) else none), .none)

def sfuRcp (x : Half) : Nat × FpFlags :=
  match fpDecode fp32 x.toNat with
  | .nan => (fpNan, .none)
  | .inf s => (if s then 2 ^ 31 else 0, .none)
  | .fin s m e _ =>
    let inf := if s then 0xFF800000 else fpInf
    if m = 0 then (inf, .dz)
    else
      let r := rcpCode s m e
      if r % 2 ^ 31 = fpInf then (inf, .of) else (within 2 x r 1 none, .none)

def sfuRsqrt (x : Half) : Nat × FpFlags :=
  match fpDecode fp32 x.toNat with
  | .nan => (fpNan, .none)
  | .inf s => if s then (fpNan, .nv) else (within 3 x 0 1 none, .none)
  | .fin s m e _ =>
    if m = 0 then (if s then 0xFF800000 else fpInf, .dz)
    else if s then (fpNan, .nv)
    else (within 3 x (rsqrtCode m e) 1 none, .none)

def sfuTanh (x : Half) : Nat × FpFlags :=
  match fpDecode fp32 x.toNat with
  | .nan => (fpNan, .none)
  | .inf s => (if s then 0xBF800000 else 0x3F800000, .none)
  | .fin s m e _ =>
    let small := x.toNat % 2 ^ 31 < 0x39800000
    (within 4 x (tanhCode x s m e) 2 (if small then some (pow2neg 24) else none), .none)

def sfuSigm (x : Half) : Nat × FpFlags :=
  match fpDecode fp32 x.toNat with
  | .nan => (fpNan, .none)
  | .inf s => (if s then 0 else 0x3F800000, .none)
  | .fin s m e _ => (within 5 x (sigmCode s m e) 2 none, .none)

def sfuGelu (x : Half) : Nat × FpFlags :=
  match fpDecode fp32 x.toNat with
  | .nan => (fpNan, .none)
  | .inf s => (if s then 2 ^ 31 else fpInf, .none)
  | .fin s m e _ =>
    let small := x.toNat % 2 ^ 31 < 0x3F800000
    (within 6 x (geluCode x s m e) 4 (if small then some (pow2neg 22) else none), .none)

end Sys2Proof.Machine
end

