-- ==== Sys2Proof/Machine/Float.lean ====
section
/-!
DEFINITION. Scalar floating point (spec/16 R252 to R255) and the scalar forms of the SFU functions (spec/16 R267). Flags are
ORed into FPCTL at issue.
-/

namespace Sys2Proof.Machine

def Core.fpctl (c : Core) : Word := c.ctl.fpctl

/-- OR flags into FPCTL (spec/12 R175). -/
def Core.orFp (c : Core) (fl : FpFlags) : Core := { c with ctl := { c.ctl with fpctl := orFlags c.ctl.fpctl fl } }

def State.orFp (s : State) (fl : FpFlags) : State := s.mod (·.orFp fl)

/-- f[i] as a number. -/
def State.fn (s : State) (i : FReg) : Nat := (s.rf i).toNat

def halfOf (n : Nat) : Half := BitVec.ofNat 32 n
def wordOf (n : Nat) : Word := BitVec.ofNat 64 n

/-- An FP32 result with its flags in f[d]. -/
def State.fres (s : State) (d : FReg) (r : Nat × FpFlags) : Out :=
  if s.curH then ok s.forbidden else ok ((s.orFp r.2).wf d (halfOf r.1))

/-- A result with its flags in x[d]. -/
def State.xres (s : State) (d : XReg) (w : Word) (fl : FpFlags) : Out :=
  if s.mayX d then ok ((s.orFp fl).wx d w) else ok s.forbidden

/-- FPCTL.RM under an RM field, and FPCTL.SATM. -/
def State.rm (s : State) (rm : Rm) : RMode := resolveRm rm s.cc.fpctl
def State.satm (s : State) : Bool := fpctlSatm s.cc.fpctl

/-! ## R253 -/

def execFadd (d a b : FReg) (rm : Rm) (s : State) : Out := s.fres d (fpAdd fp32 (s.rm rm) s.satm (s.fn a) (s.fn b))
def execFsub (d a b : FReg) (rm : Rm) (s : State) : Out := s.fres d (fpSub fp32 (s.rm rm) s.satm (s.fn a) (s.fn b))
def execFmul (d a b : FReg) (rm : Rm) (s : State) : Out := s.fres d (fpMul fp32 (s.rm rm) s.satm (s.fn a) (s.fn b))
def execFdiv (d a b : FReg) (rm : Rm) (s : State) : Out := s.fres d (fpDiv fp32 (s.rm rm) s.satm (s.fn a) (s.fn b))
def execFsqrt (d a : FReg) (rm : Rm) (s : State) : Out := s.fres d (fpSqrt fp32 (s.rm rm) s.satm (s.fn a))
def execFmin (d a b : FReg) (s : State) : Out := s.putF d (halfOf (fpMin fp32 (s.fn a) (s.fn b)))
def execFmax (d a b : FReg) (s : State) : Out := s.putF d (halfOf (fpMax fp32 (s.fn a) (s.fn b)))
def execFeq (d : XReg) (a b : FReg) (s : State) : Out := s.putX d (if fpEq fp32 (s.fn a) (s.fn b) then 1 else 0)
def execFlt (d : XReg) (a b : FReg) (s : State) : Out :=
  let r := fpLt fp32 (s.fn a) (s.fn b)
  s.xres d (if r.1 then 1 else 0) r.2
def execFle (d : XReg) (a b : FReg) (s : State) : Out :=
  let r := fpLe fp32 (s.fn a) (s.fn b)
  s.xres d (if r.1 then 1 else 0) r.2
def execFclass (d : XReg) (a : FReg) (s : State) : Out := s.putX d (wordOf (2 ^ fclassBit (s.fn a)))
def execFmvX (d : XReg) (a : FReg) (s : State) : Out := s.putX d ((s.rf a).setWidth 64)
def execFmvF (d : FReg) (a : XReg) (s : State) : Out := s.putF d ((s.rx a).setWidth 32)
def execFneg (d a : FReg) (s : State) : Out := s.putF d (halfOf (fpNeg fp32 (s.fn a)))
def execFabs (d a : FReg) (s : State) : Out := s.putF d (halfOf (fpAbs fp32 (s.fn a)))

/-! ## R254: rounded once -/

def State.fma (s : State) (negP negC : Bool) (d a b c : FReg) (rm : Rm) : Out :=
  s.fres d (fpFma fp32 (s.rm rm) s.satm negP negC (s.fn a) (s.fn b) (s.fn c))

def execFmadd (d a b c : FReg) (rm : Rm) (s : State) : Out := s.fma false false d a b c rm
def execFmsub (d a b c : FReg) (rm : Rm) (s : State) : Out := s.fma false true d a b c rm
def execFnmadd (d a b c : FReg) (rm : Rm) (s : State) : Out := s.fma true true d a b c rm
def execFnmsub (d a b c : FReg) (rm : Rm) (s : State) : Out := s.fma true false d a b c rm

/-! ## R255 -/

/-- The FP32 code of the low bits of a register in a format: integers are rounded without saturation, the others convert
exactly. -/
def toFp32 (fmt : Fmt) (rm : RMode) (w : Word) : Nat × FpFlags :=
  match fmtKind fmt with
  | .int n => toFmt (valOfInt (sgn n (w.toNat % 2 ^ n))) fp32 rm false
  | .flt f => (roundFp32 (fpDecode f (w.toNat % 2 ^ (8 * fmt.bytes))), .none)

/-- The register content of an FP32 value in a format: integers saturate and are sign-extended, the others are
zero-extended. -/
def ofFp32 (fmt : Fmt) (rm : RMode) (sat : Bool) (a : Nat) : Word × FpFlags :=
  match fmtKind fmt with
  | .int n =>
    let r := toInt (fpDecode fp32 a) n rm
    (BitVec.ofInt 64 r.1, r.2)
  | .flt f =>
    let r := toFmt (fpDecode fp32 a) f rm sat
    (wordOf r.1, r.2)

/-- DIR 0; the conversion saturates nothing, so SM has no part in it. -/
def execFcvtf (d : FReg) (a : XReg) (fmt : Fmt) (_sm : Sm) (rm : Rm) (s : State) : Out := s.fres d (toFp32 fmt (s.rm rm) (s.rx a))

/-- DIR 1. -/
def execFcvtx (d : XReg) (a : FReg) (fmt : Fmt) (sm : Sm) (rm : Rm) (s : State) : Out :=
  let r := ofFp32 fmt (s.rm rm) (resolveSm sm s.cc.fpctl) (s.fn a)
  s.xres d r.1 r.2

/-! ## The SFU, scalar forms (R267): variable-latency results in f registers -/

def State.sfu (s : State) (d : FReg) (r : Nat × FpFlags) : Out :=
  if s.curH then ok s.forbidden
  else if s.room 1 then ok ((s.orFp r.2).fly (.f d) [wordOf r.1] false) else ok s.hold

def execExp (d a : FReg) (s : State) : Out := s.sfu d (sfuExp (s.rf a))
def execLog (d a : FReg) (s : State) : Out := s.sfu d (sfuLog (s.rf a))
def execRcp (d a : FReg) (s : State) : Out := s.sfu d (sfuRcp (s.rf a))
def execRsqrt (d a : FReg) (s : State) : Out := s.sfu d (sfuRsqrt (s.rf a))
def execTanh (d a : FReg) (s : State) : Out := s.sfu d (sfuTanh (s.rf a))
def execSigm (d a : FReg) (s : State) : Out := s.sfu d (sfuSigm (s.rf a))
def execGelu (d a : FReg) (s : State) : Out := s.sfu d (sfuGelu (s.rf a))

end Sys2Proof.Machine
end

