-- ==== Sys2Proof/Machine/VecOps.lean ====
section
/-!
DEFINITION. What the vector instructions compute when the sequencer executes them (spec/16 R249 to R267): functions of a core
and of the context that issued the entry.
-/

namespace Sys2Proof.Machine

/-! ## Integer elements (R256) -/

/-- Clamp to a signed n-bit integer; the second result says whether it was clamped. -/
def clampS (n : Nat) (i : Int) : Nat × Bool :=
  if i < -(2 ^ (n - 1)) then (2 ^ (n - 1), true)
  else if i ≥ 2 ^ (n - 1) then (2 ^ (n - 1) - 1, true)
  else (wrap n i, false)

/-- Elementwise integer operation: g takes the width in bits and two elements. -/
def Core.vInt (c : Core) (h : Bool) (d a b : VReg) (m : MReg) (et : IntEt) (g : Nat → Nat → Nat → Nat) : Core :=
  let e := IntEt.bytes et
  let va := c.vView h a
  let vb := c.vView h b
  c.setV h d (mapElems c m e (c.vView h d) fun i => g (8 * e) (elem va e i) (elem vb e i))

/-- VADDS and VSUBS: FPCTL.SAT when an active element is clamped. -/
def Core.vSat (c : Core) (h : Bool) (d a b : VReg) (m : MReg) (et : IntEt) (g : Int → Int → Int) : Core :=
  let e := IntEt.bytes et
  let va := c.vView h a
  let vb := c.vView h b
  let r (i : Nat) : Nat × Bool := clampS (8 * e) (g (sgn (8 * e) (elem va e i)) (sgn (8 * e) (elem vb e i)))
  let fl := flagsOf c m e (fun i => if (r i).2 then .sat else .none) (64 / e)
  (c.setV h d (mapElems c m e (c.vView h d) fun i => (r i).1)).orFp fl

def vShl (n x y : Nat) : Nat := x * 2 ^ (y % n)
def vShr (n x y : Nat) : Nat := x / 2 ^ (y % n)
def vShra (n x y : Nat) : Nat := wrap n (sgn n x / 2 ^ (y % n))
def vMulh (n x y : Nat) : Nat := wrap n (sgn n x * sgn n y / 2 ^ n)

/-! ## Floating-point elements (R257, R258) -/

/-- Elementwise floating-point operation on two elements. -/
def Core.vFp2 (c : Core) (h : Bool) (d a b : VReg) (m : MReg) (et : FpEt)
    (g : FpFmt → RMode → Bool → Nat → Nat → Nat × FpFlags) : Core :=
  let e := FpEt.bytes et
  let va := c.vView h a
  let vb := c.vView h b
  let r (i : Nat) := g (fpEtFmt et) (fpctlRm c.fpctl) (fpctlSatm c.fpctl) (elem va e i) (elem vb e i)
  let fl := flagsOf c m e (fun i => (r i).2) (64 / e)
  (c.setV h d (mapElems c m e (c.vView h d) fun i => (r i).1)).orFp fl

/-- The fused forms; the addend is the destination's element as read. -/
def Core.vFma (c : Core) (h : Bool) (negP negC : Bool) (d a b : VReg) (m : MReg) (et : FpEt) (rm : Rm) : Core :=
  let e := FpEt.bytes et
  let va := c.vView h a
  let vb := c.vView h b
  let vd := c.vView h d
  let r (i : Nat) := fpFma (fpEtFmt et) (resolveRm rm c.fpctl) (fpctlSatm c.fpctl) negP negC (elem va e i) (elem vb e i)
    (elem vd e i)
  let fl := flagsOf c m e (fun i => (r i).2) (64 / e)
  (c.setV h d (mapElems c m e vd fun i => (r i).1)).orFp fl

/-! ## Comparison, selection, permutation, broadcast (R259, R260, R262, R263) -/

def ccInt (cc : Cc) (n x y : Nat) : Bool :=
  match cc with
  | .eq => x == y
  | .ne => x != y
  | .lt => sgn n x < sgn n y
  | .le => sgn n x ≤ sgn n y
  | .gt => sgn n x > sgn n y
  | .ge => sgn n x ≥ sgn n y
  | .ltu => x < y
  | .leu => x ≤ y
  | .gtu => x > y
  | .geu => x ≥ y

def ccFp (cc : Cc) (f : FpFmt) (x y : Nat) : Bool × FpFlags :=
  match cc with
  | .eq => (fpEq f x y, .none)
  | .ne => (!fpEq f x y, .none)
  | .lt => fpLt f x y
  | .le => fpLe f x y
  | .gt => fpLt f y x
  | .ge => fpLe f y x
  | _ => (false, .none)

def ccElem (cc : Cc) (et : Et) (x y : Nat) : Bool × FpFlags :=
  match et with
  | .int t => (ccInt cc (8 * IntEt.bytes t) x y, .none)
  | .fp t => ccFp cc (fpEtFmt t) x y

/-- The 64 mask bits from a function of the byte lane. -/
def maskOf (g : Nat → Bool) : Word := BitVec.ofNat 64 (gather 1 (fun j => (g j).toNat) 64)

def Core.vCmp (c : Core) (h : Bool) (d : MReg) (a b : VReg) (m : MReg) (cc : Cc) (et : Et) : Core :=
  let e := Et.bytes et
  let va := c.vView h a
  let vb := c.vView h b
  let r (i : Nat) := ccElem cc et (elem va e i) (elem vb e i)
  let old := c.mask d
  let fl := flagsOf c m e (fun i => (r i).2) (64 / e)
  (c.setMask d (maskOf fun j => if c.active m e (j / e) then (r (j / e)).1 else old.getLsbD j)).orFp fl

def Core.vSel (c : Core) (h : Bool) (d a b : VReg) (m : MReg) (et : Et) : Core :=
  let e := Et.bytes et
  let va := c.vView h a
  let vb := c.vView h b
  let vd := c.vView h d
  c.setV h d (vecOf e fun i => if i * e < c.vl then (if c.active m e i then elem va e i else elem vb e i) else elem vd e i)

def Core.vPerm (c : Core) (h : Bool) (d a b : VReg) (m : MReg) (et : Et) : Core :=
  let e := Et.bytes et
  let va := c.vView h a
  let vb := c.vView h b
  c.setV h d (mapElems c m e (c.vView h d) fun i => elem va e (elem vb e i % (64 / e)))

/-- One value in every active element. -/
def Core.vFill (c : Core) (h : Bool) (d : VReg) (m : MReg) (e : Nat) (v : Nat) : Core :=
  c.setV h d (mapElems c m e (c.vView h d) fun _ => v)

/-- FN 1: an FP32 value in the element format, rounded per active element. -/
def Core.vBcastF (c : Core) (h : Bool) (d : VReg) (w : Word) (m : MReg) (et : FpEt) : Core :=
  let e := FpEt.bytes et
  let r : Nat × FpFlags :=
    match et with
    | .f32 => (w.toNat % 2 ^ 32, .none)
    | _ => toFmt (fpDecode fp32 (w.toNat % 2 ^ 32)) (fpEtFmt et) (fpctlRm c.fpctl) (fpctlSatm c.fpctl)
  (c.vFill h d m e r.1).orFp (flagsOf c m e (fun _ => r.2) (64 / e))

def Core.vBcastV (c : Core) (h : Bool) (d a : VReg) (w : Word) (m : MReg) (et : Et) : Core :=
  let e := Et.bytes et
  c.vFill h d m e (elem (c.vView h a) e (w.toNat % (64 / e)))

/-! ## Reductions (R261) -/

/-- The active elements in ascending index. -/
def activeElems (c : Core) (v : Vec) (m : MReg) (e : Nat) : List Nat :=
  ((List.range (64 / e)).filter (c.active m e)).map (elem v e)

def intRed (op : IntRed) (n : Nat) (l : List Nat) : Word :=
  let s (x : Nat) : Word := BitVec.ofInt 64 (sgn n x)
  let u (x : Nat) : Word := BitVec.ofNat 64 x
  match op with
  | .sum => l.foldl (fun acc x => acc + s x) 0
  | .min => l.foldl (fun acc x => if (s x).slt acc then s x else acc) (s (2 ^ (n - 1) - 1))
  | .max => l.foldl (fun acc x => if acc.slt (s x) then s x else acc) (s (2 ^ (n - 1)))
  | .minu => l.foldl (fun acc x => if (u x).ult acc then u x else acc) (u (2 ^ n - 1))
  | .maxu => l.foldl (fun acc x => if acc.ult (u x) then u x else acc) 0
  | .and => l.foldl (fun acc x => acc &&& u x) (u (2 ^ n - 1))
  | .or => l.foldl (fun acc x => acc ||| u x) 0
  | .xor => l.foldl (fun acc x => acc ^^^ u x) 0

/-- An element as an FP32 code, widened exactly. -/
def widen (et : FpEt) (x : Nat) : Nat := roundFp32 (fpDecode (fpEtFmt et) x)

/-- The sum in ascending index, each addition rounded; its flags. -/
def fsumFrom (rm : RMode) (sat : Bool) (acc : Nat) (fl : FpFlags) : List Nat → Nat × FpFlags
  | [] => (acc, fl)
  | x :: r => let (a, f) := fpAdd fp32 rm sat acc x; fsumFrom rm sat a (fl ||| f) r

def fpRed (c : Core) (op : FpRed) (l : List Nat) : Nat × FpFlags :=
  match op, l with
  | .fsum, [] => (0, .none)
  | .fsum, x :: r => fsumFrom (fpctlRm c.fpctl) (fpctlSatm c.fpctl) x .none r
  | .fmin, [] => (fpInf, .none)
  | .fmin, x :: r => (r.foldl (fpMin fp32) x, .none)
  | .fmax, [] => (0xFF800000, .none)
  | .fmax, x :: r => (r.foldl (fpMax fp32) x, .none)
  | .fmaxabs, l =>
    if l.any fun x => valNan (fpDecode fp32 x) then (fpNan, .none)
    else (l.foldl (fun acc x => max acc (x % 2 ^ 31)) 0, .none)

/-- The result of a reduction and the core with its flags. -/
def Core.vRed (c : Core) (h : Bool) (form : RedForm) (a : VReg) (m : MReg) : Core × Word :=
  match form with
  | .int _ op et => (c, intRed op (8 * IntEt.bytes et) (activeElems c (c.vView h a) m (IntEt.bytes et)))
  | .fp _ op et =>
    let r := fpRed c op ((activeElems c (c.vView h a) m (FpEt.bytes et)).map (widen et))
    (c.orFp r.2, BitVec.ofNat 64 r.1)

/-! ## Conversion and quantization (R264, R265) -/

def cvtElem (t s : Fmt) (rm : RMode) (sat : Bool) (x : Nat) : Nat × FpFlags :=
  match fmtKind s, fmtKind t with
  | .flt fs, .flt ft => toFmt (fpDecode fs x) ft rm sat
  | .flt fs, .int n =>
    let r := toInt (fpDecode fs x) n rm
    (wrap n r.1, r.2)
  | .int n, .flt ft => toFmt (valOfInt (sgn n x)) ft rm sat
  | .int ns, .int nt =>
    let r := clampS nt (sgn ns x)
    (r.1, if r.2 then .nv else .none)

/-- The flags of elements 0 to n - 1 together. -/
def allFlags (g : Nat → FpFlags) : Nat → FpFlags
  | 0 => .none
  | i + 1 => allFlags g i ||| g i

def Core.vCvt (c : Core) (h : Bool) (d a : VReg) (t s : Fmt) (part : Nat) : Core :=
  let et := t.bytes
  let es := s.bytes
  let va := c.vView h a
  let vd := c.vView h d
  let cv (x : Nat) := cvtElem t s (fpctlRm c.fpctl) (fpctlSatm c.fpctl) x
  if es < et then
    let n := 64 / et
    let src (i : Nat) := elem va es (part * n + i)
    (c.setV h d (vecOf et fun i => (cv (src i)).1)).orFp (allFlags (fun i => (cv (src i)).2) n)
  else
    let n := 64 / es
    let src (i : Nat) := elem va es i
    let v := vecOf et fun j =>
      if part * n ≤ j && j < part * n + n then (cv (src (j - part * n))).1 else elem vd et j
    (c.setV h d v).orFp (allFlags (fun i => (cv (src i)).2) n)

/-- The largest magnitude of a list of FP32 values, a NaN if one is. -/
def amaxOf (l : List Nat) : Val :=
  if l.any fun x => valNan (fpDecode fp32 x) then .nan
  else fpDecode fp32 (l.foldl (fun acc x => max acc (x % 2 ^ 31)) 0)

/-- VQUANT: the core with the codes and flags, and the scale E. -/
def Core.vQuant (c : Core) (h : Bool) (d a : VReg) (t : Fmt) : Core × Word :=
  let va := c.vView h a
  let vb := c.vView h (a + 1)
  let x (k : Nat) := if k < 16 then elem va 4 k else elem vb 4 (k - 16)
  let sat : Bool := match t with | .mxf4 => true | .int8 => true | _ => fpctlSatm c.fpctl
  let e := blockScale (amaxOf ((List.range 32).map x)) t sat
  let y (k : Nat) : Val := if e = 0xFF then .fin false 0 0 false else scaleVal (fpDecode fp32 (x k)) (127 - e)
  let q (k : Nat) : Nat × FpFlags :=
    match fmtKind t with
    | .int n =>
      let r := toInt (y k) n (fpctlRm c.fpctl)
      (wrap n r.1, r.2)
    | .flt f => toFmt (y k) f (fpctlRm c.fpctl) sat
  let old := c.vView h d
  let v : Vec :=
    match t with
    | .mxf4 => vecOf 1 fun k => if k < 16 then (q (2 * k)).1 % 16 + (q (2 * k + 1)).1 % 16 * 16 else elem old 1 k
    | _ => vecOf 1 fun k => if k < 32 then (q k).1 else elem old 1 k
  ((c.setV h d v).orFp (allFlags (fun k => (q k).2) 32), BitVec.ofNat 64 e)

/-! ## The SFU, vector forms (R267) -/

def Core.vSfu (c : Core) (h : Bool) (d a : VReg) (m : MReg) (g : Half → Nat × FpFlags) : Core :=
  let va := c.vView h a
  let r (i : Nat) := g (halfOf (elem va 4 i))
  let fl := flagsOf c m 4 (fun i => (r i).2) 16
  (c.setV h d (mapElems c m 4 (c.vView h d) fun i => (r i).1)).orFp fl

end Sys2Proof.Machine
end

