-- ==== Sys2Proof/Machine/LocalOps.lean ====
section
/-!
DEFINITION. A core's own buffers: scalar local accesses (spec/15 R228, R229, spec/10 R149, R150), vector accesses as the
sequencer performs them (spec/15 R230, R231), stream ports (spec/07 R101, spec/16 R251), and the store to the matrix-queue
address (spec/14 R212, R215, spec/17 R271).
-/

namespace Sys2Proof.Machine

/-! ## The register an entry writes -/

/-- The register an entry writes. -/
def vDest : Instr → Option VReg
  | .vadd d _ _ _ _ | .vsub d _ _ _ _ | .vmul d _ _ _ _ | .vmulh d _ _ _ _ | .vmin d _ _ _ _ | .vmax d _ _ _ _
  | .vminu d _ _ _ _ | .vmaxu d _ _ _ _ | .vand d _ _ _ _ | .vor d _ _ _ _ | .vxor d _ _ _ _ | .vsll d _ _ _ _
  | .vsrl d _ _ _ _ | .vsra d _ _ _ _ | .vadds d _ _ _ _ | .vsubs d _ _ _ _ => some d
  | .vfadd d _ _ _ _ | .vfsub d _ _ _ _ | .vfmul d _ _ _ _ | .vfdiv d _ _ _ _ | .vfmin d _ _ _ _
  | .vfmax d _ _ _ _ => some d
  | .vabs d _ _ _ | .vneg d _ _ _ => some d
  | .vfsqrt d _ _ _ | .vfabs d _ _ _ | .vfneg d _ _ _ => some d
  | .vfmadd d _ _ _ _ _ | .vfmsub d _ _ _ _ _ | .vfnmadd d _ _ _ _ _ | .vfnmsub d _ _ _ _ _ => some d
  | .vsel d _ _ _ _ | .vperm d _ _ _ _ => some d
  | .vbcastX d _ _ _ => some d
  | .vbcastF d _ _ _ => some d
  | .vbcastV d _ _ _ _ => some d
  | .vcvt d _ _ _ _ => some d
  | .vquant d _ _ _ => some d
  | .vexp d _ _ | .vlog d _ _ | .vrcp d _ _ | .vrsqrt d _ _ | .vtanh d _ _ | .vsigm d _ _ | .vgelu d _ _ => some d
  | .vld v _ _ _ _ => some v
  | .vlds v _ _ _ _ _ => some v
  | .vldx v _ _ _ _ _ => some v
  | .nqrecv v _ => some v
  | .wlpop _ v => some v
  | _ => none

/-! ## Scalar accesses -/

/-- Buffered writes of a core's output ports, oldest first: each port gives its own in order, the lowest number comes next. -/
def Core.portWrites (c : Core) : List PortWrite := (c.seq.ports.toList.map (·.outq)).flatten

/-- The oldest of them. -/
def oldestWrite : List PortWrite → Option PortWrite
  | [] => none
  | w :: r => match oldestWrite r with | some v => if v.id < w.id then some v else some w | none => some w

/-- A buffered write leaves its port. -/
def Core.dropWrite (c : Core) (w : PortWrite) : Core :=
  { c with seq := { c.seq with ports := c.seq.ports.map fun p => { p with outq := p.outq.filter (·.id ≠ w.id) } } }

/-- A vector access, a port or the matrix unit of a core meets an uncorrectable word: it is answered with 0x4, with its log entry and its
response (spec/06 R89; log 99). -/
def State.badEntry (s : State) (k : CoreIx) (hpc : Option Pc) (a : Nat) : State :=
  let sys := sysOf s.own a
  (s.logViolation (s.logDie 4 sys (dieOf k.val)) 4 s.own sys k.val 0).respondTo k hpc (causeOf 4) (sys.setWidth 64)

/-- The oldest buffered write is performed (spec/07 R101, spec/10 R150). -/
def State.portPerform (s : State) (k : CoreIx) : State :=
  match oldestWrite (s.core k).portWrites with
  | none => s
  | some w =>
    let s := s.modCore k (·.dropWrite w)
    if s.badAt w.addr 64 then s.badEntry k none w.addr else (s.correct w.addr 64).store w.addr 64 w.data.toNat

/-- Every buffered write is performed. -/
def State.drainPorts (s : State) (k : CoreIx) : State :=
  (List.range (s.core k).portWrites.length).foldl (fun s _ => s.portPerform k) s

/-- Requests of a core to its own window in class .ord, or local, issued before operation `mark`, that have not arrived: a later access
of the core to its own home comes after them (spec/10 R149, R158 note 1). -/
def State.ownPending (s : State) (k : CoreIx) (mark : Nat) : List Req :=
  s.net.filter fun r => r.phase = .sent && r.id < mark && r.src.coreOf = k && r.src.dev s.own == s.own &&
    (r.loc || (r.cls = .ord && !r.reg && devOf r.sys == s.own && homeOf (physOf r.sys) = .core k.val))

/-- They arrive, in issue order, after what the output ports hold. -/
def State.flushOwn (s : State) (k : CoreIx) (mark : Nat) : State :=
  (s.ownPending k mark).foldl (fun s r => match r.op with | .acc kind => s.arrive r kind | _ => s) (s.drainPorts k)

def portReg (n : Fin 4) : VReg := ⟨28 + n.val, by omega⟩

/-- Whether a register is bound to an output port. -/
def Core.boundOut (c : Core) (v : VReg) : Bool :=
  (List.finRange 4).any fun n => bit c.seq.ports[n].cfg 63 && bit c.seq.ports[n].cfg 62 && v = portReg n


/-- Whether an entry moves bytes between a register and the core's buffers. -/
def isMove : Instr → Bool
  | .vld _ _ _ _ _ => true
  | .vst _ _ _ _ _ => true
  | .vlds _ _ _ _ _ _ => true
  | .vsts _ _ _ _ _ _ => true
  | .vldx _ _ _ _ _ _ => true
  | .vstx _ _ _ _ _ _ => true
  | _ => false

/-- Whether an entry of the sequencer accesses the core's buffers: vector loads and stores, and writes of an output port. -/
def Core.entryLocal (c : Core) (e : SeqEntry) : Bool :=
  isMove e.ins || (match vDest e.ins with | some d => c.boundOut d | none => false)

/-- The entries of a core's sequencer, those of a block among them. -/
def SeqState.entries (q : SeqState) : List SeqEntry :=
  q.queue ++ (match q.loop with | some l => l.body | none => [])

/-- Whether a local access has to stand behind the sequencer (spec/10 R150). -/
def State.behindSeq (s : State) : Bool := s.cc.seq.entries.any s.cc.entryLocal

/-- The number of the first operation of the core that still has to access its buffers through the sequencer. -/
def State.localMark (s : State) (k : CoreIx) : Nat :=
  let c := s.core k
  let m := match c.seq.queue.find? c.entryLocal with | some e => e.stamp | none => s.nextId
  match c.seq.loop with
  | some l => if l.body.any c.entryLocal then min m l.stamp else m
  | none => m

/-- The local accesses that stood behind entries which have executed are performed, with what comes before them. -/
def State.settleLocal (s : State) (k : CoreIx) : State :=
  let m := s.localMark k
  match (s.net.filter fun r => r.loc && r.phase = .sent && r.id < m && r.src.coreOf = k).getLast? with
  | none => s
  | some r => s.flushOwn k (r.id + 1)

/-- Whether a local store of a core issued before operation `mark` is still to be performed. -/
def State.storesBefore (s : State) (k : CoreIx) (mark : Nat) : Bool :=
  let c := s.core k
  !c.portWrites.isEmpty || (c.seq.entries.any fun e => e.stamp < mark && c.entryLocal e) || !(s.ownPending k mark).isEmpty

/-- The request of a local access that cannot be performed at issue. -/
def State.localReq (s : State) (kind : AccKind) (fe : FeMode) (a : Nat) (ext : Ext) (flight : Option Nat) (ga : Word) : Req :=
  { id := s.nextId, src := .core s.cur s.curH s.curPc, op := .acc kind, cls := .ord, fe := fe, ga := ga,
    sys := sysOf s.own a, reg := false, loc := true, tokchk := false, ext := ext, flight := flight, phase := .sent,
    due := s.now + toTicks s.fab.rspTimeout, ctx := s.cc.slot.ctx, nocache := true, plane := none }

/-- Whether an access of n bytes can be performed at issue. -/
def State.direct (s : State) (fe : FeMode) (a n : Nat) : Bool :=
  !s.behindSeq && s.tokenVerdict false s.own a = .perform && s.feHolds fe a && !s.badAt a n

/-- What comes before a local access of the executing core is performed, unless the access has to stand behind the sequencer. -/
def State.beforeLocal (s : State) : State := if s.behindSeq then s else s.flushOwn s.cur s.nextId

/-- After an access to a word: waiting entries are examined if its full-empty bit changed. -/
def State.examineIf (s : State) (before : Bool) (a : Nat) : State :=
  if s.full a = before then s else s.examine [a / 8]

def loadMode : LoadFe → FeMode
  | .plain => .plain
  | .wf => .wf
  | .tk => .tk

def storeMode : StoreFe → FeMode
  | .plain => .plain
  | .we => .we
  | .fl => .fl

/-- A local load of n bytes (R228): at issue where its full-empty condition holds, else through the retry list. -/
def State.localLoad (s : State) (d a : XReg) (b : Buf) (fe : LoadFe) (imm : BitVec 9) (n : Nat) (ext : Ext) : Out :=
  let o := localOff (s.rx a) n imm b
  let p := winAddr s.cur.val b o
  if !s.mayX d then ok s.forbidden
  else if o % n ≠ 0 then ok (s.trap 1 (winGa s.cur.val b o))
  else if !s.room 1 then ok s.hold
  else
    let s := s.beforeLocal
    if s.direct (loadMode fe) p n then
      let (s', v) := (s.correct p n).effect (.load n) (loadMode fe) p
      ok ((s'.examineIf (s.full p) p).flyX d (ext.apply v))
    else
      let f := s.nextId
      let wait := s.behindSeq
      let s := s.flyOpen d
      let r := s.localReq (.load n) (loadMode fe) p ext (some f) (winGa s.cur.val b o)
      let s := { s with net := s.net ++ [r], nextId := s.nextId + 1 }
      ok (if wait then s else s.arrive r (.load n))

/-- A local store of n bytes (R228). -/
def State.localStore (s : State) (d a : XReg) (b : Buf) (fe : StoreFe) (imm : BitVec 9) (n : Nat) : Out :=
  let o := localOff (s.rx a) n imm b
  let p := winAddr s.cur.val b o
  if o % n ≠ 0 then ok (s.trap 1 (winGa s.cur.val b o))
  else
    let s := s.beforeLocal
    let kind : AccKind := .store n (s.rx d)
    if s.direct (storeMode fe) p n then
      let (s', _) := (s.correct p n).effect kind (storeMode fe) p
      ok (s'.examineIf (s.full p) p)
    else
      let wait := s.behindSeq
      let r := s.localReq kind (storeMode fe) p (.zero n) none (winGa s.cur.val b o)
      let s := { s with net := s.net ++ [r], nextId := s.nextId + 1 }
      ok (if wait then s else s.arrive r kind)

/-! ## Stream ports -/

def bufOfCode : Nat → Buf
  | 0 => .w
  | 1 => .a
  | 2 => .c
  | _ => .l

def Port.en (p : Port) : Bool := bit p.cfg 63
def Port.output (p : Port) : Bool := bit p.cfg 62
def Port.buf (p : Port) : Buf := bufOfCode (bits p.cfg 60 2)
def Port.count (p : Port) (i : Nat) : Nat := max 1 (bits p.cnt (16 * i) 16)
def Port.stride (p : Port) (i : Nat) : Int := sgn 16 (bits p.str (16 * i) 16)

/-- The offset of the next element. -/
def Port.offset (p : Port) : Nat :=
  let o : Int := bits p.cfg 32 14 * 64 + p.i0 * p.stride 0 * 64 + p.i1 * p.stride 1 * 64 + p.i2 * p.stride 2 * 64
  (o % (Buf.size p.buf : Int)).toNat

/-- The index moves on, i0 innermost. -/
def Port.advance (p : Port) : Port :=
  if p.i0 + 1 < p.count 0 then { p with i0 := p.i0 + 1 }
  else if p.i1 + 1 < p.count 1 then { p with i0 := 0, i1 := p.i1 + 1 }
  else { p with i0 := 0, i1 := 0, i2 := p.i2 + 1 }

def Port.atEnd (p : Port) : Bool := p.i2 ≥ p.count 2

/-- After the last element the port clears EN. -/
def Port.closeAtEnd (p : Port) : Port :=
  if p.atEnd && p.arrived.isEmpty then { p with cfg := setBits p.cfg 63 1 0 } else p

def Core.port (c : Core) (n : Fin 4) : Port := c.seq.ports[n]
def Core.setPort (c : Core) (n : Fin 4) (p : Port) : Core := { c with seq := { c.seq with ports := c.seq.ports.set n p } }

/-- The 64 bytes at the port's next offset. -/
def State.portData (s : State) (k : CoreIx) (p : Port) : Vec := BitVec.ofNat 512 (s.load (winAddr k.val p.buf p.offset) 64)

/-- An element is taken from the buffer ahead of its use (spec/10 R150); one with an uncorrectable word is answered with 0x4. -/
def State.portFetch (s : State) (k : CoreIx) (n : Fin 4) : State :=
  let p := (s.core k).port n
  if p.en && !p.output && !p.atEnd then
    let a := winAddr k.val p.buf p.offset
    let bad := s.badAt a 64
    (if bad then s.badEntry k none a else s.correct a 64).modCore k
      (·.setPort n { p.advance with arrived := p.arrived ++ [if bad then none else some (s.portData k p)] })
  else s

/-- An entry reads a bound input register: the next element becomes its content, unless it is uncorrectable. -/
def State.portConsume (s : State) (k : CoreIx) (n : Fin 4) : State :=
  let s := if ((s.core k).port n).arrived.isEmpty then s.portFetch k n else s
  let c := s.core k
  let p := c.port n
  match p.arrived with
  | [] => s
  | v :: r => s.setCore k ((match v with | some v => c.setV false (portReg n) v | none => c).setPort n { p with arrived := r }.closeAtEnd)

/-- An entry wrote a bound output register: its content joins the write buffer for the next offset. A port bound against the matrix of
R115 clears EN, and the core takes 0x05 with the window address. -/
def State.portStore (s : State) (k : CoreIx) (n : Fin 4) (stamp : Nat) : State :=
  let c := s.core k
  let p := c.port n
  if p.buf = .w then
    let t : RespTrap := { cause := 5, val := winGa k.val p.buf p.offset }
    s.setCore k { c.setPort n { p with cfg := setBits p.cfg 63 1 0 } with
                  evt := { c.evt with respTraps := c.evt.respTraps ++ [t] } }
  else
    let w : PortWrite := { id := s.nextId, stamp := stamp, addr := winAddr k.val p.buf p.offset, data := c.main.v[28 + n.val] }
    { s.modCore k (·.setPort n { p.advance.closeAtEnd with outq := p.outq ++ [w] }) with nextId := s.nextId + 1 }

/-- A buffered write of a port reaches its buffer, once no other port holds an earlier one. -/
def State.portDrain (s : State) (k : CoreIx) (n : Fin 4) : State :=
  match oldestWrite (s.core k).portWrites with
  | none => s
  | some w => if ((s.core k).port n).outq.any (·.id = w.id) then s.portPerform k else s

/-- Whether the write buffer of the port that an entry writes is full: eight elements (spec/07 R101). -/
def Core.outFull (c : Core) (i : Instr) : Bool :=
  match vDest i with
  | none => false
  | some d => (List.finRange 4).any fun n =>
      (c.port n).en && (c.port n).output && d = portReg n && 8 ≤ (c.port n).outq.length

/-- Registers read by an entry, as far as they may be bound. -/
def vSources : Instr → List VReg
  | .vadd _ a b _ _ | .vsub _ a b _ _ | .vmul _ a b _ _ | .vmulh _ a b _ _ | .vmin _ a b _ _ | .vmax _ a b _ _
  | .vminu _ a b _ _ | .vmaxu _ a b _ _ | .vand _ a b _ _ | .vor _ a b _ _ | .vxor _ a b _ _ | .vsll _ a b _ _
  | .vsrl _ a b _ _ | .vsra _ a b _ _ | .vadds _ a b _ _ | .vsubs _ a b _ _ => [a, b]
  | .vfadd _ a b _ _ | .vfsub _ a b _ _ | .vfmul _ a b _ _ | .vfdiv _ a b _ _ | .vfmin _ a b _ _ | .vfmax _ a b _ _ => [a, b]
  | .vabs _ a _ _ | .vneg _ a _ _ => [a]
  | .vfsqrt _ a _ _ | .vfabs _ a _ _ | .vfneg _ a _ _ => [a]
  | .vfmadd d a b _ _ _ | .vfmsub d a b _ _ _ | .vfnmadd d a b _ _ _ | .vfnmsub d a b _ _ _ => [d, a, b]
  | .vcmp _ a b _ _ _ => [a, b]
  | .vsel _ a b _ _ | .vperm _ a b _ _ => [a, b]
  | .vred _ a _ => [a]
  | .vbcastV _ a _ _ _ => [a]
  | .vcvt _ a _ _ _ => [a]
  | .vquant _ a _ _ => [a, a + 1]
  | .vexp _ a _ | .vlog _ a _ | .vrcp _ a _ | .vrsqrt _ a _ | .vtanh _ a _ | .vsigm _ a _ | .vgelu _ a _ => [a]
  | .vst v _ _ _ _ => [v]
  | .vsts v _ _ _ _ _ => [v]
  | .vldx _ _ b _ _ _ => [b]
  | .vstx v _ b _ _ _ => [v, b]
  | .nqsend v _ => [v]
  | .wlpush v _ => [v]
  | .postrx _ v => [v]
  | .send _ v => [v]
  | .gatepost v _ => [v]
  | .cvplay v _ => [v]
  | _ => []

/-- Before an entry executes: each bound input register it reads, however often, takes one element. -/
def State.portsIn (s : State) (k : CoreIx) (i : Instr) : State :=
  let src := vSources i
  (List.finRange 4).foldl (fun s n =>
    let p := (s.core k).port n
    if p.en && !p.output && src.contains (portReg n) then s.portConsume k n else s) s

/-- Whether an executed entry with a result wrote its vector register: a WLPOP of an empty list did not (spec/17 R287), nor a load that met an
uncorrectable word (spec/07 R94), which gives a result for no register. -/
def wroteV (i : Instr) (v : Option Word) : Bool :=
  match i, v with
  | .wlpop _ _, some w => !bit w 63
  | .vld _ _ _ _ _, some _ | .vlds _ _ _ _ _ _, some _ | .vldx _ _ _ _ _ _, some _ => false
  | _, _ => true

/-- After it executed: a bound output register it wrote is stored, as a store of the entry's number. -/
def State.portsOut (s : State) (k : CoreIx) (i : Instr) (stamp : Nat) (v : Option Word) : State :=
  match (if wroteV i v then vDest i else none) with
  | none => s
  | some d =>
    (List.finRange 4).foldl (fun s n =>
      let p := (s.core k).port n
      if p.en && p.output && d = portReg n then s.portStore k n stamp else s) s

/-! ## Vector loads and stores as executed -/

/-- Uncorrectable words among those that a vector access of elements of e bytes touches: the first one's address (log 99). -/
def State.badElem (s : State) (k : CoreIx) (b : Buf) (e : Nat) (touched : Nat → Bool) (off : Nat → Nat) : Option Nat :=
  if s.bad.isEmpty then none
  else
    ((List.range (64 / e)).find? fun i => touched i && s.badAt (winAddr k.val b (off i)) e).map fun i => winAddr k.val b (off i)

/-- The mark of a load that meets an uncorrectable word. -/
def State.badMark (s : State) (k : CoreIx) (b : Buf) (e : Nat) (touched : Nat → Bool) (off : Nat → Nat) : Option Word :=
  (s.badElem k b e touched off).map fun _ => 0

/-- Correctable words are corrected. -/
def State.correctElems (s : State) (k : CoreIx) (b : Buf) (e : Nat) (touched : Nat → Bool) (off : Nat → Nat) : State :=
  if s.weak.isEmpty then s
  else (List.range (64 / e)).foldl (fun s i => if touched i then s.correct (winAddr k.val b (off i)) e else s) s

/-- A vector access, unless a word of it is uncorrectable. -/
def State.moveRun (s : State) (k : CoreIx) (hpc : Option Pc) (b : Buf) (e : Nat) (touched : Nat → Bool) (off : Nat → Nat)
    (f : State → State) : State :=
  match s.badElem k b e touched off with
  | some a => s.badEntry k hpc a
  | none => f (s.correctElems k b e touched off)

/-- Lanes that VLD and VST move: bit j of the mask, and j below VL. -/
def Core.lane (c : Core) (m : MReg) (j : Nat) : Bool := (c.mask m).getLsbD j && j < c.vl

def State.vldRun (s : State) (k : CoreIx) (h : Bool) (v : VReg) (b : Buf) (m : MReg) (o : Nat) : State :=
  let c := s.core k
  let w : Vec := BitVec.ofNat 512 (s.load (winAddr k.val b o) 64)
  let old := c.vView h v
  s.setCore k (c.setV h v (vecOf 1 fun j => if c.lane m j then elem w 1 j else elem old 1 j))

/-- VST as a store: the active lanes are written (R230). -/
def State.vstRun (s : State) (k : CoreIx) (h : Bool) (v : VReg) (b : Buf) (m : MReg) (o : Nat) : State :=
  let c := s.core k
  let w := c.vView h v
  (List.range 64).foldl (fun s j => if c.lane m j then s.store (winAddr k.val b o + j) 1 (elem w 1 j) else s) s

/-- The offset of element i of a strided or an indexed form (R231). -/
def stridedOff (base stride : Word) (b : Buf) (i : Nat) : Nat := (base + BitVec.ofNat 64 i * stride).toNat % b.size
def indexedOff (base : Word) (ix : Vec) (e : Nat) (b : Buf) (i : Nat) : Nat :=
  (base + BitVec.ofNat 64 (e * elem ix e i)).toNat % b.size

def State.gatherRun (s : State) (k : CoreIx) (h : Bool) (v : VReg) (b : Buf) (m : MReg) (e : Nat) (off : Nat → Nat) : State :=
  let c := s.core k
  s.setCore k (c.setV h v (mapElems c m e (c.vView h v) fun i => s.load (winAddr k.val b (off i)) e))

/-- Active elements are written in ascending index. -/
def State.scatterRun (s : State) (k : CoreIx) (h : Bool) (v : VReg) (b : Buf) (m : MReg) (e : Nat) (off : Nat → Nat) : State :=
  let c := s.core k
  let w := c.vView h v
  (List.range (64 / e)).foldl
    (fun s i => if c.active m e i then s.store (winAddr k.val b (off i)) e (elem w e i) else s) s

/-! ## The matrix-queue address (spec/14 R212, R215) -/

/-- Whether a VST to an offset of a buffer enqueues. -/
def Core.isQueueAddr (c : Core) (b : Buf) (o : Nat) : Bool :=
  b = .l && bit c.ctl.mqAddr 63 && o = bits c.ctl.mqAddr 6 11 * 64

def gateOf : MatCmd → Bool
  | .mload c => c.gate
  | .mswap c => c.gate
  | .mdrain c => c.gate
  | .mzero c => c.gate
  | .mshape c => c.gate
  | .mma c => c.gate

/-- A record joins the queue; a banked release reaches the next gated command (spec/09 R144). -/
def Core.pushMat (c : Core) (cmd : MatCmd) (stamp : Nat) : Core :=
  let take := gateOf cmd && c.mat.banked ≠ 0
  let e : MatEntry := { cmd := cmd, stamp := stamp, started := false, rows := 0, released := take }
  { c with mat := { c.mat with mq := c.mat.mq ++ [e], banked := if take then c.mat.banked - 1 else c.mat.banked } }

/-- The store of a record: enqueued when well-formed and stored under m0; else cause 0x02 as a response trap with bytes 0 to 7
(R215). -/
def Core.enqueueMat (c : Core) (h : Bool) (v : VReg) (m : MReg) (stamp : Nat) : Core :=
  let w := c.vView h v
  match (if m = 0 then decodeMat w.toNat else .error .malformed) with
  | .ok cmd => c.pushMat cmd stamp
  | .error _ =>
    let t : RespTrap := { cause := 2, val := w.setWidth 64 }
    { c with evt := { c.evt with respTraps := c.evt.respTraps ++ [t] } }

end Sys2Proof.Machine
end

