-- ==== Sys2Proof/Machine/Records.lean ====
section
/-!
DEFINITION. Tensor shape records (spec/08 R125), the record cache of a core (spec/08 R126), and the landing of a payload
through a record (spec/09 R138).
-/

namespace Sys2Proof.Machine

/-! ## The record (R125) -/

def recWord (ws : List Word) (i : Nat) : Word := ws.getD i 0

/-- The element format, if EFMT is a code of R125. -/
def recFmt (ws : List Word) : Option Fmt :=
  match fmtOf (bits (recWord ws 0) 56 8) with
  | .ok .int64 => none
  | .ok f => some f
  | .error _ => none

def recRank (ws : List Word) : Nat := bits (recWord ws 0) 48 4
def recDim (ws : List Word) (d : Nat) : Nat := (recWord ws (4 + d)).toNat
def recStride (ws : List Word) (d : Nat) : Word := recWord ws (10 + d)

/-- Bits of an element. -/
def fmtBits (f : Fmt) : Nat := match f with | .mxf4 => 4 | _ => 8 * f.bytes

/-- Whether a record breaks no rule of R125. -/
def recOk (ws : List Word) : Bool :=
  let w0 := recWord ws 0
  let sf := bits w0 52 4
  let r := recRank ws
  match recFmt ws with
  | none => false
  | some f =>
    sf ≤ 1 && 1 ≤ r && r ≤ 6 && bits w0 0 48 == 0
    && (sf == 1 || recWord ws 2 == 0)
    && (recWord ws 3).toNat < 2 ^ fmtBits f
    && ((List.range 6).all fun d =>
          recDim ws d < 2 ^ 32 && recDim ws d ≠ 0 &&
          (d < r || (recDim ws d == 1 && recStride ws d == 0 && recWord ws (16 + d) == 0)))
    && recWord ws 16 == 0 && recWord ws 22 == 0 && recWord ws 23 == 0
    && (f != .mxf4 || (sf == 1 && recStride ws 0 == 0))

/-- The number of elements. -/
def recElems (ws : List Word) : Nat := (List.range 6).foldl (fun n d => n * recDim ws d) 1

/-- BASE + Σ i_d · STRIDE_d for the element of linear index n, dimension 0 fastest, from dimension d on. -/
def recOffset (ws : List Word) : Nat → Nat → Nat → Word
  | 0, _, _ => recWord ws 1
  | k + 1, d, n => BitVec.ofNat 64 (n % recDim ws d) * recStride ws d + recOffset ws k (d + 1) (n / recDim ws d)

/-- Where byte `b` of element n lies; of an mxf4 element, the byte that holds its nibble. -/
def recAddr (ws : List Word) (n b : Nat) : Word :=
  match recFmt ws with
  | some .mxf4 => recOffset ws 6 0 n + BitVec.ofNat 64 (n % recDim ws 0 / 2)
  | _ => recOffset ws 6 0 n + BitVec.ofNat 64 b

/-- Whether a position lies inside the tensor. -/
def recInside (ws : List Word) (ix : Nat → Nat) : Bool := (List.range 6).all fun d => ix d < recDim ws d

/-- The scale of an element: SBASE + i_0 div 32 + Σ i_d · SSTRIDE_d over d ≥ 1. -/
def recScaleAddr (ws : List Word) (ix : Nat → Nat) : Word :=
  (List.range 5).foldl (fun a d => a + BitVec.ofNat 64 (ix (d + 1)) * recWord ws (17 + d)) (recWord ws 2 + BitVec.ofNat 64 (ix 0 / 32))

/-- The linear index of a position, dimension 0 fastest. -/
def recLinear (ws : List Word) (ix : Nat → Nat) : Nat :=
  ((List.range 6).foldr (fun d n => ix d + recDim ws d * n) 0)

/-- Bytes of an element as it lies in memory. -/
def recWidth (ws : List Word) : Nat := match recFmt ws with | some f => f.bytes | none => 1

/-- A read through a record: PAD at a position outside the tensor, else the element. -/
def State.recRead (s : State) (e : Acc) (ws : List Word) (ix : Nat → Nat) : State × Except AccErr Nat :=
  if !recInside ws ix then (s, .ok (recWord ws 3).toNat)
  else
    match State.engReadBytes e (recWidth ws) s (recAddr ws (recLinear ws ix) 0) with
    | (s, .error x) => (s, .error x)
    | (s, .ok bs) => (s, .ok (if recFmt ws = some .mxf4 then ofBytes bs / 16 ^ (ix 0 % 2) % 16 else ofBytes bs))

/-- Bytes of payload the tensor takes. -/
def recBytes (ws : List Word) : Nat :=
  match recFmt ws with
  | some .mxf4 => (recElems ws + 1) / 2
  | some f => recElems ws * f.bytes
  | none => 0

/-! ## The record cache (R126) -/

/-- The places of a record's words that lie in the core's own buffers. -/
def State.recPlaces (s : State) (k : CoreIx) (ga : Word) : List Nat :=
  let c := s.core k
  ((List.range 24).map fun i =>
    match (s.xlate (some (clusterOf k.val)) c.slot.ctx false .read (ga + BitVec.ofNat 64 (8 * i))).2 with
    | .ok x => if devOf x.sys = s.own && homeOf (physOf x.sys) = .core k.val then [physOf x.sys] else []
    | .error _ => []).flatten

/-- What a use of the record at an address finds: the words, a stale entry, or how the read failed; `.fails .wait` where it has to wait. -/
inductive RecUse | words (ws : List Word) | stale | fails (e : AccErr)
  deriving DecidableEq, Repr

/-- Use a record (a core's own access: R121 needs only R): the cached one moves to the front; else it is read, after every earlier local
store of the core (spec/15 R238), and kept, 16 at most. -/
def State.useRecord (s : State) (ga : Word) : State × RecUse :=
  let k := s.cur
  let c := s.core k
  match c.evt.records.find? (·.ga == ga) with
  | some r =>
    if r.stale then (s, .stale)
    else (s.setCore k { c with evt := { c.evt with records := r :: c.evt.records.erase r } }, .words r.words)
  | none =>
    if s.behindSeq then (s, .fails .wait)
    else
    let acc : Acc := { ctx := c.slot.ctx, cl := some (clusterOf k.val), core := k.val, src := 0, row := .load, cls := .ord,
                       eng := false }
    match State.engReadWords acc 24 (s.flushOwn k s.nextId) ga with
    | (s, .error e) => (s, .fails e)
    | (s, .ok ws) =>
      let r : CachedRec := { ga := ga, phys := s.recPlaces k ga, words := ws, stale := false }
      (s.modCore k fun c => { c with evt := { c.evt with records := (r :: c.evt.records).take 16 } }, .words ws)

/-! ## Landing a payload (spec/09 R138) -/

/-- The byte that holds element n of an mxf4 tensor, with its nibble replaced. -/
def withNibble (ws : List Word) (n old v : Nat) : Nat :=
  if n % recDim ws 0 % 2 = 0 then old / 16 * 16 + v else old % 16 + 16 * v

/-- Whether an engine's access names memory of another device. -/
def State.engFar (s : State) (e : Acc) (ga : Word) : Bool :=
  match (s.xlate e.cl e.ctx e.eng .write ga).2 with
  | .ok x => !x.reg && devOf x.sys ≠ s.own
  | .error _ => false

/-- Write one nibble: its home combines it with the other one; in another device's memory the byte is read first. -/
def State.landNibble (s : State) (e : Acc) (ws : List Word) (n v : Nat) : State × Except AccErr Unit :=
  let ga := recAddr ws n 0
  if s.engFar e ga then
    match s.engRead e ga 1 with
    | (s, .error x) => (s, .error x)
    | (s, .ok old) => s.engWrite e ga 1 (withNibble ws n old v)
  else
    match s.engTarget e (some 0) ga 1 with
    | (s, .error x) => (s, .error x)
    | (s, .ok (.own a)) => (s.engineWrite a 1 (withNibble ws n (s.load a 1) v), .ok ())
    | (s, .ok (.peer _)) => (s, .ok ())

/-- Write byte j of a payload: a byte of its element, or two nibbles of an mxf4 tensor, low nibble first. -/
def State.landByte (s : State) (e : Acc) (ws : List Word) (j : Nat) (b : Byte) : State × Except AccErr Unit :=
  match recFmt ws with
  | some .mxf4 =>
    if 2 * j + 1 < recElems ws && recAddr ws (2 * j) 0 = recAddr ws (2 * j + 1) 0 then s.engWrite e (recAddr ws (2 * j) 0) 1 b.toNat
    else
      match s.landNibble e ws (2 * j) (b.toNat % 16) with
      | (s, .error x) => (s, .error x)
      | (s, .ok ()) => if 2 * j + 1 < recElems ws then s.landNibble e ws (2 * j + 1) (b.toNat / 16) else (s, .ok ())
  | some f => s.engWrite e (recAddr ws (j / f.bytes) (j % f.bytes)) 1 b.toNat
  | none => (s, .error .fault)

/-- Land bytes from the j-th on while the tensor takes them: how many landed, and how a write failed. -/
def State.landBytes (e : Acc) (ws : List Word) : List Byte → Nat → State → State × Nat × Option AccErr
  | [], j, s => (s, j, none)
  | b :: r, j, s =>
    if j < recBytes ws then
      match s.landByte e ws j b with
      | (s, .error x) => (s, j, some x)
      | (s, .ok ()) => State.landBytes e ws r (j + 1) s
    else (s, j, none)

end Sys2Proof.Machine
end

