-- ==== Sys2Proof/Machine/EngineOps.lean ====
section
/-!
DEFINITION. What sequencer entries do at the engines: work lists (spec/09 R140, spec/17 R286, R287), posted receives and
sends (spec/09 R137 to R139, spec/17 R289, R290, spec/20 R310 to R314), the Expert Market's registers and the start of a step
(spec/11 R159 to R161, spec/17 R292 to R295), neighbour queues (spec/07 R102).
-/

namespace Sys2Proof.Machine

/-- Doubleword i of a vector. -/
def dw (v : Vec) (i : Nat) : Word := BitVec.ofNat 64 (elem v 8 i)

/-! ## Handles and transfer IDs (spec/17 R270, spec/09 R132) -/

/-- The next value of a 16-bit counter that skips 0 and every value held; at most `n` values are tried. -/
def nextFree (held : List (BitVec 16)) : Nat → BitVec 16 → BitVec 16
  | 0, c => c + 1
  | n + 1, c => if c + 1 == 0 || held.contains (c + 1) then nextFree held n (c + 1) else c + 1

def Core.newHandle (c : Core) : Core × BitVec 16 :=
  let h := nextFree c.eng.handles (c.eng.handles.length + 1) c.eng.handle
  ({ c with eng := { c.eng with handle := h, handles := c.eng.handles ++ [h] } }, h)

def Core.newXid (c : Core) : BitVec 16 :=
  nextFree (c.eng.copies.map (·.xid)) (c.eng.copies.length + 1) c.eng.xid

/-- What an execution of a sequencer entry leaves: the state and the value for the entry's scalar register; while the entry stalls, the
state, which keeps no more than the places taken in retry lists. -/
abbrev Ran := Except State (State × Option Word)

/-! ## Work lists -/

/-- A core's votes are withdrawn (spec/07 R106). -/
def Core.withdrawVotes (c : Core) : Core := { c with eng := { c.eng with votes := [] } }

/-- WLPUSH: the item is on its way, and the core's votes are withdrawn. -/
def State.wlPush (s : State) (k : CoreIx) (hpc : Option Pc) (dst : CoreIx) (item : BitVec 128) : State :=
  let p : PushedItem := { id := s.nextId, src := k, hpc := hpc, dst := dst, item := item }
  { s with pushed := s.pushed ++ [p], nextId := s.nextId + 1 }.modCore k (·.withdrawVotes)

/-- Whether an item is for a core, of the launch that binds it: items of a saved launch stay in the unit (spec/05 R75). -/
def State.isFor (s : State) (k : CoreIx) (x : WorkItem) : Bool := x.core = k && x.lid == (s.core k).slot.lid

/-- The list of a core. -/
def State.list (s : State) (k : CoreIx) : List WorkItem := (look [] s.lists k.val).filter (s.isFor k)

/-- An item goes to the end of its list. -/
def State.addItem (s : State) (x : WorkItem) : State :=
  { s with lists := put s.lists x.core.val (look [] s.lists x.core.val ++ [x]) }

/-- Items in the store of a die. -/
def State.stored (s : State) (die : Nat) : Nat :=
  s.lists.foldl (fun n p => if dieOf p.1 == die then n + p.2.length else n) 0

/-- The items spilled of a context, which stand in arrival order from BASE of WL_SPILL on (log 51). -/
def State.setArea (s : State) (ctx : Nat) (l : List WorkItem) : State :=
  let base := bits (look 0 s.dev.wlSpill ctx) 0 40
  let s := { s with spilled := put s.spilled ctx l }
  if inStacks base then s.storeWords base (l.map fun p => [p.item.setWidth 64, BitVec.ofNat 64 (p.item.toNat / 2 ^ 64)]).flatten else s

/-- Items spilled for a core, over all contexts. -/
def State.spilledFor (s : State) (k : CoreIx) : Nat :=
  s.spilled.foldl (fun n p => n + (p.2.filter (s.isFor k)).length) 0

/-- The first spilled item of those a test admits, with its context and the items that stay there. -/
def firstSpilled (f : WorkItem → Bool) : Assoc (List WorkItem) → Option (Nat × List WorkItem × WorkItem)
  | [] => none
  | (c, l) :: r =>
    match l.find? f with
    | some p => some (c, l.erase p, p)
    | none => firstSpilled f r

/-- A spilled item moves into its list while the store of its die has room. -/
def State.refillOne (s : State) (die : Nat) : State :=
  if 65536 ≤ s.stored die then s
  else
    match firstSpilled (fun x => dieOf x.core.val == die) s.spilled with
    | none => s
    | some (ctx, rest, x) => (s.setArea ctx rest).addItem x

/-- Spilled items move up as long as the store of a die has room. -/
def State.refill (s : State) (die : Nat) : State :=
  (List.range (s.spilled.foldl (fun n p => n + p.2.length) 0)).foldl (fun s _ => s.refillOne die) s

/-- WLPOP: the oldest item for a core, in its list or, where the list is empty, in a spill area, with how many remain; a successful pop
withdraws the core's votes. -/
def State.wlPop (s : State) (k : CoreIx) : State × Option (BitVec 128 × Nat) :=
  let taken (s : State) (x : WorkItem) : State × Option (BitVec 128 × Nat) :=
    let s := (s.modCore k (·.withdrawVotes)).refill (dieOf k.val)
    (s, some (x.item, min ((s.list k).length + s.spilledFor k) (2 ^ 32 - 1)))
  match s.list k with
  | x :: _ => taken { s with lists := put s.lists k.val ((look [] s.lists k.val).erase x) } x
  | [] =>
    match firstSpilled (s.isFor k) s.spilled with
    | some (ctx, rest, x) => taken (s.setArea ctx rest) x
    | none => (s, none)

/-! ## Posted receives -/

def PostedRecv.accepts (r : PostedRecv) (m : Message) : Bool :=
  r.core = m.dst && (r.anyDev || r.fromDev = m.dev) && (r.anyCore || r.fromCore = m.core) &&
    ((m.tag ^^^ r.tag) &&& r.mask) == 0

/-- Payload of kinds 0x30 and 0x31: tag, device, length. -/
def recvPayload (tag : BitVec 32) (dev len : Nat) : Word :=
  BitVec.ofNat 64 (tag.toNat + dev % 1024 * 2 ^ 32 + len % 2 ^ 22 * 2 ^ 42)

def recvAcc (ctx : BitVec 12) (k : CoreIx) : Acc :=
  { ctx := ctx, cl := none, core := k.val, src := 3, row := .recv, cls := .adp, eng := true }

/-- Whether the slot of a core is bound to a launch. -/
def State.binds (s : State) (k : CoreIx) (lid : BitVec 16) : Bool := (s.core k).slot.st ≠ .idle && (s.core k).slot.lid == lid

/-- A message lands through a receive, which ends with kind 0x30 and a pulse of source 4. -/
def State.landMessage (s : State) (r : PostedRecv) (m : Message) : State :=
  let (s, n, failed) := State.landBytes (recvAcc r.ctx r.core) r.words m.payload 0 s
  let st := if failed.isSome then 3 else if n < m.payload.length then 1 else 0
  let s := s.charge r.ctx 6 (Config.cost s.free)
  let s := { s with free := s.free + 1 }
  let s := if s.binds r.core r.lid then s.pulse r.core 4 0 else s
  s.placeFor r.core r.lid [mkMsg 0x30 st m.core.val r.handle.toNat (recvPayload m.tag m.dev.val n)] (.freeHandle r.handle)

/-- The state of a landing that meets a word whose token moves: it waits. -/
def State.landStall (s : State) (r : PostedRecv) (m : Message) : Option State :=
  match State.landBytes (recvAcc r.ctx r.core) r.words m.payload 0 s with
  | (s', _, some .wait) => some (s.stall s')
  | _ => none

/-- Whether the tensor of a receive lies, by its first element (log 67), in the buffers of a saved core: it is not matched until that core
has resumed (spec/05 R75). -/
def State.aside (s : State) (r : PostedRecv) : Bool :=
  !s.saves.isEmpty &&
  match (s.xlate none r.ctx true .write (recAddr r.words 0 0)).2 with
  | .error _ => false
  | .ok x =>
    !x.reg && devOf x.sys == s.own &&
    match homeOf (physOf x.sys) with
    | .core j => s.saves.any fun p =>
        p.1 % 4096 == j && p.2.core.slot.ctx == r.ctx && (p.1 / 4096 == r.lid.toNat || !s.binds (toCore j) r.lid)
    | _ => false

/-- A receive that no message reaches ends: the source and the device of its completion are free values (log 30). -/
def State.endRecv (s : State) (k : CoreIx) (h : BitVec 16) (tag : BitVec 32) (st : Nat) : State :=
  let p := recvPayload tag (Config.unmatchedDev s.free).toNat 0
  let s' := { s with free := s.free + 1 }
  s'.place k [mkMsg 0x30 st (Config.unmatchedCore s.free).toNat h.toNat p] (.freeHandle h)

/-- Whether a POSTRX descriptor holds its zero fields. -/
def postDescOk (v : Vec) : Bool :=
  ((List.range 5).all fun i => dw v (3 + i) == 0) && bits (dw v 2) 28 34 == 0 && bits (dw v 2) 10 6 == 0
    && (dw v 0).toNat % 64 == 0

/-- The receive a descriptor describes, with the words of its record. -/
def mkRecv (sl : Slot) (k : CoreIx) (h : BitVec 16) (v : Vec) (ws : List Word) : PostedRecv :=
  { core := k, lid := sl.lid, ctx := sl.ctx, handle := h, recGa := dw v 0, words := ws, mask := BitVec.ofNat 32 (bits (dw v 1) 32 32),
    tag := BitVec.ofNat 32 (bits (dw v 1) 0 32), anyDev := bit (dw v 2) 63, anyCore := bit (dw v 2) 62,
    fromCore := toCore (bits (dw v 2) 16 12), fromDev := Fin.ofNat 1024 (bits (dw v 2) 0 10) }

/-- The oldest unexpected message, held for its launch, that a receive takes. -/
def State.takes (s : State) (r : PostedRecv) : Option Message :=
  if s.aside r then none else s.pre.unexpected.find? fun m => m.lid == r.lid && r.accepts m

/-- POSTRX at the engine, one atomic step: the oldest unexpected message that matches is consumed, else the receive is
posted. -/
def State.postRecv (s : State) (k : CoreIx) (r : PostedRecv) : State :=
  match s.takes r with
  | some m => ({ s with pre := { s.pre with unexpected := s.pre.unexpected.erase m } }).landMessage r m
  | none =>
    if s.pre.posted.length ≥ 4096 then s.endRecv k r.handle r.tag 5
    else { s with pre := { s.pre with posted := s.pre.posted ++ [r] } }

/-- An unexpected message goes to the receive it is aimed at once that is no longer set aside; while a token moves under the landing it
waits on. -/
def State.rematchOne (s : State) (m : Message) : State :=
  match s.pre.posted.find? fun r => r.lid == m.lid && r.accepts m with
  | none => s
  | some r =>
    if s.aside r || (s.landStall r m).isSome then s
    else ({ s with pre := { s.pre with posted := s.pre.posted.erase r, unexpected := s.pre.unexpected.erase m } }).landMessage r m

/-- Receives that are no longer set aside take what waits for them, oldest message first (spec/05 R75). -/
def State.rematch (s : State) : State := s.pre.unexpected.foldl State.rematchOne s

/-- A POSTRX entry: its handle, and the engine's step. It stalls while a token moves under its record or its tensor. -/
def State.postrxRun (s0 : State) (k : CoreIx) (v : Vec) : Ran :=
  let (c, h) := (s0.core k).newHandle
  let s := s0.setCore k c
  let tag := BitVec.ofNat 32 (bits (dw v 1) 0 32)
  if postDescOk v then
    match State.engReadWords (recvAcc c.slot.ctx k) 24 s (dw v 0) with
    | (s, .error .wait) => .error (s0.stall s)
    | (s, .error _) => .ok (s.endRecv k h tag 3, some (h.setWidth 64))
    | (s, .ok ws) =>
      let r := mkRecv c.slot k h v ws
      if recOk ws then
        match (s.takes r).bind (s.landStall r) with
        | some s' => .error (s0.stall s')
        | none => .ok (s.postRecv k r, some (h.setWidth 64))
      else .ok (s.endRecv k h tag 3, some (h.setWidth 64))
  else .ok (s.endRecv k h tag 3, some (h.setWidth 64))

/-! ## Sends -/

/-- Whether a SEND descriptor breaks no rule of R290. -/
def sendDescOk (v : Vec) : Bool :=
  let len := bits (dw v 1) 32 22
  ((List.range 5).all fun i => dw v (3 + i) == 0) && bits (dw v 1) 54 10 == 0 && bits (dw v 2) 34 30 == 0
    && bits (dw v 2) 28 4 == 0 && bits (dw v 2) 10 6 == 0 && bits (dw v 2) 32 2 != 3
    && (dw v 0).toNat % 8 == 0 && len % 8 == 0 && 8 ≤ len && len ≤ 2097152

def clsOf (n : Nat) : RClass := if n = 0 then .ord else if n = 1 then .adp else .spr

def State.endSend (s : State) (k : CoreIx) (h : BitVec 16) (dst st : Nat) (payload : Word) : State :=
  s.place k [mkMsg 0x31 st dst h.toNat payload] (.freeSend h)

def sendAcc (s : State) (k : CoreIx) (cls : RClass) : Acc :=
  { ctx := (s.core k).slot.ctx, cl := some (clusterOf k.val), core := k.val, src := 3, row := .copy, cls := cls, eng := true }

/-- A SEND entry: its handle; the payload is read, and the message is on its way. It stalls while 64 sends have no completion or a
token moves under the payload. -/
def State.sendRun (s0 : State) (k : CoreIx) (v : Vec) : Ran :=
  let s := s0
  if (s.core k).eng.sends.length ≥ 64 then .error s
  else
    let (c, h) := (s.core k).newHandle
    let dst := toCore (bits (dw v 2) 16 12)
    let dev : Fin 1024 := Fin.ofNat 1024 (bits (dw v 2) 0 10)
    let tag := BitVec.ofNat 32 (bits (dw v 1) 0 32)
    let len := bits (dw v 1) 32 22
    let cls := clsOf (bits (dw v 2) 32 2)
    let sr : SendRec := { handle := h, id := s.nextId, dst := dst, dev := dev, tag := tag, len := len,
                          due := s.now + toTicks s.fab.rspTimeout, answer := none }
    let s := { s.setCore k { c with eng := { c.eng with sends := c.eng.sends ++ [sr] } } with nextId := s.nextId + 1 }
    if !sendDescOk v then .ok (s.endSend k h dst.val 2 2, some (h.setWidth 64))
    else
      match State.engReadWords (sendAcc s k cls) (len / 8) s (dw v 0) with
      | (s, .error .wait) => .error (s0.stall s)
      | (s, .error _) => .ok (s.endSend k h dst.val 3 (recvPayload tag dev.val 0), some (h.setWidth 64))
      | (s, .ok ws) =>
        let m : Message := { id := sr.id, dev := s.fab.devid, core := k, dst := dst, tag := tag, cls := cls,
                             payload := (ws.map fun w => toBytes 8 w.toNat).flatten, handle := h, lid := c.slot.lid }
        if dev = s.fab.devid then .ok ({ s with pre := { s.pre with sent := s.pre.sent ++ [m] } }, some (h.setWidth 64))
        else
          match s.route dev.val cls true with
          | .error st =>
            let sys := sysOf dev.val (0x8000000000)
            .ok ((s.logViolation (dieOf k.val) st s.own sys k.val 3).endSend k h dst.val 2 (st.setWidth 64), some (h.setWidth 64))
          | .ok _ => .ok ((s.charge c.slot.ctx 12 len).fabOut (.message dev m), some (h.setWidth 64))

/-! ## The Expert Market: registers (spec/11 R159) -/

def State.part (s : State) (p : Nat) : Partition := look Partition.reset s.parts p
def State.setPart (s : State) (p : Nat) (q : Partition) : State := { s with parts := put s.parts p q }

/-- Whether a context holds a partition. -/
def State.holdsPart (s : State) (p : Nat) (ctx : BitVec 12) : Bool :=
  match (s.part p).owner with
  | some (_, c) => c == ctx
  | none => false

def Partition.mode (p : Partition) : Nat := bits p.cfg 62 2
def Partition.k (p : Partition) : Nat := bits p.cfg 58 4
def Partition.limit (p : Partition) : Nat := bits p.cfg 50 8
def Partition.nexp (p : Partition) : Nat := bits p.cfg 39 11
def Partition.ebase (p : Partition) : Nat := bits p.cfg 29 10

def State.price (s : State) (e : Nat) : Half := look 0 s.prices e
def State.cap (s : State) (e : Nat) : Nat := look 0 s.caps e

/-- A global address of R117 whose zero fields are zero. -/
def gaOk (ga : Word) : Bool :=
  match bits ga 62 2 with
  | 0 => bits ga 48 14 == 0
  | 1 => bits ga 32 30 == 0
  | 2 => bits ga 40 22 == 0
  | _ => false

/-- The register an index names: its 64 bits, or none for a reserved index or j ≥ NEXP. -/
def State.mktRead (s : State) (p i : Nat) : Option Word :=
  let q := s.part p
  if i = 0 then some (setBits q.cfg 0 1 (if q.run.isSome then 1 else 0))
  else if i = 1 then some q.eps
  else if i = 2 then some q.step
  else if i = 3 then some q.bids
  else if i = 4 then some q.stat
  else if 0x400 ≤ i && i < 0x800 && i - 0x400 < q.nexp then some ((s.price (q.ebase + (i - 0x400))).setWidth 64)
  else if 0x800 ≤ i && i < 0xC00 && i - 0x800 < q.nexp then some (BitVec.ofNat 64 (s.cap (q.ebase + (i - 0x800))))
  else none

/-- Whether experts ebase .. ebase + n - 1 belong to the context and lie in no other configured partition. -/
def State.expertsFree (s : State) (p : Nat) (ctx : BitVec 12) (ebase n : Nat) : Bool :=
  ((List.range n).all fun j => (s.res (ebase + j)).ctx == ctx) &&
    s.parts.all fun (q, x) => q == p || x.owner.isNone || x.nexp = 0 || n = 0 || ebase + n ≤ x.ebase || x.ebase + x.nexp ≤ ebase

/-- A write by a context: the new state, or none where R159 makes it trap. -/
def State.mktWrite (s : State) (p i : Nat) (ctx : BitVec 12) (w : Word) : Option State :=
  let q := s.part p
  if i = 0 then
    let e := bits w 29 10
    let n := bits w 39 11
    if bits w 1 28 == 0 && bits w 62 2 ≠ 3 && 1 ≤ bits w 58 4 && bits w 58 4 ≤ 8 && 1 ≤ bits w 50 8 && e + n ≤ 1024
        && s.expertsFree p ctx e n then
      some (s.setPart p { q with cfg := setBits w 0 1 0 })
    else none
  else if i = 1 then
    if bits w 32 32 == 0 && 0 < bits w 0 32 && bits w 0 32 < 0x7F800000 then some (s.setPart p { q with eps := w }) else none
  else if i = 2 then (if bits w 32 32 == 0 then some (s.setPart p { q with step := w }) else none)
  else if i = 3 then (if gaOk w && w.toNat % 64 == 0 then some (s.setPart p { q with bids := w }) else none)
  else if i = 4 then some s
  else if 0x400 ≤ i && i < 0x800 && i - 0x400 < q.nexp then
    if bits w 32 32 == 0 && bits w 0 31 < 0x7F800000 then
      some { s with prices := put s.prices (q.ebase + (i - 0x400)) (w.setWidth 32) }
    else none
  else if 0x800 ≤ i && i < 0xC00 && i - 0x800 < q.nexp then
    if w.toNat ≤ 65536 then some { s with caps := put s.caps (q.ebase + (i - 0x800)) w.toNat } else none
  else none

/-! ## The Market's queue (spec/17 R295) and the start of a step (spec/11 R161) -/

/-- Kind 0x70, and PM_STAT takes the payload. -/
def State.endStep (s : State) (p : Nat) (core : CoreIx) (st : Nat) (payload : Word) : State :=
  let q := s.part p
  (s.setPart p { q with stat := payload }).place core
    [mkMsg 0x70 st p (bits q.step 0 16) payload] .keep

/-- The checks of a step as it starts; the first failing one decides the status. -/
def State.startStep (s : State) (p : Nat) (core : CoreIx) (a out : Word) : State :=
  let q := s.part p
  let t := bits a 32 17
  let n := t * q.k
  let caps := (List.range q.nexp).map fun j => s.cap (q.ebase + j)
  if q.run.isSome then s.endStep p core 4 0
  else if n > 65536 || out.toNat % 64 ≠ 0 || !gaOk out || q.k > q.nexp then s.endStep p core 2 0
  else if (q.mode = 2 && !(caps.foldl (· + ·) 0 == n && caps.all (· ≤ t))) ||
          (q.mode = 1 && caps.foldl (fun x c => x + min c t) 0 < n) then s.endStep p core 1 0
  else s.setPart p { q with run := some { core := core, tokens := t, out := out } }

/-- Cause 0x09 with TRAP_VAL = p, as a response (spec/17 R294). -/
def State.mktTrap (s : State) (w : MktWait) : State := s.respondTo w.core w.hpc 9 (BitVec.ofNat 64 w.part.val)

/-- Chunks of a row. -/
def Partition.rowChunks (q : Partition) : Nat := (q.nexp + 31) / 32

/-- A posted chunk reaches its Broker, which handles it with the bid table and the row size that the partition holds then (spec/18
R306). -/
def State.reachPost (s : State) (x : Posting) : Posting :=
  if x.taken.isSome then x
  else
    let q := s.part (bits x.word 24 4)
    { x with taken := some (q.bids, q.rowChunks) }

/-- Whether what waits at the Market may go on: it is the oldest of its core, whose instructions reach the Market in issue order; a read
or a write while no step runs, a run once the core's earlier postings are written. -/
def State.mktReady (s : State) (w : MktWait) : Bool :=
  !(s.mktWaits.any fun v => v.core = w.core && v.stamp < w.stamp) &&
  match w.op with
  | .read _ _ _ => (s.part w.part.val).run.isNone
  | .write _ _ => (s.part w.part.val).run.isNone
  | .run _ _ => !(s.posts.any fun x => x.core = w.core && x.id < w.stamp && bits x.word 24 4 == w.part.val)

/-- What a core posted before an instruction that the Market performs has reached its Brokers (spec/17 R295). -/
def State.reachBefore (s : State) (w : MktWait) : State :=
  { s with posts := s.posts.map fun x => if x.core = w.core && x.id < w.stamp then s.reachPost x else x }

/-- Do what waited. -/
def State.mktDo (s : State) (w : MktWait) : State :=
  let s := s.reachBefore w
  let p := w.part.val
  match w.op with
  | .read sel f more =>
    match s.mktRead p (bits sel 0 12) with
    | some v => if more then s.giveMore w.core w.hpc.isSome f v else s.give w.core w.hpc.isSome f v
    | none => (if more then s else s.close w.core w.hpc.isSome f).mktTrap w
  | .write sel v =>
    match s.mktWrite p (bits sel 0 12) (s.core w.core).slot.ctx v with
    | some s' => s'
    | none => s.mktTrap w
  | .run a out => s.startStep p w.core a out

/-- What may go on at the Market does, the oldest first, at most n of it. -/
def State.mktDrain : Nat → State → State
  | 0, s => s
  | n + 1, s =>
    match s.mktWaits.find? s.mktReady with
    | none => s
    | some w => State.mktDrain n ({ s with mktWaits := s.mktWaits.erase w }.mktDo w)

def State.mktGo (s : State) : State := State.mktDrain s.mktWaits.length s

/-- An instruction goes to the Market, behind its core's earlier ones (spec/17 R295). -/
def State.mktSend (s : State) (w : MktWait) : State :=
  let w := { w with stamp := s.nextId }
  { s with mktWaits := s.mktWaits ++ [w], nextId := s.nextId + 1 }.mktGo

/-! ## Neighbour queues (spec/07 R102) -/

/-- The core in a direction, unless it leaves the mesh. -/
def neighbour (k : CoreIx) (d : Dir) : Option CoreIx :=
  let x := coreX k.val
  let y := coreY k.val
  match d with
  | .n => if y < 63 then some (toCore (k.val + 64)) else none
  | .s => if 0 < y then some (toCore (k.val - 64)) else none
  | .e => if x < 63 then some (toCore (k.val + 1)) else none
  | .w => if 0 < x then some (toCore (k.val - 1)) else none

def dirIx : Dir → Fin 4
  | .n => 0
  | .e => 1
  | .s => 2
  | .w => 3

/-- The queue at the receiver. -/
def opposite : Dir → Dir
  | .n => .s
  | .s => .n
  | .e => .w
  | .w => .e

/-- NQSEND as executed: the entry is on its way to the neighbour's queue; none while the queue is full. -/
def State.nqSend (s : State) (k : CoreIx) (hpc : Option Pc) (d : Dir) (v : Vec) : Option State :=
  match neighbour k d with
  | none => some s
  | some j =>
    let q := dirIx (opposite d)
    let c := s.core j
    if c.seq.nq[q].length + c.seq.nqIn[q].length < 8 then
      some (s.setCore j { c with seq := { c.seq with nqIn := c.seq.nqIn.set q (c.seq.nqIn[q] ++ [(hpc, v)]) } })
    else none

/-- NQRECV as executed: the oldest entry; none while the queue is empty. -/
def State.nqTake (s : State) (k : CoreIx) (d : Dir) : Option (State × Vec) :=
  let c := s.core k
  let q := dirIx d
  match c.seq.nq[q] with
  | [] => none
  | v :: r => some (s.setCore k { c with seq := { c.seq with nq := c.seq.nq.set q r } }, v)

end Sys2Proof.Machine
end

