-- ==== Sys2Proof/Machine/Integer.lean ====
section
/-!
DEFINITION. The no-operations, literals and the integer instructions (spec/15 R218 to R223). Every result is fixed-latency.
-/

namespace Sys2Proof.Machine

/-! ## No-operations (spec/14 R204, R208) -/

def execCSlotNop (s : State) : Out := ok s
def execASlotNop (s : State) : Out := ok s

/-! ## Literals (R218) -/

def execLi (d : XReg) (lit : Half) (s : State) : Out := s.putX d (lit.signExtend 64)
def execLiU (d : XReg) (lit : Half) (s : State) : Out := s.putX d (lit.setWidth 64)
def execLiH (d : XReg) (lit : Half) (s : State) : Out := s.putX d (lit ++ (s.rx d).setWidth 32 : BitVec 64)
def execLiF (d : FReg) (lit : Half) (s : State) : Out := s.putF d lit

/-! ## Register-register (R219, R220) -/

def flag (b : Bool) : Word := if b then 1 else 0

/-- The signed quotient truncated toward zero; all ones for a zero divisor (R220). -/
def divS (a b : Word) : Word := if b = 0 then -1 else a.sdiv b
def divU (a b : Word) : Word := if b = 0 then -1 else a.udiv b
/-- The remainder with the sign of the dividend; the dividend for a zero divisor (R220). -/
def remS (a b : Word) : Word := if b = 0 then a else a.srem b
def remU (a b : Word) : Word := if b = 0 then a else a.umod b

/-- Leading zero bits among the low n bits. -/
def clzN (a : Word) : Nat → Nat
  | 0 => 0
  | n + 1 => if a.getLsbD n then 0 else 1 + clzN a n

/-- Trailing zero bits, of n bits from bit i. -/
def ctzN (a : Word) (i : Nat) : Nat → Nat
  | 0 => 0
  | n + 1 => if a.getLsbD i then 0 else 1 + ctzN a (i + 1) n

/-- Bits set among the low n bits. -/
def popN (a : Word) : Nat → Nat
  | 0 => 0
  | n + 1 => popN a n + (if a.getLsbD n then 1 else 0)

def shl (a : Word) (sh : Nat) : Word := a <<< sh
def shr (a : Word) (sh : Nat) : Word := a >>> sh
def shra (a : Word) (sh : Nat) : Word := a.sshiftRight sh

/-- sh := b[5:0]. -/
def shAmt (b : Word) : Nat := b.toNat % 64

def execAdd (d a b : XReg) (s : State) : Out := s.putX d (s.rx a + s.rx b)
def execSub (d a b : XReg) (s : State) : Out := s.putX d (s.rx a - s.rx b)
def execAnd (d a b : XReg) (s : State) : Out := s.putX d (s.rx a &&& s.rx b)
def execOr (d a b : XReg) (s : State) : Out := s.putX d (s.rx a ||| s.rx b)
def execXor (d a b : XReg) (s : State) : Out := s.putX d (s.rx a ^^^ s.rx b)
def execSll (d a b : XReg) (s : State) : Out := s.putX d (shl (s.rx a) (shAmt (s.rx b)))
def execSrl (d a b : XReg) (s : State) : Out := s.putX d (shr (s.rx a) (shAmt (s.rx b)))
def execSra (d a b : XReg) (s : State) : Out := s.putX d (shra (s.rx a) (shAmt (s.rx b)))
def execSlt (d a b : XReg) (s : State) : Out := s.putX d (flag ((s.rx a).slt (s.rx b)))
def execSltu (d a b : XReg) (s : State) : Out := s.putX d (flag ((s.rx a).ult (s.rx b)))
def execMul (d a b : XReg) (s : State) : Out := s.putX d (s.rx a * s.rx b)
/-- Bits 127:64 of the signed product. -/
def execMulh (d a b : XReg) (s : State) : Out :=
  s.putX d (BitVec.ofInt 64 ((s.rx a).toInt * (s.rx b).toInt / 2 ^ 64))
/-- Bits 127:64 of the unsigned product. -/
def execMulhu (d a b : XReg) (s : State) : Out :=
  s.putX d (BitVec.ofNat 64 ((s.rx a).toNat * (s.rx b).toNat / 2 ^ 64))
def execDiv (d a b : XReg) (s : State) : Out := s.putX d (divS (s.rx a) (s.rx b))
def execDivu (d a b : XReg) (s : State) : Out := s.putX d (divU (s.rx a) (s.rx b))
def execRem (d a b : XReg) (s : State) : Out := s.putX d (remS (s.rx a) (s.rx b))
def execRemu (d a b : XReg) (s : State) : Out := s.putX d (remU (s.rx a) (s.rx b))
def execMin (d a b : XReg) (s : State) : Out := s.putX d (if (s.rx a).slt (s.rx b) then s.rx a else s.rx b)
def execMax (d a b : XReg) (s : State) : Out := s.putX d (if (s.rx a).slt (s.rx b) then s.rx b else s.rx a)
def execMinu (d a b : XReg) (s : State) : Out := s.putX d (if (s.rx a).ult (s.rx b) then s.rx a else s.rx b)
def execMaxu (d a b : XReg) (s : State) : Out := s.putX d (if (s.rx a).ult (s.rx b) then s.rx b else s.rx a)
def execClz (d a : XReg) (s : State) : Out := s.putX d (BitVec.ofNat 64 (clzN (s.rx a) 64))
def execCtz (d a : XReg) (s : State) : Out := s.putX d (BitVec.ofNat 64 (ctzN (s.rx a) 0 64))
def execPopc (d a : XReg) (s : State) : Out := s.putX d (BitVec.ofNat 64 (popN (s.rx a) 64))
/-- (a << n) + b for shadd1 to shadd4; `n` is FN − 0x028. -/
def execShadd (d a b : XReg) (n : Fin 4) (s : State) : Out := s.putX d (shl (s.rx a) (n.val + 1) + s.rx b)

/-! ## Immediate forms (R221) -/

def execAddi (d a : XReg) (imm : BitVec 12) (s : State) : Out := s.putX d (s.rx a + imm.signExtend 64)
def execAndi (d a : XReg) (imm : BitVec 12) (s : State) : Out := s.putX d (s.rx a &&& imm.signExtend 64)
def execOri (d a : XReg) (imm : BitVec 12) (s : State) : Out := s.putX d (s.rx a ||| imm.signExtend 64)
def execXori (d a : XReg) (imm : BitVec 12) (s : State) : Out := s.putX d (s.rx a ^^^ imm.signExtend 64)
def execSlli (d a : XReg) (sh : Fin 64) (s : State) : Out := s.putX d (shl (s.rx a) sh.val)
def execSrli (d a : XReg) (sh : Fin 64) (s : State) : Out := s.putX d (shr (s.rx a) sh.val)
def execSrai (d a : XReg) (sh : Fin 64) (s : State) : Out := s.putX d (shra (s.rx a) sh.val)
def execSlti (d a : XReg) (imm : BitVec 12) (s : State) : Out := s.putX d (flag ((s.rx a).slt (imm.signExtend 64)))
def execSltiu (d a : XReg) (imm : BitVec 12) (s : State) : Out := s.putX d (flag ((s.rx a).ult (imm.signExtend 64)))
def execMuli (d a : XReg) (imm : BitVec 12) (s : State) : Out := s.putX d (s.rx a * imm.signExtend 64)

/-! ## Halfword lanes and bitfields (R222, R223) -/

def execHset (d : XReg) (imm : BitVec 16) (q : Fin 4) (s : State) : Out := s.putX d (shl (imm.setWidth 64) (16 * q.val))
def execHins (d : XReg) (imm : BitVec 16) (q : Fin 4) (s : State) : Out :=
  s.putX d (setBits (s.rx d) (16 * q.val) 16 imm.toNat)
/-- zext(x[A][POS + LENM1 : POS], LENM1 + 1). -/
def execBextu (d a : XReg) (pos lenm1 : Fin 64) (s : State) : Out :=
  s.putX d (BitVec.ofNat 64 (bits (s.rx a) pos.val (lenm1.val + 1)))
/-- sext of the same field. -/
def execBext (d a : XReg) (pos lenm1 : Fin 64) (s : State) : Out :=
  s.putX d (BitVec.ofInt 64 (sgn (lenm1.val + 1) (bits (s.rx a) pos.val (lenm1.val + 1))))
def execBins (d a : XReg) (pos lenm1 : Fin 64) (s : State) : Out :=
  s.putX d (setBits (s.rx d) pos.val (lenm1.val + 1) (s.rx a).toNat)

end Sys2Proof.Machine
end

