-- ==== Sys2Proof/Machine/Seq.lean ====
section
/-!
DEFINITION. The vector sequencer (spec/07 R99 to R101, spec/16 R249, R251, R268, R269, spec/17 R270): what each entry does
when it executes, in which order entries execute, and how an instruction becomes an entry.
-/

namespace Sys2Proof.Machine

/-! ## What an entry does -/

def State.ran (s : State) (k : CoreIx) (c : Core) : Ran := .ok (s.setCore k c, none)

def fmin2 (f : FpFmt) (_ : RMode) (_ : Bool) (x y : Nat) : Nat × FpFlags := (fpMin f x y, .none)
def fmax2 (f : FpFmt) (_ : RMode) (_ : Bool) (x y : Nat) : Nat × FpFlags := (fpMax f x y, .none)
def fabs1 (f : FpFmt) (_ : RMode) (_ : Bool) (x _ : Nat) : Nat × FpFlags := (fpAbs f x, .none)
def fneg1 (f : FpFmt) (_ : RMode) (_ : Bool) (x _ : Nat) : Nat × FpFlags := (fpNeg f x, .none)
def fsqrt1 (f : FpFmt) (rm : RMode) (sat : Bool) (x _ : Nat) : Nat × FpFlags := fpSqrt f rm sat x

/-- The integer operations on two elements of n bits (spec/16 R256). -/
def vIntOp : Instr → Option (Nat → Nat → Nat → Nat)
  | .vadd _ _ _ _ _ => some fun n x y => (x + y) % 2 ^ n
  | .vsub _ _ _ _ _ => some fun n x y => (x + 2 ^ n - y) % 2 ^ n
  | .vmul _ _ _ _ _ => some fun n x y => x * y % 2 ^ n
  | .vmulh _ _ _ _ _ => some vMulh
  | .vmin _ _ _ _ _ => some fun n x y => if sgn n x < sgn n y then x else y
  | .vmax _ _ _ _ _ => some fun n x y => if sgn n x < sgn n y then y else x
  | .vminu _ _ _ _ _ => some fun _ x y => min x y
  | .vmaxu _ _ _ _ _ => some fun _ x y => max x y
  | .vand _ _ _ _ _ => some fun _ x y => x &&& y
  | .vor _ _ _ _ _ => some fun _ x y => x ||| y
  | .vxor _ _ _ _ _ => some fun _ x y => x ^^^ y
  | .vsll _ _ _ _ _ => some vShl
  | .vsrl _ _ _ _ _ => some vShr
  | .vsra _ _ _ _ _ => some vShra
  | .vabs _ _ _ _ => some fun n x _ => if x < 2 ^ (n - 1) then x else (2 ^ n - x) % 2 ^ n
  | .vneg _ _ _ _ => some fun n x _ => (2 ^ n - x) % 2 ^ n
  | _ => none

/-- An entry of the vector unit or the SFU that acts on registers alone: the core after it and its scalar result. -/
def Core.runRegs (c : Core) (e : SeqEntry) : Core × Option Word :=
  let h := e.handler
  match e.ins with
  | .vadd d a b m et | .vsub d a b m et | .vmul d a b m et | .vmulh d a b m et | .vmin d a b m et | .vmax d a b m et
  | .vminu d a b m et | .vmaxu d a b m et | .vand d a b m et | .vor d a b m et | .vxor d a b m et | .vsll d a b m et
  | .vsrl d a b m et | .vsra d a b m et =>
    (match vIntOp e.ins with | some g => c.vInt h d a b m et g | none => c, none)
  | .vabs d a m et | .vneg d a m et => (match vIntOp e.ins with | some g => c.vInt h d a a m et g | none => c, none)
  | .vadds d a b m et => (c.vSat h d a b m et (· + ·), none)
  | .vsubs d a b m et => (c.vSat h d a b m et (· - ·), none)
  | .vfadd d a b m et => (c.vFp2 h d a b m et fpAdd, none)
  | .vfsub d a b m et => (c.vFp2 h d a b m et fpSub, none)
  | .vfmul d a b m et => (c.vFp2 h d a b m et fpMul, none)
  | .vfdiv d a b m et => (c.vFp2 h d a b m et fpDiv, none)
  | .vfmin d a b m et => (c.vFp2 h d a b m et fmin2, none)
  | .vfmax d a b m et => (c.vFp2 h d a b m et fmax2, none)
  | .vfsqrt d a m et => (c.vFp2 h d a a m et fsqrt1, none)
  | .vfabs d a m et => (c.vFp2 h d a a m et fabs1, none)
  | .vfneg d a m et => (c.vFp2 h d a a m et fneg1, none)
  | .vfmadd d a b m et rm => (c.vFma h false false d a b m et rm, none)
  | .vfmsub d a b m et rm => (c.vFma h false true d a b m et rm, none)
  | .vfnmadd d a b m et rm => (c.vFma h true true d a b m et rm, none)
  | .vfnmsub d a b m et rm => (c.vFma h true false d a b m et rm, none)
  | .vcmp d a b m cc et => (c.vCmp h d a b m cc et, none)
  | .vsel d a b m et => (c.vSel h d a b m et, none)
  | .vred form a m => ((c.vRed h form a m).1, some (c.vRed h form a m).2)
  | .vperm d a b m et => (c.vPerm h d a b m et, none)
  | .vbcastX d _ m et => (c.vFill h d m (Et.bytes et) e.a.toNat, none)
  | .vbcastF d _ m et => (c.vBcastF h d e.a m et, none)
  | .vbcastV d a _ m et => (c.vBcastV h d a e.a m et, none)
  | .vcvt d a t f p => (c.vCvt h d a t f p.val, none)
  | .vquant d a t _ => ((c.vQuant h d a t).1, some (c.vQuant h d a t).2)
  | .mand d a b => (c.setMask d (c.mask a &&& c.mask b), none)
  | .mor d a b => (c.setMask d (c.mask a ||| c.mask b), none)
  | .mxor d a b => (c.setMask d (c.mask a ^^^ c.mask b), none)
  | .mandn d a b => (c.setMask d (c.mask a &&& ~~~(c.mask b)), none)
  | .mnot d a => (c.setMask d (~~~(c.mask a)), none)
  | .mfromx d _ => (c.setMask d e.a, none)
  | .mtox _ a => (c, some (c.mask a))
  | .mpopc _ a => (c, some (BitVec.ofNat 64 (popN (c.mask a) 64)))
  | .vexp d a m => (c.vSfu h d a m sfuExp, none)
  | .vlog d a m => (c.vSfu h d a m sfuLog, none)
  | .vrcp d a m => (c.vSfu h d a m sfuRcp, none)
  | .vrsqrt d a m => (c.vSfu h d a m sfuRsqrt, none)
  | .vtanh d a m => (c.vSfu h d a m sfuTanh, none)
  | .vsigm d a m => (c.vSfu h d a m sfuSigm, none)
  | .vgelu d a m => (c.vSfu h d a m sfuGelu, none)
  | .vsetl _ _ => ({ c with ctl := { c.ctl with vlen := setBits c.ctl.vlen 0 7 e.a.toNat } }, none)
  | _ => (c, none)

def isPush : Instr → Bool
  | .wlpush _ _ => true
  | _ => false

/-- Whether a WLPUSH that has issued is still to execute. -/
def SeqState.pushes (q : SeqState) : Bool :=
  q.queue.any (fun e => isPush e.ins) ||
    (match q.loop with
     | some l => (if 0 < l.want || 1 < l.left then l.body else l.body.drop l.pos).any fun e => isPush e.ins
     | none => false)

/-- A vote in the work set of a group (spec/09 R141), which a WLPUSH that has issued behind it withdraws at once (spec/07 R106). -/
def Core.vote (c : Core) (g : Fin 256) : Core :=
  if c.eng.votes.contains g || c.seq.pushes then c else { c with eng := { c.eng with votes := c.eng.votes ++ [g] } }

/-- A posted chunk is on its way to its Broker (spec/17 R292). -/
def State.postChunk (s : State) (k : CoreIx) (stamp : Nat) (w : Word) (v : Vec) : State :=
  let x : Posting := { id := s.nextId, stamp := stamp, core := k, word := w, data := v, taken := none }
  { s with posts := s.posts ++ [x], nextId := s.nextId + 1 }

/-- A play waits for the release of its core's stores (spec/17 R299). -/
def State.queuePlay (s : State) (k : CoreIx) (g : Nat) (v : Vec) (stamp : Nat) : State :=
  let r : PlayReq := { core := k, lid := (s.core k).slot.lid, ctx := (s.core k).slot.ctx, bases := (List.range 8).map (dw v), stamp := stamp }
  { s with convoy := { s.convoy with plays := s.convoy.plays ++ [(Fin.ofNat 16 g, r)] } }

/-- The bundle of an entry that the handler issued. -/
def SeqEntry.hpc (e : SeqEntry) : Option Pc := if e.handler then some e.pc else none

/-- VST as executed: a store of 64 bytes, or a command that joins the matrix queue when it has room (spec/17 R271). -/
def State.vstEntry (s : State) (k : CoreIx) (e : SeqEntry) (v : VReg) (b : Buf) (m : MReg) : Ran :=
  let c := s.core k
  if c.isQueueAddr b e.a.toNat then
    if c.mat.mq.length ≥ 8 then .error s else s.ran k (c.enqueueMat e.handler v m e.stamp)
  else .ok (s.moveRun k e.hpc b 1 (c.lane m) (e.a.toNat + ·) fun s => s.vstRun k e.handler v b m e.a.toNat, none)

/-- A strided or an indexed form as executed, a load or a store: the active elements at their offsets. -/
def State.elemsEntry (s : State) (k : CoreIx) (e : SeqEntry) (store : Bool) (v : VReg) (b : Buf) (m : MReg) (n : Nat)
    (off : Nat → Nat) : Ran :=
  .ok (s.moveRun k e.hpc b n ((s.core k).active m n) off fun s =>
    if store then s.scatterRun k e.handler v b m n off else s.gatherRun k e.handler v b m n off,
    if store then none else s.badMark k b n ((s.core k).active m n) off)

/-- An instruction of the Market as executed. -/
def State.mktEntry (s : State) (k : CoreIx) (e : SeqEntry) (p : Nat) (op : MktOp) : Ran :=
  .ok (s.mktSend { part := Fin.ofNat 16 p, core := k, stamp := e.stamp, hpc := e.hpc, op := op }, none)

/-- WLPOP as executed (spec/17 R287). -/
def State.popEntry (s : State) (k : CoreIx) (h : Bool) (v : VReg) : Ran :=
  match s.wlPop k with
  | (s, none) => .ok (s, some (BitVec.ofNat 64 (2 ^ 63)))
  | (s, some (item, n)) =>
    let c := s.core k
    let old := c.vView h v
    let w : Vec := BitVec.ofNat 512 (old.toNat / 2 ^ 128 * 2 ^ 128 + item.toNat)
    .ok (s.setCore k (c.setV h v w), some (BitVec.ofNat 64 n))

/-- What may stall for want of room or of an entry. -/
def State.orStall (s : State) (r : Option State) : Ran :=
  match r with
  | some s' => .ok (s', none)
  | none => .error s

/-- Execute an entry; `more` says that later iterations of its block follow. -/
def State.runEntry (s : State) (k : CoreIx) (e : SeqEntry) (more : Bool) : Ran :=
  let h := e.handler
  let c := s.core k
  match e.ins with
  | .vld v _ b m _ =>
    .ok (s.moveRun k e.hpc b 1 (c.lane m) (e.a.toNat + ·) fun s => s.vldRun k h v b m e.a.toNat,
      s.badMark k b 1 (c.lane m) (e.a.toNat + ·))
  | .vst v _ b m _ => s.vstEntry k e v b m
  | .vlds v _ _ b m z => s.elemsEntry k e false v b m (Esz.bytes z) (stridedOff e.a e.b b)
  | .vsts v _ _ b m z => s.elemsEntry k e true v b m (Esz.bytes z) (stridedOff e.a e.b b)
  | .vldx v _ x b m z => s.elemsEntry k e false v b m (Esz.bytes z) (indexedOff e.a (c.vView h x) (Esz.bytes z) b)
  | .vstx v _ x b m z => s.elemsEntry k e true v b m (Esz.bytes z) (indexedOff e.a (c.vView h x) (Esz.bytes z) b)
  | .nqsend v d => s.orStall (s.nqSend k e.hpc d (c.vView h v))
  | .nqrecv v d => s.orStall ((s.nqTake k d).map fun (s, w) => s.modCore k (·.setV h v w))
  | .wlpush v _ => .ok (s.wlPush k e.hpc (toCore e.a.toNat) ((c.vView h v).setWidth 128), none)
  | .wlpop _ v => s.popEntry k h v
  | .wldone g => s.ran k (c.vote g)
  | .postrx _ v => s.postrxRun k (c.vView h v)
  | .send _ v => s.sendRun k (c.vView h v)
  | .gatepost v _ => .ok (s.postChunk k e.stamp e.a (c.vView h v), none)
  | .mktrun _ _ => s.mktEntry k e (bits e.a 0 4) (.run e.a e.b)
  | .mktrd _ _ =>
    match e.flight with
    | some f => s.mktEntry k e (bits e.a 16 4) (.read e.a f more)
    | none => .ok (s, none)
  | .mktwr _ _ => s.mktEntry k e (bits e.a 16 4) (.write e.a e.b)
  | .cvplay v _ => .ok (s.queuePlay k (bits e.a 0 4) (c.vView h v) e.stamp, none)
  | _ => .ok (s.setCore k (c.runRegs e).1, (c.runRegs e).2)

/-! ## The order of execution -/

/-- The next entry to execute, and whether it belongs to the block: entries issued before the block go first, then the block
once it is captured, then those behind it. -/
def SeqState.head? (q : SeqState) : Option (Bool × SeqEntry) :=
  match q.loop, q.queue with
  | none, e :: _ => some (false, e)
  | none, [] => none
  | some l, e :: _ => if e.stamp < l.stamp then some (false, e) else if l.want = 0 then (l.body[l.pos]?).map (true, ·) else none
  | some l, [] => if l.want = 0 then (l.body[l.pos]?).map (true, ·) else none

/-- The next entry of the block. -/
def Loop.advance (l : Loop) : Loop :=
  if l.pos + 1 < l.body.length then { l with pos := l.pos + 1 } else { l with pos := 0, left := l.left - 1 }

/-- The entry at the head has executed, or is withdrawn. -/
def Core.seqAdvance (c : Core) (inLoop : Bool) : Core :=
  let c :=
    if inLoop then { c with seq := { c.seq with loop := c.seq.loop.map Loop.advance, nqWait := none } }.endLoop
    else { c with seq := { c.seq with queue := c.seq.queue.tail, nqWait := none } }
  if c.seq.queue.isEmpty && c.seq.loop.isNone then { c with seq := { c.seq with drain := false } } else c

/-- Whether later iterations of a block's entry follow. -/
def SeqState.more (q : SeqState) (inLoop : Bool) : Bool :=
  inLoop && (match q.loop with | some l => decide (1 < l.left) | none => false)

/-- The scalar result of an entry lands later (spec/07 R94). -/
def State.deliverTo (s : State) (k : CoreIx) (e : SeqEntry) (v : Option Word) (more : Bool) : State :=
  match v, e.flight with
  | some w, some f => if more then s.giveMore k e.handler f w else s.give k e.handler f w
  | _, _ => s

/-- Execute the next entry of a core's sequencer: what comes before its local access is performed, and the local accesses that stood
behind it follow (spec/10 R150). Where there is none, or it stalls, the state keeps no more than places in retry lists. -/
def State.seqStep (s : State) (k : CoreIx) : Except State State :=
  let c := s.core k
  match c.seq.head? with
  | none => .error s
  | some (inLoop, e) =>
    if c.outFull e.ins then .error s
    else
      let more := c.seq.more inLoop
      let s0 := if isMove e.ins || (c.entryLocal e && !(s.ownPending k e.stamp).isEmpty) then s.flushOwn k e.stamp else s
      match (s0.portsIn k e.ins).runEntry k e more with
      | .error s' => .error (s.stall s')
      | .ok (s1, v) =>
        .ok ((((s1.portsOut k e.ins e.stamp v).deliverTo k e v more).modCore k (·.seqAdvance inLoop)).settleLocal k)

def isNq : Instr → Bool
  | .nqsend _ _ => true
  | .nqrecv _ _ => true
  | _ => false

/-- The oldest entry stalls: one that waits on a neighbour queue begins its wait (spec/07 R102). -/
def State.seqStalled (s : State) (k : CoreIx) : State :=
  let c := s.core k
  match c.seq.head? with
  | some (_, e) =>
    if isNq e.ins && c.seq.nqWait.isNone then s.setCore k { c with seq := { c.seq with nqWait := some s.now } } else s
  | none => s

/-- Execute entries until none is left or one stalls, at most n. -/
def State.seqRun (k : CoreIx) : Nat → State → State
  | 0, s => s
  | n + 1, s =>
    match s.seqStep k with
    | .ok s' => State.seqRun k n s'
    | .error s' => s'.seqStalled k

/-- Executions that the queue holds. -/
def SeqState.work (q : SeqState) : Nat :=
  q.queue.length + (match q.loop with | some l => l.body.length * l.left | none => 0) + 1

/-- The sequencer goes on as far as it can, unless the agenda says when its entries execute (log 8); local accesses that no entry stands
before any more are performed. -/
def State.seqDrain (s : State) (k : CoreIx) : State :=
  let s := s.settleLocal k
  if s.seqHold then s else State.seqRun k (s.core k).seq.work s

/-! ## Issue -/

/-- Entries held, the block's among them (spec/07 R100). -/
def SeqState.held (q : SeqState) : Nat := q.entries.length

/-- An instruction joins the sequencer, or the block that is being captured. -/
def Core.enqueue (c : Core) (e : SeqEntry) : Core :=
  match c.seq.loop with
  | some l =>
    if 0 < l.want then { c with seq := { c.seq with loop := some { l with body := l.body ++ [e], want := l.want - 1 } } }.endLoop
    else { c with seq := { c.seq with queue := c.seq.queue ++ [e] } }
  | none => { c with seq := { c.seq with queue := c.seq.queue ++ [e] } }

/-- The mask an entry writes. -/
def mDest : Instr → Option MReg
  | .vcmp d _ _ _ _ _ => some d
  | .mand d _ _ => some d
  | .mor d _ _ => some d
  | .mxor d _ _ => some d
  | .mandn d _ _ => some d
  | .mnot d _ => some d
  | .mfromx d _ => some d
  | _ => none

/-- Whether an earlier entry still has to write a mask (spec/07 R98); those of a block count, captured or not (log 31). -/
def Core.maskPending (c : Core) (m : MReg) : Bool := c.seq.entries.any fun e => mDest e.ins = some m

/-- Whether the context may write what the instruction writes (spec/07 R104, spec/16 R252). -/
def State.mayEntry (s : State) (i : Instr) (dst : Option FDst) : Bool :=
  !s.curH ||
  ((match vDest i with | some v => v.val < 8 | none => true) && (mDest i).isNone &&
    (match dst with | some (.x d) => d.val < 16 | some (.f _) => false | none => true))

/-- Put an instruction into the sequencer with its captured scalars and the register its result goes to. -/
def State.issueEntry (s : State) (i : Instr) (a b : Word) (dst : Option FDst) : Out :=
  if !s.mayEntry i dst then ok s.forbidden
  else if s.cc.seq.held ≥ 16 then ok s.hold
  else if dst.isSome && !s.room 1 then ok s.hold
  else
    let f : Option Nat := dst.map fun _ => s.nextId
    let s1 := match dst with | some d => s.fly d [] true | none => s
    let e : SeqEntry := { ins := i, a := a, b := b, flight := f, handler := s.curH, pc := s.curPc, stamp := s1.nextId }
    ok (({ s1 with nextId := s1.nextId + 1 }.mod (·.enqueue e)).seqDrain s.cur)

end Sys2Proof.Machine
end

