-- ==== Sys2Proof/Machine/Copy.lean ====
section
/-!
DEFINITION. The Copy Engine (spec/09 R131 to R136, spec/17 R300), and its transfers for Residency fetches (spec/17 R297,
spec/22 R318, R319).
-/

namespace Sys2Proof.Machine

/-! ## The snapshot (R131 to R133) -/

def CpRegs.gather (r : CpRegs) : Bool := bit r.flags 63
def CpRegs.prep (r : CpRegs) : Bool := bit r.flags 62
def CpRegs.rowBytes (r : CpRegs) : Nat := bits r.flags 0 24 * 8
def CpRegs.cnt (r : CpRegs) (n : Fin 3) : Nat := bits r.count[n] 0 32
def CpRegs.sstr (r : CpRegs) (n : Fin 3) : Int := sgn 32 (bits r.stride[n] 32 32)
def CpRegs.dstr (r : CpRegs) (n : Fin 3) : Int := sgn 32 (bits r.stride[n] 0 32)

/-- Whether a snapshot breaks no rule of R132. -/
def CpRegs.ok (r : CpRegs) : Bool :=
  bits r.cls 0 2 ≠ 3 && bits r.cls 2 62 == 0 && bits r.flags 24 37 == 0 && bits r.flags 0 24 ≠ 0
  && r.src.toNat % 8 == 0 && r.dst.toNat % 8 == 0 && (!r.gather || r.idx.toNat % 4 == 0)
  && ((List.finRange 3).all fun n => bits r.count[n] 32 32 == 0 && bits r.stride[n] 32 32 % 8 == 0 && bits r.stride[n] 0 32 % 8 == 0)

def CpRegs.total (r : CpRegs) : Nat := r.cnt 0 * r.cnt 1 * r.cnt 2 * r.rowBytes

/-- Bytes of a transfer. -/
def Xfer.total (x : Xfer) : Nat :=
  match x.fetch with
  | some f => f.plen * f.members.length
  | none => x.regs.total

def Xfer.cls (x : Xfer) : RClass := if x.fetch.isSome then .adp else clsOf (bits x.regs.cls 0 2)

def Xfer.chunks (x : Xfer) : Nat := (x.total + 4095) / 4096

/-- Chunks in flight: begun, not landed, not failed. -/
def Xfer.inFlight (x : Xfer) : List Nat :=
  ((List.range x.started).map (· + x.base)).filter fun c => !x.landed.contains c && !x.lost.contains c

/-- Begin chunks while at most four are in flight and none has failed. -/
def Xfer.begin (x : Xfer) : Xfer :=
  if x.failed.isSome then x else { x with started := min (x.chunks - x.base) (x.started + (4 - x.inFlight.length)) }

/-- The cursor: the lowest chunk that has not landed, in bytes. -/
def Xfer.cursor (x : Xfer) : Nat :=
  match (List.range x.chunks).find? fun c => x.base ≤ c && !x.landed.contains c with
  | some c => 4096 * c
  | none => x.total

/-- A destination address of R133 at a stream offset. -/
def CpRegs.dstAt (r : CpRegs) (o : Nat) : Word :=
  let row := o / r.rowBytes
  let i0 : Int := (row % r.cnt 0 : Nat)
  let i1 : Int := (row / r.cnt 0 % r.cnt 1 : Nat)
  let i2 : Int := (row / r.cnt 0 / r.cnt 1 : Nat)
  let d0 : Int := if r.gather then (r.rowBytes : Nat) else r.dstr 0
  r.dst + BitVec.ofInt 64 (i0 * d0 + i1 * r.dstr 1 + i2 * r.dstr 2 + (o % r.rowBytes : Nat))

/-- A source address, given the selected row. -/
def CpRegs.srcAt (r : CpRegs) (o : Nat) (sel : Nat) : Word :=
  let row := o / r.rowBytes
  let i1 : Int := (row / r.cnt 0 % r.cnt 1 : Nat)
  let i2 : Int := (row / r.cnt 0 / r.cnt 1 : Nat)
  r.src + BitVec.ofInt 64 ((sel : Int) * r.sstr 0 + i1 * r.sstr 1 + i2 * r.sstr 2 + (o % r.rowBytes : Nat))

/-- The destination of a transfer at a stream offset. -/
def Xfer.dstAt (x : Xfer) (o : Nat) : Word :=
  match x.fetch with
  | some f => winGa (f.members.getD (o / f.plen) 0) .w (f.wbase + o % f.plen)
  | none => x.regs.dstAt o

/-- The accessor that a core's engine is; with TOKCHK its accesses to other devices are made under a held token. -/
def cpAcc (s : State) (k : CoreIx) (x : Xfer) : Acc :=
  { ctx := (s.core k).slot.ctx, cl := some (clusterOf k.val), core := k.val, src := 1, row := .copy, cls := x.cls, eng := true,
    tok := x.fetch.isNone && bit x.regs.flags 61 }

/-- Read eight bytes; where they are not aligned, as two parts, each translated. A failure names the address of its part. -/
def State.engRead8 (s : State) (e : Acc) (ga : Word) : State × Except (Word × AccErr) Nat :=
  let n := 8 - ga.toNat % 8
  match s.engRead e ga n with
  | (s, .error a) => (s, .error (ga, a))
  | (s, .ok v) =>
    if n = 8 then (s, .ok v)
    else
      let hi := ga + BitVec.ofNat 64 n
      match s.engRead e hi (8 - n) with
      | (s, .error a) => (s, .error (hi, a))
      | (s, .ok w) => (s, .ok (v + w * 2 ^ (8 * n)))

/-- The source address at a stream offset; the index entry of a gathered row is read first. -/
def State.srcOf (s : State) (e : Acc) (x : Xfer) (o : Nat) : State × Except (Word × AccErr) Word :=
  match x.fetch with
  | some f => (s, .ok (BitVec.ofNat 64 (f.srcVa + o)))
  | none =>
    let i0 := o / x.regs.rowBytes % x.regs.cnt 0
    if x.regs.gather then
      let ga := x.regs.idx + BitVec.ofNat 64 (4 * i0)
      match s.engRead e ga 4 with
      | (s, .error a) => (s, .error (ga, a))
      | (s, .ok i) => (s, .ok (x.regs.srcAt o i))
    else (s, .ok (x.regs.srcAt o i0))

/-- Move the words from a stream offset on; a failure names its address. -/
def State.copyWords (e : Acc) (x : Xfer) : Nat → Nat → State → State × Except (Word × AccErr) Unit
  | 0, _, s => (s, .ok ())
  | n + 1, o, s =>
    match s.srcOf e x o with
    | (s, .error a) => (s, .error a)
    | (s, .ok src) =>
      match s.engRead8 e src with
      | (s, .error a) => (s, .error a)
      | (s, .ok v) =>
        match s.engWrite e (x.dstAt o) 8 v with
        | (s, .error a) => (s, .error (x.dstAt o, a))
        | (s, .ok ()) => State.copyWords e x n (o + 8) s

/-! ## The slots -/

def Core.xfer (c : Core) (xid : BitVec 16) : Option Xfer := c.eng.copies.find? (·.xid == xid)

def Core.setXfer (c : Core) (x : Xfer) : Core :=
  { c with eng := { c.eng with copies := c.eng.copies.map fun y => if y.xid == x.xid then x else y } }

/-- A transfer ends: kind 0x20 with its Relay pulses; the slot is taken until the message is placed. The entry of a fetch is
resident, or absent where the transfer did not end normally (spec/08 R129, spec/22 R321). -/
def State.endXfer (s : State) (k : CoreIx) (x : Xfer) (st payload : Nat) : State :=
  let s := s.modCore k (·.setXfer { x with ended := true })
  let s := match x.fetch with
    | some f =>
      let r := s.res f.entry
      if st = 0 then s.setResAll f.entry { r with state := 2, xid := 0 } else s.setRes f.entry { r with state := 0, xid := 0 }
    | none => s
  let s := s.charge (s.core k).slot.ctx 5 (Config.cost s.free)
  let s := { s with free := s.free + 1 }
  (s.modCore k (·.relayPulses [(2, 0), (3, x.xid.toNat)])).place k
    [mkMsg 0x20 st k.val x.xid.toNat (BitVec.ofNat 64 payload)] (.freeXfer x.xid)

/-- Whether a core has halted, also while its halted context is saved. -/
def Core.hasHalted (c : Core) : Bool := c.slot.st = .halted || c.slot.st = .saving

/-- The launch-rank-0 core of a core's launch, unless it is halted, frozen or released (R136); a saved one is not gone. -/
def State.supervisor (s : State) (k : CoreIx) : Option CoreIx :=
  match s.sched.launches.find? fun l => l.lid == (s.core k).slot.lid && l.st ≠ .ended with
  | none => none
  | some l =>
    match (l.groups.getD 0 []).head? with
    | none => none
    | some i =>
      let c := s.core (toCore i)
      if s.binds (toCore i) l.lid then (if c.hasHalted || c.slot.st = .frozen then none else some (toCore i))
      else
        match lookup s.saves (saveKey l.lid (toCore i)) with
        | some sv => if sv.core.hasHalted then none else some (toCore i)
        | none => none

/-- A failed transfer is suspended once its chunks have left flight, with its fault record; without a supervisor it ends with
status 2 and its cursor. -/
def State.suspendXfer (s : State) (k : CoreIx) (x : Xfer) (cause : BitVec 8) (ga : Word) : State :=
  match s.supervisor k with
  | none => s.endXfer k x 2 x.cursor
  | some j =>
    (s.modCore k (·.setXfer { x with state := .suspended })).placeFor j (s.core k).slot.lid
      [mkMsg 0x21 cause.toNat k.val x.xid.toNat ga, mkMsg 0x22 0 k.val x.xid.toNat (BitVec.ofNat 64 x.cursor)] .keep

/-- After a chunk has left flight: the transfer goes on, ends or is suspended. -/
def State.settleXfer (s : State) (k : CoreIx) (x : Xfer) : State :=
  let x := x.begin
  if x.inFlight.isEmpty then
    match x.failed with
    | some (_, cause, ga) => s.suspendXfer k x cause ga
    | none => s.endXfer k x 0 x.total
  else s.modCore k (·.setXfer x)

/-- Note a failing chunk: the record names the lowest. -/
def Xfer.fail (x : Xfer) (c : Nat) (cause : BitVec 8) (ga : Word) : Xfer :=
  { x with lost := x.lost ++ [c],
           failed := match x.failed with
             | some f => if f.1 ≤ c then some f else some (c, cause, ga)
             | none => some (c, cause, ga) }

/-- The suspended transfers of a launch whose supervisor is gone end with status 2 and their cursors (R136). -/
def State.orphanXfers (s : State) (lid : BitVec 16) : State :=
  s.listed.foldl (fun s k =>
    if (s.core k).slot.lid == lid && (s.core k).slot.st ≠ .idle then
      (s.core k).eng.copies.foldl (fun s x =>
        if x.state = .suspended && !x.ended then s.endXfer k x 2 x.cursor else s) s
    else s) s

/-- A chunk lands or fails; a prepared transfer that the Relay has started begins its chunks first. A chunk cannot land while a token moves under one of its words. -/
def execCopyChunkLanding (k : CoreIx) (xid : BitVec 16) (chunk : Nat) (s : State) : Out :=
  match (s.core k).xfer xid with
  | none => ok s
  | some x0 =>
    let x := x0.begin
    if x.state = .running && !x.ended && x.inFlight.contains chunk then
      let o := 4096 * chunk
      match State.copyWords (cpAcc s k x) x ((min (x.total - o) 4096 + 7) / 8) o s with
      | (s', .error (_, .wait)) => ok (s.stall s')
      | (s', .error (ga, e)) => ok (s'.settleXfer k (x.fail chunk e.cause ga))
      | (s', .ok ()) => ok (s'.settleXfer k { x with landed := x.landed ++ [chunk] })
    else ok s

/-- A transfer begins: what is malformed or empty ends at once (R132). -/
def State.beginXfer (s : State) (k : CoreIx) (x : Xfer) : State :=
  if x.fetch.isNone && !x.regs.ok then s.endXfer k x 1 0
  else if x.total = 0 then s.endXfer k x 0 0
  else s.modCore k (·.setXfer x.begin)

def newXfer (s : State) (k : CoreIx) (xid : BitVec 16) (regs : CpRegs) (fetch : Option FetchInfo) : Xfer :=
  { xid := xid, stamp := s.nextId, regs := regs, priv := (s.core k).priv, state := .running, base := 0, started := 0,
    landed := [], lost := [], failed := none, fetch := fetch, ended := false }

/-- Take a slot, if one is free: the state with the transfer in its slot, and the transfer. -/
def State.takeSlot (s : State) (k : CoreIx) (regs : CpRegs) (fetch : Option FetchInfo) : Option (State × Xfer) :=
  let c := s.core k
  if c.eng.copies.length ≥ 16 then none
  else
    let id := c.newXid
    let x := newXfer s k id regs fetch
    let s := s.setCore k { c with eng := { c.eng with copies := c.eng.copies ++ [x], xid := id } }
    some ({ s with nextId := s.nextId + 1 }, x)

/-- GETC of CP_LAUNCH (R132): the transfer ID, or 0 where no slot is free. -/
def State.launchCopy (s : State) (d : XReg) : Out :=
  if !s.mayX d then ok s.forbidden
  else if !s.room 1 then ok s.hold
  else
    match s.takeSlot s.cur s.cc.eng.cp none with
    | none => ok (s.flyX d 0)
    | some (s1, x) =>
      let x := { x with priv := s.privNow, state := if x.regs.prep && x.regs.ok && x.total ≠ 0 then .prepared else .running }
      let s2 := s1.modCore s.cur (·.setXfer x)
      let s3 := if x.state = .prepared then s2 else s2.beginXfer s.cur x
      ok (s3.flyX d (x.xid.setWidth 64))

def execCpLaunch (d : XReg) (s : State) : Out := s.launchCopy d

/-! ## Replay (R136, spec/17 R300) -/

/-- A suspended transfer restarts at its cursor. -/
def State.resumeXfer (s : State) (k : CoreIx) (x : Xfer) : State :=
  let x := { x with state := .running, base := x.cursor / 4096, started := 0, landed := [], lost := [], failed := none }
  s.modCore k (·.setXfer x.begin)

/-- The result of CPREPLAY and its effect. -/
def State.replay (s : State) (k : CoreIx) (xid : BitVec 16) (mode : ReplayMode) : State × Word :=
  let c := s.cc
  if c.slot.lrank ≠ 0 || (s.core k).slot.lid ≠ c.slot.lid || (s.core k).slot.st = .idle then (s, 2)
  else
    match (s.core k).xfer xid with
    | none => (s, 1)
    | some x =>
      if x.state = .suspended && !x.ended then
        match mode with
        | .resume => (s.resumeXfer k x, 0)
        | .abandon => (s.endXfer k x 2 x.cursor, 0)
      else (s, 1)

def execCpreplay (d a b : XReg) (mode : ReplayMode) (s : State) : Out :=
  if !s.mayX d then ok s.forbidden
  else if (s.rx a).toNat ≥ 2 ^ 12 || (s.rx b).toNat ≥ 2 ^ 16 then ok s.illegal
  else if !s.privNow then ok (s.trap 3 (s.word.setWidth 64))
  else if !s.room 1 then ok s.hold
  else
    match s.replay (toCore (s.rx a).toNat) (BitVec.ofNat 16 (s.rx b).toNat) mode with
    | (s', w) => ok (s'.flyX d w)

end Sys2Proof.Machine
end

