-- ==== Sys2Proof/Machine/Global.lean ====
section
/-!
DEFINITION. Global loads, stores and atomics (spec/15 R232 to R236), queries of the Residency Table (spec/17 R296) and token moves (spec/15 R248) as a
core issues them: the checks at issue, translation, the source's checks of a request to another device, and the cached lines
of regions whose token the device holds (spec/10 R147).
-/

namespace Sys2Proof.Machine

/-! ## The cached lines (spec/10 R147, spec/15 R236) -/

/-- Whether this device holds the token of the region of a system address. -/
def State.holdsToken (s : State) (sys : BitVec 50) : Bool := s.fab.held.contains (devOf sys, physOf sys / 2 ^ 21)

def wordOfLine (sys : BitVec 50) : Nat := sys.toNat / 8 % 8

def State.setLine (s : State) (sys : BitVec 50) (l : Line) : State :=
  { s with fab := { s.fab with cache := put s.fab.cache (sys.toNat / 64) l } }

/-- Whether a request finds its word in the cache, a row a word of its line, with no earlier request to it still on its way. -/
def State.hits (s : State) (r : Req) : Bool :=
  r.tokchk && !r.nocache && r.fe = .plain &&
    (match s.line? r.sys with
     | some l => (match r.op with | .acc (.row _) => l.valid != 0 | _ => l.valid.getLsbD (wordOfLine r.sys))
     | none => false) &&
    !s.net.any fun q => q.id != r.id && q.phase = .sent && q.meets r

/-- Every line of a region. -/
def State.dropRegion (s : State) (dev region : Nat) : State :=
  (s.fab.cache.map (·.1)).foldl
    (fun s k => if k / 2 ^ 34 == dev && k / 2 ^ 15 % 2 ^ 19 == region then s.dropLine k else s) s

/-- Perform an access in the cached line, its home. -/
def State.hit (s : State) (r : Req) (kind : AccKind) : State :=
  match s.line? r.sys with
  | none => s
  | some l =>
    let i := wordOfLine r.sys
    let old : Word := BitVec.ofNat 64 (elem l.data 8 i)
    let sh := 8 * (r.sys.toNat % 8)
    let n := 8 * accWidth kind
    let val : Word := BitVec.ofNat 64 (bits old sh n)
    let store (w : Word) : State :=
      s.setLine r.sys { l with data := vecOf 8 (fun j => if j = i then (setBits old sh n w.toNat).toNat else elem l.data 8 j),
                               dirty := l.dirty ||| BitVec.ofNat 8 (2 ^ i) }
    match kind with
    | .load _ => s.answer r 0 val
    | .store _ w => (store w).answer r 0 0
    | .atomic op o c => (store (atomicNew op val o c)).answer r 0 val
    | .row v => (s.setLine r.sys { data := v, valid := 0xFF, dirty := 0xFF }).answer r 0 0

/-- A doubleword that a load under the token brought fills its place. -/
def State.fillLine (s : State) (sys : BitVec 50) (w : Word) : State :=
  let l := (s.line? sys).getD { data := 0, valid := 0, dirty := 0 }
  let i := wordOfLine sys
  if l.valid.getLsbD i then s
  else s.setLine sys { l with data := vecOf 8 (fun j => if j = i then w.toNat else elem l.data 8 j),
                              valid := l.valid ||| BitVec.ofNat 8 (2 ^ i) }

/-- The token of a region leaves this device: its dirty words go home first, and every copy is dropped (spec/02 R35). -/
def State.yieldToken (s : State) (dev region : Nat) : State :=
  let s := s.dropRegion dev region
  { s with fab := { s.fab with held := s.fab.held.filter (· != (dev, region)) } }

/-- Whether an access to a region of another device, a write-back among them, is in flight. -/
def State.inFlight (s : State) (dev region : Nat) : Bool := s.net.any fun r => r.phase = .sent && r.touches dev region

/-! ## Sending -/

/-- Whether a load with a token would fill a cached copy (spec/10 R147). -/
def Req.fills (r : Req) : Bool := r.op = .acc (.load 8) && r.tokchk && !r.nocache && r.fe = .plain

/-- Whether an earlier write is on its way to a word of a request. -/
def State.writeAhead (s : State) (r : Req) : Bool :=
  s.net.any fun q => q.id < r.id && q.phase = .sent && q.meets r && (match q.op with | .acc kind => accWrites kind | _ => false)

/-- A request leaves on its plane; its response is awaited from now on (R33). -/
def State.leave (s : State) (r : Req) (p : Fin 16) : State :=
  let dev := devOf r.sys
  let r := { r with plane := some p, due := s.now + toTicks s.fab.rspTimeout, nocache := r.nocache || s.writeAhead r }
  match r.op with
  | .acc kind =>
    let s := if accWrites kind then s.noFill r.sys (accWidth kind) else s
    let s := if accWrites kind && r.src ≠ .cache then s.charge r.ctx 12 (accWidth kind) else s
    let via := if r.cls = .spr && !(s.peer dev).foreign then s.sprVia dev else none
    let hdr := s.header dev r.sys (s.reqLow dev r.src.coreOf.val r.tokchk r.fe r.cls) (payloadOf kind)
    { ((s.putReq r).fabOut (.request r.sys kind hdr via)).addOutstanding p with free := s.free + 1 }
  | .tok release =>
    let s := if release then s.yieldToken dev (physOf r.sys / 2 ^ 21) else s
    ((s.putReq r).fabOut (.tokAsk r.sys release)).addOutstanding p
  | .query _ _ => s.putReq r

/-- What goes home before a request leaves: the dirty words of a cached copy of its line, or, once a release may leave, of its region
(spec/02 R35, spec/10 R147). -/
def State.clearWay (s : State) (r : Req) (p : Fin 16) : State :=
  match r.op with
  | .acc _ => if r.tokchk && r.src ≠ .cache then s.dropLine (r.sys.toNat / 64) else s
  | .tok true => if s.mayLeave r p then s.dropRegion (devOf r.sys) (physOf r.sys / 2 ^ 21) else s
  | _ => s

/-- A request to another device that has not left: it is refused at the source, hits a cached word, leaves on its plane, or waits to
leave (spec/02 R28 to R30, R36, spec/15 R236). -/
def State.depart (s : State) (r : Req) : State :=
  match s.route (devOf r.sys) r.cls (r.fe = .plain) with
  | .error st => s.refuse r st
  | .ok p =>
    let r := { r with tokchk := r.src = .cache || s.holdsToken r.sys }
    let go : State := let s := s.clearWay r p; if s.mayLeave r p then s.leave r p else s
    match r.op with
    | .acc kind =>
      if s.hits r then s.hit r kind
      else if (s.peer (devOf r.sys)).foreign && r.fills then s.refuse r 2 else go
    | _ => go

/-- A request to another device joins those on their way. -/
def State.sendRemote (s : State) (r : Req) : State := { s with net := s.net ++ [r] }.depart r

/-- A request whose address translates or fails to; an HRET row needs the leaf's E bit as well (spec/08 R121). A walk that reads an
uncorrectable burst is answered with 0x4 and logged on its die (spec/06 R89). -/
def State.sendReq (s : State) (src : ReqSrc) (op : ReqOp) (need : Need) (cls : RClass) (fe : FeMode) (ga : Word) (ext : Ext)
    (flight : Option Nat) : State :=
  let k := src.coreOf
  let ctx := (s.core k).slot.ctx
  let r : Req := { id := s.nextId, src := src, op := op, cls := cls, fe := fe, ga := ga, sys := BitVec.ofNat 50 ga.toNat,
                   reg := false, loc := false, tokchk := false, ext := ext, flight := flight, phase := .faulted,
                   due := s.now + toTicks s.fab.rspTimeout, ctx := ctx, nocache := true, plane := none }
  let s := { s with nextId := s.nextId + 1 }
  let row := match src with | .row _ _ _ => true | _ => false
  match s.xlate (some (clusterOf k.val)) ctx row need ga with
  | (s, .error .fault) => { s with net := s.net ++ [r] }
  | (s, .error (.table a)) =>
    let r := { r with sys := sysOf s.own a, phase := .sent }
    { s with net := s.net ++ [r] }.refuse r 4
  | (s, .ok x) =>
    let r := { r with sys := x.sys, reg := x.reg, nocache := x.nc, phase := .sent }
    if x.reg || devOf x.sys = s.own then { s with net := s.net ++ [r] } else s.sendRemote r

/-- The requester that the executing bundle is. -/
def State.me (s : State) : ReqSrc := .core s.cur s.curH s.curPc

/-- A global access of the executing bundle (R232): register kind only at S, alignment, then the request. -/
def State.issueAcc (s : State) (kind : AccKind) (cls : RClass) (fe : FeMode) (ga : Word) (ext : Ext) (dst : Option XReg) :
    Out :=
  if (match dst with | some d => !s.mayX d | none => false) then ok s.forbidden
  else if bits ga 62 2 = 2 && !s.privNow then ok (s.trap 3 (s.word.setWidth 64))
  else if ga.toNat % accWidth kind ≠ 0 then ok (s.trap 1 ga)
  else if dst.isSome && !s.room 1 then ok s.hold
  else
    match dst with
    | some d => ok ((s.flyOpen d).sendReq s.me (.acc kind) (accNeed kind) cls fe ga ext (some s.nextId))
    | none => ok (s.sendReq s.me (.acc kind) (accNeed kind) cls fe ga ext none)

/-! ## R233, R234 -/

def ldWidth : LdWidth → Nat × Ext
  | .bu => (1, .zero 1)
  | .b => (1, .sign 1)
  | .hu => (2, .zero 2)
  | .h => (2, .sign 2)
  | .wu => (4, .zero 4)
  | .w => (4, .sign 4)
  | .d => (8, .zero 8)

def stWidth : StWidth → Nat
  | .b => 1
  | .h => 2
  | .w => 4
  | .d => 8

def execLd (d a : XReg) (cls : RClass) (fe : LoadFe) (op : LdWidth) (s : State) : Out :=
  s.issueAcc (.load (ldWidth op).1) cls (loadMode fe) (s.rx a) (ldWidth op).2 (some d)

def execSt (a b : XReg) (cls : RClass) (fe : StoreFe) (op : StWidth) (s : State) : Out :=
  s.issueAcc (.store (stWidth op) (s.rx b)) cls (storeMode fe) (s.rx a) (.zero (stWidth op)) none

/-! ## R235 -/

/-- An atomic: the operand is x[B], the comparand x[D] as read at issue. -/
def State.issueAtomic (s : State) (op : AtomicOp) (d a b : XReg) (cls : RClass) (wf : Bool) : Out :=
  s.issueAcc (.atomic op (s.rx b) (s.rx d)) cls (if wf then .wf else .plain) (s.rx a)
    (.zero (if op = .fadd then 4 else 8)) (some d)

def execAadd (d a b : XReg) (cls : RClass) (wf : Bool) (s : State) : Out := s.issueAtomic .add d a b cls wf
def execAmin (d a b : XReg) (cls : RClass) (wf : Bool) (s : State) : Out := s.issueAtomic .min d a b cls wf
def execAmax (d a b : XReg) (cls : RClass) (wf : Bool) (s : State) : Out := s.issueAtomic .max d a b cls wf
def execAand (d a b : XReg) (cls : RClass) (wf : Bool) (s : State) : Out := s.issueAtomic .and d a b cls wf
def execAor (d a b : XReg) (cls : RClass) (wf : Bool) (s : State) : Out := s.issueAtomic .or d a b cls wf
def execAxor (d a b : XReg) (cls : RClass) (wf : Bool) (s : State) : Out := s.issueAtomic .xor d a b cls wf
def execAswap (d a b : XReg) (cls : RClass) (wf : Bool) (s : State) : Out := s.issueAtomic .swap d a b cls wf
def execAcas (d a b : XReg) (cls : RClass) (wf : Bool) (s : State) : Out := s.issueAtomic .cas d a b cls wf
def execAfadd (d a b : XReg) (cls : RClass) (wf : Bool) (s : State) : Out := s.issueAtomic .fadd d a b cls wf

/-! ## Tokens (R248) -/

/-- The request of a token move; a register-kind address is refused with status 0x3 where the request arrives. -/
def State.issueTok (s : State) (release : Bool) (d a : XReg) : Out :=
  if !s.mayX d then ok s.forbidden
  else if !s.room 1 then ok s.hold
  else ok ((s.flyOpen d).sendReq s.me (.tok release) .any .ord .plain (s.rx a) (.zero 8) (some s.nextId))

def execTokacq (d a : XReg) (s : State) : Out := s.issueTok false d a
def execTokrel (d a : XReg) (s : State) : Out := s.issueTok true d a

/-! ## Residency queries (spec/17 R296) -/

/-- Where entry e is decided (spec/08 R128). -/
def resAddr (e : Nat) : Nat := resBase + 32 * e

/-- A query: FN 0 is answered by the own die's replica; the others go to the home Broker by the .ord path (spec/10 R148). An entry of another
context is refused with status 0x3. -/
def State.issueQuery (s : State) (fn : Fin 4) (d a : XReg) : Out :=
  let e : Fin 1024 := Fin.ofNat 1024 (s.rx a).toNat
  if !s.mayX d then ok s.forbidden
  else if (s.rx a).toNat ≥ 1024 then ok s.illegal
  else if !s.room 1 then ok s.hold
  else
    let s1 := s.flyOpen d
    let r : Req := { id := s1.nextId, src := s.me, op := .query fn e, cls := if fn = 0 then .adp else .ord, fe := .plain, ga := 0,
                     sys := sysOf s.own (resAddr e.val), reg := true, loc := false, tokchk := false, ext := .zero 8,
                     flight := some s.nextId, phase := .sent, due := s.now + toTicks s.fab.rspTimeout, ctx := s.cc.slot.ctx, nocache := true,
                     plane := none }
    ok { s1 with net := s1.net ++ [r], nextId := s1.nextId + 1 }

def execRqry (d a : XReg) (s : State) : Out := s.issueQuery 0 d a
def execRqryFetch (d a : XReg) (s : State) : Out := s.issueQuery 1 d a
def execRqryPin (d a : XReg) (s : State) : Out := s.issueQuery 2 d a
def execRqryUnpin (d a : XReg) (s : State) : Out := s.issueQuery 3 d a

end Sys2Proof.Machine
end

