-- ==== Sys2Proof/Machine/Order.lean ====
section
/-!
DEFINITION. Scopes and fences (spec/10 R149 to R152, spec/15 R237 to R239), and when a request may arrive at its home.
-/

namespace Sys2Proof.Machine

/-! ## Scopes (spec/10 R151) -/

def scopeOk (w : Word) : Bool :=
  bits w 32 31 == 0 && bits w 24 8 ≤ 63 && bits w 16 8 ≤ 63 && bits w 0 8 ≤ bits w 16 8 && bits w 8 8 ≤ bits w 24 8

/-- Whether the rectangle holds a core. -/
def scopeCore (w : Word) (k : Nat) : Bool :=
  bits w 0 8 ≤ coreX k && coreX k ≤ bits w 16 8 && bits w 8 8 ≤ coreY k && coreY k ≤ bits w 24 8

/-- Whether it holds a core of a die: dies are 16 cores wide and 32 high. -/
def scopeDie (w : Word) (d : Nat) : Bool :=
  bits w 0 8 ≤ d % 4 * 16 + 15 && d % 4 * 16 ≤ bits w 16 8 && bits w 8 8 ≤ d / 4 * 32 + 31 && d / 4 * 32 ≤ bits w 24 8

def scopeWhole (w : Word) : Bool := bits w 0 32 == 0x3F3F0000

def scopeHome (w : Word) (h : Home) : Bool :=
  match h with
  | .core k => scopeCore w k
  | .stack d _ => scopeDie w d
  | .broker d => scopeDie w d
  | .unit => scopeWhole w
  | .hole => scopeWhole w

/-- Whether the home of a system address lies inside a scope. -/
def State.inScope (s : State) (w : Word) (sys : BitVec 50) : Bool :=
  (devOf sys == s.own || bit w 63) && scopeHome w (homeOf (physOf sys))

/-! ## What a fence covers (spec/10 R152) -/

def clsBit (c : BitVec 3) (k : RClass) : Bool :=
  match k with
  | .ord => c.getLsbD 0
  | .adp => c.getLsbD 1
  | .spr => c.getLsbD 2

/-- The number of a request among its core's operations: a row's is that of its MDRAIN (spec/17 R273). -/
def Req.stamp (r : Req) : Nat :=
  match r.src with
  | .row _ _ drain => drain
  | _ => r.id

/-- L, S, A, E: bits 0 to 3 of KND. -/
def kindBit (k : BitVec 4) (r : Req) : Bool :=
  match r.src, r.op with
  | .row _ _ _, _ => k.getLsbD 3
  | _, .acc (.load _) => k.getLsbD 0
  | _, .acc (.store _ _) => k.getLsbD 1
  | _, .acc (.atomic _ _ _) => k.getLsbD 2
  | _, _ => false

/-- Whether a fence covers a request of its core; a translation that failed has no home and only its trap to come. An RQRY .fetch on its
way stands for the writes of the transfer that it starts, in class .adp (spec/17 R297). -/
def State.coversReq (s : State) (k : CoreIx) (c : BitVec 3) (kd : BitVec 4) (w : Word) (r : Req) : Bool :=
  r.src.ownedBy k &&
  match r.op with
  | .query fn e =>
    fn = 1 && r.phase = .sent && kd.getLsbD 3 && clsBit c .adp && (s.members k (Fin.ofNat 256 (s.res e.val).hgrp.toNat)).any fun j => scopeCore w j.val
  | _ =>
    kindBit kd r &&
      (if r.loc then c ≠ 0 && scopeCore w k.val else clsBit c r.cls && (r.phase = .faulted || s.inScope w r.sys))

/-- Whether the home of a write of a core's engine lies inside a scope, or it does not translate. -/
def State.destIn (s : State) (k : CoreIx) (w ga : Word) : Bool :=
  match (s.xlate none (s.core k).slot.ctx true .write ga).2 with
  | .ok l => s.inScope w l.sys
  | .error _ => true

/-- The destination of row r of an MDRAIN (spec/17 R280). -/
def drainDest (c : MdrainCmd) (r : Nat) : Word := c.dest + BitVec.ofInt 64 (r * c.dstr.toInt)

/-- Whether a fence covers a row that a queued MDRAIN has still to send, or that the handler holds (spec/17 R273). -/
def State.rowsPending (s : State) (k : CoreIx) (mark : Nat) (c : BitVec 3) (w : Word) : Bool :=
  let core := s.core k
  (core.mat.mq.any fun e => e.stamp < mark &&
    match e.cmd with
    | .mdrain d => clsBit c d.cls && (List.range (d.rows.toNat - e.rows)).any fun i => s.destIn k w (drainDest d (e.rows + i))
    | _ => false) ||
  (match core.hnd.row with | some r => r.stamp < mark && clsBit c r.cls && s.destIn k w r.dest | none => false)

/-- Whether it covers a transfer of its core: one of its destinations still to be written lies inside the scope, or does not
translate. -/
def State.coversXfer (s : State) (k : CoreIx) (c : BitVec 3) (w : Word) (x : Xfer) : Bool :=
  !x.ended && x.state ≠ .prepared && clsBit c x.cls &&
    (List.range ((x.total - x.cursor) / 8)).any fun i => s.destIn k w (x.dstAt (x.cursor + 8 * i))

/-- Whether an entry of the sequencer is a local access of a kind that a fence names. -/
def Core.coversEntry (c : Core) (kd : BitVec 4) (e : SeqEntry) : Bool :=
  match e.ins with
  | .vld _ _ _ _ _ => kd.getLsbD 0
  | .vlds _ _ _ _ _ _ => kd.getLsbD 0
  | .vldx _ _ _ _ _ _ => kd.getLsbD 0
  | .vst _ _ _ _ _ => kd.getLsbD 1
  | .vsts _ _ _ _ _ _ => kd.getLsbD 1
  | .vstx _ _ _ _ _ _ => kd.getLsbD 1
  | _ => kd.getLsbD 1 && c.entryLocal e

/-- Entries of a core's sequencer issued before operation `mark`. -/
def Core.entriesBefore (c : Core) (mark : Nat) : List SeqEntry := c.seq.entries.filter (·.stamp < mark)

def isPost : Instr → Bool
  | .gatepost _ _ => true
  | _ => false

/-- Whether an entry is a store to the matrix-queue address. -/
def Core.isMatStore (c : Core) (e : SeqEntry) : Bool :=
  match e.ins with
  | .vst _ _ b _ _ => c.isQueueAddr b e.a.toNat
  | _ => false

/-- Whether something that a fence covers, issued before operation `mark`, is still to be performed or answered. Bid-table
writes are held to have their homes in every scope (log 32). A store to the matrix-queue address that has not executed keeps every fence
with E waiting (spec/17 R273). -/
def State.fencePending (s : State) (k : CoreIx) (mark : Nat) (c : BitVec 3) (kd : BitVec 4) (w : Word) : Bool :=
  let core := s.core k
  let here := c ≠ 0 && scopeCore w k.val
  let es := core.entriesBefore mark
  (s.net.any fun r => r.stamp < mark && s.coversReq k c kd w r)
  || (here && es.any fun e => core.coversEntry kd e)
  || (here && kd.getLsbD 1 && core.portWrites.any fun p => p.stamp < mark)
  || (kd.getLsbD 3 &&
      ((core.eng.copies.any fun x => x.stamp < mark && s.coversXfer k c w x)
       || (c.getLsbD 0 && ((s.posts.any fun p => p.core = k && p.stamp < mark) || es.any (fun e => isPost e.ins)))
       || (here && core.mat.mq.any fun e => e.stamp < mark)
       || (c ≠ 0 && es.any core.isMatStore) || s.rowsPending k mark c w))

/-- The mark of the FENCE in which the executing context stands. -/
def State.fenceMark (s : State) : Option Nat := if s.curH then s.cc.evt.fenceH else s.cc.evt.fenceAt

def State.setFence (s : State) (m : Option Nat) : State :=
  s.mod fun c => if s.curH then { c with evt := { c.evt with fenceH := m } } else { c with evt := { c.evt with fenceAt := m } }

/-- Wait for what a fence covers; `none` once nothing is left. The mark of a fence that begins to wait is a number of its own. -/
def State.fenceWait (s : State) (c : BitVec 3) (kd : BitVec 4) (w : Word) : Option State :=
  let mark := (s.fenceMark).getD s.nextId
  if s.fencePending s.cur mark c kd w then
    some ({ s with nextId := max s.nextId (mark + 1) }.setFence (some mark)).hold
  else none

/-- FENCE (spec/15 R237). -/
def execFence (cls : BitVec 3) (knd : BitVec 4) (a : XReg) (s : State) : Out :=
  let w := s.rx a
  if !scopeOk w then ok s.illegal
  else
    match s.fenceWait cls knd w with
    | some s' => ok s'
    | none => ok (s.setFence none)

/-- RFENCE: every entry of the record cache goes (R238). -/
def execRfence (s : State) : Out := ok (s.mod fun c => { c with evt := { c.evt with records := [] } })

/-- IFENCE: no fetch line is buffered here, so the next bundle is fetched from the store (R239). -/
def execIfence (s : State) : Out := ok s

/-! ## Arrival (spec/10 R149, spec/02 R30) -/

/-- Whether something earlier of the same core holds back a request to this device: both .ord or local, to one home, the earlier still on
its way or, at the core's own buffers, still in its sequencer (R149). -/
def State.heldBack (s : State) (r : Req) : Bool :=
  let k := r.src.coreOf
  let h := r.home
  r.cls = .ord && devOf r.sys == s.own &&
    ((s.net.any fun q =>
        q.id < r.id && q.phase = .sent && q.src.coreOf = k && q.cls = .ord && devOf q.sys == s.own && q.home = h) ||
     (h = .core k.val && ((s.core k).entriesBefore r.id).any (s.core k).entryLocal))

end Sys2Proof.Machine
end

