-- ==== Sys2Proof/Machine/System.lean ====
section
/-!
DEFINITION. The inbox instructions (spec/15 R240, R241), SVC, SRET, WFI, SAFEPT and HALT (spec/17 R301 to R305), and HRET
(spec/17 R281, R282).
-/

namespace Sys2Proof.Machine

/-- An instruction that acts as a switch marker: it waits until every result of its context is complete, and they land
(spec/07 R95). -/
def State.marker (s : State) (f : State → Out) : Out :=
  if s.marked then f (s.mod (·.landAll s.curH)) else ok s.hold

/-! ## The inbox -/

/-- The two doublewords of a message. -/
def State.oldest (s : State) : Word × Word :=
  match s.cc.evt.inbox with
  | [] => (0, 0)
  | m :: _ => (m.header, m.payload)

/-- The register after an even one. -/
def nextX (d : XReg) : XReg := d + 1

/-- Both results in flight. -/
def State.flyPair (s : State) (d : XReg) (w : Word × Word) : State := (s.flyX d w.1).flyX (nextX d) w.2

/-- RECV: the oldest message leaves the inbox at issue, and completions that were held are placed (spec/09 R130). -/
def execRecv (d : XReg) (s : State) : Out :=
  if !s.mayX (nextX d) then ok s.forbidden
  else if !s.room 2 then ok s.hold
  else
    let w := s.oldest
    let s1 := s.mod fun c => Core.settle { c with evt := { c.evt with inbox := c.evt.inbox.tail } }
    ok (s1.flyPair d w)

def execPeekm (d : XReg) (s : State) : Out :=
  if !s.mayX (nextX d) then ok s.forbidden else if !s.room 2 then ok s.hold else ok (s.flyPair d s.oldest)

def execWaitm (s : State) : Out :=
  if s.curH then ok s.forbidden
  else s.marker fun s => if s.cc.evt.inbox.isEmpty then ok s.hold else ok s

/-! ## Service request, return, wait -/

def execSvc (s : State) : Out := if s.curH then ok s.forbidden else ok (s.trap 3 (s.word.setWidth 64))

/-- SRET: the return of spec/07 R112; at U it traps. -/
def execSret (s : State) : Out :=
  if s.curH then ok s.forbidden
  else if !s.privNow then ok (s.trap 3 (s.word.setWidth 64))
  else ok (s.mod (·.trapReturn))

/-- An event that ends a WFI beside the interrupts: a response trap, 0x0B, 0x0D, 0x0E or 0x0F, also one that waits while INTRAP is set
(spec/07 R113; log 52). -/
def Core.eventStands (c : Core) : Bool :=
  !c.evt.respTraps.isEmpty || !c.hnd.faults.isEmpty || !c.evt.peer.isEmpty || c.evt.qto.isSome || c.evt.wdogHit

/-- The executing core parks in its bundle: no event is taken before the bundle ends. -/
def State.park (s : State) : State := (s.mod fun c => { c with evt := { c.evt with parkedAt := some c.main.pc } }).hold

/-- WFI parks until an enabled interrupt is pending or another event arrives; then it ends, and the event is taken at the next boundary. -/
def execWfi (s : State) : Out :=
  if s.curH then ok s.forbidden
  else s.marker fun s => if s.intPend s.cc &&& s.cc.ctl.intEn = 0 && !s.cc.eventStands then ok s.park else ok s

/-! ## Safe points and the end (R304, R305, spec/05 R73) -/

/-- The launch of a core, while it has not ended. -/
def State.launchOf (s : State) (k : CoreIx) : Option Launch :=
  s.sched.launches.find? fun l => l.lid == (s.core k).slot.lid && l.st ≠ .ended

/-- NSAFE of the launch header. -/
def State.nsafe (s : State) (k : CoreIx) : Nat :=
  match s.launchOf k with
  | some l => bits (l.hdr.getD 5 0) 48 16
  | none => 0

/-- The matrix queue is empty and the handler has returned every row. -/
def Core.drained (c : Core) : Bool := c.mat.mq.isEmpty && c.hnd.row.isNone

/-- Whether a SAFEPT stops the core: a request is pending, the map exists and no exchange is open. -/
def State.safeStops (s : State) (map : BitVec 16) : Bool :=
  s.cc.slot.preq.isSome && s.cc.exch.group.isNone && map.toNat < s.nsafe s.cur

/-- SAFEPT; where it stops the core the capture of a block ends first (spec/16 R269), and the core issues nothing else while the queue and the
handler drain (spec/05 R73). -/
def execSafept (map : BitVec 16) (s : State) : Out :=
  if s.curH then ok s.forbidden
  else
    let s := if s.safeStops map then s.mod (·.beginDrain) else s
    s.marker fun s =>
      let c := s.cc
      if c.slot.preq.isNone then ok s
      else if !s.safeStops map then ok (s.mod fun c => { c with evt := { c.evt with safeIgnored := c.evt.safeIgnored + 1 } })
      else if c.seq.loop.isSome || !c.seq.queue.isEmpty || !c.drained then ok s.park
      else ok (s.mod fun c => { c with slot := { c.slot with stop := .safe map } })

/-- Loads, stores and atomics of a core that have not been performed or answered, its output ports' among them. -/
def State.accPending (s : State) (k : CoreIx) : Bool :=
  !(s.core k).portWrites.isEmpty ||
    s.net.any fun r => r.src.ownedBy k

/-- HALT; a request that is pending at a core that halts stays so, and the core is saved as a halted one (spec/05 R72). -/
def execHalt (s : State) : Out :=
  if s.curH then ok s.forbidden
  else
    s.marker fun s =>
      let c := s.cc
      if !c.seq.queue.isEmpty || c.seq.loop.isSome || !c.drained || s.accPending s.cur then ok s.hold
      else
        let s := s.mod fun c => { c with slot := { c.slot with st := .halted, preq := if c.slot.st = .stopping then c.slot.preq else none } }
        let x : BitVec 32 := (c.main.x[10]).setWidth 32
        let set (l : Launch) : Launch :=
          if l.lid == c.slot.lid && l.st ≠ .ended && c.slot.lrank == 0 then { l with exitVal := some x } else l
        let s := { s with sched := { s.sched with launches := s.sched.launches.map set } }
        ok (if c.slot.lrank = 0 then s.orphanXfers c.slot.lid else s)

/-! ## The row handler's return (R281, R282) -/

/-- The cause with which the row's destination is refused at issue: 0x01 not aligned, 0x04 a kind or a zero field that R117 faults, 0x05
the register kind. -/
def rowFault (d : Word) : Option (BitVec 8) :=
  if d.toNat % 64 ≠ 0 then some 1
  else if !gaOk d then some 4
  else if bits d 62 2 = 2 then some 5 else none

/-- HRET: the row goes to its destination as an engine write, and the row ends; the last one ends the drain (spec/17 R280). -/
def execHret (s : State) : Out :=
  if !s.curH then ok s.illegal
  else
    s.marker fun s =>
      let c := s.cc
      match c.hnd.row with
      | none => ok s.hold
      | some row =>
        if c.seq.entries.any (·.handler) then ok s.hold
        else
          match rowFault row.dest with
          | some cause => ok { s.mod (fun c => c.handlerFault cause c.hnd.pc) with bundle := .trapped }
          | none =>
            let s := s.sendReq (.row s.cur s.curPc row.stamp) (.acc (.row c.hnd.v[0])) .write row.cls .plain row.dest (.zero 8) none
            let s := s.mod fun c => { c with hnd := { c.hnd with row := none } }
            ok (if row.last && s.cc.drain?.isSome then s.mod (·.endDrainWith [(5, 0)]) else s.pulse s.cur 5 0)

end Sys2Proof.Machine
end

