-- ==== Sys2Proof/Machine/CtlReg.lean ====
section
/-!
DEFINITION. GETC and SETC (spec/15 R242, R243) over every control register of spec/14 R211: what each reads, who may read and
write it, which fields a write changes, and what a write starts.
-/

namespace Sys2Proof.Machine

/-- Registers marked V: GETC is variable-latency. -/
def varLat : CReg → Bool
  | .intPend => true
  | .xphStat => true
  | .mqStat => true
  | .fduty => true
  | .relayCnt _ => true
  | _ => false

/-- Registers that only S reads. -/
def sRead : CReg → Bool
  | .trapCause => true
  | .trapPc => true
  | .trapVal => true
  | .trapScratch => true
  | _ => false

/-- Registers that only S writes. -/
def sWrite : CReg → Bool
  | .coreStatus => true
  | .trapCause => true
  | .trapPc => true
  | .trapVal => true
  | .trapScratch => true
  | .tvec => true
  | .intEn => true
  | .timerCmp => true
  | .qtimeout => true
  | .wdog => true
  | _ => false

/-- Registers whose GETC waits until the sequencer is empty. -/
def getWaits : CReg → Bool
  | .fpctl => true
  | .vlen => true
  | _ => false

/-- Registers whose SETC waits until the sequencer is empty. -/
def setWaits : CReg → Bool
  | .fpctl => true
  | .vlen => true
  | .mqAddr => true
  | .strmCfg _ => true
  | .strmStr _ => true
  | .strmCnt _ => true
  | _ => false

/-- MQ_STAT (spec/14 R212). -/
def Core.mqStat (c : Core) : Word :=
  BitVec.ofNat 64 (c.mat.mq.length + (c.mat.mq.filter isGated).length * 16 + c.mat.banked.toNat * 256
    + (if c.mat.mq.any (·.started) then 65536 else 0))

/-- XPH_STAT (spec/07 R105). -/
def Exchange.stat (e : Exchange) : Word :=
  BitVec.ofNat 64 (e.remain.toNat + (if e.xcol then 2 ^ 32 else 0) + (if e.ovr then 2 ^ 33 else 0) + e.ncol.toNat * 2 ^ 48)

/-- The value of a control register. CP_LAUNCH reads through `launchCopy`. -/
def State.readCtl (s : State) (c : Core) (r : CReg) : Word :=
  match r with
  | .coreStatus => c.statusWord
  | .trapCause => c.ctl.trapCause
  | .trapPc => c.ctl.trapPc
  | .trapVal => c.ctl.trapVal
  | .trapScratch => c.ctl.trapScratch
  | .tvec => c.ctl.tvec
  | .intEn => c.ctl.intEn
  | .intPend => s.intPend c
  | .time => s.time c
  | .timerCmp => c.ctl.timerCmp
  | .qtimeout => c.ctl.qtimeout
  | .wdog => c.ctl.wdog
  | .fpctl => c.ctl.fpctl
  | .xphStat => c.exch.stat
  | .vlen => c.ctl.vlen
  | .arrayShape => (c.mat.nextBands.getD c.mat.bands).setWidth 64
  | .mqAddr => c.ctl.mqAddr
  | .mqStat => c.mqStat
  | .coreid => BitVec.ofNat 64 (s.cur.val + c.slot.lrank.toNat * 2 ^ 12 + s.own * 2 ^ 32)
  | .fduty => c.ctl.fduty
  | .gmem i => c.ctl.gmem[i]
  | .gscope i => c.ctl.gscope[i]
  | .cpSrc => c.eng.cp.src
  | .cpDst => c.eng.cp.dst
  | .cpIdx => c.eng.cp.idx
  | .cpStride i => c.eng.cp.stride[i]
  | .cpCount i => c.eng.cp.count[i]
  | .cpClass => c.eng.cp.cls
  | .cpFlags => c.eng.cp.flags
  | .cpLaunch => 0
  | .strmCfg i => c.seq.ports[i].cfg
  | .strmStr i => c.seq.ports[i].str
  | .strmCnt i => c.seq.ports[i].cnt
  | .relayCnt i => c.eng.relayCnt[i]
  | .relayTerm i => c.eng.relayTerm[i]

def Core.seqEmpty (c : Core) : Bool := c.seq.queue.isEmpty && c.seq.loop.isNone

/-- GETC (R242). -/
def execGetc (d : XReg) (r : CReg) (s : State) : Out :=
  if r = .cpLaunch then s.launchCopy d
  else if sRead r && !s.privNow then (if s.mayX d then ok (s.trap 3 (s.word.setWidth 64)) else ok s.forbidden)
  else if getWaits r && !s.cc.seqEmpty then ok (if s.mayX d then s.hold else s.forbidden)
  else if varLat r then s.flyOk d (s.readCtl s.cc r) s
  else s.putX d (s.readCtl s.cc r)

/-- A write takes the bits that a mask marks writable; the others stay. -/
def rwBits (m old w : Word) : Word := (w &&& m) ||| (old &&& ~~~m)

/-- FPCTL: SATM and RM take the written bits; a flag is cleared where 1 is written (spec/12 R175). -/
def writeFpctl (old w : Word) : Word := rwBits 0x700 (old &&& ~~~(w &&& 0x3F)) w

/-- A write of a stream register clears EN first; EN = 1 starts the walk at index zero (spec/07 R101). -/
def Port.write (p : Port) (f : Port → Port) : Port :=
  let q := f { p with cfg := setBits p.cfg 63 1 0 }
  if q.en then { q with i0 := 0, i1 := 0, i2 := 0, arrived := [] } else q

def Core.writePort (c : Core) (n : Fin 4) (f : Port → Port) : Core := c.setPort n ((c.port n).write f)

def Core.writeCp (c : Core) (f : CpRegs → CpRegs) : Core := { c with eng := { c.eng with cp := f c.eng.cp } }

/-- ARRAY_SHAPE acts at the next command boundary (spec/06 R82). -/
def MatState.writeShape (m : MatState) (b : BitVec 4) : MatState :=
  if m.mq.any (·.started) then { m with nextBands := some b } else { m with bands := b, nextBands := none }

/-- What a write does to the core; registers that are read-only ignore it. -/
def Core.writeCtl (c : Core) (r : CReg) (w : Word) : Core :=
  match r with
  | .coreStatus => { c with ctl := { c.ctl with coreStatus := rwBits 0x3C c.ctl.coreStatus w } }
  | .trapCause => { c with ctl := { c.ctl with trapCause := rwBits 0x80000000000000FF c.ctl.trapCause w } }
  | .trapPc => { c with ctl := { c.ctl with trapPc := w } }
  | .trapVal => { c with ctl := { c.ctl with trapVal := w } }
  | .trapScratch => { c with ctl := { c.ctl with trapScratch := w } }
  | .tvec => { c with ctl := { c.ctl with tvec := rwBits 0x800000000001FFF8 c.ctl.tvec w } }
  | .intEn => { c with ctl := { c.ctl with intEn := rwBits 0xF c.ctl.intEn w } }
  | .timerCmp => { c with ctl := { c.ctl with timerCmp := w } }
  | .qtimeout => { c with ctl := { c.ctl with qtimeout := rwBits 0xFFFFFFFF c.ctl.qtimeout w } }
  | .wdog => { c with ctl := { c.ctl with wdog := rwBits 0xFFFFFFFF c.ctl.wdog w } }
  | .fpctl => { c with ctl := { c.ctl with fpctl := writeFpctl c.ctl.fpctl w } }
  | .xphStat => { c with exch := { c.exch with ovr := c.exch.ovr && !bit w 33, xcol := c.exch.xcol && !bit w 32 } }
  | .vlen => { c with ctl := { c.ctl with vlen := rwBits 0x7F c.ctl.vlen w } }
  | .arrayShape => { c with mat := c.mat.writeShape (w.setWidth 4) }
  | .mqAddr => { c with ctl := { c.ctl with mqAddr := rwBits 0x800000000001FFC0 c.ctl.mqAddr w } }
  | .cpSrc => c.writeCp fun p => { p with src := w }
  | .cpDst => c.writeCp fun p => { p with dst := w }
  | .cpIdx => c.writeCp fun p => { p with idx := w }
  | .cpStride i => c.writeCp fun p => { p with stride := p.stride.set i w }
  | .cpCount i => c.writeCp fun p => { p with count := p.count.set i (rwBits 0xFFFFFFFF p.count[i] w) }
  | .cpClass => c.writeCp fun p => { p with cls := rwBits 3 p.cls w }
  | .cpFlags => c.writeCp fun p => { p with flags := rwBits 0xE000000000FFFFFF p.flags w }
  | .strmCfg i => c.writePort i fun p => { p with cfg := rwBits 0xF0003FFF00000000 p.cfg w }
  | .strmStr i => c.writePort i fun p => { p with str := rwBits 0x0000FFFFFFFFFFFF p.str w }
  | .strmCnt i => c.writePort i fun p => { p with cnt := rwBits 0x0000FFFFFFFFFFFF p.cnt w }
  | .relayCnt i =>
    Core.relayFire { c with eng := { c.eng with relayCnt := c.eng.relayCnt.set i (rwBits 0xFFFFF000FFFFFFFF c.eng.relayCnt[i] w) } }
  | .relayTerm i =>
    let old := c.eng.relayTerm[i]
    let new := setBits (rwBits 0xFFFFF0000000FFFF old w) 43 1 (if bit old 43 && !bit w 43 then 1 else 0)
    Core.relayFire { c with eng := { c.eng with relayTerm := c.eng.relayTerm.set i new } }
  | .intPend => c
  | .time => c
  | .mqStat => c
  | .coreid => c
  | .fduty => c
  | .gmem _ => c
  | .gscope _ => c
  | .cpLaunch => c

/-- SETC (R243); in the handler context it is a handler fault. -/
def execSetc (a : XReg) (r : CReg) (s : State) : Out :=
  if s.curH then ok s.forbidden
  else if sWrite r && !s.privNow then ok (s.trap 3 (s.word.setWidth 64))
  else if setWaits r && !s.cc.seqEmpty then ok s.hold
  else ok (s.mod (·.writeCtl r (s.rx a)))

end Sys2Proof.Machine
end

