-- ==== Sys2Proof/Machine/Superstep.lean ====
section
/-!
DEFINITION. Supersteps (spec/07 R105, spec/15 R244 to R246, spec/10 R155) and the neighbour-queue instructions (spec/15
R247).
-/

namespace Sys2Proof.Machine

/-! ## SYNC and XEND -/

/-- GSCOPE of the entry of a group. -/
def Core.scopeOf (c : Core) (i : Fin 4) : Word := c.ctl.gscope[i]

/-- The parked bundle of a barrier that has returned completes. -/
def Core.unpark (c : Core) : Core := { c with exch := { c.exch with parked := .none, back := false } }

/-- SYNC: marker, the fence of spec/10 R155, then parked until the group's release. -/
def execSync (g : Fin 256) (s : State) : Out :=
  if s.curH then ok s.forbidden
  else if s.cc.exch.parked = .sync g then
    if s.cc.exch.back then ok (s.mod (·.unpark)) else ok s.hold
  else
    match s.cc.groupEntry g with
    | none => ok s.illegal
    | some i =>
      if s.cc.exch.group.isSome then ok s.illegal
      else
        s.marker fun s =>
          match s.fenceWait 7 7 (s.cc.scopeOf i) with
          | some s' => ok s'
          | none => ok ((s.setFence none).mod fun c => { c with exch := { c.exch with parked := .sync g, back := false } }).hold

/-- Bytes that land are applied against REMAIN (spec/07 R105, spec/15 R245). -/
def Exchange.apply (e : Exchange) (n : Nat) : Exchange :=
  { e with remain := BitVec.ofNat 32 (e.remain.toNat - n), ovr := e.ovr || e.remain.toNat < n }

/-- Bytes held before a declaration are applied. -/
def Exchange.applyHeld (e : Exchange) : Exchange := { e.apply e.held with held := 0, expected := true }

/-- XEND: marker; bytes that no XEXPECT has declared are applied; then parked until the exchange closes. Trap 0x07 is due
where OVR is set on return. -/
def execXend (g : Fin 256) (s : State) : Out :=
  if s.curH then ok s.forbidden
  else if s.cc.exch.parked = .xend g then
    if s.cc.exch.back then ok (s.mod fun c => { c.unpark with exch := { c.unpark.exch with ovrDue := c.exch.ovr } })
    else ok s.hold
  else if s.cc.groupEntry g = none || s.cc.exch.group ≠ some g then ok s.illegal
  else
    s.marker fun s =>
      ok (s.mod fun c => { c with exch := { c.exch.applyHeld with parked := .xend g, back := false } }).hold

/-- The exchange as SYNC opens it. -/
def Exchange.opened (g : Fin 256) (now : Nat) : Exchange :=
  { Exchange.reset with parked := .sync g, back := true, group := some g, t0 := now }

/-- Whether a core executes a barrier and has not returned from it: a stopped core does not, it executes it again when it resumes
(spec/10 R157). -/
def Core.stands (c : Core) (b : Barrier) : Bool :=
  c.exch.parked = b && !c.exch.back && c.slot.stop = .no && (c.slot.st = .running || c.slot.st = .stopping)

/-- Every member of the group stands in its SYNC: all leave it at T0. -/
def execSyncRelease (k : CoreIx) (g : Fin 256) (s : State) : Out :=
  let ms := s.members k g
  if !ms.isEmpty && ms.all fun j => (s.core j).stands (.sync g) then
    ok (ms.foldl (fun s j => s.modCore j fun c => { c with exch := Exchange.opened g s.now }) s)
  else ok s

/-- The member's side of the return from XEND. -/
def Core.xendBack (c : Core) : Core := ({ c with exch := { c.exch with back := true, group := none } }).relayPulse 7 0

/-- Every member stands in its XEND, every transfer of a member has landed and every REMAIN is 0: all return. -/
def execXendReturn (k : CoreIx) (g : Fin 256) (s : State) : Out :=
  let ms := s.members k g
  if !ms.isEmpty && ms.all (fun j => (s.core j).stands (.xend g) && (s.core j).exch.remain == 0)
      && !s.xfers.any (fun x => ms.contains x.src) then
    ok (ms.foldl (fun s j => s.modCore j Core.xendBack) s)
  else ok s

/-! ## XEXPECT and XSEND -/

def execXexpect (a : XReg) (s : State) : Out :=
  if s.curH then ok s.forbidden
  else if s.cc.exch.group.isNone then ok s.illegal
  else
    ok (s.mod fun c =>
      let e := { c.exch with remain := BitVec.ofNat 32 (min (c.exch.remain.toNat + (s.rx a).toNat) (2 ^ 32 - 1)) }
      { c with exch := if e.expected then e else e.applyHeld })

/-- Why a descriptor and a destination trap at issue: cause 0x02, or 0x01 with the first misaligned value. -/
inductive XsendFault | illegal | misaligned (v : Word)
  deriving DecidableEq, Repr

def xsendFault (dst desc : Word) : Option XsendFault :=
  let b := bufOfCode (bits desc 62 2)
  let off := bits desc 32 20
  let len := bits desc 0 20
  if bits desc 52 10 ≠ 0 || bits desc 20 12 ≠ 0 || len = 0 || b.size < off + len then some .illegal
  else if off % 64 ≠ 0 then some (.misaligned (BitVec.ofNat 64 off))
  else if len % 64 ≠ 0 then some (.misaligned (BitVec.ofNat 64 len))
  else if dst.toNat % 64 ≠ 0 then some (.misaligned dst)
  else none

/-- A core's access ends with a status: the entry in the log of a die, and the response at the core. -/
def State.failCore (s : State) (k : CoreIx) (hpc : Option Pc) (die : Nat) (st : BitVec 4) (sys : BitVec 50) : State :=
  (s.logViolation die st s.own sys k.val 0).respondTo k hpc (causeOf st) (sys.setWidth 64)

/-- An XSEND ends with a status. -/
def State.failXsend (s : State) (k : CoreIx) (st : BitVec 4) (sys : BitVec 50) : State :=
  s.failCore k none (s.logDie st sys (dieOf k.val)) st sys

/-- Whether the destination takes an exchange transfer of n bytes: one buffer of a member, admitted as a global store
(spec/15 R246). -/
def State.xsendOk (s : State) (g : Fin 256) (sys : BitVec 50) (n : Nat) : Bool :=
  let a := physOf sys
  devOf sys == s.own && a < 2 ^ 32 && (s.members s.cur g).contains (toCore (a / 2 ^ 20)) &&
    (s.permit s.cc.slot.ctx .store true a).isNone &&
    (let (b, o) := bufOfWin (a % 2 ^ 20); o + n ≤ b.size)

/-- The tick at which a slot of an exchange begins: the mesh runs at 1.8 GHz (spec/01 R19). -/
def slotStart (t0 : Nat) (slot : BitVec 8) : Nat := t0 + 64 * slot.toNat

/-- XSEND: the transfer waits for its slot; issued after the slot has begun, it is sent at once and counts as a collision. -/
def execXsend (d a : XReg) (slot : BitVec 8) (s : State) : Out :=
  if s.curH then ok s.forbidden
  else
    let dst := s.rx d
    let desc := s.rx a
    match s.cc.exch.group with
    | none => ok s.illegal
    | some g =>
      match xsendFault dst desc with
      | some .illegal => ok s.illegal
      | some (.misaligned v) => ok (s.trap 1 v)
      | none =>
        match s.xlate (some (clusterOf s.cur.val)) s.cc.slot.ctx false .write dst with
        | (s, .error .fault) => ok (s.respondTo s.cur none 4 dst)
        | (s, .error (.table a)) => ok (s.failXsend s.cur 4 (sysOf s.own a))
        | (s, .ok x) =>
          if x.reg || !s.xsendOk g x.sys (bits desc 0 20) then ok (s.failXsend s.cur 3 x.sys)
          else
            let begin := slotStart s.cc.exch.t0 slot
            let late := begin < s.now
            let t : XTransfer := { id := s.nextId, src := s.cur, buf := bufOfCode (bits desc 62 2), off := bits desc 32 20,
                                   len := bits desc 0 20, dst := physOf x.sys, ga := dst, slot := slot,
                                   start := max begin s.now, late := late, entered := false }
            let s := { s with xfers := s.xfers ++ [t], nextId := s.nextId + 1 }
            ok (if late then s.mod fun c => { c with exch := { c.exch with xcol := true } } else s)

/-- Whether a way from `a` to `b` and one from `c` to `d` along one row or column use one link in one direction. -/
def wayOverlap (a b c d : Nat) : Bool :=
  (a < b && c < d && max a c < min b d) || (b < a && d < c && max b d < min a c)

/-- Whether two transfers share a link of their .ord paths, every x hop first and then every y hop (spec/10 R148). -/
def XTransfer.sharesLink (t u : XTransfer) : Bool :=
  let x (n : Nat) : Nat := n % 64
  let y (n : Nat) : Nat := n / 64
  let td := t.dst / 2 ^ 20
  let ud := u.dst / 2 ^ 20
  (y t.src.val == y u.src.val && wayOverlap (x t.src.val) (x td) (x u.src.val) (x ud)) ||
    (x td == x ud && wayOverlap (y t.src.val) (y td) (y u.src.val) (y ud))

/-- Whether a transfer that has started earlier, and has not landed, uses a link of this one (log 96). -/
def State.collides (s : State) (t : XTransfer) : Bool := s.xfers.any fun u => u.entered && u.id != t.id && t.sharesLink u

/-- A collision of a core's transfer. -/
def Exchange.collide (e : Exchange) : Exchange :=
  { e with xcol := true, ncol := if e.ncol == 0xFFFF then 0xFFFF else e.ncol + 1 }

/-- The next slot boundary after a tick. -/
def XTransfer.next (t : XTransfer) (now : Nat) : Nat := t.start + 64 * ((now - t.start) / 64 + 1)

/-- A transfer at its slot boundary. One that finds a link busy waits for the next slot boundary; one that enters after its slot has
passed was held too. The first delay of a transfer counts as a collision (spec/07 R105). `held` says which of the two the step is, a
transfer that is held or one that enters: a step that does not fit the links changes nothing (log 94, 96). -/
def execXsendLinkEntry (id : Nat) (held : Bool) (s : State) : Out :=
  match s.xfers.find? (·.id == id) with
  | none => ok s
  | some t =>
    let busy := s.collides t
    if t.entered || s.now < t.start || held != busy then ok s
    else
      let late := t.late || busy || t.start + 64 ≤ s.now
      let u := { t with start := if busy then t.next s.now else t.start, late := late, entered := !busy }
      let s' := { s with xfers := s.xfers.map fun v => if v.id = id then u else v }
      ok (if late && !t.late then s'.modCore t.src fun c => { c with exch := c.exch.collide } else s')

/-- The bytes of a transfer reach a core in an exchange. -/
def Core.landBytes (c : Core) (n : Nat) : Core :=
  if c.exch.group.isNone then c
  else if c.exch.expected then { c with exch := c.exch.apply n } else { c with exch := { c.exch with held := c.exch.held + n } }

/-- Whether a landing is admitted as the source's global store (spec/15 R246): the slot may have frozen, been released or been bound again
since the XSEND issued. -/
def State.landsIn (s : State) (t : XTransfer) : Bool := (s.permit (s.core t.src).slot.ctx .store true t.dst).isNone

/-- Whether a transfer whose slot has come stands before a link that another holds: it is held before the other lands (spec/07 R105). -/
def State.blocks (s : State) (t : XTransfer) : Bool :=
  s.xfers.any fun u => !u.entered && u.id != t.id && u.start ≤ s.now && u.sharesLink t

/-- A transfer lands, once the source's earlier local stores are done: plain stores of the bytes that the source holds; full-empty bits
stay. A failing flit, uncorrectable source bytes and a destination that no longer admits it are answered with a status. -/
def execXsendLanding (id : Nat) (s : State) : Out :=
  match s.xfers.find? (·.id == id) with
  | none => ok s
  | some t =>
    if !t.entered || s.blocks t || ((s.core t.src).entriesBefore id).any (s.core t.src).entryLocal then ok s
    else
      let a := winAddr t.src.val t.buf t.off
      let s := ({ s with xfers := s.xfers.filter (·.id != id) }.flushOwn t.src id)
      if s.isTorn (.item id) then ok ((s.mend (.item id)).failXsend t.src 8 (sysOf s.own t.dst))
      else if s.badAt a t.len then ok (s.failXsend t.src 4 (sysOf s.own a))
      else if !s.landsIn t then ok (s.failXsend t.src 3 (sysOf s.own t.dst))
      else
        let v := s.load a t.len
        ok (((s.correct a t.len).store t.dst t.len v).modCore (toCore (t.dst / 2 ^ 20)) (·.landBytes t.len))

/-! ## Neighbour queues (R247) -/

/-- A direction that leaves the mesh traps at issue (spec/07 R102). -/
def execNqsend (v : VReg) (dir : Dir) (s : State) : Out :=
  if (neighbour s.cur dir).isNone then ok s.illegal else s.issueEntry (.nqsend v dir) 0 0 none

def execNqrecv (v : VReg) (dir : Dir) (s : State) : Out :=
  if (neighbour s.cur dir).isNone then ok s.illegal else s.issueEntry (.nqrecv v dir) 0 0 none

/-- An entry arrives in the queue of a core; one from a core of another launch is refused (spec/07 R102), one whose flit
fails is answered with 0x8. -/
def execNeighbourQueueArrival (k : CoreIx) (dir : Dir) (s : State) : Out :=
  let c := s.core k
  let q := dirIx dir
  match c.seq.nqIn[q], neighbour k dir with
  | (hpc, v) :: r, some j =>
    let s1 := s.setCore k { c with seq := { c.seq with nqIn := c.seq.nqIn.set q r } }
    let torn := s1.isTorn (.queue k dir)
    if torn || c.slot.st = .idle || c.slot.lid ≠ (s.core j).slot.lid then
      let s2 := { s1.mend (.queue k dir) with free := s1.free + 1 }
      ok (s2.failCore j hpc (dieOf k.val) (if torn then 8 else 3) (Config.refusedAddr 1 k.val))
    else ok (s1.modCore k fun c => { c with seq := { c.seq with nq := c.seq.nq.set q (c.seq.nq[q] ++ [v]) } })
  | _, _ => ok s

/-- An entry that has waited on a queue longer than QTIMEOUT is withdrawn, and trap 0x0D is due (spec/07 R102). -/
def execQueueTimeout (k : CoreIx) (s : State) : Out :=
  let c := s.core k
  match c.seq.head?, c.seq.nqWait with
  | some (inLoop, e), some t =>
    let limit := bits c.ctl.qtimeout 0 32 * Config.ticksPerUs
    if limit = 0 || s.now ≤ t + limit then ok s
    else
      let v : Option Word := match e.ins with
        | .nqsend _ d => some (BitVec.ofNat 64 (4 + (dirIx d).val))
        | .nqrecv _ d => some (BitVec.ofNat 64 (dirIx d).val)
        | _ => none
      match v with
      | none => ok s
      | some v =>
        let c := c.seqAdvance inLoop
        let c := if e.handler then c.handlerFault 0x0D e.pc else { c with evt := { c.evt with qto := some (v, e.pc), qtoIn := c.intrap } }
        ok ((s.setCore k c).settleLocal k)
  | _, _ => ok s

/-- An input port fetches its next element from the buffer (spec/07 R101). -/
def execStreamElementArrival (k : CoreIx) (port : Fin 4) (s : State) : Out := ok (s.portFetch k port)

end Sys2Proof.Machine
end

