-- ==== Sys2Proof/Machine/Engines.lean ====
section
/-!
DEFINITION. Work lists, groups and partitioning (spec/17 R284 to R288, spec/09 R140, R141), posted receives and sends
(spec/17 R289 to R291, spec/09 R137 to R139), and the instructions of the Expert Market and the convoys as a core issues them
(spec/17 R292 to R299), with the events by which items and messages arrive.
-/

namespace Sys2Proof.Machine

/-! ## Groups and partitioning (R284, R285) -/

/-- GID: the membership word, fixed-latency. -/
def execGid (d : XReg) (g : Fin 256) (s : State) : Out :=
  match s.cc.groupEntry g with
  | none => ok s.illegal
  | some i => s.putX d s.cc.ctl.gmem[i]

/-- Dimension, index and count of the split. -/
def partArgs (ws : List Word) (gm sc : Word) (k : Nat) (mode : PartMode) : Nat × Nat × Nat :=
  let r := recRank ws
  match mode with
  | .rank => (recDim ws (r - 1), bits gm 0 12, bits gm 16 13)
  | .meshX => (recDim ws (r - 1), coreX k - bits sc 0 8, bits sc 16 8 - bits sc 0 8 + 1)
  | .meshY => (if 2 ≤ r then recDim ws (r - 2) else recDim ws 0, coreY k - bits sc 8 8, bits sc 24 8 - bits sc 8 8 + 1)

/-- floor((i+1)·n/m) << 32 | floor(i·n/m). -/
def partWord (a : Nat × Nat × Nat) : Word :=
  BitVec.ofNat 64 ((a.2.1 + 1) * a.1 / a.2.2 * 2 ^ 32 + a.2.1 * a.1 / a.2.2)

/-- PART: membership, the kind of the address (spec/08 R117), alignment, then the record from the record cache; a failed read traps
precisely (spec/07 R111). -/
def execPart (d a : XReg) (g : Fin 256) (mode : PartMode) (s : State) : Out :=
  let ga := s.rx a
  if !s.mayX d then ok s.forbidden
  else
    match s.cc.groupEntry g with
    | none => ok s.illegal
    | some i =>
      if bits ga 62 2 = 2 && !s.privNow then ok (s.trap 3 (s.word.setWidth 64))
      else if ga.toNat % 64 ≠ 0 then ok (s.trap 1 ga)
      else if !s.room 1 then ok s.hold
      else
        match s.useRecord ga with
        | (s', .fails .wait) => ok (s.stall s').hold
        | (s, .fails e) => ok (s.trap e.cause ga)
        | (s, .stale) => ok (s.trap 0x0A ga)
        | (s, .words ws) =>
          if recOk ws then ok (s.flyX d (partWord (partArgs ws s.cc.ctl.gmem[i] s.cc.ctl.gscope[i] s.cur.val mode)))
          else ok s.illegal

/-! ## Work lists (R286 to R288) -/

/-- WLPUSH; as it issues, the core's votes are withdrawn (spec/07 R106). -/
def execWlpush (v : VReg) (a : XReg) (s : State) : Out :=
  if (s.rx a).toNat ≥ 4096 then ok s.illegal
  else
    match s.issueEntry (.wlpush v a) (s.rx a) 0 none with
    | .next t => ok (if t.bundle = .ok then t.modCore s.cur (·.withdrawVotes) else t)
    | o => o

def execWlpop (d : XReg) (v : VReg) (s : State) : Out := s.issueEntry (.wlpop d v) 0 0 (some (.x d))

def execWldone (g : Fin 256) (s : State) : Out :=
  if (s.cc.groupEntry g).isNone then ok s.illegal else s.issueEntry (.wldone g) 0 0 none

/-- CAP of WL_SPILL in items of 16 bytes. -/
def State.spillCap (s : State) (ctx : BitVec 12) : Nat := bits (look 0 s.dev.wlSpill ctx.toNat) 40 22 * 256

/-- An item arrives at the unit of its destination's die, after the earlier items of its core for that list: into the store,
into the context's spill area, or refused (spec/09 R140, spec/17 R286); one whose flit fails is answered with 0x8. -/
def execWorkItemArrival (id : Nat) (s : State) : Out :=
  match s.pushed.find? (·.id == id) with
  | none => ok s
  | some p =>
    if s.pushed.any fun q => q.id < id && q.src = p.src && q.dst = p.dst then ok s
    else
      let s := { s with pushed := s.pushed.filter (·.id != id) }
      let ctx := (s.core p.src).slot.ctx
      let area := look [] s.spilled ctx.toNat
      let bound := (s.core p.dst).slot.st ≠ .idle && (s.core p.dst).slot.lid == (s.core p.src).slot.lid
      let die := dieOf p.dst.val
      let torn := s.isTorn (.item id)
      if torn || !bound || (65536 ≤ s.stored die && s.spillCap ctx ≤ area.length) then
        let st : BitVec 4 := if torn then 8 else if bound then 7 else 3
        let sys := Config.refusedAddr 0 p.dst.val
        ok ({ s.mend (.item id) with free := s.free + 1 }.failCore p.src p.hpc die st sys)
      else
        let x : WorkItem := { core := p.dst, lid := (s.core p.src).slot.lid, item := p.item }
        if 65536 ≤ s.stored die || (area.any fun y => dieOf y.core.val == die) then ok (s.setArea ctx.toNat (area ++ [x]))
        else ok (s.addItem x)

/-- Whether an item addressed to a core is in flight: pushed and not arrived, or its WLPUSH issued and not executed. -/
def State.itemTo (s : State) (j : CoreIx) : Bool :=
  (s.pushed.any fun p => p.dst = j) ||
    s.cores.any fun c => (c.2.entriesBefore s.nextId).any fun e =>
      match e.ins with
      | .wlpush _ _ => toCore e.a.toNat = j
      | _ => false

/-- Every member has voted, its list is empty and no item for it is in flight: kind 0x50 to each (spec/09 R141). The spec
gives the message no status, transfer ID or payload: they are 0 (log 34). -/
def execQuiescenceMessage (k : CoreIx) (g : Fin 256) (s : State) : Out :=
  let ms := s.members k g
  if !ms.isEmpty && ms.all fun j => (s.core j).eng.votes.contains g && (s.list j).isEmpty && s.spilledFor j = 0 && !s.itemTo j then
    ok (ms.foldl (fun s j =>
      (s.modCore j fun c => { c with eng := { c.eng with votes := c.eng.votes.filter (· != g) } }).place j
        [mkMsg 0x50 0 g.val 0 0] .keep) s)
  else ok s

/-! ## Receives and sends (R289 to R291) -/

def execPostrx (d : XReg) (v : VReg) (s : State) : Out := s.issueEntry (.postrx d v) 0 0 (some (.x d))
def execSend (d : XReg) (v : VReg) (s : State) : Out := s.issueEntry (.send d v) 0 0 (some (.x d))

/-- CANCELRX at the engine, one atomic step. -/
def execCancelrx (a : XReg) (s : State) : Out :=
  if (s.rx a).toNat ≥ 65536 then ok s.illegal
  else
    let h : BitVec 16 := (s.rx a).setWidth 16
    match s.pre.posted.find? fun r => r.core = s.cur && r.lid == s.cc.slot.lid && r.handle == h with
    | none => ok s
    | some r => ok (({ s with pre := { s.pre with posted := s.pre.posted.erase r } }).endRecv r.core h r.tag 2)

/-- Whether the engine has room for a message: 1,024 headers and 32 MiB of payload. -/
def State.roomFor (s : State) (m : Message) : Bool :=
  s.pre.unexpected.length < 1024 && s.pre.unexpected.foldl (fun n x => n + x.payload.length) 0 + m.payload.length ≤ 2 ^ 25

/-- Whether a receive takes part in matching: its launch binds the core, or is saved while the core's slot is IDLE (log 67). -/
def State.serves (s : State) (r : PostedRecv) : Bool :=
  s.binds r.core r.lid || ((s.core r.core).slot.st = .idle && (lookup s.saves (saveKey r.lid r.core)).isSome)

/-- What becomes of an arriving message (spec/09 R137, spec/05 R75, spec/20 R313). -/
inductive MsgFate | lands (r : PostedRecv) | waits (lid : BitVec 16) | refused
  deriving DecidableEq, Repr

/-- The first receive in posting order takes it, unless its tensor lies in a saved core; without one it waits for the bound launch. -/
def State.msgFate (s : State) (m : Message) : MsgFate :=
  match s.pre.posted.find? fun r => r.accepts m && s.serves r with
  | some r => if s.aside r then .waits r.lid else .lands r
  | none => if (s.core m.dst).slot.st = .idle then .refused else .waits (s.core m.dst).slot.lid

/-- An arrival at the engine, one atomic step: the state and the status of spec/09 R139; none where it is refused with 0x3. While a token
moves under the landing it waits. -/
def State.arriveMsg (s : State) (m : Message) : Except State (State × Option Nat) :=
  match s.msgFate m with
  | .refused => .ok (s, none)
  | .waits lid =>
    if s.roomFor m then .ok ({ s with pre := { s.pre with unexpected := s.pre.unexpected ++ [{ m with lid := lid }] } }, some 0)
    else .ok (s, some 1)
  | .lands r =>
    match s.landStall r m with
    | some s' => .error s'
    | none => .ok ({ s with pre := { s.pre with posted := s.pre.posted.erase r } }.landMessage r m, some 0)

/-- The answer of a send becomes known, at its core or at the core as saved. -/
def State.noteSend (s : State) (k : CoreIx) (id : Nat) (a : BitVec 8 × BitVec 4) : State :=
  let set (r : SendRec) : SendRec := if r.id == id then { r with answer := some a } else r
  let note (c : Core) : Core := { c with eng := { c.eng with sends := c.eng.sends.map set } }
  let saved (p : Nat × SavedCore) : Nat × SavedCore :=
    if p.1 % 4096 = k.val then (p.1, { p.2 with core := note p.2.core }) else p
  { s.modCore k note with saves := s.saves.map saved }

/-- The system address under which a refused message is logged: the spec gives none, the model takes the destination's window (log 107). -/
def State.msgSys (s : State) (m : Message) : BitVec 50 := sysOf s.own (winAddr m.dst.val .w 0)

/-- A message of this device has its answer. -/
def State.ownMsgEnd (s : State) (m : Message) (st : Option Nat) : State :=
  match st with
  | some st => s.noteSend m.core m.id (BitVec.ofNat 8 st, 0)
  | none => (s.logViolation (dieOf m.dst.val) 3 s.own (s.msgSys m) m.core.val 3).noteSend m.core m.id (2, 3)

/-- A peer's message is refused with a status, which the home's die logs (spec/02 R37). -/
def State.refusePeerMsg (s : State) (m : Message) (st : BitVec 4) : State :=
  (s.logViolation (dieOf m.dst.val) st m.dev.val (s.msgSys m) m.core.val 3).reply m.dev (s.bare m.dev.val) m.core.val (s.msgSys m) st false 8 0

/-- A peer's message has its answer. -/
def State.peerMsgEnd (s : State) (m : Message) (st : Option Nat) : State :=
  match st with
  | none => s.refusePeerMsg m 3
  | some st =>
    (s.charge (s.core m.dst).slot.ctx 13 m.payload.length).reply m.dev (s.bare m.dev.val) m.core.val (s.msgSys m) 0 false 8 (BitVec.ofNat 64 st)

/-- A peer's message as the engine sees it. -/
def peerMessage (p : PeerMsg) (id : Nat) : Message :=
  { id := id, dev := p.dev, core := p.core, dst := p.dst, tag := p.tag, cls := .ord, payload := p.payload, handle := 0, lid := 0 }

/-- Whether an earlier .ord message of the same pair has not arrived. -/
def State.msgBehind (s : State) (m : Message) : Bool :=
  m.cls = .ord && s.pre.sent.any fun q => q.id < m.id && q.cls = .ord && q.dev = m.dev && q.core = m.core && q.dst = m.dst

def State.msgEnd (s : State) (m : Message) (st : Option Nat) : State :=
  let s := { s with pre := { s.pre with sent := s.pre.sent.filter (·.id != m.id) } }
  if m.dev = s.fab.devid then s.ownMsgEnd m st else s.peerMsgEnd m st

/-- A message of this device one of whose flits fails is answered with 0x8. -/
def State.loseMsg (s : State) (m : Message) : State :=
  let s := (s.mend (.item m.id)).logViolation (dieOf m.dst.val) 8 s.own (s.msgSys m) m.core.val 3
  { s with pre := { s.pre with sent := s.pre.sent.filter (·.id != m.id) } }.noteSend m.core m.id (2, 8)

/-- A message that has not arrived yet arrives, unless it has to wait: it then stays on its way. -/
def State.tryMsg (s : State) (m : Message) : State :=
  if s.msgBehind m then s
  else if m.dev = s.fab.devid && s.isTorn (.item m.id) then s.loseMsg m
  else
    match s.arriveMsg m with
    | .error s' => s'
    | .ok (s', st) => s'.msgEnd m st

/-- A message arrives: one that is on its way, after the earlier .ord messages of its pair, or a peer's. A destination whose slot is IDLE
refuses it with status 0x3 (spec/20 R313). A peer's packet is first checked (spec/02 R29, R31, R36). -/
def execMessageArrival (a : MsgArrival) (s : State) : Out :=
  match a with
  | .own id =>
    match s.pre.sent.find? (·.id == id) with
    | none => ok s
    | some m => ok (s.tryMsg m)
  | .peer p =>
    match s.tagFails p.dev.val p.tagOk with
    | some s' => ok s'
    | none =>
      let m := peerMessage p s.nextId
      let s1 := { s with nextId := s.nextId + 1 }
      if !s.fab.domainEn then ok (s1.refusePeerMsg m 3)
      else if !p.crcOk && !s.bare p.dev.val then ok (s1.refusePeerMsg m 8)
      else ok ({ s1 with pre := { s1.pre with sent := s1.pre.sent ++ [m] } }.tryMsg m)

/-! ## Market and convoy instructions as issued (R292 to R299) -/

/-- Cause 0x09 with the partition. -/
def State.marketTrap (s : State) (p : Nat) : Out := ok (s.trap 9 (BitVec.ofNat 64 p))

def execGatepost (v : VReg) (b : XReg) (s : State) : Out :=
  let w := s.rx b
  if bits w 28 36 ≠ 0 || bits w 21 3 ≠ 0 then ok s.illegal
  else if !s.holdsPart (bits w 24 4) s.cc.slot.ctx then s.marketTrap (bits w 24 4)
  else s.issueEntry (.gatepost v b) w 0 none

def execMktrun (a b : XReg) (s : State) : Out :=
  let w := s.rx a
  if bits w 4 28 ≠ 0 || bits w 49 15 ≠ 0 then ok s.illegal
  else if !s.holdsPart (bits w 0 4) s.cc.slot.ctx then s.marketTrap (bits w 0 4)
  else s.issueEntry (.mktrun a b) w (s.rx b) none

/-- Whether a selector names a partition that the context holds, with its zero bits zero; else cause 0x09 at issue (R294). -/
def State.selectorOk (s : State) (w : Word) : Bool :=
  bits w 20 44 == 0 && bits w 12 4 == 0 && s.holdsPart (bits w 16 4) s.cc.slot.ctx

def execMktrd (d a : XReg) (s : State) : Out :=
  if !s.mayX d then ok s.forbidden
  else if s.selectorOk (s.rx a) then s.issueEntry (.mktrd d a) (s.rx a) 0 (some (.x d))
  else s.marketTrap (bits (s.rx a) 16 4)

def execMktwr (a b : XReg) (s : State) : Out :=
  if s.selectorOk (s.rx a) then s.issueEntry (.mktwr a b) (s.rx a) (s.rx b) none else s.marketTrap (bits (s.rx a) 16 4)

/-- CVARM: the image is armed by the Convoy Sequencer (R298). -/
def execCvarm (a b : XReg) (s : State) : Out :=
  if (s.rx b).toNat ≥ 16 then ok s.illegal
  else if (s.rx a).toNat % 64 ≠ 0 then ok (s.trap 1 (s.rx a))
  else
    let r : ArmReq := { core := s.cur, lid := s.cc.slot.lid, ctx := s.cc.slot.ctx, image := s.rx a }
    ok { s with convoy := { s.convoy with arms := s.convoy.arms ++ [(Fin.ofNat 16 (s.rx b).toNat, r)] } }

def execCvplay (v : VReg) (b : XReg) (s : State) : Out :=
  if (s.rx b).toNat ≥ 16 then ok s.illegal else s.issueEntry (.cvplay v b) (s.rx b) 0 none

end Sys2Proof.Machine
end

