-- ==== Sys2Proof/Machine/Market.lean ====
section
/-!
DEFINITION. The Expert Market: postings and their Brokers (spec/11 R160), a step (R161 to R167) and the Sort Engine (spec/09
R142).
-/

namespace Sys2Proof.Machine

/-! ## Bids (R160) -/

/-- x of a BF16 logit, as an FP32 code: NaN and −∞ become 0xFF7F, +∞ becomes 0x7F7F. -/
def bidOf (b : Nat) : Nat :=
  let inf := b / 2 ^ 7 % 256 == 255
  let b' := if inf && b % 128 ≠ 0 then 0xFF7F else if inf then (if b / 2 ^ 15 = 1 then 0xFF7F else 0x7F7F) else b
  b' * 65536

/-- The accessor that a Broker or a Sort Engine is for a core's context. -/
def brokerAcc (s : State) (k : CoreIx) (cls : RClass) : Acc :=
  { ctx := (s.core k).slot.ctx, cl := none, core := k.val, src := 0, row := .sort, cls := cls, eng := true }

/-- Write doublewords; a failure names its address. -/
def State.putWords (e : Acc) : List Word → State → Word → State × Option (Word × AccErr)
  | [], s, _ => (s, none)
  | w :: r, s, ga =>
    match s.engWrite e ga 8 w.toNat with
    | (s, .error x) => (s, some (ga, x))
    | (s, .ok ()) => State.putWords e r s (ga + 8)

/-- Read doublewords; a failure names its address. -/
def State.getWords (e : Acc) : Nat → State → Word → State × Except (Word × AccErr) (List Word)
  | 0, s, _ => (s, .ok [])
  | n + 1, s, ga =>
    match s.engRead e ga 8 with
    | (s, .error x) => (s, .error (ga, x))
    | (s, .ok w) =>
      match State.getWords e n s (ga + 8) with
      | (s, .error x) => (s, .error x)
      | (s, .ok r) => (s, .ok (BitVec.ofNat 64 w :: r))

/-- Read the n words of each of t rows that hold lanes below NEXP (R160), a row of `stride` words after the other; the other words of a row are
not read and stand as 0 in the list. -/
def State.getRows (e : Acc) (n stride : Nat) : Nat → State → Word → State × Except (Word × AccErr) (List Word)
  | 0, s, _ => (s, .ok [])
  | t + 1, s, ga =>
    match State.getWords e n s ga with
    | (s, .error x) => (s, .error x)
    | (s, .ok ws) =>
      match State.getRows e n stride t s (ga + BitVec.ofNat 64 (8 * stride)) with
      | (s, .error x) => (s, .error x)
      | (s, .ok r) => (s, .ok (ws ++ List.replicate (stride - n) 0 ++ r))

/-- Write a chunk of 64 bytes at a 64-byte aligned address, all of it or nothing: to another device it goes as words that have one
answer. -/
def State.engWriteChunk (s : State) (e : Acc) (ga : Word) (v : Vec) : State × Except AccErr Unit :=
  match s.engTarget e (some (dw v 0)) ga (if s.engFar e ga then 8 else 64) with
  | (s, .error x) => (s, .error x)
  | (s, .ok (.own a)) => ((if inStacks a then s.charge e.ctx 11 64 else s).engineWrite a 64 v.toNat, .ok ())
  | (s, .ok (.peer sys)) =>
    ((List.range 7).foldl (fun s i => s.engPacket e (some (dw v (i + 1))) (sys + BitVec.ofNat 50 (8 * (i + 1))) 8) s, .ok ())

/-- Whether an earlier chunk of the same core for the same partition is still to be written. -/
def State.postBehind (s : State) (x : Posting) : Bool :=
  s.posts.any fun y => y.id < x.id && y.core = x.core && bits y.word 24 4 == bits x.word 24 4

/-- The address of a posted chunk in the bid table it reached. -/
def Posting.addr (x : Posting) (bids : Word) (rowChunks : Nat) : Word :=
  bids + BitVec.ofNat 64 (bits x.word 0 16 * (64 * rowChunks) + 64 * bits x.word 16 5)

/-- Whether an instruction that the core issued before a posting still waits at the Market: the posting has not reached its Broker either
(spec/17 R295). -/
def State.behindMarket (s : State) (x : Posting) : Bool := s.mktWaits.any fun w => w.core = x.core && w.stamp < x.id

/-- A posted chunk reaches its Broker, with the core's earlier ones, after what the core issued before it, and is written there after the
earlier ones and while no step runs (R160, spec/17 R295, spec/18 R306). -/
def execGatepostChunkWrite (id : Nat) (s : State) : Out :=
  match s.posts.find? (·.id == id) with
  | none => ok s
  | some x =>
    if s.behindMarket x && x.taken.isNone then ok s else
    let s := { s with posts := s.posts.map fun (y : Posting) => if y.core = x.core && y.id ≤ id then s.reachPost y else y }
    let (bids, rows) := (s.reachPost x).taken.getD (0, 0)
    if (s.part (bits x.word 24 4)).run.isSome || s.postBehind x then ok s
    else
      let gone (s : State) : State := { s with posts := s.posts.filter (·.id != id) }
      if rows ≤ bits x.word 16 5 then ok (gone { s with postsLost := s.postsLost + 1 }).mktGo
      else
        let ga := x.addr bids rows
        match s.engWriteChunk (brokerAcc s x.core .ord) ga x.data with
        | (s', .error .wait) => ok (s.stall s')
        | (s, .error e) =>
          ok ((gone s).place x.core [mkMsg 0x21 e.cause.toNat x.core.val 0 ga, mkMsg 0x22 0 x.core.val 0 x.word] .keep).mktGo
        | (s, .ok ()) => ok (gone s).mktGo

/-! ## Arithmetic (R162, R165) -/

/-- round_fp32_sat of a sum or a difference, with whether it replaced an overflow. -/
def satAdd (x y : Nat) : Nat × Bool := let r := fpAdd fp32 .rne true x y; (r.1, (r.2 &&& FpFlags.sat) != 0)
def satSub (x y : Nat) : Nat × Bool := let r := fpSub fp32 .rne true x y; (r.1, (r.2 &&& FpFlags.sat) != 0)
def fpLess (x y : Nat) : Bool := (fpLt fp32 x y).1

/-- The lowest index whose value is largest. -/
def argMax (f : Nat → Nat) : List Nat → Option Nat
  | [] => none
  | j :: r =>
    match argMax f r with
    | none => some j
    | some k => if fpLess (f j) (f k) then some k else some j

/-- The value of a positive normal FP32 code in units of 2^-512. -/
def scaledOf (c : Nat) : Int := (((c % 2 ^ 23 + 2 ^ 23) * 2 ^ (c / 2 ^ 23 % 256 + 362) : Nat) : Int)

/-- The market exponential of a value that is not positive: exact at 0; else one of the FP32 values within 2^-22 of the exact
exponential (log 14); +0 below the smallest normal value. -/
def mexp (x : Nat) : Nat :=
  match fpDecode fp32 x with
  | .fin s m e _ =>
    if m = 0 then 0x3F800000
    else if exceeds m e 200 then 0
    else
      let v := fixOf s m e
      let (r, k) := expFix v
      let c := roundFp32 (.fin false r.natAbs (k - 512) true)
      let y := c + Config.mexpPick (halfOf x) % 9 - 4
      let w := expScaled v
      let y := if 0x00800000 ≤ y && (scaledOf y - w).natAbs * 2 ^ 22 ≤ w.natAbs then y else c
      if y < 0x00800000 then 0 else y
  | _ => 0

/-! ## The rounds (R162) -/

/-- A slot's place: token, slot, local expert, bid, whether the fallback placed it. -/
structure Place where
  t  : Nat
  s  : Nat
  j  : Nat
  β  : Nat
  fb : Bool
  deriving DecidableEq, Repr

/-- What a step computes with: tokens, slots, experts, values by token and expert, capacities, EPS. -/
structure Step where
  tokens : Nat
  k      : Nat
  nexp   : Nat
  vals   : List (List Nat)
  caps   : List Nat
  eps    : Nat
  deriving DecidableEq, Repr

/-- Assignments and prices as they stand. -/
structure Books where
  places : List Place
  prices : List Nat
  sat    : Bool
  deriving DecidableEq, Repr

def Step.val (m : Step) (t j : Nat) : Nat := (m.vals.getD t []).getD j 0
def Step.cap (m : Step) (j : Nat) : Nat := m.caps.getD j 0
/-- The candidate set E. -/
def Step.cands (m : Step) : List Nat := (List.range m.nexp).filter fun j => 0 < m.cap j
def Books.price (b : Books) (j : Nat) : Nat := b.prices.getD j 0
def heldBy (l : List Place) (t j : Nat) : Bool := l.any fun p => p.t == t && p.j == j
def assigned (l : List Place) (t s : Nat) : Bool := l.any fun p => p.t == t && p.s == s
def holders (l : List Place) (j : Nat) : List Place := l.filter (·.j == j)
def Step.slots (m : Step) : List (Nat × Nat) := ((List.range m.tokens).map fun t => (List.range m.k).map fun s => (t, s)).flatten

/-- The bid of a slot among the experts X, and whether a rounding saturated. -/
def Step.bid (m : Step) (p0 : Nat → Nat) (t s : Nat) (xs : List Nat) : Option (Place × Bool) :=
  let u (j : Nat) := satSub (m.val t j) (p0 j)
  match argMax (fun j => (u j).1) xs with
  | none => none
  | some j1 =>
    let sat0 := xs.any fun j => (u j).2
    match argMax (fun j => (u j).1) (xs.filter (· != j1)) with
    | none =>
      let b := satAdd (p0 j1) m.eps
      some ({ t := t, s := s, j := j1, β := b.1, fb := false }, sat0 || b.2)
    | some j2 =>
      let d := satSub (u j1).1 (u j2).1
      let a := satAdd (p0 j1) d.1
      let b := satAdd a.1 m.eps
      some ({ t := t, s := s, j := j1, β := b.1, fb := false }, sat0 || d.2 || a.2 || b.2)

/-- The bids of a round, token by token and slot by slot. -/
def Step.bids (m : Step) (b : Books) : List (Nat × Nat) → List Place → Bool → List Place × Bool
  | [], acc, sat => (acc, sat)
  | (t, s) :: r, acc, sat =>
    if assigned b.places t s then m.bids b r acc sat
    else
      let xs := m.cands.filter fun j => !heldBy b.places t j && !heldBy acc t j
      match m.bid b.price t s xs with
      | none => m.bids b r acc sat
      | some (p, f) => m.bids b r (acc ++ [p]) (sat || f)

/-- Bids rank by β descending, then by token. -/
def ranksBefore (p q : Place) : Bool := fpLess q.β p.β || (!fpLess p.β q.β && p.t < q.t)

def insertRank (p : Place) : List Place → List Place
  | [] => [p]
  | q :: r => if ranksBefore p q then p :: q :: r else q :: insertRank p r

def sortRank (l : List Place) : List Place := l.foldl (fun acc p => insertRank p acc) []

/-- One round: every expert keeps the first CAP_j, and its price rises to the least bid it holds when it is full. -/
def Step.round (m : Step) (b : Books) : Books :=
  let (new, sat) := m.bids b m.slots [] b.sat
  let keep (j : Nat) : List Place := (sortRank (holders b.places j ++ holders new j)).take (m.cap j)
  let price (j : Nat) : Nat :=
    if 0 < m.cap j && (keep j).length = m.cap j then
      match (keep j).getLast? with
      | some l => if fpLess (b.price j) l.β then l.β else b.price j
      | none => b.price j
    else b.price j
  { places := (m.cands.map keep).flatten, prices := (List.range m.nexp).map price, sat := sat }

def Step.open (m : Step) (b : Books) : Bool := m.slots.any fun (t, s) => !assigned b.places t s

/-- At most n rounds; how many ran. -/
def Step.rounds (m : Step) : Nat → Books → Nat → Books × Nat
  | 0, b, r => (b, r)
  | n + 1, b, r => if m.open b then m.rounds n (m.round b) (r + 1) else (b, r)

/-! ## The fallback (R163) -/

/-- A token reached by the search, with the moves that lead to it, the first one first: a holder's slot and the expert it
leaves. -/
structure Reach where
  t    : Nat
  path : List Place
  deriving DecidableEq, Repr

/-- Explore the experts of a token: the first that has room ends the search, the holders of the others are queued. -/
def Step.explore (m : Step) (l : List Place) (r : Reach) : List Nat → List Nat → List Nat → List Reach →
    (Option Nat × List Nat × List Nat × List Reach)
  | [], seenT, seenJ, q => (none, seenT, seenJ, q)
  | j :: js, seenT, seenJ, q =>
    if heldBy l r.t j || seenJ.contains j then m.explore l r js seenT seenJ q
    else if (holders l j).length < m.cap j then (some j, seenT, seenJ, q)
    else
      let hs := (m.slots.map fun (t, s) => l.filter fun p => p.t == t && p.s == s && p.j == j).flatten
      let new := hs.filter fun p => !seenT.contains p.t
      m.explore l r js (seenT ++ new.map (·.t)) (seenJ ++ [j]) (q ++ new.map fun p => { t := p.t, path := r.path ++ [p] })

/-- Breadth-first search; every token is queued at most once, so `n` tokens bound it. -/
def Step.search (m : Step) (l : List Place) : Nat → List Reach → List Nat → List Nat → Option (List Place × Nat)
  | 0, _, _, _ => none
  | _, [], _, _ => none
  | n + 1, r :: q, seenT, seenJ =>
    match m.explore l r m.cands seenT seenJ [] with
    | (some j, _, _, _) => some (r.path, j)
    | (none, seenT', seenJ', new) => m.search l n (q ++ new) seenT' seenJ'

/-- Apply a path: each holder moves its slot to the next expert of the path; the first expert takes the new slot. -/
def applyPath (l : List Place) : List Place → Nat → List Place
  | [], _ => l
  | p :: r, last =>
    let next := match r with | q :: _ => q.j | [] => last
    applyPath (l.map fun x => if x.t == p.t && x.s == p.s then { x with j := next } else x) r last

/-- Place the slots that the rounds left: assignments, how many, how many relocations. -/
def Step.fallback (m : Step) (b : Books) : List (Nat × Nat) → List Place → Nat → Nat → Bool → List Place × Nat × Nat × Bool
  | [], l, n, rel, sat => (l, n, rel, sat)
  | (t, s) :: r, l, n, rel, sat =>
    if assigned l t s then m.fallback b r l n rel sat
    else
      let ys := m.cands.filter fun j => (holders l j).length < m.cap j && !heldBy l t j
      let u (j : Nat) := satSub (m.val t j) (b.price j)
      match argMax (fun j => (u j).1) ys with
      | some j =>
        m.fallback b r (l ++ [{ t := t, s := s, j := j, β := 0, fb := true }]) (n + 1) rel (sat || ys.any fun j => (u j).2)
      | none =>
        match m.search l (m.tokens + 1) [{ t := t, path := [] }] [t] [] with
        | none => m.fallback b r l n rel sat
        | some (path, last) =>
          let j1 := match path with | q :: _ => q.j | [] => last
          let l' := applyPath l path last ++ [{ t := t, s := s, j := j1, β := 0, fb := true }]
          m.fallback b r l' (n + 1) (rel + 1) sat

/-! ## NONE mode (R164) -/

/-- The k experts of highest x. -/
def topK (f : Nat → Nat) : Nat → List Nat → List Nat
  | 0, _ => []
  | n + 1, l =>
    match argMax f l with
    | none => []
    | some j => j :: topK f n (l.filter (· != j))

/-! ## Records (R165, R166) -/

/-- A token's winners: expert and FB, by descending x, then by expert. -/
def Step.winners (m : Step) (l : List Place) (t : Nat) : List (Nat × Bool) :=
  let mine := l.filter (·.t == t)
  (topK (m.val t) m.k ((List.range m.nexp).filter (heldBy l t))).map fun j => (j, mine.any fun p => p.j == j && p.fb)

/-- The weights of winners of values xs, and whether a difference saturated (spec/12 R182). -/
def weights (xs : List Nat) : List Nat × Bool :=
  match xs with
  | [] => ([], false)
  | x :: _ =>
    let gs := xs.map fun y => mexp (satSub y x).1
    let z := match gs with
      | [] => 0
      | g :: r => r.foldl (fun a g => (fpAdd fp32 .rne false a g).1) g
    (gs.map fun g => (fpDiv fp32 .rne false g z).1, xs.any fun y => (satSub y x).2)

/-- The two words of a routing record. -/
def recordWords (t s e w : Nat) (ready fb : Bool) : List Word :=
  [BitVec.ofNat 64 (t + (if fb then 2 ^ 43 else 0) + (if ready then 2 ^ 44 else 0) + s * 2 ^ 45 + e * 2 ^ 48),
   BitVec.ofNat 64 (w * 2 ^ 32)]

/-- A step's outcome. -/
structure Result where
  places : List Place
  prices : List Nat
  rounds : Nat
  fbCnt  : Nat
  reloc  : Nat
  sat    : Bool
  deriving DecidableEq, Repr

/-- Compute a step in its mode. -/
def Step.result (m : Step) (mode limit : Nat) (prices : List Nat) : Result :=
  if mode = 0 then
    let l := (List.range m.tokens).map fun t =>
      (topK (m.val t) m.k (List.range m.nexp)).mapIdx fun s j => { t := t, s := s, j := j, β := 0, fb := false : Place }
    { places := l.flatten, prices := prices, rounds := 0, fbCnt := 0, reloc := 0, sat := false }
  else
    let (b, r) := m.rounds limit { places := [], prices := prices, sat := false } 0
    let (l, n, rel, sat) := m.fallback b m.slots b.places 0 0 b.sat
    { places := l, prices := b.prices, rounds := r, fbCnt := n, reloc := rel, sat := sat }

/-- The payload of kind 0x70 for status 0. -/
def Result.payload (r : Result) : Word :=
  BitVec.ofNat 64 (r.rounds + (if r.fbCnt = 0 then 256 else 0) + (if r.sat then 512 else 0) + r.reloc * 2 ^ 30 + r.fbCnt * 2 ^ 47)

/-- The bid rows as FP32 codes. -/
def tableVals (q : Partition) (t : Nat) (ws : List Word) : List (List Nat) :=
  (List.range t).map fun t => (List.range q.nexp).map fun j =>
    bidOf (bits (ws.getD (t * 8 * q.rowChunks + j / 4) 0) (16 * (j % 4)) 16)

/-- Prices and residency after a step. -/
def State.setPrices (s : State) (ebase : Nat) : List Nat → Nat → State
  | [], _ => s
  | p :: r, j => State.setPrices { s with prices := put s.prices (ebase + j) (BitVec.ofNat 32 p) } ebase r (j + 1)

/-- The step that a partition runs, over the words of its bid table. -/
def State.stepOf (s : State) (q : Partition) (run : MktStep) (ws : List Word) : Step :=
  { tokens := run.tokens, k := q.k, nexp := q.nexp, vals := tableVals q run.tokens ws,
    caps := (List.range q.nexp).map fun j => s.cap (q.ebase + j), eps := bits q.eps 0 32 }

/-- A record of a step: token, slot, local expert, weight, READY as the Broker's own replica has it, FB. -/
structure Record where
  t  : Nat
  i  : Nat
  j  : Nat
  w  : Nat
  rd : Bool
  fb : Bool
  deriving DecidableEq, Repr

/-- The records of a step, and whether a weight's difference saturated. -/
def State.rowsOf (s : State) (die eb : Nat) (m : Step) (r : Result) : List Record × Bool :=
  let per := (List.range m.tokens).map fun t =>
    let ws := m.winners r.places t
    let (gs, f) := weights (ws.map fun w => m.val t w.1)
    (ws.mapIdx fun i (w : Nat × Bool) => { t := t, i := i, j := w.1, w := gs.getD i 0, rd := (s.replica die (eb + w.1)).state == 2, fb := w.2 : Record }, f)
  ((per.map (·.1)).flatten, per.any (·.2))

/-- The payload of a step that ends with status 3: its cause is 0x04 or 0x05 (R167). -/
def stepFault (e : AccErr) (ga : Word) : Word :=
  BitVec.ofNat 64 ((if e.cause = 4 then 4 else 5) * 2 ^ 56 + ga.toNat % 2 ^ 48)

/-- A running step completes: assignment, prices, STEP, kind 0x70, then the routing records and LAST; a fault on the bid
table ends it with status 3. -/
def execMarketStepComplete (p : Fin 16) (s : State) : Out :=
  let q := s.part p.val
  match q.run with
  | none => ok s
  | some run =>
    match State.getRows (brokerAcc s run.core .adp) ((q.nexp + 3) / 4) (8 * q.rowChunks) run.tokens s q.bids with
    | (s', .error (_, .wait)) => ok (s.stall s')
    | (s, .error (ga, e)) => ok ((s.setPart p.val { q with run := none }).endStep p.val run.core 3 (stepFault e ga)).mktGo
    | (s1, .ok ws) =>
      let s0 := s
      let s := s1
      let eb := q.ebase
      let m := s.stepOf q run ws
      let r0 := m.result q.mode q.limit ((List.range q.nexp).map fun j => (s.price (eb + j)).toNat)
      let (rows, sat) := s.rowsOf (dieOf run.core.val) eb m r0
      let r := { r0 with sat := r0.sat || sat }
      let step := BitVec.ofNat 64 ((q.step.toNat + 1) % 2 ^ 32)
      let s := (s.setPrices eb (if q.mode = 0 then [] else r.prices) 0).setPart p.val { q with run := none, step := step }
      let s := s.charge (s.core run.core).slot.ctx 8 (Config.cost s.free)
      let s := { s with free := s.free + 1 }.endStep p.val run.core 0 r.payload
      let words := (rows.map fun x => recordWords x.t x.i (eb + x.j) x.w x.rd x.fb).flatten
      match State.putWords (brokerAcc s run.core .adp) words s run.out with
      | (s', some (_, .wait)) => ok (s0.stall s')
      | (s, err) =>
      let used := (List.range m.nexp).filter fun j => rows.any fun x => x.j == j
      let s := used.foldl (fun s j => s.setRes (eb + j) { s.res (eb + j) with last := step.setWidth 32 }) s
      let job : SortJob :=
        { core := run.core, recs := rows.mapIdx (fun n x => (n, eb + x.j, x.rd)), nexp := q.nexp, ebase := eb,
          out := run.out, step := step.setWidth 32, fail := err.map (·.1) }
      let q' := s.part p.val
      ok (s.setPart p.val { q' with sort := q'.sort ++ [job] }).mktGo

/-! ## The Sort Engine (spec/09 R142) -/

/-- Records before which another goes: ready ones first, then by global expert; equal keys keep their order. -/
def sortsAfter (a b : Nat × Nat × Bool) : Bool := if a.2.2 == b.2.2 then b.2.1 < a.2.1 else b.2.2

def insertSort (x : Nat × Nat × Bool) : List (Nat × Nat × Bool) → List (Nat × Nat × Bool)
  | [] => [x]
  | y :: r => if sortsAfter y x then x :: y :: r else y :: insertSort x r

/-- The stable dispatch order. -/
def dispatchOrder (l : List (Nat × Nat × Bool)) : List (Nat × Nat × Bool) := l.foldl (fun acc x => insertSort x acc) []

/-- Bytes of the three arrays: permutation, inverse, first index and count of every local expert. An expert without records
takes its place as if its READY were 0 (spec/22 R320). -/
def SortJob.arrays (j : SortJob) : List Byte :=
  let d := dispatchOrder j.recs
  let perm := d.map (·.1)
  let inv := j.recs.map fun x => perm.idxOf x.1
  let first (e : Nat) : Nat :=
    match d.findIdx? (fun x => x.2.1 == e) with
    | some i => i
    | none => (d.filter fun x => x.2.2 || x.2.1 < e).length
  let cnt (e : Nat) : Nat := (j.recs.filter fun x => x.2.1 == e).length
  ((perm.map (toBytes 4)) ++ inv.map (toBytes 4) ++
    (List.range j.nexp).map fun l => toBytes 8 (first (j.ebase + l) + cnt (j.ebase + l) * 2 ^ 32)).flatten

/-- Write 4 bytes at a time; a failure names its address. -/
def State.putBytes (e : Acc) : List Byte → State → Word → State × Option (Word × AccErr)
  | a :: b :: c :: d :: r, s, ga =>
    match s.engWrite e ga 4 (ofBytes [a, b, c, d]) with
    | (s, .error x) => (s, some (ga, x))
    | (s, .ok ()) => State.putBytes e r s (ga + 4)
  | _, s, _ => (s, none)

/-- The arrays of the partition's oldest job are written, then kind 0x60. -/
def execSortComplete (p : Fin 16) (s : State) : Out :=
  let q := s.part p.val
  match q.sort with
  | [] => ok s
  | j :: rest =>
    let n := j.recs.length
    match State.putBytes (brokerAcc s j.core .adp) j.arrays s (j.out + BitVec.ofNat 64 (16 * n)) with
    | (s', some (_, .wait)) => ok (s.stall s')
    | (s, err) =>
      let fail := j.fail <|> err.map (·.1)
      let s := s.charge (s.core j.core).slot.ctx 9 (Config.cost s.free)
      let s := { s with free := s.free + 1 }.setPart p.val { q with sort := rest }
      ok (match fail with
        | some ga => s.place j.core [mkMsg 0x60 3 p.val (j.step.toNat % 65536) ga] .keep
        | none => s.place j.core [mkMsg 0x60 0 p.val (j.step.toNat % 65536) (BitVec.ofNat 64 n)] .keep)

end Sys2Proof.Machine
end

