-- ==== Sys2Proof/Machine/Homes.lean ====
section
/-!
DEFINITION. What happens at homes and on the way back: accesses performed (spec/10 R145, spec/02 R28 to R33), queries of the
Residency Table (spec/17 R296, R297, spec/08 R129), landings of results (spec/07 R94), acknowledgements (spec/19 R309),
response traps (spec/07 R111), and the token protocol (spec/02 R34, R35).
-/

namespace Sys2Proof.Machine

/-! ## Residency queries -/

/-- x[D] of R296, but for what the query did. -/
def ResEntry.report (e : ResEntry) (did : Nat) : Word :=
  BitVec.ofNat 64 (e.wbase.toNat + e.pin.toNat * 2 ^ 24 + did + e.state.toNat * 2 ^ 46
    + (if e.state == 1 then e.xid.toNat else 0) * 2 ^ 48)

/-- Whether the W ranges of two entries overlap. -/
def ResEntry.overlaps (a b : ResEntry) : Bool :=
  a.wbase.toNat < b.wbase.toNat + b.plen.toNat && b.wbase.toNat < a.wbase.toNat + a.plen.toNat

/-- Whether an entry can be a requester's victim. -/
def ResEntry.yields (w r : ResEntry) : Bool :=
  w.ctx == r.ctx && w.state == 2 && w.pin == 0 && w.hgrp == r.hgrp && r.plen.toNat ≤ w.plen.toNat

/-- The victim: the lowest LAST, then the lowest entry. -/
def State.victim (s : State) (r : ResEntry) : Option Nat :=
  ((List.range 1024).filter fun e => (s.res e).yields r).foldl (fun best e =>
    match best with
    | none => some e
    | some b => if (s.res e).last.toNat < (s.res b).last.toNat then some e else some b) none

/-- `.fetch` at the home Broker (R297); its transfer is the query's operation. -/
def State.fetch (s : State) (k : CoreIx) (e stamp : Nat) : State × Word :=
  let r := s.res e
  if r.state == 1 || r.state == 2 then (s, r.report 0)
  else
    let need := (List.range 1024).any fun w =>
      (s.res w).ctx == r.ctx && (s.res w).hgrp == r.hgrp && (s.res w).state != 0 && (s.res w).overlaps r
    let v := if need then s.victim r else none
    if need && v.isNone then (s, r.report (2 ^ 43))
    else
      let base := match v with | some w => (s.res w).wbase | none => r.wbase
      let info : FetchInfo := { entry := e, members := (s.members k (Fin.ofNat 256 r.hgrp.toNat)).map (·.val),
                                wbase := base.toNat, plen := r.plen.toNat, srcVa := r.srcVa.toNat }
      match s.takeSlot k (s.core k).eng.cp (some info) with
      | none => (s, r.report (2 ^ 44))
      | some (s, x) =>
        let s := match v with | some w => s.setRes w { s.res w with state := 0 } | none => s
        let r := { r with state := 1, xid := x.xid, wbase := base }
        let did := 2 ^ 45 + (match v with | some w => 2 ^ 42 + w * 2 ^ 32 | none => 0)
        ((s.setRes e r).beginXfer k { x with stamp := stamp }, r.report did)

/-- The answer of a query that the home has decided stays there until every replica holds its effect (spec/08 R129). -/
def State.answerQuery (s : State) (r : Req) (w : Word) : State := s.putReq { r with phase := .answered 0, ga := w }

/-- A query is decided: refused where the entry belongs to another context. FN 0 reads the replica of the requester's die, the others act at
the home. -/
def State.query (s : State) (r : Req) (fn : Fin 4) (e : Fin 1024) : State :=
  let k := r.src.coreOf
  let en := if fn = 0 then s.replica (dieOf k.val) e.val else s.res e.val
  if en.ctx ≠ r.ctx then s.refuse r 3
  else if fn = 0 then s.answer r 0 (en.report 0)
  else if fn = 1 then
    match s.fetch k e.val r.id with
    | (s, w) => s.answerQuery r w
  else
    let pin := if fn = 2 then min (en.pin.toNat + 1) 255 else en.pin.toNat - 1
    let en := { en with pin := BitVec.ofNat 8 pin }
    (s.setRes e.val en).answerQuery r (en.report 0)

/-! ## Accesses performed -/

/-- Whether a request to another device names its register space, which refuses all but a plain read of FAB_CAP (spec/02
R28). -/
def Req.inRegisters (r : Req) : Bool :=
  match r.op with
  | .acc kind => 0xF000000000 ≤ physOf r.sys && !(kind = .load 8 && physOf r.sys = 0xF000000000 && r.fe = .plain)
  | _ => false

/-- What a token move's response says: its status fills the low byte of the result (spec/15 R248). -/
def State.tokAnswer (s : State) (r : Req) (release : Bool) (w : Word) : State :=
  let st : Word := w &&& 0xFF
  let key := (devOf r.sys, physOf r.sys / 2 ^ 21)
  let s := if !release && (st = 0 || st = 1 || st = 3) && !s.fab.held.contains key then
      { s with fab := { s.fab with held := s.fab.held ++ [key] } } else s
  s.answer r 0 st

/-- The response to a request that went to another device: its status as the requester takes it decides (spec/02 R31, R37). That of a
token move is no answer to a read, a write or an atomic: it carries the status alone. -/
def State.peerAnswer (s : State) (r : Req) (p : PeerReply) : State :=
  let s := match r.plane with | some q => s.subOutstanding q | none => s
  match r.op with
  | .tok release =>
    let seen : BitVec 4 := if (xstatOf p).toNat ≥ 10 then 2 else xstatOf p
    let s := s.noteStatus (xstatOf p) seen r.sys r.src.coreOf 0
    if seen = 0 then s.tokAnswer r release p.data else s.answer r seen 0
  | .query _ _ => s.answer r 0 p.data
  | .acc kind =>
    let seen := s.seenStatus r.sys (answerLen kind) p
    let s := s.noteStatus (xstatOf p) seen r.sys r.src.coreOf 0
    let st : BitVec 4 := if r.inRegisters && seen = 0 then 3 else seen
    if st ≠ 0 then s.answer r st 0
    else
      match kind with
      | .load n =>
        let s := if r.fills && s.holdsToken r.sys then s.fillLine r.sys p.data else s
        (s.charge r.ctx 13 n).answer r 0 p.data
      | _ => s.answer r 0 p.data

/-- What comes from another device for a request: nothing where its tag fails (R36); a late response is discarded and counted (R33). -/
def State.peerArrives (s : State) (id : Nat) (dev : Nat) (p : PeerReply) : State :=
  match s.tagFails dev p.tagOk with
  | some s' => s'
  | none =>
    match s.req id with
    | some r => s.peerAnswer r p
    | none => s

/-- A late response. -/
def State.lateArrives (s : State) (id : Nat) : State :=
  { s with fab := { s.fab with overdue := s.fab.overdue.erase id, lateResponses := s.fab.lateResponses + 1 } }

/-- A request arrives at its home on this device; the output ports of a core are drained before its own access to its window (spec/10
R150). -/
def State.homeArrives (s : State) (r : Req) : State :=
  match r.op with
  | .acc kind =>
    let k := r.src.coreOf
    let mine := r.cls = .ord && !r.reg && homeOf (physOf r.sys) = .core k.val
    (if mine then s.drainPorts k else s).arrive r kind
  | .query fn e => s.query r fn e
  | .tok _ => if r.reg then s.refuse r 3 else s

/-- A request of this device arrives at its home, or the peer's answer to it arrives; one that has not left yet tries to leave. -/
def State.performOwn (s : State) (id : Nat) (p : PeerReply) : State :=
  if s.fab.overdue.contains id then s.lateArrives id
  else
    match s.req id with
    | none => s
    | some r =>
      if r.phase ≠ .sent || r.loc || s.heldBack r then s
      else if r.reg || devOf r.sys = s.own then s.homeArrives r
      else if r.plane.isNone then s.depart r
      else s.peerArrives id (devOf r.sys) p

/-- A request of this device whose mesh flit CRC fails at its home is answered with 0x8 (spec/01 R17, spec/06 R89). -/
def State.damagedOwn (s : State) (id : Nat) : State :=
  match s.req id with
  | none => s
  | some r => if r.phase ≠ .sent || r.loc || s.heldBack r || !(r.reg || devOf r.sys = s.own) then s else s.refuse r 8

/-- The full-empty modes that suit a request. -/
def feSuits (kind : AccKind) (fe : FeMode) : Bool :=
  match kind with
  | .load _ => fe = .plain || fe = .wf || fe = .tk
  | .atomic _ _ _ => fe = .plain || fe = .wf
  | _ => fe = .plain || fe = .we || fe = .fl

/-- The full-empty mode of a header that suits a request, if there is one. -/
def hdrFe (kind : AccKind) (h : Word) : Option FeMode :=
  match feOfCode (bits h 6 3) with
  | some fe => if feSuits kind fe then some fe else none
  | none => none

/-- Whether the header of a request is malformed (spec/02 R30). -/
def hdrBad (kind : AccKind) (h : Word) : Bool :=
  bits h 0 2 = 3 || bits h 28 4 ≠ 1 || bits h 3 3 ≠ 0 || bit h 2 || bits h 12 4 ≠ 0 || (hdrFe kind h).isNone

def hdrLeg (h : Word) : Bool := bit h 10

/-- The core that a header names. -/
def hdrCore (h : Word) : CoreIx := toCore (bits h 16 12)

/-- A request of a peer as its home sees it; one without a header is .adp, plain and without a token (R30). -/
def State.peerReq (s : State) (f : FabReq) : Req :=
  let bare := s.bareFrom f.dev.val f.hdr
  { id := s.nextId, src := .peer f.dev (if bare then 0 else hdrCore f.hdr) bare, op := .acc f.kind,
    cls := if bare then .adp else clsOf (bits f.hdr 0 2), fe := if bare then .plain else (hdrFe f.kind f.hdr).getD .plain, ga := 0,
    sys := f.addr, reg := false, loc := false, tokchk := !bare && bit f.hdr 9, ext := .zero (accWidth f.kind), flight := none,
    phase := .sent, due := s.now + toTicks s.fab.rspTimeout, ctx := 0, nocache := true, plane := none }

/-- A plain read of FAB_CAP of this device (R28, R29). -/
def State.readsCap (s : State) (f : FabReq) : Bool := f.kind = .load 8 && f.addr = sysOf s.own 0xF000000000

/-- A peer's request is refused before it reaches a home: logged in die 0's log and answered. -/
def State.denyPeer (s : State) (f : FabReq) (st : BitVec 4) : State :=
  (s.logViolation 0 st f.dev.val f.addr (hdrCore f.hdr).val 0).reply f.dev (s.bareFrom f.dev.val f.hdr) (hdrCore f.hdr).val f.addr st false 0 0

/-- A request of a peer arrives (spec/02 R28 to R31, R36). A discovery read, which carries no header, is always answered, and while
DOMAIN_EN is 0 every request but a plain read of FAB_CAP is refused with 0x3 (R29). One that is malformed and whose XCRC does not match is
answered with 0x2 (log 59). LEG = 1 with another device's address is never forwarded: it has no route, which its source logs. -/
def State.performFabric (s : State) (f : FabReq) : State :=
  match s.tagFails f.dev.val f.tagOk with
  | some s' => s'
  | none =>
    let bare := s.bareFrom f.dev.val f.hdr
    if s.readsCap f && (bare || f.hdr = 0) then s.fabOut (.reply f.dev 0 0 fabCap)
    else if !s.fab.domainEn && !(s.readsCap f && bits f.hdr 6 3 = 0) then s.denyPeer f 3
    else if !bare && hdrBad f.kind f.hdr then s.denyPeer f 2
    else if !bare && !crcMatches f.addr f.hdr (payloadOf f.kind) then s.denyPeer f 8
    else if devOf f.addr ≠ s.own then
      (if hdrLeg f.hdr && !bare then s.reply f.dev false (hdrCore f.hdr).val f.addr 1 false 0 0 else s)
    else { s with nextId := s.nextId + 1 }.arrive (s.peerReq f) f.kind

def execAccessPerform (a : Arrival) (s : State) : Out :=
  match a with
  | .own id p => ok (s.performOwn id p)
  | .damaged id => ok (s.damagedOwn id)
  | .fabric f => ok (s.performFabric f)

/-- An entry store is performed at its home Broker (spec/08 R129). -/
def execResidencyEntryStore (id : Nat) (s : State) : Out :=
  match s.req id with
  | none => ok s
  | some r =>
    match r.op with
    | .acc (.store w d) =>
      let a := physOf r.sys
      if r.reg && r.phase = .sent && !s.heldBack r && resBase ≤ a && a < resBase + 0x8000 then ok (s.arrive r (.store w d))
      else ok s
    | _ => ok s

/-- An engine's access has waited FE_TIMEOUT at a home of this device, or FAB_RSP_TIMEOUT for another device: its next try ends. -/
def State.expireWait (s : State) (id : Nat) (own : Bool) : State :=
  { s with engWaits := s.engWaits.map fun w => if w.id = id && w.due ≤ s.now && (devOf w.sys == s.own) = own then { w with expired := true } else w }

/-- An access has waited FE_TIMEOUT at its home (spec/02 R32). -/
def execFeTimeout (id : Nat) (s : State) : Out :=
  match s.req id with
  | none => ok (s.expireWait id true)
  | some r =>
    match r.phase with
    | .waiting due => if s.now < due then ok s else ok (s.refuse r 6)
    | _ => ok s

/-- The system address of a message, which its answer repeats (log 107). -/
def sendSys (r : SendRec) : BitVec 50 := sysOf r.dev.val (winAddr r.dst.val .w 0)

/-- The core whose SEND to another device has the number of a message and no answer yet. -/
def State.sender (s : State) (id : Nat) : Option (CoreIx × SendRec) :=
  let open_ (r : SendRec) : Bool := r.id = id && r.answer.isNone && r.dev ≠ s.fab.devid && r.due ≤ s.now
  let find (k : Nat) (c : Core) : Option (CoreIx × SendRec) := (c.eng.sends.find? open_).map fun r => (toCore k, r)
  (s.cores.findSome? fun p => find p.1 p.2).or (s.saves.findSome? fun p => find (p.1 % 4096) p.2.core)

/-- A request, a SEND or an engine's access has had no response for FAB_RSP_TIMEOUT (spec/02 R33). -/
def execFabRspTimeout (id : Nat) (s : State) : Out :=
  match s.req id with
  | none =>
    match s.sender id with
    | none => ok (s.expireWait id false)
    | some (k, r) =>
      ok (((s.expect id).logViolation (dieOf k.val) 9 s.own (sendSys r) k.val 3).noteSend k id (2, 9))
  | some r =>
    if r.phase ≠ .sent || r.reg || r.loc || devOf r.sys = s.own || r.plane.isNone || s.now < r.due then ok s
    else
      let s := match r.plane with | some q => s.subOutstanding q | none => s
      ok ((s.expect id).refuse r 9)

/-! ## On the way back -/

/-- The Residency entry that a request may have changed. -/
def Req.entry (r : Req) : Option Nat :=
  match r.op with
  | .query _ e => some e.val
  | .acc _ => if r.reg && resBase ≤ physOf r.sys && physOf r.sys < resBase + 0x8000 then some ((physOf r.sys - resBase) / 32) else none
  | .tok _ => none

/-- The answer of a performed store or row reaches its core (spec/19 R309), or that of a query with its value; one that changed a Residency
entry only once every replica holds the change (spec/08 R129). -/
def execStoreAcknowledgement (id : Nat) (s : State) : Out :=
  match s.req id with
  | none => ok s
  | some r =>
    if r.phase = .answered 0 && (match r.entry with | some e => s.replicated e | none => true) then
      match r.flight, r.src with
      | some f, .core k h _ => ok ((s.dropReq id).give k h f r.ga)
      | _, _ => ok (s.dropReq id)
    else ok s

/-- Cause and TRAP_VAL of a request that failed. -/
def Req.failure (r : Req) : Option (BitVec 8 × Word) :=
  match r.phase with
  | .faulted => some (4, r.ga)
  | .answered st => if st = 0 then none else some (causeOf st, r.sys.setWidth 64)
  | _ => none

/-- The oldest failing response of a core reaches it: a response trap of the main context, or a handler fault (spec/07 R104,
R111, spec/17 R282). Its destination register keeps what it holds. -/
def execResponseTrap (k : CoreIx) (s : State) : Out :=
  match s.net.find? fun r => r.src.ownedBy k && r.failure.isSome with
  | none => ok s
  | some r =>
    let s := s.dropReq r.id
    match r.failure, r.src with
    | some (cause, val), .core k h pc =>
      let s := match r.flight with | some f => s.close k h f | none => s
      ok (s.respondTo k (if h then some pc else none) cause val)
    | some (cause, _), .row k pc _ => ok (s.modCore k (·.handlerFault cause pc))
    | _, _ => ok s

/-- The n-th result of a context lands its oldest value: it is older than a bundle that has issued, and no earlier result of
the same register is still in flight (spec/07 R94). -/
def landFlight (h : Bool) (c : Core) (n : Nat) : Core :=
  let l := c.flights h
  match l[n]? with
  | none => c
  | some fl =>
    if !fl.aged || (l.take n).any (fun q => q.dst = fl.dst) then c
    else
      match fl.vals with
      | [] => c
      | v :: r =>
        let c1 := if fl.dead then c else c.landWrite h fl.dst v
        if r.isEmpty && !fl.more then c1.setFlights h (l.eraseIdx n) else c1.setFlights h (l.set n { fl with vals := r })

def execResultLanding (k : CoreIx) (handler : Bool) (n : Nat) (s : State) : Out := ok (s.modCore k fun c => landFlight handler c n)

/-! ## Tokens at their home (R34, R35) -/

def State.setToken (s : State) (region : Nat) (t : TokEntry) : State :=
  { s with fab := { s.fab with tokens := put s.fab.tokens region t } }

def partyDev (own : Fin 1024) (p : TokParty) : Fin 1024 :=
  match p with
  | .core _ _ _ => own
  | .peer d => d

/-- The status of a token move goes to who asked. -/
def State.tokReply (s : State) (region : Nat) (p : TokParty) (st : Nat) : State :=
  match p with
  | .core k _ f =>
    let h := ((s.core k).hnd.flights.any fun x => x.id == f)
    s.give k h f (BitVec.ofNat 64 st)
  | .peer d => s.fabOut (.token d region (BitVec.ofNat 8 st))

/-- Requests that wait in a region are checked again. -/
def State.recheck (s : State) (region : Nat) : State :=
  s.examine ((s.net.filter fun r =>
    (match r.phase with | .waiting _ => true | _ => false) && devOf r.sys == s.own && physOf r.sys / 2 ^ 21 == region).map
      fun r => physOf r.sys / 8)

/-- A recall goes to the holder of a region; one that has no route or no key is refused at the source, and TOK_TIMEOUT decides (spec/02
R28, R29, R36). -/
def State.sendRecall (s : State) (region : Nat) (holder : Fin 1024) : State :=
  match s.route holder.val .ord true with
  | .ok _ => s.fabOut (.recall holder region)
  | .error st => s.logViolation 0 st s.own (sysOf s.own (region * 2 ^ 21)) 0 0

/-- The acquires at the head of a region's queue: granted at once while the home holds the token, else the holder is
recalled. At most n are granted. One whose device has become the holder by then is answered "already held" (log 106). -/
def State.tokGo (region : Nat) : Nat → State → State
  | 0, s => s
  | n + 1, s =>
    let t := s.token region
    match t.queue with
    | [] => s
    | p :: r =>
      if t.holder = partyDev s.fab.devid p then State.tokGo region n ((s.setToken region { t with queue := r }).tokReply region p 1)
      else if t.holder = s.fab.devid then
        State.tokGo region n ((s.setToken region { t with queue := r, holder := partyDev s.fab.devid p }).tokReply region p 0)
      else if t.moving then s
      else (s.setToken region { t with moving := true, recallDue := some (s.now + toTicks s.fab.tokTimeout) }).sendRecall region t.holder

/-- The recall of the head of the queue is answered, or given up: the head is granted. -/
def State.tokGrant (s : State) (region : Nat) (st : Nat) : State :=
  let t := s.token region
  match t.queue with
  | [] => s
  | p :: r =>
    let s := (s.setToken region { t with queue := r, holder := partyDev s.fab.devid p, moving := false, recallDue := none }).tokReply
      region p st
    (State.tokGo region (r.length + 1) s).recheck region

/-- A packet of the token protocol comes from a peer: one whose tag fails is discarded (spec/02 R36), and while DOMAIN_EN is 0 it is
refused with status 0x3 (R29). The state that it leaves where it is not taken, and where it is. -/
def State.tokPacket (s : State) (d : Fin 1024) (sys : BitVec 50) : Except State State :=
  match s.tagDrawn d.val with
  | (s, false) => .error s
  | (s, true) => if s.fab.domainEn then .ok s else .error ((s.logViolation 0 3 d.val sys 0 0).reply d (s.bare d.val) 0 sys 3 false 0 0)

/-- A token move as it comes to its home. -/
def State.tokDenied (s : State) (p : TokParty) (g : Nat) : Except State State :=
  match p with
  | .core _ _ _ => .ok s
  | .peer d => s.tokPacket d (sysOf s.own (g * 2 ^ 21))

/-- The request of a core's own token move, if it has arrived: it leaves the network. -/
def State.takeTok (s : State) (p : TokParty) (region : Nat) (release : Bool) : Option State :=
  match p with
  | .peer _ => some s
  | .core k _ f =>
    match s.net.find? fun r => r.flight = some f && r.src.coreOf = k && r.op = .tok release && r.phase = .sent && !r.reg
        && devOf r.sys == s.own && physOf r.sys / 2 ^ 21 == region with
    | some r => some (s.dropReq r.id)
    | none => none

def execTokenAcquire (region : BitVec 19) (p : TokParty) (s : State) : Out :=
  let g := region.toNat
  match s.tokDenied p g with
  | .error s' => ok s'
  | .ok s =>
  match s.takeTok p g false with
  | none => ok s
  | some s =>
    let t := s.token g
    if t.holder = partyDev s.fab.devid p then ok (s.tokReply g p 1)
    else if !t.checked then ok (s.tokReply g p 2)
    else ok ((State.tokGo g (t.queue.length + 2) (s.setToken g { t with queue := t.queue ++ [p] })).recheck g)

/-- A release; one that the holder makes while its recall is on the way lets the head of the queue have the token. -/
def execTokenRelease (region : BitVec 19) (p : TokParty) (s : State) : Out :=
  let g := region.toNat
  match s.tokDenied p g with
  | .error s' => ok s'
  | .ok s =>
  match s.takeTok p g true with
  | none => ok s
  | some s =>
    let t := s.token g
    if t.holder = partyDev s.fab.devid p then
      let s := (s.setToken g { t with holder := s.fab.devid }).tokReply g p 4
      ok (if t.moving then s.tokGrant g 0 else s.recheck g)
    else ok (s.tokReply g p 5)

/-- A recall reaches this device, the holder: it waits for its own accesses to the region, writes back and drops, and replies once what it
wrote back is answered (spec/02 R35, log 53). -/
def execTokenRecall (dev : Fin 1024) (region : BitVec 19) (s : State) : Out :=
  match s.tokPacket dev (sysOf dev.val (region.toNat * 2 ^ 21)) with
  | .error s' => ok s'
  | .ok s =>
    if s.inFlight dev.val region.toNat then ok s
    else
      let s := s.dropRegion dev.val region.toNat
      if s.inFlight dev.val region.toNat then ok s
      else ok ((s.yieldToken dev.val region.toNat).fabOut (.recallReply dev region.toNat))

/-- The reply to the recall that is under way: it is the holder's, and the reply of any other device changes nothing (log 110). -/
def execRecallReply (region : BitVec 19) (s : State) : Out :=
  let t := s.token region.toNat
  if t.moving && t.recallDue.isSome then
    match s.tagDrawn t.holder.val with
    | (s, false) => ok s
    | (s, true) => ok (s.tokGrant region.toNat 0)
  else ok s

/-- A recall unanswered for TOK_TIMEOUT: granted as revoked, and the region and the old holder are logged. The spec gives the entry no
status, core and source code: the model writes 5, 0 and 0 (DESIGN CHOICE, log 4). -/
def execTokTimeout (region : BitVec 19) (s : State) : Out :=
  let t := s.token region.toNat
  match t.recallDue with
  | none => ok s
  | some due =>
    if !t.moving || s.now < due then ok s
    else ok ((s.logViolation 0 5 t.holder.val (sysOf s.own (region.toNat * 2 ^ 21)) 0 0).tokGrant region.toNat 3)

/-- The header of a forwarded request: LEG is 1, and XCRC follows it, so that a mismatch stays one (log 59). -/
def legHeader (r : FabReq) : Word :=
  let low := bits r.hdr 0 32
  let low' := low ||| 2 ^ 10
  let p := payloadOf r.kind
  BitVec.ofNat 64 (low' + (bits r.hdr 32 32 ^^^ xcrc r.addr low p ^^^ xcrc r.addr low' p) * 2 ^ 32)

/-- An intermediate forwards the first leg of a .spr request; an unreachable final device is answered with status 0x1
(spec/02 R30). The second leg takes its plane as .adp does; its response does not come back here, so it is not counted among the requests
outstanding of the station. While DOMAIN_EN is 0 nothing is forwarded (R29). -/
def execSprForward (r : FabReq) (s : State) : Out :=
  if hdrLeg r.hdr || s.bareFrom r.dev.val r.hdr || devOf r.addr = s.own then ok s
  else if !s.fab.domainEn then ok (s.denyPeer r 3)
  else
    let p := s.peer (devOf r.addr)
    match p.valid, s.leastPlane p.planes with
    | true, some q => ok (s.fabOut (.forward { r with hdr := legHeader r } q))
    | _, _ => ok (s.reply r.dev false (hdrCore r.hdr).val r.addr 1 false 0 0)

end Sys2Proof.Machine
end

