-- ==== Sys2Proof/Machine/Matrix.lean ====
section
/-!
DEFINITION. The matrix unit (spec/17 R271 to R280, spec/12 R178, R179): which command may start, what it does when it
starts, its end, and the dispatch of a drain's rows to the handler context (spec/07 R103). A command's effect is one step at
its start (log 37).
-/

namespace Sys2Proof.Machine

/-! ## The queue -/

/-- The first command that has not started, with those before it. -/
def nextCmd : List MatEntry → List MatEntry → Option (List MatEntry × MatEntry)
  | _, [] => none
  | pre, e :: r => if e.started then nextCmd (pre ++ [e]) r else some (pre, e)

def isLoad (e : MatEntry) : Bool := match e.cmd with | .mload _ => true | _ => false

/-- Whether the next command may start: an MLOAD once every earlier command has started and every earlier MLOAD has ended,
another once every earlier command has ended; a gated one once it is released. -/
def mayStart (pre : List MatEntry) (e : MatEntry) : Bool :=
  !isGated e && (if isLoad e then !pre.any isLoad else pre.isEmpty)

def markStarted : List MatEntry → List MatEntry
  | [] => []
  | e :: r => if e.started then e :: markStarted r else { e with started := true } :: r

/-- A pending SETC of ARRAY_SHAPE takes effect at a command boundary (R278). -/
def MatState.boundary (m : MatState) : MatState := { m with bands := m.nextBands.getD m.bands, nextBands := none }

/-- Start the next command of a core if it is the one named, and do `f`; none starts once the core's stop is forced (spec/05 R73) or it is
frozen (R76). -/
def State.startCmd (s : State) (k : CoreIx) (cmd : MatCmd) (f : State → State) : Out :=
  let c := s.core k
  match nextCmd [] c.mat.mq with
  | none => ok s
  | some (pre, e) =>
    if e.cmd = cmd && mayStart pre e && c.slot.stop ≠ .forced && c.slot.st ≠ .frozen then
      let s := (s.setCore k { c with mat := { c.mat.boundary with mq := markStarted c.mat.mq } }).charge c.slot.ctx 2
        (Config.cost s.free)
      ok (f { s with free := s.free + 1 })
    else ok s

/-- Whether a command may end: it is in execution and no drain. -/
def MatEntry.mayEnd (e : MatEntry) : Bool := e.started && (match e.cmd with | .mdrain _ => false | _ => true)

/-- A command leaves the queue, with a Relay pulse of source 1. -/
def Core.endCommand (c : Core) (e : MatEntry) : Core :=
  { c with mat := { c.mat.boundary with mq := c.mat.mq.erase e } }.relayPulse 1 0

/-- A command in execution ends, and entries that waited for room go on. Of an MLOAD and the command it overlaps, either may end first
(log 109). -/
def execMatrixCommandEnd (k : CoreIx) (s : State) : Out :=
  let c := s.core k
  match c.mat.mq.filter MatEntry.mayEnd with
  | [] => ok s
  | [e] => ok ((s.setCore k (c.endCommand e)).seqDrain k)
  | e :: r =>
    let e := (e :: r).getD (Config.endPick s.free % (r.length + 1)) e
    ok (({ s with free := s.free + 1 }.setCore k (c.endCommand e)).seqDrain k)

/-! ## Planes, rows and columns (R274 to R278) -/

def MatState.swap (m : MatState) : MatState := { m with active := m.shadow, shadow := m.active }

/-- The matrix unit reads its operands: correctable errors are corrected, and an uncorrectable one is answered with 0x4 (spec/06 R89). -/
def State.unitRead (s : State) (k : CoreIx) (l : List (Nat × Nat)) : Except State State :=
  match l.find? fun x => s.badAt x.1 x.2 with
  | some x => .error (s.badEntry k none x.1)
  | none => .ok (l.foldl (fun s x => s.correct x.1 x.2) s)

/-- MLOAD; the shadow plane stays where an operand is uncorrectable (log 99). -/
def execMload (k : CoreIx) (c : MloadCmd) (s : State) : Out :=
  s.startCmd k (.mload c) fun s =>
    let col (i : Fin 16) : BitVec 1024 := BitVec.ofNat 1024 (s.load (winAddr k.val .w (c.boff.toNat + i.val * c.bstr.toNat)) 128)
    let scale (i : Fin 16) : BitVec 64 :=
      if c.scw then BitVec.ofNat 64 (s.load (winAddr k.val .w (c.soff.toNat + i.val * c.sstr.toNat)) 8) else 0x7F7F7F7F7F7F7F7F
    let at_ (n : Nat) : List (Nat × Nat) :=
      (winAddr k.val .w (c.boff.toNat + n * c.bstr.toNat), 128) ::
        (if c.scw then [(winAddr k.val .w (c.soff.toNat + n * c.sstr.toNat), 8)] else [])
    match s.unitRead k ((List.range 16).map at_).flatten with
    | .error s => s
    | .ok s => s.modCore k fun co => { co with mat := { co.mat with shadow := { cols := Vector.ofFn col, scales := Vector.ofFn scale } } }

def execMswap (k : CoreIx) (c : MswapCmd) (s : State) : Out :=
  s.startCmd k (.mswap c) fun s => s.modCore k fun co => { co with mat := co.mat.swap }

def execMzero (k : CoreIx) (c : MzeroCmd) (s : State) : Out :=
  s.startCmd k (.mzero c) fun s =>
    (List.range c.rows.toNat).foldl (fun s r => s.store (winAddr k.val .c (c.boff.toNat + r * c.bstr.toNat)) 64 0) s

def execMshape (k : CoreIx) (c : MshapeCmd) (s : State) : Out :=
  s.startCmd k (.mshape c) fun s => s.modCore k fun co => { co with mat := { co.mat with bands := c.bands } }

/-! ## MMA (R279, spec/12 R178, R179) -/

def b8Of (p : Fin 8) (finite : Bool) : Fmt := if p = 0 then .int8 else .b8 (Fin.ofNat 7 (p.val - 1)) false finite

/-- The formats of A and W of a pair (spec/14 R214). -/
def pairFmts : MmaPair → Fmt × Fmt
  | .mxf4 => (.mxf4, .mxf4)
  | .f16 a w => (if a then .fp16 else .bf16, if w then .fp16 else .bf16)
  | .sf a w => (b8Of a true, b8Of w true)
  | .si a w => (b8Of a false, b8Of w false)

def fmtVal (f : Fmt) (raw : Nat) : Val :=
  match fmtKind f with
  | .flt g => fpDecode g raw
  | .int n => valOfInt (sgn n raw)

/-- Element i of a row or a column. -/
def rowElem (f : Fmt) (row i : Nat) : Val := fmtVal f (row / 2 ^ (fmtBits f * i) % 2 ^ fmtBits f)

/-- The exact sum of the products of elements lo to lo + n − 1. -/
def dotVal (fa fw : Fmt) (a w lo : Nat) : Nat → Val
  | 0 => .fin false 0 0 false
  | n + 1 =>
    (addVal .rne (dotVal fa fw a w lo n) (mulVal (rowElem fa a (lo + n)) (rowElem fw w (lo + n))).1).1

/-- y_b of R178; a scale of 0xFF is NaN. -/
def blockOut (fa fw : Fmt) (a w b n sa sw : Nat) : Nat :=
  if sa = 255 || sw = 255 then fpNan
  else roundFp32 (scaleVal (dotVal fa fw a w (32 * b) n) ((sa : Int) - 127 + ((sw : Int) - 127)))

/-- acc over the blocks of K elements: y_0, then one rounded addition per later block. -/
def accOut (fa fw : Fmt) (a w k : Nat) (sa sw : Nat → Nat) : Nat → Nat
  | 0 => blockOut fa fw a w 0 (min 32 k) (sa 0) (sw 0)
  | b + 1 =>
    (fpAdd fp32 .rne false (accOut fa fw a w k sa sw b)
      (blockOut fa fw a w (b + 1) (min 32 (k - 32 * (b + 1))) (sa (b + 1)) (sw (b + 1)))).1

/-- The new C of R178. -/
def mmaOut (cOld cs acc : Nat) : Nat := (fpAdd fp32 .rne false cOld (fpMul fp32 .rne false cs acc).1).1

/-- One row of an MMA on operands that can be read. -/
def State.mmaRow (s : State) (k : CoreIx) (c : MmaCmd) (r : Nat) : State :=
  let m := (s.core k).mat
  let f := pairFmts c.pair
  let n := c.k.toNat
  let a := s.load (winAddr k.val .a (c.boff.toNat + r * c.bstr.toNat)) ((n * fmtBits f.1 + 7) / 8)
  let sa (b : Nat) : Nat := if c.sca then s.load (winAddr k.val .a (c.soff.toNat + r * c.sstr.toNat + b)) 1 else 127
  (List.finRange 16).foldl (fun s j =>
    if m.bands.getLsbD (j.val / 4) then
      let w := m.active.cols[j].toNat
      let sw (b : Nat) : Nat := m.active.scales[j].toNat / 2 ^ (8 * b) % 256
      let at_ := winAddr k.val .c (c.coff.toNat + 64 * r + 4 * j.val)
      s.store at_ 4 (mmaOut (s.load at_ 4) c.cscale.toNat (accOut f.1 f.2 a w n sa sw ((n + 31) / 32 - 1)))
    else s) s

/-- What a row of an MMA reads: its A row and its scales, and its C row. -/
def rowReads (k : CoreIx) (c : MmaCmd) (r : Nat) : List (Nat × Nat) :=
  let n := c.k.toNat
  [(winAddr k.val .a (c.boff.toNat + r * c.bstr.toNat), (n * fmtBits (pairFmts c.pair).1 + 7) / 8), (winAddr k.val .c (c.coff.toNat + 64 * r), 64)]
    ++ (if c.sca then [(winAddr k.val .a (c.soff.toNat + r * c.sstr.toNat), (n + 31) / 32)] else [])

/-- One row of an MMA; its C row stays where an operand is uncorrectable (log 99). -/
def State.mmaStep (s : State) (k : CoreIx) (c : MmaCmd) (r : Nat) : State :=
  match s.unitRead k (rowReads k c r) with
  | .error s => s
  | .ok s => s.mmaRow k c r

def execMma (k : CoreIx) (c : MmaCmd) (s : State) : Out :=
  s.startCmd k (.mma c) fun s =>
    let s := if c.swap then s.modCore k fun co => { co with mat := co.mat.swap } else s
    (List.range c.rows.toNat).foldl (fun s r => s.mmaStep k c r) s

/-! ## MDRAIN (R280, spec/07 R103) -/

/-- MDRAIN starts; its rows are dispatched one by one. A drain of no rows ends at once. -/
def execMdrain (k : CoreIx) (c : MdrainCmd) (s : State) : Out :=
  s.startCmd k (.mdrain c) fun s => if c.rows = 0 then s.modCore k (·.endDrain) else s

/-- HENTRY of the launch header, as a byte offset. -/
def State.hentry (s : State) (k : CoreIx) : Pc :=
  match s.launchOf k with
  | some l => BitVec.ofNat 17 (8 * bits (l.hdr.getD 3 0) 0 16)
  | none => 0

def Row.of (c : MdrainCmd) (stamp r : Nat) : Row :=
  { stamp := stamp, dest := c.dest + BitVec.ofInt 64 (r * c.dstr.toInt), cls := c.cls, last := r + 1 = c.rows.toNat }

/-- The handler context as a row starts it. -/
def HandlerCtx.start (h : HandlerCtx) (v : Vec) (r tag : Nat) (pc : Pc) (priv : Bool) (row : Row) : HandlerCtx :=
  { h with v := h.v.set 0 v, x := (h.x.set 1 (BitVec.ofNat 64 r)).set 2 (BitVec.ofNat 64 tag), pc := pc, npc := pc,
           marker := false, priv := priv, row := some row }

/-- The drain in execution dispatches its next row once the handler context holds none; v0 stays where the row is uncorrectable (log 99). -/
def execDrainRowDispatch (k : CoreIx) (s : State) : Out :=
  let c := s.core k
  match c.mat.mq with
  | [] => ok s
  | e :: rest =>
    match e.cmd with
    | .mdrain d =>
      if e.started && c.hnd.row.isNone && e.rows < d.rows.toNat && c.slot.stop ≠ .forced && c.slot.st ≠ .frozen then
        let at_ := winAddr k.val .c (d.boff.toNat + e.rows * d.bstr.toNat)
        let (s, v) : State × Vec := match s.unitRead k [(at_, 64)] with
          | .error s => (s, c.hnd.v[0])
          | .ok s => (s, BitVec.ofNat 512 (s.load at_ 64))
        let c := s.core k
        let h := c.hnd.start v e.rows d.tag.toNat (s.hentry k) c.priv (Row.of d e.stamp e.rows)
        ok (s.setCore k { c with hnd := h, evt := { c.evt with fenceH := none }, mat := { c.mat with mq := { e with rows := e.rows + 1 } :: rest } })
      else ok s
    | _ => ok s

end Sys2Proof.Machine
end

