-- ==== Sys2Proof/Machine/CoreEvents.lean ====
section
/-!
DEFINITION. Events of a core beside its bundles: interrupts, the timer, the watchdog (spec/07 R110, R113) and the safe-point
timeout (spec/05 R73).
-/

namespace Sys2Proof.Machine

/-- A maskable interrupt is taken at a boundary of the main context, when no event of a higher order is due (R113). -/
def execInterruptTaken (k : CoreIx) (s : State) : Out :=
  match s.boundary k with
  | some (.int cause) =>
    let c := s.core k
    if c.calm && (c.slot.st = .running || c.slot.st = .stopping) && c.slot.stop = .no && c.slot.fatal.isNone then
      ok (s.takeEvent k (.int cause))
    else ok s
  | _ => ok s

/-- TIME of a core reaches TIMER_CMP: the clock stands at that tick; INT_PEND.TIMER reads set from then on. -/
def execTimerCompare (k : CoreIx) (s : State) : Out :=
  let c := s.core k
  let wait := c.ctl.timerCmp.toNat - (s.time c).toNat
  ok { s with now := s.now + wait }

/-- A core has issued no bundle for WDOG.USEC: 0x0F is due (R110). -/
def execWatchdogExpiry (k : CoreIx) (s : State) : Out :=
  let c := s.core k
  let limit := bits c.ctl.wdog 0 32 * Config.ticksPerUs
  match c.evt.holdSince with
  | none => ok s
  | some t =>
    if limit = 0 || s.now < t + limit then ok s else ok (s.setCore k { c with evt := { c.evt with wdogHit := true, wdogIn := c.intrap } })

/-- A requested core has not stopped for SAFE_TIMEOUT: it stops at the next boundary, and its save is forced (spec/05 R73). -/
def execSafeTimeout (k : CoreIx) (s : State) : Out :=
  let c := s.core k
  match c.slot.preq with
  | none => ok s
  | some t =>
    if c.slot.st ≠ .stopping || c.slot.stop ≠ .no || s.now < t + toTicks s.dev.safeTimeout then ok s
    else ok (s.setCore k { c.closeCapture with slot := { c.slot with stop := .forced } })

end Sys2Proof.Machine
end

