-- ==== Sys2Proof/Machine/Control.lean ====
section
/-!
DEFINITION. Branches and jumps (spec/15 R224 to R226).
-/

namespace Sys2Proof.Machine

/-- (PC + 8·sext(off)) mod 131,072. -/
def State.target (s : State) {n : Nat} (off : BitVec n) : Pc := s.curPc + (off.signExtend 64 * 8).setWidth 17

/-- A branch: where the condition holds the next bundle is the target. -/
def State.branch (s : State) (c : Bool) (off : BitVec 14) : Out := ok (if c then s.setNpc (s.target off) else s)

/-! ## R224 -/

def execBeq (a b : XReg) (off : BitVec 14) (s : State) : Out := s.branch (s.rx a == s.rx b) off
def execBne (a b : XReg) (off : BitVec 14) (s : State) : Out := s.branch (s.rx a != s.rx b) off
def execBlt (a b : XReg) (off : BitVec 14) (s : State) : Out := s.branch ((s.rx a).slt (s.rx b)) off
def execBge (a b : XReg) (off : BitVec 14) (s : State) : Out := s.branch (!(s.rx a).slt (s.rx b)) off
def execBltu (a b : XReg) (off : BitVec 14) (s : State) : Out := s.branch ((s.rx a).ult (s.rx b)) off
def execBgeu (a b : XReg) (off : BitVec 14) (s : State) : Out := s.branch (!(s.rx a).ult (s.rx b)) off

/-! ## R225 -/

/-- The link: (PC + 8) mod 131,072. -/
def State.link (s : State) : Word := (s.curPc + 8).setWidth 64

def execJal (d : XReg) (off : BitVec 19) (s : State) : Out := (s.setNpc (s.target off)).putX d s.link

def execJalr (d a : XReg) (imm : BitVec 14) (s : State) : Out :=
  let t : Pc := (s.rx a).setWidth 17 + (imm.signExtend 64 * 8).setWidth 17
  if t.toNat % 8 ≠ 0 then ok (s.trap 1 (t.setWidth 64)) else (s.setNpc t).putX d s.link

/-! ## R226 -/

/-- BMASK waits until no earlier entry still writes the mask (spec/07 R98). -/
def State.maskBranch (s : State) (m : MReg) (c : Word → Bool) (off : BitVec 14) : Out :=
  if s.cc.maskPending m then ok s.hold else s.branch (c (s.cc.mask m)) off

def execBmaskAny (m : MReg) (off : BitVec 14) (s : State) : Out := s.maskBranch m (· != 0) off
def execBmaskNone (m : MReg) (off : BitVec 14) (s : State) : Out := s.maskBranch m (· == 0) off
def execBmaskAll (m : MReg) (off : BitVec 14) (s : State) : Out := s.maskBranch m (· == -1) off

end Sys2Proof.Machine
end

