-- ==== Sys2Proof/Machine/Save.lean ====
section
/-!
DEFINITION. The context record (spec/05 R74, R75, spec/11 R168, spec/14 R211): what a save writes, where, and what a resume
restores.
-/

namespace Sys2Proof.Machine

/-! ## Images -/

/-- The listed bytes of [src, src + n) as they lie from dst on. -/
def shiftCells (l : List Host.Cell) (src dst n : Nat) : List Host.Cell :=
  (l.filter fun c => src ≤ c.1 && c.1 < src + n).map fun c => (c.1 - src + dst, c.2)

def State.copyImage (s : State) (src dst n : Nat) : State :=
  { s with mem := memReplace s.mem dst n (shiftCells s.mem src dst n) }

/-- Byte j of the full-empty bits from a word on: bit i is 1 where word 8·j + i is full (log 39). -/
def State.feByte (s : State) (w j : Nat) : Byte :=
  BitVec.ofNat 8 (gather 1 (fun i => if s.empties.contains (w + 8 * j + i) then 0 else 1) 8)

/-- The full-empty bits of n · 8 words from word w on, as bytes from dst on. -/
def State.feImage (s : State) (w dst n : Nat) : State :=
  { s with mem := memReplace s.mem dst n ((List.range n).filterMap fun j =>
      if s.feByte w j = 0 then none else some (dst + j, s.feByte w j)) }

/-- Words from w on become empty where their bit of the bytes from src on is 0. -/
def State.feRestore (s : State) (src w n : Nat) : State :=
  let new := (List.range (8 * n)).filterMap fun i =>
    if (memGet s.mem (src + i / 8)).getLsbD (i % 8) then none else some (w + i)
  { s with empties := s.empties.filter (· < w) ++ new ++ s.empties.filter (w + 8 * n ≤ ·) }

/-- Zero bytes and full bits in a core's window (spec/05 R65). -/
def State.clearWindow (s : State) (k : CoreIx) : State :=
  let a := k.val * 2 ^ 20
  { s.clearImage a (2 ^ 20) with empties := s.empties.filter fun w => w < a / 8 || a / 8 + 2 ^ 17 ≤ w }

/-! ## The .safemap entry (R74) -/

/-- Everything, as a forced save and the save of a halted core take it. -/
def SaveMap.all : SaveMap :=
  { x := 0xFFFFFFFF, v := 0xFFFFFFFF, f := 0xFFFF, m := 0xFF, nq := true, strm := true, planes := true, hnd := true,
    ranges := [(.w, 0, 0x80000), (.a, 0, 0x40000), (.c, 0, 0x20000), (.l, 0, 0x20000)] }

/-- A range word: buffer, offset, length; none where it breaks a rule. -/
def rangeOf (w : Word) : Option (Buf × Nat × Nat) :=
  let b := bufOfCode (bits w 62 2)
  let off := bits w 32 20
  let len := bits w 0 20
  if bits w 52 10 == 0 && bits w 20 12 == 0 && off % 64 == 0 && len % 64 == 0 && off + len ≤ b.size then some (b, off, len)
  else none

/-- The ranges of the first n words of a list. -/
def rangesOf : Nat → List Word → Option (List (Buf × Nat × Nat))
  | 0, _ => some []
  | _ + 1, [] => none
  | n + 1, w :: r =>
    match rangeOf w, rangesOf n r with
    | some x, some l => some (x :: l)
    | _, _ => none

/-- An entry of eight words; none where it turns the save into a forced one. -/
def mapOf (ws : List Word) : Option SaveMap :=
  let w0 := ws.getD 0 0
  let w1 := ws.getD 1 0
  let n := bits w1 36 4
  if bits w1 4 32 ≠ 0 || 6 < n || (ws.drop 2).any (fun w => bits w 52 10 ≠ 0 || bits w 20 12 ≠ 0) then none
  else
    (rangesOf n (ws.drop 2)).map fun l =>
      { x := BitVec.ofNat 32 (bits w0 32 32), v := BitVec.ofNat 32 (bits w0 0 32), f := BitVec.ofNat 16 (bits w1 48 16),
        m := BitVec.ofNat 8 (bits w1 40 8), nq := bit w1 3, strm := bit w1 2, planes := bit w1 1, hnd := bit w1 0, ranges := l }

/-- The scheduler hart's accesses for a context: engine accesses under spec/08 R121. Its code in the violation log is 4, the
host whose packet it serves (log 35). -/
def hartAcc (ctx : BitVec 12) (core : Nat) : Acc :=
  { ctx := ctx, cl := none, core := core, src := 4, row := .host, cls := .ord, eng := true }

/-- A virtual address of 48 bits in a launch's tables; any other address does not translate. -/
def vaOk (ga : Word) : Bool := bits ga 48 16 == 0

/-- The map with which a core is saved and the KIND that it makes: 1 safe, 2 forced, 3 halted; the state in which it waits while a token
moves under the map. -/
def State.saveMap (s : State) (k : CoreIx) : Except State (State × SaveMap × Nat × Nat) :=
  let c := s.core k
  match c.slot.stop with
  | .safe ix =>
    let va := match s.launchOf k with
      | some l => BitVec.ofNat 64 (bits (l.hdr.getD 5 0) 0 48 + 64 * ix.toNat)
      | none => 0
    match State.engReadWords (hartAcc c.slot.ctx k.val) 8 s va with
    | (s, .error .wait) => .error s
    | (s, .error _) => .ok (s, SaveMap.all, 2, ix.toNat)
    | (s, .ok ws) =>
      match mapOf ws with
      | some m => .ok (s, m, 1, ix.toNat)
      | none => .ok (s, SaveMap.all, 2, ix.toNat)
  | .forced => .ok (s, SaveMap.all, 2, 0)
  | .no => .ok (s, SaveMap.all, 3, 0)

/-! ## Writing the record (R75) -/

/-- n doublewords of an area without a layout: free values (log 36). -/
def State.storeFree (s : State) (a : Nat) : Nat → State
  | 0 => s
  | n + 1 => State.storeFree { s.store a 8 (Config.savedWord s.free).toNat with free := s.free + 1 } (a + 8) n

/-- Values of `bytes` bytes each, one after the other, where the map names them. -/
def State.storeLive (s : State) (a n : Nat) (live : Nat → Bool) : List Nat → State
  | [] => s
  | v :: r => State.storeLive (if live 0 then s.store a n v else s) (a + n) n (fun i => live (i + 1)) r

/-- The words 0x00 to 0x1B of the control registers. -/
def State.ctlWords (s : State) (k : CoreIx) : List Word :=
  (List.range 28).map fun n =>
    match cregOf n with
    | .ok r => ({ s with cur := k }).readCtl (s.core k) r
    | .error _ => 0

/-- The error queue as sixteen indices and a count (spec/07 R113). -/
def errImage (q : List (DieIx × Nat)) : Nat :=
  (List.range 16).foldl (fun n i => n + (match q[i]? with | some (d, x) => (64 * d.val + x) * 2 ^ (16 * i) | none => 0))
    (q.length * 2 ^ 256)

def State.writeHeader (s : State) (k : CoreIx) (r kind ix : Nat) : State :=
  let c := s.core k
  s.storeWords r
    [BitVec.ofNat 64 (kind * 2 ^ 62 + (if c.priv then 2 ^ 61 else 0) + (if c.exch.group.isSome then 2 ^ 60 else 0) + ix * 2 ^ 32),
     c.main.pc.setWidth 64, BitVec.ofNat 64 (c.evt.inbox.length * 2 ^ 32 + k.val), 0, 0, 0, 0, 0]

def State.writeRegs (s : State) (k : CoreIx) (r : Nat) (m : SaveMap) : State :=
  let c := s.core k
  let s := s.storeLive (r + 0x40) 8 (m.x.getLsbD ·) (c.main.x.toList.map (·.toNat))
  let s := s.storeLive (r + 0x140) 4 (m.f.getLsbD ·) (c.main.f.toList.map (·.toNat))
  let s := s.storeLive (r + 0x180) 8 (m.m.getLsbD ·) (c.main.m.toList.map (·.toNat))
  let s := (s.clearImage (r + 0x200) 512).storeWords (r + 0x200) (s.ctlWords k)
  let s := s.storeLive (r + 0x400) 64 (m.v.getLsbD ·) (c.main.v.toList.map (·.toNat))
  if m.hnd then
    let s := s.storeFree (r + 0xC00) 8
    let s := s.storeWords (r + 0xC40) c.hnd.x.toList
    s.storeLive (r + 0xCC0) 64 (fun _ => true) (c.hnd.v.toList.map (·.toNat))
  else s

def State.writePlanes (s : State) (r : Nat) (c : Core) : State :=
  let p (s : State) (a b : Nat) (x : Plane) : State :=
    (s.storeLive a 128 (fun _ => true) (x.cols.toList.map (·.toNat))).storeLive b 8 (fun _ => true)
      (x.scales.toList.map (·.toNat))
  p (p s (r + 0x1400) (r + 0x2E00) c.mat.active) (r + 0x1C00) (r + 0x2E80) c.mat.shadow

/-- The queue and its progress, which a forced save writes. -/
def State.writeQueue (s : State) (r : Nat) (c : Core) : State :=
  let s := (s.clearImage (r + 0x1000) 512).storeLive (r + 0x1000) 64 (fun _ => true) (c.mat.mq.map fun e => encodeMat e.cmd)
  s.storeFree (r + 0x1200) 64

def State.writeRelay (s : State) (r : Nat) (c : Core) : State :=
  let s := (s.clearImage (r + 0x2500) 256).storeWords (r + 0x2500) (c.eng.relayCnt.toList ++ c.eng.relayTerm.toList)
  s.store (r + 0x2580) 34 (errImage c.evt.errQ)

def State.writeNq (s : State) (r : Nat) (c : Core) : State :=
  (List.finRange 4).foldl (fun s q =>
    let a := r + 0x2600 + 512 * q.val
    (s.clearImage a 512).storeLive a 64 (fun _ => true) (c.seq.nq[q].map (·.toNat))) s

/-- The experts of a context: an entry of the Residency Table that nothing has written is context 0's. -/
def State.experts (s : State) (ctx : BitVec 12) : List Nat := (List.range 1024).filter fun e => (s.res e).ctx == ctx

/-- The partitions of a launch and the prices and capacities of its context's experts (spec/11 R168). -/
def State.writeMarket (s : State) (r : Nat) (lid : BitVec 16) (ctx : BitVec 12) : State :=
  let s := s.clearImage (r + 0x5000) 0x4000
  let s := (List.range 16).foldl (fun s p =>
    match (s.part p).owner with
    | some (l, _) => if l == lid then s.storeWords (r + 0x5000 + 32 * p) [(s.part p).cfg, (s.part p).eps, (s.part p).step, (s.part p).bids] else s
    | none => s) s
  (s.experts ctx).foldl (fun s e => (s.store (r + 0x5200 + 4 * e) 4 (s.price e).toNat).store (r + 0x6200 + 4 * e) 4 (s.cap e)) s

/-- Bytes and full-empty bits of the listed ranges. -/
def State.writeRanges (s : State) (k : CoreIx) (r : Nat) (l : List (Buf × Nat × Nat)) : State :=
  l.foldl (fun s x =>
    let o := winOff x.1 + x.2.1
    (s.copyImage (k.val * 2 ^ 20 + o) (r + 0x10000 + o) x.2.2).feImage ((k.val * 2 ^ 20 + o) / 8) (r + 0x110000 + o / 64)
      (x.2.2 / 64)) s

/-- The record of a core: every area for a forced save, what the map lists for a safe one. -/
def State.writeRecord (s : State) (k : CoreIx) (r kind ix : Nat) (m : SaveMap) : State :=
  let c := s.core k
  let s := (s.writeHeader k r kind ix).writeRegs k r m
  let s := if kind = 1 then s else (s.writeQueue r c).clearImage (r + 0x2F00) 256
  let s := if m.planes then s.writePlanes r c else s
  let s := if m.strm then s.storeFree (r + 0x2400) 32 else s
  let s := s.writeRelay r c
  let s := if m.nq then s.writeNq r c else s
  let s := (s.storeFree (r + 0x3000) 256).writeInbox r c.evt.inbox
  let s := if c.slot.lrank = 0 then s.writeMarket r c.slot.lid c.slot.ctx else s
  s.writeRanges k r m.ranges

/-! ## Errors under a record (spec/06 R89) -/

/-- Bytes of a context record. -/
def recordLen : Nat := 0x114000

/-- The dispatch hardware meets [a, a + n) for a core: correctable errors are corrected, every uncorrectable one has its entry in the violation
log (log 99). -/
def State.sweep (s : State) (k : CoreIx) (a n : Nat) : State :=
  (s.bad.filter (eccMeets a n)).foldl (fun s u =>
    s.logViolation (s.logDie 4 (sysOf s.own u) (dieOf k.val)) 4 s.own (sysOf s.own u) k.val 4) (s.correct a n)

/-- What a save meets: the listed ranges of the buffers, and the place of the record. -/
def State.sweepSave (s : State) (k : CoreIx) (r : Nat) (l : List (Buf × Nat × Nat)) : State :=
  (l.foldl (fun s x => s.sweep k (k.val * 2 ^ 20 + winOff x.1 + x.2.1) x.2.2) s).sweep k r recordLen

/-- An uncorrectable word of a listed range is a free value in the record. -/
def State.freeBad (s : State) (k : CoreIx) (r : Nat) (l : List (Buf × Nat × Nat)) : State :=
  l.foldl (fun s x =>
    (s.bad.filter (eccMeets (k.val * 2 ^ 20 + winOff x.1 + x.2.1) x.2.2)).foldl (fun s u =>
      s.storeFree (r + 0x10000 + (u - k.val * 2 ^ 20)) 1) s) s

/-- The energy and the engine time of a save or a restore are charged to its context, and the bytes of its record: the counters of the Copy
Engine, of the stacks and of energy (R75; log 23). -/
def State.chargeRecord (s : State) (ctx : BitVec 12) (write : Bool) : State :=
  ((s.chargeFree ctx 5).chargeFree ctx (if write then 11 else 10)).chargeFree ctx 15

/-! ## The core between save and resume -/

/-- Transfers stop at their chunk boundaries and start from their cursors again. -/
def Xfer.atCursor (x : Xfer) : Xfer :=
  if x.state = .running then
    { x with base := x.cursor / 4096, started := 0, landed := [], lost := [], failed := none }
  else x

/-- An IDLE core: its bind record as written, what its slot last answered, its predictors and its fetch duty stay (spec/05 R68). -/
def Core.toIdle (c : Core) : Core :=
  { Core.reset with
    slot := { Slot.reset with rec0 := c.slot.rec0, rec1 := c.slot.rec1, act := c.slot.act, seq := c.slot.seq, aseq := c.slot.aseq, err := c.slot.err, skind := c.slot.skind }
    ctl := { CtlRegs.reset with fduty := c.ctl.fduty }
    pwr := c.pwr }

/-! ## Restoring (R74, R211) -/

/-- The value of n bytes of a record at an offset, where it was saved. -/
def State.recVal (s : State) (r off n : Nat) (saved : Bool) : Nat := if saved then s.load (r + off) n else 0

/-- Control registers as a resume restores them, reserved bits at zero (spec/00 R4); the others come from the state they show. -/
def CtlRegs.restore (c : CtlRegs) (rd : Nat → Word) (now : Nat) : CtlRegs :=
  { c with
    coreStatus := rd 0 &&& 0x3D
    trapCause := rd 1 &&& 0x80000000000000FF
    trapPc := rd 2
    trapVal := rd 3
    trapScratch := rd 4
    tvec := rd 5 &&& 0x800000000001FFF8
    intEn := rd 6 &&& 0xF
    timeOff := BitVec.ofNat 64 now - rd 8
    timerCmp := rd 9
    qtimeout := rd 0x0A &&& 0xFFFFFFFF
    wdog := rd 0x0B &&& 0xFFFFFFFF
    fpctl := rd 0x0C &&& 0x73F
    vlen := rd 0x0E &&& 0x7F
    mqAddr := rd 0x10 &&& 0x800000000001FFC0 }

def State.readPlane (s : State) (a b : Nat) : Plane :=
  { cols := Vector.ofFn fun i => BitVec.ofNat 1024 (s.load (a + 128 * i.val) 128),
    scales := Vector.ofFn fun i => BitVec.ofNat 64 (s.load (b + 8 * i.val) 8) }

/-- Planes that were not saved hold zeros. -/
def Plane.zero : Plane := { cols := Vector.replicate 16 0, scales := Vector.replicate 16 0 }

/-- A message from its two doublewords. -/
def msgOf (h p : Word) : Msg :=
  { kind := BitVec.ofNat 8 (bits h 0 8), status := BitVec.ofNat 8 (bits h 8 8), source := BitVec.ofNat 16 (bits h 16 16),
    xid := BitVec.ofNat 16 (bits h 32 16), payload := p }

def State.readInbox (s : State) (r : Nat) : List Msg :=
  (List.range (min (s.load (r + 20) 4) 256)).map fun i =>
    msgOf (BitVec.ofNat 64 (s.load (r + 0x4000 + 16 * i) 8)) (BitVec.ofNat 64 (s.load (r + 0x4008 + 16 * i) 8))

def State.restoreMain (s : State) (r : Nat) (m : SaveMap) (old : MainCtx) : MainCtx :=
  let pc := pcOf (BitVec.ofNat 64 (s.load (r + 8) 8))
  { old with
    x := Vector.ofFn fun i => BitVec.ofNat 64 (s.recVal r (0x40 + 8 * i.val) 8 (m.x.getLsbD i.val))
    f := Vector.ofFn fun i => BitVec.ofNat 32 (s.recVal r (0x140 + 4 * i.val) 4 (m.f.getLsbD i.val))
    m := Vector.ofFn fun i => BitVec.ofNat 64 (s.recVal r (0x180 + 8 * i.val) 8 (m.m.getLsbD i.val))
    v := Vector.ofFn fun i => BitVec.ofNat 512 (s.recVal r (0x400 + 64 * i.val) 64 (m.v.getLsbD i.val))
    pc := pc
    npc := pc
    marker := false
    flights := [] }

def State.restoreHnd (s : State) (r : Nat) (m : SaveMap) (old : HandlerCtx) : HandlerCtx :=
  if m.hnd then
    { old with
      x := Vector.ofFn fun i => BitVec.ofNat 64 (s.load (r + 0xC40 + 8 * i.val) 8)
      v := Vector.ofFn fun i => BitVec.ofNat 512 (s.load (r + 0xCC0 + 64 * i.val) 64) }
  else { old with x := Vector.replicate 16 0, v := Vector.replicate 8 0 }

def State.restoreSeq (s : State) (r : Nat) (m : SaveMap) (old : SeqState) : SeqState :=
  { old with
    ports := if m.strm then old.ports else Vector.replicate 4 Port.reset
    nq := if m.nq then
        Vector.ofFn fun q => (List.range (old.nq[q]).length).map fun i =>
          BitVec.ofNat 512 (s.load (r + 0x2600 + 512 * q.val + 64 * i) 64)
      else Vector.replicate 4 [] }

def State.restoreMat (s : State) (r : Nat) (m : SaveMap) (shape : Word) (old : MatState) : MatState :=
  { old with
    active := if m.planes then s.readPlane (r + 0x1400) (r + 0x2E00) else Plane.zero
    shadow := if m.planes then s.readPlane (r + 0x1C00) (r + 0x2E80) else Plane.zero
    bands := shape.setWidth 4
    nextBands := none }

def State.restoreErrQ (s : State) (r : Nat) : List (DieIx × Nat) :=
  (List.range (min (s.load (r + 0x25A0) 2) 16)).map fun i =>
    let x := s.load (r + 0x2580 + 2 * i) 2
    (toDie (x / 64), x % 64)

/-- XPH_STAT as restored, over the exchange the core stopped in; a core parked in SYNC or XEND executes that bundle again. -/
def Exchange.restore (e : Exchange) (w : Word) : Exchange :=
  { e with
    parked := .none
    back := false
    remain := BitVec.ofNat 32 (bits w 0 32)
    xcol := bit w 32
    ovr := bit w 33
    ncol := BitVec.ofNat 16 (bits w 48 16) }

/-- The core as a resume makes it, over what was kept; messages that came while it was LOADING are placed
after those of the record. -/
def State.restoreCore (s : State) (sv : SavedCore) (r : Nat) (cur : Core) : Core :=
  let rd (n : Nat) : Word := BitVec.ofNat 64 (s.load (r + 0x200 + 8 * n) 8)
  let c := sv.core
  { main := s.restoreMain r sv.map c.main
    hnd := s.restoreHnd r sv.map c.hnd
    ctl := cur.ctl.restore rd s.now
    seq := s.restoreSeq r sv.map c.seq
    exch := c.exch.restore (rd 0x0D)
    evt := { c.evt with
      inbox := s.readInbox r
      held := sv.held ++ cur.evt.inbox.map (fun m => { msgs := [m], act := .keep }) ++ cur.evt.held
      errQ := s.restoreErrQ r
      holdSince := none
      parkedAt := none
      fenceAt := none
      fenceH := none }
    eng := { c.eng with
      relayCnt := Vector.ofFn fun i => BitVec.ofNat 64 (s.load (r + 0x2500 + 8 * i.val) 8) &&& 0xFFFFF000FFFFFFFF
      relayTerm := Vector.ofFn fun i => BitVec.ofNat 64 (s.load (r + 0x2540 + 8 * i.val) 8) &&& 0xFFFFF8000000FFFF }
    mat := s.restoreMat r sv.map (rd 0x0F) c.mat
    slot := cur.slot
    pwr := cur.pwr }

/-- A restored market: the words of the partitions of a launch and the prices and capacities of its context's experts, reserved bits at zero
(spec/00 R4). -/
def State.restoreMarket (s : State) (r : Nat) (lid : BitVec 16) (ctx : BitVec 12) : State :=
  let s := (List.range 16).foldl (fun s p =>
    let a := r + 0x5000 + 32 * p
    let rd (n : Nat) : Word := BitVec.ofNat 64 (s.load n 8)
    match (s.part p).owner with
    | some (l, _) =>
      if l == lid then
        s.setPart p { s.part p with
                        cfg := rd a &&& 0xFFFFFFFFE0000000, eps := rd (a + 8) &&& 0xFFFFFFFF, step := rd (a + 16) &&& 0xFFFFFFFF,
                        bids := rd (a + 24) }
      else s
    | none => s) s
  (s.experts ctx).foldl (fun s e =>
    { s with prices := put s.prices e (BitVec.ofNat 32 (s.load (r + 0x5200 + 4 * e) 4)),
             caps := put s.caps e (s.load (r + 0x6200 + 4 * e) 4 % 2 ^ 17) }) s

def State.restoreRanges (s : State) (k : CoreIx) (r : Nat) (l : List (Buf × Nat × Nat)) : State :=
  l.foldl (fun s x =>
    let o := winOff x.1 + x.2.1
    (s.copyImage (r + 0x10000 + o) (k.val * 2 ^ 20 + o) x.2.2).feRestore (r + 0x110000 + o / 64) ((k.val * 2 ^ 20 + o) / 8)
      (x.2.2 / 64)) s

end Sys2Proof.Machine
end

