-- ==== Sys2Proof/Machine/Slots.lean ====
section
/-!
DEFINITION. The slots (spec/05 R67 to R69, R73 to R76): examining a bind record, the actions, the end of LOADING, the context
save, and what a release ends at the engines.
-/

namespace Sys2Proof.Machine

/-! ## Records and refusals (R68, R69) -/

def Core.withSlot (c : Core) (f : Slot → Slot) : Core := { c with slot := f c.slot }

/-- The cores of a cluster. -/
def clusterCores (k : CoreIx) : List CoreIx :=
  let x := coreX k.val / 4 * 4
  let y := coreY k.val / 4 * 4
  (List.range 16).map fun i => toCore ((y + i / 4) * 64 + x + i % 4)

/-- Whether another core of the cluster is bound to a launch other than `lid`. -/
def State.clusterTaken (s : State) (i : CoreIx) (lid : BitVec 16) : Bool :=
  (clusterCores i).any fun j => j ≠ i && (s.core j).slot.st ≠ .idle && (s.core j).slot.lid ≠ lid

/-- The states in which an action is accepted. -/
def accepts (act : Nat) (st : SlotSt) : Bool :=
  match act with
  | 0 => true
  | 1 => st = .idle
  | 2 => st = .idle
  | 3 => st = .running || st = .halted
  | 4 => st ≠ .idle
  | 5 => st = .running || st = .stopping || st = .halted
  | _ => false

/-- Whether the context record at a place is one of core i. -/
def State.recordOf (s : State) (i : CoreIx) (crec : Nat) : Bool :=
  s.load crec 8 / 2 ^ 62 ≠ 0 && s.load (crec + 16) 8 % 4096 == i.val

/-- Word 0 of a bind record as written. -/
def bindWord (act : Nat) (r : BindRec) : Word :=
  BitVec.ofNat 64 (act % 16 * 2 ^ 60 + r.prio.toNat * 2 ^ 57 + r.ctx.toNat * 2 ^ 40 + r.lid.toNat * 2 ^ 24 + r.lrank.toNat * 2 ^ 12
    + r.seq.toNat * 2 ^ 4)

/-- The slot holds the record as it was written (R68), with the answer to it. -/
def Slot.answer (t : Slot) (act : Nat) (r : BindRec) (err : Bool) : Slot :=
  { t with rec0 := bindWord act r, rec1 := r.crec.setWidth 64, act := BitVec.ofNat 4 act, seq := r.seq, aseq := r.seq, err := err }

/-- The record is refused: ASEQ and ERR, and nothing else. -/
def State.refuseRecord (s : State) (i : CoreIx) (act : Nat) (r : BindRec) : State :=
  s.modCore i (·.withSlot fun t => t.answer act r true)

/-- The record is carried out: ASEQ, and ERR clear. -/
def State.takeRecord (s : State) (i : CoreIx) (act : Nat) (r : BindRec) : State :=
  s.modCore i (·.withSlot fun t => t.answer act r false)

/-! ## Binding -/

/-- A core that its slot binds: LOADING, its TIME counts from now (spec/07 R113), and its cluster's integrator is 0 (spec/06 R80). -/
def State.bindCore (s : State) (i : CoreIx) (r : BindRec) (load : LoadKind) : State :=
  let set (t : Slot) : Slot :=
    { t with prio := r.prio, ctx := r.ctx, lid := r.lid, lrank := r.lrank, crec := r.crec, st := .loading, load := load,
             preq := none, stop := .no, fatal := none }
  let run (l : Launch) : Launch := if l.lid == r.lid && l.st ≠ .ended then { l with st := .running } else l
  let s := s.modCore i fun c => { c.toIdle.withSlot set with ctl := { c.toIdle.ctl with timeOff := BitVec.ofNat 64 s.now } }
  { s with mgmt := { s.mgmt with integ := put s.mgmt.integ (clusterOf i.val) 0 },
           sched := { s.sched with launches := s.sched.launches.map run } }

def State.doBind (s : State) (i : CoreIx) (act : Nat) (r : BindRec) (load : LoadKind) : State :=
  if accepts act (s.core i).slot.st && !s.clusterTaken i r.lid && (act ≠ 2 || s.recordOf i r.crec.toNat) then
    (s.takeRecord i act r).bindCore i r load
  else s.refuseRecord i act r

def execBindNew (i : CoreIx) (r : BindRec) (s : State) : Out := ok (s.doBind i 1 r .new)
def execBindResume (i : CoreIx) (r : BindRec) (s : State) : Out := ok (s.doBind i 2 r .resume)

/-! ## Pre-emption and freezing -/

/-- PREEMPT: a RUNNING core has a request pending from now on; a HALTED one is saved. -/
def State.doPreempt (s : State) (i : CoreIx) (r : BindRec) : State :=
  if accepts 3 (s.core i).slot.st then
    let s := s.takeRecord i 3 r
    s.modCore i (·.withSlot fun t =>
      if t.st = .halted then { t with st := .saving, crec := r.crec }
      else { t with st := .stopping, crec := r.crec, preq := some s.now })
  else s.refuseRecord i 3 r

def execPreempt (i : CoreIx) (r : BindRec) (s : State) : Out := ok (s.doPreempt i r)

/-- Every transfer of a core that has not ended ends with status 2 and its cursor. -/
def State.abandonXfers (s : State) (k : CoreIx) : State :=
  (s.core k).eng.copies.foldl (fun s x => if x.ended then s else s.endXfer k x 2 x.cursor) s

/-- A frozen core never makes room: what was held for it is discarded and counted (R76). -/
def Core.dropHeld (c : Core) : Core :=
  let c' := c.evt.held.foldl (fun c x => c.placeAct x.act) c
  { c' with evt := { c'.evt with held := [], dropped := c'.evt.dropped + c.evt.held.length } }

/-- FREEZE; the transfers that the launch-rank-0 core supervises end with it (spec/09 R136). -/
def State.doFreeze (s : State) (i : CoreIx) (r : BindRec) : State :=
  if accepts 5 (s.core i).slot.st then
    let s := (s.takeRecord i 5 r).modCore i (·.withSlot fun t => { t with st := .frozen, preq := none })
    let s := (s.modCore i Core.dropHeld).abandonXfers i
    if (s.core i).slot.lrank = 0 then s.orphanXfers (s.core i).slot.lid else s
  else s.refuseRecord i 5 r

def execFreeze (i : CoreIx) (r : BindRec) (s : State) : Out := ok (s.doFreeze i r)

/-- NONE does nothing; the record is examined. -/
def execSlotActNone (i : CoreIx) (r : BindRec) (s : State) : Out := ok (s.takeRecord i 0 r)

/-! ## Release (R69, R71, spec/03 R48, spec/08 R129, spec/11 R168, spec/20 R313) -/

/-- The entries of a launch's context become absent and unpinned; its experts' prices and capacities are cleared. -/
def State.releaseExperts (s : State) (ctx : BitVec 12) : State :=
  let other (p : Nat) : Bool := (s.res p).ctx != ctx
  let gone (e : ResEntry) : ResEntry := if e.ctx == ctx then { e with state := 0, pin := 0, xid := 0 } else e
  { s with dev := { s.dev with residency := s.dev.residency.map fun e => (e.1, gone e.2) },
           prices := s.prices.filter (other ·.1), caps := s.caps.filter (other ·.1) }

/-- The partitions of a launch are discarded. -/
def State.releaseParts (s : State) (lid : BitVec 16) : State :=
  { s with parts := s.parts.filter fun p => match p.2.owner with | some (l, _) => l != lid | none => true }

/-- The engine of receives after a release: receives of the core's launch are withdrawn, messages held for it discarded and counted
(spec/20 R313). -/
def Pre.drop (p : Pre) (k : CoreIx) (lid : BitVec 16) : Pre :=
  { p with posted := p.posted.filter fun r => r.core ≠ k || r.lid != lid
           unexpected := p.unexpected.filter fun m => m.dst ≠ k || m.lid != lid
           discarded := p.discarded + (p.unexpected.filter fun m => m.dst = k && m.lid == lid).length }

/-- Items that stand in a list or a spill area are gone; others may move up (spec/09 R140). -/
def State.dropItems (s : State) (gone : WorkItem → Bool) : State :=
  let s := s.spilled.foldl (fun s p => if p.2.any gone then s.setArea p.1 (p.2.filter (!gone ·)) else s) s
  let lists := (s.lists.map fun p => (p.1, p.2.filter (!gone ·))).filter fun p => !p.2.isEmpty
  (List.range 8).foldl State.refill { s with lists := lists }

/-- A request of a core that its launch leaves: its stores, its atomics and its rows on their way are still performed (R71), the rest is over. -/
def Req.leave (r : Req) (k : CoreIx) (lid : BitVec 16) : Option Req :=
  match r.op, r.phase with
  | .acc kind, .sent | .acc kind, .waiting _ => if accWrites kind && !r.loc then some { r with src := .left k lid, flight := none } else none
  | _, _ => none

/-- What a core has under way at the device's engines is over: requests that are no writes, engine accesses that wait, exchange transfers, items,
postings, receives, what waits at the Market, its steps, its list and what is spilled for it, its token requests, its convoy requests. -/
def State.endEngines (s : State) (k : CoreIx) : State :=
  let lid := (s.core k).slot.lid
  let gone (r : Req) : Bool := r.src.ownedBy k && (r.leave k lid).isNone
  let s := (s.net.filter gone).foldl (fun s r => match r.plane with | some p => s.subOutstanding p | none => s) s
  let part (q : Partition) : Partition :=
    { q with run := q.run.filter fun r => r.core ≠ k, sort := q.sort.filter fun r => r.core ≠ k }
  let tok (p : TokParty) : Bool := match p with | .core c _ _ => c ≠ k | .peer _ => true
  let s' : State := { s with
    net := s.net.filterMap fun r => if r.src.ownedBy k then r.leave k lid else some r
    engWaits := s.engWaits.filter fun w => w.core ≠ k.val
    xfers := s.xfers.filter fun x => x.src ≠ k
    pushed := s.pushed.filter fun p => p.src ≠ k
    posts := s.posts.filter fun p => p.core ≠ k
    pre := s.pre.drop k lid
    mktWaits := s.mktWaits.filter fun w => w.core ≠ k
    parts := s.parts.map fun p => (p.1, part p.2)
    fab := { s.fab with tokens := s.fab.tokens.map fun t => (t.1, { t.2 with queue := t.2.queue.filter tok }) }
    convoy := { s.convoy with
      arms := s.convoy.arms.filter fun a => a.2.core ≠ k || a.2.lid ≠ lid
      plays := s.convoy.plays.filter fun p => p.2.core ≠ k || p.2.lid ≠ lid } }
  s'.dropItems (s.isFor k)

/-- The graphs of a context are disarmed, their trigger entries freed and their slots cleared (spec/03 R48); a play that runs goes on. -/
def State.disarm (s : State) (ctx : BitVec 12) : State :=
  let mine (g : Graph) : Bool := g.ctx == ctx
  let off (g : Graph) : Graph := if mine g then { g with armed := false, trigs := [], queued := none, nextTrigs := [], area := none } else g
  let slot (r : RedSlot) : Bool := match r.key with
    | some (g, _, _) => (match lookup s.convoy.graphs g.val with | some x => !mine x | none => true)
    | none => true
  { s with convoy := { s.convoy with graphs := (s.convoy.graphs.map fun g => (g.1, off g.2)).filter fun g => g.2.armed || g.2.run.isSome,
                                     slots := s.convoy.slots.filter fun r => slot r.2 } }

/-- Residency fetches of a core that have not ended leave their entries absent (spec/08 R129). -/
def State.absentFetches (s : State) (k : CoreIx) : State :=
  (s.core k).eng.copies.foldl (fun s x =>
    match x.fetch with
    | some f => if x.ended then s else s.setRes f.entry { s.res f.entry with state := 0, xid := 0 }
    | none => s) s

/-- A core is released: it stops at once, its engines stop, its window is unbound, its slot is IDLE. With the launch-rank-0 core the
supervisor of the launch's suspended transfers is gone (spec/09 R136). -/
def State.unbind (s : State) (i : CoreIx) : State :=
  let t := (s.core i).slot
  let s := ((s.absentFetches i).disarm t.ctx).endEngines i
  let s := if t.lrank = 0 then (s.releaseParts t.lid).releaseExperts t.ctx else s
  let s := s.modCore i Core.toIdle
  { if t.lrank = 0 then s.orphanXfers t.lid else s with
    saves := drop s.saves (saveKey t.lid i)
    sched := { s.sched with faults := s.sched.faults.filter (· ≠ i) } }

def State.doRelease (s : State) (i : CoreIx) (r : BindRec) : State :=
  if accepts 4 (s.core i).slot.st then (s.takeRecord i 4 r).unbind i else s.refuseRecord i 4 r

def execRelease (i : CoreIx) (r : BindRec) (s : State) : Out := ok (s.doRelease i r)

/-- The record with which the scheduler hart itself writes an action for a bound core. -/
def State.hartRec (s : State) (i : CoreIx) : BindRec :=
  let t := (s.core i).slot
  { prio := t.prio, ctx := t.ctx, lid := t.lid, lrank := t.lrank, seq := t.seq + 1, crec := t.crec }

/-- RELEASE to every slot of a launch. -/
def State.releaseLaunch (s : State) (lid : BitVec 16) : State :=
  s.listed.foldl (fun s i =>
    if (s.core i).slot.lid == lid && (s.core i).slot.st ≠ .idle then s.doRelease i (s.hartRec i) else s) s

/-! ## The end of LOADING (R65, R67, R69) -/

/-- The GMEM entries of a core by the groups of its launch: group, count, rank, members. -/
def memberships (groups : List (List Nat)) (i : Nat) : List (Nat × List Nat) :=
  ((List.range groups.length).map fun g => (g, groups.getD g [])).filter fun p => p.2.contains i

def gmemWord (i : Nat) (p : Nat × List Nat) : Word :=
  BitVec.ofNat 64 (p.2.idxOf i + p.2.length * 2 ^ 16 + p.1 * 2 ^ 29 + 2 ^ 37)

/-- The bounding rectangle of members, in the scope-register format with bit 63 zero. -/
def gscopeWord (ms : List Nat) : Word :=
  let lo (f : Nat → Nat) : Nat := ms.foldl (fun n k => min n (f k)) 63
  let hi (f : Nat → Nat) : Nat := ms.foldl (fun n k => max n (f k)) 0
  BitVec.ofNat 64 (lo coreX + lo coreY * 2 ^ 8 + hi coreX * 2 ^ 16 + hi coreY * 2 ^ 24)

/-- The group registers of a core. -/
def Core.withGroups (c : Core) (i : CoreIx) (groups : List (List Nat)) : Core :=
  let l := memberships groups i.val
  { c with ctl := { c.ctl with
      gmem := Vector.ofFn fun n => match l[n.val]? with | some p => gmemWord i.val p | none => 0
      gscope := Vector.ofFn fun n => match l[n.val]? with | some p => gscopeWord p.2 | none => 0 } }

/-- Bundle index ENTRY or HENTRY as an offset. -/
def Launch.entry (l : Launch) : Pc := BitVec.ofNat 17 (bits (l.hdr.getD 3 0) 16 16 * 8)
def Launch.hentry (l : Launch) : Pc := BitVec.ofNat 17 (bits (l.hdr.getD 3 0) 0 16 * 8)
def Launch.codeVa (l : Launch) : Word := BitVec.ofNat 64 (bits (l.hdr.getD 2 0) 0 48)
def Launch.codeLen (l : Launch) : Nat := bits (l.hdr.getD 3 0) 32 18

/-- Load the cluster's instruction store, unless it already holds the launch's text; how the reads fail. -/
def State.loadText (s : State) (i : CoreIx) (l : Launch) : State × Option AccErr :=
  let cl := clusterOf i.val
  if look ((0 : BitVec 16), 0) s.text cl = (l.lid, l.codeLen) then (s, none)
  else
    match State.engReadWords (hartAcc l.ctx i.val) (l.codeLen / 8) s l.codeVa with
    | (s, .error e) => (s, some e)
    | (s, .ok ws) =>
      let cells := (ws.foldl (fun (m : List Host.Cell × Nat) w => (writeLE m.1 m.2 8 w.toNat, m.2 + 8)) ([], 0)).1
      ({ s with istore := put s.istore cl cells, text := put s.text cl (l.lid, l.codeLen) }, none)

/-- Copy the data-section entries of a launch rank, in table order; how the reads fail. -/
def State.loadData (s : State) (i : CoreIx) (l : Launch) (rank : Nat) : List DataEntry → State × Option AccErr
  | [] => (s, none)
  | d :: r =>
    if d.all || d.lrank = rank then
      match State.engReadBytes (hartAcc l.ctx i.val) d.len s (BitVec.ofNat 64 d.src) with
      | (s, .error e) => (s, some e)
      | (s, .ok bs) => State.loadData (s.store (winAddr i.val d.buf d.off) d.len (ofBytes bs)) i l rank r
    else State.loadData s i l rank r

/-- A payload or text read failed: the launch fails with REASON 2 and every slot of it is released (R64). -/
def State.failLoad (s : State) (l : Launch) : State :=
  let set (m : Launch) : Launch := if m.lid == l.lid && m.st ≠ .ended then { m with reason := 2, cancelAt := some s.now } else m
  ({ s with sched := { s.sched with launches := s.sched.launches.map set } }).releaseLaunch l.lid

/-- The core as BIND_NEW starts it (R69): at ENTRY, at S, x10 the parameter, x11 the launch rank. -/
def Core.startNew (c : Core) (i : CoreIx) (l : Launch) : Core :=
  let x := ((Vector.replicate 32 (0 : Word)).set 10 l.param).set 11 (c.slot.lrank.setWidth 64)
  let c := { c with main := { MainCtx.reset with x := x, pc := l.entry, npc := l.entry } }
  let c := { c with hnd := { HandlerCtx.reset with pc := l.hentry, npc := l.hentry } }
  (c.withGroups i l.groups).withSlot fun t => { t with st := .running, load := .none }

/-- A core loaded anew. -/
def State.loadNew (s : State) (i : CoreIx) (l : Launch) : State × Option AccErr :=
  let s := s.clearWindow i
  match s.loadData i l (s.core i).slot.lrank.toNat l.data with
  | (s, none) => (s.modCore i (·.startNew i l), none)
  | r => r

/-- What a saved core of a slot left; all of it for a record that another bind wrote. -/
def State.savedOf (s : State) (i : CoreIx) : SavedCore :=
  let t := (s.core i).slot
  look { crec := t.crec.toNat, map := SaveMap.all, core := Core.reset, held := [] } s.saves (saveKey t.lid i)

/-- A core restored from its record; receives that were set aside take what waits for them. Where the launch has no supervisor, suspended
transfers end (spec/09 R136). -/
def State.restored (s : State) (i : CoreIx) (l : Launch) : State :=
  let t := (s.core i).slot
  let r := t.crec.toNat
  let key := saveKey t.lid i
  let sv := s.savedOf i
  let s := (s.clearWindow i).restoreRanges i r sv.map.ranges
  let s := if t.lrank = 0 then s.restoreMarket r t.lid t.ctx else s
  let st : SlotSt := if s.load r 8 / 2 ^ 62 = 3 then .halted else .running
  let c := s.restoreCore sv r (s.core i)
  let c := ((c.withGroups i l.groups).withSlot fun t => { t with st := st, load := .none }).settle
  let s := (({ s.setCore i c with saves := drop s.saves key }.chargeRecord t.ctx false)).rematch
  if (s.supervisor i).isNone then s.orphanXfers t.lid else s

/-- LOADING completes; it waits while a token moves under what it reads. A resume that meets an uncorrectable burst of its record fails the
launch as the read of a payload does (log 99). -/
def execLoadingComplete (i : CoreIx) (s : State) : Out :=
  let t := (s.core i).slot
  if t.st ≠ .loading then ok s
  else
    match s.launchOf i with
    | none => ok s
    | some l =>
      match s.loadText i l with
      | (s', some .wait) => ok (s.stall s')
      | (s1, some _) => ok (s1.failLoad l)
      | (s1, none) =>
        match t.load with
        | .resume =>
          if s1.badAt t.crec.toNat recordLen then ok ((s1.sweep i t.crec.toNat recordLen).failLoad l)
          else ok ((s1.correct t.crec.toNat recordLen).restored i l)
        | _ =>
          match s1.loadNew i l with
          | (s', some .wait) => ok (s.stall s')
          | (s2, some _) => ok (s2.failLoad l)
          | (s2, none) => ok s2

/-! ## The context save (R73, R74, R157) -/

def Core.hasStopped (c : Core) : Bool :=
  c.slot.stop ≠ .no || c.slot.st = .halted || c.slot.st = .saving || c.slot.st = .frozen

/-- The cores of a launch that are bound. -/
def State.boundOf (s : State) (lid : BitVec 16) : List CoreIx :=
  s.listed.filter fun j => (s.core j).slot.lid == lid && (s.core j).slot.st ≠ .idle

/-- Whether a play of a context is running, queued or about to start. -/
def State.playing (s : State) (ctx : BitVec 12) : Bool :=
  (s.convoy.graphs.any fun g => g.2.ctx == ctx && (g.2.run.isSome || g.2.queued.isSome)) ||
    s.convoy.plays.any fun p => p.2.ctx == ctx

/-- Whether a partition of a launch has a step, a sort or a waiting instruction. -/
def State.marketBusy (s : State) (lid : BitVec 16) : Bool :=
  s.parts.any fun p => (match p.2.owner with | some (l, _) => l == lid | none => false) &&
    (p.2.run.isSome || !p.2.sort.isEmpty || s.mktWaits.any fun w => w.part.val = p.1)

/-- Whether a write is on its way to a buffer of a launch (spec/05 R73). -/
def State.writesTo (s : State) (lid : BitVec 16) : Bool :=
  s.net.any fun r => r.phase = .sent && devOf r.sys == s.own && (match r.op with | .acc kind => accWrites kind | _ => false) &&
    (match homeOf (physOf r.sys) with | .core j => s.binds (toCore j) lid | _ => false)

/-- Whether the save of a core may begin: every core of its launch has stopped, every mesh transfer for the launch has landed,
its accesses are performed or answered, its results are complete, its postings and items have arrived, a step of its launch
has ended, and every play of the context has (spec/03 R48, spec/11 R168). -/
def State.maySave (s : State) (k : CoreIx) : Bool :=
  let c := s.core k
  ((c.slot.st = .stopping && c.slot.stop ≠ .no) || c.slot.st = .saving || (c.slot.st = .halted && c.slot.preq.isSome))
    && ((s.boundOf c.slot.lid).all fun j => (s.core j).hasStopped)
    && (s.xfers.all fun x => (s.core x.src).slot.lid ≠ c.slot.lid) && !s.writesTo c.slot.lid
    && !s.accPending k && c.settled false && c.settled true
    && (s.posts.all fun p => p.core ≠ k) && (s.pushed.all fun p => p.src ≠ k)
    && !s.marketBusy c.slot.lid && !s.playing c.slot.ctx

/-- The core's part in the scheduler once it is saved: with its last core the launch is READY again, ahead of every launch of
its priority (R72). -/
def State.saveDone (s : State) (lid : BitVec 16) : State :=
  if (s.boundOf lid).isEmpty then
    let set (m : Launch) : Launch :=
      if m.lid == lid && m.st ≠ .ended then { m with st := .ready, saved := true, arrival := 0 }
      else { m with arrival := m.arrival + 1 }
    { s with sched := { s.sched with launches := s.sched.launches.map set, arrivals := s.sched.arrivals + 1 } }
  else s

/-- The record is written and the slot is IDLE; posted receives, messages and partitions stay where they are. The save waits while a token moves
under its map. -/
def execContextSave (k : CoreIx) (s : State) : Out :=
  if !s.maySave k then ok s
  else
    match (s.modCore k fun c => (c.landAll false).landAll true).saveMap k with
    | .error s' => ok (s.stall s')
    | .ok (s, m, kind, ix) =>
      let c := s.core k
      let r := c.slot.crec.toNat
      let s := ((s.sweepSave k r m.ranges).writeRecord k r kind ix m).freeBad k r m.ranges
      let kept : Core := { c with eng := { c.eng with copies := c.eng.copies.map Xfer.atCursor } }
      let sv : SavedCore := { crec := r, map := m, core := kept, held := c.evt.held }
      let s := { s with saves := put s.saves (saveKey c.slot.lid k) sv }.chargeRecord c.slot.ctx true
      let idle (t : Slot) : Slot := { t with skind := BitVec.ofNat 2 kind }
      ok ((s.modCore k fun c => c.toIdle.withSlot idle).saveDone c.slot.lid)

/-! ## Answers of sends (spec/17 R290, spec/20 R311) -/

/-- Whether the completion of a send waits for room in the inbox. -/
def Core.sendHeld (c : Core) (h : BitVec 16) : Bool := c.evt.held.any fun x => x.act = .freeSend h

/-- The completion of an answered send, kind 0x31: none while no answer is known. For a message to another device the answer
is the peer's: status 0 with the engine's answer as data, or a status of spec/02 R37. -/
def State.sendMsg (s : State) (sr : SendRec) (r : PeerReply) : Option Msg :=
  let mk (st : BitVec 8) (x : BitVec 4) : Msg :=
    mkMsg 0x31 st.toNat sr.dst.val sr.handle.toNat (if st == 2 then x.setWidth 64 else recvPayload sr.tag sr.dev.val sr.len)
  match sr.answer with
  | some (st, x) => some (mk st x)
  | none =>
    if sr.dev = s.fab.devid then none
    else
      let seen := s.seenStatus (sendSys sr) 8 r
      some (if seen = 0 then mk (if r.data = 0 then 0 else 1) 0 else mk 2 seen)

/-- What the sender's die logs of the answer of another device (spec/02 R31, R37). -/
def State.noteAnswer (s : State) (sr : SendRec) (k : CoreIx) (r : PeerReply) : State :=
  if sr.answer.isSome then s else s.noteStatus (xstatOf r) (s.seenStatus (sendSys sr) 8 r) (sendSys sr) k 3

/-- Whether the answer of a send comes from another device in a packet that is discarded (spec/02 R36). -/
def State.answerLost (s : State) (sr : SendRec) (r : PeerReply) : Option State :=
  if sr.answer.isSome || sr.dev = s.fab.devid then none else s.tagFails sr.dev.val r.tagOk

/-- The saved core of an index that has sent a message with a handle. -/
def State.savedSend (s : State) (k : CoreIx) (h : BitVec 16) : Option (Nat × SavedCore × SendRec) :=
  match s.saves.find? fun p => p.1 % 4096 = k.val && p.2.core.eng.sends.any (·.handle == h) with
  | some (key, sv) => (sv.core.eng.sends.find? (·.handle == h)).map fun r => (key, sv, r)
  | none => none

/-- The answer of a send reaches its core, or the record of its core. -/
def execSendAnswer (k : CoreIx) (handle : BitVec 16) (r : PeerReply) (s : State) : Out :=
  match (s.core k).eng.sends.find? (·.handle == handle) with
  | some sr =>
    if (s.core k).sendHeld handle then ok s
    else
      match s.answerLost sr r, s.sendMsg sr r with
      | some s', _ => ok s'
      | none, some m => ok ((s.noteAnswer sr k r).place k [m] (.freeSend handle))
      | none, none => ok s
  | none =>
    match s.savedSend k handle with
    | none => ok s
    | some (key, sv, sr) =>
      if sv.held.any fun x => x.act = .freeSend handle then ok s
      else
        match s.answerLost sr r, s.sendMsg sr r with
        | some s', _ => ok s'
        | none, some m => ok ((s.noteAnswer sr k r).placeSaved key sv { msgs := [m], act := .freeSend handle })
        | none, none => ok s

end Sys2Proof.Machine
end

