-- ==== Sys2Proof/Machine/Launch.lean ====
section
/-!
DEFINITION. Launches (spec/05 R64 to R66, R70 to R72, R76): the packet that creates one, its checks, its placement and the
pre-emption it may need, what a faulted core brings about, its end and its cancellation.
-/

namespace Sys2Proof.Machine

/-! ## Queue interfaces and launches -/

def State.qi (s : State) (q : Fin 64) : Qi := look Qi.reset s.host.qis q.val

def State.setQi (s : State) (q : Fin 64) (x : Qi) : State := { s with host := { s.host with qis := put s.host.qis q.val x } }

/-- The work of a packet has finished: status and RESULT of its completion, and its number in the order of finishing (spec/04 R63). -/
def State.finishPacket (s : State) (q : Fin 64) (n : Nat) (st : BitVec 8) (res : Word) : State :=
  let set (p : Packet) : Packet :=
    if p.seq = n && p.result.isNone then { p with result := some (st, res), waitPage := none, fin := s.nextId } else p
  { s with nextId := s.nextId + 1 }.setQi q { s.qi q with packets := (s.qi q).packets.map set }

/-- A launch that has not ended, by its identifier. -/
def State.launch (s : State) (lid : BitVec 16) : Option Launch :=
  s.sched.launches.find? fun l => l.lid == lid && l.st ≠ .ended

def State.setLaunch (s : State) (l : Launch) : State :=
  let set (m : Launch) : Launch := if m.lid == l.lid && m.st ≠ .ended then l else m
  { s with sched := { s.sched with launches := s.sched.launches.map set } }

/-- Fields of the header. -/
def Launch.w (l : Launch) : Nat := bits (l.hdr.getD 1 0) 50 7
def Launch.h (l : Launch) : Nat := bits (l.hdr.getD 1 0) 43 7
def Launch.cores (l : Launch) : Nat := l.w * l.h
def Launch.usesFixed (l : Launch) : Bool := bit (l.hdr.getD 0 0) 16
def Launch.usesMarket (l : Launch) : Bool := bit (l.hdr.getD 0 0) 17
def Launch.usesFabric (l : Launch) : Bool := bit (l.hdr.getD 0 0) 18
def Launch.mpart (l : Launch) : Nat := bits (l.hdr.getD 0 0) 0 16
def Launch.hdrX0 (l : Launch) : Nat := bits (l.hdr.getD 1 0) 37 6
def Launch.hdrY0 (l : Launch) : Nat := bits (l.hdr.getD 1 0) 31 6
def Launch.ngrp (l : Launch) : Nat := bits (l.hdr.getD 4 0) 56 8
def Launch.ndata (l : Launch) : Nat := bits (l.hdr.getD 6 0) 56 8

/-! ## The end (R70, R71) -/

/-- The end word: EXITVAL, REASON, CAUSE, CORE. -/
def endWord (exit : BitVec 32) (reason cause : BitVec 8) (core : BitVec 12) : Word :=
  BitVec.ofNat 64 (exit.toNat * 2 ^ 32 + reason.toNat * 2 ^ 24 + cause.toNat * 2 ^ 16 + core.toNat)

/-- Completion status of a REASON. -/
def reasonStatus (r : BitVec 8) : BitVec 8 := if r = 0 then 0 else if r = 6 then 6 else 8

/-- What is saved of a launch. -/
def State.savesOf (s : State) (lid : BitVec 16) : List SavedCore := (s.saves.filter fun p => p.1 / 4096 = lid.toNat).map (·.2)

/-- What the release of a saved core would release: the graphs of its context are disarmed (spec/03 R48), and with launch rank 0 the context's
experts are released (spec/08 R129, spec/11 R168). -/
def State.releaseSaved (s : State) (l : Launch) : State :=
  let saved := s.savesOf l.lid
  let s := if saved.isEmpty then s else s.disarm l.ctx
  if saved.any fun v => v.core.slot.lrank = 0 then s.releaseExperts l.ctx else s

/-- Everything held for a launch is over: what was saved of it, its receives, the messages held for it, which are counted (spec/20 R313),
its items, its partitions, what it asked of the Convoy Sequencer. -/
def State.forgetLaunch (s : State) (l : Launch) : State :=
  let s := s.releaseSaved l
  let gone := (s.pre.unexpected.filter fun m => m.lid == l.lid).length
  let s := { s with
    saves := s.saves.filter fun p => p.1 / 4096 ≠ l.lid.toNat
    pre := { s.pre with posted := s.pre.posted.filter fun r => r.lid != l.lid
                        unexpected := s.pre.unexpected.filter fun m => m.lid != l.lid
                        discarded := s.pre.discarded + gone }
    convoy := { s.convoy with arms := s.convoy.arms.filter fun a => a.2.lid != l.lid
                              plays := s.convoy.plays.filter fun p => p.2.lid != l.lid } }
  (s.releaseParts l.lid).dropItems (·.lid == l.lid)

/-- The FAILED bit of a TAG after a LAUNCH of it has ended with a status (spec/04 R61). -/
def State.markTag (s : State) (q : Fin 64) (t : BitVec 16) (st : BitVec 8) : State :=
  let failed := (s.qi q).failed.filter (· != t)
  s.setQi q { s.qi q with failed := if st = 0 then failed else t :: failed }

/-- A launch ends with a completion status and RESULT. -/
def State.closeLaunch (s : State) (l : Launch) (st : BitVec 8) (res : Word) : State :=
  (((s.setLaunch { l with st := .ended }).markTag l.queue l.tag st).forgetLaunch l).finishPacket l.queue l.pseq st res

/-- The launch has ended: its TAG's FAILED bit, the end word in its packet's completion (zero with status 6, spec/04 R63). -/
def State.endLaunch (s : State) (l : Launch) : State :=
  let st := reasonStatus l.reason
  let w := endWord (l.exitVal.getD 0) l.reason (if l.reason = 5 then l.cause else 0) (if l.reason = 5 then l.core else 0)
  s.closeLaunch l st (if st = 6 then 0 else w)

/-- A launch that ends before it runs. -/
def State.failLaunch (s : State) (l : Launch) (reason : BitVec 8) : State := s.endLaunch { l with reason := reason }

/-! ## The packet (spec/04 R57, R61) -/

def Packet.op (p : Packet) : Nat := bits (p.words.getD 0 0) 0 8
def Packet.tag (p : Packet) : BitVec 16 := BitVec.ofNat 16 (bits (p.words.getD 0 0) 48 16)
def Packet.fen (p : Packet) : Bool := bit (p.words.getD 0 0) 19
def Packet.ndep (p : Packet) : Nat := bits (p.words.getD 0 0) 44 4

/-- DEP_0 to DEP_{NDEP−1}. -/
def Packet.deps (p : Packet) : List (BitVec 16) :=
  (List.range (min p.ndep 8)).map fun i => BitVec.ofNat 16 (bits (p.words.getD (3 + i / 4) 0) (16 * (i % 4)) 16)

def Qi.packet (q : Qi) (n : Nat) : Option Packet := q.packets.find? (·.seq = n)

/-- Whether every packet fetched before one lets it start: FEN waits for all, GET for PUT and LAUNCH, LAUNCH for PUT. -/
def Qi.mayStart (q : Qi) (p : Packet) : Bool :=
  q.packets.all fun e => p.seq ≤ e.seq ||
    (!p.fen && (p.op ≠ 2 || (e.op ≠ 1 && e.op ≠ 3)) && (p.op ≠ 3 || e.op ≠ 1))

/-- A packet that has not started and may start now. -/
def State.startable (s : State) (q : Fin 64) (n op : Nat) : Option Packet :=
  match (s.qi q).packet n with
  | none => none
  | some p => if p.op = op && !p.started && p.result.isNone && (s.qi q).mayStart p then some p else none

def State.setPacket (s : State) (q : Fin 64) (p : Packet) : State :=
  s.setQi q { s.qi q with packets := (s.qi q).packets.map fun e => if e.seq = p.seq then p else e }

/-- A LAUNCH packet becomes a PENDING launch, after the LAUNCH packets of its TAG before it in the ring; a TAG that a launch of its
interface still uses ends it with status 7. -/
def execLaunchPacket (q : Fin 64) (n : Nat) (s : State) : Out :=
  match s.startable q n 3 with
  | none => ok s
  | some p =>
    if (s.qi q).packets.any fun e => e.seq < n && e.op = 3 && e.tag == p.tag && !e.started && e.result.isNone then ok s
    else if s.sched.launches.any fun l => l.queue = q && l.tag == p.tag && l.st ≠ .ended then ok (s.finishPacket q n 7 0)
    else
      let lid := s.sched.lidNext
      let l : Launch :=
        { lid := lid, queue := q, pseq := n, tag := p.tag, prio := BitVec.ofNat 3 (bits (p.words.getD 0 0) 41 3),
          ctx := (s.qi q).ctx, hdrVa := p.words.getD 1 0, param := p.words.getD 2 0, deps := p.deps, hdr := [], groups := [],
          data := [], st := .pending, x0 := 0, y0 := 0, reason := 0, cause := 0, core := 0, arrival := s.sched.arrivals,
          started := 0, saved := false, exitVal := none, cancelAt := none }
      let held := lid :: (s.sched.launches.filter (·.st ≠ .ended)).map (·.lid)
      let sched := { s.sched with launches := s.sched.launches ++ [l], lidNext := nextFree held (held.length + 1) lid,
                                  arrivals := s.sched.arrivals + 1 }
      ok ({ s with sched := sched }.setPacket q { p with started := true })

/-! ## The checks (R64) -/

/-- Words 0 and 1. -/
def headOk (w0 w1 : Word) : Bool :=
  bits w0 32 32 == 0x42584C31 && bits w0 24 8 == 1 && bits w0 19 5 == 0 && (bit w0 17 || bits w0 0 16 == 0)
    && bits w1 57 7 == 0 && bits w1 50 7 ≤ 64 && bits w1 43 7 ≤ 64 && bits w1 0 31 == 0

/-- Words 2 to 7. -/
def restOk (h : List Word) : Bool :=
  let w (i : Nat) : Word := h.getD i 0
  let len := bits (w 3) 32 18
  bits (w 2) 48 16 == 0 && bits (w 2) 0 6 == 0 && bits (w 3) 50 14 == 0
    && len % 8 == 0 && 8 ≤ len && len ≤ 131072 && bits (w 3) 16 16 < len / 8 && bits (w 3) 0 16 < len / 8
    && bits (w 4) 48 8 == 0 && bits (w 4) 0 4 == 0 && bits (w 5) 0 6 == 0 && bits (w 6) 48 8 == 0 && bits (w 6) 0 4 == 0
    && w 7 == 0

/-- Whether FABRIC and MARKET are accepted where the launch needs them (spec/04 R55). -/
def State.featuresFor (s : State) (l : Launch) : Bool :=
  let f := if s.host.featOk then s.host.featDrv[(0 : Fin 4)] else 0
  (!l.usesMarket || bit f 5) && (!l.usesFabric || bit f 6)

/-- The members of a bitmap by rank. -/
def bitmapRanks (bs : List Byte) : List Nat :=
  (List.range (8 * bs.length)).filter fun i => (bs.getD (i / 8) 0).getLsbD (i % 8)

/-- The REASON of a failing read of the header, its tables or the payloads; none while a token moves under it. -/
def readFail (e : AccErr) : Option (BitVec 8) := if e = .wait then none else some 2

/-- Group entries g to NGRP: their members by rank, or the REASON. -/
def State.readGroups (a : Acc) (n : Nat) (va : Word) : Nat → State → State × Except (Option (BitVec 8)) (List (List Nat))
  | 0, s => (s, .ok [])
  | k + 1, s =>
    match State.engReadWords a 2 s va with
    | (s, .error e) => (s, .error (readFail e))
    | (s, .ok ws) =>
      let w0 := ws.getD 0 0
      let w1 := ws.getD 1 0
      if !vaOk w0 || bits w1 13 51 ≠ 0 then (s, .error (some 3))
      else
        match State.engReadBytes a ((n + 7) / 8) s w0 with
        | (s, .error e) => (s, .error (readFail e))
        | (s, .ok bs) =>
          let m := bitmapRanks bs
          if m.any (n ≤ ·) || m.length ≠ bits w1 0 13 then (s, .error (some 3))
          else
            match State.readGroups a n (va + 16) k s with
            | (s, .error e) => (s, .error e)
            | (s, .ok r) => (s, .ok (m :: r))

/-- No core belongs to more than four groups, group 0 included. -/
def groupsOk (n : Nat) (gs : List (List Nat)) : Bool :=
  (List.range n).all fun i => (gs.filter (·.contains i)).length ≤ 4

/-- A data-section entry, or none where it breaks a rule of R65. -/
def dataEntry (n : Nat) (w0 w1 : Word) : Option DataEntry :=
  let b := bufOfCode (bits w1 62 2)
  let off := bits w1 28 20
  let len := bits w1 8 20
  let rank := bits w1 48 12
  if vaOk w0 && bits w1 60 1 == 0 && bits w1 0 8 == 0 && off % 8 == 0 && len % 8 == 0 && off + len ≤ b.size
      && (if bit w1 61 then rank == 0 else rank < n) then
    some { src := bits w0 0 48, buf := b, all := bit w1 61, lrank := rank, off := off, len := len }
  else none

def State.readData (a : Acc) (n : Nat) (va : Word) : Nat → State → State × Except (Option (BitVec 8)) (List DataEntry)
  | 0, s => (s, .ok [])
  | k + 1, s =>
    match State.engReadWords a 2 s va with
    | (s, .error e) => (s, .error (readFail e))
    | (s, .ok ws) =>
      match dataEntry n (ws.getD 0 0) (ws.getD 1 0) with
      | none => (s, .error (some 1))
      | some d =>
        match State.readData a n (va + 16) k s with
        | (s, .error e) => (s, .error e)
        | (s, .ok r) => (s, .ok (d :: r))

/-- Checks 5 to 8: words 2 to 7, text, groups, data. -/
def State.checkImage (s : State) (l : Launch) : State × Except (Option (BitVec 8)) Launch :=
  let a := hartAcc l.ctx 0
  if !restOk l.hdr then (s, .error (some 1))
  else
    match State.engReadWords a (l.codeLen / 8) s l.codeVa with
    | (s, .error e) => (s, .error (readFail e))
    | (s, .ok _) =>
      match State.readGroups a l.cores (BitVec.ofNat 64 (bits (l.hdr.getD 4 0) 0 48)) l.ngrp s with
      | (s, .error e) => (s, .error e)
      | (s, .ok gs) =>
        let gs := List.range l.cores :: gs
        if !groupsOk l.cores gs then (s, .error (some 3))
        else
          match State.readData a l.cores (BitVec.ofNat 64 (bits (l.hdr.getD 6 0) 0 48)) l.ndata s with
          | (s, .error e) => (s, .error e)
          | (s, .ok d) => (s, .ok { l with groups := gs, data := d })

/-- What a device virtual address of a packet may name: stacks, or another device (spec/04 R58). -/
def State.movable (s : State) (a : Acc) (write : Bool) (ga : Word) : Bool :=
  match (s.xlate a.cl a.ctx a.eng (if write then .write else .read) ga).2 with
  | .ok x => devOf x.sys ≠ s.own || inStacks (physOf x.sys)
  | .error _ => true

/-- The refusal of another address is logged. -/
def State.logPacket (s : State) (ga : Word) : State := s.logViolation 0 3 s.own (BitVec.ofNat 50 ga.toNat) 0 4

/-- The header at its address; nothing beyond word 1 is read of a zero-core launch. -/
def State.readHeader (s : State) (l : Launch) : State × Except (Option (BitVec 8)) Launch :=
  let a := hartAcc l.ctx 0
  if l.hdrVa.toNat % 64 ≠ 0 then (s, .error (some 1))
  else if !vaOk l.hdrVa then (s, .error (some 2))
  else if !s.movable a false l.hdrVa then (s.logPacket l.hdrVa, .error (some 2))
  else
    match State.engReadWords a 2 s l.hdrVa with
    | (s, .error e) => (s, .error (readFail e))
    | (s, .ok ws) =>
      if ({ l with hdr := ws } : Launch).cores = 0 then (s, .ok { l with hdr := ws })
      else
        match State.engReadWords a 6 s (l.hdrVa + 16) with
        | (s, .error e) => (s, .error (readFail e))
        | (s, .ok r) => (s, .ok { l with hdr := ws ++ r })

/-- The checks in order: the launch as READY, none where it is a zero-core launch that ends, or the REASON. -/
def State.checkLaunch (s : State) (l : Launch) : State × Except (Option (BitVec 8)) (Option Launch) :=
  match s.readHeader l with
  | (s, .error e) => (s, .error e)
  | (s, .ok l) =>
    if !headOk (l.hdr.getD 0 0) (l.hdr.getD 1 0) then (s, .error (some 1))
    else if !s.featuresFor l then (s, .error (some 4))
    else if l.cores = 0 then (s, .ok none)
    else if l.usesFixed && (64 < l.hdrX0 + l.w || 64 < l.hdrY0 + l.h) then (s, .error (some 8))
    else
      match s.checkImage l with
      | (s, .error e) => (s, .error e)
      | (s, .ok l) => (s, .ok (some { l with st := .ready }))

/-- How a dependency stands (spec/04 R61). -/
inductive DepState | pending | failed | met
  deriving DecidableEq, Repr

/-- A launch with the TAG that has not ended, or a LAUNCH packet of the ring before it that has not been taken, is waited for. -/
def State.depState (s : State) (l : Launch) (t : BitVec 16) : DepState :=
  if (s.sched.launches.any fun m => m.queue = l.queue && m.tag == t && m.st ≠ .ended) ||
      ((s.qi l.queue).packets.any fun p => p.seq < l.pseq && p.op = 3 && p.tag == t && !p.started && p.result.isNone) then .pending
  else if (s.qi l.queue).failed.contains t then .failed else .met

def execLaunchReady (lid : BitVec 16) (s : State) : Out :=
  match s.launch lid with
  | none => ok s
  | some l =>
    if l.st ≠ .pending then ok s
    else if l.deps.any fun t => s.depState l t = .pending then ok s
    else if l.deps.any fun t => s.depState l t = .failed then ok (s.failLaunch l 7)
    else
      match s.checkLaunch l with
      | (s', .error none) => ok (s.stall s')
      | (s, .error (some e)) => ok (s.failLaunch l e)
      | (s, .ok none) => ok (s.endLaunch l)
      | (s, .ok (some m)) => ok (s.setLaunch m)

/-! ## Placement (R70, R72) -/

/-- Whether a core's cluster is one that the rectangle touches. -/
def touches (x0 y0 w h k : Nat) : Bool :=
  x0 / 4 ≤ coreX k / 4 && coreX k / 4 ≤ (x0 + w - 1) / 4 && y0 / 4 ≤ coreY k / 4 && coreY k / 4 ≤ (y0 + h - 1) / 4

/-- Whether a launch stands in the way of another at an origin: it binds a core of a touched cluster. -/
def State.inWay (s : State) (l : Launch) (x0 y0 : Nat) (lid : BitVec 16) : Bool :=
  lid != l.lid && s.cores.any fun p => p.2.slot.st ≠ .idle && p.2.slot.lid == lid && touches x0 y0 l.w l.h p.1

/-- The launches that bind a core. -/
def State.holders (s : State) : List (BitVec 16) := (s.cores.filter fun p => p.2.slot.st ≠ .idle).map fun p => p.2.slot.lid

/-- Whether another launch holds a partition that a launch names; it does so until it is released, saved or not (spec/11 R159). -/
def State.partTaken (s : State) (l : Launch) : Bool :=
  s.parts.any fun p => l.mpart.testBit p.1 && (match p.2.owner with | some (o, _) => o != l.lid | none => false)

/-- Origins in the order they are tried: its own where it is fixed or resumes, else multiples of 4, the lowest y and then the
lowest x first. -/
def Launch.origins (l : Launch) : List (Nat × Nat) :=
  if l.saved then [(l.x0, l.y0)]
  else if l.usesFixed then [(l.hdrX0, l.hdrY0)]
  else (((List.range 16).map fun y => (List.range 16).map fun x => (4 * x, 4 * y)).flatten).filter fun o =>
    o.1 + l.w ≤ 64 && o.2 + l.h ≤ 64

/-- Where a launch can be placed if some launches were gone. -/
def State.place? (s : State) (l : Launch) (gone : List (BitVec 16)) : Option (Nat × Nat) :=
  if s.partTaken l then none
  else l.origins.find? fun o => s.holders.all fun lid => gone.contains lid || !s.inWay l o.1 o.2 lid

/-- The order in which READY launches are considered, and victims of pre-emption: by a key, keeping arrival order. -/
def insertBy (f : Launch → Launch → Bool) (l : Launch) : List Launch → List Launch
  | [] => [l]
  | m :: r => if f l m then l :: m :: r else m :: insertBy f l r

def sortBy (f : Launch → Launch → Bool) (ls : List Launch) : List Launch := ls.foldr (insertBy f) []

def readyBefore (a b : Launch) : Bool := b.prio.toNat < a.prio.toNat || (a.prio == b.prio && a.arrival ≤ b.arrival)
def victimBefore (a b : Launch) : Bool := a.prio.toNat < b.prio.toNat || (a.prio == b.prio && b.started ≤ a.started)

/-- RUNNING launches of strictly lower priority, in the order of pre-emption. -/
def State.victims (s : State) (l : Launch) : List Launch :=
  sortBy victimBefore (s.sched.launches.filter fun m => m.st = .running && m.reason = 0 && m.prio.toNat < l.prio.toNat)

/-- The first victims that are enough, with those among them that stand in the way. -/
def State.planFrom (s : State) (l : Launch) (gone : List (BitVec 16)) : List Launch → List (BitVec 16)
  | [] => []
  | v :: r =>
    match s.place? l (gone ++ [v.lid]) with
    | some o => (gone ++ [v.lid]).filter (s.inWay l o.1 o.2)
    | none => State.planFrom s l (gone ++ [v.lid]) r

def State.plan (s : State) (l : Launch) : List (BitVec 16) := s.planFrom l [] (s.victims l)

/-- Cores of a launch that a PREEMPT still reaches. -/
def State.preemptable (s : State) (lid : BitVec 16) : List CoreIx :=
  (s.boundOf lid).filter fun i => (s.core i).slot.st = .running || (s.core i).slot.st = .halted

/-- Whether a READY launch that stands before another can be placed, or has a pre-emption to ask for or under way. -/
def State.comesFirst (s : State) (m : Launch) : Bool := (s.place? m []).isSome || !(s.plan m).isEmpty

/-- The place of a context record in the stacks (log 38). -/
def crecAt (n : Nat) : BitVec 40 := BitVec.ofNat 40 (0x1000000000 + 64 * (Config.recordPlace n % 0x180000000))

/-- PREEMPT to every slot of a launch. -/
def State.preemptLaunch (s : State) (lid : BitVec 16) : State :=
  (s.preemptable lid).foldl (fun s i =>
    ({ s with free := s.free + 1 }).doPreempt i { s.hartRec i with crec := crecAt s.free }) s

/-- The core indices of a rectangle in rank order. -/
def rectCores (x0 y0 w n : Nat) : List Nat := (List.range n).map fun i => (y0 + i / w) * 64 + x0 + i % w

/-- The partitions of a launch are its own, with reset registers (spec/11 R168). -/
def State.takeParts (s : State) (l : Launch) : State :=
  (List.range 16).foldl (fun s p =>
    if l.mpart.testBit p then s.setPart p { Partition.reset with owner := some (l.lid, l.ctx) } else s) s

/-- Where the record of a saved core lies. -/
def State.savedPlace (s : State) (lid : BitVec 16) (i : CoreIx) : BitVec 40 :=
  match lookup s.saves (saveKey lid i) with
  | some sv => BitVec.ofNat 40 sv.crec
  | none => 0

/-- Write a bind record for every core of a launch, in ascending slot index. -/
def State.bindLaunch (s : State) (l : Launch) : State :=
  ((List.range 4096).filter (l.groups.getD 0 []).contains).foldl (fun s k =>
    let i := toCore k
    let r : BindRec := { prio := l.prio, ctx := l.ctx, lid := l.lid, lrank := BitVec.ofNat 12 ((l.groups.getD 0 []).idxOf k),
                         seq := (s.core i).slot.seq + 1, crec := if l.saved then s.savedPlace l.lid i else 0 }
    if l.saved then s.doBind i 2 r .resume else s.doBind i 1 r .new) s

/-- Place a launch at an origin; what a fresh launch holds by rank is from then on held by core index. -/
def State.placeLaunch (s : State) (l : Launch) (o : Nat × Nat) : State :=
  let cores := rectCores o.1 o.2 l.w l.cores
  let m := if l.saved then { l with st := .running, started := s.now }
           else { l with st := .running, started := s.now, x0 := o.1, y0 := o.2,
                         groups := l.groups.map fun g => g.map fun r => cores.getD r 0 }
  (if l.saved then s.setLaunch m else (s.setLaunch m).takeParts m).bindLaunch m

/-- The scheduler considers a READY launch: it is placed, or asks for the pre-emption it needs. A launch before it in the
order that can be placed, or has a pre-emption to ask for, comes first. -/
def execLaunchPlacement (lid : BitVec 16) (s : State) : Out :=
  match s.launch lid with
  | none => ok s
  | some l =>
    if l.st ≠ .ready then ok s
    else if s.sched.launches.any fun m => m.st = .ready && m.lid != lid && readyBefore m l && s.comesFirst m then ok s
    else
      match s.place? l [] with
      | some o => ok (s.placeLaunch l o)
      | none => ok ((s.plan l).foldl State.preemptLaunch s)

/-! ## A faulted core (R76) -/

/-- The groups other than 0 that two cores share, lowest first. -/
def sharedGroup (groups : List (List Nat)) (i j : Nat) : Nat :=
  ((List.range groups.length).find? fun g => g ≠ 0 && (groups.getD g []).contains i && (groups.getD g []).contains j).getD 0

/-- The faulted core and every member of its groups other than 0. -/
def frozenSet (groups : List (List Nat)) (k : Nat) : List Nat :=
  (groups.getD 0 []).filter fun i => i = k || sharedGroup groups k i ≠ 0

/-- The payload of kind 0x10. -/
def faultPayload (cause : BitVec 8) (g : Nat) (val : Word) : Word :=
  BitVec.ofNat 64 (cause.toNat * 2 ^ 56 + g % 256 * 2 ^ 48 + val.toNat % 2 ^ 48)

/-- FREEZE to the faulted core and the members of its groups, kind 0x10 to the other cores of the launch that run or have
halted; the launch will end with REASON 5 and the first fault. -/
def execGroupFaultHandling (k : CoreIx) (s : State) : Out :=
  if !s.sched.faults.contains k then ok s
  else
    let s := { s with sched := { s.sched with faults := s.sched.faults.filter (· ≠ k) } }
    match s.launchOf k, (s.core k).slot.fatal with
    | some l, some (cause, val) =>
      let s := if l.reason = 0 then s.setLaunch { l with reason := 5, cause := cause, core := BitVec.ofNat 12 k.val } else s
      let s := (frozenSet l.groups k.val).foldl (fun s i => s.doFreeze (toCore i) (s.hartRec (toCore i))) s
      let told (i : CoreIx) : Bool :=
        (s.core i).slot.lid == l.lid && ((s.core i).slot.st = .running || (s.core i).slot.st = .stopping || (s.core i).slot.st = .halted)
      ok ((s.listed.filter told).foldl (fun s i =>
        s.place i [mkMsg 0x10 0 k.val 0 (faultPayload cause (sharedGroup l.groups k.val i.val) val)] .keep) s)
    | _, _ => ok s

/-! ## The end of a launch that has run (R71) -/

/-- Whether the engines of a core have ended what it started: transfers, and sends answered. -/
def Core.enginesDone (c : Core) : Bool :=
  (c.eng.copies.all (·.ended)) && c.eng.sends.all fun r => c.sendHeld r.handle

/-- Whether an access, an exchange transfer or a posted chunk of a core is still under way: the end of its launch releases every write
(R71). -/
def State.writing (s : State) (i : CoreIx) : Bool :=
  s.accPending i || (s.xfers.any fun x => x.src = i) || (s.posts.any fun p => p.core = i)

/-- Whether a store of a core that its launch has left is still on its way. -/
def State.leftOf (s : State) (lid : BitVec 16) : Bool := s.net.any fun r => match r.src with | .left _ l => l == lid | _ => false

/-- Whether every send of a launch's saved cores is answered. -/
def State.savedDone (s : State) (lid : BitVec 16) : Bool :=
  (s.savesOf lid).all fun v => v.core.eng.sends.all fun r => v.held.any fun x => x.act = .freeSend r.handle

/-- Every condition of R71. For a launch whose slots were released the first one is that every slot is IDLE. A launch that is half saved does
not end: it returns to READY (R72), unless a core of it has faulted. -/
def State.mayEnd (s : State) (l : Launch) : Bool :=
  let cores := s.boundOf l.lid
  l.st = .running &&
  (if l.reason = 6 || l.reason = 2 then cores.isEmpty
   else (!cores.isEmpty && (l.reason = 5 || (s.savesOf l.lid).isEmpty)
     && cores.all fun i => (s.core i).slot.st = .halted || (s.core i).slot.st = .frozen))
    && (cores.all fun i => (s.core i).enginesDone && !s.writing i)
    && s.savedDone l.lid && !s.leftOf l.lid && !s.marketBusy l.lid && !s.playing l.ctx

/-- The launch ends: RELEASE to every slot, receives and completions that could not be placed are gone, the completion's status
and end word are known. Every write of its cores and engines has been performed by then. -/
def execLaunchEnd (lid : BitVec 16) (s : State) : Out :=
  match s.launch lid with
  | none => ok s
  | some l => if s.mayEnd l then ok ((s.releaseLaunch lid).endLaunch l) else ok s

/-! ## Cancellation (R71, spec/04 R62) -/

/-- A launch is cancelled: withdrawn where it has not run, else released; it ends with REASON 6. Of a saved one no slot is bound. -/
def State.cancelLaunch (s : State) (l : Launch) : State :=
  if l.st = .running || l.saved then
    ((s.setLaunch { l with st := .running, reason := 6, cancelAt := some s.now }).releaseLaunch l.lid)
  else s.failLaunch l 6

end Sys2Proof.Machine
end

