-- ==== Sys2Proof/Machine/Host.lean ====
section
/-!
DEFINITION. The host port (spec/04): negotiation, the queue interfaces and their notify pages, packets from fetch to
completion, PUT and GET by chunks, cancellation, revocation, resets, address translation and link security.
-/

namespace Sys2Proof.Machine

/-! ## Negotiation (R54, R55) -/

/-- Whether a feature of word 0 is accepted. -/
def State.feature (s : State) (i : Nat) : Bool := s.host.featOk && bit s.host.featDrv[(0 : Fin 4)] i

/-- Whether every accepted bit is offered, BASE is accepted, and PRI is not accepted without ATS. -/
def featuresGood (drv : Vector Word 4) : Bool :=
  let w := drv[(0 : Fin 4)]
  ((List.finRange 4).all fun i => drv[i] &&& ~~~(Config.featDev (BitVec.ofNat 2 i.val)) == 0) && bit w 0 && (!bit w 2 || bit w 1)

/-- The driver writes FEATURES_OK = 1. -/
def execFeaturesOk (s : State) : Out :=
  if !s.host.ready then ok s
  else
    let good := featuresGood s.host.featDrv
    ok { s with host := { s.host with featOk := good, featBad := !good } }

/-! ## Notify pages (R53) -/

def Qi.sqSize (q : Qi) : Nat := 2 ^ q.sqLog2.toNat
def Qi.cqSize (q : Qi) : Nat := 2 ^ q.cqLog2.toNat

/-- A write of SQ_TAIL: ignored unless ACTIVE, ignored and counted where it names no index of the ring. -/
def execSqTail (q : Fin 64) (val : BitVec 32) (s : State) : Out :=
  let x := s.qi q
  if x.st ≠ .active then ok s
  else if x.sqSize ≤ val.toNat || 65536 ≤ val.toNat then ok (s.setQi q { x with errors := x.errors + 1 })
  else ok (s.setQi q { x with sqTail := val })

def execCqHead (q : Fin 64) (val : BitVec 32) (s : State) : Out :=
  let x := s.qi q
  if x.st ≠ .active then ok s
  else if x.cqSize ≤ val.toNat || 65536 ≤ val.toNat then ok (s.setQi q { x with errors := x.errors + 1 })
  else ok (s.setQi q { x with cqHead := val })

/-! ## Completions (R63) -/

def State.hostOut (s : State) (o : HostWrite) : State := { s with host := { s.host with out := s.host.out ++ [o] } }

/-- A vector of the MSI-X table after reset: masked, as the standard has it (log 100). -/
def MsixVector.reset : MsixVector := { addr := 0, data := 0, masked := true }

def State.vector (s : State) (n : Nat) : MsixVector := look MsixVector.reset s.host.msix n

/-- Vector q is raised: its message is sent, or stays pending while the vector is masked. -/
def State.raise (s : State) (q : Fin 64) : State :=
  if (s.vector q.val).masked then
    (if s.host.pba.contains q.val then s else { s with host := { s.host with pba := s.host.pba ++ [q.val] } })
  else s.hostOut (.msix q)

/-! ## The ATC (R50, R59, R60) -/

/-- The page of an I/O virtual address. -/
def pageOf (a : Word) : Word := a &&& ~~~0xFFF

/-- Whether an interface stands REVOKED with a PASID: no host access is made under it (R59; log 104). -/
def State.revoked (s : State) (pasid : BitVec 20) : Bool := s.host.qis.any fun e => e.2.st = .revoked && e.2.pasid == pasid

/-- A translation enters the ATC of 2,048 entries, where ATS is accepted. -/
def State.cacheXlat (s : State) (pasid : BitVec 20) (iova : Word) : State :=
  if s.feature 1 && !s.revoked pasid then
    let e := (pasid, pageOf iova)
    { s with host := { s.host with atc := (e :: s.host.atc.erase e).take 2048 } }
  else s

/-- The translations that n bytes from an address on need: of one page or of two. -/
def State.cacheRange (s : State) (pasid : BitVec 20) (iova : Word) (n : Nat) : State :=
  let last := iova + BitVec.ofNat 64 (n - 1)
  let s := s.cacheXlat pasid iova
  if pageOf last = pageOf iova then s else s.cacheXlat pasid last

/-- Whether the ATC holds the translation of an address: the host is not asked for it. -/
def State.inAtc (s : State) (pasid : BitVec 20) (iova : Word) : Bool := s.feature 1 && s.host.atc.contains (pasid, pageOf iova)

/-- Write a completion entry at CQ_TAIL, after every data write; an error sets ERR; vector q is raised where IEN is set. In the
fatal state none is written (spec/06 R91). -/
def State.writeCompletion (s : State) (q : Fin 64) (tag : BitVec 16) (op : Nat) (st : BitVec 8) (res : Word) : State :=
  let x := s.qi q
  let w0 := BitVec.ofNat 64 ((if x.cqPass % 2 = 0 then 1 else 0) + st.toNat * 2 ^ 8 + op % 256 * 2 ^ 24
              + x.sqHead % 65536 * 2 ^ 32 + tag.toNat * 2 ^ 48)
  let next := (x.cqTail + 1) % x.cqSize
  let y := { x with cqTail := next, cqPass := if next = 0 then x.cqPass + 1 else x.cqPass, err := if st = 0 then x.err else st }
  if s.mgmt.fatal.isSome then s else
  let s := ((s.setQi q y).cacheXlat x.pasid (x.cqBase + BitVec.ofNat 64 (16 * x.cqTail))).hostOut (.completion q x.cqTail w0 res)
  if x.ien then s.raise q else s

/-- The last completion of an interface that closes has been written: it is DISABLED. -/
def State.closeQi (s : State) (q : Fin 64) : State :=
  let x := s.qi q
  if x.closing && x.packets.isEmpty then s.setQi q { x with st := .disabled, closing := false, rereadAt := none } else s

/-- A CANCEL completes after every packet it acts on (R62); one that was not performed acts on none. -/
def Qi.cancelDone (x : Qi) (p : Packet) : Bool :=
  p.op ≠ 4 || (match p.result with | some (st, _) => st ≠ 0 | none => false) || x.packets.all fun e => p.seq ≤ e.seq || e.op = 4 || e.tag.toNat ≠ bits (p.words.getD 1 0) 0 16

/-- Whether a packet that has finished before another still awaits its completion: completions go out in the order of finishing (R63). -/
def Qi.finishedBefore (x : Qi) (p : Packet) : Bool := x.packets.any fun e => e.result.isSome && e.fin < p.fin && x.cancelDone e

/-- The completion of a packet whose work has finished is written, after those that finished before it. -/
def State.completePacket (s : State) (q : Fin 64) (n : Nat) : State :=
  let x := s.qi q
  match x.packet n with
  | none => s
  | some p =>
    match p.result with
    | none => s
    | some (st, res) =>
      if x.cancelDone p && !x.finishedBefore p then
        (((s.setQi q { x with packets := x.packets.filter (·.seq ≠ n) }).writeCompletion q p.tag p.op st res)).closeQi q
      else s

def execPacketCompletion (q : Fin 64) (n : Nat) (s : State) : Out := ok (s.completePacket q n)

/-! ## Fetching (R57, R59) -/

/-- CRC-16 with polynomial 0x1021, a bit at a time from the top of each byte. -/
def crcBit (c : Nat) (b : Bool) : Nat :=
  let top := 32768 ≤ c
  let c := 2 * c % 65536
  if top ≠ b then c ^^^ 0x1021 else c

def crcByte (c : Nat) (b : Nat) : Nat := (List.range 8).foldl (fun c i => crcBit c (b.testBit (7 - i))) c

/-- The CRC of the first n bytes of a packet. -/
def crc16 (bytes : BitVec 512) (n : Nat) : Nat := (List.range n).foldl (fun c i => crcByte c (elem bytes 1 i)) 0xFFFF

/-- Whether the bytes are a packet with the phase of a pass. -/
def packetValid (bytes : BitVec 512) (pass : Nat) : Bool :=
  bit (dw bytes 0) 40 == (pass % 2 == 0) && crc16 bytes 62 == bits (dw bytes 7) 48 16

/-- Whether the fields of a packet keep the rules of R57. -/
def packetFormed (ws : List Word) : Bool :=
  let w (i : Nat) : Word := ws.getD i 0
  let op := bits (w 0) 0 8
  let ndep := bits (w 0) 44 4
  bits (w 0) 8 11 == 0 && bits (w 7) 0 48 == 0 && w 5 == 0 && w 6 == 0 && (op == 3 || (ndep == 0 && bits (w 0) 41 3 == 0)) &&
  (if op = 0 then w 1 == 0 && w 2 == 0 && w 3 == 0 && w 4 == 0
   else if op = 1 || op = 2 then (op == 2 || bits (w 2) 48 16 == 0) && bits (w 3) 32 32 == 0 && bits (w 3) 0 32 ≠ 0 && w 4 == 0
   else if op = 3 then
     ndep ≤ 8 && (List.range 8).all fun i => i < ndep || bits (w (3 + i / 4)) (16 * (i % 4)) 16 == 0
   else if op = 4 then bits (w 1) 16 48 == 0 && w 2 == 0 && w 3 == 0 && w 4 == 0
   else false)

/-- A PASID refusal is logged (R59). The spec names no log for it: the model keeps a list of its own, of interfaces and packet numbers
(DESIGN CHOICE, log 113). -/
def State.logRefusal (s : State) (q : Fin 64) (n : Nat) : State :=
  { s with host := { s.host with refusals := s.host.refusals ++ [(q.val, n)] } }

/-- A valid packet is taken: SQ_HEAD moves on; a foreign PASID or a malformed packet ends it at once, and sets the FAILED bit of a LAUNCH's
TAG (R61). -/
def State.takePacket (s : State) (q : Fin 64) (bytes : BitVec 512) : State :=
  let x := s.qi q
  let ws := (List.range 8).map (dw bytes)
  let n := x.nextSeq
  let foreign := bits (ws.getD 0 0) 20 20 ≠ x.pasid.toNat
  let res : Option (BitVec 8 × Word) := if foreign then some (1, 0) else if packetFormed ws then none else some (3, 0)
  let p : Packet := { seq := n, words := ws, started := false, moved := 0, retried := [], waitPage := none,
                      result := res, fin := s.nextId }
  let next := (x.sqHead + 1) % x.sqSize
  let y := { x with sqHead := next, sqPass := if next = 0 then x.sqPass + 1 else x.sqPass, nextSeq := n + 1,
                    packets := x.packets ++ [p], rereads := 0, rereadAt := none }
  let s := ({ s with nextId := s.nextId + 1 }.cacheXlat x.pasid (x.sqBase + BitVec.ofNat 64 (64 * x.sqHead))).setQi q y
  let s := if p.op = 3 && res.isSome then s.markTag q p.tag 1 else s
  if foreign then s.logRefusal q n else s

/-- Completion-ring entries in use; a full ring keeps one entry free, as its indices could not tell it from an empty one
(log 40). -/
def Qi.cqUsed (x : Qi) : Nat := (x.cqTail + x.cqSize - x.cqHead.toNat % x.cqSize) % x.cqSize

/-- Whether the interface fetches: ACTIVE, packets before the tail, at most 32 in work, an entry for each completion. -/
def Qi.mayFetch (x : Qi) : Bool :=
  x.st = .active && !x.closing && x.sqHead ≠ x.sqTail.toNat && x.packets.length < 32
    && x.packets.length + x.cqUsed + 1 < x.cqSize

/-- The device reads the packet at SQ_HEAD and finds these bytes. -/
def execPacketFetch (q : Fin 64) (bytes : BitVec 512) (s : State) : Out :=
  let x := s.qi q
  if !x.mayFetch || x.rereadAt.isSome || s.revoked x.pasid then ok s
  else if packetValid bytes x.sqPass then ok (s.takePacket q bytes)
  else ok (s.setQi q { x with rereadAt := some s.now, rereads := 0 })

/-- An invalid packet is read again 1 µs later, up to eight times; then the interface is in ERROR with status 2 and the failing
index. -/
def execPacketReread (q : Fin 64) (bytes : BitVec 512) (s : State) : Out :=
  let x := s.qi q
  match x.rereadAt with
  | none => ok s
  | some t =>
    if x.st ≠ .active || x.closing || s.revoked x.pasid || s.now < t + Config.ticksPerUs then ok s
    else if packetValid bytes x.sqPass then ok (s.takePacket q bytes)
    else if x.rereads + 1 < 8 then ok (s.setQi q { x with rereadAt := some s.now, rereads := x.rereads + 1 })
    else
      ok ((s.setQi q { x with st := .error, rereadAt := none, rereads := 8 }).writeCompletion q 0 0 2 (BitVec.ofNat 64 x.sqHead))

/-! ## Packets (R57, R58, R60 to R62) -/

def execNopPacket (q : Fin 64) (n : Nat) (s : State) : Out :=
  match s.startable q n 0 with
  | none => ok s
  | some p => ok ((s.setPacket q { p with started := true }).finishPacket q n 0 0)

/-- A PUT or a GET starts; its chunks follow. -/
def State.startMove (s : State) (q : Fin 64) (n op : Nat) : Out :=
  match s.startable q n op with
  | none => ok s
  | some p => ok (s.setPacket q { p with started := true })

def execPut (q : Fin 64) (n : Nat) (s : State) : Out := s.startMove q n 1
def execGet (q : Fin 64) (n : Nat) (s : State) : Out := s.startMove q n 2

/-- LEN of a transfer. -/
def Packet.len (p : Packet) : Nat := bits (p.words.getD 3 0) 0 32

/-- The accessor of a packet's transfer (spec/08 R121). -/
def packetAcc (ctx : BitVec 12) : Acc :=
  { ctx := ctx, cl := none, core := 0, src := 4, row := .host, cls := .ord, eng := true }

/-- Write bytes of a PUT one after the other, up to the first that fails: its address. -/
def State.moveIn (a : Acc) : List Byte → State → Word → State × Except (Option Word) Unit
  | [], s, _ => (s, .ok ())
  | b :: r, s, ga =>
    if !s.movable a true ga then (s.logPacket ga, .error (some ga))
    else
      match s.engWrite a ga 1 b.toNat with
      | (s', .error .wait) => (s', .error none)
      | (s, .error _) => (s, .error (some ga))
      | (s, .ok ()) => State.moveIn a r s (ga + 1)

/-- Read n bytes for a GET. -/
def State.moveOut (a : Acc) : Nat → State → Word → State × Except (Option Word) (List Byte)
  | 0, s, _ => (s, .ok [])
  | n + 1, s, ga =>
    if !s.movable a false ga then (s.logPacket ga, .error (some ga))
    else
      match s.engRead a ga 1 with
      | (s', .error .wait) => (s', .error none)
      | (s, .error _) => (s, .error (some ga))
      | (s, .ok b) =>
        match State.moveOut a n s (ga + 1) with
        | (s, .error e) => (s, .error e)
        | (s, .ok r) => (s, .ok (BitVec.ofNat 8 b :: r))

/-- The length of the next chunk. A chunk ends at a multiple of 4 KiB of its destination, so that no aligned 8-byte word lies in two chunks
and none is torn (R61; log 111). -/
def Packet.chunk (p : Packet) : Nat :=
  let dst := (p.words.getD (if p.op = 1 then 2 else 1) 0).toNat + p.moved
  min (4096 - dst % 4096) (p.len - p.moved)

/-- A chunk has moved: it is charged; the last one ends the packet with LEN. -/
def State.chunkMoved (s : State) (q : Fin 64) (p : Packet) (n : Nat) : State :=
  let s := (s.charge (s.qi q).ctx 14 n).setPacket q { p with moved := p.moved + n, retried := [] }
  if p.moved + n = p.len then s.finishPacket q p.seq 0 (BitVec.ofNat 64 p.len) else s

/-- The host grants no access at an address whose translation the ATC does not hold: one page request for each page where PRI is accepted and
256 are not outstanding; else the packet fails with status 4. -/
def State.hostRefuses (s : State) (q : Fin 64) (p : Packet) (iova : Word) : State :=
  if s.inAtc (s.qi q).pasid iova then s
  else if s.feature 2 && !p.retried.contains (pageOf iova) then
    if 256 ≤ s.host.pageReqs.length then s
    else
      let s := s.setPacket q { p with waitPage := some iova }
      let s := { s with host := { s.host with pageReqs := s.host.pageReqs ++ [(q.val, pageOf iova)] } }
      s.hostOut (.pageRequest (s.qi q).pasid (pageOf iova))
  else s.finishPacket q p.seq 4 iova

/-- The next chunk of a running PUT or GET, with what the host does about it. -/
def execPutGetChunk (q : Fin 64) (n : Nat) (h : HostAccess) (s : State) : Out :=
  match (s.qi q).packet n with
  | none => ok s
  | some p =>
    if !p.started || p.result.isSome || p.waitPage.isSome || (p.op ≠ 1 && p.op ≠ 2) || s.revoked (s.qi q).pasid then ok s
    else
      let a := packetAcc (s.qi q).ctx
      let size := p.chunk
      let iova := p.words.getD 1 0 + BitVec.ofNat 64 p.moved
      let ga := p.words.getD 2 0 + BitVec.ofNat 64 p.moved
      match h with
      | .noAccess i => ok (s.hostRefuses q p i)
      | .needsPage i => ok (s.hostRefuses q p i)
      | .data bytes =>
        let s := s.cacheRange (s.qi q).pasid iova size
        if p.op = 1 then
          match State.moveIn a ((List.range size).map fun i => bytes.getD i 0) s ga with
          | (s', .error none) => ok (s.stall s')
          | (s, .error (some f)) => ok (s.finishPacket q n 5 f)
          | (s, .ok ()) => ok (s.chunkMoved q p size)
        else
          match State.moveOut a size s ga with
          | (s', .error none) => ok (s.stall s')
          | (s, .error (some f)) => ok (s.finishPacket q n 5 f)
          | (s, .ok bs) => ok ((s.hostOut (.data q iova bs)).chunkMoved q p size)

/-- Cancel a packet that has not finished (R62); a LAUNCH that is withdrawn sets its TAG's FAILED bit. -/
def State.cancelPacket (s : State) (q : Fin 64) (p : Packet) : State :=
  if p.result.isSome then s
  else if !p.started then (if p.op = 3 then s.markTag q p.tag 6 else s).finishPacket q p.seq 6 0
  else if p.op = 3 then
    match s.sched.launches.find? fun l => l.queue = q && l.pseq = p.seq && l.st ≠ .ended with
    | some l => if l.cancelAt.isSome then s else s.cancelLaunch l
    | none => s
  else s.finishPacket q p.seq 6 (BitVec.ofNat 64 p.moved)

/-- CANCEL: every earlier packet of the target TAG that has not completed, itself no CANCEL. -/
def execCancel (q : Fin 64) (n : Nat) (s : State) : Out :=
  match s.startable q n 4 with
  | none => ok s
  | some p =>
    let hit (e : Packet) : Bool := e.seq < n && e.op ≠ 4 && e.tag.toNat = bits (p.words.getD 1 0) 0 16
    let l := (s.qi q).packets.filter hit
    let s := l.foldl (fun s e => s.cancelPacket q e) (s.setPacket q { p with started := true })
    ok (s.finishPacket q n 0 (if l.isEmpty then 1 else 0))

/-! ## States of an interface (R56, R59) -/

def Qi.logsOk (x : Qi) (big : Bool) : Bool :=
  let m := if big then 16 else 12
  6 ≤ x.sqLog2.toNat && x.sqLog2.toNat ≤ m && 6 ≤ x.cqLog2.toNat && x.cqLog2.toNat ≤ m

/-- EN := 1. A DISABLED interface whose fields are in range becomes ACTIVE with its indices and pass counters at 0; the notify
registers are 0 with them (log 41). -/
def State.enableQi (s : State) (q : Fin 64) : State :=
  let x := s.qi q
  if x.st ≠ .disabled then s
  else if s.host.featOk && x.logsOk (s.feature 4) then
    s.setQi q { x with st := .active, sqHead := 0, cqTail := 0, sqPass := 0, cqPass := 0, sqTail := 0, cqHead := 0,
                       failed := [], rereadAt := none, rereads := 0, nextSeq := 0, packets := [], past := [] }
  else s.setQi q { x with err := 3 }

def execQiEnable (q : Fin 64) (s : State) : Out := ok (s.enableQi q)

/-- Cancel everything that an interface submitted and write what is complete. -/
def State.cancelAll (s : State) (q : Fin 64) : State := (s.qi q).packets.foldl (fun s p => s.cancelPacket q p) s

/-- EN := 0: everything submitted is cancelled; the interface is DISABLED once its pending completions are written. -/
def State.disableQi (s : State) (q : Fin 64) : State :=
  if (s.qi q).st = .disabled then s
  else
    let s := s.cancelAll q
    let s := s.setQi q { s.qi q with closing := true, rereadAt := none }
    let l := (s.qi q).packets.map (·.seq)
    ((List.range l.length).foldl (fun s _ => l.foldl (fun s n => s.completePacket q n) s) s).closeQi q

def execQiDisable (q : Fin 64) (s : State) : Out := ok (s.disableQi q)

/-- Entries of a PASID leave the ATC. -/
def State.flushPasid (s : State) (p : BitVec 20) : State :=
  { s with host := { s.host with atc := s.host.atc.filter fun e => e.1 != p } }

/-- A packet that has not started, or the launch of one that no bind has started, ends with status 1 and is logged (R59; log 117). -/
def State.refusePacket (s : State) (q : Fin 64) (p : Packet) : Option State :=
  if !p.started then some (((if p.op = 3 then s.markTag q p.tag 1 else s).finishPacket q p.seq 1 0).logRefusal q p.seq)
  else
    (s.sched.launches.find? fun l => l.queue = q && l.pseq = p.seq && (l.st = .pending || l.st = .ready) && !l.saved).map fun l =>
      (s.closeLaunch l 1 0).logRefusal q p.seq

/-- REVOKE := 1: what has not started ends with status 1 and is logged, what has started is cancelled, and the PASID's entries
leave the ATC. -/
def State.revokeQi (s : State) (q : Fin 64) : State :=
  let x := s.qi q
  if x.st ≠ .active && x.st ≠ .error then s
  else
    let s := s.setQi q { x with st := .revoked, rereadAt := none }
    let s := x.packets.foldl (fun s p =>
      if p.result.isSome then s else (s.refusePacket q p).getD (s.cancelPacket q p)) s
    s.flushPasid x.pasid

def execRevoke (q : Fin 64) (s : State) : Out := ok (s.revokeQi q)

/-! ## Resets (R54) -/

def queues : List (Fin 64) := List.finRange 64

/-- Every interface is disabled, every accepted feature cleared and with IDE_SEL the bindings of its streams, everything submitted cancelled,
the ATC emptied. -/
def State.resetHost (s : State) : State :=
  let s := queues.foldl State.disableQi s
  { s with host := { s.host with featDrv := Vector.replicate 4 0, featOk := false, featBad := false, atc := [], streams := [] } }

def execFunctionReset (s : State) : Out := ok s.resetHost
def execFunctionLevelReset (s : State) : Out := ok s.resetHost

/-! ## Link security and translation (R50, R52, R60) -/

/-- An interface whose traffic used a failed stream is in ERROR with status 9; the event is logged. The spec gives no TAG and no OP of this
completion, and no OP of the one with status 2: the model writes 0 (DESIGN CHOICE, log 112). -/
def State.ideError (s : State) (q : Fin 64) : State :=
  let x := s.qi q
  let s := if x.st = .active then (s.setQi q { x with st := .error, rereadAt := none }).writeCompletion q 0 0 9 0 else s
  s.logEvent 7 q.val

/-- The stream that an interface's traffic uses: the selective one it is bound to while IDE_SEL is accepted (R55), or the link stream. -/
def State.streamOf (s : State) (q : Fin 64) : Option (Fin 4) := if s.feature 3 then lookup s.host.streams q.val else none

/-- Whether an interface has had traffic since it was enabled: it has read its ring. -/
def Qi.hadTraffic (x : Qi) : Bool := x.nextSeq ≠ 0 || x.rereadAt.isSome

/-- Whether traffic of an interface used a stream: the one it uses, or one that it used before it was bound anew. -/
def State.usedStream (s : State) (q : Fin 64) (stream : Option (Fin 4)) : Bool :=
  let x := s.qi q
  x.st ≠ .disabled && ((x.hadTraffic && s.streamOf q = stream) || x.past.contains stream)

/-- An interface is bound to a selective stream, or to none: only once IDE_SEL is accepted (R55). -/
def State.bindStream (s : State) (q : Fin 64) (stream : Option (Fin 4)) : State :=
  let x := s.qi q
  let s := if x.hadTraffic then s.setQi q { x with past := s.streamOf q :: x.past } else s
  match stream with
  | none => { s with host := { s.host with streams := drop s.host.streams q.val } }
  | some n => if s.feature 3 then { s with host := { s.host with streams := put s.host.streams q.val n } } else s

/-- The packet is gone; every interface whose traffic used the stream is in ERROR and logged: those that have read their rings, and those among
`qs` whose first packet the failing one is. The failure of a stream without one, and that of the link stream, is logged as 0xFF (log 105).
Without IDE_SEL there is no selective stream. -/
def execIdeIntegrityFailure (stream : Option (Fin 4)) (qs : List (Fin 64)) (s : State) : Out :=
  if stream.isSome && !s.feature 3 then ok s
  else
    let used := (List.finRange 64).filter fun q => s.usedStream q stream || (qs.contains q && s.streamOf q = stream)
    let s := used.foldl State.ideError s
    ok (if stream.isNone || used.isEmpty then s.logEvent 7 0xFF else s)

/-- Invalidated entries leave the ATC, and the invalidation completes: every host access that used them has been sent. -/
def execAtsInvalidation (pasid : BitVec 20) (page : Word) (s : State) : Out :=
  let s := { s with host := { s.host with atc := s.host.atc.filter fun e => !(e.1 == pasid && e.2 == pageOf page) } }
  ok (s.hostOut (.invalidated pasid (pageOf page)))

/-- A page request is answered: the packets that wait for the page go on once, or fail. -/
def execPageRequestResponse (q : Fin 64) (page : Word) (success : Bool) (s : State) : Out :=
  if s.host.pageReqs.contains (q.val, pageOf page) then
    let s := { s with host := { s.host with pageReqs := s.host.pageReqs.erase (q.val, pageOf page) } }
    ok ((s.qi q).packets.foldl (fun s p =>
      match p.waitPage with
      | some i =>
        if pageOf i ≠ pageOf page then s
        else if success then s.setPacket q { p with waitPage := none, retried := pageOf page :: p.retried }
        else s.finishPacket q p.seq 4 i
      | none => s) s)
  else ok s

end Sys2Proof.Machine
end

