-- ==== Sys2Proof/Machine/Convoy.lean ====
section
/-!
DEFINITION. The Convoy Sequencer (spec/03 R38 to R48, spec/17 R298, R299, spec/21 R315, R316): arming, plays, operations,
chunks, reduction, triggers and timeouts.
-/

namespace Sys2Proof.Machine

/-! ## Fields (R39) -/

def ConvOp.kind (o : ConvOp) : Nat := bits o.w0 60 4
def ConvOp.alu (o : ConvOp) : Nat := bits o.w0 56 4
def ConvOp.nn (o : ConvOp) : Bool := bit o.w0 55
def ConvOp.slot (o : ConvOp) : Nat := bits o.w0 48 6
def ConvOp.dep (o : ConvOp) : Nat := bits o.w0 36 12
def ConvOp.nsucc (o : ConvOp) : Nat := bits o.w0 10 2
def ConvOp.succs (o : ConvOp) : List Nat := [bits o.w0 24 12, bits o.w0 12 12].take o.nsucc
def ConvOp.len (o : ConvOp) : Nat := 64 * bits o.w1 45 13
def ConvOp.peer (o : ConvOp) : Nat := bits o.w1 39 6
def ConvOp.ncontrib (o : ConvOp) : Nat := bits o.w1 34 5
def ConvOp.rop (o : ConvOp) : Nat := bits o.w1 22 12
def ConvOp.cidx (o : ConvOp) : Nat := bits o.w1 9 4
def ConvOp.trig (o : ConvOp) : Option (Fin 256) := if bit o.w1 21 then some (Fin.ofNat 256 (bits o.w1 13 8)) else none
def ConvOp.soff (o : ConvOp) : Nat := bits o.w2 32 32
def ConvOp.doff (o : ConvOp) : Nat := bits o.w2 0 32
def ConvOp.src (o : ConvOp) (bases : List Word) : Word := bases.getD (bits o.w1 61 3) 0 + BitVec.ofNat 64 o.soff
def ConvOp.dst (o : ConvOp) (bases : List Word) : Word := bases.getD (bits o.w1 58 3) 0 + BitVec.ofNat 64 o.doff

def Graph.nops (g : Graph) : Nat := bits g.header 32 16
def Graph.npeers (g : Graph) : Nat := bits g.header 24 8
def Graph.ntrig (g : Graph) : Nat := bits g.header 16 8
def Graph.trigBase (g : Graph) : Nat := bits g.header 8 8
def Graph.op (g : Graph) (i : Nat) : ConvOp := g.ops.getD i { w0 := 0, w1 := 0, w2 := 0 }

/-- The device of a peer-list entry. -/
def Graph.dev (g : Graph) (i : Nat) : Nat := g.peers.getD i 0

def State.graph (s : State) (g : Fin 16) : Option Graph := lookup s.convoy.graphs g.val
def State.setGraph (s : State) (g : Fin 16) (x : Graph) : State :=
  { s with convoy := { s.convoy with graphs := put s.convoy.graphs g.val x } }
def State.dropGraph (s : State) (g : Fin 16) : State :=
  { s with convoy := { s.convoy with graphs := drop s.convoy.graphs g.val } }

/-- CV_TIMEOUT in ticks (R44). -/
def State.cvTicks (s : State) : Nat := toTicks s.dev.cvTimeout

def Graph.idle (g : Graph) : Bool := g.run.isNone && g.queued.isNone

/-- The accessor of a graph (R41): the Copy Engine's rules for what it reads and copies, the convoy's row where it lands. Its class is
.adp (log 101). -/
def Graph.acc (g : Graph) (r : AccRow) : Acc :=
  { ctx := g.ctx, cl := none, core := g.core.val, src := 2, row := r, cls := .adp, eng := true }

/-! ## Moving bytes -/

/-- What an operation can do: it goes on; or, while a token moves under it, nothing but take its place in a retry list. -/
abbrev Tried := Except State State

/-- Read n bytes, or the address that fails and how. -/
def State.readAll (a : Acc) : Nat → State → Word → State × Except (Word × AccErr) (List Byte)
  | 0, s, _ => (s, .ok [])
  | n + 1, s, ga =>
    match s.engRead a ga 1 with
    | (s, .error e) => (s, .error (ga, e))
    | (s, .ok b) =>
      match State.readAll a n s (ga + 1) with
      | (s, .error e) => (s, .error e)
      | (s, .ok r) => (s, .ok (BitVec.ofNat 8 b :: r))

def State.writeAll (a : Acc) : List Byte → State → Word → State × Except (Word × AccErr) Unit
  | [], s, _ => (s, .ok ())
  | b :: r, s, ga =>
    match s.engWrite a ga 1 b.toNat with
    | (s, .error e) => (s, .error (ga, e))
    | (s, .ok ()) => State.writeAll a r s (ga + 1)

/-- Cause of R47: 4 a translation fault, 5 an error response. -/
def faultCause (e : AccErr) : BitVec 4 := match e with | .fault => 4 | _ => 5

/-! ## Arming (R38 to R40, R45, R298) -/

/-- Kind 0x41 to the core that arms, or to its record. -/
def State.armDone (s : State) (g : Fin 16) (r : ArmReq) (st : Nat) (payload : Nat) : State :=
  s.placeFor r.core r.lid [mkMsg 0x41 st g.val 0 (BitVec.ofNat 64 payload)] .keep

/-- The header of an image. -/
def graphHeadOk (ws : List Word) : Bool :=
  let w := ws.getD 0 0
  bits w 48 16 == 0 && 1 ≤ bits w 32 16 && bits w 32 16 ≤ 4096 && 1 ≤ bits w 24 8 && bits w 24 8 ≤ 64 && bits w 16 8 ≤ 16
    && bits w 8 8 + bits w 16 8 ≤ 256 && bits w 0 8 == 1 && (ws.drop 1).all (· == 0)

/-- An operation record by R40. -/
def opOk (own nops npeers : Nat) (peers : List Nat) (w3 : Word) (o : ConvOp) : Bool :=
  let red := o.kind == 3
  let last := o.peer + (if red then o.ncontrib - 1 else 0)
  o.kind ≤ 4 && o.alu ≤ 9 && (red || o.alu == 0) && !bit o.w0 54 && bits o.w0 0 10 == 0 && o.nsucc ≠ 3 && bits o.w1 0 9 == 0
    && w3 == 0 && (o.succs.all (· < nops)) && 64 ≤ o.len && o.len ≤ 262144 && o.soff % 64 == 0 && o.doff % 64 == 0
    && !(o.nn && (o.alu ≤ 1 || o.alu == 6 || o.alu == 7)) && (!red || (1 ≤ o.ncontrib && o.ncontrib ≤ 16)) && last < npeers
    && !(red && o.cidx < o.ncontrib && peers.getD (o.peer + o.cidx) 0 ≠ own)

/-- A trigger entry: its kind, and its zero bits. -/
def trigOk (t : BitVec 128) : Bool := t.toNat / 2 ^ 60 % 16 ≤ 2 && t.toNat / 2 ^ 64 == 0 && t.toNat % 2 ^ 48 == 0

/-- The lowest operation that breaks a rule; its four words come after one another. -/
def badOp (f : Word → ConvOp → Bool) : Nat → List Word → Option Nat
  | i, w0 :: w1 :: w2 :: w3 :: r => if f w3 { w0 := w0, w1 := w1, w2 := w2 } then badOp f (i + 1) r else some i
  | _, _ => none

def opsOf : List Word → List ConvOp
  | w0 :: w1 :: w2 :: _ :: r => { w0 := w0, w1 := w1, w2 := w2 } :: opsOf r
  | _ => []

def trigsOf : List Word → List (BitVec 128)
  | lo :: hi :: r => BitVec.ofNat 128 (lo.toNat + hi.toNat * 2 ^ 64) :: trigsOf r
  | _ => []

/-- Read n doublewords, or the address that fails and how. -/
def State.readDws (a : Acc) : Nat → State → Word → State × Except (Word × AccErr) (List Word)
  | 0, s, _ => (s, .ok [])
  | n + 1, s, ga =>
    match s.engRead a ga 8 with
    | (s, .error e) => (s, .error (ga, e))
    | (s, .ok w) =>
      match State.readDws a n s (ga + 8) with
      | (s, .error e) => (s, .error e)
      | (s, .ok r) => (s, .ok (BitVec.ofNat 64 w :: r))

/-- Entry i of the peer list of an image's words 8 to 23. -/
def peerEntry (ws : List Word) (i : Nat) : Nat := bits (ws.getD (8 + i / 4) 0) (16 * (i % 4)) 16

/-- The image as a graph, or the payload of status 7; `ws` are its header, peers, trigger entries and records. A play that a trigger
starts before the graph has had one takes eight zero bases (R45; log 101). -/
def graphOf (own : Nat) (r : ArmReq) (ws : List Word) : Except Nat Graph :=
  let h := ws.getD 0 0
  let nops := bits h 32 16
  let np := bits h 24 8
  let nt := bits h 16 8
  let peers := (List.range np).map (peerEntry ws)
  let trigs := trigsOf ((ws.drop 24).take (2 * nt))
  let recs := ws.drop (24 + 2 * nt)
  if peers.any (1024 ≤ ·) || !trigs.all trigOk then .error 0xFFF
  else
    match badOp (opOk own nops np peers) 0 recs with
    | some i => .error i
    | none =>
      .ok { ctx := r.ctx, core := r.core, lid := r.lid, armed := true, header := h, peers := peers, trigs := trigs, ops := opsOf recs,
            play := 0, run := none, ended := [], queued := none, bases := List.replicate 8 0, area := none, nextTrigs := [],
            discarded := 0 }

/-- Operations of the other graphs in the store of 16,384. -/
def State.storeUsed (s : State) (g : Fin 16) : Nat :=
  s.convoy.graphs.foldl (fun n x => if x.1 = g.val then n else n + x.2.ops.length) 0

/-- Whether a trigger entry of the new graph belongs to another armed graph. -/
def State.trigTaken (s : State) (g : Fin 16) (n : Graph) : Bool :=
  s.convoy.graphs.any fun x => x.1 ≠ g.val && x.2.armed && x.2.ntrig ≠ 0 && n.ntrig ≠ 0
    && n.trigBase < x.2.trigBase + x.2.ntrig && x.2.trigBase < n.trigBase + n.ntrig

/-- The slots held under keys of a graph are cleared. -/
def State.clearSlots (s : State) (g : Fin 16) : State :=
  { s with convoy := { s.convoy with
      slots := s.convoy.slots.filter fun r => match r.2.key with | some (x, _, _) => x ≠ g | none => true } }

/-- Read and check an image. -/
def State.armImage (s0 : State) (g : Fin 16) (r : ArmReq) : Tried :=
  let a : Acc := { ctx := r.ctx, cl := none, core := r.core.val, src := 2, row := .copy, cls := .adp, eng := true }
  let fault (s : State) (ga : Word) (e : AccErr) : State :=
    s.armDone g r 3 (0xFFF * 2 ^ 52 + (faultCause e).toNat * 2 ^ 48 + ga.toNat % 2 ^ 48)
  match State.readDws a 8 s0 r.image with
  | (s, .error (_, .wait)) => .error (s0.stall s)
  | (s, .error (ga, e)) => .ok (fault s ga e)
  | (s, .ok h) =>
    if !graphHeadOk h then .ok (s.armDone g r 7 (0xFFF * 2 ^ 52))
    else
      let w := h.getD 0 0
      match State.readDws a (16 + 2 * bits w 16 8 + 4 * bits w 32 16) s (r.image + 64) with
      | (s, .error (_, .wait)) => .error (s0.stall s)
      | (s, .error (ga, e)) => .ok (fault s ga e)
      | (s, .ok rest) =>
        match graphOf s.own r (h ++ rest) with
        | .error i => .ok (s.armDone g r 7 (i * 2 ^ 52))
        | .ok n =>
          -- R38 and R45 give no order of these two refusals (DESIGN CHOICE, log 101)
          if 16384 < s.storeUsed g + n.ops.length then .ok (s.armDone g r 5 0)
          else if s.trigTaken g n then .ok (s.armDone g r 6 0)
          else .ok (((s.clearSlots g).setGraph g n).armDone g r 0 0)

/-- The oldest arm request of a graph is decided. The spec gives no order of refusals that apply together: the model takes another context
(6) before busy (4), a malformed image (7) before no room (5) before a taken trigger entry (6). An ID whose context was released while its
old play still runs is held by no context: until that play ends the model answers every arm with 6 (DESIGN CHOICE, log 101). -/
def execConvoyArmComplete (g : Fin 16) (s : State) : Out :=
  match s.convoy.arms.find? (·.1 = g) with
  | none => ok s
  | some (_, r) =>
    let s1 := { s with convoy := { s.convoy with arms := s.convoy.arms.erase (g, r) } }
    let other := match s.graph g with | some x => x.ctx != r.ctx || !x.armed | none => false
    let busy := match s.graph g with | some x => !x.idle | none => false
    if other then ok (s1.armDone g r 6 0)
    else if busy then ok (s1.armDone g r 4 0)
    else if r.image = 0 then
      match s.graph g with
      | none => ok (s1.armDone g r 6 0)
      | some _ => ok (((s1.clearSlots g).dropGraph g).armDone g r 0 0)
    else
      match s1.armImage g r with
      | .ok s' => ok s'
      | .error s' => ok (s.stall s')

/-! ## Reduction (R43) -/

/-- Bytes of an element, and its format where it is a floating-point one. -/
def aluFmt (alu : Nat) : Nat × Option FpFmt :=
  if alu = 6 || alu = 7 then (4, none)
  else if alu = 1 || alu = 4 || alu = 5 || alu = 9 then (2, some bf16)
  else (4, some fp32)

/-- Larger or smaller, −0 below +0. -/
def pick (f : FpFmt) (larger : Bool) (a c : Nat) : Nat :=
  let va := fpDecode f a
  let vc := fpDecode f c
  let lt := cmpVal va vc == some .lt || (cmpVal va vc == some .eq && valNeg va && !valNeg vc)
  if lt == larger then c else a

/-- The canonical NaN. -/
def canonNan (e : Nat) : Nat := if e = 2 then 0x7FC0 else 0x7FC00000

/-- SUM in FP32 over values in FP32. -/
def sumFrom (acc : Nat) (fl : FpFlags) : List Nat → Nat × FpFlags
  | [] => (acc, fl)
  | c :: r =>
    let x := fpAdd fp32 .rne false acc c
    sumFrom x.1 (fl ||| x.2) r

/-- One element from its contributions in ascending index: the result and its flags. -/
def reduceElem (alu : Nat) (nn : Bool) (l : List Nat) : Nat × FpFlags :=
  let (e, f) := aluFmt alu
  match f with
  | none =>
    let larger := alu == 6
    match l with
    | [] => (0, .none)
    | a :: r => (r.foldl (fun a c => if (sgn 32 a < sgn 32 c) == larger then c else a) a, .none)
  | some f =>
    let nan (x : Nat) : Bool := valNan (fpDecode f x)
    if alu ≤ 1 then
      let w (x : Nat) : Nat := if e = 2 then fp32OfBf16 x else x
      match l with
      | [] => (0, .none)
      | a :: r =>
        let s := sumFrom (w a) .none (r.map w)
        if l.any nan then (canonNan e, s.2)
        else if e = 2 then
          let x := toFmt (fpDecode fp32 s.1) bf16 .rne false
          (x.1, s.2 ||| x.2)
        else s
    else
      let keep := if nn then l.filter fun x => !nan x else l
      if keep.any nan || keep.isEmpty then (canonNan e, .none)
      else
        let maxabs := alu == 8 || alu == 9
        let larger := maxabs || alu == 2 || alu == 4
        let l := if maxabs then keep.map (fpAbs f) else keep
        match l with
        | [] => (0, .none)
        | a :: r => (r.foldl (pick f larger) a, .none)

/-- Element i of a staged chunk. -/
def chunkElem (bs : List Byte) (e i : Nat) : Nat := ofBytes ((bs.drop (e * i)).take e)

/-- The result of a REDUCE over the contributions present, by contributor index, and its flags. -/
def reduceAll (o : ConvOp) (l : List (List Byte)) : List Byte × FpFlags :=
  let e := (aluFmt o.alu).1
  (List.range (o.len / e)).foldl (fun acc i =>
    let x := reduceElem o.alu o.nn (l.map fun bs => chunkElem bs e i)
    (acc.1 ++ toBytes e x.1, acc.2 ||| x.2)) ([], .none)

/-! ## Slots (R44) -/

def RedSlot.reset : RedSlot := { key := none, staged := [] }

def State.slot (s : State) (i : Nat) : RedSlot := look RedSlot.reset s.convoy.slots i
def State.setSlot (s : State) (i : Nat) (x : RedSlot) : State :=
  { s with convoy := { s.convoy with slots := put s.convoy.slots i x } }
def State.freeSlot (s : State) (i : Nat) : State := { s with convoy := { s.convoy with slots := drop s.convoy.slots i } }

/-- The slot is free or held under a key. -/
def State.slotFor (s : State) (i : Nat) (key : Fin 16 × BitVec 16 × Nat) : Bool :=
  match (s.slot i).key with
  | none => true
  | some k => k = key

/-- Put bytes at an offset of a staging area of a length. -/
def stageBytes (old : List Byte) (total off : Nat) (new : List Byte) : List Byte :=
  (List.range total).map fun i => if off ≤ i && i < off + new.length then new.getD (i - off) 0 else old.getD i 0

/-- What is staged with one more piece of its chunk: the words that the piece writes have no error any more. -/
def Staged.join (x : Staged) (total off : Nat) (new : List Byte) : Staged :=
  { x with data := stageBytes x.data total off new, got := x.got + new.length,
           errs := x.errs.filter fun e => 8 * e.1 + 8 ≤ off || off + new.length ≤ 8 * e.1 }

/-- Stage a piece of a contribution. -/
def stageInto (l : List Staged) (c : Staged) (total off : Nat) : List Staged :=
  if l.any (·.cidx = c.cidx) then l.map fun x => if x.cidx = c.cidx then x.join total off c.data else x
  else l ++ [{ c with data := stageBytes [] total off c.data }]

/-- A chunk-buffer word by its slot, its contributor and its place (R44). -/
def chunkWord (slot cidx w : Nat) : Nat := (slot * 16 + cidx) * 32768 + w

/-- Staging is an engine's write: the words it writes become full (spec/08 R124). -/
def State.fillChunk (s : State) (slot cidx off n : Nat) : State :=
  let other (w : Nat) : Bool := w < chunkWord slot cidx (off / 8) || chunkWord slot cidx ((off + n + 7) / 8) ≤ w
  { s with convoy := { s.convoy with empties := s.convoy.empties.filter other } }

/-- An error falls on a word of the chunk buffers (spec/06 R89): what stands there meets it when it is read. -/
def State.upsetChunk (s : State) (slot : Fin 64) (cidx : Fin 16) (w : Nat) (correctable : Bool) : State :=
  let r := s.slot slot.val
  let hit (x : Staged) : Staged := if x.cidx = cidx.val then { x with errs := x.errs ++ [(w, correctable)] } else x
  if r.key.isSome then s.setSlot slot.val { r with staged := r.staged.map hit } else s

/-- Contributions that are wholly staged, in ascending index. -/
def RedSlot.present (r : RedSlot) (total : Nat) : List Staged :=
  (List.range 16).filterMap fun i => r.staged.find? fun x => x.cidx = i && total ≤ x.got

/-- Whether one of the contributions present holds an uncorrectable word (spec/06 R89). -/
def anySpoilt (l : List Staged) : Bool := l.any fun x => x.errs.any fun e => !e.2

/-- Correctable errors of what the ALUs read are corrected and counted for the chunk buffers (spec/06 R89). -/
def State.correctChunks (s : State) (l : List Staged) : State :=
  let n := l.foldl (fun n x => n + (x.errs.filter (·.2)).length) 0
  if n = 0 then s else { s with dev := { s.dev with corrected := put s.dev.corrected 34 (look 0 s.dev.corrected 34 + n) } }

/-! ## Operations of a play (R41) -/

def Play.st (p : Play) (i : Nat) : OpState := p.ops.getD i .done

def Play.set (p : Play) (i : Nat) (x : OpState) : Play := { p with ops := p.ops.set i x }

/-- A counter goes down; at zero the operation is ready. -/
def Play.decrement (p : Play) (i : Nat) : Play :=
  match p.st i with
  | .waiting n => p.set i (if n ≤ 1 then .ready else .waiting (n - 1))
  | _ => p

def Play.progressAt (p : Play) (now : Nat) : Play := { p with progress := now }

/-- An operation completes: its successors' counters go down. -/
def Play.complete (p : Play) (o : ConvOp) (i now : Nat) : Play :=
  let p : Play := { p.set i .done with sends := p.sends.filter (·.1 ≠ i), lost := p.lost.filter (·.1 ≠ i),
                                       landing := p.landing.filter (·.op ≠ i) }
  (o.succs.foldl Play.decrement p).progressAt now

/-- An operation that waits never becomes ready (R47). -/
def Play.bar (p : Play) (i : Nat) : Play :=
  match p.st i with
  | .waiting _ => p.set i .barred
  | _ => p

/-- An operation faults: its successors never become ready. -/
def Play.failOp (p : Play) (o : ConvOp) (i : Nat) (cause : BitVec 4) (ga : Word) (now : Nat) : Play :=
  let p : Play := { p.set i .failed with sends := p.sends.filter (·.1 ≠ i), lost := p.lost.filter (·.1 ≠ i),
                                         landing := p.landing.filter (·.op ≠ i) }
  let p := o.succs.foldl Play.bar p
  { p with fault := match p.fault with | some f => some f | none => some (i, cause, ga.setWidth 48) }.progressAt now

def Play.partly (p : Play) (i : Nat) (missing : Nat) : Play := { p with partials := p.partials ++ [(i, BitVec.ofNat 16 missing)] }

def State.setPlay (s : State) (g : Fin 16) (x : Graph) (p : Play) : State := s.setGraph g { x with run := some p }

/-- The key of a graph's REDUCE in its current play. -/
def Graph.key (x : Graph) (g : Fin 16) (i : Nat) : Fin 16 × BitVec 16 × Nat := (g, x.play, i)

/-- The slot of a graph's REDUCE, as far as it is held under its key: after a disarm another graph may hold it (R44, R46). -/
def State.slotOf (s : State) (g : Fin 16) (x : Graph) (i : Nat) : RedSlot :=
  let r := s.slot (x.op i).slot
  if r.key = some (x.key g i) then r else RedSlot.reset

/-- The slot of a graph's REDUCE is free, if it held it. -/
def State.leaveSlot (s : State) (g : Fin 16) (x : Graph) (i : Nat) : State :=
  if (s.slot (x.op i).slot).key = some (x.key g i) then s.freeSlot (x.op i).slot else s

/-- A REDUCE ends: the ALUs combine what is present, the result lands, the slot is free. An uncorrectable word of a contribution is an
error response (spec/06 R89; log 99). -/
def State.combine (s0 : State) (g : Fin 16) (x : Graph) (p : Play) (i : Nat) : Tried :=
  let o := x.op i
  let here := (s0.slotOf g x i).present o.len
  let missing := (List.range o.ncontrib).foldl (fun n j => if here.any (·.cidx = j) then n else n + 2 ^ j) 0
  let p1 := if missing = 0 then p else p.partly i missing
  if here.isEmpty then .ok ((s0.leaveSlot g x i).setPlay g x (p1.complete o i s0.now))
  else if anySpoilt here then
    let s := s0.logViolation 0 4 s0.own (sysOf s0.own 0x8000000000) x.core.val 2
    .ok ((s.leaveSlot g x i).setPlay g x (p.failOp o i 5 (o.dst p.bases) s.now))
  else
    let r := reduceAll o (here.map (·.data))
    match State.writeAll (x.acc .convoy) r.1 (s0.correctChunks here) (o.dst p.bases) with
    | (s, .error (_, .wait)) => .error (s0.stall s)
    | (s, .error (ga, e)) => .ok ((s.leaveSlot g x i).setPlay g x (p.failOp o i (faultCause e) ga s.now))
    | (s, .ok ()) =>
      let p2 := { p1 with flags := p1.flags ||| (r.2.setWidth 4) }
      .ok ((s.leaveSlot g x i).setPlay g x (p2.complete o i s.now))

/-- Whether every contributor of a REDUCE is staged. -/
def State.allStaged (s : State) (g : Fin 16) (x : Graph) (i : Nat) : Bool :=
  let o := x.op i
  ((s.slotOf g x i).present o.len).length ≥ o.ncontrib

/-- The timer of an operation starts. -/
def Play.startTimer (p : Play) (i now : Nat) : Play := (p.set i (.timed now)).progressAt now

/-- A REDUCE that is ready claims its slot, stages its own contribution and starts its timer. -/
def State.claim (s0 : State) (g : Fin 16) (x : Graph) (p : Play) (i : Nat) : Tried :=
  let o := x.op i
  if !s0.slotFor o.slot (x.key g i) then .error s0
  else
    let held := { s0.slot o.slot with key := some (x.key g i) }
    if o.cidx < o.ncontrib then
      match State.readAll (x.acc .copy) o.len s0 (o.src p.bases) with
      | (s, .error (_, .wait)) => .error (s0.stall s)
      | (s, .error (ga, e)) => .ok ((s.freeSlot o.slot).setPlay g x (p.failOp o i (faultCause e) ga s.now))
      | (s, .ok bs) =>
        let c : Staged := { play := x.play, op := i, cidx := o.cidx, data := bs, got := o.len, trig := none, errs := [] }
        .ok (((s.fillChunk o.slot o.cidx 0 o.len).setSlot o.slot { held with staged := stageInto held.staged c o.len 0 }).setPlay g x
          (p.startTimer i s.now))
    else .ok ((s0.setSlot o.slot held).setPlay g x (p.startTimer i s0.now))

/-- A trigger entry that a chunk names fires once the chunk has wholly landed or been staged (R45). -/
def State.fire (s : State) (play : BitVec 16) (t : Option (Fin 256)) : State :=
  match t with
  | none => s
  | some t => { s with convoy := { s.convoy with fired := s.convoy.fired ++ [(play, t)] } }

/-- A whole chunk lands at the destination of its RECV, which completes (R41, R45). -/
def State.landWhole (s0 : State) (g : Fin 16) (x : Graph) (p : Play) (i : Nat) (c : Staged) : Tried :=
  let o := x.op i
  match State.writeAll (x.acc .convoy) c.data s0 (o.dst p.bases) with
  | (s, .error (_, .wait)) => .error (s0.stall s)
  | (s, .error (ga, e)) => .ok (s.setPlay g x (p.failOp o i (faultCause e) ga s.now))
  | (s, .ok ()) => .ok ((s.setPlay g x (p.complete o i s.now)).fire c.play c.trig)

/-- A RECV that is ready takes the chunk that waits for it, if it is whole; otherwise its timer starts, and a part that waits goes
on at the RECV (spec/21 R315). -/
def State.takeHeld (s : State) (g : Fin 16) (x : Graph) (p : Play) (i : Nat) : Tried :=
  match x.area with
  | some c =>
    if c.play = x.play && c.op = i then
      if (x.op i).len ≤ c.got then s.landWhole g { x with area := none } p i c
      else .ok (s.setPlay g { x with area := none } ({ p with landing := p.landing ++ [c] }.startTimer i s.now))
    else .ok (s.setPlay g x (p.startTimer i s.now))
  | none => .ok (s.setPlay g x (p.startTimer i s.now))

/-- What an operation does of itself, if it can do something now. -/
def State.tryOp (s : State) (g : Fin 16) (i : Nat) : Tried :=
  match s.graph g with
  | none => .error s
  | some x =>
    match x.run with
    | none => .error s
    | some p =>
      match p.st i with
      | .ready =>
        match (x.op i).kind with
        | 0 => .ok (s.setPlay g x (p.complete (x.op i) i s.now))
        | 2 => s.takeHeld g x p i
        | 3 => s.claim g x p i
        | _ => .error s
      | .timed _ => if (x.op i).kind = 3 && s.allStaged g x i then s.combine g x p i else .error s
      | _ => .error s

def State.tryOps (g : Fin 16) : List Nat → State → Tried
  | [], s => .error s
  | i :: r, s => match s.tryOp g i with | .ok s' => .ok s' | .error s' => State.tryOps g r s'

/-- Everything that goes on of itself, an operation at a time. -/
def State.settleOps (g : Fin 16) (n : Nat) : Nat → State → State
  | 0, s => s
  | k + 1, s => match State.tryOps g (List.range n) s with | .ok s' => State.settleOps g n k s' | .error s' => s'

/-! ## The end of a play (R41, R47, R316) -/

/-- The trigger entry's kind and operation. -/
def trigKind (t : BitVec 128) : Nat := t.toNat / 2 ^ 60 % 16
def trigOp (t : BitVec 128) : Nat := t.toNat / 2 ^ 48 % 2 ^ 12

/-- No operation is ready or timed, and none that waits can still become ready: only a trigger could make it so. -/
def Graph.playOver (x : Graph) (p : Play) : Bool :=
  (List.range p.ops.length).all fun i =>
    match p.st i with
    | .done => true
    | .failed => true
    | .barred => true
    | .ready => false
    | .timed _ => false
    | .waiting _ => !x.trigs.any fun t => trigKind t = 1 && trigOp t = i

/-- Status and payload of a play's completion; the first partial operation is the first in time (log 101). -/
def Play.outcome (p : Play) (stalled : Option Nat) : Nat × Nat :=
  let fl := p.flags.toNat
  let part := match p.partials.head? with
    | some (i, m) => i * 2 ^ 52 + m.toNat * 2 ^ 36
    | none => 0
  match p.fault, stalled with
  | some (i, c, a), _ => (3, i * 2 ^ 52 + c.toNat * 2 ^ 48 + a.toNat)
  | none, some i => (8, i * 2 ^ 52)
  | none, none =>
    if p.lates ≠ 0 then (2, part + p.lates % 65536 * 2 ^ 20 + fl)
    else if p.partials ≠ [] then (1, part + p.partials.length % 65536 * 2 ^ 20 + fl)
    else (0, fl)

/-- Chunks staged under keys of a play that has ended. -/
def RedSlot.ofPlay (r : RedSlot) (g : Fin 16) (play : BitVec 16) : Bool :=
  match r.key with
  | some (x, q, _) => x = g && q = play
  | none => false

/-- The play is over: its slots are free, what was staged or held for it is discarded and counted. -/
def State.clearPlay (s : State) (g : Fin 16) (x : Graph) (p : Play) : State :=
  let gone := (s.convoy.slots.filter fun r => r.2.ofPlay g x.play).foldl (fun n r => n + r.2.staged.length) 0
  let s := { s with convoy := { s.convoy with slots := s.convoy.slots.filter fun r => !r.2.ofPlay g x.play } }
  let heldNow : Bool := match x.area with | some c => c.play = x.play | none => false
  let y := { x with run := none, ended := p.ops, area := if heldNow then none else x.area,
                    discarded := x.discarded + gone + (if heldNow then 1 else 0) }
  let s := if x.armed then s.setGraph g y else s.dropGraph g
  { s.charge x.ctx 7 (Config.cost s.free) with free := s.free + 1 }

/-- The play ends: kind 0x40 goes to the arming core, or to its record, while the graph is armed. -/
def State.endPlay (s : State) (g : Fin 16) (x : Graph) (p : Play) (stalled : Option Nat) : State :=
  let o := p.outcome stalled
  let s := s.clearPlay g x p
  if x.armed then s.placeFor x.core x.lid [mkMsg 0x40 o.1 g.val x.play.toNat (BitVec.ofNat 64 o.2)] .keep else s

/-- Go on with a graph, and end its play if it is over. -/
def State.settleGraph (s : State) (g : Fin 16) : State :=
  match s.graph g with
  | none => s
  | some x =>
    let s := State.settleOps g x.ops.length (3 * x.ops.length + 1) s
    match s.graph g with
    | none => s
    | some y =>
      match y.run with
      | some p => if y.playOver p then s.endPlay g y p none else s
      | none => s

/-! ## Starting a play (R41, R45, R299) -/

def State.startPlay (s : State) (g : Fin 16) (x : Graph) (bases : List Word) : State :=
  let init (o : ConvOp) : OpState := if o.dep = 0 then .ready else .waiting o.dep
  let p : Play := { bases := bases, ops := x.ops.map init, flags := 0, partials := [], lates := 0, fault := none,
                    progress := s.now, sends := [], lost := [], landing := [] }
  let p := x.nextTrigs.foldl Play.decrement p
  (s.setGraph g { x with play := x.play + 1, run := some p, queued := none, bases := bases, nextTrigs := [] }).settleGraph g

/-- Kind 0x40 for a play that does not start. The core that armed a graph gets its refusals too (R38); where the graph is not armed, or
another context holds it, the spec names no core, and the model tells the one that issued the CVPLAY (DESIGN CHOICE, log 101). -/
def State.playRefused (s : State) (g : Fin 16) (core : CoreIx) (lid : BitVec 16) (st : Nat) : State :=
  s.placeFor core lid [mkMsg 0x40 st g.val 0 0] .keep

/-- A play is asked for: it starts, is queued behind the running one, or is refused. -/
def State.askPlay (s : State) (g : Fin 16) (x : Graph) (bases : List Word) : State :=
  match x.run, x.queued with
  | none, none => s.startPlay g x bases
  | some _, none => s.setGraph g { x with queued := some bases }
  | _, some _ => s.playRefused g x.core x.lid 4

/-! ## Triggers (R45) -/

/-- A trigger entry that has fired acts on its own graph. -/
def State.trigger (s : State) (play : BitVec 16) (t : Fin 256) : State :=
  match s.convoy.graphs.find? fun x => x.2.armed && x.2.trigBase ≤ t.val && t.val < x.2.trigBase + x.2.ntrig with
  | none => s
  | some (gi, x) =>
    let g : Fin 16 := Fin.ofNat 16 gi
    let e := x.trigs.getD (t.val - x.trigBase) 0
    let d := (play - x.play).toNat
    if trigKind e = 1 then
      match d, x.run with
      | 0, some p => (s.setPlay g x (p.decrement (trigOp e))).settleGraph g
      | 1, _ => s.setGraph g { x with nextTrigs := x.nextTrigs ++ [trigOp e] }
      | _, _ => s.setGraph g { x with discarded := x.discarded + 1 }
    else if trigKind e = 2 then s.askPlay g x x.bases
    else s

/-- At most n of the trigger entries that have fired act, the oldest first. -/
def State.triggerN : Nat → State → State
  | 0, s => s
  | n + 1, s =>
    match s.convoy.fired with
    | [] => s
    | (play, t) :: r => State.triggerN n ({ s with convoy := { s.convoy with fired := r } }.trigger play t)

/-- Every trigger entry that has fired acts. A play that one starts may land a held chunk, of which there is one for each graph. -/
def State.triggers (s : State) : State := s.triggerN (s.convoy.fired.length + 16)

/-- The next state of a move of the sequencer. -/
def convoyOk (s : State) : Out := ok s.triggers

/-- Whether the stores and atomics that a core issued before a CVPLAY are performed, those of its output ports among them. -/
def State.released (s : State) (k : CoreIx) (stamp : Nat) : Bool :=
  ((s.core k).portWrites.all fun p => stamp ≤ p.stamp) && s.net.all fun r =>
    match r.src with
    | .core j _ _ =>
      j ≠ k || stamp ≤ r.id || (match r.op with | .acc a => !accWrites a | _ => true) ||
        (match r.phase with | .answered _ => true | .faulted => true | _ => false)
    | _ => true

/-- The queued play starts once the running one has ended; otherwise the oldest CVPLAY for the graph is decided once its
core's stores are released. -/
def execPlayStart (g : Fin 16) (s : State) : Out :=
  let asked : Out :=
    match s.convoy.plays.find? (·.1 = g) with
    | none => ok s
    | some (_, r) =>
      if !s.released r.core r.stamp then ok s
      else
        let s := { s with convoy := { s.convoy with plays := s.convoy.plays.erase (g, r) } }
        match s.graph g with
        | none => ok (s.playRefused g r.core r.lid 6)
        | some x =>
          if x.armed && x.ctx == r.ctx then convoyOk (s.askPlay g x r.bases) else ok (s.playRefused g r.core r.lid 6)
  match s.graph g with
  | some x =>
    match x.run, x.queued with
    | none, some b => convoyOk (s.startPlay g x b)
    | _, _ => asked
  | none => asked

/-! ## Chunks (R42, R44, R315) -/

/-- Whether completions that are held hold the one by which a graph was armed. -/
def holdsArm (g : Fin 16) (l : List Completion) : Bool :=
  l.any fun c => c.msgs.any fun m => m.kind == 0x41 && m.status == 0 && m.source.toNat = g.val

/-- A graph counts as armed once its arm completion is in the inbox, or in the inbox area of a saved core's record. -/
def State.armedNow (s : State) (g : Fin 16) (x : Graph) : Bool :=
  x.armed && !holdsArm g (s.core x.core).evt.held &&
    (match lookup s.saves (saveKey x.lid x.core) with | some sv => !holdsArm g sv.held | none => true)

/-- Whether the target operation names the sender. -/
def Graph.names (x : Graph) (c : Chunk) : Bool :=
  let o := x.op c.op.toNat
  c.op.toNat < x.ops.length &&
    ((o.kind == 2 && x.dev o.peer == c.dev.val) ||
      (o.kind == 3 && c.cidx.val < o.ncontrib && x.dev (o.peer + c.cidx.val) == c.dev.val))

/-- How far a play is ahead of the current one, modulo 2^16. -/
def Graph.ahead (x : Graph) (play : BitVec 16) : Nat := (play - x.play).toNat

/-- State of an operation in the current play, the last one if it has ended. -/
def Graph.opSt (x : Graph) (i : Nat) : Option OpState :=
  match x.run with
  | some p => p.ops[i]?
  | none => x.ended[i]?

/-- Whether an accepted chunk is late: for an older play, or for an operation that has ended in the current one. -/
def Graph.late (x : Graph) (c : Chunk) : Bool :=
  32768 ≤ x.ahead c.play ||
    (x.ahead c.play = 0 && (match x.opSt c.op.toNat with | some .done => true | some .failed => true | _ => false))

/-- The running play whose RECV is ready for a chunk. -/
def Graph.waitsFor (x : Graph) (c : Chunk) : Option Play :=
  match x.run with
  | none => none
  | some p =>
    match p.st c.op.toNat with
    | .timed _ => if x.ahead c.play = 0 then some p else none
    | _ => none

/-- The first piece of a chunk. -/
def firstPiece (c : Chunk) (len : Nat) : Staged :=
  { play := c.play, op := c.op.toNat, cidx := c.cidx.val, data := stageBytes [] len c.offset c.data, got := c.data.length, trig := c.trig,
    errs := [] }

/-- A piece for a RECV that is ready joins its chunk; with the last piece the chunk lands. Until then the destination is unwritten
(R44). -/
def State.landPiece (s : State) (g : Fin 16) (x : Graph) (p : Play) (c : Chunk) : Tried :=
  let i := c.op.toNat
  let len := (x.op i).len
  let n := match p.landing.find? (·.op = i) with
    | some a => a.join len c.offset c.data
    | none => firstPiece c len
  if n.got < len then .ok (s.setPlay g x { p with landing := (p.landing.filter (·.op ≠ i)) ++ [n] })
  else (s.landWhole g x p i n).map (·.settleGraph g)

/-- A piece waits in the held-chunk area. -/
def State.holdPiece (s : State) (g : Fin 16) (x : Graph) (c : Chunk) (len : Nat) : State × BitVec 4 :=
  match x.area with
  | none => (s.setGraph g { x with area := some (firstPiece c len) }, 0)
  | some a =>
    if a.play = c.play && a.op = c.op.toNat && a.got < len then
      (s.setGraph g { x with area := some (a.join len c.offset c.data) }, 0)
    else (s, 7)

/-- Stage a piece of a contribution in its slot. -/
def State.stagePiece (s : State) (g : Fin 16) (x : Graph) (c : Chunk) : State × BitVec 4 :=
  let o := x.op c.op.toNat
  let key : Fin 16 × BitVec 16 × Nat := (g, c.play, c.op.toNat)
  if !s.slotFor o.slot key then (s, 7)
  else
    let r := s.slot o.slot
    let l := stageInto r.staged { firstPiece c o.len with data := c.data } o.len c.offset
    let whole := l.any fun z => z.cidx = c.cidx.val && o.len ≤ z.got
    let s := (s.fillChunk o.slot c.cidx.val c.offset c.data.length).setSlot o.slot { key := some key, staged := l }
    ((if whole then s.fire c.play c.trig else s).settleGraph g, 0)

/-- The system address of the convoy ingress window of a device (R42). -/
def ingress (dev : Nat) : BitVec 50 := sysOf dev 0x8000000000

/-- What an accepted chunk carries is charged to the graph's context (spec/06 R87), where it came over the fabric. -/
def State.chargeChunk (s : State) (x : Graph) (c : Chunk) : State := if c.dev = s.fab.devid then s else s.charge x.ctx 13 c.data.length

/-- Answer a chunk: the state, the status, the LATE mark; while a token moves under its destination the state that waits. A refusal is
logged with the base of the ingress window and the core that is named (log 101). -/
def State.chunkIn (s : State) (core : Nat) (c : Chunk) : Except State (State × BitVec 4 × Bool) :=
  let refuse (st : BitVec 4) : Except State (State × BitVec 4 × Bool) :=
    .ok (s.logViolation 0 st c.dev.val (ingress s.own) core 2, st, false)
  match s.graph c.graph with
  | none => refuse 3
  | some x =>
    let o := x.op c.op.toNat
    if !s.armedNow c.graph x || !x.peers.contains c.dev.val || !x.names c then refuse 3
    else if 2 ≤ x.ahead c.play && x.ahead c.play < 32768 then refuse 3
    else if c.total ≠ o.len || o.len < c.offset + c.data.length then refuse 2
    else if x.late c then
      .ok ({ s with convoy := { s.convoy with late := s.convoy.late + 1 } }, 3, true)
    else
      let taken (r : State × BitVec 4) : Except State (State × BitVec 4 × Bool) :=
        .ok (if r.2 = 0 then r.1.chargeChunk x c else r.1, r.2, false)
      if o.kind = 3 then taken (s.stagePiece c.graph x c)
      else
        match x.waitsFor c with
        | some p =>
          match s.landPiece c.graph x p c with
          | .ok s' => taken (s', 0)
          | .error s' => .error s'
        | none => taken (s.holdPiece c.graph x c o.len)

/-- The core that a convoy write names as its sender. -/
def State.chunkCore (s : State) (c : Chunk) : Nat := if s.bareFrom c.dev.val c.hdr then 0 else (hdrCore c.hdr).val

/-- A convoy write arrives from another device: one whose tag fails is discarded (R46, spec/02 R36); while DOMAIN_EN is 0 it is refused with
0x3 (spec/02 R29); one whose extension header is malformed is answered with 0x2 (R30), one whose XCRC does not match with 0x8 (R31). -/
def execConvoyChunkArrival (c : Chunk) (s : State) : Out :=
  let bare := s.bareFrom c.dev.val c.hdr
  let core := s.chunkCore c
  let answer (s : State) (st : BitVec 4) (late : Bool) : State := s.reply c.dev bare core (ingress s.own) st late 0 0
  let deny (st : BitVec 4) : Out := ok (answer (s.logViolation 0 st c.dev.val (ingress s.own) core 2) st false)
  match s.tagFails c.dev.val c.tagOk with
  | some s' => ok s'
  | none =>
    if !s.fab.domainEn then deny 3
    else if !bare && hdrBad (.store 8 0) c.hdr then deny 2
    else if !bare && !c.crcOk then deny 8
    else
      match s.chunkIn core c with
      | .error s' => ok s'
      | .ok (s', st, late) => convoyOk (answer s' st late)

/-! ## Operations that leave the graph (R41, R44, R47) -/

/-- How the answer to a SEND ends it: done, late, retried, or a fault. One that is not accepted within CV_TIMEOUT of its first attempt
completes as late (R44). A fault reports its source address (log 101). -/
def State.sendDone (s : State) (g : Fin 16) (x : Graph) (p : Play) (i : Nat) (st : BitVec 4) (late : Bool) : State :=
  let o := x.op i
  let first := p.sends.find? (·.1 = i)
  let after (n : Nat) : Bool := match first with | some (_, t) => t + s.cvTicks < n | none => false
  let done (q : Play) : State := (s.setPlay g x (q.complete o i s.now)).settleGraph g
  let asLate : State := done { p with lates := p.lates + 1 }
  if st = 0 then (if after s.now then asLate else done p)
  else if st = 3 && late then asLate
  else if st = 7 then
    if after (s.now + 1) then asLate
    else if first.isSome then s
    else s.setPlay g x ({ p with sends := p.sends ++ [(i, s.now)] }.progressAt s.now)
  else (s.setPlay g x (p.failOp o i 5 (o.src p.bases) s.now)).settleGraph g

/-- The chunk that a SEND sends to a device: one write request, which holds all of it from offset 0 on; its extension header names the core
that armed the graph and class .adp (log 101). -/
def State.chunkOf (s : State) (x : Graph) (g : Fin 16) (i d : Nat) (bs : List Byte) : Chunk :=
  let o := x.op i
  let op : BitVec 12 := BitVec.ofNat 12 o.rop
  let cidx : Fin 16 := Fin.ofNat 16 o.cidx
  let head := Config.convoyHeader g x.play op cidx 0 o.len o.trig
  { dev := s.fab.devid, graph := g, play := x.play, op := op, cidx := cidx, offset := 0, total := o.len, trig := o.trig, data := bs,
    hdr := s.header d (ingress d) (s.reqLow d x.core.val false .plain .adp) (head ++ bs) }

/-- A SEND ends with a status of its request. -/
def State.sendEnds (s : State) (g : Fin 16) (i : Nat) (st : BitVec 4) (late : Bool) : State :=
  match s.graph g with
  | none => s
  | some y => match y.run with | some q => s.sendDone g y q i st late | none => s

/-- The answer of another device to a SEND: none comes where the operand is 0x9, which no device answers, and one whose tag fails is
discarded; the SEND then ends with 0x9 once FAB_RSP_TIMEOUT has passed (spec/02 R33, R36). -/
def State.sendHears (s : State) (g : Fin 16) (x : Graph) (p : Play) (i d : Nat) (r : PeerReply) : State :=
  let silent (s : State) : State := s.setPlay g x { p with lost := p.lost ++ [(i, s.now + toTicks s.fab.rspTimeout)] }
  match s.tagFails d r.tagOk with
  | some s' => silent s'
  | none =>
    let st := s.seenStatus (ingress d) 0 r
    if st = 9 then silent s else (s.noteStatus (xstatOf r) st (ingress d) x.core 2).sendEnds g i st (lateOf r)

/-- A SEND is sent, or sent again: its source is read, its peer answers. For a peer that is this device the chunk arrives
here; otherwise the answer is the outside world's. Its class is .adp (log 101). -/
def State.sendOp (s0 : State) (g : Fin 16) (x : Graph) (p : Play) (i : Nat) (r : PeerReply) : State :=
  let o := x.op i
  match State.readAll (x.acc .copy) o.len s0 (o.src p.bases) with
  | (s, .error (_, .wait)) => s0.stall s
  | (s, .error (ga, e)) => (s.setPlay g x (p.failOp o i (faultCause e) ga s.now)).settleGraph g
  | (s, .ok bs) =>
    let d := x.dev o.peer
    let c := s.chunkOf x g i d bs
    if d = s.own then
      match s.chunkIn x.core.val c with
      | .error s => s0.stall s
      | .ok (s, st, late) => s.sendEnds g i st late
    else
      match s.route d .adp true with
      | .error st => (s.logViolation (dieOf x.core.val) st s.own (ingress d) x.core.val 2).sendDone g x p i st false
      | .ok _ => ((s.charge x.ctx 12 o.len).fabOut (.chunk (Fin.ofNat 1024 d) c)).sendHears g x p i d r

/-- A SEND whose answer was discarded ends with 0x9 (spec/02 R33). -/
def State.sendOverdue (s : State) (g : Fin 16) (x : Graph) (p : Play) (i : Nat) : State :=
  match p.lost.find? (·.1 = i) with
  | none => s
  | some (_, due) =>
    if s.now < due then s
    else
      let s := s.logViolation (dieOf x.core.val) 9 s.own (ingress (x.dev (x.op i).peer)) x.core.val 2
      { s.expect s.nextId with nextId := s.nextId + 1 }.sendDone g x p i 9 false

/-- COPY moves its chunk. -/
def State.copyOp (s0 : State) (g : Fin 16) (x : Graph) (p : Play) (i : Nat) : State :=
  let o := x.op i
  match State.readAll (x.acc .copy) o.len s0 (o.src p.bases) with
  | (s, .error (_, .wait)) => s0.stall s
  | (s, .error (ga, e)) => (s.setPlay g x (p.failOp o i (faultCause e) ga s.now)).settleGraph g
  | (s, .ok bs) =>
    match State.writeAll (x.acc .copy) bs s (o.dst p.bases) with
    | (s, .error (_, .wait)) => s0.stall s
    | (s, .error (ga, e)) => (s.setPlay g x (p.failOp o i (faultCause e) ga s.now)).settleGraph g
    | (s, .ok ()) => (s.setPlay g x (p.complete o i s.now)).settleGraph g

/-- The answer that an outcome carries. -/
def outcomeReply (o : OpOutcome) : PeerReply :=
  match o with
  | .own => ownReply
  | .answered r => r

/-- An operation that is ready completes, as far as it can: a COPY moves, a SEND is answered, the others go on. -/
def execConvoyOpComplete (g : Fin 16) (op : BitVec 12) (o : OpOutcome) (s : State) : Out :=
  match s.graph g with
  | none => ok s
  | some x =>
    match x.run with
    | none => ok s
    | some p =>
      if p.st op.toNat ≠ .ready || x.ops.length ≤ op.toNat then convoyOk (s.settleGraph g)
      else if p.lost.any (·.1 = op.toNat) then convoyOk (s.sendOverdue g x p op.toNat)
      else
        match (x.op op.toNat).kind with
        | 1 => if p.sends.any (·.1 = op.toNat) then ok s else convoyOk (s.sendOp g x p op.toNat (outcomeReply o))
        | 4 => convoyOk (s.copyOp g x p op.toNat)
        | _ => convoyOk (s.settleGraph g)

/-- A SEND that was answered with 0x7 is sent again; after CV_TIMEOUT from its first attempt it completes as late. -/
def execConvoySendRetry (g : Fin 16) (op : BitVec 12) (r : PeerReply) (s : State) : Out :=
  match s.graph g with
  | none => ok s
  | some x =>
    match x.run with
    | none => ok s
    | some p =>
      if p.sends.any (·.1 = op.toNat) && !p.lost.any (·.1 = op.toNat) then convoyOk (s.sendOp g x p op.toNat r) else ok s

/-- CV_TIMEOUT of a REDUCE or a RECV (R44). -/
def execCvTimeout (g : Fin 16) (op : BitVec 12) (s : State) : Out :=
  match s.graph g with
  | none => ok s
  | some x =>
    match x.run with
    | none => ok s
    | some p =>
      match p.st op.toNat with
      | .timed t =>
        if s.now < t + s.cvTicks then ok s
        else if (x.op op.toNat).kind = 3 then
          match s.combine g x p op.toNat with
          | .ok s' => convoyOk (s'.settleGraph g)
          | .error s' => ok s'
        else convoyOk ((s.setPlay g x ((p.partly op.toNat 1).complete (x.op op.toNat) op.toNat s.now)).settleGraph g)
      | _ => ok s

/-- The lowest operation that has not ended. -/
def Play.lowest (p : Play) : Nat :=
  ((List.range p.ops.length).find? fun i => match p.st i with | .done => false | .failed => false | _ => true).getD 0

/-- No operation has started or completed for 64 · CV_TIMEOUT: the play ends with status 8. -/
def execPlayStall (g : Fin 16) (s : State) : Out :=
  match s.graph g with
  | none => ok s
  | some x =>
    match x.run with
    | none => ok s
    | some p => if p.progress + 64 * s.cvTicks ≤ s.now then ok (s.endPlay g x p (some p.lowest)) else ok s

/-- A play of the context that still runs CV_TIMEOUT after the release of its cancelled launch is stopped, its completion discarded
(spec/05 R71). -/
def execConvoyPlayStop (g : Fin 16) (s : State) : Out :=
  match s.graph g with
  | none => ok s
  | some x =>
    let due := s.sched.launches.any fun l =>
      l.ctx == x.ctx && l.st ≠ .ended && (match l.cancelAt with | some t => t + s.cvTicks ≤ s.now | none => false)
    match x.run with
    | some p => if due then ok (s.clearPlay g x p) else ok s
    | none => ok s

end Sys2Proof.Machine
end

