-- ==== Sys2Proof/Machine/Fabric.lean ====
section
/-!
DEFINITION. Bring-up of the fabric and its registers (spec/02 R26, R29, R30, R33).
-/

namespace Sys2Proof.Machine

/-- A reply to the discovery read that names an extension-capable endpoint. -/
def capable (reply : Option (BitVec 64)) : Bool :=
  match reply with
  | some w => bits w 32 32 == 0x464C5331 && bits w 8 8 == 1
  | none => false

/-- A device answered on a plane. -/
def State.discover (s : State) (plane : Fin 16) (a : Fin 1024 × Option (BitVec 64)) : State :=
  let p := s.peer a.1.val
  let xt := capable a.2
  let q : PeerEntry := { p with planes := p.planes ||| (1 <<< plane.val), xt := xt, foreign := !xt, valid := true }
  { s with fab := { s.fab with peers := put s.fab.peers a.1.val q } }

/-- A plane is unreachable: its bit leaves every entry. -/
def State.losePlane (s : State) (plane : Fin 16) : State :=
  let clear (p : PeerEntry) : PeerEntry := { p with planes := p.planes &&& ~~~((1 : BitVec 16) <<< plane.val) }
  { s with fab := { s.fab with peers := s.fab.peers.map fun e => (e.1, clear e.2) } }

def State.setStation (s : State) (n : Fin 16) (up : Bool) : State :=
  { s with fab := { s.fab with stations := s.fab.stations.set n { s.fab.stations[n] with up := up } } }

/-- Bring-up of a station clears DOMAIN_EN, and the peer table may change again. With four lanes it trains, and discovery fills the peer table with what answers on
its plane; with fewer it is held down and logged. -/
def execStationBringup (n : Fin 16) (lanes : Fin 5) (answers : List (Fin 1024 × Option (BitVec 64))) (s : State) : Out :=
  let s := { s with fab := { s.fab with domainEn := false, fixed := false } }
  let s := s.losePlane n
  if lanes.val = 4 then ok (answers.foldl (fun s a => s.discover n a) (s.setStation n true))
  else ok ((s.setStation n false).logEvent 6 n.val)

/-- A station is lost: its plane leaves PLANES. -/
def execStationLoss (n : Fin 16) (s : State) : Out := ok ((s.setStation n false).losePlane n)

/-- FAB_ID: DEVID is written once. -/
def State.writeDevid (s : State) (v : Word) : State :=
  if s.fab.idSet then s else { s with fab := { s.fab with idSet := true, devid := Fin.ofNat 1024 (bits v 0 10) } }

def execDevid (v : Word) (s : State) : Out := ok (s.writeDevid v)

/-- FAB_CTL.DOMAIN_EN; discovery is complete on every station that has trained. Once it is set the peer table is fixed until the next
bring-up. -/
def State.writeDomain (s : State) (v : Word) : State :=
  { s with fab := { s.fab with domainEn := bit v 0, fixed := s.fab.fixed || bit v 0 } }

def execDomainEn (v : Word) (s : State) : Out := ok (s.writeDomain v)

/-- USEC as it acts: 0 is 1. -/
def usecOf (v : BitVec 32) : Nat := max 1 v.toNat

/-- Keep FAB_RSP_TIMEOUT greater than FE_TIMEOUT plus TOK_TIMEOUT: a write that breaks the relation raises it (R33), to the
largest value of the register where the sum does not fit it (log 102). -/
def Fabric.keepRelation (f : Fabric) : Fabric :=
  let sum := usecOf f.feTimeout + usecOf f.tokTimeout
  if usecOf f.rspTimeout ≤ sum then { f with rspTimeout := BitVec.ofNat 32 (min (sum + 1000) (2 ^ 32 - 1)) } else f

/-- A write of one of the fabric timeouts. -/
def State.writeTimeout (s : State) (r : FabTimeout) (v : Word) : State :=
  let u : BitVec 32 := v.setWidth 32
  let f := match r with
    | .fe => { s.fab with feTimeout := u }
    | .fabRsp => { s.fab with rspTimeout := u }
    | .tok => { s.fab with tokTimeout := u }
  { s with fab := f.keepRelation }

def execFabRspTimeoutWrite (r : FabTimeout) (v : Word) (s : State) : Out := ok (s.writeTimeout r v)

end Sys2Proof.Machine
end

