-- ==== Sys2Proof/Machine/LocalMem.lean ====
section
/-!
DEFINITION. Local loads and stores (spec/15 R228 to R231).
-/

namespace Sys2Proof.Machine

/-! ## Scalar forms (R228) -/

def execLlb (d a : XReg) (buf : Buf) (fe : LoadFe) (imm : BitVec 9) (s : State) : Out :=
  s.localLoad d a buf fe imm 1 (.sign 1)
def execLlbu (d a : XReg) (buf : Buf) (fe : LoadFe) (imm : BitVec 9) (s : State) : Out :=
  s.localLoad d a buf fe imm 1 (.zero 1)
def execLlh (d a : XReg) (buf : Buf) (fe : LoadFe) (imm : BitVec 9) (s : State) : Out :=
  s.localLoad d a buf fe imm 2 (.sign 2)
def execLlhu (d a : XReg) (buf : Buf) (fe : LoadFe) (imm : BitVec 9) (s : State) : Out :=
  s.localLoad d a buf fe imm 2 (.zero 2)
def execLlw (d a : XReg) (buf : Buf) (fe : LoadFe) (imm : BitVec 9) (s : State) : Out :=
  s.localLoad d a buf fe imm 4 (.sign 4)
def execLlwu (d a : XReg) (buf : Buf) (fe : LoadFe) (imm : BitVec 9) (s : State) : Out :=
  s.localLoad d a buf fe imm 4 (.zero 4)
def execLld (d a : XReg) (buf : Buf) (fe : LoadFe) (imm : BitVec 9) (s : State) : Out :=
  s.localLoad d a buf fe imm 8 (.zero 8)
def execSlb (d a : XReg) (buf : Buf) (fe : StoreFe) (imm : BitVec 9) (s : State) : Out :=
  s.localStore d a buf fe imm 1
def execSlh (d a : XReg) (buf : Buf) (fe : StoreFe) (imm : BitVec 9) (s : State) : Out :=
  s.localStore d a buf fe imm 2
def execSlw (d a : XReg) (buf : Buf) (fe : StoreFe) (imm : BitVec 9) (s : State) : Out :=
  s.localStore d a buf fe imm 4
def execSld (d a : XReg) (buf : Buf) (fe : StoreFe) (imm : BitVec 9) (s : State) : Out :=
  s.localStore d a buf fe imm 8

/-! ## Vector forms (R230, R231) -/

/-- The offset that a vector access captures at issue. -/
def State.vecOff (s : State) (a : XReg) (imm : BitVec 9) (buf : Buf) : Nat := localOff (s.rx a) 64 imm buf

/-- An address at issue: VLD and VST need o to be a multiple of 64. -/
def execVld (v : VReg) (a : XReg) (buf : Buf) (m : MReg) (imm : BitVec 9) (s : State) : Out :=
  let o := s.vecOff a imm buf
  if o % 64 ≠ 0 then ok (s.trap 1 (winGa s.cur.val buf o))
  else s.issueEntry (.vld v a buf m imm) (BitVec.ofNat 64 o) 0 none

/-- A VST to the matrix-queue address enqueues when it executes; handler code may not (spec/07 R104). -/
def execVst (v : VReg) (a : XReg) (buf : Buf) (m : MReg) (imm : BitVec 9) (s : State) : Out :=
  let o := s.vecOff a imm buf
  if o % 64 ≠ 0 then ok (s.trap 1 (winGa s.cur.val buf o))
  else if s.curH && s.cc.isQueueAddr buf o then ok s.forbidden
  else s.issueEntry (.vst v a buf m imm) (BitVec.ofNat 64 o) 0 none

/-- The trap of a strided or an indexed form at issue (R231), none where it is aligned. -/
def State.stridedTrap (s : State) (a : Word) (stride : Option Word) (buf : Buf) (e : Nat) : Option State :=
  if a.toNat % e ≠ 0 then some (s.trap 1 (winGa s.cur.val buf (a.toNat % buf.size)))
  else
    match stride with
    | some b => if b.toNat % e ≠ 0 then some (s.trap 1 (winGa s.cur.val buf ((a + b).toNat % buf.size))) else none
    | none => none

def execVlds (v : VReg) (a b : XReg) (buf : Buf) (m : MReg) (esz : Esz) (s : State) : Out :=
  match s.stridedTrap (s.rx a) (some (s.rx b)) buf (Esz.bytes esz) with
  | some s' => ok s'
  | none => s.issueEntry (.vlds v a b buf m esz) (s.rx a) (s.rx b) none
def execVsts (v : VReg) (a b : XReg) (buf : Buf) (m : MReg) (esz : Esz) (s : State) : Out :=
  match s.stridedTrap (s.rx a) (some (s.rx b)) buf (Esz.bytes esz) with
  | some s' => ok s'
  | none => s.issueEntry (.vsts v a b buf m esz) (s.rx a) (s.rx b) none
def execVldx (v : VReg) (a : XReg) (b : VReg) (buf : Buf) (m : MReg) (esz : Esz) (s : State) : Out :=
  match s.stridedTrap (s.rx a) none buf (Esz.bytes esz) with
  | some s' => ok s'
  | none => s.issueEntry (.vldx v a b buf m esz) (s.rx a) 0 none
def execVstx (v : VReg) (a : XReg) (b : VReg) (buf : Buf) (m : MReg) (esz : Esz) (s : State) : Out :=
  match s.stridedTrap (s.rx a) none buf (Esz.bytes esz) with
  | some s' => ok s'
  | none => s.issueEntry (.vstx v a b buf m esz) (s.rx a) 0 none

end Sys2Proof.Machine
end

