-- ==== Sys2Proof/Machine/Mgmt.lean ====
section
/-!
DEFINITION. The management hart and the scheduler hart at the device registers (spec/02, 05, 06, 08, 09), power and budgets
(spec/06 R77 to R82), sensors, logs and the fatal state (spec/06 R83, R90, R91, spec/01), firmware, attestation and
out-of-band access (spec/06 R84 to R88).
-/

namespace Sys2Proof.Machine

/-! ## Translation cache and accounting (spec/08 R122, spec/06 R88) -/

/-- Leaves in the scope of an invalidation. -/
def invHits (v : Word) (l : Leaf) : Bool :=
  match bits v 61 2 with
  | 0 => l.ctx.toNat == bits v 48 12 && l.page == bits v 16 32 * 2 ^ 16 / 2 ^ l.bits
  | 1 => l.ctx.toNat == bits v 48 12
  | 2 => true
  | _ => false

/-- Whether an access that a core made has neither been performed nor answered, and was translated through a leaf. -/
def Req.through (r : Req) (l : Leaf) : Bool :=
  (match r.phase with | .sent | .waiting _ => true | _ => false) && (match r.src with | .peer _ _ _ => false | .cache => false | _ => true)
    && bits r.ga 62 2 == 0 && l.covers r.ctx (bits r.ga 0 48)

/-- The same of an exchange transfer, which has not landed. -/
def State.xferThrough (s : State) (t : XTransfer) (l : Leaf) : Bool :=
  bits t.ga 62 2 == 0 && l.covers (s.core t.src).slot.ctx (bits t.ga 0 48)

/-- XLAT_INV: with GO the leaves in scope leave every cluster cache. GO reads 1 while an access translated through one of them is neither
performed nor answered. -/
def State.invalidate (s : State) (v : Word) : State :=
  let s := { s with dev := { s.dev with xlatInv := v &&& 0x6FFFFFFFFFFF0000 } }
  if bit v 63 then
    let gone := (s.tlb.map fun e => e.2.filter (invHits v)).flatten
    let behind := (s.net.filter fun r => gone.any r.through).map (·.id) ++ (s.xfers.filter fun t => gone.any (s.xferThrough t)).map (·.id)
    { s with tlb := s.tlb.map fun e => (e.1, e.2.filter fun l => !invHits v l), dev := { s.dev with invPend := s.dev.invPend ++ behind } }
  else s

/-- GO of XLAT_INV. -/
def State.invalidating (s : State) : Bool :=
  s.dev.invPend.any fun id => (s.xfers.any (·.id == id)) ||
    match s.req id with
    | some r => (match r.phase with | .sent | .waiting _ => true | _ => false)
    | none => false

def execXlatInv (v : Word) (s : State) : Out := ok (s.invalidate v)

def State.counters (s : State) (ctx : Nat) : Vector Word 16 := look (Vector.replicate 16 0) s.dev.acct ctx

/-- ACCT_CLR: the block of a context is cleared. -/
def State.clearAcct (s : State) (v : Word) : State :=
  { s with dev := { s.dev with acct := drop s.dev.acct (bits v 0 12) } }

def execAcctClr (v : Word) (s : State) : Out := ok (s.clearAcct v)

/-- ACCT_SNAP: with GO the block of a context is copied at one instant, and GO reads 0 again. -/
def State.snapAcct (s : State) (v : Word) : State :=
  let s := { s with dev := { s.dev with acctSnap := v &&& 0xFFF } }
  if bit v 63 then { s with dev := { s.dev with snapBuf := s.counters (bits v 0 12) } } else s

def execAcctSnap (v : Word) (s : State) : Out := ok (s.snapAcct v)

/-! ## Register writes -/

/-- The scheduler hart writes CTX of a Residency entry: the other fields take their reset values, and its price and capacity
are cleared (spec/22 R317, spec/11 R168). -/
def State.ownExpert (s : State) (e : Nat) (v : Word) : State :=
  let s := s.setRes e { ResEntry.reset with ctx := BitVec.ofNat 12 (bits v 32 12) }
  { s with prices := drop s.prices e, caps := drop s.caps e }

/-- Whether a request is pending for a region of this device (spec/02 R34). The spec does not say which requests count: the model counts a
move, queued acquires, and accesses that are on their way to the region or wait in a retry list, engines' among them (DESIGN CHOICE,
log 4). -/
def State.regionPending (s : State) (g : Nat) : Bool :=
  let t := s.token g
  t.moving || !t.queue.isEmpty
    || (s.net.any fun r => (match r.phase with | .sent | .waiting _ => true | _ => false) && r.touches s.own g)
    || s.engWaits.any fun w => devOf w.sys == s.own && physOf w.sys / 2 ^ 21 == g

/-- The scheduler hart writes a token-directory entry, while no request is pending for the region. -/
def State.writeToken (s : State) (g : Nat) (v : Word) : State :=
  let t := s.token g
  if s.regionPending g then s
  else s.setToken g { t with checked := bit v 15, holder := Fin.ofNat 1024 (bits v 0 10) }

/-- A peer-table entry: KEYSLOT and ENC, unless the table is fixed. -/
def State.writePeer (s : State) (d : Nat) (v : Word) : State :=
  if s.fab.fixed then s
  else { s with fab := { s.fab with peers := put s.fab.peers d { s.peer d with keyslot := BitVec.ofNat 8 (bits v 40 8), enc := bit v 3 } } }

/-- The scheduler hart writes word 0 or 1 of a bind record: word 0 is examined (spec/05 R68, R69). -/
def State.writeBind (s : State) (i : CoreIx) (word : Nat) (v : Word) : State :=
  let r : BindRec :=
    { prio := BitVec.ofNat 3 (bits v 57 3), ctx := BitVec.ofNat 12 (bits v 40 12), lid := BitVec.ofNat 16 (bits v 24 16),
      lrank := BitVec.ofNat 12 (bits v 12 12), seq := BitVec.ofNat 8 (bits v 4 8),
      crec := BitVec.ofNat 40 (bits (s.core i).slot.rec1 0 40) }
  if word = 1 then s.modCore i (·.withSlot fun t => { t with rec1 := v &&& 0xFFFFFFFFFF })
  else if word ≠ 0 then s
  else
    match bits v 60 4 with
    | 0 => s.takeRecord i 0 r
    | 1 => s.doBind i 1 r .new
    | 2 => s.doBind i 2 r .resume
    | 3 => s.doPreempt i r
    | 4 => s.doRelease i r
    | 5 => s.doFreeze i r
    | n => s.refuseRecord i n r

/-- FDUTY: 0 reads and acts as 1. -/
def fdutyOf (v : Word) : Word := BitVec.ofNat 64 (max 1 (bits v 0 5))

/-- A write of a management or scheduler register by its offset in a block of the map. -/
def State.writePower (s : State) (o : Nat) (v : Word) : State :=
  if o < 0x800 then { s with mgmt := { s.mgmt with budget := put s.mgmt.budget (o / 8) (BitVec.ofNat 20 (bits v 0 20)) } }
  else if 0x1000 ≤ o && o < 0x1800 then
    { s with mgmt := { s.mgmt with cap := put s.mgmt.cap ((o - 0x1000) / 8) (BitVec.ofNat 4 (bits v 20 4)) } }
  else if 0x10000 ≤ o && o < 0x18000 then
    s.modCore (toCore ((o - 0x10000) / 8)) fun c => { c with ctl := { c.ctl with fduty := fdutyOf v } }
  else if o = 0x20000 then
    { s with mgmt := { s.mgmt with kp := BitVec.ofNat 16 (bits v 0 16), ki := BitVec.ofNat 16 (bits v 16 16) } }
  else if o = 0x20008 then { s with mgmt := { s.mgmt with pkgLimit := BitVec.ofNat 12 (bits v 0 12) } }
  else if 0x100000 ≤ o && o < 0x108000 then
    { s with dev := { s.dev with wlSpill := put s.dev.wlSpill ((o - 0x100000) / 8) (v &&& 0x3FFFFFFFFFFFFFFF) } }
  else s

/-- The registers from 0xF0_0200_0000 on: timeouts. -/
def State.writeTimes (s : State) (o : Nat) (v : Word) : State :=
  if o = 0 then { s with dev := { s.dev with cvTimeout := v.setWidth 32 } }
  else if o = 8 then { s with dev := { s.dev with safeTimeout := v.setWidth 32 } }
  else if o = 0x10 then s.writeTimeout .fe v
  else if o = 0x18 then s.writeTimeout .fabRsp v
  else if o = 0x20 then s.writeTimeout .tok v
  else s

/-- QI_CTL: IEN, then REVOKE, then EN. -/
def State.writeQiCtl (s : State) (q : Fin 64) (v : Word) : State :=
  let s := s.setQi q { s.qi q with ien := bit v 4 }
  let s := if bit v 1 then s.revokeQi q else s
  if bit v 0 then s.enableQi q else s.disableQi q

/-- A queue interface's registers; its bases and its configuration only while it is DISABLED. -/
def State.writeQi (s : State) (q : Fin 64) (o : Nat) (v : Word) : State :=
  let x := s.qi q
  if o = 0x18 then s.writeQiCtl q v
  else if x.st ≠ .disabled then s
  else if o = 0 then s.setQi q { x with sqBase := v &&& 0xFFFFFFFFFFFFFFC0 }
  else if o = 8 then s.setQi q { x with cqBase := v &&& 0xFFFFFFFFFFFFFFC0 }
  else if o = 0x10 then
    s.setQi q { x with pasid := BitVec.ofNat 20 (bits v 32 20), ctx := BitVec.ofNat 12 (bits v 20 12),
                       cqLog2 := BitVec.ofNat 5 (bits v 5 5), sqLog2 := BitVec.ofNat 5 (bits v 0 5) }
  else s

/-- BAR2 (spec/04 R54, R56), which only the driver writes. The spec does not say what FEATURES_OK = 0 does to ACTIVE interfaces: the model lets
them go on while no feature operates (DESIGN CHOICE, log 114). -/
def State.writeBar2 (s : State) (o : Nat) (v : Word) : State :=
  if o = 0 then { s with host := { s.host with featSel := BitVec.ofNat 2 (bits v 0 2) } }
  else if o = 0x10 then
    if s.host.featOk then s
    else { s with host := { s.host with featDrv := s.host.featDrv.set s.host.featSel.toFin v } }
  else if o = 0x18 then
    if bit v 3 then s.resetHost
    else if bit v 1 then
      match execFeaturesOk s with
      | .next s' => s'
      | _ => s
    else { s with host := { s.host with featOk := false } }
  else if 0x1000 ≤ o && o < 0x2000 then s.writeQi (Fin.ofNat 64 ((o - 0x1000) / 64)) ((o - 0x1000) % 64) v
  else s

/-- A write of BAR4: an entry of the MSI-X table, 16 bytes a vector; a vector that is unmasked sends what is pending (spec/04 R50, R53;
log 100). The pending-bit array is not written. -/
def State.writeBar4 (s : State) (o : Nat) (v : Word) : State :=
  if 0x400 ≤ o then s
  else
    let n := o / 16
    let x := s.vector n
    if o % 16 = 0 then { s with host := { s.host with msix := put s.host.msix n { x with addr := v } } }
    else
      let y := { x with data := v.setWidth 32, masked := bit v 32 }
      let s := { s with host := { s.host with msix := put s.host.msix n y } }
      if !y.masked && s.host.pba.contains n then
        { s with host := { s.host with pba := s.host.pba.erase n } }.hostOut (.msix (Fin.ofNat 64 n))
      else s

/-- A write of a notify page, of 4 bytes or of another width: at another offset or width it is ignored and counted while the interface is
ACTIVE (spec/04 R53). -/
def State.writeNotify (s : State) (o : Nat) (four : Bool) (v : Word) : State :=
  let q : Fin 64 := Fin.ofNat 64 (o / 0x1000)
  let x := s.qi q
  let seen (o : Out) : State := match o with | .next s' => s' | _ => s
  if four && o % 0x1000 = 0 then seen (execSqTail q (v.setWidth 32) s)
  else if four && o % 0x1000 = 8 then seen (execCqHead q (v.setWidth 32) s)
  else if x.st = .active then s.setQi q { x with errors := x.errors + 1 }
  else s

/-- A write of a device register by the hart that may write it, or of a BAR by the driver, at the model's own addresses (log 100): BAR2
below 0x1_0000, BAR4 from 0x1_0000, BAR0 from 0x4_0000 with 4 bytes and from 0x8_0000 with another width. Addresses without a register
that software writes change nothing. -/
def State.writeReg (s : State) (a : Nat) (v : Word) : State :=
  if a < 0x10000 then s.writeBar2 a v
  else if a < 0x14000 then s.writeBar4 (a - 0x10000) v
  else if 0x40000 ≤ a && a < 0x80000 then s.writeNotify (a - 0x40000) true v
  else if 0x80000 ≤ a && a < 0xC0000 then s.writeNotify (a - 0x80000) false v
  else if a = 0xF000000008 then s.writeDevid v
  else if a = 0xF000000010 then s.writeDomain v
  else if 0xF000010000 ≤ a && a < 0xF000012000 then s.writePeer ((a - 0xF000010000) / 8) v
  else if 0xF001000000 ≤ a && a < 0xF001100000 then s.writeToken ((a - 0xF001000000) / 2) v
  else if 0xF002000000 ≤ a && a < 0xF002000028 then s.writeTimes (a - 0xF002000000) v
  else if 0xF003000000 ≤ a && a < 0xF003000C00 then
    { s with dev := { s.dev with fabImport := put s.dev.fabImport ((a - 0xF003000000) / 8) (v &&& 0x8000000000000FFF) } }
  else if 0xF003800000 ≤ a && a < 0xF003808000 then
    { s with dev := { s.dev with xlatRoot := put s.dev.xlatRoot ((a - 0xF003800000) / 8) (v &&& 0x800000FFFFE00000) } }
  else if a = 0xF003808000 then s.invalidate v
  else if 0xF004000000 ≤ a && a < 0xF004020000 then
    s.writeBind (toCore ((a - 0xF004000000) / 32)) ((a - 0xF004000000) % 32 / 8) v
  else if resBase ≤ a && a < resBase + 0x8000 then
    if a % 32 = 0 then s.ownExpert ((a - resBase) / 32) v else s
  else if 0xF00A000000 ≤ a && a < 0xF00A200000 then s.writePower (a - 0xF00A000000) v
  else if a = 0xF00C080000 then s.clearAcct v
  else if a = 0xF00C080008 then s.snapAcct v
  else s

def execRegisterWrite (addr : BitVec 40) (v : Word) (s : State) : Out := ok (s.writeReg addr.toNat v)

/-! ## Budgets (spec/06 R78 to R80) -/

/-- PKG_LIMIT as it acts, in milliwatts. -/
def Mgmt.limit (m : Mgmt) : Nat := max 512 (min 2800 m.pkgLimit.toNat) * 1000

def State.budget (s : State) (k : Nat) : Nat := (look (6000 : BitVec 20) s.mgmt.budget k).toNat
def State.capOf (s : State) (k : Nat) : Nat := (look (15 : BitVec 4) s.mgmt.cap k).toNat
def State.vstepOf (s : State) (k : Nat) : Nat := (look (15 : BitVec 4) s.mgmt.vstep k).toNat
def State.estOf (s : State) (k : Nat) : Nat := (look (0 : BitVec 16) s.mgmt.est k).toNat

/-- Demands in milliwatts: a cluster with no bound core has none. -/
def State.demands (s : State) (d : List Nat) : List Nat :=
  (List.range 256).map fun k =>
    if s.cores.any fun c => c.2.slot.st ≠ .idle && clusterOf c.1 = k then d.getD k 0 else 0

/-- The level lam with Σ min(D_k, lam) = avail, in milliwatts and rounded down: over the demands in rising order, the first n
below it. -/
def level : List Nat → Nat → Nat → Nat
  | [], _, avail => avail
  | d :: r, n, avail => if d * n ≤ avail then level r (n - 1) (avail - d) else avail / n

def insertNat (x : Nat) : List Nat → List Nat
  | [] => [x]
  | y :: r => if x ≤ y then x :: y :: r else y :: insertNat x r

def sortNat (l : List Nat) : List Nat := l.foldr insertNat []

/-- B_k before the temperature rule; what the integers of MW cannot hold is rounded down (log 43). -/
def budgets (avail : Int) (d : List Nat) : List Nat :=
  if avail < 0 then d.map fun _ => 1000
  else
    let a := avail.toNat
    let sum := d.foldl (· + ·) 0
    if sum ≤ a then d.map fun x => 1000 + x + (a - sum) / 256
    else
      let lam := level (sortNat d) d.length a
      d.map fun x => 1000 + min x lam

/-- CL_BUDGET_k of a period. -/
def State.newBudget (s : State) (b : List Nat) (k : Nat) : BitVec 20 :=
  let n := b.getD k 1000
  let n := if 95 < s.mgmt.sensors.temps.getD k 0 then min n (s.budget k * 9 / 10) else n
  BitVec.ofNat 20 (min n (2 ^ 20 - 1))

/-- The shipped firmware moves FDUTY of the cores of a cluster: down by 2 while it stands at step 0 with its estimate above its
budget, up by 1 afterwards (R79). -/
def State.dutyCore (s : State) (i : CoreIx) : State :=
  let k := clusterOf i.val
  let d := max 1 (min 16 (bits (s.core i).ctl.fduty 0 5))
  let n := if s.vstepOf k = 0 && s.budget k < s.estOf k then max 1 (d - 2) else min 16 (d + 1)
  if n = d then s else s.modCore i fun c => { c with ctl := { c.ctl with fduty := BitVec.ofNat 64 n } }

/-- VDD_CORE current in milliamperes, from the last sample. -/
def Mgmt.coreCurrent (m : Mgmt) : Nat := (m.sensors.rails.getD 0 (0, 0)).2

/-- A budget period: demands in milliwatts as the estimators give them, and the power of the rails that P_AVAIL subtracts. -/
def execBudgetPeriod (demand : List Nat) (otherRails : Nat) (s : State) : Out :=
  let b := budgets ((s.mgmt.limit : Int) - otherRails - 256000) (s.demands demand)
  let new := (List.range 256).map fun k => (k, s.newBudget b k)
  let low := s.mgmt.coreCurrent < 2850000
  let cap := if low then s.mgmt.cap.map fun c => (c.1, if c.2 = 15 then c.2 else c.2 + 1) else s.mgmt.cap
  let s := { s with mgmt := { s.mgmt with budget := new, cap := cap } }
  ok ((List.finRange 4096).foldl State.dutyCore s)

/-- nearest(n / d), halves away from zero. -/
def nearest (n : Int) (d : Nat) : Int := if 0 ≤ n then (2 * n + d) / (2 * d) else -((2 * -n + d) / (2 * d))

def clampI (lo hi x : Int) : Int := max lo (min hi x)

/-- A controller interval of a cluster, with its estimate in milliwatts. -/
def execControllerInterval (k : Fin 256) (est : BitVec 16) (s : State) : Out :=
  let e : Int := (s.budget k.val : Int) - est.toNat
  let i := clampI (-32000) 32000 (look 0 s.mgmt.integ k.val + e)
  let u := (s.mgmt.kp.toNat : Int) * e + (s.mgmt.ki.toNat : Int) * i
  let n := clampI 0 (s.capOf k.val) ((s.vstepOf k.val : Int) + clampI (-4) 1 (nearest u 256000))
  ok { s with mgmt := { s.mgmt with
    est := put s.mgmt.est k.val est
    integ := put s.mgmt.integ k.val i
    vstep := put s.mgmt.vstep k.val (BitVec.ofNat 4 n.toNat) } }

/-- VDD_CORE exceeds its limit: every cluster's CAP falls by 2. -/
def execCurrentLimit (s : State) : Out :=
  ok { s with mgmt := { s.mgmt with cap := (List.range 256).map fun k => (k, BitVec.ofNat 4 (s.capOf k - 2)) } }

/-! ## Gating (R81) -/

/-- The kind of a unit. -/
def unitKind : GatedUnit → Fin 4
  | .band _ => 0
  | .vector => 1
  | .sfu => 2
  | .copy => 3

/-- Whether a unit is switched off: a band that ARRAY_SHAPE does not select (R82). -/
def Core.switchedOff (c : Core) (u : GatedUnit) : Bool :=
  match u with
  | .band b => !c.mat.bands.getLsbD b.val
  | _ => false

/-- The place of a unit's predictor. -/
def unitIx : GatedUnit → Fin 7
  | .band b => ⟨b.val, by omega⟩
  | .vector => 4
  | .sfu => 5
  | .copy => 6

/-- A unit wakes after an idle time: its predictor moves, and says whether the unit may be gated in its next idle time. Nothing wakes a
band that is switched off (R82). -/
def execUnitWake (k : CoreIx) (u : GatedUnit) (idle : Nat) (s : State) : Out :=
  ok (s.modCore k fun c =>
    if c.switchedOff u then c
    else
      let t := (3 * c.pwr.t[unitIx u] + idle) / 4
      let pays := decide (Config.ePair (unitKind u) < Config.pLeak (unitKind u) * t)
      { c with pwr := { t := c.pwr.t.set (unitIx u) t, gated := c.pwr.gated.set (unitIx u) pays } })

/-! ## Sensors and the fatal state (R83, R91, spec/01 R18, R21, R22, R25) -/

def execSensorSample (r : SensorReading) (s : State) : Out := ok { s with mgmt := { s.mgmt with sensors := r } }

/-- A nonzero block is written to the persistent error log: its event, then its 128 bytes. -/
def State.logBlock (s : State) (p : Nat × Vector Word 16) : State :=
  if p.2.toList.all (· == 0) then s
  else
    let s := s.logEvent 9 p.1
    let raws := (List.range 8).map fun i => LogEntry.raw (p.2.toList.getD (2 * i) 0) (p.2.toList.getD (2 * i + 1) 0)
    { s with mgmt := { s.mgmt with plog := raws.foldl logPut s.mgmt.plog } }

/-- The device enters the fatal state: cores and engines stop, FATAL_N is asserted, the event is logged, the accounting blocks
too, and DOMAIN_EN is cleared. The event that entered it stays in DEV_STATUS. -/
def State.enterFatal (s : State) (code : BitVec 8) (subject : Nat) : State :=
  let s := s.logEvent code subject
  if s.mgmt.fatal.isSome then s
  else
    let s := { s with mgmt := { s.mgmt with fatal := some (code, BitVec.ofNat 24 subject) }, fab := { s.fab with domainEn := false } }
    s.dev.acct.foldl State.logBlock s

def execRailFault (rail : Fin 9) (s : State) : Out := ok (s.enterFatal 1 rail.val)
def execClockLoss (clock : Fin 2) (s : State) : Out := ok (s.enterFatal 2 clock.val)

/-- A trip at 110 °C also asserts THERM_N and drives VDD_CORE off. -/
def execThermalTrip (sensor : Fin 258) (s : State) : Out :=
  let s := s.enterFatal 3 sensor.val
  ok { s with mgmt := { s.mgmt with thermN := false, powered := false } }

/-- DEV_STATUS (R91). -/
def State.devStatus (s : State) : Word :=
  match s.mgmt.fatal with
  | some (c, x) => BitVec.ofNat 64 (1 + c.toNat * 2 ^ 8 + x.toNat * 2 ^ 16)
  | none => 0

/-! ## Die-to-die links, stacks and logs (spec/01 R14 to R18, R90) -/

def linkKey (die link : Nat) : Nat := 16 * die + link

/-- The neighbours of a die in the mesh of four by two, ascending. -/
def dieNeighbours (d : Nat) : List Nat :=
  (List.range 8).filter fun e => (e / 4 = d / 4 && (e + 1 = d || d + 1 = e)) || e + 4 = d || d + 4 = e

/-- A link by one key, whichever end names it: the Caravanserai's by its die, a neighbour link by the lower of its dies; none for a link
that a die does not have. -/
def linkAt (die : DieIx) (link : Fin 16) : Option Nat :=
  if link.val = 15 then some (linkKey die.val 15)
  else
    match (dieNeighbours die.val)[link.val]? with
    | none => none
    | some e =>
      let a := min die.val e
      some (linkKey a ((dieNeighbours a).idxOf (max die.val e)))

/-- Modules of a link: 16 to the Caravanserai, 8 to a neighbour (R16). -/
def linkModules (link : Nat) : Nat := if link = 15 then 16 else 8

/-- A link event counts in the die's counter of the link (R17). -/
def execLinkRetry (die : DieIx) (link : Fin 16) (s : State) : Out :=
  let k := linkKey die.val link.val
  if (linkAt die link).isNone then ok s
  else ok { s with dev := { s.dev with linkCount := put s.dev.linkCount k (look 0 s.dev.linkCount k + 1) } }

/-- The modules that a link lacks, with one more. -/
def State.dropModule (s : State) (key : Nat) (module : Fin 16) : State :=
  let old := look [] s.dev.modules key
  if old.contains module then s else { s with dev := { s.dev with modules := put s.dev.modules key (old ++ [module]) } }

/-- A module is lost: logged, with the end that reports it (log 108); with the last one the link is. -/
def execModuleFailure (die : DieIx) (link module : Fin 16) (s : State) : Out :=
  match linkAt die link with
  | none => ok s
  | some key =>
    if linkModules link.val ≤ module.val then ok s
    else
      let s := (s.dropModule key module).logEvent 5 (256 * die.val + 16 * link.val + module.val)
      ok (if linkModules link.val ≤ (look [] s.dev.modules key).length then s.enterFatal 4 (linkKey die.val link.val) else s)

def execLinkLoss (die : DieIx) (link : Fin 16) (s : State) : Out :=
  ok (if (linkAt die link).isSome then s.enterFatal 4 (linkKey die.val link.val) else s)

/-- Refresh affects latency only. -/
def execRefresh (_die : DieIx) (_port : Fin 16) (s : State) : Out := ok s

/-- The unit of ECC at an address is uncorrectable: every access to it is answered with an error, those that wait at its words at once
(R14). -/
def State.spoil (s : State) (a : Nat) : State :=
  let u := eccUnit a
  if s.bad.contains u then s else { s with bad := u :: s.bad, weak := s.weak.filter (· ≠ u) }.examine (wordsOf u (eccLen u))

/-- An error falls on a stored word or burst (spec/06 R89). -/
def State.upset (s : State) (a : Nat) (correctable : Bool) : State :=
  let u := eccUnit a
  if !(inStacks a || a < 2 ^ 32) then s
  else if !correctable then s.spoil a
  else if s.bad.contains u || s.weak.contains u then s
  else { s with weak := u :: s.weak }

/-- Patrol scrubbing of a burst of a die's stack: what is corrected is counted and written back unchanged; a burst that it finds
uncorrectable answers every access with an error. -/
def execPatrolScrub (die : DieIx) (burst : BitVec 40) (correctable : Bool) (s : State) : Out :=
  let u := eccUnit burst.toNat
  if !inStacks burst.toNat || (homeOf burst.toNat).die ≠ some die.val then ok s
  else if correctable then ok ((if s.weak.contains u then s else s.upset u true).correct u 64)
  else ok (s.spoil u)

/-- The management hart copies the next entry of a die's violation log. -/
def execViolationLogCopy (die : DieIx) (s : State) : Out :=
  let v := s.vlog die.val
  if v.count ≤ v.copied then ok s
  else
    match lookup v.entries (v.copied % 64) with
    | none => ok (s.setVlog die.val { v with copied := v.copied + 1 })
    | some e =>
      let s := s.setVlog die.val { v with copied := v.copied + 1 }
      ok { s with mgmt := { s.mgmt with plog := logPut s.mgmt.plog (.violation e) } }

/-! ## Firmware (R84) -/

/-- A number of an image, little-endian. -/
def imageNat (bs : List Byte) (off n : Nat) : Nat := ofBytes ((bs.drop off).take n)

/-- The fields of an image by their offsets. -/
def fwImage (bs : List Byte) : FwImage :=
  let part (off n : Nat) : List Byte := (bs.drop off).take n
  { magic := BitVec.ofNat 32 (imageNat bs 0 4), svn := BitVec.ofNat 32 (imageNat bs 4 4), len := BitVec.ofNat 64 (imageNat bs 8 8),
    digest := BitVec.ofNat 384 (imageNat bs 0x10 48), edSig := part 0x40 64, mlSig := part 0x80 3309, edKey := part 0xD80 32,
    mlKey := part 0xDA0 1952, body := part 0x2000 (imageNat bs 8 8) }

/-- Bytes 0 to 63, which the signatures cover. -/
def imageHead (i : FwImage) : List Byte :=
  toBytes 4 i.magic.toNat ++ toBytes 4 i.svn.toNat ++ toBytes 8 i.len.toNat ++ toBytes 48 i.digest.toNat

/-- Whether both signatures of an image are whole and verify under its keys. -/
def imageSigned (i : FwImage) : Bool :=
  i.edKey.length == 32 && i.edSig.length == 64 && Config.edVerify i.edKey i.edSig (imageHead i)
    && i.mlKey.length == 1952 && i.mlSig.length == 3309 && Config.mlVerify i.mlKey i.mlSig (imageHead i)

/-- Whether an image is valid against the fused keys and version. -/
def Mgmt.valid (m : Mgmt) (i : FwImage) : Bool :=
  i.magic == 0x464C4657 && Config.sha384 i.edKey == m.fusedKeys.1 && Config.sha384 i.mlKey == m.fusedKeys.2 && imageSigned i
    && i.body.length == i.len.toNat && Config.sha384 i.body == i.digest && i.svn.toNat ≤ 64 && m.fuseSvn ≤ i.svn.toNat
    && i.len.toNat ≤ 12 * 2 ^ 20 - 8 * 2 ^ 10

/-- An image is written to the slot that did not boot; an invalid one is refused, and logged. -/
def execFirmwareImageWrite (slot : Bool) (bytes : List Byte) (s : State) : Out :=
  let img := fwImage bytes
  let n := if slot then 1 else 0
  if s.mgmt.booted = some slot then ok s
  else
    let s := { s with mgmt := if slot then { s.mgmt with slotB := some img } else { s.mgmt with slotA := some img } }
    ok (if s.mgmt.valid img then s else s.logEvent 0x0B n)

/-- The booted image. -/
def Mgmt.image (m : Mgmt) : Option FwImage :=
  match m.booted with
  | some true => m.slotB
  | some false => m.slotA
  | none => none

/-- Fuses are blown up to the version of the image that has booted. -/
def execFirmwareCommit (s : State) : Out :=
  match s.mgmt.image with
  | none => ok s
  | some i => ok { s with mgmt := { s.mgmt with fuseSvn := max s.mgmt.fuseSvn i.svn.toNat, committed := true } }

/-- The slot that the root of trust boots: the valid one with the higher version, A when they are equal. -/
def Mgmt.boot (m : Mgmt) : Option Bool :=
  let good (x : Option FwImage) : Option Nat :=
    match x with
    | some i => if m.valid i then some i.svn.toNat else none
    | none => none
  match good m.slotA, good m.slotB with
  | none, none => none
  | some _, none => some false
  | none, some _ => some true
  | some a, some b => some (a < b)

/-- A slot that holds an invalid image is logged at boot. -/
def State.logRefused (s : State) (x : Option FwImage) (n : Nat) : State :=
  match x with
  | some i => if s.mgmt.valid i then s else s.logEvent 0x0B n
  | none => s

/-- The links with the modules that have not trained. -/
def untrainedLinks (l : List (DieIx × Fin 16 × Fin 16)) : Assoc (List (Fin 16)) :=
  l.foldl (fun t m =>
    match linkAt m.1 m.2.1 with
    | none => t
    | some key =>
      let old := look [] t key
      if linkModules m.2.1.val ≤ m.2.2.val || old.contains m.2.2 then t else put t key (old ++ [m.2.2])) []

/-- Whether every link has at least half its modules trained (spec/01 R18). -/
def linksTrained (t : Assoc (List (Fin 16))) : Bool := t.all fun e => 2 * e.2.length ≤ linkModules (e.1 % 16)

/-- The device after reset: what outlasts it is the persistent store with its log, the fuses, the lock state and the counters
that make numbers and free values new. Self-test fails with a link of which fewer than half the modules have trained. -/
def State.restart (s : State) (selfTest : Bool) (untrained : List (DieIx × Fin 16 × Fin 16)) (acct : Assoc (Vector Word 16)) : State :=
  let b := s.mgmt.boot
  let t := untrainedLinks untrained
  let up := b.isSome && selfTest && linksTrained t
  let m := { Mgmt.reset with plog := s.mgmt.plog, slotA := s.mgmt.slotA, slotB := s.mgmt.slotB, booted := b, config := s.mgmt.config,
                             fuseSvn := s.mgmt.fuseSvn, bootSvn := s.mgmt.fuseSvn, bootConfig := s.mgmt.config, fusedKeys := s.mgmt.fusedKeys, locked := s.mgmt.locked, compute := up }
  let r := { State.reset with mgmt := m, agenda := s.agenda, nextId := s.nextId, free := s.free + 1,
                              host := { HostPort.reset with ready := up },
                              dev := { DevRegs.reset with acct := acct, modules := t } }
  (r.logRefused m.slotA 0).logRefused m.slotB 1

/-- Power comes up in order, the clocks are present, the links train, self-test ends; where it fails the device presents no compute
function. Whether it passes is an operand, and which modules train is free (log 103). -/
def execPowerUp (selfTestOk : Bool) (s : State) : Out := ok (s.restart selfTestOk (Config.untrained s.free) [])

/-- PERST_N: reset, followed by self-test, whose outcome is free (log 103); it leaves the fatal state (R91), and the accounting blocks
stay (R88). -/
def execPerstN (s : State) : Out := ok (s.restart (Config.selfTest s.free) (Config.untrained s.free) s.dev.acct)

/-! ## Attestation and out-of-band access (R85, R86, R88) -/

/-- The words of a digest. -/
def digestWords (d : BitVec 384) : List Word := (List.range 6).map fun i => BitVec.ofNat 64 (d.toNat / 2 ^ (64 * i))

/-- The measurement blocks, the same for both certificate slots and throughout a boot: ROM, the booted image, and the configuration area,
FUSE_SVN and the lock state as they stood at the boot. -/
def Mgmt.measure (m : Mgmt) : List Word :=
  digestWords Config.romDigest ++ digestWords ((m.image.map (·.digest)).getD 0) ++
    digestWords (Config.configDigest m.bootConfig) ++ [BitVec.ofNat 64 m.bootSvn, if m.locked then 1 else 0]

/-- The answer to an out-of-band request. -/
def State.tell (s : State) (ws : List Word) : State := { s with mgmt := { s.mgmt with answers := s.mgmt.answers ++ [ws] } }

/-- The management hart writes a byte of the configuration and calibration area (R83). -/
def State.configure (s : State) (o : BitVec 22) (v : Byte) : State :=
  { s with mgmt := { s.mgmt with config := writeLE s.mgmt.config o.toNat 1 v.toNat } }

/-- Install the key of a phase in a key slot: its counter starts, and it is the key in use (spec/02 R36). -/
def State.installKey (s : State) (slot : BitVec 8) (phase : Bool) : State :=
  let i : Fin 2 := if phase then 1 else 0
  let k := look KeySlot.reset s.fab.keys slot.toNat
  let k := { k with kphase := phase, installed := k.installed.set i true, counter := k.counter.set i 0 }
  { s with fab := { s.fab with keys := put s.fab.keys slot.toNat k } }

/-- Measurements with the slot's signature over them and the nonce; a slot's certificates; keys, which only an authenticated session
installs. -/
def execSpdmRequest (r : SpdmReq) (s : State) : Out :=
  match r with
  | .measurements slot nonce => ok (s.tell (s.mgmt.measure ++ Config.spdmSig slot nonce s.mgmt.measure))
  | .certificate slot => ok (s.tell (Config.certificate slot))
  | .fabricKey slot phase authenticated => if authenticated then ok ((s.installKey slot phase).tell []) else ok s
  | .ideKey n authenticated =>
    let l := if s.mgmt.ideKeys.contains n then s.mgmt.ideKeys else s.mgmt.ideKeys ++ [n]
    if authenticated then ok ({ s with mgmt := { s.mgmt with ideKeys := l } }.tell []) else ok s

/-- The two doublewords of an entry of the persistent log (R83, R90). -/
def LogEntry.words : LogEntry → List Word
  | .violation e =>
    [BitVec.ofNat 64 (e.status.toNat * 2 ^ 60 + e.dev.toNat * 2 ^ 50 + e.addr.toNat),
     BitVec.ofNat 64 (e.core.toNat * 2 ^ 52 + e.src.toNat * 2 ^ 48 + e.time.toNat)]
  | .event c x t => [BitVec.ofNat 64 (c.toNat * 2 ^ 24 + x.toNat), BitVec.ofNat 64 (0xF * 2 ^ 48 + t.toNat)]
  | .raw a b => [a, b]

/-- Type 0x7E: the counters of a context through their own area, or the error log. -/
def execOobAccountingRead (r : OobReq) (s : State) : Out :=
  match r with
  | .counters ctx =>
    let c := s.counters ctx.toNat
    ok ({ s with dev := { s.dev with oobBuf := c } }.tell c.toList)
  | .errorLog => ok (s.tell (s.mgmt.plog.map LogEntry.words).flatten)

/-- Sensor values as PLDM reports them. -/
def sensorWords (r : SensorReading) : List Word :=
  (r.temps ++ (r.rails.map fun p => [p.1, p.2]).flatten ++ r.diodes).map (BitVec.ofNat 64)

def execPldmMonitoringAndControl (r : PldmReq) (s : State) : Out :=
  match r with
  | .readSensors => ok (s.tell (sensorWords s.mgmt.sensors))
  | .setPkgLimit w => ok ({ s with mgmt := { s.mgmt with pkgLimit := w } }.tell [])
  | .mctpControl => ok (s.tell [])

/-! ## Reading device registers (spec/00 R4) -/

/-- Bits 3:2 of QI_CTL. -/
def qiCode : QiState → Nat
  | .disabled => 0
  | .active => 1
  | .error => 2
  | .revoked => 3

/-- The registers of a queue interface; REVOKE reads zero (spec/04 R56). -/
def Qi.read (x : Qi) (o : Nat) : Word :=
  if o = 0 then x.sqBase
  else if o = 8 then x.cqBase
  else if o = 0x10 then
    BitVec.ofNat 64 (x.pasid.toNat * 2 ^ 32 + x.ctx.toNat * 2 ^ 20 + x.cqLog2.toNat * 2 ^ 5 + x.sqLog2.toNat)
  else if o = 0x18 then
    BitVec.ofNat 64 (x.err.toNat * 2 ^ 8 + (if x.ien then 16 else 0) + qiCode x.st * 4
      + (if x.st ≠ .disabled && !x.closing then 1 else 0))
  else if o = 0x20 then BitVec.ofNat 64 (x.cqTail % 65536 * 2 ^ 16 + x.sqHead % 65536)
  else 0

/-- BAR2; RESET reads zero (spec/04 R54, R56, spec/06 R91). -/
def State.readBar2 (s : State) (o : Nat) : Word :=
  if o = 0 then s.host.featSel.setWidth 64
  else if o = 8 then Config.featDev s.host.featSel
  else if o = 0x10 then s.host.featDrv[s.host.featSel.toFin]
  else if o = 0x18 then
    BitVec.ofNat 64 ((if s.host.featBad then 4 else 0) + (if s.host.featOk then 2 else 0) + (if s.host.ready then 1 else 0))
  else if o = 0x20 then s.devStatus
  else if 0x1000 ≤ o && o < 0x2000 then (s.qi (Fin.ofNat 64 ((o - 0x1000) / 64))).read ((o - 0x1000) % 64)
  else 0

/-- BAR4: the MSI-X table and the pending bits (log 100). -/
def State.readBar4 (s : State) (o : Nat) : Word :=
  if o < 0x400 then
    let x := s.vector (o / 16)
    if o % 16 = 0 then x.addr else BitVec.ofNat 64 (x.data.toNat + (if x.masked then 2 ^ 32 else 0))
  else if o = 0x400 then BitVec.ofNat 64 (s.host.pba.foldl (fun w n => w ||| 2 ^ n) 0)
  else 0

/-- A notify page: the last value written (spec/04 R53). -/
def State.readNotify (s : State) (o : Nat) : Word :=
  let x := s.qi (Fin.ofNat 64 (o / 0x1000))
  if o % 0x1000 = 0 then x.sqTail.setWidth 64 else if o % 0x1000 = 8 then x.cqHead.setWidth 64 else 0

/-- A peer-table entry (spec/02 R29). -/
def PeerEntry.word (p : PeerEntry) : Word :=
  BitVec.ofNat 64 (p.planes.toNat * 2 ^ 48 + p.keyslot.toNat * 2 ^ 40 + (if p.enc then 8 else 0) + (if p.xt then 4 else 0)
    + (if p.foreign then 2 else 0) + (if p.valid then 1 else 0))

/-- A token-directory entry (spec/02 R34). -/
def TokEntry.word (t : TokEntry) : Word :=
  BitVec.ofNat 64 ((if t.checked then 2 ^ 15 else 0) + (if t.moving then 2 ^ 14 else 0) + t.holder.val)

/-- STATE of SLOT_STAT. -/
def slotCode : SlotSt → Nat
  | .idle => 0
  | .loading => 1
  | .running => 2
  | .stopping => 3
  | .saving => 4
  | .frozen => 5
  | .halted => 6

/-- SLOT_STAT (spec/05 R68). -/
def Slot.stat (t : Slot) : Word :=
  BitVec.ofNat 64 (t.aseq.toNat * 2 ^ 16 + (if t.err then 2 ^ 15 else 0) + slotCode t.st * 2 ^ 8 + t.skind.toNat * 2 ^ 6)

/-- The timeouts of spec/02 R33, spec/03 R44 and spec/05 R73. -/
def State.readTimes (s : State) (o : Nat) : Word :=
  if o = 0 then s.dev.cvTimeout.setWidth 64
  else if o = 8 then s.dev.safeTimeout.setWidth 64
  else if o = 0x10 then s.fab.feTimeout.setWidth 64
  else if o = 0x18 then s.fab.rspTimeout.setWidth 64
  else if o = 0x20 then s.fab.tokTimeout.setWidth 64
  else 0

/-- The block of budgets, steps, fetch duties, gains and spill areas (spec/06 R78 to R80, spec/09 R140). -/
def State.readPower (s : State) (o : Nat) : Word :=
  if o < 0x800 then BitVec.ofNat 64 (s.budget (o / 8))
  else if 0x1000 ≤ o && o < 0x1800 then
    let k := (o - 0x1000) / 8
    BitVec.ofNat 64 (s.capOf k * 2 ^ 20 + s.vstepOf k * 2 ^ 16 + s.estOf k)
  else if 0x10000 ≤ o && o < 0x18000 then fdutyOf (s.core (toCore ((o - 0x10000) / 8))).ctl.fduty
  else if o = 0x20000 then BitVec.ofNat 64 (s.mgmt.kp.toNat + s.mgmt.ki.toNat * 2 ^ 16)
  else if o = 0x20008 then s.mgmt.pkgLimit.setWidth 64
  else if 0x100000 ≤ o && o < 0x108000 then look 0 s.dev.wlSpill ((o - 0x100000) / 8)
  else 0

/-- A die's violation log and VLOG_CNT (spec/06 R90). -/
def State.readVlog (s : State) (die o : Nat) : Word :=
  let v := s.vlog die
  if o < 0x400 then
    match lookup v.entries (o / 16) with
    | some e => (LogEntry.words (.violation e)).getD (o / 8 % 2) 0
    | none => 0
  else if o = 0x400 then BitVec.ofNat 64 v.count
  else 0

/-- Accounting: the blocks, ACCT_SNAP with its GO at rest, and the snapshot (spec/06 R87, R88). -/
def State.readAcct (s : State) (o : Nat) : Word :=
  if o < 0x80000 then (s.counters (o / 128)).toList.getD (o / 8 % 16) 0
  else if o = 0x80008 then s.dev.acctSnap
  else if 0x80100 ≤ o && o < 0x80180 then s.dev.snapBuf.toList.getD ((o - 0x80100) / 8) 0
  else 0

/-- What a read of a device register returns, at the addresses of `writeReg`: RSV and WO fields read zero, and so does an address without a
register. -/
def State.readReg (s : State) (a : Nat) : Word :=
  if a < 0x10000 then s.readBar2 a
  else if a < 0x14000 then s.readBar4 (a - 0x10000)
  else if 0x40000 ≤ a && a < 0x80000 then s.readNotify (a - 0x40000)
  else if a = 0xF000000000 then fabCap
  else if a = 0xF000000008 then s.fabId
  else if a = 0xF000000010 then (if s.fab.domainEn then 1 else 0)
  else if 0xF000010000 ≤ a && a < 0xF000012000 then (s.peer ((a - 0xF000010000) / 8)).word
  else if 0xF001000000 ≤ a && a < 0xF001100000 then (s.token ((a - 0xF001000000) / 2)).word
  else if 0xF002000000 ≤ a && a < 0xF002000028 then s.readTimes (a - 0xF002000000)
  else if 0xF003000000 ≤ a && a < 0xF003000C00 then look 0 s.dev.fabImport ((a - 0xF003000000) / 8)
  else if 0xF003800000 ≤ a && a < 0xF003808000 then look 0 s.dev.xlatRoot ((a - 0xF003800000) / 8)
  else if a = 0xF003808000 then setBits s.dev.xlatInv 63 1 (if s.invalidating then 1 else 0)
  else if 0xF004000000 ≤ a && a < 0xF004020000 then
    let t := (s.core (toCore ((a - 0xF004000000) / 32))).slot
    if a / 8 % 4 = 0 then t.rec0 else if a / 8 % 4 = 1 then t.rec1 else 0
  else if 0xF004800000 ≤ a && a < 0xF004808000 then (s.core (toCore ((a - 0xF004800000) / 8))).slot.stat
  else if resBase ≤ a && a < resBase + 0x8000 then (s.res ((a - resBase) / 32)).word (a / 8 % 4)
  else if 0xF008000000 ≤ a && a < 0xF008080000 then s.readVlog ((a - 0xF008000000) / 0x10000) (a % 0x10000)
  else if 0xF00A000000 ≤ a && a < 0xF00A200000 then s.readPower (a - 0xF00A000000)
  else if 0xF00C000000 ≤ a && a < 0xF00C080200 then s.readAcct (a - 0xF00C000000)
  else 0

/-- A register is read: its value goes to whoever reads it. -/
def State.answerRead (s : State) (a : Nat) : State := s.hostOut (.value a (s.readReg a))

end Sys2Proof.Machine
end

