-- ==== Sys2Proof/Machine/Vector.lean ====
section
/-!
DEFINITION. The vector instructions (spec/16 R256 to R265), the mask operations (R266), the vector SFU forms (R267), VSETL and VLOOP (R268, R269):
each becomes an entry of the vector sequencer; what the entry does when it executes is `Core.runRegs`.
-/

namespace Sys2Proof.Machine

/-! ## Integer elements (R256) -/

def execVadd (d a b : VReg) (m : MReg) (et : IntEt) (s : State) : Out :=
  s.issueEntry (.vadd d a b m et) 0 0 none
def execVsub (d a b : VReg) (m : MReg) (et : IntEt) (s : State) : Out :=
  s.issueEntry (.vsub d a b m et) 0 0 none
def execVmul (d a b : VReg) (m : MReg) (et : IntEt) (s : State) : Out :=
  s.issueEntry (.vmul d a b m et) 0 0 none
def execVmulh (d a b : VReg) (m : MReg) (et : IntEt) (s : State) : Out :=
  s.issueEntry (.vmulh d a b m et) 0 0 none
def execVmin (d a b : VReg) (m : MReg) (et : IntEt) (s : State) : Out :=
  s.issueEntry (.vmin d a b m et) 0 0 none
def execVmax (d a b : VReg) (m : MReg) (et : IntEt) (s : State) : Out :=
  s.issueEntry (.vmax d a b m et) 0 0 none
def execVminu (d a b : VReg) (m : MReg) (et : IntEt) (s : State) : Out :=
  s.issueEntry (.vminu d a b m et) 0 0 none
def execVmaxu (d a b : VReg) (m : MReg) (et : IntEt) (s : State) : Out :=
  s.issueEntry (.vmaxu d a b m et) 0 0 none
def execVand (d a b : VReg) (m : MReg) (et : IntEt) (s : State) : Out :=
  s.issueEntry (.vand d a b m et) 0 0 none
def execVor (d a b : VReg) (m : MReg) (et : IntEt) (s : State) : Out :=
  s.issueEntry (.vor d a b m et) 0 0 none
def execVxor (d a b : VReg) (m : MReg) (et : IntEt) (s : State) : Out :=
  s.issueEntry (.vxor d a b m et) 0 0 none
def execVsll (d a b : VReg) (m : MReg) (et : IntEt) (s : State) : Out :=
  s.issueEntry (.vsll d a b m et) 0 0 none
def execVsrl (d a b : VReg) (m : MReg) (et : IntEt) (s : State) : Out :=
  s.issueEntry (.vsrl d a b m et) 0 0 none
def execVsra (d a b : VReg) (m : MReg) (et : IntEt) (s : State) : Out :=
  s.issueEntry (.vsra d a b m et) 0 0 none
def execVadds (d a b : VReg) (m : MReg) (et : IntEt) (s : State) : Out :=
  s.issueEntry (.vadds d a b m et) 0 0 none
def execVsubs (d a b : VReg) (m : MReg) (et : IntEt) (s : State) : Out :=
  s.issueEntry (.vsubs d a b m et) 0 0 none
def execVabs (d a : VReg) (m : MReg) (et : IntEt) (s : State) : Out :=
  s.issueEntry (.vabs d a m et) 0 0 none
def execVneg (d a : VReg) (m : MReg) (et : IntEt) (s : State) : Out :=
  s.issueEntry (.vneg d a m et) 0 0 none

/-! ## Floating-point elements (R257, R258) -/

def execVfadd (d a b : VReg) (m : MReg) (et : FpEt) (s : State) : Out :=
  s.issueEntry (.vfadd d a b m et) 0 0 none
def execVfsub (d a b : VReg) (m : MReg) (et : FpEt) (s : State) : Out :=
  s.issueEntry (.vfsub d a b m et) 0 0 none
def execVfmul (d a b : VReg) (m : MReg) (et : FpEt) (s : State) : Out :=
  s.issueEntry (.vfmul d a b m et) 0 0 none
def execVfdiv (d a b : VReg) (m : MReg) (et : FpEt) (s : State) : Out :=
  s.issueEntry (.vfdiv d a b m et) 0 0 none
def execVfmin (d a b : VReg) (m : MReg) (et : FpEt) (s : State) : Out :=
  s.issueEntry (.vfmin d a b m et) 0 0 none
def execVfmax (d a b : VReg) (m : MReg) (et : FpEt) (s : State) : Out :=
  s.issueEntry (.vfmax d a b m et) 0 0 none
def execVfsqrt (d a : VReg) (m : MReg) (et : FpEt) (s : State) : Out :=
  s.issueEntry (.vfsqrt d a m et) 0 0 none
def execVfabs (d a : VReg) (m : MReg) (et : FpEt) (s : State) : Out :=
  s.issueEntry (.vfabs d a m et) 0 0 none
def execVfneg (d a : VReg) (m : MReg) (et : FpEt) (s : State) : Out :=
  s.issueEntry (.vfneg d a m et) 0 0 none
def execVfmadd (d a b : VReg) (m : MReg) (et : FpEt) (rm : Rm) (s : State) : Out :=
  s.issueEntry (.vfmadd d a b m et rm) 0 0 none
def execVfmsub (d a b : VReg) (m : MReg) (et : FpEt) (rm : Rm) (s : State) : Out :=
  s.issueEntry (.vfmsub d a b m et rm) 0 0 none
def execVfnmadd (d a b : VReg) (m : MReg) (et : FpEt) (rm : Rm) (s : State) : Out :=
  s.issueEntry (.vfnmadd d a b m et rm) 0 0 none
def execVfnmsub (d a b : VReg) (m : MReg) (et : FpEt) (rm : Rm) (s : State) : Out :=
  s.issueEntry (.vfnmsub d a b m et rm) 0 0 none

/-! ## Comparison, selection, reduction, permutation, broadcast (R259 to R263) -/

def execVcmp (d : MReg) (a b : VReg) (m : MReg) (cc : Cc) (et : Et) (s : State) : Out :=
  s.issueEntry (.vcmp d a b m cc et) 0 0 none
def execVsel (d a b : VReg) (m : MReg) (et : Et) (s : State) : Out :=
  s.issueEntry (.vsel d a b m et) 0 0 none
/-- The register of a reduction. -/
def redDst : RedForm → FDst
  | .int d _ _ => .x d
  | .fp d _ _ => .f d

def execVred (form : RedForm) (a : VReg) (m : MReg) (s : State) : Out :=
  s.issueEntry (.vred form a m) 0 0 (some (redDst form))
def execVperm (d a b : VReg) (m : MReg) (et : Et) (s : State) : Out :=
  s.issueEntry (.vperm d a b m et) 0 0 none
def execVbcastX (d : VReg) (a : XReg) (m : MReg) (et : Et) (s : State) : Out :=
  s.issueEntry (.vbcastX d a m et) (s.rx a) 0 none
def execVbcastF (d : VReg) (a : FReg) (m : MReg) (et : FpEt) (s : State) : Out :=
  s.issueEntry (.vbcastF d a m et) ((s.rf a).setWidth 64) 0 none
def execVbcastV (d a : VReg) (b : XReg) (m : MReg) (et : Et) (s : State) : Out :=
  s.issueEntry (.vbcastV d a b m et) (s.rx b) 0 none

/-! ## Conversion and quantization (R264, R265) -/

def execVcvt (d a : VReg) (tfmt sfmt : Fmt) (part : Fin 4) (s : State) : Out :=
  s.issueEntry (.vcvt d a tfmt sfmt part) 0 0 none
def execVquant (d a : VReg) (tfmt : Fmt) (xs : XReg) (s : State) : Out :=
  s.issueEntry (.vquant d a tfmt xs) 0 0 (some (.x xs))

/-! ## Masks (R266) -/

def execMand (d a b : MReg) (s : State) : Out :=
  s.issueEntry (.mand d a b) 0 0 none
def execMor (d a b : MReg) (s : State) : Out :=
  s.issueEntry (.mor d a b) 0 0 none
def execMxor (d a b : MReg) (s : State) : Out :=
  s.issueEntry (.mxor d a b) 0 0 none
def execMandn (d a b : MReg) (s : State) : Out :=
  s.issueEntry (.mandn d a b) 0 0 none
def execMnot (d a : MReg) (s : State) : Out :=
  s.issueEntry (.mnot d a) 0 0 none
def execMfromx (d : MReg) (a : XReg) (s : State) : Out :=
  s.issueEntry (.mfromx d a) (s.rx a) 0 none
/-- MTOX and MPOPC wait under R98. -/
def execMtox (d : XReg) (a : MReg) (s : State) : Out :=
  if s.cc.maskPending a then ok s.hold else s.issueEntry (.mtox d a) 0 0 (some (.x d))
def execMpopc (d : XReg) (a : MReg) (s : State) : Out :=
  if s.cc.maskPending a then ok s.hold else s.issueEntry (.mpopc d a) 0 0 (some (.x d))

/-! ## SFU, vector forms (R267) -/

def execVexp (d a : VReg) (m : MReg) (s : State) : Out :=
  s.issueEntry (.vexp d a m) 0 0 none
def execVlog (d a : VReg) (m : MReg) (s : State) : Out :=
  s.issueEntry (.vlog d a m) 0 0 none
def execVrcp (d a : VReg) (m : MReg) (s : State) : Out :=
  s.issueEntry (.vrcp d a m) 0 0 none
def execVrsqrt (d a : VReg) (m : MReg) (s : State) : Out :=
  s.issueEntry (.vrsqrt d a m) 0 0 none
def execVtanh (d a : VReg) (m : MReg) (s : State) : Out :=
  s.issueEntry (.vtanh d a m) 0 0 none
def execVsigm (d a : VReg) (m : MReg) (s : State) : Out :=
  s.issueEntry (.vsigm d a m) 0 0 none
def execVgelu (d a : VReg) (m : MReg) (s : State) : Out :=
  s.issueEntry (.vgelu d a m) 0 0 none

/-! ## The sequencer (R268, R269) -/

/-- l := min(x[A], 64) is x[D] at once, and VLEN.VL when the entry executes; VLEN belongs to the main context (spec/07 R104). -/
def execVsetl (d a : XReg) (s : State) : Out :=
  let l : Word := BitVec.ofNat 64 (min (s.rx a).toNat 64)
  if s.curH then ok s.forbidden
  else if s.cc.seq.held ≥ 16 then ok s.hold
  else (s.wx d l).issueEntry (.vsetl d a) l 0 none

/-- The block that follows is captured and runs C times; C = min(x[A], 65535). A VLOOP waits while a block is captured or
runs, and closes a capture. -/
def execVloop (blen : Fin 16) (a : XReg) (s : State) : Out :=
  if s.cc.seq.loop.isSome then ok s.hold
  else
    let n := min (s.rx a).toNat 65535
    let l : Loop := { stamp := s.nextId, want := blen.val, count := n, body := [], pos := 0, left := n }
    ok { s.mod (fun c => { c with seq := { c.seq with loop := some l } }) with nextId := s.nextId + 1 }

end Sys2Proof.Machine
end

