-- ==== Sys2Proof/Machine/Dispatch.lean ====
section
/-!
DEFINITION. One arm per instruction: each is one call of its meaning.
-/

namespace Sys2Proof.Machine

/-- The meaning of an instruction in a state. -/
def exec (i : Instr) (s : State) : Host.Outcome State Fault Refusal :=
  match i with
  | .cSlotNop => Sys2Proof.Machine.execCSlotNop s
  | .aSlotNop => Sys2Proof.Machine.execASlotNop s
  | .li x1 x2 => Sys2Proof.Machine.execLi x1 x2 s
  | .liU x1 x2 => Sys2Proof.Machine.execLiU x1 x2 s
  | .liH x1 x2 => Sys2Proof.Machine.execLiH x1 x2 s
  | .liF x1 x2 => Sys2Proof.Machine.execLiF x1 x2 s
  | .add x1 x2 x3 => Sys2Proof.Machine.execAdd x1 x2 x3 s
  | .sub x1 x2 x3 => Sys2Proof.Machine.execSub x1 x2 x3 s
  | .and x1 x2 x3 => Sys2Proof.Machine.execAnd x1 x2 x3 s
  | .or x1 x2 x3 => Sys2Proof.Machine.execOr x1 x2 x3 s
  | .xor x1 x2 x3 => Sys2Proof.Machine.execXor x1 x2 x3 s
  | .sll x1 x2 x3 => Sys2Proof.Machine.execSll x1 x2 x3 s
  | .srl x1 x2 x3 => Sys2Proof.Machine.execSrl x1 x2 x3 s
  | .sra x1 x2 x3 => Sys2Proof.Machine.execSra x1 x2 x3 s
  | .slt x1 x2 x3 => Sys2Proof.Machine.execSlt x1 x2 x3 s
  | .sltu x1 x2 x3 => Sys2Proof.Machine.execSltu x1 x2 x3 s
  | .mul x1 x2 x3 => Sys2Proof.Machine.execMul x1 x2 x3 s
  | .mulh x1 x2 x3 => Sys2Proof.Machine.execMulh x1 x2 x3 s
  | .mulhu x1 x2 x3 => Sys2Proof.Machine.execMulhu x1 x2 x3 s
  | .div x1 x2 x3 => Sys2Proof.Machine.execDiv x1 x2 x3 s
  | .divu x1 x2 x3 => Sys2Proof.Machine.execDivu x1 x2 x3 s
  | .rem x1 x2 x3 => Sys2Proof.Machine.execRem x1 x2 x3 s
  | .remu x1 x2 x3 => Sys2Proof.Machine.execRemu x1 x2 x3 s
  | .min x1 x2 x3 => Sys2Proof.Machine.execMin x1 x2 x3 s
  | .max x1 x2 x3 => Sys2Proof.Machine.execMax x1 x2 x3 s
  | .minu x1 x2 x3 => Sys2Proof.Machine.execMinu x1 x2 x3 s
  | .maxu x1 x2 x3 => Sys2Proof.Machine.execMaxu x1 x2 x3 s
  | .clz x1 x2 => Sys2Proof.Machine.execClz x1 x2 s
  | .ctz x1 x2 => Sys2Proof.Machine.execCtz x1 x2 s
  | .popc x1 x2 => Sys2Proof.Machine.execPopc x1 x2 s
  | .shadd x1 x2 x3 x4 => Sys2Proof.Machine.execShadd x1 x2 x3 x4 s
  | .addi x1 x2 x3 => Sys2Proof.Machine.execAddi x1 x2 x3 s
  | .andi x1 x2 x3 => Sys2Proof.Machine.execAndi x1 x2 x3 s
  | .ori x1 x2 x3 => Sys2Proof.Machine.execOri x1 x2 x3 s
  | .xori x1 x2 x3 => Sys2Proof.Machine.execXori x1 x2 x3 s
  | .slli x1 x2 x3 => Sys2Proof.Machine.execSlli x1 x2 x3 s
  | .srli x1 x2 x3 => Sys2Proof.Machine.execSrli x1 x2 x3 s
  | .srai x1 x2 x3 => Sys2Proof.Machine.execSrai x1 x2 x3 s
  | .slti x1 x2 x3 => Sys2Proof.Machine.execSlti x1 x2 x3 s
  | .sltiu x1 x2 x3 => Sys2Proof.Machine.execSltiu x1 x2 x3 s
  | .muli x1 x2 x3 => Sys2Proof.Machine.execMuli x1 x2 x3 s
  | .hset x1 x2 x3 => Sys2Proof.Machine.execHset x1 x2 x3 s
  | .hins x1 x2 x3 => Sys2Proof.Machine.execHins x1 x2 x3 s
  | .bextu x1 x2 x3 x4 => Sys2Proof.Machine.execBextu x1 x2 x3 x4 s
  | .bext x1 x2 x3 x4 => Sys2Proof.Machine.execBext x1 x2 x3 x4 s
  | .bins x1 x2 x3 x4 => Sys2Proof.Machine.execBins x1 x2 x3 x4 s
  | .fadd x1 x2 x3 x4 => Sys2Proof.Machine.execFadd x1 x2 x3 x4 s
  | .fsub x1 x2 x3 x4 => Sys2Proof.Machine.execFsub x1 x2 x3 x4 s
  | .fmul x1 x2 x3 x4 => Sys2Proof.Machine.execFmul x1 x2 x3 x4 s
  | .fdiv x1 x2 x3 x4 => Sys2Proof.Machine.execFdiv x1 x2 x3 x4 s
  | .fsqrt x1 x2 x3 => Sys2Proof.Machine.execFsqrt x1 x2 x3 s
  | .fmin x1 x2 x3 => Sys2Proof.Machine.execFmin x1 x2 x3 s
  | .fmax x1 x2 x3 => Sys2Proof.Machine.execFmax x1 x2 x3 s
  | .feq x1 x2 x3 => Sys2Proof.Machine.execFeq x1 x2 x3 s
  | .flt x1 x2 x3 => Sys2Proof.Machine.execFlt x1 x2 x3 s
  | .fle x1 x2 x3 => Sys2Proof.Machine.execFle x1 x2 x3 s
  | .fclass x1 x2 => Sys2Proof.Machine.execFclass x1 x2 s
  | .fmvX x1 x2 => Sys2Proof.Machine.execFmvX x1 x2 s
  | .fmvF x1 x2 => Sys2Proof.Machine.execFmvF x1 x2 s
  | .fneg x1 x2 => Sys2Proof.Machine.execFneg x1 x2 s
  | .fabs x1 x2 => Sys2Proof.Machine.execFabs x1 x2 s
  | .fmadd x1 x2 x3 x4 x5 => Sys2Proof.Machine.execFmadd x1 x2 x3 x4 x5 s
  | .fmsub x1 x2 x3 x4 x5 => Sys2Proof.Machine.execFmsub x1 x2 x3 x4 x5 s
  | .fnmadd x1 x2 x3 x4 x5 => Sys2Proof.Machine.execFnmadd x1 x2 x3 x4 x5 s
  | .fnmsub x1 x2 x3 x4 x5 => Sys2Proof.Machine.execFnmsub x1 x2 x3 x4 x5 s
  | .fcvtf x1 x2 x3 x4 x5 => Sys2Proof.Machine.execFcvtf x1 x2 x3 x4 x5 s
  | .fcvtx x1 x2 x3 x4 x5 => Sys2Proof.Machine.execFcvtx x1 x2 x3 x4 x5 s
  | .vadd x1 x2 x3 x4 x5 => Sys2Proof.Machine.execVadd x1 x2 x3 x4 x5 s
  | .vsub x1 x2 x3 x4 x5 => Sys2Proof.Machine.execVsub x1 x2 x3 x4 x5 s
  | .vmul x1 x2 x3 x4 x5 => Sys2Proof.Machine.execVmul x1 x2 x3 x4 x5 s
  | .vmulh x1 x2 x3 x4 x5 => Sys2Proof.Machine.execVmulh x1 x2 x3 x4 x5 s
  | .vmin x1 x2 x3 x4 x5 => Sys2Proof.Machine.execVmin x1 x2 x3 x4 x5 s
  | .vmax x1 x2 x3 x4 x5 => Sys2Proof.Machine.execVmax x1 x2 x3 x4 x5 s
  | .vminu x1 x2 x3 x4 x5 => Sys2Proof.Machine.execVminu x1 x2 x3 x4 x5 s
  | .vmaxu x1 x2 x3 x4 x5 => Sys2Proof.Machine.execVmaxu x1 x2 x3 x4 x5 s
  | .vand x1 x2 x3 x4 x5 => Sys2Proof.Machine.execVand x1 x2 x3 x4 x5 s
  | .vor x1 x2 x3 x4 x5 => Sys2Proof.Machine.execVor x1 x2 x3 x4 x5 s
  | .vxor x1 x2 x3 x4 x5 => Sys2Proof.Machine.execVxor x1 x2 x3 x4 x5 s
  | .vsll x1 x2 x3 x4 x5 => Sys2Proof.Machine.execVsll x1 x2 x3 x4 x5 s
  | .vsrl x1 x2 x3 x4 x5 => Sys2Proof.Machine.execVsrl x1 x2 x3 x4 x5 s
  | .vsra x1 x2 x3 x4 x5 => Sys2Proof.Machine.execVsra x1 x2 x3 x4 x5 s
  | .vadds x1 x2 x3 x4 x5 => Sys2Proof.Machine.execVadds x1 x2 x3 x4 x5 s
  | .vsubs x1 x2 x3 x4 x5 => Sys2Proof.Machine.execVsubs x1 x2 x3 x4 x5 s
  | .vabs x1 x2 x3 x4 => Sys2Proof.Machine.execVabs x1 x2 x3 x4 s
  | .vneg x1 x2 x3 x4 => Sys2Proof.Machine.execVneg x1 x2 x3 x4 s
  | .vfadd x1 x2 x3 x4 x5 => Sys2Proof.Machine.execVfadd x1 x2 x3 x4 x5 s
  | .vfsub x1 x2 x3 x4 x5 => Sys2Proof.Machine.execVfsub x1 x2 x3 x4 x5 s
  | .vfmul x1 x2 x3 x4 x5 => Sys2Proof.Machine.execVfmul x1 x2 x3 x4 x5 s
  | .vfdiv x1 x2 x3 x4 x5 => Sys2Proof.Machine.execVfdiv x1 x2 x3 x4 x5 s
  | .vfsqrt x1 x2 x3 x4 => Sys2Proof.Machine.execVfsqrt x1 x2 x3 x4 s
  | .vfmin x1 x2 x3 x4 x5 => Sys2Proof.Machine.execVfmin x1 x2 x3 x4 x5 s
  | .vfmax x1 x2 x3 x4 x5 => Sys2Proof.Machine.execVfmax x1 x2 x3 x4 x5 s
  | .vfabs x1 x2 x3 x4 => Sys2Proof.Machine.execVfabs x1 x2 x3 x4 s
  | .vfneg x1 x2 x3 x4 => Sys2Proof.Machine.execVfneg x1 x2 x3 x4 s
  | .vfmadd x1 x2 x3 x4 x5 x6 => Sys2Proof.Machine.execVfmadd x1 x2 x3 x4 x5 x6 s
  | .vfmsub x1 x2 x3 x4 x5 x6 => Sys2Proof.Machine.execVfmsub x1 x2 x3 x4 x5 x6 s
  | .vfnmadd x1 x2 x3 x4 x5 x6 => Sys2Proof.Machine.execVfnmadd x1 x2 x3 x4 x5 x6 s
  | .vfnmsub x1 x2 x3 x4 x5 x6 => Sys2Proof.Machine.execVfnmsub x1 x2 x3 x4 x5 x6 s
  | .vcmp x1 x2 x3 x4 x5 x6 => Sys2Proof.Machine.execVcmp x1 x2 x3 x4 x5 x6 s
  | .vsel x1 x2 x3 x4 x5 => Sys2Proof.Machine.execVsel x1 x2 x3 x4 x5 s
  | .vred x1 x2 x3 => Sys2Proof.Machine.execVred x1 x2 x3 s
  | .vperm x1 x2 x3 x4 x5 => Sys2Proof.Machine.execVperm x1 x2 x3 x4 x5 s
  | .vbcastX x1 x2 x3 x4 => Sys2Proof.Machine.execVbcastX x1 x2 x3 x4 s
  | .vbcastF x1 x2 x3 x4 => Sys2Proof.Machine.execVbcastF x1 x2 x3 x4 s
  | .vbcastV x1 x2 x3 x4 x5 => Sys2Proof.Machine.execVbcastV x1 x2 x3 x4 x5 s
  | .vcvt x1 x2 x3 x4 x5 => Sys2Proof.Machine.execVcvt x1 x2 x3 x4 x5 s
  | .vquant x1 x2 x3 x4 => Sys2Proof.Machine.execVquant x1 x2 x3 x4 s
  | .mand x1 x2 x3 => Sys2Proof.Machine.execMand x1 x2 x3 s
  | .mor x1 x2 x3 => Sys2Proof.Machine.execMor x1 x2 x3 s
  | .mxor x1 x2 x3 => Sys2Proof.Machine.execMxor x1 x2 x3 s
  | .mandn x1 x2 x3 => Sys2Proof.Machine.execMandn x1 x2 x3 s
  | .mnot x1 x2 => Sys2Proof.Machine.execMnot x1 x2 s
  | .mfromx x1 x2 => Sys2Proof.Machine.execMfromx x1 x2 s
  | .mtox x1 x2 => Sys2Proof.Machine.execMtox x1 x2 s
  | .mpopc x1 x2 => Sys2Proof.Machine.execMpopc x1 x2 s
  | .exp x1 x2 => Sys2Proof.Machine.execExp x1 x2 s
  | .log x1 x2 => Sys2Proof.Machine.execLog x1 x2 s
  | .rcp x1 x2 => Sys2Proof.Machine.execRcp x1 x2 s
  | .rsqrt x1 x2 => Sys2Proof.Machine.execRsqrt x1 x2 s
  | .tanh x1 x2 => Sys2Proof.Machine.execTanh x1 x2 s
  | .sigm x1 x2 => Sys2Proof.Machine.execSigm x1 x2 s
  | .gelu x1 x2 => Sys2Proof.Machine.execGelu x1 x2 s
  | .vexp x1 x2 x3 => Sys2Proof.Machine.execVexp x1 x2 x3 s
  | .vlog x1 x2 x3 => Sys2Proof.Machine.execVlog x1 x2 x3 s
  | .vrcp x1 x2 x3 => Sys2Proof.Machine.execVrcp x1 x2 x3 s
  | .vrsqrt x1 x2 x3 => Sys2Proof.Machine.execVrsqrt x1 x2 x3 s
  | .vtanh x1 x2 x3 => Sys2Proof.Machine.execVtanh x1 x2 x3 s
  | .vsigm x1 x2 x3 => Sys2Proof.Machine.execVsigm x1 x2 x3 s
  | .vgelu x1 x2 x3 => Sys2Proof.Machine.execVgelu x1 x2 x3 s
  | .vloop x1 x2 => Sys2Proof.Machine.execVloop x1 x2 s
  | .vsetl x1 x2 => Sys2Proof.Machine.execVsetl x1 x2 s
  | .jal x1 x2 => Sys2Proof.Machine.execJal x1 x2 s
  | .jalr x1 x2 x3 => Sys2Proof.Machine.execJalr x1 x2 x3 s
  | .bmaskAny x1 x2 => Sys2Proof.Machine.execBmaskAny x1 x2 s
  | .bmaskNone x1 x2 => Sys2Proof.Machine.execBmaskNone x1 x2 s
  | .bmaskAll x1 x2 => Sys2Proof.Machine.execBmaskAll x1 x2 s
  | .beq x1 x2 x3 => Sys2Proof.Machine.execBeq x1 x2 x3 s
  | .bne x1 x2 x3 => Sys2Proof.Machine.execBne x1 x2 x3 s
  | .blt x1 x2 x3 => Sys2Proof.Machine.execBlt x1 x2 x3 s
  | .bge x1 x2 x3 => Sys2Proof.Machine.execBge x1 x2 x3 s
  | .bltu x1 x2 x3 => Sys2Proof.Machine.execBltu x1 x2 x3 s
  | .bgeu x1 x2 x3 => Sys2Proof.Machine.execBgeu x1 x2 x3 s
  | .llb x1 x2 x3 x4 x5 => Sys2Proof.Machine.execLlb x1 x2 x3 x4 x5 s
  | .llbu x1 x2 x3 x4 x5 => Sys2Proof.Machine.execLlbu x1 x2 x3 x4 x5 s
  | .llh x1 x2 x3 x4 x5 => Sys2Proof.Machine.execLlh x1 x2 x3 x4 x5 s
  | .llhu x1 x2 x3 x4 x5 => Sys2Proof.Machine.execLlhu x1 x2 x3 x4 x5 s
  | .llw x1 x2 x3 x4 x5 => Sys2Proof.Machine.execLlw x1 x2 x3 x4 x5 s
  | .llwu x1 x2 x3 x4 x5 => Sys2Proof.Machine.execLlwu x1 x2 x3 x4 x5 s
  | .lld x1 x2 x3 x4 x5 => Sys2Proof.Machine.execLld x1 x2 x3 x4 x5 s
  | .slb x1 x2 x3 x4 x5 => Sys2Proof.Machine.execSlb x1 x2 x3 x4 x5 s
  | .slh x1 x2 x3 x4 x5 => Sys2Proof.Machine.execSlh x1 x2 x3 x4 x5 s
  | .slw x1 x2 x3 x4 x5 => Sys2Proof.Machine.execSlw x1 x2 x3 x4 x5 s
  | .sld x1 x2 x3 x4 x5 => Sys2Proof.Machine.execSld x1 x2 x3 x4 x5 s
  | .vld x1 x2 x3 x4 x5 => Sys2Proof.Machine.execVld x1 x2 x3 x4 x5 s
  | .vst x1 x2 x3 x4 x5 => Sys2Proof.Machine.execVst x1 x2 x3 x4 x5 s
  | .vlds x1 x2 x3 x4 x5 x6 => Sys2Proof.Machine.execVlds x1 x2 x3 x4 x5 x6 s
  | .vsts x1 x2 x3 x4 x5 x6 => Sys2Proof.Machine.execVsts x1 x2 x3 x4 x5 x6 s
  | .vldx x1 x2 x3 x4 x5 x6 => Sys2Proof.Machine.execVldx x1 x2 x3 x4 x5 x6 s
  | .vstx x1 x2 x3 x4 x5 x6 => Sys2Proof.Machine.execVstx x1 x2 x3 x4 x5 x6 s
  | .ld x1 x2 x3 x4 x5 => Sys2Proof.Machine.execLd x1 x2 x3 x4 x5 s
  | .st x1 x2 x3 x4 x5 => Sys2Proof.Machine.execSt x1 x2 x3 x4 x5 s
  | .aadd x1 x2 x3 x4 x5 => Sys2Proof.Machine.execAadd x1 x2 x3 x4 x5 s
  | .amin x1 x2 x3 x4 x5 => Sys2Proof.Machine.execAmin x1 x2 x3 x4 x5 s
  | .amax x1 x2 x3 x4 x5 => Sys2Proof.Machine.execAmax x1 x2 x3 x4 x5 s
  | .aand x1 x2 x3 x4 x5 => Sys2Proof.Machine.execAand x1 x2 x3 x4 x5 s
  | .aor x1 x2 x3 x4 x5 => Sys2Proof.Machine.execAor x1 x2 x3 x4 x5 s
  | .axor x1 x2 x3 x4 x5 => Sys2Proof.Machine.execAxor x1 x2 x3 x4 x5 s
  | .aswap x1 x2 x3 x4 x5 => Sys2Proof.Machine.execAswap x1 x2 x3 x4 x5 s
  | .acas x1 x2 x3 x4 x5 => Sys2Proof.Machine.execAcas x1 x2 x3 x4 x5 s
  | .afadd x1 x2 x3 x4 x5 => Sys2Proof.Machine.execAfadd x1 x2 x3 x4 x5 s
  | .fence x1 x2 x3 => Sys2Proof.Machine.execFence x1 x2 x3 s
  | .rfence => Sys2Proof.Machine.execRfence s
  | .ifence => Sys2Proof.Machine.execIfence s
  | .recv x1 => Sys2Proof.Machine.execRecv x1 s
  | .waitm => Sys2Proof.Machine.execWaitm s
  | .peekm x1 => Sys2Proof.Machine.execPeekm x1 s
  | .svc => Sys2Proof.Machine.execSvc s
  | .sret => Sys2Proof.Machine.execSret s
  | .wfi => Sys2Proof.Machine.execWfi s
  | .halt => Sys2Proof.Machine.execHalt s
  | .hret => Sys2Proof.Machine.execHret s
  | .getc x1 x2 => Sys2Proof.Machine.execGetc x1 x2 s
  | .setc x1 x2 => Sys2Proof.Machine.execSetc x1 x2 s
  | .safept x1 => Sys2Proof.Machine.execSafept x1 s
  | .sync x1 => Sys2Proof.Machine.execSync x1 s
  | .xend x1 => Sys2Proof.Machine.execXend x1 s
  | .xsend x1 x2 x3 => Sys2Proof.Machine.execXsend x1 x2 x3 s
  | .xexpect x1 => Sys2Proof.Machine.execXexpect x1 s
  | .nqsend x1 x2 => Sys2Proof.Machine.execNqsend x1 x2 s
  | .nqrecv x1 x2 => Sys2Proof.Machine.execNqrecv x1 x2 s
  | .wlpush x1 x2 => Sys2Proof.Machine.execWlpush x1 x2 s
  | .wlpop x1 x2 => Sys2Proof.Machine.execWlpop x1 x2 s
  | .wldone x1 => Sys2Proof.Machine.execWldone x1 s
  | .part x1 x2 x3 x4 => Sys2Proof.Machine.execPart x1 x2 x3 x4 s
  | .gid x1 x2 => Sys2Proof.Machine.execGid x1 x2 s
  | .postrx x1 x2 => Sys2Proof.Machine.execPostrx x1 x2 s
  | .send x1 x2 => Sys2Proof.Machine.execSend x1 x2 s
  | .cancelrx x1 => Sys2Proof.Machine.execCancelrx x1 s
  | .gatepost x1 x2 => Sys2Proof.Machine.execGatepost x1 x2 s
  | .mktrun x1 x2 => Sys2Proof.Machine.execMktrun x1 x2 s
  | .mktrd x1 x2 => Sys2Proof.Machine.execMktrd x1 x2 s
  | .mktwr x1 x2 => Sys2Proof.Machine.execMktwr x1 x2 s
  | .rqry x1 x2 => Sys2Proof.Machine.execRqry x1 x2 s
  | .rqryFetch x1 x2 => Sys2Proof.Machine.execRqryFetch x1 x2 s
  | .rqryPin x1 x2 => Sys2Proof.Machine.execRqryPin x1 x2 s
  | .rqryUnpin x1 x2 => Sys2Proof.Machine.execRqryUnpin x1 x2 s
  | .tokacq x1 x2 => Sys2Proof.Machine.execTokacq x1 x2 s
  | .tokrel x1 x2 => Sys2Proof.Machine.execTokrel x1 x2 s
  | .cvarm x1 x2 => Sys2Proof.Machine.execCvarm x1 x2 s
  | .cvplay x1 x2 => Sys2Proof.Machine.execCvplay x1 x2 s
  | .cpreplay x1 x2 x3 x4 => Sys2Proof.Machine.execCpreplay x1 x2 x3 x4 s
  | .mload x1 x2 => Sys2Proof.Machine.execMload x1 x2 s
  | .mswap x1 x2 => Sys2Proof.Machine.execMswap x1 x2 s
  | .mdrain x1 x2 => Sys2Proof.Machine.execMdrain x1 x2 s
  | .mzero x1 x2 => Sys2Proof.Machine.execMzero x1 x2 s
  | .mshape x1 x2 => Sys2Proof.Machine.execMshape x1 x2 s
  | .mma x1 x2 => Sys2Proof.Machine.execMma x1 x2 s
  | .matrixCommandEnd x1 => Sys2Proof.Machine.execMatrixCommandEnd x1 s
  | .drainRowDispatch x1 => Sys2Proof.Machine.execDrainRowDispatch x1 s
  | .resultLanding x1 x2 x3 => Sys2Proof.Machine.execResultLanding x1 x2 x3 s
  | .responseTrap x1 => Sys2Proof.Machine.execResponseTrap x1 s
  | .interruptTaken x1 => Sys2Proof.Machine.execInterruptTaken x1 s
  | .timerCompare x1 => Sys2Proof.Machine.execTimerCompare x1 s
  | .watchdogExpiry x1 => Sys2Proof.Machine.execWatchdogExpiry x1 s
  | .queueTimeout x1 => Sys2Proof.Machine.execQueueTimeout x1 s
  | .neighbourQueueArrival x1 x2 => Sys2Proof.Machine.execNeighbourQueueArrival x1 x2 s
  | .streamElementArrival x1 x2 => Sys2Proof.Machine.execStreamElementArrival x1 x2 s
  | .syncRelease x1 x2 => Sys2Proof.Machine.execSyncRelease x1 x2 s
  | .xsendLinkEntry x1 x2 => Sys2Proof.Machine.execXsendLinkEntry x1 x2 s
  | .xsendLanding x1 => Sys2Proof.Machine.execXsendLanding x1 s
  | .xendReturn x1 x2 => Sys2Proof.Machine.execXendReturn x1 x2 s
  | .safeTimeout x1 => Sys2Proof.Machine.execSafeTimeout x1 s
  | .contextSave x1 => Sys2Proof.Machine.execContextSave x1 s
  | .bindNew x1 x2 => Sys2Proof.Machine.execBindNew x1 x2 s
  | .bindResume x1 x2 => Sys2Proof.Machine.execBindResume x1 x2 s
  | .preempt x1 x2 => Sys2Proof.Machine.execPreempt x1 x2 s
  | .release x1 x2 => Sys2Proof.Machine.execRelease x1 x2 s
  | .freeze x1 x2 => Sys2Proof.Machine.execFreeze x1 x2 s
  | .slotActNone x1 x2 => Sys2Proof.Machine.execSlotActNone x1 x2 s
  | .loadingComplete x1 => Sys2Proof.Machine.execLoadingComplete x1 s
  | .launchPacket x1 x2 => Sys2Proof.Machine.execLaunchPacket x1 x2 s
  | .launchReady x1 => Sys2Proof.Machine.execLaunchReady x1 s
  | .launchPlacement x1 => Sys2Proof.Machine.execLaunchPlacement x1 s
  | .launchEnd x1 => Sys2Proof.Machine.execLaunchEnd x1 s
  | .groupFaultHandling x1 => Sys2Proof.Machine.execGroupFaultHandling x1 s
  | .packetFetch x1 x2 => Sys2Proof.Machine.execPacketFetch x1 x2 s
  | .packetReread x1 x2 => Sys2Proof.Machine.execPacketReread x1 x2 s
  | .nopPacket x1 x2 => Sys2Proof.Machine.execNopPacket x1 x2 s
  | .put x1 x2 => Sys2Proof.Machine.execPut x1 x2 s
  | .get x1 x2 => Sys2Proof.Machine.execGet x1 x2 s
  | .cancel x1 x2 => Sys2Proof.Machine.execCancel x1 x2 s
  | .packetCompletion x1 x2 => Sys2Proof.Machine.execPacketCompletion x1 x2 s
  | .sqTail x1 x2 => Sys2Proof.Machine.execSqTail x1 x2 s
  | .cqHead x1 x2 => Sys2Proof.Machine.execCqHead x1 x2 s
  | .featuresOk => Sys2Proof.Machine.execFeaturesOk s
  | .functionReset => Sys2Proof.Machine.execFunctionReset s
  | .functionLevelReset => Sys2Proof.Machine.execFunctionLevelReset s
  | .qiEnable x1 => Sys2Proof.Machine.execQiEnable x1 s
  | .qiDisable x1 => Sys2Proof.Machine.execQiDisable x1 s
  | .revoke x1 => Sys2Proof.Machine.execRevoke x1 s
  | .ideIntegrityFailure x1 x2 => Sys2Proof.Machine.execIdeIntegrityFailure x1 x2 s
  | .atsInvalidation x1 x2 => Sys2Proof.Machine.execAtsInvalidation x1 x2 s
  | .pageRequestResponse x1 x2 x3 => Sys2Proof.Machine.execPageRequestResponse x1 x2 x3 s
  | .cpLaunch x1 => Sys2Proof.Machine.execCpLaunch x1 s
  | .copyChunkLanding x1 x2 x3 => Sys2Proof.Machine.execCopyChunkLanding x1 x2 x3 s
  | .messageArrival x1 => Sys2Proof.Machine.execMessageArrival x1 s
  | .sendAnswer x1 x2 x3 => Sys2Proof.Machine.execSendAnswer x1 x2 x3 s
  | .workItemArrival x1 => Sys2Proof.Machine.execWorkItemArrival x1 s
  | .quiescenceMessage x1 x2 => Sys2Proof.Machine.execQuiescenceMessage x1 x2 s
  | .gatepostChunkWrite x1 => Sys2Proof.Machine.execGatepostChunkWrite x1 s
  | .marketStepComplete x1 => Sys2Proof.Machine.execMarketStepComplete x1 s
  | .sortComplete x1 => Sys2Proof.Machine.execSortComplete x1 s
  | .residencyEntryStore x1 => Sys2Proof.Machine.execResidencyEntryStore x1 s
  | .convoyArmComplete x1 => Sys2Proof.Machine.execConvoyArmComplete x1 s
  | .playStart x1 => Sys2Proof.Machine.execPlayStart x1 s
  | .convoyOpComplete x1 x2 x3 => Sys2Proof.Machine.execConvoyOpComplete x1 x2 x3 s
  | .convoyChunkArrival x1 => Sys2Proof.Machine.execConvoyChunkArrival x1 s
  | .convoySendRetry x1 x2 x3 => Sys2Proof.Machine.execConvoySendRetry x1 x2 x3 s
  | .cvTimeout x1 x2 => Sys2Proof.Machine.execCvTimeout x1 x2 s
  | .playStall x1 => Sys2Proof.Machine.execPlayStall x1 s
  | .accessPerform x1 => Sys2Proof.Machine.execAccessPerform x1 s
  | .feTimeout x1 => Sys2Proof.Machine.execFeTimeout x1 s
  | .fabRspTimeout x1 => Sys2Proof.Machine.execFabRspTimeout x1 s
  | .sprForward x1 => Sys2Proof.Machine.execSprForward x1 s
  | .tokenAcquire x1 x2 => Sys2Proof.Machine.execTokenAcquire x1 x2 s
  | .tokenRelease x1 x2 => Sys2Proof.Machine.execTokenRelease x1 x2 s
  | .tokenRecall x1 x2 => Sys2Proof.Machine.execTokenRecall x1 x2 s
  | .recallReply x1 => Sys2Proof.Machine.execRecallReply x1 s
  | .tokTimeout x1 => Sys2Proof.Machine.execTokTimeout x1 s
  | .stationBringup x1 x2 x3 => Sys2Proof.Machine.execStationBringup x1 x2 x3 s
  | .stationLoss x1 => Sys2Proof.Machine.execStationLoss x1 s
  | .devid x1 => Sys2Proof.Machine.execDevid x1 s
  | .domainEn x1 => Sys2Proof.Machine.execDomainEn x1 s
  | .fabRspTimeoutWrite x1 x2 => Sys2Proof.Machine.execFabRspTimeoutWrite x1 x2 s
  | .xlatInv x1 => Sys2Proof.Machine.execXlatInv x1 s
  | .acctClr x1 => Sys2Proof.Machine.execAcctClr x1 s
  | .acctSnap x1 => Sys2Proof.Machine.execAcctSnap x1 s
  | .registerWrite x1 x2 => Sys2Proof.Machine.execRegisterWrite x1 x2 s
  | .budgetPeriod x1 x2 => Sys2Proof.Machine.execBudgetPeriod x1 x2 s
  | .controllerInterval x1 x2 => Sys2Proof.Machine.execControllerInterval x1 x2 s
  | .currentLimit => Sys2Proof.Machine.execCurrentLimit s
  | .sensorSample x1 => Sys2Proof.Machine.execSensorSample x1 s
  | .unitWake x1 x2 x3 => Sys2Proof.Machine.execUnitWake x1 x2 x3 s
  | .thermalTrip x1 => Sys2Proof.Machine.execThermalTrip x1 s
  | .railFault x1 => Sys2Proof.Machine.execRailFault x1 s
  | .clockLoss x1 => Sys2Proof.Machine.execClockLoss x1 s
  | .powerUp x1 => Sys2Proof.Machine.execPowerUp x1 s
  | .perstN => Sys2Proof.Machine.execPerstN s
  | .linkRetry x1 x2 => Sys2Proof.Machine.execLinkRetry x1 x2 s
  | .moduleFailure x1 x2 x3 => Sys2Proof.Machine.execModuleFailure x1 x2 x3 s
  | .linkLoss x1 x2 => Sys2Proof.Machine.execLinkLoss x1 x2 s
  | .refresh x1 x2 => Sys2Proof.Machine.execRefresh x1 x2 s
  | .patrolScrub x1 x2 x3 => Sys2Proof.Machine.execPatrolScrub x1 x2 x3 s
  | .violationLogCopy x1 => Sys2Proof.Machine.execViolationLogCopy x1 s
  | .firmwareImageWrite x1 x2 => Sys2Proof.Machine.execFirmwareImageWrite x1 x2 s
  | .firmwareCommit => Sys2Proof.Machine.execFirmwareCommit s
  | .spdmRequest x1 => Sys2Proof.Machine.execSpdmRequest x1 s
  | .oobAccountingRead x1 => Sys2Proof.Machine.execOobAccountingRead x1 s
  | .storeAcknowledgement x1 => Sys2Proof.Machine.execStoreAcknowledgement x1 s
  | .convoyPlayStop x1 => Sys2Proof.Machine.execConvoyPlayStop x1 s
  | .pldmMonitoringAndControl x1 => Sys2Proof.Machine.execPldmMonitoringAndControl x1 s
  | .putGetChunk x1 x2 x3 => Sys2Proof.Machine.execPutGetChunk x1 x2 x3 s

end Sys2Proof.Machine
end

