-- ==== Sys2Proof/Machine/Issue.lean ====
section
/-!
DEFINITION. How a context issues a bundle (spec/07 R94 to R97, R104, R109, R111, R113): the events of the boundary, the
switch marker, the fetch, the two slots, and the advance of the PC.
-/

namespace Sys2Proof.Machine

/-! ## The instruction store (spec/07 R96, R97, spec/15 R227) -/

/-- CODE_LEN of the text that a core's cluster holds. -/
def State.codeLen (s : State) (k : CoreIx) : Nat := (look ((0 : BitVec 16), 0) s.text (clusterOf k.val)).2

/-- The two words of the bundle at an offset of the cluster's instruction store. -/
def State.fetchWords (s : State) (k : CoreIx) (pc : Pc) : Half × Half :=
  let l := look [] s.istore (clusterOf k.val)
  (BitVec.ofNat 32 (readLE l pc.toNat 4), BitVec.ofNat 32 (readLE l (pc.toNat + 4) 4))

/-! ## Bundles -/

/-- The unit that a word keeps busy, by its accounting counter: 4 the SFU, 3 the vector unit (spec/06 R87). -/
def unitCounters (i : Instr) : List Nat :=
  match i with
  | .exp _ _ | .log _ _ | .rcp _ _ | .rsqrt _ _ | .tanh _ _ | .sigm _ _ | .gelu _ _ => [4]
  | .vexp _ _ _ | .vlog _ _ _ | .vrcp _ _ _ | .vrsqrt _ _ _ | .vtanh _ _ _ | .vsigm _ _ _ | .vgelu _ _ _ => [4]
  | .vred _ _ _ | .vst _ _ _ _ _ | .vsts _ _ _ _ _ _ | .vstx _ _ _ _ _ _ | .mtox _ _ | .mpopc _ _ => [3]
  | _ => if (vDest i).isSome || (mDest i).isSome then [3] else []

/-- What a bundle that issues is charged: a cycle, its unit, energy (spec/06 R87). -/
def State.chargeIssue (s : State) (i : Instr) : State :=
  (0 :: 15 :: unitCounters i).foldl (fun t n => t.chargeFree s.cc.slot.ctx n) s

/-- Give up the cycle, which counts as parked: the context holds since the tick of its first hold (spec/07 R109, R110). -/
def State.held (s : State) : State :=
  let s := (s.chargeFree s.cc.slot.ctx 1).mod fun c =>
    match c.evt.holdSince with
    | some _ => c
    | none => { c with evt := { c.evt with holdSince := some s.now } }
  { s with bundle := .held, slotSrc := none }

/-- The bundle has issued: earlier results may land from now on, the marker is noted, the PC moves on. -/
def State.commit (s : State) (mark : Nat) (marker : Bool) : State :=
  let age (l : List Flight) : List Flight := l.map fun fl => if fl.id < mark then { fl with aged := true } else fl
  let s := s.mod fun c =>
    let c := { c with evt := { c.evt with holdSince := none, parkedAt := if s.curH then c.evt.parkedAt else none } }
    if s.curH then
      { c with hnd := { c.hnd with pc := c.hnd.npc, marker := marker, flights := age c.hnd.flights } }
    else { c with main := { c.main with pc := c.main.npc, marker := marker, flights := age c.main.flights } }
  { s with slotSrc := none }

/-- The core after its A slot has held: a VLOOP that waits ends the capture of the block before it (spec/16 R269). -/
def heldAs (i : Instr) (s : State) : State :=
  match i with
  | .vloop _ _ => (s.mod (·.closeCapture)).held
  | _ => s.held

/-- The two slots of a decoded bundle: both read their scalar sources before either writes; a bundle that holds or traps in
either slot has no effect in both. -/
def runBundle (s : State) (b : Bundle) (cw aw : Half) : Out :=
  let c := s.cc
  let src : SlotSrc := { x := Vector.ofFn fun i => c.xView s.curH i, f := c.main.f }
  let s0 := s.setNpc (s.curPc + 8)
  match exec b.c { s0 with word := cw } with
  | .next s1 =>
    if s1.bundle = .ok then
      match exec b.a { s1 with word := aw, slotSrc := some src } with
      | .next s2 =>
        if s2.bundle = .ok then .next ((s2.commit s.nextId b.marker).chargeIssue b.a)
        else if s2.bundle = .held then .next (heldAs b.a (s.stall s2))
        else exec b.a { s0 with word := aw, slotSrc := some src }
      | r => r
    else if s1.bundle = .held then .next s1.held
    else .next s1
  | r => r

/-- The first illegal word of a bundle in which the decoder has found one: HRET outside the handler context is illegal too, and its word
comes first (spec/14 R198, R216). -/
def State.firstIllegal (s : State) (cw w : Half) : Half :=
  match decodeC cw.toNat none with
  | .ok .hret => if s.curH then w else cw
  | _ => w

/-- Fetch and decode the next bundle of the context, then run it. An illegal word of either slot leaves both without
effect. -/
def issueBundle (s : State) : Out :=
  let k := s.cur
  let pc := s.curPc
  if s.codeLen k ≤ pc.toNat then .next (s.trap 2 0)
  else
    let (cw, aw) := s.fetchWords k pc
    match decodeBundle cw aw with
    | .error (_, w) => .next { s with word := s.firstIllegal cw w }.illegal
    | .ok b => runBundle s b cw aw

/-- A marker that is set waits for every result of the context and then lands them. -/
def issueAfterMarker (s : State) : Out :=
  let c := s.cc
  let marker := if s.curH then c.hnd.marker else c.main.marker
  if marker then
    if c.settled s.curH then
      issueBundle (s.mod fun c =>
        let c := c.landAll s.curH
        if s.curH then { c with hnd := { c.hnd with marker := false } } else { c with main := { c.main with marker := false } })
    else .next s.held
  else issueBundle s

/-- Whether the main context of a core may issue (spec/05 R68, R69, R73, R76). -/
def Core.mayIssue (c : Core) : Bool :=
  (c.slot.st = .running || c.slot.st = .stopping) && c.slot.stop = .no && c.slot.fatal.isNone

/-- Whether the handler context has a bundle to issue: it holds a row, and the core has not stopped for a forced save (spec/05 R73). -/
def Core.handlerReady (c : Core) : Bool :=
  c.hnd.row.isSome && c.slot.fatal.isNone && c.slot.st ≠ .frozen && c.slot.st ≠ .idle && c.slot.stop ≠ .forced

def State.setCtx (s : State) (k : CoreIx) (h : Bool) : State :=
  { s with cur := k, curH := h, bundle := .ok, slotSrc := none }

/-- The main context at a bundle boundary: an event is taken, or the next bundle issues. -/
def issueMain (s : State) (k : CoreIx) : Out :=
  let s := s.setCtx k false
  if !(s.core k).mayIssue then .next s.hold
  else
    match s.boundary k with
    | some e =>
      if (s.core k).calm then .next { s.takeEvent k e with bundle := .trapped }
      else .next (s.mod (·.beginDrain)).held
    | none => issueAfterMarker s

/-- A core issues: its handler context first, and its main context where the handler has nothing to issue (spec/07 R103). -/
def issueCore (s : State) (k : CoreIx) : Out :=
  if (s.core k).handlerReady then
    match issueAfterMarker (s.setCtx k true) with
    | .next s' => if s'.bundle = .held then issueMain s' k else .next s'
    | r => r
  else issueMain s k

end Sys2Proof.Machine
end

