-- ==== Sys2Proof/Machine/Policy.lean ====
section
/-!
DEFINITION. What a step of the device does: the moves that the agenda names (log 2), and the fair default order when it names
none (log 3): bundles alternate with passes in which everything that is on its way goes on.
-/

namespace Sys2Proof.Machine

/-! ## Moves -/

/-- Rows of the table that are steps of the device or commands of a matrix queue; the others issue from bundles. -/
def isEvent (i : Instr) : Bool :=
  match kindOf i with
  | .cWord => false
  | .aWord => false
  | .matrix => true
  | .event => true

/-- A device in the fatal state, or without power or compute function, issues nothing (spec/06 R84, R91). -/
def State.stopped (s : State) : Bool := s.mgmt.fatal.isSome || !s.mgmt.powered || !s.mgmt.compute

/-- Steps of the power supply, the clocks and the links, and what a device offers that has booted no image: MCTP and PLDM firmware update
(spec/06 R84). -/
def isBare (i : Instr) : Bool :=
  match i with
  | .powerUp _ | .perstN | .pldmMonitoringAndControl .mctpControl | .firmwareImageWrite _ _ | .firmwareCommit | .linkRetry _ _
  | .thermalTrip _ | .railFault _ | .clockLoss _ | .linkLoss _ _ | .moduleFailure _ _ _ => true
  | _ => false

/-- Steps of the management hart, which go on in a device that is stopped (spec/06 R91). -/
def isManagement (i : Instr) : Bool :=
  match i with
  | .sensorSample _ | .violationLogCopy _ | .spdmRequest _ | .oobAccountingRead _ | .pldmMonitoringAndControl _ => true
  | _ => isBare i

/-- Writes of BAR2 and of configuration space, which stay reachable in the fatal state (spec/06 R91). -/
def isBar2 (i : Instr) : Bool :=
  match i with
  | .featuresOk | .functionReset | .functionLevelReset | .qiEnable _ | .qiDisable _ | .revoke _ => true
  | .registerWrite a _ => a.toNat < 0x10000
  | _ => false

/-- Whether a step of the device can happen: every one in a device that runs. -/
def State.allows (s : State) (i : Instr) : Bool :=
  !s.stopped || isBare i || (isManagement i && s.mgmt.booted.isSome) || (isBar2 i && s.mgmt.fatal.isSome)

/-- Whether a device register can be read: in a stopped device only BAR2, in the fatal state (spec/06 R91). -/
def State.mayRead (s : State) (a : Nat) : Bool := !s.stopped || (s.mgmt.fatal.isSome && a < 0x10000)

/-- The next entry of a core's sequencer executes, or stalls. -/
def State.seqMove (s : State) (k : CoreIx) : State :=
  match s.seqStep k with
  | .ok s' => s'
  | .error s' => s'.seqStalled k

/-- The contexts that consume: those of bound cores, and those for which work has been counted. -/
def State.consumers (s : State) : List Nat :=
  (((s.listed.filter fun k => (s.core k).slot.st ≠ .idle).map fun k => (s.core k).slot.ctx.toNat) ++ s.dev.acct.map (·.1)).eraseDups

/-- Energy of the time that has passed: the leakage of bound cores, parked ones among them, the operations of engines and the bytes of stack and
fabric traffic since the clock last moved, in amounts that the spec does not fix (spec/06 R87, R88; log 23). -/
def State.energy (s : State) : State := s.consumers.foldl (fun s c => s.chargeFree (BitVec.ofNat 12 c) 15) s

/-- Ticks pass; in every one the Relays fire terms whose thresholds are zero (spec/09 R144). -/
def State.elapse (s : State) (n : Nat) : State :=
  let s' : State := { s with now := s.now + n }
  if s.stopped then s' else s.listed.foldl (fun s k => s.modCore k (·.relayIdle n)) s'.energy

/-- Do a move of the agenda. -/
def State.move (s : State) (m : Move) : Out :=
  match m with
  | .run i => if isEvent i && s.allows i then exec i s else ok s
  | .issue k => if s.stopped then ok s else issueCore (s.seqDrain k) k
  | .seq k => if s.stopped then ok s else ok (s.seqMove k)
  | .elapse n => ok (s.elapse n)
  | .port k n => if s.stopped then ok s else ok (s.portDrain k n)
  | .replicate e die => if s.stopped then ok s else ok (s.replicate e.val die.val)
  | .upset a c => if s.stopped then ok s else ok (s.upset a.toNat c)
  | .upsetChunk slot cidx w c => if s.stopped then ok s else ok (s.upsetChunk slot cidx w c)
  | .tear c => if s.stopped then ok s else ok { s with dev := { s.dev with torn := s.dev.torn ++ [c] } }
  | .read a => if s.mayRead a.toNat then ok (s.answerRead a.toNat) else ok s
  | .bindStream q n => if s.stopped then ok s else ok (s.bindStream q n)
  | .configure o v => ok (s.configure o v)

/-! ## The default order -/

/-- The state of an outcome that is a next state. -/
def Out.orElse (o : Out) (s : State) : State :=
  match o with
  | .next s' => s'
  | _ => s

/-- Requests for this device arrive at their homes, and those for others leave, oldest first. -/
def State.netPass (s : State) : State :=
  (s.net.map (·.id)).foldl (fun s id =>
    match s.req id with
    | none => s
    | some r =>
      if !r.reg && devOf r.sys ≠ s.own then (if r.plane.isNone then s.performOwn id ownReply else s)
      else
        match r.op, r.flight with
        | .tok rel, some f =>
          if r.reg then s.performOwn id ownReply
          else
            let p : TokParty := .core r.src.coreOf 0 f
            let g : BitVec 19 := BitVec.ofNat 19 (physOf r.sys / 2 ^ 21)
            Out.orElse (if rel then execTokenRelease g p s else execTokenAcquire g p s) s
        | _, _ => s.performOwn id ownReply) s

/-- Every replica takes what the home holds. -/
def State.replicateAll (s : State) : State := { s with dev := { s.dev with replicas := [] } }

/-- Timeouts, acknowledgements and failing responses. -/
def State.ackPass (s : State) : State :=
  let s := s.replicateAll
  let s := (s.engWaits.map (·.id)).foldl (fun s id => Out.orElse (execFabRspTimeout id (Out.orElse (execFeTimeout id s) s)) s) s
  let s := (s.net.map (·.id)).foldl (fun s id =>
    Out.orElse (execStoreAcknowledgement id (Out.orElse (execFabRspTimeout id (Out.orElse (execFeTimeout id s) s)) s)) s) s
  s.listed.foldl (fun s k => Out.orElse (execResponseTrap k s) s) s

/-- Results that are known and older than the newest bundle land. -/
def landPass (h : Bool) (c : Core) : Core :=
  let n := (c.flights h).length
  (List.range n).foldl (fun c i => landFlight h c (n - 1 - i)) c

def landPasses (h : Bool) : Nat → Core → Core
  | 0, c => c
  | n + 1, c => landPasses h n (landPass h c)

/-- The next matrix command of a core starts, and what has started ends or dispatches a row. -/
def State.matPass (s : State) (k : CoreIx) : State :=
  let s := match nextCmd [] (s.core k).mat.mq with
    | none => s
    | some (_, e) =>
      match e.cmd with
      | .mload c => Out.orElse (execMload k c s) s
      | .mswap c => Out.orElse (execMswap k c s) s
      | .mdrain c => Out.orElse (execMdrain k c s) s
      | .mzero c => Out.orElse (execMzero k c s) s
      | .mshape c => Out.orElse (execMshape k c s) s
      | .mma c => Out.orElse (execMma k c s) s
  Out.orElse (execDrainRowDispatch k (Out.orElse (execMatrixCommandEnd k s) s)) s

/-- The lowest chunk in flight of each transfer of a core lands. -/
def State.copyPass (s : State) (k : CoreIx) : State :=
  (s.core k).eng.copies.foldl (fun s x =>
    match x.begin.inFlight with
    | [] => s
    | c :: _ => Out.orElse (execCopyChunkLanding k x.xid c s) s) s

def dirs : List Dir := [.n, .e, .s, .w]

/-- Neighbour queues, the sequencer, barriers, sends and timeouts of a core. -/
def State.corePass (s : State) (k : CoreIx) : State :=
  let s := dirs.foldl (fun s d => Out.orElse (execNeighbourQueueArrival k d s) s) s
  let s := (s.seqDrain k).drainPorts k
  let s := s.modCore k fun c => landPasses true 2 (landPasses false 2 c)
  let s := (s.matPass k).copyPass k
  let s := match (s.core k).exch.parked with
    | .none => s
    | .sync g => Out.orElse (execSyncRelease k g s) s
    | .xend g => Out.orElse (execXendReturn k g s) s
  let mine := (s.core k).eng.sends.filter fun r => r.answer.isSome || r.dev = s.fab.devid
  let s := mine.foldl (fun s r => Out.orElse (execSendAnswer k r.handle ownReply s) s) s
  let s := (s.core k).eng.votes.foldl (fun s g => Out.orElse (execQuiescenceMessage k g s) s) s
  Out.orElse (execQueueTimeout k (Out.orElse (execWatchdogExpiry k s) s)) s

/-- Transfers, items, messages, postings, the market, and recalls that are overdue. -/
def State.enginePass (s : State) : State :=
  let s := (s.xfers.map (·.id)).foldl (fun s id => Out.orElse (execXsendLinkEntry id true (Out.orElse (execXsendLinkEntry id false s) s)) s) s
  let s := (s.xfers.map (·.id)).foldl (fun s id => Out.orElse (execXsendLanding id s) s) s
  let s := (s.pushed.map (·.id)).foldl (fun s id => Out.orElse (execWorkItemArrival id s) s) s
  let s := (s.pre.sent.map (·.id)).foldl (fun s id => Out.orElse (execMessageArrival (.own id) s) s) s
  let s := s.rematch
  let s := (s.posts.map (·.id)).foldl (fun s id => Out.orElse (execGatepostChunkWrite id s) s) s
  let s := (List.finRange 16).foldl (fun s p => Out.orElse (execMarketStepComplete p (Out.orElse (execSortComplete p s) s)) s) s
  (s.fab.tokens.filter fun t => t.2.recallDue.isSome).foldl (fun s t =>
    Out.orElse (execTokTimeout (BitVec.ofNat 19 t.1) s) s) s

/-- A packet that has been fetched starts, or ends; chunks of a PUT or a GET are the host's. -/
def packetPass (q : Fin 64) (s : State) (n : Nat) : State :=
  let s := Out.orElse (execNopPacket q n s) s
  let s := Out.orElse (execPut q n s) s
  let s := Out.orElse (execGet q n s) s
  let s := Out.orElse (execLaunchPacket q n s) s
  let s := Out.orElse (execCancel q n s) s
  Out.orElse (execPacketCompletion q n s) s

/-- The host port: the packets of every interface. -/
def State.hostPass (s : State) : State :=
  s.host.qis.foldl (fun s e => (e.2.packets.map (·.seq)).foldl (packetPass (Fin.ofNat 64 e.1)) s) s

/-- The scheduler hart: faulted cores, launches, what is loaded and what is saved. -/
def State.schedPass (s : State) : State :=
  let s := s.sched.faults.foldl (fun s k => Out.orElse (execGroupFaultHandling k s) s) s
  let s := s.listed.foldl (fun s k => Out.orElse (execLoadingComplete k s) s) s
  let s := s.listed.foldl (fun s k => Out.orElse (execContextSave k (Out.orElse (execSafeTimeout k s) s)) s) s
  (s.sched.launches.map (·.lid)).foldl (fun s lid =>
    Out.orElse (execLaunchEnd lid (Out.orElse (execLaunchPlacement lid (Out.orElse (execLaunchReady lid s) s)) s)) s) s

/-- Operation `i` of a graph: it completes unless its partner is another device that a route leads to and whose answer was not discarded, or
it times out. -/
def opPass (g : Fin 16) (s : State) (i : Nat) : State :=
  let op : BitVec 12 := BitVec.ofNat 12 i
  let mine := match s.graph g with
    | some x =>
      let d := x.dev (x.op i).peer
      (x.op i).kind ≠ 1 || d = s.own || !(s.route d .adp true).isOk ||
        (match x.run with | some p => p.lost.any (·.1 = i) | none => false)
    | none => false
  let s := if mine then Out.orElse (execConvoySendRetry g op ownReply (Out.orElse (execConvoyOpComplete g op .own s) s)) s else s
  Out.orElse (execCvTimeout g op s) s

/-- The convoys: arming, plays and their operations. -/
def convoyPass (s : State) (g : Fin 16) : State :=
  let s := Out.orElse (execPlayStart g (Out.orElse (execConvoyArmComplete g s) s)) s
  let n := match s.graph g with
    | some x => x.ops.length
    | none => 0
  let s := (List.range n).foldl (opPass g) s
  Out.orElse (execConvoyPlayStop g (Out.orElse (execPlayStall g s) s)) s

/-- One pass, and a tick. -/
def State.progress (s : State) : State :=
  let s := (s.netPass.ackPass).enginePass
  let s := s.listed.foldl State.corePass s
  ((List.finRange 16).foldl convoyPass s.schedPass.hostPass).elapse 1

/-- The next core that may issue, in rising order from the one after `k`. -/
def State.nextCore (s : State) (k : CoreIx) : CoreIx :=
  let l := (s.cores.filter fun p => p.2.mayIssue || p.2.handlerReady).map (·.1)
  match l.find? (k.val < ·) with
  | some j => toCore j
  | none => match l with | j :: _ => toCore j | [] => k

/-- A bundle of the core whose turn it is. -/
def State.issueTurn (s : State) : Out :=
  match issueCore (s.seqDrain s.cur) s.cur with
  | .next s' => .next { s' with cur := s'.nextCore s'.cur, curH := false, turn := true }
  | r => r

/-- What the device does when the agenda is empty. -/
def State.default (s : State) : Out :=
  if s.mgmt.fatal.isSome then .fault .fatalState
  else if !s.mgmt.powered || !s.mgmt.compute then .fault .noCompute
  else if s.turn then ok { s.progress with turn := false }
  else s.issueTurn

/-- A step: the first move of the agenda, or the default. -/
def State.advance (s : State) : Out :=
  match s.agenda with
  | m :: r => State.move { s with agenda := r } m
  | [] => s.default

/-! ## A given bundle at the program counter -/

/-- The bundle of a table word: the word in its slot, the no-operation in the other. -/
def bundleBytes (nbits w : Nat) : Nat :=
  let v := w % 2 ^ nbits % 2 ^ 64
  if tableWordIsA v then v * 2 ^ 32 else v

def Core.ready (c : Core) : Core :=
  { c with slot := { c.slot with st := .running, stop := .no, fatal := none },
           main := { c.main with marker := false }, hnd := { c.hnd with row := none } }

def State.placeBundle (s : State) (nbits w : Nat) : State :=
  let k := s.cur
  let cl := clusterOf k.val
  let pc := (s.core k).main.pc.toNat
  let t := look ((0 : BitVec 16), 0) s.text cl
  let s := s.modCore k Core.ready
  { s with istore := put s.istore cl (writeLE (look [] s.istore cl) pc 8 (bundleBytes nbits w)),
           text := put s.text cl (t.1, max t.2 (pc + 8)), curH := false, agenda := [], turn := false,
           mgmt := { s.mgmt with powered := true, compute := true, fatal := none } }

end Sys2Proof.Machine
end

