-- ==== Sys2Proof/Machine/Step.lean ====
section
/-!
DEFINITION. The step of the device, and a state whose next step fetches and runs a given instruction.
-/

namespace Sys2Proof.Machine

/-- One step: the next move of the agenda, or the default order. -/
def step (s : State) : Host.Outcome State Fault Refusal := s.advance

/-- The state with the bundle of a table word stored at the program counter of the core whose turn it is, and that core ready
to issue: its slot RUNNING, no event of the agenda before it, the text of its cluster long enough (log 16). -/
def State.withFetchWord (s : State) (nbits w : Nat) : State := s.placeBundle nbits w

end Sys2Proof.Machine
end

