-- ==== Sys2Proof/Safety.lean ====
section
/-!
DEFINITION. The terms in which the claims are stated: the invariant that every step keeps, the results of the instructions in
the arithmetic of the spec, and what an instruction may change.
-/

namespace Sys2Proof.Machine

/-! ## The invariant -/

/-- The memory of the device and every instruction store are in their canonical form, so that equal memories are equal data. -/
def State.Canonical (s : State) : Prop :=
  Memory.wf s.mem = true ∧ ∀ p ∈ s.istore, Memory.wf p.2 = true

/-! ## Integer results (spec/15 R218 to R223) -/

/-- A number as a doubleword, modulo 2^64. -/
def natW (n : Nat) : Word := BitVec.ofNat 64 n
def intW (i : Int) : Word := BitVec.ofInt 64 i

/-- The sign-extended value of an immediate. -/
def simm {n : Nat} (i : BitVec n) : Int := i.toInt

/-- Bits lo + n - 1 to lo of x replaced by the low n bits of v. -/
def insertAt (x lo n v : Nat) : Nat := x % 2 ^ lo + v % 2 ^ n * 2 ^ lo + x / 2 ^ (lo + n) * 2 ^ (lo + n)

/-- Bits lo + n - 1 to lo of x. -/
def fieldAt (x lo n : Nat) : Nat := x / 2 ^ lo % 2 ^ n

/-- The n-bit number v read as a two's-complement number. -/
def signedOf (n v : Nat) : Int := if v < 2 ^ (n - 1) then (v : Int) else (v : Int) - (2 ^ n : Nat)

/-- The destination and the result of an instruction of spec/15 R218 to R223; none for another instruction. -/
def intResult (i : Instr) (s : State) : Option (XReg × Word) :=
  let u (r : XReg) : Nat := (s.rx r).toNat
  let z (r : XReg) : Int := (s.rx r).toInt
  match i with
  | .li d l => some (d, intW l.toInt)
  | .liU d l => some (d, natW l.toNat)
  | .liH d l => some (d, natW (l.toNat * 2 ^ 32 + u d % 2 ^ 32))
  | .add d a b => some (d, natW (u a + u b))
  | .sub d a b => some (d, intW (z a - z b))
  | .and d a b => some (d, s.rx a &&& s.rx b)
  | .or d a b => some (d, s.rx a ||| s.rx b)
  | .xor d a b => some (d, s.rx a ^^^ s.rx b)
  | .sll d a b => some (d, natW (u a * 2 ^ (u b % 64)))
  | .srl d a b => some (d, natW (u a / 2 ^ (u b % 64)))
  | .sra d a b => some (d, intW (z a / (2 ^ (u b % 64) : Nat)))
  | .slt d a b => some (d, if z a < z b then 1 else 0)
  | .sltu d a b => some (d, if u a < u b then 1 else 0)
  | .mul d a b => some (d, intW (z a * z b))
  | .mulh d a b => some (d, intW (z a * z b / (2 ^ 64 : Nat)))
  | .mulhu d a b => some (d, natW (u a * u b / 2 ^ 64))
  | .div d a b => some (d, if z b = 0 then intW (-1) else intW ((z a).tdiv (z b)))
  | .divu d a b => some (d, if u b = 0 then intW (-1) else natW (u a / u b))
  | .rem d a b => some (d, if z b = 0 then s.rx a else intW ((z a).tmod (z b)))
  | .remu d a b => some (d, if u b = 0 then s.rx a else natW (u a % u b))
  | .min d a b => some (d, intW (min (z a) (z b)))
  | .max d a b => some (d, intW (max (z a) (z b)))
  | .minu d a b => some (d, natW (min (u a) (u b)))
  | .maxu d a b => some (d, natW (max (u a) (u b)))
  | .clz d a => some (d, natW (if u a = 0 then 64 else 63 - Nat.log2 (u a)))
  | .ctz d a => some (d, natW (((List.range 64).find? fun j => (s.rx a).getLsbD j).getD 64))
  | .popc d a => some (d, natW ((List.range 64).filter fun j => (s.rx a).getLsbD j).length)
  | .shadd d a b n => some (d, natW (u a * 2 ^ (n.val + 1) + u b))
  | .addi d a imm => some (d, intW (z a + simm imm))
  | .andi d a imm => some (d, s.rx a &&& intW (simm imm))
  | .ori d a imm => some (d, s.rx a ||| intW (simm imm))
  | .xori d a imm => some (d, s.rx a ^^^ intW (simm imm))
  | .slli d a sh => some (d, natW (u a * 2 ^ sh.val))
  | .srli d a sh => some (d, natW (u a / 2 ^ sh.val))
  | .srai d a sh => some (d, intW (z a / (2 ^ sh.val : Nat)))
  | .slti d a imm => some (d, if z a < simm imm then 1 else 0)
  | .sltiu d a imm => some (d, if u a < (intW (simm imm)).toNat then 1 else 0)
  | .muli d a imm => some (d, intW (z a * simm imm))
  | .hset d imm q => some (d, natW (imm.toNat * 2 ^ (16 * q.val)))
  | .hins d imm q => some (d, natW (insertAt (u d) (16 * q.val) 16 imm.toNat))
  | .bextu d a pos lenm1 => some (d, natW (fieldAt (u a) pos.val (lenm1.val + 1)))
  | .bext d a pos lenm1 => some (d, intW (signedOf (lenm1.val + 1) (fieldAt (u a) pos.val (lenm1.val + 1))))
  | .bins d a pos lenm1 => some (d, natW (insertAt (u d) pos.val (lenm1.val + 1) (u a)))
  | _ => none

/-! ## Branches (spec/15 R224, R226) -/

/-- Whether a branch is taken, and its offset in bundles; none for another instruction. -/
def branchSpec (i : Instr) (s : State) : Option (Prop × BitVec 14) :=
  let u (r : XReg) : Nat := (s.rx r).toNat
  let z (r : XReg) : Int := (s.rx r).toInt
  match i with
  | .beq a b off => some (u a = u b, off)
  | .bne a b off => some (u a ≠ u b, off)
  | .blt a b off => some (z a < z b, off)
  | .bge a b off => some (z b ≤ z a, off)
  | .bltu a b off => some (u a < u b, off)
  | .bgeu a b off => some (u b ≤ u a, off)
  | .bmaskAny m off => some ((∃ j, j < 64 ∧ (s.cc.mask m).getLsbD j = true), off)
  | .bmaskNone m off => some ((∀ j, j < 64 → (s.cc.mask m).getLsbD j = false), off)
  | .bmaskAll m off => some ((∀ j, j < 64 → (s.cc.mask m).getLsbD j = true), off)
  | _ => none

/-- The mask that a branch or a move to a scalar register reads. -/
def maskRead : Instr → Option MReg
  | .bmaskAny m _ => some m
  | .bmaskNone m _ => some m
  | .bmaskAll m _ => some m
  | .mtox _ m => some m
  | .mpopc _ m => some m
  | _ => none

/-- The byte offset of a bundle `off` bundles on (spec/14 R203). -/
def bundleAt (pc : Pc) (off : Int) : Pc := BitVec.ofInt 17 (pc.toNat + 8 * off)

/-! ## What a scalar result changes -/

/-- The flights of a context as they were, but for the mark that a later write has superseded one (spec/07 R94, log 7). -/
def sameFlights (l l' : List Flight) : Prop :=
  l'.map (fun f => { f with dead := false }) = l.map (fun f => { f with dead := false })

/-- Only register x[d] of the executing context may differ: every other register, flag, control register, queue and engine of
every core, every byte of memory, every request and every other part of the device is as before. -/
def OnlyX (s t : State) (d : XReg) : Prop :=
  t = { s with cores := t.cores } ∧
  (∀ k : CoreIx, k ≠ s.cur → t.core k = s.core k) ∧
  (if s.curH then
    t.cc = { s.cc with hnd := { s.cc.hnd with x := t.cc.hnd.x, flights := t.cc.hnd.flights } } ∧
    (∀ i : Fin 16, i.val ≠ d.val → t.cc.hnd.x[i] = s.cc.hnd.x[i]) ∧ sameFlights s.cc.hnd.flights t.cc.hnd.flights
   else
    t.cc = { s.cc with main := { s.cc.main with x := t.cc.main.x, flights := t.cc.main.flights } } ∧
    (∀ i : XReg, i ≠ d → t.cc.main.x[i] = s.cc.main.x[i]) ∧ sameFlights s.cc.main.flights t.cc.main.flights) ∧
  (∀ a, memGet t.mem a = memGet s.mem a)

/-- Only register f[d] of the core may differ, and flags of FPCTL may have been set. -/
def OnlyF (s t : State) (d : FReg) (fl : FpFlags) : Prop :=
  t = { s with cores := t.cores } ∧
  (∀ k : CoreIx, k ≠ s.cur → t.core k = s.core k) ∧
  t.cc = { s.cc with main := { s.cc.main with f := t.cc.main.f, flights := t.cc.main.flights },
                     ctl := { s.cc.ctl with fpctl := orFlags s.cc.ctl.fpctl fl } } ∧
  (∀ i : FReg, i ≠ d → t.cc.main.f[i] = s.cc.main.f[i]) ∧ sameFlights s.cc.main.flights t.cc.main.flights ∧
  (∀ a, memGet t.mem a = memGet s.mem a)

/-! ## Scalar floating-point results (spec/16 R252 to R255) -/

/-- The f register, the FP32 code and the flags of an instruction whose result goes to an f register; none for the flags of
an instruction that touches no flag. -/
def floatResult (i : Instr) (s : State) : Option (FReg × Nat × Option FpFlags) :=
  let v (r : FReg) : Nat := (s.rf r).toNat
  let q := s.satm
  let some2 (d : FReg) (r : Nat × FpFlags) : Option (FReg × Nat × Option FpFlags) := some (d, r.1, some r.2)
  match i with
  | .liF d l => some (d, l.toNat, none)
  | .fadd d a b rm => some2 d (fpAdd fp32 (s.rm rm) q (v a) (v b))
  | .fsub d a b rm => some2 d (fpSub fp32 (s.rm rm) q (v a) (v b))
  | .fmul d a b rm => some2 d (fpMul fp32 (s.rm rm) q (v a) (v b))
  | .fdiv d a b rm => some2 d (fpDiv fp32 (s.rm rm) q (v a) (v b))
  | .fsqrt d a rm => some2 d (fpSqrt fp32 (s.rm rm) q (v a))
  | .fmin d a b => some (d, fpMin fp32 (v a) (v b), none)
  | .fmax d a b => some (d, fpMax fp32 (v a) (v b), none)
  | .fmvF d a => some (d, (s.rx a).toNat % 2 ^ 32, none)
  | .fneg d a => some (d, fpNeg fp32 (v a), none)
  | .fabs d a => some (d, fpAbs fp32 (v a), none)
  | .fmadd d a b c rm => some2 d (fpFma fp32 (s.rm rm) q false false (v a) (v b) (v c))
  | .fmsub d a b c rm => some2 d (fpFma fp32 (s.rm rm) q false true (v a) (v b) (v c))
  | .fnmadd d a b c rm => some2 d (fpFma fp32 (s.rm rm) q true true (v a) (v b) (v c))
  | .fnmsub d a b c rm => some2 d (fpFma fp32 (s.rm rm) q true false (v a) (v b) (v c))
  | .fcvtf d a fmt _ rm => some2 d (toFp32 fmt (s.rm rm) (s.rx a))
  | _ => none

/-- The x register, the value and the flags of a floating-point instruction whose result goes to an x register. -/
def floatToX (i : Instr) (s : State) : Option (XReg × Word × Option FpFlags) :=
  let v (r : FReg) : Nat := (s.rf r).toNat
  match i with
  | .feq d a b => some (d, if cmpVal (fpDecode fp32 (v a)) (fpDecode fp32 (v b)) = some .eq then 1 else 0, none)
  | .flt d a b =>
    let o := cmpVal (fpDecode fp32 (v a)) (fpDecode fp32 (v b))
    some (d, if o = some .lt then 1 else 0, some (if o = none then .nv else .none))
  | .fle d a b =>
    let o := cmpVal (fpDecode fp32 (v a)) (fpDecode fp32 (v b))
    some (d, if o = some .lt ∨ o = some .eq then 1 else 0, some (if o = none then .nv else .none))
  | .fclass d a => some (d, natW (2 ^ fclassBit (v a)), none)
  | .fmvX d a => some (d, natW (v a), none)
  | .fcvtx d a fmt sm rm =>
    let r := ofFp32 fmt (s.rm rm) (resolveSm sm s.cc.ctl.fpctl) (v a)
    some (d, r.1, some r.2)
  | _ => none

/-- The state with flags ORed into FPCTL, where the instruction touches flags. -/
def State.flagged (s : State) (fl : Option FpFlags) : State :=
  match fl with
  | some f => s.orFp f
  | none => s

/-- The function of the SFU that a scalar instruction names. -/
def sfuResult (i : Instr) (s : State) : Option (FReg × Nat × FpFlags) :=
  match i with
  | .exp d a => some (d, sfuExp (s.rf a))
  | .log d a => some (d, sfuLog (s.rf a))
  | .rcp d a => some (d, sfuRcp (s.rf a))
  | .rsqrt d a => some (d, sfuRsqrt (s.rf a))
  | .tanh d a => some (d, sfuTanh (s.rf a))
  | .sigm d a => some (d, sfuSigm (s.rf a))
  | .gelu d a => some (d, sfuGelu (s.rf a))
  | _ => none

/-! ## Exact values as rational numbers (spec/12 R170, R180) -/

/-- The rational number of a finite value that is exact: (-1)^neg · mag · 2^exp. -/
def Val.rat : Val → Option ℚ
  | .fin neg mag exp false => some ((if neg then -1 else 1) * mag * (2 : ℚ) ^ exp)
  | _ => none

/-- The rational number of a finite FP32 code. -/
def fp32Rat (c : Nat) : ℚ := (fpDecode fp32 c).rat.getD 0

/-- A finite FP32 code. -/
def Fp32Finite (c : Nat) : Prop := c < 2 ^ 32 ∧ c % 2 ^ 31 < 0x7F800000

/-- Code r is finite and within n units in the last place of code c. -/
def UlpsFrom (r c : Nat) (n : Int) : Prop := r % 2 ^ 31 ≤ 0x7F7FFFFF ∧ ordKey c - n ≤ ordKey r ∧ ordKey r ≤ ordKey c + n

/-- Code r is finite and within n units in the last place of code c or, where `near` holds, within 2^-b of it. -/
def BoundFrom (r c : Nat) (n : Int) (near : Prop) (b : Nat) : Prop :=
  UlpsFrom r c n ∨ (near ∧ r % 2 ^ 31 ≤ 0x7F7FFFFF ∧ |fp32Rat r - fp32Rat c| ≤ 1 / (2 : ℚ) ^ b)

/-- The rational number of a magnitude code, the exponent unbounded above. -/
def codeRat (f : FpFmt) (c : Nat) : ℚ := (codeVal f false c).rat.getD 0

/-! ## The vector sequencer (spec/16 R256 to R267) -/

/-- The sequencer of the executing core holds nothing and executes what it is given at once: no entry, no block, no wait, no
bound port, no buffered write of one, and no local access stands behind it. -/
def State.SeqIdle (s : State) : Prop :=
  s.seqHold = false ∧ s.cc.seq.queue = [] ∧ s.cc.seq.loop = none ∧ s.cc.seq.nqWait = none ∧ s.cc.seq.drain = false ∧
  (∀ n : Fin 4, s.cc.seq.ports[n].en = false ∧ s.cc.seq.ports[n].outq = []) ∧ ∀ r ∈ s.net, r.loc = false

/-- The state after an entry has executed that leaves its core as c: one operation more has been numbered. -/
def State.ranTo (s : State) (c : Core) : State := { s with cores := put s.cores s.cur.val c, nextId := s.nextId + 1 }

/-- The state after an entry has executed that owes a scalar result: the core as c, with the result in flight. -/
def State.owes (s : State) (c : Core) (dst : FDst) (w : Word) : State :=
  let fl : Flight := { id := s.nextId, dst := dst, vals := [w], more := false, aged := false, dead := false }
  { s with cores := put s.cores s.cur.val (c.setFlights s.curH (c.flights s.curH ++ [fl])), nextId := s.nextId + 2 }

/-- No result in flight of the executing context carries the number that the next one will get. -/
def State.FreshIds (s : State) : Prop := ∀ f ∈ s.cc.flights s.curH, f.id ≠ s.nextId

/-- An n-bit element from an integer. -/
def modN (n : Nat) (i : Int) : Nat := (i % (2 ^ n : Nat)).toNat

/-- An integer kept to the range of an n-bit two's-complement number. -/
def clampN (n : Nat) (i : Int) : Int := max (-(2 ^ (n - 1) : Nat)) (min ((2 ^ (n - 1) : Nat) - 1) i)

/-- Destination, sources, mask, element type of an integer vector instruction, and the result of two elements of n bits before
it is reduced modulo 2^n (spec/16 R256). -/
def vIntSpec (i : Instr) : Option (VReg × VReg × VReg × MReg × IntEt × (Nat → Nat → Nat → Int)) :=
  match i with
  | .vadd d a b m t => some (d, a, b, m, t, fun _ x y => (x : Int) + y)
  | .vsub d a b m t => some (d, a, b, m, t, fun _ x y => (x : Int) - y)
  | .vmul d a b m t => some (d, a, b, m, t, fun _ x y => (x : Int) * y)
  | .vmulh d a b m t => some (d, a, b, m, t, fun n x y => signedOf n x * signedOf n y / (2 ^ n : Nat))
  | .vmin d a b m t => some (d, a, b, m, t, fun n x y => min (signedOf n x) (signedOf n y))
  | .vmax d a b m t => some (d, a, b, m, t, fun n x y => max (signedOf n x) (signedOf n y))
  | .vminu d a b m t => some (d, a, b, m, t, fun _ x y => (min x y : Nat))
  | .vmaxu d a b m t => some (d, a, b, m, t, fun _ x y => (max x y : Nat))
  | .vand d a b m t => some (d, a, b, m, t, fun _ x y => (x &&& y : Nat))
  | .vor d a b m t => some (d, a, b, m, t, fun _ x y => (x ||| y : Nat))
  | .vxor d a b m t => some (d, a, b, m, t, fun _ x y => (x ^^^ y : Nat))
  | .vsll d a b m t => some (d, a, b, m, t, fun n x y => (x : Int) * (2 ^ (y % n) : Nat))
  | .vsrl d a b m t => some (d, a, b, m, t, fun n x y => (x / 2 ^ (y % n) : Nat))
  | .vsra d a b m t => some (d, a, b, m, t, fun n x y => signedOf n x / (2 ^ (y % n) : Nat))
  | .vabs d a m t => some (d, a, a, m, t, fun n x _ => (signedOf n x).natAbs)
  | .vneg d a m t => some (d, a, a, m, t, fun n x _ => -signedOf n x)
  | _ => none

/-- The saturating forms: the exact result of two elements. -/
def vSatSpec (i : Instr) : Option (VReg × VReg × VReg × MReg × IntEt × (Int → Int → Int)) :=
  match i with
  | .vadds d a b m t => some (d, a, b, m, t, fun x y => x + y)
  | .vsubs d a b m t => some (d, a, b, m, t, fun x y => x - y)
  | _ => none

/-- The floating-point forms: code and flags from FPCTL, the format, the two source elements and the destination's element as
read (spec/16 R257, R258, R267). -/
def vFpSpec (i : Instr) : Option (VReg × VReg × VReg × MReg × FpEt × (Word → FpFmt → Nat → Nat → Nat → Nat × FpFlags)) :=
  let fma (np nc : Bool) (rm : Rm) (q : Word) (f : FpFmt) (x y z : Nat) : Nat × FpFlags :=
    fpFma f (resolveRm rm q) (fpctlSatm q) np nc x y z
  let sfu (g : Half → Nat × FpFlags) (_ : Word) (_ : FpFmt) (x _ _ : Nat) : Nat × FpFlags := g (BitVec.ofNat 32 x)
  match i with
  | .vfadd d a b m t => some (d, a, b, m, t, fun q f x y _ => fpAdd f (fpctlRm q) (fpctlSatm q) x y)
  | .vfsub d a b m t => some (d, a, b, m, t, fun q f x y _ => fpSub f (fpctlRm q) (fpctlSatm q) x y)
  | .vfmul d a b m t => some (d, a, b, m, t, fun q f x y _ => fpMul f (fpctlRm q) (fpctlSatm q) x y)
  | .vfdiv d a b m t => some (d, a, b, m, t, fun q f x y _ => fpDiv f (fpctlRm q) (fpctlSatm q) x y)
  | .vfsqrt d a m t => some (d, a, a, m, t, fun q f x _ _ => fpSqrt f (fpctlRm q) (fpctlSatm q) x)
  | .vfmin d a b m t => some (d, a, b, m, t, fun _ f x y _ => (fpMin f x y, .none))
  | .vfmax d a b m t => some (d, a, b, m, t, fun _ f x y _ => (fpMax f x y, .none))
  | .vfabs d a m t => some (d, a, a, m, t, fun _ f x _ _ => (fpAbs f x, .none))
  | .vfneg d a m t => some (d, a, a, m, t, fun _ f x _ _ => (fpNeg f x, .none))
  | .vfmadd d a b m t rm => some (d, a, b, m, t, fma false false rm)
  | .vfmsub d a b m t rm => some (d, a, b, m, t, fma false true rm)
  | .vfnmadd d a b m t rm => some (d, a, b, m, t, fma true true rm)
  | .vfnmsub d a b m t rm => some (d, a, b, m, t, fma true false rm)
  | .vexp d a m => some (d, a, a, m, .f32, sfu sfuExp)
  | .vlog d a m => some (d, a, a, m, .f32, sfu sfuLog)
  | .vrcp d a m => some (d, a, a, m, .f32, sfu sfuRcp)
  | .vrsqrt d a m => some (d, a, a, m, .f32, sfu sfuRsqrt)
  | .vtanh d a m => some (d, a, a, m, .f32, sfu sfuTanh)
  | .vsigm d a m => some (d, a, a, m, .f32, sfu sfuSigm)
  | .vgelu d a m => some (d, a, a, m, .f32, sfu sfuGelu)
  | _ => none

/-- The comparison of two elements, and whether it sets NV (spec/16 R259, spec/12 R180). -/
def ccSpec (cc : Cc) (et : Et) (x y : Nat) : Bool × Bool :=
  match et with
  | .int t =>
    let n := 8 * IntEt.bytes t
    let p : Bool :=
      match cc with
      | .eq => x == y
      | .ne => x != y
      | .lt => signedOf n x < signedOf n y
      | .le => signedOf n x ≤ signedOf n y
      | .gt => signedOf n y < signedOf n x
      | .ge => signedOf n y ≤ signedOf n x
      | .ltu => x < y
      | .leu => x ≤ y
      | .gtu => y < x
      | .geu => y ≤ x
    (p, false)
  | .fp t =>
    let o := cmpVal (fpDecode (fpEtFmt t) x) (fpDecode (fpEtFmt t) y)
    match cc with
    | .eq => (o == some .eq, false)
    | .ne => (o != some .eq, false)
    | .lt => (o == some .lt, o.isNone)
    | .le => (o == some .lt || o == some .eq, o.isNone)
    | .gt => (o == some .gt, o.isNone)
    | .ge => (o == some .gt || o == some .eq, o.isNone)
    | _ => (false, false)

/-- An integer reduction of the active elements l of n bits (spec/16 R261). -/
def redSpec (op : IntRed) (n : Nat) (l : List Nat) : Word :=
  match op with
  | .sum => intW (l.map (signedOf n)).sum
  | .min => intW ((l.map (signedOf n)).foldl min ((2 ^ (n - 1) : Nat) - 1))
  | .max => intW ((l.map (signedOf n)).foldl max (-(2 ^ (n - 1) : Nat)))
  | .minu => natW (l.foldl min (2 ^ n - 1))
  | .maxu => natW (l.foldl max 0)
  | .and => natW (l.foldl (· &&& ·) (2 ^ n - 1))
  | .or => natW (l.foldl (· ||| ·) 0)
  | .xor => natW (l.foldl (· ^^^ ·) 0)

/-- cvt of spec/16 R264 from format `sf` to format `tf`. -/
def cvtSpec (tf sf : Fmt) (rm : RMode) (sat : Bool) (x : Nat) : Nat × FpFlags :=
  match fmtKind sf, fmtKind tf with
  | .flt f, .flt g => toFmt (fpDecode f x) g rm sat
  | .flt f, .int n => (modN n (toInt (fpDecode f x) n rm).1, (toInt (fpDecode f x) n rm).2)
  | .int n, .flt g => toFmt (.fin (signedOf n x < 0) (signedOf n x).natAbs 0 false) g rm sat
  | .int n, .int k =>
    let i := signedOf n x
    (modN k (clampN k i), if clampN k i = i then .none else .nv)

/-- The mask operations of spec/16 R266 that write a mask: destination and value. -/
def maskSpec (i : Instr) (s : State) : Option (MReg × Word) :=
  let c := s.cc
  match i with
  | .mand d a b => some (d, c.mask a &&& c.mask b)
  | .mor d a b => some (d, c.mask a ||| c.mask b)
  | .mxor d a b => some (d, c.mask a ^^^ c.mask b)
  | .mandn d a b => some (d, c.mask a &&& ~~~(c.mask b))
  | .mnot d a => some (d, ~~~(c.mask a))
  | .mfromx d a => some (d, s.rx a)
  | _ => none

/-! ## Memory (spec/08 R114 to R124, spec/15 R228 to R235) -/

/-- Memory m' holds the n bytes of v at a, lowest first, and every other byte as m does. -/
def StoredAt (m m' : List Host.Cell) (a n v : Nat) : Prop :=
  (∀ i, i < n → memGet m' (a + i) = BitVec.ofNat 8 (v / 2 ^ (8 * i))) ∧
  ∀ x, x < a ∨ a + n ≤ x → memGet m' x = memGet m x

/-- Nothing of the executing core is on its way to its own buffers: no access of class .ord to its window, no local access, no buffered write
of a port. -/
def State.OwnQuiet (s : State) : Prop := s.ownPending s.cur s.nextId = [] ∧ ∀ n : Fin 4, s.cc.seq.ports[n].outq = []

/-- No request waits at the word of an address. -/
def State.Unwaited (s : State) (a : Nat) : Prop := ∀ r ∈ s.net, r.waitsAt s.own (a / 8) = false

/-- The local loads of spec/15 R228: destination, base, buffer, mode, offset, width in bytes, whether the value is
sign-extended. -/
def localLoadSpec (i : Instr) : Option (XReg × XReg × Buf × LoadFe × BitVec 9 × Nat × Bool) :=
  match i with
  | .llb d a b fe imm => some (d, a, b, fe, imm, 1, true)
  | .llbu d a b fe imm => some (d, a, b, fe, imm, 1, false)
  | .llh d a b fe imm => some (d, a, b, fe, imm, 2, true)
  | .llhu d a b fe imm => some (d, a, b, fe, imm, 2, false)
  | .llw d a b fe imm => some (d, a, b, fe, imm, 4, true)
  | .llwu d a b fe imm => some (d, a, b, fe, imm, 4, false)
  | .lld d a b fe imm => some (d, a, b, fe, imm, 8, false)
  | _ => none

/-- The local stores: data, base, buffer, mode, offset, width. -/
def localStoreSpec (i : Instr) : Option (XReg × XReg × Buf × StoreFe × BitVec 9 × Nat) :=
  match i with
  | .slb d a b fe imm => some (d, a, b, fe, imm, 1)
  | .slh d a b fe imm => some (d, a, b, fe, imm, 2)
  | .slw d a b fe imm => some (d, a, b, fe, imm, 4)
  | .sld d a b fe imm => some (d, a, b, fe, imm, 8)
  | _ => none

/-- The value of a load of n bytes: sign-extended or zero-extended. -/
def extended (sgn : Bool) (n v : Nat) : Word := if sgn then intW (signedOf (8 * n) (v % 2 ^ (8 * n))) else natW (v % 2 ^ (8 * n))

/-- A global access of spec/15 R233 to R235: kind, class, full-empty mode, address register, destination, and how a loaded
value is extended. -/
def globalSpec (i : Instr) (s : State) : Option (AccKind × RClass × FeMode × XReg × Option XReg × Ext) :=
  let mode (wf : Bool) : FeMode := if wf then .wf else .plain
  let at8 (op : AtomicOp) (d a b : XReg) (cls : RClass) (wf : Bool) : Option (AccKind × RClass × FeMode × XReg × Option XReg × Ext) :=
    some (.atomic op (s.rx b) (s.rx d), cls, mode wf, a, some d, .zero (if op = .fadd then 4 else 8))
  match i with
  | .ld d a cls fe op =>
    let w : Nat × Ext := match op with
      | .bu => (1, .zero 1)
      | .b => (1, .sign 1)
      | .hu => (2, .zero 2)
      | .h => (2, .sign 2)
      | .wu => (4, .zero 4)
      | .w => (4, .sign 4)
      | .d => (8, .zero 8)
    some (.load w.1, cls, (match fe with | .plain => .plain | .wf => .wf | .tk => .tk), a, some d, w.2)
  | .st a b cls fe op =>
    let n : Nat := match op with
      | .b => 1
      | .h => 2
      | .w => 4
      | .d => 8
    some (.store n (s.rx b), cls, (match fe with | .plain => .plain | .we => .we | .fl => .fl), a, none, .zero n)
  | .aadd d a b cls wf => at8 .add d a b cls wf
  | .amin d a b cls wf => at8 .min d a b cls wf
  | .amax d a b cls wf => at8 .max d a b cls wf
  | .aand d a b cls wf => at8 .and d a b cls wf
  | .aor d a b cls wf => at8 .or d a b cls wf
  | .axor d a b cls wf => at8 .xor d a b cls wf
  | .aswap d a b cls wf => at8 .swap d a b cls wf
  | .acas d a b cls wf => at8 .cas d a b cls wf
  | .afadd d a b cls wf => at8 .fadd d a b cls wf
  | _ => none

/-- The new content of an atomic's word of spec/15 R235 and spec/14 R206. -/
def atomicSpec (op : AtomicOp) (old operand compare : Nat) : Nat :=
  let z (x : Nat) : Int := signedOf 64 x
  match op with
  | .add => (old + operand) % 2 ^ 64
  | .min => if z operand < z old then operand else old
  | .max => if z old < z operand then operand else old
  | .and => old &&& operand
  | .or => old ||| operand
  | .xor => old ^^^ operand
  | .swap => operand
  | .cas => if old = compare then operand else old
  | .fadd => (fpAdd fp32 .rne false old (operand % 2 ^ 32)).1

/-! ## Scopes and fences (spec/10 R151, R152) -/

/-- A scope that R151 lets stand. -/
def scopeLegal (w : Word) : Prop :=
  bits w 32 31 = 0 ∧ bits w 24 8 ≤ 63 ∧ bits w 16 8 ≤ 63 ∧ bits w 0 8 ≤ bits w 16 8 ∧ bits w 8 8 ≤ bits w 24 8

/-- Core k lies in the rectangle of a scope. -/
def inRect (w : Word) (k : Nat) : Prop :=
  bits w 0 8 ≤ k % 64 ∧ k % 64 ≤ bits w 16 8 ∧ bits w 8 8 ≤ k / 64 % 64 ∧ k / 64 % 64 ≤ bits w 24 8

/-- The rectangle of a scope holds a core of die d: 16 columns, 32 rows. -/
def dieInRect (w : Word) (d : Nat) : Prop :=
  ∃ k, k < 4096 ∧ k % 64 / 16 = d % 4 ∧ k / 64 / 32 = d / 4 ∧ inRect w k

/-- The home of a device-physical address lies in a scope (R151). -/
def homeInside (w : Word) (h : Home) : Prop :=
  match h with
  | .core k => inRect w k
  | .stack d _ => dieInRect w d
  | .broker d => dieInRect w d
  | _ => bits w 0 32 = 0x3F3F0000

/-- The class and the place of a request lie in those of a FENCE with classes c and scope w (R152). -/
def State.placed (s : State) (c : BitVec 3) (w : Word) (r : Req) : Prop :=
  if r.loc then c ≠ 0 ∧ inRect w s.cur.val
  else (match r.cls with
      | .ord => c.getLsbD 0 = true
      | .adp => c.getLsbD 1 = true
      | .spr => c.getLsbD 2 = true) ∧
    (r.phase = .faulted ∨ ((devOf r.sys = s.own ∨ bit w 63 = true) ∧ homeInside w (homeOf (physOf r.sys))))

/-- Whether a FENCE with classes c, kinds kd and scope w covers a request of its core (R152): an access of its kinds, a row of an
MDRAIN, or an RQRY .fetch on its way, whose transfer writes to the members of the entry's home group. -/
def State.covers (s : State) (c : BitVec 3) (kd : BitVec 4) (w : Word) (r : Req) : Prop :=
  ((∃ h pc, r.src = .core s.cur h pc) ∨ ∃ pc d, r.src = .row s.cur pc d) ∧
  match r.op with
  | .acc acc =>
    ((∃ pc d, r.src = .row s.cur pc d) ∧ kd.getLsbD 3 = true ∨
     (∃ h pc, r.src = .core s.cur h pc) ∧
      match acc with
      | .load _ => kd.getLsbD 0 = true
      | .store _ _ => kd.getLsbD 1 = true
      | .atomic _ _ _ => kd.getLsbD 2 = true
      | .row _ => False) ∧ s.placed c w r
  | .query fn e =>
    fn = 1 ∧ r.phase = .sent ∧ kd.getLsbD 3 = true ∧ c.getLsbD 1 = true ∧
    ∃ j ∈ s.members s.cur (Fin.ofNat 256 (s.res e.val).hgrp.toNat), inRect w j.val
  | .tok _ => (∃ pc d, r.src = .row s.cur pc d) ∧ kd.getLsbD 3 = true ∧ s.placed c w r

/-- Nothing is on its way from the executing core to its buffers or through its engines. -/
def State.EnginesIdle (s : State) : Prop :=
  s.cc.seq.queue = [] ∧ s.cc.seq.loop = none ∧ (∀ n : Fin 4, s.cc.seq.ports[n].outq = []) ∧ s.cc.eng.copies = [] ∧ s.cc.mat.mq = [] ∧
  s.cc.hnd.row = none ∧ ∀ p ∈ s.posts, p.core ≠ s.cur

/-- The fence mark of the executing context. -/
def State.markedAt (s : State) (m : Option Nat) : State :=
  let c := s.cc
  { s with cores := put s.cores s.cur.val (if s.curH then { c with evt := { c.evt with fenceH := m } }
                                           else { c with evt := { c.evt with fenceAt := m } }) }

/-! ## Neighbours and stream ports (spec/07 R101, R102) -/

/-- The .ord paths from core a to core b and from core c to core d use one link: the link of a row out of router x, or of a
column out of router y (R148). -/
def sharedLink (a b c d : Nat) : Prop :=
  (∃ x, a / 64 = c / 64 ∧ ((a % 64 ≤ x ∧ x < b % 64 ∧ c % 64 ≤ x ∧ x < d % 64) ∨
    (b % 64 < x ∧ x ≤ a % 64 ∧ d % 64 < x ∧ x ≤ c % 64))) ∨
  (∃ y, b % 64 = d % 64 ∧ ((a / 64 ≤ y ∧ y < b / 64 ∧ c / 64 ≤ y ∧ y < d / 64) ∨
    (b / 64 < y ∧ y ≤ a / 64 ∧ d / 64 < y ∧ y ≤ c / 64)))

/-- The core one step on in the 64 × 64 mesh: N is y + 1, E is x + 1. -/
def meshNext (k : CoreIx) (d : Dir) : Option CoreIx :=
  let x : Int := (k.val % 64 : Nat)
  let y : Int := (k.val / 64 : Nat)
  let p : Int × Int := match d with
    | .n => (x, y + 1)
    | .e => (x + 1, y)
    | .s => (x, y - 1)
    | .w => (x - 1, y)
  if 0 ≤ p.1 ∧ p.1 < 64 ∧ 0 ≤ p.2 ∧ p.2 < 64 then some (Fin.ofNat 4096 (p.2 * 64 + p.1).toNat) else none

/-- The number of a direction's queue, and of the queue at the core that a direction leads to. -/
def dirNum : Dir → Fin 4
  | .n => 0
  | .e => 1
  | .s => 2
  | .w => 3
def farNum : Dir → Fin 4
  | .n => 2
  | .e => 3
  | .s => 0
  | .w => 1

/-- The offset that a port walks to, in its buffer of `size` bytes (spec/07 R101). -/
def portOffset (p : Port) (size : Nat) : Nat :=
  let st (i : Nat) : Int := signedOf 16 (bits p.str (16 * i) 16)
  ((bits p.cfg 32 14 * 64 + p.i0 * st 0 * 64 + p.i1 * st 1 * 64 + p.i2 * st 2 * 64) % (size : Int)).toNat

/-! ## Entries (spec/07 R99) -/

/-- What an instruction that passes into the sequencer captures at issue, and the register its scalar result goes to (spec/07 R99, spec/16
R249): none where it does not pass into the sequencer, holds or traps at issue. VSETL, which writes x[D] at issue, is stated apart. -/
def State.entrySpec (s : State) (i : Instr) : Option (Word × Word × Option FDst) :=
  let x (r : XReg) : Word := s.rx r
  let only (c : Bool) (a b : Word) (d : Option FDst) : Option (Word × Word × Option FDst) := if c then some (a, b, d) else none
  let even (r : XReg) (z : Esz) : Bool := (x r).toNat % Esz.bytes z == 0
  let reads (d : XReg) (m : MReg) : Option (Word × Word × Option FDst) := only (!s.cc.maskPending m) 0 0 (some (.x d))
  let holds (p : Nat) : Bool := s.holdsPart p s.cc.slot.ctx
  let sel (r : XReg) : Bool := bits (x r) 20 44 == 0 && bits (x r) 12 4 == 0 && holds (bits (x r) 16 4)
  let full (a : XReg) (imm : BitVec 9) (b : Buf) : Option (Word × Word × Option FDst) :=
    only (localOff (x a) 64 imm b % 64 == 0) (natW (localOff (x a) 64 imm b)) 0 none
  match i with
  | .vcmp _ _ _ _ _ _ | .vsel _ _ _ _ _ | .vperm _ _ _ _ _ | .vcvt _ _ _ _ _ => some (0, 0, none)
  | .mand _ _ _ | .mor _ _ _ | .mxor _ _ _ | .mandn _ _ _ | .mnot _ _ => some (0, 0, none)
  | .vbcastX _ a _ _ => some (x a, 0, none)
  | .vbcastF _ a _ _ => some ((s.rf a).setWidth 64, 0, none)
  | .vbcastV _ _ b _ _ => some (x b, 0, none)
  | .mfromx _ a => some (x a, 0, none)
  | .mtox d m | .mpopc d m => reads d m
  | .vred (.int d _ _) _ _ => some (0, 0, some (.x d))
  | .vred (.fp d _ _) _ _ => some (0, 0, some (.f d))
  | .vquant _ _ _ xs => some (0, 0, some (.x xs))
  | .vld _ a b _ imm | .vst _ a b _ imm => full a imm b
  | .vlds _ a b _ _ z | .vsts _ a b _ _ z => only (even a z && even b z) (x a) (x b) none
  | .vldx _ a _ _ _ z | .vstx _ a _ _ _ z => only (even a z) (x a) 0 none
  | .nqsend _ d | .nqrecv _ d => only (meshNext s.cur d).isSome 0 0 none
  | .wlpush _ a => only ((x a).toNat < 4096) (x a) 0 none
  | .wlpop d _ => some (0, 0, some (.x d))
  | .wldone g => only (s.cc.groupEntry g).isSome 0 0 none
  | .postrx d _ | .send d _ => some (0, 0, some (.x d))
  | .gatepost _ b => only (bits (x b) 28 36 == 0 && bits (x b) 21 3 == 0 && holds (bits (x b) 24 4)) (x b) 0 none
  | .mktrun a b => only (bits (x a) 4 28 == 0 && bits (x a) 49 15 == 0 && holds (bits (x a) 0 4)) (x a) (x b) none
  | .mktrd d a => only (sel a) (x a) 0 (some (.x d))
  | .mktwr a b => only (sel a) (x a) (x b) none
  | .cvplay _ b => only ((x b).toNat < 16) (x b) 0 none
  | _ => only ((vIntSpec i).isSome || (vSatSpec i).isSome || (vFpSpec i).isSome) 0 0 none

/-! ## Engine results (spec/17 R270, spec/09 R130) -/

/-- The inbox of a core takes a message at once. -/
def Core.Takes (c : Core) : Prop := c.slot.st ≠ .idle ∧ c.evt.held = [] ∧ c.evt.inbox.length < 256

/-- A core's own buffers hold the n bytes from the global address, by its window, and nothing keeps its engines from them: the
device-physical address. -/
def State.OwnWindow (s : State) (ga : Word) (n : Nat) : Prop :=
  bits ga 62 2 = 1 ∧ bits ga 32 30 = 0 ∧ bits ga 0 32 / 2 ^ 20 = s.cur.val ∧ bits ga 0 32 % 2 ^ 20 + n ≤ 2 ^ 20 ∧
  s.cc.slot.st ≠ .idle ∧ s.fab.tokens = [] ∧ s.bad = [] ∧ s.dev.torn = []

/-- The n bytes from a global address, by its window, lie in the A or the L buffer of one core that is bound in the context of core k, and
nothing keeps the Brokers from them or waits at them. -/
def State.BrokerWindow (s : State) (k : CoreIx) (ga : Word) (n : Nat) : Prop :=
  let o := bits ga 0 32 % 2 ^ 20
  let sl := (s.core (Fin.ofNat 4096 (bits ga 0 32 / 2 ^ 20))).slot
  bits ga 62 2 = 1 ∧ bits ga 32 30 = 0 ∧ ((0x80000 ≤ o ∧ o + n ≤ 0xC0000) ∨ (0xE0000 ≤ o ∧ o + n ≤ 0x100000)) ∧
  sl.st ≠ .idle ∧ sl.st ≠ .frozen ∧ sl.ctx = (s.core k).slot.ctx ∧ s.fab.tokens = [] ∧ s.bad = [] ∧ s.dev.torn = [] ∧
  ∀ r ∈ s.net, ∀ w, r.waitsAt s.own w = false

/-! ## The assignment of a Market step (spec/11 R162 to R164) -/

/-- What a step runs with: a capacity for every expert, and values and EPS that R159 and R160 keep finite. -/
def Step.Sound (m : Step) : Prop :=
  m.caps.length = m.nexp ∧ Fp32Finite m.eps ∧ 0 < fp32Rat m.eps ∧ ∀ t j, Fp32Finite (m.val t j)

/-- j is the lowest of the indices l whose value is largest. -/
def BestOf (f : Nat → Nat) (l : List Nat) (j : Nat) : Prop :=
  j ∈ l ∧ ∀ i ∈ l, fp32Rat (f i) < fp32Rat (f j) ∨ (fp32Rat (f i) = fp32Rat (f j) ∧ j ≤ i)

/-- Places that a step can stand at: a slot has one place, a token holds an expert once, and no expert has more holders than its
capacity. -/
def Step.Fair (m : Step) (l : List Place) : Prop :=
  l.Nodup ∧ (∀ p ∈ l, p.t < m.tokens ∧ p.s < m.k ∧ p.j ∈ m.cands ∧ Fp32Finite p.β) ∧
  (∀ p ∈ l, ∀ q ∈ l, p.t = q.t → p.s = q.s ∨ p.j = q.j → p = q) ∧ ∀ j ∈ m.cands, (holders l j).length ≤ m.cap j

/-- An alternating path from a token: every holder in it leaves its expert for the next one, the last of which has room. -/
def Step.AltPath (m : Step) (l : List Place) : Nat → List Place → Nat → Prop
  | t, [], last => last ∈ m.cands ∧ heldBy l t last = false ∧ (holders l last).length < m.cap last
  | t, p :: r, last => p ∈ l ∧ p.j ∈ m.cands ∧ heldBy l t p.j = false ∧ m.AltPath l p.t r last

/-- The executing context's result in flight with one value known. -/
def State.known (s : State) (d : XReg) (w : Word) : Flight :=
  { id := s.nextId, dst := .x d, vals := [w], more := false, aged := false, dead := false }

/-- The next handle of a core where the counter finds it free. -/
def Core.NextHandle (c : Core) (h : BitVec 16) : Prop := h = c.eng.handle + 1 ∧ h ≠ 0 ∧ h ∉ c.eng.handles

/-- Doubleword i of a vector register. -/
def dword (v : Vec) (i : Nat) : Word := natW (v.toNat / 2 ^ (64 * i) % 2 ^ 64)

/-- A message placed at core k between s and t, in an inbox that takes it at once (spec/00 R8, spec/09 R130). -/
def State.Told (s t : State) (k : CoreIx) (m : Msg) : Prop :=
  (s.core k).Takes → (t.core k).evt.inbox = (s.core k).evt.inbox ++ [m]

/-! ## Convoy images (spec/03 R39, R40) -/

/-- The counts of a graph header. -/
def imgOps (ws : List Word) : Nat := bits (ws.getD 0 0) 32 16
def imgPeers (ws : List Word) : Nat := bits (ws.getD 0 0) 24 8
def imgTrigs (ws : List Word) : Nat := bits (ws.getD 0 0) 16 8

/-- Word j of operation record i of an image, whose records follow the header, the peer list and the trigger entries. -/
def imgRec (ws : List Word) (i j : Nat) : Word := ws.getD (24 + 2 * imgTrigs ws + 4 * i + j) 0

/-- The header of an image breaks no rule. -/
def HeaderOk (ws : List Word) : Prop :=
  let h := ws.getD 0 0
  bits h 48 16 = 0 ∧ 1 ≤ imgOps ws ∧ imgOps ws ≤ 4096 ∧ 1 ≤ imgPeers ws ∧ imgPeers ws ≤ 64 ∧ imgTrigs ws ≤ 16 ∧
  bits h 8 8 + imgTrigs ws ≤ 256 ∧ bits h 0 8 = 1 ∧ ∀ j, 1 ≤ j → j < 8 → ws.getD j 0 = 0

/-- The peers in use are device IDs, and the trigger entries hold their zero bits and a kind of R45. -/
def ListsOk (ws : List Word) : Prop :=
  (∀ i, i < imgPeers ws → bits (ws.getD (8 + i / 4) 0) (16 * (i % 4)) 16 < 1024) ∧
  ∀ i, i < imgTrigs ws → bits (ws.getD (24 + 2 * i) 0) 60 4 ≤ 2 ∧ bits (ws.getD (24 + 2 * i) 0) 0 48 = 0 ∧ ws.getD (25 + 2 * i) 0 = 0

/-- Operation record i breaks no rule, on the device `own`. -/
def RecordOk (own : Nat) (ws : List Word) (i : Nat) : Prop :=
  let w0 := imgRec ws i 0
  let w1 := imgRec ws i 1
  let w2 := imgRec ws i 2
  let alu := bits w0 56 4
  let red : Prop := bits w0 60 4 = 3
  bits w0 60 4 ≤ 4 ∧ alu ≤ 9 ∧ (¬ red → alu = 0) ∧ bit w0 54 = false ∧ bits w0 0 10 = 0 ∧ bits w0 10 2 ≠ 3 ∧ bits w1 0 9 = 0 ∧
  imgRec ws i 3 = 0 ∧ (1 ≤ bits w0 10 2 → bits w0 24 12 < imgOps ws) ∧ (2 ≤ bits w0 10 2 → bits w0 12 12 < imgOps ws) ∧
  1 ≤ bits w1 45 13 ∧ bits w1 45 13 ≤ 4096 ∧ bits w2 32 32 % 64 = 0 ∧ bits w2 0 32 % 64 = 0 ∧
  (bit w0 55 = true → alu ≠ 0 ∧ alu ≠ 1 ∧ alu ≠ 6 ∧ alu ≠ 7) ∧ bits w1 39 6 < imgPeers ws ∧
  (red → 1 ≤ bits w1 34 5 ∧ bits w1 34 5 ≤ 16 ∧ bits w1 39 6 + bits w1 34 5 - 1 < imgPeers ws ∧
    (bits w1 9 4 < bits w1 34 5 →
      let p := bits w1 39 6 + bits w1 9 4
      bits (ws.getD (8 + p / 4) 0) (16 * (p % 4)) 16 = own))

end Sys2Proof.Machine
end

