-- ==== Sys2Proof/Certificates/Slice0/Obligations.lean ====
section
/-!
DEFINITION. The statements. Each names the rule of the spec it formalises; what rests on a choice of the model says so and
names the entry of the assumption log.
-/

open Sys2Proof Sys2Proof.Machine

/-- The state after reset meets the invariant of the next statement. That an unlisted byte reads 0 is log 12, a DESIGN
CHOICE. -/
def Obligations.ResetCanonical : Prop := State.reset.Canonical

/-- Every step of the device, whatever move the agenda names, keeps the canonical form: equal memories stay equal data. -/
def Obligations.StepKeepsCanonical : Prop := ∀ s t : State, s.Canonical → step s = .next t → t.Canonical

/-- Encoder and decoder agree on all 322 instructions, every operand at every value that is well formed. -/
def Obligations.DecodeEncode : Prop :=
  ∀ i : Instr, i.wf = true →
    match kindOf i with
    | .cWord => encodeWord i < 2 ^ 32 ∧ decodeC (encodeWord i) (litOf i) = .ok i
    | .aWord => encodeWord i < 2 ^ 32 ∧ decodeA (encodeWord i) = .ok i
    | .matrix => ∀ c, matOf i = some c → decodeMat (encodeMat c) = .ok c
    | .event => encode i = []

/-- Two words make a bundle: bit 31 says that the A word is a literal, bit 30 is the switch marker. -/
def Obligations.BundleDecodeEncode : Prop :=
  ∀ (c a : Instr) (marker : Bool), c.wf = true → a.wf = true → kindOf c = .cWord → kindOf a = .aWord →
    let cw : Half := BitVec.ofNat 32 (encodeWord c + if marker then 2 ^ 30 else 0)
    (litOf c = none → decodeBundle cw (BitVec.ofNat 32 (encodeWord a)) = .ok { c := c, a := a, marker := marker }) ∧
    (∀ l, litOf c = some l → decodeBundle cw l = .ok { c := c, a := .aSlotNop, marker := marker }) ∧
    (litOf c = none → ∀ l : Half, decodeBundle (cw + 0x80000000) l = .ok { c := c, a := .aSlotNop, marker := marker })

/-- MJ stands in bits 29:24 of a word; the operand fields follow as the formats of spec/14 place them. -/
def Obligations.WordsDecode : Prop :=
  decodeA (0x01 * 2 ^ 26 + 3 * 2 ^ 21 + 1 * 2 ^ 16 + 2 * 2 ^ 11 + 0x001) = .ok (.sub 3 1 2) ∧
  decodeA (0x02 * 2 ^ 26 + 5 * 2 ^ 21 + 6 * 2 ^ 16 + 0 * 2 ^ 12 + 0xFFF) = .ok (.addi 5 6 0xFFF) ∧
  decodeA (0x03 * 2 ^ 26 + 7 * 2 ^ 21 + 1 * 2 ^ 20 + 2 * 2 ^ 18 + 0xBEEF) = .ok (.hins 7 0xBEEF 2) ∧
  decodeA (0x04 * 2 ^ 26 + 8 * 2 ^ 21 + 9 * 2 ^ 16 + 12 * 2 ^ 10 + 15 * 2 ^ 4 + 1) = .ok (.bext 8 9 12 15) ∧
  decodeA (0x08 * 2 ^ 26 + 1 * 2 ^ 21 + 2 * 2 ^ 16 + 3 * 2 ^ 11 + 1 * 2 ^ 6 + 7 * 2 ^ 3) = .ok (.fsub 1 2 3 .dyn) ∧
  decodeA (0x10 * 2 ^ 26 + 4 * 2 ^ 21 + 5 * 2 ^ 16 + 6 * 2 ^ 11 + 2 * 2 ^ 8 + 2 * 2 ^ 5 + 13) = .ok (.vsra 4 5 6 2 .i32) ∧
  decodeA (0x1A * 2 ^ 26 + 1 * 2 ^ 21 + 2 * 2 ^ 16 + 3 * 2 ^ 11 + 3) = .ok (.mandn 1 2 3) ∧
  decodeA (0x1B * 2 ^ 26 + 4 * 2 ^ 21 + 5 * 2 ^ 16 + 2 * 2 ^ 13 + 1 * 2 ^ 12 + 3 * 2 ^ 9) = .ok (.vrcp 4 5 3) ∧
  decodeA (0x1C * 2 ^ 26 + 3 * 2 ^ 22 + 9 * 2 ^ 17) = .ok (.vloop 3 9) ∧
  decodeC (0x01 * 2 ^ 24 + 1 * 2 ^ 19 + 2) none = .ok (.jal 1 2) ∧
  decodeC (0x06 * 2 ^ 24 + 1 * 2 ^ 19 + 2 * 2 ^ 14 + 0x3FFF) none = .ok (.blt 1 2 0x3FFF) ∧
  decodeC (0x14 * 2 ^ 24 + 7 * 2 ^ 19 + 8 * 2 ^ 14 + 3 * 2 ^ 12 + 1 * 2 ^ 9 + 1) none = .ok (.llw 7 8 .l .wf 1) ∧
  decodeC (0x1D * 2 ^ 24 + 7 * 2 ^ 19 + 8 * 2 ^ 14 + 1 * 2 ^ 12 + 2 * 2 ^ 9 + 3) none = .ok (.vst 7 8 .a 2 3) ∧
  decodeC (0x24 * 2 ^ 24 + 4 * 2 ^ 19 + 5 * 2 ^ 14 + 6 * 2 ^ 9 + 1 * 2 ^ 7 + 0 * 2 ^ 4 + 7) none = .ok (.acas 4 5 6 .adp false) ∧
  decodeC (0x25 * 2 ^ 24 + 5 * 2 ^ 21 + 2 * 2 ^ 17 + 9 * 2 ^ 12) none = .ok (.fence 5 2 9) ∧
  decodeC (0x26 * 2 ^ 24 + 4 * 2 ^ 19 + 0x002) none = .ok (.recv 4) ∧
  decodeC (0x28 * 2 ^ 24 + 3 * 2 ^ 19 + 0x0C * 2 ^ 11) none = .ok (.setc 3 .fpctl) ∧
  decodeC (0x2E * 2 ^ 24 + 3 * 2 ^ 19 + 4 * 2 ^ 14 + 0 * 2 ^ 4) none = .ok (.wlpush 3 4) ∧
  decodeC (0x0A * 2 ^ 24 + 3 * 2 ^ 19 + 2 * 2 ^ 17) (some 0xCAFE) = .ok (.liH 3 0xCAFE) ∧
  decodeC (0x3A * 2 ^ 24) none = .error .major ∧
  decodeMat (0x04 + 1 * 2 ^ 9 + 0x55 * 2 ^ 16 + 128 * 2 ^ 64 + 16 * 2 ^ 104 + 64 * 2 ^ 148) =
    .ok (.mzero { gate := true, tag := 0x55, boff := 128, rows := 16, bstr := 64 })

/-- Fetch, decode, the C slot, the A slot with the scalar sources of the bundle, and the advance of the PC. The device works
its sequencer before the bundle issues (log 8), and passes the turn after it (log 3). -/
def Obligations.StepRunsBundle : Prop :=
  ∀ (s : State) (b : Bundle) (s1 s2 : State),
    let t := s.seqDrain s.cur
    let u := t.setCtx s.cur false
    let pc := (u.core s.cur).main.pc
    let words := u.fetchWords s.cur pc
    let u0 := u.setNpc (pc + 8)
    let src : SlotSrc := { x := Vector.ofFn fun i => u.cc.xView false i, f := u.cc.main.f }
    s.agenda = [] → s.turn = false → s.stopped = false →
    (t.core s.cur).handlerReady = false → (u.core s.cur).mayIssue = true → u.boundary s.cur = none →
    (u.core s.cur).main.marker = false → pc.toNat < u.codeLen s.cur →
    decodeBundle words.1 words.2 = .ok b →
    exec b.c { u0 with word := words.1 } = .next s1 → s1.bundle = .ok →
    exec b.a { s1 with word := words.2, slotSrc := some src } = .next s2 → s2.bundle = .ok →
    let done := (s2.commit u.nextId b.marker).chargeIssue b.a
    step s = .next { done with cur := done.nextCore done.cur, curH := false, turn := true }

/-- R94, on a C slot that writes a register that the A slot reads. -/
def Obligations.SlotsReadBeforeWrite : Prop :=
  ∀ (s : State) (d : XReg) (off : BitVec 19) (i : Instr) (marker : Bool) (cw aw : Half) (e : XReg) (w : Word),
    s.curH = false → s.bundle = .ok → s.slotSrc = none → kindOf i = .aWord → intResult i s = some (e, w) →
    ∃ t : State, runBundle s { c := .jal d off, a := i, marker := marker } cw aw = .next t ∧
      (e ≠ 0 → t.cc.main.x[e] = w) ∧
      (d ≠ 0 → d ≠ e → t.cc.main.x[d] = (s.cc.main.pc + 8).setWidth 64) ∧
      (∀ r : XReg, r ≠ d → r ≠ e → t.cc.main.x[r] = s.cc.main.x[r]) ∧
      t.cc.main.pc = s.cc.main.pc + (off.signExtend 64 * 8).setWidth 17 ∧ t.cc.main.marker = marker

/-- R94: a bundle that waits is a stall; R111: a trapping bundle has no effect in either slot. -/
def Obligations.HeldBundleHasNoEffect : Prop :=
  ∀ (s s1 s2 : State) (b : Bundle) (cw aw : Half),
    let s0 := s.setNpc (s.curPc + 8)
    let src : SlotSrc := { x := Vector.ofFn fun i => s.cc.xView s.curH i, f := s.cc.main.f }
    exec b.c { s0 with word := cw } = .next s1 →
    let counted (t : State) : State :=
      { t with
        cores := put t.cores t.cur.val { t.cc with evt := { t.cc.evt with holdSince := some (t.cc.evt.holdSince.getD t.now) } }
        dev := (t.charge t.cc.slot.ctx 1 (Config.cost t.free)).dev
        free := t.free + 1, bundle := .held, slotSrc := none }
    let waited : State := { s with engWaits := s2.engWaits, nextId := s2.nextId }
    (s1.bundle = .held → runBundle s b cw aw = .next (counted s1)) ∧
    (s1.bundle = .ok → exec b.a { s1 with word := aw, slotSrc := some src } = .next s2 →
      (s2.bundle = .held → (∀ n m, b.a ≠ .vloop n m) → runBundle s b cw aw = .next (counted waited)) ∧
      (s2.bundle = .held → ∀ n m, b.a = .vloop n m →
        runBundle s b cw aw = .next (counted { waited with cores := put s.cores s.cur.val s.cc.closeCapture })) ∧
      (s2.bundle = .trapped → runBundle s b cw aw = exec b.a { s0 with word := aw, slotSrc := some src })) ∧
    (s1.bundle = .trapped → runBundle s b cw aw = .next s1)

/-- R199. -/
def Obligations.LiteralWord : Prop :=
  ∀ cw aw : Half,
    (cw.getLsbD 31 = true →
      (∀ b, decodeBundle cw aw = .ok b → b.a = .aSlotNop) ∧
      (cw.toNat / 2 ^ 24 % 2 ^ 6 ≠ 0x0A → ∀ aw', decodeBundle cw aw' = decodeBundle cw aw) ∧
      (cw.toNat / 2 ^ 24 % 2 ^ 6 = 0x0A → ∀ b, decodeBundle cw aw = .ok b →
        (∃ d, b.c = .li d aw) ∨ (∃ d, b.c = .liU d aw) ∨ (∃ d, b.c = .liH d aw) ∨ ∃ d, b.c = .liF d aw)) ∧
    (cw.getLsbD 31 = false → cw.toNat / 2 ^ 24 % 2 ^ 6 = 0x0A → ∃ e, decodeBundle cw aw = .error (e, cw))

/-- R227 and R198; what a trap does is stated in TrapEntry and HandlerFault. -/
def Obligations.IllegalBundleTraps : Prop :=
  ∀ s : State,
    let words := s.fetchWords s.cur s.curPc
    (s.codeLen s.cur ≤ s.curPc.toNat → issueBundle s = .next (s.trap 2 0)) ∧
    (s.curPc.toNat < s.codeLen s.cur →
      (∀ e, decodeC words.1.toNat (if words.1.getLsbD 31 then some words.2 else none) = .error e →
        issueBundle s = .next ({ s with word := words.1 }.trap 2 (words.1.setWidth 64))) ∧
      (∀ c e, decodeC words.1.toNat none = .ok c → words.1.getLsbD 31 = false → decodeA words.2.toNat = .error e →
        let w := if c = .hret ∧ s.curH = false then words.1 else words.2
        issueBundle s = .next ({ s with word := w }.trap 2 (w.setWidth 64))))

/-- R112. What SRET does with a TRAP_PC that is no offset of a bundle is the model's choice; PreciseTrap states it. -/
def Obligations.TrapEntry : Prop :=
  (∀ (s : State) (k : CoreIx) (imp : Bool) (cause : BitVec 8) (pc : Pc) (val : Word),
    let c := s.core k
    let t := s.takeTrap k imp cause pc val
    let d := t.core k
    (bit c.ctl.coreStatus 5 = false → bit c.ctl.tvec 63 = true →
      bits d.ctl.trapCause 0 8 = cause.toNat ∧ bit d.ctl.trapCause 63 = imp ∧ bits d.ctl.trapCause 8 55 = 0 ∧
      d.ctl.trapPc = pc.setWidth 64 ∧ d.ctl.trapVal = val ∧
      bit d.ctl.coreStatus 4 = bit c.ctl.coreStatus 0 ∧ bit d.ctl.coreStatus 0 = true ∧
      bit d.ctl.coreStatus 3 = bit c.ctl.coreStatus 2 ∧ bit d.ctl.coreStatus 2 = false ∧ bit d.ctl.coreStatus 5 = true ∧
      (∀ i, i ∉ [0, 2, 3, 4, 5] → bit d.ctl.coreStatus i = bit c.ctl.coreStatus i) ∧
      d.main.pc.toNat = 8 * bits c.ctl.tvec 3 14 ∧
      d.main.x = c.main.x ∧ d.main.f = c.main.f ∧ d.main.v = c.main.v ∧ d.main.m = c.main.m ∧ d.hnd = c.hnd ∧
      d.mat = c.mat ∧ d.eng = c.eng ∧ d.seq = { c.seq with drain := false } ∧ d.exch = c.exch ∧ d.slot = c.slot ∧
      (∀ j, j ≠ k → t.core j = s.core j) ∧ t = { s with cores := t.cores }) ∧
    (bit c.ctl.coreStatus 5 = true ∨ bit c.ctl.tvec 63 = false →
      d = { c with slot := { c.slot with fatal := some (cause, val) } } ∧ t.sched.faults = s.sched.faults ++ [k] ∧
      ∀ j, j ≠ k → t.core j = s.core j)) ∧
  (∀ s : State, s.curH = false → bit s.cc.ctl.coreStatus 0 = true →
    ∃ t : State, exec .sret s = .next t ∧
      bit t.cc.ctl.coreStatus 0 = bit s.cc.ctl.coreStatus 4 ∧ bit t.cc.ctl.coreStatus 2 = bit s.cc.ctl.coreStatus 3 ∧
      bit t.cc.ctl.coreStatus 5 = false ∧
      (∀ i, i ∉ [0, 2, 5] → bit t.cc.ctl.coreStatus i = bit s.cc.ctl.coreStatus i) ∧
      (∀ pc : Pc, pc.toNat % 8 = 0 → s.cc.ctl.trapPc = pc.setWidth 64 → t.cc.main.npc = pc) ∧
      t.cc = { s.cc with main := { s.cc.main with npc := t.cc.main.npc },
                         ctl := { s.cc.ctl with coreStatus := t.cc.ctl.coreStatus } } ∧
      (∀ j, j ≠ s.cur → t.core j = s.core j) ∧ t = { s with cores := t.cores })

/-- R95, R104 and R111. That SRET takes bits 16:3 of TRAP_PC for the bundle is the model's choice (log 17). -/
def Obligations.PreciseTrap : Prop :=
  ∀ (s : State) (cause : BitVec 8) (val : Word),
    let entry (cause : BitVec 8) (val : Word) : State :=
      { (s.setCore s.cur (s.cc.landAll false)).takeTrap s.cur false cause s.cc.main.pc val with bundle := .trapped }
    (s.curH = false → s.cc.settled false = true → s.cc.seq.loop = none → s.cc.seq.drain = false ∨ s.cc.seq.queue = [] →
      s.trap cause val = entry cause val ∧ exec .svc s = .next (entry 3 (s.word.setWidth 64)) ∧
      (bit s.cc.ctl.coreStatus 0 = false → exec .sret s = .next (entry 3 (s.word.setWidth 64)))) ∧
    (s.curH = false → bit s.cc.ctl.coreStatus 0 = true →
      ∃ t : State, exec .sret s = .next t ∧ t.cc.main.npc.toNat = 8 * bits s.cc.ctl.trapPc 3 14) ∧
    (s.curH = false → s.cc.settled false = false ∨ s.cc.seq.loop ≠ none ∨ (s.cc.seq.drain = true ∧ s.cc.seq.queue ≠ []) →
      let t := s.trap cause val
      t.bundle = .held ∧ t.cc.main.x = s.cc.main.x ∧ t.cc.main.f = s.cc.main.f ∧ t.cc.main.v = s.cc.main.v ∧
      t.cc.main.m = s.cc.main.m ∧ t.cc.main.pc = s.cc.main.pc ∧ t.cc.ctl = s.cc.ctl ∧ t.mem = s.mem) ∧
    (s.curH = true →
      let t := s.trap cause val
      t.bundle = .trapped ∧ t.cc.hnd.row = none ∧ t.cc.hnd.faults = s.cc.hnd.faults ++ [(cause, s.cc.hnd.pc)] ∧
      t.cc.hnd.x = s.cc.hnd.x ∧ t.cc.hnd.v = s.cc.hnd.v ∧ t.cc.main = s.cc.main ∧ t.mem = s.mem ∧
      ∀ j, j ≠ s.cur → t.core j = s.core j)

/-- `intResult` writes the tables of R218 to R223 over integers and natural numbers; what the write of a register changes is
stated in ScalarWrites. In the handler context the destination is one of its own sixteen (spec/07 R104). -/
def Obligations.IntegerResults : Prop :=
  ∀ (i : Instr) (s : State) (d : XReg) (w : Word), i.wf = true → intResult i s = some (d, w) → (s.curH = true → d.val < 16) →
    exec i s = .next (s.wx d w) ∧ exec .cSlotNop s = .next s ∧ exec .aSlotNop s = .next s

/-- R220. -/
def Obligations.DivisionCorners : Prop :=
  ∀ (s : State) (d a b : XReg), (s.curH = true → d.val < 16) →
    (∀ i ∈ [Instr.div d a b, .divu d a b, .rem d a b, .remu d a b], ∃ w, exec i s = .next (s.wx d w)) ∧
    (s.rx b = 0 →
      exec (.div d a b) s = .next (s.wx d 0xFFFFFFFFFFFFFFFF) ∧ exec (.divu d a b) s = .next (s.wx d 0xFFFFFFFFFFFFFFFF) ∧
      exec (.rem d a b) s = .next (s.wx d (s.rx a)) ∧ exec (.remu d a b) s = .next (s.wx d (s.rx a))) ∧
    (s.rx a = 0x8000000000000000 → s.rx b = 0xFFFFFFFFFFFFFFFF →
      exec (.div d a b) s = .next (s.wx d 0x8000000000000000) ∧ exec (.rem d a b) s = .next (s.wx d 0))

/-- The frame of every instruction whose result is a fixed-latency scalar. That a later fixed-latency write supersedes what is
in flight is log 7. -/
def Obligations.ScalarWrites : Prop :=
  ∀ s : State,
    (∀ (d : XReg) (w : Word), (s.curH = true → d.val < 16) →
      OnlyX s (s.wx d w) d ∧ (s.wx d w).cc.xView s.curH d = (if d = 0 then 0 else w) ∧ (d = 0 → s.wx d w = s)) ∧
    (s.curH = false → ∀ (d : FReg) (w : Half), OnlyF s (s.wf d w) d .none ∧ (s.wf d w).cc.main.f[d] = w)

/-- R104; TRAP_VAL[7:0] of these faults is a free value (log 25). That VSETL, which writes VLEN, is a handler fault is read from R104 by
inference (log 90). A jump has noted its target in the handler's next PC, which the stopped handler does not use. -/
def Obligations.HandlerMayNot : Prop :=
  ∀ s : State, s.curH = true →
    (∀ (g slot : Fin 256) (d a : XReg) (r : CReg) (map : BitVec 16),
      ∀ i ∈ [Instr.sync g, .xsend d a slot, .xexpect a, .xend g, .waitm, .wfi, .safept map, .svc, .sret, .halt, .setc a r],
        exec i s = .next s.forbidden) ∧
    (∀ (i : Instr) (d : XReg) (w : Word), intResult i s = some (d, w) → 16 ≤ d.val → exec i s = .next s.forbidden) ∧
    (∀ (i : Instr) (d : XReg) (w : Word) (fl : Option FpFlags), floatToX i s = some (d, w, fl) → 16 ≤ d.val →
      exec i s = .next s.forbidden) ∧
    (∀ (i : Instr) (d : FReg) (r : Nat) (fl : Option FpFlags), floatResult i s = some (d, r, fl) → exec i s = .next s.forbidden) ∧
    (∀ (i : Instr) (d : FReg) (r : Nat) (fl : FpFlags), sfuResult i s = some (d, r, fl) → exec i s = .next s.forbidden) ∧
    (∀ (i : Instr) (v : VReg), kindOf i = .aWord ∨ (∃ d, i = .wlpop d v) → vDest i = some v → 8 ≤ v.val →
      exec i s = .next s.forbidden) ∧
    (∀ (i : Instr) (m : MReg), mDest i = some m → exec i s = .next s.forbidden) ∧
    (∀ (d : XReg) (a : VReg) (m : MReg) (op : IntRed) (et : IntEt) (tf : Fmt), 16 ≤ d.val →
      ∀ i ∈ [Instr.vred (.int d op et) a m, .vquant 0 a tf d], exec i s = .next s.forbidden) ∧
    (∀ (d : FReg) (a : VReg) (m : MReg) (op : FpRed) (et : FpEt), exec (.vred (.fp d op et) a m) s = .next s.forbidden) ∧
    (∀ (d a : XReg), exec (.vsetl d a) s = .next s.forbidden) ∧
    (∀ (d a b : XReg) (off : BitVec 19) (imm : BitVec 14), 16 ≤ d.val →
      (∃ pc, exec (.jal d off) s = .next (s.setNpc pc).forbidden) ∧
      (((s.rx a).toNat + 8 * imm.toInt) % 8 = 0 → ∃ pc, exec (.jalr d a imm) s = .next (s.setNpc pc).forbidden) ∧
      (∀ r : CReg, exec (.getc d r) s = .next s.forbidden) ∧
      (∀ (g : Fin 256) (mode : PartMode),
        (s.cc.groupEntry g ≠ none → exec (.gid d g) s = .next s.forbidden) ∧ exec (.part d a g mode) s = .next s.forbidden) ∧
      (∀ (buf : Buf) (fe : LoadFe) (im : BitVec 9),
        ∀ i ∈ [Instr.llb d a buf fe im, .llbu d a buf fe im, .llh d a buf fe im, .llhu d a buf fe im, .llw d a buf fe im,
            .llwu d a buf fe im, .lld d a buf fe im], exec i s = .next s.forbidden) ∧
      (∀ (cls : RClass) (fe : LoadFe) (op : LdWidth) (wf : Bool),
        ∀ i ∈ [Instr.ld d a cls fe op, .aadd d a b cls wf, .amin d a b cls wf, .amax d a b cls wf, .aand d a b cls wf,
            .aor d a b cls wf, .axor d a b cls wf, .aswap d a b cls wf, .acas d a b cls wf, .afadd d a b cls wf,
            .tokacq d a, .tokrel d a], exec i s = .next s.forbidden) ∧
      (d.val % 2 = 0 → exec (.recv d) s = .next s.forbidden ∧ exec (.peekm d) s = .next s.forbidden)) ∧
    (∀ (v w : VReg) (a b : XReg) (buf : Buf) (m : MReg) (im : BitVec 9) (esz : Esz) (dir : Dir), 8 ≤ v.val →
      (((s.rx a).toNat + 64 * im.toInt) % 64 = 0 → exec (.vld v a buf m im) s = .next s.forbidden) ∧
      ((s.rx a).toNat % Esz.bytes esz = 0 →
        ((s.rx b).toNat % Esz.bytes esz = 0 → exec (.vlds v a b buf m esz) s = .next s.forbidden) ∧
        exec (.vldx v a w buf m esz) s = .next s.forbidden) ∧
      (meshNext s.cur dir ≠ none → exec (.nqrecv v dir) s = .next s.forbidden)) ∧
    (let t := s.forbidden
     t.bundle = .trapped ∧ t.cc.hnd.row = none ∧ (∃ cause, t.cc.hnd.faults = s.cc.hnd.faults ++ [(cause, s.cc.hnd.pc)]) ∧
     t.cc.hnd.x = s.cc.hnd.x ∧ t.cc.hnd.v = s.cc.hnd.v ∧ t.cc.main = s.cc.main ∧ t.cc.ctl = s.cc.ctl ∧ t.mem = s.mem ∧
     ∀ j, j ≠ s.cur → t.core j = s.core j)

/-- `floatResult` and `floatToX` are the tables of R253 to R255; the arithmetic is stated in ExactOperations, RoundsToNeighbour,
Conversions. -/
def Obligations.FloatResults : Prop :=
  ∀ (i : Instr) (s : State),
    (∀ (d : FReg) (r : Nat) (fl : Option FpFlags), floatResult i s = some (d, r, fl) → s.curH = false →
      exec i s = .next ((s.flagged fl).wf d (BitVec.ofNat 32 r))) ∧
    (∀ (d : XReg) (w : Word) (fl : Option FpFlags), floatToX i s = some (d, w, fl) → (s.curH = true → d.val < 16) →
      exec i s = .next ((s.flagged fl).wx d w)) ∧
    (∀ fl : FpFlags, (s.orFp fl).cc.ctl.fpctl = s.cc.ctl.fpctl ||| fl.setWidth 64 ∧
      (s.orFp fl).cc = { s.cc with ctl := { s.cc.ctl with fpctl := s.cc.ctl.fpctl ||| fl.setWidth 64 } } ∧
      ∀ j, j ≠ s.cur → (s.orFp fl).core j = s.core j) ∧
    ∀ (f : FpFmt) (rm : RMode) (sat np nc : Bool) (a b c : Nat),
      let x := fpDecode f a
      let y := fpDecode f b
      let z := fpDecode f c
      let nv (bad : Bool) : FpFlags := if bad then .nv else .none
      let flip (on : Bool) (v : Val) : Val := if on then v.neg else v
      let rounded (v : Val) (extra : FpFlags) : Nat × FpFlags := ((toFmt v f rm sat).1, (toFmt v f rm sat).2 ||| extra)
      fpAdd f rm sat a b = rounded (addVal rm x y).1 (nv (addVal rm x y).2) ∧
      fpSub f rm sat a b = rounded (addVal rm x y.neg).1 (nv (addVal rm x y.neg).2) ∧
      fpMul f rm sat a b = rounded (mulVal x y).1 (nv (mulVal x y).2) ∧
      fpDiv f rm sat a b = rounded (divVal x y).1 (divVal x y).2 ∧
      fpSqrt f rm sat a = rounded (sqrtVal x).1 (sqrtVal x).2 ∧
      (let p := flip np (mulVal x y).1
       let q := addVal rm p (flip nc z)
       fpFma f rm sat np nc a b c = rounded q.1 (nv ((mulVal x y).2 || q.2))) ∧
      (x = .nan ∨ y = .nan → (addVal rm x y) = (.nan, false) ∧ (mulVal x y) = (.nan, false) ∧ divVal x y = (.nan, .none)) ∧
      (∀ s t : Bool, addVal rm (.inf s) (.inf t) = (if s = t then (.inf s, false) else (.nan, true)) ∧
        mulVal (.inf s) (.inf t) = (.inf (s != t), false) ∧ divVal (.inf s) (.inf t) = (.nan, .nv) ∧
        ∀ (n : Nat) (e : Int) (k : Bool),
          addVal rm (.inf s) (.fin t n e k) = (.inf s, false) ∧ addVal rm (.fin t n e k) (.inf s) = (.inf s, false) ∧
          mulVal (.inf s) (.fin t n e k) = (if n = 0 then (.nan, true) else (.inf (s != t), false)) ∧
          divVal (.inf s) (.fin t n e k) = (.inf (s != t), .none) ∧ divVal (.fin s n e k) (.inf t) = (.fin (s != t) 0 0 false, .none))

/-- R267 and R181. Which of the values within the bound of R181 the device gives is free; the codes from which the bounds are measured are
the model's computation of the exact functions (log 13), which nothing here compares with the real functions. -/
def Obligations.SfuScalarResults : Prop :=
  (∀ (i : Instr) (s : State) (d : FReg) (r : Nat) (fl : FpFlags),
    sfuResult i s = some (d, r, fl) → s.curH = false → s.cc.main.flights.length < 32 →
    ∃ t : State, exec i s = .next t ∧ t.cc.main.f = s.cc.main.f ∧ t.cc.main.x = s.cc.main.x ∧
      t.cc.main.flights = s.cc.main.flights ++
        [{ id := s.nextId, dst := .f d, vals := [natW r], more := false, aged := false, dead := false }] ∧
      t.cc.ctl = { s.cc.ctl with fpctl := s.cc.ctl.fpctl ||| fl.setWidth 64 } ∧ t.mem = s.mem ∧
      ∀ j, j ≠ s.cur → t.core j = s.core j) ∧
  ∀ x : Half,
    let n := x.toNat
    let all : List (Half → Nat × FpFlags) := [sfuExp, sfuLog, sfuRcp, sfuRsqrt, sfuTanh, sfuSigm, sfuGelu]
    (0x7F800000 < n % 2 ^ 31 → ∀ f ∈ all, f x = (0x7FC00000, .none)) ∧
    (∀ f ∈ all, (f x).2 ∈ [FpFlags.none, .of, .dz, .nv]) ∧
    (sfuExp 0x7F800000 = (0x7F800000, .none) ∧ sfuExp 0xFF800000 = (0, .none) ∧
      (0x42B17218 ≤ n → n < 0x7F800000 → sfuExp x = (0x7F800000, .of))) ∧
    (sfuLog 0 = (0xFF800000, .dz) ∧ sfuLog 0x80000000 = (0xFF800000, .dz) ∧ sfuLog 0x7F800000 = (0x7F800000, .none) ∧
      (0x80000000 < n → n ≤ 0xFF800000 → sfuLog x = (0x7FC00000, .nv))) ∧
    (sfuRcp 0 = (0x7F800000, .dz) ∧ sfuRcp 0x80000000 = (0xFF800000, .dz) ∧ sfuRcp 0x7F800000 = (0, .none) ∧
      sfuRcp 0xFF800000 = (0x80000000, .none) ∧
      (0 < n % 2 ^ 31 → n % 2 ^ 31 ≤ 0x00200000 → sfuRcp x = (if 2 ^ 31 ≤ n then 0xFF800000 else 0x7F800000, .of))) ∧
    (sfuRsqrt 0 = (0x7F800000, .dz) ∧ sfuRsqrt 0x80000000 = (0xFF800000, .dz) ∧
      (0x80000000 < n → n ≤ 0xFF800000 → sfuRsqrt x = (0x7FC00000, .nv))) ∧
    (sfuTanh 0x7F800000 = (0x3F800000, .none) ∧ sfuTanh 0xFF800000 = (0xBF800000, .none)) ∧
    (sfuSigm 0x7F800000 = (0x3F800000, .none) ∧ sfuSigm 0xFF800000 = (0, .none)) ∧
    (sfuGelu 0x7F800000 = (0x7F800000, .none) ∧ sfuGelu 0xFF800000 = (0x80000000, .none)) ∧
    ∀ (s : Bool) (m : Nat) (e : Int) (k : Bool), fpDecode fp32 n = .fin s m e k →
      (s = true ∨ n < 0x42B17218 → UlpsFrom (sfuExp x).1 (expCode s m e) 2) ∧
      (m ≠ 0 → s = false → BoundFrom (sfuLog x).1 (logCode m e) 2 (0x3F000000 ≤ n ∧ n ≤ 0x40000000) 22) ∧
      (m ≠ 0 → rcpCode s m e % 2 ^ 31 ≠ 0x7F800000 → UlpsFrom (sfuRcp x).1 (rcpCode s m e) 1) ∧
      (m ≠ 0 → s = false → UlpsFrom (sfuRsqrt x).1 (rsqrtCode m e) 1) ∧
      BoundFrom (sfuTanh x).1 (tanhCode x s m e) 2 (n % 2 ^ 31 < 0x39800000) 24 ∧
      UlpsFrom (sfuSigm x).1 (sigmCode s m e) 2 ∧
      BoundFrom (sfuGelu x).1 (geluCode x s m e) 4 (n % 2 ^ 31 < 0x3F800000) 22

/-- R180: a result is rounded once, from the exact value. -/
def Obligations.ExactOperations : Prop :=
  ∀ (rm : RMode) (s t : Bool) (m n : Nat) (e g : Int),
    let a := Val.fin s m e false
    let b := Val.fin t n g false
    let q (neg : Bool) (mag : Nat) (exp : Int) : ℚ := (if neg then -1 else 1) * mag * (2 : ℚ) ^ exp
    (addVal rm a b).1.rat = some (q s m e + q t n g) ∧ (addVal rm a b).2 = false ∧
    (mulVal a b).1.rat = some (q s m e * q t n g) ∧ (mulVal a b).2 = false ∧
    (n ≠ 0 → ∃ h k sticky, divVal a b = (.fin (s != t) h k sticky, .none) ∧
      (h : ℚ) * 2 ^ k ≤ q false m e / q false n g ∧ q false m e / q false n g < ((h : ℚ) + 1) * 2 ^ k ∧
      (sticky = false ↔ (h : ℚ) * 2 ^ k = q false m e / q false n g) ∧ (m ≠ 0 → 2 ^ 63 ≤ h)) ∧
    (n = 0 → m ≠ 0 → divVal a b = (.inf (s != t), .dz)) ∧ (n = 0 → m = 0 → divVal a b = (.nan, .nv)) ∧
    (m ≠ 0 → s = false → ∃ h k sticky, sqrtVal a = (.fin false h k sticky, .none) ∧
      ((h : ℚ) * 2 ^ k) ^ 2 ≤ q false m e ∧ q false m e < (((h : ℚ) + 1) * 2 ^ k) ^ 2 ∧
      (sticky = false ↔ ((h : ℚ) * 2 ^ k) ^ 2 = q false m e) ∧ 2 ^ 63 ≤ h) ∧
    (m ≠ 0 → s = true → sqrtVal a = (.nan, .nv))

/-- The conversion to_fmt of R176 on the binary formats of R170, the rounding modes of R175. -/
def Obligations.RoundsToNeighbour : Prop :=
  ∀ (f : FpFmt) (rm : RMode) (sat neg : Bool) (mag : Nat) (exp : Int), f ∈ [fp32, bf16, fp16] → mag ≠ 0 →
    let r := toFmt (.fin neg mag exp false) f rm sat
    let c := r.1 % 2 ^ f.sign.getD 0
    let x : ℚ := mag * (2 : ℚ) ^ exp
    r.2.getLsbD 2 = false →
      r.1 / 2 ^ f.sign.getD 0 = (if neg then 1 else 0) ∧ c ≤ f.maxCode ∧
      (r.2.getLsbD 0 = false ↔ codeRat f c = x) ∧
      x < codeRat f (c + 1) ∧ (c ≠ 0 → codeRat f (c - 1) < x) ∧
      (rm = .rtz → codeRat f c ≤ x) ∧
      (rm = .rdn → if neg then x ≤ codeRat f c else codeRat f c ≤ x) ∧
      (rm = .rup → if neg then codeRat f c ≤ x else x ≤ codeRat f c) ∧
      (rm = .rne → 2 * x ≤ codeRat f c + codeRat f (c + 1) ∧ (c ≠ 0 → codeRat f (c - 1) + codeRat f c ≤ 2 * x) ∧
        (2 * x = codeRat f c + codeRat f (c + 1) → c % 2 = 0) ∧
        (c ≠ 0 → codeRat f (c - 1) + codeRat f c = 2 * x → c % 2 = 0))

/-- R170 to R173, R176, R177. Decoding a code and converting it back: 256 codes of each b8 format, 16 of mxf4, all of FP32, BF16 and
FP16. -/
def Obligations.Conversions : Prop :=
  (∀ (t : Fmt) (f : FpFmt) (rm : RMode) (sat : Bool) (code : Nat),
    fmtKind t = .flt f → code < (if t = .mxf4 then 16 else 2 ^ (8 * t.bytes)) →
    (∀ neg mag exp sticky, fpDecode f code = .fin neg mag exp sticky → toFmt (fpDecode f code) f rm sat = (code, .none)) ∧
    (fpDecode f code = .nan → toFmt (fpDecode f code) f rm sat = (f.nanCode, .none))) ∧
  (∀ (v : Val) (n : Nat) (rm : RMode), n ∈ [8, 32, 64] →
    let hi : Int := 2 ^ (n - 1) - 1
    let lo : Int := -(2 ^ (n - 1))
    let r := toInt v n rm
    (lo ≤ r.1 ∧ r.1 ≤ hi) ∧
    (v = .nan → r = (0, .nv)) ∧ (∀ neg, v = .inf neg → r = (if neg then lo else hi, .nv)) ∧
    (∀ neg mag exp, v = .fin neg mag exp false → rm = .rtz →
      let x : ℚ := mag * (2 : ℚ) ^ exp
      let i : Int := if neg then -⌊x⌋ else ⌊x⌋
      r.1 = max lo (min hi i) ∧ (r.2.getLsbD 3 = true ↔ i < lo ∨ hi < i) ∧ (r.2.getLsbD 0 = false ↔ (⌊x⌋ : ℚ) = x)))

/-- R224 to R226. `branchSpec` states each condition over numbers; the link of a jump is a fixed-latency result, and x[A] is read
before it is written. -/
def Obligations.BranchesAndJumps : Prop :=
  (∀ (i : Instr) (s : State) (taken : Prop) (off : BitVec 14), branchSpec i s = some (taken, off) →
    (∀ m, maskRead i = some m → s.cc.maskPending m = true → exec i s = .next { s with bundle := .held }) ∧
    ((∀ m, maskRead i = some m → s.cc.maskPending m = false) →
      (taken → exec i s = .next (s.setNpc (bundleAt s.curPc off.toInt))) ∧ (¬taken → exec i s = .next s) ∧
      ∀ (marker : Bool) (cw aw : Half), s.bundle = .ok →
        ∃ t : State, runBundle s { c := i, a := .aSlotNop, marker := marker } cw aw = .next t ∧ t.mem = s.mem ∧
          (taken → (t.curPc.toNat : Int) = (s.curPc.toNat + 8 * off.toInt) % 131072) ∧
          (¬taken → t.curPc.toNat = (s.curPc.toNat + 8) % 131072))) ∧
  (∀ (s : State) (d a : XReg) (off : BitVec 19) (imm : BitVec 14), (s.curH = true → d.val < 16) →
    let link : Word := natW ((s.curPc.toNat + 8) % 131072)
    let t := ((s.rx a).toNat + 8 * imm.toInt) % 131072
    exec (.jal d off) s = .next ((s.setNpc (bundleAt s.curPc off.toInt)).wx d link) ∧
    (t % 8 = 0 → exec (.jalr d a imm) s = .next ((s.setNpc (BitVec.ofInt 17 t)).wx d link)) ∧
    (t % 8 ≠ 0 → exec (.jalr d a imm) s = .next (s.trap 1 (intW t))))

/-- A RECV counts as two results (log 46). -/
def Obligations.InboxReads : Prop :=
  ∀ (s : State) (d : XReg), d.val % 2 = 0 → (s.curH = true → d.val < 16) → (s.cc.flights s.curH).length + 2 ≤ 32 →
    let hdr : Word := match s.cc.evt.inbox with
      | [] => 0
      | m :: _ => natW (m.kind.toNat + 2 ^ 8 * m.status.toNat + 2 ^ 16 * m.source.toNat + 2 ^ 32 * m.xid.toNat)
    let pay : Word := match s.cc.evt.inbox with
      | [] => 0
      | m :: _ => m.payload
    let two : List Flight :=
      [{ id := s.nextId, dst := .x d, vals := [hdr], more := false, aged := false, dead := false },
       { id := s.nextId + 1, dst := .x (d + 1), vals := [pay], more := false, aged := false, dead := false }]
    (∃ t : State, exec (.peekm d) s = .next t ∧ t.cc.flights s.curH = s.cc.flights s.curH ++ two ∧ t.cc.evt = s.cc.evt ∧
      t.cc.main.x = s.cc.main.x ∧ t.cc.hnd.x = s.cc.hnd.x ∧ t.mem = s.mem ∧ ∀ k, k ≠ s.cur → t.core k = s.core k) ∧
    (∃ t : State, exec (.recv d) s = .next t ∧ t.cc.flights s.curH = s.cc.flights s.curH ++ two ∧
      (s.cc.evt.held = [] → t.cc.evt = { s.cc.evt with inbox := s.cc.evt.inbox.tail }) ∧
      t.cc.main.x = s.cc.main.x ∧ t.cc.hnd.x = s.cc.hnd.x ∧ t.mem = s.mem ∧ ∀ k, k ≠ s.cur → t.core k = s.core k)

/-- R95 and the rules of the four instructions, in the main context. That a core whose bundle has parked takes no event before the bundle
ends is log 52; that a request stays pending at a core that halts while it is stopping is log 115. -/
def Obligations.MarkersAndWaits : Prop :=
  ∀ (s : State) (map : BitVec 16), s.curH = false →
    let u := s.mod (·.landAll false)
    let stops := s.cc.slot.preq ≠ none ∧ s.cc.exch.group = none ∧ map.toNat < s.nsafe s.cur
    let r := if stops then s.mod (·.beginDrain) else s
    (s.cc.settled false = false → ∀ i ∈ [Instr.waitm, .wfi, .halt], exec i s = .next { s with bundle := .held }) ∧
    (r.cc.settled false = false → exec (.safept map) s = .next { r with bundle := .held }) ∧
    (s.cc.settled false = true →
      u.cc.main.flights = [] ∧
      exec .waitm s = .next (if s.cc.evt.inbox = [] then { u with bundle := .held } else u) ∧
      (let quiet := u.cc.evt.respTraps = [] ∧ u.cc.hnd.faults = [] ∧ u.cc.evt.peer = [] ∧ u.cc.evt.qto = none ∧ u.cc.evt.wdogHit = false
       let parked := u.mod fun c => { c with evt := { c.evt with parkedAt := some c.main.pc } }
       exec .wfi s = .next (if u.intPend u.cc &&& u.cc.ctl.intEn = 0 ∧ quiet then { parked with bundle := .held } else u) ∧
       parked.boundary s.cur = none) ∧
      (s.cc.slot.preq = none → exec (.safept map) s = .next u) ∧
      (s.cc.slot.preq ≠ none → s.cc.exch.group = none → map.toNat < s.nsafe s.cur → s.cc.seq.loop = none → s.cc.seq.queue = [] →
        s.cc.mat.mq = [] → s.cc.hnd.row = none →
        exec (.safept map) s = .next (u.mod fun c => { c with slot := { c.slot with stop := .safe map } })) ∧
      (stops → r.cc.settled false = true → s.cc.mat.mq ≠ [] ∨ s.cc.hnd.row ≠ none →
        ∃ t : State, exec (.safept map) s = .next t ∧ t.bundle = .held ∧ t.boundary s.cur = none ∧ t.cc.slot = s.cc.slot ∧
          t.cc.main.pc = s.cc.main.pc ∧ t.cc.mat = s.cc.mat ∧ t.cc.hnd.row = s.cc.hnd.row ∧ t.cc.hnd.x = s.cc.hnd.x ∧ t.cc.hnd.v = s.cc.hnd.v ∧
          t.cc.ctl = s.cc.ctl ∧ t.mem = s.mem) ∧
      (s.cc.seq.loop = none → s.cc.seq.queue = [] → s.cc.mat.mq = [] → s.cc.hnd.row = none →
        (∀ n : Fin 4, s.cc.seq.ports[n].outq = []) →
        (∀ q ∈ s.net, ∀ k h pc d, q.src = .core k h pc ∨ q.src = .row k pc d → k ≠ s.cur) →
        ∃ t : State, exec .halt s = .next t ∧ t.cc.slot.st = .halted ∧
          t.cc.slot.preq = (if s.cc.slot.st = .stopping then s.cc.slot.preq else none) ∧ t.cc.main = u.cc.main ∧ t.cc.ctl = s.cc.ctl ∧
          t.mem = s.mem ∧
          ∀ l ∈ t.sched.launches, l.lid = s.cc.slot.lid → l.st ≠ .ended → s.cc.slot.lrank = 0 →
            l.exitVal = some ((u.cc.main.x[10]).setWidth 32)))

/-- What the registers read as that hold what was written is stated in ControlRegisterWrites; here what the computed ones read as. -/
def Obligations.ControlRegisterReads : Prop :=
  ∀ (s : State) (d : XReg) (r : CReg), r ≠ .cpLaunch → (s.curH = true → d.val < 16) →
    (sRead r = true → s.privNow = false → exec (.getc d r) s = .next (s.trap 3 (s.word.setWidth 64))) ∧
    ((sRead r = true → s.privNow = true) → (r = .fpctl ∨ r = .vlen → s.cc.seq.queue = [] ∧ s.cc.seq.loop = none) →
      (r ∉ [.intPend, .xphStat, .mqStat, .fduty] → (∀ n, r ≠ .relayCnt n) → exec (.getc d r) s = .next (s.wx d (s.readCtl s.cc r))) ∧
      (r ∈ [.intPend, .xphStat, .mqStat, .fduty] ∨ (∃ n, r = .relayCnt n) → (s.cc.flights s.curH).length < 32 →
        exec (.getc d r) s = .next (s.flyX d (s.readCtl s.cc r)))) ∧
    (sRead r = true ↔ r ∈ [.trapCause, .trapPc, .trapVal, .trapScratch]) ∧
    (let v (r : CReg) : Word := s.readCtl s.cc r
     let x := s.cc.exch
     let mq := s.cc.mat.mq
     v .time + s.cc.ctl.timeOff = natW s.now ∧
     (bit (v .intPend) 0 = true ↔ s.cc.slot.preq ≠ none) ∧
     (bit (v .intPend) 1 = true ↔ ∃ m ∈ s.cc.evt.inbox, m.kind ≠ 0x10) ∧
     (bit (v .intPend) 2 = true ↔ s.cc.ctl.timerCmp.toNat ≤ (v .time).toNat) ∧
     (bit (v .intPend) 3 = true ↔ s.cc.evt.errQ ≠ [] ∨ ∃ n : Fin 8, bit s.cc.eng.relayTerm[n] 43 = true) ∧
     bits (v .intPend) 4 60 = 0 ∧
     (bits (v .xphStat) 0 32 = x.remain.toNat ∧ bit (v .xphStat) 32 = x.xcol ∧ bit (v .xphStat) 33 = x.ovr ∧
       bits (v .xphStat) 34 14 = 0 ∧ bits (v .xphStat) 48 16 = x.ncol.toNat) ∧
     (mq.length ≤ 8 →
       bits (v .mqStat) 0 4 = mq.length ∧ bits (v .mqStat) 4 4 = (mq.filter isGated).length ∧
       bits (v .mqStat) 8 8 = s.cc.mat.banked.toNat ∧ (bit (v .mqStat) 16 = true ↔ ∃ e ∈ mq, e.started = true) ∧
       bits (v .mqStat) 17 47 = 0) ∧
     (bits (v .coreid) 0 12 = s.cur.val ∧ bits (v .coreid) 12 12 = s.cc.slot.lrank.toNat ∧ bits (v .coreid) 24 8 = 0 ∧
       bits (v .coreid) 32 10 = s.fab.devid.val ∧ bits (v .coreid) 42 22 = 0) ∧
     (bit (v .coreStatus) 7 = true ↔ s.cc.slot.preq ≠ none) ∧ (bit (v .coreStatus) 6 = true ↔ s.cc.exch.group ≠ none) ∧
     ∀ i, i < 64 → i ≠ 6 → i ≠ 7 → bit (v .coreStatus) i = bit s.cc.ctl.coreStatus i)

/-- The fields are those of R93, R101, R102, R105, R110, R113, R132, R144, R175 and R212. Other registers follow the one written only where
they are computed from it: INT_PEND from TIMER_CMP and from the Relay's registers, EN of STRM_CFG from STRM_STR and STRM_CNT. -/
def Obligations.ControlRegisterWrites : Prop :=
  ∀ (s : State) (a : XReg) (r : CReg), s.curH = false →
    (sWrite r = true → s.privNow = false → exec (.setc a r) s = .next (s.trap 3 (s.word.setWidth 64))) ∧
    ((sWrite r = true → s.privNow = true) → s.cc.seq.queue = [] → s.cc.seq.loop = none →
      ∃ t : State, exec (.setc a r) s = .next t ∧ t = { s with cores := t.cores } ∧ (∀ k, k ≠ s.cur → t.core k = s.core k) ∧
        t.cc.main = s.cc.main ∧ t.cc.hnd = s.cc.hnd ∧ t.cc.slot = s.cc.slot ∧
        (r ∈ [.intPend, .time, .mqStat, .coreid, .fduty, .cpLaunch] ∨ (∃ n, r = .gmem n) ∨ (∃ n, r = .gscope n) → t.cc = s.cc) ∧
        (∀ mask : Word, (r, mask) ∈ [(CReg.coreStatus, 0x3C), (.trapCause, 0x80000000000000FF), (.trapPc, 0xFFFFFFFFFFFFFFFF),
            (.trapVal, 0xFFFFFFFFFFFFFFFF), (.trapScratch, 0xFFFFFFFFFFFFFFFF), (.tvec, 0x800000000001FFF8), (.intEn, 0xF),
            (.timerCmp, 0xFFFFFFFFFFFFFFFF), (.qtimeout, 0xFFFFFFFF), (.wdog, 0xFFFFFFFF), (.vlen, 0x7F),
            (.mqAddr, 0x800000000001FFC0), (.cpSrc, 0xFFFFFFFFFFFFFFFF), (.cpDst, 0xFFFFFFFFFFFFFFFF), (.cpClass, 3),
            (.cpIdx, 0xFFFFFFFFFFFFFFFF), (.cpFlags, 0xE000000000FFFFFF), (.arrayShape, 0xF)] ∨
          (∃ n, r = .cpStride n ∧ mask = 0xFFFFFFFFFFFFFFFF) ∨ (∃ n, r = .cpCount n ∧ mask = 0xFFFFFFFF) ∨
          (∃ n, r = .strmCfg n ∧ mask = 0xF0003FFF00000000) ∨ (∃ n, r = .strmStr n ∧ mask = 0xFFFFFFFFFFFF) ∨
          (∃ n, r = .strmCnt n ∧ mask = 0xFFFFFFFFFFFF) →
          ∀ i, i < 64 → (r ≠ .coreStatus ∨ i ∉ [6, 7]) →
            bit (t.readCtl t.cc r) i = if bit mask i then bit (s.rx a) i else bit (s.readCtl s.cc r) i) ∧
        (r = .fpctl → ∀ i, i < 64 → bit t.cc.ctl.fpctl i =
          if i < 6 then bit s.cc.ctl.fpctl i && !bit (s.rx a) i else if i ∈ [8, 9, 10] then bit (s.rx a) i
          else bit s.cc.ctl.fpctl i) ∧
        (r = .xphStat → t.cc = { s.cc with exch := { s.cc.exch with
          ovr := s.cc.exch.ovr && !bit (s.rx a) 33, xcol := s.cc.exch.xcol && !bit (s.rx a) 32 } }) ∧
        (∀ n : Fin 4, r = .strmStr n ∨ r = .strmCnt n →
          ∀ i, i < 64 → bit t.cc.seq.ports[n].cfg i = if i = 63 then false else bit s.cc.seq.ports[n].cfg i) ∧
        (∀ n : Fin 4, r = .strmCfg n → bit (s.rx a) 63 = true →
          t.cc.seq.ports[n].i0 = 0 ∧ t.cc.seq.ports[n].i1 = 0 ∧ t.cc.seq.ports[n].i2 = 0) ∧
        (∀ n : Fin 8, r = .relayCnt n → ∃ v : Word,
          (∀ i, i < 64 → bit v i = if bit (0xFFFFF000FFFFFFFF : Word) i then bit (s.rx a) i else bit s.cc.eng.relayCnt[n] i) ∧
          t.cc = Core.relayFire { s.cc with eng := { s.cc.eng with relayCnt := s.cc.eng.relayCnt.set n v } }) ∧
        (∀ n : Fin 8, r = .relayTerm n → ∃ v : Word,
          (∀ i, i < 64 → bit v i = if i = 43 then bit s.cc.eng.relayTerm[n] 43 && !bit (s.rx a) 43
            else if bit (0xFFFFF0000000FFFF : Word) i then bit (s.rx a) i else bit s.cc.eng.relayTerm[n] i) ∧
          t.cc = Core.relayFire { s.cc with eng := { s.cc.eng with relayTerm := s.cc.eng.relayTerm.set n v } }) ∧
        ((∀ n, r ≠ .relayCnt n) → (∀ n, r ≠ .relayTerm n) →
          ∀ q : CReg, q ≠ r → (r = .timerCmp → q ≠ .intPend) → (∀ n, r = .strmStr n ∨ r = .strmCnt n → q ≠ .strmCfg n) →
            t.readCtl t.cc q = s.readCtl s.cc q))

/-- `vIntSpec` and `vSatSpec` are the tables of R256 over integers. The sequencer executes an entry at once when it is idle
(log 8). -/
def Obligations.VectorInteger : Prop :=
  ∀ (i : Instr) (s : State) (d a b : VReg) (m : MReg) (et : IntEt), s.SeqIdle → (s.curH = true → d.val < 8) →
    let e := IntEt.bytes et
    let x (j : Nat) : Nat := elem (s.cc.vView s.curH a) e j
    let y (j : Nat) : Nat := elem (s.cc.vView s.curH b) e j
    let old (j : Nat) : Nat := elem (s.cc.vView s.curH d) e j
    (∀ g, vIntSpec i = some (d, a, b, m, et, g) →
      ∃ w : Vec, exec i s = .next (s.ranTo (s.cc.setV s.curH d w)) ∧
        ∀ j, j < 64 / e → elem w e j = if s.cc.active m e j then modN (8 * e) (g (8 * e) (x j) (y j)) else old j) ∧
    (∀ g, vSatSpec i = some (d, a, b, m, et, g) →
      let r (j : Nat) : Int := g (signedOf (8 * e) (x j)) (signedOf (8 * e) (y j))
      ∃ (w : Vec) (fl : FpFlags), exec i s = .next (s.ranTo ((s.cc.setV s.curH d w).orFp fl)) ∧
        (∀ j, j < 64 / e → elem w e j = if s.cc.active m e j then modN (8 * e) (clampN (8 * e) (r j)) else old j) ∧
        (fl = .sat ∨ fl = .none) ∧
        (fl = .sat ↔ ∃ j, j < 64 / e ∧ s.cc.active m e j = true ∧ clampN (8 * e) (r j) ≠ r j))

/-- `vFpSpec` are the tables of R257, R258 and R267. -/
def Obligations.VectorFloat : Prop :=
  ∀ (i : Instr) (s : State) (d a b : VReg) (m : MReg) (et : FpEt) (g : Word → FpFmt → Nat → Nat → Nat → Nat × FpFlags),
    vFpSpec i = some (d, a, b, m, et, g) → s.SeqIdle → (s.curH = true → d.val < 8) →
    let e := FpEt.bytes et
    let r (j : Nat) : Nat × FpFlags :=
      g s.cc.ctl.fpctl (fpEtFmt et) (elem (s.cc.vView s.curH a) e j) (elem (s.cc.vView s.curH b) e j)
        (elem (s.cc.vView s.curH d) e j)
    ∃ (w : Vec) (fl : FpFlags), exec i s = .next (s.ranTo ((s.cc.setV s.curH d w).orFp fl)) ∧
      (∀ j, j < 64 / e → elem w e j =
        if s.cc.active m e j then (r j).1 % 2 ^ (8 * e) else elem (s.cc.vView s.curH d) e j) ∧
      ∀ k, fl.getLsbD k = true ↔ ∃ j, j < 64 / e ∧ s.cc.active m e j = true ∧ (r j).2.getLsbD k = true

/-- `ccSpec` and `maskSpec` state the comparisons and the operations. -/
def Obligations.VectorMasks : Prop :=
  ∀ s : State,
    (s.curH = true → ∀ (d : MReg) (a b : VReg) (m : MReg) (cc : Cc) (et : Et), exec (.vcmp d a b m cc et) s = .next s.forbidden) ∧
    (∀ i d w, maskSpec i s = some (d, w) → s.curH = true → exec i s = .next s.forbidden) ∧
    (s.curH = false → s.SeqIdle →
      (∀ i d w, maskSpec i s = some (d, w) → exec i s = .next (s.ranTo (s.cc.setMask d w))) ∧
      (∀ (d : MReg) (a b : VReg) (m : MReg) (cc : Cc) (et : Et), cc.forEt et = true →
        let e := Et.bytes et
        let r (j : Nat) : Bool × Bool := ccSpec cc et (elem s.cc.main.v[a] e j) (elem s.cc.main.v[b] e j)
        ∃ (w : Word) (fl : FpFlags), exec (.vcmp d a b m cc et) s = .next (s.ranTo ((s.cc.setMask d w).orFp fl)) ∧
          (∀ l, l < 64 → w.getLsbD l = if s.cc.active m e (l / e) then (r (l / e)).1 else (s.cc.mask d).getLsbD l) ∧
          (fl = .nv ∨ fl = .none) ∧ (fl = .nv ↔ ∃ j, j < 64 / e ∧ s.cc.active m e j = true ∧ (r j).2 = true)) ∧
      ∀ w : Word, s.cc.setMask 0 w = s.cc)

/-- R260, R262 and R263. -/
def Obligations.VectorMoves : Prop :=
  ∀ (s : State) (d a b : VReg) (m : MReg), s.SeqIdle → (s.curH = true → d.val < 8) →
    let v (r : VReg) : Vec := s.cc.vView s.curH r
    let lanes (e : Nat) (w : Vec) (g : Nat → Nat) : Prop :=
      ∀ j, j < 64 / e → elem w e j = if s.cc.active m e j then g j % 2 ^ (8 * e) else elem (v d) e j
    (∀ et : Et, let e := Et.bytes et
      (∃ w : Vec, exec (.vsel d a b m et) s = .next (s.ranTo (s.cc.setV s.curH d w)) ∧
        ∀ j, j < 64 / e → elem w e j =
          if j * e < s.cc.vl then (if s.cc.active m e j then elem (v a) e j else elem (v b) e j) else elem (v d) e j) ∧
      (∃ w : Vec, exec (.vperm d a b m et) s = .next (s.ranTo (s.cc.setV s.curH d w)) ∧
        lanes e w fun j => elem (v a) e (elem (v b) e j % (64 / e))) ∧
      (∀ x : XReg, ∃ w : Vec, exec (.vbcastX d x m et) s = .next (s.ranTo (s.cc.setV s.curH d w)) ∧
        lanes e w fun _ => (s.rx x).toNat) ∧
      (∀ x : XReg, ∃ w : Vec, exec (.vbcastV d a x m et) s = .next (s.ranTo (s.cc.setV s.curH d w)) ∧
        lanes e w fun _ => elem (v a) e ((s.rx x).toNat % (64 / e)))) ∧
    (∀ (x : FReg) (et : FpEt), let e := FpEt.bytes et
      let r : Nat × FpFlags := match et with
        | .f32 => ((s.rf x).toNat, .none)
        | _ => toFmt (fpDecode fp32 (s.rf x).toNat) (fpEtFmt et) (fpctlRm s.cc.ctl.fpctl) (fpctlSatm s.cc.ctl.fpctl)
      ∃ (w : Vec) (fl : FpFlags), exec (.vbcastF d x m et) s = .next (s.ranTo ((s.cc.setV s.curH d w).orFp fl)) ∧
        (lanes e w fun _ => r.1) ∧
        fl = if ∃ j, j < 64 / e ∧ s.cc.active m e j = true then r.2 else .none)

/-- `cvtSpec` is cvt of R264; the scale is block_scale of R174. -/
def Obligations.VectorConvert : Prop :=
  ∀ (s : State) (d a : VReg), s.SeqIdle → (s.curH = true → d.val < 8) →
    let rm := fpctlRm s.cc.ctl.fpctl
    let sat := fpctlSatm s.cc.ctl.fpctl
    let v (r : VReg) : Vec := s.cc.vView s.curH r
    (∀ (tf sf : Fmt) (p : Fin 4), (Instr.vcvt d a tf sf p).wf = true →
      let et := tf.bytes
      let es := sf.bytes
      let r (x : Nat) : Nat × FpFlags := cvtSpec tf sf rm sat x
      ∃ (w : Vec) (fl : FpFlags), exec (.vcvt d a tf sf p) s = .next (s.ranTo ((s.cc.setV s.curH d w).orFp fl)) ∧
        (es < et → (∀ j, j < 64 / et → elem w et j = (r (elem (v a) es (p.val * (64 / et) + j))).1) ∧
          ∀ k, fl.getLsbD k = true ↔ ∃ j, j < 64 / et ∧ (r (elem (v a) es (p.val * (64 / et) + j))).2.getLsbD k = true) ∧
        (et ≤ es → (∀ j, j < 64 / et → elem w et j =
            if p.val * (64 / es) ≤ j ∧ j < p.val * (64 / es) + 64 / es then (r (elem (v a) es (j - p.val * (64 / es)))).1
            else elem (v d) et j) ∧
          ∀ k, fl.getLsbD k = true ↔ ∃ j, j < 64 / es ∧ (r (elem (v a) es j)).2.getLsbD k = true)) ∧
    (∀ (tf : Fmt) (xs : XReg), (Instr.vquant d a tf xs).wf = true → (s.curH = true → xs.val < 16) →
      (s.cc.flights s.curH).length < 32 → s.FreshIds →
      let x (k : Nat) : Nat := if k < 16 then elem (v a) 4 k else elem (v (a + 1)) 4 (k - 16)
      let satq : Bool := if tf = .mxf4 ∨ tf = .int8 then true else sat
      let amax : Val := if ∃ k, k < 32 ∧ fpDecode fp32 (x k) = .nan then .nan
        else fpDecode fp32 ((List.range 32).foldl (fun acc k => max acc (x k % 2 ^ 31)) 0)
      let sc : Nat := blockScale amax tf satq
      let q (k : Nat) : Nat × FpFlags :=
        let y : Val := if sc = 0xFF then .fin false 0 0 false else scaleVal (fpDecode fp32 (x k)) (127 - sc)
        match fmtKind tf with
        | .int n => (modN n (toInt y n rm).1, (toInt y n rm).2)
        | .flt f => toFmt y f rm satq
      ∃ (w : Vec) (fl : FpFlags), exec (.vquant d a tf xs) s = .next (s.owes ((s.cc.setV s.curH d w).orFp fl) (.x xs) (natW sc)) ∧
        (∀ k, k < 64 → elem w 1 k =
          if tf = .mxf4 then (if k < 16 then (q (2 * k)).1 % 16 + 16 * ((q (2 * k + 1)).1 % 16) else elem (v d) 1 k)
          else if k < 32 then (q k).1 else elem (v d) 1 k) ∧
        ∀ n, fl.getLsbD n = true ↔ ∃ k, k < 32 ∧ (q k).2.getLsbD n = true)

/-- `redSpec` is the table of R261 for integers. -/
def Obligations.VectorToScalar : Prop :=
  ∀ s : State, (s.cc.flights s.curH).length < 32 →
    (∀ (d : XReg) (m : MReg), (s.curH = true → d.val < 16) →
      (s.cc.maskPending m = true → ∀ i ∈ [Instr.mtox d m, .mpopc d m], exec i s = .next { s with bundle := .held }) ∧
      (s.SeqIdle → s.FreshIds →
        exec (.mtox d m) s = .next (s.owes s.cc (.x d) (s.cc.mask m)) ∧
        exec (.mpopc d m) s = .next (s.owes s.cc (.x d) (natW ((List.range 64).filter (s.cc.mask m).getLsbD).length)))) ∧
    (s.SeqIdle → s.FreshIds → ∀ (a : VReg) (m : MReg),
      let elems (e : Nat) : List Nat := ((List.range (64 / e)).filter (s.cc.active m e)).map (elem (s.cc.vView s.curH a) e)
      (∀ (d : XReg) (op : IntRed) (et : IntEt), (s.curH = true → d.val < 16) →
        exec (.vred (.int d op et) a m) s =
          .next (s.owes s.cc (.x d) (redSpec op (8 * IntEt.bytes et) (elems (IntEt.bytes et))))) ∧
      (s.curH = false → ∀ (d : FReg) (op : FpRed) (et : FpEt),
        let l := (elems (FpEt.bytes et)).map fun x => (toFmt (fpDecode (fpEtFmt et) x) fp32 .rne false).1
        let add (p : Nat × FpFlags) (x : Nat) : Nat × FpFlags :=
          let r := fpAdd fp32 (fpctlRm s.cc.ctl.fpctl) (fpctlSatm s.cc.ctl.fpctl) p.1 x
          (r.1, p.2 ||| r.2)
        let r : Nat × FpFlags := match op, l with
          | .fsum, [] => (0, .none)
          | .fsum, x :: xs => xs.foldl add (x, .none)
          | .fmin, [] => (0x7F800000, .none)
          | .fmin, x :: xs => (xs.foldl (fpMin fp32) x, .none)
          | .fmax, [] => (0xFF800000, .none)
          | .fmax, x :: xs => (xs.foldl (fpMax fp32) x, .none)
          | .fmaxabs, l => (if ∃ x ∈ l, fpDecode fp32 x = .nan then 0x7FC00000 else l.foldl (fun acc x => max acc (x % 2 ^ 31)) 0, .none)
        exec (.vred (.fp d op et) a m) s = .next (s.owes (s.cc.orFp r.2) (.f d) (natW r.1))))

/-- R268. That VSETL in the handler context is a handler fault is read from R104 by inference (log 90). -/
def Obligations.VectorLength : Prop :=
  ∀ (s : State) (d a : XReg), 
    (s.curH = true → exec (.vsetl d a) s = .next s.forbidden) ∧
    (s.curH = false → s.SeqIdle →
      let l : Nat := min (s.rx a).toNat 64
      let u := s.wx d (natW l)
      exec (.vsetl d a) s = .next (u.ranTo { u.cc with ctl := { u.cc.ctl with vlen := setBits u.cc.ctl.vlen 0 7 l } }) ∧
      (∀ c : Core, ({ c with ctl := { c.ctl with vlen := setBits c.ctl.vlen 0 7 l } } : Core).vl = l))

/-- R269 and R100. `Core.vInt` is the effect that VectorInteger states, on two elements of w bits. -/
def Obligations.VectorLoop : Prop :=
  (∀ (s : State) (n : Fin 16) (a : XReg),
    (s.cc.seq.loop ≠ none → exec (.vloop n a) s = .next { s with bundle := .held }) ∧
    (s.cc.seq.loop = none →
      let count := min (s.rx a).toNat 65535
      let l : Loop := { stamp := s.nextId, want := n.val, count := count, body := [], pos := 0, left := count }
      ∃ t : State, exec (.vloop n a) s = .next t ∧
        t.cc = { s.cc with seq := { s.cc.seq with loop := some l } } ∧
        (∀ k, k ≠ s.cur → t.core k = s.core k) ∧ t.mem = s.mem ∧
        (n.val = 1 → s.SeqIdle → s.curH = false →
          ∀ (i : Instr) (d x y : VReg) (m : MReg) (et : IntEt) (g : Nat → Nat → Nat → Int), vIntSpec i = some (d, x, y, m, et, g) →
          ∃ u, exec i t = .next u ∧
            u.cc.main.v = ((fun c : Core => c.vInt false d x y m et fun w p q => modN w (g w p q))^[count] s.cc).main.v ∧
            u.cc.seq.loop = none ∧ u.cc.seq.queue = [] ∧ u.cc.main.x = s.cc.main.x ∧ u.cc.main.m = s.cc.main.m ∧
            u.mem = s.mem))) ∧
  ∀ (s : State) (k : CoreIx) (l : Loop) (e : SeqEntry) (d x y : VReg) (m : MReg) (et : IntEt) (g : Nat → Nat → Nat → Int),
    let c := s.core k
    c.seq.loop = some l → l.want = 0 → 0 < l.left → l.body[l.pos]? = some e → (∀ q ∈ c.seq.queue, l.stamp ≤ q.stamp) →
    vIntSpec e.ins = some (d, x, y, m, et, g) → (∀ n : Fin 4, c.seq.ports[n].en = false) → (∀ r ∈ s.net, r.loc = false) →
    ∃ u : State, s.seqStep k = .ok u ∧ u.mem = s.mem ∧
      (let ran := c.vInt e.handler d x y m et fun w p q => modN w (g w p q)
       (u.core k).main.v = ran.main.v ∧ (u.core k).hnd.v = ran.hnd.v) ∧
      (u.core k).seq.queue = c.seq.queue ∧ (u.core k).main.x = c.main.x ∧ (u.core k).main.m = c.main.m ∧
      (u.core k).seq.loop =
        if l.pos + 1 < l.body.length then some { l with pos := l.pos + 1 }
        else if l.left = 1 then none else some { l with pos := 0, left := l.left - 1 }

/-- R99, where the agenda says when entries execute (`seqHold`, log 8). `State.entrySpec` lists what each instruction captures and the
conditions of its issue. -/
def Obligations.SequencerQueue : Prop :=
  ∀ (s : State) (i : Instr) (a b : Word) (dst : Option FDst), s.curH = false → s.entrySpec i = some (a, b, dst) →
    let q := s.cc.seq
    let e : SeqEntry := { ins := i, a := a, b := b, flight := dst.map fun _ => s.nextId, handler := false, pc := s.cc.main.pc,
                          stamp := if dst = none then s.nextId else s.nextId + 1 }
    let owed : List Flight := match dst with
      | some d => [{ id := s.nextId, dst := d, vals := [], more := true, aged := false, dead := false }]
      | none => []
    let joins (q' : SeqState) : Prop :=
      ∃ t : State, exec i s = .next t ∧ t.cc.seq = q' ∧
        t.cc = { s.cc with seq := q', main := { s.cc.main with flights := s.cc.main.flights ++ owed },
                           eng := { s.cc.eng with votes := t.cc.eng.votes } } ∧
        t.cc.eng.votes = (if ∃ v r, i = .wlpush v r then [] else s.cc.eng.votes) ∧
        (∀ k, k ≠ s.cur → t.core k = s.core k) ∧ t.mem = s.mem ∧ t.net = s.net
    (q.loop = none → 16 ≤ q.queue.length → exec i s = .next { s with bundle := .held }) ∧
    (s.bundle = .ok → s.seqHold = true → (∀ r ∈ s.net, r.loc = false) → (dst ≠ none → s.cc.main.flights.length < 32) →
      (q.loop = none → q.queue.length < 16 → joins { q with queue := q.queue ++ [e] }) ∧
      (∀ l, q.loop = some l → 1 < l.want → q.queue.length + l.body.length < 16 →
        joins { q with loop := some { l with body := l.body ++ [e], want := l.want - 1 } }))

/-- R228 and R229, R89 (the access corrects what it meets). A local access acts at issue (log 45). -/
def Obligations.LocalLoads : Prop :=
  ∀ (i : Instr) (s : State) (d a : XReg) (b : Buf) (fe : LoadFe) (imm : BitVec 9) (n : Nat) (sg : Bool),
    localLoadSpec i = some (d, a, b, fe, imm, n, sg) → (s.curH = true → d.val < 16) →
    let o : Nat := (((s.rx a).toNat + n * imm.toInt) % b.size).toNat
    let p : Nat := s.cur.val * 2 ^ 20 + winOff b + o
    let regs (t : State) : Prop :=
      t.cc.main.x = s.cc.main.x ∧ t.cc.main.f = s.cc.main.f ∧ t.cc.main.v = s.cc.main.v ∧ t.cc.main.m = s.cc.main.m ∧
      t.cc.hnd.x = s.cc.hnd.x ∧ t.cc.hnd.v = s.cc.hnd.v ∧ t.cc.ctl = s.cc.ctl ∧ t.mem = s.mem ∧
      ∀ k, k ≠ s.cur → t.core k = s.core k
    (o % n ≠ 0 → exec i s = .next (s.trap 1 (natW (2 ^ 62 + p)))) ∧
    (o % n = 0 → (s.cc.flights s.curH).length < 32 → s.OwnQuiet → s.behindSeq = false →
      (s.token (p / 2 ^ 21)).checked = false → s.Unwaited p →
      (fe = .plain ∨ s.full p = true → s.badAt p n = false →
        ∃ t : State, exec i s = .next t ∧ regs t ∧
          t.cc.flights s.curH = s.cc.flights s.curH ++
            [{ id := s.nextId, dst := .x d, vals := [extended sg n (readLE s.mem p n)], more := false, aged := false, dead := false }] ∧
          t.bad = s.bad ∧ (∀ u, u ∈ t.weak ↔ u ∈ s.weak ∧ ¬ (u < p + n ∧ p < u + eccLen u)) ∧
          ∀ x, t.full x = if fe = .tk ∧ x / 8 = p / 8 then false else s.full x) ∧
      (s.badAt p n = true →
        ∃ t : State, exec i s = .next t ∧ regs t ∧
          t.cc.flights s.curH = s.cc.flights s.curH ++
            [{ id := s.nextId, dst := .x d, vals := [], more := true, aged := false, dead := false }] ∧
          (∃ r ∈ t.net, r.phase = .answered 4 ∧ r.flight = some s.nextId ∧ r.src = .core s.cur s.curH s.curPc ∧ physOf r.sys = p) ∧
          ∀ x, t.full x = s.full x) ∧
      (fe ≠ .plain → s.full p = false → s.badAt p n = false → s.waitingAt (homeOf p) < 512 →
        ∃ t : State, exec i s = .next t ∧ regs t ∧
          t.cc.flights s.curH = s.cc.flights s.curH ++
            [{ id := s.nextId, dst := .x d, vals := [], more := true, aged := false, dead := false }] ∧
          (∃ r ∈ t.net, r.phase = .waiting (s.now + max 1 s.fab.feTimeout.toNat * 1800) ∧ r.flight = some s.nextId ∧ r.src = .core s.cur s.curH s.curPc ∧ physOf r.sys = p ∧
            r.op = .acc (.load n)) ∧
          ∀ x, t.full x = s.full x))

/-- R228: the address stored to is computed from the operands. That the store is performed at its issue is log 45, DEDUCED. -/
def Obligations.LocalStores : Prop :=
  ∀ (i : Instr) (s : State) (d a : XReg) (b : Buf) (fe : StoreFe) (imm : BitVec 9) (n : Nat),
    localStoreSpec i = some (d, a, b, fe, imm, n) →
    let o : Nat := (((s.rx a).toNat + n * imm.toInt) % b.size).toNat
    let p : Nat := s.cur.val * 2 ^ 20 + winOff b + o
    (o % n ≠ 0 → exec i s = .next (s.trap 1 (natW (2 ^ 62 + p)))) ∧
    (o % n = 0 → s.Canonical → s.OwnQuiet → s.behindSeq = false → (s.token (p / 2 ^ 21)).checked = false →
      s.badAt p n = false → s.Unwaited p → (fe = .we → s.full p = false) →
      ∃ t : State, exec i s = .next t ∧ StoredAt s.mem t.mem p n (s.rx d).toNat ∧
        t.cc.main = s.cc.main ∧ t.cc.hnd = s.cc.hnd ∧ t.cc.ctl = s.cc.ctl ∧ t.cc.seq = s.cc.seq ∧ t.cc.mat = s.cc.mat ∧
        t.cc.eng = s.cc.eng ∧ (∀ k, k ≠ s.cur → t.core k = s.core k) ∧ t.net = s.net ∧
        ∀ x, t.full x = if fe ≠ .plain ∧ x / 8 = p / 8 then true else s.full x)

/-- R230 and R231, R89; the store to the matrix-queue address is stated in MatrixQueue. Which address a vector access to a word in error
reports is the model's choice (log 99). -/
def Obligations.VectorMemory : Prop :=
  (∀ (s : State) (v : VReg) (a : XReg) (b : Buf) (m : MReg) (imm : BitVec 9), s.SeqIdle → s.OwnQuiet → s.curH = false →
    let o : Nat := (((s.rx a).toNat + 64 * imm.toInt) % b.size).toNat
    let p : Nat := s.cur.val * 2 ^ 20 + winOff b + o
    let meets (j : Nat) : Prop := (s.cc.mask m).getLsbD j = true ∧ j < s.cc.vl ∧ s.badAt (p + j) 1 = true
    ∀ j, j < 64 → meets j → (∀ l, l < j → ¬ meets l) → o % 64 = 0 → s.cc.isQueueAddr b o = false →
      ∀ i ∈ [Instr.vld v a b m imm, .vst v a b m imm],
        ∃ t : State, exec i s = .next t ∧ t.mem = s.mem ∧ t.empties = s.empties ∧ t.cc.main = s.cc.main ∧ t.cc.ctl = s.cc.ctl ∧
          t.cc.evt.respTraps = s.cc.evt.respTraps ++ [{ cause := 5, val := natW (s.fab.devid.val * 2 ^ 40 + p + j) }] ∧
          ∀ k, k ≠ s.cur → t.core k = s.core k) ∧
  ∀ (s : State) (v : VReg) (a : XReg) (b : Buf) (m : MReg), s.SeqIdle → s.OwnQuiet → s.bad = [] → s.weak = [] →
    let at_ (o : Nat) : Nat := s.cur.val * 2 ^ 20 + winOff b + o
    let old : Vec := s.cc.vView s.curH v
    let regs (t : State) : Prop :=
      t.cc.main = s.cc.main ∧ t.cc.hnd = s.cc.hnd ∧ t.cc.ctl = s.cc.ctl ∧ t.cc.seq = s.cc.seq ∧ t.empties = s.empties ∧
      ∀ k, k ≠ s.cur → t.core k = s.core k
    (∀ imm : BitVec 9,
      let o : Nat := (((s.rx a).toNat + 64 * imm.toInt) % b.size).toNat
      let lane (j : Nat) : Bool := (s.cc.mask m).getLsbD j && j < s.cc.vl
      (o % 64 ≠ 0 → ∀ i ∈ [Instr.vld v a b m imm, .vst v a b m imm], exec i s = .next (s.trap 1 (natW (2 ^ 62 + at_ o)))) ∧
      (o % 64 = 0 → (s.curH = true → v.val < 8) →
        ∃ w : Vec, exec (.vld v a b m imm) s = .next (s.ranTo (s.cc.setV s.curH v w)) ∧
          ∀ j, j < 64 → elem w 1 j = if lane j then (memGet s.mem (at_ o + j)).toNat else elem old 1 j) ∧
      (o % 64 = 0 → s.Canonical → s.cc.isQueueAddr b o = false →
        ∃ t : State, exec (.vst v a b m imm) s = .next t ∧ regs t ∧
          ∀ x, memGet t.mem x =
            if at_ o ≤ x ∧ x < at_ o + 64 ∧ lane (x - at_ o) = true then BitVec.ofNat 8 (elem old 1 (x - at_ o)) else memGet s.mem x)) ∧
    (∀ (z : Esz) (strided : Bool) (xb : XReg) (vb : VReg),
      let e := Esz.bytes z
      let off (j : Nat) : Nat :=
        if strided then ((s.rx a).toNat + j * (s.rx xb).toNat) % 2 ^ 64 % b.size
        else ((s.rx a).toNat + e * elem (s.cc.vView s.curH vb) e j) % 2 ^ 64 % b.size
      let ld : Instr := if strided then .vlds v a xb b m z else .vldx v a vb b m z
      let st : Instr := if strided then .vsts v a xb b m z else .vstx v a vb b m z
      ((s.rx a).toNat % e ≠ 0 → ∀ i ∈ [ld, st], exec i s = .next (s.trap 1 (natW (2 ^ 62 + at_ ((s.rx a).toNat % b.size))))) ∧
      ((s.rx a).toNat % e = 0 → strided = true → (s.rx xb).toNat % e ≠ 0 → ∀ i ∈ [ld, st],
        exec i s = .next (s.trap 1 (natW (2 ^ 62 + at_ (((s.rx a).toNat + (s.rx xb).toNat) % 2 ^ 64 % b.size))))) ∧
      ((s.rx a).toNat % e = 0 → (strided = true → (s.rx xb).toNat % e = 0) →
        ((s.curH = true → v.val < 8) →
          ∃ w : Vec, exec ld s = .next (s.ranTo (s.cc.setV s.curH v w)) ∧
            ∀ j, j < 64 / e → elem w e j = if s.cc.active m e j then readLE s.mem (at_ (off j)) e else elem old e j) ∧
        (s.Canonical →
          ∃ t : State, exec st s = .next t ∧ regs t ∧
            (∀ x, (∀ j, j < 64 / e → s.cc.active m e j = true → x < at_ (off j) ∨ at_ (off j) + e ≤ x) →
              memGet t.mem x = memGet s.mem x) ∧
            ∀ j, j < 64 / e → s.cc.active m e j = true →
              (∀ l, j < l → l < 64 / e → s.cc.active m e l = true → off l ≠ off j) →
              readLE t.mem (at_ (off j)) e = elem old e j)))

/-- `globalSpec` lists the forms of R233 to R235. An address is translated at issue (log 44). -/
def Obligations.GlobalIssue : Prop :=
  ∀ (i : Instr) (s : State) (kind : AccKind) (cls : RClass) (fe : FeMode) (a : XReg) (dst : Option XReg) (ext : Ext),
    globalSpec i s = some (kind, cls, fe, a, dst, ext) → (∀ d, dst = some d → s.curH = true → d.val < 16) →
    let ga := s.rx a
    let reg : Bool := bits ga 62 2 = 2
    let need : Need := match kind with
      | .load _ => .read
      | .atomic _ _ _ => .both
      | _ => .write
    (reg = true → s.privNow = false → exec i s = .next (s.trap 3 (s.word.setWidth 64))) ∧
    ((reg = true → s.privNow = true) → ga.toNat % accWidth kind ≠ 0 → exec i s = .next (s.trap 1 ga)) ∧
    ((reg = true → s.privNow = true) → ga.toNat % accWidth kind = 0 →
      (∀ d, dst = some d → (s.cc.flights s.curH).length < 32) →
      ∃ t : State, exec i s = .next t ∧ t.mem = s.mem ∧ t.cc.main.x = s.cc.main.x ∧ t.cc.hnd.x = s.cc.hnd.x ∧
        t.cc.main.f = s.cc.main.f ∧ t.cc.main.v = s.cc.main.v ∧ t.cc.main.m = s.cc.main.m ∧ t.cc.ctl = s.cc.ctl ∧
        (let x := (s.xlate (some (clusterOf s.cur.val)) s.cc.slot.ctx false need ga).2
         let fl : Option Nat := dst.map fun _ => s.nextId
         let r (sys : BitVec 50) (reg nc : Bool) (ph : Phase) : Req :=
          { id := s.nextId + (if dst.isSome then 1 else 0), src := .core s.cur s.curH s.curPc, op := .acc kind, cls := cls, fe := fe,
            ga := ga, sys := sys, reg := reg, loc := false, tokchk := false, ext := ext, flight := fl, phase := ph,
            due := s.now + max 1 s.fab.rspTimeout.toNat * 1800, ctx := s.cc.slot.ctx, nocache := nc, plane := none }
         (∀ l : Xl, x = .ok l → l.reg = true ∨ devOf l.sys = s.own → 
            t.net = s.net ++ [r l.sys l.reg l.nc .sent] ∧
            t.cc.flights s.curH = s.cc.flights s.curH ++ (dst.toList.map fun d =>
              { id := s.nextId, dst := .x d, vals := [], more := true, aged := false, dead := false })) ∧
         (x = .error .fault → t.net = s.net ++ [r (BitVec.ofNat 50 ga.toNat) false true .faulted])))

/-- R145 and R32; `atomicSpec` states the new word. The decision is that of R115, R118, R119, R34, R89 and R32, in this order. Which
crossings fail their flit CRC is named by the agenda (log 116). -/
def Obligations.AccessPerformed : Prop :=
  (∀ (s : State) (r : Req) (kind : AccKind) (k : CoreIx) (h : Bool) (pc : Pc) (p : PeerReply),
    s.Canonical → s.req r.id = some r → r.op = .acc kind → r.src = .core k h pc → r.phase = .sent → r.loc = false →
    r.reg = false → devOf r.sys = s.own → s.heldBack r = false → r.id ∉ s.fab.overdue → s.Unwaited (physOf r.sys) →
    Crossing.item r.id ∉ s.dev.torn →
    (∀ n : Fin 4, (s.core k).seq.ports[n].outq = []) →
    (∀ w, kind ≠ .row w) →
    let a := physOf r.sys
    let old := readLE s.mem a (accWidth kind)
    (s.verdict r kind = .perform →
      ∃ t : State, exec (.accessPerform (.own r.id p)) s = .next t ∧
        (∀ n, kind = .load n → t.mem = s.mem) ∧
        (∀ n w, kind = .store n w → StoredAt s.mem t.mem a n w.toNat) ∧
        (∀ op x c, kind = .atomic op x c → StoredAt s.mem t.mem a (accWidth kind) (atomicSpec op old x.toNat c.toNat)) ∧
        (∀ x, t.full x = if x / 8 = a / 8 then (match kind, r.fe with
            | .load _, .tk => false
            | .store _ _, .we => true
            | .store _ _, .fl => true
            | _, _ => s.full x)
          else s.full x) ∧
        (∀ f, r.flight = some f → ∀ fl ∈ (s.core k).flights h, fl.id = f →
          { fl with vals := fl.vals ++ [r.ext.apply (match kind with
            | .load _ => natW old
            | .atomic _ _ _ => natW old
            | _ => 0)], more := false } ∈ (t.core k).flights h) ∧
        (∀ q ∈ t.net, q.id = r.id → q.phase = .answered 0)) ∧
    (s.verdict r kind = .wait → s.waitingAt (homeOf a) < 512 →
      ∃ t : State, exec (.accessPerform (.own r.id p)) s = .next t ∧ t.mem = s.mem ∧ t.empties = s.empties ∧ t.cores = s.cores ∧
        { r with phase := .waiting (s.now + max 1 s.fab.feTimeout.toNat * 1800) } ∈ t.net) ∧
    (∀ st, s.verdict r kind = .refuse st → st ≠ 0 →
      ∃ t : State, exec (.accessPerform (.own r.id p)) s = .next t ∧ t.mem = s.mem ∧ t.empties = s.empties ∧ (t.core k).main = (s.core k).main ∧
        { r with phase := .answered st } ∈ t.net) ∧
    ∃ t : State, exec (.accessPerform (.damaged r.id)) s = .next t ∧ t.mem = s.mem ∧ t.empties = s.empties ∧ (t.core k).main = (s.core k).main ∧
      { r with phase := .answered 8 } ∈ t.net) ∧
  ∀ (s : State) (r : Req) (kind : AccKind), r.loc = false →
    let a := physOf r.sys
    let writes : Bool := match kind with
      | .load _ => false
      | _ => true
    let sl := (s.core (Fin.ofNat 4096 (a / 2 ^ 20))).slot
    let o := a % 2 ^ 20
    let inW : Prop := o < 0x80000
    let inA : Prop := 0x80000 ≤ o ∧ o < 0xC0000
    let forbidden : Prop := match kind with
      | .load _ => False
      | .atomic _ _ _ => inW ∨ inA
      | _ => inW
    let window : Prop := a < 2 ^ 32
    let stack : Prop := 0x1000000000 ≤ a ∧ a < 0x7000000000
    let admitted : Prop := match r.src with
      | .peer _ _ _ => s.fab.domainEn = true ∧ stack ∧ bit (look 0 s.dev.fabImport ((a - 0x1000000000) / 2 ^ 30)) 63 = true
      | _ => stack ∨ (window ∧ sl.st ≠ .idle ∧ sl.ctx = r.ctx ∧ ¬ (writes = true ∧ sl.st = .frozen) ∧ ¬ forbidden)
    let dev : Nat := match r.src with
      | .peer d _ _ => d.val
      | _ => s.own
    let tok := s.token (a / 2 ^ 21)
    let denied : Prop := tok.checked = true ∧ dev ≠ tok.holder.val
    let gone : Prop := r.tokchk = true ∨ (tok.moving = false ∧ tok.holder.val ≠ s.own)
    (¬ admitted → s.verdict r kind = .refuse 3) ∧
    (admitted → denied → gone → s.verdict r kind = .refuse 5) ∧
    (admitted → denied → r.tokchk = false → tok.moving = true → s.verdict r kind = .wait) ∧
    (admitted → ¬ (denied ∧ (gone ∨ tok.moving = true)) →
      let met : Prop := match r.fe with
        | .wf | .tk => s.full a = true
        | .we => s.full a = false
        | _ => True
      (s.badAt a (accWidth kind) = true → s.verdict r kind = .refuse 4) ∧
      (s.badAt a (accWidth kind) = false → met → s.verdict r kind = .perform) ∧
      (s.badAt a (accWidth kind) = false → ¬ met → s.verdict r kind = .wait))

/-- The device steps STORE_ACKNOWLEDGEMENT, FE_TIMEOUT, FAB_RSP_TIMEOUT, RESPONSE_TRAP and RESULT_LANDING. A timeout is a lower
bound of the tick (log 4). -/
def Obligations.Responses : Prop :=
  ∀ (s : State) (r : Req), s.req r.id = some r →
    (r.phase = .answered 0 → (∀ e, r.entry = some e → s.replicated e = true) →
      (r.flight = none → exec (.storeAcknowledgement r.id) s = .next { s with net := s.net.filter (·.id ≠ r.id) }) ∧
      (∀ f k h pc, r.flight = some f → r.src = .core k h pc →
        exec (.storeAcknowledgement r.id) s = .next ({ s with net := s.net.filter (·.id ≠ r.id) }.give k h f r.ga))) ∧
    (r.phase = .answered 0 → (∃ e, r.entry = some e ∧ s.replicated e = false) → exec (.storeAcknowledgement r.id) s = .next s) ∧
    (∀ due, r.phase = .waiting due →
      (due ≤ s.now → exec (.feTimeout r.id) s = .next (s.refuse r 6)) ∧ (s.now < due → exec (.feTimeout r.id) s = .next s)) ∧
    (r.phase = .sent → r.plane = none → exec (.fabRspTimeout r.id) s = .next s) ∧
    (r.phase = .sent → r.reg = false → r.loc = false → devOf r.sys ≠ s.own → r.plane ≠ none → r.due ≤ s.now →
      Crossing.item r.id ∉ s.dev.torn →
      ∃ t : State, exec (.fabRspTimeout r.id) s = .next t ∧ r.id ∈ t.fab.overdue ∧ t.mem = s.mem ∧
        (∀ k h pc, r.src = .core k h pc → { r with phase := .answered 9 } ∈ t.net)) ∧
    (∀ (k : CoreIx) (h : Bool) (pc : Pc) (cause : BitVec 8) (val : Word), r.src = .core k h pc → 
      (s.net.find? fun q => q.src.ownedBy k && q.failure.isSome) = some r →
      (r.phase = .faulted ∧ cause = 4 ∧ val = r.ga ∨
        ∃ st, r.phase = .answered st ∧ st ≠ 0 ∧ cause = (if st = 5 then 8 else if st = 6 then 6 else 5) ∧ val = r.sys.setWidth 64) →
      ∃ t : State, exec (.responseTrap k) s = .next t ∧ t.mem = s.mem ∧ (t.core k).main.x = (s.core k).main.x ∧
        (t.core k).main.f = (s.core k).main.f ∧ (t.core k).hnd.x = (s.core k).hnd.x ∧ (∀ q ∈ t.net, q.id ≠ r.id) ∧
        (h = false → (t.core k).evt.respTraps = (s.core k).evt.respTraps ++ [{ cause := cause, val := val }]) ∧
        (h = true → (t.core k).hnd.faults = (s.core k).hnd.faults ++ [(cause, pc)] ∧ (t.core k).hnd.row = none)) ∧
    (∀ (k : CoreIx) (pc : Pc) (d : Nat) (cause : BitVec 8), r.src = .row k pc d →
      (s.net.find? fun q => q.src.ownedBy k && q.failure.isSome) = some r →
      (r.phase = .faulted ∧ cause = 4 ∨
        ∃ st, r.phase = .answered st ∧ st ≠ 0 ∧ cause = (if st = 5 then 8 else if st = 6 then 6 else 5)) →
      ∃ t : State, exec (.responseTrap k) s = .next t ∧ t.mem = s.mem ∧ (t.core k).main = (s.core k).main ∧ (∀ q ∈ t.net, q.id ≠ r.id) ∧
        (t.core k).hnd.faults = (s.core k).hnd.faults ++ [(cause, pc)] ∧ (t.core k).hnd.row = none) ∧
    (∀ (k : CoreIx) (n : Nat) (fl : Flight) (d : XReg) (v : Word) (vs : List Word),
      (s.core k).main.flights[n]? = some fl → fl.aged = true → fl.dead = false → fl.dst = .x d → fl.vals = v :: vs →
      (∀ q ∈ (s.core k).main.flights.take n, q.dst ≠ fl.dst) →
      ∃ t : State, exec (.resultLanding k false n) s = .next t ∧ t.mem = s.mem ∧ (d ≠ 0 → (t.core k).main.x[d] = v) ∧
        (∀ e, e ≠ d → (t.core k).main.x[e] = (s.core k).main.x[e]) ∧
        (t.core k).main.flights = if vs = [] ∧ fl.more = false then (s.core k).main.flights.eraseIdx n
          else (s.core k).main.flights.set n { fl with vals := vs })

/-- R237 to R239. `State.covers` writes out R152 for requests. A fence takes a number when it first executes; what its core issues
later it does not wait for, and a row counts as issued with its MDRAIN (R273). -/
def Obligations.Fences : Prop :=
  (∀ (cls : BitVec 3) (knd : BitVec 4) (a : XReg) (s : State),
    let w := s.rx a
    let mark := (if s.curH then s.cc.evt.fenceH else s.cc.evt.fenceAt).getD s.nextId
    let waits : State := { ({ s with nextId := max s.nextId (mark + 1) }).markedAt (some mark) with bundle := .held }
    (¬ scopeLegal w → exec (.fence cls knd a) s = .next (s.trap 2 (s.word.setWidth 64))) ∧
    (scopeLegal w → ∀ r ∈ s.net, r.stamp < mark → s.covers cls knd w r → exec (.fence cls knd a) s = .next waits) ∧
    (scopeLegal w → ∀ e ∈ s.cc.mat.mq, e.stamp < mark → knd.getLsbD 3 = true → cls ≠ 0 → inRect w s.cur.val →
      exec (.fence cls knd a) s = .next waits) ∧
    (scopeLegal w → (∀ r ∈ s.net, r.stamp < mark → ¬ s.covers cls knd w r) → s.EnginesIdle →
      exec (.fence cls knd a) s = .next (s.markedAt none))) ∧
  (∀ s : State, let c := s.cc
    exec .rfence s = .next { s with cores := put s.cores s.cur.val { c with evt := { c.evt with records := [] } } }) ∧
  (∀ s : State, exec .ifence s = .next s)

/-- R105, R244, R245. `groupEntry` finds the valid GMEM register that names the group, and the launch lists its members in rank
order. XEND gives its completion pulse to the Relay (source 7), which is left open here. -/
def Obligations.Supersteps : Prop :=
  (∀ (g : Fin 256) (s : State), s.curH = false →
    let c := s.cc
    let e := c.exch
    let after (e : Exchange) : State := { s with cores := put s.cores s.cur.val { c with exch := e } }
    (e.parked ≠ .sync g → c.groupEntry g = none ∨ e.group ≠ none → exec (.sync g) s = .next (s.trap 2 (s.word.setWidth 64))) ∧
    (e.parked ≠ .xend g → c.groupEntry g = none ∨ e.group ≠ some g → exec (.xend g) s = .next (s.trap 2 (s.word.setWidth 64))) ∧
    (∀ i, e.parked ≠ .sync g → c.groupEntry g = some i → e.group = none → c.main.flights = [] → s.EnginesIdle →
      (∀ r ∈ s.net, r.stamp < c.evt.fenceAt.getD s.nextId → ¬ s.covers 7 7 c.ctl.gscope[i] r) →
      ∃ t : State, exec (.sync g) s = .next t ∧ t.bundle = .held ∧ t.mem = s.mem ∧ t.net = s.net ∧ t.cc.main = c.main ∧ t.cc.ctl = c.ctl ∧
        t.cc.exch = { e with parked := .sync g, back := false }) ∧
    (e.parked = .sync g → e.back = true → exec (.sync g) s = .next (after { e with parked := .none, back := false })) ∧
    (e.parked = .sync g → e.back = false → exec (.sync g) s = .next { s with bundle := .held }) ∧
    (∀ i, e.parked ≠ .xend g → c.groupEntry g = some i → e.group = some g → c.main.flights = [] →
      ∃ t : State, exec (.xend g) s = .next t ∧ t.bundle = .held ∧ t.mem = s.mem ∧ t.net = s.net ∧ t.cc.main = c.main ∧ t.cc.ctl = c.ctl ∧
        t.cc.exch = { e with parked := .xend g, back := false, remain := BitVec.ofNat 32 (e.remain.toNat - e.held),
                             ovr := e.ovr || decide (e.remain.toNat < e.held), held := 0, expected := true }) ∧
    (e.parked = .xend g → e.back = true →
      exec (.xend g) s = .next (after { e with parked := .none, back := false, ovrDue := e.ovr })) ∧
    (e.parked = .xend g → e.back = false → exec (.xend g) s = .next { s with bundle := .held })) ∧
  (∀ (a : XReg) (s : State), s.curH = false →
    let c := s.cc
    let e := c.exch
    let sum := min (e.remain.toNat + (s.rx a).toNat) 0xFFFFFFFF
    (e.group = none → exec (.xexpect a) s = .next (s.trap 2 (s.word.setWidth 64))) ∧
    (e.group ≠ none →
      let e' : Exchange := if e.expected then { e with remain := BitVec.ofNat 32 sum }
        else { e with remain := BitVec.ofNat 32 (sum - e.held), ovr := e.ovr || decide (sum < e.held), held := 0, expected := true }
      exec (.xexpect a) s = .next { s with cores := put s.cores s.cur.val { c with exch := e' } })) ∧
  (∀ (k : CoreIx) (g : Fin 256) (s : State),
    let ms := s.members k g
    let stands (j : CoreIx) (b : Barrier) : Prop := (s.core j).exch.parked = b ∧ (s.core j).exch.back = false ∧
      (s.core j).slot.stop = .no ∧ ((s.core j).slot.st = .running ∨ (s.core j).slot.st = .stopping)
    (ms ≠ [] → (∀ j ∈ ms, stands j (.sync g)) →
      ∃ t : State, exec (.syncRelease k g) s = .next t ∧ t = { s with cores := t.cores } ∧
        (∀ j ∈ ms, t.core j = { s.core j with exch := { Exchange.reset with parked := .sync g, back := true, group := some g, t0 := s.now } }) ∧
        ∀ j, j ∉ ms → t.core j = s.core j) ∧
    ((∃ j ∈ ms, ¬ stands j (.sync g)) → exec (.syncRelease k g) s = .next s) ∧
    (ms ≠ [] → (∀ j ∈ ms, stands j (.xend g) ∧ (s.core j).exch.remain = 0) →
      (∀ x ∈ s.xfers, x.src ∉ ms) →
      ∃ t : State, exec (.xendReturn k g) s = .next t ∧ t = { s with cores := t.cores } ∧
        (∀ j ∈ ms, (t.core j).exch = { (s.core j).exch with back := true, group := none } ∧ (t.core j).main = (s.core j).main ∧
          (t.core j).hnd = (s.core j).hnd ∧ (t.core j).ctl = (s.core j).ctl) ∧
        ∀ j, j ∉ ms → t.core j = s.core j) ∧
    ((∃ j ∈ ms, ¬ stands j (.xend g) ∨ (s.core j).exch.remain ≠ 0) ∨
        (∃ x ∈ s.xfers, x.src ∈ ms) →
      exec (.xendReturn k g) s = .next s))

/-- R246. The mesh runs at the tick of the model, so that slot n begins 64 n ticks after T0. A transfer that has landed has left every
link (log 96), and which of the two link entries a step is, is log 94. A transfer whose flits fail (log 116) is left out. -/
def Obligations.ExchangeTransfers : Prop :=
  (∀ (d a : XReg) (slot : BitVec 8) (s : State), s.curH = false →
    let dst := s.rx d
    let desc := s.rx a
    let off := bits desc 32 20
    let len := bits desc 0 20
    let buf : Buf := match bits desc 62 2 with
      | 0 => .w
      | 1 => .a
      | 2 => .c
      | _ => .l
    let size : Nat := match buf with
      | .w => 0x80000
      | .a => 0x40000
      | .c => 0x20000
      | .l => 0x20000
    let bad : Prop := bits desc 52 10 ≠ 0 ∨ bits desc 20 12 ≠ 0 ∨ len = 0 ∨ size < off + len
    let e := s.cc.exch
    (e.group = none ∨ bad → exec (.xsend d a slot) s = .next (s.trap 2 (s.word.setWidth 64))) ∧
    (e.group ≠ none → ¬ bad → off % 64 ≠ 0 → exec (.xsend d a slot) s = .next (s.trap 1 (natW off))) ∧
    (e.group ≠ none → ¬ bad → off % 64 = 0 → len % 64 ≠ 0 → exec (.xsend d a slot) s = .next (s.trap 1 (natW len))) ∧
    (e.group ≠ none → ¬ bad → off % 64 = 0 → len % 64 = 0 → dst.toNat % 64 ≠ 0 → exec (.xsend d a slot) s = .next (s.trap 1 dst)) ∧
    (∀ g, e.group = some g → ¬ bad → off % 64 = 0 → len % 64 = 0 → dst.toNat % 64 = 0 →
      let tr := (s.xlate (some (clusterOf s.cur.val)) s.cc.slot.ctx false .write dst).2
      (tr = .error .fault → ∃ t : State, exec (.xsend d a slot) s = .next t ∧ t.xfers = s.xfers ∧ t.mem = s.mem ∧
        t.cc.evt.respTraps = s.cc.evt.respTraps ++ [{ cause := 4, val := dst }]) ∧
      (∀ l : Xl, tr = .ok l →
        let p := physOf l.sys
        let j : CoreIx := Fin.ofNat 4096 (p / 2 ^ 20)
        let o := p % 2 ^ 20
        let into : Prop := (0x80000 ≤ o ∧ o + len ≤ 0xC0000) ∨ (0xC0000 ≤ o ∧ o + len ≤ 0xE0000) ∨ (0xE0000 ≤ o ∧ o + len ≤ 0x100000)
        let open_ : Prop := (s.core j).slot.st ≠ .idle ∧ (s.core j).slot.st ≠ .frozen ∧ (s.core j).slot.ctx = s.cc.slot.ctx
        let window : Prop := l.reg = false ∧ devOf l.sys = s.own ∧ p < 2 ^ 32
        (window → j ∈ s.members s.cur g → into → open_ →
          let start := e.t0 + 64 * slot.toNat
          let late := decide (start < s.now)
          let x : XTransfer := { id := s.nextId, src := s.cur, buf := buf, off := off, len := len, dst := p, ga := dst, slot := slot,
                                 start := max start s.now, late := late, entered := false }
          ∃ t : State, exec (.xsend d a slot) s = .next t ∧ t.xfers = s.xfers ++ [x] ∧ t.mem = s.mem ∧ t.empties = s.empties ∧
            t.cc.exch = { e with xcol := e.xcol || late } ∧ t.cc.main = s.cc.main ∧ t.cc.ctl = s.cc.ctl) ∧
        (¬ window ∨ j ∉ s.members s.cur g ∨ ¬ into ∨ ¬ open_ →
          ∃ t : State, exec (.xsend d a slot) s = .next t ∧ t.xfers = s.xfers ∧ t.mem = s.mem ∧
            t.cc.evt.respTraps = s.cc.evt.respTraps ++ [{ cause := 5, val := l.sys.setWidth 64 }])))) ∧
  (∀ (s : State) (x : XTransfer), s.xfers.find? (·.id == x.id) = some x →
    let c := s.core x.src
    let busy : Prop := ∃ u ∈ s.xfers, u.entered = true ∧ u.id ≠ x.id ∧
      sharedLink x.src.val (x.dst / 2 ^ 20) u.src.val (u.dst / 2 ^ 20)
    let held : Prop := x.late = true ∨ busy ∨ x.start + 64 ≤ s.now
    (∀ b : Bool, x.entered = true ∨ s.now < x.start ∨ ¬ (b = true ↔ busy) → exec (.xsendLinkEntry x.id b) s = .next s) ∧
    (∀ b : Bool, x.entered = false → x.start ≤ s.now → (b = true ↔ busy) →
      ∃ t : State, ∃ y : XTransfer, exec (.xsendLinkEntry x.id b) s = .next t ∧ t.mem = s.mem ∧ t.net = s.net ∧ y ∈ t.xfers ∧
        (y.late = true ↔ held) ∧
        (¬ busy → y = { x with entered := true, late := y.late }) ∧
        (busy → y = { x with start := y.start, late := true } ∧ s.now < y.start ∧ y.start ≤ s.now + 64 ∧ ∃ n, y.start = x.start + 64 * n) ∧
        (x.late = true ∨ ¬ held → t.cores = s.cores) ∧
        (x.late = false → held →
          t.core x.src = { c with exch := { c.exch with xcol := true, ncol := BitVec.ofNat 16 (min (c.exch.ncol.toNat + 1) 0xFFFF) } })) ∧
    let waits : Prop := ∃ u ∈ s.xfers, u.entered = false ∧ u.id ≠ x.id ∧ u.start ≤ s.now ∧
      sharedLink u.src.val (u.dst / 2 ^ 20) x.src.val (x.dst / 2 ^ 20)
    (x.entered = false ∨ waits → exec (.xsendLanding x.id) s = .next s) ∧
    (x.entered = true → ¬ waits → Crossing.item x.id ∉ s.dev.torn → s.Canonical → c.seq.queue = [] → c.seq.loop = none → s.ownPending x.src x.id = [] →
      (∀ n : Fin 4, c.seq.ports[n].outq = []) → x.dst < 2 ^ 32 → s.badAt (winAddr x.src.val x.buf x.off) x.len = false →
      let j : CoreIx := Fin.ofNat 4096 (x.dst / 2 ^ 20)
      let d := s.core j
      let open_ : Prop := 0x80000 ≤ x.dst % 2 ^ 20 ∧ d.slot.st ≠ .idle ∧ d.slot.st ≠ .frozen ∧ d.slot.ctx = c.slot.ctx
      ∃ t : State, exec (.xsendLanding x.id) s = .next t ∧ t.empties = s.empties ∧ (∀ y ∈ t.xfers, y.id ≠ x.id) ∧
        (open_ → StoredAt s.mem t.mem x.dst x.len (readLE s.mem (winAddr x.src.val x.buf x.off) x.len) ∧
          (t.core j).exch = (if d.exch.group = none then d.exch
            else if d.exch.expected then
              { d.exch with remain := BitVec.ofNat 32 (d.exch.remain.toNat - x.len), ovr := d.exch.ovr || decide (d.exch.remain.toNat < x.len) }
            else { d.exch with held := d.exch.held + x.len })) ∧
        (¬ open_ → t.mem = s.mem ∧ (t.core j).exch = d.exch ∧
          (t.core x.src).evt.respTraps = c.evt.respTraps ++ [{ cause := 5, val := natW (s.own % 1024 * 2 ^ 40 + x.dst) }])))

/-- R101, R102, R247. Queues stand in the order N, E, S, W; an entry sent is on its way (`nqIn`) until
NEIGHBOUR_QUEUE_ARRIVAL, and counts against the eight places of its queue. That the flits of an entry fail is an event of the agenda (log
116). -/
def Obligations.NeighbourQueues : Prop :=
  (∀ (v : VReg) (d : Dir) (s : State), meshNext s.cur d = none →
    exec (.nqsend v d) s = .next (s.trap 2 (s.word.setWidth 64)) ∧ exec (.nqrecv v d) s = .next (s.trap 2 (s.word.setWidth 64))) ∧
  (∀ (v : VReg) (d : Dir) (s : State) (j : CoreIx), meshNext s.cur d = some j → s.SeqIdle →
    let q := farNum d
    let c := s.core j
    (c.seq.nq[q].length + c.seq.nqIn[q].length < 8 →
      ∃ t : State, exec (.nqsend v d) s = .next t ∧ t = { s with cores := t.cores, nextId := s.nextId + 1 } ∧ t.cc = s.cc ∧
        (∀ k, k ≠ j → t.core k = s.core k) ∧
        (let sent := c.seq.nqIn[q] ++ [(if s.curH then some s.curPc else none, s.cc.vView s.curH v)]
         t.core j = { c with seq := { c.seq with nqIn := c.seq.nqIn.set q sent } })) ∧
    (8 ≤ c.seq.nq[q].length + c.seq.nqIn[q].length →
      ∃ t : State, exec (.nqsend v d) s = .next t ∧ t.mem = s.mem ∧ t.core j = c ∧ t.cc.main = s.cc.main ∧ t.cc.hnd = s.cc.hnd ∧
        t.cc.seq.queue.map (·.ins) = [.nqsend v d] ∧ t.cc.seq.nqWait = some s.now)) ∧
  (∀ (v : VReg) (d : Dir) (s : State), meshNext s.cur d ≠ none → s.SeqIdle → (s.curH = true → v.val < 8) →
    let q := dirNum d
    let c := s.cc
    (∀ w r, c.seq.nq[q] = w :: r →
      exec (.nqrecv v d) s = .next (s.ranTo ({ c with seq := { c.seq with nq := c.seq.nq.set q r } }.setV s.curH v w))) ∧
    (c.seq.nq[q] = [] →
      ∃ t : State, exec (.nqrecv v d) s = .next t ∧ t.mem = s.mem ∧ t.cc.main = s.cc.main ∧ t.cc.hnd = s.cc.hnd ∧
        t.cc.seq.queue.map (·.ins) = [.nqrecv v d] ∧ t.cc.seq.nqWait = some s.now)) ∧
  (∀ (s : State) (k j : CoreIx) (d : Dir) (h : Option Pc) (v : Vec) (r : List (Option Pc × Vec)), meshNext k d = some j →
    let q := dirNum d
    let c := s.core k
    c.seq.nqIn[q] = (h, v) :: r →
    ∃ t : State, exec (.neighbourQueueArrival k d) s = .next t ∧ t.mem = s.mem ∧ (t.core k).main = c.main ∧ (t.core k).seq.nqIn = c.seq.nqIn.set q r ∧
      let torn : Prop := Crossing.queue k d ∈ s.dev.torn
      (¬ torn ∧ c.slot.st ≠ .idle ∧ c.slot.lid = (s.core j).slot.lid → (t.core k).seq.nq = c.seq.nq.set q (c.seq.nq[q] ++ [v]) ∧
        ∀ i, i ≠ k → t.core i = s.core i) ∧
      (torn ∨ c.slot.st = .idle ∨ c.slot.lid ≠ (s.core j).slot.lid → (t.core k).seq.nq = c.seq.nq ∧
        (h = none → ∃ val, (t.core j).evt.respTraps = (s.core j).evt.respTraps ++ [{ cause := 5, val := val }]) ∧
        ∀ pc, h = some pc → (t.core j).hnd.faults = (s.core j).hnd.faults ++ [(5, pc)])) ∧
  (∀ (s : State) (k : CoreIx) (e : SeqEntry) (r : List SeqEntry) (t0 : Nat) (v : VReg) (d : Dir) (out : Bool),
    let c := s.core k
    let limit := bits c.ctl.qtimeout 0 32 * 1800
    let val := natW ((dirNum d).val + if out then 4 else 0)
    (∀ q ∈ s.net, q.loc = false) → c.seq.loop = none → c.seq.queue = e :: r → c.seq.nqWait = some t0 → e.ins = (if out then .nqsend v d else .nqrecv v d) →
    (limit ≠ 0 → t0 + limit < s.now →
      ∃ t : State, exec (.queueTimeout k) s = .next t ∧ t.mem = s.mem ∧ (t.core k).seq.queue = r ∧ (t.core k).main = c.main ∧
        (e.handler = false → (t.core k).evt.qto = some (val, e.pc)) ∧
        (e.handler = true → (t.core k).hnd.faults = c.hnd.faults ++ [(0x0D, e.pc)])) ∧
    (limit = 0 ∨ s.now ≤ t0 + limit → exec (.queueTimeout k) s = .next s)) ∧
  (∀ (s : State) (k : CoreIx) (n : Fin 4),
    let p := (s.core k).seq.ports[n]
    let b : Buf := match bits p.cfg 60 2 with
      | 0 => .w
      | 1 => .a
      | 2 => .c
      | _ => .l
    let size : Nat := match b with
      | .w => 0x80000
      | .a => 0x40000
      | .c => 0x20000
      | .l => 0x20000
    let cnt (i : Nat) : Nat := max 1 (bits p.cnt (16 * i) 16)
    bit p.cfg 63 = true → bit p.cfg 62 = false → p.i2 < cnt 2 → p.i1 < cnt 1 → p.i0 < cnt 0 →
    s.badAt (winAddr k.val b (portOffset p size)) 64 = false →
    ∃ t : State, exec (.streamElementArrival k n) s = .next t ∧ t.mem = s.mem ∧
      (let p' := (t.core k).seq.ports[n]
       p'.arrived = p.arrived ++ [some (BitVec.ofNat 512 (readLE s.mem (winAddr k.val b (portOffset p size)) 64))] ∧
       p'.i0 + cnt 0 * (p'.i1 + cnt 1 * p'.i2) = p.i0 + cnt 0 * (p.i1 + cnt 1 * p.i2) + 1 ∧
       p'.cfg = p.cfg ∧ p'.str = p.str ∧ p'.cnt = p.cnt)) ∧
  (∀ (s : State) (k : CoreIx) (n : Fin 4) (e : SeqEntry) (rest : List SeqEntry) (d a b : VReg) (m : MReg) (et : IntEt)
    (g : Nat → Nat → Nat → Int),
    let c := s.core k
    let p := c.seq.ports[n]
    let ran (c : Core) : Core := c.vInt false d a b m et fun w x y => modN w (g w x y)
    let buf : Buf := match bits p.cfg 60 2 with
      | 0 => .w
      | 1 => .a
      | 2 => .c
      | _ => .l
    let size : Nat := match buf with
      | .w => 0x80000
      | .a => 0x40000
      | .c => 0x20000
      | .l => 0x20000
    vIntSpec e.ins = some (d, a, b, m, et, g) → e.handler = false → c.seq.loop = none → c.seq.queue = e :: rest →
    (∀ r ∈ s.net, r.loc = false) → s.ownPending k e.stamp = [] → bit p.cfg 63 = true → (∀ o : Fin 4, o ≠ n → bit c.seq.ports[o].cfg 63 = false) →
    (bit p.cfg 62 = false → a.val = 28 + n.val ∨ b.val = 28 + n.val → ∀ w l, p.arrived = some w :: l →
      ∃ u : State, s.seqStep k = .ok u ∧ u.mem = s.mem ∧ (u.core k).seq.queue = rest ∧ (u.core k).seq.ports[n].arrived = l ∧
        (u.core k).main.v = (ran { c with main := { c.main with v := c.main.v.set (28 + n.val) w } }).main.v) ∧
    (bit p.cfg 62 = true → d.val = 28 + n.val →
      (8 ≤ p.outq.length → ∃ u : State, s.seqStep k = .error u ∧ u.mem = s.mem ∧ u.cores = s.cores) ∧
      (p.outq.length < 8 → buf ≠ .w →
        ∃ u : State, ∃ id : Nat, s.seqStep k = .ok u ∧ u.mem = s.mem ∧ (u.core k).seq.queue = rest ∧ (u.core k).main.v = (ran c).main.v ∧
          (u.core k).seq.ports[n].outq = p.outq ++
            [{ id := id, stamp := e.stamp, addr := winAddr k.val buf (portOffset p size), data := (ran c).main.v[28 + n.val] }]) ∧
      (p.outq.length < 8 → buf = .w →
        ∃ u : State, s.seqStep k = .ok u ∧ u.mem = s.mem ∧ bit (u.core k).seq.ports[n].cfg 63 = false ∧
          (u.core k).seq.ports[n].outq = p.outq ∧
          (u.core k).evt.respTraps = c.evt.respTraps ++ [{ cause := 5, val := natW (2 ^ 62 + winAddr k.val buf (portOffset p size)) }]))) ∧
  (∀ (s : State) (k : CoreIx) (w : PortWrite), s.Canonical → oldestWrite (s.core k).portWrites = some w → s.badAt w.addr 64 = false →
    StoredAt s.mem (s.portPerform k).mem w.addr 64 w.data.toNat ∧ ∀ q ∈ ((s.portPerform k).core k).portWrites, q.id ≠ w.id)

/-- R284 to R288, R140, R141. In the message 0x50 status, transfer ID and payload are the model's (log 34): only kind and source
are stated. That a spilled item stands at BASE plus 16 times the items before it is the model's choice (log 51). Items of a launch that is
saved stay in the unit, in the same lists (spec/05 R75), and that the flits of an item fail is an event of the agenda (log 116). -/
def Obligations.GroupsAndWorkSets : Prop :=
  (∀ (d : XReg) (g : Fin 256) (s : State), (s.curH = true → d.val < 16) →
    (s.cc.groupEntry g = none → exec (.gid d g) s = .next (s.trap 2 (s.word.setWidth 64))) ∧
    (∀ i, s.cc.groupEntry g = some i → exec (.gid d g) s = .next (s.wx d s.cc.ctl.gmem[i]))) ∧
  (∀ (d a : XReg) (g : Fin 256) (mode : PartMode) (s : State), (s.curH = true → d.val < 16) →
    let ga := s.rx a
    (s.cc.groupEntry g = none → exec (.part d a g mode) s = .next (s.trap 2 (s.word.setWidth 64))) ∧
    let user : Prop := bits ga 62 2 = 2 ∧ s.privNow = false
    (∀ i, s.cc.groupEntry g = some i → user → exec (.part d a g mode) s = .next (s.trap 3 (s.word.setWidth 64))) ∧
    (∀ i, s.cc.groupEntry g = some i → ¬ user → ga.toNat % 64 ≠ 0 → exec (.part d a g mode) s = .next (s.trap 1 ga)) ∧
    (∀ i r, s.cc.groupEntry g = some i → ¬ user → ga.toNat % 64 = 0 → (s.cc.flights s.curH).length < 32 →
      s.cc.evt.records.find? (·.ga == ga) = some r →
      (r.stale = true → exec (.part d a g mode) s = .next (s.trap 0x0A ga)) ∧
      (r.stale = false → recOk r.words = true →
        let rank := bits (r.words.getD 0 0) 48 4
        let dim (j : Nat) : Nat := (r.words.getD (4 + j) 0).toNat
        let gm := s.cc.ctl.gmem[i]
        let sc := s.cc.ctl.gscope[i]
        let x := s.cur.val % 64
        let y := s.cur.val / 64
        let p : Nat × Nat × Nat := match mode with
          | .rank => (dim (rank - 1), bits gm 0 12, bits gm 16 13)
          | .meshX => (dim (rank - 1), x - bits sc 0 8, bits sc 16 8 - bits sc 0 8 + 1)
          | .meshY => (if 2 ≤ rank then dim (rank - 2) else dim 0, y - bits sc 8 8, bits sc 24 8 - bits sc 8 8 + 1)
        let val := natW ((p.2.1 + 1) * p.1 / p.2.2 * 2 ^ 32 + p.2.1 * p.1 / p.2.2)
        ∃ t : State, exec (.part d a g mode) s = .next t ∧ t.mem = s.mem ∧ t.cc.main.x = s.cc.main.x ∧ t.cc.hnd.x = s.cc.hnd.x ∧
          t.cc.ctl = s.cc.ctl ∧ t.cc.flights s.curH = s.cc.flights s.curH ++
            [{ id := s.nextId, dst := .x d, vals := [val], more := false, aged := false, dead := false }]) ∧
      (r.stale = false → recOk r.words = false →
        ∃ s' : State, exec (.part d a g mode) s = .next (s'.trap 2 (s.word.setWidth 64)) ∧ s'.mem = s.mem ∧ s'.cc.main = s.cc.main ∧
          s'.cc.hnd = s.cc.hnd ∧ s'.cc.ctl = s.cc.ctl))) ∧
  (∀ (v : VReg) (a : XReg) (s : State),
    (4096 ≤ (s.rx a).toNat → exec (.wlpush v a) s = .next (s.trap 2 (s.word.setWidth 64))) ∧
    ((s.rx a).toNat < 4096 → s.SeqIdle →
      let p : PushedItem := { id := s.nextId + 1, src := s.cur, hpc := if s.curH then some s.curPc else none, dst := Fin.ofNat 4096 (s.rx a).toNat,
                              item := (s.cc.vView s.curH v).setWidth 128 }
      ∃ t : State, exec (.wlpush v a) s = .next t ∧ t = { s with cores := t.cores, nextId := s.nextId + 2, pushed := s.pushed ++ [p] } ∧
        t.cc = { s.cc with eng := { s.cc.eng with votes := [] } } ∧ ∀ k, k ≠ s.cur → t.core k = s.core k)) ∧
  (∀ (d : XReg) (v : VReg) (s : State), s.SeqIdle → s.FreshIds → (s.curH = true → d.val < 16 ∧ v.val < 8) →
    (s.cc.flights s.curH).length < 32 → (∀ p ∈ s.spilled, ∀ x ∈ p.2, dieOf x.core.val ≠ dieOf s.cur.val) →
    let c := s.cc
    let all := look [] s.lists s.cur.val
    let mine := all.filter fun x => x.core = s.cur && x.lid == c.slot.lid
    let old := c.vView s.curH v
    let put16 (item : BitVec 128) : Vec := BitVec.ofNat 512 (old.toNat / 2 ^ 128 * 2 ^ 128 + item.toNat)
    (mine = [] → exec (.wlpop d v) s = .next (s.owes c (.x d) (natW (2 ^ 63)))) ∧
    (∀ x r, mine = x :: r →
      exec (.wlpop d v) s = .next ({ s with lists := put s.lists s.cur.val (all.erase x) }.owes
        ({ c with eng := { c.eng with votes := [] } }.setV s.curH v (put16 x.item)) (.x d) (natW (min r.length 0xFFFFFFFF))))) ∧
  (∀ (d : XReg) (v : VReg) (s : State) (ctx : Nat) (pre post : List WorkItem) (x : WorkItem), s.SeqIdle → s.FreshIds →
    (s.curH = true → d.val < 16 ∧ v.val < 8) → (s.cc.flights s.curH).length < 32 →
    let mine (y : WorkItem) : Bool := y.core = s.cur && y.lid == s.cc.slot.lid
    (look [] s.lists s.cur.val).filter mine = [] →
    s.spilled = [(ctx, pre ++ x :: post)] → mine x = true → (∀ y ∈ pre, mine y = false) → 65536 ≤ s.stored (dieOf s.cur.val) →
    let left := (post.filter mine).length
    ∃ t : State, exec (.wlpop d v) s = .next t ∧ t.lists = s.lists ∧ t.spilled = [(ctx, pre ++ post)] ∧ t.cc.eng.votes = [] ∧
      t.cc.vView s.curH v = BitVec.ofNat 512 ((s.cc.vView s.curH v).toNat / 2 ^ 128 * 2 ^ 128 + x.item.toNat) ∧
      t.cc.flights s.curH = s.cc.flights s.curH ++ [s.known d (natW (min left 0xFFFFFFFF))]) ∧
  (∀ (g : Fin 256) (s : State),
    let c := s.cc
    (c.groupEntry g = none → exec (.wldone g) s = .next (s.trap 2 (s.word.setWidth 64))) ∧
    (c.groupEntry g ≠ none → s.SeqIdle →
      exec (.wldone g) s = .next (s.ranTo { c with eng := { c.eng with
        votes := if g ∈ c.eng.votes then c.eng.votes else c.eng.votes ++ [g] } }))) ∧
  (∀ (s : State) (p : PushedItem), s.pushed.find? (·.id == p.id) = some p →
    let die := dieOf p.dst.val
    let ctx := (s.core p.src).slot.ctx
    let area := look [] s.spilled ctx.toNat
    let room := bits (look 0 s.dev.wlSpill ctx.toNat) 40 22 * 256
    let base := bits (look 0 s.dev.wlSpill ctx.toNat) 0 40
    let bound : Prop := (s.core p.dst).slot.st ≠ .idle ∧ (s.core p.dst).slot.lid = (s.core p.src).slot.lid
    let rest := s.pushed.filter (·.id != p.id)
    let torn : Prop := Crossing.item p.id ∈ s.dev.torn
    let new : WorkItem := { core := p.dst, lid := (s.core p.src).slot.lid, item := p.item }
    ((∃ q ∈ s.pushed, q.id < p.id ∧ q.src = p.src ∧ q.dst = p.dst) → exec (.workItemArrival p.id) s = .next s) ∧
    ((∀ q ∈ s.pushed, q.id < p.id → q.src = p.src → q.dst ≠ p.dst) →
      (¬ torn → bound → s.stored die < 65536 → (∀ x ∈ area, dieOf x.core.val ≠ die) →
        exec (.workItemArrival p.id) s = .next { s with pushed := rest, lists := put s.lists p.dst.val (look [] s.lists p.dst.val ++ [new]) }) ∧
      (¬ torn → bound → (65536 ≤ s.stored die ∧ area.length < room) ∨ (s.stored die < 65536 ∧ ∃ x ∈ area, dieOf x.core.val = die) →
        ∃ t : State, exec (.workItemArrival p.id) s = .next t ∧ t.pushed = rest ∧ t.lists = s.lists ∧
          t.spilled = put s.spilled ctx.toNat (area ++ [new]) ∧
          (s.Canonical → inStacks base = true → readLE t.mem (base + 16 * area.length) 16 = p.item.toNat) ∧
          (inStacks base = false → t.mem = s.mem)) ∧
      (torn ∨ ¬ bound ∨ (65536 ≤ s.stored die ∧ room ≤ area.length) →
        ∃ t : State, ∃ val, exec (.workItemArrival p.id) s = .next t ∧ t.pushed = rest ∧ t.lists = s.lists ∧ t.spilled = s.spilled ∧ t.mem = s.mem ∧
          (p.hpc = none → (t.core p.src).evt.respTraps = (s.core p.src).evt.respTraps ++ [{ cause := 5, val := val }]) ∧
          ∀ pc, p.hpc = some pc → (t.core p.src).hnd.faults = (s.core p.src).hnd.faults ++ [(5, pc)]))) ∧
  (∀ (k : CoreIx) (g : Fin 256) (s : State),
    let ms := s.members k g
    let quiet (j : CoreIx) : Prop := g ∈ (s.core j).eng.votes ∧
      (look [] s.lists j.val).filter (fun x => x.core = j && x.lid == (s.core j).slot.lid) = [] ∧ s.spilledFor j = 0 ∧ s.itemTo j = false
    (ms ≠ [] → (∀ j ∈ ms, quiet j) →
      ∃ t : State, exec (.quiescenceMessage k g) s = .next t ∧ t = { s with cores := t.cores } ∧
        (∀ j ∈ ms, g ∉ (t.core j).eng.votes ∧ (t.core j).main = (s.core j).main ∧
          (ms.Nodup → (s.core j).slot.st ≠ .idle → (s.core j).evt.held = [] → (s.core j).evt.inbox.length < 256 →
            ∃ m : Msg, (t.core j).evt.inbox = (s.core j).evt.inbox ++ [m] ∧ m.kind = 0x50 ∧ m.source = BitVec.ofNat 16 g.val)) ∧
        ∀ j, j ∉ ms → t.core j = s.core j) ∧
    ((ms = [] ∨ ∃ j ∈ ms, ¬ quiet j) → exec (.quiescenceMessage k g) s = .next s))

/-- R137 to R139, R289 to R291, R310 to R313. Source and device of a receive that no message reached are left open (log 30), and the address under which a message is
logged is the model's (log 107). That a receive whose tensor lies in a saved core is set aside (log 67), and which answers are logged at the
sender's die (log 98), are read from the spec by inference. That the flits of a message fail is an event of the agenda (log 116). -/
def Obligations.Messages : Prop :=
  (∀ (d : XReg) (v : VReg) (s : State) (h : BitVec 16), s.SeqIdle → s.FreshIds → (s.curH = true → d.val < 16) →
    (s.cc.flights s.curH).length < 32 → s.cc.NextHandle h →
    let c := s.cc
    let w := c.vView s.curH v
    let rec_ := dword w 0
    let bad : Prop := dword w 3 ≠ 0 ∨ dword w 4 ≠ 0 ∨ dword w 5 ≠ 0 ∨ dword w 6 ≠ 0 ∨ dword w 7 ≠ 0 ∨
      bits (dword w 2) 28 34 ≠ 0 ∨ bits (dword w 2) 10 6 ≠ 0 ∨ rec_.toNat % 64 ≠ 0
    let p := bits rec_ 0 32
    let ws : List Word := (List.range 24).map fun i => natW (readLE s.mem (p + 8 * i) 8)
    let r : PostedRecv := { core := s.cur, lid := c.slot.lid, ctx := c.slot.ctx, handle := h, recGa := rec_, words := ws, mask := BitVec.ofNat 32 (bits (dword w 1) 32 32),
                            tag := BitVec.ofNat 32 (bits (dword w 1) 0 32), anyDev := bit (dword w 2) 63, anyCore := bit (dword w 2) 62,
                            fromCore := Fin.ofNat 4096 (bits (dword w 2) 16 12), fromDev := Fin.ofNat 1024 (bits (dword w 2) 0 10) }
    let ended (t : State) (st : BitVec 8) : Prop := t.mem = s.mem ∧ t.pre = s.pre ∧
      t.cc.flights s.curH = c.flights s.curH ++ [s.known d (h.setWidth 64)] ∧ t.cc.eng.handle = h ∧
      (c.Takes → ∃ m : Msg, t.cc.evt.inbox = c.evt.inbox ++ [m] ∧ m.kind = 0x30 ∧ m.status = st ∧ m.xid = h ∧
        bits m.payload 42 22 = 0 ∧ bits m.payload 0 32 = bits (dword w 1) 0 32)
    (bad → ∃ t : State, exec (.postrx d v) s = .next t ∧ ended t 3) ∧
    (¬ bad → s.OwnWindow rec_ 192 →
      (recOk ws = false → ∃ t : State, exec (.postrx d v) s = .next t ∧ ended t 3) ∧
      (recOk ws = true → (∀ m ∈ s.pre.unexpected, m.lid = r.lid → r.accepts m = false) → s.pre.posted.length < 4096 →
        ∃ t : State, exec (.postrx d v) s = .next t ∧ t.mem = s.mem ∧ t.pre = { s.pre with posted := s.pre.posted ++ [r] } ∧
          t.cc.flights s.curH = c.flights s.curH ++ [s.known d (h.setWidth 64)] ∧ t.cc.evt.inbox = c.evt.inbox) ∧
      (recOk ws = true → (∀ m ∈ s.pre.unexpected, m.lid = r.lid → r.accepts m = false) → 4096 ≤ s.pre.posted.length →
        ∃ t : State, exec (.postrx d v) s = .next t ∧ ended t 5))) ∧
  (∀ (d : XReg) (v : VReg) (s : State) (h : BitVec 16), s.SeqIdle → s.FreshIds → (s.curH = true → d.val < 16) →
    (s.cc.flights s.curH).length < 32 → s.cc.NextHandle h →
    let c := s.cc
    let w := c.vView s.curH v
    let src := dword w 0
    let len := bits (dword w 1) 32 22
    let bad : Prop := dword w 3 ≠ 0 ∨ dword w 4 ≠ 0 ∨ dword w 5 ≠ 0 ∨ dword w 6 ≠ 0 ∨ dword w 7 ≠ 0 ∨ bits (dword w 1) 54 10 ≠ 0 ∨
      bits (dword w 2) 34 30 ≠ 0 ∨ bits (dword w 2) 28 4 ≠ 0 ∨ bits (dword w 2) 10 6 ≠ 0 ∨ bits (dword w 2) 32 2 = 3 ∨
      src.toNat % 8 ≠ 0 ∨ len % 8 ≠ 0 ∨ len < 8 ∨ 2097152 < len
    (64 ≤ c.eng.sends.length → ∃ t : State, exec (.send d v) s = .next t ∧ t.mem = s.mem ∧ t.pre = s.pre ∧
      t.cc.seq.queue.map (·.ins) = [.send d v] ∧ t.cc.eng = c.eng) ∧
    (c.eng.sends.length < 64 → bad → ∃ t : State, exec (.send d v) s = .next t ∧ t.mem = s.mem ∧ t.pre = s.pre ∧
      t.cc.flights s.curH = c.flights s.curH ++ [s.known d (h.setWidth 64)] ∧
      (c.Takes → ∃ m : Msg, t.cc.evt.inbox = c.evt.inbox ++ [m] ∧ m.kind = 0x31 ∧ m.status = 2 ∧ m.xid = h ∧ m.payload = 2 ∧
        m.source = BitVec.ofNat 16 (bits (dword w 2) 16 12))) ∧
    (c.eng.sends.length < 64 → ¬ bad → bits (dword w 2) 0 10 = s.own → s.OwnWindow src len →
      ∃ t : State, ∃ m : Message, exec (.send d v) s = .next t ∧ t.mem = s.mem ∧ t.pre = { s.pre with sent := s.pre.sent ++ [m] } ∧
        t.cc.flights s.curH = c.flights s.curH ++ [s.known d (h.setWidth 64)] ∧ t.cc.evt.inbox = c.evt.inbox ∧
        m.core = s.cur ∧ m.dst.val = bits (dword w 2) 16 12 ∧ m.dev = s.fab.devid ∧ m.tag.toNat = bits (dword w 1) 0 32 ∧
        m.handle = h ∧ m.payload.length = len ∧
        (∀ i, i < len → m.payload[i]? = some (memGet s.mem (bits src 0 32 + i))) ∧
        m.cls = (if bits (dword w 2) 32 2 = 0 then .ord else if bits (dword w 2) 32 2 = 1 then .adp else .spr)) ∧
    (c.eng.sends.length < 64 → ¬ bad → bits (dword w 2) 0 10 ≠ s.own → s.OwnWindow src len →
      let dev : Fin 1024 := Fin.ofNat 1024 (bits (dword w 2) 0 10)
      let cls : RClass := if bits (dword w 2) 32 2 = 0 then .ord else if bits (dword w 2) 32 2 = 1 then .adp else .spr
      (∀ q, s.route dev.val cls true = .ok q →
        ∃ t : State, ∃ m : Message, exec (.send d v) s = .next t ∧ t.mem = s.mem ∧ t.pre = s.pre ∧ t.fab.out = s.fab.out ++ [.message dev m] ∧
          t.cc.flights s.curH = c.flights s.curH ++ [s.known d (h.setWidth 64)] ∧ t.cc.evt.inbox = c.evt.inbox ∧
          m.dst.val = bits (dword w 2) 16 12 ∧ m.payload.length = len ∧
          ∀ i, i < len → m.payload[i]? = some (memGet s.mem (bits src 0 32 + i))) ∧
      (∀ st, s.route dev.val cls true = .error st →
        ∃ t : State, exec (.send d v) s = .next t ∧ t.mem = s.mem ∧ t.pre = s.pre ∧ t.fab.out = s.fab.out ∧
          t.cc.flights s.curH = c.flights s.curH ++ [s.known d (h.setWidth 64)] ∧
          (c.Takes → ∃ m : Msg, t.cc.evt.inbox = c.evt.inbox ++ [m] ∧ m.kind = 0x31 ∧ m.status = 2 ∧ m.xid = h ∧ m.payload = st.setWidth 64)))) ∧
  (∀ (a : XReg) (s : State),
    let h : BitVec 16 := (s.rx a).setWidth 16
    (65536 ≤ (s.rx a).toNat → exec (.cancelrx a) s = .next (s.trap 2 (s.word.setWidth 64))) ∧
    ((s.rx a).toNat < 65536 → (∀ r ∈ s.pre.posted, r.core = s.cur → r.lid = s.cc.slot.lid → r.handle ≠ h) → exec (.cancelrx a) s = .next s) ∧
    (∀ r, (s.rx a).toNat < 65536 → s.pre.posted.find? (fun r => r.core = s.cur && r.lid == s.cc.slot.lid && r.handle == h) = some r →
      ∃ t : State, exec (.cancelrx a) s = .next t ∧ t.mem = s.mem ∧ t.pre = { s.pre with posted := s.pre.posted.erase r } ∧
        t.cc.main = s.cc.main ∧
        (s.cc.Takes → ∃ m : Msg, t.cc.evt.inbox = s.cc.evt.inbox ++ [m] ∧ m.kind = 0x30 ∧ m.status = 2 ∧ m.xid = h))) ∧
  (∀ (s : State) (m : Message), s.pre.sent.find? (·.id == m.id) = some m → m.dev = s.fab.devid →
    let rest := s.pre.sent.filter (·.id != m.id)
    let lid := (s.core m.dst).slot.lid
    let idle : Prop := (s.core m.dst).slot.st = .idle
    let serves (r : PostedRecv) : Prop := ((s.core r.core).slot.st ≠ .idle ∧ (s.core r.core).slot.lid = r.lid) ∨
      ((s.core r.core).slot.st = .idle ∧ ∃ sv, lookup s.saves (r.lid.toNat * 4096 + r.core.val) = some sv)
    let early : Prop := m.cls = .ord ∧ ∃ q ∈ s.pre.sent, q.id < m.id ∧ q.cls = .ord ∧ q.dev = m.dev ∧ q.core = m.core ∧ q.dst = m.dst
    let told (t : State) (st : BitVec 8) (x : BitVec 4) : Prop :=
      (t.core m.core).eng.sends = (s.core m.core).eng.sends.map fun r => if r.id = m.id then { r with answer := some (st, x) } else r
    let torn : Prop := Crossing.item m.id ∈ s.dev.torn
    (early → exec (.messageArrival (.own m.id)) s = .next s) ∧
    (¬ early → torn → ∃ t : State, exec (.messageArrival (.own m.id)) s = .next t ∧ t.mem = s.mem ∧ t.pre = { s.pre with sent := rest } ∧
      told t 2 8) ∧
    (¬ early → ¬ torn → idle → (∀ r ∈ s.pre.posted, r.accepts m = true → ¬ serves r) →
      ∃ t : State, exec (.messageArrival (.own m.id)) s = .next t ∧ t.mem = s.mem ∧ t.pre = { s.pre with sent := rest } ∧ told t 2 3) ∧
    (¬ early → ¬ torn → ¬ idle → (∀ r ∈ s.pre.posted, r.accepts m = true → ¬ serves r) →
      (s.roomFor m = true → ∃ t : State, exec (.messageArrival (.own m.id)) s = .next t ∧ t.mem = s.mem ∧
        t.pre = { s.pre with sent := rest, unexpected := s.pre.unexpected ++ [{ m with lid := lid }] } ∧ told t 0 0) ∧
      (s.roomFor m = false → ∃ t : State, exec (.messageArrival (.own m.id)) s = .next t ∧ t.mem = s.mem ∧
        t.pre = { s.pre with sent := rest } ∧ told t 1 0)) ∧
    (¬ early → ¬ torn → ∀ r before after, s.pre.posted = before ++ r :: after → (∀ q ∈ before, q.accepts m = true → ¬ serves q) →
      r.accepts m = true → serves r →
      (s.aside r = true → s.roomFor m = true → ∃ t : State, exec (.messageArrival (.own m.id)) s = .next t ∧ t.mem = s.mem ∧
        t.pre = { s.pre with sent := rest, unexpected := s.pre.unexpected ++ [{ m with lid := r.lid }] } ∧ told t 0 0) ∧
      (s.aside r = false → s.landStall r m = none →
        ∃ t : State, exec (.messageArrival (.own m.id)) s = .next t ∧ t.pre = { s.pre with sent := rest, posted := s.pre.posted.erase r }))) ∧
  (∀ (s : State) (p : PeerMsg), (s.core p.dst).slot.st ≠ .idle → (∀ q ∈ s.pre.sent, q.id ≠ s.nextId ∧ q.dev ≠ p.dev) →
    p.dev ≠ s.fab.devid →
    let lid := (s.core p.dst).slot.lid
    let e := s.peer p.dev.val
    let m : Message := { id := s.nextId, dev := p.dev, core := p.core, dst := p.dst, tag := p.tag, cls := .ord, payload := p.payload,
                         handle := 0, lid := lid }
    (e.enc = true → p.tagOk = false → ∃ t : State, exec (.messageArrival (.peer p)) s = .next t ∧ t.pre = s.pre ∧ t.mem = s.mem ∧
      t.fab = { s.fab with tagFails := s.fab.tagFails + 1 }) ∧
    ((e.enc = true → p.tagOk = true) → s.keySpent e = false → (∀ r ∈ s.pre.posted, r.accepts m = false) →
      let answered (t : State) (st : BitVec 4) (data : Word) : Prop := ∃ hdr, t.fab.out = s.fab.out ++ [.reply p.dev st hdr data]
      (s.fab.domainEn = false →
        ∃ t : State, exec (.messageArrival (.peer p)) s = .next t ∧ t.pre = s.pre ∧ t.mem = s.mem ∧ answered t 3 0) ∧
      (s.fab.domainEn = true → p.crcOk = false → e.xt = true →
        ∃ t : State, exec (.messageArrival (.peer p)) s = .next t ∧ t.pre = s.pre ∧ t.mem = s.mem ∧ answered t 8 0) ∧
      (s.fab.domainEn = true → p.crcOk = true ∨ e.xt = false → s.roomFor m = true →
        ∃ t : State, exec (.messageArrival (.peer p)) s = .next t ∧ t.pre = { s.pre with unexpected := s.pre.unexpected ++ [m] } ∧ t.mem = s.mem ∧
          answered t 0 0))) ∧
  (∀ (s : State) (k : CoreIx) (sr : SendRec) (r : PeerReply),
    let c := s.core k
    let sys := sysOf sr.dev.val (sr.dst.val * 2 ^ 20)
    let sent : BitVec 4 := BitVec.ofNat 4 (bits r.hdr 12 4)
    let good : Prop := (s.peer sr.dev.val).xt = false ∨ crcMatches sys r.hdr (toBytes (if sent = 0 then 8 else 0) r.data.toNat) = true
    let seen : BitVec 4 := if good then (if 10 ≤ sent.toNat then 2 else sent) else 8
    let kept : Prop := (s.peer sr.dev.val).enc = true → r.tagOk = true
    let answer : Option (BitVec 8 × BitVec 4) := match sr.answer with
      | some a => some a
      | none => if sr.dev = s.fab.devid then none
        else if seen = 0 then some (if r.data = 0 then 0 else 1, 0)
        else some (2, seen)
    let noted : Prop := sr.answer = none ∧ (sent ≠ seen ∨ seen = 1 ∨ seen = 9)
    let s0 := if noted then s.logViolation (dieOf k.val) seen s.own sys k.val 3 else s
    c.eng.sends.find? (·.handle == sr.handle) = some sr → c.Takes → kept →
    (answer = none → exec (.sendAnswer k sr.handle r) s = .next s) ∧
    (∀ st x, answer = some (st, x) →
      ∃ t : State, ∃ m : Msg, exec (.sendAnswer k sr.handle r) s = .next t ∧ t = { s0 with cores := t.cores } ∧ (t.core k).main = c.main ∧
        (t.core k).evt.inbox = c.evt.inbox ++ [m] ∧ (t.core k).eng.sends = c.eng.sends.filter (·.handle != sr.handle) ∧
        m.kind = 0x31 ∧ m.status = st ∧ m.xid = sr.handle ∧ m.source = BitVec.ofNat 16 sr.dst.val ∧
        (st = 2 → m.payload = x.setWidth 64) ∧
        (st = 0 ∨ st = 1 → bits m.payload 0 32 = sr.tag.toNat ∧ bits m.payload 32 10 = sr.dev.val ∧ bits m.payload 42 22 = sr.len % 2 ^ 22)))

/-- R142, R159 to R167, R292 to R295. `State.holdsPart` says that a partition's launch runs in a context; `Step.result` is the
assignment of R162 to R164, about which the last clauses say what a bid, a round, a place of the fallback and the whole assignment are,
and `State.rowsOf` its records. A chunk is written into the table that its Broker held when it arrived (R306). -/
def Obligations.Market : Prop :=
  (∀ (v : VReg) (b : XReg) (s : State),
    let w := s.rx b
    let p := bits w 24 4
    let x : Posting := { id := s.nextId + 1, stamp := s.nextId, core := s.cur, word := w, data := s.cc.vView s.curH v, taken := none }
    (bits w 28 36 ≠ 0 ∨ bits w 21 3 ≠ 0 → exec (.gatepost v b) s = .next (s.trap 2 (s.word.setWidth 64))) ∧
    (bits w 28 36 = 0 → bits w 21 3 = 0 → s.holdsPart p s.cc.slot.ctx = false → exec (.gatepost v b) s = .next (s.trap 9 (natW p))) ∧
    (bits w 28 36 = 0 → bits w 21 3 = 0 → s.holdsPart p s.cc.slot.ctx = true → s.SeqIdle →
      exec (.gatepost v b) s = .next { s with cores := put s.cores s.cur.val s.cc, nextId := s.nextId + 2, posts := s.posts ++ [x] })) ∧
  (∀ (a b : XReg) (s : State),
    let w := s.rx a
    let out := s.rx b
    let p := bits w 0 4
    let q := s.part p
    let T := bits w 32 17
    let K := bits q.cfg 58 4
    let nexp := bits q.cfg 39 11
    let cap (j : Nat) : Nat := look 0 s.caps (bits q.cfg 29 10 + j)
    let zero : Prop := bits w 4 28 = 0 ∧ bits w 49 15 = 0
    (¬ zero → exec (.mktrun a b) s = .next (s.trap 2 (s.word.setWidth 64))) ∧
    (zero → s.holdsPart p s.cc.slot.ctx = false → exec (.mktrun a b) s = .next (s.trap 9 (natW p))) ∧
    (zero → s.holdsPart p s.cc.slot.ctx = true → s.SeqIdle → s.mktWaits = [] → (∀ x ∈ s.posts, x.core ≠ s.cur) →
      let c4 : Prop := q.run ≠ none
      let c2 : Prop := 65536 < T * K ∨ out.toNat % 64 ≠ 0 ∨ gaOk out = false ∨ nexp < K
      let c1 : Prop := (bits q.cfg 62 2 = 2 ∧ (((List.range nexp).map cap).sum ≠ T * K ∨ ∃ j, j < nexp ∧ T < cap j)) ∨
        (bits q.cfg 62 2 = 1 ∧ ((List.range nexp).map fun j => min (cap j) T).sum < T * K)
      (∃ t : State, exec (.mktrun a b) s = .next t ∧ t.mem = s.mem ∧ t.cc.main = s.cc.main ∧ t.mktWaits = [] ∧
        (∀ p', p' ≠ p → t.part p' = s.part p') ∧
        (¬ c4 → ¬ c2 → ¬ c1 → t.part p = { q with run := some { core := s.cur, tokens := T, out := out } } ∧ t.cc = s.cc) ∧
        (c4 ∨ c2 ∨ c1 → t.part p = { q with stat := 0 } ∧
          (s.cc.Takes → ∃ m : Msg, t.cc.evt.inbox = s.cc.evt.inbox ++ [m] ∧ m.kind = 0x70 ∧ m.status = (if c4 then 4 else if c2 then 2 else 1) ∧
            m.source = BitVec.ofNat 16 p ∧ m.xid.toNat = bits q.step 0 16 ∧ m.payload = 0))))) ∧
  (∀ (d a : XReg) (s : State), (s.curH = true → d.val < 16) →
    let w := s.rx a
    let p := bits w 16 4
    let q := s.part p
    let i := bits w 0 12
    let nexp := bits q.cfg 39 11
    let eb := bits q.cfg 29 10
    let sel : Prop := bits w 20 44 = 0 ∧ bits w 12 4 = 0 ∧ s.holdsPart p s.cc.slot.ctx = true
    let val : Option Word :=
      if i = 0 then some q.cfg else if i = 1 then some q.eps else if i = 2 then some q.step else if i = 3 then some q.bids
      else if i = 4 then some q.stat
      else if 0x400 ≤ i ∧ i < 0x800 ∧ i - 0x400 < nexp then some ((look (0 : Half) s.prices (eb + (i - 0x400))).setWidth 64)
      else if 0x800 ≤ i ∧ i < 0xC00 ∧ i - 0x800 < nexp then some (natW (look 0 s.caps (eb + (i - 0x800))))
      else none
    (¬ sel → exec (.mktrd d a) s = .next (s.trap 9 (natW p))) ∧
    (sel → s.SeqIdle → s.FreshIds → (s.cc.flights s.curH).length < 32 → s.mktWaits = [] → (∀ x ∈ s.posts, x.core ≠ s.cur) →
      (q.run = none → bit q.cfg 0 = false →
        (∀ v, val = some v → exec (.mktrd d a) s = .next { s.owes s.cc (.x d) v with nextId := s.nextId + 3 }) ∧
        (val = none → ∃ t : State, exec (.mktrd d a) s = .next t ∧ t.mem = s.mem ∧ t.parts = s.parts ∧ t.cc.main = s.cc.main ∧ t.cc.hnd.x = s.cc.hnd.x ∧
          (s.curH = false → t.cc.evt.respTraps = s.cc.evt.respTraps ++ [{ cause := 9, val := natW p }]) ∧
          (s.curH = true → t.cc.hnd.faults = s.cc.hnd.faults ++ [(9, s.curPc)]))) ∧
      (q.run ≠ none → ∃ t : State, exec (.mktrd d a) s = .next t ∧ t.mem = s.mem ∧ t.parts = s.parts ∧
        t.mktWaits = [{ part := Fin.ofNat 16 p, core := s.cur, stamp := s.nextId + 2, hpc := if s.curH then some s.curPc else none,
                        op := .read w s.nextId false }] ∧
        t.cc.flights s.curH = s.cc.flights s.curH ++ [{ s.known d 0 with vals := [], more := true }]))) ∧
  (∀ (a b : XReg) (s : State),
    let w := s.rx a
    let v := s.rx b
    let p := bits w 16 4
    let q := s.part p
    let i := bits w 0 12
    let nexp := bits q.cfg 39 11
    let eb := bits q.cfg 29 10
    let sel : Prop := bits w 20 44 = 0 ∧ bits w 12 4 = 0 ∧ s.holdsPart p s.cc.slot.ctx = true
    let n := bits v 39 11
    let e := bits v 29 10
    let cfgFields : Prop := bits v 1 28 = 0 ∧ bits v 62 2 ≠ 3 ∧ 1 ≤ bits v 58 4 ∧ bits v 58 4 ≤ 8 ∧ 1 ≤ bits v 50 8 ∧ e + n ≤ 1024
    let cfgOwn : Prop := (∀ j, j < n → (s.res (e + j)).ctx = s.cc.slot.ctx) ∧
      ∀ x ∈ s.parts, x.1 = p ∨ x.2.owner = none ∨ bits x.2.cfg 39 11 = 0 ∨ n = 0 ∨ e + n ≤ bits x.2.cfg 29 10 ∨
        bits x.2.cfg 29 10 + bits x.2.cfg 39 11 ≤ e
    let with_ (parts : Assoc Partition) (pr : Assoc Half) (ca : Assoc Nat) : State :=
      { s with cores := put s.cores s.cur.val s.cc, nextId := s.nextId + 2, parts := parts, prices := pr, caps := ca }
    let refused (t : State) : Prop := t.mem = s.mem ∧ t.parts = s.parts ∧ t.prices = s.prices ∧ t.caps = s.caps ∧ t.cc.main = s.cc.main ∧
      (s.curH = false → t.cc.evt.respTraps = s.cc.evt.respTraps ++ [{ cause := 9, val := natW p }]) ∧
      (s.curH = true → t.cc.hnd.faults = s.cc.hnd.faults ++ [(9, s.curPc)])
    (¬ sel → exec (.mktwr a b) s = .next (s.trap 9 (natW p))) ∧
    (sel → s.SeqIdle → s.mktWaits = [] → (∀ x ∈ s.posts, x.core ≠ s.cur) → q.run = none →
      (i = 0 → cfgFields → cfgOwn →
        exec (.mktwr a b) s = .next (with_ (put s.parts p { q with cfg := natW (v.toNat / 2 * 2) }) s.prices s.caps)) ∧
      (i = 1 → bits v 32 32 = 0 → 0 < bits v 0 32 → bits v 0 32 < 0x7F800000 →
        exec (.mktwr a b) s = .next (with_ (put s.parts p { q with eps := v }) s.prices s.caps)) ∧
      (i = 2 → bits v 32 32 = 0 → exec (.mktwr a b) s = .next (with_ (put s.parts p { q with step := v }) s.prices s.caps)) ∧
      (i = 3 → gaOk v = true → v.toNat % 64 = 0 →
        exec (.mktwr a b) s = .next (with_ (put s.parts p { q with bids := v }) s.prices s.caps)) ∧
      (i = 4 → exec (.mktwr a b) s = .next (with_ s.parts s.prices s.caps)) ∧
      (0x400 ≤ i → i < 0x800 → i - 0x400 < nexp → bits v 32 32 = 0 → bits v 0 31 < 0x7F800000 →
        exec (.mktwr a b) s = .next (with_ s.parts (put s.prices (eb + (i - 0x400)) (v.setWidth 32)) s.caps)) ∧
      (0x800 ≤ i → i < 0xC00 → i - 0x800 < nexp → v.toNat ≤ 65536 →
        exec (.mktwr a b) s = .next (with_ s.parts s.prices (put s.caps (eb + (i - 0x800)) v.toNat))) ∧
      ((i = 0 ∧ (¬ cfgFields ∨ ¬ cfgOwn)) ∨
          (i = 1 ∧ (bits v 32 32 ≠ 0 ∨ bits v 0 32 = 0 ∨ 0x7F800000 ≤ bits v 0 32)) ∨ (i = 2 ∧ bits v 32 32 ≠ 0) ∨
          (i = 3 ∧ (gaOk v = false ∨ v.toNat % 64 ≠ 0)) ∨
          (0x400 ≤ i ∧ i < 0x800 ∧ (nexp ≤ i - 0x400 ∨ bits v 32 32 ≠ 0 ∨ 0x7F800000 ≤ bits v 0 31)) ∨
          (0x800 ≤ i ∧ i < 0xC00 ∧ (nexp ≤ i - 0x800 ∨ 65536 < v.toNat)) ∨ (5 ≤ i ∧ i < 0x400) ∨ 0xC00 ≤ i →
        ∃ t : State, exec (.mktwr a b) s = .next t ∧ refused t)) ∧
    (sel → s.SeqIdle → s.mktWaits = [] → (∀ x ∈ s.posts, x.core ≠ s.cur) → q.run ≠ none →
      exec (.mktwr a b) s = .next { with_ s.parts s.prices s.caps with mktWaits :=
        [{ part := Fin.ofNat 16 p, core := s.cur, stamp := s.nextId + 1, hpc := if s.curH then some s.curPc else none, op := .write w v }] })) ∧
  (∀ (s : State) (x : Posting), s.posts.find? (·.id == x.id) = some x → s.mktWaits = [] →
    let p := bits x.word 24 4
    let q := s.part p
    let first : Prop := ∀ y ∈ s.posts, y.id < x.id → y.core = x.core → bits y.word 24 4 ≠ p
    let table : Word × Nat := x.taken.getD (q.bids, (bits q.cfg 39 11 + 31) / 32)
    let ga := table.1 + natW (bits x.word 0 16 * (64 * table.2) + 64 * bits x.word 16 5)
    let rest (t : State) : Prop := t.posts.map (·.id) = (s.posts.map (·.id)).filter (· != x.id)
    (q.run ≠ none ∨ ¬ first →
      ∃ t : State, exec (.gatepostChunkWrite x.id) s = .next t ∧ t = { s with posts := t.posts } ∧ t.posts.map (·.id) = s.posts.map (·.id)) ∧
    (q.run = none → first → table.2 ≤ bits x.word 16 5 →
      ∃ t : State, exec (.gatepostChunkWrite x.id) s = .next t ∧ t = { s with posts := t.posts, postsLost := s.postsLost + 1 } ∧ rest t) ∧
    (q.run = none → first → bits x.word 16 5 < table.2 → s.BrokerWindow x.core ga 64 → s.Canonical →
      ∃ t : State, exec (.gatepostChunkWrite x.id) s = .next t ∧ (∀ k, (t.core k).main = (s.core k).main) ∧ rest t ∧ t.postsLost = s.postsLost ∧
        t.parts = s.parts ∧ StoredAt s.mem t.mem (bits ga 0 32) 64 x.data.toNat) ∧
    (q.run = none → first → bits x.word 16 5 < table.2 → bits ga 62 2 = 3 →
      ∃ t : State, exec (.gatepostChunkWrite x.id) s = .next t ∧ rest t ∧ t.mem = s.mem ∧ t.postsLost = s.postsLost ∧
        ((s.core x.core).Takes → (s.core x.core).evt.inbox.length < 255 →
          ∃ m m' : Msg, (t.core x.core).evt.inbox = (s.core x.core).evt.inbox ++ [m, m'] ∧
            m.kind = 0x21 ∧ m.status = 4 ∧ m.source.toNat = x.core.val ∧ m.xid = 0 ∧ m.payload = ga ∧
            m'.kind = 0x22 ∧ m'.status = 0 ∧ m'.source.toNat = x.core.val ∧ m'.xid = 0 ∧ m'.payload = x.word))) ∧
  (∀ (s : State) (p : Fin 16) (run : MktStep),
    let q := s.part p.val
    let eb := bits q.cfg 29 10
    let nexp := bits q.cfg 39 11
    let mode := bits q.cfg 62 2
    let row := 8 * ((nexp + 31) / 32)
    let ws : List Word := (List.range (run.tokens * row)).map fun i => natW (readLE s.mem (bits q.bids 0 32 + 8 * i) 8)
    let m : Step := { tokens := run.tokens, k := bits q.cfg 58 4, nexp := nexp, vals := tableVals q run.tokens ws,
                      caps := (List.range nexp).map fun j => look 0 s.caps (eb + j), eps := bits q.eps 0 32 }
    let r := m.result mode (bits q.cfg 50 8) ((List.range nexp).map fun j => (look (0 : Half) s.prices (eb + j)).toNat)
    let recs := (s.rowsOf (dieOf run.core.val) eb m r).1
    let sat := r.sat || (s.rowsOf (dieOf run.core.val) eb m r).2
    let out := bits run.out 0 32
    let n := recs.length
    let step := (q.step.toNat + 1) % 2 ^ 32
    let c := s.core run.core
    q.run = some run → s.mktWaits = [] →
    (s.BrokerWindow run.core q.bids (8 * (run.tokens * row)) → s.BrokerWindow run.core run.out (16 * n) → s.Canonical →
      ∃ t : State, ∃ job : SortJob, exec (.marketStepComplete p) s = .next t ∧
        t.part p.val = { q with run := none, step := natW step, stat := (t.part p.val).stat, sort := q.sort ++ [job] } ∧
        bits (t.part p.val).stat 0 8 = r.rounds % 256 ∧ (bit (t.part p.val).stat 8 = true ↔ r.fbCnt = 0) ∧ bit (t.part p.val).stat 9 = sat ∧
        (mode = 0 → t.prices = s.prices) ∧
        (mode ≠ 0 → ∀ j, j < nexp → look (0 : Half) t.prices (eb + j) = BitVec.ofNat 32 (r.prices.getD j 0)) ∧
        (c.Takes → ∃ msg : Msg, (t.core run.core).evt.inbox = c.evt.inbox ++ [msg] ∧ msg.kind = 0x70 ∧ msg.status = 0 ∧
          msg.payload = (t.part p.val).stat ∧ msg.source = BitVec.ofNat 16 p.val ∧ msg.xid.toNat = step % 2 ^ 16) ∧
        (∀ i x, recs[i]? = some x → ∀ b, b < 16 →
          some (memGet t.mem (out + 16 * i + b)) =
            (((recordWords x.t x.i (eb + x.j) x.w x.rd x.fb).map fun w => toBytes 8 w.toNat).flatten)[b]?) ∧
        (∀ a, a < out ∨ out + 16 * n ≤ a → memGet t.mem a = memGet s.mem a) ∧
        (∀ j, j < nexp → (∃ x ∈ recs, x.j = j) → (t.res (eb + j)).last.toNat = step) ∧
        job.core = run.core ∧ job.out = run.out ∧ job.step.toNat = step ∧ job.fail = none ∧ job.nexp = nexp ∧ job.ebase = eb ∧
        job.recs = recs.mapIdx (fun i x => (i, eb + x.j, x.rd))) ∧
    (run.tokens = 0 → ∃ t : State, exec (.marketStepComplete p) s = .next t ∧ t.mem = s.mem ∧ (t.part p.val).run = none ∧
        (t.part p.val).step = natW step ∧ (t.part p.val).stat = 256 ∧
        (c.Takes → ∃ msg : Msg, (t.core run.core).evt.inbox = c.evt.inbox ++ [msg] ∧ msg.kind = 0x70 ∧ msg.status = 0 ∧ msg.payload = 256 ∧
          msg.source = BitVec.ofNat 16 p.val ∧ msg.xid.toNat = step % 2 ^ 16)) ∧
    (0 < run.tokens → 0 < nexp → bits q.bids 62 2 = 3 →
      ∃ t : State, exec (.marketStepComplete p) s = .next t ∧ t.mem = s.mem ∧ t.prices = s.prices ∧
        t.part p.val = { q with run := none, stat := natW (4 * 2 ^ 56 + q.bids.toNat % 2 ^ 48) } ∧
        (c.Takes → ∃ msg : Msg, (t.core run.core).evt.inbox = c.evt.inbox ++ [msg] ∧ msg.kind = 0x70 ∧ msg.status = 3 ∧
          msg.payload = (t.part p.val).stat))) ∧
  (∀ (s : State) (p : Fin 16) (j : SortJob) (rest : List SortJob), (s.part p.val).sort = j :: rest →
    let n := j.recs.length
    let ga := j.out + natW (16 * n)
    let a := bits ga 0 32
    let size := 8 * n + 8 * j.nexp
    let d := dispatchOrder j.recs
    let count (e : Nat) : Nat := (j.recs.filter fun x => x.2.1 == e).length
    j.recs.map (·.1) = List.range n → s.BrokerWindow j.core ga size → s.Canonical →
    ∃ t : State, exec (.sortComplete p) s = .next t ∧ t.part p.val = { s.part p.val with sort := rest } ∧
      (∀ x, x < a ∨ a + size ≤ x → memGet t.mem x = memGet s.mem x) ∧
      (∀ i x, d[i]? = some x → readLE t.mem (a + 4 * i) 4 = x.1 ∧ readLE t.mem (a + 4 * n + 4 * x.1) 4 = i) ∧
      (∀ l, l < j.nexp → let e := j.ebase + l
        readLE t.mem (a + 8 * n + 8 * l + 4) 4 = count e ∧
        (0 < count e → readLE t.mem (a + 8 * n + 8 * l) 4 = (d.map (·.2.1)).idxOf e) ∧
        (count e = 0 → readLE t.mem (a + 8 * n + 8 * l) 4 = (d.filter fun x => x.2.2 || decide (x.2.1 < e)).length)) ∧
      ((s.core j.core).Takes → ∃ msg : Msg, (t.core j.core).evt.inbox = (s.core j.core).evt.inbox ++ [msg] ∧ msg.kind = 0x60 ∧
        msg.source = BitVec.ofNat 16 p.val ∧ msg.xid.toNat = j.step.toNat % 65536 ∧
        (j.fail = none → msg.status = 0 ∧ msg.payload = natW n) ∧ ∀ f, j.fail = some f → msg.status = 3 ∧ msg.payload = f)) ∧
  (∀ l : List (Nat × Nat × Bool), l.Pairwise (fun a b => a.1 < b.1) →
    (dispatchOrder l).Perm l ∧
    (dispatchOrder l).Pairwise fun a b =>
      (a.2.2 = true ∧ b.2.2 = false) ∨ (a.2.2 = b.2.2 ∧ (a.2.1 < b.2.1 ∨ (a.2.1 = b.2.1 ∧ a.1 < b.1)))) ∧
  (∀ (m : Step) (P : Nat → Nat) (t i : Nat) (X : List Nat), m.Sound → (∀ j, Fp32Finite (P j)) → X.Pairwise (· < ·) →
    let add (x y : Nat) : Nat := (fpAdd fp32 .rne true x y).1
    let u (j : Nat) : Nat := (fpSub fp32 .rne true (m.val t j) (P j)).1
    let sOver (r : Nat × FpFlags) : Bool := (r.2 &&& FpFlags.sat) != 0
    let d (j j2 : Nat) : Nat := (fpSub fp32 .rne true (u j) (u j2)).1
    let sat0 : Bool := X.any fun j => sOver (fpSub fp32 .rne true (m.val t j) (P j))
    let bid (j β : Nat) : Place := { t := t, s := i, j := j, β := β, fb := false }
    (X = [] → m.bid P t i X = none) ∧
    (X.length = 1 → ∀ j ∈ X, m.bid P t i X = some (bid j (add (P j) m.eps), sat0 || sOver (fpAdd fp32 .rne true (P j) m.eps))) ∧
    (2 ≤ X.length → ∃ j j2, BestOf u X j ∧ BestOf u (X.filter (· != j)) j2 ∧
      m.bid P t i X = some (bid j (add (add (P j) (d j j2)) m.eps),
        sat0 || sOver (fpSub fp32 .rne true (u j) (u j2)) || sOver (fpAdd fp32 .rne true (P j) (d j j2)) ||
          sOver (fpAdd fp32 .rne true (add (P j) (d j j2)) m.eps)))) ∧
  (∀ (m : Step) (b : Books), m.Sound → m.Fair b.places → b.prices.length = m.nexp → (∀ x ∈ b.prices, Fp32Finite x) →
    let new := (m.bids b m.slots [] b.sat).1
    let X (t i : Nat) : List Nat :=
      m.cands.filter fun j => !heldBy b.places t j && !(new.any fun q => q.t == t && decide (q.s < i) && q.j == j)
    let c := m.round b
    m.Fair c.places ∧ c.prices.length = m.nexp ∧ (∀ x ∈ c.prices, Fp32Finite x) ∧
    (∀ p ∈ new, p.t < m.tokens ∧ p.s < m.k ∧ assigned b.places p.t p.s = false ∧ ∃ f, m.bid b.price p.t p.s (X p.t p.s) = some (p, f)) ∧
    (∀ t i, t < m.tokens → i < m.k → assigned b.places t i = false → X t i ≠ [] → ∃ p ∈ new, p.t = t ∧ p.s = i) ∧
    (∀ j ∈ m.cands,
      let was := holders b.places j ++ holders new j
      let h := holders c.places j
      h.length = min (m.cap j) was.length ∧ (∀ p ∈ h, p ∈ was) ∧
      (∀ p ∈ h, ∀ q ∈ was, q ∉ h → fp32Rat q.β < fp32Rat p.β ∨ (fp32Rat q.β = fp32Rat p.β ∧ p.t < q.t)) ∧
      (h.length < m.cap j → c.price j = b.price j) ∧
      (h.length = m.cap j → ∃ q ∈ h, (∀ p ∈ h, fp32Rat q.β ≤ fp32Rat p.β) ∧
        c.price j = if fp32Rat (b.price j) < fp32Rat q.β then q.β else b.price j)) ∧
    (∀ j, j < m.nexp → m.cap j = 0 → c.price j = b.price j)) ∧
  (∀ (m : Step) (b : Books) (t i : Nat) (slots : List (Nat × Nat)) (l : List Place) (n rel : Nat) (sat : Bool), m.Sound → m.Fair l →
    (∀ j, Fp32Finite (b.price j)) → t < m.tokens → i < m.k → assigned l t i = false →
    let Y := m.cands.filter fun j => decide ((holders l j).length < m.cap j) && !heldBy l t j
    let x (j : Nat) : Place := { t := t, s := i, j := j, β := 0, fb := true }
    (Y ≠ [] → ∃ j, BestOf (fun j => (fpSub fp32 .rne true (m.val t j) (b.price j)).1) Y j ∧
      ∃ sat' : Bool, m.fallback b ((t, i) :: slots) l n rel sat = m.fallback b slots (l ++ [x j]) (n + 1) rel sat') ∧
    (Y = [] → (∃ path last, m.AltPath l t path last) →
      ∃ (path : List Place) (last j : Nat) (l' : List Place), m.AltPath l t path last ∧
        (t :: path.map (·.t)).Nodup ∧ (path.map (·.j) ++ [last]).Nodup ∧
        (∀ path' last', m.AltPath l t path' last' → path.length ≤ path'.length) ∧
        (path.map (·.j) ++ [last]).head? = some j ∧ l'.length = l.length ∧
        (∀ p ∈ l, p ∉ path → p ∈ l') ∧ (∀ (n : Nat) (p : Place), path[n]? = some p → ({ p with j := (path.map (·.j) ++ [last]).getD (n + 1) 0 } : Place) ∈ l') ∧
        m.fallback b ((t, i) :: slots) l n rel sat = m.fallback b slots (l' ++ [x j]) (n + 1) (rel + 1) sat)) ∧
  (∀ (m : Step) (mode limit : Nat) (prices : List Nat), m.Sound → prices.length = m.nexp → (∀ x ∈ prices, Fp32Finite x) →
    let r := m.result mode limit prices
    let book (n : Nat) : Books := m.round^[n] { places := [], prices := prices, sat := false }
    (mode = 0 → m.k ≤ m.nexp →
      r.prices = prices ∧ r.rounds = 0 ∧ r.fbCnt = 0 ∧ r.reloc = 0 ∧ r.sat = false ∧ r.places.length = m.tokens * m.k ∧
      ∀ t, t < m.tokens →
        let w := r.places.filter (·.t == t)
        w.map (·.s) = List.range m.k ∧ (w.map (·.j)).Nodup ∧ (∀ p ∈ w, p.j < m.nexp ∧ p.fb = false) ∧
        ∀ p ∈ w, ∀ j, j < m.nexp → j ∉ w.map (·.j) →
          fp32Rat (m.val t j) < fp32Rat (m.val t p.j) ∨ (fp32Rat (m.val t j) = fp32Rat (m.val t p.j) ∧ p.j < j)) ∧
    (mode ≠ 0 → r.rounds ≤ limit ∧ (∀ n, n < r.rounds → ∃ t i, t < m.tokens ∧ i < m.k ∧ assigned (book n).places t i = false) ∧
      (r.rounds < limit → ∀ t i, t < m.tokens → i < m.k → assigned (book r.rounds).places t i = true) ∧
      r.prices = (book r.rounds).prices ∧
      (r.places, r.fbCnt, r.reloc, r.sat) = m.fallback (book r.rounds) m.slots (book r.rounds).places 0 0 (book r.rounds).sat ∧
      (∀ j, j < m.nexp → fp32Rat (prices.getD j 0) ≤ fp32Rat (r.prices.getD j 0)) ∧
      m.Fair r.places ∧ r.fbCnt = (r.places.filter (·.fb)).length ∧ r.reloc ≤ r.fbCnt) ∧
    ((mode = 1 ∧ m.tokens * m.k ≤ ((List.range m.nexp).map fun j => min (m.cap j) m.tokens).sum) ∨
        (mode = 2 ∧ ((List.range m.nexp).map m.cap).sum = m.tokens * m.k ∧ ∀ j, j < m.nexp → m.cap j ≤ m.tokens) →
      (∀ t i, t < m.tokens → i < m.k → assigned r.places t i = true) ∧ r.places.length = m.tokens * m.k ∧ (m.k = 1 → r.reloc = 0) ∧
      (mode = 2 → ∀ j, j < m.nexp → (holders r.places j).length = m.cap j)))

/-- R128, R129, R296, R297. A replica that has not taken a change of its entry yet still holds the older one (log 21). -/
def Obligations.Residency : Prop :=
  (∀ (fn : Fin 4) (d a : XReg) (s : State), (s.curH = true → d.val < 16) →
    let i : Instr := if fn = 0 then .rqry d a else if fn = 1 then .rqryFetch d a else if fn = 2 then .rqryPin d a else .rqryUnpin d a
    let e : Fin 1024 := Fin.ofNat 1024 (s.rx a).toNat
    (1024 ≤ (s.rx a).toNat → exec i s = .next (s.trap 2 (s.word.setWidth 64))) ∧
    ((s.rx a).toNat < 1024 → (s.cc.flights s.curH).length < 32 →
      ∃ t : State, ∃ r : Req, exec i s = .next t ∧ t.mem = s.mem ∧ t.net = s.net ++ [r] ∧ r.op = .query fn e ∧ r.src = .core s.cur s.curH s.curPc ∧
        r.ctx = s.cc.slot.ctx ∧ r.phase = .sent ∧ r.flight = some s.nextId ∧ t.dev = s.dev ∧ r.cls = (if fn = 0 then .adp else .ord) ∧
        t.cc.main.x = s.cc.main.x ∧ t.cc.hnd.x = s.cc.hnd.x ∧
        t.cc.flights s.curH = s.cc.flights s.curH ++ [{ s.known d 0 with vals := [], more := true }])) ∧
  (∀ (s : State) (r : Req) (fn : Fin 4) (e : Fin 1024) (k : CoreIx) (h : Bool) (pc : Pc) (f : Nat) (pr : PeerReply),
    s.req r.id = some r → r.op = .query fn e → r.src = .core k h pc → r.phase = .sent → r.loc = false → r.reg = true →
    s.heldBack r = false → r.ext = .zero 8 → r.flight = some f → r.id ∉ s.fab.overdue → s.isTorn (.item r.id) = false →
    let en := s.res e.val
    let near := s.replica (dieOf k.val) e.val
    let word (en : ResEntry) (did : Nat) : Word := natW (en.wbase.toNat + en.pin.toNat * 2 ^ 24 + did + en.state.toNat * 2 ^ 46 +
      (if en.state = 1 then en.xid.toNat else 0) * 2 ^ 48)
    let told (s t : State) (w : Word) : Prop := t.mem = s.mem ∧ (∀ j, t.res j = s.res j) ∧ (∀ q ∈ t.net, q.id ≠ r.id) ∧
      ∀ fl ∈ (s.core k).flights h, fl.id = f → { fl with vals := fl.vals ++ [w], more := false } ∈ (t.core k).flights h
    let done (t : State) (en' : ResEntry) (w : Word) : Prop := t.mem = s.mem ∧ t.res e.val = en' ∧
      (∀ j, j ≠ e.val → t.res j = s.res j) ∧ { r with phase := .answered 0, ga := w } ∈ t.net
    let clash : Prop := ∃ w, w < 1024 ∧ (s.res w).ctx = en.ctx ∧ (s.res w).hgrp = en.hgrp ∧ (s.res w).state ≠ 0 ∧
      (s.res w).wbase.toNat < en.wbase.toNat + en.plen.toNat ∧ en.wbase.toNat < (s.res w).wbase.toNat + (s.res w).plen.toNat
    let victim : Prop := ∃ w, w < 1024 ∧ (s.res w).ctx = en.ctx ∧ (s.res w).state = 2 ∧ (s.res w).pin = 0 ∧ (s.res w).hgrp = en.hgrp ∧
      en.plen.toNat ≤ (s.res w).plen.toNat
    ((fn = 0 ∧ near.ctx ≠ r.ctx) ∨ (fn ≠ 0 ∧ en.ctx ≠ r.ctx) → ∃ t : State, exec (.accessPerform (.own r.id pr)) s = .next t ∧ t.mem = s.mem ∧ (∀ j, t.res j = s.res j) ∧
      { r with phase := .answered 3 } ∈ t.net) ∧
    (fn = 0 → near.ctx = r.ctx → ∃ t : State, exec (.accessPerform (.own r.id pr)) s = .next t ∧ told s t (word near 0)) ∧
    (en.ctx = r.ctx →
      (fn = 2 → ∃ t : State, ∃ en' : ResEntry, exec (.accessPerform (.own r.id pr)) s = .next t ∧
        en' = { en with pin := BitVec.ofNat 8 (min (en.pin.toNat + 1) 255) } ∧ done t en' (word en' 0)) ∧
      (fn = 3 → ∃ t : State, ∃ en' : ResEntry, exec (.accessPerform (.own r.id pr)) s = .next t ∧
        en' = { en with pin := BitVec.ofNat 8 (en.pin.toNat - 1) } ∧ done t en' (word en' 0)) ∧
      (fn = 1 → en.state = 1 ∨ en.state = 2 → ∃ t : State, exec (.accessPerform (.own r.id pr)) s = .next t ∧ done t en (word en 0)) ∧
      (fn = 1 → en.state = 0 → clash → ¬ victim →
        ∃ t : State, exec (.accessPerform (.own r.id pr)) s = .next t ∧ done t en (word en (2 ^ 43))) ∧
      (fn = 1 → en.state = 0 → ¬ clash → 16 ≤ (s.core k).eng.copies.length →
        ∃ t : State, exec (.accessPerform (.own r.id pr)) s = .next t ∧ done t en (word en (2 ^ 44))) ∧
      (∀ x, fn = 1 → en.state = 0 → ¬ clash → (s.core k).eng.copies.length < 16 → x = (s.core k).eng.xid + 1 → x ≠ 0 →
        (∀ y ∈ (s.core k).eng.copies, y.xid ≠ x) → en.plen ≠ 0 → s.members k (Fin.ofNat 256 en.hgrp.toNat) ≠ [] →
        ∃ t : State, ∃ en' : ResEntry, ∃ y : Xfer, exec (.accessPerform (.own r.id pr)) s = .next t ∧ en' = { en with state := 1, xid := x } ∧
          done t en' (word en' (2 ^ 45)) ∧ y ∈ (t.core k).eng.copies ∧ y.xid = x ∧ y.state = .running ∧
          y.fetch = some { entry := e.val, members := (s.members k (Fin.ofNat 256 en.hgrp.toNat)).map (·.val),
                           wbase := en.wbase.toNat, plen := en.plen.toNat, srcVa := en.srcVa.toNat }))) ∧
  (∀ (s : State) (r : Req) (fn : Fin 4) (e : Fin 1024) (k : CoreIx) (h : Bool) (pc : Pc) (f : Nat),
    s.req r.id = some r → r.op = .query fn e → r.src = .core k h pc → r.phase = .answered 0 → r.flight = some f →
    ((∀ p ∈ s.dev.replicas, p.1 / 8 ≠ e.val) → ∃ t : State, exec (.storeAcknowledgement r.id) s = .next t ∧ t.mem = s.mem ∧ t.dev = s.dev ∧
      (∀ q ∈ t.net, q.id ≠ r.id) ∧
      ∀ fl ∈ (s.core k).flights h, fl.id = f → { fl with vals := fl.vals ++ [r.ga], more := false } ∈ (t.core k).flights h) ∧
    ((∃ p ∈ s.dev.replicas, p.1 / 8 = e.val) → exec (.storeAcknowledgement r.id) s = .next s)) ∧
  (∀ (s : State) (r : Req) (k : CoreIx) (h : Bool) (pc : Pc) (e : Fin 1024) (i : Fin 4) (d : Word),
    s.req r.id = some r → r.op = .acc (.store 8 d) → r.src = .core k h pc → r.phase = .sent → r.reg = true → r.loc = false → r.fe = .plain →
    r.flight = none → s.heldBack r = false → s.isTorn (.item r.id) = false → physOf r.sys = 0xF006000000 + 32 * e.val + 8 * i.val →
    let en := s.res e.val
    let ranged (en : ResEntry) : Prop := en.plen.toNat % 64 = 0 ∧ en.plen.toNat ≤ 524288 ∧ en.wbase.toNat % 64 = 0 ∧
      en.wbase.toNat + en.plen.toNat ≤ 0x80000
    let takes (en' : ResEntry) : Prop := ∃ t : State, exec (.residencyEntryStore r.id) s = .next t ∧ t.mem = s.mem ∧ t.res e.val = en' ∧
      (∀ j, j ≠ e.val → t.res j = s.res j) ∧ { r with phase := .answered 0 } ∈ t.net
    let refuses : Prop := ∃ t : State, exec (.residencyEntryStore r.id) s = .next t ∧ t.mem = s.mem ∧ (∀ j, t.res j = s.res j) ∧
      { r with phase := .answered 3 } ∈ t.net
    (en.ctx ≠ r.ctx ∨ en.state = 1 → refuses) ∧
    (en.ctx = r.ctx → en.state ≠ 1 →
      (i = 0 → ranged en → bits d 62 2 = 0 ∨ bits d 62 2 = en.state.toNat →
        takes { en with state := BitVec.ofNat 2 (bits d 62 2), hgrp := BitVec.ofNat 8 (bits d 54 8) }) ∧
      (i = 0 → bits d 62 2 ≠ 0 → bits d 62 2 ≠ en.state.toNat → refuses) ∧
      (i = 1 → ranged en → takes { en with srcVa := BitVec.ofNat 48 (bits d 0 48) }) ∧
      (i = 2 → let en' : ResEntry := { en with plen := BitVec.ofNat 20 (bits d 32 20), wbase := BitVec.ofNat 19 (bits d 0 19) }
        (ranged en' → takes en') ∧ (¬ ranged en' → refuses))))

/-- R34, R35, R248, R37 (the status of a response). A timeout is a lower bound of the tick, and the entry it logs has status 5, core 0 and
SRC 0 (log 4). A reply to a recall is the holder's (log 110). A release by the holder while the region moves lets the head of the queue
have the token (log 106). A tag that no operand gives is `Config.peerTag` (log 24). What a recalled device wrote back is answered before
it replies (log 53). -/
def Obligations.Tokens : Prop :=
  (∀ (d a : XReg) (rel : Bool) (s : State), (s.curH = true → d.val < 16) → (s.cc.flights s.curH).length < 32 →
    ∀ l : Xl, (s.xlate (some (clusterOf s.cur.val)) s.cc.slot.ctx false .any (s.rx a)).2 = .ok l → devOf l.sys = s.own →
    ∃ t : State, ∃ r : Req, exec (if rel then .tokrel d a else .tokacq d a) s = .next t ∧ t.mem = s.mem ∧ t.fab = s.fab ∧ t.net = s.net ++ [r] ∧
      r.op = .tok rel ∧ r.sys = l.sys ∧ r.src = .core s.cur s.curH s.curPc ∧ r.phase = .sent ∧ r.flight = some s.nextId ∧
      t.cc.main.x = s.cc.main.x ∧ t.cc.hnd.x = s.cc.hnd.x ∧
      t.cc.flights s.curH = s.cc.flights s.curH ++ [{ s.known d 0 with vals := [], more := true }]) ∧
  (∀ (d a : XReg) (rel : Bool) (s : State), (s.curH = true → d.val < 16) → (s.cc.flights s.curH).length < 32 →
    ∀ l : Xl, (s.xlate (some (clusterOf s.cur.val)) s.cc.slot.ctx false .any (s.rx a)).2 = .ok l → l.reg = false → devOf l.sys ≠ s.own → s.dev.torn = [] →
    (∀ q ∈ s.net, devOf q.sys ≠ devOf l.sys) → (∀ q ∈ s.net, q.id < s.nextId) →
    let i : Instr := if rel then .tokrel d a else .tokacq d a
    (∀ p, s.route (devOf l.sys) .ord true = .ok p → (s.peer (devOf l.sys)).enc = false →
      (rel = true → ∀ c ∈ s.fab.cache, c.1 / 2 ^ 34 = devOf l.sys → c.1 / 2 ^ 15 % 2 ^ 19 = physOf l.sys / 2 ^ 21 → c.2.dirty = 0) →
      ∃ t : State, ∃ r : Req, exec i s = .next t ∧ t.mem = s.mem ∧ t.net = s.net ++ [r] ∧ r.op = .tok rel ∧ r.sys = l.sys ∧ r.phase = .sent ∧ r.plane = some p ∧
        r.due = s.now + max 1 s.fab.rspTimeout.toNat * 1800 ∧ r.flight = some s.nextId ∧
        (rel = false → t.fab.out = s.fab.out ++ [.tokAsk l.sys false] ∧ t.fab.held = s.fab.held) ∧
        (rel = true → (∀ c ∈ s.fab.cache, ¬ (c.1 / 2 ^ 34 = devOf l.sys ∧ c.1 / 2 ^ 15 % 2 ^ 19 = physOf l.sys / 2 ^ 21)) →
          t.fab.out = s.fab.out ++ [.tokAsk l.sys true] ∧
          t.fab.held = s.fab.held.filter (· != (devOf l.sys, physOf l.sys / 2 ^ 21)))) ∧
    (∀ st, s.route (devOf l.sys) .ord true = .error st →
      ∃ t : State, ∃ r : Req, exec i s = .next t ∧ t.mem = s.mem ∧ t.fab = s.fab ∧ t.net = s.net ++ [r] ∧ r.op = .tok rel ∧ r.phase = .answered st)) ∧
  (∀ (s : State) (r : Req) (rel : Bool) (k : CoreIx) (h : Bool) (pc : Pc) (f : Nat) (q : Fin 16) (p : PeerReply),
    s.req r.id = some r → r.op = .tok rel → r.src = .core k h pc → r.phase = .sent → r.loc = false → r.reg = false → devOf r.sys ≠ s.own →
    r.plane = some q → s.heldBack r = false → r.ext = .zero 8 → r.flight = some f → r.id ∉ s.fab.overdue → (s.peer (devOf r.sys)).enc = false →
    s.isTorn (.item r.id) = false →
    let key := (devOf r.sys, physOf r.sys / 2 ^ 21)
    let st := bits p.data 0 8
    let x := xstatOf p
    (x = 0 → ∃ t : State, exec (.accessPerform (.own r.id p)) s = .next t ∧ t.mem = s.mem ∧ (∀ q ∈ t.net, q.id ≠ r.id) ∧
      (key ∈ t.fab.held ↔ key ∈ s.fab.held ∨ (rel = false ∧ (st = 0 ∨ st = 1 ∨ st = 3))) ∧
      ∀ fl ∈ (s.core k).flights h, fl.id = f → { fl with vals := fl.vals ++ [natW st], more := false } ∈ (t.core k).flights h) ∧
    (x ≠ 0 → ∃ t : State, exec (.accessPerform (.own r.id p)) s = .next t ∧ t.mem = s.mem ∧ t.cores = s.cores ∧ t.fab.held = s.fab.held ∧
      { r with phase := .answered (if 10 ≤ x.toNat then 2 else x) } ∈ t.net)) ∧
  (∀ (s : State) (g : BitVec 19) (dev : Fin 1024) (i : Instr), (s.peer dev.val).enc = true →
    (i = .tokenAcquire g (.peer dev) ∨ i = .tokenRelease g (.peer dev) ∨ i = .tokenRecall dev g ∨
      (i = .recallReply g ∧ (s.token g.toNat).moving = true ∧ (s.token g.toNat).recallDue ≠ none ∧ (s.token g.toNat).holder = dev)) →
    ∃ t : State, exec i s = .next t ∧ (Config.peerTag s.free = false →
      t.mem = s.mem ∧ t.fab.tokens = s.fab.tokens ∧ t.fab.held = s.fab.held ∧ t.fab.out = s.fab.out ∧ t.fab.tagFails = s.fab.tagFails + 1)) ∧
  (∀ (s : State) (g : BitVec 19) (dev : Fin 1024), (∀ p, s.keySpent (s.peer p) = false) → (∀ r ∈ s.net, ∀ due, r.phase ≠ .waiting due) →
    (s.peer dev.val).enc = false →
    let t0 := s.token g.toNat
    let leaves (t : State) (tok : TokEntry) (out : List FabOut) : Prop :=
      t.mem = s.mem ∧ t.cores = s.cores ∧ t.net = s.net ∧ t.token g.toNat = tok ∧ (∀ n, n ≠ g.toNat → t.token n = s.token n) ∧
      t.fab.out = s.fab.out ++ out
    (s.fab.domainEn = false → ∀ i : Instr, (i = .tokenAcquire g (.peer dev) ∨ i = .tokenRelease g (.peer dev)) →
      ∃ t : State, ∃ hdr, exec i s = .next t ∧ t.fab.tokens = s.fab.tokens ∧ t.mem = s.mem ∧ t.fab.out = s.fab.out ++ [.reply dev 3 hdr 0]) ∧
    (s.fab.domainEn = true →
    (t0.holder = dev → ∃ t : State, exec (.tokenAcquire g (.peer dev)) s = .next t ∧ leaves t t0 [.token dev g.toNat 1]) ∧
    (t0.holder ≠ dev → t0.checked = false → ∃ t : State, exec (.tokenAcquire g (.peer dev)) s = .next t ∧ leaves t t0 [.token dev g.toNat 2]) ∧
    (t0.holder ≠ dev → t0.checked = true → t0.holder = s.fab.devid → t0.queue = [] →
      ∃ t : State, exec (.tokenAcquire g (.peer dev)) s = .next t ∧ leaves t { t0 with holder := dev } [.token dev g.toNat 0]) ∧
    (t0.holder ≠ dev → t0.checked = true → t0.holder ≠ s.fab.devid → t0.moving = false → t0.queue = [] →
      let asked : TokEntry := { t0 with queue := [.peer dev], moving := true, recallDue := some (s.now + max 1 s.fab.tokTimeout.toNat * 1800) }
      (∀ p, s.route t0.holder.val .ord true = .ok p →
        ∃ t : State, exec (.tokenAcquire g (.peer dev)) s = .next t ∧ leaves t asked [.recall t0.holder g.toNat]) ∧
      (∀ st, s.route t0.holder.val .ord true = .error st →
        ∃ t : State, exec (.tokenAcquire g (.peer dev)) s = .next t ∧ leaves t asked [])) ∧
    (t0.holder ≠ dev → t0.checked = true → t0.moving = true → t0.holder ≠ s.fab.devid → t0.queue.head? ≠ some (.peer t0.holder) →
      (∀ p, t0.queue.head? = some p → partyDev s.fab.devid p ≠ t0.holder) →
      ∃ t : State, exec (.tokenAcquire g (.peer dev)) s = .next t ∧ leaves t { t0 with queue := t0.queue ++ [.peer dev] } []) ∧
    (t0.holder = dev → t0.moving = false →
      ∃ t : State, exec (.tokenRelease g (.peer dev)) s = .next t ∧ leaves t { t0 with holder := s.fab.devid } [.token dev g.toNat 4]) ∧
    (∀ q, t0.holder = dev → t0.moving = true → t0.queue = [.peer q] → (∀ p, (s.peer p).enc = false) →
      ∃ t : State, exec (.tokenRelease g (.peer dev)) s = .next t ∧
        leaves t { t0 with holder := q, queue := [], moving := false, recallDue := none } [.token dev g.toNat 4, .token q g.toNat 0]) ∧
    (t0.holder ≠ dev → ∃ t : State, exec (.tokenRelease g (.peer dev)) s = .next t ∧ leaves t t0 [.token dev g.toNat 5])) ∧
    (∀ due, t0.moving = true → t0.recallDue = some due → t0.queue = [.peer dev] →
      ((s.peer t0.holder.val).enc = false → ∃ t : State, exec (.recallReply g) s = .next t ∧
        leaves t { t0 with queue := [], holder := dev, moving := false, recallDue := none } [.token dev g.toNat 0]) ∧
      (due ≤ s.now → t0.holder ≠ s.fab.devid →
        ∃ t : State, exec (.tokTimeout g) s = .next t ∧ t.mem = s.mem ∧ t.cores = s.cores ∧
          t.token g.toNat = { t0 with queue := [], holder := dev, moving := false, recallDue := none } ∧
          t.fab.out = s.fab.out ++ [.token dev g.toNat 3] ∧
          ∃ (die : Nat) (e : Nat × VlogEntry), look Vlog.reset t.dev.vlogs die ≠ look Vlog.reset s.dev.vlogs die ∧
            e ∈ (look Vlog.reset t.dev.vlogs die).entries ∧ e.2.status = 5 ∧
            e.2.dev = BitVec.ofNat 10 t0.holder.val ∧ e.2.addr = sysOf s.own (g.toNat * 2 ^ 21)) ∧
      (s.now < due → exec (.tokTimeout g) s = .next s)) ∧
    (t0.recallDue = none → exec (.recallReply g) s = .next s ∧ exec (.tokTimeout g) s = .next s)) ∧
  (∀ (s : State) (k : CoreIx) (d : XReg) (f : Nat) (g : BitVec 19) (r : Req) (rel : Bool),
    (∀ q ∈ s.net, ∀ due, q.phase ≠ .waiting due) →
    r ∈ s.net → r.flight = some f → r.src.coreOf = k → r.op = .tok rel → r.phase = .sent → r.reg = false → devOf r.sys = s.own →
    physOf r.sys / 2 ^ 21 = g.toNat → (∀ q ∈ s.net, q.flight = some f → q = r) → (∀ fl ∈ (s.core k).hnd.flights, fl.id ≠ f) →
    let t0 := s.token g.toNat
    let lands (t : State) (st : Word) : Prop := t.mem = s.mem ∧ r ∉ t.net ∧
      ∀ fl ∈ (s.core k).main.flights, fl.id = f → { fl with vals := fl.vals ++ [st], more := false } ∈ (t.core k).main.flights
    (rel = false → t0.holder = s.fab.devid → ∃ t : State, exec (.tokenAcquire g (.core k d f)) s = .next t ∧ lands t 1 ∧ t.fab = s.fab) ∧
    (rel = false → t0.holder ≠ s.fab.devid → t0.checked = false →
      ∃ t : State, exec (.tokenAcquire g (.core k d f)) s = .next t ∧ lands t 2 ∧ t.fab = s.fab) ∧
    (rel = true → t0.holder = s.fab.devid → t0.moving = false → ∃ t : State, exec (.tokenRelease g (.core k d f)) s = .next t ∧ lands t 4 ∧
      t.token g.toNat = t0) ∧
    (rel = true → t0.holder ≠ s.fab.devid → ∃ t : State, exec (.tokenRelease g (.core k d f)) s = .next t ∧ lands t 5 ∧ t.fab = s.fab)) ∧
  (∀ (s : State) (dev : Fin 1024) (g : BitVec 19), (s.peer dev.val).enc = false →
    let here (key : Nat) : Prop := key / 2 ^ 34 = dev.val ∧ key / 2 ^ 15 % 2 ^ 19 = g.toNat
    (s.fab.domainEn = false → ∃ t : State, ∃ hdr, exec (.tokenRecall dev g) s = .next t ∧ t.mem = s.mem ∧ t.fab.held = s.fab.held ∧
      t.fab.cache = s.fab.cache ∧ t.fab.out = s.fab.out ++ [.reply dev 3 hdr 0]) ∧
    (s.fab.domainEn = true →
      ((∃ r ∈ s.net, r.phase = .sent ∧ r.touches dev.val g.toNat = true) → exec (.tokenRecall dev g) s = .next s) ∧
      ((∀ r ∈ s.net, r.phase = .sent → r.touches dev.val g.toNat = false) →
        ((∀ c ∈ s.fab.cache, here c.1 → c.2.dirty = 0) →
          ∃ t : State, exec (.tokenRecall dev g) s = .next t ∧ t.mem = s.mem ∧ t.cores = s.cores ∧ t.net = s.net ∧
            t.fab.held = s.fab.held.filter (· != (dev.val, g.toNat)) ∧ (∀ c ∈ t.fab.cache, ¬ here c.1) ∧
            t.fab.out = s.fab.out ++ [.recallReply dev g.toNat]) ∧
        (∀ key l p, here key → key < 2 ^ 44 → lookup s.fab.cache key = some l → l.dirty ≠ 0 → s.route dev.val .ord true = .ok p →
          ∃ t : State, ∃ ws, exec (.tokenRecall dev g) s = .next t ∧ t.mem = s.mem ∧ t.cores = s.cores ∧ t.fab.held = s.fab.held ∧
            (∀ c ∈ t.fab.cache, ¬ here c.1) ∧ t.net = s.net ++ ws ∧
            (∀ r ∈ ws, r.src = .cache ∧ r.cls = .ord ∧ r.phase = .sent ∧ r.tokchk = true) ∧
            (∀ i, i < 8 → l.dirty.getLsbD i = true →
              ∃ r ∈ ws, r.sys.toNat = key * 64 + 8 * i ∧ r.op = .acc (.store 8 (natW (l.data.toNat / 2 ^ (64 * i))))) ∧
            ∀ o ∈ t.fab.out, o ∈ s.fab.out ∨ o ≠ .recallReply dev g.toNat))))

/-- R131 to R136, R300. A landing is stated for one row of at most 4,096 bytes between two places of the core's own window; the
words move one by one, so that the ranges do not overlap. -/
def Obligations.Copies : Prop :=
  (∀ (d : XReg) (s : State), (s.curH = true → d.val < 16) → (s.cc.flights s.curH).length < 32 →
    let c := s.cc
    let r := c.eng.cp
    let n (i : Fin 3) : Nat := bits r.count[i] 0 32
    let total := n 0 * n 1 * n 2 * (bits r.flags 0 24 * 8)
    let bad : Prop := bits r.cls 0 2 = 3 ∨ bits r.cls 2 62 ≠ 0 ∨ bits r.flags 24 37 ≠ 0 ∨ bits r.flags 0 24 = 0 ∨ r.src.toNat % 8 ≠ 0 ∨
      r.dst.toNat % 8 ≠ 0 ∨ (bit r.flags 63 = true ∧ r.idx.toNat % 4 ≠ 0) ∨
      ∃ i : Fin 3, bits r.count[i] 32 32 ≠ 0 ∨ bits r.stride[i] 32 32 % 8 ≠ 0 ∨ bits r.stride[i] 0 32 % 8 ≠ 0
    (16 ≤ c.eng.copies.length → ∃ t : State, exec (.cpLaunch d) s = .next t ∧ t.mem = s.mem ∧ t.cc.eng = c.eng ∧
      t.cc.flights s.curH = c.flights s.curH ++ [s.known d 0]) ∧
    (∀ x, c.eng.copies.length < 16 → x = c.eng.xid + 1 → x ≠ 0 → (∀ y ∈ c.eng.copies, y.xid ≠ x) →
      let owed : Flight := { s.known d (x.setWidth 64) with id := s.nextId + 1 }
      let ends (st : BitVec 8) : Prop := ∃ t : State, exec (.cpLaunch d) s = .next t ∧ t.mem = s.mem ∧ t.cc.main.x = c.main.x ∧
        t.cc.flights s.curH = c.flights s.curH ++ [owed] ∧
        (c.Takes → ∃ m : Msg, t.cc.evt.inbox = c.evt.inbox ++ [m] ∧ m.kind = 0x20 ∧ m.status = st ∧ m.xid = x ∧ m.payload = 0)
      let starts (st : XferState) (k : Nat) : Prop := ∃ t : State, ∃ y : Xfer, exec (.cpLaunch d) s = .next t ∧ t.mem = s.mem ∧ t.cc.main.x = c.main.x ∧
        t.cc.flights s.curH = c.flights s.curH ++ [owed] ∧ t.cc.eng.copies = c.eng.copies ++ [y] ∧ y.xid = x ∧ y.regs = r ∧
        y.priv = s.privNow ∧ y.state = st ∧ y.base = 0 ∧ y.started = k ∧ y.landed = [] ∧ y.ended = false ∧ t.cc.evt.inbox = c.evt.inbox
      (bad → ends 1) ∧
      (¬ bad → total = 0 → ends 0) ∧
      (¬ bad → total ≠ 0 → bit r.flags 62 = true → starts .prepared 0) ∧
      (¬ bad → total ≠ 0 → bit r.flags 62 = false → starts .running (min ((total + 4095) / 4096) 4)))) ∧
  (∀ (s : State) (x : Xfer) (n : Nat), s.Canonical → s.net = [] → s.cc.eng.copies.find? (·.xid == x.xid) = some x →
    let c := s.cc
    let r := x.regs
    x.state = .running → x.ended = false → x.fetch = none → x.base = 0 → x.started = 1 → x.landed = [] → x.lost = [] → x.failed = none →
    (∀ i : Fin 3, bits r.count[i] 0 32 = 1) → bit r.flags 63 = false → n = bits r.flags 0 24 * 8 → 0 < n → n ≤ 4096 →
    r.src.toNat % 8 = 0 → r.dst.toNat % 8 = 0 → s.OwnWindow r.src n → s.OwnWindow r.dst n →
    let a := bits r.src 0 32
    let b := bits r.dst 0 32
    (a + n ≤ b ∨ b + n ≤ a) → c.evt.records = [] →
    ∃ t : State, exec (.copyChunkLanding s.cur x.xid 0) s = .next t ∧ StoredAt s.mem t.mem b n (readLE s.mem a n) ∧ t.cc.main = c.main ∧
      (c.Takes → (∀ y ∈ t.cc.eng.copies, y.xid ≠ x.xid) ∧
        ∃ m : Msg, t.cc.evt.inbox = c.evt.inbox ++ [m] ∧ m.kind = 0x20 ∧ m.status = 0 ∧ m.xid = x.xid ∧ m.payload = natW n)) ∧
  (∀ (d a b : XReg) (mode : ReplayMode) (s : State), (s.curH = true → d.val < 16) →
    let i : Instr := .cpreplay d a b mode
    let k : CoreIx := Fin.ofNat 4096 (s.rx a).toNat
    let id : BitVec 16 := BitVec.ofNat 16 (s.rx b).toNat
    let fit : Prop := (s.rx a).toNat < 4096 ∧ (s.rx b).toNat < 65536
    let named : Prop := s.cc.slot.lrank = 0 ∧ (s.core k).slot.lid = s.cc.slot.lid ∧ (s.core k).slot.st ≠ .idle
    (¬ fit → exec i s = .next (s.trap 2 (s.word.setWidth 64))) ∧
    (fit → s.privNow = false → exec i s = .next (s.trap 3 (s.word.setWidth 64))) ∧
    (s.privNow = true → fit → (s.cc.flights s.curH).length < 32 →
      (¬ named → exec i s = .next (s.flyX d 2)) ∧
      (named → (∀ y ∈ (s.core k).eng.copies, y.xid = id → y.state ≠ .suspended ∨ y.ended = true) → exec i s = .next (s.flyX d 1)) ∧
      (∀ y, named → (s.core k).eng.copies.find? (·.xid == id) = some y → y.state = .suspended → y.ended = false →
        (mode = .resume → ∃ t : State, ∃ z : Xfer, exec i s = .next t ∧ t.mem = s.mem ∧ z ∈ (t.core k).eng.copies ∧ z.xid = id ∧ z.state = .running ∧
          z.base = y.cursor / 4096 ∧ z.landed = [] ∧ z.failed = none ∧ z.regs = y.regs ∧
          t.cc.flights s.curH = s.cc.flights s.curH ++ [s.known d 0]) ∧
        (mode = .abandon → ∃ t : State, exec i s = .next t ∧ t.mem = s.mem ∧ t.cc.main.x = s.cc.main.x ∧
          t.cc.flights s.curH = s.cc.flights s.curH ++ [s.known d 0] ∧
          ((s.core k).Takes → ∃ m : Msg, (t.core k).evt.inbox = (s.core k).evt.inbox ++ [m] ∧ m.kind = 0x20 ∧ m.status = 2 ∧ m.xid = id ∧
            m.payload = natW y.cursor)))))

/-- R38 to R47, R298, R299, R71. Plays are stated for graphs of SEND and COPY operations beside the operation at issue, and while
another operation is ready, so that the play goes on. By the model's choice (log 101) status 7 of a bad trigger entry names 0xFFF, a
chunk goes out as one request, status 6 of an arming comes before 4, 7 before 5 and 5 before 6 of a trigger entry, and status 6 of a play
goes to the issuing core. By its choice too (log 99) a contribution with an uncorrectable word faults the REDUCE with cause 5 and its
destination. -/
def Obligations.Convoys : Prop :=
  (∀ (a b : XReg) (s : State),
    let g : Fin 16 := Fin.ofNat 16 (s.rx b).toNat
    (16 ≤ (s.rx b).toNat → exec (.cvarm a b) s = .next (s.trap 2 (s.word.setWidth 64))) ∧
    ((s.rx b).toNat < 16 → (s.rx a).toNat % 64 ≠ 0 → exec (.cvarm a b) s = .next (s.trap 1 (s.rx a))) ∧
    ((s.rx b).toNat < 16 → (s.rx a).toNat % 64 = 0 →
      exec (.cvarm a b) s = .next { s with convoy := { s.convoy with
        arms := s.convoy.arms ++ [(g, { core := s.cur, lid := s.cc.slot.lid, ctx := s.cc.slot.ctx, image := s.rx a })] } })) ∧
  (∀ (v : VReg) (b : XReg) (s : State),
    (16 ≤ (s.rx b).toNat → exec (.cvplay v b) s = .next (s.trap 2 (s.word.setWidth 64))) ∧
    ((s.rx b).toNat < 16 → s.SeqIdle →
      let r : PlayReq := { core := s.cur, lid := s.cc.slot.lid, ctx := s.cc.slot.ctx, bases := (List.range 8).map (dword (s.cc.vView s.curH v)),
                           stamp := s.nextId }
      ∃ t : State, exec (.cvplay v b) s = .next t ∧ t.mem = s.mem ∧ t.cc = s.cc ∧ (∀ k, t.core k = s.core k) ∧
        t.convoy = { s.convoy with plays := s.convoy.plays ++ [(Fin.ofNat 16 (s.rx b).toNat, r)] })) ∧
  (∀ (s : State) (g : Fin 16) (r : ArmReq), s.convoy.arms.find? (·.1 = g) = some (g, r) →
    let e : Instr := .convoyArmComplete g
    let s1 : State := { s with convoy := { s.convoy with arms := s.convoy.arms.erase (g, r) } }
    let bound (u : State) : Prop := (u.core r.core).slot.st ≠ .idle ∧ (u.core r.core).slot.lid = r.lid
    let tells (u : State) (st : BitVec 8) (p : Nat) : Prop := bound u → ∃ t : State, exec e s = .next t ∧ t.mem = u.mem ∧ t.convoy = u.convoy ∧
      u.Told t r.core { kind := 0x41, status := st, source := BitVec.ofNat 16 g.val, xid := 0, payload := natW p }
    let mine : Prop := ∀ x, s.graph g = some x → x.ctx = r.ctx ∧ x.armed = true ∧ x.run = none ∧ x.queued = none
    (∀ x, s.graph g = some x → x.ctx ≠ r.ctx ∨ x.armed = false → tells s1 6 0) ∧
    (∀ x, s.graph g = some x → x.ctx = r.ctx → x.armed = true → x.run ≠ none ∨ x.queued ≠ none → tells s1 4 0) ∧
    (r.image = 0 → s.graph g = none → tells s1 6 0) ∧
    (r.image = 0 → s.graph g ≠ none → mine → bound s →
      ∃ t : State, exec e s = .next t ∧ t.mem = s.mem ∧ t.graph g = none ∧ (∀ j, j ≠ g → t.graph j = s.graph j) ∧
        (∀ p ∈ t.convoy.slots, ∀ q i, p.2.key ≠ some (g, q, i)) ∧
        s1.Told t r.core { kind := 0x41, status := 0, source := BitVec.ofNat 16 g.val, xid := 0, payload := 0 }) ∧
    (∀ (s2 : State) (ws : List Word), r.image ≠ 0 → mine →
      let acc : Acc := { ctx := r.ctx, cl := none, core := r.core.val, src := 2, row := .copy, cls := .adp, eng := true }
      State.readDws acc 8 s1 r.image = (s2, .ok (ws.take 8)) →
      (¬ HeaderOk (ws.take 8) → tells s2 7 (0xFFF * 2 ^ 52)) ∧
      (∀ s3, HeaderOk (ws.take 8) → ws.length = 24 + 2 * imgTrigs ws + 4 * imgOps ws →
        State.readDws acc (16 + 2 * imgTrigs ws + 4 * imgOps ws) s2 (r.image + 64) = (s3, .ok (ws.drop 8)) →
        let others : List Graph := (s3.convoy.graphs.filter fun p => p.1 ≠ g.val).map (·.2)
        let used := (others.map (·.ops.length)).sum
        let tb := bits (ws.getD 0 0) 8 8
        let apart : Prop := ∀ x ∈ others, x.armed = true → imgTrigs ws = 0 ∨ bits x.header 16 8 = 0 ∨
          tb + imgTrigs ws ≤ bits x.header 8 8 ∨ bits x.header 8 8 + bits x.header 16 8 ≤ tb
        let good : Prop := ListsOk ws ∧ ∀ i, i < imgOps ws → RecordOk s3.own ws i
        (¬ ListsOk ws → tells s3 7 (0xFFF * 2 ^ 52)) ∧
        (∀ i, ListsOk ws → i < imgOps ws → ¬ RecordOk s3.own ws i → (∀ j, j < i → RecordOk s3.own ws j) → tells s3 7 (i * 2 ^ 52)) ∧
        (good → 16384 < used + imgOps ws → tells s3 5 0) ∧
        (good → used + imgOps ws ≤ 16384 → ¬ apart → tells s3 6 0) ∧
        (good → used + imgOps ws ≤ 16384 → apart → bound s3 →
          ∃ t : State, ∃ x : Graph, exec e s = .next t ∧ t.mem = s3.mem ∧ t.graph g = some x ∧ x.ctx = r.ctx ∧ x.core = r.core ∧ x.lid = r.lid ∧ x.armed = true ∧
            x.header = ws.getD 0 0 ∧ x.play = 0 ∧ x.run = none ∧ x.queued = none ∧ x.ops.length = imgOps ws ∧
            (∀ i, i < imgOps ws → x.op i = { w0 := imgRec ws i 0, w1 := imgRec ws i 1, w2 := imgRec ws i 2 }) ∧
            (∀ i, i < imgPeers ws → x.dev i = bits (ws.getD (8 + i / 4) 0) (16 * (i % 4)) 16) ∧
            (∀ i, i < imgTrigs ws → x.trigs[i]? = some ((ws.getD (24 + 2 * i) 0).setWidth 128)) ∧
            (∀ j, j ≠ g → t.graph j = s3.graph j) ∧
            s3.Told t r.core { kind := 0x41, status := 0, source := BitVec.ofNat 16 g.val, xid := 0, payload := 0 }))) ) ∧
  (∀ (s : State) (g : Fin 16) (r : PlayReq), s.convoy.plays.find? (·.1 = g) = some (g, r) → s.convoy.fired = [] →
    let e : Instr := .playStart g
    let plays := s.convoy.plays.erase (g, r)
    let refused (k : CoreIx) (lid : BitVec 16) (st : BitVec 8) : Prop := (s.core k).slot.st ≠ .idle → (s.core k).slot.lid = lid →
      ∃ t : State, exec e s = .next t ∧ t.mem = s.mem ∧ t.convoy = { s.convoy with plays := plays } ∧
        s.Told t k { kind := 0x40, status := st, source := BitVec.ofNat 16 g.val, xid := 0, payload := 0 }
    let started (x : Graph) (bases : List Word) (left : List (Fin 16 × PlayReq)) : Prop :=
      (∀ o ∈ x.ops, bits o.w0 60 4 = 1 ∨ bits o.w0 60 4 = 4) → (∃ o ∈ x.ops, bits o.w0 36 12 = 0) → x.nextTrigs = [] →
      ∃ t : State, ∃ p : Play, exec e s = .next t ∧ t.mem = s.mem ∧ (∀ k, t.core k = s.core k) ∧ t.convoy.plays = left ∧
        (∀ j, j ≠ g → t.graph j = s.graph j) ∧
        t.graph g = some { x with play := x.play + 1, run := some p, queued := none, bases := bases } ∧ p.bases = bases ∧
        p.ops = x.ops.map (fun o => if bits o.w0 36 12 = 0 then .ready else .waiting (bits o.w0 36 12)) ∧
        p.flags = 0 ∧ p.partials = [] ∧ p.lates = 0 ∧ p.fault = none ∧ p.progress = s.now ∧ p.landing = []
    let performed : Prop := (∀ q ∈ s.net, ∀ h pc, q.src ≠ .core r.core h pc) ∧ (s.core r.core).portWrites = []
    (∀ x b, s.graph g = some x → x.run = none → x.queued = some b → started x b s.convoy.plays) ∧
    ((∃ q ∈ s.net, ∃ h pc n d, q.src = .core r.core h pc ∧ q.id < r.stamp ∧ q.op = .acc (.store n d) ∧ q.phase = .sent) →
      (∀ x, s.graph g = some x → x.run ≠ none ∨ x.queued = none) → exec e s = .next s) ∧
    ((∃ w ∈ (s.core r.core).portWrites, w.stamp < r.stamp) → (∀ x, s.graph g = some x → x.run ≠ none ∨ x.queued = none) →
      exec e s = .next s) ∧
    (performed → s.graph g = none → refused r.core r.lid 6) ∧
    (∀ x, performed → s.graph g = some x → x.run ≠ none ∨ x.queued = none → x.armed = false ∨ x.ctx ≠ r.ctx → refused r.core r.lid 6) ∧
    (∀ x, performed → s.graph g = some x → x.armed = true → x.ctx = r.ctx →
      (x.run ≠ none → x.queued ≠ none → refused x.core x.lid 4) ∧
      (x.run ≠ none → x.queued = none → ∃ t : State, exec e s = .next t ∧ t.mem = s.mem ∧ (∀ k, t.core k = s.core k) ∧
        t.convoy.plays = plays ∧ (∀ j, j ≠ g → t.graph j = s.graph j) ∧ t.graph g = some { x with queued := some r.bases }) ∧
      (x.run = none → x.queued = none → started x r.bases plays))) ∧
  (∀ (s : State) (g : Fin 16) (op : BitVec 12) (x : Graph) (p : Play), s.graph g = some x → x.run = some p → s.convoy.fired = [] →
    let i := op.toNat
    let o := x.op i
    let ticks := max 1 s.dev.cvTimeout.toNat * 1800
    i < x.ops.length → p.ops.length = x.ops.length → (∀ y ∈ p.lost, y.1 ≠ i) →
    (∀ j, j < x.ops.length → j ≠ i → bits (x.op j).w0 60 4 = 1 ∨ bits (x.op j).w0 60 4 = 4) →
    (∃ j, j < x.ops.length ∧ j ≠ i ∧ p.st j = .ready) →
    let succs : List Nat := [bits o.w0 24 12, bits o.w0 12 12].take (bits o.w0 10 2)
    let src := p.bases.getD (bits o.w1 61 3) 0 + natW (bits o.w2 32 32)
    let dst := p.bases.getD (bits o.w1 58 3) 0 + natW (bits o.w2 0 32)
    let len := 64 * bits o.w1 45 13
    let after (j : Nat) : OpState :=
      let n := (succs.filter (· = j)).length
      if j = i then .done else match p.st j with
        | .waiting k => if n = 0 then .waiting k else if k ≤ n then .ready else .waiting (k - n)
        | z => z
    let completes (ev : Instr) (mem : List Host.Cell) (lates : Nat) (partials : List (Nat × BitVec 16)) (flags : BitVec 4) : Prop :=
      ∃ t : State, ∃ q : Play, exec ev s = .next t ∧ t.mem = mem ∧ t.graph g = some { x with run := some q } ∧ (∀ j, j < x.ops.length → q.st j = after j) ∧
        q.lates = lates ∧ q.partials = partials ∧ q.fault = p.fault ∧ q.flags = flags ∧ q.bases = p.bases
    let fails (ev : Instr) (cause : BitVec 4) (ga : Word) : Prop :=
      ∃ t : State, ∃ q : Play, exec ev s = .next t ∧ t.graph g = some { x with run := some q } ∧
        (∀ j, j < x.ops.length → q.st j = if j = i then .failed else match p.st j with
          | .waiting k => if j ∈ succs then .barred else .waiting k
          | z => z) ∧ q.lates = p.lates ∧
        (p.fault = none → q.fault = some (i, cause, ga.setWidth 48))
    let reads (s1 : State) (bs : List Byte) : Prop := State.readAll (x.acc .copy) len s src = (s1, .ok bs)
    (∀ oc s1 bs s2, bits o.w0 60 4 = 4 → p.st i = .ready → reads s1 bs → State.writeAll (x.acc .copy) bs s1 dst = (s2, .ok ()) →
      completes (.convoyOpComplete g op oc) s2.mem p.lates p.partials p.flags) ∧
    (∀ oc s1 ga, bits o.w0 60 4 = 4 → p.st i = .ready → State.readAll (x.acc .copy) len s src = (s1, .error (ga, .fault)) →
      fails (.convoyOpComplete g op oc) 4 ga) ∧
    (∀ (retry : Bool) (r : PeerReply) s1 bs z, bits o.w0 60 4 = 1 → p.st i = .ready →
      (if retry then (∃ t0, p.sends.find? (·.1 = i) = some (i, t0)) else ∀ y ∈ p.sends, y.1 ≠ i) →
      reads s1 bs → x.dev (bits o.w1 39 6) ≠ s1.own → s1.route (x.dev (bits o.w1 39 6)) .adp true = .ok z →
      s1.now = s.now → s1.dev.cvTimeout = s.dev.cvTimeout → s1.graph g = some x →
      let d := x.dev (bits o.w1 39 6)
      let ev : Instr := if retry then .convoySendRetry g op r else .convoyOpComplete g op (.answered r)
      let sent := bits r.hdr 12 4
      let good : Prop := (s1.peer d).xt = false ∨ crcMatches (sysOf d 0x8000000000) r.hdr [] = true
      let st : Nat := if 10 ≤ sent then 2 else sent
      let late := bit r.hdr 2
      let silent (n : Nat) : Prop :=
        ∃ t : State, ∃ q : Play, exec ev s = .next t ∧ t.mem = s1.mem ∧ t.graph g = some { x with run := some q } ∧ q.ops = p.ops ∧ q.sends = p.sends ∧
          q.lost = p.lost ++ [(i, s1.now + max 1 s1.fab.rspTimeout.toNat * 1800)] ∧ t.fab.tagFails = n
      ((s1.peer d).enc = true → r.tagOk = false → silent (s1.fab.tagFails + 1)) ∧
      (((s1.peer d).enc = true → r.tagOk = true) →
        (good → st = 9 → silent s1.fab.tagFails) ∧
        (good → st = 0 → retry = false → completes ev s1.mem p.lates p.partials p.flags) ∧
        (good → st = 3 → late = true → completes ev s1.mem (p.lates + 1) p.partials p.flags) ∧
        (good → st = 7 → retry = false → ∃ t : State, ∃ q : Play, exec ev s = .next t ∧ t.mem = s1.mem ∧ t.graph g = some { x with run := some q } ∧
          q.ops = p.ops ∧ q.sends = p.sends ++ [(i, s1.now)] ∧ q.lates = p.lates) ∧
        (∀ t0, good → p.sends.find? (·.1 = i) = some (i, t0) →
          (st = 0 → s.now ≤ t0 + ticks → completes ev s1.mem p.lates p.partials p.flags) ∧
          (st = 0 → t0 + ticks < s.now → completes ev s1.mem (p.lates + 1) p.partials p.flags) ∧
          (st = 7 → t0 + ticks ≤ s.now → completes ev s1.mem (p.lates + 1) p.partials p.flags) ∧
          (st = 7 → s.now < t0 + ticks → ∃ t : State, exec ev s = .next t ∧ t.mem = s1.mem ∧ t.graph g = s1.graph g)) ∧
        (¬ good ∨ (st ≠ 0 ∧ st ≠ 7 ∧ st ≠ 9 ∧ (st = 3 → late = false)) → fails ev 5 src))) ∧
    (∀ r, p.st i = .ready → (∀ y ∈ p.sends, y.1 ≠ i) → exec (.convoySendRetry g op r) s = .next s) ∧
    (∀ t0, p.st i = .timed t0 →
      (s.now < t0 + ticks → exec (.cvTimeout g op) s = .next s) ∧
      (bits o.w0 60 4 = 2 → t0 + ticks ≤ s.now → completes (.cvTimeout g op) s.mem p.lates (p.partials ++ [(i, 1)]) p.flags) ∧
      (bits o.w0 60 4 = 3 → t0 + ticks ≤ s.now →
        ((s.slot (bits o.w0 48 6)).staged = [] ∨ (s.slot (bits o.w0 48 6)).key ≠ some (g, x.play, i)) → 1 ≤ bits o.w1 34 5 → bits o.w1 34 5 ≤ 16 →
        completes (.cvTimeout g op) s.mem p.lates (p.partials ++ [(i, BitVec.ofNat 16 (2 ^ bits o.w1 34 5 - 1))]) p.flags) ∧
      (∀ c s2, bits o.w0 60 4 = 3 → t0 + ticks ≤ s.now → 2 ≤ bits o.w1 34 5 → bits o.w1 34 5 ≤ 16 →
        s.slot (bits o.w0 48 6) = { key := some (g, x.play, i), staged := [c] } → c.cidx < bits o.w1 34 5 → len ≤ c.got →
        let r := reduceAll o [c.data]
        ((∃ w, (w, false) ∈ c.errs) → fails (.cvTimeout g op) 5 dst) ∧
        (c.errs = [] → State.writeAll (x.acc .convoy) r.1 s dst = (s2, .ok ()) →
        completes (.cvTimeout g op) s2.mem p.lates
          (p.partials ++ [(i, BitVec.ofNat 16 (2 ^ bits o.w1 34 5 - 1 - 2 ^ c.cidx))]) (p.flags ||| r.2.setWidth 4))))) ∧
  (∀ (s : State) (g : Fin 16) (op : BitVec 12) (oc : OpOutcome) (x : Graph) (p : Play) (due : Nat), s.graph g = some x → x.run = some p →
    let i := op.toNat
    i < x.ops.length → p.ops.length = x.ops.length → p.st i = .ready → p.lost.find? (·.1 = i) = some (i, due) → s.convoy.fired = [] →
    (s.now < due → exec (.convoyOpComplete g op oc) s = .next s) ∧
    (due ≤ s.now → (∀ j, j < x.ops.length → j ≠ i → bits (x.op j).w0 60 4 = 1 ∨ bits (x.op j).w0 60 4 = 4) →
      (∃ j, j < x.ops.length ∧ j ≠ i ∧ p.st j = .ready) → p.fault = none →
      ∃ t : State, ∃ q : Play, exec (.convoyOpComplete g op oc) s = .next t ∧ t.mem = s.mem ∧ t.graph g = some { x with run := some q } ∧ q.st i = .failed ∧
        q.fault.map (·.2.1) = some 5)) ∧
  ((reduceElem 8 false [0x3FC00000, 0xC0500000, 0x7FC00001]).1 = 0x7FC00000 ∧
    (reduceElem 8 true [0x3FC00000, 0xC0500000, 0x7FC00001]).1 = 0x40500000) ∧
  (∀ (s : State) (c : Chunk), s.convoy.fired = [] → c.dev ≠ s.fab.devid → s.keySpent (s.peer c.dev.val) = false →
    let e : Instr := .convoyChunkArrival c
    let pe := s.peer c.dev.val
    let bare : Prop := pe.xt = false ∧ (pe.foreign = true ∨ c.hdr = 0)
    let replies (t : State) (st : BitVec 4) (late : Bool) : Prop := ∃ hdr, t.fab.out = s.fab.out ++ [.reply c.dev st hdr 0] ∧
      (¬ bare → bit hdr 2 = late ∧ bits hdr 12 4 = st.toNat)
    let answers (t : State) (st : BitVec 4) (late : Bool) : Prop := exec e s = .next t ∧ t.mem = s.mem ∧ replies t st late
    (pe.enc = true → c.tagOk = false → ∃ t : State, exec e s = .next t ∧ t.mem = s.mem ∧ t.convoy = s.convoy ∧ t.fab.out = s.fab.out ∧
      t.fab.tagFails = s.fab.tagFails + 1) ∧
    let formed : Prop := ¬ bare → hdrBad (.store 8 0) c.hdr = false
    let whole : Prop := ¬ bare → c.crcOk = true
    ((pe.enc = true → c.tagOk = true) →
      (s.fab.domainEn = false → ∃ t : State, answers t 3 false ∧ t.convoy = s.convoy) ∧
      (s.fab.domainEn = true → ¬ formed → ∃ t : State, answers t 2 false ∧ t.convoy = s.convoy) ∧
      (s.fab.domainEn = true → formed → ¬ whole → ∃ t : State, answers t 8 false ∧ t.convoy = s.convoy) ∧
      (s.fab.domainEn = true → formed → whole → s.graph c.graph = none → ∃ t : State, answers t 3 false ∧ t.convoy = s.convoy)) ∧
    (∀ x, (pe.enc = true → c.tagOk = true) → formed → whole → s.fab.domainEn = true → s.graph c.graph = some x →
      (s.core x.core).evt.held = [] → lookup s.saves (x.lid.toNat * 4096 + x.core.val) = none →
      let o := x.op c.op.toNat
      let ahead := (c.play - x.play).toNat
      let named : Prop := c.op.toNat < x.ops.length ∧
        ((bits o.w0 60 4 = 2 ∧ x.dev (bits o.w1 39 6) = c.dev.val) ∨
          (bits o.w0 60 4 = 3 ∧ c.cidx.val < bits o.w1 34 5 ∧ x.dev (bits o.w1 39 6 + c.cidx.val) = c.dev.val))
      let passes : Prop := x.armed = true ∧ c.dev.val ∈ x.peers ∧ named ∧ (ahead ≤ 1 ∨ 32768 ≤ ahead)
      let fits : Prop := c.total = 64 * bits o.w1 45 13 ∧ c.offset + c.data.length ≤ c.total
      let ended : Prop := (∃ p, x.run = some p ∧ (p.ops[c.op.toNat]? = some .done ∨ p.ops[c.op.toNat]? = some .failed)) ∨
        (x.run = none ∧ (x.ended[c.op.toNat]? = some .done ∨ x.ended[c.op.toNat]? = some .failed))
      let late : Prop := 32768 ≤ ahead ∨ (ahead = 0 ∧ ended)
      let bytes : List Byte := (List.range c.total).map fun j =>
        if c.offset ≤ j ∧ j < c.offset + c.data.length then c.data.getD (j - c.offset) 0 else 0
      let z : Staged := { play := c.play, op := c.op.toNat, cidx := c.cidx.val, data := bytes, got := c.data.length, trig := c.trig, errs := [] }
      (¬ passes → ∃ t : State, answers t 3 false ∧ t.convoy = s.convoy) ∧
      (passes → ¬ fits → ∃ t : State, answers t 2 false ∧ t.convoy = s.convoy) ∧
      (passes → fits → late → ∃ t : State, answers t 3 true ∧ t.convoy = { s.convoy with late := s.convoy.late + 1 }) ∧
      (∀ k, passes → fits → ¬ late → bits o.w0 60 4 = 3 → (s.slot (bits o.w0 48 6)).key = some k → k ≠ (c.graph, c.play, c.op.toNat) →
        ∃ t : State, answers t 7 false ∧ t.convoy = s.convoy) ∧
      (passes → fits → ¬ late → bits o.w0 60 4 = 3 → s.slot (bits o.w0 48 6) = RedSlot.reset → x.run = none → c.trig = none →
        let held : RedSlot := { key := some (c.graph, c.play, c.op.toNat), staged := [z] }
        let w0 := (bits o.w0 48 6 * 16 + c.cidx.val) * 32768
        ∃ t : State, ∃ em, answers t 0 false ∧ t.convoy = { s.convoy with slots := put s.convoy.slots (bits o.w0 48 6) held, empties := em } ∧
          ∀ w, w ∈ em ↔ w ∈ s.convoy.empties ∧
            ¬ (w0 + c.offset / 8 ≤ w ∧ w < w0 + (c.offset + c.data.length + 7) / 8)) ∧
      (passes → fits → ¬ late → bits o.w0 60 4 = 2 → x.run = none →
        (x.area = none → ∃ t : State, answers t 0 false ∧ t.graph c.graph = some { x with area := some z } ∧ t.convoy.fired = []) ∧
        (∀ a, x.area = some a → a.play ≠ c.play ∨ a.op ≠ c.op.toNat ∨ c.total ≤ a.got → ∃ t : State, answers t 7 false ∧ t.convoy = s.convoy)) ∧
      (∀ p t0, passes → fits → ¬ late → bits o.w0 60 4 = 2 → x.run = some p → p.st c.op.toNat = .timed t0 → ahead = 0 → p.landing = [] →
        (∀ j, j < x.ops.length → j ≠ c.op.toNat → bits (x.op j).w0 60 4 = 1 ∨ bits (x.op j).w0 60 4 = 4) →
        (∃ j, j < p.ops.length ∧ j ≠ c.op.toNat ∧ p.st j = .ready) → c.op.toNat < p.ops.length → c.trig = none →
        (c.data.length < c.total →
          ∃ t : State, answers t 0 false ∧ t.graph c.graph = some { x with run := some { p with landing := [z] } }) ∧
        (∀ s2, c.data.length = c.total → bits o.w0 10 2 = 0 →
          State.writeAll (x.acc .convoy) c.data s (p.bases.getD (bits o.w1 58 3) 0 + natW (bits o.w2 0 32)) = (s2, .ok ()) →
          s2.graph c.graph = some x → s2.fab = s.fab →
          ∃ t : State, ∃ q : Play, exec e s = .next t ∧ t.mem = s2.mem ∧ replies t 0 false ∧ t.graph c.graph = some { x with run := some q } ∧
            q.st c.op.toNat = .done ∧ q.landing = [] ∧ q.partials = p.partials)))) ∧
  (∀ (s : State) (g : Fin 16) (x : Graph) (p : Play), s.graph g = some x → x.run = some p →
    let ticks := max 1 s.dev.cvTimeout.toNat * 1800
    (s.now < p.progress + 64 * ticks → exec (.playStall g) s = .next s) ∧
    (∀ j, p.progress + 64 * ticks ≤ s.now → p.fault = none → x.armed = true → j < p.ops.length → p.st j ≠ .done → p.st j ≠ .failed →
      (∀ i, i < j → p.st i = .done ∨ p.st i = .failed) → (s.core x.core).slot.st ≠ .idle → (s.core x.core).slot.lid = x.lid →
      ∃ t : State, ∃ y : Graph, exec (.playStall g) s = .next t ∧ t.mem = s.mem ∧ t.graph g = some y ∧ y.run = none ∧ y.play = x.play ∧ y.queued = x.queued ∧
        (∀ q ∈ t.convoy.slots, ∀ i, q.2.key ≠ some (g, x.play, i)) ∧
        s.Told t x.core { kind := 0x40, status := 8, source := BitVec.ofNat 16 g.val, xid := x.play, payload := natW (j * 2 ^ 52) }) ∧
    (let due : Prop := ∃ l ∈ s.sched.launches, l.ctx = x.ctx ∧ l.st ≠ .ended ∧ ∃ t0, l.cancelAt = some t0 ∧ t0 + ticks ≤ s.now
     (due → ∃ t : State, exec (.convoyPlayStop g) s = .next t ∧ t.mem = s.mem ∧ t.cores = s.cores ∧
        (x.armed = false → t.graph g = none) ∧ (x.armed = true → ∃ y, t.graph g = some y ∧ y.run = none ∧ y.armed = true) ∧
        (∀ j, j ≠ g → t.graph j = s.graph j) ∧ ∀ q ∈ t.convoy.slots, ∀ i, q.2.key ≠ some (g, x.play, i)) ∧
     (¬ due → exec (.convoyPlayStop g) s = .next s)))

/-- R271 to R281, R178, R179, R215, R103. A command's effect is one step at its start, the model's choice (log 37). The ends of
commands and rows are stated with no Relay term enabled; `pulsed` says what a pulse does to the counters (R143). Which of two commands in
execution ends first is free, and `free` counts the choice (log 109). By the model's choice what an uncorrectable word would have
given stays: the shadow plane, the C row, v0 of the handler (log 99). -/
def Obligations.MatrixQueue : Prop :=
  let pulsed (srcs : List Nat) (w : Word) : Word := if bits w 60 4 ∈ srcs ∧ bits w 0 16 < 0xFFFF then w + 1 else w
  (∀ (v : VReg) (a : XReg) (m : MReg) (imm : BitVec 9) (s : State), s.SeqIdle → s.OwnQuiet →
    let c := s.cc
    let o : Nat := (((s.rx a).toNat + 64 * imm.toInt) % 0x20000).toNat
    let w := c.vView s.curH v
    bit c.ctl.mqAddr 63 = true → o = 64 * bits c.ctl.mqAddr 6 11 →
    let i : Instr := .vst v a .l m imm
    (s.curH = true → ∃ t : State, exec i s = .next t ∧ t.bundle = .trapped ∧ t.mem = s.mem ∧ t.net = s.net ∧ t.cc.main = c.main ∧
      t.cc.hnd.row = none ∧ t.cc.hnd.x = c.hnd.x ∧ t.cc.hnd.v = c.hnd.v ∧ ∃ cause, t.cc.hnd.faults = c.hnd.faults ++ [(cause, c.hnd.pc)]) ∧
    (s.curH = false → c.mat.mq.length < 8 →
      (∀ cmd, m = 0 → decodeMat w.toNat = .ok cmd →
        let takes : Bool := gateOf cmd && c.mat.banked != 0
        let e : MatEntry := { cmd := cmd, stamp := s.nextId, started := false, rows := 0, released := takes }
        exec i s = .next (s.ranTo { c with mat := { c.mat with
          mq := c.mat.mq ++ [e], banked := if takes then c.mat.banked - 1 else c.mat.banked } })) ∧
      (m ≠ 0 ∨ (∀ cmd, decodeMat w.toNat ≠ .ok cmd) →
        exec i s = .next (s.ranTo { c with evt := { c.evt with respTraps := c.evt.respTraps ++ [{ cause := 2, val := dword w 0 }] } }))) ∧
    (s.curH = false → 8 ≤ c.mat.mq.length → ∃ t : State, ∃ e : SeqEntry, exec i s = .next t ∧ t.mem = s.mem ∧ t.net = s.net ∧ t.cc.mat = c.mat ∧
      t.cc.main = c.main ∧ t.cc.seq = { c.seq with queue := [e] } ∧ e.ins = i)) ∧
  (∀ (k : CoreIx) (s : State) (cmd : MatCmd) (pre post : List MatEntry) (e : MatEntry),
    let c := s.core k
    c.mat.mq = pre ++ e :: post → (∀ x ∈ pre, x.started = true) → e.started = false →
    let run : Instr := match cmd with
      | .mload d => .mload k d
      | .mswap d => .mswap k d
      | .mdrain d => .mdrain k d
      | .mzero d => .mzero k d
      | .mshape d => .mshape k d
      | .mma d => .mma k d
    let loads (x : MatCmd) : Prop := ∃ d, x = .mload d
    let may : Prop := e.cmd = cmd ∧ (gateOf cmd = true → e.released = true) ∧
      (loads cmd → ∀ x ∈ pre, ¬ loads x.cmd) ∧ (¬ loads cmd → pre = [])
    let stopped : Prop := c.slot.stop = .forced ∨ c.slot.st = .frozen
    (¬ may ∨ stopped → exec run s = .next s) ∧
    (may → ¬ stopped →
      let m1 : MatState := { c.mat with mq := pre ++ { e with started := true } :: post,
                                        bands := c.mat.nextBands.getD c.mat.bands, nextBands := none }
      let only (m : MatState) : Prop := ∃ t : State, exec run s = .next t ∧ t.mem = s.mem ∧ t.net = s.net ∧ t.core k = { c with mat := m } ∧
        ∀ j, j ≠ k → t.core j = s.core j
      let cAt (o : Nat) : Nat := k.val * 2 ^ 20 + winOff .c + o
      let wAt (o : Nat) : Nat := k.val * 2 ^ 20 + winOff .w + o
      let aAt (o : Nat) : Nat := k.val * 2 ^ 20 + winOff .a + o
      let told (t : State) (a : Nat) : Prop := (t.core k).evt.respTraps = c.evt.respTraps ++ [{ cause := 5, val := natW (sysOf s.own a).toNat }]
      (∀ d, cmd = .mload d →
        (∃ i : Fin 16, s.badAt (wAt (d.boff.toNat + i.val * d.bstr.toNat)) 128 = true ∨
          (d.scw = true ∧ s.badAt (wAt (d.soff.toNat + i.val * d.sstr.toNat)) 8 = true)) →
        ∃ t : State, ∃ a, exec run s = .next t ∧ t.mem = s.mem ∧ t.net = s.net ∧ (t.core k).mat = m1 ∧ (t.core k).main = c.main ∧ told t a) ∧
      (∀ d, cmd = .mload d →
        (∀ i : Fin 16, s.badAt (wAt (d.boff.toNat + i.val * d.bstr.toNat)) 128 = false ∧
          (d.scw = true → s.badAt (wAt (d.soff.toNat + i.val * d.sstr.toNat)) 8 = false)) →
        ∃ p : Plane, only { m1 with shadow := p } ∧ ∀ i : Fin 16,
        p.cols[i] = BitVec.ofNat 1024 (readLE s.mem (wAt (d.boff.toNat + i.val * d.bstr.toNat)) 128) ∧
        p.scales[i] = if d.scw then BitVec.ofNat 64 (readLE s.mem (wAt (d.soff.toNat + i.val * d.sstr.toNat)) 8)
                      else 0x7F7F7F7F7F7F7F7F) ∧
      (∀ d, cmd = .mswap d → only { m1 with active := c.mat.shadow, shadow := c.mat.active }) ∧
      (∀ d, cmd = .mshape d → only { m1 with bands := d.bands }) ∧
      (∀ d, cmd = .mdrain d → d.rows ≠ 0 → only m1) ∧
      (∀ d, cmd = .mdrain d → d.rows = 0 → (∀ i : Fin 8, bit c.eng.relayTerm[i] 63 = false) →
        ∃ t : State, exec run s = .next t ∧ t.mem = s.mem ∧ t.net = s.net ∧ (t.core k).mat = { m1 with mq := post } ∧ (t.core k).main = c.main) ∧
      (∀ d, cmd = .mzero d → s.Canonical → ∃ t : State, exec run s = .next t ∧ (t.core k).mat = m1 ∧ (t.core k).main = c.main ∧
        t.empties = s.empties ∧ ∀ a, memGet t.mem a =
          if ∃ r, r < d.rows.toNat ∧ cAt (d.boff.toNat + r * d.bstr.toNat) ≤ a ∧ a < cAt (d.boff.toNat + r * d.bstr.toNat) + 64 then 0
          else memGet s.mem a) ∧
      (∀ d, cmd = .mma d → d.wf = true → s.Canonical →
        let act := if d.swap then c.mat.shadow else c.mat.active
        let n := d.k.toNat
        let f := pairFmts d.pair
        let row (r : Nat) : Nat := readLE s.mem (aAt (d.boff.toNat + r * d.bstr.toNat)) ((n * fmtBits f.1 + 7) / 8)
        let sa (r b : Nat) : Nat := if d.sca then readLE s.mem (aAt (d.soff.toNat + r * d.sstr.toNat + b)) 1 else 127
        let sw (j : Fin 16) (b : Nat) : Nat := act.scales[j].toNat / 2 ^ (8 * b) % 256
        let y (r : Nat) (j : Fin 16) (b : Nat) : Nat :=
          if sa r b = 255 ∨ sw j b = 255 then 0x7FC00000
          else roundFp32 (scaleVal (dotVal f.1 f.2 (row r) act.cols[j].toNat (32 * b) (min 32 (n - 32 * b)))
            (((sa r b : Int) - 127) + ((sw j b : Int) - 127)))
        let acc (r : Nat) (j : Fin 16) : Nat :=
          (List.range ((n + 31) / 32 - 1)).foldl (fun z b => (fpAdd fp32 .rne false z (y r j (b + 1))).1) (y r j 0)
        let cell (r : Nat) (j : Fin 16) : Nat := cAt (d.coff.toNat + 64 * r + 4 * j.val)
        let good (r : Nat) : Prop := s.badAt (aAt (d.boff.toNat + r * d.bstr.toNat)) ((n * fmtBits f.1 + 7) / 8) = false ∧
          s.badAt (cAt (d.coff.toNat + 64 * r)) 64 = false ∧
          (d.sca = true → s.badAt (aAt (d.soff.toNat + r * d.sstr.toNat)) ((n + 31) / 32) = false)
        ∃ t : State, exec run s = .next t ∧ t.empties = s.empties ∧ (t.core k).main = c.main ∧ (t.core k).ctl = c.ctl ∧
          (t.core k).mat = (if d.swap then { m1 with active := m1.shadow, shadow := m1.active } else m1) ∧
          ((∀ r, r < d.rows.toNat → good r) → (t.core k).evt.respTraps = c.evt.respTraps) ∧
          ((∃ r, r < d.rows.toNat ∧ ¬ good r) → ∃ tr ∈ (t.core k).evt.respTraps, tr.cause = 5) ∧
          (∀ a, a < cAt d.coff.toNat ∨ cAt d.coff.toNat + 64 * d.rows.toNat ≤ a → memGet t.mem a = memGet s.mem a) ∧
          ∀ r, r < d.rows.toNat → ∀ j : Fin 16, readLE t.mem (cell r j) 4 =
            if m1.bands.getLsbD (j.val / 4) = true ∧ good r then
              (fpAdd fp32 .rne false (readLE s.mem (cell r j) 4) (fpMul fp32 .rne false d.cscale.toNat (acc r j)).1).1
            else readLE s.mem (cell r j) 4))) ∧
  (∀ (fa fw : Fmt) (a w lo n : Nat) (x y : Nat → ℚ),
    (∀ i, i < n → (rowElem fa a (lo + i)).rat = some (x i) ∧ (rowElem fw w (lo + i)).rat = some (y i)) →
    (dotVal fa fw a w lo n).rat = some (((List.range n).map fun i => x i * y i).sum)) ∧
  (∀ (k : CoreIx) (s : State),
    let c := s.core k
    let ends (e : MatEntry) : Bool := e.started && (match e.cmd with | .mdrain _ => false | _ => true)
    let l := c.mat.mq.filter ends
    (l = [] → exec (.matrixCommandEnd k) s = .next s) ∧
    (l ≠ [] → c.seq.queue = [] → c.seq.loop = none → (∀ q ∈ s.net, q.loc = false) → (∀ i : Fin 8, bit c.eng.relayTerm[i] 63 = false) →
      ∃ (pre : List MatEntry) (e : MatEntry) (post : List MatEntry), c.mat.mq = pre ++ e :: post ∧ e ∉ pre ∧ ends e = true ∧
        exec (.matrixCommandEnd k) s = .next (State.setCore { s with free := s.free + (if l.length = 1 then 0 else 1) } k { c with
          mat := { c.mat with mq := pre ++ post, bands := c.mat.nextBands.getD c.mat.bands, nextBands := none },
          eng := { c.eng with relayCnt := c.eng.relayCnt.map (pulsed [1]) } }))) ∧
  (∀ (k : CoreIx) (s : State) (e : MatEntry) (rest : List MatEntry) (d : MdrainCmd),
    let c := s.core k
    c.mat.mq = e :: rest → e.cmd = .mdrain d →
    let stopped : Prop := c.slot.stop = .forced ∨ c.slot.st = .frozen
    (e.started = false ∨ c.hnd.row ≠ none ∨ d.rows.toNat ≤ e.rows ∨ stopped → exec (.drainRowDispatch k) s = .next s) ∧
    (∀ l, e.started = true → c.hnd.row = none → e.rows < d.rows.toNat → ¬ stopped → s.launchOf k = some l →
      let pc : Pc := BitVec.ofNat 17 (8 * bits (l.hdr.getD 3 0) 0 16)
      let row : Vec := BitVec.ofNat 512 (readLE s.mem (k.val * 2 ^ 20 + winOff .c + (d.boff.toNat + e.rows * d.bstr.toNat)) 64)
      let at_ := k.val * 2 ^ 20 + winOff .c + (d.boff.toNat + e.rows * d.bstr.toNat)
      let dest : Row := { stamp := e.stamp, dest := intW (d.dest.toInt + e.rows * d.dstr.toInt), cls := d.cls, last := e.rows + 1 = d.rows.toNat }
      (s.badAt at_ 64 = true → ∃ t : State, exec (.drainRowDispatch k) s = .next t ∧ t.mem = s.mem ∧ t.net = s.net ∧ (t.core k).main = c.main ∧
        (t.core k).mat = { c.mat with mq := { e with rows := e.rows + 1 } :: rest } ∧
        (t.core k).evt.respTraps = c.evt.respTraps ++ [{ cause := 5, val := natW (sysOf s.own at_).toNat }] ∧
        (t.core k).hnd = { c.hnd with x := (c.hnd.x.set 1 (natW e.rows)).set 2 (d.tag.setWidth 64), pc := pc, npc := pc,
                                      marker := false, priv := bit c.ctl.coreStatus 0, row := some dest }) ∧
      (s.badAt at_ 64 = false → s.weak = [] → exec (.drainRowDispatch k) s = .next (s.setCore k { c with
        hnd := { c.hnd with v := c.hnd.v.set 0 row, x := (c.hnd.x.set 1 (natW e.rows)).set 2 (d.tag.setWidth 64), pc := pc, npc := pc,
                            marker := false, priv := bit c.ctl.coreStatus 0, row := some dest },
        evt := { c.evt with fenceH := none },
        mat := { c.mat with mq := { e with rows := e.rows + 1 } :: rest } })))) ∧
  (∀ s : State,
    let c := s.cc
    (s.curH = false → exec .hret s = .next (s.trap 2 (s.word.setWidth 64))) ∧
    (∀ row : Row, s.curH = true → c.hnd.row = some row → c.hnd.flights = [] → (∀ e ∈ c.seq.queue, e.handler = false) → c.seq.loop = none →
      (∀ i : Fin 8, bit c.eng.relayTerm[i] 63 = false) →
      let draining : Prop := ∃ e d rest, c.mat.mq = e :: rest ∧ e.started = true ∧ e.cmd = .mdrain d
      let ended (t : State) : Prop := (draining → t.cc.mat = { c.mat with mq := c.mat.mq.tail }) ∧ (¬ draining → t.cc.mat = c.mat)
      let cause : BitVec 8 := if row.dest.toNat % 64 ≠ 0 then 1 else if gaOk row.dest then 5 else 4
      (row.dest.toNat % 64 ≠ 0 ∨ bits row.dest 62 2 = 2 ∨ gaOk row.dest = false →
        ∃ t : State, exec .hret s = .next t ∧ t.bundle = .trapped ∧ t.mem = s.mem ∧ t.net = s.net ∧ t.cc.main = c.main ∧ t.cc.hnd.row = none ∧
          t.cc.hnd.faults = c.hnd.faults ++ [(cause, c.hnd.pc)] ∧ t.cc.hnd.x = c.hnd.x ∧ t.cc.hnd.v = c.hnd.v ∧ ended t) ∧
      (∀ l : Xl, row.dest.toNat % 64 = 0 → bits row.dest 62 2 ≠ 2 → gaOk row.dest = true →
        (s.xlate (some (clusterOf s.cur.val)) c.slot.ctx true .write row.dest).2 = .ok l → devOf l.sys = s.own →
        ∃ t : State, ∃ r : Req, exec .hret s = .next t ∧ t.mem = s.mem ∧ t.bundle = s.bundle ∧ t.net = s.net ++ [r] ∧ r.op = .acc (.row c.hnd.v[0]) ∧
          r.src = .row s.cur c.hnd.pc row.stamp ∧ r.cls = row.cls ∧ r.fe = .plain ∧ r.ga = row.dest ∧ r.sys = l.sys ∧ r.phase = .sent ∧
          r.ctx = c.slot.ctx ∧ t.cc.main = c.main ∧ t.cc.hnd = { c.hnd with row := none } ∧ t.cc.ctl = c.ctl ∧
          (row.last = true → ended t) ∧ (row.last = false → t.cc.mat = c.mat) ∧
          ∀ i : Fin 8, (row.last = true → draining → t.cc.eng.relayCnt[i] = pulsed [1, 5] c.eng.relayCnt[i]) ∧
            (row.last = false ∨ ¬ draining → t.cc.eng.relayCnt[i] = pulsed [5] c.eng.relayCnt[i]))))

/-- R64, R65, R68, R69, R72 to R75, R110, R113, R130 (the completion of a send of a saved core). A record whose areas lie in the stacks is
presumed to lie outside every core window. A wait of the model for a moving token is left out by the premises. By the model's choice
TIMER_COMPARE sets the tick count to TIMER_CMP (log 58), a RELEASE drops what its core has on its way but its writes (log 72), the
partitions and the experts of a launch go with its launch rank 0 (log 73), a core that halts while it stops is saved (log 115), and a
resume that meets an uncorrectable burst of its record fails the launch (log 99). -/
def Obligations.SlotsAndCoreEvents : Prop :=
  (∀ (i : CoreIx) (r : BindRec) (s : State),
    let c := s.core i
    let t0 := c.slot
    let word (act : BitVec 4) : Word := natW (act.toNat * 2 ^ 60 + r.prio.toNat * 2 ^ 57 + r.ctx.toNat * 2 ^ 40 + r.lid.toNat * 2 ^ 24 +
      r.lrank.toNat * 2 ^ 12 + r.seq.toNat * 2 ^ 4)
    let rec_ (act : BitVec 4) (err : Bool) : Slot :=
      { t0 with rec0 := word act, rec1 := natW r.crec.toNat, act := act, seq := r.seq, aseq := r.seq, err := err }
    let leaves (e : Instr) (x : Slot) : Prop := exec e s = .next (s.setCore i { c with slot := x })
    let free : Prop := ∀ j : CoreIx, j ≠ i → j.val % 64 / 4 = i.val % 64 / 4 → j.val / 64 / 4 = i.val / 64 / 4 →
      (s.core j).slot.st = .idle ∨ (s.core j).slot.lid = r.lid
    let isRecord : Prop := readLE s.mem r.crec.toNat 8 / 2 ^ 62 ≠ 0 ∧ readLE s.mem (r.crec.toNat + 16) 8 % 4096 = i.val
    let binds (e : Instr) (act : BitVec 4) (l : LoadKind) : Prop :=
      ∃ t : State, exec e s = .next t ∧ t.mem = s.mem ∧ t.net = s.net ∧ (∀ j, j ≠ i → t.core j = s.core j) ∧
        t.core i = { Core.reset with
          ctl := { CtlRegs.reset with fduty := c.ctl.fduty, timeOff := natW s.now }
          pwr := c.pwr
          slot := { Slot.reset with rec0 := word act, rec1 := natW r.crec.toNat, act := act, seq := r.seq, aseq := r.seq, skind := t0.skind, prio := r.prio, ctx := r.ctx,
                                    lid := r.lid, lrank := r.lrank, crec := r.crec, st := .loading, load := l } } ∧
        look 0 t.mgmt.integ (clusterOf i.val) = 0 ∧
        ∀ m ∈ t.sched.launches, m.lid = r.lid → m.st = .running ∨ m.st = .ended
    leaves (.slotActNone i r) (rec_ 0 false) ∧
    (t0.st ≠ .idle ∨ ¬ free → leaves (.bindNew i r) (rec_ 1 true)) ∧
    (t0.st = .idle → free → binds (.bindNew i r) 1 .new) ∧
    (t0.st ≠ .idle ∨ ¬ free ∨ ¬ isRecord → leaves (.bindResume i r) (rec_ 2 true)) ∧
    (t0.st = .idle → free → isRecord → binds (.bindResume i r) 2 .resume) ∧
    (t0.st ≠ .running → t0.st ≠ .halted → leaves (.preempt i r) (rec_ 3 true)) ∧
    (t0.st = .running → leaves (.preempt i r) { rec_ 3 false with st := .stopping, crec := r.crec, preq := some s.now }) ∧
    (t0.st = .halted → leaves (.preempt i r) { rec_ 3 false with st := .saving, crec := r.crec }) ∧
    (t0.st ≠ .running → t0.st ≠ .stopping → t0.st ≠ .halted → leaves (.freeze i r) (rec_ 5 true)) ∧
    (t0.st = .running ∨ t0.st = .stopping ∨ t0.st = .halted → c.eng.copies = [] → t0.lrank ≠ 0 → (∀ x ∈ c.evt.held, x.act = .keep) →
      exec (.freeze i r) s = .next (s.setCore i { c with
        slot := { rec_ 5 false with st := .frozen, preq := none }
        evt := { c.evt with held := [], dropped := c.evt.dropped + c.evt.held.length } })) ∧
    (t0.st = .idle → leaves (.release i r) (rec_ 4 true)) ∧
    (t0.st ≠ .idle → ∃ t : State, exec (.release i r) s = .next t ∧ (s.spilled = [] → t.mem = s.mem) ∧
      (t0.lrank ≠ 0 ∨ (∀ j, ∀ x ∈ (s.core j).eng.copies, x.state ≠ .suspended) → ∀ j, j ≠ i → t.core j = s.core j) ∧
      (t.core i).slot.st = .idle ∧ (t.core i).slot.aseq = r.seq ∧ (t.core i).slot.err = false ∧ (t.core i).main = MainCtx.reset ∧
      (t.core i).hnd = HandlerCtx.reset ∧ (t.core i).eng = CoreEng.reset ∧ (t.core i).mat = MatState.reset ∧
      (∀ q, q ∈ t.net ↔ (q ∈ s.net ∧ q.src.ownedBy i = false) ∨
        ∃ z ∈ s.net, ∃ kind, z.src.ownedBy i = true ∧ z.op = .acc kind ∧ accWrites kind = true ∧ z.loc = false ∧
          (z.phase = .sent ∨ ∃ due, z.phase = .waiting due) ∧ q = { z with src := .left i t0.lid, flight := none }) ∧
      (∀ p ∈ t.pre.posted, p.core ≠ i ∨ p.lid ≠ t0.lid) ∧ (∀ m ∈ t.pre.unexpected, m.dst ≠ i ∨ m.lid ≠ t0.lid) ∧
      t.pre.discarded = s.pre.discarded + (s.pre.unexpected.filter fun m => m.dst = i ∧ m.lid = t0.lid).length ∧
      (∀ g ∈ t.convoy.graphs, g.2.ctx = t0.ctx → g.2.armed = false ∧ g.2.trigs = [] ∧ g.2.queued = none) ∧
      lookup t.saves (saveKey t0.lid i) = none ∧ i ∉ t.sched.faults ∧
      ((∀ p ∈ s.spilled, ∀ x ∈ p.2, x.core ≠ i ∨ x.lid ≠ t0.lid) →
        ∀ p ∈ t.lists, ∀ x ∈ p.2, (x.core ≠ i ∨ x.lid ≠ t0.lid) ∧ ((∃ q ∈ s.lists, x ∈ q.2) ∨ ∃ q ∈ s.spilled, x ∈ q.2)) ∧
      (t0.lrank = 0 → (∀ p ∈ t.parts, ∀ x, p.2.owner ≠ some (t0.lid, x)) ∧
        ∀ e : Nat, e < 1024 → (s.res e).ctx = t0.ctx → (t.res e).state = 0 ∧ (t.res e).pin = 0 ∧ look (0 : Half) t.prices e = 0 ∧ look 0 t.caps e = 0))) ∧
  (∀ (i : CoreIx) (s : State) (l : Launch), (s.core i).slot.st = .loading → s.launchOf i = some l →
    let c := s.core i
    let cl := clusterOf i.val
    let e : Instr := .loadingComplete i
    let base := i.val * 2 ^ 20
    let codeLen := bits (l.hdr.getD 3 0) 32 18
    let codeVa := natW (bits (l.hdr.getD 2 0) 0 48)
    let entry : Pc := BitVec.ofNat 17 (8 * bits (l.hdr.getD 3 0) 16 16)
    let loaded : Prop := look ((0 : BitVec 16), 0) s.text cl = (l.lid, codeLen)
    let reads : State × Except AccErr (List Word) := State.engReadWords (hartAcc l.ctx i.val) (codeLen / 8) s codeVa
    let runs (t : State) : Prop := (t.core i).main.x[10] = l.param ∧ (t.core i).main.x[11] = natW c.slot.lrank.toNat ∧
      (∀ j : XReg, j ≠ 10 → j ≠ 11 → (t.core i).main.x[j] = 0) ∧ (t.core i).main.f = Vector.replicate 16 0 ∧
      (t.core i).main.v = Vector.replicate 32 0 ∧ (t.core i).main.pc = entry ∧ (t.core i).main.npc = entry ∧
      (t.core i).slot = { c.slot with st := .running, load := .none } ∧ (t.core i).ctl.coreStatus = c.ctl.coreStatus
    (c.slot.load = .new → loaded → l.data = [] → s.Canonical →
      ∃ t : State, exec e s = .next t ∧ runs t ∧ t.istore = s.istore ∧
        (∀ a, memGet t.mem a = if base ≤ a ∧ a < base + 2 ^ 20 then 0 else memGet s.mem a) ∧
        (∀ w, w ∈ t.empties ↔ w ∈ s.empties ∧ ¬ (base / 8 ≤ w ∧ w < base / 8 + 2 ^ 17)) ∧ ∀ j, j ≠ i → t.core j = s.core j) ∧
    (∀ s1 ws, c.slot.load = .new → ¬ loaded → l.data = [] → reads = (s1, .ok ws) →
      ∃ t : State, exec e s = .next t ∧ runs t ∧ look ((0 : BitVec 16), 0) t.text cl = (l.lid, codeLen) ∧
        (∀ j, j < codeLen / 8 → readLE (look [] t.istore cl) (8 * j) 8 = (ws.getD j 0).toNat) ∧
        ∀ x, x ≠ cl → look [] t.istore x = look [] s.istore x) ∧
    (∀ s1 x, ¬ loaded → reads = (s1, .error x) → x ≠ .wait →
      ∃ t : State, exec e s = .next t ∧ (t.core i).slot.st = .idle ∧ ∀ m ∈ t.sched.launches, m.lid = l.lid → m.st ≠ .ended → m.reason = 2) ∧
    (let r := c.slot.crec.toNat
     let sv := s.savedOf i
     let val (off n : Nat) (live : Bool) : Nat := if live then readLE s.mem (r + off) n else 0
     let ctl (n : Nat) : Word := natW (readLE s.mem (r + 0x200 + 8 * n) 8)
     (c.slot.load = .resume → loaded → s.badAt r 0x114000 = true →
       ∃ t : State, exec e s = .next t ∧ (t.core i).slot.st = .idle ∧ ∀ m ∈ t.sched.launches, m.lid = l.lid → m.st ≠ .ended → m.reason = 2) ∧
     (c.slot.load = .resume → loaded → c.slot.lrank ≠ 0 → s.pre.unexpected = [] → 2 ^ 32 ≤ r → s.Canonical → s.badAt r 0x114000 = false →
     (∀ x ∈ sv.map.ranges, x.2.1 + x.2.2 ≤ x.1.size) →
     ∃ t : State, exec e s = .next t ∧
       (t.core i).slot = { c.slot with load := .none, st := if readLE s.mem r 8 / 2 ^ 62 = 3 then .halted else .running } ∧
       (t.core i).main.pc = BitVec.ofNat 17 (readLE s.mem (r + 8) 8 / 8 * 8) ∧
       (∀ j : XReg, (t.core i).main.x[j] = natW (val (0x40 + 8 * j.val) 8 (sv.map.x.getLsbD j.val))) ∧
       (∀ j : FReg, (t.core i).main.f[j] = BitVec.ofNat 32 (val (0x140 + 4 * j.val) 4 (sv.map.f.getLsbD j.val))) ∧
       (∀ j : MReg, (t.core i).main.m[j] = natW (val (0x180 + 8 * j.val) 8 (sv.map.m.getLsbD j.val))) ∧
       (∀ j : VReg, (t.core i).main.v[j] = BitVec.ofNat 512 (val (0x400 + 64 * j.val) 64 (sv.map.v.getLsbD j.val))) ∧
       (t.core i).ctl.trapCause = natW (bits (ctl 1) 0 8 + 2 ^ 63 * bits (ctl 1) 63 1) ∧ (t.core i).ctl.trapPc = ctl 2 ∧
       (t.core i).ctl.trapVal = ctl 3 ∧ (t.core i).ctl.tvec = natW (8 * bits (ctl 5) 3 14 + 2 ^ 63 * bits (ctl 5) 63 1) ∧
       (t.core i).ctl.intEn = natW (bits (ctl 6) 0 4) ∧ (t.core i).ctl.vlen = natW (bits (ctl 14) 0 7) ∧
       (t.core i).ctl.fpctl = natW (bits (ctl 12) 0 6 + 2 ^ 8 * bits (ctl 12) 8 3) ∧
       (∀ a, a < base ∨ base + 2 ^ 20 ≤ a → memGet t.mem a = memGet s.mem a) ∧
       (∀ o, o < 2 ^ 20 →
         ((∃ x ∈ sv.map.ranges, winOff x.1 + x.2.1 ≤ o ∧ o < winOff x.1 + x.2.1 + x.2.2) →
           memGet t.mem (base + o) = memGet s.mem (r + 0x10000 + o)) ∧
         ((∀ x ∈ sv.map.ranges, o < winOff x.1 + x.2.1 ∨ winOff x.1 + x.2.1 + x.2.2 ≤ o) → memGet t.mem (base + o) = 0))))) ∧
  (∀ (i : CoreIx) (s : State), (s.core i).slot.st ≠ .loading → exec (.loadingComplete i) s = .next s) ∧
  (∀ (k : CoreIx) (s : State),
    let c := s.core k
    let r := c.slot.crec.toNat
    let base := k.val * 2 ^ 20
    let stopped (d : Core) : Prop := d.slot.stop ≠ .no ∨ d.slot.st = .halted ∨ d.slot.st = .saving ∨ d.slot.st = .frozen
    (c.slot.st ≠ .stopping → c.slot.st ≠ .saving → (c.slot.st = .halted → c.slot.preq = none) → exec (.contextSave k) s = .next s) ∧
    ((∃ j : CoreIx, (s.core j).slot.lid = c.slot.lid ∧ (s.core j).slot.st ≠ .idle ∧ ¬ stopped (s.core j)) →
      exec (.contextSave k) s = .next s) ∧
    (c.slot.st = .stopping → c.slot.stop = .forced → c.slot.lrank ≠ 0 → 2 ^ 32 ≤ r → s.Canonical → s.bad = [] →
      (∀ j, (s.core j).slot.lid = c.slot.lid → (s.core j).slot.st ≠ .idle → stopped (s.core j)) →
      c.main.flights = [] → c.hnd.flights = [] → s.net = [] → s.xfers = [] → s.posts = [] → s.pushed = [] → s.parts = [] →
      s.convoy.graphs = [] → s.convoy.plays = [] → c.portWrites = [] → c.mat.mq.length ≤ 8 → c.evt.inbox.length ≤ 256 → c.evt.errQ.length ≤ 16 →
      (∀ q : Fin 4, c.seq.nq[q].length ≤ 8) →
      ∃ t : State, exec (.contextSave k) s = .next t ∧
        readLE t.mem r 8 = 2 * 2 ^ 62 + (if bit c.ctl.coreStatus 0 then 2 ^ 61 else 0) + (if c.exch.group = none then 0 else 2 ^ 60) ∧
        readLE t.mem (r + 8) 8 = c.main.pc.toNat ∧ readLE t.mem (r + 16) 8 = c.evt.inbox.length * 2 ^ 32 + k.val ∧
        (∀ j : XReg, readLE t.mem (r + 0x40 + 8 * j.val) 8 = c.main.x[j].toNat) ∧
        (∀ j : FReg, readLE t.mem (r + 0x140 + 4 * j.val) 4 = c.main.f[j].toNat) ∧
        (∀ j : MReg, readLE t.mem (r + 0x180 + 8 * j.val) 8 = c.main.m[j].toNat) ∧
        (∀ j : VReg, readLE t.mem (r + 0x400 + 64 * j.val) 64 = c.main.v[j].toNat) ∧
        readLE t.mem (r + 0x208) 8 = c.ctl.trapCause.toNat ∧ readLE t.mem (r + 0x228) 8 = c.ctl.tvec.toNat ∧
        (∀ j (h : j < c.evt.inbox.length), readLE t.mem (r + 0x4000 + 16 * j) 8 = (c.evt.inbox[j]'h).header.toNat ∧
          readLE t.mem (r + 0x4008 + 16 * j) 8 = (c.evt.inbox[j]'h).payload.toNat) ∧
        (∀ o, o < 2 ^ 20 → memGet t.mem (r + 0x10000 + o) = memGet s.mem (base + o)) ∧
        (∀ a, a < r ∨ r + 0x114000 ≤ a → memGet t.mem a = memGet s.mem a) ∧
        (t.core k).slot.st = .idle ∧ (t.core k).slot.skind = 2 ∧ (t.core k).slot.err = c.slot.err ∧ (t.core k).main = MainCtx.reset ∧ (∀ j, j ≠ k → t.core j = s.core j) ∧
        ((∀ j, j ≠ k → (s.core j).slot.lid = c.slot.lid → (s.core j).slot.st = .idle) →
          ∀ m ∈ t.sched.launches, m.lid = c.slot.lid → m.st = .ready ∨ m.st = .ended))) ∧
  (∀ (k : CoreIx) (h : BitVec 16) (r : PeerReply) (s : State) (key : Nat) (sv : SavedCore) (sr : SendRec) (st : BitVec 8) (x : BitVec 4),
    let n := sv.core.evt.inbox.length
    (∀ q ∈ (s.core k).eng.sends, q.handle ≠ h) → s.savedSend k h = some (key, sv, sr) → sr.answer = some (st, x) → st ≠ 2 →
    sv.held = [] → n < 256 → 2 ^ 32 ≤ sv.crec → s.Canonical →
    ∃ t : State, exec (.sendAnswer k h r) s = .next t ∧ readLE t.mem (sv.crec + 20) 4 = n + 1 ∧
      readLE t.mem (sv.crec + 0x4000 + 16 * n) 8 = 0x31 + 2 ^ 8 * st.toNat + 2 ^ 16 * sr.dst.val + 2 ^ 32 * sr.handle.toNat ∧
      readLE t.mem (sv.crec + 0x4008 + 16 * n) 8 = (recvPayload sr.tag sr.dev.val sr.len).toNat ∧ (∀ j, t.core j = s.core j) ∧
      (∀ a, a < sv.crec + 20 ∨ sv.crec + 0x5000 ≤ a → memGet t.mem a = memGet s.mem a) ∧
      ∃ sv', lookup t.saves key = some sv' ∧ ∀ q ∈ sv'.core.eng.sends, q.handle ≠ h) ∧
  (∀ (k : CoreIx) (s : State),
    let c := s.core k
    let time : Word := natW s.now - c.ctl.timeOff
    let due (j : Nat) : Prop := bit c.ctl.intEn j = true ∧
      (if j = 0 then c.slot.preq ≠ none
       else if j = 1 then ∃ m ∈ c.evt.inbox, m.kind ≠ 0x10
       else if j = 2 then c.ctl.timerCmp.toNat ≤ time.toNat
       else c.evt.errQ ≠ [] ∨ ∃ n : Fin 8, bit c.eng.relayTerm[n] 43 = true)
    let first (j : Nat) : Prop := due j ∧ ∀ i, i < j → ¬ due i
    let takes (d : Core) (cause : BitVec 8) (v : Word) : Prop :=
      exec (.interruptTaken k) s = .next ((s.setCore k d).takeTrap k false cause c.main.pc v)
    (bit c.ctl.coreStatus 2 = false ∨ (∀ j, j < 4 → ¬ due j) → exec (.interruptTaken k) s = .next s) ∧
    (bit c.ctl.coreStatus 2 = true → c.intrap = false → c.returning = false → c.evt.parkedAt ≠ some c.main.pc → c.exch.ovrDue = false → c.exch.parked = .none → c.evt.respTraps = [] → c.hnd.faults = [] →
      c.evt.peer = [] → c.evt.qto = none → c.evt.wdogHit = false → c.main.flights = [] → c.seq.loop = none →
      (c.seq.drain = false ∨ c.seq.queue = []) → c.slot.st = .running → c.slot.stop = .no → c.slot.fatal = none →
      (first 0 → takes c 0x0C 0) ∧ (first 1 → takes c 0x10 0) ∧ (first 2 → takes c 0x11 time) ∧
      (∀ d i r, first 3 → c.evt.errQ = (d, i) :: r →
        takes { c with evt := { c.evt with errQ := r } } 0x12 (natW (0x10000 + 64 * d.val + i))) ∧
      (∀ n : Fin 8, first 3 → c.evt.errQ = [] → bit c.eng.relayTerm[n] 43 = true → (∀ i, i < n → bit c.eng.relayTerm[i] 43 = false) →
        takes { c with eng := { c.eng with relayTerm := c.eng.relayTerm.set n (setBits c.eng.relayTerm[n] 43 1 0) } } 0x12
          (natW (0x100 + n.val)))) ∧
    (∃ t : State, exec (.timerCompare k) s = .next t ∧ t = { s with now := s.now + (c.ctl.timerCmp.toNat - time.toNat) } ∧
      c.ctl.timerCmp.toNat ≤ (natW t.now - c.ctl.timeOff).toNat) ∧
    (let limit := bits c.ctl.wdog 0 32 * 1800
     (∀ t0, c.evt.holdSince = some t0 → limit ≠ 0 → t0 + limit ≤ s.now →
       exec (.watchdogExpiry k) s = .next (s.setCore k { c with evt := { c.evt with wdogHit := true, wdogIn := c.intrap } })) ∧
     (c.evt.holdSince = none ∨ limit = 0 ∨ (∃ t0, c.evt.holdSince = some t0 ∧ s.now < t0 + limit) →
       exec (.watchdogExpiry k) s = .next s)) ∧
    (let limit := max 1 s.dev.safeTimeout.toNat * 1800
     (∀ t0, c.slot.preq = some t0 → c.slot.st = .stopping → c.slot.stop = .no → t0 + limit ≤ s.now → c.seq.loop = none →
       exec (.safeTimeout k) s = .next (s.setCore k { c with slot := { c.slot with stop := .forced } })) ∧
     (c.slot.preq = none ∨ c.slot.st ≠ .stopping ∨ c.slot.stop ≠ .no ∨ (∃ t0, c.slot.preq = some t0 ∧ s.now < t0 + limit) →
       exec (.safeTimeout k) s = .next s)))

/-- R58, R61, R63, R64, R70 to R72, R76, R168. A launch that becomes READY is stated without explicit groups and data entries; the
pre-emption is stated where one launch is in the way. By the model's choice one step writes every bind record of a placement (log 64),
and a misaligned header gives REASON 1 (log 71, DEDUCED), as one outside the stacks and the fabric gives REASON 2. -/
def Obligations.Launches : Prop :=
  let finished (s t : State) (q : Fin 64) (n : Nat) (st : BitVec 8) (w : Word) : Prop :=
    ∀ e ∈ (s.qi q).packets, e.seq = n → e.result = none → { e with result := some (st, w), waitPage := none, fin := t.nextId - 1 } ∈ (t.qi q).packets
  (∀ (q : Fin 64) (n : Nat) (s : State) (p : Packet), (s.qi q).packets.find? (·.seq = n) = some p →
    let w0 := p.words.getD 0 0
    let may : Prop := bits w0 0 8 = 3 ∧ p.started = false ∧ p.result = none ∧
      ∀ e ∈ (s.qi q).packets, e.seq < n → bit w0 19 = false ∧ bits (e.words.getD 0 0) 0 8 ≠ 1
    let tag := BitVec.ofNat 16 (bits w0 48 16)
    let used : Prop := ∃ l ∈ s.sched.launches, l.queue = q ∧ l.tag = tag ∧ l.st ≠ .ended
    let behind : Prop := ∃ e ∈ (s.qi q).packets, e.seq < n ∧ bits (e.words.getD 0 0) 0 8 = 3 ∧ bits (e.words.getD 0 0) 48 16 = bits w0 48 16 ∧
      e.started = false ∧ e.result = none
    (¬ may ∨ behind → exec (.launchPacket q n) s = .next s) ∧
    (may → ¬ behind → used → ∃ t : State, exec (.launchPacket q n) s = .next t ∧ t.sched = s.sched ∧ t.mem = s.mem ∧ finished s t q n 7 0) ∧
    (may → ¬ behind → ¬ used → ∃ t : State, ∃ l : Launch, exec (.launchPacket q n) s = .next t ∧ t.mem = s.mem ∧ t.cores = s.cores ∧
      t.sched.launches = s.sched.launches ++ [l] ∧ l.lid = s.sched.lidNext ∧ l.queue = q ∧ l.pseq = n ∧ l.tag = tag ∧
      l.prio = BitVec.ofNat 3 (bits w0 41 3) ∧ l.ctx = (s.qi q).ctx ∧ l.hdrVa = p.words.getD 1 0 ∧ l.param = p.words.getD 2 0 ∧
      l.deps = (List.range (min (bits w0 44 4) 8)).map (fun i => BitVec.ofNat 16 (bits (p.words.getD (3 + i / 4) 0) (16 * (i % 4)) 16)) ∧
      l.st = .pending ∧ l.reason = 0 ∧ { p with started := true } ∈ (t.qi q).packets)) ∧
  (∀ (lid : BitVec 16) (s : State) (l : Launch), s.launch lid = some l →
    let e : Instr := .launchReady lid
    let live (d : BitVec 16) : Prop := (∃ m ∈ s.sched.launches, m.queue = l.queue ∧ m.tag = d ∧ m.st ≠ .ended) ∨
      ∃ p ∈ (s.qi l.queue).packets, p.seq < l.pseq ∧ bits (p.words.getD 0 0) 0 8 = 3 ∧
        BitVec.ofNat 16 (bits (p.words.getD 0 0) 48 16) = d ∧ p.started = false ∧ p.result = none
    let failed (d : BitVec 16) : Prop := ¬ live d ∧ d ∈ (s.qi l.queue).failed
    let ends (st reason : Nat) : Prop := ∃ t : State, exec e s = .next t ∧ t.launch lid = none ∧ (s.spilled = [] → t.mem = s.mem) ∧
      finished s t l.queue l.pseq (BitVec.ofNat 8 st) (natW (reason * 2 ^ 24)) ∧
      (l.tag ∈ (t.qi l.queue).failed ↔ st ≠ 0)
    let a := hartAcc l.ctx 0
    let reads (s : State) (n : Nat) (va : Word) : State × Except AccErr (List Word) := State.engReadWords a n s va
    (l.st ≠ .pending → exec e s = .next s) ∧
    (l.st = .pending → (∃ d ∈ l.deps, live d) → exec e s = .next s) ∧
    (l.st = .pending → l.exitVal = none → (∀ d ∈ l.deps, ¬ live d) →
      ((∃ d ∈ l.deps, failed d) → ends 8 7) ∧
      ((∀ d ∈ l.deps, ¬ failed d) →
        (l.hdrVa.toNat % 64 ≠ 0 → ends 8 1) ∧
        (l.hdrVa.toNat % 64 = 0 → bits l.hdrVa 48 16 = 0 →
          (∃ x, (s.xlate none l.ctx true .read l.hdrVa).2 = .ok x ∧ devOf x.sys = s.own ∧ inStacks (physOf x.sys) = false) → ends 8 2) ∧
        (l.hdrVa.toNat % 64 = 0 → bits l.hdrVa 48 16 = 0 →
          (∀ x, (s.xlate none l.ctx true .read l.hdrVa).2 = .ok x → devOf x.sys ≠ s.own ∨ inStacks (physOf x.sys) = true) →
          (∀ s1 x, reads s 2 l.hdrVa = (s1, .error x) → x ≠ .wait → ends 8 2) ∧
          (∀ s1 s2 (h : List Word), h.length = 8 → reads s 2 l.hdrVa = (s1, .ok (h.take 2)) →
            let w (i : Nat) : Word := h.getD i 0
            let f : Word := if s.host.featOk then s.host.featDrv[(0 : Fin 4)] else 0
            let head : Prop := bits (w 0) 32 32 = 0x42584C31 ∧ bits (w 0) 24 8 = 1 ∧ bits (w 0) 19 5 = 0 ∧
              (bit (w 0) 17 = false → bits (w 0) 0 16 = 0) ∧ bits (w 1) 57 7 = 0 ∧ bits (w 1) 50 7 ≤ 64 ∧ bits (w 1) 43 7 ≤ 64 ∧
              bits (w 1) 0 31 = 0
            let feats : Prop := (bit (w 0) 17 = true → bit f 5 = true) ∧ (bit (w 0) 18 = true → bit f 6 = true)
            let cores := bits (w 1) 50 7 * bits (w 1) 43 7
            let inMesh : Prop := bit (w 0) 16 = true → bits (w 1) 37 6 + bits (w 1) 50 7 ≤ 64 ∧ bits (w 1) 31 6 + bits (w 1) 43 7 ≤ 64
            let len := bits (w 3) 32 18
            let rest : Prop := bits (w 2) 48 16 = 0 ∧ bits (w 2) 0 6 = 0 ∧ bits (w 3) 50 14 = 0 ∧ len % 8 = 0 ∧ 8 ≤ len ∧ len ≤ 131072 ∧
              bits (w 3) 16 16 < len / 8 ∧ bits (w 3) 0 16 < len / 8 ∧ bits (w 4) 48 8 = 0 ∧ bits (w 4) 0 4 = 0 ∧ bits (w 5) 0 6 = 0 ∧
              bits (w 6) 48 8 = 0 ∧ bits (w 6) 0 4 = 0 ∧ w 7 = 0
            (cores = 0 → l.reason = 0 → head → feats → ends 0 0) ∧
            (cores ≠ 0 → reads s1 6 (l.hdrVa + 16) = (s2, .ok (h.drop 2)) →
              (¬ head → ends 8 1) ∧
              (head → ¬ feats → ends 8 4) ∧
              (head → feats → ¬ inMesh → ends 8 8) ∧
              (head → feats → inMesh → ¬ rest → ends 8 1) ∧
              (∀ s3 x, head → feats → inMesh → rest → reads s2 (len / 8) (natW (bits (w 2) 0 48)) = (s3, .error x) → x ≠ .wait →
                ends 8 2) ∧
              (∀ s3 ws, head → feats → inMesh → rest → reads s2 (len / 8) (natW (bits (w 2) 0 48)) = (s3, .ok ws) →
                bits (w 4) 56 8 = 0 → bits (w 6) 56 8 = 0 →
                ∃ t : State, exec e s = .next t ∧ t.mem = s.mem ∧
                  t.launch lid = some { l with st := .ready, hdr := h, groups := [List.range cores], data := [] }))))))) ∧
  (∀ (lid : BitVec 16) (s : State) (l : Launch), s.launch lid = some l →
    let e : Instr := .launchPlacement lid
    let w := bits (l.hdr.getD 1 0) 50 7
    let h := bits (l.hdr.getD 1 0) 43 7
    let fixed : Bool := bit (l.hdr.getD 0 0) 16
    let mpart := bits (l.hdr.getD 0 0) 0 16
    let bound (p : Nat × Core) : Prop := p.2.slot.st ≠ .idle
    let touched (x0 y0 k : Nat) : Prop := x0 / 4 ≤ k % 64 / 4 ∧ k % 64 / 4 ≤ (x0 + w - 1) / 4 ∧ y0 / 4 ≤ k / 64 % 64 / 4 ∧
      k / 64 % 64 / 4 ≤ (y0 + h - 1) / 4
    let free (x0 y0 : Nat) : Prop := (∀ p ∈ s.cores, bound p → ¬ touched x0 y0 p.1) ∧
      ∀ p ∈ s.parts, mpart.testBit p.1 = true → ∀ o c, p.2.owner = some (o, c) → o = lid
    let fits (x0 y0 : Nat) : Prop := x0 + w ≤ 64 ∧ y0 + h ≤ 64
    let chosen (x0 y0 : Nat) : Prop :=
      if fixed then x0 = bits (l.hdr.getD 1 0) 37 6 ∧ y0 = bits (l.hdr.getD 1 0) 31 6
      else x0 % 4 = 0 ∧ y0 % 4 = 0 ∧ ∀ x y, x % 4 = 0 → y % 4 = 0 → fits x y → y < y0 ∨ (y = y0 ∧ x < x0) → ¬ free x y
    (l.st ≠ .ready → exec e s = .next s) ∧
    (l.st = .ready → l.saved = false → (∀ m ∈ s.sched.launches, m.st = .ready → m.lid = lid) → (∀ p ∈ s.cores, bound p → p.2.slot.lid ≠ lid) →
      1 ≤ w → 1 ≤ h →
      (∀ x0 y0, l.groups.getD 0 [] = List.range (w * h) → fits x0 y0 → free x0 y0 → chosen x0 y0 →
        ∃ t : State, ∃ m : Launch, exec e s = .next t ∧ t.mem = s.mem ∧ t.net = s.net ∧ t.launch lid = some m ∧ m.st = .running ∧ m.x0 = x0 ∧ m.y0 = y0 ∧
          m.started = s.now ∧
          m.groups = l.groups.map (fun g => g.map fun r => if r < w * h then (y0 + r / w) * 64 + x0 + r % w else 0) ∧
          (∀ r, r < w * h → ∀ k : CoreIx, k.val = (y0 + r / w) * 64 + x0 + r % w →
            (t.core k).slot.st = .loading ∧ (t.core k).slot.load = .new ∧ (t.core k).slot.lid = lid ∧ (t.core k).slot.ctx = l.ctx ∧
            (t.core k).slot.lrank = BitVec.ofNat 12 r ∧ (t.core k).slot.prio = l.prio ∧ (t.core k).slot.err = false) ∧
          (∀ k : CoreIx, (∀ r, r < w * h → k.val ≠ (y0 + r / w) * 64 + x0 + r % w) → t.core k = s.core k) ∧
          ∀ p, p < 16 → t.part p = if mpart.testBit p then { Partition.reset with owner := some (lid, l.ctx) } else s.part p) ∧
      ((∀ x y, fits x y → (if fixed then x = bits (l.hdr.getD 1 0) 37 6 ∧ y = bits (l.hdr.getD 1 0) 31 6 else x % 4 = 0 ∧ y % 4 = 0) →
          ¬ free x y) → (fixed = true → fits (bits (l.hdr.getD 1 0) 37 6) (bits (l.hdr.getD 1 0) 31 6)) →
        ((∀ m ∈ s.sched.launches, m.st = .running → l.prio.toNat ≤ m.prio.toNat) → exec e s = .next s) ∧
        (∀ m ∈ s.sched.launches, m.st = .running → m.reason = 0 → m.prio.toNat < l.prio.toNat → w ≤ 64 → h ≤ 64 →
          (∀ m' ∈ s.sched.launches, m'.st = .running → m' = m) → (∀ p ∈ s.cores, bound p → p.2.slot.lid = m.lid) →
          (∀ p ∈ s.parts, mpart.testBit p.1 = true → ∀ o c, p.2.owner = some (o, c) → o = lid) →
          ∃ t : State, exec e s = .next t ∧ t.mem = s.mem ∧ t.net = s.net ∧ t.launch lid = some l ∧
            ∀ k, (s.core k).slot.lid = m.lid →
              ((s.core k).slot.st = .running → (t.core k).slot.st = .stopping ∧ (t.core k).slot.preq = some s.now) ∧
              ((s.core k).slot.st = .halted → (t.core k).slot.st = .saving))))) ∧
  (∀ (lid : BitVec 16) (s : State) (l : Launch), s.launch lid = some l →
    let mine (k : CoreIx) : Prop := (s.core k).slot.lid = lid ∧ (s.core k).slot.st ≠ .idle
    let stopped (k : CoreIx) : Prop := (s.core k).slot.st = .halted ∨ (s.core k).slot.st = .frozen
    let quiet (k : CoreIx) : Prop := (∀ q ∈ s.net, (∀ b f, q.src ≠ .core k b f) ∧ ∀ f d, q.src ≠ .row k f d) ∧
      (∀ x ∈ s.xfers, x.src ≠ k) ∧ (∀ p ∈ s.posts, p.core ≠ k) ∧ (s.core k).portWrites = []
    (l.st ≠ .running → exec (.launchEnd lid) s = .next s) ∧
    ((∃ k, mine k ∧ ¬ stopped k) → exec (.launchEnd lid) s = .next s) ∧
    ((∃ k, mine k ∧ ((∃ x ∈ (s.core k).eng.copies, x.ended = false) ∨ ¬ quiet k)) → exec (.launchEnd lid) s = .next s) ∧
    ((∃ q ∈ s.net, ∃ j, q.src = .left j lid) → exec (.launchEnd lid) s = .next s) ∧
    ((∃ p ∈ s.saves, p.1 / 4096 = lid.toNat) → l.reason ≠ 2 → l.reason ≠ 5 → l.reason ≠ 6 → exec (.launchEnd lid) s = .next s) ∧
    (l.st = .running → l.reason = 0 ∨ l.reason = 5 → (∃ k, mine k) →
      (∀ k, mine k → stopped k ∧ quiet k ∧ (∀ x ∈ (s.core k).eng.copies, x.ended = true) ∧ (s.core k).eng.sends = []) →
      (∀ p ∈ s.parts, ∀ c, p.2.owner = some (lid, c) → p.2.run = none ∧ p.2.sort = [] ∧ ∀ w ∈ s.mktWaits, w.part.val ≠ p.1) →
      (∀ g ∈ s.convoy.graphs, g.2.ctx = l.ctx → g.2.run = none ∧ g.2.queued = none) → (∀ p ∈ s.convoy.plays, p.2.ctx ≠ l.ctx) →
      (∀ q ∈ s.net, ∀ j, q.src ≠ .left j lid) → (∀ p ∈ s.saves, p.1 / 4096 ≠ lid.toNat) →
      let st : BitVec 8 := if l.reason = 0 then 0 else 8
      let word := (l.exitVal.getD 0).toNat * 2 ^ 32 + l.reason.toNat * 2 ^ 24 +
        (if l.reason = 5 then l.cause.toNat * 2 ^ 16 + l.core.toNat else 0)
      ∃ t : State, exec (.launchEnd lid) s = .next t ∧ (s.spilled = [] → t.mem = s.mem) ∧ t.launch lid = none ∧ (∀ k, mine k → (t.core k).slot.st = .idle) ∧
        (∀ k, ¬ mine k → t.core k = s.core k) ∧ finished s t l.queue l.pseq st (natW word) ∧
        (l.tag ∈ (t.qi l.queue).failed ↔ l.reason ≠ 0))) ∧
  (∀ (k : CoreIx) (s : State),
    (k ∉ s.sched.faults → exec (.groupFaultHandling k) s = .next s) ∧
    (∀ l cause val, k ∈ s.sched.faults → s.launchOf k = some l → (s.core k).slot.fatal = some (cause, val) → s.listed.Nodup →
      (∀ g ∈ l.groups, ∀ i ∈ g, i < 4096) → (∀ j, (s.core j).eng.copies = []) →
      let bound (j : CoreIx) : Prop := (s.core j).slot.lid = l.lid ∧ j.val ∈ l.groups.getD 0 [] ∧
        ((s.core j).slot.st = .running ∨ (s.core j).slot.st = .stopping ∨ (s.core j).slot.st = .halted)
      let shares (j : CoreIx) : Prop := j = k ∨ ∃ g, g ≠ 0 ∧ g < l.groups.length ∧ k.val ∈ l.groups.getD g [] ∧ j.val ∈ l.groups.getD g []
      ∃ t : State, exec (.groupFaultHandling k) s = .next t ∧ t.mem = s.mem ∧ k ∉ t.sched.faults ∧
        (l.reason = 0 → t.launch l.lid = some { l with reason := 5, cause := cause, core := BitVec.ofNat 12 k.val }) ∧
        (∀ j, bound j → shares j → (t.core j).slot.st = .frozen ∧ (t.core j).evt.inbox = (s.core j).evt.inbox) ∧
        ∀ j, bound j → ¬ shares j → (t.core j).slot = (s.core j).slot ∧
          s.Told t j { kind := 0x10, status := 0, source := BitVec.ofNat 16 k.val, xid := 0,
                       payload := natW (cause.toNat * 2 ^ 56 + val.toNat % 2 ^ 48) }))

/-- R50, R51, R57 to R63. Chunks are stated without ATS; a CANCEL is stated where no launch is running under its TAG. `crc16` is the CRC of
R57. By the model's choice a full completion ring keeps one entry free (log 40), RESULT is 0 of a packet cancelled before it starts (log 70), a
foreign PASID comes before a malformed form (log 69), an interface REVOKED bars every interface of its PASID (log 104), a masked vector stays
pending (log 100), a chunk ends at a multiple of 4 KiB of its destination (log 111), the completion of a ring that stays invalid has TAG and OP 0
(log 112), and refusals have a list of their own (log 113). -/
def Obligations.HostPackets : Prop :=
  let entry (x : Qi) (tag : BitVec 16) (op st : Nat) : Word :=
    natW ((if x.cqPass % 2 = 0 then 1 else 0) + st * 2 ^ 8 + op * 2 ^ 24 + x.sqHead % 65536 * 2 ^ 32 + tag.toNat * 2 ^ 48)
  let follows (s : State) (x : Qi) (q : Fin 64) : List HostWrite := if x.ien ∧ (s.vector q.val).masked = false then [HostWrite.msix q] else []
  let held (s t : State) (x : Qi) (q : Fin 64) : Prop := x.ien → (s.vector q.val).masked = true → q.val ∈ t.host.pba
  let barred (s : State) (x : Qi) : Prop := ∃ e ∈ s.host.qis, e.2.st = .revoked ∧ e.2.pasid = x.pasid
  let moved (x : Qi) (st : BitVec 8) : Qi :=
    let next := (x.cqTail + 1) % 2 ^ x.cqLog2.toNat
    { x with cqTail := next, cqPass := if next = 0 then x.cqPass + 1 else x.cqPass, err := if st = 0 then x.err else st }
  (∀ (q : Fin 64) (bytes : BitVec 512) (s : State),
    let x := s.qi q
    let size := 2 ^ x.cqLog2.toNat
    let used := (x.cqTail + size - x.cqHead.toNat % size) % size
    let may : Prop := ¬ barred s x ∧ x.st = .active ∧ x.closing = false ∧ x.sqHead ≠ x.sqTail.toNat ∧ x.packets.length < 32 ∧
      x.packets.length + used + 1 < size
    let ws := (List.range 8).map (dword bytes)
    let w (i : Nat) : Word := dword bytes i
    let op := bits (w 0) 0 8
    let valid : Prop := (bit (w 0) 40 = true ↔ x.sqPass % 2 = 0) ∧ bits (w 7) 48 16 = crc16 bytes 62
    let formed : Prop := bits (w 0) 8 11 = 0 ∧ bits (w 7) 0 48 = 0 ∧ w 5 = 0 ∧ w 6 = 0 ∧ op ≤ 4 ∧
      (op ≠ 3 → bits (w 0) 41 7 = 0) ∧ (op = 0 → w 1 = 0 ∧ w 2 = 0 ∧ w 3 = 0 ∧ w 4 = 0) ∧
      (op = 1 → bits (w 2) 48 16 = 0) ∧ (op = 1 ∨ op = 2 → bits (w 3) 32 32 = 0 ∧ bits (w 3) 0 32 ≠ 0 ∧ w 4 = 0) ∧
      (op = 3 → bits (w 0) 44 4 ≤ 8 ∧ ∀ i, i < 8 → bits (w 0) 44 4 ≤ i → bits (w (3 + i / 4)) (16 * (i % 4)) 16 = 0) ∧
      (op = 4 → bits (w 1) 16 48 = 0 ∧ w 2 = 0 ∧ w 3 = 0 ∧ w 4 = 0)
    let takes (e : Instr) (res : Option (BitVec 8 × Word)) (logs : List (Nat × Nat)) : Prop :=
      let next := (x.sqHead + 1) % 2 ^ x.sqLog2.toNat
      let p : Packet := { seq := x.nextSeq, words := ws, started := false, moved := 0, retried := [], waitPage := none, result := res,
                          fin := s.nextId }
      ∃ t : State, exec e s = .next t ∧ t.mem = s.mem ∧ t.host.refusals = s.host.refusals ++ logs ∧ t.host.out = s.host.out ∧
        t.qi q = { x with sqHead := next, sqPass := if next = 0 then x.sqPass + 1 else x.sqPass, nextSeq := x.nextSeq + 1,
                          failed := if op = 3 ∧ res ≠ none then BitVec.ofNat 16 (bits (w 0) 48 16) :: x.failed.filter (· != BitVec.ofNat 16 (bits (w 0) 48 16))
                                    else x.failed,
                          packets := x.packets ++ [p], rereads := 0, rereadAt := none }
    let taken (e : Instr) : Prop := (bits (w 0) 20 20 ≠ x.pasid.toNat → takes e (some (1, 0)) [(q.val, x.nextSeq)]) ∧
      (bits (w 0) 20 20 = x.pasid.toNat → ¬ formed → takes e (some (3, 0)) []) ∧
      (bits (w 0) 20 20 = x.pasid.toNat → formed → takes e none [])
    (¬ may ∨ x.rereadAt ≠ none → exec (.packetFetch q bytes) s = .next s) ∧
    (may → x.rereadAt = none → valid → taken (.packetFetch q bytes)) ∧
    (may → x.rereadAt = none → ¬ valid →
      exec (.packetFetch q bytes) s = .next (s.setQi q { x with rereadAt := some s.now, rereads := 0 })) ∧
    (x.rereadAt = none ∨ barred s x → exec (.packetReread q bytes) s = .next s) ∧
    (∀ t0, x.rereadAt = some t0 → ¬ barred s x → x.st = .active → x.closing = false →
      (s.now < t0 + 1800 → exec (.packetReread q bytes) s = .next s) ∧
      (t0 + 1800 ≤ s.now → valid → taken (.packetReread q bytes)) ∧
      (t0 + 1800 ≤ s.now → ¬ valid → x.rereads < 7 →
        exec (.packetReread q bytes) s = .next (s.setQi q { x with rereadAt := some s.now, rereads := x.rereads + 1 })) ∧
      (t0 + 1800 ≤ s.now → ¬ valid → 7 ≤ x.rereads → s.mgmt.fatal = none →
        ∃ t : State, exec (.packetReread q bytes) s = .next t ∧ t.mem = s.mem ∧
          t.qi q = moved { x with st := .error, rereadAt := none, rereads := 8 } 2 ∧
          t.host.out = s.host.out ++ HostWrite.completion q x.cqTail (entry x 0 0 2) (natW x.sqHead) :: follows s x q ∧ held s t x q))) ∧
  (∀ (q : Fin 64) (n : Nat) (s : State) (p : Packet), (s.qi q).packets.find? (·.seq = n) = some p →
    let x := s.qi q
    let w (i : Nat) : Word := p.words.getD i 0
    let opOf (e : Packet) : Nat := bits (e.words.getD 0 0) 0 8
    let may (op : Nat) : Prop := opOf p = op ∧ p.started = false ∧ p.result = none ∧
      ∀ e ∈ x.packets, e.seq < n → bit (w 0) 19 = false ∧ (op = 2 → opOf e ≠ 1 ∧ opOf e ≠ 3)
    let becomes (e : Instr) (f : Packet → Packet) (out : List HostWrite) : Prop :=
      ∃ t : State, exec e s = .next t ∧ t.mem = s.mem ∧ t.sched = s.sched ∧ t.host.out = s.host.out ++ out ∧
        t.qi q = { x with packets := x.packets.map f }
    let only (y : Packet) (e : Packet) : Packet := if e.seq = n then y else e
    (x.packets.map (·.seq)).Nodup →
    (¬ may 0 → exec (.nopPacket q n) s = .next s) ∧
    (may 0 → becomes (.nopPacket q n) (only { p with started := true, result := some (0, 0), waitPage := none, fin := s.nextId }) []) ∧
    (¬ may 1 → exec (.put q n) s = .next s) ∧ (may 1 → becomes (.put q n) (only { p with started := true }) []) ∧
    (¬ may 2 → exec (.get q n) s = .next s) ∧ (may 2 → becomes (.get q n) (only { p with started := true }) []) ∧
    (¬ may 4 → exec (.cancel q n) s = .next s) ∧
    (may 4 →
      let hit (e : Packet) : Prop := e.seq < n ∧ opOf e ≠ 4 ∧ (e.words.getD 0 0).toNat / 2 ^ 48 = bits (w 1) 0 16
      (∀ e ∈ x.packets, hit e → e.started = true → opOf e ≠ 3) →
      ∃ t : State, exec (.cancel q n) s = .next t ∧ t.mem = s.mem ∧ (t.qi q).packets.length = x.packets.length ∧
        (∀ e ∈ x.packets, hit e → e.result = none →
          ∃ f, { e with result := some (6, if e.started then natW e.moved else 0), waitPage := none, fin := f } ∈ (t.qi q).packets) ∧
        (∀ e ∈ x.packets, hit e → e.result = none → e.started = false → opOf e = 3 →
          BitVec.ofNat 16 (bits (e.words.getD 0 0) 48 16) ∈ (t.qi q).failed) ∧
        (∀ e ∈ x.packets, ¬ hit e ∨ e.result ≠ none → e.seq ≠ n → e ∈ (t.qi q).packets) ∧
        ∃ r : Word, { p with started := true, result := some (0, r), waitPage := none, fin := t.nextId - 1 } ∈ (t.qi q).packets ∧
          ((∃ e ∈ x.packets, hit e) → r = 0) ∧ ((∀ e ∈ x.packets, ¬ hit e) → r = 1)) ∧
    (∀ h : HostAccess, barred s x ∨ p.started = false ∨ p.result ≠ none ∨ p.waitPage ≠ none ∨ (opOf p ≠ 1 ∧ opOf p ≠ 2) →
      exec (.putGetChunk q n h) s = .next s) ∧
    (¬ barred s x → p.started = true → p.result = none → p.waitPage = none → opOf p = 1 ∨ opOf p = 2 →
      let len := bits (w 3) 0 32
      let dst := (if opOf p = 1 then w 2 else w 1).toNat + p.moved
      let size := min (4096 - dst % 4096) (len - p.moved)
      let page (i : Word) : Word := i &&& ~~~0xFFF
      let iova := w 1 + natW p.moved
      let ga := w 2 + natW p.moved
      let pri : Prop := s.host.featOk = true ∧ bit s.host.featDrv[(0 : Fin 4)] 2 = true
      let ats : Prop := s.host.featOk = true ∧ bit s.host.featDrv[(0 : Fin 4)] 1 = true
      let cached (i : Word) : Prop := ats ∧ (x.pasid, i &&& ~~~0xFFF) ∈ s.host.atc
      let next (f : Nat) : Packet :=
        if p.moved + size = len then
          { p with moved := p.moved + size, retried := [], result := some (0, natW len), waitPage := none, fin := f }
        else { p with moved := p.moved + size, retried := [] }
      let goes (h : HostAccess) (s1 : State) (out : List HostWrite) : Prop :=
        ∃ t : State, exec (.putGetChunk q n h) s = .next t ∧ t.mem = s1.mem ∧ t.host.out = s.host.out ++ out ∧
          t.qi q = { x with packets := x.packets.map (only (next (t.nextId - 1))) }
      let fails (h : HostAccess) (st : BitVec 8) (v : Word) : Prop := ∃ t : State, exec (.putGetChunk q n h) s = .next t ∧
        t.qi q = { x with packets := x.packets.map (only { p with result := some (st, v), waitPage := none, fin := t.nextId - 1 }) }
      (∀ i, cached i → exec (.putGetChunk q n (.noAccess i)) s = .next s ∧ exec (.putGetChunk q n (.needsPage i)) s = .next s) ∧
      (∀ i, ¬ cached i → ¬ pri ∨ page i ∈ p.retried → fails (.noAccess i) 4 i ∧ fails (.needsPage i) 4 i) ∧
      (∀ i, ¬ cached i → pri → page i ∉ p.retried → s.host.pageReqs.length < 256 →
        ∃ t : State, exec (.putGetChunk q n (.noAccess i)) s = .next t ∧ t.mem = s.mem ∧
          t.qi q = { x with packets := x.packets.map (only { p with waitPage := some i }) } ∧
          t.host.out = s.host.out ++ [HostWrite.pageRequest x.pasid (page i)] ∧
          t.host.pageReqs = s.host.pageReqs ++ [(q.val, page i)]) ∧
      (∀ bytes s1, opOf p = 1 → ¬ ats → let bs := (List.range size).map fun i => bytes.getD i 0
        (State.moveIn (packetAcc x.ctx) bs s ga = (s1, .ok ()) → goes (.data bytes) s1 []) ∧
        (∀ f, State.moveIn (packetAcc x.ctx) bs s ga = (s1, .error (some f)) → fails (.data bytes) 5 f)) ∧
      (∀ bytes s1, opOf p = 2 → ¬ ats →
        (∀ bs, State.moveOut (packetAcc x.ctx) size s ga = (s1, .ok bs) → goes (.data bytes) s1 [.data q iova bs]) ∧
        (∀ f, State.moveOut (packetAcc x.ctx) size s ga = (s1, .error (some f)) → fails (.data bytes) 5 f))) ∧
    (p.result = none → exec (.packetCompletion q n) s = .next s) ∧
    (∀ st v, p.result = some (st, v) → s.mgmt.fatal = none → x.closing = false →
      let cancels (c : Packet) : Prop := opOf c = 4 ∧ (∀ st v, c.result = some (st, v) → st = 0) ∧ ∃ e ∈ x.packets, e.seq < c.seq ∧ opOf e ≠ 4 ∧
        (e.words.getD 0 0).toNat / 2 ^ 48 = bits (c.words.getD 1 0) 0 16
      let waits : Prop := cancels p ∨ ∃ e ∈ x.packets, e.result ≠ none ∧ e.fin < p.fin ∧ ¬ cancels e
      (waits → exec (.packetCompletion q n) s = .next s) ∧
      (¬ waits → ∃ t : State, exec (.packetCompletion q n) s = .next t ∧ t.mem = s.mem ∧ t.cores = s.cores ∧
        t.qi q = moved { x with packets := x.packets.filter (·.seq ≠ n) } st ∧
        t.host.out = s.host.out ++
          .completion q x.cqTail (entry x (BitVec.ofNat 16 (bits (w 0) 48 16)) (opOf p) st.toNat) v :: follows s x q ∧ held s t x q)))

/-- R50, R52 to R56, R59 to R62. Resets are stated for interfaces without packets in work. By the model's choice the notify registers are 0 at
the enable (log 41), the failure of a stream that no interface used is logged as 0xFF (log 105), a masked vector stays pending (log 100), the
completion of status 9 has TAG and OP 0 (log 112), and refusals have a list of their own (log 113). -/
def Obligations.HostFunctions : Prop :=
  (∀ s : State,
    let f := s.host.featDrv
    let good : Prop := f[(0 : Fin 4)].toNat < 128 ∧ f[(1 : Fin 4)] = 0 ∧ f[(2 : Fin 4)] = 0 ∧ f[(3 : Fin 4)] = 0 ∧
      bit f[(0 : Fin 4)] 0 = true ∧ (bit f[(0 : Fin 4)] 2 = true → bit f[(0 : Fin 4)] 1 = true)
    (s.host.ready = false → exec .featuresOk s = .next s) ∧
    (s.host.ready = true → good → exec .featuresOk s = .next { s with host := { s.host with featOk := true, featBad := false } }) ∧
    (s.host.ready = true → ¬ good → exec .featuresOk s = .next { s with host := { s.host with featOk := false, featBad := true } })) ∧
  (∀ (q : Fin 64) (v : BitVec 32) (s : State),
    let x := s.qi q
    let inRing (log : BitVec 5) : Prop := v.toNat < 2 ^ log.toNat ∧ v.toNat < 65536
    (x.st ≠ .active → exec (.sqTail q v) s = .next s ∧ exec (.cqHead q v) s = .next s) ∧
    (x.st = .active →
      (inRing x.sqLog2 → exec (.sqTail q v) s = .next (s.setQi q { x with sqTail := v })) ∧
      (¬ inRing x.sqLog2 → exec (.sqTail q v) s = .next (s.setQi q { x with errors := x.errors + 1 })) ∧
      (inRing x.cqLog2 → exec (.cqHead q v) s = .next (s.setQi q { x with cqHead := v })) ∧
      (¬ inRing x.cqLog2 → exec (.cqHead q v) s = .next (s.setQi q { x with errors := x.errors + 1 })))) ∧
  (∀ (q : Fin 64) (s : State),
    let x := s.qi q
    let limit := if s.host.featOk = true ∧ bit s.host.featDrv[(0 : Fin 4)] 4 = true then 16 else 12
    let sizes : Prop := 6 ≤ x.sqLog2.toNat ∧ x.sqLog2.toNat ≤ limit ∧ 6 ≤ x.cqLog2.toNat ∧ x.cqLog2.toNat ≤ limit
    (x.st ≠ .disabled → exec (.qiEnable q) s = .next s) ∧
    (x.st = .disabled → s.host.featOk = true → sizes →
      ∃ t : State, exec (.qiEnable q) s = .next t ∧ t.mem = s.mem ∧ t.cores = s.cores ∧ (∀ j, j ≠ q → t.qi j = s.qi j) ∧
        t.qi q = { x with st := .active, sqHead := 0, cqTail := 0, sqPass := 0, cqPass := 0, sqTail := 0, cqHead := 0, failed := [],
                          rereadAt := none, rereads := 0, nextSeq := 0, packets := [], past := [] }) ∧
    (x.st = .disabled → s.host.featOk = false ∨ ¬ sizes → exec (.qiEnable q) s = .next (s.setQi q { x with err := 3 })) ∧
    (x.st = .disabled → exec (.qiDisable q) s = .next s) ∧
    (x.st ≠ .disabled → x.packets = [] →
      ∃ t : State, exec (.qiDisable q) s = .next t ∧ t.mem = s.mem ∧ t.host.out = s.host.out ∧ (∀ j, j ≠ q → t.qi j = s.qi j) ∧
        t.qi q = { x with st := .disabled, closing := false, rereadAt := none }) ∧
    (∀ p, x.st ≠ .disabled → x.packets = [p] → p.result = none → p.started = false → bits (p.words.getD 0 0) 0 8 ≠ 4 → s.mgmt.fatal = none →
      let w := p.words.getD 0 0
      let e := (if x.cqPass % 2 = 0 then 1 else 0) + 6 * 2 ^ 8 + bits w 0 8 * 2 ^ 24 + x.sqHead % 65536 * 2 ^ 32 + bits w 48 16 * 2 ^ 48
      ∃ t : State, exec (.qiDisable q) s = .next t ∧ t.mem = s.mem ∧ (t.qi q).st = .disabled ∧ (t.qi q).packets = [] ∧
        t.host.out = s.host.out ++ HostWrite.completion q x.cqTail (natW e) 0 ::
          (if x.ien ∧ (s.vector q.val).masked = false then [HostWrite.msix q] else [])) ∧
    (x.st ≠ .active → x.st ≠ .error → exec (.revoke q) s = .next s) ∧
    (x.st = .active ∨ x.st = .error → (∀ p ∈ x.packets, p.result = none → p.started = false) →
      ∃ t : State, exec (.revoke q) s = .next t ∧ t.mem = s.mem ∧ t.cores = s.cores ∧ t.host.out = s.host.out ∧
        t.host.atc = s.host.atc.filter (fun e => e.1 != x.pasid) ∧
        t.host.refusals = s.host.refusals ++ (x.packets.filter fun p => p.result.isNone).map (fun p => (q.val, p.seq)) ∧
        { t.qi q with packets := [], failed := [] } = { x with st := .revoked, rereadAt := none, packets := [], failed := [] } ∧
        (∀ tag, tag ∈ (t.qi q).failed ↔ tag ∈ x.failed ∨ ∃ p ∈ x.packets, p.result = none ∧ bits (p.words.getD 0 0) 0 8 = 3 ∧
          tag = BitVec.ofNat 16 (bits (p.words.getD 0 0) 48 16)) ∧
        (t.qi q).packets.length = x.packets.length ∧
        ∀ p ∈ x.packets, (p.result = none → ∃ f, { p with result := some (1, 0), waitPage := none, fin := f } ∈ (t.qi q).packets) ∧
          (p.result ≠ none → p ∈ (t.qi q).packets)) ∧
    (∀ (p : Packet) (l : Launch), x.st = .active ∨ x.st = .error → x.packets = [p] → p.result = none → p.started = true →
      bits (p.words.getD 0 0) 0 8 = 3 → s.sched.launches = [l] → l.queue = q → l.pseq = p.seq → l.st = .pending ∨ l.st = .ready → l.saved = false →
      s.spilled = [] →
      ∃ t : State, ∃ f, exec (.revoke q) s = .next t ∧ t.mem = s.mem ∧ t.cores = s.cores ∧ t.host.out = s.host.out ∧ t.launch l.lid = none ∧
        t.host.refusals = s.host.refusals ++ [(q.val, p.seq)] ∧ (t.qi q).st = .revoked ∧ l.tag ∈ (t.qi q).failed ∧
        (t.qi q).packets = [{ p with result := some (1, 0), waitPage := none, fin := f }]) ∧
    (let ide : Prop := s.host.featOk = true ∧ bit s.host.featDrv[(0 : Fin 4)] 3 = true
     let bound (j : Fin 64) : Option (Fin 4) := if ide then lookup s.host.streams j.val else none
     let uses (stream : Option (Fin 4)) (j : Fin 64) : Prop := (s.qi j).st ≠ .disabled ∧
       ((((s.qi j).nextSeq ≠ 0 ∨ (s.qi j).rereadAt ≠ none) ∧ bound j = stream) ∨ stream ∈ (s.qi j).past)
     ∀ stream : Option (Fin 4), s.mgmt.fatal = none → s.mgmt.plog.length + 64 < 262144 →
      let logs (t : State) (subject : Nat) : Prop :=
        t.mgmt.plog = s.mgmt.plog ++ [LogEntry.event 7 (BitVec.ofNat 24 subject) (BitVec.ofNat 48 (s.now / 1800))]
      (stream ≠ none → ¬ ide → exec (.ideIntegrityFailure stream [q]) s = .next s) ∧
      (∀ qs, stream = none ∨ ide → ∃ t : State, exec (.ideIntegrityFailure stream qs) s = .next t ∧ t.mem = s.mem ∧ t.cores = s.cores ∧
        ∀ j, (uses stream j ∨ (j ∈ qs ∧ bound j = stream) → (s.qi j).st = .active →
            (t.qi j).st = .error ∧ (t.qi j).err = 9 ∧ (t.qi j).packets = (s.qi j).packets) ∧
          (¬ uses stream j → j ∉ qs ∨ bound j ≠ stream → t.qi j = s.qi j)) ∧
      (stream ≠ none → ide → (∀ j, ¬ uses stream j) → bound q ≠ stream →
        ∃ t : State, exec (.ideIntegrityFailure stream [q]) s = .next t ∧ t.host = s.host ∧ logs t 0xFF) ∧
      (stream ≠ none → ide → (∀ j, j ≠ q → ¬ uses stream j) → uses stream q ∨ bound q = stream → ∃ t : State, exec (.ideIntegrityFailure stream [q]) s = .next t ∧ t.mem = s.mem ∧ t.cores = s.cores ∧ logs t q.val ∧
        (x.st ≠ .active → t.qi q = x ∧ t.host.out = s.host.out) ∧
        (x.st = .active →
          let e := (if x.cqPass % 2 = 0 then 1 else 0) + 9 * 2 ^ 8 + x.sqHead % 65536 * 2 ^ 32
          (t.qi q).st = .error ∧ (t.qi q).err = 9 ∧ (t.qi q).packets = x.packets ∧
          t.host.out = s.host.out ++ HostWrite.completion q x.cqTail (natW e) 0 ::
            (if x.ien ∧ (s.vector q.val).masked = false then [HostWrite.msix q] else []))) ∧
      (stream = none → (∀ j, ¬ uses none j) →
        ∃ t : State, exec (.ideIntegrityFailure none []) s = .next t ∧ t.host = s.host ∧ t.cores = s.cores ∧ logs t 0xFF))) ∧
  (∀ s : State, (∀ q, (s.qi q).packets = []) → ∀ e ∈ [Instr.functionReset, .functionLevelReset],
    ∃ t : State, exec e s = .next t ∧ t.mem = s.mem ∧ t.cores = s.cores ∧ (∀ q, (t.qi q).st = .disabled) ∧ t.host.featOk = false ∧
      t.host.featBad = false ∧ t.host.featDrv = Vector.replicate 4 0 ∧ t.host.atc = [] ∧ t.host.streams = [] ∧ t.host.out = s.host.out) ∧
  (∀ (pasid : BitVec 20) (page : Word) (s : State),
    let pg := page &&& ~~~0xFFF
    exec (.atsInvalidation pasid page) s = .next { s with host := { s.host with
      atc := s.host.atc.filter (fun e => !(e.1 == pasid && e.2 == pg)), out := s.host.out ++ [.invalidated pasid pg] } }) ∧
  (∀ (q : Fin 64) (page : Word) (good : Bool) (s : State),
    let pg := page &&& ~~~0xFFF
    ((q.val, pg) ∉ s.host.pageReqs → exec (.pageRequestResponse q page good) s = .next s) ∧
    (∀ p i, (q.val, pg) ∈ s.host.pageReqs → (s.qi q).packets = [p] → p.waitPage = some i → i &&& ~~~0xFFF = pg → p.result = none →
      ∃ t : State, ∃ y, exec (.pageRequestResponse q page good) s = .next t ∧ t.mem = s.mem ∧
        t.host.pageReqs = s.host.pageReqs.erase (q.val, pg) ∧ (t.qi q).packets = [y] ∧
        y = (if good then { p with waitPage := none, retried := pg :: p.retried } else { p with waitPage := none, result := some (4, i), fin := s.nextId })))

/-- R26, R29 to R31, R33, R36, R37. The devices that answer are named once each. The answer 0x2 before 0x8 is the model's choice (log 59);
that a second leg for another device is answered 0x1 and not logged is read from R30 and R37 (log 60, DEDUCED). -/
def Obligations.FabricBringup : Prop :=
  (∀ (n : Fin 16) (lanes : Fin 5) (answers : List (Fin 1024 × Option (BitVec 64))) (s : State),
    (answers.map (·.1)).Nodup →
    let ext (r : Option (BitVec 64)) : Bool := match r with
      | some w => bits w 32 32 == 0x464C5331 && bits w 8 8 == 1
      | none => false
    ∃ t : State, exec (.stationBringup n lanes answers) s = .next t ∧ t.fab.domainEn = false ∧ t.fab.fixed = false ∧ t.mem = s.mem ∧ t.cores = s.cores ∧
      t.fab.devid = s.fab.devid ∧ t.fab.tokens = s.fab.tokens ∧ t.fab.keys = s.fab.keys ∧
      (∀ j : Fin 16, j ≠ n → t.fab.stations[j] = s.fab.stations[j]) ∧
      (lanes.val = 4 → t.fab.stations[n].up = true ∧ t.mgmt = s.mgmt ∧
        (∀ a ∈ answers, t.peer a.1.val = { s.peer a.1.val with planes := (s.peer a.1.val).planes ||| ((1 : BitVec 16) <<< n.val), xt := ext a.2,
                                                                foreign := !ext a.2, valid := true }) ∧
        ∀ d : Fin 1024, (∀ a ∈ answers, a.1 ≠ d) →
          t.peer d.val = { s.peer d.val with planes := (s.peer d.val).planes &&& ~~~((1 : BitVec 16) <<< n.val) }) ∧
      (lanes.val ≠ 4 → t.fab.stations[n].up = false ∧
        (s.mgmt.plog.length < 262144 → t.mgmt.plog = s.mgmt.plog ++ [.event 6 (BitVec.ofNat 24 n.val) (BitVec.ofNat 48 (s.now / 1800))]) ∧
        ∀ d : Fin 1024, t.peer d.val = { s.peer d.val with planes := (s.peer d.val).planes &&& ~~~((1 : BitVec 16) <<< n.val) })) ∧
  (∀ (n : Fin 16) (s : State),
    ∃ t : State, exec (.stationLoss n) s = .next t ∧ t.mem = s.mem ∧ t.cores = s.cores ∧ t.mgmt = s.mgmt ∧ t.net = s.net ∧
      t.fab.domainEn = s.fab.domainEn ∧ t.fab.fixed = s.fab.fixed ∧ t.fab.stations[n].up = false ∧
      (∀ j : Fin 16, j ≠ n → t.fab.stations[j] = s.fab.stations[j]) ∧
      ∀ d : Fin 1024, t.peer d.val = { s.peer d.val with planes := (s.peer d.val).planes &&& ~~~((1 : BitVec 16) <<< n.val) }) ∧
  (∀ (v : Word) (s : State),
    (s.fab.idSet = true → exec (.devid v) s = .next s) ∧
    (s.fab.idSet = false →
      exec (.devid v) s = .next { s with fab := { s.fab with idSet := true, devid := Fin.ofNat 1024 (v.toNat % 1024) } }) ∧
    exec (.domainEn v) s = .next { s with fab := { s.fab with domainEn := v.getLsbD 0, fixed := s.fab.fixed || v.getLsbD 0 } }) ∧
  (∀ (r : FabTimeout) (v : Word) (s : State),
    let us (x : BitVec 32) : Nat := max 1 x.toNat
    let u : BitVec 32 := BitVec.ofNat 32 v.toNat
    ∃ t : State, exec (.fabRspTimeoutWrite r v) s = .next t ∧ t.mem = s.mem ∧ t.cores = s.cores ∧ t.net = s.net ∧ t.fab.tokens = s.fab.tokens ∧
      t.fab.feTimeout = (if r = .fe then u else s.fab.feTimeout) ∧
      t.fab.tokTimeout = (if r = .tok then u else s.fab.tokTimeout) ∧
      (let wanted := if r = .fabRsp then u else s.fab.rspTimeout
       let sum := us t.fab.feTimeout + us t.fab.tokTimeout
       (sum < us wanted → t.fab.rspTimeout = wanted) ∧
       (us wanted ≤ sum → sum + 1000 < 2 ^ 32 → t.fab.rspTimeout.toNat = sum + 1000))) ∧
  (∀ (r : FabReq) (s : State),
    let dev := r.addr.toNat / 2 ^ 40 % 1024
    let p := s.peer r.dev.val
    let reachable : Prop := (s.peer dev).valid = true ∧ (s.peer dev).planes ≠ 0
    let emits (o : FabOut) : State := { s with fab := { s.fab with out := s.fab.out ++ [o] } }
    let bare : Prop := p.xt = false ∧ (p.foreign = true ∨ r.hdr = 0)
    let tells (h : Word) (st : Nat) : Prop := ¬ bare → bits h 12 4 = st ∧ bit h 2 = false ∧ bits h 16 12 = bits r.hdr 16 12 ∧ crcMatches r.addr h [] = true
    let goes (h : Word) : Prop := bits h 0 32 = bits r.hdr 0 32 + 2 ^ 10 ∧
      crcMatches r.addr h (payloadOf r.kind) = crcMatches r.addr r.hdr (payloadOf r.kind)
    let refused (e : Instr) (st : BitVec 4) : Prop := ∃ t : State, ∃ h, exec e s = .next t ∧ t.mem = s.mem ∧ t.cores = s.cores ∧ t.net = s.net ∧
      t.fab.out = s.fab.out ++ [.reply r.dev st h 0] ∧ tells h st.toNat ∧ (t.vlog 0).count = (s.vlog 0).count + 1 ∧
      ∃ e, lookup (t.vlog 0).entries ((s.vlog 0).count % 64) = some e ∧ e.status = st ∧ e.dev = BitVec.ofNat 10 r.dev.val
    let bad : Prop := bits r.hdr 0 2 = 3 ∨ bits r.hdr 28 4 ≠ 1 ∨ bits r.hdr 2 4 ≠ 0 ∨ bits r.hdr 12 4 ≠ 0 ∨ 4 < bits r.hdr 6 3 ∨
      ((∃ n, r.kind = .load n) ∧ 2 < bits r.hdr 6 3) ∨ ((∃ n d, r.kind = .store n d) ∧ (bits r.hdr 6 3 = 1 ∨ bits r.hdr 6 3 = 2)) ∨
      ((∃ o a b, r.kind = .atomic o a b) ∧ 1 < bits r.hdr 6 3)
    let cap : Prop := r.kind = .load 8 ∧ r.addr.toNat = s.fab.devid.val * 2 ^ 40 + 0xF000000000
    (bit r.hdr 10 = true ∨ dev = s.fab.devid.val ∨ bare → exec (.sprForward r) s = .next s) ∧
    (bit r.hdr 10 = false → dev ≠ s.fab.devid.val → ¬ bare →
      (s.fab.domainEn = false → p.enc = false → refused (.sprForward r) 3) ∧
      (s.fab.domainEn = true → reachable → ∃ h, ∃ q : Fin 16, exec (.sprForward r) s = .next (emits (.forward { r with hdr := h } q)) ∧ goes h ∧
        (s.peer dev).planes.getLsbD q.val = true ∧
        ∀ j : Fin 16, (s.peer dev).planes.getLsbD j.val = true →
          s.fab.stations[q].outstanding < s.fab.stations[j].outstanding ∨
            (s.fab.stations[q].outstanding = s.fab.stations[j].outstanding ∧ q ≤ j)) ∧
      (s.fab.domainEn = true → ¬ reachable → p.enc = false →
        ∃ h, exec (.sprForward r) s = .next (emits (.reply r.dev 1 h 0)) ∧ tells h 1)) ∧
    (p.enc = false → cap → bare ∨ r.hdr = 0 → ∃ w, exec (.accessPerform (.fabric r)) s = .next (emits (.reply r.dev 0 0 w)) ∧
      bits w 32 32 = 0x464C5331 ∧ bits w 8 8 = 1) ∧
    (p.enc = false → s.fab.domainEn = false → ¬ (cap ∧ (bare ∨ bits r.hdr 6 3 = 0)) → refused (.accessPerform (.fabric r)) 3) ∧
    (p.enc = false → ¬ bare → s.fab.domainEn = true → (∀ v, r.kind ≠ .row v) → (cap → r.hdr ≠ 0) →
      (bad → refused (.accessPerform (.fabric r)) 2) ∧
      (¬ bad → crcMatches r.addr r.hdr (payloadOf r.kind) = false → refused (.accessPerform (.fabric r)) 8) ∧
      (¬ bad → crcMatches r.addr r.hdr (payloadOf r.kind) = true → dev ≠ s.fab.devid.val → bit r.hdr 10 = true →
        ∃ h, exec (.accessPerform (.fabric r)) s = .next (emits (.reply r.dev 1 h 0)) ∧ tells h 1)) ∧
    (r.tagOk = false → p.enc = true → s.mgmt.plog.length < 262144 → exec (.accessPerform (.fabric r)) s =
      .next { s with fab := { s.fab with tagFails := s.fab.tagFails + 1 },
                     mgmt := { s.mgmt with plog := s.mgmt.plog ++
                       [.event 8 (BitVec.ofNat 24 r.dev.val) (BitVec.ofNat 48 (s.now / 1800))] } })) ∧
  (∀ (id : Nat) (s : State) (k : CoreIx) (sr : SendRec), s.req id = none → s.sender id = some (k, sr) →
    ∃ t : State, exec (.fabRspTimeout id) s = .next t ∧ t.mem = s.mem ∧ t.net = s.net ∧ id ∈ t.fab.overdue ∧
      (t.vlog (dieOf k.val)).count = (s.vlog (dieOf k.val)).count + 1 ∧
      ∀ q ∈ (t.core k).eng.sends, q.id = id → q.answer = some (2, 9))

/-- Budgets are in milliwatts and rounded down (log 43). GO of ACCT_SNAP reads 0 at once: the model's choice (log 80). The
addresses of the BARs and the layout of BAR4 are the model's (log 100); P_LEAK and E_PAIR are free values. Which requests count as
pending for a region whose directory entry is written is log 4, DESIGN CHOICE. That FEATURES_OK written as 0 leaves the interfaces as they
are is log 114, DESIGN CHOICE. -/
def Obligations.RegistersAndPower : Prop :=
  (∀ (v : Word) (s : State),
    let ctx := v.toNat / 2 ^ 48 % 4096
    let scope := v.toNat / 2 ^ 61 % 4
    let hit (l : Leaf) : Bool := (scope == 2) || (scope == 1 && l.ctx.toNat == ctx) ||
      (scope == 0 && l.ctx.toNat == ctx && l.page == v.toNat / 2 ^ 16 % 2 ^ 32 * 2 ^ 16 / 2 ^ l.bits)
    let dev := { s.dev with xlatInv := v &&& 0x6FFFFFFFFFFF0000 }
    (v.getLsbD 63 = false → exec (.xlatInv v) s = .next { s with dev := dev }) ∧
    (v.getLsbD 63 = true → ∃ l p, exec (.xlatInv v) s = .next { s with dev := { dev with invPend := p }, tlb := l } ∧
      (∀ k, look [] l k = (look [] s.tlb k).filter fun x => !hit x) ∧
      ∀ id, id ∈ p ↔ id ∈ s.dev.invPend ∨
        (∃ r ∈ s.net, r.id = id ∧ (r.phase = .sent ∨ ∃ due, r.phase = .waiting due) ∧
          (∀ d k f, r.src ≠ .peer d k f) ∧ r.src ≠ .cache ∧ bits r.ga 62 2 = 0 ∧
          ∃ e ∈ s.tlb, ∃ x ∈ e.2, hit x = true ∧ x.ctx = r.ctx ∧ bits r.ga 0 48 / 2 ^ x.bits = x.page) ∨
        ∃ y ∈ s.xfers, y.id = id ∧ bits y.ga 62 2 = 0 ∧
          ∃ e ∈ s.tlb, ∃ x ∈ e.2, hit x = true ∧ x.ctx = (s.core y.src).slot.ctx ∧ bits y.ga 0 48 / 2 ^ x.bits = x.page) ∧
    (let c := v.toNat % 4096
     (∃ l, exec (.acctClr v) s = .next { s with dev := { s.dev with acct := l } } ∧
       ∀ n, look (Vector.replicate 16 0) l n = if n = c then Vector.replicate 16 0 else look (Vector.replicate 16 0) s.dev.acct n) ∧
     exec (.acctSnap v) s = .next { s with dev := { s.dev with
       acctSnap := v &&& 0xFFF
       snapBuf := if v.getLsbD 63 then look (Vector.replicate 16 0) s.dev.acct c else s.dev.snapBuf } })) ∧
  (∀ (v : Word) (s : State),
    let wr (a : Nat) : Host.Outcome State Fault Refusal := exec (.registerWrite (BitVec.ofNat 40 a) v) s
    let n (lo len : Nat) : Nat := v.toNat / 2 ^ lo % 2 ^ len
    wr 0xF000000008 = exec (.devid v) s ∧ wr 0xF000000010 = exec (.domainEn v) s ∧
    wr 0xF002000010 = exec (.fabRspTimeoutWrite .fe v) s ∧ wr 0xF002000018 = exec (.fabRspTimeoutWrite .fabRsp v) s ∧
    wr 0xF002000020 = exec (.fabRspTimeoutWrite .tok v) s ∧ wr 0xF003808000 = exec (.xlatInv v) s ∧
    wr 0xF00C080000 = exec (.acctClr v) s ∧ wr 0xF00C080008 = exec (.acctSnap v) s ∧
    wr 0xF002000000 = .next { s with dev := { s.dev with cvTimeout := BitVec.ofNat 32 v.toNat } } ∧
    wr 0xF002000008 = .next { s with dev := { s.dev with safeTimeout := BitVec.ofNat 32 v.toNat } } ∧
    wr 0xF00A020000 = .next { s with mgmt := { s.mgmt with kp := BitVec.ofNat 16 (n 0 16), ki := BitVec.ofNat 16 (n 16 16) } } ∧
    wr 0xF00A020008 = .next { s with mgmt := { s.mgmt with pkgLimit := BitVec.ofNat 12 (n 0 12) } } ∧
    (∀ d, d < 1024 →
      (s.fab.fixed = true → wr (0xF000010000 + 8 * d) = .next s) ∧
      (s.fab.fixed = false → ∃ l, wr (0xF000010000 + 8 * d) = .next { s with fab := { s.fab with peers := l } } ∧
        ∀ e, look PeerEntry.reset l e =
          if e = d then { s.peer d with keyslot := BitVec.ofNat 8 (n 40 8), enc := v.getLsbD 3 } else s.peer e)) ∧
    (∀ g, g < 2 ^ 19 →
      let t0 := s.token g
      let pending : Prop := t0.moving = true ∨ t0.queue ≠ [] ∨
        (∃ r ∈ s.net, (r.phase = .sent ∨ ∃ due, r.phase = .waiting due) ∧ r.touches s.own g = true) ∨
        ∃ w ∈ s.engWaits, devOf w.sys = s.own ∧ physOf w.sys / 2 ^ 21 = g
      (pending → wr (0xF001000000 + 2 * g) = .next s) ∧
      (¬ pending → ∃ l, wr (0xF001000000 + 2 * g) = .next { s with fab := { s.fab with tokens := l } } ∧
        ∀ e, lookup l e = if e = g then some { t0 with checked := v.getLsbD 15, holder := Fin.ofNat 1024 (n 0 10) } else lookup s.fab.tokens e)) ∧
    (∀ i, i < 384 → ∃ l, wr (0xF003000000 + 8 * i) = .next { s with dev := { s.dev with fabImport := l } } ∧
      ∀ e, look 0 l e = if e = i then v &&& 0x8000000000000FFF else look 0 s.dev.fabImport e) ∧
    (∀ c, c < 4096 → ∃ l, wr (0xF003800000 + 8 * c) = .next { s with dev := { s.dev with xlatRoot := l } } ∧
      ∀ e, look 0 l e = if e = c then v &&& 0x800000FFFFE00000 else look 0 s.dev.xlatRoot e) ∧
    (∀ i : CoreIx,
      let r : BindRec := { prio := BitVec.ofNat 3 (n 57 3), ctx := BitVec.ofNat 12 (n 40 12), lid := BitVec.ofNat 16 (n 24 16),
                           lrank := BitVec.ofNat 12 (n 12 12), seq := BitVec.ofNat 8 (n 4 8),
                           crec := BitVec.ofNat 40 (bits (s.core i).slot.rec1 0 40) }
      let slot := (s.core i).slot
      let a := 0xF004000000 + 32 * i.val
      (n 60 4 = 0 → wr a = exec (.slotActNone i r) s) ∧ (n 60 4 = 1 → wr a = exec (.bindNew i r) s) ∧
      (n 60 4 = 2 → wr a = exec (.bindResume i r) s) ∧ (n 60 4 = 3 → wr a = exec (.preempt i r) s) ∧
      (n 60 4 = 4 → wr a = exec (.release i r) s) ∧ (n 60 4 = 5 → wr a = exec (.freeze i r) s) ∧
      (6 ≤ n 60 4 → wr a = .next (s.setCore i { s.core i with
        slot := { slot with rec0 := v &&& 0xFE0FFFFFFFFFFFF0, rec1 := natW r.crec.toNat, act := BitVec.ofNat 4 (n 60 4), seq := r.seq,
                            aseq := r.seq, err := true } })) ∧
      wr (a + 8) = .next (s.setCore i { s.core i with slot := { slot with rec1 := natW (n 0 40) } })) ∧
    (∀ e, e < 1024 → ∃ t : State, wr (0xF006000000 + 32 * e) = .next t ∧ t.mem = s.mem ∧ t.cores = s.cores ∧
      look 0 t.prices e = 0 ∧ look 0 t.caps e = 0 ∧
      t.res e = { state := 0, hgrp := 0, pin := 0, ctx := BitVec.ofNat 12 (n 32 12), last := 0, xid := 0, srcVa := 0, plen := 0, wbase := 0 } ∧
      ∀ f, f ≠ e → t.res f = s.res f) ∧
    (∀ k, k < 256 →
      (∃ l, wr (0xF00A000000 + 8 * k) = .next { s with mgmt := { s.mgmt with budget := l } } ∧
        ∀ e, look 6000 l e = if e = k then BitVec.ofNat 20 (n 0 20) else look 6000 s.mgmt.budget e) ∧
      ∃ l, wr (0xF00A001000 + 8 * k) = .next { s with mgmt := { s.mgmt with cap := l } } ∧
        ∀ e, look 15 l e = if e = k then BitVec.ofNat 4 (n 20 4) else look 15 s.mgmt.cap e) ∧
    (∀ i : CoreIx, ∃ c, wr (0xF00A010000 + 8 * i.val) = .next (s.setCore i c) ∧
      c = { s.core i with ctl := { (s.core i).ctl with fduty := if n 0 5 = 0 then 1 else natW (n 0 5) } }) ∧
    (∀ c, c < 4096 → ∃ l, wr (0xF00A100000 + 8 * c) = .next { s with dev := { s.dev with wlSpill := l } } ∧
      ∀ e, look 0 l e = if e = c then v &&& 0x3FFFFFFFFFFFFFFF else look 0 s.dev.wlSpill e) ∧
    (let h := s.host
     wr 0 = .next { s with host := { h with featSel := BitVec.ofNat 2 (n 0 2) } } ∧
     (h.featOk = true → wr 0x10 = .next s) ∧
     (h.featOk = false → wr 0x10 = .next { s with host := { h with featDrv := h.featDrv.set h.featSel.toFin v } }) ∧
     (v.getLsbD 3 = true → wr 0x18 = exec .functionReset s) ∧
     (v.getLsbD 3 = false → v.getLsbD 1 = true → wr 0x18 = exec .featuresOk s) ∧
     (v.getLsbD 3 = false → v.getLsbD 1 = false → wr 0x18 = .next { s with host := { h with featOk := false } })) ∧
    (∀ q : Fin 64,
      let a := 0x1000 + 64 * q.val
      let x := s.qi q
      let page := 0x40000 + 0x1000 * q.val
      let count : State := if x.st = .active then s.setQi q { x with errors := x.errors + 1 } else s
      (wr page = exec (.sqTail q (BitVec.ofNat 32 (n 0 32))) s ∧ wr (page + 8) = exec (.cqHead q (BitVec.ofNat 32 (n 0 32))) s ∧
       (∀ o, o < 0x1000 → o ≠ 0 → o ≠ 8 → wr (page + o) = .next count) ∧ ∀ o, o < 0x1000 → wr (page + 0x40000 + o) = .next count) ∧
      (let y := s.vector q.val
       (∃ l, wr (0x10000 + 16 * q.val) = .next { s with host := { s.host with msix := l } } ∧
         ∀ j, look MsixVector.reset l j = if j = q.val then { y with addr := v } else look MsixVector.reset s.host.msix j) ∧
       ∃ l, (∀ j, look MsixVector.reset l j =
           if j = q.val then { y with data := BitVec.ofNat 32 (n 0 32), masked := v.getLsbD 32 } else look MsixVector.reset s.host.msix j) ∧
         (v.getLsbD 32 = true ∨ q.val ∉ s.host.pba → wr (0x10008 + 16 * q.val) = .next { s with host := { s.host with msix := l } }) ∧
         (v.getLsbD 32 = false → q.val ∈ s.host.pba → wr (0x10008 + 16 * q.val) =
           .next { s with host := { s.host with msix := l, pba := s.host.pba.erase q.val, out := s.host.out ++ [.msix q] } })) ∧
      (x.st ≠ .disabled → wr a = .next s ∧ wr (a + 8) = .next s ∧ wr (a + 0x10) = .next s) ∧
      (x.st = .disabled → wr a = .next (s.setQi q { x with sqBase := v &&& 0xFFFFFFFFFFFFFFC0 }) ∧
        wr (a + 8) = .next (s.setQi q { x with cqBase := v &&& 0xFFFFFFFFFFFFFFC0 }) ∧
        wr (a + 0x10) = .next (s.setQi q { x with pasid := BitVec.ofNat 20 (n 32 20), ctx := BitVec.ofNat 12 (n 20 12),
                                                  cqLog2 := BitVec.ofNat 5 (n 5 5), sqLog2 := BitVec.ofNat 5 (n 0 5) })) ∧
      (let s1 := s.setQi q { x with ien := v.getLsbD 4 }
       (v.getLsbD 1 = false → v.getLsbD 0 = true → wr (a + 0x18) = exec (.qiEnable q) s1) ∧
       (v.getLsbD 1 = false → v.getLsbD 0 = false → wr (a + 0x18) = exec (.qiDisable q) s1) ∧
       (v.getLsbD 1 = true → ∃ s2, exec (.revoke q) s1 = .next s2 ∧
         (v.getLsbD 0 = true → wr (a + 0x18) = exec (.qiEnable q) s2) ∧ (v.getLsbD 0 = false → wr (a + 0x18) = exec (.qiDisable q) s2))))) ∧
  (∀ (s : State) (r : List Move) (q : Fin 64) (i : CoreIx), s.stopped = false →
    let x := s.qi q
    let t := (s.core i).slot
    let h := s.host
    let code : Nat := match x.st with
      | .disabled => 0
      | .active => 1
      | .error => 2
      | .revoked => 3
    let reads (a : Nat) (w : Word) : Prop := step { s with agenda := .read (BitVec.ofNat 40 a) :: r } =
      .next { s with agenda := r, host := { h with out := h.out ++ [.value a w] } }
    reads 0 (natW h.featSel.toNat) ∧ reads 8 (if h.featSel = 0 then 0x7F else 0) ∧ reads 0x10 h.featDrv[h.featSel.toFin] ∧
    reads 0x18 (natW ((if h.featBad then 4 else 0) + (if h.featOk then 2 else 0) + (if h.ready then 1 else 0))) ∧ reads 0x20 s.devStatus ∧
    reads (0x1018 + 64 * q.val) (natW (x.err.toNat * 2 ^ 8 + (if x.ien then 16 else 0) + code * 4 +
      (if x.st ≠ .disabled ∧ x.closing = false then 1 else 0))) ∧
    reads (0x1020 + 64 * q.val) (natW (x.cqTail % 65536 * 2 ^ 16 + x.sqHead % 65536)) ∧
    reads (0x40000 + 0x1000 * q.val) (natW x.sqTail.toNat) ∧ reads (0x40008 + 0x1000 * q.val) (natW x.cqHead.toNat) ∧
    reads (0xF004000000 + 32 * i.val) t.rec0 ∧ reads (0xF004000008 + 32 * i.val) t.rec1 ∧
    (∃ c, reads (0xF004800000 + 8 * i.val) (natW (t.aseq.toNat * 2 ^ 16 + (if t.err then 2 ^ 15 else 0) + c * 2 ^ 8 + t.skind.toNat * 2 ^ 6)) ∧
      (t.st = .idle → c = 0) ∧ (t.st = .running → c = 2) ∧ (t.st = .halted → c = 6)) ∧
    reads 0xF003808000 (natW (s.dev.xlatInv.toNat % 2 ^ 63 + (if s.invalidating then 2 ^ 63 else 0)))) ∧
  (∀ (demand : List Nat) (other : Nat) (s : State),
    let m := s.mgmt
    let bound (k : Nat) : Bool := s.cores.any fun c => c.2.slot.st ≠ .idle && clusterOf c.1 = k
    let d (k : Nat) : Nat := if bound k then demand.getD k 0 else 0
    let total (f : Nat → Nat) : Nat := ((List.range 256).map f).sum
    let avail : Int := (max 512 (min 2800 m.pkgLimit.toNat) : Int) * 1000 - other - 256000
    let old (k : Nat) : Nat := (look (6000 : BitVec 20) m.budget k).toNat
    let final (k b : Nat) : BitVec 20 := BitVec.ofNat 20 (min (if 95 < m.sensors.temps.getD k 0 then min b (old k * 9 / 10) else b) 1048575)
    ∃ t : State, exec (.budgetPeriod demand other) s = .next t ∧ t.mem = s.mem ∧ t.dev = s.dev ∧ t.mgmt.pkgLimit = m.pkgLimit ∧
      t.mgmt.vstep = m.vstep ∧ t.mgmt.integ = m.integ ∧
      (avail < 0 → ∀ k, k < 256 → look 6000 t.mgmt.budget k = final k 1000) ∧
      (0 ≤ avail → total d ≤ avail.toNat → ∀ k, k < 256 →
        look 6000 t.mgmt.budget k = final k (1000 + d k + (avail.toNat - total d) / 256)) ∧
      (0 ≤ avail → avail.toNat < total d → ∃ lam, total (fun k => min (d k) lam) ≤ avail.toNat ∧
        avail.toNat < total (fun k => min (d k) (lam + 1)) ∧ ∀ k, k < 256 → look 6000 t.mgmt.budget k = final k (1000 + min (d k) lam)) ∧
      (∀ k, look 15 t.mgmt.cap k = if (m.sensors.rails.getD 0 (0, 0)).2 < 2850000 ∧ look 15 m.cap k ≠ 15 then look 15 m.cap k + 1
        else look 15 m.cap k) ∧
      ∀ i : CoreIx,
        let k := clusterOf i.val
        let duty := max 1 (min 16 ((s.core i).ctl.fduty.toNat % 32))
        let low : Prop := look (15 : BitVec 4) m.vstep k = 0 ∧
          (look (6000 : BitVec 20) t.mgmt.budget k).toNat < (look (0 : BitVec 16) m.est k).toNat
        (∃ w, t.core i = { s.core i with ctl := { (s.core i).ctl with fduty := w } }) ∧
        (low → max 1 (min 16 ((t.core i).ctl.fduty.toNat % 32)) = max 1 (duty - 2)) ∧
        (¬ low → max 1 (min 16 ((t.core i).ctl.fduty.toNat % 32)) = min 16 (duty + 1))) ∧
  (∀ (k : Fin 256) (est : BitVec 16) (s : State),
    let m := s.mgmt
    let cl (lo hi x : Int) : Int := max lo (min hi x)
    let e : Int := ((look (6000 : BitVec 20) m.budget k.val).toNat : Int) - est.toNat
    let i := cl (-32000) 32000 (look 0 m.integ k.val + e)
    let u : Int := m.kp.toNat * e + m.ki.toNat * i
    ∃ near : Int, (if 0 ≤ u then 256000 * near ≤ u + 128000 ∧ u + 128000 < 256000 * (near + 1)
        else 256000 * (near - 1) < u - 128000 ∧ u - 128000 ≤ 256000 * near) ∧
      let step := cl 0 (look (15 : BitVec 4) m.cap k.val).toNat ((look (15 : BitVec 4) m.vstep k.val).toNat + cl (-4) 1 near)
      exec (.controllerInterval k est) s = .next { s with mgmt := { m with
        est := put m.est k.val est, integ := put m.integ k.val i, vstep := put m.vstep k.val (BitVec.ofInt 4 step) } }) ∧
  (∀ s : State,
    (∃ l, exec .currentLimit s = .next { s with mgmt := { s.mgmt with cap := l } } ∧
      ∀ k, k < 256 → (look (15 : BitVec 4) l k).toNat = (look (15 : BitVec 4) s.mgmt.cap k).toNat - 2) ∧
    (∀ r, exec (.sensorSample r) s = .next { s with mgmt := { s.mgmt with sensors := r } }) ∧
    ∀ (k : CoreIx) (u : GatedUnit) (idle : Nat),
      let c := s.core k
      let j : Fin 7 := match u with
        | .band b => ⟨b.val, by omega⟩
        | .vector => 4
        | .sfu => 5
        | .copy => 6
      let new := (3 * c.pwr.t[j] + idle) / 4
      let kind : Fin 4 := match u with
        | .band _ => 0
        | .vector => 1
        | .sfu => 2
        | .copy => 3
      let off : Prop := ∃ b, u = .band b ∧ c.mat.bands.getLsbD b.val = false
      (off → exec (.unitWake k u idle) s = .next (s.setCore k c)) ∧
      (¬ off → exec (.unitWake k u idle) s = .next (s.setCore k { c with
        pwr := { t := c.pwr.t.set j new, gated := c.pwr.gated.set j (decide (Config.ePair kind < Config.pLeak kind * new)) } })))

/-- R14 to R25 of spec/01 and R83 to R91. A link to the Caravanserai has 16 modules, a neighbour link 8. What outlasts a restart
in `agenda`, `nextId` and `free` is the model's own; which modules train, and the self-test after PERST_N, are free values (log 103). PERST_N
keeps the accounting and POWER_UP clears it: the model's choice. That an access which waits at a burst is answered with 0x4 in the step in
which the burst turns uncorrectable is log 99, DESIGN CHOICE. `linkAt` names a link by one key, whichever of its ends is given; the end that a
link event names is log 108. Digests, signatures, their verification and certificates are free values (log 82). -/
def Obligations.FailuresFirmwareManagement : Prop :=
  let time (s : State) : BitVec 48 := BitVec.ofNat 48 (s.now / 1800)
  let sha := Config.sha384
  let bytes (n x : Nat) : List Byte := (List.range n).map fun k => BitVec.ofNat 8 (x / 2 ^ (8 * k))
  let head (i : FwImage) : List Byte := bytes 4 i.magic.toNat ++ bytes 4 i.svn.toNat ++ bytes 8 i.len.toNat ++ bytes 48 i.digest.toNat
  let valid (x : Option FwImage) (fuse : Nat) (keys : BitVec 384 × BitVec 384) : Bool := match x with
    | none => false
    | some i => i.magic == 0x464C4657 && sha i.edKey == keys.1 && sha i.mlKey == keys.2 && i.edKey.length == 32 && i.edSig.length == 64 &&
        i.mlKey.length == 1952 && i.mlSig.length == 3309 && Config.edVerify i.edKey i.edSig (head i) && Config.mlVerify i.mlKey i.mlSig (head i) &&
        sha i.body == i.digest && decide (i.body.length = i.len.toNat) && decide (i.svn.toNat ≤ 64) && decide (fuse ≤ i.svn.toNat) &&
        decide (i.len.toNat ≤ 12574720)
  let number (bs : List Byte) (off n : Nat) : Nat := ((List.range n).map fun k => (bs.getD (off + k) 0).toNat * 2 ^ (8 * k)).sum
  let part (bs : List Byte) (off n : Nat) : List Byte := (bs.drop off).take n
  (∀ (s : State) (e : Instr) (code : BitVec 8) (subject : Nat),
    ((∃ r, e = .railFault r ∧ code = 1 ∧ subject = r.val) ∨ (∃ c, e = .clockLoss c ∧ code = 2 ∧ subject = c.val) ∨
     (∃ x, e = .thermalTrip x ∧ code = 3 ∧ subject = x.val) ∨
     (∃ die link, linkAt die link ≠ none ∧ e = .linkLoss die link ∧ code = 4 ∧ subject = 16 * die.val + link.val)) →
    s.mgmt.plog.length + 10 ≤ 262144 →
    let ev : LogEntry := .event code (BitVec.ofNat 24 subject) (time s)
    ∃ t : State, exec e s = .next t ∧ t.mem = s.mem ∧ t.cores = s.cores ∧ t.dev = s.dev ∧ t.sched = s.sched ∧ t.host = s.host ∧
      (code = 3 → t.mgmt.thermN = false ∧ t.mgmt.powered = false) ∧
      (code ≠ 3 → t.mgmt.thermN = s.mgmt.thermN ∧ t.mgmt.powered = s.mgmt.powered) ∧
      (s.mgmt.fatal ≠ none → t.mgmt.fatal = s.mgmt.fatal ∧ t.mgmt.plog = s.mgmt.plog ++ [ev]) ∧
      (s.mgmt.fatal = none → t.mgmt.fatal = some (code, BitVec.ofNat 24 subject) ∧ t.fab.domainEn = false ∧
        t.devStatus = natW (1 + code.toNat * 2 ^ 8 + subject * 2 ^ 16) ∧
        (s.dev.acct = [] → t.mgmt.plog = s.mgmt.plog ++ [ev]) ∧
        ∀ (c : Nat) (v : Vector Word 16), s.dev.acct = [(c, v)] →
          (v = Vector.replicate 16 0 → t.mgmt.plog = s.mgmt.plog ++ [ev]) ∧
          (v ≠ Vector.replicate 16 0 → t.mgmt.plog = s.mgmt.plog ++ ev :: .event 9 (BitVec.ofNat 24 c) (time s) ::
            (List.finRange 8).map fun i => LogEntry.raw v[2 * i.val] v[2 * i.val + 1]))) ∧
  (∀ (s : State) (die : DieIx) (link module : Fin 16) (port : Fin 16) (key : Nat), linkAt die link = some key →
    let place := 16 * die.val + link.val
    let all := if link = 15 then 16 else 8
    let old := look [] s.dev.modules key
    let new := if module ∈ old then old else old ++ [module]
    (∃ l, exec (.linkRetry die link) s = .next { s with dev := { s.dev with linkCount := l } } ∧
      ∀ e, look 0 l e = look 0 s.dev.linkCount e + (if e = place then 1 else 0)) ∧
    exec (.refresh die port) s = .next s ∧
    (all ≤ module.val → exec (.moduleFailure die link module) s = .next s) ∧
    (module.val < all → s.mgmt.plog.length + 2 ≤ 262144 → s.dev.acct = [] →
      ∃ t : State, exec (.moduleFailure die link module) s = .next t ∧ t.mem = s.mem ∧ t.cores = s.cores ∧
      (∀ e, look [] t.dev.modules e = if e = key then new else look [] s.dev.modules e) ∧
      (let ev : LogEntry := .event 5 (BitVec.ofNat 24 (256 * die.val + 16 * link.val + module.val)) (time s)
       (new.length < all → t.mgmt.fatal = s.mgmt.fatal ∧ t.fab = s.fab ∧ t.mgmt.plog = s.mgmt.plog ++ [ev]) ∧
       (all ≤ new.length → s.mgmt.fatal = none → t.mgmt.fatal = some (4, BitVec.ofNat 24 place) ∧ t.fab.domainEn = false ∧
         t.mgmt.plog = s.mgmt.plog ++ [ev, .event 4 (BitVec.ofNat 24 place) (time s)])))) ∧
  (∀ (s : State) (die : DieIx) (link module : Fin 16), linkAt die link = none →
    exec (.linkRetry die link) s = .next s ∧ exec (.linkLoss die link) s = .next s ∧ exec (.moduleFailure die link module) s = .next s) ∧
  (∀ (s : State) (a : BitVec 40) (r : List Move), s.stopped = false → s.net = [] →
    let u := if 0x1000000000 ≤ a.toNat then a.toNat / 64 * 64 else a.toNat / 8 * 8
    let s1 := { s with agenda := r }
    a.toNat < 2 ^ 32 ∨ (0x1000000000 ≤ a.toNat ∧ a.toNat < 0x7000000000) → u ∉ s.bad →
      (step { s with agenda := .upset a false :: r } = .next { s1 with bad := u :: s.bad, weak := s.weak.filter (· ≠ u) }) ∧
      (u ∉ s.weak → step { s with agenda := .upset a true :: r } = .next { s1 with weak := u :: s.weak }) ∧
      ∀ c, step { s with agenda := .tear c :: r } = .next { s1 with dev := { s.dev with torn := s.dev.torn ++ [c] } }) ∧
  (∀ (s : State) (die : DieIx) (burst : BitVec 40),
    let u := burst.toNat / 64 * 64
    let here : Prop := 0x1000000000 + die.val * 0xC00000000 ≤ u ∧ u < 0x1000000000 + (die.val + 1) * 0xC00000000
    (¬ here → ∀ c, exec (.patrolScrub die burst c) s = .next s) ∧
    (here → u ∉ s.bad → s.weak.Nodup → (∀ x ∈ s.weak, x % 8 = 0 ∧ (0x1000000000 ≤ x → x % 64 = 0)) →
      (∃ l, exec (.patrolScrub die burst true) s = .next { s with weak := s.weak.filter (· ≠ u), dev := { s.dev with corrected := l } } ∧
        ∀ e, look 0 l e = look 0 s.dev.corrected e + (if e = 4 * die.val then 1 else 0)) ∧
      ((∀ r ∈ s.net, ∀ w, r.waitsAt s.own w = true → w / 8 ≠ u / 64) →
        exec (.patrolScrub die burst false) s = .next { s with bad := u :: s.bad, weak := s.weak.filter (· ≠ u) }) ∧
      (∀ (r : Req) (k : CoreIx) (h : Bool) (pc : Pc) (kind : AccKind), s.net = [r] → r.src = .core k h pc → r.op = .acc kind →
        (∃ due, r.phase = .waiting due) → r.waitsAt s.own (physOf r.sys / 8) = true → physOf r.sys / 64 = u / 64 → 0 < accWidth kind →
        s.admits r kind = none → s.tokenVerdict r.tokchk s.fab.devid (physOf r.sys) = .perform →
        ∃ t : State, exec (.patrolScrub die burst false) s = .next t ∧ t.mem = s.mem ∧ t.empties = s.empties ∧
          t.net = [{ r with phase := .answered 4 }])) ∧
    (let v := look Vlog.reset s.dev.vlogs die.val
     (v.count ≤ v.copied → exec (.violationLogCopy die) s = .next s) ∧
     ∀ e, v.copied < v.count → lookup v.entries (v.copied % 64) = some e → s.mgmt.plog.length < 262144 →
       ∃ l, exec (.violationLogCopy die) s = .next { s with dev := { s.dev with vlogs := l },
                                                            mgmt := { s.mgmt with plog := s.mgmt.plog ++ [.violation e] } } ∧
         ∀ d, look Vlog.reset l d = if d = die.val then { v with copied := v.copied + 1 } else look Vlog.reset s.dev.vlogs d)) ∧
  (∀ s : State,
    let m := s.mgmt
    let svn (x : Option FwImage) : Nat := match x with
      | none => 0
      | some i => i.svn.toNat
    let a := valid m.slotA m.fuseSvn m.fusedKeys
    let b := valid m.slotB m.fuseSvn m.fusedKeys
    let boot : Option Bool := if a then some (b && decide (svn m.slotA < svn m.slotB)) else if b then some true else none
    let gone := Config.untrained s.free
    let starts (e : Instr) (test : Bool) (acct : Assoc (Vector Word 16)) : Prop :=
      ∃ (p : List LogEntry) (lacks : Assoc (List (Fin 16))) (up : Bool), exec e s = .next { State.reset with
        agenda := s.agenda
        nextId := s.nextId
        free := s.free + 1
        host := { HostPort.reset with ready := boot.isSome && up }
        dev := { DevRegs.reset with acct := acct, modules := lacks }
        mgmt := { Mgmt.reset with plog := p, slotA := m.slotA, slotB := m.slotB, booted := boot, config := m.config, fuseSvn := m.fuseSvn,
                                  bootSvn := m.fuseSvn, bootConfig := m.config,
                                  fusedKeys := m.fusedKeys, locked := m.locked, compute := boot.isSome && up } } ∧
      (m.plog.length + 2 ≤ 262144 → p = m.plog ++ (if m.slotA ≠ none ∧ a = false then [LogEntry.event 0x0B 0 0] else []) ++
        (if m.slotB ≠ none ∧ b = false then [LogEntry.event 0x0B 1 0] else [])) ∧
      (∀ key m, m ∈ look [] lacks key ↔ ∃ die link, (die, link, m) ∈ gone ∧ linkAt die link = some key ∧ m.val < (if link = 15 then 16 else 8)) ∧
      (∀ key, (look [] lacks key).Nodup) ∧
      (up = true ↔ test = true ∧ ∀ die link key, linkAt die link = some key → (look [] lacks key).length ≤ (if link = 15 then 8 else 4))
    (∀ test, starts (.powerUp test) test []) ∧ starts .perstN (Config.selfTest s.free) s.dev.acct) ∧
  (∀ (s : State) (slot : Bool) (bs : List Byte),
    let m := s.mgmt
    let img : FwImage := { magic := BitVec.ofNat 32 (number bs 0 4), svn := BitVec.ofNat 32 (number bs 4 4), len := BitVec.ofNat 64 (number bs 8 8),
                           digest := BitVec.ofNat 384 (number bs 0x10 48), edSig := part bs 0x40 64, mlSig := part bs 0x80 3309,
                           edKey := part bs 0xD80 32, mlKey := part bs 0xDA0 1952, body := part bs 0x2000 (number bs 8 8) }
    let wr : State := { s with mgmt := if slot then { m with slotB := some img } else { m with slotA := some img } }
    (m.booted = some slot → exec (.firmwareImageWrite slot bs) s = .next s) ∧
    (m.booted ≠ some slot → m.plog.length < 262144 → exec (.firmwareImageWrite slot bs) s =
      .next (if valid (some img) m.fuseSvn m.fusedKeys = true then wr
        else { wr with mgmt := { wr.mgmt with plog := m.plog ++ [.event 0x0B (if slot then 1 else 0) (time s)] } })) ∧
    (∀ i, m.booted = some slot → (if slot then m.slotB else m.slotA) = some i →
      exec .firmwareCommit s = .next { s with mgmt := { m with fuseSvn := max m.fuseSvn i.svn.toNat, committed := true } }) ∧
    (m.booted = none → exec .firmwareCommit s = .next s)) ∧
  (∀ s : State,
    let m := s.mgmt
    let told (ws : List Word) : Mgmt := { m with answers := m.answers ++ [ws] }
    let image : BitVec 384 := match m.booted with
      | some true => (m.slotB.map (·.digest)).getD 0
      | some false => (m.slotA.map (·.digest)).getD 0
      | none => 0
    let six (d : BitVec 384) : List Word := (List.range 6).map fun i => natW (d.toNat / 2 ^ (64 * i))
    let blocks := six Config.romDigest ++ six image ++ six (Config.configDigest m.bootConfig) ++ [natW m.bootSvn, if m.locked then 1 else 0]
    (∀ slot nonce, exec (.spdmRequest (.measurements slot nonce)) s =
      .next { s with mgmt := told (blocks ++ Config.spdmSig slot nonce blocks) }) ∧
    (∀ slot, exec (.spdmRequest (.certificate slot)) s = .next { s with mgmt := told (Config.certificate slot) }) ∧
    (∀ slot phase, exec (.spdmRequest (.fabricKey slot phase false)) s = .next s) ∧
    (∀ n, exec (.spdmRequest (.ideKey n false)) s = .next s) ∧
    (∀ (slot : BitVec 8) (phase : Bool), ∃ l, exec (.spdmRequest (.fabricKey slot phase true)) s =
        .next { s with fab := { s.fab with keys := l }, mgmt := told [] } ∧
      (let k := look KeySlot.reset s.fab.keys slot.toNat
       let j : Fin 2 := if phase then 1 else 0
       look KeySlot.reset l slot.toNat = { kphase := phase, installed := k.installed.set j true, counter := k.counter.set j 0 }) ∧
      ∀ e, e ≠ slot.toNat → look KeySlot.reset l e = look KeySlot.reset s.fab.keys e) ∧
    (∀ n, ∃ l, exec (.spdmRequest (.ideKey n true)) s = .next { s with mgmt := { told [] with ideKeys := l } } ∧
      ∀ x, x ∈ l ↔ x = n ∨ x ∈ m.ideKeys) ∧
    (∀ ctx : BitVec 12, let c := look (Vector.replicate 16 (0 : Word)) s.dev.acct ctx.toNat
      exec (.oobAccountingRead (.counters ctx)) s = .next { s with dev := { s.dev with oobBuf := c }, mgmt := told c.toList }) ∧
    exec (.oobAccountingRead .errorLog) s = .next { s with mgmt := told (m.plog.flatMap fun e => match e with
      | .violation e =>
        [natW (e.status.toNat * 2 ^ 60 + e.dev.toNat * 2 ^ 50 + e.addr.toNat), natW (e.core.toNat * 2 ^ 52 + e.src.toNat * 2 ^ 48 + e.time.toNat)]
      | .event c x t => [natW (c.toNat * 2 ^ 24 + x.toNat), natW (15 * 2 ^ 48 + t.toNat)]
      | .raw a b => [a, b]) } ∧
    (let l : List Nat := m.sensors.temps ++ (m.sensors.rails.flatMap fun p => [p.1, p.2]) ++ m.sensors.diodes
     exec (.pldmMonitoringAndControl .readSensors) s = .next { s with mgmt := told (l.map natW) }) ∧
    (∀ w, exec (.pldmMonitoringAndControl (.setPkgLimit w)) s = .next { s with mgmt := { told [] with pkgLimit := w } }) ∧
    exec (.pldmMonitoringAndControl .mctpControl) s = .next { s with mgmt := told [] })
end

