-- ==== Sys2Proof/Laws/Memory.lean ====
section
/-!
SUPPORT. Laws of memory: a read after a write, the other addresses, and that every operation keeps the canonical form.
-/

namespace Sys2Proof.Machine

/-! ## One byte -/

theorem memGet_below {lo a : Nat} {l : List Host.Cell} (h : memWf lo l = true) (ha : a < lo) : memGet l a = 0 := by
  cases l with
  | nil => rfl
  | cons c r =>
    obtain ⟨k, b⟩ := c
    simp only [memWf, Bool.and_eq_true, decide_eq_true_eq] at h
    have h1 : k ≠ a := by omega
    have h2 : a < k := by omega
    simp [memGet, h1, h2]

theorem memWf_mono {lo lo' : Nat} {l : List Host.Cell} (h : memWf lo l = true) (hl : lo' ≤ lo) : memWf lo' l = true := by
  cases l with
  | nil => rfl
  | cons c r =>
    obtain ⟨k, b⟩ := c
    simp only [memWf, Bool.and_eq_true, decide_eq_true_eq] at h ⊢
    exact ⟨⟨by omega, h.1.2⟩, h.2⟩

theorem memPut_wf {lo a : Nat} {v : Byte} {l : List Host.Cell} (h : memWf lo l = true) (ha : lo ≤ a) :
    memWf lo (memPut l a v) = true := by
  induction l generalizing lo with
  | nil =>
    unfold memPut
    split
    · rfl
    · next hv =>
      have hv' : ¬ v = 0#8 := hv
      simp [memWf, hv', ha]
  | cons c r ih =>
    obtain ⟨k, b⟩ := c
    simp only [memWf, Bool.and_eq_true, decide_eq_true_eq, bne_iff_ne, ne_eq] at h
    obtain ⟨⟨h1, h2⟩, h3⟩ := h
    unfold memPut
    split
    · next e =>
      split
      · exact memWf_mono h3 (by omega)
      · next hv =>
        have hv' : ¬ v = 0#8 := hv
        simp [memWf, ha, hv', e ▸ h3]
    · split
      · next e hlt =>
        split
        · have h2' : ¬ b = 0#8 := h2
          simp [memWf, h1, h2', h3]
        · next hv =>
          simp only [memWf, Bool.and_eq_true, decide_eq_true_eq, bne_iff_ne, ne_eq]
          exact ⟨⟨ha, hv⟩, ⟨by omega, h2⟩, h3⟩
      · next e hlt =>
        simp only [memWf, Bool.and_eq_true, decide_eq_true_eq, bne_iff_ne, ne_eq]
        exact ⟨⟨h1, h2⟩, ih h3 (by omega)⟩

theorem memGet_put_same {lo a : Nat} {v : Byte} {l : List Host.Cell} (h : memWf lo l = true) :
    memGet (memPut l a v) a = v := by
  induction l generalizing lo with
  | nil =>
    unfold memPut
    split
    · next hv => simp [memGet, hv]
    · simp [memGet]
  | cons c r ih =>
    obtain ⟨k, b⟩ := c
    simp only [memWf, Bool.and_eq_true, decide_eq_true_eq, bne_iff_ne, ne_eq] at h
    obtain ⟨⟨h1, h2⟩, h3⟩ := h
    unfold memPut
    split
    · next e =>
      split
      · next hv => rw [hv]; exact memGet_below h3 (by omega)
      · simp [memGet]
    · split
      · next e hlt =>
        split
        · next hv => simp [memGet, e, hlt, hv]
        · simp [memGet]
      · next e hlt =>
        have e' : ¬ k = a := e
        simp only [memGet, e', hlt, if_false]
        exact ih h3

theorem memGet_put_other {lo a x : Nat} {v : Byte} {l : List Host.Cell} (h : memWf lo l = true) (hx : x ≠ a) :
    memGet (memPut l a v) x = memGet l x := by
  have hx' : ¬ a = x := fun e => hx e.symm
  induction l generalizing lo with
  | nil =>
    unfold memPut
    split
    · rfl
    · simp [memGet, hx']
  | cons c r ih =>
    obtain ⟨k, b⟩ := c
    simp only [memWf, Bool.and_eq_true, decide_eq_true_eq, bne_iff_ne, ne_eq] at h
    obtain ⟨⟨h1, h2⟩, h3⟩ := h
    unfold memPut
    split
    · next e =>
      subst e
      split
      · simp only [memGet, hx', if_false]
        split
        · exact memGet_below h3 (by omega)
        · rfl
      · simp [memGet, hx']
    · split
      · next e hlt =>
        split
        · rfl
        · by_cases hk : k = x
          · have h4 : ¬ x < a := by omega
            simp [memGet, hx', hk, h4]
          · by_cases hxa : x < a
            · have h5 : x < k := by omega
              simp [memGet, hx', hxa, hk, h5]
            · simp [memGet, hx', hxa, hk]
      · next e hlt =>
        simp only [memGet]
        split
        · rfl
        · split
          · rfl
          · exact ih h3

/-! ## Runs of bytes -/

theorem writeLE_wf {l : List Host.Cell} (h : Memory.wf l = true) (a n v : Nat) : Memory.wf (writeLE l a n v) = true := by
  induction n generalizing l a v with
  | zero => exact h
  | succ n ih => exact ih (memPut_wf h (Nat.zero_le _)) (a + 1) (v / 256)

/-- A write leaves every byte outside its range alone. -/
theorem memGet_writeLE_other {l : List Host.Cell} (h : Memory.wf l = true) {a n v x : Nat} (hx : x < a ∨ a + n ≤ x) :
    memGet (writeLE l a n v) x = memGet l x := by
  induction n generalizing l a v with
  | zero => rfl
  | succ n ih =>
    simp only [writeLE]
    rw [ih (memPut_wf h (Nat.zero_le _)) (by omega)]
    exact memGet_put_other h (by omega)

/-- A read of the bytes just written gives what was written. -/
theorem readLE_writeLE {l : List Host.Cell} (h : Memory.wf l = true) (a n v : Nat) :
    readLE (writeLE l a n v) a n = v % 2 ^ (8 * n) := by
  induction n generalizing l a v with
  | zero => simp [readLE, Nat.mod_one]
  | succ n ih =>
    have hp := memPut_wf (v := BitVec.ofNat 8 v) h (Nat.zero_le a)
    simp only [readLE, writeLE]
    rw [memGet_writeLE_other hp (by omega), memGet_put_same h, ih hp]
    have e : 2 ^ (8 * (n + 1)) = 256 * 2 ^ (8 * n) := by rw [Nat.mul_succ, Nat.pow_add]; omega
    rw [e, Nat.mod_mul]
    simp

/-- A read outside what is written. -/
theorem readLE_writeLE_other {l : List Host.Cell} (h : Memory.wf l = true) {a n v x m : Nat} (hx : x + m ≤ a ∨ a + n ≤ x) :
    readLE (writeLE l a n v) x m = readLE l x m := by
  induction m generalizing x with
  | zero => rfl
  | succ m ih =>
    simp only [readLE]
    rw [memGet_writeLE_other h (by omega), ih (by omega)]

theorem readLE_lt (l : List Host.Cell) (a n : Nat) : readLE l a n < 2 ^ (8 * n) := by
  induction n generalizing a with
  | zero => simp [readLE]
  | succ n ih =>
    have h1 := (memGet l a).isLt
    have h2 := ih (a + 1)
    have e : 2 ^ (8 * (n + 1)) = 256 * 2 ^ (8 * n) := by rw [Nat.mul_succ, Nat.pow_add]; omega
    simp only [readLE]; omega

/-! ## Images -/

/-- Addresses strictly rising from lo and below hi, no zero byte. -/
def memIn (lo hi : Nat) : List Host.Cell → Bool
  | [] => true
  | (k, b) :: r => lo ≤ k && k < hi && b != 0 && memIn (k + 1) hi r

theorem memWf_append {lo hi : Nat} {l r : List Host.Cell} (h : memIn lo hi l = true) (h' : memWf hi r = true)
    (hl : lo ≤ hi) : memWf lo (l ++ r) = true := by
  induction l generalizing lo with
  | nil => exact memWf_mono h' hl
  | cons c l ih =>
    obtain ⟨k, b⟩ := c
    simp only [memIn, Bool.and_eq_true, decide_eq_true_eq] at h
    obtain ⟨⟨⟨h1, h2⟩, h3⟩, h4⟩ := h
    simp only [List.cons_append, memWf, Bool.and_eq_true, decide_eq_true_eq]
    exact ⟨⟨h1, h3⟩, ih h4 (by omega)⟩

theorem memIn_append {lo mid hi : Nat} {l r : List Host.Cell} (h : memIn lo mid l = true) (h' : memIn mid hi r = true)
    (hl : lo ≤ mid) (hh : mid ≤ hi) : memIn lo hi (l ++ r) = true := by
  induction l generalizing lo with
  | nil =>
    cases r with
    | nil => rfl
    | cons c r =>
      obtain ⟨k, b⟩ := c
      simp only [memIn, Bool.and_eq_true, decide_eq_true_eq, List.nil_append] at h' ⊢
      exact ⟨⟨⟨by omega, h'.1.1.2⟩, h'.1.2⟩, h'.2⟩
  | cons c l ih =>
    obtain ⟨k, b⟩ := c
    simp only [memIn, Bool.and_eq_true, decide_eq_true_eq] at h
    obtain ⟨⟨⟨h1, h2⟩, h3⟩, h4⟩ := h
    simp only [List.cons_append, memIn, Bool.and_eq_true, decide_eq_true_eq]
    exact ⟨⟨⟨h1, by omega⟩, h3⟩, ih h4 (by omega)⟩

theorem memIn_filter_lt {lo a : Nat} {l : List Host.Cell} (h : memWf lo l = true) : memIn lo a (l.filter (·.1 < a)) = true := by
  induction l generalizing lo with
  | nil => rfl
  | cons c r ih =>
    obtain ⟨k, b⟩ := c
    simp only [memWf, Bool.and_eq_true, decide_eq_true_eq] at h
    obtain ⟨⟨h1, h2⟩, h3⟩ := h
    simp only [List.filter_cons]
    split
    · next hk =>
      simp only [decide_eq_true_eq] at hk
      simp only [memIn, Bool.and_eq_true, decide_eq_true_eq]
      exact ⟨⟨⟨h1, hk⟩, h2⟩, ih h3⟩
    · have h5 := ih h3
      cases hr : r.filter (·.1 < a) with
      | nil => rfl
      | cons c' r' =>
        rw [hr] at h5
        obtain ⟨k', b'⟩ := c'
        simp only [memIn, Bool.and_eq_true, decide_eq_true_eq] at h5 ⊢
        exact ⟨⟨⟨by omega, h5.1.1.2⟩, h5.1.2⟩, h5.2⟩

theorem memWf_filter {lo : Nat} {l : List Host.Cell} (h : memWf lo l = true) (p : Host.Cell → Bool) :
    memWf lo (l.filter p) = true := by
  induction l generalizing lo with
  | nil => rfl
  | cons c r ih =>
    obtain ⟨k, b⟩ := c
    simp only [memWf, Bool.and_eq_true, decide_eq_true_eq] at h
    obtain ⟨⟨h1, h2⟩, h3⟩ := h
    simp only [List.filter_cons]
    split
    · simp only [memWf, Bool.and_eq_true, decide_eq_true_eq]
      exact ⟨⟨h1, h2⟩, ih h3⟩
    · exact memWf_mono (ih h3) (by omega)

theorem memWf_filter_ge {lo a : Nat} {l : List Host.Cell} (h : memWf lo l = true) :
    memWf a (l.filter (a ≤ ·.1)) = true := by
  induction l generalizing lo with
  | nil => rfl
  | cons c r ih =>
    obtain ⟨k, b⟩ := c
    simp only [memWf, Bool.and_eq_true, decide_eq_true_eq] at h
    obtain ⟨⟨h1, h2⟩, h3⟩ := h
    simp only [List.filter_cons]
    split
    · next hk =>
      simp only [decide_eq_true_eq] at hk
      simp only [memWf, Bool.and_eq_true, decide_eq_true_eq]
      exact ⟨⟨hk, h2⟩, memWf_filter h3 _⟩
    · exact ih h3

/-- A replacement by a block that is canonical inside its range is canonical. -/
theorem memReplace_wf {l block : List Host.Cell} {a n : Nat} (h : Memory.wf l = true) (hb : memIn a (a + n) block = true) :
    Memory.wf (memReplace l a n block) = true :=
  memWf_append (memIn_append (memIn_filter_lt h) hb (Nat.zero_le _) (Nat.le_add_right _ _)) (memWf_filter_ge h) (Nat.zero_le _)

theorem memIn_shift {lo src dst n : Nat} {l : List Host.Cell} (h : memWf lo l = true) :
    memIn (max lo src - src + dst) (dst + n) ((l.filter fun c => src ≤ c.1 && c.1 < src + n).map fun c => (c.1 - src + dst, c.2)) = true := by
  induction l generalizing lo with
  | nil => rfl
  | cons c r ih =>
    obtain ⟨k, b⟩ := c
    simp only [memWf, Bool.and_eq_true, decide_eq_true_eq] at h
    obtain ⟨⟨h1, h2⟩, h3⟩ := h
    have h5 := ih h3
    simp only [List.filter_cons]
    split
    · next hk =>
      simp only [Bool.and_eq_true, decide_eq_true_eq] at hk
      simp only [List.map_cons, memIn, Bool.and_eq_true, decide_eq_true_eq]
      refine ⟨⟨⟨by omega, by omega⟩, h2⟩, ?_⟩
      have e : max (k + 1) src - src + dst = k - src + dst + 1 := by omega
      rw [e] at h5; exact h5
    · cases hr : (r.filter fun c => src ≤ c.1 && c.1 < src + n).map fun c => (c.1 - src + dst, c.2) with
      | nil => rfl
      | cons c' r' =>
        rw [hr] at h5
        obtain ⟨k', b'⟩ := c'
        simp only [memIn, Bool.and_eq_true, decide_eq_true_eq] at h5 ⊢
        exact ⟨⟨⟨by omega, h5.1.1.2⟩, h5.1.2⟩, h5.2⟩

theorem shiftCells_in {l : List Host.Cell} (h : Memory.wf l = true) (src dst n : Nat) :
    memIn dst (dst + n) (shiftCells l src dst n) = true := by
  have h1 := memIn_shift (src := src) (dst := dst) (n := n) h
  have e : max 0 src - src + dst = dst := by omega
  rw [e] at h1; exact h1

theorem memIn_bytes (f : Nat → Byte) (dst : Nat) (n m : Nat) :
    memIn (dst + m) (dst + m + n) (((List.range' m n)).filterMap fun j => if f j = 0 then none else some (dst + j, f j)) = true := by
  induction n generalizing m with
  | zero => rfl
  | succ n ih =>
    have h := ih (m + 1)
    have e1 : dst + (m + 1) = dst + m + 1 := by omega
    have e2 : dst + m + 1 + n = dst + m + (n + 1) := by omega
    rw [e1, e2] at h
    simp only [List.range'_succ, List.filterMap_cons]
    split
    · next hj =>
      cases hr : ((List.range' (m + 1) n)).filterMap fun j => if f j = 0 then none else some (dst + j, f j) with
      | nil => rfl
      | cons c' r' =>
        rw [hr] at h
        obtain ⟨k', b'⟩ := c'
        simp only [memIn, Bool.and_eq_true, decide_eq_true_eq] at h ⊢
        exact ⟨⟨⟨by omega, h.1.1.2⟩, h.1.2⟩, h.2⟩
    · next c hj =>
      split at hj
      · exact absurd hj (by simp)
      · next hz =>
        simp only [Option.some.injEq] at hj
        subst hj
        simp only [memIn, Bool.and_eq_true, decide_eq_true_eq]
        exact ⟨⟨⟨by omega, by omega⟩, by simpa using hz⟩, h⟩

/-! ## The memory of the device -/

theorem State.touch_mem (s : State) (a n : Nat) : (s.touch a n).mem = s.mem := by
  simp only [State.touch]
  split
  · split
    · rfl
    · split <;> rfl
  · rfl

theorem State.store_mem (s : State) (a n v : Nat) : (s.store a n v).mem = writeLE s.mem a n v := by
  simp [State.store, State.touch_mem]

theorem State.store_wf {s : State} (h : Memory.wf s.mem = true) (a n v : Nat) : Memory.wf (s.store a n v).mem = true := by
  rw [State.store_mem]; exact writeLE_wf h a n v

theorem State.copyImage_wf {s : State} (h : Memory.wf s.mem = true) (src dst n : Nat) :
    Memory.wf (s.copyImage src dst n).mem = true := memReplace_wf h (shiftCells_in h src dst n)

theorem State.clearImage_wf {s : State} (h : Memory.wf s.mem = true) (a n : Nat) : Memory.wf (s.clearImage a n).mem = true :=
  memReplace_wf h rfl

theorem State.feImage_wf {s : State} (h : Memory.wf s.mem = true) (w dst n : Nat) : Memory.wf (s.feImage w dst n).mem = true := by
  refine memReplace_wf h ?_
  have h1 := memIn_bytes (s.feByte w) dst n 0
  rw [← List.range_eq_range'] at h1
  exact h1

theorem State.clearWindow_wf {s : State} (h : Memory.wf s.mem = true) (k : CoreIx) : Memory.wf (s.clearWindow k).mem = true :=
  s.clearImage_wf h _ _

end Sys2Proof.Machine
end

