-- ==== Sys2Proof/Laws/State.lean ====
section
/-!
SUPPORT. The laws of tables, and what every named update of the state leaves as it was: one lemma per field.
-/

namespace Sys2Proof.Machine

/-! ## Tables -/

theorem look_put {α : Type} (d : α) (l : Assoc α) (k j : Nat) (a : α) :
    look d (put l k a) j = if j = k then a else look d l j := by
  suffices h : look d (put l k a) j = if k = j then a else look d l j by
    rw [h]; by_cases e : k = j
    · simp [e]
    · rw [if_neg e, if_neg (Ne.symm e)]
  induction l with
  | nil => simp only [put, look]
  | cons p r ih =>
    obtain ⟨k', b⟩ := p
    by_cases h1 : k' = k
    · subst h1; simp only [put, if_true, look]; by_cases h : k' = j <;> simp [h]
    · by_cases h2 : k < k'
      · simp only [put, if_neg h1, if_pos h2, look]
      · simp only [put, if_neg h1, if_neg h2, look, ih]
        by_cases h : k' = j
        · subst h; rw [if_pos rfl, if_pos rfl, if_neg (Ne.symm h1)]
        · simp [h]

@[simp] theorem look_put_self {α : Type} (d : α) (l : Assoc α) (k : Nat) (a : α) : look d (put l k a) k = a := by
  simp [look_put]

theorem look_put_of_ne {α : Type} (d : α) (l : Assoc α) (k j : Nat) (a : α) (h : j ≠ k) :
    look d (put l k a) j = look d l j := by simp [look_put, h]

@[simp] theorem put_put {α : Type} (l : Assoc α) (k : Nat) (a b : α) : put (put l k a) k b = put l k b := by
  induction l with
  | nil => simp [put]
  | cons p r ih =>
    obtain ⟨k', c⟩ := p
    by_cases h1 : k' = k
    · simp [put, h1]
    · by_cases h2 : k < k'
      · simp [put, h1, h2]
      · simp [put, h1, h2, ih]

/-! ## Cores -/

theorem core_setCore (s : State) (k j : CoreIx) (c : Core) : (s.setCore k c).core j = if j = k then c else s.core j := by
  simp only [State.core, State.setCore, look_put, Fin.val_inj]

@[simp] theorem core_setCore_self (s : State) (k : CoreIx) (c : Core) : (s.setCore k c).core k = c := by simp [core_setCore]

theorem core_setCore_ne (s : State) (k j : CoreIx) (c : Core) (h : j ≠ k) : (s.setCore k c).core j = s.core j := by
  simp [core_setCore, h]

@[simp] theorem setCore_setCore (s : State) (k : CoreIx) (c d : Core) : (s.setCore k c).setCore k d = s.setCore k d := by
  simp [State.setCore]

@[simp] theorem core_modCore_self (s : State) (k : CoreIx) (f : Core → Core) : (s.modCore k f).core k = f (s.core k) := by
  simp [State.modCore]

theorem core_modCore_ne (s : State) (k j : CoreIx) (f : Core → Core) (h : j ≠ k) : (s.modCore k f).core j = s.core j := by
  simp [State.modCore, core_setCore_ne _ _ _ _ h]

@[simp] theorem cc_mod (s : State) (f : Core → Core) : (s.mod f).cc = f s.cc := by simp [State.cc, State.mod, State.modCore, State.core, State.setCore]

/-! ## setCore -/

@[simp] theorem State.setCore_saves (s : State) (k : CoreIx) (c : Core) : (s.setCore k c).saves = s.saves := rfl
@[simp] theorem State.setCore_mem (s : State) (k : CoreIx) (c : Core) : (s.setCore k c).mem = s.mem := rfl
@[simp] theorem State.setCore_empties (s : State) (k : CoreIx) (c : Core) : (s.setCore k c).empties = s.empties := rfl
@[simp] theorem State.setCore_bad (s : State) (k : CoreIx) (c : Core) : (s.setCore k c).bad = s.bad := rfl
@[simp] theorem State.setCore_istore (s : State) (k : CoreIx) (c : Core) : (s.setCore k c).istore = s.istore := rfl
@[simp] theorem State.setCore_text (s : State) (k : CoreIx) (c : Core) : (s.setCore k c).text = s.text := rfl
@[simp] theorem State.setCore_tlb (s : State) (k : CoreIx) (c : Core) : (s.setCore k c).tlb = s.tlb := rfl
@[simp] theorem State.setCore_net (s : State) (k : CoreIx) (c : Core) : (s.setCore k c).net = s.net := rfl
@[simp] theorem State.setCore_xfers (s : State) (k : CoreIx) (c : Core) : (s.setCore k c).xfers = s.xfers := rfl
@[simp] theorem State.setCore_nextId (s : State) (k : CoreIx) (c : Core) : (s.setCore k c).nextId = s.nextId := rfl
@[simp] theorem State.setCore_lists (s : State) (k : CoreIx) (c : Core) : (s.setCore k c).lists = s.lists := rfl
@[simp] theorem State.setCore_spilled (s : State) (k : CoreIx) (c : Core) : (s.setCore k c).spilled = s.spilled := rfl
@[simp] theorem State.setCore_pushed (s : State) (k : CoreIx) (c : Core) : (s.setCore k c).pushed = s.pushed := rfl
@[simp] theorem State.setCore_pre (s : State) (k : CoreIx) (c : Core) : (s.setCore k c).pre = s.pre := rfl
@[simp] theorem State.setCore_parts (s : State) (k : CoreIx) (c : Core) : (s.setCore k c).parts = s.parts := rfl
@[simp] theorem State.setCore_prices (s : State) (k : CoreIx) (c : Core) : (s.setCore k c).prices = s.prices := rfl
@[simp] theorem State.setCore_caps (s : State) (k : CoreIx) (c : Core) : (s.setCore k c).caps = s.caps := rfl
@[simp] theorem State.setCore_posts (s : State) (k : CoreIx) (c : Core) : (s.setCore k c).posts = s.posts := rfl
@[simp] theorem State.setCore_postsLost (s : State) (k : CoreIx) (c : Core) : (s.setCore k c).postsLost = s.postsLost := rfl
@[simp] theorem State.setCore_convoy (s : State) (k : CoreIx) (c : Core) : (s.setCore k c).convoy = s.convoy := rfl
@[simp] theorem State.setCore_fab (s : State) (k : CoreIx) (c : Core) : (s.setCore k c).fab = s.fab := rfl
@[simp] theorem State.setCore_dev (s : State) (k : CoreIx) (c : Core) : (s.setCore k c).dev = s.dev := rfl
@[simp] theorem State.setCore_sched (s : State) (k : CoreIx) (c : Core) : (s.setCore k c).sched = s.sched := rfl
@[simp] theorem State.setCore_host (s : State) (k : CoreIx) (c : Core) : (s.setCore k c).host = s.host := rfl
@[simp] theorem State.setCore_mgmt (s : State) (k : CoreIx) (c : Core) : (s.setCore k c).mgmt = s.mgmt := rfl
@[simp] theorem State.setCore_now (s : State) (k : CoreIx) (c : Core) : (s.setCore k c).now = s.now := rfl
@[simp] theorem State.setCore_cur (s : State) (k : CoreIx) (c : Core) : (s.setCore k c).cur = s.cur := rfl
@[simp] theorem State.setCore_curH (s : State) (k : CoreIx) (c : Core) : (s.setCore k c).curH = s.curH := rfl
@[simp] theorem State.setCore_agenda (s : State) (k : CoreIx) (c : Core) : (s.setCore k c).agenda = s.agenda := rfl
@[simp] theorem State.setCore_turn (s : State) (k : CoreIx) (c : Core) : (s.setCore k c).turn = s.turn := rfl
@[simp] theorem State.setCore_bundle (s : State) (k : CoreIx) (c : Core) : (s.setCore k c).bundle = s.bundle := rfl
@[simp] theorem State.setCore_word (s : State) (k : CoreIx) (c : Core) : (s.setCore k c).word = s.word := rfl
@[simp] theorem State.setCore_slotSrc (s : State) (k : CoreIx) (c : Core) : (s.setCore k c).slotSrc = s.slotSrc := rfl
@[simp] theorem State.setCore_free (s : State) (k : CoreIx) (c : Core) : (s.setCore k c).free = s.free := rfl
@[simp] theorem State.setCore_seqHold (s : State) (k : CoreIx) (c : Core) : (s.setCore k c).seqHold = s.seqHold := rfl
@[simp] theorem State.setCore_weak (s : State) (k : CoreIx) (c : Core) : (s.setCore k c).weak = s.weak := rfl
@[simp] theorem State.setCore_engWaits (s : State) (k : CoreIx) (c : Core) : (s.setCore k c).engWaits = s.engWaits := rfl
@[simp] theorem State.setCore_mktWaits (s : State) (k : CoreIx) (c : Core) : (s.setCore k c).mktWaits = s.mktWaits := rfl

/-! ## modCore -/

@[simp] theorem State.modCore_saves (s : State) (k : CoreIx) (f : Core → Core) : (s.modCore k f).saves = s.saves := rfl
@[simp] theorem State.modCore_mem (s : State) (k : CoreIx) (f : Core → Core) : (s.modCore k f).mem = s.mem := rfl
@[simp] theorem State.modCore_empties (s : State) (k : CoreIx) (f : Core → Core) : (s.modCore k f).empties = s.empties := rfl
@[simp] theorem State.modCore_bad (s : State) (k : CoreIx) (f : Core → Core) : (s.modCore k f).bad = s.bad := rfl
@[simp] theorem State.modCore_istore (s : State) (k : CoreIx) (f : Core → Core) : (s.modCore k f).istore = s.istore := rfl
@[simp] theorem State.modCore_text (s : State) (k : CoreIx) (f : Core → Core) : (s.modCore k f).text = s.text := rfl
@[simp] theorem State.modCore_tlb (s : State) (k : CoreIx) (f : Core → Core) : (s.modCore k f).tlb = s.tlb := rfl
@[simp] theorem State.modCore_net (s : State) (k : CoreIx) (f : Core → Core) : (s.modCore k f).net = s.net := rfl
@[simp] theorem State.modCore_xfers (s : State) (k : CoreIx) (f : Core → Core) : (s.modCore k f).xfers = s.xfers := rfl
@[simp] theorem State.modCore_nextId (s : State) (k : CoreIx) (f : Core → Core) : (s.modCore k f).nextId = s.nextId := rfl
@[simp] theorem State.modCore_lists (s : State) (k : CoreIx) (f : Core → Core) : (s.modCore k f).lists = s.lists := rfl
@[simp] theorem State.modCore_spilled (s : State) (k : CoreIx) (f : Core → Core) : (s.modCore k f).spilled = s.spilled := rfl
@[simp] theorem State.modCore_pushed (s : State) (k : CoreIx) (f : Core → Core) : (s.modCore k f).pushed = s.pushed := rfl
@[simp] theorem State.modCore_pre (s : State) (k : CoreIx) (f : Core → Core) : (s.modCore k f).pre = s.pre := rfl
@[simp] theorem State.modCore_parts (s : State) (k : CoreIx) (f : Core → Core) : (s.modCore k f).parts = s.parts := rfl
@[simp] theorem State.modCore_prices (s : State) (k : CoreIx) (f : Core → Core) : (s.modCore k f).prices = s.prices := rfl
@[simp] theorem State.modCore_caps (s : State) (k : CoreIx) (f : Core → Core) : (s.modCore k f).caps = s.caps := rfl
@[simp] theorem State.modCore_posts (s : State) (k : CoreIx) (f : Core → Core) : (s.modCore k f).posts = s.posts := rfl
@[simp] theorem State.modCore_postsLost (s : State) (k : CoreIx) (f : Core → Core) : (s.modCore k f).postsLost = s.postsLost := rfl
@[simp] theorem State.modCore_convoy (s : State) (k : CoreIx) (f : Core → Core) : (s.modCore k f).convoy = s.convoy := rfl
@[simp] theorem State.modCore_fab (s : State) (k : CoreIx) (f : Core → Core) : (s.modCore k f).fab = s.fab := rfl
@[simp] theorem State.modCore_dev (s : State) (k : CoreIx) (f : Core → Core) : (s.modCore k f).dev = s.dev := rfl
@[simp] theorem State.modCore_sched (s : State) (k : CoreIx) (f : Core → Core) : (s.modCore k f).sched = s.sched := rfl
@[simp] theorem State.modCore_host (s : State) (k : CoreIx) (f : Core → Core) : (s.modCore k f).host = s.host := rfl
@[simp] theorem State.modCore_mgmt (s : State) (k : CoreIx) (f : Core → Core) : (s.modCore k f).mgmt = s.mgmt := rfl
@[simp] theorem State.modCore_now (s : State) (k : CoreIx) (f : Core → Core) : (s.modCore k f).now = s.now := rfl
@[simp] theorem State.modCore_cur (s : State) (k : CoreIx) (f : Core → Core) : (s.modCore k f).cur = s.cur := rfl
@[simp] theorem State.modCore_curH (s : State) (k : CoreIx) (f : Core → Core) : (s.modCore k f).curH = s.curH := rfl
@[simp] theorem State.modCore_agenda (s : State) (k : CoreIx) (f : Core → Core) : (s.modCore k f).agenda = s.agenda := rfl
@[simp] theorem State.modCore_turn (s : State) (k : CoreIx) (f : Core → Core) : (s.modCore k f).turn = s.turn := rfl
@[simp] theorem State.modCore_bundle (s : State) (k : CoreIx) (f : Core → Core) : (s.modCore k f).bundle = s.bundle := rfl
@[simp] theorem State.modCore_word (s : State) (k : CoreIx) (f : Core → Core) : (s.modCore k f).word = s.word := rfl
@[simp] theorem State.modCore_slotSrc (s : State) (k : CoreIx) (f : Core → Core) : (s.modCore k f).slotSrc = s.slotSrc := rfl
@[simp] theorem State.modCore_free (s : State) (k : CoreIx) (f : Core → Core) : (s.modCore k f).free = s.free := rfl
@[simp] theorem State.modCore_seqHold (s : State) (k : CoreIx) (f : Core → Core) : (s.modCore k f).seqHold = s.seqHold := rfl
@[simp] theorem State.modCore_weak (s : State) (k : CoreIx) (f : Core → Core) : (s.modCore k f).weak = s.weak := rfl
@[simp] theorem State.modCore_engWaits (s : State) (k : CoreIx) (f : Core → Core) : (s.modCore k f).engWaits = s.engWaits := rfl
@[simp] theorem State.modCore_mktWaits (s : State) (k : CoreIx) (f : Core → Core) : (s.modCore k f).mktWaits = s.mktWaits := rfl

/-! ## mod -/

@[simp] theorem State.mod_saves (s : State) (f : Core → Core) : (s.mod f).saves = s.saves := rfl
@[simp] theorem State.mod_mem (s : State) (f : Core → Core) : (s.mod f).mem = s.mem := rfl
@[simp] theorem State.mod_empties (s : State) (f : Core → Core) : (s.mod f).empties = s.empties := rfl
@[simp] theorem State.mod_bad (s : State) (f : Core → Core) : (s.mod f).bad = s.bad := rfl
@[simp] theorem State.mod_istore (s : State) (f : Core → Core) : (s.mod f).istore = s.istore := rfl
@[simp] theorem State.mod_text (s : State) (f : Core → Core) : (s.mod f).text = s.text := rfl
@[simp] theorem State.mod_tlb (s : State) (f : Core → Core) : (s.mod f).tlb = s.tlb := rfl
@[simp] theorem State.mod_net (s : State) (f : Core → Core) : (s.mod f).net = s.net := rfl
@[simp] theorem State.mod_xfers (s : State) (f : Core → Core) : (s.mod f).xfers = s.xfers := rfl
@[simp] theorem State.mod_nextId (s : State) (f : Core → Core) : (s.mod f).nextId = s.nextId := rfl
@[simp] theorem State.mod_lists (s : State) (f : Core → Core) : (s.mod f).lists = s.lists := rfl
@[simp] theorem State.mod_spilled (s : State) (f : Core → Core) : (s.mod f).spilled = s.spilled := rfl
@[simp] theorem State.mod_pushed (s : State) (f : Core → Core) : (s.mod f).pushed = s.pushed := rfl
@[simp] theorem State.mod_pre (s : State) (f : Core → Core) : (s.mod f).pre = s.pre := rfl
@[simp] theorem State.mod_parts (s : State) (f : Core → Core) : (s.mod f).parts = s.parts := rfl
@[simp] theorem State.mod_prices (s : State) (f : Core → Core) : (s.mod f).prices = s.prices := rfl
@[simp] theorem State.mod_caps (s : State) (f : Core → Core) : (s.mod f).caps = s.caps := rfl
@[simp] theorem State.mod_posts (s : State) (f : Core → Core) : (s.mod f).posts = s.posts := rfl
@[simp] theorem State.mod_postsLost (s : State) (f : Core → Core) : (s.mod f).postsLost = s.postsLost := rfl
@[simp] theorem State.mod_convoy (s : State) (f : Core → Core) : (s.mod f).convoy = s.convoy := rfl
@[simp] theorem State.mod_fab (s : State) (f : Core → Core) : (s.mod f).fab = s.fab := rfl
@[simp] theorem State.mod_dev (s : State) (f : Core → Core) : (s.mod f).dev = s.dev := rfl
@[simp] theorem State.mod_sched (s : State) (f : Core → Core) : (s.mod f).sched = s.sched := rfl
@[simp] theorem State.mod_host (s : State) (f : Core → Core) : (s.mod f).host = s.host := rfl
@[simp] theorem State.mod_mgmt (s : State) (f : Core → Core) : (s.mod f).mgmt = s.mgmt := rfl
@[simp] theorem State.mod_now (s : State) (f : Core → Core) : (s.mod f).now = s.now := rfl
@[simp] theorem State.mod_cur (s : State) (f : Core → Core) : (s.mod f).cur = s.cur := rfl
@[simp] theorem State.mod_curH (s : State) (f : Core → Core) : (s.mod f).curH = s.curH := rfl
@[simp] theorem State.mod_agenda (s : State) (f : Core → Core) : (s.mod f).agenda = s.agenda := rfl
@[simp] theorem State.mod_turn (s : State) (f : Core → Core) : (s.mod f).turn = s.turn := rfl
@[simp] theorem State.mod_bundle (s : State) (f : Core → Core) : (s.mod f).bundle = s.bundle := rfl
@[simp] theorem State.mod_word (s : State) (f : Core → Core) : (s.mod f).word = s.word := rfl
@[simp] theorem State.mod_slotSrc (s : State) (f : Core → Core) : (s.mod f).slotSrc = s.slotSrc := rfl
@[simp] theorem State.mod_free (s : State) (f : Core → Core) : (s.mod f).free = s.free := rfl
@[simp] theorem State.mod_seqHold (s : State) (f : Core → Core) : (s.mod f).seqHold = s.seqHold := rfl
@[simp] theorem State.mod_weak (s : State) (f : Core → Core) : (s.mod f).weak = s.weak := rfl
@[simp] theorem State.mod_engWaits (s : State) (f : Core → Core) : (s.mod f).engWaits = s.engWaits := rfl
@[simp] theorem State.mod_mktWaits (s : State) (f : Core → Core) : (s.mod f).mktWaits = s.mktWaits := rfl

/-! ## setVlog -/

@[simp] theorem State.setVlog_cores (s : State) (die : Nat) (v : Vlog) : (s.setVlog die v).cores = s.cores := rfl
@[simp] theorem State.setVlog_saves (s : State) (die : Nat) (v : Vlog) : (s.setVlog die v).saves = s.saves := rfl
@[simp] theorem State.setVlog_mem (s : State) (die : Nat) (v : Vlog) : (s.setVlog die v).mem = s.mem := rfl
@[simp] theorem State.setVlog_empties (s : State) (die : Nat) (v : Vlog) : (s.setVlog die v).empties = s.empties := rfl
@[simp] theorem State.setVlog_bad (s : State) (die : Nat) (v : Vlog) : (s.setVlog die v).bad = s.bad := rfl
@[simp] theorem State.setVlog_istore (s : State) (die : Nat) (v : Vlog) : (s.setVlog die v).istore = s.istore := rfl
@[simp] theorem State.setVlog_text (s : State) (die : Nat) (v : Vlog) : (s.setVlog die v).text = s.text := rfl
@[simp] theorem State.setVlog_tlb (s : State) (die : Nat) (v : Vlog) : (s.setVlog die v).tlb = s.tlb := rfl
@[simp] theorem State.setVlog_net (s : State) (die : Nat) (v : Vlog) : (s.setVlog die v).net = s.net := rfl
@[simp] theorem State.setVlog_xfers (s : State) (die : Nat) (v : Vlog) : (s.setVlog die v).xfers = s.xfers := rfl
@[simp] theorem State.setVlog_nextId (s : State) (die : Nat) (v : Vlog) : (s.setVlog die v).nextId = s.nextId := rfl
@[simp] theorem State.setVlog_lists (s : State) (die : Nat) (v : Vlog) : (s.setVlog die v).lists = s.lists := rfl
@[simp] theorem State.setVlog_spilled (s : State) (die : Nat) (v : Vlog) : (s.setVlog die v).spilled = s.spilled := rfl
@[simp] theorem State.setVlog_pushed (s : State) (die : Nat) (v : Vlog) : (s.setVlog die v).pushed = s.pushed := rfl
@[simp] theorem State.setVlog_pre (s : State) (die : Nat) (v : Vlog) : (s.setVlog die v).pre = s.pre := rfl
@[simp] theorem State.setVlog_parts (s : State) (die : Nat) (v : Vlog) : (s.setVlog die v).parts = s.parts := rfl
@[simp] theorem State.setVlog_prices (s : State) (die : Nat) (v : Vlog) : (s.setVlog die v).prices = s.prices := rfl
@[simp] theorem State.setVlog_caps (s : State) (die : Nat) (v : Vlog) : (s.setVlog die v).caps = s.caps := rfl
@[simp] theorem State.setVlog_posts (s : State) (die : Nat) (v : Vlog) : (s.setVlog die v).posts = s.posts := rfl
@[simp] theorem State.setVlog_postsLost (s : State) (die : Nat) (v : Vlog) : (s.setVlog die v).postsLost = s.postsLost := rfl
@[simp] theorem State.setVlog_convoy (s : State) (die : Nat) (v : Vlog) : (s.setVlog die v).convoy = s.convoy := rfl
@[simp] theorem State.setVlog_fab (s : State) (die : Nat) (v : Vlog) : (s.setVlog die v).fab = s.fab := rfl
@[simp] theorem State.setVlog_sched (s : State) (die : Nat) (v : Vlog) : (s.setVlog die v).sched = s.sched := rfl
@[simp] theorem State.setVlog_host (s : State) (die : Nat) (v : Vlog) : (s.setVlog die v).host = s.host := rfl
@[simp] theorem State.setVlog_mgmt (s : State) (die : Nat) (v : Vlog) : (s.setVlog die v).mgmt = s.mgmt := rfl
@[simp] theorem State.setVlog_now (s : State) (die : Nat) (v : Vlog) : (s.setVlog die v).now = s.now := rfl
@[simp] theorem State.setVlog_cur (s : State) (die : Nat) (v : Vlog) : (s.setVlog die v).cur = s.cur := rfl
@[simp] theorem State.setVlog_curH (s : State) (die : Nat) (v : Vlog) : (s.setVlog die v).curH = s.curH := rfl
@[simp] theorem State.setVlog_agenda (s : State) (die : Nat) (v : Vlog) : (s.setVlog die v).agenda = s.agenda := rfl
@[simp] theorem State.setVlog_turn (s : State) (die : Nat) (v : Vlog) : (s.setVlog die v).turn = s.turn := rfl
@[simp] theorem State.setVlog_bundle (s : State) (die : Nat) (v : Vlog) : (s.setVlog die v).bundle = s.bundle := rfl
@[simp] theorem State.setVlog_word (s : State) (die : Nat) (v : Vlog) : (s.setVlog die v).word = s.word := rfl
@[simp] theorem State.setVlog_slotSrc (s : State) (die : Nat) (v : Vlog) : (s.setVlog die v).slotSrc = s.slotSrc := rfl
@[simp] theorem State.setVlog_free (s : State) (die : Nat) (v : Vlog) : (s.setVlog die v).free = s.free := rfl
@[simp] theorem State.setVlog_seqHold (s : State) (die : Nat) (v : Vlog) : (s.setVlog die v).seqHold = s.seqHold := rfl
@[simp] theorem State.setVlog_weak (s : State) (die : Nat) (v : Vlog) : (s.setVlog die v).weak = s.weak := rfl
@[simp] theorem State.setVlog_engWaits (s : State) (die : Nat) (v : Vlog) : (s.setVlog die v).engWaits = s.engWaits := rfl
@[simp] theorem State.setVlog_mktWaits (s : State) (die : Nat) (v : Vlog) : (s.setVlog die v).mktWaits = s.mktWaits := rfl

/-! ## charge -/

@[simp] theorem State.charge_cores (s : State) (ctx : BitVec 12) (n amount : Nat) : (s.charge ctx n amount).cores = s.cores := rfl
@[simp] theorem State.charge_saves (s : State) (ctx : BitVec 12) (n amount : Nat) : (s.charge ctx n amount).saves = s.saves := rfl
@[simp] theorem State.charge_mem (s : State) (ctx : BitVec 12) (n amount : Nat) : (s.charge ctx n amount).mem = s.mem := rfl
@[simp] theorem State.charge_empties (s : State) (ctx : BitVec 12) (n amount : Nat) : (s.charge ctx n amount).empties = s.empties := rfl
@[simp] theorem State.charge_bad (s : State) (ctx : BitVec 12) (n amount : Nat) : (s.charge ctx n amount).bad = s.bad := rfl
@[simp] theorem State.charge_istore (s : State) (ctx : BitVec 12) (n amount : Nat) : (s.charge ctx n amount).istore = s.istore := rfl
@[simp] theorem State.charge_text (s : State) (ctx : BitVec 12) (n amount : Nat) : (s.charge ctx n amount).text = s.text := rfl
@[simp] theorem State.charge_tlb (s : State) (ctx : BitVec 12) (n amount : Nat) : (s.charge ctx n amount).tlb = s.tlb := rfl
@[simp] theorem State.charge_net (s : State) (ctx : BitVec 12) (n amount : Nat) : (s.charge ctx n amount).net = s.net := rfl
@[simp] theorem State.charge_xfers (s : State) (ctx : BitVec 12) (n amount : Nat) : (s.charge ctx n amount).xfers = s.xfers := rfl
@[simp] theorem State.charge_nextId (s : State) (ctx : BitVec 12) (n amount : Nat) : (s.charge ctx n amount).nextId = s.nextId := rfl
@[simp] theorem State.charge_lists (s : State) (ctx : BitVec 12) (n amount : Nat) : (s.charge ctx n amount).lists = s.lists := rfl
@[simp] theorem State.charge_spilled (s : State) (ctx : BitVec 12) (n amount : Nat) : (s.charge ctx n amount).spilled = s.spilled := rfl
@[simp] theorem State.charge_pushed (s : State) (ctx : BitVec 12) (n amount : Nat) : (s.charge ctx n amount).pushed = s.pushed := rfl
@[simp] theorem State.charge_pre (s : State) (ctx : BitVec 12) (n amount : Nat) : (s.charge ctx n amount).pre = s.pre := rfl
@[simp] theorem State.charge_parts (s : State) (ctx : BitVec 12) (n amount : Nat) : (s.charge ctx n amount).parts = s.parts := rfl
@[simp] theorem State.charge_prices (s : State) (ctx : BitVec 12) (n amount : Nat) : (s.charge ctx n amount).prices = s.prices := rfl
@[simp] theorem State.charge_caps (s : State) (ctx : BitVec 12) (n amount : Nat) : (s.charge ctx n amount).caps = s.caps := rfl
@[simp] theorem State.charge_posts (s : State) (ctx : BitVec 12) (n amount : Nat) : (s.charge ctx n amount).posts = s.posts := rfl
@[simp] theorem State.charge_postsLost (s : State) (ctx : BitVec 12) (n amount : Nat) : (s.charge ctx n amount).postsLost = s.postsLost := rfl
@[simp] theorem State.charge_convoy (s : State) (ctx : BitVec 12) (n amount : Nat) : (s.charge ctx n amount).convoy = s.convoy := rfl
@[simp] theorem State.charge_fab (s : State) (ctx : BitVec 12) (n amount : Nat) : (s.charge ctx n amount).fab = s.fab := rfl
@[simp] theorem State.charge_sched (s : State) (ctx : BitVec 12) (n amount : Nat) : (s.charge ctx n amount).sched = s.sched := rfl
@[simp] theorem State.charge_host (s : State) (ctx : BitVec 12) (n amount : Nat) : (s.charge ctx n amount).host = s.host := rfl
@[simp] theorem State.charge_mgmt (s : State) (ctx : BitVec 12) (n amount : Nat) : (s.charge ctx n amount).mgmt = s.mgmt := rfl
@[simp] theorem State.charge_now (s : State) (ctx : BitVec 12) (n amount : Nat) : (s.charge ctx n amount).now = s.now := rfl
@[simp] theorem State.charge_cur (s : State) (ctx : BitVec 12) (n amount : Nat) : (s.charge ctx n amount).cur = s.cur := rfl
@[simp] theorem State.charge_curH (s : State) (ctx : BitVec 12) (n amount : Nat) : (s.charge ctx n amount).curH = s.curH := rfl
@[simp] theorem State.charge_agenda (s : State) (ctx : BitVec 12) (n amount : Nat) : (s.charge ctx n amount).agenda = s.agenda := rfl
@[simp] theorem State.charge_turn (s : State) (ctx : BitVec 12) (n amount : Nat) : (s.charge ctx n amount).turn = s.turn := rfl
@[simp] theorem State.charge_bundle (s : State) (ctx : BitVec 12) (n amount : Nat) : (s.charge ctx n amount).bundle = s.bundle := rfl
@[simp] theorem State.charge_word (s : State) (ctx : BitVec 12) (n amount : Nat) : (s.charge ctx n amount).word = s.word := rfl
@[simp] theorem State.charge_slotSrc (s : State) (ctx : BitVec 12) (n amount : Nat) : (s.charge ctx n amount).slotSrc = s.slotSrc := rfl
@[simp] theorem State.charge_free (s : State) (ctx : BitVec 12) (n amount : Nat) : (s.charge ctx n amount).free = s.free := rfl
@[simp] theorem State.charge_seqHold (s : State) (ctx : BitVec 12) (n amount : Nat) : (s.charge ctx n amount).seqHold = s.seqHold := rfl
@[simp] theorem State.charge_weak (s : State) (ctx : BitVec 12) (n amount : Nat) : (s.charge ctx n amount).weak = s.weak := rfl
@[simp] theorem State.charge_engWaits (s : State) (ctx : BitVec 12) (n amount : Nat) : (s.charge ctx n amount).engWaits = s.engWaits := rfl
@[simp] theorem State.charge_mktWaits (s : State) (ctx : BitVec 12) (n amount : Nat) : (s.charge ctx n amount).mktWaits = s.mktWaits := rfl

/-! ## setRes -/

@[simp] theorem State.setRes_cores (s : State) (e : Nat) (r : ResEntry) : (s.setRes e r).cores = s.cores := rfl
@[simp] theorem State.setRes_saves (s : State) (e : Nat) (r : ResEntry) : (s.setRes e r).saves = s.saves := rfl
@[simp] theorem State.setRes_mem (s : State) (e : Nat) (r : ResEntry) : (s.setRes e r).mem = s.mem := rfl
@[simp] theorem State.setRes_empties (s : State) (e : Nat) (r : ResEntry) : (s.setRes e r).empties = s.empties := rfl
@[simp] theorem State.setRes_bad (s : State) (e : Nat) (r : ResEntry) : (s.setRes e r).bad = s.bad := rfl
@[simp] theorem State.setRes_istore (s : State) (e : Nat) (r : ResEntry) : (s.setRes e r).istore = s.istore := rfl
@[simp] theorem State.setRes_text (s : State) (e : Nat) (r : ResEntry) : (s.setRes e r).text = s.text := rfl
@[simp] theorem State.setRes_tlb (s : State) (e : Nat) (r : ResEntry) : (s.setRes e r).tlb = s.tlb := rfl
@[simp] theorem State.setRes_net (s : State) (e : Nat) (r : ResEntry) : (s.setRes e r).net = s.net := rfl
@[simp] theorem State.setRes_xfers (s : State) (e : Nat) (r : ResEntry) : (s.setRes e r).xfers = s.xfers := rfl
@[simp] theorem State.setRes_nextId (s : State) (e : Nat) (r : ResEntry) : (s.setRes e r).nextId = s.nextId := rfl
@[simp] theorem State.setRes_lists (s : State) (e : Nat) (r : ResEntry) : (s.setRes e r).lists = s.lists := rfl
@[simp] theorem State.setRes_spilled (s : State) (e : Nat) (r : ResEntry) : (s.setRes e r).spilled = s.spilled := rfl
@[simp] theorem State.setRes_pushed (s : State) (e : Nat) (r : ResEntry) : (s.setRes e r).pushed = s.pushed := rfl
@[simp] theorem State.setRes_pre (s : State) (e : Nat) (r : ResEntry) : (s.setRes e r).pre = s.pre := rfl
@[simp] theorem State.setRes_parts (s : State) (e : Nat) (r : ResEntry) : (s.setRes e r).parts = s.parts := rfl
@[simp] theorem State.setRes_prices (s : State) (e : Nat) (r : ResEntry) : (s.setRes e r).prices = s.prices := rfl
@[simp] theorem State.setRes_caps (s : State) (e : Nat) (r : ResEntry) : (s.setRes e r).caps = s.caps := rfl
@[simp] theorem State.setRes_posts (s : State) (e : Nat) (r : ResEntry) : (s.setRes e r).posts = s.posts := rfl
@[simp] theorem State.setRes_postsLost (s : State) (e : Nat) (r : ResEntry) : (s.setRes e r).postsLost = s.postsLost := rfl
@[simp] theorem State.setRes_convoy (s : State) (e : Nat) (r : ResEntry) : (s.setRes e r).convoy = s.convoy := rfl
@[simp] theorem State.setRes_fab (s : State) (e : Nat) (r : ResEntry) : (s.setRes e r).fab = s.fab := rfl
@[simp] theorem State.setRes_sched (s : State) (e : Nat) (r : ResEntry) : (s.setRes e r).sched = s.sched := rfl
@[simp] theorem State.setRes_host (s : State) (e : Nat) (r : ResEntry) : (s.setRes e r).host = s.host := rfl
@[simp] theorem State.setRes_mgmt (s : State) (e : Nat) (r : ResEntry) : (s.setRes e r).mgmt = s.mgmt := rfl
@[simp] theorem State.setRes_now (s : State) (e : Nat) (r : ResEntry) : (s.setRes e r).now = s.now := rfl
@[simp] theorem State.setRes_cur (s : State) (e : Nat) (r : ResEntry) : (s.setRes e r).cur = s.cur := rfl
@[simp] theorem State.setRes_curH (s : State) (e : Nat) (r : ResEntry) : (s.setRes e r).curH = s.curH := rfl
@[simp] theorem State.setRes_agenda (s : State) (e : Nat) (r : ResEntry) : (s.setRes e r).agenda = s.agenda := rfl
@[simp] theorem State.setRes_turn (s : State) (e : Nat) (r : ResEntry) : (s.setRes e r).turn = s.turn := rfl
@[simp] theorem State.setRes_bundle (s : State) (e : Nat) (r : ResEntry) : (s.setRes e r).bundle = s.bundle := rfl
@[simp] theorem State.setRes_word (s : State) (e : Nat) (r : ResEntry) : (s.setRes e r).word = s.word := rfl
@[simp] theorem State.setRes_slotSrc (s : State) (e : Nat) (r : ResEntry) : (s.setRes e r).slotSrc = s.slotSrc := rfl
@[simp] theorem State.setRes_free (s : State) (e : Nat) (r : ResEntry) : (s.setRes e r).free = s.free := rfl
@[simp] theorem State.setRes_seqHold (s : State) (e : Nat) (r : ResEntry) : (s.setRes e r).seqHold = s.seqHold := rfl
@[simp] theorem State.setRes_weak (s : State) (e : Nat) (r : ResEntry) : (s.setRes e r).weak = s.weak := rfl
@[simp] theorem State.setRes_engWaits (s : State) (e : Nat) (r : ResEntry) : (s.setRes e r).engWaits = s.engWaits := rfl
@[simp] theorem State.setRes_mktWaits (s : State) (e : Nat) (r : ResEntry) : (s.setRes e r).mktWaits = s.mktWaits := rfl

/-! ## logEvent -/

@[simp] theorem State.logEvent_cores (s : State) (code : BitVec 8) (subject : Nat) : (s.logEvent code subject).cores = s.cores := rfl
@[simp] theorem State.logEvent_saves (s : State) (code : BitVec 8) (subject : Nat) : (s.logEvent code subject).saves = s.saves := rfl
@[simp] theorem State.logEvent_mem (s : State) (code : BitVec 8) (subject : Nat) : (s.logEvent code subject).mem = s.mem := rfl
@[simp] theorem State.logEvent_empties (s : State) (code : BitVec 8) (subject : Nat) : (s.logEvent code subject).empties = s.empties := rfl
@[simp] theorem State.logEvent_bad (s : State) (code : BitVec 8) (subject : Nat) : (s.logEvent code subject).bad = s.bad := rfl
@[simp] theorem State.logEvent_istore (s : State) (code : BitVec 8) (subject : Nat) : (s.logEvent code subject).istore = s.istore := rfl
@[simp] theorem State.logEvent_text (s : State) (code : BitVec 8) (subject : Nat) : (s.logEvent code subject).text = s.text := rfl
@[simp] theorem State.logEvent_tlb (s : State) (code : BitVec 8) (subject : Nat) : (s.logEvent code subject).tlb = s.tlb := rfl
@[simp] theorem State.logEvent_net (s : State) (code : BitVec 8) (subject : Nat) : (s.logEvent code subject).net = s.net := rfl
@[simp] theorem State.logEvent_xfers (s : State) (code : BitVec 8) (subject : Nat) : (s.logEvent code subject).xfers = s.xfers := rfl
@[simp] theorem State.logEvent_nextId (s : State) (code : BitVec 8) (subject : Nat) : (s.logEvent code subject).nextId = s.nextId := rfl
@[simp] theorem State.logEvent_lists (s : State) (code : BitVec 8) (subject : Nat) : (s.logEvent code subject).lists = s.lists := rfl
@[simp] theorem State.logEvent_spilled (s : State) (code : BitVec 8) (subject : Nat) : (s.logEvent code subject).spilled = s.spilled := rfl
@[simp] theorem State.logEvent_pushed (s : State) (code : BitVec 8) (subject : Nat) : (s.logEvent code subject).pushed = s.pushed := rfl
@[simp] theorem State.logEvent_pre (s : State) (code : BitVec 8) (subject : Nat) : (s.logEvent code subject).pre = s.pre := rfl
@[simp] theorem State.logEvent_parts (s : State) (code : BitVec 8) (subject : Nat) : (s.logEvent code subject).parts = s.parts := rfl
@[simp] theorem State.logEvent_prices (s : State) (code : BitVec 8) (subject : Nat) : (s.logEvent code subject).prices = s.prices := rfl
@[simp] theorem State.logEvent_caps (s : State) (code : BitVec 8) (subject : Nat) : (s.logEvent code subject).caps = s.caps := rfl
@[simp] theorem State.logEvent_posts (s : State) (code : BitVec 8) (subject : Nat) : (s.logEvent code subject).posts = s.posts := rfl
@[simp] theorem State.logEvent_postsLost (s : State) (code : BitVec 8) (subject : Nat) : (s.logEvent code subject).postsLost = s.postsLost := rfl
@[simp] theorem State.logEvent_convoy (s : State) (code : BitVec 8) (subject : Nat) : (s.logEvent code subject).convoy = s.convoy := rfl
@[simp] theorem State.logEvent_fab (s : State) (code : BitVec 8) (subject : Nat) : (s.logEvent code subject).fab = s.fab := rfl
@[simp] theorem State.logEvent_dev (s : State) (code : BitVec 8) (subject : Nat) : (s.logEvent code subject).dev = s.dev := rfl
@[simp] theorem State.logEvent_sched (s : State) (code : BitVec 8) (subject : Nat) : (s.logEvent code subject).sched = s.sched := rfl
@[simp] theorem State.logEvent_host (s : State) (code : BitVec 8) (subject : Nat) : (s.logEvent code subject).host = s.host := rfl
@[simp] theorem State.logEvent_now (s : State) (code : BitVec 8) (subject : Nat) : (s.logEvent code subject).now = s.now := rfl
@[simp] theorem State.logEvent_cur (s : State) (code : BitVec 8) (subject : Nat) : (s.logEvent code subject).cur = s.cur := rfl
@[simp] theorem State.logEvent_curH (s : State) (code : BitVec 8) (subject : Nat) : (s.logEvent code subject).curH = s.curH := rfl
@[simp] theorem State.logEvent_agenda (s : State) (code : BitVec 8) (subject : Nat) : (s.logEvent code subject).agenda = s.agenda := rfl
@[simp] theorem State.logEvent_turn (s : State) (code : BitVec 8) (subject : Nat) : (s.logEvent code subject).turn = s.turn := rfl
@[simp] theorem State.logEvent_bundle (s : State) (code : BitVec 8) (subject : Nat) : (s.logEvent code subject).bundle = s.bundle := rfl
@[simp] theorem State.logEvent_word (s : State) (code : BitVec 8) (subject : Nat) : (s.logEvent code subject).word = s.word := rfl
@[simp] theorem State.logEvent_slotSrc (s : State) (code : BitVec 8) (subject : Nat) : (s.logEvent code subject).slotSrc = s.slotSrc := rfl
@[simp] theorem State.logEvent_free (s : State) (code : BitVec 8) (subject : Nat) : (s.logEvent code subject).free = s.free := rfl
@[simp] theorem State.logEvent_seqHold (s : State) (code : BitVec 8) (subject : Nat) : (s.logEvent code subject).seqHold = s.seqHold := rfl
@[simp] theorem State.logEvent_weak (s : State) (code : BitVec 8) (subject : Nat) : (s.logEvent code subject).weak = s.weak := rfl
@[simp] theorem State.logEvent_engWaits (s : State) (code : BitVec 8) (subject : Nat) : (s.logEvent code subject).engWaits = s.engWaits := rfl
@[simp] theorem State.logEvent_mktWaits (s : State) (code : BitVec 8) (subject : Nat) : (s.logEvent code subject).mktWaits = s.mktWaits := rfl

/-! ## fabOut -/

@[simp] theorem State.fabOut_cores (s : State) (o : FabOut) : (s.fabOut o).cores = s.cores := rfl
@[simp] theorem State.fabOut_saves (s : State) (o : FabOut) : (s.fabOut o).saves = s.saves := rfl
@[simp] theorem State.fabOut_mem (s : State) (o : FabOut) : (s.fabOut o).mem = s.mem := rfl
@[simp] theorem State.fabOut_empties (s : State) (o : FabOut) : (s.fabOut o).empties = s.empties := rfl
@[simp] theorem State.fabOut_bad (s : State) (o : FabOut) : (s.fabOut o).bad = s.bad := rfl
@[simp] theorem State.fabOut_istore (s : State) (o : FabOut) : (s.fabOut o).istore = s.istore := rfl
@[simp] theorem State.fabOut_text (s : State) (o : FabOut) : (s.fabOut o).text = s.text := rfl
@[simp] theorem State.fabOut_tlb (s : State) (o : FabOut) : (s.fabOut o).tlb = s.tlb := rfl
@[simp] theorem State.fabOut_net (s : State) (o : FabOut) : (s.fabOut o).net = s.net := rfl
@[simp] theorem State.fabOut_xfers (s : State) (o : FabOut) : (s.fabOut o).xfers = s.xfers := rfl
@[simp] theorem State.fabOut_nextId (s : State) (o : FabOut) : (s.fabOut o).nextId = s.nextId := rfl
@[simp] theorem State.fabOut_lists (s : State) (o : FabOut) : (s.fabOut o).lists = s.lists := rfl
@[simp] theorem State.fabOut_spilled (s : State) (o : FabOut) : (s.fabOut o).spilled = s.spilled := rfl
@[simp] theorem State.fabOut_pushed (s : State) (o : FabOut) : (s.fabOut o).pushed = s.pushed := rfl
@[simp] theorem State.fabOut_pre (s : State) (o : FabOut) : (s.fabOut o).pre = s.pre := rfl
@[simp] theorem State.fabOut_parts (s : State) (o : FabOut) : (s.fabOut o).parts = s.parts := rfl
@[simp] theorem State.fabOut_prices (s : State) (o : FabOut) : (s.fabOut o).prices = s.prices := rfl
@[simp] theorem State.fabOut_caps (s : State) (o : FabOut) : (s.fabOut o).caps = s.caps := rfl
@[simp] theorem State.fabOut_posts (s : State) (o : FabOut) : (s.fabOut o).posts = s.posts := rfl
@[simp] theorem State.fabOut_postsLost (s : State) (o : FabOut) : (s.fabOut o).postsLost = s.postsLost := rfl
@[simp] theorem State.fabOut_convoy (s : State) (o : FabOut) : (s.fabOut o).convoy = s.convoy := rfl
@[simp] theorem State.fabOut_dev (s : State) (o : FabOut) : (s.fabOut o).dev = s.dev := rfl
@[simp] theorem State.fabOut_sched (s : State) (o : FabOut) : (s.fabOut o).sched = s.sched := rfl
@[simp] theorem State.fabOut_host (s : State) (o : FabOut) : (s.fabOut o).host = s.host := rfl
@[simp] theorem State.fabOut_mgmt (s : State) (o : FabOut) : (s.fabOut o).mgmt = s.mgmt := rfl
@[simp] theorem State.fabOut_now (s : State) (o : FabOut) : (s.fabOut o).now = s.now := rfl
@[simp] theorem State.fabOut_cur (s : State) (o : FabOut) : (s.fabOut o).cur = s.cur := rfl
@[simp] theorem State.fabOut_curH (s : State) (o : FabOut) : (s.fabOut o).curH = s.curH := rfl
@[simp] theorem State.fabOut_agenda (s : State) (o : FabOut) : (s.fabOut o).agenda = s.agenda := rfl
@[simp] theorem State.fabOut_turn (s : State) (o : FabOut) : (s.fabOut o).turn = s.turn := rfl
@[simp] theorem State.fabOut_bundle (s : State) (o : FabOut) : (s.fabOut o).bundle = s.bundle := rfl
@[simp] theorem State.fabOut_word (s : State) (o : FabOut) : (s.fabOut o).word = s.word := rfl
@[simp] theorem State.fabOut_slotSrc (s : State) (o : FabOut) : (s.fabOut o).slotSrc = s.slotSrc := rfl
@[simp] theorem State.fabOut_free (s : State) (o : FabOut) : (s.fabOut o).free = s.free := rfl
@[simp] theorem State.fabOut_seqHold (s : State) (o : FabOut) : (s.fabOut o).seqHold = s.seqHold := rfl
@[simp] theorem State.fabOut_weak (s : State) (o : FabOut) : (s.fabOut o).weak = s.weak := rfl
@[simp] theorem State.fabOut_engWaits (s : State) (o : FabOut) : (s.fabOut o).engWaits = s.engWaits := rfl
@[simp] theorem State.fabOut_mktWaits (s : State) (o : FabOut) : (s.fabOut o).mktWaits = s.mktWaits := rfl

/-! ## putReq -/

@[simp] theorem State.putReq_cores (s : State) (r : Req) : (s.putReq r).cores = s.cores := rfl
@[simp] theorem State.putReq_saves (s : State) (r : Req) : (s.putReq r).saves = s.saves := rfl
@[simp] theorem State.putReq_mem (s : State) (r : Req) : (s.putReq r).mem = s.mem := rfl
@[simp] theorem State.putReq_empties (s : State) (r : Req) : (s.putReq r).empties = s.empties := rfl
@[simp] theorem State.putReq_bad (s : State) (r : Req) : (s.putReq r).bad = s.bad := rfl
@[simp] theorem State.putReq_istore (s : State) (r : Req) : (s.putReq r).istore = s.istore := rfl
@[simp] theorem State.putReq_text (s : State) (r : Req) : (s.putReq r).text = s.text := rfl
@[simp] theorem State.putReq_tlb (s : State) (r : Req) : (s.putReq r).tlb = s.tlb := rfl
@[simp] theorem State.putReq_xfers (s : State) (r : Req) : (s.putReq r).xfers = s.xfers := rfl
@[simp] theorem State.putReq_nextId (s : State) (r : Req) : (s.putReq r).nextId = s.nextId := rfl
@[simp] theorem State.putReq_lists (s : State) (r : Req) : (s.putReq r).lists = s.lists := rfl
@[simp] theorem State.putReq_spilled (s : State) (r : Req) : (s.putReq r).spilled = s.spilled := rfl
@[simp] theorem State.putReq_pushed (s : State) (r : Req) : (s.putReq r).pushed = s.pushed := rfl
@[simp] theorem State.putReq_pre (s : State) (r : Req) : (s.putReq r).pre = s.pre := rfl
@[simp] theorem State.putReq_parts (s : State) (r : Req) : (s.putReq r).parts = s.parts := rfl
@[simp] theorem State.putReq_prices (s : State) (r : Req) : (s.putReq r).prices = s.prices := rfl
@[simp] theorem State.putReq_caps (s : State) (r : Req) : (s.putReq r).caps = s.caps := rfl
@[simp] theorem State.putReq_posts (s : State) (r : Req) : (s.putReq r).posts = s.posts := rfl
@[simp] theorem State.putReq_postsLost (s : State) (r : Req) : (s.putReq r).postsLost = s.postsLost := rfl
@[simp] theorem State.putReq_convoy (s : State) (r : Req) : (s.putReq r).convoy = s.convoy := rfl
@[simp] theorem State.putReq_fab (s : State) (r : Req) : (s.putReq r).fab = s.fab := rfl
@[simp] theorem State.putReq_dev (s : State) (r : Req) : (s.putReq r).dev = s.dev := rfl
@[simp] theorem State.putReq_sched (s : State) (r : Req) : (s.putReq r).sched = s.sched := rfl
@[simp] theorem State.putReq_host (s : State) (r : Req) : (s.putReq r).host = s.host := rfl
@[simp] theorem State.putReq_mgmt (s : State) (r : Req) : (s.putReq r).mgmt = s.mgmt := rfl
@[simp] theorem State.putReq_now (s : State) (r : Req) : (s.putReq r).now = s.now := rfl
@[simp] theorem State.putReq_cur (s : State) (r : Req) : (s.putReq r).cur = s.cur := rfl
@[simp] theorem State.putReq_curH (s : State) (r : Req) : (s.putReq r).curH = s.curH := rfl
@[simp] theorem State.putReq_agenda (s : State) (r : Req) : (s.putReq r).agenda = s.agenda := rfl
@[simp] theorem State.putReq_turn (s : State) (r : Req) : (s.putReq r).turn = s.turn := rfl
@[simp] theorem State.putReq_bundle (s : State) (r : Req) : (s.putReq r).bundle = s.bundle := rfl
@[simp] theorem State.putReq_word (s : State) (r : Req) : (s.putReq r).word = s.word := rfl
@[simp] theorem State.putReq_slotSrc (s : State) (r : Req) : (s.putReq r).slotSrc = s.slotSrc := rfl
@[simp] theorem State.putReq_free (s : State) (r : Req) : (s.putReq r).free = s.free := rfl
@[simp] theorem State.putReq_seqHold (s : State) (r : Req) : (s.putReq r).seqHold = s.seqHold := rfl
@[simp] theorem State.putReq_weak (s : State) (r : Req) : (s.putReq r).weak = s.weak := rfl
@[simp] theorem State.putReq_engWaits (s : State) (r : Req) : (s.putReq r).engWaits = s.engWaits := rfl
@[simp] theorem State.putReq_mktWaits (s : State) (r : Req) : (s.putReq r).mktWaits = s.mktWaits := rfl

/-! ## dropReq -/

@[simp] theorem State.dropReq_cores (s : State) (id : Nat) : (s.dropReq id).cores = s.cores := rfl
@[simp] theorem State.dropReq_saves (s : State) (id : Nat) : (s.dropReq id).saves = s.saves := rfl
@[simp] theorem State.dropReq_mem (s : State) (id : Nat) : (s.dropReq id).mem = s.mem := rfl
@[simp] theorem State.dropReq_empties (s : State) (id : Nat) : (s.dropReq id).empties = s.empties := rfl
@[simp] theorem State.dropReq_bad (s : State) (id : Nat) : (s.dropReq id).bad = s.bad := rfl
@[simp] theorem State.dropReq_istore (s : State) (id : Nat) : (s.dropReq id).istore = s.istore := rfl
@[simp] theorem State.dropReq_text (s : State) (id : Nat) : (s.dropReq id).text = s.text := rfl
@[simp] theorem State.dropReq_tlb (s : State) (id : Nat) : (s.dropReq id).tlb = s.tlb := rfl
@[simp] theorem State.dropReq_xfers (s : State) (id : Nat) : (s.dropReq id).xfers = s.xfers := rfl
@[simp] theorem State.dropReq_nextId (s : State) (id : Nat) : (s.dropReq id).nextId = s.nextId := rfl
@[simp] theorem State.dropReq_lists (s : State) (id : Nat) : (s.dropReq id).lists = s.lists := rfl
@[simp] theorem State.dropReq_spilled (s : State) (id : Nat) : (s.dropReq id).spilled = s.spilled := rfl
@[simp] theorem State.dropReq_pushed (s : State) (id : Nat) : (s.dropReq id).pushed = s.pushed := rfl
@[simp] theorem State.dropReq_pre (s : State) (id : Nat) : (s.dropReq id).pre = s.pre := rfl
@[simp] theorem State.dropReq_parts (s : State) (id : Nat) : (s.dropReq id).parts = s.parts := rfl
@[simp] theorem State.dropReq_prices (s : State) (id : Nat) : (s.dropReq id).prices = s.prices := rfl
@[simp] theorem State.dropReq_caps (s : State) (id : Nat) : (s.dropReq id).caps = s.caps := rfl
@[simp] theorem State.dropReq_posts (s : State) (id : Nat) : (s.dropReq id).posts = s.posts := rfl
@[simp] theorem State.dropReq_postsLost (s : State) (id : Nat) : (s.dropReq id).postsLost = s.postsLost := rfl
@[simp] theorem State.dropReq_convoy (s : State) (id : Nat) : (s.dropReq id).convoy = s.convoy := rfl
@[simp] theorem State.dropReq_fab (s : State) (id : Nat) : (s.dropReq id).fab = s.fab := rfl
@[simp] theorem State.dropReq_dev (s : State) (id : Nat) : (s.dropReq id).dev = s.dev := rfl
@[simp] theorem State.dropReq_sched (s : State) (id : Nat) : (s.dropReq id).sched = s.sched := rfl
@[simp] theorem State.dropReq_host (s : State) (id : Nat) : (s.dropReq id).host = s.host := rfl
@[simp] theorem State.dropReq_mgmt (s : State) (id : Nat) : (s.dropReq id).mgmt = s.mgmt := rfl
@[simp] theorem State.dropReq_now (s : State) (id : Nat) : (s.dropReq id).now = s.now := rfl
@[simp] theorem State.dropReq_cur (s : State) (id : Nat) : (s.dropReq id).cur = s.cur := rfl
@[simp] theorem State.dropReq_curH (s : State) (id : Nat) : (s.dropReq id).curH = s.curH := rfl
@[simp] theorem State.dropReq_agenda (s : State) (id : Nat) : (s.dropReq id).agenda = s.agenda := rfl
@[simp] theorem State.dropReq_turn (s : State) (id : Nat) : (s.dropReq id).turn = s.turn := rfl
@[simp] theorem State.dropReq_bundle (s : State) (id : Nat) : (s.dropReq id).bundle = s.bundle := rfl
@[simp] theorem State.dropReq_word (s : State) (id : Nat) : (s.dropReq id).word = s.word := rfl
@[simp] theorem State.dropReq_slotSrc (s : State) (id : Nat) : (s.dropReq id).slotSrc = s.slotSrc := rfl
@[simp] theorem State.dropReq_free (s : State) (id : Nat) : (s.dropReq id).free = s.free := rfl
@[simp] theorem State.dropReq_seqHold (s : State) (id : Nat) : (s.dropReq id).seqHold = s.seqHold := rfl
@[simp] theorem State.dropReq_weak (s : State) (id : Nat) : (s.dropReq id).weak = s.weak := rfl
@[simp] theorem State.dropReq_engWaits (s : State) (id : Nat) : (s.dropReq id).engWaits = s.engWaits := rfl
@[simp] theorem State.dropReq_mktWaits (s : State) (id : Nat) : (s.dropReq id).mktWaits = s.mktWaits := rfl

/-! ## parkReq -/

@[simp] theorem State.parkReq_cores (s : State) (r : Req) : (s.parkReq r).cores = s.cores := rfl
@[simp] theorem State.parkReq_saves (s : State) (r : Req) : (s.parkReq r).saves = s.saves := rfl
@[simp] theorem State.parkReq_mem (s : State) (r : Req) : (s.parkReq r).mem = s.mem := rfl
@[simp] theorem State.parkReq_empties (s : State) (r : Req) : (s.parkReq r).empties = s.empties := rfl
@[simp] theorem State.parkReq_bad (s : State) (r : Req) : (s.parkReq r).bad = s.bad := rfl
@[simp] theorem State.parkReq_istore (s : State) (r : Req) : (s.parkReq r).istore = s.istore := rfl
@[simp] theorem State.parkReq_text (s : State) (r : Req) : (s.parkReq r).text = s.text := rfl
@[simp] theorem State.parkReq_tlb (s : State) (r : Req) : (s.parkReq r).tlb = s.tlb := rfl
@[simp] theorem State.parkReq_xfers (s : State) (r : Req) : (s.parkReq r).xfers = s.xfers := rfl
@[simp] theorem State.parkReq_nextId (s : State) (r : Req) : (s.parkReq r).nextId = s.nextId := rfl
@[simp] theorem State.parkReq_lists (s : State) (r : Req) : (s.parkReq r).lists = s.lists := rfl
@[simp] theorem State.parkReq_spilled (s : State) (r : Req) : (s.parkReq r).spilled = s.spilled := rfl
@[simp] theorem State.parkReq_pushed (s : State) (r : Req) : (s.parkReq r).pushed = s.pushed := rfl
@[simp] theorem State.parkReq_pre (s : State) (r : Req) : (s.parkReq r).pre = s.pre := rfl
@[simp] theorem State.parkReq_parts (s : State) (r : Req) : (s.parkReq r).parts = s.parts := rfl
@[simp] theorem State.parkReq_prices (s : State) (r : Req) : (s.parkReq r).prices = s.prices := rfl
@[simp] theorem State.parkReq_caps (s : State) (r : Req) : (s.parkReq r).caps = s.caps := rfl
@[simp] theorem State.parkReq_posts (s : State) (r : Req) : (s.parkReq r).posts = s.posts := rfl
@[simp] theorem State.parkReq_postsLost (s : State) (r : Req) : (s.parkReq r).postsLost = s.postsLost := rfl
@[simp] theorem State.parkReq_convoy (s : State) (r : Req) : (s.parkReq r).convoy = s.convoy := rfl
@[simp] theorem State.parkReq_fab (s : State) (r : Req) : (s.parkReq r).fab = s.fab := rfl
@[simp] theorem State.parkReq_dev (s : State) (r : Req) : (s.parkReq r).dev = s.dev := rfl
@[simp] theorem State.parkReq_sched (s : State) (r : Req) : (s.parkReq r).sched = s.sched := rfl
@[simp] theorem State.parkReq_host (s : State) (r : Req) : (s.parkReq r).host = s.host := rfl
@[simp] theorem State.parkReq_mgmt (s : State) (r : Req) : (s.parkReq r).mgmt = s.mgmt := rfl
@[simp] theorem State.parkReq_now (s : State) (r : Req) : (s.parkReq r).now = s.now := rfl
@[simp] theorem State.parkReq_cur (s : State) (r : Req) : (s.parkReq r).cur = s.cur := rfl
@[simp] theorem State.parkReq_curH (s : State) (r : Req) : (s.parkReq r).curH = s.curH := rfl
@[simp] theorem State.parkReq_agenda (s : State) (r : Req) : (s.parkReq r).agenda = s.agenda := rfl
@[simp] theorem State.parkReq_turn (s : State) (r : Req) : (s.parkReq r).turn = s.turn := rfl
@[simp] theorem State.parkReq_bundle (s : State) (r : Req) : (s.parkReq r).bundle = s.bundle := rfl
@[simp] theorem State.parkReq_word (s : State) (r : Req) : (s.parkReq r).word = s.word := rfl
@[simp] theorem State.parkReq_slotSrc (s : State) (r : Req) : (s.parkReq r).slotSrc = s.slotSrc := rfl
@[simp] theorem State.parkReq_free (s : State) (r : Req) : (s.parkReq r).free = s.free := rfl
@[simp] theorem State.parkReq_seqHold (s : State) (r : Req) : (s.parkReq r).seqHold = s.seqHold := rfl
@[simp] theorem State.parkReq_weak (s : State) (r : Req) : (s.parkReq r).weak = s.weak := rfl
@[simp] theorem State.parkReq_engWaits (s : State) (r : Req) : (s.parkReq r).engWaits = s.engWaits := rfl
@[simp] theorem State.parkReq_mktWaits (s : State) (r : Req) : (s.parkReq r).mktWaits = s.mktWaits := rfl

/-! ## setEmpty -/

@[simp] theorem State.setEmpty_cores (s : State) (a : Nat) : (s.setEmpty a).cores = s.cores := rfl
@[simp] theorem State.setEmpty_saves (s : State) (a : Nat) : (s.setEmpty a).saves = s.saves := rfl
@[simp] theorem State.setEmpty_mem (s : State) (a : Nat) : (s.setEmpty a).mem = s.mem := rfl
@[simp] theorem State.setEmpty_bad (s : State) (a : Nat) : (s.setEmpty a).bad = s.bad := rfl
@[simp] theorem State.setEmpty_istore (s : State) (a : Nat) : (s.setEmpty a).istore = s.istore := rfl
@[simp] theorem State.setEmpty_text (s : State) (a : Nat) : (s.setEmpty a).text = s.text := rfl
@[simp] theorem State.setEmpty_tlb (s : State) (a : Nat) : (s.setEmpty a).tlb = s.tlb := rfl
@[simp] theorem State.setEmpty_net (s : State) (a : Nat) : (s.setEmpty a).net = s.net := rfl
@[simp] theorem State.setEmpty_xfers (s : State) (a : Nat) : (s.setEmpty a).xfers = s.xfers := rfl
@[simp] theorem State.setEmpty_nextId (s : State) (a : Nat) : (s.setEmpty a).nextId = s.nextId := rfl
@[simp] theorem State.setEmpty_lists (s : State) (a : Nat) : (s.setEmpty a).lists = s.lists := rfl
@[simp] theorem State.setEmpty_spilled (s : State) (a : Nat) : (s.setEmpty a).spilled = s.spilled := rfl
@[simp] theorem State.setEmpty_pushed (s : State) (a : Nat) : (s.setEmpty a).pushed = s.pushed := rfl
@[simp] theorem State.setEmpty_pre (s : State) (a : Nat) : (s.setEmpty a).pre = s.pre := rfl
@[simp] theorem State.setEmpty_parts (s : State) (a : Nat) : (s.setEmpty a).parts = s.parts := rfl
@[simp] theorem State.setEmpty_prices (s : State) (a : Nat) : (s.setEmpty a).prices = s.prices := rfl
@[simp] theorem State.setEmpty_caps (s : State) (a : Nat) : (s.setEmpty a).caps = s.caps := rfl
@[simp] theorem State.setEmpty_posts (s : State) (a : Nat) : (s.setEmpty a).posts = s.posts := rfl
@[simp] theorem State.setEmpty_postsLost (s : State) (a : Nat) : (s.setEmpty a).postsLost = s.postsLost := rfl
@[simp] theorem State.setEmpty_convoy (s : State) (a : Nat) : (s.setEmpty a).convoy = s.convoy := rfl
@[simp] theorem State.setEmpty_fab (s : State) (a : Nat) : (s.setEmpty a).fab = s.fab := rfl
@[simp] theorem State.setEmpty_dev (s : State) (a : Nat) : (s.setEmpty a).dev = s.dev := rfl
@[simp] theorem State.setEmpty_sched (s : State) (a : Nat) : (s.setEmpty a).sched = s.sched := rfl
@[simp] theorem State.setEmpty_host (s : State) (a : Nat) : (s.setEmpty a).host = s.host := rfl
@[simp] theorem State.setEmpty_mgmt (s : State) (a : Nat) : (s.setEmpty a).mgmt = s.mgmt := rfl
@[simp] theorem State.setEmpty_now (s : State) (a : Nat) : (s.setEmpty a).now = s.now := rfl
@[simp] theorem State.setEmpty_cur (s : State) (a : Nat) : (s.setEmpty a).cur = s.cur := rfl
@[simp] theorem State.setEmpty_curH (s : State) (a : Nat) : (s.setEmpty a).curH = s.curH := rfl
@[simp] theorem State.setEmpty_agenda (s : State) (a : Nat) : (s.setEmpty a).agenda = s.agenda := rfl
@[simp] theorem State.setEmpty_turn (s : State) (a : Nat) : (s.setEmpty a).turn = s.turn := rfl
@[simp] theorem State.setEmpty_bundle (s : State) (a : Nat) : (s.setEmpty a).bundle = s.bundle := rfl
@[simp] theorem State.setEmpty_word (s : State) (a : Nat) : (s.setEmpty a).word = s.word := rfl
@[simp] theorem State.setEmpty_slotSrc (s : State) (a : Nat) : (s.setEmpty a).slotSrc = s.slotSrc := rfl
@[simp] theorem State.setEmpty_free (s : State) (a : Nat) : (s.setEmpty a).free = s.free := rfl
@[simp] theorem State.setEmpty_seqHold (s : State) (a : Nat) : (s.setEmpty a).seqHold = s.seqHold := rfl
@[simp] theorem State.setEmpty_weak (s : State) (a : Nat) : (s.setEmpty a).weak = s.weak := rfl
@[simp] theorem State.setEmpty_engWaits (s : State) (a : Nat) : (s.setEmpty a).engWaits = s.engWaits := rfl
@[simp] theorem State.setEmpty_mktWaits (s : State) (a : Nat) : (s.setEmpty a).mktWaits = s.mktWaits := rfl

/-! ## setFull -/

@[simp] theorem State.setFull_cores (s : State) (a : Nat) : (s.setFull a).cores = s.cores := rfl
@[simp] theorem State.setFull_saves (s : State) (a : Nat) : (s.setFull a).saves = s.saves := rfl
@[simp] theorem State.setFull_mem (s : State) (a : Nat) : (s.setFull a).mem = s.mem := rfl
@[simp] theorem State.setFull_bad (s : State) (a : Nat) : (s.setFull a).bad = s.bad := rfl
@[simp] theorem State.setFull_istore (s : State) (a : Nat) : (s.setFull a).istore = s.istore := rfl
@[simp] theorem State.setFull_text (s : State) (a : Nat) : (s.setFull a).text = s.text := rfl
@[simp] theorem State.setFull_tlb (s : State) (a : Nat) : (s.setFull a).tlb = s.tlb := rfl
@[simp] theorem State.setFull_net (s : State) (a : Nat) : (s.setFull a).net = s.net := rfl
@[simp] theorem State.setFull_xfers (s : State) (a : Nat) : (s.setFull a).xfers = s.xfers := rfl
@[simp] theorem State.setFull_nextId (s : State) (a : Nat) : (s.setFull a).nextId = s.nextId := rfl
@[simp] theorem State.setFull_lists (s : State) (a : Nat) : (s.setFull a).lists = s.lists := rfl
@[simp] theorem State.setFull_spilled (s : State) (a : Nat) : (s.setFull a).spilled = s.spilled := rfl
@[simp] theorem State.setFull_pushed (s : State) (a : Nat) : (s.setFull a).pushed = s.pushed := rfl
@[simp] theorem State.setFull_pre (s : State) (a : Nat) : (s.setFull a).pre = s.pre := rfl
@[simp] theorem State.setFull_parts (s : State) (a : Nat) : (s.setFull a).parts = s.parts := rfl
@[simp] theorem State.setFull_prices (s : State) (a : Nat) : (s.setFull a).prices = s.prices := rfl
@[simp] theorem State.setFull_caps (s : State) (a : Nat) : (s.setFull a).caps = s.caps := rfl
@[simp] theorem State.setFull_posts (s : State) (a : Nat) : (s.setFull a).posts = s.posts := rfl
@[simp] theorem State.setFull_postsLost (s : State) (a : Nat) : (s.setFull a).postsLost = s.postsLost := rfl
@[simp] theorem State.setFull_convoy (s : State) (a : Nat) : (s.setFull a).convoy = s.convoy := rfl
@[simp] theorem State.setFull_fab (s : State) (a : Nat) : (s.setFull a).fab = s.fab := rfl
@[simp] theorem State.setFull_dev (s : State) (a : Nat) : (s.setFull a).dev = s.dev := rfl
@[simp] theorem State.setFull_sched (s : State) (a : Nat) : (s.setFull a).sched = s.sched := rfl
@[simp] theorem State.setFull_host (s : State) (a : Nat) : (s.setFull a).host = s.host := rfl
@[simp] theorem State.setFull_mgmt (s : State) (a : Nat) : (s.setFull a).mgmt = s.mgmt := rfl
@[simp] theorem State.setFull_now (s : State) (a : Nat) : (s.setFull a).now = s.now := rfl
@[simp] theorem State.setFull_cur (s : State) (a : Nat) : (s.setFull a).cur = s.cur := rfl
@[simp] theorem State.setFull_curH (s : State) (a : Nat) : (s.setFull a).curH = s.curH := rfl
@[simp] theorem State.setFull_agenda (s : State) (a : Nat) : (s.setFull a).agenda = s.agenda := rfl
@[simp] theorem State.setFull_turn (s : State) (a : Nat) : (s.setFull a).turn = s.turn := rfl
@[simp] theorem State.setFull_bundle (s : State) (a : Nat) : (s.setFull a).bundle = s.bundle := rfl
@[simp] theorem State.setFull_word (s : State) (a : Nat) : (s.setFull a).word = s.word := rfl
@[simp] theorem State.setFull_slotSrc (s : State) (a : Nat) : (s.setFull a).slotSrc = s.slotSrc := rfl
@[simp] theorem State.setFull_free (s : State) (a : Nat) : (s.setFull a).free = s.free := rfl
@[simp] theorem State.setFull_seqHold (s : State) (a : Nat) : (s.setFull a).seqHold = s.seqHold := rfl
@[simp] theorem State.setFull_weak (s : State) (a : Nat) : (s.setFull a).weak = s.weak := rfl
@[simp] theorem State.setFull_engWaits (s : State) (a : Nat) : (s.setFull a).engWaits = s.engWaits := rfl
@[simp] theorem State.setFull_mktWaits (s : State) (a : Nat) : (s.setFull a).mktWaits = s.mktWaits := rfl

/-! ## setFullIn -/

@[simp] theorem State.setFullIn_cores (s : State) (a n : Nat) : (s.setFullIn a n).cores = s.cores := rfl
@[simp] theorem State.setFullIn_saves (s : State) (a n : Nat) : (s.setFullIn a n).saves = s.saves := rfl
@[simp] theorem State.setFullIn_mem (s : State) (a n : Nat) : (s.setFullIn a n).mem = s.mem := rfl
@[simp] theorem State.setFullIn_bad (s : State) (a n : Nat) : (s.setFullIn a n).bad = s.bad := rfl
@[simp] theorem State.setFullIn_istore (s : State) (a n : Nat) : (s.setFullIn a n).istore = s.istore := rfl
@[simp] theorem State.setFullIn_text (s : State) (a n : Nat) : (s.setFullIn a n).text = s.text := rfl
@[simp] theorem State.setFullIn_tlb (s : State) (a n : Nat) : (s.setFullIn a n).tlb = s.tlb := rfl
@[simp] theorem State.setFullIn_net (s : State) (a n : Nat) : (s.setFullIn a n).net = s.net := rfl
@[simp] theorem State.setFullIn_xfers (s : State) (a n : Nat) : (s.setFullIn a n).xfers = s.xfers := rfl
@[simp] theorem State.setFullIn_nextId (s : State) (a n : Nat) : (s.setFullIn a n).nextId = s.nextId := rfl
@[simp] theorem State.setFullIn_lists (s : State) (a n : Nat) : (s.setFullIn a n).lists = s.lists := rfl
@[simp] theorem State.setFullIn_spilled (s : State) (a n : Nat) : (s.setFullIn a n).spilled = s.spilled := rfl
@[simp] theorem State.setFullIn_pushed (s : State) (a n : Nat) : (s.setFullIn a n).pushed = s.pushed := rfl
@[simp] theorem State.setFullIn_pre (s : State) (a n : Nat) : (s.setFullIn a n).pre = s.pre := rfl
@[simp] theorem State.setFullIn_parts (s : State) (a n : Nat) : (s.setFullIn a n).parts = s.parts := rfl
@[simp] theorem State.setFullIn_prices (s : State) (a n : Nat) : (s.setFullIn a n).prices = s.prices := rfl
@[simp] theorem State.setFullIn_caps (s : State) (a n : Nat) : (s.setFullIn a n).caps = s.caps := rfl
@[simp] theorem State.setFullIn_posts (s : State) (a n : Nat) : (s.setFullIn a n).posts = s.posts := rfl
@[simp] theorem State.setFullIn_postsLost (s : State) (a n : Nat) : (s.setFullIn a n).postsLost = s.postsLost := rfl
@[simp] theorem State.setFullIn_convoy (s : State) (a n : Nat) : (s.setFullIn a n).convoy = s.convoy := rfl
@[simp] theorem State.setFullIn_fab (s : State) (a n : Nat) : (s.setFullIn a n).fab = s.fab := rfl
@[simp] theorem State.setFullIn_dev (s : State) (a n : Nat) : (s.setFullIn a n).dev = s.dev := rfl
@[simp] theorem State.setFullIn_sched (s : State) (a n : Nat) : (s.setFullIn a n).sched = s.sched := rfl
@[simp] theorem State.setFullIn_host (s : State) (a n : Nat) : (s.setFullIn a n).host = s.host := rfl
@[simp] theorem State.setFullIn_mgmt (s : State) (a n : Nat) : (s.setFullIn a n).mgmt = s.mgmt := rfl
@[simp] theorem State.setFullIn_now (s : State) (a n : Nat) : (s.setFullIn a n).now = s.now := rfl
@[simp] theorem State.setFullIn_cur (s : State) (a n : Nat) : (s.setFullIn a n).cur = s.cur := rfl
@[simp] theorem State.setFullIn_curH (s : State) (a n : Nat) : (s.setFullIn a n).curH = s.curH := rfl
@[simp] theorem State.setFullIn_agenda (s : State) (a n : Nat) : (s.setFullIn a n).agenda = s.agenda := rfl
@[simp] theorem State.setFullIn_turn (s : State) (a n : Nat) : (s.setFullIn a n).turn = s.turn := rfl
@[simp] theorem State.setFullIn_bundle (s : State) (a n : Nat) : (s.setFullIn a n).bundle = s.bundle := rfl
@[simp] theorem State.setFullIn_word (s : State) (a n : Nat) : (s.setFullIn a n).word = s.word := rfl
@[simp] theorem State.setFullIn_slotSrc (s : State) (a n : Nat) : (s.setFullIn a n).slotSrc = s.slotSrc := rfl
@[simp] theorem State.setFullIn_free (s : State) (a n : Nat) : (s.setFullIn a n).free = s.free := rfl
@[simp] theorem State.setFullIn_seqHold (s : State) (a n : Nat) : (s.setFullIn a n).seqHold = s.seqHold := rfl
@[simp] theorem State.setFullIn_weak (s : State) (a n : Nat) : (s.setFullIn a n).weak = s.weak := rfl
@[simp] theorem State.setFullIn_engWaits (s : State) (a n : Nat) : (s.setFullIn a n).engWaits = s.engWaits := rfl
@[simp] theorem State.setFullIn_mktWaits (s : State) (a n : Nat) : (s.setFullIn a n).mktWaits = s.mktWaits := rfl

/-! ## addOutstanding -/

@[simp] theorem State.addOutstanding_cores (s : State) (p : Fin 16) : (s.addOutstanding p).cores = s.cores := rfl
@[simp] theorem State.addOutstanding_saves (s : State) (p : Fin 16) : (s.addOutstanding p).saves = s.saves := rfl
@[simp] theorem State.addOutstanding_mem (s : State) (p : Fin 16) : (s.addOutstanding p).mem = s.mem := rfl
@[simp] theorem State.addOutstanding_empties (s : State) (p : Fin 16) : (s.addOutstanding p).empties = s.empties := rfl
@[simp] theorem State.addOutstanding_bad (s : State) (p : Fin 16) : (s.addOutstanding p).bad = s.bad := rfl
@[simp] theorem State.addOutstanding_istore (s : State) (p : Fin 16) : (s.addOutstanding p).istore = s.istore := rfl
@[simp] theorem State.addOutstanding_text (s : State) (p : Fin 16) : (s.addOutstanding p).text = s.text := rfl
@[simp] theorem State.addOutstanding_tlb (s : State) (p : Fin 16) : (s.addOutstanding p).tlb = s.tlb := rfl
@[simp] theorem State.addOutstanding_net (s : State) (p : Fin 16) : (s.addOutstanding p).net = s.net := rfl
@[simp] theorem State.addOutstanding_xfers (s : State) (p : Fin 16) : (s.addOutstanding p).xfers = s.xfers := rfl
@[simp] theorem State.addOutstanding_nextId (s : State) (p : Fin 16) : (s.addOutstanding p).nextId = s.nextId := rfl
@[simp] theorem State.addOutstanding_lists (s : State) (p : Fin 16) : (s.addOutstanding p).lists = s.lists := rfl
@[simp] theorem State.addOutstanding_spilled (s : State) (p : Fin 16) : (s.addOutstanding p).spilled = s.spilled := rfl
@[simp] theorem State.addOutstanding_pushed (s : State) (p : Fin 16) : (s.addOutstanding p).pushed = s.pushed := rfl
@[simp] theorem State.addOutstanding_pre (s : State) (p : Fin 16) : (s.addOutstanding p).pre = s.pre := rfl
@[simp] theorem State.addOutstanding_parts (s : State) (p : Fin 16) : (s.addOutstanding p).parts = s.parts := rfl
@[simp] theorem State.addOutstanding_prices (s : State) (p : Fin 16) : (s.addOutstanding p).prices = s.prices := rfl
@[simp] theorem State.addOutstanding_caps (s : State) (p : Fin 16) : (s.addOutstanding p).caps = s.caps := rfl
@[simp] theorem State.addOutstanding_posts (s : State) (p : Fin 16) : (s.addOutstanding p).posts = s.posts := rfl
@[simp] theorem State.addOutstanding_postsLost (s : State) (p : Fin 16) : (s.addOutstanding p).postsLost = s.postsLost := rfl
@[simp] theorem State.addOutstanding_convoy (s : State) (p : Fin 16) : (s.addOutstanding p).convoy = s.convoy := rfl
@[simp] theorem State.addOutstanding_dev (s : State) (p : Fin 16) : (s.addOutstanding p).dev = s.dev := rfl
@[simp] theorem State.addOutstanding_sched (s : State) (p : Fin 16) : (s.addOutstanding p).sched = s.sched := rfl
@[simp] theorem State.addOutstanding_host (s : State) (p : Fin 16) : (s.addOutstanding p).host = s.host := rfl
@[simp] theorem State.addOutstanding_mgmt (s : State) (p : Fin 16) : (s.addOutstanding p).mgmt = s.mgmt := rfl
@[simp] theorem State.addOutstanding_now (s : State) (p : Fin 16) : (s.addOutstanding p).now = s.now := rfl
@[simp] theorem State.addOutstanding_cur (s : State) (p : Fin 16) : (s.addOutstanding p).cur = s.cur := rfl
@[simp] theorem State.addOutstanding_curH (s : State) (p : Fin 16) : (s.addOutstanding p).curH = s.curH := rfl
@[simp] theorem State.addOutstanding_agenda (s : State) (p : Fin 16) : (s.addOutstanding p).agenda = s.agenda := rfl
@[simp] theorem State.addOutstanding_turn (s : State) (p : Fin 16) : (s.addOutstanding p).turn = s.turn := rfl
@[simp] theorem State.addOutstanding_bundle (s : State) (p : Fin 16) : (s.addOutstanding p).bundle = s.bundle := rfl
@[simp] theorem State.addOutstanding_word (s : State) (p : Fin 16) : (s.addOutstanding p).word = s.word := rfl
@[simp] theorem State.addOutstanding_slotSrc (s : State) (p : Fin 16) : (s.addOutstanding p).slotSrc = s.slotSrc := rfl
@[simp] theorem State.addOutstanding_free (s : State) (p : Fin 16) : (s.addOutstanding p).free = s.free := rfl
@[simp] theorem State.addOutstanding_seqHold (s : State) (p : Fin 16) : (s.addOutstanding p).seqHold = s.seqHold := rfl
@[simp] theorem State.addOutstanding_weak (s : State) (p : Fin 16) : (s.addOutstanding p).weak = s.weak := rfl
@[simp] theorem State.addOutstanding_engWaits (s : State) (p : Fin 16) : (s.addOutstanding p).engWaits = s.engWaits := rfl
@[simp] theorem State.addOutstanding_mktWaits (s : State) (p : Fin 16) : (s.addOutstanding p).mktWaits = s.mktWaits := rfl

/-! ## subOutstanding -/

@[simp] theorem State.subOutstanding_cores (s : State) (p : Fin 16) : (s.subOutstanding p).cores = s.cores := rfl
@[simp] theorem State.subOutstanding_saves (s : State) (p : Fin 16) : (s.subOutstanding p).saves = s.saves := rfl
@[simp] theorem State.subOutstanding_mem (s : State) (p : Fin 16) : (s.subOutstanding p).mem = s.mem := rfl
@[simp] theorem State.subOutstanding_empties (s : State) (p : Fin 16) : (s.subOutstanding p).empties = s.empties := rfl
@[simp] theorem State.subOutstanding_bad (s : State) (p : Fin 16) : (s.subOutstanding p).bad = s.bad := rfl
@[simp] theorem State.subOutstanding_istore (s : State) (p : Fin 16) : (s.subOutstanding p).istore = s.istore := rfl
@[simp] theorem State.subOutstanding_text (s : State) (p : Fin 16) : (s.subOutstanding p).text = s.text := rfl
@[simp] theorem State.subOutstanding_tlb (s : State) (p : Fin 16) : (s.subOutstanding p).tlb = s.tlb := rfl
@[simp] theorem State.subOutstanding_net (s : State) (p : Fin 16) : (s.subOutstanding p).net = s.net := rfl
@[simp] theorem State.subOutstanding_xfers (s : State) (p : Fin 16) : (s.subOutstanding p).xfers = s.xfers := rfl
@[simp] theorem State.subOutstanding_nextId (s : State) (p : Fin 16) : (s.subOutstanding p).nextId = s.nextId := rfl
@[simp] theorem State.subOutstanding_lists (s : State) (p : Fin 16) : (s.subOutstanding p).lists = s.lists := rfl
@[simp] theorem State.subOutstanding_spilled (s : State) (p : Fin 16) : (s.subOutstanding p).spilled = s.spilled := rfl
@[simp] theorem State.subOutstanding_pushed (s : State) (p : Fin 16) : (s.subOutstanding p).pushed = s.pushed := rfl
@[simp] theorem State.subOutstanding_pre (s : State) (p : Fin 16) : (s.subOutstanding p).pre = s.pre := rfl
@[simp] theorem State.subOutstanding_parts (s : State) (p : Fin 16) : (s.subOutstanding p).parts = s.parts := rfl
@[simp] theorem State.subOutstanding_prices (s : State) (p : Fin 16) : (s.subOutstanding p).prices = s.prices := rfl
@[simp] theorem State.subOutstanding_caps (s : State) (p : Fin 16) : (s.subOutstanding p).caps = s.caps := rfl
@[simp] theorem State.subOutstanding_posts (s : State) (p : Fin 16) : (s.subOutstanding p).posts = s.posts := rfl
@[simp] theorem State.subOutstanding_postsLost (s : State) (p : Fin 16) : (s.subOutstanding p).postsLost = s.postsLost := rfl
@[simp] theorem State.subOutstanding_convoy (s : State) (p : Fin 16) : (s.subOutstanding p).convoy = s.convoy := rfl
@[simp] theorem State.subOutstanding_dev (s : State) (p : Fin 16) : (s.subOutstanding p).dev = s.dev := rfl
@[simp] theorem State.subOutstanding_sched (s : State) (p : Fin 16) : (s.subOutstanding p).sched = s.sched := rfl
@[simp] theorem State.subOutstanding_host (s : State) (p : Fin 16) : (s.subOutstanding p).host = s.host := rfl
@[simp] theorem State.subOutstanding_mgmt (s : State) (p : Fin 16) : (s.subOutstanding p).mgmt = s.mgmt := rfl
@[simp] theorem State.subOutstanding_now (s : State) (p : Fin 16) : (s.subOutstanding p).now = s.now := rfl
@[simp] theorem State.subOutstanding_cur (s : State) (p : Fin 16) : (s.subOutstanding p).cur = s.cur := rfl
@[simp] theorem State.subOutstanding_curH (s : State) (p : Fin 16) : (s.subOutstanding p).curH = s.curH := rfl
@[simp] theorem State.subOutstanding_agenda (s : State) (p : Fin 16) : (s.subOutstanding p).agenda = s.agenda := rfl
@[simp] theorem State.subOutstanding_turn (s : State) (p : Fin 16) : (s.subOutstanding p).turn = s.turn := rfl
@[simp] theorem State.subOutstanding_bundle (s : State) (p : Fin 16) : (s.subOutstanding p).bundle = s.bundle := rfl
@[simp] theorem State.subOutstanding_word (s : State) (p : Fin 16) : (s.subOutstanding p).word = s.word := rfl
@[simp] theorem State.subOutstanding_slotSrc (s : State) (p : Fin 16) : (s.subOutstanding p).slotSrc = s.slotSrc := rfl
@[simp] theorem State.subOutstanding_free (s : State) (p : Fin 16) : (s.subOutstanding p).free = s.free := rfl
@[simp] theorem State.subOutstanding_seqHold (s : State) (p : Fin 16) : (s.subOutstanding p).seqHold = s.seqHold := rfl
@[simp] theorem State.subOutstanding_weak (s : State) (p : Fin 16) : (s.subOutstanding p).weak = s.weak := rfl
@[simp] theorem State.subOutstanding_engWaits (s : State) (p : Fin 16) : (s.subOutstanding p).engWaits = s.engWaits := rfl
@[simp] theorem State.subOutstanding_mktWaits (s : State) (p : Fin 16) : (s.subOutstanding p).mktWaits = s.mktWaits := rfl

/-! ## hold -/

@[simp] theorem State.hold_cores (s : State) : (s.hold).cores = s.cores := rfl
@[simp] theorem State.hold_saves (s : State) : (s.hold).saves = s.saves := rfl
@[simp] theorem State.hold_mem (s : State) : (s.hold).mem = s.mem := rfl
@[simp] theorem State.hold_empties (s : State) : (s.hold).empties = s.empties := rfl
@[simp] theorem State.hold_bad (s : State) : (s.hold).bad = s.bad := rfl
@[simp] theorem State.hold_istore (s : State) : (s.hold).istore = s.istore := rfl
@[simp] theorem State.hold_text (s : State) : (s.hold).text = s.text := rfl
@[simp] theorem State.hold_tlb (s : State) : (s.hold).tlb = s.tlb := rfl
@[simp] theorem State.hold_net (s : State) : (s.hold).net = s.net := rfl
@[simp] theorem State.hold_xfers (s : State) : (s.hold).xfers = s.xfers := rfl
@[simp] theorem State.hold_nextId (s : State) : (s.hold).nextId = s.nextId := rfl
@[simp] theorem State.hold_lists (s : State) : (s.hold).lists = s.lists := rfl
@[simp] theorem State.hold_spilled (s : State) : (s.hold).spilled = s.spilled := rfl
@[simp] theorem State.hold_pushed (s : State) : (s.hold).pushed = s.pushed := rfl
@[simp] theorem State.hold_pre (s : State) : (s.hold).pre = s.pre := rfl
@[simp] theorem State.hold_parts (s : State) : (s.hold).parts = s.parts := rfl
@[simp] theorem State.hold_prices (s : State) : (s.hold).prices = s.prices := rfl
@[simp] theorem State.hold_caps (s : State) : (s.hold).caps = s.caps := rfl
@[simp] theorem State.hold_posts (s : State) : (s.hold).posts = s.posts := rfl
@[simp] theorem State.hold_postsLost (s : State) : (s.hold).postsLost = s.postsLost := rfl
@[simp] theorem State.hold_convoy (s : State) : (s.hold).convoy = s.convoy := rfl
@[simp] theorem State.hold_fab (s : State) : (s.hold).fab = s.fab := rfl
@[simp] theorem State.hold_dev (s : State) : (s.hold).dev = s.dev := rfl
@[simp] theorem State.hold_sched (s : State) : (s.hold).sched = s.sched := rfl
@[simp] theorem State.hold_host (s : State) : (s.hold).host = s.host := rfl
@[simp] theorem State.hold_mgmt (s : State) : (s.hold).mgmt = s.mgmt := rfl
@[simp] theorem State.hold_now (s : State) : (s.hold).now = s.now := rfl
@[simp] theorem State.hold_cur (s : State) : (s.hold).cur = s.cur := rfl
@[simp] theorem State.hold_curH (s : State) : (s.hold).curH = s.curH := rfl
@[simp] theorem State.hold_agenda (s : State) : (s.hold).agenda = s.agenda := rfl
@[simp] theorem State.hold_turn (s : State) : (s.hold).turn = s.turn := rfl
@[simp] theorem State.hold_word (s : State) : (s.hold).word = s.word := rfl
@[simp] theorem State.hold_slotSrc (s : State) : (s.hold).slotSrc = s.slotSrc := rfl
@[simp] theorem State.hold_free (s : State) : (s.hold).free = s.free := rfl
@[simp] theorem State.hold_seqHold (s : State) : (s.hold).seqHold = s.seqHold := rfl
@[simp] theorem State.hold_weak (s : State) : (s.hold).weak = s.weak := rfl
@[simp] theorem State.hold_engWaits (s : State) : (s.hold).engWaits = s.engWaits := rfl
@[simp] theorem State.hold_mktWaits (s : State) : (s.hold).mktWaits = s.mktWaits := rfl

/-! ## pulse -/

@[simp] theorem State.pulse_saves (s : State) (k : CoreIx) (src arg : Nat) : (s.pulse k src arg).saves = s.saves := rfl
@[simp] theorem State.pulse_mem (s : State) (k : CoreIx) (src arg : Nat) : (s.pulse k src arg).mem = s.mem := rfl
@[simp] theorem State.pulse_empties (s : State) (k : CoreIx) (src arg : Nat) : (s.pulse k src arg).empties = s.empties := rfl
@[simp] theorem State.pulse_bad (s : State) (k : CoreIx) (src arg : Nat) : (s.pulse k src arg).bad = s.bad := rfl
@[simp] theorem State.pulse_istore (s : State) (k : CoreIx) (src arg : Nat) : (s.pulse k src arg).istore = s.istore := rfl
@[simp] theorem State.pulse_text (s : State) (k : CoreIx) (src arg : Nat) : (s.pulse k src arg).text = s.text := rfl
@[simp] theorem State.pulse_tlb (s : State) (k : CoreIx) (src arg : Nat) : (s.pulse k src arg).tlb = s.tlb := rfl
@[simp] theorem State.pulse_net (s : State) (k : CoreIx) (src arg : Nat) : (s.pulse k src arg).net = s.net := rfl
@[simp] theorem State.pulse_xfers (s : State) (k : CoreIx) (src arg : Nat) : (s.pulse k src arg).xfers = s.xfers := rfl
@[simp] theorem State.pulse_nextId (s : State) (k : CoreIx) (src arg : Nat) : (s.pulse k src arg).nextId = s.nextId := rfl
@[simp] theorem State.pulse_lists (s : State) (k : CoreIx) (src arg : Nat) : (s.pulse k src arg).lists = s.lists := rfl
@[simp] theorem State.pulse_spilled (s : State) (k : CoreIx) (src arg : Nat) : (s.pulse k src arg).spilled = s.spilled := rfl
@[simp] theorem State.pulse_pushed (s : State) (k : CoreIx) (src arg : Nat) : (s.pulse k src arg).pushed = s.pushed := rfl
@[simp] theorem State.pulse_pre (s : State) (k : CoreIx) (src arg : Nat) : (s.pulse k src arg).pre = s.pre := rfl
@[simp] theorem State.pulse_parts (s : State) (k : CoreIx) (src arg : Nat) : (s.pulse k src arg).parts = s.parts := rfl
@[simp] theorem State.pulse_prices (s : State) (k : CoreIx) (src arg : Nat) : (s.pulse k src arg).prices = s.prices := rfl
@[simp] theorem State.pulse_caps (s : State) (k : CoreIx) (src arg : Nat) : (s.pulse k src arg).caps = s.caps := rfl
@[simp] theorem State.pulse_posts (s : State) (k : CoreIx) (src arg : Nat) : (s.pulse k src arg).posts = s.posts := rfl
@[simp] theorem State.pulse_postsLost (s : State) (k : CoreIx) (src arg : Nat) : (s.pulse k src arg).postsLost = s.postsLost := rfl
@[simp] theorem State.pulse_convoy (s : State) (k : CoreIx) (src arg : Nat) : (s.pulse k src arg).convoy = s.convoy := rfl
@[simp] theorem State.pulse_fab (s : State) (k : CoreIx) (src arg : Nat) : (s.pulse k src arg).fab = s.fab := rfl
@[simp] theorem State.pulse_dev (s : State) (k : CoreIx) (src arg : Nat) : (s.pulse k src arg).dev = s.dev := rfl
@[simp] theorem State.pulse_sched (s : State) (k : CoreIx) (src arg : Nat) : (s.pulse k src arg).sched = s.sched := rfl
@[simp] theorem State.pulse_host (s : State) (k : CoreIx) (src arg : Nat) : (s.pulse k src arg).host = s.host := rfl
@[simp] theorem State.pulse_mgmt (s : State) (k : CoreIx) (src arg : Nat) : (s.pulse k src arg).mgmt = s.mgmt := rfl
@[simp] theorem State.pulse_now (s : State) (k : CoreIx) (src arg : Nat) : (s.pulse k src arg).now = s.now := rfl
@[simp] theorem State.pulse_cur (s : State) (k : CoreIx) (src arg : Nat) : (s.pulse k src arg).cur = s.cur := rfl
@[simp] theorem State.pulse_curH (s : State) (k : CoreIx) (src arg : Nat) : (s.pulse k src arg).curH = s.curH := rfl
@[simp] theorem State.pulse_agenda (s : State) (k : CoreIx) (src arg : Nat) : (s.pulse k src arg).agenda = s.agenda := rfl
@[simp] theorem State.pulse_turn (s : State) (k : CoreIx) (src arg : Nat) : (s.pulse k src arg).turn = s.turn := rfl
@[simp] theorem State.pulse_bundle (s : State) (k : CoreIx) (src arg : Nat) : (s.pulse k src arg).bundle = s.bundle := rfl
@[simp] theorem State.pulse_word (s : State) (k : CoreIx) (src arg : Nat) : (s.pulse k src arg).word = s.word := rfl
@[simp] theorem State.pulse_slotSrc (s : State) (k : CoreIx) (src arg : Nat) : (s.pulse k src arg).slotSrc = s.slotSrc := rfl
@[simp] theorem State.pulse_free (s : State) (k : CoreIx) (src arg : Nat) : (s.pulse k src arg).free = s.free := rfl
@[simp] theorem State.pulse_seqHold (s : State) (k : CoreIx) (src arg : Nat) : (s.pulse k src arg).seqHold = s.seqHold := rfl
@[simp] theorem State.pulse_weak (s : State) (k : CoreIx) (src arg : Nat) : (s.pulse k src arg).weak = s.weak := rfl
@[simp] theorem State.pulse_engWaits (s : State) (k : CoreIx) (src arg : Nat) : (s.pulse k src arg).engWaits = s.engWaits := rfl
@[simp] theorem State.pulse_mktWaits (s : State) (k : CoreIx) (src arg : Nat) : (s.pulse k src arg).mktWaits = s.mktWaits := rfl

/-! ## place -/

@[simp] theorem State.place_saves (s : State) (k : CoreIx) (ms : List Msg) (a : PlaceAct) : (s.place k ms a).saves = s.saves := rfl
@[simp] theorem State.place_mem (s : State) (k : CoreIx) (ms : List Msg) (a : PlaceAct) : (s.place k ms a).mem = s.mem := rfl
@[simp] theorem State.place_empties (s : State) (k : CoreIx) (ms : List Msg) (a : PlaceAct) : (s.place k ms a).empties = s.empties := rfl
@[simp] theorem State.place_bad (s : State) (k : CoreIx) (ms : List Msg) (a : PlaceAct) : (s.place k ms a).bad = s.bad := rfl
@[simp] theorem State.place_istore (s : State) (k : CoreIx) (ms : List Msg) (a : PlaceAct) : (s.place k ms a).istore = s.istore := rfl
@[simp] theorem State.place_text (s : State) (k : CoreIx) (ms : List Msg) (a : PlaceAct) : (s.place k ms a).text = s.text := rfl
@[simp] theorem State.place_tlb (s : State) (k : CoreIx) (ms : List Msg) (a : PlaceAct) : (s.place k ms a).tlb = s.tlb := rfl
@[simp] theorem State.place_net (s : State) (k : CoreIx) (ms : List Msg) (a : PlaceAct) : (s.place k ms a).net = s.net := rfl
@[simp] theorem State.place_xfers (s : State) (k : CoreIx) (ms : List Msg) (a : PlaceAct) : (s.place k ms a).xfers = s.xfers := rfl
@[simp] theorem State.place_nextId (s : State) (k : CoreIx) (ms : List Msg) (a : PlaceAct) : (s.place k ms a).nextId = s.nextId := rfl
@[simp] theorem State.place_lists (s : State) (k : CoreIx) (ms : List Msg) (a : PlaceAct) : (s.place k ms a).lists = s.lists := rfl
@[simp] theorem State.place_spilled (s : State) (k : CoreIx) (ms : List Msg) (a : PlaceAct) : (s.place k ms a).spilled = s.spilled := rfl
@[simp] theorem State.place_pushed (s : State) (k : CoreIx) (ms : List Msg) (a : PlaceAct) : (s.place k ms a).pushed = s.pushed := rfl
@[simp] theorem State.place_pre (s : State) (k : CoreIx) (ms : List Msg) (a : PlaceAct) : (s.place k ms a).pre = s.pre := rfl
@[simp] theorem State.place_parts (s : State) (k : CoreIx) (ms : List Msg) (a : PlaceAct) : (s.place k ms a).parts = s.parts := rfl
@[simp] theorem State.place_prices (s : State) (k : CoreIx) (ms : List Msg) (a : PlaceAct) : (s.place k ms a).prices = s.prices := rfl
@[simp] theorem State.place_caps (s : State) (k : CoreIx) (ms : List Msg) (a : PlaceAct) : (s.place k ms a).caps = s.caps := rfl
@[simp] theorem State.place_posts (s : State) (k : CoreIx) (ms : List Msg) (a : PlaceAct) : (s.place k ms a).posts = s.posts := rfl
@[simp] theorem State.place_postsLost (s : State) (k : CoreIx) (ms : List Msg) (a : PlaceAct) : (s.place k ms a).postsLost = s.postsLost := rfl
@[simp] theorem State.place_convoy (s : State) (k : CoreIx) (ms : List Msg) (a : PlaceAct) : (s.place k ms a).convoy = s.convoy := rfl
@[simp] theorem State.place_fab (s : State) (k : CoreIx) (ms : List Msg) (a : PlaceAct) : (s.place k ms a).fab = s.fab := rfl
@[simp] theorem State.place_dev (s : State) (k : CoreIx) (ms : List Msg) (a : PlaceAct) : (s.place k ms a).dev = s.dev := rfl
@[simp] theorem State.place_sched (s : State) (k : CoreIx) (ms : List Msg) (a : PlaceAct) : (s.place k ms a).sched = s.sched := rfl
@[simp] theorem State.place_host (s : State) (k : CoreIx) (ms : List Msg) (a : PlaceAct) : (s.place k ms a).host = s.host := rfl
@[simp] theorem State.place_mgmt (s : State) (k : CoreIx) (ms : List Msg) (a : PlaceAct) : (s.place k ms a).mgmt = s.mgmt := rfl
@[simp] theorem State.place_now (s : State) (k : CoreIx) (ms : List Msg) (a : PlaceAct) : (s.place k ms a).now = s.now := rfl
@[simp] theorem State.place_cur (s : State) (k : CoreIx) (ms : List Msg) (a : PlaceAct) : (s.place k ms a).cur = s.cur := rfl
@[simp] theorem State.place_curH (s : State) (k : CoreIx) (ms : List Msg) (a : PlaceAct) : (s.place k ms a).curH = s.curH := rfl
@[simp] theorem State.place_agenda (s : State) (k : CoreIx) (ms : List Msg) (a : PlaceAct) : (s.place k ms a).agenda = s.agenda := rfl
@[simp] theorem State.place_turn (s : State) (k : CoreIx) (ms : List Msg) (a : PlaceAct) : (s.place k ms a).turn = s.turn := rfl
@[simp] theorem State.place_bundle (s : State) (k : CoreIx) (ms : List Msg) (a : PlaceAct) : (s.place k ms a).bundle = s.bundle := rfl
@[simp] theorem State.place_word (s : State) (k : CoreIx) (ms : List Msg) (a : PlaceAct) : (s.place k ms a).word = s.word := rfl
@[simp] theorem State.place_slotSrc (s : State) (k : CoreIx) (ms : List Msg) (a : PlaceAct) : (s.place k ms a).slotSrc = s.slotSrc := rfl
@[simp] theorem State.place_free (s : State) (k : CoreIx) (ms : List Msg) (a : PlaceAct) : (s.place k ms a).free = s.free := rfl
@[simp] theorem State.place_seqHold (s : State) (k : CoreIx) (ms : List Msg) (a : PlaceAct) : (s.place k ms a).seqHold = s.seqHold := rfl
@[simp] theorem State.place_weak (s : State) (k : CoreIx) (ms : List Msg) (a : PlaceAct) : (s.place k ms a).weak = s.weak := rfl
@[simp] theorem State.place_engWaits (s : State) (k : CoreIx) (ms : List Msg) (a : PlaceAct) : (s.place k ms a).engWaits = s.engWaits := rfl
@[simp] theorem State.place_mktWaits (s : State) (k : CoreIx) (ms : List Msg) (a : PlaceAct) : (s.place k ms a).mktWaits = s.mktWaits := rfl

/-! ## setNpc -/

@[simp] theorem State.setNpc_saves (s : State) (pc : Pc) : (s.setNpc pc).saves = s.saves := rfl
@[simp] theorem State.setNpc_mem (s : State) (pc : Pc) : (s.setNpc pc).mem = s.mem := rfl
@[simp] theorem State.setNpc_empties (s : State) (pc : Pc) : (s.setNpc pc).empties = s.empties := rfl
@[simp] theorem State.setNpc_bad (s : State) (pc : Pc) : (s.setNpc pc).bad = s.bad := rfl
@[simp] theorem State.setNpc_istore (s : State) (pc : Pc) : (s.setNpc pc).istore = s.istore := rfl
@[simp] theorem State.setNpc_text (s : State) (pc : Pc) : (s.setNpc pc).text = s.text := rfl
@[simp] theorem State.setNpc_tlb (s : State) (pc : Pc) : (s.setNpc pc).tlb = s.tlb := rfl
@[simp] theorem State.setNpc_net (s : State) (pc : Pc) : (s.setNpc pc).net = s.net := rfl
@[simp] theorem State.setNpc_xfers (s : State) (pc : Pc) : (s.setNpc pc).xfers = s.xfers := rfl
@[simp] theorem State.setNpc_nextId (s : State) (pc : Pc) : (s.setNpc pc).nextId = s.nextId := rfl
@[simp] theorem State.setNpc_lists (s : State) (pc : Pc) : (s.setNpc pc).lists = s.lists := rfl
@[simp] theorem State.setNpc_spilled (s : State) (pc : Pc) : (s.setNpc pc).spilled = s.spilled := rfl
@[simp] theorem State.setNpc_pushed (s : State) (pc : Pc) : (s.setNpc pc).pushed = s.pushed := rfl
@[simp] theorem State.setNpc_pre (s : State) (pc : Pc) : (s.setNpc pc).pre = s.pre := rfl
@[simp] theorem State.setNpc_parts (s : State) (pc : Pc) : (s.setNpc pc).parts = s.parts := rfl
@[simp] theorem State.setNpc_prices (s : State) (pc : Pc) : (s.setNpc pc).prices = s.prices := rfl
@[simp] theorem State.setNpc_caps (s : State) (pc : Pc) : (s.setNpc pc).caps = s.caps := rfl
@[simp] theorem State.setNpc_posts (s : State) (pc : Pc) : (s.setNpc pc).posts = s.posts := rfl
@[simp] theorem State.setNpc_postsLost (s : State) (pc : Pc) : (s.setNpc pc).postsLost = s.postsLost := rfl
@[simp] theorem State.setNpc_convoy (s : State) (pc : Pc) : (s.setNpc pc).convoy = s.convoy := rfl
@[simp] theorem State.setNpc_fab (s : State) (pc : Pc) : (s.setNpc pc).fab = s.fab := rfl
@[simp] theorem State.setNpc_dev (s : State) (pc : Pc) : (s.setNpc pc).dev = s.dev := rfl
@[simp] theorem State.setNpc_sched (s : State) (pc : Pc) : (s.setNpc pc).sched = s.sched := rfl
@[simp] theorem State.setNpc_host (s : State) (pc : Pc) : (s.setNpc pc).host = s.host := rfl
@[simp] theorem State.setNpc_mgmt (s : State) (pc : Pc) : (s.setNpc pc).mgmt = s.mgmt := rfl
@[simp] theorem State.setNpc_now (s : State) (pc : Pc) : (s.setNpc pc).now = s.now := rfl
@[simp] theorem State.setNpc_cur (s : State) (pc : Pc) : (s.setNpc pc).cur = s.cur := rfl
@[simp] theorem State.setNpc_curH (s : State) (pc : Pc) : (s.setNpc pc).curH = s.curH := rfl
@[simp] theorem State.setNpc_agenda (s : State) (pc : Pc) : (s.setNpc pc).agenda = s.agenda := rfl
@[simp] theorem State.setNpc_turn (s : State) (pc : Pc) : (s.setNpc pc).turn = s.turn := rfl
@[simp] theorem State.setNpc_bundle (s : State) (pc : Pc) : (s.setNpc pc).bundle = s.bundle := rfl
@[simp] theorem State.setNpc_word (s : State) (pc : Pc) : (s.setNpc pc).word = s.word := rfl
@[simp] theorem State.setNpc_slotSrc (s : State) (pc : Pc) : (s.setNpc pc).slotSrc = s.slotSrc := rfl
@[simp] theorem State.setNpc_free (s : State) (pc : Pc) : (s.setNpc pc).free = s.free := rfl
@[simp] theorem State.setNpc_seqHold (s : State) (pc : Pc) : (s.setNpc pc).seqHold = s.seqHold := rfl
@[simp] theorem State.setNpc_weak (s : State) (pc : Pc) : (s.setNpc pc).weak = s.weak := rfl
@[simp] theorem State.setNpc_engWaits (s : State) (pc : Pc) : (s.setNpc pc).engWaits = s.engWaits := rfl
@[simp] theorem State.setNpc_mktWaits (s : State) (pc : Pc) : (s.setNpc pc).mktWaits = s.mktWaits := rfl

/-! ## give -/

@[simp] theorem State.give_saves (s : State) (k : CoreIx) (h : Bool) (id : Nat) (w : Word) : (s.give k h id w).saves = s.saves := rfl
@[simp] theorem State.give_mem (s : State) (k : CoreIx) (h : Bool) (id : Nat) (w : Word) : (s.give k h id w).mem = s.mem := rfl
@[simp] theorem State.give_empties (s : State) (k : CoreIx) (h : Bool) (id : Nat) (w : Word) : (s.give k h id w).empties = s.empties := rfl
@[simp] theorem State.give_bad (s : State) (k : CoreIx) (h : Bool) (id : Nat) (w : Word) : (s.give k h id w).bad = s.bad := rfl
@[simp] theorem State.give_istore (s : State) (k : CoreIx) (h : Bool) (id : Nat) (w : Word) : (s.give k h id w).istore = s.istore := rfl
@[simp] theorem State.give_text (s : State) (k : CoreIx) (h : Bool) (id : Nat) (w : Word) : (s.give k h id w).text = s.text := rfl
@[simp] theorem State.give_tlb (s : State) (k : CoreIx) (h : Bool) (id : Nat) (w : Word) : (s.give k h id w).tlb = s.tlb := rfl
@[simp] theorem State.give_net (s : State) (k : CoreIx) (h : Bool) (id : Nat) (w : Word) : (s.give k h id w).net = s.net := rfl
@[simp] theorem State.give_xfers (s : State) (k : CoreIx) (h : Bool) (id : Nat) (w : Word) : (s.give k h id w).xfers = s.xfers := rfl
@[simp] theorem State.give_nextId (s : State) (k : CoreIx) (h : Bool) (id : Nat) (w : Word) : (s.give k h id w).nextId = s.nextId := rfl
@[simp] theorem State.give_lists (s : State) (k : CoreIx) (h : Bool) (id : Nat) (w : Word) : (s.give k h id w).lists = s.lists := rfl
@[simp] theorem State.give_spilled (s : State) (k : CoreIx) (h : Bool) (id : Nat) (w : Word) : (s.give k h id w).spilled = s.spilled := rfl
@[simp] theorem State.give_pushed (s : State) (k : CoreIx) (h : Bool) (id : Nat) (w : Word) : (s.give k h id w).pushed = s.pushed := rfl
@[simp] theorem State.give_pre (s : State) (k : CoreIx) (h : Bool) (id : Nat) (w : Word) : (s.give k h id w).pre = s.pre := rfl
@[simp] theorem State.give_parts (s : State) (k : CoreIx) (h : Bool) (id : Nat) (w : Word) : (s.give k h id w).parts = s.parts := rfl
@[simp] theorem State.give_prices (s : State) (k : CoreIx) (h : Bool) (id : Nat) (w : Word) : (s.give k h id w).prices = s.prices := rfl
@[simp] theorem State.give_caps (s : State) (k : CoreIx) (h : Bool) (id : Nat) (w : Word) : (s.give k h id w).caps = s.caps := rfl
@[simp] theorem State.give_posts (s : State) (k : CoreIx) (h : Bool) (id : Nat) (w : Word) : (s.give k h id w).posts = s.posts := rfl
@[simp] theorem State.give_postsLost (s : State) (k : CoreIx) (h : Bool) (id : Nat) (w : Word) : (s.give k h id w).postsLost = s.postsLost := rfl
@[simp] theorem State.give_convoy (s : State) (k : CoreIx) (h : Bool) (id : Nat) (w : Word) : (s.give k h id w).convoy = s.convoy := rfl
@[simp] theorem State.give_fab (s : State) (k : CoreIx) (h : Bool) (id : Nat) (w : Word) : (s.give k h id w).fab = s.fab := rfl
@[simp] theorem State.give_dev (s : State) (k : CoreIx) (h : Bool) (id : Nat) (w : Word) : (s.give k h id w).dev = s.dev := rfl
@[simp] theorem State.give_sched (s : State) (k : CoreIx) (h : Bool) (id : Nat) (w : Word) : (s.give k h id w).sched = s.sched := rfl
@[simp] theorem State.give_host (s : State) (k : CoreIx) (h : Bool) (id : Nat) (w : Word) : (s.give k h id w).host = s.host := rfl
@[simp] theorem State.give_mgmt (s : State) (k : CoreIx) (h : Bool) (id : Nat) (w : Word) : (s.give k h id w).mgmt = s.mgmt := rfl
@[simp] theorem State.give_now (s : State) (k : CoreIx) (h : Bool) (id : Nat) (w : Word) : (s.give k h id w).now = s.now := rfl
@[simp] theorem State.give_cur (s : State) (k : CoreIx) (h : Bool) (id : Nat) (w : Word) : (s.give k h id w).cur = s.cur := rfl
@[simp] theorem State.give_curH (s : State) (k : CoreIx) (h : Bool) (id : Nat) (w : Word) : (s.give k h id w).curH = s.curH := rfl
@[simp] theorem State.give_agenda (s : State) (k : CoreIx) (h : Bool) (id : Nat) (w : Word) : (s.give k h id w).agenda = s.agenda := rfl
@[simp] theorem State.give_turn (s : State) (k : CoreIx) (h : Bool) (id : Nat) (w : Word) : (s.give k h id w).turn = s.turn := rfl
@[simp] theorem State.give_bundle (s : State) (k : CoreIx) (h : Bool) (id : Nat) (w : Word) : (s.give k h id w).bundle = s.bundle := rfl
@[simp] theorem State.give_word (s : State) (k : CoreIx) (h : Bool) (id : Nat) (w : Word) : (s.give k h id w).word = s.word := rfl
@[simp] theorem State.give_slotSrc (s : State) (k : CoreIx) (h : Bool) (id : Nat) (w : Word) : (s.give k h id w).slotSrc = s.slotSrc := rfl
@[simp] theorem State.give_free (s : State) (k : CoreIx) (h : Bool) (id : Nat) (w : Word) : (s.give k h id w).free = s.free := rfl
@[simp] theorem State.give_seqHold (s : State) (k : CoreIx) (h : Bool) (id : Nat) (w : Word) : (s.give k h id w).seqHold = s.seqHold := rfl
@[simp] theorem State.give_weak (s : State) (k : CoreIx) (h : Bool) (id : Nat) (w : Word) : (s.give k h id w).weak = s.weak := rfl
@[simp] theorem State.give_engWaits (s : State) (k : CoreIx) (h : Bool) (id : Nat) (w : Word) : (s.give k h id w).engWaits = s.engWaits := rfl
@[simp] theorem State.give_mktWaits (s : State) (k : CoreIx) (h : Bool) (id : Nat) (w : Word) : (s.give k h id w).mktWaits = s.mktWaits := rfl

/-! ## giveMore -/

@[simp] theorem State.giveMore_saves (s : State) (k : CoreIx) (h : Bool) (id : Nat) (w : Word) : (s.giveMore k h id w).saves = s.saves := rfl
@[simp] theorem State.giveMore_mem (s : State) (k : CoreIx) (h : Bool) (id : Nat) (w : Word) : (s.giveMore k h id w).mem = s.mem := rfl
@[simp] theorem State.giveMore_empties (s : State) (k : CoreIx) (h : Bool) (id : Nat) (w : Word) : (s.giveMore k h id w).empties = s.empties := rfl
@[simp] theorem State.giveMore_bad (s : State) (k : CoreIx) (h : Bool) (id : Nat) (w : Word) : (s.giveMore k h id w).bad = s.bad := rfl
@[simp] theorem State.giveMore_istore (s : State) (k : CoreIx) (h : Bool) (id : Nat) (w : Word) : (s.giveMore k h id w).istore = s.istore := rfl
@[simp] theorem State.giveMore_text (s : State) (k : CoreIx) (h : Bool) (id : Nat) (w : Word) : (s.giveMore k h id w).text = s.text := rfl
@[simp] theorem State.giveMore_tlb (s : State) (k : CoreIx) (h : Bool) (id : Nat) (w : Word) : (s.giveMore k h id w).tlb = s.tlb := rfl
@[simp] theorem State.giveMore_net (s : State) (k : CoreIx) (h : Bool) (id : Nat) (w : Word) : (s.giveMore k h id w).net = s.net := rfl
@[simp] theorem State.giveMore_xfers (s : State) (k : CoreIx) (h : Bool) (id : Nat) (w : Word) : (s.giveMore k h id w).xfers = s.xfers := rfl
@[simp] theorem State.giveMore_nextId (s : State) (k : CoreIx) (h : Bool) (id : Nat) (w : Word) : (s.giveMore k h id w).nextId = s.nextId := rfl
@[simp] theorem State.giveMore_lists (s : State) (k : CoreIx) (h : Bool) (id : Nat) (w : Word) : (s.giveMore k h id w).lists = s.lists := rfl
@[simp] theorem State.giveMore_spilled (s : State) (k : CoreIx) (h : Bool) (id : Nat) (w : Word) : (s.giveMore k h id w).spilled = s.spilled := rfl
@[simp] theorem State.giveMore_pushed (s : State) (k : CoreIx) (h : Bool) (id : Nat) (w : Word) : (s.giveMore k h id w).pushed = s.pushed := rfl
@[simp] theorem State.giveMore_pre (s : State) (k : CoreIx) (h : Bool) (id : Nat) (w : Word) : (s.giveMore k h id w).pre = s.pre := rfl
@[simp] theorem State.giveMore_parts (s : State) (k : CoreIx) (h : Bool) (id : Nat) (w : Word) : (s.giveMore k h id w).parts = s.parts := rfl
@[simp] theorem State.giveMore_prices (s : State) (k : CoreIx) (h : Bool) (id : Nat) (w : Word) : (s.giveMore k h id w).prices = s.prices := rfl
@[simp] theorem State.giveMore_caps (s : State) (k : CoreIx) (h : Bool) (id : Nat) (w : Word) : (s.giveMore k h id w).caps = s.caps := rfl
@[simp] theorem State.giveMore_posts (s : State) (k : CoreIx) (h : Bool) (id : Nat) (w : Word) : (s.giveMore k h id w).posts = s.posts := rfl
@[simp] theorem State.giveMore_postsLost (s : State) (k : CoreIx) (h : Bool) (id : Nat) (w : Word) : (s.giveMore k h id w).postsLost = s.postsLost := rfl
@[simp] theorem State.giveMore_convoy (s : State) (k : CoreIx) (h : Bool) (id : Nat) (w : Word) : (s.giveMore k h id w).convoy = s.convoy := rfl
@[simp] theorem State.giveMore_fab (s : State) (k : CoreIx) (h : Bool) (id : Nat) (w : Word) : (s.giveMore k h id w).fab = s.fab := rfl
@[simp] theorem State.giveMore_dev (s : State) (k : CoreIx) (h : Bool) (id : Nat) (w : Word) : (s.giveMore k h id w).dev = s.dev := rfl
@[simp] theorem State.giveMore_sched (s : State) (k : CoreIx) (h : Bool) (id : Nat) (w : Word) : (s.giveMore k h id w).sched = s.sched := rfl
@[simp] theorem State.giveMore_host (s : State) (k : CoreIx) (h : Bool) (id : Nat) (w : Word) : (s.giveMore k h id w).host = s.host := rfl
@[simp] theorem State.giveMore_mgmt (s : State) (k : CoreIx) (h : Bool) (id : Nat) (w : Word) : (s.giveMore k h id w).mgmt = s.mgmt := rfl
@[simp] theorem State.giveMore_now (s : State) (k : CoreIx) (h : Bool) (id : Nat) (w : Word) : (s.giveMore k h id w).now = s.now := rfl
@[simp] theorem State.giveMore_cur (s : State) (k : CoreIx) (h : Bool) (id : Nat) (w : Word) : (s.giveMore k h id w).cur = s.cur := rfl
@[simp] theorem State.giveMore_curH (s : State) (k : CoreIx) (h : Bool) (id : Nat) (w : Word) : (s.giveMore k h id w).curH = s.curH := rfl
@[simp] theorem State.giveMore_agenda (s : State) (k : CoreIx) (h : Bool) (id : Nat) (w : Word) : (s.giveMore k h id w).agenda = s.agenda := rfl
@[simp] theorem State.giveMore_turn (s : State) (k : CoreIx) (h : Bool) (id : Nat) (w : Word) : (s.giveMore k h id w).turn = s.turn := rfl
@[simp] theorem State.giveMore_bundle (s : State) (k : CoreIx) (h : Bool) (id : Nat) (w : Word) : (s.giveMore k h id w).bundle = s.bundle := rfl
@[simp] theorem State.giveMore_word (s : State) (k : CoreIx) (h : Bool) (id : Nat) (w : Word) : (s.giveMore k h id w).word = s.word := rfl
@[simp] theorem State.giveMore_slotSrc (s : State) (k : CoreIx) (h : Bool) (id : Nat) (w : Word) : (s.giveMore k h id w).slotSrc = s.slotSrc := rfl
@[simp] theorem State.giveMore_free (s : State) (k : CoreIx) (h : Bool) (id : Nat) (w : Word) : (s.giveMore k h id w).free = s.free := rfl
@[simp] theorem State.giveMore_seqHold (s : State) (k : CoreIx) (h : Bool) (id : Nat) (w : Word) : (s.giveMore k h id w).seqHold = s.seqHold := rfl
@[simp] theorem State.giveMore_weak (s : State) (k : CoreIx) (h : Bool) (id : Nat) (w : Word) : (s.giveMore k h id w).weak = s.weak := rfl
@[simp] theorem State.giveMore_engWaits (s : State) (k : CoreIx) (h : Bool) (id : Nat) (w : Word) : (s.giveMore k h id w).engWaits = s.engWaits := rfl
@[simp] theorem State.giveMore_mktWaits (s : State) (k : CoreIx) (h : Bool) (id : Nat) (w : Word) : (s.giveMore k h id w).mktWaits = s.mktWaits := rfl

/-! ## close -/

@[simp] theorem State.close_saves (s : State) (k : CoreIx) (h : Bool) (id : Nat) : (s.close k h id).saves = s.saves := rfl
@[simp] theorem State.close_mem (s : State) (k : CoreIx) (h : Bool) (id : Nat) : (s.close k h id).mem = s.mem := rfl
@[simp] theorem State.close_empties (s : State) (k : CoreIx) (h : Bool) (id : Nat) : (s.close k h id).empties = s.empties := rfl
@[simp] theorem State.close_bad (s : State) (k : CoreIx) (h : Bool) (id : Nat) : (s.close k h id).bad = s.bad := rfl
@[simp] theorem State.close_istore (s : State) (k : CoreIx) (h : Bool) (id : Nat) : (s.close k h id).istore = s.istore := rfl
@[simp] theorem State.close_text (s : State) (k : CoreIx) (h : Bool) (id : Nat) : (s.close k h id).text = s.text := rfl
@[simp] theorem State.close_tlb (s : State) (k : CoreIx) (h : Bool) (id : Nat) : (s.close k h id).tlb = s.tlb := rfl
@[simp] theorem State.close_net (s : State) (k : CoreIx) (h : Bool) (id : Nat) : (s.close k h id).net = s.net := rfl
@[simp] theorem State.close_xfers (s : State) (k : CoreIx) (h : Bool) (id : Nat) : (s.close k h id).xfers = s.xfers := rfl
@[simp] theorem State.close_nextId (s : State) (k : CoreIx) (h : Bool) (id : Nat) : (s.close k h id).nextId = s.nextId := rfl
@[simp] theorem State.close_lists (s : State) (k : CoreIx) (h : Bool) (id : Nat) : (s.close k h id).lists = s.lists := rfl
@[simp] theorem State.close_spilled (s : State) (k : CoreIx) (h : Bool) (id : Nat) : (s.close k h id).spilled = s.spilled := rfl
@[simp] theorem State.close_pushed (s : State) (k : CoreIx) (h : Bool) (id : Nat) : (s.close k h id).pushed = s.pushed := rfl
@[simp] theorem State.close_pre (s : State) (k : CoreIx) (h : Bool) (id : Nat) : (s.close k h id).pre = s.pre := rfl
@[simp] theorem State.close_parts (s : State) (k : CoreIx) (h : Bool) (id : Nat) : (s.close k h id).parts = s.parts := rfl
@[simp] theorem State.close_prices (s : State) (k : CoreIx) (h : Bool) (id : Nat) : (s.close k h id).prices = s.prices := rfl
@[simp] theorem State.close_caps (s : State) (k : CoreIx) (h : Bool) (id : Nat) : (s.close k h id).caps = s.caps := rfl
@[simp] theorem State.close_posts (s : State) (k : CoreIx) (h : Bool) (id : Nat) : (s.close k h id).posts = s.posts := rfl
@[simp] theorem State.close_postsLost (s : State) (k : CoreIx) (h : Bool) (id : Nat) : (s.close k h id).postsLost = s.postsLost := rfl
@[simp] theorem State.close_convoy (s : State) (k : CoreIx) (h : Bool) (id : Nat) : (s.close k h id).convoy = s.convoy := rfl
@[simp] theorem State.close_fab (s : State) (k : CoreIx) (h : Bool) (id : Nat) : (s.close k h id).fab = s.fab := rfl
@[simp] theorem State.close_dev (s : State) (k : CoreIx) (h : Bool) (id : Nat) : (s.close k h id).dev = s.dev := rfl
@[simp] theorem State.close_sched (s : State) (k : CoreIx) (h : Bool) (id : Nat) : (s.close k h id).sched = s.sched := rfl
@[simp] theorem State.close_host (s : State) (k : CoreIx) (h : Bool) (id : Nat) : (s.close k h id).host = s.host := rfl
@[simp] theorem State.close_mgmt (s : State) (k : CoreIx) (h : Bool) (id : Nat) : (s.close k h id).mgmt = s.mgmt := rfl
@[simp] theorem State.close_now (s : State) (k : CoreIx) (h : Bool) (id : Nat) : (s.close k h id).now = s.now := rfl
@[simp] theorem State.close_cur (s : State) (k : CoreIx) (h : Bool) (id : Nat) : (s.close k h id).cur = s.cur := rfl
@[simp] theorem State.close_curH (s : State) (k : CoreIx) (h : Bool) (id : Nat) : (s.close k h id).curH = s.curH := rfl
@[simp] theorem State.close_agenda (s : State) (k : CoreIx) (h : Bool) (id : Nat) : (s.close k h id).agenda = s.agenda := rfl
@[simp] theorem State.close_turn (s : State) (k : CoreIx) (h : Bool) (id : Nat) : (s.close k h id).turn = s.turn := rfl
@[simp] theorem State.close_bundle (s : State) (k : CoreIx) (h : Bool) (id : Nat) : (s.close k h id).bundle = s.bundle := rfl
@[simp] theorem State.close_word (s : State) (k : CoreIx) (h : Bool) (id : Nat) : (s.close k h id).word = s.word := rfl
@[simp] theorem State.close_slotSrc (s : State) (k : CoreIx) (h : Bool) (id : Nat) : (s.close k h id).slotSrc = s.slotSrc := rfl
@[simp] theorem State.close_free (s : State) (k : CoreIx) (h : Bool) (id : Nat) : (s.close k h id).free = s.free := rfl
@[simp] theorem State.close_seqHold (s : State) (k : CoreIx) (h : Bool) (id : Nat) : (s.close k h id).seqHold = s.seqHold := rfl
@[simp] theorem State.close_weak (s : State) (k : CoreIx) (h : Bool) (id : Nat) : (s.close k h id).weak = s.weak := rfl
@[simp] theorem State.close_engWaits (s : State) (k : CoreIx) (h : Bool) (id : Nat) : (s.close k h id).engWaits = s.engWaits := rfl
@[simp] theorem State.close_mktWaits (s : State) (k : CoreIx) (h : Bool) (id : Nat) : (s.close k h id).mktWaits = s.mktWaits := rfl

/-! ## flyX -/

@[simp] theorem State.flyX_saves (s : State) (i : XReg) (w : Word) : (s.flyX i w).saves = s.saves := rfl
@[simp] theorem State.flyX_mem (s : State) (i : XReg) (w : Word) : (s.flyX i w).mem = s.mem := rfl
@[simp] theorem State.flyX_empties (s : State) (i : XReg) (w : Word) : (s.flyX i w).empties = s.empties := rfl
@[simp] theorem State.flyX_bad (s : State) (i : XReg) (w : Word) : (s.flyX i w).bad = s.bad := rfl
@[simp] theorem State.flyX_istore (s : State) (i : XReg) (w : Word) : (s.flyX i w).istore = s.istore := rfl
@[simp] theorem State.flyX_text (s : State) (i : XReg) (w : Word) : (s.flyX i w).text = s.text := rfl
@[simp] theorem State.flyX_tlb (s : State) (i : XReg) (w : Word) : (s.flyX i w).tlb = s.tlb := rfl
@[simp] theorem State.flyX_net (s : State) (i : XReg) (w : Word) : (s.flyX i w).net = s.net := rfl
@[simp] theorem State.flyX_xfers (s : State) (i : XReg) (w : Word) : (s.flyX i w).xfers = s.xfers := rfl
@[simp] theorem State.flyX_lists (s : State) (i : XReg) (w : Word) : (s.flyX i w).lists = s.lists := rfl
@[simp] theorem State.flyX_spilled (s : State) (i : XReg) (w : Word) : (s.flyX i w).spilled = s.spilled := rfl
@[simp] theorem State.flyX_pushed (s : State) (i : XReg) (w : Word) : (s.flyX i w).pushed = s.pushed := rfl
@[simp] theorem State.flyX_pre (s : State) (i : XReg) (w : Word) : (s.flyX i w).pre = s.pre := rfl
@[simp] theorem State.flyX_parts (s : State) (i : XReg) (w : Word) : (s.flyX i w).parts = s.parts := rfl
@[simp] theorem State.flyX_prices (s : State) (i : XReg) (w : Word) : (s.flyX i w).prices = s.prices := rfl
@[simp] theorem State.flyX_caps (s : State) (i : XReg) (w : Word) : (s.flyX i w).caps = s.caps := rfl
@[simp] theorem State.flyX_posts (s : State) (i : XReg) (w : Word) : (s.flyX i w).posts = s.posts := rfl
@[simp] theorem State.flyX_postsLost (s : State) (i : XReg) (w : Word) : (s.flyX i w).postsLost = s.postsLost := rfl
@[simp] theorem State.flyX_convoy (s : State) (i : XReg) (w : Word) : (s.flyX i w).convoy = s.convoy := rfl
@[simp] theorem State.flyX_fab (s : State) (i : XReg) (w : Word) : (s.flyX i w).fab = s.fab := rfl
@[simp] theorem State.flyX_dev (s : State) (i : XReg) (w : Word) : (s.flyX i w).dev = s.dev := rfl
@[simp] theorem State.flyX_sched (s : State) (i : XReg) (w : Word) : (s.flyX i w).sched = s.sched := rfl
@[simp] theorem State.flyX_host (s : State) (i : XReg) (w : Word) : (s.flyX i w).host = s.host := rfl
@[simp] theorem State.flyX_mgmt (s : State) (i : XReg) (w : Word) : (s.flyX i w).mgmt = s.mgmt := rfl
@[simp] theorem State.flyX_now (s : State) (i : XReg) (w : Word) : (s.flyX i w).now = s.now := rfl
@[simp] theorem State.flyX_cur (s : State) (i : XReg) (w : Word) : (s.flyX i w).cur = s.cur := rfl
@[simp] theorem State.flyX_curH (s : State) (i : XReg) (w : Word) : (s.flyX i w).curH = s.curH := rfl
@[simp] theorem State.flyX_agenda (s : State) (i : XReg) (w : Word) : (s.flyX i w).agenda = s.agenda := rfl
@[simp] theorem State.flyX_turn (s : State) (i : XReg) (w : Word) : (s.flyX i w).turn = s.turn := rfl
@[simp] theorem State.flyX_bundle (s : State) (i : XReg) (w : Word) : (s.flyX i w).bundle = s.bundle := rfl
@[simp] theorem State.flyX_word (s : State) (i : XReg) (w : Word) : (s.flyX i w).word = s.word := rfl
@[simp] theorem State.flyX_slotSrc (s : State) (i : XReg) (w : Word) : (s.flyX i w).slotSrc = s.slotSrc := rfl
@[simp] theorem State.flyX_free (s : State) (i : XReg) (w : Word) : (s.flyX i w).free = s.free := rfl
@[simp] theorem State.flyX_seqHold (s : State) (i : XReg) (w : Word) : (s.flyX i w).seqHold = s.seqHold := rfl
@[simp] theorem State.flyX_weak (s : State) (i : XReg) (w : Word) : (s.flyX i w).weak = s.weak := rfl
@[simp] theorem State.flyX_engWaits (s : State) (i : XReg) (w : Word) : (s.flyX i w).engWaits = s.engWaits := rfl
@[simp] theorem State.flyX_mktWaits (s : State) (i : XReg) (w : Word) : (s.flyX i w).mktWaits = s.mktWaits := rfl

/-! ## flyOpen -/

@[simp] theorem State.flyOpen_saves (s : State) (i : XReg) : (s.flyOpen i).saves = s.saves := rfl
@[simp] theorem State.flyOpen_mem (s : State) (i : XReg) : (s.flyOpen i).mem = s.mem := rfl
@[simp] theorem State.flyOpen_empties (s : State) (i : XReg) : (s.flyOpen i).empties = s.empties := rfl
@[simp] theorem State.flyOpen_bad (s : State) (i : XReg) : (s.flyOpen i).bad = s.bad := rfl
@[simp] theorem State.flyOpen_istore (s : State) (i : XReg) : (s.flyOpen i).istore = s.istore := rfl
@[simp] theorem State.flyOpen_text (s : State) (i : XReg) : (s.flyOpen i).text = s.text := rfl
@[simp] theorem State.flyOpen_tlb (s : State) (i : XReg) : (s.flyOpen i).tlb = s.tlb := rfl
@[simp] theorem State.flyOpen_net (s : State) (i : XReg) : (s.flyOpen i).net = s.net := rfl
@[simp] theorem State.flyOpen_xfers (s : State) (i : XReg) : (s.flyOpen i).xfers = s.xfers := rfl
@[simp] theorem State.flyOpen_lists (s : State) (i : XReg) : (s.flyOpen i).lists = s.lists := rfl
@[simp] theorem State.flyOpen_spilled (s : State) (i : XReg) : (s.flyOpen i).spilled = s.spilled := rfl
@[simp] theorem State.flyOpen_pushed (s : State) (i : XReg) : (s.flyOpen i).pushed = s.pushed := rfl
@[simp] theorem State.flyOpen_pre (s : State) (i : XReg) : (s.flyOpen i).pre = s.pre := rfl
@[simp] theorem State.flyOpen_parts (s : State) (i : XReg) : (s.flyOpen i).parts = s.parts := rfl
@[simp] theorem State.flyOpen_prices (s : State) (i : XReg) : (s.flyOpen i).prices = s.prices := rfl
@[simp] theorem State.flyOpen_caps (s : State) (i : XReg) : (s.flyOpen i).caps = s.caps := rfl
@[simp] theorem State.flyOpen_posts (s : State) (i : XReg) : (s.flyOpen i).posts = s.posts := rfl
@[simp] theorem State.flyOpen_postsLost (s : State) (i : XReg) : (s.flyOpen i).postsLost = s.postsLost := rfl
@[simp] theorem State.flyOpen_convoy (s : State) (i : XReg) : (s.flyOpen i).convoy = s.convoy := rfl
@[simp] theorem State.flyOpen_fab (s : State) (i : XReg) : (s.flyOpen i).fab = s.fab := rfl
@[simp] theorem State.flyOpen_dev (s : State) (i : XReg) : (s.flyOpen i).dev = s.dev := rfl
@[simp] theorem State.flyOpen_sched (s : State) (i : XReg) : (s.flyOpen i).sched = s.sched := rfl
@[simp] theorem State.flyOpen_host (s : State) (i : XReg) : (s.flyOpen i).host = s.host := rfl
@[simp] theorem State.flyOpen_mgmt (s : State) (i : XReg) : (s.flyOpen i).mgmt = s.mgmt := rfl
@[simp] theorem State.flyOpen_now (s : State) (i : XReg) : (s.flyOpen i).now = s.now := rfl
@[simp] theorem State.flyOpen_cur (s : State) (i : XReg) : (s.flyOpen i).cur = s.cur := rfl
@[simp] theorem State.flyOpen_curH (s : State) (i : XReg) : (s.flyOpen i).curH = s.curH := rfl
@[simp] theorem State.flyOpen_agenda (s : State) (i : XReg) : (s.flyOpen i).agenda = s.agenda := rfl
@[simp] theorem State.flyOpen_turn (s : State) (i : XReg) : (s.flyOpen i).turn = s.turn := rfl
@[simp] theorem State.flyOpen_bundle (s : State) (i : XReg) : (s.flyOpen i).bundle = s.bundle := rfl
@[simp] theorem State.flyOpen_word (s : State) (i : XReg) : (s.flyOpen i).word = s.word := rfl
@[simp] theorem State.flyOpen_slotSrc (s : State) (i : XReg) : (s.flyOpen i).slotSrc = s.slotSrc := rfl
@[simp] theorem State.flyOpen_free (s : State) (i : XReg) : (s.flyOpen i).free = s.free := rfl
@[simp] theorem State.flyOpen_seqHold (s : State) (i : XReg) : (s.flyOpen i).seqHold = s.seqHold := rfl
@[simp] theorem State.flyOpen_weak (s : State) (i : XReg) : (s.flyOpen i).weak = s.weak := rfl
@[simp] theorem State.flyOpen_engWaits (s : State) (i : XReg) : (s.flyOpen i).engWaits = s.engWaits := rfl
@[simp] theorem State.flyOpen_mktWaits (s : State) (i : XReg) : (s.flyOpen i).mktWaits = s.mktWaits := rfl

/-! ## fly -/

@[simp] theorem State.fly_saves (s : State) (d : FDst) (vals : List Word) (more : Bool) : (s.fly d vals more).saves = s.saves := rfl
@[simp] theorem State.fly_mem (s : State) (d : FDst) (vals : List Word) (more : Bool) : (s.fly d vals more).mem = s.mem := rfl
@[simp] theorem State.fly_empties (s : State) (d : FDst) (vals : List Word) (more : Bool) : (s.fly d vals more).empties = s.empties := rfl
@[simp] theorem State.fly_bad (s : State) (d : FDst) (vals : List Word) (more : Bool) : (s.fly d vals more).bad = s.bad := rfl
@[simp] theorem State.fly_istore (s : State) (d : FDst) (vals : List Word) (more : Bool) : (s.fly d vals more).istore = s.istore := rfl
@[simp] theorem State.fly_text (s : State) (d : FDst) (vals : List Word) (more : Bool) : (s.fly d vals more).text = s.text := rfl
@[simp] theorem State.fly_tlb (s : State) (d : FDst) (vals : List Word) (more : Bool) : (s.fly d vals more).tlb = s.tlb := rfl
@[simp] theorem State.fly_net (s : State) (d : FDst) (vals : List Word) (more : Bool) : (s.fly d vals more).net = s.net := rfl
@[simp] theorem State.fly_xfers (s : State) (d : FDst) (vals : List Word) (more : Bool) : (s.fly d vals more).xfers = s.xfers := rfl
@[simp] theorem State.fly_lists (s : State) (d : FDst) (vals : List Word) (more : Bool) : (s.fly d vals more).lists = s.lists := rfl
@[simp] theorem State.fly_spilled (s : State) (d : FDst) (vals : List Word) (more : Bool) : (s.fly d vals more).spilled = s.spilled := rfl
@[simp] theorem State.fly_pushed (s : State) (d : FDst) (vals : List Word) (more : Bool) : (s.fly d vals more).pushed = s.pushed := rfl
@[simp] theorem State.fly_pre (s : State) (d : FDst) (vals : List Word) (more : Bool) : (s.fly d vals more).pre = s.pre := rfl
@[simp] theorem State.fly_parts (s : State) (d : FDst) (vals : List Word) (more : Bool) : (s.fly d vals more).parts = s.parts := rfl
@[simp] theorem State.fly_prices (s : State) (d : FDst) (vals : List Word) (more : Bool) : (s.fly d vals more).prices = s.prices := rfl
@[simp] theorem State.fly_caps (s : State) (d : FDst) (vals : List Word) (more : Bool) : (s.fly d vals more).caps = s.caps := rfl
@[simp] theorem State.fly_posts (s : State) (d : FDst) (vals : List Word) (more : Bool) : (s.fly d vals more).posts = s.posts := rfl
@[simp] theorem State.fly_postsLost (s : State) (d : FDst) (vals : List Word) (more : Bool) : (s.fly d vals more).postsLost = s.postsLost := rfl
@[simp] theorem State.fly_convoy (s : State) (d : FDst) (vals : List Word) (more : Bool) : (s.fly d vals more).convoy = s.convoy := rfl
@[simp] theorem State.fly_fab (s : State) (d : FDst) (vals : List Word) (more : Bool) : (s.fly d vals more).fab = s.fab := rfl
@[simp] theorem State.fly_dev (s : State) (d : FDst) (vals : List Word) (more : Bool) : (s.fly d vals more).dev = s.dev := rfl
@[simp] theorem State.fly_sched (s : State) (d : FDst) (vals : List Word) (more : Bool) : (s.fly d vals more).sched = s.sched := rfl
@[simp] theorem State.fly_host (s : State) (d : FDst) (vals : List Word) (more : Bool) : (s.fly d vals more).host = s.host := rfl
@[simp] theorem State.fly_mgmt (s : State) (d : FDst) (vals : List Word) (more : Bool) : (s.fly d vals more).mgmt = s.mgmt := rfl
@[simp] theorem State.fly_now (s : State) (d : FDst) (vals : List Word) (more : Bool) : (s.fly d vals more).now = s.now := rfl
@[simp] theorem State.fly_cur (s : State) (d : FDst) (vals : List Word) (more : Bool) : (s.fly d vals more).cur = s.cur := rfl
@[simp] theorem State.fly_curH (s : State) (d : FDst) (vals : List Word) (more : Bool) : (s.fly d vals more).curH = s.curH := rfl
@[simp] theorem State.fly_agenda (s : State) (d : FDst) (vals : List Word) (more : Bool) : (s.fly d vals more).agenda = s.agenda := rfl
@[simp] theorem State.fly_turn (s : State) (d : FDst) (vals : List Word) (more : Bool) : (s.fly d vals more).turn = s.turn := rfl
@[simp] theorem State.fly_bundle (s : State) (d : FDst) (vals : List Word) (more : Bool) : (s.fly d vals more).bundle = s.bundle := rfl
@[simp] theorem State.fly_word (s : State) (d : FDst) (vals : List Word) (more : Bool) : (s.fly d vals more).word = s.word := rfl
@[simp] theorem State.fly_slotSrc (s : State) (d : FDst) (vals : List Word) (more : Bool) : (s.fly d vals more).slotSrc = s.slotSrc := rfl
@[simp] theorem State.fly_free (s : State) (d : FDst) (vals : List Word) (more : Bool) : (s.fly d vals more).free = s.free := rfl
@[simp] theorem State.fly_seqHold (s : State) (d : FDst) (vals : List Word) (more : Bool) : (s.fly d vals more).seqHold = s.seqHold := rfl
@[simp] theorem State.fly_weak (s : State) (d : FDst) (vals : List Word) (more : Bool) : (s.fly d vals more).weak = s.weak := rfl
@[simp] theorem State.fly_engWaits (s : State) (d : FDst) (vals : List Word) (more : Bool) : (s.fly d vals more).engWaits = s.engWaits := rfl
@[simp] theorem State.fly_mktWaits (s : State) (d : FDst) (vals : List Word) (more : Bool) : (s.fly d vals more).mktWaits = s.mktWaits := rfl

/-! ## wf -/

@[simp] theorem State.wf_saves (s : State) (i : FReg) (w : Half) : (s.wf i w).saves = s.saves := rfl
@[simp] theorem State.wf_mem (s : State) (i : FReg) (w : Half) : (s.wf i w).mem = s.mem := rfl
@[simp] theorem State.wf_empties (s : State) (i : FReg) (w : Half) : (s.wf i w).empties = s.empties := rfl
@[simp] theorem State.wf_bad (s : State) (i : FReg) (w : Half) : (s.wf i w).bad = s.bad := rfl
@[simp] theorem State.wf_istore (s : State) (i : FReg) (w : Half) : (s.wf i w).istore = s.istore := rfl
@[simp] theorem State.wf_text (s : State) (i : FReg) (w : Half) : (s.wf i w).text = s.text := rfl
@[simp] theorem State.wf_tlb (s : State) (i : FReg) (w : Half) : (s.wf i w).tlb = s.tlb := rfl
@[simp] theorem State.wf_net (s : State) (i : FReg) (w : Half) : (s.wf i w).net = s.net := rfl
@[simp] theorem State.wf_xfers (s : State) (i : FReg) (w : Half) : (s.wf i w).xfers = s.xfers := rfl
@[simp] theorem State.wf_nextId (s : State) (i : FReg) (w : Half) : (s.wf i w).nextId = s.nextId := rfl
@[simp] theorem State.wf_lists (s : State) (i : FReg) (w : Half) : (s.wf i w).lists = s.lists := rfl
@[simp] theorem State.wf_spilled (s : State) (i : FReg) (w : Half) : (s.wf i w).spilled = s.spilled := rfl
@[simp] theorem State.wf_pushed (s : State) (i : FReg) (w : Half) : (s.wf i w).pushed = s.pushed := rfl
@[simp] theorem State.wf_pre (s : State) (i : FReg) (w : Half) : (s.wf i w).pre = s.pre := rfl
@[simp] theorem State.wf_parts (s : State) (i : FReg) (w : Half) : (s.wf i w).parts = s.parts := rfl
@[simp] theorem State.wf_prices (s : State) (i : FReg) (w : Half) : (s.wf i w).prices = s.prices := rfl
@[simp] theorem State.wf_caps (s : State) (i : FReg) (w : Half) : (s.wf i w).caps = s.caps := rfl
@[simp] theorem State.wf_posts (s : State) (i : FReg) (w : Half) : (s.wf i w).posts = s.posts := rfl
@[simp] theorem State.wf_postsLost (s : State) (i : FReg) (w : Half) : (s.wf i w).postsLost = s.postsLost := rfl
@[simp] theorem State.wf_convoy (s : State) (i : FReg) (w : Half) : (s.wf i w).convoy = s.convoy := rfl
@[simp] theorem State.wf_fab (s : State) (i : FReg) (w : Half) : (s.wf i w).fab = s.fab := rfl
@[simp] theorem State.wf_dev (s : State) (i : FReg) (w : Half) : (s.wf i w).dev = s.dev := rfl
@[simp] theorem State.wf_sched (s : State) (i : FReg) (w : Half) : (s.wf i w).sched = s.sched := rfl
@[simp] theorem State.wf_host (s : State) (i : FReg) (w : Half) : (s.wf i w).host = s.host := rfl
@[simp] theorem State.wf_mgmt (s : State) (i : FReg) (w : Half) : (s.wf i w).mgmt = s.mgmt := rfl
@[simp] theorem State.wf_now (s : State) (i : FReg) (w : Half) : (s.wf i w).now = s.now := rfl
@[simp] theorem State.wf_cur (s : State) (i : FReg) (w : Half) : (s.wf i w).cur = s.cur := rfl
@[simp] theorem State.wf_curH (s : State) (i : FReg) (w : Half) : (s.wf i w).curH = s.curH := rfl
@[simp] theorem State.wf_agenda (s : State) (i : FReg) (w : Half) : (s.wf i w).agenda = s.agenda := rfl
@[simp] theorem State.wf_turn (s : State) (i : FReg) (w : Half) : (s.wf i w).turn = s.turn := rfl
@[simp] theorem State.wf_bundle (s : State) (i : FReg) (w : Half) : (s.wf i w).bundle = s.bundle := rfl
@[simp] theorem State.wf_word (s : State) (i : FReg) (w : Half) : (s.wf i w).word = s.word := rfl
@[simp] theorem State.wf_slotSrc (s : State) (i : FReg) (w : Half) : (s.wf i w).slotSrc = s.slotSrc := rfl
@[simp] theorem State.wf_free (s : State) (i : FReg) (w : Half) : (s.wf i w).free = s.free := rfl
@[simp] theorem State.wf_seqHold (s : State) (i : FReg) (w : Half) : (s.wf i w).seqHold = s.seqHold := rfl
@[simp] theorem State.wf_weak (s : State) (i : FReg) (w : Half) : (s.wf i w).weak = s.weak := rfl
@[simp] theorem State.wf_engWaits (s : State) (i : FReg) (w : Half) : (s.wf i w).engWaits = s.engWaits := rfl
@[simp] theorem State.wf_mktWaits (s : State) (i : FReg) (w : Half) : (s.wf i w).mktWaits = s.mktWaits := rfl

/-! ## fatalCore -/

@[simp] theorem State.fatalCore_saves (s : State) (k : CoreIx) (cause : BitVec 8) (val : Word) : (s.fatalCore k cause val).saves = s.saves := rfl
@[simp] theorem State.fatalCore_mem (s : State) (k : CoreIx) (cause : BitVec 8) (val : Word) : (s.fatalCore k cause val).mem = s.mem := rfl
@[simp] theorem State.fatalCore_empties (s : State) (k : CoreIx) (cause : BitVec 8) (val : Word) : (s.fatalCore k cause val).empties = s.empties := rfl
@[simp] theorem State.fatalCore_bad (s : State) (k : CoreIx) (cause : BitVec 8) (val : Word) : (s.fatalCore k cause val).bad = s.bad := rfl
@[simp] theorem State.fatalCore_istore (s : State) (k : CoreIx) (cause : BitVec 8) (val : Word) : (s.fatalCore k cause val).istore = s.istore := rfl
@[simp] theorem State.fatalCore_text (s : State) (k : CoreIx) (cause : BitVec 8) (val : Word) : (s.fatalCore k cause val).text = s.text := rfl
@[simp] theorem State.fatalCore_tlb (s : State) (k : CoreIx) (cause : BitVec 8) (val : Word) : (s.fatalCore k cause val).tlb = s.tlb := rfl
@[simp] theorem State.fatalCore_net (s : State) (k : CoreIx) (cause : BitVec 8) (val : Word) : (s.fatalCore k cause val).net = s.net := rfl
@[simp] theorem State.fatalCore_xfers (s : State) (k : CoreIx) (cause : BitVec 8) (val : Word) : (s.fatalCore k cause val).xfers = s.xfers := rfl
@[simp] theorem State.fatalCore_nextId (s : State) (k : CoreIx) (cause : BitVec 8) (val : Word) : (s.fatalCore k cause val).nextId = s.nextId := rfl
@[simp] theorem State.fatalCore_lists (s : State) (k : CoreIx) (cause : BitVec 8) (val : Word) : (s.fatalCore k cause val).lists = s.lists := rfl
@[simp] theorem State.fatalCore_spilled (s : State) (k : CoreIx) (cause : BitVec 8) (val : Word) : (s.fatalCore k cause val).spilled = s.spilled := rfl
@[simp] theorem State.fatalCore_pushed (s : State) (k : CoreIx) (cause : BitVec 8) (val : Word) : (s.fatalCore k cause val).pushed = s.pushed := rfl
@[simp] theorem State.fatalCore_pre (s : State) (k : CoreIx) (cause : BitVec 8) (val : Word) : (s.fatalCore k cause val).pre = s.pre := rfl
@[simp] theorem State.fatalCore_parts (s : State) (k : CoreIx) (cause : BitVec 8) (val : Word) : (s.fatalCore k cause val).parts = s.parts := rfl
@[simp] theorem State.fatalCore_prices (s : State) (k : CoreIx) (cause : BitVec 8) (val : Word) : (s.fatalCore k cause val).prices = s.prices := rfl
@[simp] theorem State.fatalCore_caps (s : State) (k : CoreIx) (cause : BitVec 8) (val : Word) : (s.fatalCore k cause val).caps = s.caps := rfl
@[simp] theorem State.fatalCore_posts (s : State) (k : CoreIx) (cause : BitVec 8) (val : Word) : (s.fatalCore k cause val).posts = s.posts := rfl
@[simp] theorem State.fatalCore_postsLost (s : State) (k : CoreIx) (cause : BitVec 8) (val : Word) : (s.fatalCore k cause val).postsLost = s.postsLost := rfl
@[simp] theorem State.fatalCore_convoy (s : State) (k : CoreIx) (cause : BitVec 8) (val : Word) : (s.fatalCore k cause val).convoy = s.convoy := rfl
@[simp] theorem State.fatalCore_fab (s : State) (k : CoreIx) (cause : BitVec 8) (val : Word) : (s.fatalCore k cause val).fab = s.fab := rfl
@[simp] theorem State.fatalCore_dev (s : State) (k : CoreIx) (cause : BitVec 8) (val : Word) : (s.fatalCore k cause val).dev = s.dev := rfl
@[simp] theorem State.fatalCore_host (s : State) (k : CoreIx) (cause : BitVec 8) (val : Word) : (s.fatalCore k cause val).host = s.host := rfl
@[simp] theorem State.fatalCore_mgmt (s : State) (k : CoreIx) (cause : BitVec 8) (val : Word) : (s.fatalCore k cause val).mgmt = s.mgmt := rfl
@[simp] theorem State.fatalCore_now (s : State) (k : CoreIx) (cause : BitVec 8) (val : Word) : (s.fatalCore k cause val).now = s.now := rfl
@[simp] theorem State.fatalCore_cur (s : State) (k : CoreIx) (cause : BitVec 8) (val : Word) : (s.fatalCore k cause val).cur = s.cur := rfl
@[simp] theorem State.fatalCore_curH (s : State) (k : CoreIx) (cause : BitVec 8) (val : Word) : (s.fatalCore k cause val).curH = s.curH := rfl
@[simp] theorem State.fatalCore_agenda (s : State) (k : CoreIx) (cause : BitVec 8) (val : Word) : (s.fatalCore k cause val).agenda = s.agenda := rfl
@[simp] theorem State.fatalCore_turn (s : State) (k : CoreIx) (cause : BitVec 8) (val : Word) : (s.fatalCore k cause val).turn = s.turn := rfl
@[simp] theorem State.fatalCore_bundle (s : State) (k : CoreIx) (cause : BitVec 8) (val : Word) : (s.fatalCore k cause val).bundle = s.bundle := rfl
@[simp] theorem State.fatalCore_word (s : State) (k : CoreIx) (cause : BitVec 8) (val : Word) : (s.fatalCore k cause val).word = s.word := rfl
@[simp] theorem State.fatalCore_slotSrc (s : State) (k : CoreIx) (cause : BitVec 8) (val : Word) : (s.fatalCore k cause val).slotSrc = s.slotSrc := rfl
@[simp] theorem State.fatalCore_free (s : State) (k : CoreIx) (cause : BitVec 8) (val : Word) : (s.fatalCore k cause val).free = s.free := rfl
@[simp] theorem State.fatalCore_seqHold (s : State) (k : CoreIx) (cause : BitVec 8) (val : Word) : (s.fatalCore k cause val).seqHold = s.seqHold := rfl
@[simp] theorem State.fatalCore_weak (s : State) (k : CoreIx) (cause : BitVec 8) (val : Word) : (s.fatalCore k cause val).weak = s.weak := rfl
@[simp] theorem State.fatalCore_engWaits (s : State) (k : CoreIx) (cause : BitVec 8) (val : Word) : (s.fatalCore k cause val).engWaits = s.engWaits := rfl
@[simp] theorem State.fatalCore_mktWaits (s : State) (k : CoreIx) (cause : BitVec 8) (val : Word) : (s.fatalCore k cause val).mktWaits = s.mktWaits := rfl

/-! ## forbidden -/

@[simp] theorem State.forbidden_saves (s : State) : (s.forbidden).saves = s.saves := rfl
@[simp] theorem State.forbidden_mem (s : State) : (s.forbidden).mem = s.mem := rfl
@[simp] theorem State.forbidden_empties (s : State) : (s.forbidden).empties = s.empties := rfl
@[simp] theorem State.forbidden_bad (s : State) : (s.forbidden).bad = s.bad := rfl
@[simp] theorem State.forbidden_istore (s : State) : (s.forbidden).istore = s.istore := rfl
@[simp] theorem State.forbidden_text (s : State) : (s.forbidden).text = s.text := rfl
@[simp] theorem State.forbidden_tlb (s : State) : (s.forbidden).tlb = s.tlb := rfl
@[simp] theorem State.forbidden_net (s : State) : (s.forbidden).net = s.net := rfl
@[simp] theorem State.forbidden_xfers (s : State) : (s.forbidden).xfers = s.xfers := rfl
@[simp] theorem State.forbidden_nextId (s : State) : (s.forbidden).nextId = s.nextId := rfl
@[simp] theorem State.forbidden_lists (s : State) : (s.forbidden).lists = s.lists := rfl
@[simp] theorem State.forbidden_spilled (s : State) : (s.forbidden).spilled = s.spilled := rfl
@[simp] theorem State.forbidden_pushed (s : State) : (s.forbidden).pushed = s.pushed := rfl
@[simp] theorem State.forbidden_pre (s : State) : (s.forbidden).pre = s.pre := rfl
@[simp] theorem State.forbidden_parts (s : State) : (s.forbidden).parts = s.parts := rfl
@[simp] theorem State.forbidden_prices (s : State) : (s.forbidden).prices = s.prices := rfl
@[simp] theorem State.forbidden_caps (s : State) : (s.forbidden).caps = s.caps := rfl
@[simp] theorem State.forbidden_posts (s : State) : (s.forbidden).posts = s.posts := rfl
@[simp] theorem State.forbidden_postsLost (s : State) : (s.forbidden).postsLost = s.postsLost := rfl
@[simp] theorem State.forbidden_convoy (s : State) : (s.forbidden).convoy = s.convoy := rfl
@[simp] theorem State.forbidden_fab (s : State) : (s.forbidden).fab = s.fab := rfl
@[simp] theorem State.forbidden_dev (s : State) : (s.forbidden).dev = s.dev := rfl
@[simp] theorem State.forbidden_sched (s : State) : (s.forbidden).sched = s.sched := rfl
@[simp] theorem State.forbidden_host (s : State) : (s.forbidden).host = s.host := rfl
@[simp] theorem State.forbidden_mgmt (s : State) : (s.forbidden).mgmt = s.mgmt := rfl
@[simp] theorem State.forbidden_now (s : State) : (s.forbidden).now = s.now := rfl
@[simp] theorem State.forbidden_cur (s : State) : (s.forbidden).cur = s.cur := rfl
@[simp] theorem State.forbidden_curH (s : State) : (s.forbidden).curH = s.curH := rfl
@[simp] theorem State.forbidden_agenda (s : State) : (s.forbidden).agenda = s.agenda := rfl
@[simp] theorem State.forbidden_turn (s : State) : (s.forbidden).turn = s.turn := rfl
@[simp] theorem State.forbidden_word (s : State) : (s.forbidden).word = s.word := rfl
@[simp] theorem State.forbidden_slotSrc (s : State) : (s.forbidden).slotSrc = s.slotSrc := rfl
@[simp] theorem State.forbidden_seqHold (s : State) : (s.forbidden).seqHold = s.seqHold := rfl
@[simp] theorem State.forbidden_weak (s : State) : (s.forbidden).weak = s.weak := rfl
@[simp] theorem State.forbidden_engWaits (s : State) : (s.forbidden).engWaits = s.engWaits := rfl
@[simp] theorem State.forbidden_mktWaits (s : State) : (s.forbidden).mktWaits = s.mktWaits := rfl

/-! ## respondTo -/

@[simp] theorem State.respondTo_saves (s : State) (k : CoreIx) (hpc : Option Pc) (cause : BitVec 8) (val : Word) : (s.respondTo k hpc cause val).saves = s.saves := rfl
@[simp] theorem State.respondTo_mem (s : State) (k : CoreIx) (hpc : Option Pc) (cause : BitVec 8) (val : Word) : (s.respondTo k hpc cause val).mem = s.mem := rfl
@[simp] theorem State.respondTo_empties (s : State) (k : CoreIx) (hpc : Option Pc) (cause : BitVec 8) (val : Word) : (s.respondTo k hpc cause val).empties = s.empties := rfl
@[simp] theorem State.respondTo_bad (s : State) (k : CoreIx) (hpc : Option Pc) (cause : BitVec 8) (val : Word) : (s.respondTo k hpc cause val).bad = s.bad := rfl
@[simp] theorem State.respondTo_weak (s : State) (k : CoreIx) (hpc : Option Pc) (cause : BitVec 8) (val : Word) : (s.respondTo k hpc cause val).weak = s.weak := rfl
@[simp] theorem State.respondTo_istore (s : State) (k : CoreIx) (hpc : Option Pc) (cause : BitVec 8) (val : Word) : (s.respondTo k hpc cause val).istore = s.istore := rfl
@[simp] theorem State.respondTo_text (s : State) (k : CoreIx) (hpc : Option Pc) (cause : BitVec 8) (val : Word) : (s.respondTo k hpc cause val).text = s.text := rfl
@[simp] theorem State.respondTo_tlb (s : State) (k : CoreIx) (hpc : Option Pc) (cause : BitVec 8) (val : Word) : (s.respondTo k hpc cause val).tlb = s.tlb := rfl
@[simp] theorem State.respondTo_net (s : State) (k : CoreIx) (hpc : Option Pc) (cause : BitVec 8) (val : Word) : (s.respondTo k hpc cause val).net = s.net := rfl
@[simp] theorem State.respondTo_engWaits (s : State) (k : CoreIx) (hpc : Option Pc) (cause : BitVec 8) (val : Word) : (s.respondTo k hpc cause val).engWaits = s.engWaits := rfl
@[simp] theorem State.respondTo_xfers (s : State) (k : CoreIx) (hpc : Option Pc) (cause : BitVec 8) (val : Word) : (s.respondTo k hpc cause val).xfers = s.xfers := rfl
@[simp] theorem State.respondTo_nextId (s : State) (k : CoreIx) (hpc : Option Pc) (cause : BitVec 8) (val : Word) : (s.respondTo k hpc cause val).nextId = s.nextId := rfl
@[simp] theorem State.respondTo_lists (s : State) (k : CoreIx) (hpc : Option Pc) (cause : BitVec 8) (val : Word) : (s.respondTo k hpc cause val).lists = s.lists := rfl
@[simp] theorem State.respondTo_spilled (s : State) (k : CoreIx) (hpc : Option Pc) (cause : BitVec 8) (val : Word) : (s.respondTo k hpc cause val).spilled = s.spilled := rfl
@[simp] theorem State.respondTo_pushed (s : State) (k : CoreIx) (hpc : Option Pc) (cause : BitVec 8) (val : Word) : (s.respondTo k hpc cause val).pushed = s.pushed := rfl
@[simp] theorem State.respondTo_pre (s : State) (k : CoreIx) (hpc : Option Pc) (cause : BitVec 8) (val : Word) : (s.respondTo k hpc cause val).pre = s.pre := rfl
@[simp] theorem State.respondTo_parts (s : State) (k : CoreIx) (hpc : Option Pc) (cause : BitVec 8) (val : Word) : (s.respondTo k hpc cause val).parts = s.parts := rfl
@[simp] theorem State.respondTo_mktWaits (s : State) (k : CoreIx) (hpc : Option Pc) (cause : BitVec 8) (val : Word) : (s.respondTo k hpc cause val).mktWaits = s.mktWaits := rfl
@[simp] theorem State.respondTo_prices (s : State) (k : CoreIx) (hpc : Option Pc) (cause : BitVec 8) (val : Word) : (s.respondTo k hpc cause val).prices = s.prices := rfl
@[simp] theorem State.respondTo_caps (s : State) (k : CoreIx) (hpc : Option Pc) (cause : BitVec 8) (val : Word) : (s.respondTo k hpc cause val).caps = s.caps := rfl
@[simp] theorem State.respondTo_posts (s : State) (k : CoreIx) (hpc : Option Pc) (cause : BitVec 8) (val : Word) : (s.respondTo k hpc cause val).posts = s.posts := rfl
@[simp] theorem State.respondTo_postsLost (s : State) (k : CoreIx) (hpc : Option Pc) (cause : BitVec 8) (val : Word) : (s.respondTo k hpc cause val).postsLost = s.postsLost := rfl
@[simp] theorem State.respondTo_convoy (s : State) (k : CoreIx) (hpc : Option Pc) (cause : BitVec 8) (val : Word) : (s.respondTo k hpc cause val).convoy = s.convoy := rfl
@[simp] theorem State.respondTo_fab (s : State) (k : CoreIx) (hpc : Option Pc) (cause : BitVec 8) (val : Word) : (s.respondTo k hpc cause val).fab = s.fab := rfl
@[simp] theorem State.respondTo_dev (s : State) (k : CoreIx) (hpc : Option Pc) (cause : BitVec 8) (val : Word) : (s.respondTo k hpc cause val).dev = s.dev := rfl
@[simp] theorem State.respondTo_sched (s : State) (k : CoreIx) (hpc : Option Pc) (cause : BitVec 8) (val : Word) : (s.respondTo k hpc cause val).sched = s.sched := rfl
@[simp] theorem State.respondTo_host (s : State) (k : CoreIx) (hpc : Option Pc) (cause : BitVec 8) (val : Word) : (s.respondTo k hpc cause val).host = s.host := rfl
@[simp] theorem State.respondTo_mgmt (s : State) (k : CoreIx) (hpc : Option Pc) (cause : BitVec 8) (val : Word) : (s.respondTo k hpc cause val).mgmt = s.mgmt := rfl
@[simp] theorem State.respondTo_now (s : State) (k : CoreIx) (hpc : Option Pc) (cause : BitVec 8) (val : Word) : (s.respondTo k hpc cause val).now = s.now := rfl
@[simp] theorem State.respondTo_cur (s : State) (k : CoreIx) (hpc : Option Pc) (cause : BitVec 8) (val : Word) : (s.respondTo k hpc cause val).cur = s.cur := rfl
@[simp] theorem State.respondTo_curH (s : State) (k : CoreIx) (hpc : Option Pc) (cause : BitVec 8) (val : Word) : (s.respondTo k hpc cause val).curH = s.curH := rfl
@[simp] theorem State.respondTo_agenda (s : State) (k : CoreIx) (hpc : Option Pc) (cause : BitVec 8) (val : Word) : (s.respondTo k hpc cause val).agenda = s.agenda := rfl
@[simp] theorem State.respondTo_turn (s : State) (k : CoreIx) (hpc : Option Pc) (cause : BitVec 8) (val : Word) : (s.respondTo k hpc cause val).turn = s.turn := rfl
@[simp] theorem State.respondTo_bundle (s : State) (k : CoreIx) (hpc : Option Pc) (cause : BitVec 8) (val : Word) : (s.respondTo k hpc cause val).bundle = s.bundle := rfl
@[simp] theorem State.respondTo_word (s : State) (k : CoreIx) (hpc : Option Pc) (cause : BitVec 8) (val : Word) : (s.respondTo k hpc cause val).word = s.word := rfl
@[simp] theorem State.respondTo_slotSrc (s : State) (k : CoreIx) (hpc : Option Pc) (cause : BitVec 8) (val : Word) : (s.respondTo k hpc cause val).slotSrc = s.slotSrc := rfl
@[simp] theorem State.respondTo_free (s : State) (k : CoreIx) (hpc : Option Pc) (cause : BitVec 8) (val : Word) : (s.respondTo k hpc cause val).free = s.free := rfl
@[simp] theorem State.respondTo_seqHold (s : State) (k : CoreIx) (hpc : Option Pc) (cause : BitVec 8) (val : Word) : (s.respondTo k hpc cause val).seqHold = s.seqHold := rfl

/-! ## setFence -/

@[simp] theorem State.setFence_saves (s : State) (m : Option Nat) : (s.setFence m).saves = s.saves := rfl
@[simp] theorem State.setFence_mem (s : State) (m : Option Nat) : (s.setFence m).mem = s.mem := rfl
@[simp] theorem State.setFence_empties (s : State) (m : Option Nat) : (s.setFence m).empties = s.empties := rfl
@[simp] theorem State.setFence_bad (s : State) (m : Option Nat) : (s.setFence m).bad = s.bad := rfl
@[simp] theorem State.setFence_weak (s : State) (m : Option Nat) : (s.setFence m).weak = s.weak := rfl
@[simp] theorem State.setFence_istore (s : State) (m : Option Nat) : (s.setFence m).istore = s.istore := rfl
@[simp] theorem State.setFence_text (s : State) (m : Option Nat) : (s.setFence m).text = s.text := rfl
@[simp] theorem State.setFence_tlb (s : State) (m : Option Nat) : (s.setFence m).tlb = s.tlb := rfl
@[simp] theorem State.setFence_net (s : State) (m : Option Nat) : (s.setFence m).net = s.net := rfl
@[simp] theorem State.setFence_engWaits (s : State) (m : Option Nat) : (s.setFence m).engWaits = s.engWaits := rfl
@[simp] theorem State.setFence_xfers (s : State) (m : Option Nat) : (s.setFence m).xfers = s.xfers := rfl
@[simp] theorem State.setFence_nextId (s : State) (m : Option Nat) : (s.setFence m).nextId = s.nextId := rfl
@[simp] theorem State.setFence_lists (s : State) (m : Option Nat) : (s.setFence m).lists = s.lists := rfl
@[simp] theorem State.setFence_spilled (s : State) (m : Option Nat) : (s.setFence m).spilled = s.spilled := rfl
@[simp] theorem State.setFence_pushed (s : State) (m : Option Nat) : (s.setFence m).pushed = s.pushed := rfl
@[simp] theorem State.setFence_pre (s : State) (m : Option Nat) : (s.setFence m).pre = s.pre := rfl
@[simp] theorem State.setFence_parts (s : State) (m : Option Nat) : (s.setFence m).parts = s.parts := rfl
@[simp] theorem State.setFence_mktWaits (s : State) (m : Option Nat) : (s.setFence m).mktWaits = s.mktWaits := rfl
@[simp] theorem State.setFence_prices (s : State) (m : Option Nat) : (s.setFence m).prices = s.prices := rfl
@[simp] theorem State.setFence_caps (s : State) (m : Option Nat) : (s.setFence m).caps = s.caps := rfl
@[simp] theorem State.setFence_posts (s : State) (m : Option Nat) : (s.setFence m).posts = s.posts := rfl
@[simp] theorem State.setFence_postsLost (s : State) (m : Option Nat) : (s.setFence m).postsLost = s.postsLost := rfl
@[simp] theorem State.setFence_convoy (s : State) (m : Option Nat) : (s.setFence m).convoy = s.convoy := rfl
@[simp] theorem State.setFence_fab (s : State) (m : Option Nat) : (s.setFence m).fab = s.fab := rfl
@[simp] theorem State.setFence_dev (s : State) (m : Option Nat) : (s.setFence m).dev = s.dev := rfl
@[simp] theorem State.setFence_sched (s : State) (m : Option Nat) : (s.setFence m).sched = s.sched := rfl
@[simp] theorem State.setFence_host (s : State) (m : Option Nat) : (s.setFence m).host = s.host := rfl
@[simp] theorem State.setFence_mgmt (s : State) (m : Option Nat) : (s.setFence m).mgmt = s.mgmt := rfl
@[simp] theorem State.setFence_now (s : State) (m : Option Nat) : (s.setFence m).now = s.now := rfl
@[simp] theorem State.setFence_cur (s : State) (m : Option Nat) : (s.setFence m).cur = s.cur := rfl
@[simp] theorem State.setFence_curH (s : State) (m : Option Nat) : (s.setFence m).curH = s.curH := rfl
@[simp] theorem State.setFence_agenda (s : State) (m : Option Nat) : (s.setFence m).agenda = s.agenda := rfl
@[simp] theorem State.setFence_turn (s : State) (m : Option Nat) : (s.setFence m).turn = s.turn := rfl
@[simp] theorem State.setFence_bundle (s : State) (m : Option Nat) : (s.setFence m).bundle = s.bundle := rfl
@[simp] theorem State.setFence_word (s : State) (m : Option Nat) : (s.setFence m).word = s.word := rfl
@[simp] theorem State.setFence_slotSrc (s : State) (m : Option Nat) : (s.setFence m).slotSrc = s.slotSrc := rfl
@[simp] theorem State.setFence_free (s : State) (m : Option Nat) : (s.setFence m).free = s.free := rfl
@[simp] theorem State.setFence_seqHold (s : State) (m : Option Nat) : (s.setFence m).seqHold = s.seqHold := rfl

/-! ## noFill -/

@[simp] theorem State.noFill_cores (s : State) (sys : BitVec 50) (n : Nat) : (s.noFill sys n).cores = s.cores := rfl
@[simp] theorem State.noFill_saves (s : State) (sys : BitVec 50) (n : Nat) : (s.noFill sys n).saves = s.saves := rfl
@[simp] theorem State.noFill_mem (s : State) (sys : BitVec 50) (n : Nat) : (s.noFill sys n).mem = s.mem := rfl
@[simp] theorem State.noFill_empties (s : State) (sys : BitVec 50) (n : Nat) : (s.noFill sys n).empties = s.empties := rfl
@[simp] theorem State.noFill_bad (s : State) (sys : BitVec 50) (n : Nat) : (s.noFill sys n).bad = s.bad := rfl
@[simp] theorem State.noFill_weak (s : State) (sys : BitVec 50) (n : Nat) : (s.noFill sys n).weak = s.weak := rfl
@[simp] theorem State.noFill_istore (s : State) (sys : BitVec 50) (n : Nat) : (s.noFill sys n).istore = s.istore := rfl
@[simp] theorem State.noFill_text (s : State) (sys : BitVec 50) (n : Nat) : (s.noFill sys n).text = s.text := rfl
@[simp] theorem State.noFill_tlb (s : State) (sys : BitVec 50) (n : Nat) : (s.noFill sys n).tlb = s.tlb := rfl
@[simp] theorem State.noFill_engWaits (s : State) (sys : BitVec 50) (n : Nat) : (s.noFill sys n).engWaits = s.engWaits := rfl
@[simp] theorem State.noFill_xfers (s : State) (sys : BitVec 50) (n : Nat) : (s.noFill sys n).xfers = s.xfers := rfl
@[simp] theorem State.noFill_nextId (s : State) (sys : BitVec 50) (n : Nat) : (s.noFill sys n).nextId = s.nextId := rfl
@[simp] theorem State.noFill_lists (s : State) (sys : BitVec 50) (n : Nat) : (s.noFill sys n).lists = s.lists := rfl
@[simp] theorem State.noFill_spilled (s : State) (sys : BitVec 50) (n : Nat) : (s.noFill sys n).spilled = s.spilled := rfl
@[simp] theorem State.noFill_pushed (s : State) (sys : BitVec 50) (n : Nat) : (s.noFill sys n).pushed = s.pushed := rfl
@[simp] theorem State.noFill_pre (s : State) (sys : BitVec 50) (n : Nat) : (s.noFill sys n).pre = s.pre := rfl
@[simp] theorem State.noFill_parts (s : State) (sys : BitVec 50) (n : Nat) : (s.noFill sys n).parts = s.parts := rfl
@[simp] theorem State.noFill_mktWaits (s : State) (sys : BitVec 50) (n : Nat) : (s.noFill sys n).mktWaits = s.mktWaits := rfl
@[simp] theorem State.noFill_prices (s : State) (sys : BitVec 50) (n : Nat) : (s.noFill sys n).prices = s.prices := rfl
@[simp] theorem State.noFill_caps (s : State) (sys : BitVec 50) (n : Nat) : (s.noFill sys n).caps = s.caps := rfl
@[simp] theorem State.noFill_posts (s : State) (sys : BitVec 50) (n : Nat) : (s.noFill sys n).posts = s.posts := rfl
@[simp] theorem State.noFill_postsLost (s : State) (sys : BitVec 50) (n : Nat) : (s.noFill sys n).postsLost = s.postsLost := rfl
@[simp] theorem State.noFill_convoy (s : State) (sys : BitVec 50) (n : Nat) : (s.noFill sys n).convoy = s.convoy := rfl
@[simp] theorem State.noFill_fab (s : State) (sys : BitVec 50) (n : Nat) : (s.noFill sys n).fab = s.fab := rfl
@[simp] theorem State.noFill_dev (s : State) (sys : BitVec 50) (n : Nat) : (s.noFill sys n).dev = s.dev := rfl
@[simp] theorem State.noFill_sched (s : State) (sys : BitVec 50) (n : Nat) : (s.noFill sys n).sched = s.sched := rfl
@[simp] theorem State.noFill_host (s : State) (sys : BitVec 50) (n : Nat) : (s.noFill sys n).host = s.host := rfl
@[simp] theorem State.noFill_mgmt (s : State) (sys : BitVec 50) (n : Nat) : (s.noFill sys n).mgmt = s.mgmt := rfl
@[simp] theorem State.noFill_now (s : State) (sys : BitVec 50) (n : Nat) : (s.noFill sys n).now = s.now := rfl
@[simp] theorem State.noFill_cur (s : State) (sys : BitVec 50) (n : Nat) : (s.noFill sys n).cur = s.cur := rfl
@[simp] theorem State.noFill_curH (s : State) (sys : BitVec 50) (n : Nat) : (s.noFill sys n).curH = s.curH := rfl
@[simp] theorem State.noFill_agenda (s : State) (sys : BitVec 50) (n : Nat) : (s.noFill sys n).agenda = s.agenda := rfl
@[simp] theorem State.noFill_turn (s : State) (sys : BitVec 50) (n : Nat) : (s.noFill sys n).turn = s.turn := rfl
@[simp] theorem State.noFill_bundle (s : State) (sys : BitVec 50) (n : Nat) : (s.noFill sys n).bundle = s.bundle := rfl
@[simp] theorem State.noFill_word (s : State) (sys : BitVec 50) (n : Nat) : (s.noFill sys n).word = s.word := rfl
@[simp] theorem State.noFill_slotSrc (s : State) (sys : BitVec 50) (n : Nat) : (s.noFill sys n).slotSrc = s.slotSrc := rfl
@[simp] theorem State.noFill_free (s : State) (sys : BitVec 50) (n : Nat) : (s.noFill sys n).free = s.free := rfl
@[simp] theorem State.noFill_seqHold (s : State) (sys : BitVec 50) (n : Nat) : (s.noFill sys n).seqHold = s.seqHold := rfl

/-! ## engLeave -/

@[simp] theorem State.engLeave_cores (s : State) (e : Acc) (sys : BitVec 50) : (s.engLeave e sys).cores = s.cores := rfl
@[simp] theorem State.engLeave_saves (s : State) (e : Acc) (sys : BitVec 50) : (s.engLeave e sys).saves = s.saves := rfl
@[simp] theorem State.engLeave_mem (s : State) (e : Acc) (sys : BitVec 50) : (s.engLeave e sys).mem = s.mem := rfl
@[simp] theorem State.engLeave_empties (s : State) (e : Acc) (sys : BitVec 50) : (s.engLeave e sys).empties = s.empties := rfl
@[simp] theorem State.engLeave_bad (s : State) (e : Acc) (sys : BitVec 50) : (s.engLeave e sys).bad = s.bad := rfl
@[simp] theorem State.engLeave_weak (s : State) (e : Acc) (sys : BitVec 50) : (s.engLeave e sys).weak = s.weak := rfl
@[simp] theorem State.engLeave_istore (s : State) (e : Acc) (sys : BitVec 50) : (s.engLeave e sys).istore = s.istore := rfl
@[simp] theorem State.engLeave_text (s : State) (e : Acc) (sys : BitVec 50) : (s.engLeave e sys).text = s.text := rfl
@[simp] theorem State.engLeave_tlb (s : State) (e : Acc) (sys : BitVec 50) : (s.engLeave e sys).tlb = s.tlb := rfl
@[simp] theorem State.engLeave_net (s : State) (e : Acc) (sys : BitVec 50) : (s.engLeave e sys).net = s.net := rfl
@[simp] theorem State.engLeave_xfers (s : State) (e : Acc) (sys : BitVec 50) : (s.engLeave e sys).xfers = s.xfers := rfl
@[simp] theorem State.engLeave_nextId (s : State) (e : Acc) (sys : BitVec 50) : (s.engLeave e sys).nextId = s.nextId := rfl
@[simp] theorem State.engLeave_lists (s : State) (e : Acc) (sys : BitVec 50) : (s.engLeave e sys).lists = s.lists := rfl
@[simp] theorem State.engLeave_spilled (s : State) (e : Acc) (sys : BitVec 50) : (s.engLeave e sys).spilled = s.spilled := rfl
@[simp] theorem State.engLeave_pushed (s : State) (e : Acc) (sys : BitVec 50) : (s.engLeave e sys).pushed = s.pushed := rfl
@[simp] theorem State.engLeave_pre (s : State) (e : Acc) (sys : BitVec 50) : (s.engLeave e sys).pre = s.pre := rfl
@[simp] theorem State.engLeave_parts (s : State) (e : Acc) (sys : BitVec 50) : (s.engLeave e sys).parts = s.parts := rfl
@[simp] theorem State.engLeave_mktWaits (s : State) (e : Acc) (sys : BitVec 50) : (s.engLeave e sys).mktWaits = s.mktWaits := rfl
@[simp] theorem State.engLeave_prices (s : State) (e : Acc) (sys : BitVec 50) : (s.engLeave e sys).prices = s.prices := rfl
@[simp] theorem State.engLeave_caps (s : State) (e : Acc) (sys : BitVec 50) : (s.engLeave e sys).caps = s.caps := rfl
@[simp] theorem State.engLeave_posts (s : State) (e : Acc) (sys : BitVec 50) : (s.engLeave e sys).posts = s.posts := rfl
@[simp] theorem State.engLeave_postsLost (s : State) (e : Acc) (sys : BitVec 50) : (s.engLeave e sys).postsLost = s.postsLost := rfl
@[simp] theorem State.engLeave_convoy (s : State) (e : Acc) (sys : BitVec 50) : (s.engLeave e sys).convoy = s.convoy := rfl
@[simp] theorem State.engLeave_fab (s : State) (e : Acc) (sys : BitVec 50) : (s.engLeave e sys).fab = s.fab := rfl
@[simp] theorem State.engLeave_dev (s : State) (e : Acc) (sys : BitVec 50) : (s.engLeave e sys).dev = s.dev := rfl
@[simp] theorem State.engLeave_sched (s : State) (e : Acc) (sys : BitVec 50) : (s.engLeave e sys).sched = s.sched := rfl
@[simp] theorem State.engLeave_host (s : State) (e : Acc) (sys : BitVec 50) : (s.engLeave e sys).host = s.host := rfl
@[simp] theorem State.engLeave_mgmt (s : State) (e : Acc) (sys : BitVec 50) : (s.engLeave e sys).mgmt = s.mgmt := rfl
@[simp] theorem State.engLeave_now (s : State) (e : Acc) (sys : BitVec 50) : (s.engLeave e sys).now = s.now := rfl
@[simp] theorem State.engLeave_cur (s : State) (e : Acc) (sys : BitVec 50) : (s.engLeave e sys).cur = s.cur := rfl
@[simp] theorem State.engLeave_curH (s : State) (e : Acc) (sys : BitVec 50) : (s.engLeave e sys).curH = s.curH := rfl
@[simp] theorem State.engLeave_agenda (s : State) (e : Acc) (sys : BitVec 50) : (s.engLeave e sys).agenda = s.agenda := rfl
@[simp] theorem State.engLeave_turn (s : State) (e : Acc) (sys : BitVec 50) : (s.engLeave e sys).turn = s.turn := rfl
@[simp] theorem State.engLeave_bundle (s : State) (e : Acc) (sys : BitVec 50) : (s.engLeave e sys).bundle = s.bundle := rfl
@[simp] theorem State.engLeave_word (s : State) (e : Acc) (sys : BitVec 50) : (s.engLeave e sys).word = s.word := rfl
@[simp] theorem State.engLeave_slotSrc (s : State) (e : Acc) (sys : BitVec 50) : (s.engLeave e sys).slotSrc = s.slotSrc := rfl
@[simp] theorem State.engLeave_free (s : State) (e : Acc) (sys : BitVec 50) : (s.engLeave e sys).free = s.free := rfl
@[simp] theorem State.engLeave_seqHold (s : State) (e : Acc) (sys : BitVec 50) : (s.engLeave e sys).seqHold = s.seqHold := rfl

/-! ## expect -/

@[simp] theorem State.expect_cores (s : State) (id : Nat) : (s.expect id).cores = s.cores := rfl
@[simp] theorem State.expect_saves (s : State) (id : Nat) : (s.expect id).saves = s.saves := rfl
@[simp] theorem State.expect_mem (s : State) (id : Nat) : (s.expect id).mem = s.mem := rfl
@[simp] theorem State.expect_empties (s : State) (id : Nat) : (s.expect id).empties = s.empties := rfl
@[simp] theorem State.expect_bad (s : State) (id : Nat) : (s.expect id).bad = s.bad := rfl
@[simp] theorem State.expect_weak (s : State) (id : Nat) : (s.expect id).weak = s.weak := rfl
@[simp] theorem State.expect_istore (s : State) (id : Nat) : (s.expect id).istore = s.istore := rfl
@[simp] theorem State.expect_text (s : State) (id : Nat) : (s.expect id).text = s.text := rfl
@[simp] theorem State.expect_tlb (s : State) (id : Nat) : (s.expect id).tlb = s.tlb := rfl
@[simp] theorem State.expect_net (s : State) (id : Nat) : (s.expect id).net = s.net := rfl
@[simp] theorem State.expect_engWaits (s : State) (id : Nat) : (s.expect id).engWaits = s.engWaits := rfl
@[simp] theorem State.expect_xfers (s : State) (id : Nat) : (s.expect id).xfers = s.xfers := rfl
@[simp] theorem State.expect_nextId (s : State) (id : Nat) : (s.expect id).nextId = s.nextId := rfl
@[simp] theorem State.expect_lists (s : State) (id : Nat) : (s.expect id).lists = s.lists := rfl
@[simp] theorem State.expect_spilled (s : State) (id : Nat) : (s.expect id).spilled = s.spilled := rfl
@[simp] theorem State.expect_pushed (s : State) (id : Nat) : (s.expect id).pushed = s.pushed := rfl
@[simp] theorem State.expect_pre (s : State) (id : Nat) : (s.expect id).pre = s.pre := rfl
@[simp] theorem State.expect_parts (s : State) (id : Nat) : (s.expect id).parts = s.parts := rfl
@[simp] theorem State.expect_mktWaits (s : State) (id : Nat) : (s.expect id).mktWaits = s.mktWaits := rfl
@[simp] theorem State.expect_prices (s : State) (id : Nat) : (s.expect id).prices = s.prices := rfl
@[simp] theorem State.expect_caps (s : State) (id : Nat) : (s.expect id).caps = s.caps := rfl
@[simp] theorem State.expect_posts (s : State) (id : Nat) : (s.expect id).posts = s.posts := rfl
@[simp] theorem State.expect_postsLost (s : State) (id : Nat) : (s.expect id).postsLost = s.postsLost := rfl
@[simp] theorem State.expect_convoy (s : State) (id : Nat) : (s.expect id).convoy = s.convoy := rfl
@[simp] theorem State.expect_dev (s : State) (id : Nat) : (s.expect id).dev = s.dev := rfl
@[simp] theorem State.expect_sched (s : State) (id : Nat) : (s.expect id).sched = s.sched := rfl
@[simp] theorem State.expect_host (s : State) (id : Nat) : (s.expect id).host = s.host := rfl
@[simp] theorem State.expect_mgmt (s : State) (id : Nat) : (s.expect id).mgmt = s.mgmt := rfl
@[simp] theorem State.expect_now (s : State) (id : Nat) : (s.expect id).now = s.now := rfl
@[simp] theorem State.expect_cur (s : State) (id : Nat) : (s.expect id).cur = s.cur := rfl
@[simp] theorem State.expect_curH (s : State) (id : Nat) : (s.expect id).curH = s.curH := rfl
@[simp] theorem State.expect_agenda (s : State) (id : Nat) : (s.expect id).agenda = s.agenda := rfl
@[simp] theorem State.expect_turn (s : State) (id : Nat) : (s.expect id).turn = s.turn := rfl
@[simp] theorem State.expect_bundle (s : State) (id : Nat) : (s.expect id).bundle = s.bundle := rfl
@[simp] theorem State.expect_word (s : State) (id : Nat) : (s.expect id).word = s.word := rfl
@[simp] theorem State.expect_slotSrc (s : State) (id : Nat) : (s.expect id).slotSrc = s.slotSrc := rfl
@[simp] theorem State.expect_free (s : State) (id : Nat) : (s.expect id).free = s.free := rfl
@[simp] theorem State.expect_seqHold (s : State) (id : Nat) : (s.expect id).seqHold = s.seqHold := rfl

/-! ## setResAll -/

@[simp] theorem State.setResAll_cores (s : State) (e : Nat) (r : ResEntry) : (s.setResAll e r).cores = s.cores := rfl
@[simp] theorem State.setResAll_saves (s : State) (e : Nat) (r : ResEntry) : (s.setResAll e r).saves = s.saves := rfl
@[simp] theorem State.setResAll_mem (s : State) (e : Nat) (r : ResEntry) : (s.setResAll e r).mem = s.mem := rfl
@[simp] theorem State.setResAll_empties (s : State) (e : Nat) (r : ResEntry) : (s.setResAll e r).empties = s.empties := rfl
@[simp] theorem State.setResAll_bad (s : State) (e : Nat) (r : ResEntry) : (s.setResAll e r).bad = s.bad := rfl
@[simp] theorem State.setResAll_weak (s : State) (e : Nat) (r : ResEntry) : (s.setResAll e r).weak = s.weak := rfl
@[simp] theorem State.setResAll_istore (s : State) (e : Nat) (r : ResEntry) : (s.setResAll e r).istore = s.istore := rfl
@[simp] theorem State.setResAll_text (s : State) (e : Nat) (r : ResEntry) : (s.setResAll e r).text = s.text := rfl
@[simp] theorem State.setResAll_tlb (s : State) (e : Nat) (r : ResEntry) : (s.setResAll e r).tlb = s.tlb := rfl
@[simp] theorem State.setResAll_net (s : State) (e : Nat) (r : ResEntry) : (s.setResAll e r).net = s.net := rfl
@[simp] theorem State.setResAll_engWaits (s : State) (e : Nat) (r : ResEntry) : (s.setResAll e r).engWaits = s.engWaits := rfl
@[simp] theorem State.setResAll_xfers (s : State) (e : Nat) (r : ResEntry) : (s.setResAll e r).xfers = s.xfers := rfl
@[simp] theorem State.setResAll_nextId (s : State) (e : Nat) (r : ResEntry) : (s.setResAll e r).nextId = s.nextId := rfl
@[simp] theorem State.setResAll_lists (s : State) (e : Nat) (r : ResEntry) : (s.setResAll e r).lists = s.lists := rfl
@[simp] theorem State.setResAll_spilled (s : State) (e : Nat) (r : ResEntry) : (s.setResAll e r).spilled = s.spilled := rfl
@[simp] theorem State.setResAll_pushed (s : State) (e : Nat) (r : ResEntry) : (s.setResAll e r).pushed = s.pushed := rfl
@[simp] theorem State.setResAll_pre (s : State) (e : Nat) (r : ResEntry) : (s.setResAll e r).pre = s.pre := rfl
@[simp] theorem State.setResAll_parts (s : State) (e : Nat) (r : ResEntry) : (s.setResAll e r).parts = s.parts := rfl
@[simp] theorem State.setResAll_mktWaits (s : State) (e : Nat) (r : ResEntry) : (s.setResAll e r).mktWaits = s.mktWaits := rfl
@[simp] theorem State.setResAll_prices (s : State) (e : Nat) (r : ResEntry) : (s.setResAll e r).prices = s.prices := rfl
@[simp] theorem State.setResAll_caps (s : State) (e : Nat) (r : ResEntry) : (s.setResAll e r).caps = s.caps := rfl
@[simp] theorem State.setResAll_posts (s : State) (e : Nat) (r : ResEntry) : (s.setResAll e r).posts = s.posts := rfl
@[simp] theorem State.setResAll_postsLost (s : State) (e : Nat) (r : ResEntry) : (s.setResAll e r).postsLost = s.postsLost := rfl
@[simp] theorem State.setResAll_convoy (s : State) (e : Nat) (r : ResEntry) : (s.setResAll e r).convoy = s.convoy := rfl
@[simp] theorem State.setResAll_fab (s : State) (e : Nat) (r : ResEntry) : (s.setResAll e r).fab = s.fab := rfl
@[simp] theorem State.setResAll_sched (s : State) (e : Nat) (r : ResEntry) : (s.setResAll e r).sched = s.sched := rfl
@[simp] theorem State.setResAll_host (s : State) (e : Nat) (r : ResEntry) : (s.setResAll e r).host = s.host := rfl
@[simp] theorem State.setResAll_mgmt (s : State) (e : Nat) (r : ResEntry) : (s.setResAll e r).mgmt = s.mgmt := rfl
@[simp] theorem State.setResAll_now (s : State) (e : Nat) (r : ResEntry) : (s.setResAll e r).now = s.now := rfl
@[simp] theorem State.setResAll_cur (s : State) (e : Nat) (r : ResEntry) : (s.setResAll e r).cur = s.cur := rfl
@[simp] theorem State.setResAll_curH (s : State) (e : Nat) (r : ResEntry) : (s.setResAll e r).curH = s.curH := rfl
@[simp] theorem State.setResAll_agenda (s : State) (e : Nat) (r : ResEntry) : (s.setResAll e r).agenda = s.agenda := rfl
@[simp] theorem State.setResAll_turn (s : State) (e : Nat) (r : ResEntry) : (s.setResAll e r).turn = s.turn := rfl
@[simp] theorem State.setResAll_bundle (s : State) (e : Nat) (r : ResEntry) : (s.setResAll e r).bundle = s.bundle := rfl
@[simp] theorem State.setResAll_word (s : State) (e : Nat) (r : ResEntry) : (s.setResAll e r).word = s.word := rfl
@[simp] theorem State.setResAll_slotSrc (s : State) (e : Nat) (r : ResEntry) : (s.setResAll e r).slotSrc = s.slotSrc := rfl
@[simp] theorem State.setResAll_free (s : State) (e : Nat) (r : ResEntry) : (s.setResAll e r).free = s.free := rfl
@[simp] theorem State.setResAll_seqHold (s : State) (e : Nat) (r : ResEntry) : (s.setResAll e r).seqHold = s.seqHold := rfl

/-! ## replicate -/

@[simp] theorem State.replicate_cores (s : State) (e die : Nat) : (s.replicate e die).cores = s.cores := rfl
@[simp] theorem State.replicate_saves (s : State) (e die : Nat) : (s.replicate e die).saves = s.saves := rfl
@[simp] theorem State.replicate_mem (s : State) (e die : Nat) : (s.replicate e die).mem = s.mem := rfl
@[simp] theorem State.replicate_empties (s : State) (e die : Nat) : (s.replicate e die).empties = s.empties := rfl
@[simp] theorem State.replicate_bad (s : State) (e die : Nat) : (s.replicate e die).bad = s.bad := rfl
@[simp] theorem State.replicate_weak (s : State) (e die : Nat) : (s.replicate e die).weak = s.weak := rfl
@[simp] theorem State.replicate_istore (s : State) (e die : Nat) : (s.replicate e die).istore = s.istore := rfl
@[simp] theorem State.replicate_text (s : State) (e die : Nat) : (s.replicate e die).text = s.text := rfl
@[simp] theorem State.replicate_tlb (s : State) (e die : Nat) : (s.replicate e die).tlb = s.tlb := rfl
@[simp] theorem State.replicate_net (s : State) (e die : Nat) : (s.replicate e die).net = s.net := rfl
@[simp] theorem State.replicate_engWaits (s : State) (e die : Nat) : (s.replicate e die).engWaits = s.engWaits := rfl
@[simp] theorem State.replicate_xfers (s : State) (e die : Nat) : (s.replicate e die).xfers = s.xfers := rfl
@[simp] theorem State.replicate_nextId (s : State) (e die : Nat) : (s.replicate e die).nextId = s.nextId := rfl
@[simp] theorem State.replicate_lists (s : State) (e die : Nat) : (s.replicate e die).lists = s.lists := rfl
@[simp] theorem State.replicate_spilled (s : State) (e die : Nat) : (s.replicate e die).spilled = s.spilled := rfl
@[simp] theorem State.replicate_pushed (s : State) (e die : Nat) : (s.replicate e die).pushed = s.pushed := rfl
@[simp] theorem State.replicate_pre (s : State) (e die : Nat) : (s.replicate e die).pre = s.pre := rfl
@[simp] theorem State.replicate_parts (s : State) (e die : Nat) : (s.replicate e die).parts = s.parts := rfl
@[simp] theorem State.replicate_mktWaits (s : State) (e die : Nat) : (s.replicate e die).mktWaits = s.mktWaits := rfl
@[simp] theorem State.replicate_prices (s : State) (e die : Nat) : (s.replicate e die).prices = s.prices := rfl
@[simp] theorem State.replicate_caps (s : State) (e die : Nat) : (s.replicate e die).caps = s.caps := rfl
@[simp] theorem State.replicate_posts (s : State) (e die : Nat) : (s.replicate e die).posts = s.posts := rfl
@[simp] theorem State.replicate_postsLost (s : State) (e die : Nat) : (s.replicate e die).postsLost = s.postsLost := rfl
@[simp] theorem State.replicate_convoy (s : State) (e die : Nat) : (s.replicate e die).convoy = s.convoy := rfl
@[simp] theorem State.replicate_fab (s : State) (e die : Nat) : (s.replicate e die).fab = s.fab := rfl
@[simp] theorem State.replicate_sched (s : State) (e die : Nat) : (s.replicate e die).sched = s.sched := rfl
@[simp] theorem State.replicate_host (s : State) (e die : Nat) : (s.replicate e die).host = s.host := rfl
@[simp] theorem State.replicate_mgmt (s : State) (e die : Nat) : (s.replicate e die).mgmt = s.mgmt := rfl
@[simp] theorem State.replicate_now (s : State) (e die : Nat) : (s.replicate e die).now = s.now := rfl
@[simp] theorem State.replicate_cur (s : State) (e die : Nat) : (s.replicate e die).cur = s.cur := rfl
@[simp] theorem State.replicate_curH (s : State) (e die : Nat) : (s.replicate e die).curH = s.curH := rfl
@[simp] theorem State.replicate_agenda (s : State) (e die : Nat) : (s.replicate e die).agenda = s.agenda := rfl
@[simp] theorem State.replicate_turn (s : State) (e die : Nat) : (s.replicate e die).turn = s.turn := rfl
@[simp] theorem State.replicate_bundle (s : State) (e die : Nat) : (s.replicate e die).bundle = s.bundle := rfl
@[simp] theorem State.replicate_word (s : State) (e die : Nat) : (s.replicate e die).word = s.word := rfl
@[simp] theorem State.replicate_slotSrc (s : State) (e die : Nat) : (s.replicate e die).slotSrc = s.slotSrc := rfl
@[simp] theorem State.replicate_free (s : State) (e die : Nat) : (s.replicate e die).free = s.free := rfl
@[simp] theorem State.replicate_seqHold (s : State) (e die : Nat) : (s.replicate e die).seqHold = s.seqHold := rfl

/-! ## setGraph -/

@[simp] theorem State.setGraph_cores (s : State) (g : Fin 16) (x : Graph) : (s.setGraph g x).cores = s.cores := rfl
@[simp] theorem State.setGraph_saves (s : State) (g : Fin 16) (x : Graph) : (s.setGraph g x).saves = s.saves := rfl
@[simp] theorem State.setGraph_mem (s : State) (g : Fin 16) (x : Graph) : (s.setGraph g x).mem = s.mem := rfl
@[simp] theorem State.setGraph_empties (s : State) (g : Fin 16) (x : Graph) : (s.setGraph g x).empties = s.empties := rfl
@[simp] theorem State.setGraph_bad (s : State) (g : Fin 16) (x : Graph) : (s.setGraph g x).bad = s.bad := rfl
@[simp] theorem State.setGraph_weak (s : State) (g : Fin 16) (x : Graph) : (s.setGraph g x).weak = s.weak := rfl
@[simp] theorem State.setGraph_istore (s : State) (g : Fin 16) (x : Graph) : (s.setGraph g x).istore = s.istore := rfl
@[simp] theorem State.setGraph_text (s : State) (g : Fin 16) (x : Graph) : (s.setGraph g x).text = s.text := rfl
@[simp] theorem State.setGraph_tlb (s : State) (g : Fin 16) (x : Graph) : (s.setGraph g x).tlb = s.tlb := rfl
@[simp] theorem State.setGraph_net (s : State) (g : Fin 16) (x : Graph) : (s.setGraph g x).net = s.net := rfl
@[simp] theorem State.setGraph_engWaits (s : State) (g : Fin 16) (x : Graph) : (s.setGraph g x).engWaits = s.engWaits := rfl
@[simp] theorem State.setGraph_xfers (s : State) (g : Fin 16) (x : Graph) : (s.setGraph g x).xfers = s.xfers := rfl
@[simp] theorem State.setGraph_nextId (s : State) (g : Fin 16) (x : Graph) : (s.setGraph g x).nextId = s.nextId := rfl
@[simp] theorem State.setGraph_lists (s : State) (g : Fin 16) (x : Graph) : (s.setGraph g x).lists = s.lists := rfl
@[simp] theorem State.setGraph_spilled (s : State) (g : Fin 16) (x : Graph) : (s.setGraph g x).spilled = s.spilled := rfl
@[simp] theorem State.setGraph_pushed (s : State) (g : Fin 16) (x : Graph) : (s.setGraph g x).pushed = s.pushed := rfl
@[simp] theorem State.setGraph_pre (s : State) (g : Fin 16) (x : Graph) : (s.setGraph g x).pre = s.pre := rfl
@[simp] theorem State.setGraph_parts (s : State) (g : Fin 16) (x : Graph) : (s.setGraph g x).parts = s.parts := rfl
@[simp] theorem State.setGraph_mktWaits (s : State) (g : Fin 16) (x : Graph) : (s.setGraph g x).mktWaits = s.mktWaits := rfl
@[simp] theorem State.setGraph_prices (s : State) (g : Fin 16) (x : Graph) : (s.setGraph g x).prices = s.prices := rfl
@[simp] theorem State.setGraph_caps (s : State) (g : Fin 16) (x : Graph) : (s.setGraph g x).caps = s.caps := rfl
@[simp] theorem State.setGraph_posts (s : State) (g : Fin 16) (x : Graph) : (s.setGraph g x).posts = s.posts := rfl
@[simp] theorem State.setGraph_postsLost (s : State) (g : Fin 16) (x : Graph) : (s.setGraph g x).postsLost = s.postsLost := rfl
@[simp] theorem State.setGraph_fab (s : State) (g : Fin 16) (x : Graph) : (s.setGraph g x).fab = s.fab := rfl
@[simp] theorem State.setGraph_dev (s : State) (g : Fin 16) (x : Graph) : (s.setGraph g x).dev = s.dev := rfl
@[simp] theorem State.setGraph_sched (s : State) (g : Fin 16) (x : Graph) : (s.setGraph g x).sched = s.sched := rfl
@[simp] theorem State.setGraph_host (s : State) (g : Fin 16) (x : Graph) : (s.setGraph g x).host = s.host := rfl
@[simp] theorem State.setGraph_mgmt (s : State) (g : Fin 16) (x : Graph) : (s.setGraph g x).mgmt = s.mgmt := rfl
@[simp] theorem State.setGraph_now (s : State) (g : Fin 16) (x : Graph) : (s.setGraph g x).now = s.now := rfl
@[simp] theorem State.setGraph_cur (s : State) (g : Fin 16) (x : Graph) : (s.setGraph g x).cur = s.cur := rfl
@[simp] theorem State.setGraph_curH (s : State) (g : Fin 16) (x : Graph) : (s.setGraph g x).curH = s.curH := rfl
@[simp] theorem State.setGraph_agenda (s : State) (g : Fin 16) (x : Graph) : (s.setGraph g x).agenda = s.agenda := rfl
@[simp] theorem State.setGraph_turn (s : State) (g : Fin 16) (x : Graph) : (s.setGraph g x).turn = s.turn := rfl
@[simp] theorem State.setGraph_bundle (s : State) (g : Fin 16) (x : Graph) : (s.setGraph g x).bundle = s.bundle := rfl
@[simp] theorem State.setGraph_word (s : State) (g : Fin 16) (x : Graph) : (s.setGraph g x).word = s.word := rfl
@[simp] theorem State.setGraph_slotSrc (s : State) (g : Fin 16) (x : Graph) : (s.setGraph g x).slotSrc = s.slotSrc := rfl
@[simp] theorem State.setGraph_free (s : State) (g : Fin 16) (x : Graph) : (s.setGraph g x).free = s.free := rfl
@[simp] theorem State.setGraph_seqHold (s : State) (g : Fin 16) (x : Graph) : (s.setGraph g x).seqHold = s.seqHold := rfl

/-! ## dropGraph -/

@[simp] theorem State.dropGraph_cores (s : State) (g : Fin 16) : (s.dropGraph g).cores = s.cores := rfl
@[simp] theorem State.dropGraph_saves (s : State) (g : Fin 16) : (s.dropGraph g).saves = s.saves := rfl
@[simp] theorem State.dropGraph_mem (s : State) (g : Fin 16) : (s.dropGraph g).mem = s.mem := rfl
@[simp] theorem State.dropGraph_empties (s : State) (g : Fin 16) : (s.dropGraph g).empties = s.empties := rfl
@[simp] theorem State.dropGraph_bad (s : State) (g : Fin 16) : (s.dropGraph g).bad = s.bad := rfl
@[simp] theorem State.dropGraph_weak (s : State) (g : Fin 16) : (s.dropGraph g).weak = s.weak := rfl
@[simp] theorem State.dropGraph_istore (s : State) (g : Fin 16) : (s.dropGraph g).istore = s.istore := rfl
@[simp] theorem State.dropGraph_text (s : State) (g : Fin 16) : (s.dropGraph g).text = s.text := rfl
@[simp] theorem State.dropGraph_tlb (s : State) (g : Fin 16) : (s.dropGraph g).tlb = s.tlb := rfl
@[simp] theorem State.dropGraph_net (s : State) (g : Fin 16) : (s.dropGraph g).net = s.net := rfl
@[simp] theorem State.dropGraph_engWaits (s : State) (g : Fin 16) : (s.dropGraph g).engWaits = s.engWaits := rfl
@[simp] theorem State.dropGraph_xfers (s : State) (g : Fin 16) : (s.dropGraph g).xfers = s.xfers := rfl
@[simp] theorem State.dropGraph_nextId (s : State) (g : Fin 16) : (s.dropGraph g).nextId = s.nextId := rfl
@[simp] theorem State.dropGraph_lists (s : State) (g : Fin 16) : (s.dropGraph g).lists = s.lists := rfl
@[simp] theorem State.dropGraph_spilled (s : State) (g : Fin 16) : (s.dropGraph g).spilled = s.spilled := rfl
@[simp] theorem State.dropGraph_pushed (s : State) (g : Fin 16) : (s.dropGraph g).pushed = s.pushed := rfl
@[simp] theorem State.dropGraph_pre (s : State) (g : Fin 16) : (s.dropGraph g).pre = s.pre := rfl
@[simp] theorem State.dropGraph_parts (s : State) (g : Fin 16) : (s.dropGraph g).parts = s.parts := rfl
@[simp] theorem State.dropGraph_mktWaits (s : State) (g : Fin 16) : (s.dropGraph g).mktWaits = s.mktWaits := rfl
@[simp] theorem State.dropGraph_prices (s : State) (g : Fin 16) : (s.dropGraph g).prices = s.prices := rfl
@[simp] theorem State.dropGraph_caps (s : State) (g : Fin 16) : (s.dropGraph g).caps = s.caps := rfl
@[simp] theorem State.dropGraph_posts (s : State) (g : Fin 16) : (s.dropGraph g).posts = s.posts := rfl
@[simp] theorem State.dropGraph_postsLost (s : State) (g : Fin 16) : (s.dropGraph g).postsLost = s.postsLost := rfl
@[simp] theorem State.dropGraph_fab (s : State) (g : Fin 16) : (s.dropGraph g).fab = s.fab := rfl
@[simp] theorem State.dropGraph_dev (s : State) (g : Fin 16) : (s.dropGraph g).dev = s.dev := rfl
@[simp] theorem State.dropGraph_sched (s : State) (g : Fin 16) : (s.dropGraph g).sched = s.sched := rfl
@[simp] theorem State.dropGraph_host (s : State) (g : Fin 16) : (s.dropGraph g).host = s.host := rfl
@[simp] theorem State.dropGraph_mgmt (s : State) (g : Fin 16) : (s.dropGraph g).mgmt = s.mgmt := rfl
@[simp] theorem State.dropGraph_now (s : State) (g : Fin 16) : (s.dropGraph g).now = s.now := rfl
@[simp] theorem State.dropGraph_cur (s : State) (g : Fin 16) : (s.dropGraph g).cur = s.cur := rfl
@[simp] theorem State.dropGraph_curH (s : State) (g : Fin 16) : (s.dropGraph g).curH = s.curH := rfl
@[simp] theorem State.dropGraph_agenda (s : State) (g : Fin 16) : (s.dropGraph g).agenda = s.agenda := rfl
@[simp] theorem State.dropGraph_turn (s : State) (g : Fin 16) : (s.dropGraph g).turn = s.turn := rfl
@[simp] theorem State.dropGraph_bundle (s : State) (g : Fin 16) : (s.dropGraph g).bundle = s.bundle := rfl
@[simp] theorem State.dropGraph_word (s : State) (g : Fin 16) : (s.dropGraph g).word = s.word := rfl
@[simp] theorem State.dropGraph_slotSrc (s : State) (g : Fin 16) : (s.dropGraph g).slotSrc = s.slotSrc := rfl
@[simp] theorem State.dropGraph_free (s : State) (g : Fin 16) : (s.dropGraph g).free = s.free := rfl
@[simp] theorem State.dropGraph_seqHold (s : State) (g : Fin 16) : (s.dropGraph g).seqHold = s.seqHold := rfl

/-! ## setSlot -/

@[simp] theorem State.setSlot_cores (s : State) (i : Nat) (x : RedSlot) : (s.setSlot i x).cores = s.cores := rfl
@[simp] theorem State.setSlot_saves (s : State) (i : Nat) (x : RedSlot) : (s.setSlot i x).saves = s.saves := rfl
@[simp] theorem State.setSlot_mem (s : State) (i : Nat) (x : RedSlot) : (s.setSlot i x).mem = s.mem := rfl
@[simp] theorem State.setSlot_empties (s : State) (i : Nat) (x : RedSlot) : (s.setSlot i x).empties = s.empties := rfl
@[simp] theorem State.setSlot_bad (s : State) (i : Nat) (x : RedSlot) : (s.setSlot i x).bad = s.bad := rfl
@[simp] theorem State.setSlot_weak (s : State) (i : Nat) (x : RedSlot) : (s.setSlot i x).weak = s.weak := rfl
@[simp] theorem State.setSlot_istore (s : State) (i : Nat) (x : RedSlot) : (s.setSlot i x).istore = s.istore := rfl
@[simp] theorem State.setSlot_text (s : State) (i : Nat) (x : RedSlot) : (s.setSlot i x).text = s.text := rfl
@[simp] theorem State.setSlot_tlb (s : State) (i : Nat) (x : RedSlot) : (s.setSlot i x).tlb = s.tlb := rfl
@[simp] theorem State.setSlot_net (s : State) (i : Nat) (x : RedSlot) : (s.setSlot i x).net = s.net := rfl
@[simp] theorem State.setSlot_engWaits (s : State) (i : Nat) (x : RedSlot) : (s.setSlot i x).engWaits = s.engWaits := rfl
@[simp] theorem State.setSlot_xfers (s : State) (i : Nat) (x : RedSlot) : (s.setSlot i x).xfers = s.xfers := rfl
@[simp] theorem State.setSlot_nextId (s : State) (i : Nat) (x : RedSlot) : (s.setSlot i x).nextId = s.nextId := rfl
@[simp] theorem State.setSlot_lists (s : State) (i : Nat) (x : RedSlot) : (s.setSlot i x).lists = s.lists := rfl
@[simp] theorem State.setSlot_spilled (s : State) (i : Nat) (x : RedSlot) : (s.setSlot i x).spilled = s.spilled := rfl
@[simp] theorem State.setSlot_pushed (s : State) (i : Nat) (x : RedSlot) : (s.setSlot i x).pushed = s.pushed := rfl
@[simp] theorem State.setSlot_pre (s : State) (i : Nat) (x : RedSlot) : (s.setSlot i x).pre = s.pre := rfl
@[simp] theorem State.setSlot_parts (s : State) (i : Nat) (x : RedSlot) : (s.setSlot i x).parts = s.parts := rfl
@[simp] theorem State.setSlot_mktWaits (s : State) (i : Nat) (x : RedSlot) : (s.setSlot i x).mktWaits = s.mktWaits := rfl
@[simp] theorem State.setSlot_prices (s : State) (i : Nat) (x : RedSlot) : (s.setSlot i x).prices = s.prices := rfl
@[simp] theorem State.setSlot_caps (s : State) (i : Nat) (x : RedSlot) : (s.setSlot i x).caps = s.caps := rfl
@[simp] theorem State.setSlot_posts (s : State) (i : Nat) (x : RedSlot) : (s.setSlot i x).posts = s.posts := rfl
@[simp] theorem State.setSlot_postsLost (s : State) (i : Nat) (x : RedSlot) : (s.setSlot i x).postsLost = s.postsLost := rfl
@[simp] theorem State.setSlot_fab (s : State) (i : Nat) (x : RedSlot) : (s.setSlot i x).fab = s.fab := rfl
@[simp] theorem State.setSlot_dev (s : State) (i : Nat) (x : RedSlot) : (s.setSlot i x).dev = s.dev := rfl
@[simp] theorem State.setSlot_sched (s : State) (i : Nat) (x : RedSlot) : (s.setSlot i x).sched = s.sched := rfl
@[simp] theorem State.setSlot_host (s : State) (i : Nat) (x : RedSlot) : (s.setSlot i x).host = s.host := rfl
@[simp] theorem State.setSlot_mgmt (s : State) (i : Nat) (x : RedSlot) : (s.setSlot i x).mgmt = s.mgmt := rfl
@[simp] theorem State.setSlot_now (s : State) (i : Nat) (x : RedSlot) : (s.setSlot i x).now = s.now := rfl
@[simp] theorem State.setSlot_cur (s : State) (i : Nat) (x : RedSlot) : (s.setSlot i x).cur = s.cur := rfl
@[simp] theorem State.setSlot_curH (s : State) (i : Nat) (x : RedSlot) : (s.setSlot i x).curH = s.curH := rfl
@[simp] theorem State.setSlot_agenda (s : State) (i : Nat) (x : RedSlot) : (s.setSlot i x).agenda = s.agenda := rfl
@[simp] theorem State.setSlot_turn (s : State) (i : Nat) (x : RedSlot) : (s.setSlot i x).turn = s.turn := rfl
@[simp] theorem State.setSlot_bundle (s : State) (i : Nat) (x : RedSlot) : (s.setSlot i x).bundle = s.bundle := rfl
@[simp] theorem State.setSlot_word (s : State) (i : Nat) (x : RedSlot) : (s.setSlot i x).word = s.word := rfl
@[simp] theorem State.setSlot_slotSrc (s : State) (i : Nat) (x : RedSlot) : (s.setSlot i x).slotSrc = s.slotSrc := rfl
@[simp] theorem State.setSlot_free (s : State) (i : Nat) (x : RedSlot) : (s.setSlot i x).free = s.free := rfl
@[simp] theorem State.setSlot_seqHold (s : State) (i : Nat) (x : RedSlot) : (s.setSlot i x).seqHold = s.seqHold := rfl

/-! ## freeSlot -/

@[simp] theorem State.freeSlot_cores (s : State) (i : Nat) : (s.freeSlot i).cores = s.cores := rfl
@[simp] theorem State.freeSlot_saves (s : State) (i : Nat) : (s.freeSlot i).saves = s.saves := rfl
@[simp] theorem State.freeSlot_mem (s : State) (i : Nat) : (s.freeSlot i).mem = s.mem := rfl
@[simp] theorem State.freeSlot_empties (s : State) (i : Nat) : (s.freeSlot i).empties = s.empties := rfl
@[simp] theorem State.freeSlot_bad (s : State) (i : Nat) : (s.freeSlot i).bad = s.bad := rfl
@[simp] theorem State.freeSlot_weak (s : State) (i : Nat) : (s.freeSlot i).weak = s.weak := rfl
@[simp] theorem State.freeSlot_istore (s : State) (i : Nat) : (s.freeSlot i).istore = s.istore := rfl
@[simp] theorem State.freeSlot_text (s : State) (i : Nat) : (s.freeSlot i).text = s.text := rfl
@[simp] theorem State.freeSlot_tlb (s : State) (i : Nat) : (s.freeSlot i).tlb = s.tlb := rfl
@[simp] theorem State.freeSlot_net (s : State) (i : Nat) : (s.freeSlot i).net = s.net := rfl
@[simp] theorem State.freeSlot_engWaits (s : State) (i : Nat) : (s.freeSlot i).engWaits = s.engWaits := rfl
@[simp] theorem State.freeSlot_xfers (s : State) (i : Nat) : (s.freeSlot i).xfers = s.xfers := rfl
@[simp] theorem State.freeSlot_nextId (s : State) (i : Nat) : (s.freeSlot i).nextId = s.nextId := rfl
@[simp] theorem State.freeSlot_lists (s : State) (i : Nat) : (s.freeSlot i).lists = s.lists := rfl
@[simp] theorem State.freeSlot_spilled (s : State) (i : Nat) : (s.freeSlot i).spilled = s.spilled := rfl
@[simp] theorem State.freeSlot_pushed (s : State) (i : Nat) : (s.freeSlot i).pushed = s.pushed := rfl
@[simp] theorem State.freeSlot_pre (s : State) (i : Nat) : (s.freeSlot i).pre = s.pre := rfl
@[simp] theorem State.freeSlot_parts (s : State) (i : Nat) : (s.freeSlot i).parts = s.parts := rfl
@[simp] theorem State.freeSlot_mktWaits (s : State) (i : Nat) : (s.freeSlot i).mktWaits = s.mktWaits := rfl
@[simp] theorem State.freeSlot_prices (s : State) (i : Nat) : (s.freeSlot i).prices = s.prices := rfl
@[simp] theorem State.freeSlot_caps (s : State) (i : Nat) : (s.freeSlot i).caps = s.caps := rfl
@[simp] theorem State.freeSlot_posts (s : State) (i : Nat) : (s.freeSlot i).posts = s.posts := rfl
@[simp] theorem State.freeSlot_postsLost (s : State) (i : Nat) : (s.freeSlot i).postsLost = s.postsLost := rfl
@[simp] theorem State.freeSlot_fab (s : State) (i : Nat) : (s.freeSlot i).fab = s.fab := rfl
@[simp] theorem State.freeSlot_dev (s : State) (i : Nat) : (s.freeSlot i).dev = s.dev := rfl
@[simp] theorem State.freeSlot_sched (s : State) (i : Nat) : (s.freeSlot i).sched = s.sched := rfl
@[simp] theorem State.freeSlot_host (s : State) (i : Nat) : (s.freeSlot i).host = s.host := rfl
@[simp] theorem State.freeSlot_mgmt (s : State) (i : Nat) : (s.freeSlot i).mgmt = s.mgmt := rfl
@[simp] theorem State.freeSlot_now (s : State) (i : Nat) : (s.freeSlot i).now = s.now := rfl
@[simp] theorem State.freeSlot_cur (s : State) (i : Nat) : (s.freeSlot i).cur = s.cur := rfl
@[simp] theorem State.freeSlot_curH (s : State) (i : Nat) : (s.freeSlot i).curH = s.curH := rfl
@[simp] theorem State.freeSlot_agenda (s : State) (i : Nat) : (s.freeSlot i).agenda = s.agenda := rfl
@[simp] theorem State.freeSlot_turn (s : State) (i : Nat) : (s.freeSlot i).turn = s.turn := rfl
@[simp] theorem State.freeSlot_bundle (s : State) (i : Nat) : (s.freeSlot i).bundle = s.bundle := rfl
@[simp] theorem State.freeSlot_word (s : State) (i : Nat) : (s.freeSlot i).word = s.word := rfl
@[simp] theorem State.freeSlot_slotSrc (s : State) (i : Nat) : (s.freeSlot i).slotSrc = s.slotSrc := rfl
@[simp] theorem State.freeSlot_free (s : State) (i : Nat) : (s.freeSlot i).free = s.free := rfl
@[simp] theorem State.freeSlot_seqHold (s : State) (i : Nat) : (s.freeSlot i).seqHold = s.seqHold := rfl

/-! ## setPart -/

@[simp] theorem State.setPart_cores (s : State) (p : Nat) (q : Partition) : (s.setPart p q).cores = s.cores := rfl
@[simp] theorem State.setPart_saves (s : State) (p : Nat) (q : Partition) : (s.setPart p q).saves = s.saves := rfl
@[simp] theorem State.setPart_mem (s : State) (p : Nat) (q : Partition) : (s.setPart p q).mem = s.mem := rfl
@[simp] theorem State.setPart_empties (s : State) (p : Nat) (q : Partition) : (s.setPart p q).empties = s.empties := rfl
@[simp] theorem State.setPart_bad (s : State) (p : Nat) (q : Partition) : (s.setPart p q).bad = s.bad := rfl
@[simp] theorem State.setPart_weak (s : State) (p : Nat) (q : Partition) : (s.setPart p q).weak = s.weak := rfl
@[simp] theorem State.setPart_istore (s : State) (p : Nat) (q : Partition) : (s.setPart p q).istore = s.istore := rfl
@[simp] theorem State.setPart_text (s : State) (p : Nat) (q : Partition) : (s.setPart p q).text = s.text := rfl
@[simp] theorem State.setPart_tlb (s : State) (p : Nat) (q : Partition) : (s.setPart p q).tlb = s.tlb := rfl
@[simp] theorem State.setPart_net (s : State) (p : Nat) (q : Partition) : (s.setPart p q).net = s.net := rfl
@[simp] theorem State.setPart_engWaits (s : State) (p : Nat) (q : Partition) : (s.setPart p q).engWaits = s.engWaits := rfl
@[simp] theorem State.setPart_xfers (s : State) (p : Nat) (q : Partition) : (s.setPart p q).xfers = s.xfers := rfl
@[simp] theorem State.setPart_nextId (s : State) (p : Nat) (q : Partition) : (s.setPart p q).nextId = s.nextId := rfl
@[simp] theorem State.setPart_lists (s : State) (p : Nat) (q : Partition) : (s.setPart p q).lists = s.lists := rfl
@[simp] theorem State.setPart_spilled (s : State) (p : Nat) (q : Partition) : (s.setPart p q).spilled = s.spilled := rfl
@[simp] theorem State.setPart_pushed (s : State) (p : Nat) (q : Partition) : (s.setPart p q).pushed = s.pushed := rfl
@[simp] theorem State.setPart_pre (s : State) (p : Nat) (q : Partition) : (s.setPart p q).pre = s.pre := rfl
@[simp] theorem State.setPart_mktWaits (s : State) (p : Nat) (q : Partition) : (s.setPart p q).mktWaits = s.mktWaits := rfl
@[simp] theorem State.setPart_prices (s : State) (p : Nat) (q : Partition) : (s.setPart p q).prices = s.prices := rfl
@[simp] theorem State.setPart_caps (s : State) (p : Nat) (q : Partition) : (s.setPart p q).caps = s.caps := rfl
@[simp] theorem State.setPart_posts (s : State) (p : Nat) (q : Partition) : (s.setPart p q).posts = s.posts := rfl
@[simp] theorem State.setPart_postsLost (s : State) (p : Nat) (q : Partition) : (s.setPart p q).postsLost = s.postsLost := rfl
@[simp] theorem State.setPart_convoy (s : State) (p : Nat) (q : Partition) : (s.setPart p q).convoy = s.convoy := rfl
@[simp] theorem State.setPart_fab (s : State) (p : Nat) (q : Partition) : (s.setPart p q).fab = s.fab := rfl
@[simp] theorem State.setPart_dev (s : State) (p : Nat) (q : Partition) : (s.setPart p q).dev = s.dev := rfl
@[simp] theorem State.setPart_sched (s : State) (p : Nat) (q : Partition) : (s.setPart p q).sched = s.sched := rfl
@[simp] theorem State.setPart_host (s : State) (p : Nat) (q : Partition) : (s.setPart p q).host = s.host := rfl
@[simp] theorem State.setPart_mgmt (s : State) (p : Nat) (q : Partition) : (s.setPart p q).mgmt = s.mgmt := rfl
@[simp] theorem State.setPart_now (s : State) (p : Nat) (q : Partition) : (s.setPart p q).now = s.now := rfl
@[simp] theorem State.setPart_cur (s : State) (p : Nat) (q : Partition) : (s.setPart p q).cur = s.cur := rfl
@[simp] theorem State.setPart_curH (s : State) (p : Nat) (q : Partition) : (s.setPart p q).curH = s.curH := rfl
@[simp] theorem State.setPart_agenda (s : State) (p : Nat) (q : Partition) : (s.setPart p q).agenda = s.agenda := rfl
@[simp] theorem State.setPart_turn (s : State) (p : Nat) (q : Partition) : (s.setPart p q).turn = s.turn := rfl
@[simp] theorem State.setPart_bundle (s : State) (p : Nat) (q : Partition) : (s.setPart p q).bundle = s.bundle := rfl
@[simp] theorem State.setPart_word (s : State) (p : Nat) (q : Partition) : (s.setPart p q).word = s.word := rfl
@[simp] theorem State.setPart_slotSrc (s : State) (p : Nat) (q : Partition) : (s.setPart p q).slotSrc = s.slotSrc := rfl
@[simp] theorem State.setPart_free (s : State) (p : Nat) (q : Partition) : (s.setPart p q).free = s.free := rfl
@[simp] theorem State.setPart_seqHold (s : State) (p : Nat) (q : Partition) : (s.setPart p q).seqHold = s.seqHold := rfl

/-! ## postChunk -/

@[simp] theorem State.postChunk_cores (s : State) (k : CoreIx) (stamp : Nat) (w : Word) (v : Vec) : (s.postChunk k stamp w v).cores = s.cores := rfl
@[simp] theorem State.postChunk_saves (s : State) (k : CoreIx) (stamp : Nat) (w : Word) (v : Vec) : (s.postChunk k stamp w v).saves = s.saves := rfl
@[simp] theorem State.postChunk_mem (s : State) (k : CoreIx) (stamp : Nat) (w : Word) (v : Vec) : (s.postChunk k stamp w v).mem = s.mem := rfl
@[simp] theorem State.postChunk_empties (s : State) (k : CoreIx) (stamp : Nat) (w : Word) (v : Vec) : (s.postChunk k stamp w v).empties = s.empties := rfl
@[simp] theorem State.postChunk_bad (s : State) (k : CoreIx) (stamp : Nat) (w : Word) (v : Vec) : (s.postChunk k stamp w v).bad = s.bad := rfl
@[simp] theorem State.postChunk_weak (s : State) (k : CoreIx) (stamp : Nat) (w : Word) (v : Vec) : (s.postChunk k stamp w v).weak = s.weak := rfl
@[simp] theorem State.postChunk_istore (s : State) (k : CoreIx) (stamp : Nat) (w : Word) (v : Vec) : (s.postChunk k stamp w v).istore = s.istore := rfl
@[simp] theorem State.postChunk_text (s : State) (k : CoreIx) (stamp : Nat) (w : Word) (v : Vec) : (s.postChunk k stamp w v).text = s.text := rfl
@[simp] theorem State.postChunk_tlb (s : State) (k : CoreIx) (stamp : Nat) (w : Word) (v : Vec) : (s.postChunk k stamp w v).tlb = s.tlb := rfl
@[simp] theorem State.postChunk_net (s : State) (k : CoreIx) (stamp : Nat) (w : Word) (v : Vec) : (s.postChunk k stamp w v).net = s.net := rfl
@[simp] theorem State.postChunk_engWaits (s : State) (k : CoreIx) (stamp : Nat) (w : Word) (v : Vec) : (s.postChunk k stamp w v).engWaits = s.engWaits := rfl
@[simp] theorem State.postChunk_xfers (s : State) (k : CoreIx) (stamp : Nat) (w : Word) (v : Vec) : (s.postChunk k stamp w v).xfers = s.xfers := rfl
@[simp] theorem State.postChunk_lists (s : State) (k : CoreIx) (stamp : Nat) (w : Word) (v : Vec) : (s.postChunk k stamp w v).lists = s.lists := rfl
@[simp] theorem State.postChunk_spilled (s : State) (k : CoreIx) (stamp : Nat) (w : Word) (v : Vec) : (s.postChunk k stamp w v).spilled = s.spilled := rfl
@[simp] theorem State.postChunk_pushed (s : State) (k : CoreIx) (stamp : Nat) (w : Word) (v : Vec) : (s.postChunk k stamp w v).pushed = s.pushed := rfl
@[simp] theorem State.postChunk_pre (s : State) (k : CoreIx) (stamp : Nat) (w : Word) (v : Vec) : (s.postChunk k stamp w v).pre = s.pre := rfl
@[simp] theorem State.postChunk_parts (s : State) (k : CoreIx) (stamp : Nat) (w : Word) (v : Vec) : (s.postChunk k stamp w v).parts = s.parts := rfl
@[simp] theorem State.postChunk_mktWaits (s : State) (k : CoreIx) (stamp : Nat) (w : Word) (v : Vec) : (s.postChunk k stamp w v).mktWaits = s.mktWaits := rfl
@[simp] theorem State.postChunk_prices (s : State) (k : CoreIx) (stamp : Nat) (w : Word) (v : Vec) : (s.postChunk k stamp w v).prices = s.prices := rfl
@[simp] theorem State.postChunk_caps (s : State) (k : CoreIx) (stamp : Nat) (w : Word) (v : Vec) : (s.postChunk k stamp w v).caps = s.caps := rfl
@[simp] theorem State.postChunk_postsLost (s : State) (k : CoreIx) (stamp : Nat) (w : Word) (v : Vec) : (s.postChunk k stamp w v).postsLost = s.postsLost := rfl
@[simp] theorem State.postChunk_convoy (s : State) (k : CoreIx) (stamp : Nat) (w : Word) (v : Vec) : (s.postChunk k stamp w v).convoy = s.convoy := rfl
@[simp] theorem State.postChunk_fab (s : State) (k : CoreIx) (stamp : Nat) (w : Word) (v : Vec) : (s.postChunk k stamp w v).fab = s.fab := rfl
@[simp] theorem State.postChunk_dev (s : State) (k : CoreIx) (stamp : Nat) (w : Word) (v : Vec) : (s.postChunk k stamp w v).dev = s.dev := rfl
@[simp] theorem State.postChunk_sched (s : State) (k : CoreIx) (stamp : Nat) (w : Word) (v : Vec) : (s.postChunk k stamp w v).sched = s.sched := rfl
@[simp] theorem State.postChunk_host (s : State) (k : CoreIx) (stamp : Nat) (w : Word) (v : Vec) : (s.postChunk k stamp w v).host = s.host := rfl
@[simp] theorem State.postChunk_mgmt (s : State) (k : CoreIx) (stamp : Nat) (w : Word) (v : Vec) : (s.postChunk k stamp w v).mgmt = s.mgmt := rfl
@[simp] theorem State.postChunk_now (s : State) (k : CoreIx) (stamp : Nat) (w : Word) (v : Vec) : (s.postChunk k stamp w v).now = s.now := rfl
@[simp] theorem State.postChunk_cur (s : State) (k : CoreIx) (stamp : Nat) (w : Word) (v : Vec) : (s.postChunk k stamp w v).cur = s.cur := rfl
@[simp] theorem State.postChunk_curH (s : State) (k : CoreIx) (stamp : Nat) (w : Word) (v : Vec) : (s.postChunk k stamp w v).curH = s.curH := rfl
@[simp] theorem State.postChunk_agenda (s : State) (k : CoreIx) (stamp : Nat) (w : Word) (v : Vec) : (s.postChunk k stamp w v).agenda = s.agenda := rfl
@[simp] theorem State.postChunk_turn (s : State) (k : CoreIx) (stamp : Nat) (w : Word) (v : Vec) : (s.postChunk k stamp w v).turn = s.turn := rfl
@[simp] theorem State.postChunk_bundle (s : State) (k : CoreIx) (stamp : Nat) (w : Word) (v : Vec) : (s.postChunk k stamp w v).bundle = s.bundle := rfl
@[simp] theorem State.postChunk_word (s : State) (k : CoreIx) (stamp : Nat) (w : Word) (v : Vec) : (s.postChunk k stamp w v).word = s.word := rfl
@[simp] theorem State.postChunk_slotSrc (s : State) (k : CoreIx) (stamp : Nat) (w : Word) (v : Vec) : (s.postChunk k stamp w v).slotSrc = s.slotSrc := rfl
@[simp] theorem State.postChunk_free (s : State) (k : CoreIx) (stamp : Nat) (w : Word) (v : Vec) : (s.postChunk k stamp w v).free = s.free := rfl
@[simp] theorem State.postChunk_seqHold (s : State) (k : CoreIx) (stamp : Nat) (w : Word) (v : Vec) : (s.postChunk k stamp w v).seqHold = s.seqHold := rfl

/-! ## queuePlay -/

@[simp] theorem State.queuePlay_cores (s : State) (k : CoreIx) (g : Nat) (v : Vec) (stamp : Nat) : (s.queuePlay k g v stamp).cores = s.cores := rfl
@[simp] theorem State.queuePlay_saves (s : State) (k : CoreIx) (g : Nat) (v : Vec) (stamp : Nat) : (s.queuePlay k g v stamp).saves = s.saves := rfl
@[simp] theorem State.queuePlay_mem (s : State) (k : CoreIx) (g : Nat) (v : Vec) (stamp : Nat) : (s.queuePlay k g v stamp).mem = s.mem := rfl
@[simp] theorem State.queuePlay_empties (s : State) (k : CoreIx) (g : Nat) (v : Vec) (stamp : Nat) : (s.queuePlay k g v stamp).empties = s.empties := rfl
@[simp] theorem State.queuePlay_bad (s : State) (k : CoreIx) (g : Nat) (v : Vec) (stamp : Nat) : (s.queuePlay k g v stamp).bad = s.bad := rfl
@[simp] theorem State.queuePlay_weak (s : State) (k : CoreIx) (g : Nat) (v : Vec) (stamp : Nat) : (s.queuePlay k g v stamp).weak = s.weak := rfl
@[simp] theorem State.queuePlay_istore (s : State) (k : CoreIx) (g : Nat) (v : Vec) (stamp : Nat) : (s.queuePlay k g v stamp).istore = s.istore := rfl
@[simp] theorem State.queuePlay_text (s : State) (k : CoreIx) (g : Nat) (v : Vec) (stamp : Nat) : (s.queuePlay k g v stamp).text = s.text := rfl
@[simp] theorem State.queuePlay_tlb (s : State) (k : CoreIx) (g : Nat) (v : Vec) (stamp : Nat) : (s.queuePlay k g v stamp).tlb = s.tlb := rfl
@[simp] theorem State.queuePlay_net (s : State) (k : CoreIx) (g : Nat) (v : Vec) (stamp : Nat) : (s.queuePlay k g v stamp).net = s.net := rfl
@[simp] theorem State.queuePlay_engWaits (s : State) (k : CoreIx) (g : Nat) (v : Vec) (stamp : Nat) : (s.queuePlay k g v stamp).engWaits = s.engWaits := rfl
@[simp] theorem State.queuePlay_xfers (s : State) (k : CoreIx) (g : Nat) (v : Vec) (stamp : Nat) : (s.queuePlay k g v stamp).xfers = s.xfers := rfl
@[simp] theorem State.queuePlay_nextId (s : State) (k : CoreIx) (g : Nat) (v : Vec) (stamp : Nat) : (s.queuePlay k g v stamp).nextId = s.nextId := rfl
@[simp] theorem State.queuePlay_lists (s : State) (k : CoreIx) (g : Nat) (v : Vec) (stamp : Nat) : (s.queuePlay k g v stamp).lists = s.lists := rfl
@[simp] theorem State.queuePlay_spilled (s : State) (k : CoreIx) (g : Nat) (v : Vec) (stamp : Nat) : (s.queuePlay k g v stamp).spilled = s.spilled := rfl
@[simp] theorem State.queuePlay_pushed (s : State) (k : CoreIx) (g : Nat) (v : Vec) (stamp : Nat) : (s.queuePlay k g v stamp).pushed = s.pushed := rfl
@[simp] theorem State.queuePlay_pre (s : State) (k : CoreIx) (g : Nat) (v : Vec) (stamp : Nat) : (s.queuePlay k g v stamp).pre = s.pre := rfl
@[simp] theorem State.queuePlay_parts (s : State) (k : CoreIx) (g : Nat) (v : Vec) (stamp : Nat) : (s.queuePlay k g v stamp).parts = s.parts := rfl
@[simp] theorem State.queuePlay_mktWaits (s : State) (k : CoreIx) (g : Nat) (v : Vec) (stamp : Nat) : (s.queuePlay k g v stamp).mktWaits = s.mktWaits := rfl
@[simp] theorem State.queuePlay_prices (s : State) (k : CoreIx) (g : Nat) (v : Vec) (stamp : Nat) : (s.queuePlay k g v stamp).prices = s.prices := rfl
@[simp] theorem State.queuePlay_caps (s : State) (k : CoreIx) (g : Nat) (v : Vec) (stamp : Nat) : (s.queuePlay k g v stamp).caps = s.caps := rfl
@[simp] theorem State.queuePlay_posts (s : State) (k : CoreIx) (g : Nat) (v : Vec) (stamp : Nat) : (s.queuePlay k g v stamp).posts = s.posts := rfl
@[simp] theorem State.queuePlay_postsLost (s : State) (k : CoreIx) (g : Nat) (v : Vec) (stamp : Nat) : (s.queuePlay k g v stamp).postsLost = s.postsLost := rfl
@[simp] theorem State.queuePlay_fab (s : State) (k : CoreIx) (g : Nat) (v : Vec) (stamp : Nat) : (s.queuePlay k g v stamp).fab = s.fab := rfl
@[simp] theorem State.queuePlay_dev (s : State) (k : CoreIx) (g : Nat) (v : Vec) (stamp : Nat) : (s.queuePlay k g v stamp).dev = s.dev := rfl
@[simp] theorem State.queuePlay_sched (s : State) (k : CoreIx) (g : Nat) (v : Vec) (stamp : Nat) : (s.queuePlay k g v stamp).sched = s.sched := rfl
@[simp] theorem State.queuePlay_host (s : State) (k : CoreIx) (g : Nat) (v : Vec) (stamp : Nat) : (s.queuePlay k g v stamp).host = s.host := rfl
@[simp] theorem State.queuePlay_mgmt (s : State) (k : CoreIx) (g : Nat) (v : Vec) (stamp : Nat) : (s.queuePlay k g v stamp).mgmt = s.mgmt := rfl
@[simp] theorem State.queuePlay_now (s : State) (k : CoreIx) (g : Nat) (v : Vec) (stamp : Nat) : (s.queuePlay k g v stamp).now = s.now := rfl
@[simp] theorem State.queuePlay_cur (s : State) (k : CoreIx) (g : Nat) (v : Vec) (stamp : Nat) : (s.queuePlay k g v stamp).cur = s.cur := rfl
@[simp] theorem State.queuePlay_curH (s : State) (k : CoreIx) (g : Nat) (v : Vec) (stamp : Nat) : (s.queuePlay k g v stamp).curH = s.curH := rfl
@[simp] theorem State.queuePlay_agenda (s : State) (k : CoreIx) (g : Nat) (v : Vec) (stamp : Nat) : (s.queuePlay k g v stamp).agenda = s.agenda := rfl
@[simp] theorem State.queuePlay_turn (s : State) (k : CoreIx) (g : Nat) (v : Vec) (stamp : Nat) : (s.queuePlay k g v stamp).turn = s.turn := rfl
@[simp] theorem State.queuePlay_bundle (s : State) (k : CoreIx) (g : Nat) (v : Vec) (stamp : Nat) : (s.queuePlay k g v stamp).bundle = s.bundle := rfl
@[simp] theorem State.queuePlay_word (s : State) (k : CoreIx) (g : Nat) (v : Vec) (stamp : Nat) : (s.queuePlay k g v stamp).word = s.word := rfl
@[simp] theorem State.queuePlay_slotSrc (s : State) (k : CoreIx) (g : Nat) (v : Vec) (stamp : Nat) : (s.queuePlay k g v stamp).slotSrc = s.slotSrc := rfl
@[simp] theorem State.queuePlay_free (s : State) (k : CoreIx) (g : Nat) (v : Vec) (stamp : Nat) : (s.queuePlay k g v stamp).free = s.free := rfl
@[simp] theorem State.queuePlay_seqHold (s : State) (k : CoreIx) (g : Nat) (v : Vec) (stamp : Nat) : (s.queuePlay k g v stamp).seqHold = s.seqHold := rfl

/-! ## wlPush -/

@[simp] theorem State.wlPush_saves (s : State) (k : CoreIx) (hpc : Option Pc) (dst : CoreIx) (item : BitVec 128) : (s.wlPush k hpc dst item).saves = s.saves := rfl
@[simp] theorem State.wlPush_mem (s : State) (k : CoreIx) (hpc : Option Pc) (dst : CoreIx) (item : BitVec 128) : (s.wlPush k hpc dst item).mem = s.mem := rfl
@[simp] theorem State.wlPush_empties (s : State) (k : CoreIx) (hpc : Option Pc) (dst : CoreIx) (item : BitVec 128) : (s.wlPush k hpc dst item).empties = s.empties := rfl
@[simp] theorem State.wlPush_bad (s : State) (k : CoreIx) (hpc : Option Pc) (dst : CoreIx) (item : BitVec 128) : (s.wlPush k hpc dst item).bad = s.bad := rfl
@[simp] theorem State.wlPush_weak (s : State) (k : CoreIx) (hpc : Option Pc) (dst : CoreIx) (item : BitVec 128) : (s.wlPush k hpc dst item).weak = s.weak := rfl
@[simp] theorem State.wlPush_istore (s : State) (k : CoreIx) (hpc : Option Pc) (dst : CoreIx) (item : BitVec 128) : (s.wlPush k hpc dst item).istore = s.istore := rfl
@[simp] theorem State.wlPush_text (s : State) (k : CoreIx) (hpc : Option Pc) (dst : CoreIx) (item : BitVec 128) : (s.wlPush k hpc dst item).text = s.text := rfl
@[simp] theorem State.wlPush_tlb (s : State) (k : CoreIx) (hpc : Option Pc) (dst : CoreIx) (item : BitVec 128) : (s.wlPush k hpc dst item).tlb = s.tlb := rfl
@[simp] theorem State.wlPush_net (s : State) (k : CoreIx) (hpc : Option Pc) (dst : CoreIx) (item : BitVec 128) : (s.wlPush k hpc dst item).net = s.net := rfl
@[simp] theorem State.wlPush_engWaits (s : State) (k : CoreIx) (hpc : Option Pc) (dst : CoreIx) (item : BitVec 128) : (s.wlPush k hpc dst item).engWaits = s.engWaits := rfl
@[simp] theorem State.wlPush_xfers (s : State) (k : CoreIx) (hpc : Option Pc) (dst : CoreIx) (item : BitVec 128) : (s.wlPush k hpc dst item).xfers = s.xfers := rfl
@[simp] theorem State.wlPush_lists (s : State) (k : CoreIx) (hpc : Option Pc) (dst : CoreIx) (item : BitVec 128) : (s.wlPush k hpc dst item).lists = s.lists := rfl
@[simp] theorem State.wlPush_spilled (s : State) (k : CoreIx) (hpc : Option Pc) (dst : CoreIx) (item : BitVec 128) : (s.wlPush k hpc dst item).spilled = s.spilled := rfl
@[simp] theorem State.wlPush_pre (s : State) (k : CoreIx) (hpc : Option Pc) (dst : CoreIx) (item : BitVec 128) : (s.wlPush k hpc dst item).pre = s.pre := rfl
@[simp] theorem State.wlPush_parts (s : State) (k : CoreIx) (hpc : Option Pc) (dst : CoreIx) (item : BitVec 128) : (s.wlPush k hpc dst item).parts = s.parts := rfl
@[simp] theorem State.wlPush_mktWaits (s : State) (k : CoreIx) (hpc : Option Pc) (dst : CoreIx) (item : BitVec 128) : (s.wlPush k hpc dst item).mktWaits = s.mktWaits := rfl
@[simp] theorem State.wlPush_prices (s : State) (k : CoreIx) (hpc : Option Pc) (dst : CoreIx) (item : BitVec 128) : (s.wlPush k hpc dst item).prices = s.prices := rfl
@[simp] theorem State.wlPush_caps (s : State) (k : CoreIx) (hpc : Option Pc) (dst : CoreIx) (item : BitVec 128) : (s.wlPush k hpc dst item).caps = s.caps := rfl
@[simp] theorem State.wlPush_posts (s : State) (k : CoreIx) (hpc : Option Pc) (dst : CoreIx) (item : BitVec 128) : (s.wlPush k hpc dst item).posts = s.posts := rfl
@[simp] theorem State.wlPush_postsLost (s : State) (k : CoreIx) (hpc : Option Pc) (dst : CoreIx) (item : BitVec 128) : (s.wlPush k hpc dst item).postsLost = s.postsLost := rfl
@[simp] theorem State.wlPush_convoy (s : State) (k : CoreIx) (hpc : Option Pc) (dst : CoreIx) (item : BitVec 128) : (s.wlPush k hpc dst item).convoy = s.convoy := rfl
@[simp] theorem State.wlPush_fab (s : State) (k : CoreIx) (hpc : Option Pc) (dst : CoreIx) (item : BitVec 128) : (s.wlPush k hpc dst item).fab = s.fab := rfl
@[simp] theorem State.wlPush_dev (s : State) (k : CoreIx) (hpc : Option Pc) (dst : CoreIx) (item : BitVec 128) : (s.wlPush k hpc dst item).dev = s.dev := rfl
@[simp] theorem State.wlPush_sched (s : State) (k : CoreIx) (hpc : Option Pc) (dst : CoreIx) (item : BitVec 128) : (s.wlPush k hpc dst item).sched = s.sched := rfl
@[simp] theorem State.wlPush_host (s : State) (k : CoreIx) (hpc : Option Pc) (dst : CoreIx) (item : BitVec 128) : (s.wlPush k hpc dst item).host = s.host := rfl
@[simp] theorem State.wlPush_mgmt (s : State) (k : CoreIx) (hpc : Option Pc) (dst : CoreIx) (item : BitVec 128) : (s.wlPush k hpc dst item).mgmt = s.mgmt := rfl
@[simp] theorem State.wlPush_now (s : State) (k : CoreIx) (hpc : Option Pc) (dst : CoreIx) (item : BitVec 128) : (s.wlPush k hpc dst item).now = s.now := rfl
@[simp] theorem State.wlPush_cur (s : State) (k : CoreIx) (hpc : Option Pc) (dst : CoreIx) (item : BitVec 128) : (s.wlPush k hpc dst item).cur = s.cur := rfl
@[simp] theorem State.wlPush_curH (s : State) (k : CoreIx) (hpc : Option Pc) (dst : CoreIx) (item : BitVec 128) : (s.wlPush k hpc dst item).curH = s.curH := rfl
@[simp] theorem State.wlPush_agenda (s : State) (k : CoreIx) (hpc : Option Pc) (dst : CoreIx) (item : BitVec 128) : (s.wlPush k hpc dst item).agenda = s.agenda := rfl
@[simp] theorem State.wlPush_turn (s : State) (k : CoreIx) (hpc : Option Pc) (dst : CoreIx) (item : BitVec 128) : (s.wlPush k hpc dst item).turn = s.turn := rfl
@[simp] theorem State.wlPush_bundle (s : State) (k : CoreIx) (hpc : Option Pc) (dst : CoreIx) (item : BitVec 128) : (s.wlPush k hpc dst item).bundle = s.bundle := rfl
@[simp] theorem State.wlPush_word (s : State) (k : CoreIx) (hpc : Option Pc) (dst : CoreIx) (item : BitVec 128) : (s.wlPush k hpc dst item).word = s.word := rfl
@[simp] theorem State.wlPush_slotSrc (s : State) (k : CoreIx) (hpc : Option Pc) (dst : CoreIx) (item : BitVec 128) : (s.wlPush k hpc dst item).slotSrc = s.slotSrc := rfl
@[simp] theorem State.wlPush_free (s : State) (k : CoreIx) (hpc : Option Pc) (dst : CoreIx) (item : BitVec 128) : (s.wlPush k hpc dst item).free = s.free := rfl
@[simp] theorem State.wlPush_seqHold (s : State) (k : CoreIx) (hpc : Option Pc) (dst : CoreIx) (item : BitVec 128) : (s.wlPush k hpc dst item).seqHold = s.seqHold := rfl

/-! ## setQi -/

@[simp] theorem State.setQi_cores (s : State) (q : Fin 64) (x : Qi) : (s.setQi q x).cores = s.cores := rfl
@[simp] theorem State.setQi_saves (s : State) (q : Fin 64) (x : Qi) : (s.setQi q x).saves = s.saves := rfl
@[simp] theorem State.setQi_mem (s : State) (q : Fin 64) (x : Qi) : (s.setQi q x).mem = s.mem := rfl
@[simp] theorem State.setQi_empties (s : State) (q : Fin 64) (x : Qi) : (s.setQi q x).empties = s.empties := rfl
@[simp] theorem State.setQi_bad (s : State) (q : Fin 64) (x : Qi) : (s.setQi q x).bad = s.bad := rfl
@[simp] theorem State.setQi_weak (s : State) (q : Fin 64) (x : Qi) : (s.setQi q x).weak = s.weak := rfl
@[simp] theorem State.setQi_istore (s : State) (q : Fin 64) (x : Qi) : (s.setQi q x).istore = s.istore := rfl
@[simp] theorem State.setQi_text (s : State) (q : Fin 64) (x : Qi) : (s.setQi q x).text = s.text := rfl
@[simp] theorem State.setQi_tlb (s : State) (q : Fin 64) (x : Qi) : (s.setQi q x).tlb = s.tlb := rfl
@[simp] theorem State.setQi_net (s : State) (q : Fin 64) (x : Qi) : (s.setQi q x).net = s.net := rfl
@[simp] theorem State.setQi_engWaits (s : State) (q : Fin 64) (x : Qi) : (s.setQi q x).engWaits = s.engWaits := rfl
@[simp] theorem State.setQi_xfers (s : State) (q : Fin 64) (x : Qi) : (s.setQi q x).xfers = s.xfers := rfl
@[simp] theorem State.setQi_nextId (s : State) (q : Fin 64) (x : Qi) : (s.setQi q x).nextId = s.nextId := rfl
@[simp] theorem State.setQi_lists (s : State) (q : Fin 64) (x : Qi) : (s.setQi q x).lists = s.lists := rfl
@[simp] theorem State.setQi_spilled (s : State) (q : Fin 64) (x : Qi) : (s.setQi q x).spilled = s.spilled := rfl
@[simp] theorem State.setQi_pushed (s : State) (q : Fin 64) (x : Qi) : (s.setQi q x).pushed = s.pushed := rfl
@[simp] theorem State.setQi_pre (s : State) (q : Fin 64) (x : Qi) : (s.setQi q x).pre = s.pre := rfl
@[simp] theorem State.setQi_parts (s : State) (q : Fin 64) (x : Qi) : (s.setQi q x).parts = s.parts := rfl
@[simp] theorem State.setQi_mktWaits (s : State) (q : Fin 64) (x : Qi) : (s.setQi q x).mktWaits = s.mktWaits := rfl
@[simp] theorem State.setQi_prices (s : State) (q : Fin 64) (x : Qi) : (s.setQi q x).prices = s.prices := rfl
@[simp] theorem State.setQi_caps (s : State) (q : Fin 64) (x : Qi) : (s.setQi q x).caps = s.caps := rfl
@[simp] theorem State.setQi_posts (s : State) (q : Fin 64) (x : Qi) : (s.setQi q x).posts = s.posts := rfl
@[simp] theorem State.setQi_postsLost (s : State) (q : Fin 64) (x : Qi) : (s.setQi q x).postsLost = s.postsLost := rfl
@[simp] theorem State.setQi_convoy (s : State) (q : Fin 64) (x : Qi) : (s.setQi q x).convoy = s.convoy := rfl
@[simp] theorem State.setQi_fab (s : State) (q : Fin 64) (x : Qi) : (s.setQi q x).fab = s.fab := rfl
@[simp] theorem State.setQi_dev (s : State) (q : Fin 64) (x : Qi) : (s.setQi q x).dev = s.dev := rfl
@[simp] theorem State.setQi_sched (s : State) (q : Fin 64) (x : Qi) : (s.setQi q x).sched = s.sched := rfl
@[simp] theorem State.setQi_mgmt (s : State) (q : Fin 64) (x : Qi) : (s.setQi q x).mgmt = s.mgmt := rfl
@[simp] theorem State.setQi_now (s : State) (q : Fin 64) (x : Qi) : (s.setQi q x).now = s.now := rfl
@[simp] theorem State.setQi_cur (s : State) (q : Fin 64) (x : Qi) : (s.setQi q x).cur = s.cur := rfl
@[simp] theorem State.setQi_curH (s : State) (q : Fin 64) (x : Qi) : (s.setQi q x).curH = s.curH := rfl
@[simp] theorem State.setQi_agenda (s : State) (q : Fin 64) (x : Qi) : (s.setQi q x).agenda = s.agenda := rfl
@[simp] theorem State.setQi_turn (s : State) (q : Fin 64) (x : Qi) : (s.setQi q x).turn = s.turn := rfl
@[simp] theorem State.setQi_bundle (s : State) (q : Fin 64) (x : Qi) : (s.setQi q x).bundle = s.bundle := rfl
@[simp] theorem State.setQi_word (s : State) (q : Fin 64) (x : Qi) : (s.setQi q x).word = s.word := rfl
@[simp] theorem State.setQi_slotSrc (s : State) (q : Fin 64) (x : Qi) : (s.setQi q x).slotSrc = s.slotSrc := rfl
@[simp] theorem State.setQi_free (s : State) (q : Fin 64) (x : Qi) : (s.setQi q x).free = s.free := rfl
@[simp] theorem State.setQi_seqHold (s : State) (q : Fin 64) (x : Qi) : (s.setQi q x).seqHold = s.seqHold := rfl

/-! ## hostOut -/

@[simp] theorem State.hostOut_cores (s : State) (o : HostWrite) : (s.hostOut o).cores = s.cores := rfl
@[simp] theorem State.hostOut_saves (s : State) (o : HostWrite) : (s.hostOut o).saves = s.saves := rfl
@[simp] theorem State.hostOut_mem (s : State) (o : HostWrite) : (s.hostOut o).mem = s.mem := rfl
@[simp] theorem State.hostOut_empties (s : State) (o : HostWrite) : (s.hostOut o).empties = s.empties := rfl
@[simp] theorem State.hostOut_bad (s : State) (o : HostWrite) : (s.hostOut o).bad = s.bad := rfl
@[simp] theorem State.hostOut_weak (s : State) (o : HostWrite) : (s.hostOut o).weak = s.weak := rfl
@[simp] theorem State.hostOut_istore (s : State) (o : HostWrite) : (s.hostOut o).istore = s.istore := rfl
@[simp] theorem State.hostOut_text (s : State) (o : HostWrite) : (s.hostOut o).text = s.text := rfl
@[simp] theorem State.hostOut_tlb (s : State) (o : HostWrite) : (s.hostOut o).tlb = s.tlb := rfl
@[simp] theorem State.hostOut_net (s : State) (o : HostWrite) : (s.hostOut o).net = s.net := rfl
@[simp] theorem State.hostOut_engWaits (s : State) (o : HostWrite) : (s.hostOut o).engWaits = s.engWaits := rfl
@[simp] theorem State.hostOut_xfers (s : State) (o : HostWrite) : (s.hostOut o).xfers = s.xfers := rfl
@[simp] theorem State.hostOut_nextId (s : State) (o : HostWrite) : (s.hostOut o).nextId = s.nextId := rfl
@[simp] theorem State.hostOut_lists (s : State) (o : HostWrite) : (s.hostOut o).lists = s.lists := rfl
@[simp] theorem State.hostOut_spilled (s : State) (o : HostWrite) : (s.hostOut o).spilled = s.spilled := rfl
@[simp] theorem State.hostOut_pushed (s : State) (o : HostWrite) : (s.hostOut o).pushed = s.pushed := rfl
@[simp] theorem State.hostOut_pre (s : State) (o : HostWrite) : (s.hostOut o).pre = s.pre := rfl
@[simp] theorem State.hostOut_parts (s : State) (o : HostWrite) : (s.hostOut o).parts = s.parts := rfl
@[simp] theorem State.hostOut_mktWaits (s : State) (o : HostWrite) : (s.hostOut o).mktWaits = s.mktWaits := rfl
@[simp] theorem State.hostOut_prices (s : State) (o : HostWrite) : (s.hostOut o).prices = s.prices := rfl
@[simp] theorem State.hostOut_caps (s : State) (o : HostWrite) : (s.hostOut o).caps = s.caps := rfl
@[simp] theorem State.hostOut_posts (s : State) (o : HostWrite) : (s.hostOut o).posts = s.posts := rfl
@[simp] theorem State.hostOut_postsLost (s : State) (o : HostWrite) : (s.hostOut o).postsLost = s.postsLost := rfl
@[simp] theorem State.hostOut_convoy (s : State) (o : HostWrite) : (s.hostOut o).convoy = s.convoy := rfl
@[simp] theorem State.hostOut_fab (s : State) (o : HostWrite) : (s.hostOut o).fab = s.fab := rfl
@[simp] theorem State.hostOut_dev (s : State) (o : HostWrite) : (s.hostOut o).dev = s.dev := rfl
@[simp] theorem State.hostOut_sched (s : State) (o : HostWrite) : (s.hostOut o).sched = s.sched := rfl
@[simp] theorem State.hostOut_mgmt (s : State) (o : HostWrite) : (s.hostOut o).mgmt = s.mgmt := rfl
@[simp] theorem State.hostOut_now (s : State) (o : HostWrite) : (s.hostOut o).now = s.now := rfl
@[simp] theorem State.hostOut_cur (s : State) (o : HostWrite) : (s.hostOut o).cur = s.cur := rfl
@[simp] theorem State.hostOut_curH (s : State) (o : HostWrite) : (s.hostOut o).curH = s.curH := rfl
@[simp] theorem State.hostOut_agenda (s : State) (o : HostWrite) : (s.hostOut o).agenda = s.agenda := rfl
@[simp] theorem State.hostOut_turn (s : State) (o : HostWrite) : (s.hostOut o).turn = s.turn := rfl
@[simp] theorem State.hostOut_bundle (s : State) (o : HostWrite) : (s.hostOut o).bundle = s.bundle := rfl
@[simp] theorem State.hostOut_word (s : State) (o : HostWrite) : (s.hostOut o).word = s.word := rfl
@[simp] theorem State.hostOut_slotSrc (s : State) (o : HostWrite) : (s.hostOut o).slotSrc = s.slotSrc := rfl
@[simp] theorem State.hostOut_free (s : State) (o : HostWrite) : (s.hostOut o).free = s.free := rfl
@[simp] theorem State.hostOut_seqHold (s : State) (o : HostWrite) : (s.hostOut o).seqHold = s.seqHold := rfl

/-! ## setLaunch -/

@[simp] theorem State.setLaunch_cores (s : State) (l : Launch) : (s.setLaunch l).cores = s.cores := rfl
@[simp] theorem State.setLaunch_saves (s : State) (l : Launch) : (s.setLaunch l).saves = s.saves := rfl
@[simp] theorem State.setLaunch_mem (s : State) (l : Launch) : (s.setLaunch l).mem = s.mem := rfl
@[simp] theorem State.setLaunch_empties (s : State) (l : Launch) : (s.setLaunch l).empties = s.empties := rfl
@[simp] theorem State.setLaunch_bad (s : State) (l : Launch) : (s.setLaunch l).bad = s.bad := rfl
@[simp] theorem State.setLaunch_weak (s : State) (l : Launch) : (s.setLaunch l).weak = s.weak := rfl
@[simp] theorem State.setLaunch_istore (s : State) (l : Launch) : (s.setLaunch l).istore = s.istore := rfl
@[simp] theorem State.setLaunch_text (s : State) (l : Launch) : (s.setLaunch l).text = s.text := rfl
@[simp] theorem State.setLaunch_tlb (s : State) (l : Launch) : (s.setLaunch l).tlb = s.tlb := rfl
@[simp] theorem State.setLaunch_net (s : State) (l : Launch) : (s.setLaunch l).net = s.net := rfl
@[simp] theorem State.setLaunch_engWaits (s : State) (l : Launch) : (s.setLaunch l).engWaits = s.engWaits := rfl
@[simp] theorem State.setLaunch_xfers (s : State) (l : Launch) : (s.setLaunch l).xfers = s.xfers := rfl
@[simp] theorem State.setLaunch_nextId (s : State) (l : Launch) : (s.setLaunch l).nextId = s.nextId := rfl
@[simp] theorem State.setLaunch_lists (s : State) (l : Launch) : (s.setLaunch l).lists = s.lists := rfl
@[simp] theorem State.setLaunch_spilled (s : State) (l : Launch) : (s.setLaunch l).spilled = s.spilled := rfl
@[simp] theorem State.setLaunch_pushed (s : State) (l : Launch) : (s.setLaunch l).pushed = s.pushed := rfl
@[simp] theorem State.setLaunch_pre (s : State) (l : Launch) : (s.setLaunch l).pre = s.pre := rfl
@[simp] theorem State.setLaunch_parts (s : State) (l : Launch) : (s.setLaunch l).parts = s.parts := rfl
@[simp] theorem State.setLaunch_mktWaits (s : State) (l : Launch) : (s.setLaunch l).mktWaits = s.mktWaits := rfl
@[simp] theorem State.setLaunch_prices (s : State) (l : Launch) : (s.setLaunch l).prices = s.prices := rfl
@[simp] theorem State.setLaunch_caps (s : State) (l : Launch) : (s.setLaunch l).caps = s.caps := rfl
@[simp] theorem State.setLaunch_posts (s : State) (l : Launch) : (s.setLaunch l).posts = s.posts := rfl
@[simp] theorem State.setLaunch_postsLost (s : State) (l : Launch) : (s.setLaunch l).postsLost = s.postsLost := rfl
@[simp] theorem State.setLaunch_convoy (s : State) (l : Launch) : (s.setLaunch l).convoy = s.convoy := rfl
@[simp] theorem State.setLaunch_fab (s : State) (l : Launch) : (s.setLaunch l).fab = s.fab := rfl
@[simp] theorem State.setLaunch_dev (s : State) (l : Launch) : (s.setLaunch l).dev = s.dev := rfl
@[simp] theorem State.setLaunch_host (s : State) (l : Launch) : (s.setLaunch l).host = s.host := rfl
@[simp] theorem State.setLaunch_mgmt (s : State) (l : Launch) : (s.setLaunch l).mgmt = s.mgmt := rfl
@[simp] theorem State.setLaunch_now (s : State) (l : Launch) : (s.setLaunch l).now = s.now := rfl
@[simp] theorem State.setLaunch_cur (s : State) (l : Launch) : (s.setLaunch l).cur = s.cur := rfl
@[simp] theorem State.setLaunch_curH (s : State) (l : Launch) : (s.setLaunch l).curH = s.curH := rfl
@[simp] theorem State.setLaunch_agenda (s : State) (l : Launch) : (s.setLaunch l).agenda = s.agenda := rfl
@[simp] theorem State.setLaunch_turn (s : State) (l : Launch) : (s.setLaunch l).turn = s.turn := rfl
@[simp] theorem State.setLaunch_bundle (s : State) (l : Launch) : (s.setLaunch l).bundle = s.bundle := rfl
@[simp] theorem State.setLaunch_word (s : State) (l : Launch) : (s.setLaunch l).word = s.word := rfl
@[simp] theorem State.setLaunch_slotSrc (s : State) (l : Launch) : (s.setLaunch l).slotSrc = s.slotSrc := rfl
@[simp] theorem State.setLaunch_free (s : State) (l : Launch) : (s.setLaunch l).free = s.free := rfl
@[simp] theorem State.setLaunch_seqHold (s : State) (l : Launch) : (s.setLaunch l).seqHold = s.seqHold := rfl

/-! ## chargeFree -/

@[simp] theorem State.chargeFree_cores (s : State) (ctx : BitVec 12) (n : Nat) : (s.chargeFree ctx n).cores = s.cores := rfl
@[simp] theorem State.chargeFree_saves (s : State) (ctx : BitVec 12) (n : Nat) : (s.chargeFree ctx n).saves = s.saves := rfl
@[simp] theorem State.chargeFree_mem (s : State) (ctx : BitVec 12) (n : Nat) : (s.chargeFree ctx n).mem = s.mem := rfl
@[simp] theorem State.chargeFree_empties (s : State) (ctx : BitVec 12) (n : Nat) : (s.chargeFree ctx n).empties = s.empties := rfl
@[simp] theorem State.chargeFree_bad (s : State) (ctx : BitVec 12) (n : Nat) : (s.chargeFree ctx n).bad = s.bad := rfl
@[simp] theorem State.chargeFree_weak (s : State) (ctx : BitVec 12) (n : Nat) : (s.chargeFree ctx n).weak = s.weak := rfl
@[simp] theorem State.chargeFree_istore (s : State) (ctx : BitVec 12) (n : Nat) : (s.chargeFree ctx n).istore = s.istore := rfl
@[simp] theorem State.chargeFree_text (s : State) (ctx : BitVec 12) (n : Nat) : (s.chargeFree ctx n).text = s.text := rfl
@[simp] theorem State.chargeFree_tlb (s : State) (ctx : BitVec 12) (n : Nat) : (s.chargeFree ctx n).tlb = s.tlb := rfl
@[simp] theorem State.chargeFree_net (s : State) (ctx : BitVec 12) (n : Nat) : (s.chargeFree ctx n).net = s.net := rfl
@[simp] theorem State.chargeFree_engWaits (s : State) (ctx : BitVec 12) (n : Nat) : (s.chargeFree ctx n).engWaits = s.engWaits := rfl
@[simp] theorem State.chargeFree_xfers (s : State) (ctx : BitVec 12) (n : Nat) : (s.chargeFree ctx n).xfers = s.xfers := rfl
@[simp] theorem State.chargeFree_nextId (s : State) (ctx : BitVec 12) (n : Nat) : (s.chargeFree ctx n).nextId = s.nextId := rfl
@[simp] theorem State.chargeFree_lists (s : State) (ctx : BitVec 12) (n : Nat) : (s.chargeFree ctx n).lists = s.lists := rfl
@[simp] theorem State.chargeFree_spilled (s : State) (ctx : BitVec 12) (n : Nat) : (s.chargeFree ctx n).spilled = s.spilled := rfl
@[simp] theorem State.chargeFree_pushed (s : State) (ctx : BitVec 12) (n : Nat) : (s.chargeFree ctx n).pushed = s.pushed := rfl
@[simp] theorem State.chargeFree_pre (s : State) (ctx : BitVec 12) (n : Nat) : (s.chargeFree ctx n).pre = s.pre := rfl
@[simp] theorem State.chargeFree_parts (s : State) (ctx : BitVec 12) (n : Nat) : (s.chargeFree ctx n).parts = s.parts := rfl
@[simp] theorem State.chargeFree_mktWaits (s : State) (ctx : BitVec 12) (n : Nat) : (s.chargeFree ctx n).mktWaits = s.mktWaits := rfl
@[simp] theorem State.chargeFree_prices (s : State) (ctx : BitVec 12) (n : Nat) : (s.chargeFree ctx n).prices = s.prices := rfl
@[simp] theorem State.chargeFree_caps (s : State) (ctx : BitVec 12) (n : Nat) : (s.chargeFree ctx n).caps = s.caps := rfl
@[simp] theorem State.chargeFree_posts (s : State) (ctx : BitVec 12) (n : Nat) : (s.chargeFree ctx n).posts = s.posts := rfl
@[simp] theorem State.chargeFree_postsLost (s : State) (ctx : BitVec 12) (n : Nat) : (s.chargeFree ctx n).postsLost = s.postsLost := rfl
@[simp] theorem State.chargeFree_convoy (s : State) (ctx : BitVec 12) (n : Nat) : (s.chargeFree ctx n).convoy = s.convoy := rfl
@[simp] theorem State.chargeFree_fab (s : State) (ctx : BitVec 12) (n : Nat) : (s.chargeFree ctx n).fab = s.fab := rfl
@[simp] theorem State.chargeFree_sched (s : State) (ctx : BitVec 12) (n : Nat) : (s.chargeFree ctx n).sched = s.sched := rfl
@[simp] theorem State.chargeFree_host (s : State) (ctx : BitVec 12) (n : Nat) : (s.chargeFree ctx n).host = s.host := rfl
@[simp] theorem State.chargeFree_mgmt (s : State) (ctx : BitVec 12) (n : Nat) : (s.chargeFree ctx n).mgmt = s.mgmt := rfl
@[simp] theorem State.chargeFree_now (s : State) (ctx : BitVec 12) (n : Nat) : (s.chargeFree ctx n).now = s.now := rfl
@[simp] theorem State.chargeFree_cur (s : State) (ctx : BitVec 12) (n : Nat) : (s.chargeFree ctx n).cur = s.cur := rfl
@[simp] theorem State.chargeFree_curH (s : State) (ctx : BitVec 12) (n : Nat) : (s.chargeFree ctx n).curH = s.curH := rfl
@[simp] theorem State.chargeFree_agenda (s : State) (ctx : BitVec 12) (n : Nat) : (s.chargeFree ctx n).agenda = s.agenda := rfl
@[simp] theorem State.chargeFree_turn (s : State) (ctx : BitVec 12) (n : Nat) : (s.chargeFree ctx n).turn = s.turn := rfl
@[simp] theorem State.chargeFree_bundle (s : State) (ctx : BitVec 12) (n : Nat) : (s.chargeFree ctx n).bundle = s.bundle := rfl
@[simp] theorem State.chargeFree_word (s : State) (ctx : BitVec 12) (n : Nat) : (s.chargeFree ctx n).word = s.word := rfl
@[simp] theorem State.chargeFree_slotSrc (s : State) (ctx : BitVec 12) (n : Nat) : (s.chargeFree ctx n).slotSrc = s.slotSrc := rfl
@[simp] theorem State.chargeFree_seqHold (s : State) (ctx : BitVec 12) (n : Nat) : (s.chargeFree ctx n).seqHold = s.seqHold := rfl

/-! ## tell -/

@[simp] theorem State.tell_cores (s : State) (ws : List Word) : (s.tell ws).cores = s.cores := rfl
@[simp] theorem State.tell_saves (s : State) (ws : List Word) : (s.tell ws).saves = s.saves := rfl
@[simp] theorem State.tell_mem (s : State) (ws : List Word) : (s.tell ws).mem = s.mem := rfl
@[simp] theorem State.tell_empties (s : State) (ws : List Word) : (s.tell ws).empties = s.empties := rfl
@[simp] theorem State.tell_bad (s : State) (ws : List Word) : (s.tell ws).bad = s.bad := rfl
@[simp] theorem State.tell_weak (s : State) (ws : List Word) : (s.tell ws).weak = s.weak := rfl
@[simp] theorem State.tell_istore (s : State) (ws : List Word) : (s.tell ws).istore = s.istore := rfl
@[simp] theorem State.tell_text (s : State) (ws : List Word) : (s.tell ws).text = s.text := rfl
@[simp] theorem State.tell_tlb (s : State) (ws : List Word) : (s.tell ws).tlb = s.tlb := rfl
@[simp] theorem State.tell_net (s : State) (ws : List Word) : (s.tell ws).net = s.net := rfl
@[simp] theorem State.tell_engWaits (s : State) (ws : List Word) : (s.tell ws).engWaits = s.engWaits := rfl
@[simp] theorem State.tell_xfers (s : State) (ws : List Word) : (s.tell ws).xfers = s.xfers := rfl
@[simp] theorem State.tell_nextId (s : State) (ws : List Word) : (s.tell ws).nextId = s.nextId := rfl
@[simp] theorem State.tell_lists (s : State) (ws : List Word) : (s.tell ws).lists = s.lists := rfl
@[simp] theorem State.tell_spilled (s : State) (ws : List Word) : (s.tell ws).spilled = s.spilled := rfl
@[simp] theorem State.tell_pushed (s : State) (ws : List Word) : (s.tell ws).pushed = s.pushed := rfl
@[simp] theorem State.tell_pre (s : State) (ws : List Word) : (s.tell ws).pre = s.pre := rfl
@[simp] theorem State.tell_parts (s : State) (ws : List Word) : (s.tell ws).parts = s.parts := rfl
@[simp] theorem State.tell_mktWaits (s : State) (ws : List Word) : (s.tell ws).mktWaits = s.mktWaits := rfl
@[simp] theorem State.tell_prices (s : State) (ws : List Word) : (s.tell ws).prices = s.prices := rfl
@[simp] theorem State.tell_caps (s : State) (ws : List Word) : (s.tell ws).caps = s.caps := rfl
@[simp] theorem State.tell_posts (s : State) (ws : List Word) : (s.tell ws).posts = s.posts := rfl
@[simp] theorem State.tell_postsLost (s : State) (ws : List Word) : (s.tell ws).postsLost = s.postsLost := rfl
@[simp] theorem State.tell_convoy (s : State) (ws : List Word) : (s.tell ws).convoy = s.convoy := rfl
@[simp] theorem State.tell_fab (s : State) (ws : List Word) : (s.tell ws).fab = s.fab := rfl
@[simp] theorem State.tell_dev (s : State) (ws : List Word) : (s.tell ws).dev = s.dev := rfl
@[simp] theorem State.tell_sched (s : State) (ws : List Word) : (s.tell ws).sched = s.sched := rfl
@[simp] theorem State.tell_host (s : State) (ws : List Word) : (s.tell ws).host = s.host := rfl
@[simp] theorem State.tell_now (s : State) (ws : List Word) : (s.tell ws).now = s.now := rfl
@[simp] theorem State.tell_cur (s : State) (ws : List Word) : (s.tell ws).cur = s.cur := rfl
@[simp] theorem State.tell_curH (s : State) (ws : List Word) : (s.tell ws).curH = s.curH := rfl
@[simp] theorem State.tell_agenda (s : State) (ws : List Word) : (s.tell ws).agenda = s.agenda := rfl
@[simp] theorem State.tell_turn (s : State) (ws : List Word) : (s.tell ws).turn = s.turn := rfl
@[simp] theorem State.tell_bundle (s : State) (ws : List Word) : (s.tell ws).bundle = s.bundle := rfl
@[simp] theorem State.tell_word (s : State) (ws : List Word) : (s.tell ws).word = s.word := rfl
@[simp] theorem State.tell_slotSrc (s : State) (ws : List Word) : (s.tell ws).slotSrc = s.slotSrc := rfl
@[simp] theorem State.tell_free (s : State) (ws : List Word) : (s.tell ws).free = s.free := rfl
@[simp] theorem State.tell_seqHold (s : State) (ws : List Word) : (s.tell ws).seqHold = s.seqHold := rfl

/-! ## configure -/

@[simp] theorem State.configure_cores (s : State) (o : BitVec 22) (v : Byte) : (s.configure o v).cores = s.cores := rfl
@[simp] theorem State.configure_saves (s : State) (o : BitVec 22) (v : Byte) : (s.configure o v).saves = s.saves := rfl
@[simp] theorem State.configure_mem (s : State) (o : BitVec 22) (v : Byte) : (s.configure o v).mem = s.mem := rfl
@[simp] theorem State.configure_empties (s : State) (o : BitVec 22) (v : Byte) : (s.configure o v).empties = s.empties := rfl
@[simp] theorem State.configure_bad (s : State) (o : BitVec 22) (v : Byte) : (s.configure o v).bad = s.bad := rfl
@[simp] theorem State.configure_weak (s : State) (o : BitVec 22) (v : Byte) : (s.configure o v).weak = s.weak := rfl
@[simp] theorem State.configure_istore (s : State) (o : BitVec 22) (v : Byte) : (s.configure o v).istore = s.istore := rfl
@[simp] theorem State.configure_text (s : State) (o : BitVec 22) (v : Byte) : (s.configure o v).text = s.text := rfl
@[simp] theorem State.configure_tlb (s : State) (o : BitVec 22) (v : Byte) : (s.configure o v).tlb = s.tlb := rfl
@[simp] theorem State.configure_net (s : State) (o : BitVec 22) (v : Byte) : (s.configure o v).net = s.net := rfl
@[simp] theorem State.configure_engWaits (s : State) (o : BitVec 22) (v : Byte) : (s.configure o v).engWaits = s.engWaits := rfl
@[simp] theorem State.configure_xfers (s : State) (o : BitVec 22) (v : Byte) : (s.configure o v).xfers = s.xfers := rfl
@[simp] theorem State.configure_nextId (s : State) (o : BitVec 22) (v : Byte) : (s.configure o v).nextId = s.nextId := rfl
@[simp] theorem State.configure_lists (s : State) (o : BitVec 22) (v : Byte) : (s.configure o v).lists = s.lists := rfl
@[simp] theorem State.configure_spilled (s : State) (o : BitVec 22) (v : Byte) : (s.configure o v).spilled = s.spilled := rfl
@[simp] theorem State.configure_pushed (s : State) (o : BitVec 22) (v : Byte) : (s.configure o v).pushed = s.pushed := rfl
@[simp] theorem State.configure_pre (s : State) (o : BitVec 22) (v : Byte) : (s.configure o v).pre = s.pre := rfl
@[simp] theorem State.configure_parts (s : State) (o : BitVec 22) (v : Byte) : (s.configure o v).parts = s.parts := rfl
@[simp] theorem State.configure_mktWaits (s : State) (o : BitVec 22) (v : Byte) : (s.configure o v).mktWaits = s.mktWaits := rfl
@[simp] theorem State.configure_prices (s : State) (o : BitVec 22) (v : Byte) : (s.configure o v).prices = s.prices := rfl
@[simp] theorem State.configure_caps (s : State) (o : BitVec 22) (v : Byte) : (s.configure o v).caps = s.caps := rfl
@[simp] theorem State.configure_posts (s : State) (o : BitVec 22) (v : Byte) : (s.configure o v).posts = s.posts := rfl
@[simp] theorem State.configure_postsLost (s : State) (o : BitVec 22) (v : Byte) : (s.configure o v).postsLost = s.postsLost := rfl
@[simp] theorem State.configure_convoy (s : State) (o : BitVec 22) (v : Byte) : (s.configure o v).convoy = s.convoy := rfl
@[simp] theorem State.configure_fab (s : State) (o : BitVec 22) (v : Byte) : (s.configure o v).fab = s.fab := rfl
@[simp] theorem State.configure_dev (s : State) (o : BitVec 22) (v : Byte) : (s.configure o v).dev = s.dev := rfl
@[simp] theorem State.configure_sched (s : State) (o : BitVec 22) (v : Byte) : (s.configure o v).sched = s.sched := rfl
@[simp] theorem State.configure_host (s : State) (o : BitVec 22) (v : Byte) : (s.configure o v).host = s.host := rfl
@[simp] theorem State.configure_now (s : State) (o : BitVec 22) (v : Byte) : (s.configure o v).now = s.now := rfl
@[simp] theorem State.configure_cur (s : State) (o : BitVec 22) (v : Byte) : (s.configure o v).cur = s.cur := rfl
@[simp] theorem State.configure_curH (s : State) (o : BitVec 22) (v : Byte) : (s.configure o v).curH = s.curH := rfl
@[simp] theorem State.configure_agenda (s : State) (o : BitVec 22) (v : Byte) : (s.configure o v).agenda = s.agenda := rfl
@[simp] theorem State.configure_turn (s : State) (o : BitVec 22) (v : Byte) : (s.configure o v).turn = s.turn := rfl
@[simp] theorem State.configure_bundle (s : State) (o : BitVec 22) (v : Byte) : (s.configure o v).bundle = s.bundle := rfl
@[simp] theorem State.configure_word (s : State) (o : BitVec 22) (v : Byte) : (s.configure o v).word = s.word := rfl
@[simp] theorem State.configure_slotSrc (s : State) (o : BitVec 22) (v : Byte) : (s.configure o v).slotSrc = s.slotSrc := rfl
@[simp] theorem State.configure_free (s : State) (o : BitVec 22) (v : Byte) : (s.configure o v).free = s.free := rfl
@[simp] theorem State.configure_seqHold (s : State) (o : BitVec 22) (v : Byte) : (s.configure o v).seqHold = s.seqHold := rfl

/-! ## stall -/

@[simp] theorem State.stall_cores (s : State) (after : State) : (s.stall after).cores = s.cores := rfl
@[simp] theorem State.stall_saves (s : State) (after : State) : (s.stall after).saves = s.saves := rfl
@[simp] theorem State.stall_mem (s : State) (after : State) : (s.stall after).mem = s.mem := rfl
@[simp] theorem State.stall_empties (s : State) (after : State) : (s.stall after).empties = s.empties := rfl
@[simp] theorem State.stall_bad (s : State) (after : State) : (s.stall after).bad = s.bad := rfl
@[simp] theorem State.stall_weak (s : State) (after : State) : (s.stall after).weak = s.weak := rfl
@[simp] theorem State.stall_istore (s : State) (after : State) : (s.stall after).istore = s.istore := rfl
@[simp] theorem State.stall_text (s : State) (after : State) : (s.stall after).text = s.text := rfl
@[simp] theorem State.stall_tlb (s : State) (after : State) : (s.stall after).tlb = s.tlb := rfl
@[simp] theorem State.stall_net (s : State) (after : State) : (s.stall after).net = s.net := rfl
@[simp] theorem State.stall_xfers (s : State) (after : State) : (s.stall after).xfers = s.xfers := rfl
@[simp] theorem State.stall_lists (s : State) (after : State) : (s.stall after).lists = s.lists := rfl
@[simp] theorem State.stall_spilled (s : State) (after : State) : (s.stall after).spilled = s.spilled := rfl
@[simp] theorem State.stall_pushed (s : State) (after : State) : (s.stall after).pushed = s.pushed := rfl
@[simp] theorem State.stall_pre (s : State) (after : State) : (s.stall after).pre = s.pre := rfl
@[simp] theorem State.stall_parts (s : State) (after : State) : (s.stall after).parts = s.parts := rfl
@[simp] theorem State.stall_mktWaits (s : State) (after : State) : (s.stall after).mktWaits = s.mktWaits := rfl
@[simp] theorem State.stall_prices (s : State) (after : State) : (s.stall after).prices = s.prices := rfl
@[simp] theorem State.stall_caps (s : State) (after : State) : (s.stall after).caps = s.caps := rfl
@[simp] theorem State.stall_posts (s : State) (after : State) : (s.stall after).posts = s.posts := rfl
@[simp] theorem State.stall_postsLost (s : State) (after : State) : (s.stall after).postsLost = s.postsLost := rfl
@[simp] theorem State.stall_convoy (s : State) (after : State) : (s.stall after).convoy = s.convoy := rfl
@[simp] theorem State.stall_fab (s : State) (after : State) : (s.stall after).fab = s.fab := rfl
@[simp] theorem State.stall_dev (s : State) (after : State) : (s.stall after).dev = s.dev := rfl
@[simp] theorem State.stall_sched (s : State) (after : State) : (s.stall after).sched = s.sched := rfl
@[simp] theorem State.stall_host (s : State) (after : State) : (s.stall after).host = s.host := rfl
@[simp] theorem State.stall_mgmt (s : State) (after : State) : (s.stall after).mgmt = s.mgmt := rfl
@[simp] theorem State.stall_now (s : State) (after : State) : (s.stall after).now = s.now := rfl
@[simp] theorem State.stall_cur (s : State) (after : State) : (s.stall after).cur = s.cur := rfl
@[simp] theorem State.stall_curH (s : State) (after : State) : (s.stall after).curH = s.curH := rfl
@[simp] theorem State.stall_agenda (s : State) (after : State) : (s.stall after).agenda = s.agenda := rfl
@[simp] theorem State.stall_turn (s : State) (after : State) : (s.stall after).turn = s.turn := rfl
@[simp] theorem State.stall_bundle (s : State) (after : State) : (s.stall after).bundle = s.bundle := rfl
@[simp] theorem State.stall_word (s : State) (after : State) : (s.stall after).word = s.word := rfl
@[simp] theorem State.stall_slotSrc (s : State) (after : State) : (s.stall after).slotSrc = s.slotSrc := rfl
@[simp] theorem State.stall_free (s : State) (after : State) : (s.stall after).free = s.free := rfl
@[simp] theorem State.stall_seqHold (s : State) (after : State) : (s.stall after).seqHold = s.seqHold := rfl

end Sys2Proof.Machine
end

