-- ==== Sys2Proof/Laws/Ops.lean ====
section
/-!
SUPPORT. What each shared operation of a core can do, said once: the Relay, the placing of completions, handler faults, traps and
their return, and how a result is owed.
-/

namespace Sys2Proof.Machine

/-! ## The Relay (spec/09 R143, R144) -/

/-- What a Relay leaves alone: everything but its counters and terms, the prepared transfers it starts, and the matrix queue. -/
structure Core.RelayFrame (c d : Core) : Prop where
  main : d.main = c.main
  hnd : d.hnd = c.hnd
  ctl : d.ctl = c.ctl
  slot : d.slot = c.slot
  evt : d.evt = c.evt
  exch : d.exch = c.exch
  seq : d.seq = c.seq
  pwr : d.pwr = c.pwr
  planes : d.mat.active = c.mat.active ∧ d.mat.shadow = c.mat.shadow ∧ d.mat.bands = c.mat.bands ∧ d.mat.nextBands = c.mat.nextBands
  eng : d.eng = { c.eng with relayCnt := d.eng.relayCnt, relayTerm := d.eng.relayTerm, copies := d.eng.copies }

theorem Core.RelayFrame.refl (c : Core) : Core.RelayFrame c c := ⟨rfl, rfl, rfl, rfl, rfl, rfl, rfl, rfl, ⟨rfl, rfl, rfl, rfl⟩, rfl⟩

theorem Core.RelayFrame.trans {a b c : Core} (h : Core.RelayFrame a b) (k : Core.RelayFrame b c) : Core.RelayFrame a c where
  main := k.main.trans h.main
  hnd := k.hnd.trans h.hnd
  ctl := k.ctl.trans h.ctl
  slot := k.slot.trans h.slot
  evt := k.evt.trans h.evt
  exch := k.exch.trans h.exch
  seq := k.seq.trans h.seq
  pwr := k.pwr.trans h.pwr
  planes := ⟨k.planes.1.trans h.planes.1, k.planes.2.1.trans h.planes.2.1, k.planes.2.2.1.trans h.planes.2.2.1,
    k.planes.2.2.2.trans h.planes.2.2.2⟩
  eng := by rw [k.eng, h.eng]

theorem Core.relayRelease_frame (c : Core) : Core.RelayFrame c c.relayRelease := by
  unfold Core.relayRelease
  split <;> exact ⟨rfl, rfl, rfl, rfl, rfl, rfl, rfl, rfl, ⟨rfl, rfl, rfl, rfl⟩, rfl⟩

theorem Core.startPrepared_frame {c d : Core} {x : Nat} (h : c.startPrepared x = some d) : Core.RelayFrame c d := by
  unfold Core.startPrepared at h
  split at h
  · obtain rfl := Option.some.inj h
    exact ⟨rfl, rfl, rfl, rfl, rfl, rfl, rfl, rfl, ⟨rfl, rfl, rfl, rfl⟩, rfl⟩
  · cases h

theorem Core.relayAct_frame (c : Core) (i : Fin 8) : Core.RelayFrame c (c.relayAct i) := by
  have pend (c : Core) : Core.RelayFrame c
      { c with eng := { c.eng with relayTerm := c.eng.relayTerm.set i (setBits c.eng.relayTerm[i] 43 1 1) } } :=
    ⟨rfl, rfl, rfl, rfl, rfl, rfl, rfl, rfl, ⟨rfl, rfl, rfl, rfl⟩, rfl⟩
  have first : Core.RelayFrame c (if bit c.ctl.intEn 3 then
      { c with eng := { c.eng with relayTerm := c.eng.relayTerm.set i (setBits c.eng.relayTerm[i] 43 1 1) } } else c) := by
    split
    · exact pend c
    · exact .refl c
  unfold Core.relayAct
  dsimp only
  split
  · exact first.trans (Core.relayRelease_frame _)
  · split
    · rename_i h; exact first.trans (Core.startPrepared_frame h)
    · exact first.trans (pend _)
  · exact first

theorem Core.relayTerms_frame (l : List (Fin 8)) (c : Core) : Core.RelayFrame c (Core.relayTerms l c).1 := by
  induction l generalizing c with
  | nil => exact .refl c
  | cons i r ih =>
    unfold Core.relayTerms
    extract_lets t m
    split
    · refine Core.RelayFrame.trans ?_ (ih _)
      refine Core.RelayFrame.trans ?_ (Core.relayAct_frame _ i)
      exact ⟨rfl, rfl, rfl, rfl, rfl, rfl, rfl, rfl, ⟨rfl, rfl, rfl, rfl⟩, rfl⟩
    · exact ih c

theorem Core.relayCycles_frame (n : Nat) (c : Core) : Core.RelayFrame c (c.relayCycles n) := by
  induction n generalizing c with
  | zero => exact .refl c
  | succ n ih =>
    have h := Core.relayTerms_frame (List.finRange 8) c
    unfold Core.relayCycles
    split
    · rename_i e; rw [e] at h; exact h.trans (ih _)
    · rename_i e; rw [e] at h; exact h

/-- Pulses change only what a Relay changes. -/
theorem Core.relayPulses_frame (c : Core) (l : List (Nat × Nat)) : Core.RelayFrame c (c.relayPulses l) :=
  Core.RelayFrame.trans (b := { c with eng := { c.eng with relayCnt := l.foldl (fun cnt p => cnt.map (relayCount p.1 p.2)) c.eng.relayCnt } })
    ⟨rfl, rfl, rfl, rfl, rfl, rfl, rfl, rfl, ⟨rfl, rfl, rfl, rfl⟩, rfl⟩ (Core.relayCycles_frame _ _)

theorem Core.relayPulse_frame (c : Core) (src arg : Nat) : Core.RelayFrame c (c.relayPulse src arg) := Core.relayPulses_frame c _

/-- With no enabled term a pulse only counts. -/
theorem Core.relayPulse_idle (c : Core) (src arg : Nat) (h : ∀ i : Fin 8, bit c.eng.relayTerm[i] 63 = false) :
    c.relayPulse src arg = { c with eng := { c.eng with relayCnt := c.eng.relayCnt.map (relayCount src arg) } } := by
  have key : ∀ (l : List (Fin 8)) (d : Core), d.eng.relayTerm = c.eng.relayTerm → Core.relayTerms l d = (d, false) := by
    intro l
    induction l with
    | nil => intro d _; rfl
    | cons i r ih =>
      intro d e
      unfold Core.relayTerms
      have hi : bit d.eng.relayTerm[i] 63 = false := by rw [e]; exact h i
      simp only [hi, Bool.false_and, Bool.false_eq_true, if_false]
      exact ih d e
  have cyc (n : Nat) (d : Core) (e : d.eng.relayTerm = c.eng.relayTerm) : d.relayCycles n = d := by
    cases n with
    | zero => rfl
    | succ n => unfold Core.relayCycles; rw [key _ d e]
  exact cyc _ _ rfl

@[simp] theorem Core.relayPulse_main (c : Core) (n m : Nat) : (c.relayPulse n m).main = c.main := (Core.relayPulse_frame c n m).main
@[simp] theorem Core.relayPulse_hnd (c : Core) (n m : Nat) : (c.relayPulse n m).hnd = c.hnd := (Core.relayPulse_frame c n m).hnd
@[simp] theorem Core.relayPulse_ctl (c : Core) (n m : Nat) : (c.relayPulse n m).ctl = c.ctl := (Core.relayPulse_frame c n m).ctl
@[simp] theorem Core.relayPulse_slot (c : Core) (n m : Nat) : (c.relayPulse n m).slot = c.slot := (Core.relayPulse_frame c n m).slot
@[simp] theorem Core.relayPulse_evt (c : Core) (n m : Nat) : (c.relayPulse n m).evt = c.evt := (Core.relayPulse_frame c n m).evt
@[simp] theorem Core.relayPulse_exch (c : Core) (n m : Nat) : (c.relayPulse n m).exch = c.exch := (Core.relayPulse_frame c n m).exch
@[simp] theorem Core.relayPulse_seq (c : Core) (n m : Nat) : (c.relayPulse n m).seq = c.seq := (Core.relayPulse_frame c n m).seq
@[simp] theorem Core.relayPulse_pwr (c : Core) (n m : Nat) : (c.relayPulse n m).pwr = c.pwr := (Core.relayPulse_frame c n m).pwr

/-! ## The inbox (spec/09 R130) -/

@[simp] theorem Core.placeAct_main (c : Core) (a : PlaceAct) : (c.placeAct a).main = c.main := by cases a <;> rfl
@[simp] theorem Core.placeAct_hnd (c : Core) (a : PlaceAct) : (c.placeAct a).hnd = c.hnd := by cases a <;> rfl
@[simp] theorem Core.placeAct_ctl (c : Core) (a : PlaceAct) : (c.placeAct a).ctl = c.ctl := by cases a <;> rfl
@[simp] theorem Core.placeAct_slot (c : Core) (a : PlaceAct) : (c.placeAct a).slot = c.slot := by cases a <;> rfl
@[simp] theorem Core.placeAct_evt (c : Core) (a : PlaceAct) : (c.placeAct a).evt = c.evt := by cases a <;> rfl
@[simp] theorem Core.placeAct_exch (c : Core) (a : PlaceAct) : (c.placeAct a).exch = c.exch := by cases a <;> rfl
@[simp] theorem Core.placeAct_seq (c : Core) (a : PlaceAct) : (c.placeAct a).seq = c.seq := by cases a <;> rfl
@[simp] theorem Core.placeAct_mat (c : Core) (a : PlaceAct) : (c.placeAct a).mat = c.mat := by cases a <;> rfl
@[simp] theorem Core.placeAct_pwr (c : Core) (a : PlaceAct) : (c.placeAct a).pwr = c.pwr := by cases a <;> rfl

/-- What the placing of a completion leaves alone at its core. -/
structure Core.InboxFrame (c d : Core) : Prop where
  main : d.main = c.main
  hnd : d.hnd = c.hnd
  ctl : d.ctl = c.ctl
  slot : d.slot = c.slot
  exch : d.exch = c.exch
  seq : d.seq = c.seq
  pwr : d.pwr = c.pwr
  evt : d.evt = { c.evt with inbox := d.evt.inbox, peer := d.evt.peer, held := d.evt.held, dropped := d.evt.dropped }

theorem Core.InboxFrame.refl (c : Core) : Core.InboxFrame c c := ⟨rfl, rfl, rfl, rfl, rfl, rfl, rfl, rfl⟩

theorem Core.InboxFrame.trans {a b c : Core} (h : Core.InboxFrame a b) (k : Core.InboxFrame b c) : Core.InboxFrame a c where
  main := k.main.trans h.main
  hnd := k.hnd.trans h.hnd
  ctl := k.ctl.trans h.ctl
  slot := k.slot.trans h.slot
  exch := k.exch.trans h.exch
  seq := k.seq.trans h.seq
  pwr := k.pwr.trans h.pwr
  evt := by rw [k.evt, h.evt]

theorem Core.placeAct_frame (c : Core) (a : PlaceAct) : Core.InboxFrame c (c.placeAct a) := by
  cases a <;> exact ⟨rfl, rfl, rfl, rfl, rfl, rfl, rfl, rfl⟩

/-- A message that enters joins the end of the inbox. -/
@[simp] theorem Core.enter_inbox (c : Core) (m : Msg) : (c.enter m).evt.inbox = c.evt.inbox ++ [m] := by
  show (Core.relayPulse _ _ _).evt.inbox = _
  rw [Core.relayPulse_evt]

theorem Core.enter_frame (c : Core) (m : Msg) : Core.InboxFrame c (c.enter m) := by
  have h := Core.relayPulse_frame { c with evt := { c.evt with
    inbox := c.evt.inbox ++ [m], peer := if m.kind == 0x10 then c.evt.peer ++ [m.source] else c.evt.peer } } 6 m.kind.toNat
  exact ⟨h.main, h.hnd, h.ctl, h.slot, h.exch, h.seq, h.pwr, by unfold Core.enter; rw [h.evt]⟩

theorem Core.enters_inbox (l : List Msg) (c : Core) : (l.foldl Core.enter c).evt.inbox = c.evt.inbox ++ l := by
  induction l generalizing c with
  | nil => simp
  | cons m r ih => rw [List.foldl_cons, ih, Core.enter_inbox, List.append_assoc, List.singleton_append]

theorem Core.enters_frame (l : List Msg) (c : Core) : Core.InboxFrame c (l.foldl Core.enter c) := by
  induction l generalizing c with
  | nil => exact .refl c
  | cons m r ih => exact (Core.enter_frame c m).trans (ih _)

@[simp] theorem Core.deliver_inbox (c : Core) (x : Completion) : (c.deliver x).evt.inbox = c.evt.inbox ++ x.msgs := by
  rw [Core.deliver, Core.placeAct_evt, Core.enters_inbox]

theorem Core.deliver_frame (c : Core) (x : Completion) : Core.InboxFrame c (c.deliver x) :=
  (Core.enters_frame _ c).trans (Core.placeAct_frame _ _)

/-- A core with a slot, room and nothing held takes the messages of a completion at once. -/
theorem Core.place_takes (c : Core) (x : Completion) (hs : c.slot.st ≠ .idle) (hr : c.evt.inbox.length + x.msgs.length ≤ 256)
    (hh : c.evt.held = []) : c.place x = c.deliver x := by
  simp [Core.place, hs, hr, hh]

/-- Placing a completion changes at its core only the inbox with what waits for it, and the engines. -/
theorem Core.place_frame (c : Core) (x : Completion) : Core.InboxFrame c (c.place x) := by
  unfold Core.place
  split
  · exact Core.placeAct_frame c x.act
  · split
    · exact Core.deliver_frame c x
    · split
      · exact Core.InboxFrame.trans (b := { c with evt := { c.evt with dropped := c.evt.dropped + 1 } })
          ⟨rfl, rfl, rfl, rfl, rfl, rfl, rfl, rfl⟩ (Core.placeAct_frame _ _)
      · exact ⟨rfl, rfl, rfl, rfl, rfl, rfl, rfl, rfl⟩

theorem Core.settleHeld_frame (l : List Completion) (c : Core) : Core.InboxFrame c (c.settleHeld l) := by
  induction l generalizing c with
  | nil => exact .refl c
  | cons x r ih =>
    unfold Core.settleHeld
    split
    · refine Core.InboxFrame.trans (b := { c with evt := { c.evt with held := r } }) ⟨rfl, rfl, rfl, rfl, rfl, rfl, rfl, rfl⟩ ?_
      exact (Core.deliver_frame _ x).trans (ih _)
    · exact .refl c

theorem Core.settle_frame (c : Core) : Core.InboxFrame c c.settle := Core.settleHeld_frame _ c

/-! ## Handler faults (spec/07 R104) -/

theorem Core.endDrainWith_frame (c : Core) (l : List (Nat × Nat)) : Core.RelayFrame c (c.endDrainWith l) := by
  unfold Core.endDrainWith
  split
  · exact Core.RelayFrame.trans (b := { c with mat := { c.mat with mq := c.mat.mq.tail } })
      ⟨rfl, rfl, rfl, rfl, rfl, rfl, rfl, rfl, ⟨rfl, rfl, rfl, rfl⟩, rfl⟩ (Core.relayPulses_frame _ _)
  · exact .refl c

theorem Core.endDrain_frame (c : Core) : Core.RelayFrame c c.endDrain := Core.endDrainWith_frame c []

/-- A handler fault joins the faults that wait, ends the row and the handler's fence, and leaves the main context alone. -/
theorem Core.handlerFault_spec (c : Core) (cause : BitVec 8) (pc : Pc) :
    (c.handlerFault cause pc).main = c.main ∧ (c.handlerFault cause pc).ctl = c.ctl ∧ (c.handlerFault cause pc).slot = c.slot ∧
    (c.handlerFault cause pc).evt = { c.evt with fenceH := none } ∧ (c.handlerFault cause pc).seq = c.seq ∧
    (c.handlerFault cause pc).hnd = { c.hnd with row := none, marker := false, faults := c.hnd.faults ++ [(cause, pc)] } := by
  have h := Core.endDrain_frame { c with evt := { c.evt with fenceH := none } }
  refine ⟨h.main, h.ctl, h.slot, h.evt, h.seq, ?_⟩
  show ({ ({ c with evt := { c.evt with fenceH := none } } : Core).endDrain.hnd with
    row := none, marker := false, faults := c.hnd.faults ++ [(cause, pc)] } : HandlerCtx) = _
  rw [h.hnd]

/-! ## Traps (spec/07 R112) -/

/-- A trap is fatal while INTRAP is set or without a handler; else the entry of R112. -/
theorem State.takeTrap_spec (s : State) (k : CoreIx) (imp : Bool) (cause : BitVec 8) (pc : Pc) (val : Word) :
    ((s.core k).intrap = true ∨ bit (s.core k).ctl.tvec 63 = false → s.takeTrap k imp cause pc val = s.fatalCore k cause val) ∧
    ((s.core k).intrap = false → bit (s.core k).ctl.tvec 63 = true →
      s.takeTrap k imp cause pc val = s.setCore k ((s.core k).trapEntry imp cause pc val)) := by
  unfold State.takeTrap
  constructor
  · rintro (h | h) <;> simp [h]
  · intro h k; simp [h, k]

/-- A trap writes no memory, sends nothing and leaves the other cores. -/
theorem State.takeTrap_frame (s : State) (k : CoreIx) (imp : Bool) (cause : BitVec 8) (pc : Pc) (val : Word) :
    (s.takeTrap k imp cause pc val).mem = s.mem ∧ (s.takeTrap k imp cause pc val).istore = s.istore ∧
    (s.takeTrap k imp cause pc val).net = s.net ∧ (s.takeTrap k imp cause pc val).empties = s.empties ∧
    (s.takeTrap k imp cause pc val).bundle = s.bundle ∧ (s.takeTrap k imp cause pc val).cur = s.cur := by
  unfold State.takeTrap
  dsimp only
  split <;> exact ⟨rfl, rfl, rfl, rfl, rfl, rfl⟩

/-- A trapped bundle writes no memory, sends nothing, and ends trapped or held. -/
theorem State.trap_frame (s : State) (cause : BitVec 8) (val : Word) :
    (s.trap cause val).mem = s.mem ∧ (s.trap cause val).istore = s.istore ∧ (s.trap cause val).net = s.net ∧
    (s.trap cause val).empties = s.empties ∧ ((s.trap cause val).bundle = .trapped ∨ (s.trap cause val).bundle = .held) := by
  unfold State.trap
  split
  · exact ⟨rfl, rfl, rfl, rfl, .inl rfl⟩
  · split
    · have h := State.takeTrap_frame (s.mod (·.landAll false)) s.cur false cause s.cc.main.pc val
      exact ⟨h.1, h.2.1, h.2.2.1, h.2.2.2.1, .inl rfl⟩
    · exact ⟨rfl, rfl, rfl, rfl, .inr rfl⟩

@[simp] theorem State.trap_mem (s : State) (cause : BitVec 8) (val : Word) : (s.trap cause val).mem = s.mem := (s.trap_frame cause val).1
@[simp] theorem State.trap_istore (s : State) (cause : BitVec 8) (val : Word) : (s.trap cause val).istore = s.istore :=
  (s.trap_frame cause val).2.1
@[simp] theorem State.trap_net (s : State) (cause : BitVec 8) (val : Word) : (s.trap cause val).net = s.net := (s.trap_frame cause val).2.2.1
@[simp] theorem State.illegal_mem (s : State) : s.illegal.mem = s.mem := s.trap_mem _ _
@[simp] theorem State.illegal_istore (s : State) : s.illegal.istore = s.istore := s.trap_istore _ _

/-- An event at a boundary writes no memory and sends nothing. -/
theorem State.takeEvent_frame (s : State) (k : CoreIx) (e : Event) :
    (s.takeEvent k e).mem = s.mem ∧ (s.takeEvent k e).istore = s.istore ∧ (s.takeEvent k e).net = s.net := by
  unfold State.takeEvent
  have h := fun (c : Core) (imp : Bool) (cause : BitVec 8) (pc : Pc) (val : Word) =>
    State.takeTrap_frame (s.setCore k (c.landAll false)) k imp cause pc val
  exact ⟨(h _ _ _ _ _).1, (h _ _ _ _ _).2.1, (h _ _ _ _ _).2.2.1⟩

/-! ## Results (spec/07 R94) -/

/-- A fixed-latency result is written, or the handler faults at a register that is not banked. -/
theorem State.putX_spec (s : State) (d : XReg) (w : Word) :
    (s.mayX d = true → s.putX d w = .next (s.wx d w)) ∧ (s.mayX d = false → s.putX d w = .next s.forbidden) := by
  unfold State.putX
  exact ⟨fun h => by rw [h]; rfl, fun h => by rw [h]; rfl⟩

theorem State.putF_spec (s : State) (d : FReg) (w : Half) :
    (s.curH = false → s.putF d w = .next (s.wf d w)) ∧ (s.curH = true → s.putF d w = .next s.forbidden) := by
  unfold State.putF
  exact ⟨fun h => by rw [h]; rfl, fun h => by rw [h]; rfl⟩

/-- A result that is known at issue is owed, if its register may be written and there is room for it. -/
theorem State.flyOk_spec (s s' : State) (d : XReg) (w : Word) :
    (s.mayX d = false → s.flyOk d w s' = .next s.forbidden) ∧
    (s.mayX d = true → s.room 1 = true → s.flyOk d w s' = .next (s'.flyX d w)) ∧
    (s.mayX d = true → s.room 1 = false → s.flyOk d w s' = .next s.hold) := by
  unfold State.flyOk
  exact ⟨fun h => by rw [h]; rfl, fun h k => by rw [h, k]; rfl, fun h k => by rw [h, k]; rfl⟩

end Sys2Proof.Machine
end

