-- ==== Sys2Proof/Laws/Canonical.lean ====
section
/-!
SUPPORT. Every operation that writes memory or an instruction store keeps the canonical form (`State.Canonical`); an operation that
writes neither keeps it because both are equal before and after (`State.Canonical.of_eq`).
-/

namespace Sys2Proof.Machine

/-- An entry of a table after a put is the new one or one from before. -/
theorem mem_put {α : Type} {l : Assoc α} {k : Nat} {a : α} {p : Nat × α} (h : p ∈ put l k a) : p = (k, a) ∨ p ∈ l := by
  induction l with
  | nil => exact .inl (by simpa [put] using h)
  | cons q r ih =>
    obtain ⟨k', b⟩ := q
    unfold put at h
    split at h
    · rcases List.mem_cons.mp h with h | h
      · exact .inl h
      · exact .inr (List.mem_cons_of_mem _ h)
    · split at h
      · rcases List.mem_cons.mp h with h | h
        · exact .inl h
        · exact .inr h
      · rcases List.mem_cons.mp h with h | h
        · exact .inr (h ▸ List.mem_cons_self ..)
        · exact (ih h).imp_right (List.mem_cons_of_mem _)

theorem State.Canonical.of_eq {s t : State} (h : s.Canonical) (hm : t.mem = s.mem) (hi : t.istore = s.istore) : t.Canonical := by
  unfold State.Canonical; rw [hm, hi]; exact h

theorem State.touch_istore (s : State) (a n : Nat) : (s.touch a n).istore = s.istore := by
  simp only [State.touch]
  split
  · split
    · rfl
    · split <;> rfl
  · rfl

theorem State.Canonical.touch {s : State} (h : s.Canonical) (a n : Nat) : (s.touch a n).Canonical :=
  h.of_eq (State.touch_mem s a n) (State.touch_istore s a n)

theorem State.Canonical.store {s : State} (h : s.Canonical) (a n v : Nat) : (s.store a n v).Canonical :=
  ⟨State.store_wf h.1 a n v, by
    show ∀ p ∈ (State.touch _ a n).istore, _
    rw [State.touch_istore]; exact h.2⟩

theorem State.Canonical.copyImage {s : State} (h : s.Canonical) (src dst n : Nat) : (s.copyImage src dst n).Canonical :=
  ⟨State.copyImage_wf h.1 src dst n, h.2⟩

theorem State.Canonical.clearImage {s : State} (h : s.Canonical) (a n : Nat) : (s.clearImage a n).Canonical :=
  ⟨State.clearImage_wf h.1 a n, h.2⟩

theorem State.Canonical.feImage {s : State} (h : s.Canonical) (w dst n : Nat) : (s.feImage w dst n).Canonical :=
  ⟨State.feImage_wf h.1 w dst n, h.2⟩

theorem State.Canonical.clearWindow {s : State} (h : s.Canonical) (k : CoreIx) : (s.clearWindow k).Canonical :=
  ⟨State.clearWindow_wf h.1 k, h.2⟩

/-- A text that is loaded into a cluster's store is canonical. -/
theorem textCells_wf (ws : List Word) {l : List Host.Cell} (h : Memory.wf l = true) (a : Nat) :
    Memory.wf (ws.foldl (fun (m : List Host.Cell × Nat) w => (writeLE m.1 m.2 8 w.toNat, m.2 + 8)) (l, a)).1 = true := by
  induction ws generalizing l a with
  | nil => exact h
  | cons w r ih => exact ih (writeLE_wf h _ _ _) _

/-- A cluster's store that is replaced by a canonical one. -/
theorem State.Canonical.putText {s : State} (h : s.Canonical) (cl : Nat) {cells : List Host.Cell} (hc : Memory.wf cells = true) :
    ({ s with istore := put s.istore cl cells } : State).Canonical :=
  ⟨h.1, fun p hp => by
    rcases mem_put hp with e | e
    · rw [e]; exact hc
    · exact h.2 p e⟩

theorem Memory.wf_look {l : Assoc (List Host.Cell)} (h : ∀ p ∈ l, Memory.wf p.2 = true) (k : Nat) : Memory.wf (look [] l k) = true := by
  induction l with
  | nil => rfl
  | cons p r ih =>
    obtain ⟨k', b⟩ := p
    unfold look
    split
    · exact h (k', b) (List.mem_cons_self ..)
    · exact ih fun p hp => h p (List.mem_cons_of_mem _ hp)

theorem State.Canonical.setCore {s : State} (h : s.Canonical) (k : CoreIx) (c : Core) : (s.setCore k c).Canonical := h
theorem State.Canonical.modCore {s : State} (h : s.Canonical) (k : CoreIx) (f : Core → Core) : (s.modCore k f).Canonical := h
theorem State.Canonical.mod {s : State} (h : s.Canonical) (f : Core → Core) : (s.mod f).Canonical := h
theorem State.Canonical.hold {s : State} (h : s.Canonical) : s.hold.Canonical := h
theorem State.Canonical.forbidden {s : State} (h : s.Canonical) : s.forbidden.Canonical := h
theorem State.Canonical.place {s : State} (h : s.Canonical) (k : CoreIx) (ms : List Msg) (a : PlaceAct) : (s.place k ms a).Canonical := h
theorem State.Canonical.pulse {s : State} (h : s.Canonical) (k : CoreIx) (src arg : Nat) : (s.pulse k src arg).Canonical := h

theorem State.Canonical.trap {s : State} (h : s.Canonical) (cause : BitVec 8) (val : Word) : (s.trap cause val).Canonical :=
  h.of_eq (State.trap_mem s cause val) (State.trap_istore s cause val)

theorem State.Canonical.takeEvent {s : State} (h : s.Canonical) (k : CoreIx) (e : Event) : (s.takeEvent k e).Canonical :=
  h.of_eq (State.takeEvent_frame s k e).1 (State.takeEvent_frame s k e).2.1

end Sys2Proof.Machine
end

