-- ==== Sys2Proof/Laws/Fields.lean ====
section
/-!
SUPPORT. Decoding an encoded instruction gives it back: the fields of every format, and one lemma per instruction.
-/

set_option Elab.async false
set_option linter.unusedSimpArgs false
set_option linter.unusedTactic false
set_option linter.unreachableTactic false

namespace Sys2Proof.Laws

/-! ## Codes and their tables -/

theorem buf_lt (b : Buf) : b.code < 4 := by cases b <;> decide
theorem rclass_lt (b : RClass) : b.code < 3 := by cases b <;> decide
theorem esz_lt (b : Esz) : b.code < 4 := by cases b <;> decide
theorem sm_lt (b : Sm) : b.code < 4 := by cases b <;> decide
theorem rm_lt (b : Rm) : b.code < 8 := by cases b <;> decide
theorem dir_lt (b : Dir) : b.code < 4 := by cases b <;> decide
theorem loadFe_lt (b : LoadFe) : b.code < 8 := by cases b <;> decide
theorem storeFe_lt (b : StoreFe) : b.code < 8 := by cases b <;> decide
theorem intEt_lt (b : IntEt) : b.code < 8 := by cases b <;> decide
theorem fpEt_lt (b : FpEt) : b.code < 8 := by cases b <;> decide
theorem et_lt (b : Et) : b.code < 8 := by cases b with | int t => exact intEt_lt t | fp t => exact fpEt_lt t
theorem ldWidth_lt (c : LdWidth) : c.code < 16 := by cases c <;> decide
theorem stWidth_lt (c : StWidth) : c.code < 16 := by cases c <;> decide
theorem partMode_lt (b : PartMode) : b.code < 4 := by cases b <;> decide
theorem cc_lt (b : Cc) : b.code < 32 := by cases b <;> decide
theorem intRed_lt (b : IntRed) : b.code < 32 := by cases b <;> decide
theorem fpRed_lt (b : FpRed) : b.code < 32 := by cases b <;> decide
theorem fmt_lt (f : Fmt) : f.code < 128 := by
  cases f with
  | b8 p n g => have := p.isLt; have := n.toNat_lt; have := g.toNat_lt; simp only [Fmt.code]; omega
  | _ => decide
theorem creg_lt (c : CReg) : c.code < 256 := by
  cases c with
  | gmem i | gscope i | cpStride i | cpCount i | strmCfg i | strmStr i | strmCnt i | relayCnt i | relayTerm i =>
    have := i.isLt; simp only [CReg.code]; omega
  | _ => decide

theorem bufOf_code (b : Buf) : bufOf b.code = b := by cases b <;> rfl
theorem classOf_code (b : RClass) : classOf b.code = .ok b := by cases b <;> rfl
theorem loadFeOf_code (b : LoadFe) : loadFeOf b.code = .ok b := by cases b <;> rfl
theorem storeFeOf_code (b : StoreFe) : storeFeOf b.code = .ok b := by cases b <;> rfl
theorem intEtOf_code (b : IntEt) : intEtOf b.code = .ok b := by cases b <;> rfl
theorem fpEtOf_code (b : FpEt) : fpEtOf b.code = .ok b := by cases b <;> rfl
theorem etOf_code (b : Et) : etOf b.code = .ok b := by cases b with | int t => cases t <;> rfl | fp t => cases t <;> rfl
theorem rmOf_code (b : Rm) : rmOf b.code = .ok b := by cases b <;> rfl
theorem smOf_code (b : Sm) : smOf b.code = .ok b := by cases b <;> rfl
theorem eszOf_code (b : Esz) : eszOf b.code = b := by cases b <;> rfl
theorem dirOf_code (b : Dir) : dirOf b.code = b := by cases b <;> rfl
theorem ldWidthOf_code (c : LdWidth) : ldWidthOf c.code = .ok c := by cases c <;> rfl
theorem stWidthOf_code (c : StWidth) : stWidthOf c.code = .ok c := by cases c <;> rfl
theorem partModeOf_code (b : PartMode) : partModeOf b.code = .ok b := by cases b <;> rfl
theorem ccOf_code (b : Cc) : ccOf b.code = .ok b := by cases b <;> rfl
theorem fmtOf_code (f : Fmt) : fmtOf f.code = .ok f := by
  cases f with
  | b8 p n g => revert p n g; decide
  | _ => rfl
theorem cregOf_code (c : CReg) : cregOf c.code = .ok c := by
  cases c with
  | gmem i | gscope i | cpStride i | cpCount i | strmCfg i | strmStr i | strmCnt i | relayCnt i | relayTerm i => revert i; decide
  | _ => rfl

theorem toX_val (d : Fin 32) : toX d.val = d := by simp [toX]
theorem toM_val (d : MReg) : toM d.val = d := by simp [toM]
theorem getF_val (d : FReg) : getF d.val = .ok d := by simp [getF]
theorem getM_val (d : MReg) : getM d.val = .ok d := by simp [getM]
theorem freg_lt (d : FReg) : d.val < 32 := by have := d.isLt; omega
theorem mreg_lt (d : MReg) : d.val < 32 := by have := d.isLt; omega
theorem shadd_lt (n : Fin 4) : 0x028 + n.val < 2048 := by have := n.isLt; omega
theorem sh_lt (n : Fin 64) : n.val < 4096 := by have := n.isLt; omega
theorem pure_ok {α : Type} (a : α) : (pure a : Except Illegal α) = .ok a := rfl
theorem fld_li (x lo n : Nat) : fld (2147483648 + x) lo n = fld (2 ^ 31 + x) lo n := rfl
theorem mreg4_lt (d : MReg) : 4 * d.val < 32 := by have := d.isLt; omega
theorem rm_div (r : Rm) : r.code / 8 = 0 ∧ (8 + r.code) / 8 = 1 ∧ (16 + r.code) / 8 = 2 ∧ (24 + r.code) / 8 = 3 := by
  have := rm_lt r; omega
theorem rm_mod (r : Rm) : r.code % 8 = r.code ∧ (8 + r.code) % 8 = r.code ∧ (16 + r.code) % 8 = r.code ∧ (24 + r.code) % 8 = r.code := by
  have := rm_lt r; omega
theorem rm_lt5 (r : Rm) : r.code < 32 ∧ 8 + r.code < 32 ∧ 16 + r.code < 32 ∧ 24 + r.code < 32 := by
  have := rm_lt r; omega
theorem imm12_lt (x : BitVec 12) : x.toNat < 4096 := x.isLt
theorem imm8_lt (x : BitVec 8) : x.toNat < 256 := x.isLt
theorem wf_lt (b : Bool) : b.toNat < 8 := by cases b <;> decide
theorem wf_le (b : Bool) : b.toNat ≤ 1 := by cases b <;> decide
theorem wf_beq (b : Bool) : (b.toNat == 1) = b := by cases b <;> decide
theorem wf_eq (b : Bool) : (b.toNat = 1) = (b = true) := by cases b <;> decide
theorem atomFeOf_code (b : Bool) : atomFeOf b.toNat = .ok b := by cases b <;> rfl
theorem ofNat64 (n : Fin 64) : Fin.ofNat 64 (n.val % 64) = n := Fin.ext (by have := n.isLt; show n.val % 64 % 64 = n.val; omega)
theorem cast64 (n : Fin 64) : @Nat.cast (Fin 64) (Fin.NatCast.instNatCast 64) (n.val % 64) = n := Fin.ext (by have := n.isLt; show n.val % 64 % 64 = n.val; omega)
theorem need_true (e : Illegal) : need true e = .ok () := rfl
theorem ok_bind {α β : Type} (a : α) (f : α → Except Illegal β) : ((Except.ok a : Except Illegal α) >>= f) = f a := rfl

/-! ## Fields of the formats -/

theorem encCX_24_6 (mj : Nat) (d a b : Fin 32) (fn : Nat) (_h0 : mj < 64) (_h1 : fn < 512) :
    fld (encCX mj d a b fn) 24 6 = mj := by
  have := d.isLt; have := a.isLt; have := b.isLt; unfold fld encCX; omega

theorem encCX_19_5 (mj : Nat) (d a b : Fin 32) (fn : Nat) (_h0 : mj < 64) (_h1 : fn < 512) :
    fld (encCX mj d a b fn) 19 5 = d.val := by
  have := d.isLt; have := a.isLt; have := b.isLt; unfold fld encCX; omega

theorem encCX_14_5 (mj : Nat) (d a b : Fin 32) (fn : Nat) (_h0 : mj < 64) (_h1 : fn < 512) :
    fld (encCX mj d a b fn) 14 5 = a.val := by
  have := d.isLt; have := a.isLt; have := b.isLt; unfold fld encCX; omega

theorem encCX_9_5 (mj : Nat) (d a b : Fin 32) (fn : Nat) (_h0 : mj < 64) (_h1 : fn < 512) :
    fld (encCX mj d a b fn) 9 5 = b.val := by
  have := d.isLt; have := a.isLt; have := b.isLt; unfold fld encCX; omega

theorem encCX_0_9 (mj : Nat) (d a b : Fin 32) (fn : Nat) (_h0 : mj < 64) (_h1 : fn < 512) :
    fld (encCX mj d a b fn) 0 9 = fn := by
  have := d.isLt; have := a.isLt; have := b.isLt; unfold fld encCX; omega

theorem encCX_lt (mj : Nat) (d a b : Fin 32) (fn : Nat) (_h0 : mj < 64) (_h1 : fn < 512) :
    encCX mj d a b fn < 2 ^ 30 := by
  have := d.isLt; have := a.isLt; have := b.isLt; unfold encCX; omega

theorem encCG_24_6 (mj : Nat) (d a b : Fin 32) (cls : RClass) (fe op : Nat) (_h0 : mj < 64) (_h1 : fe < 8) (_h2 : op < 16) :
    fld (encCG mj d a b cls fe op) 24 6 = mj := by
  have := d.isLt; have := a.isLt; have := b.isLt; have := rclass_lt cls; unfold fld encCG; omega

theorem encCG_19_5 (mj : Nat) (d a b : Fin 32) (cls : RClass) (fe op : Nat) (_h0 : mj < 64) (_h1 : fe < 8) (_h2 : op < 16) :
    fld (encCG mj d a b cls fe op) 19 5 = d.val := by
  have := d.isLt; have := a.isLt; have := b.isLt; have := rclass_lt cls; unfold fld encCG; omega

theorem encCG_14_5 (mj : Nat) (d a b : Fin 32) (cls : RClass) (fe op : Nat) (_h0 : mj < 64) (_h1 : fe < 8) (_h2 : op < 16) :
    fld (encCG mj d a b cls fe op) 14 5 = a.val := by
  have := d.isLt; have := a.isLt; have := b.isLt; have := rclass_lt cls; unfold fld encCG; omega

theorem encCG_9_5 (mj : Nat) (d a b : Fin 32) (cls : RClass) (fe op : Nat) (_h0 : mj < 64) (_h1 : fe < 8) (_h2 : op < 16) :
    fld (encCG mj d a b cls fe op) 9 5 = b.val := by
  have := d.isLt; have := a.isLt; have := b.isLt; have := rclass_lt cls; unfold fld encCG; omega

theorem encCG_7_2 (mj : Nat) (d a b : Fin 32) (cls : RClass) (fe op : Nat) (_h0 : mj < 64) (_h1 : fe < 8) (_h2 : op < 16) :
    fld (encCG mj d a b cls fe op) 7 2 = cls.code := by
  have := d.isLt; have := a.isLt; have := b.isLt; have := rclass_lt cls; unfold fld encCG; omega

theorem encCG_4_3 (mj : Nat) (d a b : Fin 32) (cls : RClass) (fe op : Nat) (_h0 : mj < 64) (_h1 : fe < 8) (_h2 : op < 16) :
    fld (encCG mj d a b cls fe op) 4 3 = fe := by
  have := d.isLt; have := a.isLt; have := b.isLt; have := rclass_lt cls; unfold fld encCG; omega

theorem encCG_0_4 (mj : Nat) (d a b : Fin 32) (cls : RClass) (fe op : Nat) (_h0 : mj < 64) (_h1 : fe < 8) (_h2 : op < 16) :
    fld (encCG mj d a b cls fe op) 0 4 = op := by
  have := d.isLt; have := a.isLt; have := b.isLt; have := rclass_lt cls; unfold fld encCG; omega

theorem encCG_lt (mj : Nat) (d a b : Fin 32) (cls : RClass) (fe op : Nat) (_h0 : mj < 64) (_h1 : fe < 8) (_h2 : op < 16) :
    encCG mj d a b cls fe op < 2 ^ 30 := by
  have := d.isLt; have := a.isLt; have := b.isLt; have := rclass_lt cls; unfold encCG; omega

theorem encCS_24_6 (mj : Nat) (v a b : Fin 32) (buf : Buf) (m : MReg) (esz : Esz) (_h0 : mj < 64) :
    fld (encCS mj v a b buf m esz) 24 6 = mj := by
  have := v.isLt; have := a.isLt; have := b.isLt; have := buf_lt buf; have := m.isLt; have := esz_lt esz; unfold fld encCS; omega

theorem encCS_19_5 (mj : Nat) (v a b : Fin 32) (buf : Buf) (m : MReg) (esz : Esz) (_h0 : mj < 64) :
    fld (encCS mj v a b buf m esz) 19 5 = v.val := by
  have := v.isLt; have := a.isLt; have := b.isLt; have := buf_lt buf; have := m.isLt; have := esz_lt esz; unfold fld encCS; omega

theorem encCS_14_5 (mj : Nat) (v a b : Fin 32) (buf : Buf) (m : MReg) (esz : Esz) (_h0 : mj < 64) :
    fld (encCS mj v a b buf m esz) 14 5 = a.val := by
  have := v.isLt; have := a.isLt; have := b.isLt; have := buf_lt buf; have := m.isLt; have := esz_lt esz; unfold fld encCS; omega

theorem encCS_9_5 (mj : Nat) (v a b : Fin 32) (buf : Buf) (m : MReg) (esz : Esz) (_h0 : mj < 64) :
    fld (encCS mj v a b buf m esz) 9 5 = b.val := by
  have := v.isLt; have := a.isLt; have := b.isLt; have := buf_lt buf; have := m.isLt; have := esz_lt esz; unfold fld encCS; omega

theorem encCS_7_2 (mj : Nat) (v a b : Fin 32) (buf : Buf) (m : MReg) (esz : Esz) (_h0 : mj < 64) :
    fld (encCS mj v a b buf m esz) 7 2 = buf.code := by
  have := v.isLt; have := a.isLt; have := b.isLt; have := buf_lt buf; have := m.isLt; have := esz_lt esz; unfold fld encCS; omega

theorem encCS_4_3 (mj : Nat) (v a b : Fin 32) (buf : Buf) (m : MReg) (esz : Esz) (_h0 : mj < 64) :
    fld (encCS mj v a b buf m esz) 4 3 = m.val := by
  have := v.isLt; have := a.isLt; have := b.isLt; have := buf_lt buf; have := m.isLt; have := esz_lt esz; unfold fld encCS; omega

theorem encCS_2_2 (mj : Nat) (v a b : Fin 32) (buf : Buf) (m : MReg) (esz : Esz) (_h0 : mj < 64) :
    fld (encCS mj v a b buf m esz) 2 2 = esz.code := by
  have := v.isLt; have := a.isLt; have := b.isLt; have := buf_lt buf; have := m.isLt; have := esz_lt esz; unfold fld encCS; omega

theorem encCS_0_2 (mj : Nat) (v a b : Fin 32) (buf : Buf) (m : MReg) (esz : Esz) (_h0 : mj < 64) :
    fld (encCS mj v a b buf m esz) 0 2 = 0 := by
  have := v.isLt; have := a.isLt; have := b.isLt; have := buf_lt buf; have := m.isLt; have := esz_lt esz; unfold fld encCS; omega

theorem encCS_lt (mj : Nat) (v a b : Fin 32) (buf : Buf) (m : MReg) (esz : Esz) (_h0 : mj < 64) :
    encCS mj v a b buf m esz < 2 ^ 30 := by
  have := v.isLt; have := a.isLt; have := b.isLt; have := buf_lt buf; have := m.isLt; have := esz_lt esz; unfold encCS; omega

theorem encCL_24_6 (mj : Nat) (d a : Fin 32) (buf : Buf) (fe : Nat) (imm : BitVec 9) (_h0 : mj < 64) (_h1 : fe < 8) :
    fld (encCL mj d a buf fe imm) 24 6 = mj := by
  have := d.isLt; have := a.isLt; have := buf_lt buf; have := imm.isLt; unfold fld encCL; omega

theorem encCL_19_5 (mj : Nat) (d a : Fin 32) (buf : Buf) (fe : Nat) (imm : BitVec 9) (_h0 : mj < 64) (_h1 : fe < 8) :
    fld (encCL mj d a buf fe imm) 19 5 = d.val := by
  have := d.isLt; have := a.isLt; have := buf_lt buf; have := imm.isLt; unfold fld encCL; omega

theorem encCL_14_5 (mj : Nat) (d a : Fin 32) (buf : Buf) (fe : Nat) (imm : BitVec 9) (_h0 : mj < 64) (_h1 : fe < 8) :
    fld (encCL mj d a buf fe imm) 14 5 = a.val := by
  have := d.isLt; have := a.isLt; have := buf_lt buf; have := imm.isLt; unfold fld encCL; omega

theorem encCL_12_2 (mj : Nat) (d a : Fin 32) (buf : Buf) (fe : Nat) (imm : BitVec 9) (_h0 : mj < 64) (_h1 : fe < 8) :
    fld (encCL mj d a buf fe imm) 12 2 = buf.code := by
  have := d.isLt; have := a.isLt; have := buf_lt buf; have := imm.isLt; unfold fld encCL; omega

theorem encCL_9_3 (mj : Nat) (d a : Fin 32) (buf : Buf) (fe : Nat) (imm : BitVec 9) (_h0 : mj < 64) (_h1 : fe < 8) :
    fld (encCL mj d a buf fe imm) 9 3 = fe := by
  have := d.isLt; have := a.isLt; have := buf_lt buf; have := imm.isLt; unfold fld encCL; omega

theorem encCL_0_9 (mj : Nat) (d a : Fin 32) (buf : Buf) (fe : Nat) (imm : BitVec 9) (_h0 : mj < 64) (_h1 : fe < 8) :
    fld (encCL mj d a buf fe imm) 0 9 = imm.toNat := by
  have := d.isLt; have := a.isLt; have := buf_lt buf; have := imm.isLt; unfold fld encCL; omega

theorem encCL_lt (mj : Nat) (d a : Fin 32) (buf : Buf) (fe : Nat) (imm : BitVec 9) (_h0 : mj < 64) (_h1 : fe < 8) :
    encCL mj d a buf fe imm < 2 ^ 30 := by
  have := d.isLt; have := a.isLt; have := buf_lt buf; have := imm.isLt; unfold encCL; omega

theorem encCB_24_6 (mj : Nat) (a b : Fin 32) (off : BitVec 14) (_h0 : mj < 64) :
    fld (encCB mj a b off) 24 6 = mj := by
  have := a.isLt; have := b.isLt; have := off.isLt; unfold fld encCB; omega

theorem encCB_19_5 (mj : Nat) (a b : Fin 32) (off : BitVec 14) (_h0 : mj < 64) :
    fld (encCB mj a b off) 19 5 = a.val := by
  have := a.isLt; have := b.isLt; have := off.isLt; unfold fld encCB; omega

theorem encCB_14_5 (mj : Nat) (a b : Fin 32) (off : BitVec 14) (_h0 : mj < 64) :
    fld (encCB mj a b off) 14 5 = b.val := by
  have := a.isLt; have := b.isLt; have := off.isLt; unfold fld encCB; omega

theorem encCB_0_14 (mj : Nat) (a b : Fin 32) (off : BitVec 14) (_h0 : mj < 64) :
    fld (encCB mj a b off) 0 14 = off.toNat := by
  have := a.isLt; have := b.isLt; have := off.isLt; unfold fld encCB; omega

theorem encCB_lt (mj : Nat) (a b : Fin 32) (off : BitVec 14) (_h0 : mj < 64) :
    encCB mj a b off < 2 ^ 30 := by
  have := a.isLt; have := b.isLt; have := off.isLt; unfold encCB; omega

theorem encCM_24_6 (test : Nat) (m : MReg) (off : BitVec 14) (_h0 : test < 4) :
    fld (encCM test m off) 24 6 = 3 := by
  have := m.isLt; have := off.isLt; unfold fld encCM; omega

theorem encCM_21_3 (test : Nat) (m : MReg) (off : BitVec 14) (_h0 : test < 4) :
    fld (encCM test m off) 21 3 = m.val := by
  have := m.isLt; have := off.isLt; unfold fld encCM; omega

theorem encCM_19_2 (test : Nat) (m : MReg) (off : BitVec 14) (_h0 : test < 4) :
    fld (encCM test m off) 19 2 = test := by
  have := m.isLt; have := off.isLt; unfold fld encCM; omega

theorem encCM_14_5 (test : Nat) (m : MReg) (off : BitVec 14) (_h0 : test < 4) :
    fld (encCM test m off) 14 5 = 0 := by
  have := m.isLt; have := off.isLt; unfold fld encCM; omega

theorem encCM_0_14 (test : Nat) (m : MReg) (off : BitVec 14) (_h0 : test < 4) :
    fld (encCM test m off) 0 14 = off.toNat := by
  have := m.isLt; have := off.isLt; unfold fld encCM; omega

theorem encCM_lt (test : Nat) (m : MReg) (off : BitVec 14) (_h0 : test < 4) :
    encCM test m off < 2 ^ 30 := by
  have := m.isLt; have := off.isLt; unfold encCM; omega

theorem encCC_24_6 (mj : Nat) (d : Fin 32) (i : Nat) (_h0 : mj < 64) (_h1 : i < 256) :
    fld (encCC mj d i) 24 6 = mj := by
  have := d.isLt; unfold fld encCC; omega

theorem encCC_19_5 (mj : Nat) (d : Fin 32) (i : Nat) (_h0 : mj < 64) (_h1 : i < 256) :
    fld (encCC mj d i) 19 5 = d.val := by
  have := d.isLt; unfold fld encCC; omega

theorem encCC_11_8 (mj : Nat) (d : Fin 32) (i : Nat) (_h0 : mj < 64) (_h1 : i < 256) :
    fld (encCC mj d i) 11 8 = i := by
  have := d.isLt; unfold fld encCC; omega

theorem encCC_0_11 (mj : Nat) (d : Fin 32) (i : Nat) (_h0 : mj < 64) (_h1 : i < 256) :
    fld (encCC mj d i) 0 11 = 0 := by
  have := d.isLt; unfold fld encCC; omega

theorem encCC_lt (mj : Nat) (d : Fin 32) (i : Nat) (_h0 : mj < 64) (_h1 : i < 256) :
    encCC mj d i < 2 ^ 30 := by
  have := d.isLt; unfold encCC; omega

theorem encCQ_24_6 (mj : Nat) (d a : Fin 32) (g sub : Nat) (_h0 : mj < 64) (_h1 : g < 256) (_h2 : sub < 4) :
    fld (encCQ mj d a g sub) 24 6 = mj := by
  have := d.isLt; have := a.isLt; unfold fld encCQ; omega

theorem encCQ_19_5 (mj : Nat) (d a : Fin 32) (g sub : Nat) (_h0 : mj < 64) (_h1 : g < 256) (_h2 : sub < 4) :
    fld (encCQ mj d a g sub) 19 5 = d.val := by
  have := d.isLt; have := a.isLt; unfold fld encCQ; omega

theorem encCQ_14_5 (mj : Nat) (d a : Fin 32) (g sub : Nat) (_h0 : mj < 64) (_h1 : g < 256) (_h2 : sub < 4) :
    fld (encCQ mj d a g sub) 14 5 = a.val := by
  have := d.isLt; have := a.isLt; unfold fld encCQ; omega

theorem encCQ_6_8 (mj : Nat) (d a : Fin 32) (g sub : Nat) (_h0 : mj < 64) (_h1 : g < 256) (_h2 : sub < 4) :
    fld (encCQ mj d a g sub) 6 8 = g := by
  have := d.isLt; have := a.isLt; unfold fld encCQ; omega

theorem encCQ_4_2 (mj : Nat) (d a : Fin 32) (g sub : Nat) (_h0 : mj < 64) (_h1 : g < 256) (_h2 : sub < 4) :
    fld (encCQ mj d a g sub) 4 2 = sub := by
  have := d.isLt; have := a.isLt; unfold fld encCQ; omega

theorem encCQ_0_4 (mj : Nat) (d a : Fin 32) (g sub : Nat) (_h0 : mj < 64) (_h1 : g < 256) (_h2 : sub < 4) :
    fld (encCQ mj d a g sub) 0 4 = 0 := by
  have := d.isLt; have := a.isLt; unfold fld encCQ; omega

theorem encCQ_lt (mj : Nat) (d a : Fin 32) (g sub : Nat) (_h0 : mj < 64) (_h1 : g < 256) (_h2 : sub < 4) :
    encCQ mj d a g sub < 2 ^ 30 := by
  have := d.isLt; have := a.isLt; unfold encCQ; omega

theorem encCN_24_6 (mj d mode snd : Nat) (_h0 : mj < 64) (_h1 : d < 32) (_h2 : mode < 4) (_h3 : snd < 2) :
    fld (encCN mj d mode snd) 24 6 = mj := by
  unfold fld encCN; omega

theorem encCN_19_5 (mj d mode snd : Nat) (_h0 : mj < 64) (_h1 : d < 32) (_h2 : mode < 4) (_h3 : snd < 2) :
    fld (encCN mj d mode snd) 19 5 = d := by
  unfold fld encCN; omega

theorem encCN_17_2 (mj d mode snd : Nat) (_h0 : mj < 64) (_h1 : d < 32) (_h2 : mode < 4) (_h3 : snd < 2) :
    fld (encCN mj d mode snd) 17 2 = mode := by
  unfold fld encCN; omega

theorem encCN_16_1 (mj d mode snd : Nat) (_h0 : mj < 64) (_h1 : d < 32) (_h2 : mode < 4) (_h3 : snd < 2) :
    fld (encCN mj d mode snd) 16 1 = snd := by
  unfold fld encCN; omega

theorem encCN_0_16 (mj d mode snd : Nat) (_h0 : mj < 64) (_h1 : d < 32) (_h2 : mode < 4) (_h3 : snd < 2) :
    fld (encCN mj d mode snd) 0 16 = 0 := by
  unfold fld encCN; omega

theorem encCN_0_17 (mj d mode snd : Nat) (_h0 : mj < 64) (_h1 : d < 32) (_h2 : mode < 4) (_h3 : snd < 2) :
    fld (encCN mj d mode snd) 0 17 = snd * 65536 := by
  unfold fld encCN; omega

theorem encCN_lt (mj d mode snd : Nat) (_h0 : mj < 64) (_h1 : d < 32) (_h2 : mode < 4) (_h3 : snd < 2) :
    encCN mj d mode snd < 2 ^ 30 := by
  unfold encCN; omega

theorem encLI_24_6 (d mode : Nat) (_h0 : d < 32) (_h1 : mode < 4) :
    fld (2147483648 + encCN 10 d mode 0) 24 6 = 10 := by
  unfold fld encCN; omega

theorem encLI_19_5 (d mode : Nat) (_h0 : d < 32) (_h1 : mode < 4) :
    fld (2147483648 + encCN 10 d mode 0) 19 5 = d := by
  unfold fld encCN; omega

theorem encLI_17_2 (d mode : Nat) (_h0 : d < 32) (_h1 : mode < 4) :
    fld (2147483648 + encCN 10 d mode 0) 17 2 = mode := by
  unfold fld encCN; omega

theorem encLI_0_17 (d mode : Nat) (_h0 : d < 32) (_h1 : mode < 4) :
    fld (2147483648 + encCN 10 d mode 0) 0 17 = 0 := by
  unfold fld encCN; omega

theorem encLI_lt (d mode : Nat) (_h0 : d < 32) (_h1 : mode < 4) :
    2 ^ 31 + encCN 0x0A d mode 0 < 2 ^ 32 := by
  unfold encCN; omega

theorem encAR_26_6 (mj d a b fn : Nat) (_h0 : mj < 64) (_h1 : d < 32) (_h2 : a < 32) (_h3 : b < 32) (_h4 : fn < 2048) :
    fld (encAR mj d a b fn) 26 6 = mj := by
  unfold fld encAR; omega

theorem encAR_21_5 (mj d a b fn : Nat) (_h0 : mj < 64) (_h1 : d < 32) (_h2 : a < 32) (_h3 : b < 32) (_h4 : fn < 2048) :
    fld (encAR mj d a b fn) 21 5 = d := by
  unfold fld encAR; omega

theorem encAR_16_5 (mj d a b fn : Nat) (_h0 : mj < 64) (_h1 : d < 32) (_h2 : a < 32) (_h3 : b < 32) (_h4 : fn < 2048) :
    fld (encAR mj d a b fn) 16 5 = a := by
  unfold fld encAR; omega

theorem encAR_11_5 (mj d a b fn : Nat) (_h0 : mj < 64) (_h1 : d < 32) (_h2 : a < 32) (_h3 : b < 32) (_h4 : fn < 2048) :
    fld (encAR mj d a b fn) 11 5 = b := by
  unfold fld encAR; omega

theorem encAR_0_11 (mj d a b fn : Nat) (_h0 : mj < 64) (_h1 : d < 32) (_h2 : a < 32) (_h3 : b < 32) (_h4 : fn < 2048) :
    fld (encAR mj d a b fn) 0 11 = fn := by
  unfold fld encAR; omega

theorem encAR_0_16 (mj d a b fn : Nat) (_h0 : mj < 64) (_h1 : d < 32) (_h2 : a < 32) (_h3 : b < 32) (_h4 : fn < 2048) :
    fld (encAR mj d a b fn) 0 16 = b * 2048 + fn := by
  unfold fld encAR; omega

theorem encAR_5_6 (mj d a b fn : Nat) (_h0 : mj < 64) (_h1 : d < 32) (_h2 : a < 32) (_h3 : b < 32) (_h4 : fn < 2048) :
    fld (encAR mj d a b fn) 5 6 = fn / 32 := by
  unfold fld encAR; omega

theorem encAR_0_5 (mj d a b fn : Nat) (_h0 : mj < 64) (_h1 : d < 32) (_h2 : a < 32) (_h3 : b < 32) (_h4 : fn < 2048) :
    fld (encAR mj d a b fn) 0 5 = fn % 32 := by
  unfold fld encAR; omega

theorem encAR_lt (mj d a b fn : Nat) (_h0 : mj < 64) (_h1 : d < 32) (_h2 : a < 32) (_h3 : b < 32) (_h4 : fn < 2048) :
    encAR mj d a b fn < 2 ^ 32 := by
  unfold encAR; omega

theorem encAI_26_6 (d a : Fin 32) (fn imm : Nat) (_h0 : fn < 16) (_h1 : imm < 4096) :
    fld (encAI d a fn imm) 26 6 = 2 := by
  have := d.isLt; have := a.isLt; unfold fld encAI; omega

theorem encAI_21_5 (d a : Fin 32) (fn imm : Nat) (_h0 : fn < 16) (_h1 : imm < 4096) :
    fld (encAI d a fn imm) 21 5 = d.val := by
  have := d.isLt; have := a.isLt; unfold fld encAI; omega

theorem encAI_16_5 (d a : Fin 32) (fn imm : Nat) (_h0 : fn < 16) (_h1 : imm < 4096) :
    fld (encAI d a fn imm) 16 5 = a.val := by
  have := d.isLt; have := a.isLt; unfold fld encAI; omega

theorem encAI_12_4 (d a : Fin 32) (fn imm : Nat) (_h0 : fn < 16) (_h1 : imm < 4096) :
    fld (encAI d a fn imm) 12 4 = fn := by
  have := d.isLt; have := a.isLt; unfold fld encAI; omega

theorem encAI_0_12 (d a : Fin 32) (fn imm : Nat) (_h0 : fn < 16) (_h1 : imm < 4096) :
    fld (encAI d a fn imm) 0 12 = imm := by
  have := d.isLt; have := a.isLt; unfold fld encAI; omega

theorem encAI_6_6 (d a : Fin 32) (fn imm : Nat) (_h0 : fn < 16) (_h1 : imm < 4096) :
    fld (encAI d a fn imm) 6 6 = imm / 64 := by
  have := d.isLt; have := a.isLt; unfold fld encAI; omega

theorem encAI_0_6 (d a : Fin 32) (fn imm : Nat) (_h0 : fn < 16) (_h1 : imm < 4096) :
    fld (encAI d a fn imm) 0 6 = imm % 64 := by
  have := d.isLt; have := a.isLt; unfold fld encAI; omega

theorem encAI_lt (d a : Fin 32) (fn imm : Nat) (_h0 : fn < 16) (_h1 : imm < 4096) :
    encAI d a fn imm < 2 ^ 32 := by
  have := d.isLt; have := a.isLt; unfold encAI; omega

theorem encAM_26_6 (d : Fin 32) (k : Nat) (q : Fin 4) (imm : BitVec 16) (_h0 : k < 2) :
    fld (encAM d k q imm) 26 6 = 3 := by
  have := d.isLt; have := q.isLt; have := imm.isLt; unfold fld encAM; omega

theorem encAM_21_5 (d : Fin 32) (k : Nat) (q : Fin 4) (imm : BitVec 16) (_h0 : k < 2) :
    fld (encAM d k q imm) 21 5 = d.val := by
  have := d.isLt; have := q.isLt; have := imm.isLt; unfold fld encAM; omega

theorem encAM_20_1 (d : Fin 32) (k : Nat) (q : Fin 4) (imm : BitVec 16) (_h0 : k < 2) :
    fld (encAM d k q imm) 20 1 = k := by
  have := d.isLt; have := q.isLt; have := imm.isLt; unfold fld encAM; omega

theorem encAM_18_2 (d : Fin 32) (k : Nat) (q : Fin 4) (imm : BitVec 16) (_h0 : k < 2) :
    fld (encAM d k q imm) 18 2 = q.val := by
  have := d.isLt; have := q.isLt; have := imm.isLt; unfold fld encAM; omega

theorem encAM_16_2 (d : Fin 32) (k : Nat) (q : Fin 4) (imm : BitVec 16) (_h0 : k < 2) :
    fld (encAM d k q imm) 16 2 = 0 := by
  have := d.isLt; have := q.isLt; have := imm.isLt; unfold fld encAM; omega

theorem encAM_0_16 (d : Fin 32) (k : Nat) (q : Fin 4) (imm : BitVec 16) (_h0 : k < 2) :
    fld (encAM d k q imm) 0 16 = imm.toNat := by
  have := d.isLt; have := q.isLt; have := imm.isLt; unfold fld encAM; omega

theorem encAM_lt (d : Fin 32) (k : Nat) (q : Fin 4) (imm : BitVec 16) (_h0 : k < 2) :
    encAM d k q imm < 2 ^ 32 := by
  have := d.isLt; have := q.isLt; have := imm.isLt; unfold encAM; omega

theorem encAB_26_6 (d a : Fin 32) (pos lenm1 : Fin 64) (fn : Nat) (_h0 : fn < 16) :
    fld (encAB d a pos lenm1 fn) 26 6 = 4 := by
  have := d.isLt; have := a.isLt; have := pos.isLt; have := lenm1.isLt; unfold fld encAB; omega

theorem encAB_21_5 (d a : Fin 32) (pos lenm1 : Fin 64) (fn : Nat) (_h0 : fn < 16) :
    fld (encAB d a pos lenm1 fn) 21 5 = d.val := by
  have := d.isLt; have := a.isLt; have := pos.isLt; have := lenm1.isLt; unfold fld encAB; omega

theorem encAB_16_5 (d a : Fin 32) (pos lenm1 : Fin 64) (fn : Nat) (_h0 : fn < 16) :
    fld (encAB d a pos lenm1 fn) 16 5 = a.val := by
  have := d.isLt; have := a.isLt; have := pos.isLt; have := lenm1.isLt; unfold fld encAB; omega

theorem encAB_10_6 (d a : Fin 32) (pos lenm1 : Fin 64) (fn : Nat) (_h0 : fn < 16) :
    fld (encAB d a pos lenm1 fn) 10 6 = pos.val := by
  have := d.isLt; have := a.isLt; have := pos.isLt; have := lenm1.isLt; unfold fld encAB; omega

theorem encAB_4_6 (d a : Fin 32) (pos lenm1 : Fin 64) (fn : Nat) (_h0 : fn < 16) :
    fld (encAB d a pos lenm1 fn) 4 6 = lenm1.val := by
  have := d.isLt; have := a.isLt; have := pos.isLt; have := lenm1.isLt; unfold fld encAB; omega

theorem encAB_0_4 (d a : Fin 32) (pos lenm1 : Fin 64) (fn : Nat) (_h0 : fn < 16) :
    fld (encAB d a pos lenm1 fn) 0 4 = fn := by
  have := d.isLt; have := a.isLt; have := pos.isLt; have := lenm1.isLt; unfold fld encAB; omega

theorem encAB_lt (d a : Fin 32) (pos lenm1 : Fin 64) (fn : Nat) (_h0 : fn < 16) :
    encAB d a pos lenm1 fn < 2 ^ 32 := by
  have := d.isLt; have := a.isLt; have := pos.isLt; have := lenm1.isLt; unfold encAB; omega

theorem encAF_26_6 (mj d a b c rm var : Nat) (_h0 : mj < 64) (_h1 : d < 32) (_h2 : a < 32) (_h3 : b < 32) (_h4 : c < 32) (_h5 : rm < 8) (_h6 : var < 8) :
    fld (encAF mj d a b c rm var) 26 6 = mj := by
  unfold fld encAF; omega

theorem encAF_21_5 (mj d a b c rm var : Nat) (_h0 : mj < 64) (_h1 : d < 32) (_h2 : a < 32) (_h3 : b < 32) (_h4 : c < 32) (_h5 : rm < 8) (_h6 : var < 8) :
    fld (encAF mj d a b c rm var) 21 5 = d := by
  unfold fld encAF; omega

theorem encAF_16_5 (mj d a b c rm var : Nat) (_h0 : mj < 64) (_h1 : d < 32) (_h2 : a < 32) (_h3 : b < 32) (_h4 : c < 32) (_h5 : rm < 8) (_h6 : var < 8) :
    fld (encAF mj d a b c rm var) 16 5 = a := by
  unfold fld encAF; omega

theorem encAF_11_5 (mj d a b c rm var : Nat) (_h0 : mj < 64) (_h1 : d < 32) (_h2 : a < 32) (_h3 : b < 32) (_h4 : c < 32) (_h5 : rm < 8) (_h6 : var < 8) :
    fld (encAF mj d a b c rm var) 11 5 = b := by
  unfold fld encAF; omega

theorem encAF_6_5 (mj d a b c rm var : Nat) (_h0 : mj < 64) (_h1 : d < 32) (_h2 : a < 32) (_h3 : b < 32) (_h4 : c < 32) (_h5 : rm < 8) (_h6 : var < 8) :
    fld (encAF mj d a b c rm var) 6 5 = c := by
  unfold fld encAF; omega

theorem encAF_3_3 (mj d a b c rm var : Nat) (_h0 : mj < 64) (_h1 : d < 32) (_h2 : a < 32) (_h3 : b < 32) (_h4 : c < 32) (_h5 : rm < 8) (_h6 : var < 8) :
    fld (encAF mj d a b c rm var) 3 3 = rm := by
  unfold fld encAF; omega

theorem encAF_0_3 (mj d a b c rm var : Nat) (_h0 : mj < 64) (_h1 : d < 32) (_h2 : a < 32) (_h3 : b < 32) (_h4 : c < 32) (_h5 : rm < 8) (_h6 : var < 8) :
    fld (encAF mj d a b c rm var) 0 3 = var := by
  unfold fld encAF; omega

theorem encAF_lt (mj d a b c rm var : Nat) (_h0 : mj < 64) (_h1 : d < 32) (_h2 : a < 32) (_h3 : b < 32) (_h4 : c < 32) (_h5 : rm < 8) (_h6 : var < 8) :
    encAF mj d a b c rm var < 2 ^ 32 := by
  unfold encAF; omega

theorem encAC_26_6 (d a : Nat) (fmt : Fmt) (dir : Nat) (sm : Sm) (rm : Rm) (_h0 : d < 32) (_h1 : a < 32) (_h2 : dir < 2) :
    fld (encAC d a fmt dir sm rm) 26 6 = 10 := by
  have := fmt_lt fmt; have := sm_lt sm; have := rm_lt rm; unfold fld encAC; omega

theorem encAC_21_5 (d a : Nat) (fmt : Fmt) (dir : Nat) (sm : Sm) (rm : Rm) (_h0 : d < 32) (_h1 : a < 32) (_h2 : dir < 2) :
    fld (encAC d a fmt dir sm rm) 21 5 = d := by
  have := fmt_lt fmt; have := sm_lt sm; have := rm_lt rm; unfold fld encAC; omega

theorem encAC_16_5 (d a : Nat) (fmt : Fmt) (dir : Nat) (sm : Sm) (rm : Rm) (_h0 : d < 32) (_h1 : a < 32) (_h2 : dir < 2) :
    fld (encAC d a fmt dir sm rm) 16 5 = a := by
  have := fmt_lt fmt; have := sm_lt sm; have := rm_lt rm; unfold fld encAC; omega

theorem encAC_9_7 (d a : Nat) (fmt : Fmt) (dir : Nat) (sm : Sm) (rm : Rm) (_h0 : d < 32) (_h1 : a < 32) (_h2 : dir < 2) :
    fld (encAC d a fmt dir sm rm) 9 7 = fmt.code := by
  have := fmt_lt fmt; have := sm_lt sm; have := rm_lt rm; unfold fld encAC; omega

theorem encAC_8_1 (d a : Nat) (fmt : Fmt) (dir : Nat) (sm : Sm) (rm : Rm) (_h0 : d < 32) (_h1 : a < 32) (_h2 : dir < 2) :
    fld (encAC d a fmt dir sm rm) 8 1 = dir := by
  have := fmt_lt fmt; have := sm_lt sm; have := rm_lt rm; unfold fld encAC; omega

theorem encAC_6_2 (d a : Nat) (fmt : Fmt) (dir : Nat) (sm : Sm) (rm : Rm) (_h0 : d < 32) (_h1 : a < 32) (_h2 : dir < 2) :
    fld (encAC d a fmt dir sm rm) 6 2 = sm.code := by
  have := fmt_lt fmt; have := sm_lt sm; have := rm_lt rm; unfold fld encAC; omega

theorem encAC_3_3 (d a : Nat) (fmt : Fmt) (dir : Nat) (sm : Sm) (rm : Rm) (_h0 : d < 32) (_h1 : a < 32) (_h2 : dir < 2) :
    fld (encAC d a fmt dir sm rm) 3 3 = rm.code := by
  have := fmt_lt fmt; have := sm_lt sm; have := rm_lt rm; unfold fld encAC; omega

theorem encAC_0_3 (d a : Nat) (fmt : Fmt) (dir : Nat) (sm : Sm) (rm : Rm) (_h0 : d < 32) (_h1 : a < 32) (_h2 : dir < 2) :
    fld (encAC d a fmt dir sm rm) 0 3 = 0 := by
  have := fmt_lt fmt; have := sm_lt sm; have := rm_lt rm; unfold fld encAC; omega

theorem encAC_lt (d a : Nat) (fmt : Fmt) (dir : Nat) (sm : Sm) (rm : Rm) (_h0 : d < 32) (_h1 : a < 32) (_h2 : dir < 2) :
    encAC d a fmt dir sm rm < 2 ^ 32 := by
  have := fmt_lt fmt; have := sm_lt sm; have := rm_lt rm; unfold encAC; omega

theorem encAV_26_6 (mj d a b : Nat) (m : MReg) (et fn : Nat) (_h0 : mj < 64) (_h1 : d < 32) (_h2 : a < 32) (_h3 : b < 32) (_h4 : et < 8) (_h5 : fn < 32) :
    fld (encAV mj d a b m et fn) 26 6 = mj := by
  have := m.isLt; unfold fld encAV; omega

theorem encAV_21_5 (mj d a b : Nat) (m : MReg) (et fn : Nat) (_h0 : mj < 64) (_h1 : d < 32) (_h2 : a < 32) (_h3 : b < 32) (_h4 : et < 8) (_h5 : fn < 32) :
    fld (encAV mj d a b m et fn) 21 5 = d := by
  have := m.isLt; unfold fld encAV; omega

theorem encAV_16_5 (mj d a b : Nat) (m : MReg) (et fn : Nat) (_h0 : mj < 64) (_h1 : d < 32) (_h2 : a < 32) (_h3 : b < 32) (_h4 : et < 8) (_h5 : fn < 32) :
    fld (encAV mj d a b m et fn) 16 5 = a := by
  have := m.isLt; unfold fld encAV; omega

theorem encAV_11_5 (mj d a b : Nat) (m : MReg) (et fn : Nat) (_h0 : mj < 64) (_h1 : d < 32) (_h2 : a < 32) (_h3 : b < 32) (_h4 : et < 8) (_h5 : fn < 32) :
    fld (encAV mj d a b m et fn) 11 5 = b := by
  have := m.isLt; unfold fld encAV; omega

theorem encAV_8_3 (mj d a b : Nat) (m : MReg) (et fn : Nat) (_h0 : mj < 64) (_h1 : d < 32) (_h2 : a < 32) (_h3 : b < 32) (_h4 : et < 8) (_h5 : fn < 32) :
    fld (encAV mj d a b m et fn) 8 3 = m.val := by
  have := m.isLt; unfold fld encAV; omega

theorem encAV_5_3 (mj d a b : Nat) (m : MReg) (et fn : Nat) (_h0 : mj < 64) (_h1 : d < 32) (_h2 : a < 32) (_h3 : b < 32) (_h4 : et < 8) (_h5 : fn < 32) :
    fld (encAV mj d a b m et fn) 5 3 = et := by
  have := m.isLt; unfold fld encAV; omega

theorem encAV_0_5 (mj d a b : Nat) (m : MReg) (et fn : Nat) (_h0 : mj < 64) (_h1 : d < 32) (_h2 : a < 32) (_h3 : b < 32) (_h4 : et < 8) (_h5 : fn < 32) :
    fld (encAV mj d a b m et fn) 0 5 = fn := by
  have := m.isLt; unfold fld encAV; omega

theorem encAV_3_2 (mj d a b : Nat) (m : MReg) (et fn : Nat) (_h0 : mj < 64) (_h1 : d < 32) (_h2 : a < 32) (_h3 : b < 32) (_h4 : et < 8) (_h5 : fn < 32) :
    fld (encAV mj d a b m et fn) 3 2 = fn / 8 := by
  have := m.isLt; unfold fld encAV; omega

theorem encAV_0_3 (mj d a b : Nat) (m : MReg) (et fn : Nat) (_h0 : mj < 64) (_h1 : d < 32) (_h2 : a < 32) (_h3 : b < 32) (_h4 : et < 8) (_h5 : fn < 32) :
    fld (encAV mj d a b m et fn) 0 3 = fn % 8 := by
  have := m.isLt; unfold fld encAV; omega

theorem encAV_23_3 (mj d a b : Nat) (m : MReg) (et fn : Nat) (_h0 : mj < 64) (_h1 : d < 32) (_h2 : a < 32) (_h3 : b < 32) (_h4 : et < 8) (_h5 : fn < 32) :
    fld (encAV mj d a b m et fn) 23 3 = d / 4 := by
  have := m.isLt; unfold fld encAV; omega

theorem encAV_21_2 (mj d a b : Nat) (m : MReg) (et fn : Nat) (_h0 : mj < 64) (_h1 : d < 32) (_h2 : a < 32) (_h3 : b < 32) (_h4 : et < 8) (_h5 : fn < 32) :
    fld (encAV mj d a b m et fn) 21 2 = d % 4 := by
  have := m.isLt; unfold fld encAV; omega

theorem encAV_lt (mj d a b : Nat) (m : MReg) (et fn : Nat) (_h0 : mj < 64) (_h1 : d < 32) (_h2 : a < 32) (_h3 : b < 32) (_h4 : et < 8) (_h5 : fn < 32) :
    encAV mj d a b m et fn < 2 ^ 32 := by
  have := m.isLt; unfold encAV; omega

theorem encAVC_26_6 (d a : Fin 32) (t s : Fmt) (p : Fin 4) :
    fld (encAVC d a t s p) 26 6 = 24 := by
  have := d.isLt; have := a.isLt; have := fmt_lt t; have := fmt_lt s; have := p.isLt; unfold fld encAVC; omega

theorem encAVC_21_5 (d a : Fin 32) (t s : Fmt) (p : Fin 4) :
    fld (encAVC d a t s p) 21 5 = d.val := by
  have := d.isLt; have := a.isLt; have := fmt_lt t; have := fmt_lt s; have := p.isLt; unfold fld encAVC; omega

theorem encAVC_16_5 (d a : Fin 32) (t s : Fmt) (p : Fin 4) :
    fld (encAVC d a t s p) 16 5 = a.val := by
  have := d.isLt; have := a.isLt; have := fmt_lt t; have := fmt_lt s; have := p.isLt; unfold fld encAVC; omega

theorem encAVC_9_7 (d a : Fin 32) (t s : Fmt) (p : Fin 4) :
    fld (encAVC d a t s p) 9 7 = t.code := by
  have := d.isLt; have := a.isLt; have := fmt_lt t; have := fmt_lt s; have := p.isLt; unfold fld encAVC; omega

theorem encAVC_2_7 (d a : Fin 32) (t s : Fmt) (p : Fin 4) :
    fld (encAVC d a t s p) 2 7 = s.code := by
  have := d.isLt; have := a.isLt; have := fmt_lt t; have := fmt_lt s; have := p.isLt; unfold fld encAVC; omega

theorem encAVC_0_2 (d a : Fin 32) (t s : Fmt) (p : Fin 4) :
    fld (encAVC d a t s p) 0 2 = p.val := by
  have := d.isLt; have := a.isLt; have := fmt_lt t; have := fmt_lt s; have := p.isLt; unfold fld encAVC; omega

theorem encAVC_lt (d a : Fin 32) (t s : Fmt) (p : Fin 4) :
    encAVC d a t s p < 2 ^ 32 := by
  have := d.isLt; have := a.isLt; have := fmt_lt t; have := fmt_lt s; have := p.isLt; unfold encAVC; omega

theorem encAQ_26_6 (d a : Fin 32) (t : Fmt) (xs : Fin 32) :
    fld (encAQ d a t xs) 26 6 = 25 := by
  have := d.isLt; have := a.isLt; have := fmt_lt t; have := xs.isLt; unfold fld encAQ; omega

theorem encAQ_21_5 (d a : Fin 32) (t : Fmt) (xs : Fin 32) :
    fld (encAQ d a t xs) 21 5 = d.val := by
  have := d.isLt; have := a.isLt; have := fmt_lt t; have := xs.isLt; unfold fld encAQ; omega

theorem encAQ_16_5 (d a : Fin 32) (t : Fmt) (xs : Fin 32) :
    fld (encAQ d a t xs) 16 5 = a.val := by
  have := d.isLt; have := a.isLt; have := fmt_lt t; have := xs.isLt; unfold fld encAQ; omega

theorem encAQ_9_7 (d a : Fin 32) (t : Fmt) (xs : Fin 32) :
    fld (encAQ d a t xs) 9 7 = t.code := by
  have := d.isLt; have := a.isLt; have := fmt_lt t; have := xs.isLt; unfold fld encAQ; omega

theorem encAQ_4_5 (d a : Fin 32) (t : Fmt) (xs : Fin 32) :
    fld (encAQ d a t xs) 4 5 = xs.val := by
  have := d.isLt; have := a.isLt; have := fmt_lt t; have := xs.isLt; unfold fld encAQ; omega

theorem encAQ_0_4 (d a : Fin 32) (t : Fmt) (xs : Fin 32) :
    fld (encAQ d a t xs) 0 4 = 0 := by
  have := d.isLt; have := a.isLt; have := fmt_lt t; have := xs.isLt; unfold fld encAQ; omega

theorem encAQ_lt (d a : Fin 32) (t : Fmt) (xs : Fin 32) :
    encAQ d a t xs < 2 ^ 32 := by
  have := d.isLt; have := a.isLt; have := fmt_lt t; have := xs.isLt; unfold encAQ; omega

theorem encAS_26_6 (d a fn v m : Nat) (_h0 : d < 32) (_h1 : a < 32) (_h2 : fn < 8) (_h3 : v < 2) (_h4 : m < 8) :
    fld (encAS d a fn v m) 26 6 = 27 := by
  unfold fld encAS; omega

theorem encAS_21_5 (d a fn v m : Nat) (_h0 : d < 32) (_h1 : a < 32) (_h2 : fn < 8) (_h3 : v < 2) (_h4 : m < 8) :
    fld (encAS d a fn v m) 21 5 = d := by
  unfold fld encAS; omega

theorem encAS_16_5 (d a fn v m : Nat) (_h0 : d < 32) (_h1 : a < 32) (_h2 : fn < 8) (_h3 : v < 2) (_h4 : m < 8) :
    fld (encAS d a fn v m) 16 5 = a := by
  unfold fld encAS; omega

theorem encAS_13_3 (d a fn v m : Nat) (_h0 : d < 32) (_h1 : a < 32) (_h2 : fn < 8) (_h3 : v < 2) (_h4 : m < 8) :
    fld (encAS d a fn v m) 13 3 = fn := by
  unfold fld encAS; omega

theorem encAS_12_1 (d a fn v m : Nat) (_h0 : d < 32) (_h1 : a < 32) (_h2 : fn < 8) (_h3 : v < 2) (_h4 : m < 8) :
    fld (encAS d a fn v m) 12 1 = v := by
  unfold fld encAS; omega

theorem encAS_9_3 (d a fn v m : Nat) (_h0 : d < 32) (_h1 : a < 32) (_h2 : fn < 8) (_h3 : v < 2) (_h4 : m < 8) :
    fld (encAS d a fn v m) 9 3 = m := by
  unfold fld encAS; omega

theorem encAS_0_9 (d a fn v m : Nat) (_h0 : d < 32) (_h1 : a < 32) (_h2 : fn < 8) (_h3 : v < 2) (_h4 : m < 8) :
    fld (encAS d a fn v m) 0 9 = 0 := by
  unfold fld encAS; omega

theorem encAS_lt (d a fn v m : Nat) (_h0 : d < 32) (_h1 : a < 32) (_h2 : fn < 8) (_h3 : v < 2) (_h4 : m < 8) :
    encAS d a fn v m < 2 ^ 32 := by
  unfold encAS; omega

/-! ## Matrix records -/

theorem toNat_eq_one (b : Bool) : (b.toNat = 1) = (b = true) := by cases b <;> decide
theorem pair_lt (p : MmaPair) : p.opc < 256 := by
  cases p with
  | mxf4 => decide
  | f16 a w => cases a <;> cases w <;> decide
  | sf a w | si a w => have := a.isLt; have := w.isLt; simp only [MmaPair.opc]; omega
theorem pair_not (p : MmaPair) : p.opc ≠ 1 ∧ p.opc ≠ 2 ∧ p.opc ≠ 3 ∧ p.opc ≠ 4 ∧ p.opc ≠ 5 := by
  cases p with
  | mxf4 => decide
  | f16 a w => cases a <;> cases w <;> decide
  | sf a w | si a w => have := a.isLt; have := w.isLt; simp only [MmaPair.opc]; omega
theorem pairOf_opc (p : MmaPair) (h : (p != .si 0 0) = true) : pairOf p.opc = .ok p := by
  cases p with
  | mxf4 => rfl
  | f16 a w => revert a w; decide
  | sf a w => revert a w; decide
  | si a w => revert a w; decide
theorem mma_pair_wf (c : MmaCmd) (h : c.wf = true) : (c.pair != .si 0 0) = true := by
  unfold MmaCmd.wf at h
  simp only [Bool.and_eq_true] at h
  exact h.1.1.1.1.1.1.1.1.1.1.1

theorem mload_0_8 (c : MloadCmd) : fld (encodeMat (.mload c)) 0 8 = 1 := by
  have h_tag := c.tag.isLt; have h_soff := c.soff.isLt; have h_boff := c.boff.isLt; have h_sstr := c.sstr.isLt; have h_bstr := c.bstr.isLt; have b_gate := c.gate.toNat_le; have b_scw := c.scw.toNat_le
  simp only [encodeMat]; unfold fld; omega

theorem mload_16_16 (c : MloadCmd) : fld (encodeMat (.mload c)) 16 16 = c.tag.toNat := by
  have h_tag := c.tag.isLt; have h_soff := c.soff.isLt; have h_boff := c.boff.isLt; have h_sstr := c.sstr.isLt; have h_bstr := c.bstr.isLt; have b_gate := c.gate.toNat_le; have b_scw := c.scw.toNat_le
  simp only [encodeMat]; unfold fld; omega

theorem mload_9_1 (c : MloadCmd) : fld (encodeMat (.mload c)) 9 1 = c.gate.toNat := by
  have h_tag := c.tag.isLt; have h_soff := c.soff.isLt; have h_boff := c.boff.isLt; have h_sstr := c.sstr.isLt; have h_bstr := c.bstr.isLt; have b_gate := c.gate.toNat_le; have b_scw := c.scw.toNat_le
  simp only [encodeMat]; unfold fld; omega

theorem mload_11_1 (c : MloadCmd) : fld (encodeMat (.mload c)) 11 1 = c.scw.toNat := by
  have h_tag := c.tag.isLt; have h_soff := c.soff.isLt; have h_boff := c.boff.isLt; have h_sstr := c.sstr.isLt; have h_bstr := c.bstr.isLt; have b_gate := c.gate.toNat_le; have b_scw := c.scw.toNat_le
  simp only [encodeMat]; unfold fld; omega

theorem mload_84_20 (c : MloadCmd) : fld (encodeMat (.mload c)) 84 20 = c.soff.toNat := by
  have h_tag := c.tag.isLt; have h_soff := c.soff.isLt; have h_boff := c.boff.isLt; have h_sstr := c.sstr.isLt; have h_bstr := c.bstr.isLt; have b_gate := c.gate.toNat_le; have b_scw := c.scw.toNat_le
  simp only [encodeMat]; unfold fld; omega

theorem mload_64_20 (c : MloadCmd) : fld (encodeMat (.mload c)) 64 20 = c.boff.toNat := by
  have h_tag := c.tag.isLt; have h_soff := c.soff.isLt; have h_boff := c.boff.isLt; have h_sstr := c.sstr.isLt; have h_bstr := c.bstr.isLt; have b_gate := c.gate.toNat_le; have b_scw := c.scw.toNat_le
  simp only [encodeMat]; unfold fld; omega

theorem mload_168_16 (c : MloadCmd) : fld (encodeMat (.mload c)) 168 16 = c.sstr.toNat := by
  have h_tag := c.tag.isLt; have h_soff := c.soff.isLt; have h_boff := c.boff.isLt; have h_sstr := c.sstr.isLt; have h_bstr := c.bstr.isLt; have b_gate := c.gate.toNat_le; have b_scw := c.scw.toNat_le
  simp only [encodeMat]; unfold fld; omega

theorem mload_148_20 (c : MloadCmd) : fld (encodeMat (.mload c)) 148 20 = c.bstr.toNat := by
  have h_tag := c.tag.isLt; have h_soff := c.soff.isLt; have h_boff := c.boff.isLt; have h_sstr := c.sstr.isLt; have h_bstr := c.bstr.isLt; have b_gate := c.gate.toNat_le; have b_scw := c.scw.toNat_le
  simp only [encodeMat]; unfold fld; omega

theorem mload_8_1 (c : MloadCmd) : fld (encodeMat (.mload c)) 8 1 = 0 := by
  have h_tag := c.tag.isLt; have h_soff := c.soff.isLt; have h_boff := c.boff.isLt; have h_sstr := c.sstr.isLt; have h_bstr := c.bstr.isLt; have b_gate := c.gate.toNat_le; have b_scw := c.scw.toNat_le
  simp only [encodeMat]; unfold fld; omega

theorem mload_10_1 (c : MloadCmd) : fld (encodeMat (.mload c)) 10 1 = 0 := by
  have h_tag := c.tag.isLt; have h_soff := c.soff.isLt; have h_boff := c.boff.isLt; have h_sstr := c.sstr.isLt; have h_bstr := c.bstr.isLt; have b_gate := c.gate.toNat_le; have b_scw := c.scw.toNat_le
  simp only [encodeMat]; unfold fld; omega

theorem mload_12_4 (c : MloadCmd) : fld (encodeMat (.mload c)) 12 4 = 0 := by
  have h_tag := c.tag.isLt; have h_soff := c.soff.isLt; have h_boff := c.boff.isLt; have h_sstr := c.sstr.isLt; have h_bstr := c.bstr.isLt; have b_gate := c.gate.toNat_le; have b_scw := c.scw.toNat_le
  simp only [encodeMat]; unfold fld; omega

theorem mload_32_32 (c : MloadCmd) : fld (encodeMat (.mload c)) 32 32 = 0 := by
  have h_tag := c.tag.isLt; have h_soff := c.soff.isLt; have h_boff := c.boff.isLt; have h_sstr := c.sstr.isLt; have h_bstr := c.bstr.isLt; have b_gate := c.gate.toNat_le; have b_scw := c.scw.toNat_le
  simp only [encodeMat]; unfold fld; omega

theorem mload_104_24 (c : MloadCmd) : fld (encodeMat (.mload c)) 104 24 = 0 := by
  have h_tag := c.tag.isLt; have h_soff := c.soff.isLt; have h_boff := c.boff.isLt; have h_sstr := c.sstr.isLt; have h_bstr := c.bstr.isLt; have b_gate := c.gate.toNat_le; have b_scw := c.scw.toNat_le
  simp only [encodeMat]; unfold fld; omega

theorem mload_128_20 (c : MloadCmd) : fld (encodeMat (.mload c)) 128 20 = 0 := by
  have h_tag := c.tag.isLt; have h_soff := c.soff.isLt; have h_boff := c.boff.isLt; have h_sstr := c.sstr.isLt; have h_bstr := c.bstr.isLt; have b_gate := c.gate.toNat_le; have b_scw := c.scw.toNat_le
  simp only [encodeMat]; unfold fld; omega

theorem mload_184_328 (c : MloadCmd) : fld (encodeMat (.mload c)) 184 328 = 0 := by
  have h_tag := c.tag.isLt; have h_soff := c.soff.isLt; have h_boff := c.boff.isLt; have h_sstr := c.sstr.isLt; have h_bstr := c.bstr.isLt; have b_gate := c.gate.toNat_le; have b_scw := c.scw.toNat_le
  simp only [encodeMat]; unfold fld; omega

theorem mswap_0_8 (c : MswapCmd) : fld (encodeMat (.mswap c)) 0 8 = 2 := by
  have h_tag := c.tag.isLt; have b_gate := c.gate.toNat_le
  simp only [encodeMat]; unfold fld; omega

theorem mswap_16_16 (c : MswapCmd) : fld (encodeMat (.mswap c)) 16 16 = c.tag.toNat := by
  have h_tag := c.tag.isLt; have b_gate := c.gate.toNat_le
  simp only [encodeMat]; unfold fld; omega

theorem mswap_9_1 (c : MswapCmd) : fld (encodeMat (.mswap c)) 9 1 = c.gate.toNat := by
  have h_tag := c.tag.isLt; have b_gate := c.gate.toNat_le
  simp only [encodeMat]; unfold fld; omega

theorem mswap_8_1 (c : MswapCmd) : fld (encodeMat (.mswap c)) 8 1 = 0 := by
  have h_tag := c.tag.isLt; have b_gate := c.gate.toNat_le
  simp only [encodeMat]; unfold fld; omega

theorem mswap_10_6 (c : MswapCmd) : fld (encodeMat (.mswap c)) 10 6 = 0 := by
  have h_tag := c.tag.isLt; have b_gate := c.gate.toNat_le
  simp only [encodeMat]; unfold fld; omega

theorem mswap_32_480 (c : MswapCmd) : fld (encodeMat (.mswap c)) 32 480 = 0 := by
  have h_tag := c.tag.isLt; have b_gate := c.gate.toNat_le
  simp only [encodeMat]; unfold fld; omega

theorem mdrain_0_8 (c : MdrainCmd) : fld (encodeMat (.mdrain c)) 0 8 = 3 := by
  have h_tag := c.tag.isLt; have h_rows := c.rows.isLt; have h_boff := c.boff.isLt; have h_bstr := c.bstr.isLt; have h_dest := c.dest.isLt; have h_dstr := c.dstr.isLt; have b_gate := c.gate.toNat_le; have hc := rclass_lt c.cls
  simp only [encodeMat]; unfold fld; omega

theorem mdrain_16_16 (c : MdrainCmd) : fld (encodeMat (.mdrain c)) 16 16 = c.tag.toNat := by
  have h_tag := c.tag.isLt; have h_rows := c.rows.isLt; have h_boff := c.boff.isLt; have h_bstr := c.bstr.isLt; have h_dest := c.dest.isLt; have h_dstr := c.dstr.isLt; have b_gate := c.gate.toNat_le; have hc := rclass_lt c.cls
  simp only [encodeMat]; unfold fld; omega

theorem mdrain_9_1 (c : MdrainCmd) : fld (encodeMat (.mdrain c)) 9 1 = c.gate.toNat := by
  have h_tag := c.tag.isLt; have h_rows := c.rows.isLt; have h_boff := c.boff.isLt; have h_bstr := c.bstr.isLt; have h_dest := c.dest.isLt; have h_dstr := c.dstr.isLt; have b_gate := c.gate.toNat_le; have hc := rclass_lt c.cls
  simp only [encodeMat]; unfold fld; omega

theorem mdrain_104_12 (c : MdrainCmd) : fld (encodeMat (.mdrain c)) 104 12 = c.rows.toNat := by
  have h_tag := c.tag.isLt; have h_rows := c.rows.isLt; have h_boff := c.boff.isLt; have h_bstr := c.bstr.isLt; have h_dest := c.dest.isLt; have h_dstr := c.dstr.isLt; have b_gate := c.gate.toNat_le; have hc := rclass_lt c.cls
  simp only [encodeMat]; unfold fld; omega

theorem mdrain_64_20 (c : MdrainCmd) : fld (encodeMat (.mdrain c)) 64 20 = c.boff.toNat := by
  have h_tag := c.tag.isLt; have h_rows := c.rows.isLt; have h_boff := c.boff.isLt; have h_bstr := c.bstr.isLt; have h_dest := c.dest.isLt; have h_dstr := c.dstr.isLt; have b_gate := c.gate.toNat_le; have hc := rclass_lt c.cls
  simp only [encodeMat]; unfold fld; omega

theorem mdrain_148_20 (c : MdrainCmd) : fld (encodeMat (.mdrain c)) 148 20 = c.bstr.toNat := by
  have h_tag := c.tag.isLt; have h_rows := c.rows.isLt; have h_boff := c.boff.isLt; have h_bstr := c.bstr.isLt; have h_dest := c.dest.isLt; have h_dstr := c.dstr.isLt; have b_gate := c.gate.toNat_le; have hc := rclass_lt c.cls
  simp only [encodeMat]; unfold fld; omega

theorem mdrain_192_64 (c : MdrainCmd) : fld (encodeMat (.mdrain c)) 192 64 = c.dest.toNat := by
  have h_tag := c.tag.isLt; have h_rows := c.rows.isLt; have h_boff := c.boff.isLt; have h_bstr := c.bstr.isLt; have h_dest := c.dest.isLt; have h_dstr := c.dstr.isLt; have b_gate := c.gate.toNat_le; have hc := rclass_lt c.cls
  simp only [encodeMat]; unfold fld; omega

theorem mdrain_256_32 (c : MdrainCmd) : fld (encodeMat (.mdrain c)) 256 32 = c.dstr.toNat := by
  have h_tag := c.tag.isLt; have h_rows := c.rows.isLt; have h_boff := c.boff.isLt; have h_bstr := c.bstr.isLt; have h_dest := c.dest.isLt; have h_dstr := c.dstr.isLt; have b_gate := c.gate.toNat_le; have hc := rclass_lt c.cls
  simp only [encodeMat]; unfold fld; omega

theorem mdrain_288_2 (c : MdrainCmd) : fld (encodeMat (.mdrain c)) 288 2 = c.cls.code := by
  have h_tag := c.tag.isLt; have h_rows := c.rows.isLt; have h_boff := c.boff.isLt; have h_bstr := c.bstr.isLt; have h_dest := c.dest.isLt; have h_dstr := c.dstr.isLt; have b_gate := c.gate.toNat_le; have hc := rclass_lt c.cls
  simp only [encodeMat]; unfold fld; omega

theorem mdrain_8_1 (c : MdrainCmd) : fld (encodeMat (.mdrain c)) 8 1 = 0 := by
  have h_tag := c.tag.isLt; have h_rows := c.rows.isLt; have h_boff := c.boff.isLt; have h_bstr := c.bstr.isLt; have h_dest := c.dest.isLt; have h_dstr := c.dstr.isLt; have b_gate := c.gate.toNat_le; have hc := rclass_lt c.cls
  simp only [encodeMat]; unfold fld; omega

theorem mdrain_10_6 (c : MdrainCmd) : fld (encodeMat (.mdrain c)) 10 6 = 0 := by
  have h_tag := c.tag.isLt; have h_rows := c.rows.isLt; have h_boff := c.boff.isLt; have h_bstr := c.bstr.isLt; have h_dest := c.dest.isLt; have h_dstr := c.dstr.isLt; have b_gate := c.gate.toNat_le; have hc := rclass_lt c.cls
  simp only [encodeMat]; unfold fld; omega

theorem mdrain_32_32 (c : MdrainCmd) : fld (encodeMat (.mdrain c)) 32 32 = 0 := by
  have h_tag := c.tag.isLt; have h_rows := c.rows.isLt; have h_boff := c.boff.isLt; have h_bstr := c.bstr.isLt; have h_dest := c.dest.isLt; have h_dstr := c.dstr.isLt; have b_gate := c.gate.toNat_le; have hc := rclass_lt c.cls
  simp only [encodeMat]; unfold fld; omega

theorem mdrain_84_20 (c : MdrainCmd) : fld (encodeMat (.mdrain c)) 84 20 = 0 := by
  have h_tag := c.tag.isLt; have h_rows := c.rows.isLt; have h_boff := c.boff.isLt; have h_bstr := c.bstr.isLt; have h_dest := c.dest.isLt; have h_dstr := c.dstr.isLt; have b_gate := c.gate.toNat_le; have hc := rclass_lt c.cls
  simp only [encodeMat]; unfold fld; omega

theorem mdrain_116_12 (c : MdrainCmd) : fld (encodeMat (.mdrain c)) 116 12 = 0 := by
  have h_tag := c.tag.isLt; have h_rows := c.rows.isLt; have h_boff := c.boff.isLt; have h_bstr := c.bstr.isLt; have h_dest := c.dest.isLt; have h_dstr := c.dstr.isLt; have b_gate := c.gate.toNat_le; have hc := rclass_lt c.cls
  simp only [encodeMat]; unfold fld; omega

theorem mdrain_128_20 (c : MdrainCmd) : fld (encodeMat (.mdrain c)) 128 20 = 0 := by
  have h_tag := c.tag.isLt; have h_rows := c.rows.isLt; have h_boff := c.boff.isLt; have h_bstr := c.bstr.isLt; have h_dest := c.dest.isLt; have h_dstr := c.dstr.isLt; have b_gate := c.gate.toNat_le; have hc := rclass_lt c.cls
  simp only [encodeMat]; unfold fld; omega

theorem mdrain_168_24 (c : MdrainCmd) : fld (encodeMat (.mdrain c)) 168 24 = 0 := by
  have h_tag := c.tag.isLt; have h_rows := c.rows.isLt; have h_boff := c.boff.isLt; have h_bstr := c.bstr.isLt; have h_dest := c.dest.isLt; have h_dstr := c.dstr.isLt; have b_gate := c.gate.toNat_le; have hc := rclass_lt c.cls
  simp only [encodeMat]; unfold fld; omega

theorem mdrain_290_222 (c : MdrainCmd) : fld (encodeMat (.mdrain c)) 290 222 = 0 := by
  have h_tag := c.tag.isLt; have h_rows := c.rows.isLt; have h_boff := c.boff.isLt; have h_bstr := c.bstr.isLt; have h_dest := c.dest.isLt; have h_dstr := c.dstr.isLt; have b_gate := c.gate.toNat_le; have hc := rclass_lt c.cls
  simp only [encodeMat]; unfold fld; omega

theorem mzero_0_8 (c : MzeroCmd) : fld (encodeMat (.mzero c)) 0 8 = 4 := by
  have h_tag := c.tag.isLt; have h_rows := c.rows.isLt; have h_boff := c.boff.isLt; have h_bstr := c.bstr.isLt; have b_gate := c.gate.toNat_le
  simp only [encodeMat]; unfold fld; omega

theorem mzero_16_16 (c : MzeroCmd) : fld (encodeMat (.mzero c)) 16 16 = c.tag.toNat := by
  have h_tag := c.tag.isLt; have h_rows := c.rows.isLt; have h_boff := c.boff.isLt; have h_bstr := c.bstr.isLt; have b_gate := c.gate.toNat_le
  simp only [encodeMat]; unfold fld; omega

theorem mzero_9_1 (c : MzeroCmd) : fld (encodeMat (.mzero c)) 9 1 = c.gate.toNat := by
  have h_tag := c.tag.isLt; have h_rows := c.rows.isLt; have h_boff := c.boff.isLt; have h_bstr := c.bstr.isLt; have b_gate := c.gate.toNat_le
  simp only [encodeMat]; unfold fld; omega

theorem mzero_104_12 (c : MzeroCmd) : fld (encodeMat (.mzero c)) 104 12 = c.rows.toNat := by
  have h_tag := c.tag.isLt; have h_rows := c.rows.isLt; have h_boff := c.boff.isLt; have h_bstr := c.bstr.isLt; have b_gate := c.gate.toNat_le
  simp only [encodeMat]; unfold fld; omega

theorem mzero_64_20 (c : MzeroCmd) : fld (encodeMat (.mzero c)) 64 20 = c.boff.toNat := by
  have h_tag := c.tag.isLt; have h_rows := c.rows.isLt; have h_boff := c.boff.isLt; have h_bstr := c.bstr.isLt; have b_gate := c.gate.toNat_le
  simp only [encodeMat]; unfold fld; omega

theorem mzero_148_20 (c : MzeroCmd) : fld (encodeMat (.mzero c)) 148 20 = c.bstr.toNat := by
  have h_tag := c.tag.isLt; have h_rows := c.rows.isLt; have h_boff := c.boff.isLt; have h_bstr := c.bstr.isLt; have b_gate := c.gate.toNat_le
  simp only [encodeMat]; unfold fld; omega

theorem mzero_8_1 (c : MzeroCmd) : fld (encodeMat (.mzero c)) 8 1 = 0 := by
  have h_tag := c.tag.isLt; have h_rows := c.rows.isLt; have h_boff := c.boff.isLt; have h_bstr := c.bstr.isLt; have b_gate := c.gate.toNat_le
  simp only [encodeMat]; unfold fld; omega

theorem mzero_10_6 (c : MzeroCmd) : fld (encodeMat (.mzero c)) 10 6 = 0 := by
  have h_tag := c.tag.isLt; have h_rows := c.rows.isLt; have h_boff := c.boff.isLt; have h_bstr := c.bstr.isLt; have b_gate := c.gate.toNat_le
  simp only [encodeMat]; unfold fld; omega

theorem mzero_32_32 (c : MzeroCmd) : fld (encodeMat (.mzero c)) 32 32 = 0 := by
  have h_tag := c.tag.isLt; have h_rows := c.rows.isLt; have h_boff := c.boff.isLt; have h_bstr := c.bstr.isLt; have b_gate := c.gate.toNat_le
  simp only [encodeMat]; unfold fld; omega

theorem mzero_84_20 (c : MzeroCmd) : fld (encodeMat (.mzero c)) 84 20 = 0 := by
  have h_tag := c.tag.isLt; have h_rows := c.rows.isLt; have h_boff := c.boff.isLt; have h_bstr := c.bstr.isLt; have b_gate := c.gate.toNat_le
  simp only [encodeMat]; unfold fld; omega

theorem mzero_116_12 (c : MzeroCmd) : fld (encodeMat (.mzero c)) 116 12 = 0 := by
  have h_tag := c.tag.isLt; have h_rows := c.rows.isLt; have h_boff := c.boff.isLt; have h_bstr := c.bstr.isLt; have b_gate := c.gate.toNat_le
  simp only [encodeMat]; unfold fld; omega

theorem mzero_128_20 (c : MzeroCmd) : fld (encodeMat (.mzero c)) 128 20 = 0 := by
  have h_tag := c.tag.isLt; have h_rows := c.rows.isLt; have h_boff := c.boff.isLt; have h_bstr := c.bstr.isLt; have b_gate := c.gate.toNat_le
  simp only [encodeMat]; unfold fld; omega

theorem mzero_168_344 (c : MzeroCmd) : fld (encodeMat (.mzero c)) 168 344 = 0 := by
  have h_tag := c.tag.isLt; have h_rows := c.rows.isLt; have h_boff := c.boff.isLt; have h_bstr := c.bstr.isLt; have b_gate := c.gate.toNat_le
  simp only [encodeMat]; unfold fld; omega

theorem mshape_0_8 (c : MshapeCmd) : fld (encodeMat (.mshape c)) 0 8 = 5 := by
  have h_tag := c.tag.isLt; have h_bands := c.bands.isLt; have b_gate := c.gate.toNat_le
  simp only [encodeMat]; unfold fld; omega

theorem mshape_16_16 (c : MshapeCmd) : fld (encodeMat (.mshape c)) 16 16 = c.tag.toNat := by
  have h_tag := c.tag.isLt; have h_bands := c.bands.isLt; have b_gate := c.gate.toNat_le
  simp only [encodeMat]; unfold fld; omega

theorem mshape_9_1 (c : MshapeCmd) : fld (encodeMat (.mshape c)) 9 1 = c.gate.toNat := by
  have h_tag := c.tag.isLt; have h_bands := c.bands.isLt; have b_gate := c.gate.toNat_le
  simp only [encodeMat]; unfold fld; omega

theorem mshape_12_4 (c : MshapeCmd) : fld (encodeMat (.mshape c)) 12 4 = c.bands.toNat := by
  have h_tag := c.tag.isLt; have h_bands := c.bands.isLt; have b_gate := c.gate.toNat_le
  simp only [encodeMat]; unfold fld; omega

theorem mshape_8_1 (c : MshapeCmd) : fld (encodeMat (.mshape c)) 8 1 = 0 := by
  have h_tag := c.tag.isLt; have h_bands := c.bands.isLt; have b_gate := c.gate.toNat_le
  simp only [encodeMat]; unfold fld; omega

theorem mshape_10_2 (c : MshapeCmd) : fld (encodeMat (.mshape c)) 10 2 = 0 := by
  have h_tag := c.tag.isLt; have h_bands := c.bands.isLt; have b_gate := c.gate.toNat_le
  simp only [encodeMat]; unfold fld; omega

theorem mshape_32_480 (c : MshapeCmd) : fld (encodeMat (.mshape c)) 32 480 = 0 := by
  have h_tag := c.tag.isLt; have h_bands := c.bands.isLt; have b_gate := c.gate.toNat_le
  simp only [encodeMat]; unfold fld; omega

theorem mma_0_8 (c : MmaCmd) : fld (encodeMat (.mma c)) 0 8 = c.pair.opc := by
  have h_cscale := c.cscale.isLt; have h_tag := c.tag.isLt; have h_k := c.k.isLt; have h_rows := c.rows.isLt; have h_soff := c.soff.isLt; have h_boff := c.boff.isLt; have h_sstr := c.sstr.isLt; have h_bstr := c.bstr.isLt; have h_coff := c.coff.isLt; have b_sca := c.sca.toNat_le; have b_gate := c.gate.toNat_le; have b_swap := c.swap.toNat_le; have hp := pair_lt c.pair
  simp only [encodeMat]; unfold fld; omega

theorem mma_16_16 (c : MmaCmd) : fld (encodeMat (.mma c)) 16 16 = c.tag.toNat := by
  have h_cscale := c.cscale.isLt; have h_tag := c.tag.isLt; have h_k := c.k.isLt; have h_rows := c.rows.isLt; have h_soff := c.soff.isLt; have h_boff := c.boff.isLt; have h_sstr := c.sstr.isLt; have h_bstr := c.bstr.isLt; have h_coff := c.coff.isLt; have b_sca := c.sca.toNat_le; have b_gate := c.gate.toNat_le; have b_swap := c.swap.toNat_le; have hp := pair_lt c.pair
  simp only [encodeMat]; unfold fld; omega

theorem mma_9_1 (c : MmaCmd) : fld (encodeMat (.mma c)) 9 1 = c.gate.toNat := by
  have h_cscale := c.cscale.isLt; have h_tag := c.tag.isLt; have h_k := c.k.isLt; have h_rows := c.rows.isLt; have h_soff := c.soff.isLt; have h_boff := c.boff.isLt; have h_sstr := c.sstr.isLt; have h_bstr := c.bstr.isLt; have h_coff := c.coff.isLt; have b_sca := c.sca.toNat_le; have b_gate := c.gate.toNat_le; have b_swap := c.swap.toNat_le; have hp := pair_lt c.pair
  simp only [encodeMat]; unfold fld; omega

theorem mma_10_1 (c : MmaCmd) : fld (encodeMat (.mma c)) 10 1 = c.sca.toNat := by
  have h_cscale := c.cscale.isLt; have h_tag := c.tag.isLt; have h_k := c.k.isLt; have h_rows := c.rows.isLt; have h_soff := c.soff.isLt; have h_boff := c.boff.isLt; have h_sstr := c.sstr.isLt; have h_bstr := c.bstr.isLt; have h_coff := c.coff.isLt; have b_sca := c.sca.toNat_le; have b_gate := c.gate.toNat_le; have b_swap := c.swap.toNat_le; have hp := pair_lt c.pair
  simp only [encodeMat]; unfold fld; omega

theorem mma_8_1 (c : MmaCmd) : fld (encodeMat (.mma c)) 8 1 = c.swap.toNat := by
  have h_cscale := c.cscale.isLt; have h_tag := c.tag.isLt; have h_k := c.k.isLt; have h_rows := c.rows.isLt; have h_soff := c.soff.isLt; have h_boff := c.boff.isLt; have h_sstr := c.sstr.isLt; have h_bstr := c.bstr.isLt; have h_coff := c.coff.isLt; have b_sca := c.sca.toNat_le; have b_gate := c.gate.toNat_le; have b_swap := c.swap.toNat_le; have hp := pair_lt c.pair
  simp only [encodeMat]; unfold fld; omega

theorem mma_32_32 (c : MmaCmd) : fld (encodeMat (.mma c)) 32 32 = c.cscale.toNat := by
  have h_cscale := c.cscale.isLt; have h_tag := c.tag.isLt; have h_k := c.k.isLt; have h_rows := c.rows.isLt; have h_soff := c.soff.isLt; have h_boff := c.boff.isLt; have h_sstr := c.sstr.isLt; have h_bstr := c.bstr.isLt; have h_coff := c.coff.isLt; have b_sca := c.sca.toNat_le; have b_gate := c.gate.toNat_le; have b_swap := c.swap.toNat_le; have hp := pair_lt c.pair
  simp only [encodeMat]; unfold fld; omega

theorem mma_116_9 (c : MmaCmd) : fld (encodeMat (.mma c)) 116 9 = c.k.toNat := by
  have h_cscale := c.cscale.isLt; have h_tag := c.tag.isLt; have h_k := c.k.isLt; have h_rows := c.rows.isLt; have h_soff := c.soff.isLt; have h_boff := c.boff.isLt; have h_sstr := c.sstr.isLt; have h_bstr := c.bstr.isLt; have h_coff := c.coff.isLt; have b_sca := c.sca.toNat_le; have b_gate := c.gate.toNat_le; have b_swap := c.swap.toNat_le; have hp := pair_lt c.pair
  simp only [encodeMat]; unfold fld; omega

theorem mma_104_12 (c : MmaCmd) : fld (encodeMat (.mma c)) 104 12 = c.rows.toNat := by
  have h_cscale := c.cscale.isLt; have h_tag := c.tag.isLt; have h_k := c.k.isLt; have h_rows := c.rows.isLt; have h_soff := c.soff.isLt; have h_boff := c.boff.isLt; have h_sstr := c.sstr.isLt; have h_bstr := c.bstr.isLt; have h_coff := c.coff.isLt; have b_sca := c.sca.toNat_le; have b_gate := c.gate.toNat_le; have b_swap := c.swap.toNat_le; have hp := pair_lt c.pair
  simp only [encodeMat]; unfold fld; omega

theorem mma_84_20 (c : MmaCmd) : fld (encodeMat (.mma c)) 84 20 = c.soff.toNat := by
  have h_cscale := c.cscale.isLt; have h_tag := c.tag.isLt; have h_k := c.k.isLt; have h_rows := c.rows.isLt; have h_soff := c.soff.isLt; have h_boff := c.boff.isLt; have h_sstr := c.sstr.isLt; have h_bstr := c.bstr.isLt; have h_coff := c.coff.isLt; have b_sca := c.sca.toNat_le; have b_gate := c.gate.toNat_le; have b_swap := c.swap.toNat_le; have hp := pair_lt c.pair
  simp only [encodeMat]; unfold fld; omega

theorem mma_64_20 (c : MmaCmd) : fld (encodeMat (.mma c)) 64 20 = c.boff.toNat := by
  have h_cscale := c.cscale.isLt; have h_tag := c.tag.isLt; have h_k := c.k.isLt; have h_rows := c.rows.isLt; have h_soff := c.soff.isLt; have h_boff := c.boff.isLt; have h_sstr := c.sstr.isLt; have h_bstr := c.bstr.isLt; have h_coff := c.coff.isLt; have b_sca := c.sca.toNat_le; have b_gate := c.gate.toNat_le; have b_swap := c.swap.toNat_le; have hp := pair_lt c.pair
  simp only [encodeMat]; unfold fld; omega

theorem mma_168_16 (c : MmaCmd) : fld (encodeMat (.mma c)) 168 16 = c.sstr.toNat := by
  have h_cscale := c.cscale.isLt; have h_tag := c.tag.isLt; have h_k := c.k.isLt; have h_rows := c.rows.isLt; have h_soff := c.soff.isLt; have h_boff := c.boff.isLt; have h_sstr := c.sstr.isLt; have h_bstr := c.bstr.isLt; have h_coff := c.coff.isLt; have b_sca := c.sca.toNat_le; have b_gate := c.gate.toNat_le; have b_swap := c.swap.toNat_le; have hp := pair_lt c.pair
  simp only [encodeMat]; unfold fld; omega

theorem mma_148_20 (c : MmaCmd) : fld (encodeMat (.mma c)) 148 20 = c.bstr.toNat := by
  have h_cscale := c.cscale.isLt; have h_tag := c.tag.isLt; have h_k := c.k.isLt; have h_rows := c.rows.isLt; have h_soff := c.soff.isLt; have h_boff := c.boff.isLt; have h_sstr := c.sstr.isLt; have h_bstr := c.bstr.isLt; have h_coff := c.coff.isLt; have b_sca := c.sca.toNat_le; have b_gate := c.gate.toNat_le; have b_swap := c.swap.toNat_le; have hp := pair_lt c.pair
  simp only [encodeMat]; unfold fld; omega

theorem mma_128_20 (c : MmaCmd) : fld (encodeMat (.mma c)) 128 20 = c.coff.toNat := by
  have h_cscale := c.cscale.isLt; have h_tag := c.tag.isLt; have h_k := c.k.isLt; have h_rows := c.rows.isLt; have h_soff := c.soff.isLt; have h_boff := c.boff.isLt; have h_sstr := c.sstr.isLt; have h_bstr := c.bstr.isLt; have h_coff := c.coff.isLt; have b_sca := c.sca.toNat_le; have b_gate := c.gate.toNat_le; have b_swap := c.swap.toNat_le; have hp := pair_lt c.pair
  simp only [encodeMat]; unfold fld; omega

theorem mma_11_5 (c : MmaCmd) : fld (encodeMat (.mma c)) 11 5 = 0 := by
  have h_cscale := c.cscale.isLt; have h_tag := c.tag.isLt; have h_k := c.k.isLt; have h_rows := c.rows.isLt; have h_soff := c.soff.isLt; have h_boff := c.boff.isLt; have h_sstr := c.sstr.isLt; have h_bstr := c.bstr.isLt; have h_coff := c.coff.isLt; have b_sca := c.sca.toNat_le; have b_gate := c.gate.toNat_le; have b_swap := c.swap.toNat_le; have hp := pair_lt c.pair
  simp only [encodeMat]; unfold fld; omega

theorem mma_125_3 (c : MmaCmd) : fld (encodeMat (.mma c)) 125 3 = 0 := by
  have h_cscale := c.cscale.isLt; have h_tag := c.tag.isLt; have h_k := c.k.isLt; have h_rows := c.rows.isLt; have h_soff := c.soff.isLt; have h_boff := c.boff.isLt; have h_sstr := c.sstr.isLt; have h_bstr := c.bstr.isLt; have h_coff := c.coff.isLt; have b_sca := c.sca.toNat_le; have b_gate := c.gate.toNat_le; have b_swap := c.swap.toNat_le; have hp := pair_lt c.pair
  simp only [encodeMat]; unfold fld; omega

theorem mma_184_328 (c : MmaCmd) : fld (encodeMat (.mma c)) 184 328 = 0 := by
  have h_cscale := c.cscale.isLt; have h_tag := c.tag.isLt; have h_k := c.k.isLt; have h_rows := c.rows.isLt; have h_soff := c.soff.isLt; have h_boff := c.boff.isLt; have h_sstr := c.sstr.isLt; have h_bstr := c.bstr.isLt; have h_coff := c.coff.isLt; have b_sca := c.sca.toNat_le; have b_gate := c.gate.toNat_le; have b_swap := c.swap.toNat_le; have hp := pair_lt c.pair
  simp only [encodeMat]; unfold fld; omega

end Sys2Proof.Laws
end

