-- ==== Sys2Proof/Laws/PerInstr.lean ====
section
/-!
SUPPORT. The family RoundTrip: one lemma per instruction.
-/

set_option Elab.async false
set_option linter.unusedSimpArgs false
set_option linter.unusedTactic false
set_option linter.unreachableTactic false

namespace Sys2Proof.Laws

/-- Decoding the words of a well-formed instruction, or its record, gives it back; what is no word has no encoding. -/
def RoundTrip.Statement (i : Instr) : Prop :=
  i.wf = true →
    match kindOf i with
    | .cWord => encodeWord i < 2 ^ 32 ∧ decodeC (encodeWord i) (litOf i) = .ok i
    | .aWord => encodeWord i < 2 ^ 32 ∧ decodeA (encodeWord i) = .ok i
    | .matrix => ∀ c, matOf i = some c → decodeMat (encodeMat c) = .ok c
    | .event => encode i = []


theorem RoundTrip.cSlotNop : RoundTrip.Statement (.cSlotNop) := by
  intro _; exact ⟨by decide, by rfl⟩

theorem RoundTrip.aSlotNop : RoundTrip.Statement (.aSlotNop) := by
  intro _; exact ⟨by decide, by rfl⟩

theorem RoundTrip.li (x1 : XReg) (x2 : Half) : RoundTrip.Statement (.li x1 x2) := by
  intro hw
  simp only [Instr.wf, Bool.and_eq_true] at hw
  refine ⟨lt_of_lt_of_le (encLI_lt _ _ ?_ ?_) (by decide), ?_⟩
  iterate 2 (first | decide | simp [Fin.is_lt] | omega)
  simp [encodeWord, litOf, decodeC, decodeLi, encLI_24_6, encLI_19_5, encLI_17_2, encLI_0_17, toX_val, mreg4_lt, ofNat64, cast64, need_true, ok_bind, pure_ok, hw]

theorem RoundTrip.liU (x1 : XReg) (x2 : Half) : RoundTrip.Statement (.liU x1 x2) := by
  intro hw
  simp only [Instr.wf, Bool.and_eq_true] at hw
  refine ⟨lt_of_lt_of_le (encLI_lt _ _ ?_ ?_) (by decide), ?_⟩
  iterate 2 (first | decide | simp [Fin.is_lt] | omega)
  simp [encodeWord, litOf, decodeC, decodeLi, encLI_24_6, encLI_19_5, encLI_17_2, encLI_0_17, toX_val, mreg4_lt, ofNat64, cast64, need_true, ok_bind, pure_ok, hw]

theorem RoundTrip.liH (x1 : XReg) (x2 : Half) : RoundTrip.Statement (.liH x1 x2) := by
  intro hw
  simp only [Instr.wf, Bool.and_eq_true] at hw
  refine ⟨lt_of_lt_of_le (encLI_lt _ _ ?_ ?_) (by decide), ?_⟩
  iterate 2 (first | decide | simp [Fin.is_lt] | omega)
  simp [encodeWord, litOf, decodeC, decodeLi, encLI_24_6, encLI_19_5, encLI_17_2, encLI_0_17, toX_val, mreg4_lt, ofNat64, cast64, need_true, ok_bind, pure_ok, hw]

theorem RoundTrip.liF (x1 : FReg) (x2 : Half) : RoundTrip.Statement (.liF x1 x2) := by
  intro hw
  simp only [Instr.wf, Bool.and_eq_true] at hw
  refine ⟨lt_of_lt_of_le (encLI_lt _ _ ?_ ?_) (by decide), ?_⟩
  iterate 2 (first | decide | simp [freg_lt, Fin.is_lt] | omega)
  simp [encodeWord, litOf, decodeC, decodeLi, encLI_24_6, encLI_19_5, encLI_17_2, encLI_0_17, getF_val, freg_lt, mreg4_lt, ofNat64, cast64, need_true, ok_bind, pure_ok, hw]

theorem RoundTrip.add (x1 : XReg) (x2 : XReg) (x3 : XReg) : RoundTrip.Statement (.add x1 x2 x3) := by
  intro hw
  simp only [Instr.wf, Bool.and_eq_true] at hw
  refine ⟨lt_of_lt_of_le (encAR_lt _ _ _ _ _ ?_ ?_ ?_ ?_ ?_) (by decide), ?_⟩
  iterate 5 (first | decide | simp [Fin.is_lt] | omega)
  simp [encodeWord, litOf, decodeA, decodeAR, encAR_26_6, encAR_21_5, encAR_16_5, encAR_11_5, encAR_0_11, encAR_0_16, encAR_5_6, encAR_0_5, toX_val, mreg4_lt, ofNat64, cast64, need_true, ok_bind, pure_ok, hw]

theorem RoundTrip.sub (x1 : XReg) (x2 : XReg) (x3 : XReg) : RoundTrip.Statement (.sub x1 x2 x3) := by
  intro hw
  simp only [Instr.wf, Bool.and_eq_true] at hw
  refine ⟨lt_of_lt_of_le (encAR_lt _ _ _ _ _ ?_ ?_ ?_ ?_ ?_) (by decide), ?_⟩
  iterate 5 (first | decide | simp [Fin.is_lt] | omega)
  simp [encodeWord, litOf, decodeA, decodeAR, encAR_26_6, encAR_21_5, encAR_16_5, encAR_11_5, encAR_0_11, encAR_0_16, encAR_5_6, encAR_0_5, toX_val, mreg4_lt, ofNat64, cast64, need_true, ok_bind, pure_ok, hw]

theorem RoundTrip.and (x1 : XReg) (x2 : XReg) (x3 : XReg) : RoundTrip.Statement (.and x1 x2 x3) := by
  intro hw
  simp only [Instr.wf, Bool.and_eq_true] at hw
  refine ⟨lt_of_lt_of_le (encAR_lt _ _ _ _ _ ?_ ?_ ?_ ?_ ?_) (by decide), ?_⟩
  iterate 5 (first | decide | simp [Fin.is_lt] | omega)
  simp [encodeWord, litOf, decodeA, decodeAR, encAR_26_6, encAR_21_5, encAR_16_5, encAR_11_5, encAR_0_11, encAR_0_16, encAR_5_6, encAR_0_5, toX_val, mreg4_lt, ofNat64, cast64, need_true, ok_bind, pure_ok, hw]

theorem RoundTrip.or (x1 : XReg) (x2 : XReg) (x3 : XReg) : RoundTrip.Statement (.or x1 x2 x3) := by
  intro hw
  simp only [Instr.wf, Bool.and_eq_true] at hw
  refine ⟨lt_of_lt_of_le (encAR_lt _ _ _ _ _ ?_ ?_ ?_ ?_ ?_) (by decide), ?_⟩
  iterate 5 (first | decide | simp [Fin.is_lt] | omega)
  simp [encodeWord, litOf, decodeA, decodeAR, encAR_26_6, encAR_21_5, encAR_16_5, encAR_11_5, encAR_0_11, encAR_0_16, encAR_5_6, encAR_0_5, toX_val, mreg4_lt, ofNat64, cast64, need_true, ok_bind, pure_ok, hw]

theorem RoundTrip.xor (x1 : XReg) (x2 : XReg) (x3 : XReg) : RoundTrip.Statement (.xor x1 x2 x3) := by
  intro hw
  simp only [Instr.wf, Bool.and_eq_true] at hw
  refine ⟨lt_of_lt_of_le (encAR_lt _ _ _ _ _ ?_ ?_ ?_ ?_ ?_) (by decide), ?_⟩
  iterate 5 (first | decide | simp [Fin.is_lt] | omega)
  simp [encodeWord, litOf, decodeA, decodeAR, encAR_26_6, encAR_21_5, encAR_16_5, encAR_11_5, encAR_0_11, encAR_0_16, encAR_5_6, encAR_0_5, toX_val, mreg4_lt, ofNat64, cast64, need_true, ok_bind, pure_ok, hw]

theorem RoundTrip.sll (x1 : XReg) (x2 : XReg) (x3 : XReg) : RoundTrip.Statement (.sll x1 x2 x3) := by
  intro hw
  simp only [Instr.wf, Bool.and_eq_true] at hw
  refine ⟨lt_of_lt_of_le (encAR_lt _ _ _ _ _ ?_ ?_ ?_ ?_ ?_) (by decide), ?_⟩
  iterate 5 (first | decide | simp [Fin.is_lt] | omega)
  simp [encodeWord, litOf, decodeA, decodeAR, encAR_26_6, encAR_21_5, encAR_16_5, encAR_11_5, encAR_0_11, encAR_0_16, encAR_5_6, encAR_0_5, toX_val, mreg4_lt, ofNat64, cast64, need_true, ok_bind, pure_ok, hw]

theorem RoundTrip.srl (x1 : XReg) (x2 : XReg) (x3 : XReg) : RoundTrip.Statement (.srl x1 x2 x3) := by
  intro hw
  simp only [Instr.wf, Bool.and_eq_true] at hw
  refine ⟨lt_of_lt_of_le (encAR_lt _ _ _ _ _ ?_ ?_ ?_ ?_ ?_) (by decide), ?_⟩
  iterate 5 (first | decide | simp [Fin.is_lt] | omega)
  simp [encodeWord, litOf, decodeA, decodeAR, encAR_26_6, encAR_21_5, encAR_16_5, encAR_11_5, encAR_0_11, encAR_0_16, encAR_5_6, encAR_0_5, toX_val, mreg4_lt, ofNat64, cast64, need_true, ok_bind, pure_ok, hw]

theorem RoundTrip.sra (x1 : XReg) (x2 : XReg) (x3 : XReg) : RoundTrip.Statement (.sra x1 x2 x3) := by
  intro hw
  simp only [Instr.wf, Bool.and_eq_true] at hw
  refine ⟨lt_of_lt_of_le (encAR_lt _ _ _ _ _ ?_ ?_ ?_ ?_ ?_) (by decide), ?_⟩
  iterate 5 (first | decide | simp [Fin.is_lt] | omega)
  simp [encodeWord, litOf, decodeA, decodeAR, encAR_26_6, encAR_21_5, encAR_16_5, encAR_11_5, encAR_0_11, encAR_0_16, encAR_5_6, encAR_0_5, toX_val, mreg4_lt, ofNat64, cast64, need_true, ok_bind, pure_ok, hw]

theorem RoundTrip.slt (x1 : XReg) (x2 : XReg) (x3 : XReg) : RoundTrip.Statement (.slt x1 x2 x3) := by
  intro hw
  simp only [Instr.wf, Bool.and_eq_true] at hw
  refine ⟨lt_of_lt_of_le (encAR_lt _ _ _ _ _ ?_ ?_ ?_ ?_ ?_) (by decide), ?_⟩
  iterate 5 (first | decide | simp [Fin.is_lt] | omega)
  simp [encodeWord, litOf, decodeA, decodeAR, encAR_26_6, encAR_21_5, encAR_16_5, encAR_11_5, encAR_0_11, encAR_0_16, encAR_5_6, encAR_0_5, toX_val, mreg4_lt, ofNat64, cast64, need_true, ok_bind, pure_ok, hw]

theorem RoundTrip.sltu (x1 : XReg) (x2 : XReg) (x3 : XReg) : RoundTrip.Statement (.sltu x1 x2 x3) := by
  intro hw
  simp only [Instr.wf, Bool.and_eq_true] at hw
  refine ⟨lt_of_lt_of_le (encAR_lt _ _ _ _ _ ?_ ?_ ?_ ?_ ?_) (by decide), ?_⟩
  iterate 5 (first | decide | simp [Fin.is_lt] | omega)
  simp [encodeWord, litOf, decodeA, decodeAR, encAR_26_6, encAR_21_5, encAR_16_5, encAR_11_5, encAR_0_11, encAR_0_16, encAR_5_6, encAR_0_5, toX_val, mreg4_lt, ofNat64, cast64, need_true, ok_bind, pure_ok, hw]

theorem RoundTrip.mul (x1 : XReg) (x2 : XReg) (x3 : XReg) : RoundTrip.Statement (.mul x1 x2 x3) := by
  intro hw
  simp only [Instr.wf, Bool.and_eq_true] at hw
  refine ⟨lt_of_lt_of_le (encAR_lt _ _ _ _ _ ?_ ?_ ?_ ?_ ?_) (by decide), ?_⟩
  iterate 5 (first | decide | simp [Fin.is_lt] | omega)
  simp [encodeWord, litOf, decodeA, decodeAR, encAR_26_6, encAR_21_5, encAR_16_5, encAR_11_5, encAR_0_11, encAR_0_16, encAR_5_6, encAR_0_5, toX_val, mreg4_lt, ofNat64, cast64, need_true, ok_bind, pure_ok, hw]

theorem RoundTrip.mulh (x1 : XReg) (x2 : XReg) (x3 : XReg) : RoundTrip.Statement (.mulh x1 x2 x3) := by
  intro hw
  simp only [Instr.wf, Bool.and_eq_true] at hw
  refine ⟨lt_of_lt_of_le (encAR_lt _ _ _ _ _ ?_ ?_ ?_ ?_ ?_) (by decide), ?_⟩
  iterate 5 (first | decide | simp [Fin.is_lt] | omega)
  simp [encodeWord, litOf, decodeA, decodeAR, encAR_26_6, encAR_21_5, encAR_16_5, encAR_11_5, encAR_0_11, encAR_0_16, encAR_5_6, encAR_0_5, toX_val, mreg4_lt, ofNat64, cast64, need_true, ok_bind, pure_ok, hw]

theorem RoundTrip.mulhu (x1 : XReg) (x2 : XReg) (x3 : XReg) : RoundTrip.Statement (.mulhu x1 x2 x3) := by
  intro hw
  simp only [Instr.wf, Bool.and_eq_true] at hw
  refine ⟨lt_of_lt_of_le (encAR_lt _ _ _ _ _ ?_ ?_ ?_ ?_ ?_) (by decide), ?_⟩
  iterate 5 (first | decide | simp [Fin.is_lt] | omega)
  simp [encodeWord, litOf, decodeA, decodeAR, encAR_26_6, encAR_21_5, encAR_16_5, encAR_11_5, encAR_0_11, encAR_0_16, encAR_5_6, encAR_0_5, toX_val, mreg4_lt, ofNat64, cast64, need_true, ok_bind, pure_ok, hw]

theorem RoundTrip.div (x1 : XReg) (x2 : XReg) (x3 : XReg) : RoundTrip.Statement (.div x1 x2 x3) := by
  intro hw
  simp only [Instr.wf, Bool.and_eq_true] at hw
  refine ⟨lt_of_lt_of_le (encAR_lt _ _ _ _ _ ?_ ?_ ?_ ?_ ?_) (by decide), ?_⟩
  iterate 5 (first | decide | simp [Fin.is_lt] | omega)
  simp [encodeWord, litOf, decodeA, decodeAR, encAR_26_6, encAR_21_5, encAR_16_5, encAR_11_5, encAR_0_11, encAR_0_16, encAR_5_6, encAR_0_5, toX_val, mreg4_lt, ofNat64, cast64, need_true, ok_bind, pure_ok, hw]

theorem RoundTrip.divu (x1 : XReg) (x2 : XReg) (x3 : XReg) : RoundTrip.Statement (.divu x1 x2 x3) := by
  intro hw
  simp only [Instr.wf, Bool.and_eq_true] at hw
  refine ⟨lt_of_lt_of_le (encAR_lt _ _ _ _ _ ?_ ?_ ?_ ?_ ?_) (by decide), ?_⟩
  iterate 5 (first | decide | simp [Fin.is_lt] | omega)
  simp [encodeWord, litOf, decodeA, decodeAR, encAR_26_6, encAR_21_5, encAR_16_5, encAR_11_5, encAR_0_11, encAR_0_16, encAR_5_6, encAR_0_5, toX_val, mreg4_lt, ofNat64, cast64, need_true, ok_bind, pure_ok, hw]

theorem RoundTrip.rem (x1 : XReg) (x2 : XReg) (x3 : XReg) : RoundTrip.Statement (.rem x1 x2 x3) := by
  intro hw
  simp only [Instr.wf, Bool.and_eq_true] at hw
  refine ⟨lt_of_lt_of_le (encAR_lt _ _ _ _ _ ?_ ?_ ?_ ?_ ?_) (by decide), ?_⟩
  iterate 5 (first | decide | simp [Fin.is_lt] | omega)
  simp [encodeWord, litOf, decodeA, decodeAR, encAR_26_6, encAR_21_5, encAR_16_5, encAR_11_5, encAR_0_11, encAR_0_16, encAR_5_6, encAR_0_5, toX_val, mreg4_lt, ofNat64, cast64, need_true, ok_bind, pure_ok, hw]

theorem RoundTrip.remu (x1 : XReg) (x2 : XReg) (x3 : XReg) : RoundTrip.Statement (.remu x1 x2 x3) := by
  intro hw
  simp only [Instr.wf, Bool.and_eq_true] at hw
  refine ⟨lt_of_lt_of_le (encAR_lt _ _ _ _ _ ?_ ?_ ?_ ?_ ?_) (by decide), ?_⟩
  iterate 5 (first | decide | simp [Fin.is_lt] | omega)
  simp [encodeWord, litOf, decodeA, decodeAR, encAR_26_6, encAR_21_5, encAR_16_5, encAR_11_5, encAR_0_11, encAR_0_16, encAR_5_6, encAR_0_5, toX_val, mreg4_lt, ofNat64, cast64, need_true, ok_bind, pure_ok, hw]

theorem RoundTrip.min (x1 : XReg) (x2 : XReg) (x3 : XReg) : RoundTrip.Statement (.min x1 x2 x3) := by
  intro hw
  simp only [Instr.wf, Bool.and_eq_true] at hw
  refine ⟨lt_of_lt_of_le (encAR_lt _ _ _ _ _ ?_ ?_ ?_ ?_ ?_) (by decide), ?_⟩
  iterate 5 (first | decide | simp [Fin.is_lt] | omega)
  simp [encodeWord, litOf, decodeA, decodeAR, encAR_26_6, encAR_21_5, encAR_16_5, encAR_11_5, encAR_0_11, encAR_0_16, encAR_5_6, encAR_0_5, toX_val, mreg4_lt, ofNat64, cast64, need_true, ok_bind, pure_ok, hw]

theorem RoundTrip.max (x1 : XReg) (x2 : XReg) (x3 : XReg) : RoundTrip.Statement (.max x1 x2 x3) := by
  intro hw
  simp only [Instr.wf, Bool.and_eq_true] at hw
  refine ⟨lt_of_lt_of_le (encAR_lt _ _ _ _ _ ?_ ?_ ?_ ?_ ?_) (by decide), ?_⟩
  iterate 5 (first | decide | simp [Fin.is_lt] | omega)
  simp [encodeWord, litOf, decodeA, decodeAR, encAR_26_6, encAR_21_5, encAR_16_5, encAR_11_5, encAR_0_11, encAR_0_16, encAR_5_6, encAR_0_5, toX_val, mreg4_lt, ofNat64, cast64, need_true, ok_bind, pure_ok, hw]

theorem RoundTrip.minu (x1 : XReg) (x2 : XReg) (x3 : XReg) : RoundTrip.Statement (.minu x1 x2 x3) := by
  intro hw
  simp only [Instr.wf, Bool.and_eq_true] at hw
  refine ⟨lt_of_lt_of_le (encAR_lt _ _ _ _ _ ?_ ?_ ?_ ?_ ?_) (by decide), ?_⟩
  iterate 5 (first | decide | simp [Fin.is_lt] | omega)
  simp [encodeWord, litOf, decodeA, decodeAR, encAR_26_6, encAR_21_5, encAR_16_5, encAR_11_5, encAR_0_11, encAR_0_16, encAR_5_6, encAR_0_5, toX_val, mreg4_lt, ofNat64, cast64, need_true, ok_bind, pure_ok, hw]

theorem RoundTrip.maxu (x1 : XReg) (x2 : XReg) (x3 : XReg) : RoundTrip.Statement (.maxu x1 x2 x3) := by
  intro hw
  simp only [Instr.wf, Bool.and_eq_true] at hw
  refine ⟨lt_of_lt_of_le (encAR_lt _ _ _ _ _ ?_ ?_ ?_ ?_ ?_) (by decide), ?_⟩
  iterate 5 (first | decide | simp [Fin.is_lt] | omega)
  simp [encodeWord, litOf, decodeA, decodeAR, encAR_26_6, encAR_21_5, encAR_16_5, encAR_11_5, encAR_0_11, encAR_0_16, encAR_5_6, encAR_0_5, toX_val, mreg4_lt, ofNat64, cast64, need_true, ok_bind, pure_ok, hw]

theorem RoundTrip.clz (x1 : XReg) (x2 : XReg) : RoundTrip.Statement (.clz x1 x2) := by
  intro hw
  simp only [Instr.wf, Bool.and_eq_true] at hw
  refine ⟨lt_of_lt_of_le (encAR_lt _ _ _ _ _ ?_ ?_ ?_ ?_ ?_) (by decide), ?_⟩
  iterate 5 (first | decide | simp [Fin.is_lt] | omega)
  simp [encodeWord, litOf, decodeA, decodeAR, encAR_26_6, encAR_21_5, encAR_16_5, encAR_11_5, encAR_0_11, encAR_0_16, encAR_5_6, encAR_0_5, toX_val, mreg4_lt, ofNat64, cast64, need_true, ok_bind, pure_ok, hw]

theorem RoundTrip.ctz (x1 : XReg) (x2 : XReg) : RoundTrip.Statement (.ctz x1 x2) := by
  intro hw
  simp only [Instr.wf, Bool.and_eq_true] at hw
  refine ⟨lt_of_lt_of_le (encAR_lt _ _ _ _ _ ?_ ?_ ?_ ?_ ?_) (by decide), ?_⟩
  iterate 5 (first | decide | simp [Fin.is_lt] | omega)
  simp [encodeWord, litOf, decodeA, decodeAR, encAR_26_6, encAR_21_5, encAR_16_5, encAR_11_5, encAR_0_11, encAR_0_16, encAR_5_6, encAR_0_5, toX_val, mreg4_lt, ofNat64, cast64, need_true, ok_bind, pure_ok, hw]

theorem RoundTrip.popc (x1 : XReg) (x2 : XReg) : RoundTrip.Statement (.popc x1 x2) := by
  intro hw
  simp only [Instr.wf, Bool.and_eq_true] at hw
  refine ⟨lt_of_lt_of_le (encAR_lt _ _ _ _ _ ?_ ?_ ?_ ?_ ?_) (by decide), ?_⟩
  iterate 5 (first | decide | simp [Fin.is_lt] | omega)
  simp [encodeWord, litOf, decodeA, decodeAR, encAR_26_6, encAR_21_5, encAR_16_5, encAR_11_5, encAR_0_11, encAR_0_16, encAR_5_6, encAR_0_5, toX_val, mreg4_lt, ofNat64, cast64, need_true, ok_bind, pure_ok, hw]

theorem RoundTrip.shadd (x1 : XReg) (x2 : XReg) (x3 : XReg) (x4 : Fin 4) : RoundTrip.Statement (.shadd x1 x2 x3 x4) := by
  intro hw
  simp only [Instr.wf, Bool.and_eq_true] at hw
  have h : x4 = 0 ∨ x4 = 1 ∨ x4 = 2 ∨ x4 = 3 := by omega
  rcases h with rfl | rfl | rfl | rfl
  all_goals
    refine ⟨lt_of_lt_of_le (encAR_lt _ _ _ _ _ ?_ ?_ ?_ ?_ ?_) (by decide), ?_⟩
    iterate 5 (first | decide | simp [shadd_lt, Fin.is_lt] | omega)
    simp [encodeWord, litOf, decodeA, decodeAR, encAR_26_6, encAR_21_5, encAR_16_5, encAR_11_5, encAR_0_11, encAR_0_16, encAR_5_6, encAR_0_5, toX_val, shadd_lt, mreg4_lt, ofNat64, cast64, need_true, ok_bind, pure_ok, hw]

theorem RoundTrip.addi (x1 : XReg) (x2 : XReg) (x3 : BitVec 12) : RoundTrip.Statement (.addi x1 x2 x3) := by
  intro hw
  simp only [Instr.wf, Bool.and_eq_true] at hw
  refine ⟨lt_of_lt_of_le (encAI_lt _ _ _ _ ?_ ?_) (by decide), ?_⟩
  iterate 2 (first | decide | simp [imm12_lt, Fin.is_lt] | omega)
  simp [encodeWord, litOf, decodeA, decodeAI, encAI_26_6, encAI_21_5, encAI_16_5, encAI_12_4, encAI_0_12, encAI_6_6, encAI_0_6, toX_val, imm12_lt, mreg4_lt, ofNat64, cast64, need_true, ok_bind, pure_ok, hw]

theorem RoundTrip.andi (x1 : XReg) (x2 : XReg) (x3 : BitVec 12) : RoundTrip.Statement (.andi x1 x2 x3) := by
  intro hw
  simp only [Instr.wf, Bool.and_eq_true] at hw
  refine ⟨lt_of_lt_of_le (encAI_lt _ _ _ _ ?_ ?_) (by decide), ?_⟩
  iterate 2 (first | decide | simp [imm12_lt, Fin.is_lt] | omega)
  simp [encodeWord, litOf, decodeA, decodeAI, encAI_26_6, encAI_21_5, encAI_16_5, encAI_12_4, encAI_0_12, encAI_6_6, encAI_0_6, toX_val, imm12_lt, mreg4_lt, ofNat64, cast64, need_true, ok_bind, pure_ok, hw]

theorem RoundTrip.ori (x1 : XReg) (x2 : XReg) (x3 : BitVec 12) : RoundTrip.Statement (.ori x1 x2 x3) := by
  intro hw
  simp only [Instr.wf, Bool.and_eq_true] at hw
  refine ⟨lt_of_lt_of_le (encAI_lt _ _ _ _ ?_ ?_) (by decide), ?_⟩
  iterate 2 (first | decide | simp [imm12_lt, Fin.is_lt] | omega)
  simp [encodeWord, litOf, decodeA, decodeAI, encAI_26_6, encAI_21_5, encAI_16_5, encAI_12_4, encAI_0_12, encAI_6_6, encAI_0_6, toX_val, imm12_lt, mreg4_lt, ofNat64, cast64, need_true, ok_bind, pure_ok, hw]

theorem RoundTrip.xori (x1 : XReg) (x2 : XReg) (x3 : BitVec 12) : RoundTrip.Statement (.xori x1 x2 x3) := by
  intro hw
  simp only [Instr.wf, Bool.and_eq_true] at hw
  refine ⟨lt_of_lt_of_le (encAI_lt _ _ _ _ ?_ ?_) (by decide), ?_⟩
  iterate 2 (first | decide | simp [imm12_lt, Fin.is_lt] | omega)
  simp [encodeWord, litOf, decodeA, decodeAI, encAI_26_6, encAI_21_5, encAI_16_5, encAI_12_4, encAI_0_12, encAI_6_6, encAI_0_6, toX_val, imm12_lt, mreg4_lt, ofNat64, cast64, need_true, ok_bind, pure_ok, hw]

theorem RoundTrip.slli (x1 : XReg) (x2 : XReg) (x3 : Fin 64) : RoundTrip.Statement (.slli x1 x2 x3) := by
  intro hw
  simp only [Instr.wf, Bool.and_eq_true] at hw
  refine ⟨lt_of_lt_of_le (encAI_lt _ _ _ _ ?_ ?_) (by decide), ?_⟩
  iterate 2 (first | decide | simp [sh_lt, Fin.is_lt] | omega)
  simp [encodeWord, litOf, decodeA, decodeAI, encAI_26_6, encAI_21_5, encAI_16_5, encAI_12_4, encAI_0_12, encAI_6_6, encAI_0_6, toX_val, sh_lt, mreg4_lt, ofNat64, cast64, need_true, ok_bind, pure_ok, hw]

theorem RoundTrip.srli (x1 : XReg) (x2 : XReg) (x3 : Fin 64) : RoundTrip.Statement (.srli x1 x2 x3) := by
  intro hw
  simp only [Instr.wf, Bool.and_eq_true] at hw
  refine ⟨lt_of_lt_of_le (encAI_lt _ _ _ _ ?_ ?_) (by decide), ?_⟩
  iterate 2 (first | decide | simp [sh_lt, Fin.is_lt] | omega)
  simp [encodeWord, litOf, decodeA, decodeAI, encAI_26_6, encAI_21_5, encAI_16_5, encAI_12_4, encAI_0_12, encAI_6_6, encAI_0_6, toX_val, sh_lt, mreg4_lt, ofNat64, cast64, need_true, ok_bind, pure_ok, hw]

theorem RoundTrip.srai (x1 : XReg) (x2 : XReg) (x3 : Fin 64) : RoundTrip.Statement (.srai x1 x2 x3) := by
  intro hw
  simp only [Instr.wf, Bool.and_eq_true] at hw
  refine ⟨lt_of_lt_of_le (encAI_lt _ _ _ _ ?_ ?_) (by decide), ?_⟩
  iterate 2 (first | decide | simp [sh_lt, Fin.is_lt] | omega)
  simp [encodeWord, litOf, decodeA, decodeAI, encAI_26_6, encAI_21_5, encAI_16_5, encAI_12_4, encAI_0_12, encAI_6_6, encAI_0_6, toX_val, sh_lt, mreg4_lt, ofNat64, cast64, need_true, ok_bind, pure_ok, hw]

theorem RoundTrip.slti (x1 : XReg) (x2 : XReg) (x3 : BitVec 12) : RoundTrip.Statement (.slti x1 x2 x3) := by
  intro hw
  simp only [Instr.wf, Bool.and_eq_true] at hw
  refine ⟨lt_of_lt_of_le (encAI_lt _ _ _ _ ?_ ?_) (by decide), ?_⟩
  iterate 2 (first | decide | simp [imm12_lt, Fin.is_lt] | omega)
  simp [encodeWord, litOf, decodeA, decodeAI, encAI_26_6, encAI_21_5, encAI_16_5, encAI_12_4, encAI_0_12, encAI_6_6, encAI_0_6, toX_val, imm12_lt, mreg4_lt, ofNat64, cast64, need_true, ok_bind, pure_ok, hw]

theorem RoundTrip.sltiu (x1 : XReg) (x2 : XReg) (x3 : BitVec 12) : RoundTrip.Statement (.sltiu x1 x2 x3) := by
  intro hw
  simp only [Instr.wf, Bool.and_eq_true] at hw
  refine ⟨lt_of_lt_of_le (encAI_lt _ _ _ _ ?_ ?_) (by decide), ?_⟩
  iterate 2 (first | decide | simp [imm12_lt, Fin.is_lt] | omega)
  simp [encodeWord, litOf, decodeA, decodeAI, encAI_26_6, encAI_21_5, encAI_16_5, encAI_12_4, encAI_0_12, encAI_6_6, encAI_0_6, toX_val, imm12_lt, mreg4_lt, ofNat64, cast64, need_true, ok_bind, pure_ok, hw]

theorem RoundTrip.muli (x1 : XReg) (x2 : XReg) (x3 : BitVec 12) : RoundTrip.Statement (.muli x1 x2 x3) := by
  intro hw
  simp only [Instr.wf, Bool.and_eq_true] at hw
  refine ⟨lt_of_lt_of_le (encAI_lt _ _ _ _ ?_ ?_) (by decide), ?_⟩
  iterate 2 (first | decide | simp [imm12_lt, Fin.is_lt] | omega)
  simp [encodeWord, litOf, decodeA, decodeAI, encAI_26_6, encAI_21_5, encAI_16_5, encAI_12_4, encAI_0_12, encAI_6_6, encAI_0_6, toX_val, imm12_lt, mreg4_lt, ofNat64, cast64, need_true, ok_bind, pure_ok, hw]

theorem RoundTrip.hset (x1 : XReg) (x2 : BitVec 16) (x3 : Fin 4) : RoundTrip.Statement (.hset x1 x2 x3) := by
  intro hw
  simp only [Instr.wf, Bool.and_eq_true] at hw
  refine ⟨lt_of_lt_of_le (encAM_lt _ _ _ _ ?_) (by decide), ?_⟩
  iterate 1 (first | decide | simp [shadd_lt, Fin.is_lt] | omega)
  simp [encodeWord, litOf, decodeA, decodeAM, encAM_26_6, encAM_21_5, encAM_20_1, encAM_18_2, encAM_16_2, encAM_0_16, toX_val, shadd_lt, mreg4_lt, ofNat64, cast64, need_true, ok_bind, pure_ok, hw]

theorem RoundTrip.hins (x1 : XReg) (x2 : BitVec 16) (x3 : Fin 4) : RoundTrip.Statement (.hins x1 x2 x3) := by
  intro hw
  simp only [Instr.wf, Bool.and_eq_true] at hw
  refine ⟨lt_of_lt_of_le (encAM_lt _ _ _ _ ?_) (by decide), ?_⟩
  iterate 1 (first | decide | simp [shadd_lt, Fin.is_lt] | omega)
  simp [encodeWord, litOf, decodeA, decodeAM, encAM_26_6, encAM_21_5, encAM_20_1, encAM_18_2, encAM_16_2, encAM_0_16, toX_val, shadd_lt, mreg4_lt, ofNat64, cast64, need_true, ok_bind, pure_ok, hw]

theorem RoundTrip.bextu (x1 : XReg) (x2 : XReg) (x3 : Fin 64) (x4 : Fin 64) : RoundTrip.Statement (.bextu x1 x2 x3 x4) := by
  intro hw
  simp only [Instr.wf, Bool.and_eq_true] at hw
  refine ⟨lt_of_lt_of_le (encAB_lt _ _ _ _ _ ?_) (by decide), ?_⟩
  iterate 1 (first | decide | simp [sh_lt, Fin.is_lt] | omega)
  simp [encodeWord, litOf, decodeA, decodeAB, encAB_26_6, encAB_21_5, encAB_16_5, encAB_10_6, encAB_4_6, encAB_0_4, toX_val, sh_lt, mreg4_lt, ofNat64, cast64, need_true, ok_bind, pure_ok, hw]

theorem RoundTrip.bext (x1 : XReg) (x2 : XReg) (x3 : Fin 64) (x4 : Fin 64) : RoundTrip.Statement (.bext x1 x2 x3 x4) := by
  intro hw
  simp only [Instr.wf, Bool.and_eq_true] at hw
  refine ⟨lt_of_lt_of_le (encAB_lt _ _ _ _ _ ?_) (by decide), ?_⟩
  iterate 1 (first | decide | simp [sh_lt, Fin.is_lt] | omega)
  simp [encodeWord, litOf, decodeA, decodeAB, encAB_26_6, encAB_21_5, encAB_16_5, encAB_10_6, encAB_4_6, encAB_0_4, toX_val, sh_lt, mreg4_lt, ofNat64, cast64, need_true, ok_bind, pure_ok, hw]

theorem RoundTrip.bins (x1 : XReg) (x2 : XReg) (x3 : Fin 64) (x4 : Fin 64) : RoundTrip.Statement (.bins x1 x2 x3 x4) := by
  intro hw
  simp only [Instr.wf, Bool.and_eq_true] at hw
  refine ⟨lt_of_lt_of_le (encAB_lt _ _ _ _ _ ?_) (by decide), ?_⟩
  iterate 1 (first | decide | simp [sh_lt, Fin.is_lt] | omega)
  simp [encodeWord, litOf, decodeA, decodeAB, encAB_26_6, encAB_21_5, encAB_16_5, encAB_10_6, encAB_4_6, encAB_0_4, toX_val, sh_lt, mreg4_lt, ofNat64, cast64, need_true, ok_bind, pure_ok, hw]

theorem RoundTrip.fadd (x1 : FReg) (x2 : FReg) (x3 : FReg) (x4 : Rm) : RoundTrip.Statement (.fadd x1 x2 x3 x4) := by
  intro hw
  simp only [Instr.wf, Bool.and_eq_true] at hw
  refine ⟨lt_of_lt_of_le (encAF_lt _ _ _ _ _ _ _ ?_ ?_ ?_ ?_ ?_ ?_ ?_) (by decide), ?_⟩
  iterate 7 (first | decide | simp [freg_lt, rm_lt, Fin.is_lt] | omega)
  simp [encodeWord, litOf, decodeA, decodeFop, encAF_26_6, encAF_21_5, encAF_16_5, encAF_11_5, encAF_6_5, encAF_3_3, encAF_0_3, getF_val, freg_lt, rm_lt, rmOf_code, mreg4_lt, ofNat64, cast64, need_true, ok_bind, pure_ok, hw]

theorem RoundTrip.fsub (x1 : FReg) (x2 : FReg) (x3 : FReg) (x4 : Rm) : RoundTrip.Statement (.fsub x1 x2 x3 x4) := by
  intro hw
  simp only [Instr.wf, Bool.and_eq_true] at hw
  refine ⟨lt_of_lt_of_le (encAF_lt _ _ _ _ _ _ _ ?_ ?_ ?_ ?_ ?_ ?_ ?_) (by decide), ?_⟩
  iterate 7 (first | decide | simp [freg_lt, rm_lt, Fin.is_lt] | omega)
  simp [encodeWord, litOf, decodeA, decodeFop, encAF_26_6, encAF_21_5, encAF_16_5, encAF_11_5, encAF_6_5, encAF_3_3, encAF_0_3, getF_val, freg_lt, rm_lt, rmOf_code, mreg4_lt, ofNat64, cast64, need_true, ok_bind, pure_ok, hw]

theorem RoundTrip.fmul (x1 : FReg) (x2 : FReg) (x3 : FReg) (x4 : Rm) : RoundTrip.Statement (.fmul x1 x2 x3 x4) := by
  intro hw
  simp only [Instr.wf, Bool.and_eq_true] at hw
  refine ⟨lt_of_lt_of_le (encAF_lt _ _ _ _ _ _ _ ?_ ?_ ?_ ?_ ?_ ?_ ?_) (by decide), ?_⟩
  iterate 7 (first | decide | simp [freg_lt, rm_lt, Fin.is_lt] | omega)
  simp [encodeWord, litOf, decodeA, decodeFop, encAF_26_6, encAF_21_5, encAF_16_5, encAF_11_5, encAF_6_5, encAF_3_3, encAF_0_3, getF_val, freg_lt, rm_lt, rmOf_code, mreg4_lt, ofNat64, cast64, need_true, ok_bind, pure_ok, hw]

theorem RoundTrip.fdiv (x1 : FReg) (x2 : FReg) (x3 : FReg) (x4 : Rm) : RoundTrip.Statement (.fdiv x1 x2 x3 x4) := by
  intro hw
  simp only [Instr.wf, Bool.and_eq_true] at hw
  refine ⟨lt_of_lt_of_le (encAF_lt _ _ _ _ _ _ _ ?_ ?_ ?_ ?_ ?_ ?_ ?_) (by decide), ?_⟩
  iterate 7 (first | decide | simp [freg_lt, rm_lt, Fin.is_lt] | omega)
  simp [encodeWord, litOf, decodeA, decodeFop, encAF_26_6, encAF_21_5, encAF_16_5, encAF_11_5, encAF_6_5, encAF_3_3, encAF_0_3, getF_val, freg_lt, rm_lt, rmOf_code, mreg4_lt, ofNat64, cast64, need_true, ok_bind, pure_ok, hw]

theorem RoundTrip.fsqrt (x1 : FReg) (x2 : FReg) (x3 : Rm) : RoundTrip.Statement (.fsqrt x1 x2 x3) := by
  intro hw
  simp only [Instr.wf, Bool.and_eq_true] at hw
  refine ⟨lt_of_lt_of_le (encAF_lt _ _ _ _ _ _ _ ?_ ?_ ?_ ?_ ?_ ?_ ?_) (by decide), ?_⟩
  iterate 7 (first | decide | simp [freg_lt, rm_lt, Fin.is_lt] | omega)
  simp [encodeWord, litOf, decodeA, decodeFop, encAF_26_6, encAF_21_5, encAF_16_5, encAF_11_5, encAF_6_5, encAF_3_3, encAF_0_3, getF_val, freg_lt, rm_lt, rmOf_code, mreg4_lt, ofNat64, cast64, need_true, ok_bind, pure_ok, hw]

theorem RoundTrip.fmin (x1 : FReg) (x2 : FReg) (x3 : FReg) : RoundTrip.Statement (.fmin x1 x2 x3) := by
  intro hw
  simp only [Instr.wf, Bool.and_eq_true] at hw
  refine ⟨lt_of_lt_of_le (encAF_lt _ _ _ _ _ _ _ ?_ ?_ ?_ ?_ ?_ ?_ ?_) (by decide), ?_⟩
  iterate 7 (first | decide | simp [freg_lt, Fin.is_lt] | omega)
  simp [encodeWord, litOf, decodeA, decodeFop, encAF_26_6, encAF_21_5, encAF_16_5, encAF_11_5, encAF_6_5, encAF_3_3, encAF_0_3, getF_val, freg_lt, mreg4_lt, ofNat64, cast64, need_true, ok_bind, pure_ok, hw]

theorem RoundTrip.fmax (x1 : FReg) (x2 : FReg) (x3 : FReg) : RoundTrip.Statement (.fmax x1 x2 x3) := by
  intro hw
  simp only [Instr.wf, Bool.and_eq_true] at hw
  refine ⟨lt_of_lt_of_le (encAF_lt _ _ _ _ _ _ _ ?_ ?_ ?_ ?_ ?_ ?_ ?_) (by decide), ?_⟩
  iterate 7 (first | decide | simp [freg_lt, Fin.is_lt] | omega)
  simp [encodeWord, litOf, decodeA, decodeFop, encAF_26_6, encAF_21_5, encAF_16_5, encAF_11_5, encAF_6_5, encAF_3_3, encAF_0_3, getF_val, freg_lt, mreg4_lt, ofNat64, cast64, need_true, ok_bind, pure_ok, hw]

theorem RoundTrip.feq (x1 : XReg) (x2 : FReg) (x3 : FReg) : RoundTrip.Statement (.feq x1 x2 x3) := by
  intro hw
  simp only [Instr.wf, Bool.and_eq_true] at hw
  refine ⟨lt_of_lt_of_le (encAF_lt _ _ _ _ _ _ _ ?_ ?_ ?_ ?_ ?_ ?_ ?_) (by decide), ?_⟩
  iterate 7 (first | decide | simp [freg_lt, Fin.is_lt] | omega)
  simp [encodeWord, litOf, decodeA, decodeFop, encAF_26_6, encAF_21_5, encAF_16_5, encAF_11_5, encAF_6_5, encAF_3_3, encAF_0_3, toX_val, getF_val, freg_lt, mreg4_lt, ofNat64, cast64, need_true, ok_bind, pure_ok, hw]

theorem RoundTrip.flt (x1 : XReg) (x2 : FReg) (x3 : FReg) : RoundTrip.Statement (.flt x1 x2 x3) := by
  intro hw
  simp only [Instr.wf, Bool.and_eq_true] at hw
  refine ⟨lt_of_lt_of_le (encAF_lt _ _ _ _ _ _ _ ?_ ?_ ?_ ?_ ?_ ?_ ?_) (by decide), ?_⟩
  iterate 7 (first | decide | simp [freg_lt, Fin.is_lt] | omega)
  simp [encodeWord, litOf, decodeA, decodeFop, encAF_26_6, encAF_21_5, encAF_16_5, encAF_11_5, encAF_6_5, encAF_3_3, encAF_0_3, toX_val, getF_val, freg_lt, mreg4_lt, ofNat64, cast64, need_true, ok_bind, pure_ok, hw]

theorem RoundTrip.fle (x1 : XReg) (x2 : FReg) (x3 : FReg) : RoundTrip.Statement (.fle x1 x2 x3) := by
  intro hw
  simp only [Instr.wf, Bool.and_eq_true] at hw
  refine ⟨lt_of_lt_of_le (encAF_lt _ _ _ _ _ _ _ ?_ ?_ ?_ ?_ ?_ ?_ ?_) (by decide), ?_⟩
  iterate 7 (first | decide | simp [freg_lt, Fin.is_lt] | omega)
  simp [encodeWord, litOf, decodeA, decodeFop, encAF_26_6, encAF_21_5, encAF_16_5, encAF_11_5, encAF_6_5, encAF_3_3, encAF_0_3, toX_val, getF_val, freg_lt, mreg4_lt, ofNat64, cast64, need_true, ok_bind, pure_ok, hw]

theorem RoundTrip.fclass (x1 : XReg) (x2 : FReg) : RoundTrip.Statement (.fclass x1 x2) := by
  intro hw
  simp only [Instr.wf, Bool.and_eq_true] at hw
  refine ⟨lt_of_lt_of_le (encAF_lt _ _ _ _ _ _ _ ?_ ?_ ?_ ?_ ?_ ?_ ?_) (by decide), ?_⟩
  iterate 7 (first | decide | simp [freg_lt, Fin.is_lt] | omega)
  simp [encodeWord, litOf, decodeA, decodeFop, encAF_26_6, encAF_21_5, encAF_16_5, encAF_11_5, encAF_6_5, encAF_3_3, encAF_0_3, toX_val, getF_val, freg_lt, mreg4_lt, ofNat64, cast64, need_true, ok_bind, pure_ok, hw]

theorem RoundTrip.fmvX (x1 : XReg) (x2 : FReg) : RoundTrip.Statement (.fmvX x1 x2) := by
  intro hw
  simp only [Instr.wf, Bool.and_eq_true] at hw
  refine ⟨lt_of_lt_of_le (encAF_lt _ _ _ _ _ _ _ ?_ ?_ ?_ ?_ ?_ ?_ ?_) (by decide), ?_⟩
  iterate 7 (first | decide | simp [freg_lt, Fin.is_lt] | omega)
  simp [encodeWord, litOf, decodeA, decodeFop, encAF_26_6, encAF_21_5, encAF_16_5, encAF_11_5, encAF_6_5, encAF_3_3, encAF_0_3, toX_val, getF_val, freg_lt, mreg4_lt, ofNat64, cast64, need_true, ok_bind, pure_ok, hw]

theorem RoundTrip.fmvF (x1 : FReg) (x2 : XReg) : RoundTrip.Statement (.fmvF x1 x2) := by
  intro hw
  simp only [Instr.wf, Bool.and_eq_true] at hw
  refine ⟨lt_of_lt_of_le (encAF_lt _ _ _ _ _ _ _ ?_ ?_ ?_ ?_ ?_ ?_ ?_) (by decide), ?_⟩
  iterate 7 (first | decide | simp [freg_lt, Fin.is_lt] | omega)
  simp [encodeWord, litOf, decodeA, decodeFop, encAF_26_6, encAF_21_5, encAF_16_5, encAF_11_5, encAF_6_5, encAF_3_3, encAF_0_3, getF_val, freg_lt, toX_val, mreg4_lt, ofNat64, cast64, need_true, ok_bind, pure_ok, hw]

theorem RoundTrip.fneg (x1 : FReg) (x2 : FReg) : RoundTrip.Statement (.fneg x1 x2) := by
  intro hw
  simp only [Instr.wf, Bool.and_eq_true] at hw
  refine ⟨lt_of_lt_of_le (encAF_lt _ _ _ _ _ _ _ ?_ ?_ ?_ ?_ ?_ ?_ ?_) (by decide), ?_⟩
  iterate 7 (first | decide | simp [freg_lt, Fin.is_lt] | omega)
  simp [encodeWord, litOf, decodeA, decodeFop, encAF_26_6, encAF_21_5, encAF_16_5, encAF_11_5, encAF_6_5, encAF_3_3, encAF_0_3, getF_val, freg_lt, mreg4_lt, ofNat64, cast64, need_true, ok_bind, pure_ok, hw]

theorem RoundTrip.fabs (x1 : FReg) (x2 : FReg) : RoundTrip.Statement (.fabs x1 x2) := by
  intro hw
  simp only [Instr.wf, Bool.and_eq_true] at hw
  refine ⟨lt_of_lt_of_le (encAF_lt _ _ _ _ _ _ _ ?_ ?_ ?_ ?_ ?_ ?_ ?_) (by decide), ?_⟩
  iterate 7 (first | decide | simp [freg_lt, Fin.is_lt] | omega)
  simp [encodeWord, litOf, decodeA, decodeFop, encAF_26_6, encAF_21_5, encAF_16_5, encAF_11_5, encAF_6_5, encAF_3_3, encAF_0_3, getF_val, freg_lt, mreg4_lt, ofNat64, cast64, need_true, ok_bind, pure_ok, hw]

theorem RoundTrip.fmadd (x1 : FReg) (x2 : FReg) (x3 : FReg) (x4 : FReg) (x5 : Rm) : RoundTrip.Statement (.fmadd x1 x2 x3 x4 x5) := by
  intro hw
  simp only [Instr.wf, Bool.and_eq_true] at hw
  refine ⟨lt_of_lt_of_le (encAF_lt _ _ _ _ _ _ _ ?_ ?_ ?_ ?_ ?_ ?_ ?_) (by decide), ?_⟩
  iterate 7 (first | decide | simp [freg_lt, rm_lt, Fin.is_lt] | omega)
  simp [encodeWord, litOf, decodeA, decodeFma, encAF_26_6, encAF_21_5, encAF_16_5, encAF_11_5, encAF_6_5, encAF_3_3, encAF_0_3, getF_val, freg_lt, rm_lt, rmOf_code, mreg4_lt, ofNat64, cast64, need_true, ok_bind, pure_ok, hw]

theorem RoundTrip.fmsub (x1 : FReg) (x2 : FReg) (x3 : FReg) (x4 : FReg) (x5 : Rm) : RoundTrip.Statement (.fmsub x1 x2 x3 x4 x5) := by
  intro hw
  simp only [Instr.wf, Bool.and_eq_true] at hw
  refine ⟨lt_of_lt_of_le (encAF_lt _ _ _ _ _ _ _ ?_ ?_ ?_ ?_ ?_ ?_ ?_) (by decide), ?_⟩
  iterate 7 (first | decide | simp [freg_lt, rm_lt, Fin.is_lt] | omega)
  simp [encodeWord, litOf, decodeA, decodeFma, encAF_26_6, encAF_21_5, encAF_16_5, encAF_11_5, encAF_6_5, encAF_3_3, encAF_0_3, getF_val, freg_lt, rm_lt, rmOf_code, mreg4_lt, ofNat64, cast64, need_true, ok_bind, pure_ok, hw]

theorem RoundTrip.fnmadd (x1 : FReg) (x2 : FReg) (x3 : FReg) (x4 : FReg) (x5 : Rm) : RoundTrip.Statement (.fnmadd x1 x2 x3 x4 x5) := by
  intro hw
  simp only [Instr.wf, Bool.and_eq_true] at hw
  refine ⟨lt_of_lt_of_le (encAF_lt _ _ _ _ _ _ _ ?_ ?_ ?_ ?_ ?_ ?_ ?_) (by decide), ?_⟩
  iterate 7 (first | decide | simp [freg_lt, rm_lt, Fin.is_lt] | omega)
  simp [encodeWord, litOf, decodeA, decodeFma, encAF_26_6, encAF_21_5, encAF_16_5, encAF_11_5, encAF_6_5, encAF_3_3, encAF_0_3, getF_val, freg_lt, rm_lt, rmOf_code, mreg4_lt, ofNat64, cast64, need_true, ok_bind, pure_ok, hw]

theorem RoundTrip.fnmsub (x1 : FReg) (x2 : FReg) (x3 : FReg) (x4 : FReg) (x5 : Rm) : RoundTrip.Statement (.fnmsub x1 x2 x3 x4 x5) := by
  intro hw
  simp only [Instr.wf, Bool.and_eq_true] at hw
  refine ⟨lt_of_lt_of_le (encAF_lt _ _ _ _ _ _ _ ?_ ?_ ?_ ?_ ?_ ?_ ?_) (by decide), ?_⟩
  iterate 7 (first | decide | simp [freg_lt, rm_lt, Fin.is_lt] | omega)
  simp [encodeWord, litOf, decodeA, decodeFma, encAF_26_6, encAF_21_5, encAF_16_5, encAF_11_5, encAF_6_5, encAF_3_3, encAF_0_3, getF_val, freg_lt, rm_lt, rmOf_code, mreg4_lt, ofNat64, cast64, need_true, ok_bind, pure_ok, hw]

theorem RoundTrip.fcvtf (x1 : FReg) (x2 : XReg) (x3 : Fmt) (x4 : Sm) (x5 : Rm) : RoundTrip.Statement (.fcvtf x1 x2 x3 x4 x5) := by
  intro hw
  simp only [Instr.wf, Bool.and_eq_true] at hw
  refine ⟨lt_of_lt_of_le (encAC_lt _ _ _ _ _ _ ?_ ?_ ?_) (by decide), ?_⟩
  iterate 3 (first | decide | simp [freg_lt, fmt_lt, sm_lt, rm_lt, Fin.is_lt] | omega)
  simp [encodeWord, litOf, decodeA, decodeAC, encAC_26_6, encAC_21_5, encAC_16_5, encAC_9_7, encAC_8_1, encAC_6_2, encAC_3_3, encAC_0_3, getF_val, freg_lt, toX_val, fmt_lt, fmtOf_code, sm_lt, smOf_code, rm_lt, rmOf_code, mreg4_lt, ofNat64, cast64, need_true, ok_bind, pure_ok, hw]

theorem RoundTrip.fcvtx (x1 : XReg) (x2 : FReg) (x3 : Fmt) (x4 : Sm) (x5 : Rm) : RoundTrip.Statement (.fcvtx x1 x2 x3 x4 x5) := by
  intro hw
  simp only [Instr.wf, Bool.and_eq_true] at hw
  refine ⟨lt_of_lt_of_le (encAC_lt _ _ _ _ _ _ ?_ ?_ ?_) (by decide), ?_⟩
  iterate 3 (first | decide | simp [freg_lt, fmt_lt, sm_lt, rm_lt, Fin.is_lt] | omega)
  simp [encodeWord, litOf, decodeA, decodeAC, encAC_26_6, encAC_21_5, encAC_16_5, encAC_9_7, encAC_8_1, encAC_6_2, encAC_3_3, encAC_0_3, toX_val, getF_val, freg_lt, fmt_lt, fmtOf_code, sm_lt, smOf_code, rm_lt, rmOf_code, mreg4_lt, ofNat64, cast64, need_true, ok_bind, pure_ok, hw]

theorem RoundTrip.vadd (x1 : VReg) (x2 : VReg) (x3 : VReg) (x4 : MReg) (x5 : IntEt) : RoundTrip.Statement (.vadd x1 x2 x3 x4 x5) := by
  intro hw
  simp only [Instr.wf, Bool.and_eq_true] at hw
  refine ⟨lt_of_lt_of_le (encAV_lt _ _ _ _ _ _ _ ?_ ?_ ?_ ?_ ?_ ?_) (by decide), ?_⟩
  iterate 6 (first | decide | simp [mreg_lt, intEt_lt, Fin.is_lt] | omega)
  simp [encodeWord, litOf, decodeA, decodeVint, encAV_26_6, encAV_21_5, encAV_16_5, encAV_11_5, encAV_8_3, encAV_5_3, encAV_0_5, encAV_3_2, encAV_0_3, encAV_23_3, encAV_21_2, toX_val, toM_val, getM_val, mreg_lt, intEt_lt, intEtOf_code, mreg4_lt, ofNat64, cast64, need_true, ok_bind, pure_ok, hw]

theorem RoundTrip.vsub (x1 : VReg) (x2 : VReg) (x3 : VReg) (x4 : MReg) (x5 : IntEt) : RoundTrip.Statement (.vsub x1 x2 x3 x4 x5) := by
  intro hw
  simp only [Instr.wf, Bool.and_eq_true] at hw
  refine ⟨lt_of_lt_of_le (encAV_lt _ _ _ _ _ _ _ ?_ ?_ ?_ ?_ ?_ ?_) (by decide), ?_⟩
  iterate 6 (first | decide | simp [mreg_lt, intEt_lt, Fin.is_lt] | omega)
  simp [encodeWord, litOf, decodeA, decodeVint, encAV_26_6, encAV_21_5, encAV_16_5, encAV_11_5, encAV_8_3, encAV_5_3, encAV_0_5, encAV_3_2, encAV_0_3, encAV_23_3, encAV_21_2, toX_val, toM_val, getM_val, mreg_lt, intEt_lt, intEtOf_code, mreg4_lt, ofNat64, cast64, need_true, ok_bind, pure_ok, hw]

theorem RoundTrip.vmul (x1 : VReg) (x2 : VReg) (x3 : VReg) (x4 : MReg) (x5 : IntEt) : RoundTrip.Statement (.vmul x1 x2 x3 x4 x5) := by
  intro hw
  simp only [Instr.wf, Bool.and_eq_true] at hw
  refine ⟨lt_of_lt_of_le (encAV_lt _ _ _ _ _ _ _ ?_ ?_ ?_ ?_ ?_ ?_) (by decide), ?_⟩
  iterate 6 (first | decide | simp [mreg_lt, intEt_lt, Fin.is_lt] | omega)
  simp [encodeWord, litOf, decodeA, decodeVint, encAV_26_6, encAV_21_5, encAV_16_5, encAV_11_5, encAV_8_3, encAV_5_3, encAV_0_5, encAV_3_2, encAV_0_3, encAV_23_3, encAV_21_2, toX_val, toM_val, getM_val, mreg_lt, intEt_lt, intEtOf_code, mreg4_lt, ofNat64, cast64, need_true, ok_bind, pure_ok, hw]

theorem RoundTrip.vmulh (x1 : VReg) (x2 : VReg) (x3 : VReg) (x4 : MReg) (x5 : IntEt) : RoundTrip.Statement (.vmulh x1 x2 x3 x4 x5) := by
  intro hw
  simp only [Instr.wf, Bool.and_eq_true] at hw
  refine ⟨lt_of_lt_of_le (encAV_lt _ _ _ _ _ _ _ ?_ ?_ ?_ ?_ ?_ ?_) (by decide), ?_⟩
  iterate 6 (first | decide | simp [mreg_lt, intEt_lt, Fin.is_lt] | omega)
  simp [encodeWord, litOf, decodeA, decodeVint, encAV_26_6, encAV_21_5, encAV_16_5, encAV_11_5, encAV_8_3, encAV_5_3, encAV_0_5, encAV_3_2, encAV_0_3, encAV_23_3, encAV_21_2, toX_val, toM_val, getM_val, mreg_lt, intEt_lt, intEtOf_code, mreg4_lt, ofNat64, cast64, need_true, ok_bind, pure_ok, hw]

theorem RoundTrip.vmin (x1 : VReg) (x2 : VReg) (x3 : VReg) (x4 : MReg) (x5 : IntEt) : RoundTrip.Statement (.vmin x1 x2 x3 x4 x5) := by
  intro hw
  simp only [Instr.wf, Bool.and_eq_true] at hw
  refine ⟨lt_of_lt_of_le (encAV_lt _ _ _ _ _ _ _ ?_ ?_ ?_ ?_ ?_ ?_) (by decide), ?_⟩
  iterate 6 (first | decide | simp [mreg_lt, intEt_lt, Fin.is_lt] | omega)
  simp [encodeWord, litOf, decodeA, decodeVint, encAV_26_6, encAV_21_5, encAV_16_5, encAV_11_5, encAV_8_3, encAV_5_3, encAV_0_5, encAV_3_2, encAV_0_3, encAV_23_3, encAV_21_2, toX_val, toM_val, getM_val, mreg_lt, intEt_lt, intEtOf_code, mreg4_lt, ofNat64, cast64, need_true, ok_bind, pure_ok, hw]

theorem RoundTrip.vmax (x1 : VReg) (x2 : VReg) (x3 : VReg) (x4 : MReg) (x5 : IntEt) : RoundTrip.Statement (.vmax x1 x2 x3 x4 x5) := by
  intro hw
  simp only [Instr.wf, Bool.and_eq_true] at hw
  refine ⟨lt_of_lt_of_le (encAV_lt _ _ _ _ _ _ _ ?_ ?_ ?_ ?_ ?_ ?_) (by decide), ?_⟩
  iterate 6 (first | decide | simp [mreg_lt, intEt_lt, Fin.is_lt] | omega)
  simp [encodeWord, litOf, decodeA, decodeVint, encAV_26_6, encAV_21_5, encAV_16_5, encAV_11_5, encAV_8_3, encAV_5_3, encAV_0_5, encAV_3_2, encAV_0_3, encAV_23_3, encAV_21_2, toX_val, toM_val, getM_val, mreg_lt, intEt_lt, intEtOf_code, mreg4_lt, ofNat64, cast64, need_true, ok_bind, pure_ok, hw]

theorem RoundTrip.vminu (x1 : VReg) (x2 : VReg) (x3 : VReg) (x4 : MReg) (x5 : IntEt) : RoundTrip.Statement (.vminu x1 x2 x3 x4 x5) := by
  intro hw
  simp only [Instr.wf, Bool.and_eq_true] at hw
  refine ⟨lt_of_lt_of_le (encAV_lt _ _ _ _ _ _ _ ?_ ?_ ?_ ?_ ?_ ?_) (by decide), ?_⟩
  iterate 6 (first | decide | simp [mreg_lt, intEt_lt, Fin.is_lt] | omega)
  simp [encodeWord, litOf, decodeA, decodeVint, encAV_26_6, encAV_21_5, encAV_16_5, encAV_11_5, encAV_8_3, encAV_5_3, encAV_0_5, encAV_3_2, encAV_0_3, encAV_23_3, encAV_21_2, toX_val, toM_val, getM_val, mreg_lt, intEt_lt, intEtOf_code, mreg4_lt, ofNat64, cast64, need_true, ok_bind, pure_ok, hw]

theorem RoundTrip.vmaxu (x1 : VReg) (x2 : VReg) (x3 : VReg) (x4 : MReg) (x5 : IntEt) : RoundTrip.Statement (.vmaxu x1 x2 x3 x4 x5) := by
  intro hw
  simp only [Instr.wf, Bool.and_eq_true] at hw
  refine ⟨lt_of_lt_of_le (encAV_lt _ _ _ _ _ _ _ ?_ ?_ ?_ ?_ ?_ ?_) (by decide), ?_⟩
  iterate 6 (first | decide | simp [mreg_lt, intEt_lt, Fin.is_lt] | omega)
  simp [encodeWord, litOf, decodeA, decodeVint, encAV_26_6, encAV_21_5, encAV_16_5, encAV_11_5, encAV_8_3, encAV_5_3, encAV_0_5, encAV_3_2, encAV_0_3, encAV_23_3, encAV_21_2, toX_val, toM_val, getM_val, mreg_lt, intEt_lt, intEtOf_code, mreg4_lt, ofNat64, cast64, need_true, ok_bind, pure_ok, hw]

theorem RoundTrip.vand (x1 : VReg) (x2 : VReg) (x3 : VReg) (x4 : MReg) (x5 : IntEt) : RoundTrip.Statement (.vand x1 x2 x3 x4 x5) := by
  intro hw
  simp only [Instr.wf, Bool.and_eq_true] at hw
  refine ⟨lt_of_lt_of_le (encAV_lt _ _ _ _ _ _ _ ?_ ?_ ?_ ?_ ?_ ?_) (by decide), ?_⟩
  iterate 6 (first | decide | simp [mreg_lt, intEt_lt, Fin.is_lt] | omega)
  simp [encodeWord, litOf, decodeA, decodeVint, encAV_26_6, encAV_21_5, encAV_16_5, encAV_11_5, encAV_8_3, encAV_5_3, encAV_0_5, encAV_3_2, encAV_0_3, encAV_23_3, encAV_21_2, toX_val, toM_val, getM_val, mreg_lt, intEt_lt, intEtOf_code, mreg4_lt, ofNat64, cast64, need_true, ok_bind, pure_ok, hw]

theorem RoundTrip.vor (x1 : VReg) (x2 : VReg) (x3 : VReg) (x4 : MReg) (x5 : IntEt) : RoundTrip.Statement (.vor x1 x2 x3 x4 x5) := by
  intro hw
  simp only [Instr.wf, Bool.and_eq_true] at hw
  refine ⟨lt_of_lt_of_le (encAV_lt _ _ _ _ _ _ _ ?_ ?_ ?_ ?_ ?_ ?_) (by decide), ?_⟩
  iterate 6 (first | decide | simp [mreg_lt, intEt_lt, Fin.is_lt] | omega)
  simp [encodeWord, litOf, decodeA, decodeVint, encAV_26_6, encAV_21_5, encAV_16_5, encAV_11_5, encAV_8_3, encAV_5_3, encAV_0_5, encAV_3_2, encAV_0_3, encAV_23_3, encAV_21_2, toX_val, toM_val, getM_val, mreg_lt, intEt_lt, intEtOf_code, mreg4_lt, ofNat64, cast64, need_true, ok_bind, pure_ok, hw]

theorem RoundTrip.vxor (x1 : VReg) (x2 : VReg) (x3 : VReg) (x4 : MReg) (x5 : IntEt) : RoundTrip.Statement (.vxor x1 x2 x3 x4 x5) := by
  intro hw
  simp only [Instr.wf, Bool.and_eq_true] at hw
  refine ⟨lt_of_lt_of_le (encAV_lt _ _ _ _ _ _ _ ?_ ?_ ?_ ?_ ?_ ?_) (by decide), ?_⟩
  iterate 6 (first | decide | simp [mreg_lt, intEt_lt, Fin.is_lt] | omega)
  simp [encodeWord, litOf, decodeA, decodeVint, encAV_26_6, encAV_21_5, encAV_16_5, encAV_11_5, encAV_8_3, encAV_5_3, encAV_0_5, encAV_3_2, encAV_0_3, encAV_23_3, encAV_21_2, toX_val, toM_val, getM_val, mreg_lt, intEt_lt, intEtOf_code, mreg4_lt, ofNat64, cast64, need_true, ok_bind, pure_ok, hw]

theorem RoundTrip.vsll (x1 : VReg) (x2 : VReg) (x3 : VReg) (x4 : MReg) (x5 : IntEt) : RoundTrip.Statement (.vsll x1 x2 x3 x4 x5) := by
  intro hw
  simp only [Instr.wf, Bool.and_eq_true] at hw
  refine ⟨lt_of_lt_of_le (encAV_lt _ _ _ _ _ _ _ ?_ ?_ ?_ ?_ ?_ ?_) (by decide), ?_⟩
  iterate 6 (first | decide | simp [mreg_lt, intEt_lt, Fin.is_lt] | omega)
  simp [encodeWord, litOf, decodeA, decodeVint, encAV_26_6, encAV_21_5, encAV_16_5, encAV_11_5, encAV_8_3, encAV_5_3, encAV_0_5, encAV_3_2, encAV_0_3, encAV_23_3, encAV_21_2, toX_val, toM_val, getM_val, mreg_lt, intEt_lt, intEtOf_code, mreg4_lt, ofNat64, cast64, need_true, ok_bind, pure_ok, hw]

theorem RoundTrip.vsrl (x1 : VReg) (x2 : VReg) (x3 : VReg) (x4 : MReg) (x5 : IntEt) : RoundTrip.Statement (.vsrl x1 x2 x3 x4 x5) := by
  intro hw
  simp only [Instr.wf, Bool.and_eq_true] at hw
  refine ⟨lt_of_lt_of_le (encAV_lt _ _ _ _ _ _ _ ?_ ?_ ?_ ?_ ?_ ?_) (by decide), ?_⟩
  iterate 6 (first | decide | simp [mreg_lt, intEt_lt, Fin.is_lt] | omega)
  simp [encodeWord, litOf, decodeA, decodeVint, encAV_26_6, encAV_21_5, encAV_16_5, encAV_11_5, encAV_8_3, encAV_5_3, encAV_0_5, encAV_3_2, encAV_0_3, encAV_23_3, encAV_21_2, toX_val, toM_val, getM_val, mreg_lt, intEt_lt, intEtOf_code, mreg4_lt, ofNat64, cast64, need_true, ok_bind, pure_ok, hw]

theorem RoundTrip.vsra (x1 : VReg) (x2 : VReg) (x3 : VReg) (x4 : MReg) (x5 : IntEt) : RoundTrip.Statement (.vsra x1 x2 x3 x4 x5) := by
  intro hw
  simp only [Instr.wf, Bool.and_eq_true] at hw
  refine ⟨lt_of_lt_of_le (encAV_lt _ _ _ _ _ _ _ ?_ ?_ ?_ ?_ ?_ ?_) (by decide), ?_⟩
  iterate 6 (first | decide | simp [mreg_lt, intEt_lt, Fin.is_lt] | omega)
  simp [encodeWord, litOf, decodeA, decodeVint, encAV_26_6, encAV_21_5, encAV_16_5, encAV_11_5, encAV_8_3, encAV_5_3, encAV_0_5, encAV_3_2, encAV_0_3, encAV_23_3, encAV_21_2, toX_val, toM_val, getM_val, mreg_lt, intEt_lt, intEtOf_code, mreg4_lt, ofNat64, cast64, need_true, ok_bind, pure_ok, hw]

theorem RoundTrip.vadds (x1 : VReg) (x2 : VReg) (x3 : VReg) (x4 : MReg) (x5 : IntEt) : RoundTrip.Statement (.vadds x1 x2 x3 x4 x5) := by
  intro hw
  simp only [Instr.wf, Bool.and_eq_true] at hw
  refine ⟨lt_of_lt_of_le (encAV_lt _ _ _ _ _ _ _ ?_ ?_ ?_ ?_ ?_ ?_) (by decide), ?_⟩
  iterate 6 (first | decide | simp [mreg_lt, intEt_lt, Fin.is_lt] | omega)
  simp [encodeWord, litOf, decodeA, decodeVint, encAV_26_6, encAV_21_5, encAV_16_5, encAV_11_5, encAV_8_3, encAV_5_3, encAV_0_5, encAV_3_2, encAV_0_3, encAV_23_3, encAV_21_2, toX_val, toM_val, getM_val, mreg_lt, intEt_lt, intEtOf_code, mreg4_lt, ofNat64, cast64, need_true, ok_bind, pure_ok, hw]

theorem RoundTrip.vsubs (x1 : VReg) (x2 : VReg) (x3 : VReg) (x4 : MReg) (x5 : IntEt) : RoundTrip.Statement (.vsubs x1 x2 x3 x4 x5) := by
  intro hw
  simp only [Instr.wf, Bool.and_eq_true] at hw
  refine ⟨lt_of_lt_of_le (encAV_lt _ _ _ _ _ _ _ ?_ ?_ ?_ ?_ ?_ ?_) (by decide), ?_⟩
  iterate 6 (first | decide | simp [mreg_lt, intEt_lt, Fin.is_lt] | omega)
  simp [encodeWord, litOf, decodeA, decodeVint, encAV_26_6, encAV_21_5, encAV_16_5, encAV_11_5, encAV_8_3, encAV_5_3, encAV_0_5, encAV_3_2, encAV_0_3, encAV_23_3, encAV_21_2, toX_val, toM_val, getM_val, mreg_lt, intEt_lt, intEtOf_code, mreg4_lt, ofNat64, cast64, need_true, ok_bind, pure_ok, hw]

theorem RoundTrip.vabs (x1 : VReg) (x2 : VReg) (x3 : MReg) (x4 : IntEt) : RoundTrip.Statement (.vabs x1 x2 x3 x4) := by
  intro hw
  simp only [Instr.wf, Bool.and_eq_true] at hw
  refine ⟨lt_of_lt_of_le (encAV_lt _ _ _ _ _ _ _ ?_ ?_ ?_ ?_ ?_ ?_) (by decide), ?_⟩
  iterate 6 (first | decide | simp [mreg_lt, intEt_lt, Fin.is_lt] | omega)
  simp [encodeWord, litOf, decodeA, decodeVint, encAV_26_6, encAV_21_5, encAV_16_5, encAV_11_5, encAV_8_3, encAV_5_3, encAV_0_5, encAV_3_2, encAV_0_3, encAV_23_3, encAV_21_2, toX_val, toM_val, getM_val, mreg_lt, intEt_lt, intEtOf_code, mreg4_lt, ofNat64, cast64, need_true, ok_bind, pure_ok, hw]

theorem RoundTrip.vneg (x1 : VReg) (x2 : VReg) (x3 : MReg) (x4 : IntEt) : RoundTrip.Statement (.vneg x1 x2 x3 x4) := by
  intro hw
  simp only [Instr.wf, Bool.and_eq_true] at hw
  refine ⟨lt_of_lt_of_le (encAV_lt _ _ _ _ _ _ _ ?_ ?_ ?_ ?_ ?_ ?_) (by decide), ?_⟩
  iterate 6 (first | decide | simp [mreg_lt, intEt_lt, Fin.is_lt] | omega)
  simp [encodeWord, litOf, decodeA, decodeVint, encAV_26_6, encAV_21_5, encAV_16_5, encAV_11_5, encAV_8_3, encAV_5_3, encAV_0_5, encAV_3_2, encAV_0_3, encAV_23_3, encAV_21_2, toX_val, toM_val, getM_val, mreg_lt, intEt_lt, intEtOf_code, mreg4_lt, ofNat64, cast64, need_true, ok_bind, pure_ok, hw]

theorem RoundTrip.vfadd (x1 : VReg) (x2 : VReg) (x3 : VReg) (x4 : MReg) (x5 : FpEt) : RoundTrip.Statement (.vfadd x1 x2 x3 x4 x5) := by
  intro hw
  simp only [Instr.wf, Bool.and_eq_true] at hw
  refine ⟨lt_of_lt_of_le (encAV_lt _ _ _ _ _ _ _ ?_ ?_ ?_ ?_ ?_ ?_) (by decide), ?_⟩
  iterate 6 (first | decide | simp [mreg_lt, fpEt_lt, Fin.is_lt] | omega)
  simp [encodeWord, litOf, decodeA, decodeVfp, encAV_26_6, encAV_21_5, encAV_16_5, encAV_11_5, encAV_8_3, encAV_5_3, encAV_0_5, encAV_3_2, encAV_0_3, encAV_23_3, encAV_21_2, toX_val, toM_val, getM_val, mreg_lt, fpEt_lt, fpEtOf_code, mreg4_lt, ofNat64, cast64, need_true, ok_bind, pure_ok, hw]

theorem RoundTrip.vfsub (x1 : VReg) (x2 : VReg) (x3 : VReg) (x4 : MReg) (x5 : FpEt) : RoundTrip.Statement (.vfsub x1 x2 x3 x4 x5) := by
  intro hw
  simp only [Instr.wf, Bool.and_eq_true] at hw
  refine ⟨lt_of_lt_of_le (encAV_lt _ _ _ _ _ _ _ ?_ ?_ ?_ ?_ ?_ ?_) (by decide), ?_⟩
  iterate 6 (first | decide | simp [mreg_lt, fpEt_lt, Fin.is_lt] | omega)
  simp [encodeWord, litOf, decodeA, decodeVfp, encAV_26_6, encAV_21_5, encAV_16_5, encAV_11_5, encAV_8_3, encAV_5_3, encAV_0_5, encAV_3_2, encAV_0_3, encAV_23_3, encAV_21_2, toX_val, toM_val, getM_val, mreg_lt, fpEt_lt, fpEtOf_code, mreg4_lt, ofNat64, cast64, need_true, ok_bind, pure_ok, hw]

theorem RoundTrip.vfmul (x1 : VReg) (x2 : VReg) (x3 : VReg) (x4 : MReg) (x5 : FpEt) : RoundTrip.Statement (.vfmul x1 x2 x3 x4 x5) := by
  intro hw
  simp only [Instr.wf, Bool.and_eq_true] at hw
  refine ⟨lt_of_lt_of_le (encAV_lt _ _ _ _ _ _ _ ?_ ?_ ?_ ?_ ?_ ?_) (by decide), ?_⟩
  iterate 6 (first | decide | simp [mreg_lt, fpEt_lt, Fin.is_lt] | omega)
  simp [encodeWord, litOf, decodeA, decodeVfp, encAV_26_6, encAV_21_5, encAV_16_5, encAV_11_5, encAV_8_3, encAV_5_3, encAV_0_5, encAV_3_2, encAV_0_3, encAV_23_3, encAV_21_2, toX_val, toM_val, getM_val, mreg_lt, fpEt_lt, fpEtOf_code, mreg4_lt, ofNat64, cast64, need_true, ok_bind, pure_ok, hw]

theorem RoundTrip.vfdiv (x1 : VReg) (x2 : VReg) (x3 : VReg) (x4 : MReg) (x5 : FpEt) : RoundTrip.Statement (.vfdiv x1 x2 x3 x4 x5) := by
  intro hw
  simp only [Instr.wf, Bool.and_eq_true] at hw
  refine ⟨lt_of_lt_of_le (encAV_lt _ _ _ _ _ _ _ ?_ ?_ ?_ ?_ ?_ ?_) (by decide), ?_⟩
  iterate 6 (first | decide | simp [mreg_lt, fpEt_lt, Fin.is_lt] | omega)
  simp [encodeWord, litOf, decodeA, decodeVfp, encAV_26_6, encAV_21_5, encAV_16_5, encAV_11_5, encAV_8_3, encAV_5_3, encAV_0_5, encAV_3_2, encAV_0_3, encAV_23_3, encAV_21_2, toX_val, toM_val, getM_val, mreg_lt, fpEt_lt, fpEtOf_code, mreg4_lt, ofNat64, cast64, need_true, ok_bind, pure_ok, hw]

theorem RoundTrip.vfsqrt (x1 : VReg) (x2 : VReg) (x3 : MReg) (x4 : FpEt) : RoundTrip.Statement (.vfsqrt x1 x2 x3 x4) := by
  intro hw
  simp only [Instr.wf, Bool.and_eq_true] at hw
  refine ⟨lt_of_lt_of_le (encAV_lt _ _ _ _ _ _ _ ?_ ?_ ?_ ?_ ?_ ?_) (by decide), ?_⟩
  iterate 6 (first | decide | simp [mreg_lt, fpEt_lt, Fin.is_lt] | omega)
  simp [encodeWord, litOf, decodeA, decodeVfp, encAV_26_6, encAV_21_5, encAV_16_5, encAV_11_5, encAV_8_3, encAV_5_3, encAV_0_5, encAV_3_2, encAV_0_3, encAV_23_3, encAV_21_2, toX_val, toM_val, getM_val, mreg_lt, fpEt_lt, fpEtOf_code, mreg4_lt, ofNat64, cast64, need_true, ok_bind, pure_ok, hw]

theorem RoundTrip.vfmin (x1 : VReg) (x2 : VReg) (x3 : VReg) (x4 : MReg) (x5 : FpEt) : RoundTrip.Statement (.vfmin x1 x2 x3 x4 x5) := by
  intro hw
  simp only [Instr.wf, Bool.and_eq_true] at hw
  refine ⟨lt_of_lt_of_le (encAV_lt _ _ _ _ _ _ _ ?_ ?_ ?_ ?_ ?_ ?_) (by decide), ?_⟩
  iterate 6 (first | decide | simp [mreg_lt, fpEt_lt, Fin.is_lt] | omega)
  simp [encodeWord, litOf, decodeA, decodeVfp, encAV_26_6, encAV_21_5, encAV_16_5, encAV_11_5, encAV_8_3, encAV_5_3, encAV_0_5, encAV_3_2, encAV_0_3, encAV_23_3, encAV_21_2, toX_val, toM_val, getM_val, mreg_lt, fpEt_lt, fpEtOf_code, mreg4_lt, ofNat64, cast64, need_true, ok_bind, pure_ok, hw]

theorem RoundTrip.vfmax (x1 : VReg) (x2 : VReg) (x3 : VReg) (x4 : MReg) (x5 : FpEt) : RoundTrip.Statement (.vfmax x1 x2 x3 x4 x5) := by
  intro hw
  simp only [Instr.wf, Bool.and_eq_true] at hw
  refine ⟨lt_of_lt_of_le (encAV_lt _ _ _ _ _ _ _ ?_ ?_ ?_ ?_ ?_ ?_) (by decide), ?_⟩
  iterate 6 (first | decide | simp [mreg_lt, fpEt_lt, Fin.is_lt] | omega)
  simp [encodeWord, litOf, decodeA, decodeVfp, encAV_26_6, encAV_21_5, encAV_16_5, encAV_11_5, encAV_8_3, encAV_5_3, encAV_0_5, encAV_3_2, encAV_0_3, encAV_23_3, encAV_21_2, toX_val, toM_val, getM_val, mreg_lt, fpEt_lt, fpEtOf_code, mreg4_lt, ofNat64, cast64, need_true, ok_bind, pure_ok, hw]

theorem RoundTrip.vfabs (x1 : VReg) (x2 : VReg) (x3 : MReg) (x4 : FpEt) : RoundTrip.Statement (.vfabs x1 x2 x3 x4) := by
  intro hw
  simp only [Instr.wf, Bool.and_eq_true] at hw
  refine ⟨lt_of_lt_of_le (encAV_lt _ _ _ _ _ _ _ ?_ ?_ ?_ ?_ ?_ ?_) (by decide), ?_⟩
  iterate 6 (first | decide | simp [mreg_lt, fpEt_lt, Fin.is_lt] | omega)
  simp [encodeWord, litOf, decodeA, decodeVfp, encAV_26_6, encAV_21_5, encAV_16_5, encAV_11_5, encAV_8_3, encAV_5_3, encAV_0_5, encAV_3_2, encAV_0_3, encAV_23_3, encAV_21_2, toX_val, toM_val, getM_val, mreg_lt, fpEt_lt, fpEtOf_code, mreg4_lt, ofNat64, cast64, need_true, ok_bind, pure_ok, hw]

theorem RoundTrip.vfneg (x1 : VReg) (x2 : VReg) (x3 : MReg) (x4 : FpEt) : RoundTrip.Statement (.vfneg x1 x2 x3 x4) := by
  intro hw
  simp only [Instr.wf, Bool.and_eq_true] at hw
  refine ⟨lt_of_lt_of_le (encAV_lt _ _ _ _ _ _ _ ?_ ?_ ?_ ?_ ?_ ?_) (by decide), ?_⟩
  iterate 6 (first | decide | simp [mreg_lt, fpEt_lt, Fin.is_lt] | omega)
  simp [encodeWord, litOf, decodeA, decodeVfp, encAV_26_6, encAV_21_5, encAV_16_5, encAV_11_5, encAV_8_3, encAV_5_3, encAV_0_5, encAV_3_2, encAV_0_3, encAV_23_3, encAV_21_2, toX_val, toM_val, getM_val, mreg_lt, fpEt_lt, fpEtOf_code, mreg4_lt, ofNat64, cast64, need_true, ok_bind, pure_ok, hw]

theorem RoundTrip.vfmadd (x1 : VReg) (x2 : VReg) (x3 : VReg) (x4 : MReg) (x5 : FpEt) (x6 : Rm) : RoundTrip.Statement (.vfmadd x1 x2 x3 x4 x5 x6) := by
  intro hw
  simp only [Instr.wf, Bool.and_eq_true] at hw
  refine ⟨lt_of_lt_of_le (encAV_lt _ _ _ _ _ _ _ ?_ ?_ ?_ ?_ ?_ ?_) (by decide), ?_⟩
  iterate 6 (first | decide | simp [mreg_lt, fpEt_lt, rm_lt5, Fin.is_lt] | omega)
  simp [encodeWord, litOf, decodeA, decodeVfma, encAV_26_6, encAV_21_5, encAV_16_5, encAV_11_5, encAV_8_3, encAV_5_3, encAV_0_5, encAV_3_2, encAV_0_3, encAV_23_3, encAV_21_2, toX_val, toM_val, getM_val, mreg_lt, fpEt_lt, fpEtOf_code, rm_lt, rmOf_code, rm_div, rm_mod, rm_lt5, mreg4_lt, ofNat64, cast64, need_true, ok_bind, pure_ok, hw]

theorem RoundTrip.vfmsub (x1 : VReg) (x2 : VReg) (x3 : VReg) (x4 : MReg) (x5 : FpEt) (x6 : Rm) : RoundTrip.Statement (.vfmsub x1 x2 x3 x4 x5 x6) := by
  intro hw
  simp only [Instr.wf, Bool.and_eq_true] at hw
  refine ⟨lt_of_lt_of_le (encAV_lt _ _ _ _ _ _ _ ?_ ?_ ?_ ?_ ?_ ?_) (by decide), ?_⟩
  iterate 6 (first | decide | simp [mreg_lt, fpEt_lt, rm_lt5, Fin.is_lt] | omega)
  simp [encodeWord, litOf, decodeA, decodeVfma, encAV_26_6, encAV_21_5, encAV_16_5, encAV_11_5, encAV_8_3, encAV_5_3, encAV_0_5, encAV_3_2, encAV_0_3, encAV_23_3, encAV_21_2, toX_val, toM_val, getM_val, mreg_lt, fpEt_lt, fpEtOf_code, rm_lt, rmOf_code, rm_div, rm_mod, rm_lt5, mreg4_lt, ofNat64, cast64, need_true, ok_bind, pure_ok, hw]

theorem RoundTrip.vfnmadd (x1 : VReg) (x2 : VReg) (x3 : VReg) (x4 : MReg) (x5 : FpEt) (x6 : Rm) : RoundTrip.Statement (.vfnmadd x1 x2 x3 x4 x5 x6) := by
  intro hw
  simp only [Instr.wf, Bool.and_eq_true] at hw
  refine ⟨lt_of_lt_of_le (encAV_lt _ _ _ _ _ _ _ ?_ ?_ ?_ ?_ ?_ ?_) (by decide), ?_⟩
  iterate 6 (first | decide | simp [mreg_lt, fpEt_lt, rm_lt5, Fin.is_lt] | omega)
  simp [encodeWord, litOf, decodeA, decodeVfma, encAV_26_6, encAV_21_5, encAV_16_5, encAV_11_5, encAV_8_3, encAV_5_3, encAV_0_5, encAV_3_2, encAV_0_3, encAV_23_3, encAV_21_2, toX_val, toM_val, getM_val, mreg_lt, fpEt_lt, fpEtOf_code, rm_lt, rmOf_code, rm_div, rm_mod, rm_lt5, mreg4_lt, ofNat64, cast64, need_true, ok_bind, pure_ok, hw]

theorem RoundTrip.vfnmsub (x1 : VReg) (x2 : VReg) (x3 : VReg) (x4 : MReg) (x5 : FpEt) (x6 : Rm) : RoundTrip.Statement (.vfnmsub x1 x2 x3 x4 x5 x6) := by
  intro hw
  simp only [Instr.wf, Bool.and_eq_true] at hw
  refine ⟨lt_of_lt_of_le (encAV_lt _ _ _ _ _ _ _ ?_ ?_ ?_ ?_ ?_ ?_) (by decide), ?_⟩
  iterate 6 (first | decide | simp [mreg_lt, fpEt_lt, rm_lt5, Fin.is_lt] | omega)
  simp [encodeWord, litOf, decodeA, decodeVfma, encAV_26_6, encAV_21_5, encAV_16_5, encAV_11_5, encAV_8_3, encAV_5_3, encAV_0_5, encAV_3_2, encAV_0_3, encAV_23_3, encAV_21_2, toX_val, toM_val, getM_val, mreg_lt, fpEt_lt, fpEtOf_code, rm_lt, rmOf_code, rm_div, rm_mod, rm_lt5, mreg4_lt, ofNat64, cast64, need_true, ok_bind, pure_ok, hw]

theorem RoundTrip.vcmp (x1 : MReg) (x2 : VReg) (x3 : VReg) (x4 : MReg) (x5 : Cc) (x6 : Et) : RoundTrip.Statement (.vcmp x1 x2 x3 x4 x5 x6) := by
  intro hw
  simp only [Instr.wf, Bool.and_eq_true] at hw
  refine ⟨lt_of_lt_of_le (encAV_lt _ _ _ _ _ _ _ ?_ ?_ ?_ ?_ ?_ ?_) (by decide), ?_⟩
  iterate 6 (first | decide | simp [mreg_lt, cc_lt, et_lt, Fin.is_lt] | omega)
  simp [encodeWord, litOf, decodeA, decodeVmisc, encAV_26_6, encAV_21_5, encAV_16_5, encAV_11_5, encAV_8_3, encAV_5_3, encAV_0_5, encAV_3_2, encAV_0_3, encAV_23_3, encAV_21_2, toM_val, getM_val, mreg_lt, toX_val, cc_lt, ccOf_code, et_lt, etOf_code, mreg4_lt, ofNat64, cast64, need_true, ok_bind, pure_ok, hw]

theorem RoundTrip.vsel (x1 : VReg) (x2 : VReg) (x3 : VReg) (x4 : MReg) (x5 : Et) : RoundTrip.Statement (.vsel x1 x2 x3 x4 x5) := by
  intro hw
  simp only [Instr.wf, Bool.and_eq_true] at hw
  refine ⟨lt_of_lt_of_le (encAV_lt _ _ _ _ _ _ _ ?_ ?_ ?_ ?_ ?_ ?_) (by decide), ?_⟩
  iterate 6 (first | decide | simp [mreg_lt, et_lt, Fin.is_lt] | omega)
  simp [encodeWord, litOf, decodeA, decodeVmisc, encAV_26_6, encAV_21_5, encAV_16_5, encAV_11_5, encAV_8_3, encAV_5_3, encAV_0_5, encAV_3_2, encAV_0_3, encAV_23_3, encAV_21_2, toX_val, toM_val, getM_val, mreg_lt, et_lt, etOf_code, mreg4_lt, ofNat64, cast64, need_true, ok_bind, pure_ok, hw]

theorem RoundTrip.vred (x1 : RedForm) (x2 : VReg) (x3 : MReg) : RoundTrip.Statement (.vred x1 x2 x3) := by
  intro hw
  simp only [Instr.wf, Bool.and_eq_true] at hw
  cases x1 with
  | int d op et =>
    cases op
    all_goals
      refine ⟨lt_of_lt_of_le (encAV_lt _ _ _ _ _ _ _ ?_ ?_ ?_ ?_ ?_ ?_) (by decide), ?_⟩
      iterate 6 (first | decide | simp [mreg_lt, Fin.is_lt, fpEt_lt, intEt_lt, freg_lt] | omega)
      simp [encodeWord, litOf, decodeA, decodeVmisc, encAV_26_6, encAV_21_5, encAV_16_5, encAV_11_5, encAV_8_3, encAV_5_3, encAV_0_5, encAV_3_2, encAV_0_3, encAV_23_3, encAV_21_2, toX_val, toM_val, getM_val, mreg_lt, mreg4_lt, intEtOf_code, fpEtOf_code, intEt_lt, fpEt_lt, getF_val, freg_lt, IntRed.code, FpRed.code, toX_val, ofNat64, cast64, need_true, ok_bind, pure_ok, hw]
  | fp d op et =>
    cases op
    all_goals
      refine ⟨lt_of_lt_of_le (encAV_lt _ _ _ _ _ _ _ ?_ ?_ ?_ ?_ ?_ ?_) (by decide), ?_⟩
      iterate 6 (first | decide | simp [mreg_lt, Fin.is_lt, fpEt_lt, intEt_lt, freg_lt] | omega)
      simp [encodeWord, litOf, decodeA, decodeVmisc, encAV_26_6, encAV_21_5, encAV_16_5, encAV_11_5, encAV_8_3, encAV_5_3, encAV_0_5, encAV_3_2, encAV_0_3, encAV_23_3, encAV_21_2, toX_val, toM_val, getM_val, mreg_lt, mreg4_lt, intEtOf_code, fpEtOf_code, intEt_lt, fpEt_lt, getF_val, freg_lt, IntRed.code, FpRed.code, toX_val, ofNat64, cast64, need_true, ok_bind, pure_ok, hw]

theorem RoundTrip.vperm (x1 : VReg) (x2 : VReg) (x3 : VReg) (x4 : MReg) (x5 : Et) : RoundTrip.Statement (.vperm x1 x2 x3 x4 x5) := by
  intro hw
  simp only [Instr.wf, Bool.and_eq_true] at hw
  refine ⟨lt_of_lt_of_le (encAV_lt _ _ _ _ _ _ _ ?_ ?_ ?_ ?_ ?_ ?_) (by decide), ?_⟩
  iterate 6 (first | decide | simp [mreg_lt, et_lt, Fin.is_lt] | omega)
  simp [encodeWord, litOf, decodeA, decodeVmisc, encAV_26_6, encAV_21_5, encAV_16_5, encAV_11_5, encAV_8_3, encAV_5_3, encAV_0_5, encAV_3_2, encAV_0_3, encAV_23_3, encAV_21_2, toX_val, toM_val, getM_val, mreg_lt, et_lt, etOf_code, mreg4_lt, ofNat64, cast64, need_true, ok_bind, pure_ok, hw]

theorem RoundTrip.vbcastX (x1 : VReg) (x2 : XReg) (x3 : MReg) (x4 : Et) : RoundTrip.Statement (.vbcastX x1 x2 x3 x4) := by
  intro hw
  simp only [Instr.wf, Bool.and_eq_true] at hw
  refine ⟨lt_of_lt_of_le (encAV_lt _ _ _ _ _ _ _ ?_ ?_ ?_ ?_ ?_ ?_) (by decide), ?_⟩
  iterate 6 (first | decide | simp [mreg_lt, et_lt, Fin.is_lt] | omega)
  simp [encodeWord, litOf, decodeA, decodeVmisc, encAV_26_6, encAV_21_5, encAV_16_5, encAV_11_5, encAV_8_3, encAV_5_3, encAV_0_5, encAV_3_2, encAV_0_3, encAV_23_3, encAV_21_2, toX_val, toM_val, getM_val, mreg_lt, et_lt, etOf_code, mreg4_lt, ofNat64, cast64, need_true, ok_bind, pure_ok, hw]

theorem RoundTrip.vbcastF (x1 : VReg) (x2 : FReg) (x3 : MReg) (x4 : FpEt) : RoundTrip.Statement (.vbcastF x1 x2 x3 x4) := by
  intro hw
  simp only [Instr.wf, Bool.and_eq_true] at hw
  refine ⟨lt_of_lt_of_le (encAV_lt _ _ _ _ _ _ _ ?_ ?_ ?_ ?_ ?_ ?_) (by decide), ?_⟩
  iterate 6 (first | decide | simp [freg_lt, mreg_lt, fpEt_lt, Fin.is_lt] | omega)
  simp [encodeWord, litOf, decodeA, decodeVmisc, encAV_26_6, encAV_21_5, encAV_16_5, encAV_11_5, encAV_8_3, encAV_5_3, encAV_0_5, encAV_3_2, encAV_0_3, encAV_23_3, encAV_21_2, toX_val, getF_val, freg_lt, toM_val, getM_val, mreg_lt, fpEt_lt, fpEtOf_code, mreg4_lt, ofNat64, cast64, need_true, ok_bind, pure_ok, hw]

theorem RoundTrip.vbcastV (x1 : VReg) (x2 : VReg) (x3 : XReg) (x4 : MReg) (x5 : Et) : RoundTrip.Statement (.vbcastV x1 x2 x3 x4 x5) := by
  intro hw
  simp only [Instr.wf, Bool.and_eq_true] at hw
  refine ⟨lt_of_lt_of_le (encAV_lt _ _ _ _ _ _ _ ?_ ?_ ?_ ?_ ?_ ?_) (by decide), ?_⟩
  iterate 6 (first | decide | simp [mreg_lt, et_lt, Fin.is_lt] | omega)
  simp [encodeWord, litOf, decodeA, decodeVmisc, encAV_26_6, encAV_21_5, encAV_16_5, encAV_11_5, encAV_8_3, encAV_5_3, encAV_0_5, encAV_3_2, encAV_0_3, encAV_23_3, encAV_21_2, toX_val, toM_val, getM_val, mreg_lt, et_lt, etOf_code, mreg4_lt, ofNat64, cast64, need_true, ok_bind, pure_ok, hw]

theorem RoundTrip.vcvt (x1 : VReg) (x2 : VReg) (x3 : Fmt) (x4 : Fmt) (x5 : Fin 4) : RoundTrip.Statement (.vcvt x1 x2 x3 x4 x5) := by
  intro hw
  simp only [Instr.wf, Bool.and_eq_true] at hw
  refine ⟨lt_of_lt_of_le (encAVC_lt _ _ _ _ _) (by decide), ?_⟩
  iterate 0 (first | decide | simp [fmt_lt, shadd_lt, Fin.is_lt] | omega)
  simp [encodeWord, litOf, decodeA, decodeAVC, encAVC_26_6, encAVC_21_5, encAVC_16_5, encAVC_9_7, encAVC_2_7, encAVC_0_2, toX_val, fmt_lt, fmtOf_code, shadd_lt, mreg4_lt, ofNat64, cast64, need_true, ok_bind, pure_ok, hw]

theorem RoundTrip.vquant (x1 : VReg) (x2 : VReg) (x3 : Fmt) (x4 : XReg) : RoundTrip.Statement (.vquant x1 x2 x3 x4) := by
  intro hw
  simp only [Instr.wf, Bool.and_eq_true] at hw
  refine ⟨lt_of_lt_of_le (encAQ_lt _ _ _ _) (by decide), ?_⟩
  iterate 0 (first | decide | simp [fmt_lt, Fin.is_lt] | omega)
  simp [encodeWord, litOf, decodeA, decodeAQ, encAQ_26_6, encAQ_21_5, encAQ_16_5, encAQ_9_7, encAQ_4_5, encAQ_0_4, toX_val, fmt_lt, fmtOf_code, mreg4_lt, ofNat64, cast64, need_true, ok_bind, pure_ok, hw]

theorem RoundTrip.mand (x1 : MReg) (x2 : MReg) (x3 : MReg) : RoundTrip.Statement (.mand x1 x2 x3) := by
  intro hw
  simp only [Instr.wf, Bool.and_eq_true] at hw
  refine ⟨lt_of_lt_of_le (encAR_lt _ _ _ _ _ ?_ ?_ ?_ ?_ ?_) (by decide), ?_⟩
  iterate 5 (first | decide | simp [mreg_lt, Fin.is_lt] | omega)
  simp [encodeWord, litOf, decodeA, decodeMask, encAR_26_6, encAR_21_5, encAR_16_5, encAR_11_5, encAR_0_11, encAR_0_16, encAR_5_6, encAR_0_5, toM_val, getM_val, mreg_lt, mreg4_lt, ofNat64, cast64, need_true, ok_bind, pure_ok, hw]

theorem RoundTrip.mor (x1 : MReg) (x2 : MReg) (x3 : MReg) : RoundTrip.Statement (.mor x1 x2 x3) := by
  intro hw
  simp only [Instr.wf, Bool.and_eq_true] at hw
  refine ⟨lt_of_lt_of_le (encAR_lt _ _ _ _ _ ?_ ?_ ?_ ?_ ?_) (by decide), ?_⟩
  iterate 5 (first | decide | simp [mreg_lt, Fin.is_lt] | omega)
  simp [encodeWord, litOf, decodeA, decodeMask, encAR_26_6, encAR_21_5, encAR_16_5, encAR_11_5, encAR_0_11, encAR_0_16, encAR_5_6, encAR_0_5, toM_val, getM_val, mreg_lt, mreg4_lt, ofNat64, cast64, need_true, ok_bind, pure_ok, hw]

theorem RoundTrip.mxor (x1 : MReg) (x2 : MReg) (x3 : MReg) : RoundTrip.Statement (.mxor x1 x2 x3) := by
  intro hw
  simp only [Instr.wf, Bool.and_eq_true] at hw
  refine ⟨lt_of_lt_of_le (encAR_lt _ _ _ _ _ ?_ ?_ ?_ ?_ ?_) (by decide), ?_⟩
  iterate 5 (first | decide | simp [mreg_lt, Fin.is_lt] | omega)
  simp [encodeWord, litOf, decodeA, decodeMask, encAR_26_6, encAR_21_5, encAR_16_5, encAR_11_5, encAR_0_11, encAR_0_16, encAR_5_6, encAR_0_5, toM_val, getM_val, mreg_lt, mreg4_lt, ofNat64, cast64, need_true, ok_bind, pure_ok, hw]

theorem RoundTrip.mandn (x1 : MReg) (x2 : MReg) (x3 : MReg) : RoundTrip.Statement (.mandn x1 x2 x3) := by
  intro hw
  simp only [Instr.wf, Bool.and_eq_true] at hw
  refine ⟨lt_of_lt_of_le (encAR_lt _ _ _ _ _ ?_ ?_ ?_ ?_ ?_) (by decide), ?_⟩
  iterate 5 (first | decide | simp [mreg_lt, Fin.is_lt] | omega)
  simp [encodeWord, litOf, decodeA, decodeMask, encAR_26_6, encAR_21_5, encAR_16_5, encAR_11_5, encAR_0_11, encAR_0_16, encAR_5_6, encAR_0_5, toM_val, getM_val, mreg_lt, mreg4_lt, ofNat64, cast64, need_true, ok_bind, pure_ok, hw]

theorem RoundTrip.mnot (x1 : MReg) (x2 : MReg) : RoundTrip.Statement (.mnot x1 x2) := by
  intro hw
  simp only [Instr.wf, Bool.and_eq_true] at hw
  refine ⟨lt_of_lt_of_le (encAR_lt _ _ _ _ _ ?_ ?_ ?_ ?_ ?_) (by decide), ?_⟩
  iterate 5 (first | decide | simp [mreg_lt, Fin.is_lt] | omega)
  simp [encodeWord, litOf, decodeA, decodeMask, encAR_26_6, encAR_21_5, encAR_16_5, encAR_11_5, encAR_0_11, encAR_0_16, encAR_5_6, encAR_0_5, toM_val, getM_val, mreg_lt, mreg4_lt, ofNat64, cast64, need_true, ok_bind, pure_ok, hw]

theorem RoundTrip.mfromx (x1 : MReg) (x2 : XReg) : RoundTrip.Statement (.mfromx x1 x2) := by
  intro hw
  simp only [Instr.wf, Bool.and_eq_true] at hw
  refine ⟨lt_of_lt_of_le (encAR_lt _ _ _ _ _ ?_ ?_ ?_ ?_ ?_) (by decide), ?_⟩
  iterate 5 (first | decide | simp [mreg_lt, Fin.is_lt] | omega)
  simp [encodeWord, litOf, decodeA, decodeMask, encAR_26_6, encAR_21_5, encAR_16_5, encAR_11_5, encAR_0_11, encAR_0_16, encAR_5_6, encAR_0_5, toM_val, getM_val, mreg_lt, toX_val, mreg4_lt, ofNat64, cast64, need_true, ok_bind, pure_ok, hw]

theorem RoundTrip.mtox (x1 : XReg) (x2 : MReg) : RoundTrip.Statement (.mtox x1 x2) := by
  intro hw
  simp only [Instr.wf, Bool.and_eq_true] at hw
  refine ⟨lt_of_lt_of_le (encAR_lt _ _ _ _ _ ?_ ?_ ?_ ?_ ?_) (by decide), ?_⟩
  iterate 5 (first | decide | simp [mreg_lt, Fin.is_lt] | omega)
  simp [encodeWord, litOf, decodeA, decodeMask, encAR_26_6, encAR_21_5, encAR_16_5, encAR_11_5, encAR_0_11, encAR_0_16, encAR_5_6, encAR_0_5, toX_val, toM_val, getM_val, mreg_lt, mreg4_lt, ofNat64, cast64, need_true, ok_bind, pure_ok, hw]

theorem RoundTrip.mpopc (x1 : XReg) (x2 : MReg) : RoundTrip.Statement (.mpopc x1 x2) := by
  intro hw
  simp only [Instr.wf, Bool.and_eq_true] at hw
  refine ⟨lt_of_lt_of_le (encAR_lt _ _ _ _ _ ?_ ?_ ?_ ?_ ?_) (by decide), ?_⟩
  iterate 5 (first | decide | simp [mreg_lt, Fin.is_lt] | omega)
  simp [encodeWord, litOf, decodeA, decodeMask, encAR_26_6, encAR_21_5, encAR_16_5, encAR_11_5, encAR_0_11, encAR_0_16, encAR_5_6, encAR_0_5, toX_val, toM_val, getM_val, mreg_lt, mreg4_lt, ofNat64, cast64, need_true, ok_bind, pure_ok, hw]

theorem RoundTrip.exp (x1 : FReg) (x2 : FReg) : RoundTrip.Statement (.exp x1 x2) := by
  intro hw
  simp only [Instr.wf, Bool.and_eq_true] at hw
  refine ⟨lt_of_lt_of_le (encAS_lt _ _ _ _ _ ?_ ?_ ?_ ?_ ?_) (by decide), ?_⟩
  iterate 5 (first | decide | simp [freg_lt, Fin.is_lt] | omega)
  simp [encodeWord, litOf, decodeA, decodeSfu, encAS_26_6, encAS_21_5, encAS_16_5, encAS_13_3, encAS_12_1, encAS_9_3, encAS_0_9, getF_val, freg_lt, mreg4_lt, ofNat64, cast64, need_true, ok_bind, pure_ok, hw]

theorem RoundTrip.log (x1 : FReg) (x2 : FReg) : RoundTrip.Statement (.log x1 x2) := by
  intro hw
  simp only [Instr.wf, Bool.and_eq_true] at hw
  refine ⟨lt_of_lt_of_le (encAS_lt _ _ _ _ _ ?_ ?_ ?_ ?_ ?_) (by decide), ?_⟩
  iterate 5 (first | decide | simp [freg_lt, Fin.is_lt] | omega)
  simp [encodeWord, litOf, decodeA, decodeSfu, encAS_26_6, encAS_21_5, encAS_16_5, encAS_13_3, encAS_12_1, encAS_9_3, encAS_0_9, getF_val, freg_lt, mreg4_lt, ofNat64, cast64, need_true, ok_bind, pure_ok, hw]

theorem RoundTrip.rcp (x1 : FReg) (x2 : FReg) : RoundTrip.Statement (.rcp x1 x2) := by
  intro hw
  simp only [Instr.wf, Bool.and_eq_true] at hw
  refine ⟨lt_of_lt_of_le (encAS_lt _ _ _ _ _ ?_ ?_ ?_ ?_ ?_) (by decide), ?_⟩
  iterate 5 (first | decide | simp [freg_lt, Fin.is_lt] | omega)
  simp [encodeWord, litOf, decodeA, decodeSfu, encAS_26_6, encAS_21_5, encAS_16_5, encAS_13_3, encAS_12_1, encAS_9_3, encAS_0_9, getF_val, freg_lt, mreg4_lt, ofNat64, cast64, need_true, ok_bind, pure_ok, hw]

theorem RoundTrip.rsqrt (x1 : FReg) (x2 : FReg) : RoundTrip.Statement (.rsqrt x1 x2) := by
  intro hw
  simp only [Instr.wf, Bool.and_eq_true] at hw
  refine ⟨lt_of_lt_of_le (encAS_lt _ _ _ _ _ ?_ ?_ ?_ ?_ ?_) (by decide), ?_⟩
  iterate 5 (first | decide | simp [freg_lt, Fin.is_lt] | omega)
  simp [encodeWord, litOf, decodeA, decodeSfu, encAS_26_6, encAS_21_5, encAS_16_5, encAS_13_3, encAS_12_1, encAS_9_3, encAS_0_9, getF_val, freg_lt, mreg4_lt, ofNat64, cast64, need_true, ok_bind, pure_ok, hw]

theorem RoundTrip.tanh (x1 : FReg) (x2 : FReg) : RoundTrip.Statement (.tanh x1 x2) := by
  intro hw
  simp only [Instr.wf, Bool.and_eq_true] at hw
  refine ⟨lt_of_lt_of_le (encAS_lt _ _ _ _ _ ?_ ?_ ?_ ?_ ?_) (by decide), ?_⟩
  iterate 5 (first | decide | simp [freg_lt, Fin.is_lt] | omega)
  simp [encodeWord, litOf, decodeA, decodeSfu, encAS_26_6, encAS_21_5, encAS_16_5, encAS_13_3, encAS_12_1, encAS_9_3, encAS_0_9, getF_val, freg_lt, mreg4_lt, ofNat64, cast64, need_true, ok_bind, pure_ok, hw]

theorem RoundTrip.sigm (x1 : FReg) (x2 : FReg) : RoundTrip.Statement (.sigm x1 x2) := by
  intro hw
  simp only [Instr.wf, Bool.and_eq_true] at hw
  refine ⟨lt_of_lt_of_le (encAS_lt _ _ _ _ _ ?_ ?_ ?_ ?_ ?_) (by decide), ?_⟩
  iterate 5 (first | decide | simp [freg_lt, Fin.is_lt] | omega)
  simp [encodeWord, litOf, decodeA, decodeSfu, encAS_26_6, encAS_21_5, encAS_16_5, encAS_13_3, encAS_12_1, encAS_9_3, encAS_0_9, getF_val, freg_lt, mreg4_lt, ofNat64, cast64, need_true, ok_bind, pure_ok, hw]

theorem RoundTrip.gelu (x1 : FReg) (x2 : FReg) : RoundTrip.Statement (.gelu x1 x2) := by
  intro hw
  simp only [Instr.wf, Bool.and_eq_true] at hw
  refine ⟨lt_of_lt_of_le (encAS_lt _ _ _ _ _ ?_ ?_ ?_ ?_ ?_) (by decide), ?_⟩
  iterate 5 (first | decide | simp [freg_lt, Fin.is_lt] | omega)
  simp [encodeWord, litOf, decodeA, decodeSfu, encAS_26_6, encAS_21_5, encAS_16_5, encAS_13_3, encAS_12_1, encAS_9_3, encAS_0_9, getF_val, freg_lt, mreg4_lt, ofNat64, cast64, need_true, ok_bind, pure_ok, hw]

theorem RoundTrip.vexp (x1 : VReg) (x2 : VReg) (x3 : MReg) : RoundTrip.Statement (.vexp x1 x2 x3) := by
  intro hw
  simp only [Instr.wf, Bool.and_eq_true] at hw
  refine ⟨lt_of_lt_of_le (encAS_lt _ _ _ _ _ ?_ ?_ ?_ ?_ ?_) (by decide), ?_⟩
  iterate 5 (first | decide | simp [mreg_lt, Fin.is_lt] | omega)
  simp [encodeWord, litOf, decodeA, decodeSfu, encAS_26_6, encAS_21_5, encAS_16_5, encAS_13_3, encAS_12_1, encAS_9_3, encAS_0_9, toX_val, toM_val, getM_val, mreg_lt, mreg4_lt, ofNat64, cast64, need_true, ok_bind, pure_ok, hw]

theorem RoundTrip.vlog (x1 : VReg) (x2 : VReg) (x3 : MReg) : RoundTrip.Statement (.vlog x1 x2 x3) := by
  intro hw
  simp only [Instr.wf, Bool.and_eq_true] at hw
  refine ⟨lt_of_lt_of_le (encAS_lt _ _ _ _ _ ?_ ?_ ?_ ?_ ?_) (by decide), ?_⟩
  iterate 5 (first | decide | simp [mreg_lt, Fin.is_lt] | omega)
  simp [encodeWord, litOf, decodeA, decodeSfu, encAS_26_6, encAS_21_5, encAS_16_5, encAS_13_3, encAS_12_1, encAS_9_3, encAS_0_9, toX_val, toM_val, getM_val, mreg_lt, mreg4_lt, ofNat64, cast64, need_true, ok_bind, pure_ok, hw]

theorem RoundTrip.vrcp (x1 : VReg) (x2 : VReg) (x3 : MReg) : RoundTrip.Statement (.vrcp x1 x2 x3) := by
  intro hw
  simp only [Instr.wf, Bool.and_eq_true] at hw
  refine ⟨lt_of_lt_of_le (encAS_lt _ _ _ _ _ ?_ ?_ ?_ ?_ ?_) (by decide), ?_⟩
  iterate 5 (first | decide | simp [mreg_lt, Fin.is_lt] | omega)
  simp [encodeWord, litOf, decodeA, decodeSfu, encAS_26_6, encAS_21_5, encAS_16_5, encAS_13_3, encAS_12_1, encAS_9_3, encAS_0_9, toX_val, toM_val, getM_val, mreg_lt, mreg4_lt, ofNat64, cast64, need_true, ok_bind, pure_ok, hw]

theorem RoundTrip.vrsqrt (x1 : VReg) (x2 : VReg) (x3 : MReg) : RoundTrip.Statement (.vrsqrt x1 x2 x3) := by
  intro hw
  simp only [Instr.wf, Bool.and_eq_true] at hw
  refine ⟨lt_of_lt_of_le (encAS_lt _ _ _ _ _ ?_ ?_ ?_ ?_ ?_) (by decide), ?_⟩
  iterate 5 (first | decide | simp [mreg_lt, Fin.is_lt] | omega)
  simp [encodeWord, litOf, decodeA, decodeSfu, encAS_26_6, encAS_21_5, encAS_16_5, encAS_13_3, encAS_12_1, encAS_9_3, encAS_0_9, toX_val, toM_val, getM_val, mreg_lt, mreg4_lt, ofNat64, cast64, need_true, ok_bind, pure_ok, hw]

theorem RoundTrip.vtanh (x1 : VReg) (x2 : VReg) (x3 : MReg) : RoundTrip.Statement (.vtanh x1 x2 x3) := by
  intro hw
  simp only [Instr.wf, Bool.and_eq_true] at hw
  refine ⟨lt_of_lt_of_le (encAS_lt _ _ _ _ _ ?_ ?_ ?_ ?_ ?_) (by decide), ?_⟩
  iterate 5 (first | decide | simp [mreg_lt, Fin.is_lt] | omega)
  simp [encodeWord, litOf, decodeA, decodeSfu, encAS_26_6, encAS_21_5, encAS_16_5, encAS_13_3, encAS_12_1, encAS_9_3, encAS_0_9, toX_val, toM_val, getM_val, mreg_lt, mreg4_lt, ofNat64, cast64, need_true, ok_bind, pure_ok, hw]

theorem RoundTrip.vsigm (x1 : VReg) (x2 : VReg) (x3 : MReg) : RoundTrip.Statement (.vsigm x1 x2 x3) := by
  intro hw
  simp only [Instr.wf, Bool.and_eq_true] at hw
  refine ⟨lt_of_lt_of_le (encAS_lt _ _ _ _ _ ?_ ?_ ?_ ?_ ?_) (by decide), ?_⟩
  iterate 5 (first | decide | simp [mreg_lt, Fin.is_lt] | omega)
  simp [encodeWord, litOf, decodeA, decodeSfu, encAS_26_6, encAS_21_5, encAS_16_5, encAS_13_3, encAS_12_1, encAS_9_3, encAS_0_9, toX_val, toM_val, getM_val, mreg_lt, mreg4_lt, ofNat64, cast64, need_true, ok_bind, pure_ok, hw]

theorem RoundTrip.vgelu (x1 : VReg) (x2 : VReg) (x3 : MReg) : RoundTrip.Statement (.vgelu x1 x2 x3) := by
  intro hw
  simp only [Instr.wf, Bool.and_eq_true] at hw
  refine ⟨lt_of_lt_of_le (encAS_lt _ _ _ _ _ ?_ ?_ ?_ ?_ ?_) (by decide), ?_⟩
  iterate 5 (first | decide | simp [mreg_lt, Fin.is_lt] | omega)
  simp [encodeWord, litOf, decodeA, decodeSfu, encAS_26_6, encAS_21_5, encAS_16_5, encAS_13_3, encAS_12_1, encAS_9_3, encAS_0_9, toX_val, toM_val, getM_val, mreg_lt, mreg4_lt, ofNat64, cast64, need_true, ok_bind, pure_ok, hw]

theorem RoundTrip.vloop (x1 : Fin 16) (x2 : XReg) : RoundTrip.Statement (.vloop x1 x2) := by
  intro hw
  have h0 := x1.isLt
  have h1 := x2.isLt
  simp only [Instr.wf, bne_iff_ne, ne_eq] at hw
  have e1 : fld (encodeWord (.vloop x1 x2)) 26 6 = 28 := by simp only [encodeWord]; unfold fld; omega
  have e2 : fld (encodeWord (.vloop x1 x2)) 0 17 = 0 := by simp only [encodeWord]; unfold fld; omega
  have e3 : fld (encodeWord (.vloop x1 x2)) 22 4 = x1.val := by simp only [encodeWord]; unfold fld; omega
  have e4 : fld (encodeWord (.vloop x1 x2)) 17 5 = x2.val := by simp only [encodeWord]; unfold fld; omega
  refine ⟨by simp only [encodeWord]; omega, ?_⟩
  simp [decodeA, decodeSeq, e1, e2, e3, e4, toX_val, hw]

theorem RoundTrip.vsetl (x1 : XReg) (x2 : XReg) : RoundTrip.Statement (.vsetl x1 x2) := by
  intro hw
  simp only [Instr.wf, Bool.and_eq_true] at hw
  refine ⟨lt_of_lt_of_le (encAR_lt _ _ _ _ _ ?_ ?_ ?_ ?_ ?_) (by decide), ?_⟩
  iterate 5 (first | decide | simp [Fin.is_lt] | omega)
  simp [encodeWord, litOf, decodeA, decodeSeq, encAR_26_6, encAR_21_5, encAR_16_5, encAR_11_5, encAR_0_11, encAR_0_16, encAR_5_6, encAR_0_5, toX_val, mreg4_lt, ofNat64, cast64, need_true, ok_bind, pure_ok, hw]

theorem RoundTrip.jal (x1 : XReg) (x2 : BitVec 19) : RoundTrip.Statement (.jal x1 x2) := by
  intro hw
  have h0 := x1.isLt
  have h1 := x2.isLt
  have e0 : fld (encodeWord (.jal x1 x2)) 24 6 = 1 := by simp only [encodeWord]; unfold fld; omega
  have e1 : fld (encodeWord (.jal x1 x2)) 19 5 = x1.val := by simp only [encodeWord]; unfold fld; omega
  have e2 : fld (encodeWord (.jal x1 x2)) 0 19 = x2.toNat := by simp only [encodeWord]; unfold fld; omega
  refine ⟨by simp only [encodeWord]; omega, ?_⟩
  simp [decodeC, decodeBranch, e0, e1, e2, toX_val]

theorem RoundTrip.jalr (x1 : XReg) (x2 : XReg) (x3 : BitVec 14) : RoundTrip.Statement (.jalr x1 x2 x3) := by
  intro hw
  simp only [Instr.wf, Bool.and_eq_true] at hw
  refine ⟨lt_of_lt_of_le (encCB_lt _ _ _ _ ?_) (by decide), ?_⟩
  iterate 1 (first | decide | simp [Fin.is_lt] | omega)
  simp [encodeWord, litOf, decodeC, decodeBranch, encCB_24_6, encCB_19_5, encCB_14_5, encCB_0_14, toX_val, mreg4_lt, ofNat64, cast64, need_true, ok_bind, pure_ok, hw]

theorem RoundTrip.bmaskAny (x1 : MReg) (x2 : BitVec 14) : RoundTrip.Statement (.bmaskAny x1 x2) := by
  intro hw
  simp only [Instr.wf, Bool.and_eq_true] at hw
  refine ⟨lt_of_lt_of_le (encCM_lt _ _ _ ?_) (by decide), ?_⟩
  iterate 1 (first | decide | simp [mreg_lt, Fin.is_lt] | omega)
  simp [encodeWord, litOf, decodeC, decodeCM, encCM_24_6, encCM_21_3, encCM_19_2, encCM_14_5, encCM_0_14, toM_val, getM_val, mreg_lt, mreg4_lt, ofNat64, cast64, need_true, ok_bind, pure_ok, hw]

theorem RoundTrip.bmaskNone (x1 : MReg) (x2 : BitVec 14) : RoundTrip.Statement (.bmaskNone x1 x2) := by
  intro hw
  simp only [Instr.wf, Bool.and_eq_true] at hw
  refine ⟨lt_of_lt_of_le (encCM_lt _ _ _ ?_) (by decide), ?_⟩
  iterate 1 (first | decide | simp [mreg_lt, Fin.is_lt] | omega)
  simp [encodeWord, litOf, decodeC, decodeCM, encCM_24_6, encCM_21_3, encCM_19_2, encCM_14_5, encCM_0_14, toM_val, getM_val, mreg_lt, mreg4_lt, ofNat64, cast64, need_true, ok_bind, pure_ok, hw]

theorem RoundTrip.bmaskAll (x1 : MReg) (x2 : BitVec 14) : RoundTrip.Statement (.bmaskAll x1 x2) := by
  intro hw
  simp only [Instr.wf, Bool.and_eq_true] at hw
  refine ⟨lt_of_lt_of_le (encCM_lt _ _ _ ?_) (by decide), ?_⟩
  iterate 1 (first | decide | simp [mreg_lt, Fin.is_lt] | omega)
  simp [encodeWord, litOf, decodeC, decodeCM, encCM_24_6, encCM_21_3, encCM_19_2, encCM_14_5, encCM_0_14, toM_val, getM_val, mreg_lt, mreg4_lt, ofNat64, cast64, need_true, ok_bind, pure_ok, hw]

theorem RoundTrip.beq (x1 : XReg) (x2 : XReg) (x3 : BitVec 14) : RoundTrip.Statement (.beq x1 x2 x3) := by
  intro hw
  simp only [Instr.wf, Bool.and_eq_true] at hw
  refine ⟨lt_of_lt_of_le (encCB_lt _ _ _ _ ?_) (by decide), ?_⟩
  iterate 1 (first | decide | simp [Fin.is_lt] | omega)
  simp [encodeWord, litOf, decodeC, decodeBranch, encCB_24_6, encCB_19_5, encCB_14_5, encCB_0_14, toX_val, mreg4_lt, ofNat64, cast64, need_true, ok_bind, pure_ok, hw]

theorem RoundTrip.bne (x1 : XReg) (x2 : XReg) (x3 : BitVec 14) : RoundTrip.Statement (.bne x1 x2 x3) := by
  intro hw
  simp only [Instr.wf, Bool.and_eq_true] at hw
  refine ⟨lt_of_lt_of_le (encCB_lt _ _ _ _ ?_) (by decide), ?_⟩
  iterate 1 (first | decide | simp [Fin.is_lt] | omega)
  simp [encodeWord, litOf, decodeC, decodeBranch, encCB_24_6, encCB_19_5, encCB_14_5, encCB_0_14, toX_val, mreg4_lt, ofNat64, cast64, need_true, ok_bind, pure_ok, hw]

theorem RoundTrip.blt (x1 : XReg) (x2 : XReg) (x3 : BitVec 14) : RoundTrip.Statement (.blt x1 x2 x3) := by
  intro hw
  simp only [Instr.wf, Bool.and_eq_true] at hw
  refine ⟨lt_of_lt_of_le (encCB_lt _ _ _ _ ?_) (by decide), ?_⟩
  iterate 1 (first | decide | simp [Fin.is_lt] | omega)
  simp [encodeWord, litOf, decodeC, decodeBranch, encCB_24_6, encCB_19_5, encCB_14_5, encCB_0_14, toX_val, mreg4_lt, ofNat64, cast64, need_true, ok_bind, pure_ok, hw]

theorem RoundTrip.bge (x1 : XReg) (x2 : XReg) (x3 : BitVec 14) : RoundTrip.Statement (.bge x1 x2 x3) := by
  intro hw
  simp only [Instr.wf, Bool.and_eq_true] at hw
  refine ⟨lt_of_lt_of_le (encCB_lt _ _ _ _ ?_) (by decide), ?_⟩
  iterate 1 (first | decide | simp [Fin.is_lt] | omega)
  simp [encodeWord, litOf, decodeC, decodeBranch, encCB_24_6, encCB_19_5, encCB_14_5, encCB_0_14, toX_val, mreg4_lt, ofNat64, cast64, need_true, ok_bind, pure_ok, hw]

theorem RoundTrip.bltu (x1 : XReg) (x2 : XReg) (x3 : BitVec 14) : RoundTrip.Statement (.bltu x1 x2 x3) := by
  intro hw
  simp only [Instr.wf, Bool.and_eq_true] at hw
  refine ⟨lt_of_lt_of_le (encCB_lt _ _ _ _ ?_) (by decide), ?_⟩
  iterate 1 (first | decide | simp [Fin.is_lt] | omega)
  simp [encodeWord, litOf, decodeC, decodeBranch, encCB_24_6, encCB_19_5, encCB_14_5, encCB_0_14, toX_val, mreg4_lt, ofNat64, cast64, need_true, ok_bind, pure_ok, hw]

theorem RoundTrip.bgeu (x1 : XReg) (x2 : XReg) (x3 : BitVec 14) : RoundTrip.Statement (.bgeu x1 x2 x3) := by
  intro hw
  simp only [Instr.wf, Bool.and_eq_true] at hw
  refine ⟨lt_of_lt_of_le (encCB_lt _ _ _ _ ?_) (by decide), ?_⟩
  iterate 1 (first | decide | simp [Fin.is_lt] | omega)
  simp [encodeWord, litOf, decodeC, decodeBranch, encCB_24_6, encCB_19_5, encCB_14_5, encCB_0_14, toX_val, mreg4_lt, ofNat64, cast64, need_true, ok_bind, pure_ok, hw]

theorem RoundTrip.llb (x1 : XReg) (x2 : XReg) (x3 : Buf) (x4 : LoadFe) (x5 : BitVec 9) : RoundTrip.Statement (.llb x1 x2 x3 x4 x5) := by
  intro hw
  simp only [Instr.wf, Bool.and_eq_true] at hw
  refine ⟨lt_of_lt_of_le (encCL_lt _ _ _ _ _ _ ?_ ?_) (by decide), ?_⟩
  iterate 2 (first | decide | simp [buf_lt, loadFe_lt, Fin.is_lt] | omega)
  simp [encodeWord, litOf, decodeC, decodeCL, encCL_24_6, encCL_19_5, encCL_14_5, encCL_12_2, encCL_9_3, encCL_0_9, toX_val, buf_lt, bufOf_code, loadFe_lt, loadFeOf_code, mreg4_lt, ofNat64, cast64, need_true, ok_bind, pure_ok, hw]

theorem RoundTrip.llbu (x1 : XReg) (x2 : XReg) (x3 : Buf) (x4 : LoadFe) (x5 : BitVec 9) : RoundTrip.Statement (.llbu x1 x2 x3 x4 x5) := by
  intro hw
  simp only [Instr.wf, Bool.and_eq_true] at hw
  refine ⟨lt_of_lt_of_le (encCL_lt _ _ _ _ _ _ ?_ ?_) (by decide), ?_⟩
  iterate 2 (first | decide | simp [buf_lt, loadFe_lt, Fin.is_lt] | omega)
  simp [encodeWord, litOf, decodeC, decodeCL, encCL_24_6, encCL_19_5, encCL_14_5, encCL_12_2, encCL_9_3, encCL_0_9, toX_val, buf_lt, bufOf_code, loadFe_lt, loadFeOf_code, mreg4_lt, ofNat64, cast64, need_true, ok_bind, pure_ok, hw]

theorem RoundTrip.llh (x1 : XReg) (x2 : XReg) (x3 : Buf) (x4 : LoadFe) (x5 : BitVec 9) : RoundTrip.Statement (.llh x1 x2 x3 x4 x5) := by
  intro hw
  simp only [Instr.wf, Bool.and_eq_true] at hw
  refine ⟨lt_of_lt_of_le (encCL_lt _ _ _ _ _ _ ?_ ?_) (by decide), ?_⟩
  iterate 2 (first | decide | simp [buf_lt, loadFe_lt, Fin.is_lt] | omega)
  simp [encodeWord, litOf, decodeC, decodeCL, encCL_24_6, encCL_19_5, encCL_14_5, encCL_12_2, encCL_9_3, encCL_0_9, toX_val, buf_lt, bufOf_code, loadFe_lt, loadFeOf_code, mreg4_lt, ofNat64, cast64, need_true, ok_bind, pure_ok, hw]

theorem RoundTrip.llhu (x1 : XReg) (x2 : XReg) (x3 : Buf) (x4 : LoadFe) (x5 : BitVec 9) : RoundTrip.Statement (.llhu x1 x2 x3 x4 x5) := by
  intro hw
  simp only [Instr.wf, Bool.and_eq_true] at hw
  refine ⟨lt_of_lt_of_le (encCL_lt _ _ _ _ _ _ ?_ ?_) (by decide), ?_⟩
  iterate 2 (first | decide | simp [buf_lt, loadFe_lt, Fin.is_lt] | omega)
  simp [encodeWord, litOf, decodeC, decodeCL, encCL_24_6, encCL_19_5, encCL_14_5, encCL_12_2, encCL_9_3, encCL_0_9, toX_val, buf_lt, bufOf_code, loadFe_lt, loadFeOf_code, mreg4_lt, ofNat64, cast64, need_true, ok_bind, pure_ok, hw]

theorem RoundTrip.llw (x1 : XReg) (x2 : XReg) (x3 : Buf) (x4 : LoadFe) (x5 : BitVec 9) : RoundTrip.Statement (.llw x1 x2 x3 x4 x5) := by
  intro hw
  simp only [Instr.wf, Bool.and_eq_true] at hw
  refine ⟨lt_of_lt_of_le (encCL_lt _ _ _ _ _ _ ?_ ?_) (by decide), ?_⟩
  iterate 2 (first | decide | simp [buf_lt, loadFe_lt, Fin.is_lt] | omega)
  simp [encodeWord, litOf, decodeC, decodeCL, encCL_24_6, encCL_19_5, encCL_14_5, encCL_12_2, encCL_9_3, encCL_0_9, toX_val, buf_lt, bufOf_code, loadFe_lt, loadFeOf_code, mreg4_lt, ofNat64, cast64, need_true, ok_bind, pure_ok, hw]

theorem RoundTrip.llwu (x1 : XReg) (x2 : XReg) (x3 : Buf) (x4 : LoadFe) (x5 : BitVec 9) : RoundTrip.Statement (.llwu x1 x2 x3 x4 x5) := by
  intro hw
  simp only [Instr.wf, Bool.and_eq_true] at hw
  refine ⟨lt_of_lt_of_le (encCL_lt _ _ _ _ _ _ ?_ ?_) (by decide), ?_⟩
  iterate 2 (first | decide | simp [buf_lt, loadFe_lt, Fin.is_lt] | omega)
  simp [encodeWord, litOf, decodeC, decodeCL, encCL_24_6, encCL_19_5, encCL_14_5, encCL_12_2, encCL_9_3, encCL_0_9, toX_val, buf_lt, bufOf_code, loadFe_lt, loadFeOf_code, mreg4_lt, ofNat64, cast64, need_true, ok_bind, pure_ok, hw]

theorem RoundTrip.lld (x1 : XReg) (x2 : XReg) (x3 : Buf) (x4 : LoadFe) (x5 : BitVec 9) : RoundTrip.Statement (.lld x1 x2 x3 x4 x5) := by
  intro hw
  simp only [Instr.wf, Bool.and_eq_true] at hw
  refine ⟨lt_of_lt_of_le (encCL_lt _ _ _ _ _ _ ?_ ?_) (by decide), ?_⟩
  iterate 2 (first | decide | simp [buf_lt, loadFe_lt, Fin.is_lt] | omega)
  simp [encodeWord, litOf, decodeC, decodeCL, encCL_24_6, encCL_19_5, encCL_14_5, encCL_12_2, encCL_9_3, encCL_0_9, toX_val, buf_lt, bufOf_code, loadFe_lt, loadFeOf_code, mreg4_lt, ofNat64, cast64, need_true, ok_bind, pure_ok, hw]

theorem RoundTrip.slb (x1 : XReg) (x2 : XReg) (x3 : Buf) (x4 : StoreFe) (x5 : BitVec 9) : RoundTrip.Statement (.slb x1 x2 x3 x4 x5) := by
  intro hw
  simp only [Instr.wf, Bool.and_eq_true] at hw
  refine ⟨lt_of_lt_of_le (encCL_lt _ _ _ _ _ _ ?_ ?_) (by decide), ?_⟩
  iterate 2 (first | decide | simp [buf_lt, storeFe_lt, Fin.is_lt] | omega)
  simp [encodeWord, litOf, decodeC, decodeCL, encCL_24_6, encCL_19_5, encCL_14_5, encCL_12_2, encCL_9_3, encCL_0_9, toX_val, buf_lt, bufOf_code, storeFe_lt, storeFeOf_code, mreg4_lt, ofNat64, cast64, need_true, ok_bind, pure_ok, hw]

theorem RoundTrip.slh (x1 : XReg) (x2 : XReg) (x3 : Buf) (x4 : StoreFe) (x5 : BitVec 9) : RoundTrip.Statement (.slh x1 x2 x3 x4 x5) := by
  intro hw
  simp only [Instr.wf, Bool.and_eq_true] at hw
  refine ⟨lt_of_lt_of_le (encCL_lt _ _ _ _ _ _ ?_ ?_) (by decide), ?_⟩
  iterate 2 (first | decide | simp [buf_lt, storeFe_lt, Fin.is_lt] | omega)
  simp [encodeWord, litOf, decodeC, decodeCL, encCL_24_6, encCL_19_5, encCL_14_5, encCL_12_2, encCL_9_3, encCL_0_9, toX_val, buf_lt, bufOf_code, storeFe_lt, storeFeOf_code, mreg4_lt, ofNat64, cast64, need_true, ok_bind, pure_ok, hw]

theorem RoundTrip.slw (x1 : XReg) (x2 : XReg) (x3 : Buf) (x4 : StoreFe) (x5 : BitVec 9) : RoundTrip.Statement (.slw x1 x2 x3 x4 x5) := by
  intro hw
  simp only [Instr.wf, Bool.and_eq_true] at hw
  refine ⟨lt_of_lt_of_le (encCL_lt _ _ _ _ _ _ ?_ ?_) (by decide), ?_⟩
  iterate 2 (first | decide | simp [buf_lt, storeFe_lt, Fin.is_lt] | omega)
  simp [encodeWord, litOf, decodeC, decodeCL, encCL_24_6, encCL_19_5, encCL_14_5, encCL_12_2, encCL_9_3, encCL_0_9, toX_val, buf_lt, bufOf_code, storeFe_lt, storeFeOf_code, mreg4_lt, ofNat64, cast64, need_true, ok_bind, pure_ok, hw]

theorem RoundTrip.sld (x1 : XReg) (x2 : XReg) (x3 : Buf) (x4 : StoreFe) (x5 : BitVec 9) : RoundTrip.Statement (.sld x1 x2 x3 x4 x5) := by
  intro hw
  simp only [Instr.wf, Bool.and_eq_true] at hw
  refine ⟨lt_of_lt_of_le (encCL_lt _ _ _ _ _ _ ?_ ?_) (by decide), ?_⟩
  iterate 2 (first | decide | simp [buf_lt, storeFe_lt, Fin.is_lt] | omega)
  simp [encodeWord, litOf, decodeC, decodeCL, encCL_24_6, encCL_19_5, encCL_14_5, encCL_12_2, encCL_9_3, encCL_0_9, toX_val, buf_lt, bufOf_code, storeFe_lt, storeFeOf_code, mreg4_lt, ofNat64, cast64, need_true, ok_bind, pure_ok, hw]

theorem RoundTrip.vld (x1 : VReg) (x2 : XReg) (x3 : Buf) (x4 : MReg) (x5 : BitVec 9) : RoundTrip.Statement (.vld x1 x2 x3 x4 x5) := by
  intro hw
  simp only [Instr.wf, Bool.and_eq_true] at hw
  refine ⟨lt_of_lt_of_le (encCL_lt _ _ _ _ _ _ ?_ ?_) (by decide), ?_⟩
  iterate 2 (first | decide | simp [buf_lt, mreg_lt, Fin.is_lt] | omega)
  simp [encodeWord, litOf, decodeC, decodeLocalVec, encCL_24_6, encCL_19_5, encCL_14_5, encCL_12_2, encCL_9_3, encCL_0_9, toX_val, buf_lt, bufOf_code, toM_val, getM_val, mreg_lt, mreg4_lt, ofNat64, cast64, need_true, ok_bind, pure_ok, hw]

theorem RoundTrip.vst (x1 : VReg) (x2 : XReg) (x3 : Buf) (x4 : MReg) (x5 : BitVec 9) : RoundTrip.Statement (.vst x1 x2 x3 x4 x5) := by
  intro hw
  simp only [Instr.wf, Bool.and_eq_true] at hw
  refine ⟨lt_of_lt_of_le (encCL_lt _ _ _ _ _ _ ?_ ?_) (by decide), ?_⟩
  iterate 2 (first | decide | simp [buf_lt, mreg_lt, Fin.is_lt] | omega)
  simp [encodeWord, litOf, decodeC, decodeLocalVec, encCL_24_6, encCL_19_5, encCL_14_5, encCL_12_2, encCL_9_3, encCL_0_9, toX_val, buf_lt, bufOf_code, toM_val, getM_val, mreg_lt, mreg4_lt, ofNat64, cast64, need_true, ok_bind, pure_ok, hw]

theorem RoundTrip.vlds (x1 : VReg) (x2 : XReg) (x3 : XReg) (x4 : Buf) (x5 : MReg) (x6 : Esz) : RoundTrip.Statement (.vlds x1 x2 x3 x4 x5 x6) := by
  intro hw
  simp only [Instr.wf, Bool.and_eq_true] at hw
  refine ⟨lt_of_lt_of_le (encCS_lt _ _ _ _ _ _ _ ?_) (by decide), ?_⟩
  iterate 1 (first | decide | simp [buf_lt, mreg_lt, esz_lt, Fin.is_lt] | omega)
  simp [encodeWord, litOf, decodeC, decodeLocalVec, encCS_24_6, encCS_19_5, encCS_14_5, encCS_9_5, encCS_7_2, encCS_4_3, encCS_2_2, encCS_0_2, toX_val, buf_lt, bufOf_code, toM_val, getM_val, mreg_lt, esz_lt, eszOf_code, mreg4_lt, ofNat64, cast64, need_true, ok_bind, pure_ok, hw]

theorem RoundTrip.vsts (x1 : VReg) (x2 : XReg) (x3 : XReg) (x4 : Buf) (x5 : MReg) (x6 : Esz) : RoundTrip.Statement (.vsts x1 x2 x3 x4 x5 x6) := by
  intro hw
  simp only [Instr.wf, Bool.and_eq_true] at hw
  refine ⟨lt_of_lt_of_le (encCS_lt _ _ _ _ _ _ _ ?_) (by decide), ?_⟩
  iterate 1 (first | decide | simp [buf_lt, mreg_lt, esz_lt, Fin.is_lt] | omega)
  simp [encodeWord, litOf, decodeC, decodeLocalVec, encCS_24_6, encCS_19_5, encCS_14_5, encCS_9_5, encCS_7_2, encCS_4_3, encCS_2_2, encCS_0_2, toX_val, buf_lt, bufOf_code, toM_val, getM_val, mreg_lt, esz_lt, eszOf_code, mreg4_lt, ofNat64, cast64, need_true, ok_bind, pure_ok, hw]

theorem RoundTrip.vldx (x1 : VReg) (x2 : XReg) (x3 : VReg) (x4 : Buf) (x5 : MReg) (x6 : Esz) : RoundTrip.Statement (.vldx x1 x2 x3 x4 x5 x6) := by
  intro hw
  simp only [Instr.wf, Bool.and_eq_true] at hw
  refine ⟨lt_of_lt_of_le (encCS_lt _ _ _ _ _ _ _ ?_) (by decide), ?_⟩
  iterate 1 (first | decide | simp [buf_lt, mreg_lt, esz_lt, Fin.is_lt] | omega)
  simp [encodeWord, litOf, decodeC, decodeLocalVec, encCS_24_6, encCS_19_5, encCS_14_5, encCS_9_5, encCS_7_2, encCS_4_3, encCS_2_2, encCS_0_2, toX_val, buf_lt, bufOf_code, toM_val, getM_val, mreg_lt, esz_lt, eszOf_code, mreg4_lt, ofNat64, cast64, need_true, ok_bind, pure_ok, hw]

theorem RoundTrip.vstx (x1 : VReg) (x2 : XReg) (x3 : VReg) (x4 : Buf) (x5 : MReg) (x6 : Esz) : RoundTrip.Statement (.vstx x1 x2 x3 x4 x5 x6) := by
  intro hw
  simp only [Instr.wf, Bool.and_eq_true] at hw
  refine ⟨lt_of_lt_of_le (encCS_lt _ _ _ _ _ _ _ ?_) (by decide), ?_⟩
  iterate 1 (first | decide | simp [buf_lt, mreg_lt, esz_lt, Fin.is_lt] | omega)
  simp [encodeWord, litOf, decodeC, decodeLocalVec, encCS_24_6, encCS_19_5, encCS_14_5, encCS_9_5, encCS_7_2, encCS_4_3, encCS_2_2, encCS_0_2, toX_val, buf_lt, bufOf_code, toM_val, getM_val, mreg_lt, esz_lt, eszOf_code, mreg4_lt, ofNat64, cast64, need_true, ok_bind, pure_ok, hw]

theorem RoundTrip.ld (x1 : XReg) (x2 : XReg) (x3 : RClass) (x4 : LoadFe) (x5 : LdWidth) : RoundTrip.Statement (.ld x1 x2 x3 x4 x5) := by
  intro hw
  simp only [Instr.wf, Bool.and_eq_true] at hw
  refine ⟨lt_of_lt_of_le (encCG_lt _ _ _ _ _ _ _ ?_ ?_ ?_) (by decide), ?_⟩
  iterate 3 (first | decide | simp [rclass_lt, loadFe_lt, ldWidth_lt, Fin.is_lt] | omega)
  simp [encodeWord, litOf, decodeC, decodeCG, encCG_24_6, encCG_19_5, encCG_14_5, encCG_9_5, encCG_7_2, encCG_4_3, encCG_0_4, toX_val, rclass_lt, classOf_code, loadFe_lt, loadFeOf_code, ldWidth_lt, ldWidthOf_code, mreg4_lt, ofNat64, cast64, need_true, ok_bind, pure_ok, hw]

theorem RoundTrip.st (x1 : XReg) (x2 : XReg) (x3 : RClass) (x4 : StoreFe) (x5 : StWidth) : RoundTrip.Statement (.st x1 x2 x3 x4 x5) := by
  intro hw
  simp only [Instr.wf, Bool.and_eq_true] at hw
  refine ⟨lt_of_lt_of_le (encCG_lt _ _ _ _ _ _ _ ?_ ?_ ?_) (by decide), ?_⟩
  iterate 3 (first | decide | simp [rclass_lt, storeFe_lt, stWidth_lt, Fin.is_lt] | omega)
  simp [encodeWord, litOf, decodeC, decodeCG, encCG_24_6, encCG_19_5, encCG_14_5, encCG_9_5, encCG_7_2, encCG_4_3, encCG_0_4, toX_val, rclass_lt, classOf_code, storeFe_lt, storeFeOf_code, stWidth_lt, stWidthOf_code, mreg4_lt, ofNat64, cast64, need_true, ok_bind, pure_ok, hw]

theorem RoundTrip.aadd (x1 : XReg) (x2 : XReg) (x3 : XReg) (x4 : RClass) (x5 : Bool) : RoundTrip.Statement (.aadd x1 x2 x3 x4 x5) := by
  intro hw
  simp only [Instr.wf, Bool.and_eq_true] at hw
  refine ⟨lt_of_lt_of_le (encCG_lt _ _ _ _ _ _ _ ?_ ?_ ?_) (by decide), ?_⟩
  iterate 3 (first | decide | simp [rclass_lt, wf_lt, Fin.is_lt] | omega)
  simp [encodeWord, litOf, decodeC, decodeCG, encCG_24_6, encCG_19_5, encCG_14_5, encCG_9_5, encCG_7_2, encCG_4_3, encCG_0_4, toX_val, rclass_lt, classOf_code, wf_lt, wf_le, wf_beq, wf_eq, atomFeOf_code, mreg4_lt, ofNat64, cast64, need_true, ok_bind, pure_ok, hw]

theorem RoundTrip.amin (x1 : XReg) (x2 : XReg) (x3 : XReg) (x4 : RClass) (x5 : Bool) : RoundTrip.Statement (.amin x1 x2 x3 x4 x5) := by
  intro hw
  simp only [Instr.wf, Bool.and_eq_true] at hw
  refine ⟨lt_of_lt_of_le (encCG_lt _ _ _ _ _ _ _ ?_ ?_ ?_) (by decide), ?_⟩
  iterate 3 (first | decide | simp [rclass_lt, wf_lt, Fin.is_lt] | omega)
  simp [encodeWord, litOf, decodeC, decodeCG, encCG_24_6, encCG_19_5, encCG_14_5, encCG_9_5, encCG_7_2, encCG_4_3, encCG_0_4, toX_val, rclass_lt, classOf_code, wf_lt, wf_le, wf_beq, wf_eq, atomFeOf_code, mreg4_lt, ofNat64, cast64, need_true, ok_bind, pure_ok, hw]

theorem RoundTrip.amax (x1 : XReg) (x2 : XReg) (x3 : XReg) (x4 : RClass) (x5 : Bool) : RoundTrip.Statement (.amax x1 x2 x3 x4 x5) := by
  intro hw
  simp only [Instr.wf, Bool.and_eq_true] at hw
  refine ⟨lt_of_lt_of_le (encCG_lt _ _ _ _ _ _ _ ?_ ?_ ?_) (by decide), ?_⟩
  iterate 3 (first | decide | simp [rclass_lt, wf_lt, Fin.is_lt] | omega)
  simp [encodeWord, litOf, decodeC, decodeCG, encCG_24_6, encCG_19_5, encCG_14_5, encCG_9_5, encCG_7_2, encCG_4_3, encCG_0_4, toX_val, rclass_lt, classOf_code, wf_lt, wf_le, wf_beq, wf_eq, atomFeOf_code, mreg4_lt, ofNat64, cast64, need_true, ok_bind, pure_ok, hw]

theorem RoundTrip.aand (x1 : XReg) (x2 : XReg) (x3 : XReg) (x4 : RClass) (x5 : Bool) : RoundTrip.Statement (.aand x1 x2 x3 x4 x5) := by
  intro hw
  simp only [Instr.wf, Bool.and_eq_true] at hw
  refine ⟨lt_of_lt_of_le (encCG_lt _ _ _ _ _ _ _ ?_ ?_ ?_) (by decide), ?_⟩
  iterate 3 (first | decide | simp [rclass_lt, wf_lt, Fin.is_lt] | omega)
  simp [encodeWord, litOf, decodeC, decodeCG, encCG_24_6, encCG_19_5, encCG_14_5, encCG_9_5, encCG_7_2, encCG_4_3, encCG_0_4, toX_val, rclass_lt, classOf_code, wf_lt, wf_le, wf_beq, wf_eq, atomFeOf_code, mreg4_lt, ofNat64, cast64, need_true, ok_bind, pure_ok, hw]

theorem RoundTrip.aor (x1 : XReg) (x2 : XReg) (x3 : XReg) (x4 : RClass) (x5 : Bool) : RoundTrip.Statement (.aor x1 x2 x3 x4 x5) := by
  intro hw
  simp only [Instr.wf, Bool.and_eq_true] at hw
  refine ⟨lt_of_lt_of_le (encCG_lt _ _ _ _ _ _ _ ?_ ?_ ?_) (by decide), ?_⟩
  iterate 3 (first | decide | simp [rclass_lt, wf_lt, Fin.is_lt] | omega)
  simp [encodeWord, litOf, decodeC, decodeCG, encCG_24_6, encCG_19_5, encCG_14_5, encCG_9_5, encCG_7_2, encCG_4_3, encCG_0_4, toX_val, rclass_lt, classOf_code, wf_lt, wf_le, wf_beq, wf_eq, atomFeOf_code, mreg4_lt, ofNat64, cast64, need_true, ok_bind, pure_ok, hw]

theorem RoundTrip.axor (x1 : XReg) (x2 : XReg) (x3 : XReg) (x4 : RClass) (x5 : Bool) : RoundTrip.Statement (.axor x1 x2 x3 x4 x5) := by
  intro hw
  simp only [Instr.wf, Bool.and_eq_true] at hw
  refine ⟨lt_of_lt_of_le (encCG_lt _ _ _ _ _ _ _ ?_ ?_ ?_) (by decide), ?_⟩
  iterate 3 (first | decide | simp [rclass_lt, wf_lt, Fin.is_lt] | omega)
  simp [encodeWord, litOf, decodeC, decodeCG, encCG_24_6, encCG_19_5, encCG_14_5, encCG_9_5, encCG_7_2, encCG_4_3, encCG_0_4, toX_val, rclass_lt, classOf_code, wf_lt, wf_le, wf_beq, wf_eq, atomFeOf_code, mreg4_lt, ofNat64, cast64, need_true, ok_bind, pure_ok, hw]

theorem RoundTrip.aswap (x1 : XReg) (x2 : XReg) (x3 : XReg) (x4 : RClass) (x5 : Bool) : RoundTrip.Statement (.aswap x1 x2 x3 x4 x5) := by
  intro hw
  simp only [Instr.wf, Bool.and_eq_true] at hw
  refine ⟨lt_of_lt_of_le (encCG_lt _ _ _ _ _ _ _ ?_ ?_ ?_) (by decide), ?_⟩
  iterate 3 (first | decide | simp [rclass_lt, wf_lt, Fin.is_lt] | omega)
  simp [encodeWord, litOf, decodeC, decodeCG, encCG_24_6, encCG_19_5, encCG_14_5, encCG_9_5, encCG_7_2, encCG_4_3, encCG_0_4, toX_val, rclass_lt, classOf_code, wf_lt, wf_le, wf_beq, wf_eq, atomFeOf_code, mreg4_lt, ofNat64, cast64, need_true, ok_bind, pure_ok, hw]

theorem RoundTrip.acas (x1 : XReg) (x2 : XReg) (x3 : XReg) (x4 : RClass) (x5 : Bool) : RoundTrip.Statement (.acas x1 x2 x3 x4 x5) := by
  intro hw
  simp only [Instr.wf, Bool.and_eq_true] at hw
  refine ⟨lt_of_lt_of_le (encCG_lt _ _ _ _ _ _ _ ?_ ?_ ?_) (by decide), ?_⟩
  iterate 3 (first | decide | simp [rclass_lt, wf_lt, Fin.is_lt] | omega)
  simp [encodeWord, litOf, decodeC, decodeCG, encCG_24_6, encCG_19_5, encCG_14_5, encCG_9_5, encCG_7_2, encCG_4_3, encCG_0_4, toX_val, rclass_lt, classOf_code, wf_lt, wf_le, wf_beq, wf_eq, atomFeOf_code, mreg4_lt, ofNat64, cast64, need_true, ok_bind, pure_ok, hw]

theorem RoundTrip.afadd (x1 : XReg) (x2 : XReg) (x3 : XReg) (x4 : RClass) (x5 : Bool) : RoundTrip.Statement (.afadd x1 x2 x3 x4 x5) := by
  intro hw
  simp only [Instr.wf, Bool.and_eq_true] at hw
  refine ⟨lt_of_lt_of_le (encCG_lt _ _ _ _ _ _ _ ?_ ?_ ?_) (by decide), ?_⟩
  iterate 3 (first | decide | simp [rclass_lt, wf_lt, Fin.is_lt] | omega)
  simp [encodeWord, litOf, decodeC, decodeCG, encCG_24_6, encCG_19_5, encCG_14_5, encCG_9_5, encCG_7_2, encCG_4_3, encCG_0_4, toX_val, rclass_lt, classOf_code, wf_lt, wf_le, wf_beq, wf_eq, atomFeOf_code, mreg4_lt, ofNat64, cast64, need_true, ok_bind, pure_ok, hw]

theorem RoundTrip.fence (x1 : BitVec 3) (x2 : BitVec 4) (x3 : XReg) : RoundTrip.Statement (.fence x1 x2 x3) := by
  intro hw
  have h0 := x1.isLt
  have h1 := x2.isLt
  have h2 := x3.isLt
  have e0 : fld (encodeWord (.fence x1 x2 x3)) 24 6 = 37 := by simp only [encodeWord]; unfold fld; omega
  have e1 : fld (encodeWord (.fence x1 x2 x3)) 21 3 = x1.toNat := by simp only [encodeWord]; unfold fld; omega
  have e2 : fld (encodeWord (.fence x1 x2 x3)) 17 4 = x2.toNat := by simp only [encodeWord]; unfold fld; omega
  have e3 : fld (encodeWord (.fence x1 x2 x3)) 12 5 = x3.val := by simp only [encodeWord]; unfold fld; omega
  have e4 : fld (encodeWord (.fence x1 x2 x3)) 0 12 = 0 := by simp only [encodeWord]; unfold fld; omega
  refine ⟨by simp only [encodeWord]; omega, ?_⟩
  simp [decodeC, decodeCtl, e0, e1, e2, e3, e4, toX_val, need_true, ok_bind, pure_ok]

theorem RoundTrip.rfence : RoundTrip.Statement (.rfence) := by
  intro hw
  simp only [Instr.wf, Bool.and_eq_true] at hw
  refine ⟨lt_of_lt_of_le (encCX_lt _ _ _ _ _ ?_ ?_) (by decide), ?_⟩
  iterate 2 (first | decide | simp [Fin.is_lt] | omega)
  simp [encodeWord, litOf, decodeC, decodeCX, encCX_24_6, encCX_19_5, encCX_14_5, encCX_9_5, encCX_0_9, mreg4_lt, ofNat64, cast64, need_true, ok_bind, pure_ok, hw]

theorem RoundTrip.ifence : RoundTrip.Statement (.ifence) := by
  intro hw
  simp only [Instr.wf, Bool.and_eq_true] at hw
  refine ⟨lt_of_lt_of_le (encCX_lt _ _ _ _ _ ?_ ?_) (by decide), ?_⟩
  iterate 2 (first | decide | simp [Fin.is_lt] | omega)
  simp [encodeWord, litOf, decodeC, decodeCX, encCX_24_6, encCX_19_5, encCX_14_5, encCX_9_5, encCX_0_9, mreg4_lt, ofNat64, cast64, need_true, ok_bind, pure_ok, hw]

theorem RoundTrip.recv (x1 : XReg) : RoundTrip.Statement (.recv x1) := by
  intro hw
  simp only [Instr.wf, Bool.and_eq_true] at hw
  refine ⟨lt_of_lt_of_le (encCX_lt _ _ _ _ _ ?_ ?_) (by decide), ?_⟩
  iterate 2 (first | decide | simp [Fin.is_lt] | omega)
  simp [encodeWord, litOf, decodeC, decodeCX, encCX_24_6, encCX_19_5, encCX_14_5, encCX_9_5, encCX_0_9, toX_val, mreg4_lt, ofNat64, cast64, need_true, ok_bind, pure_ok, hw]

theorem RoundTrip.waitm : RoundTrip.Statement (.waitm) := by
  intro hw
  simp only [Instr.wf, Bool.and_eq_true] at hw
  refine ⟨lt_of_lt_of_le (encCX_lt _ _ _ _ _ ?_ ?_) (by decide), ?_⟩
  iterate 2 (first | decide | simp [Fin.is_lt] | omega)
  simp [encodeWord, litOf, decodeC, decodeCX, encCX_24_6, encCX_19_5, encCX_14_5, encCX_9_5, encCX_0_9, mreg4_lt, ofNat64, cast64, need_true, ok_bind, pure_ok, hw]

theorem RoundTrip.peekm (x1 : XReg) : RoundTrip.Statement (.peekm x1) := by
  intro hw
  simp only [Instr.wf, Bool.and_eq_true] at hw
  refine ⟨lt_of_lt_of_le (encCX_lt _ _ _ _ _ ?_ ?_) (by decide), ?_⟩
  iterate 2 (first | decide | simp [Fin.is_lt] | omega)
  simp [encodeWord, litOf, decodeC, decodeCX, encCX_24_6, encCX_19_5, encCX_14_5, encCX_9_5, encCX_0_9, toX_val, mreg4_lt, ofNat64, cast64, need_true, ok_bind, pure_ok, hw]

theorem RoundTrip.svc : RoundTrip.Statement (.svc) := by
  intro hw
  simp only [Instr.wf, Bool.and_eq_true] at hw
  refine ⟨lt_of_lt_of_le (encCX_lt _ _ _ _ _ ?_ ?_) (by decide), ?_⟩
  iterate 2 (first | decide | simp [Fin.is_lt] | omega)
  simp [encodeWord, litOf, decodeC, decodeCX, encCX_24_6, encCX_19_5, encCX_14_5, encCX_9_5, encCX_0_9, mreg4_lt, ofNat64, cast64, need_true, ok_bind, pure_ok, hw]

theorem RoundTrip.sret : RoundTrip.Statement (.sret) := by
  intro hw
  simp only [Instr.wf, Bool.and_eq_true] at hw
  refine ⟨lt_of_lt_of_le (encCX_lt _ _ _ _ _ ?_ ?_) (by decide), ?_⟩
  iterate 2 (first | decide | simp [Fin.is_lt] | omega)
  simp [encodeWord, litOf, decodeC, decodeCX, encCX_24_6, encCX_19_5, encCX_14_5, encCX_9_5, encCX_0_9, mreg4_lt, ofNat64, cast64, need_true, ok_bind, pure_ok, hw]

theorem RoundTrip.wfi : RoundTrip.Statement (.wfi) := by
  intro hw
  simp only [Instr.wf, Bool.and_eq_true] at hw
  refine ⟨lt_of_lt_of_le (encCX_lt _ _ _ _ _ ?_ ?_) (by decide), ?_⟩
  iterate 2 (first | decide | simp [Fin.is_lt] | omega)
  simp [encodeWord, litOf, decodeC, decodeCX, encCX_24_6, encCX_19_5, encCX_14_5, encCX_9_5, encCX_0_9, mreg4_lt, ofNat64, cast64, need_true, ok_bind, pure_ok, hw]

theorem RoundTrip.halt : RoundTrip.Statement (.halt) := by
  intro hw
  simp only [Instr.wf, Bool.and_eq_true] at hw
  refine ⟨lt_of_lt_of_le (encCX_lt _ _ _ _ _ ?_ ?_) (by decide), ?_⟩
  iterate 2 (first | decide | simp [Fin.is_lt] | omega)
  simp [encodeWord, litOf, decodeC, decodeCX, encCX_24_6, encCX_19_5, encCX_14_5, encCX_9_5, encCX_0_9, mreg4_lt, ofNat64, cast64, need_true, ok_bind, pure_ok, hw]

theorem RoundTrip.hret : RoundTrip.Statement (.hret) := by
  intro hw
  simp only [Instr.wf, Bool.and_eq_true] at hw
  refine ⟨lt_of_lt_of_le (encCX_lt _ _ _ _ _ ?_ ?_) (by decide), ?_⟩
  iterate 2 (first | decide | simp [Fin.is_lt] | omega)
  simp [encodeWord, litOf, decodeC, decodeCX, encCX_24_6, encCX_19_5, encCX_14_5, encCX_9_5, encCX_0_9, mreg4_lt, ofNat64, cast64, need_true, ok_bind, pure_ok, hw]

theorem RoundTrip.getc (x1 : XReg) (x2 : CReg) : RoundTrip.Statement (.getc x1 x2) := by
  intro hw
  simp only [Instr.wf, Bool.and_eq_true] at hw
  refine ⟨lt_of_lt_of_le (encCC_lt _ _ _ ?_ ?_) (by decide), ?_⟩
  iterate 2 (first | decide | simp [creg_lt, Fin.is_lt] | omega)
  simp [encodeWord, litOf, decodeC, decodeCtl, encCC_24_6, encCC_19_5, encCC_11_8, encCC_0_11, toX_val, creg_lt, cregOf_code, mreg4_lt, ofNat64, cast64, need_true, ok_bind, pure_ok, hw]

theorem RoundTrip.setc (x1 : XReg) (x2 : CReg) : RoundTrip.Statement (.setc x1 x2) := by
  intro hw
  simp only [Instr.wf, Bool.and_eq_true] at hw
  refine ⟨lt_of_lt_of_le (encCC_lt _ _ _ ?_ ?_) (by decide), ?_⟩
  iterate 2 (first | decide | simp [creg_lt, Fin.is_lt] | omega)
  simp [encodeWord, litOf, decodeC, decodeCtl, encCC_24_6, encCC_19_5, encCC_11_8, encCC_0_11, toX_val, creg_lt, cregOf_code, mreg4_lt, ofNat64, cast64, need_true, ok_bind, pure_ok, hw]

theorem RoundTrip.safept (x1 : BitVec 16) : RoundTrip.Statement (.safept x1) := by
  intro hw
  have h0 := x1.isLt
  have e0 : fld (encodeWord (.safept x1)) 24 6 = 41 := by simp only [encodeWord]; unfold fld; omega
  have e1 : fld (encodeWord (.safept x1)) 8 16 = x1.toNat := by simp only [encodeWord]; unfold fld; omega
  have e2 : fld (encodeWord (.safept x1)) 0 8 = 0 := by simp only [encodeWord]; unfold fld; omega
  refine ⟨by simp only [encodeWord]; omega, ?_⟩
  simp [decodeC, decodeCtl, e0, e1, e2, need_true, ok_bind, pure_ok]

theorem RoundTrip.sync (x1 : Fin 256) : RoundTrip.Statement (.sync x1) := by
  intro hw
  have h0 := x1.isLt
  have e0 : fld (encodeWord (.sync x1)) 24 6 = 42 := by simp only [encodeWord]; unfold fld; omega
  have e1 : fld (encodeWord (.sync x1)) 16 8 = x1.val := by simp only [encodeWord]; unfold fld; omega
  have e2 : fld (encodeWord (.sync x1)) 9 7 = 0 := by simp only [encodeWord]; unfold fld; omega
  have e3 : fld (encodeWord (.sync x1)) 0 9 = 0 := by simp only [encodeWord]; unfold fld; omega
  refine ⟨by simp only [encodeWord]; omega, ?_⟩
  simp [decodeC, decodeCtl, e0, e1, e2, e3, need_true, ok_bind, pure_ok]

theorem RoundTrip.xend (x1 : Fin 256) : RoundTrip.Statement (.xend x1) := by
  intro hw
  have h0 := x1.isLt
  have e0 : fld (encodeWord (.xend x1)) 24 6 = 42 := by simp only [encodeWord]; unfold fld; omega
  have e1 : fld (encodeWord (.xend x1)) 16 8 = x1.val := by simp only [encodeWord]; unfold fld; omega
  have e2 : fld (encodeWord (.xend x1)) 9 7 = 0 := by simp only [encodeWord]; unfold fld; omega
  have e3 : fld (encodeWord (.xend x1)) 0 9 = 1 := by simp only [encodeWord]; unfold fld; omega
  refine ⟨by simp only [encodeWord]; omega, ?_⟩
  simp [decodeC, decodeCtl, e0, e1, e2, e3, need_true, ok_bind, pure_ok]

theorem RoundTrip.xsend (x1 : XReg) (x2 : XReg) (x3 : BitVec 8) : RoundTrip.Statement (.xsend x1 x2 x3) := by
  intro hw
  simp only [Instr.wf, Bool.and_eq_true] at hw
  refine ⟨lt_of_lt_of_le (encCQ_lt _ _ _ _ _ ?_ ?_ ?_) (by decide), ?_⟩
  iterate 3 (first | decide | simp [imm8_lt, Fin.is_lt] | omega)
  simp [encodeWord, litOf, decodeC, decodeCQ, encCQ_24_6, encCQ_19_5, encCQ_14_5, encCQ_6_8, encCQ_4_2, encCQ_0_4, toX_val, imm8_lt, mreg4_lt, ofNat64, cast64, need_true, ok_bind, pure_ok, hw]

theorem RoundTrip.xexpect (x1 : XReg) : RoundTrip.Statement (.xexpect x1) := by
  intro hw
  simp only [Instr.wf, Bool.and_eq_true] at hw
  refine ⟨lt_of_lt_of_le (encCX_lt _ _ _ _ _ ?_ ?_) (by decide), ?_⟩
  iterate 2 (first | decide | simp [Fin.is_lt] | omega)
  simp [encodeWord, litOf, decodeC, decodeCX, encCX_24_6, encCX_19_5, encCX_14_5, encCX_9_5, encCX_0_9, toX_val, mreg4_lt, ofNat64, cast64, need_true, ok_bind, pure_ok, hw]

theorem RoundTrip.nqsend (x1 : VReg) (x2 : Dir) : RoundTrip.Statement (.nqsend x1 x2) := by
  intro hw
  simp only [Instr.wf, Bool.and_eq_true] at hw
  refine ⟨lt_of_lt_of_le (encCN_lt _ _ _ _ ?_ ?_ ?_ ?_) (by decide), ?_⟩
  iterate 4 (first | decide | simp [dir_lt, Fin.is_lt] | omega)
  simp [encodeWord, litOf, decodeC, decodeCQ, encCN_24_6, encCN_19_5, encCN_17_2, encCN_16_1, encCN_0_16, encCN_0_17, toX_val, dir_lt, dirOf_code, mreg4_lt, ofNat64, cast64, need_true, ok_bind, pure_ok, hw]

theorem RoundTrip.nqrecv (x1 : VReg) (x2 : Dir) : RoundTrip.Statement (.nqrecv x1 x2) := by
  intro hw
  simp only [Instr.wf, Bool.and_eq_true] at hw
  refine ⟨lt_of_lt_of_le (encCN_lt _ _ _ _ ?_ ?_ ?_ ?_) (by decide), ?_⟩
  iterate 4 (first | decide | simp [dir_lt, Fin.is_lt] | omega)
  simp [encodeWord, litOf, decodeC, decodeCQ, encCN_24_6, encCN_19_5, encCN_17_2, encCN_16_1, encCN_0_16, encCN_0_17, toX_val, dir_lt, dirOf_code, mreg4_lt, ofNat64, cast64, need_true, ok_bind, pure_ok, hw]

theorem RoundTrip.wlpush (x1 : VReg) (x2 : XReg) : RoundTrip.Statement (.wlpush x1 x2) := by
  intro hw
  simp only [Instr.wf, Bool.and_eq_true] at hw
  refine ⟨lt_of_lt_of_le (encCQ_lt _ _ _ _ _ ?_ ?_ ?_) (by decide), ?_⟩
  iterate 3 (first | decide | simp [Fin.is_lt] | omega)
  simp [encodeWord, litOf, decodeC, decodeCQ, encCQ_24_6, encCQ_19_5, encCQ_14_5, encCQ_6_8, encCQ_4_2, encCQ_0_4, toX_val, mreg4_lt, ofNat64, cast64, need_true, ok_bind, pure_ok, hw]

theorem RoundTrip.wlpop (x1 : XReg) (x2 : VReg) : RoundTrip.Statement (.wlpop x1 x2) := by
  intro hw
  simp only [Instr.wf, Bool.and_eq_true] at hw
  refine ⟨lt_of_lt_of_le (encCQ_lt _ _ _ _ _ ?_ ?_ ?_) (by decide), ?_⟩
  iterate 3 (first | decide | simp [Fin.is_lt] | omega)
  simp [encodeWord, litOf, decodeC, decodeCQ, encCQ_24_6, encCQ_19_5, encCQ_14_5, encCQ_6_8, encCQ_4_2, encCQ_0_4, toX_val, mreg4_lt, ofNat64, cast64, need_true, ok_bind, pure_ok, hw]

theorem RoundTrip.wldone (x1 : Fin 256) : RoundTrip.Statement (.wldone x1) := by
  intro hw
  simp only [Instr.wf, Bool.and_eq_true] at hw
  refine ⟨lt_of_lt_of_le (encCQ_lt _ _ _ _ _ ?_ ?_ ?_) (by decide), ?_⟩
  iterate 3 (first | decide | simp [Fin.is_lt] | omega)
  simp [encodeWord, litOf, decodeC, decodeCQ, encCQ_24_6, encCQ_19_5, encCQ_14_5, encCQ_6_8, encCQ_4_2, encCQ_0_4, mreg4_lt, ofNat64, cast64, need_true, ok_bind, pure_ok, hw]

theorem RoundTrip.part (x1 : XReg) (x2 : XReg) (x3 : Fin 256) (x4 : PartMode) : RoundTrip.Statement (.part x1 x2 x3 x4) := by
  intro hw
  simp only [Instr.wf, Bool.and_eq_true] at hw
  refine ⟨lt_of_lt_of_le (encCQ_lt _ _ _ _ _ ?_ ?_ ?_) (by decide), ?_⟩
  iterate 3 (first | decide | simp [partMode_lt, Fin.is_lt] | omega)
  simp [encodeWord, litOf, decodeC, decodeCQ, encCQ_24_6, encCQ_19_5, encCQ_14_5, encCQ_6_8, encCQ_4_2, encCQ_0_4, toX_val, partMode_lt, partModeOf_code, mreg4_lt, ofNat64, cast64, need_true, ok_bind, pure_ok, hw]

theorem RoundTrip.gid (x1 : XReg) (x2 : Fin 256) : RoundTrip.Statement (.gid x1 x2) := by
  intro hw
  simp only [Instr.wf, Bool.and_eq_true] at hw
  refine ⟨lt_of_lt_of_le (encCC_lt _ _ _ ?_ ?_) (by decide), ?_⟩
  iterate 2 (first | decide | simp [Fin.is_lt] | omega)
  simp [encodeWord, litOf, decodeC, decodeCtl, encCC_24_6, encCC_19_5, encCC_11_8, encCC_0_11, toX_val, mreg4_lt, ofNat64, cast64, need_true, ok_bind, pure_ok, hw]

theorem RoundTrip.postrx (x1 : XReg) (x2 : VReg) : RoundTrip.Statement (.postrx x1 x2) := by
  intro hw
  simp only [Instr.wf, Bool.and_eq_true] at hw
  refine ⟨lt_of_lt_of_le (encCX_lt _ _ _ _ _ ?_ ?_) (by decide), ?_⟩
  iterate 2 (first | decide | simp [Fin.is_lt] | omega)
  simp [encodeWord, litOf, decodeC, decodeCX, encCX_24_6, encCX_19_5, encCX_14_5, encCX_9_5, encCX_0_9, toX_val, mreg4_lt, ofNat64, cast64, need_true, ok_bind, pure_ok, hw]

theorem RoundTrip.send (x1 : XReg) (x2 : VReg) : RoundTrip.Statement (.send x1 x2) := by
  intro hw
  simp only [Instr.wf, Bool.and_eq_true] at hw
  refine ⟨lt_of_lt_of_le (encCX_lt _ _ _ _ _ ?_ ?_) (by decide), ?_⟩
  iterate 2 (first | decide | simp [Fin.is_lt] | omega)
  simp [encodeWord, litOf, decodeC, decodeCX, encCX_24_6, encCX_19_5, encCX_14_5, encCX_9_5, encCX_0_9, toX_val, mreg4_lt, ofNat64, cast64, need_true, ok_bind, pure_ok, hw]

theorem RoundTrip.cancelrx (x1 : XReg) : RoundTrip.Statement (.cancelrx x1) := by
  intro hw
  simp only [Instr.wf, Bool.and_eq_true] at hw
  refine ⟨lt_of_lt_of_le (encCX_lt _ _ _ _ _ ?_ ?_) (by decide), ?_⟩
  iterate 2 (first | decide | simp [Fin.is_lt] | omega)
  simp [encodeWord, litOf, decodeC, decodeCX, encCX_24_6, encCX_19_5, encCX_14_5, encCX_9_5, encCX_0_9, toX_val, mreg4_lt, ofNat64, cast64, need_true, ok_bind, pure_ok, hw]

theorem RoundTrip.gatepost (x1 : VReg) (x2 : XReg) : RoundTrip.Statement (.gatepost x1 x2) := by
  intro hw
  simp only [Instr.wf, Bool.and_eq_true] at hw
  refine ⟨lt_of_lt_of_le (encCX_lt _ _ _ _ _ ?_ ?_) (by decide), ?_⟩
  iterate 2 (first | decide | simp [Fin.is_lt] | omega)
  simp [encodeWord, litOf, decodeC, decodeCX, encCX_24_6, encCX_19_5, encCX_14_5, encCX_9_5, encCX_0_9, toX_val, mreg4_lt, ofNat64, cast64, need_true, ok_bind, pure_ok, hw]

theorem RoundTrip.mktrun (x1 : XReg) (x2 : XReg) : RoundTrip.Statement (.mktrun x1 x2) := by
  intro hw
  simp only [Instr.wf, Bool.and_eq_true] at hw
  refine ⟨lt_of_lt_of_le (encCX_lt _ _ _ _ _ ?_ ?_) (by decide), ?_⟩
  iterate 2 (first | decide | simp [Fin.is_lt] | omega)
  simp [encodeWord, litOf, decodeC, decodeCX, encCX_24_6, encCX_19_5, encCX_14_5, encCX_9_5, encCX_0_9, toX_val, mreg4_lt, ofNat64, cast64, need_true, ok_bind, pure_ok, hw]

theorem RoundTrip.mktrd (x1 : XReg) (x2 : XReg) : RoundTrip.Statement (.mktrd x1 x2) := by
  intro hw
  simp only [Instr.wf, Bool.and_eq_true] at hw
  refine ⟨lt_of_lt_of_le (encCX_lt _ _ _ _ _ ?_ ?_) (by decide), ?_⟩
  iterate 2 (first | decide | simp [Fin.is_lt] | omega)
  simp [encodeWord, litOf, decodeC, decodeCX, encCX_24_6, encCX_19_5, encCX_14_5, encCX_9_5, encCX_0_9, toX_val, mreg4_lt, ofNat64, cast64, need_true, ok_bind, pure_ok, hw]

theorem RoundTrip.mktwr (x1 : XReg) (x2 : XReg) : RoundTrip.Statement (.mktwr x1 x2) := by
  intro hw
  simp only [Instr.wf, Bool.and_eq_true] at hw
  refine ⟨lt_of_lt_of_le (encCX_lt _ _ _ _ _ ?_ ?_) (by decide), ?_⟩
  iterate 2 (first | decide | simp [Fin.is_lt] | omega)
  simp [encodeWord, litOf, decodeC, decodeCX, encCX_24_6, encCX_19_5, encCX_14_5, encCX_9_5, encCX_0_9, toX_val, mreg4_lt, ofNat64, cast64, need_true, ok_bind, pure_ok, hw]

theorem RoundTrip.rqry (x1 : XReg) (x2 : XReg) : RoundTrip.Statement (.rqry x1 x2) := by
  intro hw
  simp only [Instr.wf, Bool.and_eq_true] at hw
  refine ⟨lt_of_lt_of_le (encCX_lt _ _ _ _ _ ?_ ?_) (by decide), ?_⟩
  iterate 2 (first | decide | simp [Fin.is_lt] | omega)
  simp [encodeWord, litOf, decodeC, decodeCX, encCX_24_6, encCX_19_5, encCX_14_5, encCX_9_5, encCX_0_9, toX_val, mreg4_lt, ofNat64, cast64, need_true, ok_bind, pure_ok, hw]

theorem RoundTrip.rqryFetch (x1 : XReg) (x2 : XReg) : RoundTrip.Statement (.rqryFetch x1 x2) := by
  intro hw
  simp only [Instr.wf, Bool.and_eq_true] at hw
  refine ⟨lt_of_lt_of_le (encCX_lt _ _ _ _ _ ?_ ?_) (by decide), ?_⟩
  iterate 2 (first | decide | simp [Fin.is_lt] | omega)
  simp [encodeWord, litOf, decodeC, decodeCX, encCX_24_6, encCX_19_5, encCX_14_5, encCX_9_5, encCX_0_9, toX_val, mreg4_lt, ofNat64, cast64, need_true, ok_bind, pure_ok, hw]

theorem RoundTrip.rqryPin (x1 : XReg) (x2 : XReg) : RoundTrip.Statement (.rqryPin x1 x2) := by
  intro hw
  simp only [Instr.wf, Bool.and_eq_true] at hw
  refine ⟨lt_of_lt_of_le (encCX_lt _ _ _ _ _ ?_ ?_) (by decide), ?_⟩
  iterate 2 (first | decide | simp [Fin.is_lt] | omega)
  simp [encodeWord, litOf, decodeC, decodeCX, encCX_24_6, encCX_19_5, encCX_14_5, encCX_9_5, encCX_0_9, toX_val, mreg4_lt, ofNat64, cast64, need_true, ok_bind, pure_ok, hw]

theorem RoundTrip.rqryUnpin (x1 : XReg) (x2 : XReg) : RoundTrip.Statement (.rqryUnpin x1 x2) := by
  intro hw
  simp only [Instr.wf, Bool.and_eq_true] at hw
  refine ⟨lt_of_lt_of_le (encCX_lt _ _ _ _ _ ?_ ?_) (by decide), ?_⟩
  iterate 2 (first | decide | simp [Fin.is_lt] | omega)
  simp [encodeWord, litOf, decodeC, decodeCX, encCX_24_6, encCX_19_5, encCX_14_5, encCX_9_5, encCX_0_9, toX_val, mreg4_lt, ofNat64, cast64, need_true, ok_bind, pure_ok, hw]

theorem RoundTrip.tokacq (x1 : XReg) (x2 : XReg) : RoundTrip.Statement (.tokacq x1 x2) := by
  intro hw
  simp only [Instr.wf, Bool.and_eq_true] at hw
  refine ⟨lt_of_lt_of_le (encCX_lt _ _ _ _ _ ?_ ?_) (by decide), ?_⟩
  iterate 2 (first | decide | simp [Fin.is_lt] | omega)
  simp [encodeWord, litOf, decodeC, decodeCX, encCX_24_6, encCX_19_5, encCX_14_5, encCX_9_5, encCX_0_9, toX_val, mreg4_lt, ofNat64, cast64, need_true, ok_bind, pure_ok, hw]

theorem RoundTrip.tokrel (x1 : XReg) (x2 : XReg) : RoundTrip.Statement (.tokrel x1 x2) := by
  intro hw
  simp only [Instr.wf, Bool.and_eq_true] at hw
  refine ⟨lt_of_lt_of_le (encCX_lt _ _ _ _ _ ?_ ?_) (by decide), ?_⟩
  iterate 2 (first | decide | simp [Fin.is_lt] | omega)
  simp [encodeWord, litOf, decodeC, decodeCX, encCX_24_6, encCX_19_5, encCX_14_5, encCX_9_5, encCX_0_9, toX_val, mreg4_lt, ofNat64, cast64, need_true, ok_bind, pure_ok, hw]

theorem RoundTrip.cvarm (x1 : XReg) (x2 : XReg) : RoundTrip.Statement (.cvarm x1 x2) := by
  intro hw
  simp only [Instr.wf, Bool.and_eq_true] at hw
  refine ⟨lt_of_lt_of_le (encCX_lt _ _ _ _ _ ?_ ?_) (by decide), ?_⟩
  iterate 2 (first | decide | simp [Fin.is_lt] | omega)
  simp [encodeWord, litOf, decodeC, decodeCX, encCX_24_6, encCX_19_5, encCX_14_5, encCX_9_5, encCX_0_9, toX_val, mreg4_lt, ofNat64, cast64, need_true, ok_bind, pure_ok, hw]

theorem RoundTrip.cvplay (x1 : VReg) (x2 : XReg) : RoundTrip.Statement (.cvplay x1 x2) := by
  intro hw
  simp only [Instr.wf, Bool.and_eq_true] at hw
  refine ⟨lt_of_lt_of_le (encCX_lt _ _ _ _ _ ?_ ?_) (by decide), ?_⟩
  iterate 2 (first | decide | simp [Fin.is_lt] | omega)
  simp [encodeWord, litOf, decodeC, decodeCX, encCX_24_6, encCX_19_5, encCX_14_5, encCX_9_5, encCX_0_9, toX_val, mreg4_lt, ofNat64, cast64, need_true, ok_bind, pure_ok, hw]

theorem RoundTrip.cpreplay (x1 : XReg) (x2 : XReg) (x3 : XReg) (x4 : ReplayMode) : RoundTrip.Statement (.cpreplay x1 x2 x3 x4) := by
  intro hw
  simp only [Instr.wf, Bool.and_eq_true] at hw
  cases x4
  all_goals
    refine ⟨lt_of_lt_of_le (encCX_lt _ _ _ _ _ ?_ ?_) (by decide), ?_⟩
    iterate 2 (first | decide | simp [Fin.is_lt] | omega)
    simp [encodeWord, litOf, decodeC, decodeCX, encCX_24_6, encCX_19_5, encCX_14_5, encCX_9_5, encCX_0_9, toX_val, mreg4_lt, ofNat64, cast64, need_true, ok_bind, pure_ok, hw]

theorem RoundTrip.mload (x1 : CoreIx) (x2 : MloadCmd) : RoundTrip.Statement (.mload x1 x2) := by
  intro hw c hc
  simp only [matOf, Option.some.injEq] at hc
  subst hc
  simp only [Instr.wf] at hw
  simp [decodeMat, zeros, mload_0_8, mload_16_16, mload_9_1, mload_11_1, mload_84_20, mload_64_20, mload_168_16, mload_148_20, mload_8_1, mload_10_1, mload_12_4, mload_32_32, mload_104_24, mload_128_20, mload_184_328, toNat_eq_one, classOf_code, need_true, ok_bind, pure_ok, hw]

theorem RoundTrip.mswap (x1 : CoreIx) (x2 : MswapCmd) : RoundTrip.Statement (.mswap x1 x2) := by
  intro hw c hc
  simp only [matOf, Option.some.injEq] at hc
  subst hc
  simp only [Instr.wf] at hw
  simp [decodeMat, zeros, mswap_0_8, mswap_16_16, mswap_9_1, mswap_8_1, mswap_10_6, mswap_32_480, toNat_eq_one, classOf_code, need_true, ok_bind, pure_ok]

theorem RoundTrip.mdrain (x1 : CoreIx) (x2 : MdrainCmd) : RoundTrip.Statement (.mdrain x1 x2) := by
  intro hw c hc
  simp only [matOf, Option.some.injEq] at hc
  subst hc
  simp only [Instr.wf] at hw
  simp [decodeMat, zeros, mdrain_0_8, mdrain_16_16, mdrain_9_1, mdrain_104_12, mdrain_64_20, mdrain_148_20, mdrain_192_64, mdrain_256_32, mdrain_288_2, mdrain_8_1, mdrain_10_6, mdrain_32_32, mdrain_84_20, mdrain_116_12, mdrain_128_20, mdrain_168_24, mdrain_290_222, toNat_eq_one, classOf_code, need_true, ok_bind, pure_ok, hw]

theorem RoundTrip.mzero (x1 : CoreIx) (x2 : MzeroCmd) : RoundTrip.Statement (.mzero x1 x2) := by
  intro hw c hc
  simp only [matOf, Option.some.injEq] at hc
  subst hc
  simp only [Instr.wf] at hw
  simp [decodeMat, zeros, mzero_0_8, mzero_16_16, mzero_9_1, mzero_104_12, mzero_64_20, mzero_148_20, mzero_8_1, mzero_10_6, mzero_32_32, mzero_84_20, mzero_116_12, mzero_128_20, mzero_168_344, toNat_eq_one, classOf_code, need_true, ok_bind, pure_ok, hw]

theorem RoundTrip.mshape (x1 : CoreIx) (x2 : MshapeCmd) : RoundTrip.Statement (.mshape x1 x2) := by
  intro hw c hc
  simp only [matOf, Option.some.injEq] at hc
  subst hc
  simp only [Instr.wf] at hw
  simp [decodeMat, zeros, mshape_0_8, mshape_16_16, mshape_9_1, mshape_12_4, mshape_8_1, mshape_10_2, mshape_32_480, toNat_eq_one, classOf_code, need_true, ok_bind, pure_ok]

theorem RoundTrip.mma (x1 : CoreIx) (x2 : MmaCmd) : RoundTrip.Statement (.mma x1 x2) := by
  intro hw c hc
  simp only [matOf, Option.some.injEq] at hc
  subst hc
  simp only [Instr.wf] at hw
  have hn := pair_not x2.pair
  simp [decodeMat, zeros, mma_0_8, mma_16_16, mma_9_1, mma_10_1, mma_8_1, mma_32_32, mma_116_9, mma_104_12, mma_84_20, mma_64_20, mma_168_16, mma_148_20, mma_128_20, mma_11_5, mma_125_3, mma_184_328, hn, pairOf_opc x2.pair (mma_pair_wf x2 hw), toNat_eq_one, need_true, ok_bind, pure_ok, hw]

theorem RoundTrip.matrixCommandEnd (x1 : CoreIx) : RoundTrip.Statement (.matrixCommandEnd x1) := by
  intro _; rfl

theorem RoundTrip.drainRowDispatch (x1 : CoreIx) : RoundTrip.Statement (.drainRowDispatch x1) := by
  intro _; rfl

theorem RoundTrip.resultLanding (x1 : CoreIx) (x2 : Bool) (x3 : Nat) : RoundTrip.Statement (.resultLanding x1 x2 x3) := by
  intro _; rfl

theorem RoundTrip.responseTrap (x1 : CoreIx) : RoundTrip.Statement (.responseTrap x1) := by
  intro _; rfl

theorem RoundTrip.interruptTaken (x1 : CoreIx) : RoundTrip.Statement (.interruptTaken x1) := by
  intro _; rfl

theorem RoundTrip.timerCompare (x1 : CoreIx) : RoundTrip.Statement (.timerCompare x1) := by
  intro _; rfl

theorem RoundTrip.watchdogExpiry (x1 : CoreIx) : RoundTrip.Statement (.watchdogExpiry x1) := by
  intro _; rfl

theorem RoundTrip.queueTimeout (x1 : CoreIx) : RoundTrip.Statement (.queueTimeout x1) := by
  intro _; rfl

theorem RoundTrip.neighbourQueueArrival (x1 : CoreIx) (x2 : Dir) : RoundTrip.Statement (.neighbourQueueArrival x1 x2) := by
  intro _; rfl

theorem RoundTrip.streamElementArrival (x1 : CoreIx) (x2 : Fin 4) : RoundTrip.Statement (.streamElementArrival x1 x2) := by
  intro _; rfl

theorem RoundTrip.syncRelease (x1 : CoreIx) (x2 : Fin 256) : RoundTrip.Statement (.syncRelease x1 x2) := by
  intro _; rfl

theorem RoundTrip.xsendLinkEntry (x1 : Nat) (x2 : Bool) : RoundTrip.Statement (.xsendLinkEntry x1 x2) := by
  intro _; rfl

theorem RoundTrip.xsendLanding (x1 : Nat) : RoundTrip.Statement (.xsendLanding x1) := by
  intro _; rfl

theorem RoundTrip.xendReturn (x1 : CoreIx) (x2 : Fin 256) : RoundTrip.Statement (.xendReturn x1 x2) := by
  intro _; rfl

theorem RoundTrip.safeTimeout (x1 : CoreIx) : RoundTrip.Statement (.safeTimeout x1) := by
  intro _; rfl

theorem RoundTrip.contextSave (x1 : CoreIx) : RoundTrip.Statement (.contextSave x1) := by
  intro _; rfl

theorem RoundTrip.bindNew (x1 : CoreIx) (x2 : BindRec) : RoundTrip.Statement (.bindNew x1 x2) := by
  intro _; rfl

theorem RoundTrip.bindResume (x1 : CoreIx) (x2 : BindRec) : RoundTrip.Statement (.bindResume x1 x2) := by
  intro _; rfl

theorem RoundTrip.preempt (x1 : CoreIx) (x2 : BindRec) : RoundTrip.Statement (.preempt x1 x2) := by
  intro _; rfl

theorem RoundTrip.release (x1 : CoreIx) (x2 : BindRec) : RoundTrip.Statement (.release x1 x2) := by
  intro _; rfl

theorem RoundTrip.freeze (x1 : CoreIx) (x2 : BindRec) : RoundTrip.Statement (.freeze x1 x2) := by
  intro _; rfl

theorem RoundTrip.slotActNone (x1 : CoreIx) (x2 : BindRec) : RoundTrip.Statement (.slotActNone x1 x2) := by
  intro _; rfl

theorem RoundTrip.loadingComplete (x1 : CoreIx) : RoundTrip.Statement (.loadingComplete x1) := by
  intro _; rfl

theorem RoundTrip.launchPacket (x1 : Fin 64) (x2 : Nat) : RoundTrip.Statement (.launchPacket x1 x2) := by
  intro _; rfl

theorem RoundTrip.launchReady (x1 : BitVec 16) : RoundTrip.Statement (.launchReady x1) := by
  intro _; rfl

theorem RoundTrip.launchPlacement (x1 : BitVec 16) : RoundTrip.Statement (.launchPlacement x1) := by
  intro _; rfl

theorem RoundTrip.launchEnd (x1 : BitVec 16) : RoundTrip.Statement (.launchEnd x1) := by
  intro _; rfl

theorem RoundTrip.groupFaultHandling (x1 : CoreIx) : RoundTrip.Statement (.groupFaultHandling x1) := by
  intro _; rfl

theorem RoundTrip.packetFetch (x1 : Fin 64) (x2 : BitVec 512) : RoundTrip.Statement (.packetFetch x1 x2) := by
  intro _; rfl

theorem RoundTrip.packetReread (x1 : Fin 64) (x2 : BitVec 512) : RoundTrip.Statement (.packetReread x1 x2) := by
  intro _; rfl

theorem RoundTrip.nopPacket (x1 : Fin 64) (x2 : Nat) : RoundTrip.Statement (.nopPacket x1 x2) := by
  intro _; rfl

theorem RoundTrip.put (x1 : Fin 64) (x2 : Nat) : RoundTrip.Statement (.put x1 x2) := by
  intro _; rfl

theorem RoundTrip.get (x1 : Fin 64) (x2 : Nat) : RoundTrip.Statement (.get x1 x2) := by
  intro _; rfl

theorem RoundTrip.cancel (x1 : Fin 64) (x2 : Nat) : RoundTrip.Statement (.cancel x1 x2) := by
  intro _; rfl

theorem RoundTrip.packetCompletion (x1 : Fin 64) (x2 : Nat) : RoundTrip.Statement (.packetCompletion x1 x2) := by
  intro _; rfl

theorem RoundTrip.sqTail (x1 : Fin 64) (x2 : BitVec 32) : RoundTrip.Statement (.sqTail x1 x2) := by
  intro _; rfl

theorem RoundTrip.cqHead (x1 : Fin 64) (x2 : BitVec 32) : RoundTrip.Statement (.cqHead x1 x2) := by
  intro _; rfl

theorem RoundTrip.featuresOk : RoundTrip.Statement (.featuresOk) := by
  intro _; rfl

theorem RoundTrip.functionReset : RoundTrip.Statement (.functionReset) := by
  intro _; rfl

theorem RoundTrip.functionLevelReset : RoundTrip.Statement (.functionLevelReset) := by
  intro _; rfl

theorem RoundTrip.qiEnable (x1 : Fin 64) : RoundTrip.Statement (.qiEnable x1) := by
  intro _; rfl

theorem RoundTrip.qiDisable (x1 : Fin 64) : RoundTrip.Statement (.qiDisable x1) := by
  intro _; rfl

theorem RoundTrip.revoke (x1 : Fin 64) : RoundTrip.Statement (.revoke x1) := by
  intro _; rfl

theorem RoundTrip.ideIntegrityFailure (x1 : Option (Fin 4)) (x2 : List (Fin 64)) : RoundTrip.Statement (.ideIntegrityFailure x1 x2) := by
  intro _; rfl

theorem RoundTrip.atsInvalidation (x1 : BitVec 20) (x2 : Word) : RoundTrip.Statement (.atsInvalidation x1 x2) := by
  intro _; rfl

theorem RoundTrip.pageRequestResponse (x1 : Fin 64) (x2 : Word) (x3 : Bool) : RoundTrip.Statement (.pageRequestResponse x1 x2 x3) := by
  intro _; rfl

theorem RoundTrip.cpLaunch (x1 : XReg) : RoundTrip.Statement (.cpLaunch x1) := by
  intro _; rfl

theorem RoundTrip.copyChunkLanding (x1 : CoreIx) (x2 : BitVec 16) (x3 : Nat) : RoundTrip.Statement (.copyChunkLanding x1 x2 x3) := by
  intro _; rfl

theorem RoundTrip.messageArrival (x1 : MsgArrival) : RoundTrip.Statement (.messageArrival x1) := by
  intro _; rfl

theorem RoundTrip.sendAnswer (x1 : CoreIx) (x2 : BitVec 16) (x3 : PeerReply) : RoundTrip.Statement (.sendAnswer x1 x2 x3) := by
  intro _; rfl

theorem RoundTrip.workItemArrival (x1 : Nat) : RoundTrip.Statement (.workItemArrival x1) := by
  intro _; rfl

theorem RoundTrip.quiescenceMessage (x1 : CoreIx) (x2 : Fin 256) : RoundTrip.Statement (.quiescenceMessage x1 x2) := by
  intro _; rfl

theorem RoundTrip.gatepostChunkWrite (x1 : Nat) : RoundTrip.Statement (.gatepostChunkWrite x1) := by
  intro _; rfl

theorem RoundTrip.marketStepComplete (x1 : Fin 16) : RoundTrip.Statement (.marketStepComplete x1) := by
  intro _; rfl

theorem RoundTrip.sortComplete (x1 : Fin 16) : RoundTrip.Statement (.sortComplete x1) := by
  intro _; rfl

theorem RoundTrip.residencyEntryStore (x1 : Nat) : RoundTrip.Statement (.residencyEntryStore x1) := by
  intro _; rfl

theorem RoundTrip.convoyArmComplete (x1 : Fin 16) : RoundTrip.Statement (.convoyArmComplete x1) := by
  intro _; rfl

theorem RoundTrip.playStart (x1 : Fin 16) : RoundTrip.Statement (.playStart x1) := by
  intro _; rfl

theorem RoundTrip.convoyOpComplete (x1 : Fin 16) (x2 : BitVec 12) (x3 : OpOutcome) : RoundTrip.Statement (.convoyOpComplete x1 x2 x3) := by
  intro _; rfl

theorem RoundTrip.convoyChunkArrival (x1 : Chunk) : RoundTrip.Statement (.convoyChunkArrival x1) := by
  intro _; rfl

theorem RoundTrip.convoySendRetry (x1 : Fin 16) (x2 : BitVec 12) (x3 : PeerReply) : RoundTrip.Statement (.convoySendRetry x1 x2 x3) := by
  intro _; rfl

theorem RoundTrip.cvTimeout (x1 : Fin 16) (x2 : BitVec 12) : RoundTrip.Statement (.cvTimeout x1 x2) := by
  intro _; rfl

theorem RoundTrip.playStall (x1 : Fin 16) : RoundTrip.Statement (.playStall x1) := by
  intro _; rfl

theorem RoundTrip.accessPerform (x1 : Arrival) : RoundTrip.Statement (.accessPerform x1) := by
  intro _; rfl

theorem RoundTrip.feTimeout (x1 : Nat) : RoundTrip.Statement (.feTimeout x1) := by
  intro _; rfl

theorem RoundTrip.fabRspTimeout (x1 : Nat) : RoundTrip.Statement (.fabRspTimeout x1) := by
  intro _; rfl

theorem RoundTrip.sprForward (x1 : FabReq) : RoundTrip.Statement (.sprForward x1) := by
  intro _; rfl

theorem RoundTrip.tokenAcquire (x1 : BitVec 19) (x2 : TokParty) : RoundTrip.Statement (.tokenAcquire x1 x2) := by
  intro _; rfl

theorem RoundTrip.tokenRelease (x1 : BitVec 19) (x2 : TokParty) : RoundTrip.Statement (.tokenRelease x1 x2) := by
  intro _; rfl

theorem RoundTrip.tokenRecall (x1 : Fin 1024) (x2 : BitVec 19) : RoundTrip.Statement (.tokenRecall x1 x2) := by
  intro _; rfl

theorem RoundTrip.recallReply (x1 : BitVec 19) : RoundTrip.Statement (.recallReply x1) := by
  intro _; rfl

theorem RoundTrip.tokTimeout (x1 : BitVec 19) : RoundTrip.Statement (.tokTimeout x1) := by
  intro _; rfl

theorem RoundTrip.stationBringup (x1) (x2) (x3) : RoundTrip.Statement (.stationBringup x1 x2 x3) := by
  intro _; rfl

theorem RoundTrip.stationLoss (x1 : Fin 16) : RoundTrip.Statement (.stationLoss x1) := by
  intro _; rfl

theorem RoundTrip.devid (x1 : Word) : RoundTrip.Statement (.devid x1) := by
  intro _; rfl

theorem RoundTrip.domainEn (x1 : Word) : RoundTrip.Statement (.domainEn x1) := by
  intro _; rfl

theorem RoundTrip.fabRspTimeoutWrite (x1 : FabTimeout) (x2 : Word) : RoundTrip.Statement (.fabRspTimeoutWrite x1 x2) := by
  intro _; rfl

theorem RoundTrip.xlatInv (x1 : Word) : RoundTrip.Statement (.xlatInv x1) := by
  intro _; rfl

theorem RoundTrip.acctClr (x1 : Word) : RoundTrip.Statement (.acctClr x1) := by
  intro _; rfl

theorem RoundTrip.acctSnap (x1 : Word) : RoundTrip.Statement (.acctSnap x1) := by
  intro _; rfl

theorem RoundTrip.registerWrite (x1 : BitVec 40) (x2 : Word) : RoundTrip.Statement (.registerWrite x1 x2) := by
  intro _; rfl

theorem RoundTrip.budgetPeriod (x1 : List Nat) (x2 : Nat) : RoundTrip.Statement (.budgetPeriod x1 x2) := by
  intro _; rfl

theorem RoundTrip.controllerInterval (x1 : Fin 256) (x2 : BitVec 16) : RoundTrip.Statement (.controllerInterval x1 x2) := by
  intro _; rfl

theorem RoundTrip.currentLimit : RoundTrip.Statement (.currentLimit) := by
  intro _; rfl

theorem RoundTrip.sensorSample (x1 : SensorReading) : RoundTrip.Statement (.sensorSample x1) := by
  intro _; rfl

theorem RoundTrip.unitWake (x1 : CoreIx) (x2 : GatedUnit) (x3 : Nat) : RoundTrip.Statement (.unitWake x1 x2 x3) := by
  intro _; rfl

theorem RoundTrip.thermalTrip (x1 : Fin 258) : RoundTrip.Statement (.thermalTrip x1) := by
  intro _; rfl

theorem RoundTrip.railFault (x1 : Fin 9) : RoundTrip.Statement (.railFault x1) := by
  intro _; rfl

theorem RoundTrip.clockLoss (x1 : Fin 2) : RoundTrip.Statement (.clockLoss x1) := by
  intro _; rfl

theorem RoundTrip.powerUp (x1 : Bool) : RoundTrip.Statement (.powerUp x1) := by
  intro _; rfl

theorem RoundTrip.perstN : RoundTrip.Statement (.perstN) := by
  intro _; rfl

theorem RoundTrip.linkRetry (x1 : DieIx) (x2 : Fin 16) : RoundTrip.Statement (.linkRetry x1 x2) := by
  intro _; rfl

theorem RoundTrip.moduleFailure (x1 : DieIx) (x2 : Fin 16) (x3 : Fin 16) : RoundTrip.Statement (.moduleFailure x1 x2 x3) := by
  intro _; rfl

theorem RoundTrip.linkLoss (x1 : DieIx) (x2 : Fin 16) : RoundTrip.Statement (.linkLoss x1 x2) := by
  intro _; rfl

theorem RoundTrip.refresh (x1 : DieIx) (x2 : Fin 16) : RoundTrip.Statement (.refresh x1 x2) := by
  intro _; rfl

theorem RoundTrip.patrolScrub (x1 : DieIx) (x2 : BitVec 40) (x3 : Bool) : RoundTrip.Statement (.patrolScrub x1 x2 x3) := by
  intro _; rfl

theorem RoundTrip.violationLogCopy (x1 : DieIx) : RoundTrip.Statement (.violationLogCopy x1) := by
  intro _; rfl

theorem RoundTrip.firmwareImageWrite (x1 : Bool) (x2 : List Byte) : RoundTrip.Statement (.firmwareImageWrite x1 x2) := by
  intro _; rfl

theorem RoundTrip.firmwareCommit : RoundTrip.Statement (.firmwareCommit) := by
  intro _; rfl

theorem RoundTrip.spdmRequest (x1 : SpdmReq) : RoundTrip.Statement (.spdmRequest x1) := by
  intro _; rfl

theorem RoundTrip.oobAccountingRead (x1 : OobReq) : RoundTrip.Statement (.oobAccountingRead x1) := by
  intro _; rfl

theorem RoundTrip.storeAcknowledgement (x1 : Nat) : RoundTrip.Statement (.storeAcknowledgement x1) := by
  intro _; rfl

theorem RoundTrip.convoyPlayStop (x1 : Fin 16) : RoundTrip.Statement (.convoyPlayStop x1) := by
  intro _; rfl

theorem RoundTrip.pldmMonitoringAndControl (x1 : PldmReq) : RoundTrip.Statement (.pldmMonitoringAndControl x1) := by
  intro _; rfl

theorem RoundTrip.putGetChunk (x1 : Fin 64) (x2 : Nat) (x3 : HostAccess) : RoundTrip.Statement (.putGetChunk x1 x2 x3) := by
  intro _; rfl

end Sys2Proof.Laws
end

