-- ==== Sys2Proof/Laws/Seq.lean ====
section
/-!
SUPPORT. The vector sequencer: what an entry on registers alone leaves, and that an instruction given to an idle sequencer
runs at once.
-/

namespace Sys2Proof.Machine

/-! ## What an entry on registers computes does not depend on the sequencer, and leaves it -/

theorem setV_seq (c : Core) (q : SeqState) (h : Bool) (i : VReg) (w : Vec) :
    ({ c with seq := q }).setV h i w = { (c.setV h i w) with seq := q } := by
  unfold Core.setV; split
  · split <;> rfl
  · rfl
theorem setMask_seq (c : Core) (q : SeqState) (i : MReg) (w : Word) :
    ({ c with seq := q }).setMask i w = { (c.setMask i w) with seq := q } := by
  unfold Core.setMask; split <;> rfl
theorem orFp_seq (c : Core) (q : SeqState) (fl : FpFlags) :
    ({ c with seq := q }).orFp fl = { (c.orFp fl) with seq := q } := rfl
theorem vView_seq (c : Core) (q : SeqState) (h : Bool) (i : VReg) : ({ c with seq := q }).vView h i = c.vView h i := rfl
theorem mask_seq (c : Core) (q : SeqState) (i : MReg) : ({ c with seq := q }).mask i = c.mask i := rfl
theorem active_seq (c : Core) (q : SeqState) (m : MReg) (e i : Nat) : ({ c with seq := q }).active m e i = c.active m e i := rfl
theorem vl_seq (c : Core) (q : SeqState) : ({ c with seq := q }).vl = c.vl := rfl
theorem fpctl_seq (c : Core) (q : SeqState) : ({ c with seq := q }).fpctl = c.fpctl := rfl
theorem mapElems_seq (c : Core) (q : SeqState) (m : MReg) (e : Nat) (old : Vec) (g : Nat → Nat) :
    mapElems { c with seq := q } m e old g = mapElems c m e old g := rfl
theorem flagsOf_seq (c : Core) (q : SeqState) (m : MReg) (e : Nat) (g : Nat → FpFlags) (n : Nat) :
    flagsOf { c with seq := q } m e g n = flagsOf c m e g n := by
  induction n with
  | zero => rfl
  | succ n ih => simp only [flagsOf, ih, active_seq]; rfl
theorem activeElems_seq (c : Core) (q : SeqState) (v : Vec) (m : MReg) (e : Nat) :
    activeElems { c with seq := q } v m e = activeElems c v m e := rfl
theorem fpRed_seq (c : Core) (q : SeqState) (op : FpRed) (l : List Nat) :
    fpRed { c with seq := q } op l = fpRed c op l := rfl

theorem vInt_seq (c : Core) (q : SeqState) (h : Bool) (d a b : VReg) (m : MReg) (et : IntEt) (g : Nat → Nat → Nat → Nat) :
    ({ c with seq := q }).vInt h d a b m et g = { (c.vInt h d a b m et g) with seq := q } := by
  simp only [Core.vInt, setV_seq, vView_seq, mapElems_seq]
theorem vSat_seq (c : Core) (q : SeqState) (h : Bool) (d a b : VReg) (m : MReg) (et : IntEt) (g : Int → Int → Int) :
    ({ c with seq := q }).vSat h d a b m et g = { (c.vSat h d a b m et g) with seq := q } := by
  simp only [Core.vSat, setV_seq, orFp_seq, vView_seq, mapElems_seq, flagsOf_seq]
  rfl
theorem vFp2_seq (c : Core) (q : SeqState) (h : Bool) (d a b : VReg) (m : MReg) (et : FpEt) (g) :
    ({ c with seq := q }).vFp2 h d a b m et g = { (c.vFp2 h d a b m et g) with seq := q } := by
  simp only [Core.vFp2, setV_seq, orFp_seq, vView_seq, mapElems_seq, flagsOf_seq, fpctl_seq]
theorem vFma_seq (c : Core) (q : SeqState) (h x y : Bool) (d a b : VReg) (m : MReg) (et : FpEt) (rm : Rm) :
    ({ c with seq := q }).vFma h x y d a b m et rm = { (c.vFma h x y d a b m et rm) with seq := q } := by
  simp only [Core.vFma, setV_seq, orFp_seq, vView_seq, mapElems_seq, flagsOf_seq, fpctl_seq]
theorem vCmp_seq (c : Core) (q : SeqState) (h : Bool) (d : MReg) (a b : VReg) (m : MReg) (cc : Cc) (et : Et) :
    ({ c with seq := q }).vCmp h d a b m cc et = { (c.vCmp h d a b m cc et) with seq := q } := by
  simp only [Core.vCmp, setMask_seq, orFp_seq, vView_seq, mask_seq, flagsOf_seq, active_seq]
  rfl
theorem vSel_seq (c : Core) (q : SeqState) (h : Bool) (d a b : VReg) (m : MReg) (et : Et) :
    ({ c with seq := q }).vSel h d a b m et = { (c.vSel h d a b m et) with seq := q } := by
  simp only [Core.vSel, setV_seq, vView_seq, active_seq, vl_seq]
  rfl
theorem vPerm_seq (c : Core) (q : SeqState) (h : Bool) (d a b : VReg) (m : MReg) (et : Et) :
    ({ c with seq := q }).vPerm h d a b m et = { (c.vPerm h d a b m et) with seq := q } := by
  simp only [Core.vPerm, setV_seq, vView_seq, mapElems_seq]
theorem vFill_seq (c : Core) (q : SeqState) (h : Bool) (d : VReg) (m : MReg) (e v : Nat) :
    ({ c with seq := q }).vFill h d m e v = { (c.vFill h d m e v) with seq := q } := by
  simp only [Core.vFill, setV_seq, vView_seq, mapElems_seq]
theorem vBcastF_seq (c : Core) (q : SeqState) (h : Bool) (d : VReg) (w : Word) (m : MReg) (et : FpEt) :
    ({ c with seq := q }).vBcastF h d w m et = { (c.vBcastF h d w m et) with seq := q } := by
  simp only [Core.vBcastF, vFill_seq, orFp_seq, flagsOf_seq, fpctl_seq]
theorem vBcastV_seq (c : Core) (q : SeqState) (h : Bool) (d a : VReg) (w : Word) (m : MReg) (et : Et) :
    ({ c with seq := q }).vBcastV h d a w m et = { (c.vBcastV h d a w m et) with seq := q } := by
  simp only [Core.vBcastV, vFill_seq, vView_seq]
theorem vCvt_seq (c : Core) (q : SeqState) (h : Bool) (d a : VReg) (t f : Fmt) (p : Nat) :
    ({ c with seq := q }).vCvt h d a t f p = { (c.vCvt h d a t f p) with seq := q } := by
  simp only [Core.vCvt, setV_seq, orFp_seq, vView_seq, fpctl_seq]
  split <;> rfl
theorem vQuant_seq (c : Core) (q : SeqState) (h : Bool) (d a : VReg) (t : Fmt) :
    ({ c with seq := q }).vQuant h d a t = ({ (c.vQuant h d a t).1 with seq := q }, (c.vQuant h d a t).2) := by
  unfold Core.vQuant
  extract_lets
  refine Prod.ext ?_ rfl
  exact (congrArg (Core.orFp · _) (setV_seq c q h d _)).trans (orFp_seq _ q _)
theorem vSfu_seq (c : Core) (q : SeqState) (h : Bool) (d a : VReg) (m : MReg) (g : Half → Nat × FpFlags) :
    ({ c with seq := q }).vSfu h d a m g = { (c.vSfu h d a m g) with seq := q } := by
  simp only [Core.vSfu, setV_seq, orFp_seq, vView_seq, mapElems_seq, flagsOf_seq]
theorem vRed_seq (c : Core) (q : SeqState) (h : Bool) (f : RedForm) (a : VReg) (m : MReg) :
    ({ c with seq := q }).vRed h f a m = ({ (c.vRed h f a m).1 with seq := q }, (c.vRed h f a m).2) := by
  cases f <;> simp only [Core.vRed, orFp_seq, activeElems_seq, fpRed_seq, vView_seq]

/-- What a register entry does leaves the sequencer alone. -/
theorem runRegs_seq (c : Core) (q : SeqState) (e : SeqEntry) :
    ({ c with seq := q }).runRegs e = ({ (c.runRegs e).1 with seq := q }, (c.runRegs e).2) := by
  unfold Core.runRegs
  cases e.ins
  all_goals
    simp only [vIntOp, vInt_seq, vSat_seq, vFp2_seq, vFma_seq, vCmp_seq, vSel_seq, vPerm_seq, vFill_seq, vBcastF_seq, vBcastV_seq,
      vCvt_seq, vQuant_seq, vSfu_seq, vRed_seq, setMask_seq, mask_seq]

/-- An instruction that acts on registers alone when it executes. -/
def RegOnly (i : Instr) : Prop :=
  ∀ (s : State) (k : CoreIx) (e : SeqEntry) (more : Bool), e.ins = i →
    s.runEntry k e more = .ok (s.setCore k ((s.core k).runRegs e).1, ((s.core k).runRegs e).2)

/-- No stream port is bound. -/
def NoPort (c : Core) : Prop := ∀ n : Fin 4, c.seq.ports[n].en = false

theorem foldl_fixed {α β : Type} (f : α → β → α) (s : α) (h : ∀ b, f s b = s) (l : List β) : l.foldl f s = s := by
  induction l with
  | nil => rfl
  | cons b r ih => rw [List.foldl_cons, h, ih]

theorem portsIn_none (s : State) (k : CoreIx) (i : Instr) (h : NoPort (s.core k)) : s.portsIn k i = s := by
  refine foldl_fixed _ _ (fun n => ?_) _
  have e : ((s.core k).port n).en = false := h n
  simp only [e, Bool.false_and, Bool.false_eq_true, if_false]

theorem portsOut_none (s : State) (k : CoreIx) (i : Instr) (stamp : Nat) (v : Option Word) (h : NoPort (s.core k)) :
    s.portsOut k i stamp v = s := by
  unfold State.portsOut
  split
  · rfl
  · refine foldl_fixed _ _ (fun n => ?_) _
    have e : ((s.core k).port n).en = false := h n
    simp only [e, Bool.false_and, Bool.false_eq_true, if_false]

theorem outFull_none (c : Core) (i : Instr) (h : NoPort c) : c.outFull i = false := by
  unfold Core.outFull
  split
  · rfl
  · rw [List.any_eq_false]; intro n _; simp [show (c.port n).en = false from h n]

theorem settleLocal_none (s : State) (k : CoreIx) (h : ∀ r ∈ s.net, r.loc = false) : s.settleLocal k = s := by
  have e (m : Nat) : (s.net.filter fun r => r.loc && r.phase = .sent && r.id < m && r.src.coreOf = k) = [] := by
    rw [List.filter_eq_nil_iff]; intro r hr; simp [h r hr]
  simp only [State.settleLocal, e, List.getLast?_nil]

theorem entryLocal_none (c : Core) (e : SeqEntry) (h : NoPort c)
    (hi : c.entryLocal e = c.seq.ports.toList.any fun p => bit p.cfg 63 && bit p.cfg 62) : c.entryLocal e = false := by
  rw [hi, List.any_eq_false]
  intro p hp
  obtain ⟨n, hn, rfl⟩ := List.getElem_of_mem hp
  have hn' : n < 4 := by simpa using hn
  have e : bit c.seq.ports[n].cfg 63 = false := h ⟨n, hn'⟩
  simp [e]

/-- The entry that an instruction becomes. -/
def State.entryOf (s : State) (i : Instr) (a b : Word) (f : Option Nat) (stamp : Nat) : SeqEntry :=
  { ins := i, a := a, b := b, flight := f, handler := s.curH, pc := s.curPc, stamp := stamp }

/-- An entry without a scalar result runs at once on an idle sequencer. -/
theorem issueEntry_ran (s : State) (i : Instr) (a b : Word) (hs : s.SeqIdle) (hm : s.mayEntry i none = true)
    (hr : RegOnly i) (hmv : isMove i = false)
    (hl : ∀ c : Core, ∀ e : SeqEntry, e.ins = i → c.entryLocal e = c.seq.ports.toList.any fun p => bit p.cfg 63 && bit p.cfg 62) :
    s.issueEntry i a b none = .next (s.ranTo { (s.cc.runRegs (s.entryOf i a b none s.nextId)).1 with seq := s.cc.seq }) := by
  obtain ⟨h1, h2, h3, h4, h0, h5, h6⟩ := hs
  replace h5 : NoPort s.cc := fun n => (h5 n).1
  have hheld : ¬ s.cc.seq.held ≥ 16 := by simp [SeqState.held, SeqState.entries, h2, h3]
  have hq : ({ queue := [], loop := s.cc.seq.loop, ports := s.cc.seq.ports, nq := s.cc.seq.nq, nqIn := s.cc.seq.nqIn,
               nqWait := none, drain := false } : SeqState) = s.cc.seq := by
    conv_rhs => rw [show s.cc.seq = ⟨s.cc.seq.queue, s.cc.seq.loop, s.cc.seq.ports, s.cc.seq.nq, s.cc.seq.nqIn, s.cc.seq.nqWait,
      s.cc.seq.drain⟩ from rfl, h2, h4, h0]
  set e := s.entryOf i a b none s.nextId with he
  have hc : s.cc.enqueue e = { s.cc with seq := { s.cc.seq with queue := [e] } } := by
    simp only [Core.enqueue, h3, h2, List.nil_append]
  have hmod : ({ s with nextId := s.nextId + 1 }.mod (·.enqueue e)) =
      { s with cores := put s.cores s.cur.val { s.cc with seq := { s.cc.seq with queue := [e] } }, nextId := s.nextId + 1 } := by
    rw [← hc]; rfl
  unfold State.issueEntry
  rw [if_neg (by simp [hm]), if_neg hheld, if_neg (by simp)]
  simp only [Option.map_none]
  change ok (({ s with nextId := s.nextId + 1 }.mod (·.enqueue e)).seqDrain s.cur) = _
  rw [hmod]
  set s1 : State := { s with cores := put s.cores s.cur.val { s.cc with seq := { s.cc.seq with queue := [e] } }, nextId := s.nextId + 1 }
  have hcore : s1.core s.cur = { s.cc with seq := { s.cc.seq with queue := [e] } } := by simp [s1, State.core]
  have hwork : (s1.core s.cur).seq.work = 2 := by simp [hcore, SeqState.work, h3]
  have hnp : NoPort (s1.core s.cur) := by rw [hcore]; exact h5
  have hnet : ∀ r ∈ s1.net, r.loc = false := h6
  have hstep : s1.seqStep s.cur = .ok (s.ranTo { (s.cc.runRegs e).1 with seq := s.cc.seq }) := by
    unfold State.seqStep
    have hh : (s1.core s.cur).seq.head? = some (false, e) := by simp [hcore, SeqState.head?, h3]
    have hlo : (s1.core s.cur).entryLocal e = false := entryLocal_none _ _ hnp (hl _ _ rfl)
    have hmv' : isMove e.ins = false := hmv
    simp only [hh, outFull_none _ _ hnp, hlo, hmv', Bool.false_and, Bool.or_self, Bool.false_eq_true, if_false, portsIn_none _ _ _ hnp]
    rw [hr s1 s.cur e _ rfl]
    simp only
    have hrun := runRegs_seq s.cc { s.cc.seq with queue := [e] } e
    rw [hcore, hrun]
    set c2 := (s.cc.runRegs e).1
    have hnp2 : NoPort ((s1.setCore s.cur { c2 with seq := { s.cc.seq with queue := [e] } }).core s.cur) := by
      rw [core_setCore_self]; exact h5
    rw [portsOut_none _ _ _ _ _ hnp2]
    have hd : ∀ (t : State) (v : Option Word) (m : Bool), t.deliverTo s.cur e v m = t := by
      intro t v m; cases v <;> rfl
    rw [hd, settleLocal_none]
    · simp only [State.modCore, core_setCore_self, Core.seqAdvance, Bool.false_eq_true, if_false, List.tail_cons, setCore_setCore,
        List.isEmpty_nil, Bool.true_and, h3, Option.isNone_none, if_true]
      simp only [State.setCore, State.ranTo, s1, put_put, ← h3, hq]
    · intro r hr'
      exact h6 r (by simpa [State.modCore, State.setCore, s1] using hr')
  unfold State.seqDrain
  rw [settleLocal_none _ _ hnet, if_neg (by simp [s1, h1]), hwork]
  simp only [State.seqRun, hstep]
  have hcore2 : (s.ranTo { (s.cc.runRegs e).1 with seq := s.cc.seq }).core s.cur = { (s.cc.runRegs e).1 with seq := s.cc.seq } := by
    simp [State.ranTo, State.core]
  have hnone : (s.ranTo { (s.cc.runRegs e).1 with seq := s.cc.seq }).seqStep s.cur = .error (s.ranTo { (s.cc.runRegs e).1 with seq := s.cc.seq }) := by
    unfold State.seqStep
    simp [hcore2, SeqState.head?, h3, h2]
  simp only [hnone]
  simp [State.seqStalled, hcore2, SeqState.head?, h3, h2, ok]

end Sys2Proof.Machine
end

