-- ==== Sys2Proof/Tests/Slice0.lean ====
section
/-!
SUPPORT. Tests: decoding of words written out from the encoding tables, one step on small states, and states that meet the
hypotheses of the statements, clause by clause. Expected values are worked out from the tables and rules of the spec; a test
`test_meets_<Name>` belongs to the statement `Obligations.<Name>` and names none of the model's own answers where the spec gives
one.
-/

set_option Elab.async false

namespace Sys2Proof.Tests

open Sys2Proof.Machine

/-! ## Words written from the encoding tables of spec/14 R202 to R214 -/

theorem test_decode_nops_and_literals :
    decodeC (0) none = .ok .cSlotNop ∧
    decodeA (0) = .ok .aSlotNop ∧
    decodeC (0xa * 2 ^ 24 + 9 * 2 ^ 19) (some 0xCAFE0001) = .ok (.li 9 0xCAFE0001) ∧
    decodeC (0xa * 2 ^ 24 + 9 * 2 ^ 19 + 0x20000) (some 0xCAFE0001) = .ok (.liU 9 0xCAFE0001) ∧
    decodeC (0xa * 2 ^ 24 + 9 * 2 ^ 19 + 0x40000) (some 0xCAFE0001) = .ok (.liH 9 0xCAFE0001) ∧
    decodeC (0xa * 2 ^ 24 + 9 * 2 ^ 19 + 0x60000) (some 0xCAFE0001) = .ok (.liF 9 0xCAFE0001) := by decide

theorem test_decode_integer_register_1 :
    decodeA (1 * 2 ^ 26 + 3 * 2 ^ 21 + 4 * 2 ^ 16 + 5 * 2 ^ 11) = .ok (.add 3 4 5) ∧
    decodeA (1 * 2 ^ 26 + 3 * 2 ^ 21 + 4 * 2 ^ 16 + 5 * 2 ^ 11 + 1) = .ok (.sub 3 4 5) ∧
    decodeA (1 * 2 ^ 26 + 3 * 2 ^ 21 + 4 * 2 ^ 16 + 5 * 2 ^ 11 + 2) = .ok (.and 3 4 5) ∧
    decodeA (1 * 2 ^ 26 + 3 * 2 ^ 21 + 4 * 2 ^ 16 + 5 * 2 ^ 11 + 3) = .ok (.or 3 4 5) ∧
    decodeA (1 * 2 ^ 26 + 3 * 2 ^ 21 + 4 * 2 ^ 16 + 5 * 2 ^ 11 + 4) = .ok (.xor 3 4 5) ∧
    decodeA (1 * 2 ^ 26 + 3 * 2 ^ 21 + 4 * 2 ^ 16 + 5 * 2 ^ 11 + 5) = .ok (.sll 3 4 5) ∧
    decodeA (1 * 2 ^ 26 + 3 * 2 ^ 21 + 4 * 2 ^ 16 + 5 * 2 ^ 11 + 6) = .ok (.srl 3 4 5) := by decide

theorem test_decode_integer_register_2 :
    decodeA (1 * 2 ^ 26 + 3 * 2 ^ 21 + 4 * 2 ^ 16 + 5 * 2 ^ 11 + 7) = .ok (.sra 3 4 5) ∧
    decodeA (1 * 2 ^ 26 + 3 * 2 ^ 21 + 4 * 2 ^ 16 + 5 * 2 ^ 11 + 8) = .ok (.slt 3 4 5) ∧
    decodeA (1 * 2 ^ 26 + 3 * 2 ^ 21 + 4 * 2 ^ 16 + 5 * 2 ^ 11 + 9) = .ok (.sltu 3 4 5) ∧
    decodeA (1 * 2 ^ 26 + 3 * 2 ^ 21 + 4 * 2 ^ 16 + 0x20) = .ok (.clz 3 4) ∧
    decodeA (1 * 2 ^ 26 + 3 * 2 ^ 21 + 4 * 2 ^ 16 + 0x21) = .ok (.ctz 3 4) ∧
    decodeA (1 * 2 ^ 26 + 3 * 2 ^ 21 + 4 * 2 ^ 16 + 0x22) = .ok (.popc 3 4) ∧
    decodeA (1 * 2 ^ 26 + 3 * 2 ^ 21 + 4 * 2 ^ 16 + 5 * 2 ^ 11 + 0xa * 2 ^ 2 + 2) = .ok (.shadd 3 4 5 2) := by decide

theorem test_decode_integer_multiply_1 :
    decodeA (1 * 2 ^ 26 + 3 * 2 ^ 21 + 4 * 2 ^ 16 + 5 * 2 ^ 11 + 0x10) = .ok (.mul 3 4 5) ∧
    decodeA (1 * 2 ^ 26 + 3 * 2 ^ 21 + 4 * 2 ^ 16 + 5 * 2 ^ 11 + 0x11) = .ok (.mulh 3 4 5) ∧
    decodeA (1 * 2 ^ 26 + 3 * 2 ^ 21 + 4 * 2 ^ 16 + 5 * 2 ^ 11 + 0x12) = .ok (.mulhu 3 4 5) ∧
    decodeA (1 * 2 ^ 26 + 3 * 2 ^ 21 + 4 * 2 ^ 16 + 5 * 2 ^ 11 + 0x13) = .ok (.div 3 4 5) ∧
    decodeA (1 * 2 ^ 26 + 3 * 2 ^ 21 + 4 * 2 ^ 16 + 5 * 2 ^ 11 + 0x14) = .ok (.divu 3 4 5) ∧
    decodeA (1 * 2 ^ 26 + 3 * 2 ^ 21 + 4 * 2 ^ 16 + 5 * 2 ^ 11 + 0x15) = .ok (.rem 3 4 5) := by decide

theorem test_decode_integer_multiply_2 :
    decodeA (1 * 2 ^ 26 + 3 * 2 ^ 21 + 4 * 2 ^ 16 + 5 * 2 ^ 11 + 0x16) = .ok (.remu 3 4 5) ∧
    decodeA (1 * 2 ^ 26 + 3 * 2 ^ 21 + 4 * 2 ^ 16 + 5 * 2 ^ 11 + 0x18) = .ok (.min 3 4 5) ∧
    decodeA (1 * 2 ^ 26 + 3 * 2 ^ 21 + 4 * 2 ^ 16 + 5 * 2 ^ 11 + 0x19) = .ok (.max 3 4 5) ∧
    decodeA (1 * 2 ^ 26 + 3 * 2 ^ 21 + 4 * 2 ^ 16 + 5 * 2 ^ 11 + 0x1a) = .ok (.minu 3 4 5) ∧
    decodeA (1 * 2 ^ 26 + 3 * 2 ^ 21 + 4 * 2 ^ 16 + 5 * 2 ^ 11 + 0x1b) = .ok (.maxu 3 4 5) := by decide

theorem test_decode_integer_immediate_1 :
    decodeA (2 * 2 ^ 26 + 3 * 2 ^ 21 + 4 * 2 ^ 16 + 0x801) = .ok (.addi 3 4 0x801) ∧
    decodeA (2 * 2 ^ 26 + 3 * 2 ^ 21 + 4 * 2 ^ 16 + 1 * 2 ^ 12 + 0x801) = .ok (.andi 3 4 0x801) ∧
    decodeA (2 * 2 ^ 26 + 3 * 2 ^ 21 + 4 * 2 ^ 16 + 2 * 2 ^ 12 + 0x801) = .ok (.ori 3 4 0x801) ∧
    decodeA (2 * 2 ^ 26 + 3 * 2 ^ 21 + 4 * 2 ^ 16 + 3 * 2 ^ 12 + 0x801) = .ok (.xori 3 4 0x801) ∧
    decodeA (2 * 2 ^ 26 + 3 * 2 ^ 21 + 4 * 2 ^ 16 + 0x100 * 2 ^ 6 + 0x3f) = .ok (.slli 3 4 63) ∧
    decodeA (2 * 2 ^ 26 + 3 * 2 ^ 21 + 4 * 2 ^ 16 + 0x140 * 2 ^ 6 + 0x3f) = .ok (.srli 3 4 63) ∧
    decodeA (2 * 2 ^ 26 + 3 * 2 ^ 21 + 4 * 2 ^ 16 + 0x180 * 2 ^ 6 + 0x3f) = .ok (.srai 3 4 63) ∧
    decodeA (2 * 2 ^ 26 + 3 * 2 ^ 21 + 4 * 2 ^ 16 + 7 * 2 ^ 12 + 0x801) = .ok (.slti 3 4 0x801) := by decide

theorem test_decode_integer_immediate_2 :
    decodeA (2 * 2 ^ 26 + 3 * 2 ^ 21 + 4 * 2 ^ 16 + 8 * 2 ^ 12 + 0x801) = .ok (.sltiu 3 4 0x801) ∧
    decodeA (2 * 2 ^ 26 + 3 * 2 ^ 21 + 4 * 2 ^ 16 + 9 * 2 ^ 12 + 0x801) = .ok (.muli 3 4 0x801) ∧
    decodeA (3 * 2 ^ 26 + 3 * 2 ^ 21 + 2 * 2 ^ 18 + 0x8001) = .ok (.hset 3 0x8001 2) ∧
    decodeA (3 * 2 ^ 26 + 3 * 2 ^ 21 + 1 * 2 ^ 20 + 2 * 2 ^ 18 + 0x8001) = .ok (.hins 3 0x8001 2) ∧
    decodeA (4 * 2 ^ 26 + 3 * 2 ^ 21 + 4 * 2 ^ 16 + 0x14 * 2 ^ 10 + 0x2b * 2 ^ 4) = .ok (.bextu 3 4 20 43) ∧
    decodeA (4 * 2 ^ 26 + 3 * 2 ^ 21 + 4 * 2 ^ 16 + 0x14 * 2 ^ 10 + 0x2b * 2 ^ 4 + 1) = .ok (.bext 3 4 20 43) ∧
    decodeA (4 * 2 ^ 26 + 3 * 2 ^ 21 + 4 * 2 ^ 16 + 0x14 * 2 ^ 10 + 0x2b * 2 ^ 4 + 2) = .ok (.bins 3 4 20 43) := by decide

theorem test_decode_scalar_float_1 :
    decodeA (8 * 2 ^ 26 + 3 * 2 ^ 21 + 4 * 2 ^ 16 + 5 * 2 ^ 11 + 2 * 2 ^ 3) = .ok (.fadd 3 4 5 .rdn) ∧
    decodeA (8 * 2 ^ 26 + 3 * 2 ^ 21 + 4 * 2 ^ 16 + 5 * 2 ^ 11 + 1 * 2 ^ 6 + 2 * 2 ^ 3) = .ok (.fsub 3 4 5 .rdn) ∧
    decodeA (8 * 2 ^ 26 + 3 * 2 ^ 21 + 4 * 2 ^ 16 + 5 * 2 ^ 11 + 2 * 2 ^ 6 + 2 * 2 ^ 3) = .ok (.fmul 3 4 5 .rdn) ∧
    decodeA (8 * 2 ^ 26 + 3 * 2 ^ 21 + 4 * 2 ^ 16 + 5 * 2 ^ 11 + 3 * 2 ^ 6 + 2 * 2 ^ 3) = .ok (.fdiv 3 4 5 .rdn) ∧
    decodeA (8 * 2 ^ 26 + 3 * 2 ^ 21 + 4 * 2 ^ 16 + 4 * 2 ^ 6 + 3 * 2 ^ 3) = .ok (.fsqrt 3 4 .rup) ∧
    decodeA (8 * 2 ^ 26 + 3 * 2 ^ 21 + 4 * 2 ^ 16 + 5 * 2 ^ 11 + 0x140) = .ok (.fmin 3 4 5) ∧
    decodeA (8 * 2 ^ 26 + 3 * 2 ^ 21 + 4 * 2 ^ 16 + 5 * 2 ^ 11 + 0x180) = .ok (.fmax 3 4 5) ∧
    decodeA (8 * 2 ^ 26 + 3 * 2 ^ 21 + 4 * 2 ^ 16 + 5 * 2 ^ 11 + 0x1c0) = .ok (.feq 3 4 5) := by decide

theorem test_decode_scalar_float_2 :
    decodeA (8 * 2 ^ 26 + 3 * 2 ^ 21 + 4 * 2 ^ 16 + 5 * 2 ^ 11 + 0x200) = .ok (.flt 3 4 5) ∧
    decodeA (8 * 2 ^ 26 + 3 * 2 ^ 21 + 4 * 2 ^ 16 + 5 * 2 ^ 11 + 0x240) = .ok (.fle 3 4 5) ∧
    decodeA (8 * 2 ^ 26 + 3 * 2 ^ 21 + 4 * 2 ^ 16 + 0x280) = .ok (.fclass 3 4) ∧
    decodeA (8 * 2 ^ 26 + 3 * 2 ^ 21 + 4 * 2 ^ 16 + 0x2c0) = .ok (.fmvX 3 4) ∧
    decodeA (8 * 2 ^ 26 + 3 * 2 ^ 21 + 4 * 2 ^ 16 + 0x300) = .ok (.fmvF 3 4) ∧
    decodeA (8 * 2 ^ 26 + 3 * 2 ^ 21 + 4 * 2 ^ 16 + 0x340) = .ok (.fneg 3 4) ∧
    decodeA (8 * 2 ^ 26 + 3 * 2 ^ 21 + 4 * 2 ^ 16 + 0x380) = .ok (.fabs 3 4) := by decide

theorem test_decode_fma_and_convert :
    decodeA (9 * 2 ^ 26 + 3 * 2 ^ 21 + 4 * 2 ^ 16 + 5 * 2 ^ 11 + 6 * 2 ^ 6 + 7 * 2 ^ 3) = .ok (.fmadd 3 4 5 6 .dyn) ∧
    decodeA (9 * 2 ^ 26 + 3 * 2 ^ 21 + 4 * 2 ^ 16 + 5 * 2 ^ 11 + 6 * 2 ^ 6 + 7 * 2 ^ 3 + 1) = .ok (.fmsub 3 4 5 6 .dyn) ∧
    decodeA (9 * 2 ^ 26 + 3 * 2 ^ 21 + 4 * 2 ^ 16 + 5 * 2 ^ 11 + 6 * 2 ^ 6 + 7 * 2 ^ 3 + 2) = .ok (.fnmadd 3 4 5 6 .dyn) ∧
    decodeA (9 * 2 ^ 26 + 3 * 2 ^ 21 + 4 * 2 ^ 16 + 5 * 2 ^ 11 + 6 * 2 ^ 6 + 7 * 2 ^ 3 + 3) = .ok (.fnmsub 3 4 5 6 .dyn) ∧
    decodeA (0xa * 2 ^ 26 + 3 * 2 ^ 21 + 4 * 2 ^ 16 + 7 * 2 ^ 9 + 2 * 2 ^ 6 + 1 * 2 ^ 3) = .ok (.fcvtf 3 4 .int64 .nosat .rtz) ∧
    decodeA (0xa * 2 ^ 26 + 3 * 2 ^ 21 + 4 * 2 ^ 16 + 7 * 2 ^ 9 + 1 * 2 ^ 8 + 2 * 2 ^ 6 + 1 * 2 ^ 3) = .ok (.fcvtx 3 4 .int64 .nosat .rtz) := by decide

theorem test_decode_vector_integer_1 :
    decodeA (0x10 * 2 ^ 26 + 0x1f * 2 ^ 21 + 4 * 2 ^ 16 + 5 * 2 ^ 11 + 6 * 2 ^ 8 + 1 * 2 ^ 5) = .ok (.vadd 31 4 5 6 .i16) ∧
    decodeA (0x10 * 2 ^ 26 + 0x1f * 2 ^ 21 + 4 * 2 ^ 16 + 5 * 2 ^ 11 + 6 * 2 ^ 8 + 1 * 2 ^ 5 + 1) = .ok (.vsub 31 4 5 6 .i16) ∧
    decodeA (0x10 * 2 ^ 26 + 0x1f * 2 ^ 21 + 4 * 2 ^ 16 + 5 * 2 ^ 11 + 6 * 2 ^ 8 + 1 * 2 ^ 5 + 2) = .ok (.vmul 31 4 5 6 .i16) ∧
    decodeA (0x10 * 2 ^ 26 + 0x1f * 2 ^ 21 + 4 * 2 ^ 16 + 5 * 2 ^ 11 + 6 * 2 ^ 8 + 1 * 2 ^ 5 + 3) = .ok (.vmulh 31 4 5 6 .i16) ∧
    decodeA (0x10 * 2 ^ 26 + 0x1f * 2 ^ 21 + 4 * 2 ^ 16 + 5 * 2 ^ 11 + 6 * 2 ^ 8 + 1 * 2 ^ 5 + 4) = .ok (.vmin 31 4 5 6 .i16) ∧
    decodeA (0x10 * 2 ^ 26 + 0x1f * 2 ^ 21 + 4 * 2 ^ 16 + 5 * 2 ^ 11 + 6 * 2 ^ 8 + 1 * 2 ^ 5 + 5) = .ok (.vmax 31 4 5 6 .i16) ∧
    decodeA (0x10 * 2 ^ 26 + 0x1f * 2 ^ 21 + 4 * 2 ^ 16 + 5 * 2 ^ 11 + 6 * 2 ^ 8 + 1 * 2 ^ 5 + 6) = .ok (.vminu 31 4 5 6 .i16) ∧
    decodeA (0x10 * 2 ^ 26 + 0x1f * 2 ^ 21 + 4 * 2 ^ 16 + 5 * 2 ^ 11 + 6 * 2 ^ 8 + 1 * 2 ^ 5 + 7) = .ok (.vmaxu 31 4 5 6 .i16) ∧
    decodeA (0x10 * 2 ^ 26 + 0x1f * 2 ^ 21 + 4 * 2 ^ 16 + 5 * 2 ^ 11 + 6 * 2 ^ 8 + 1 * 2 ^ 5 + 8) = .ok (.vand 31 4 5 6 .i16) := by decide

theorem test_decode_vector_integer_2 :
    decodeA (0x10 * 2 ^ 26 + 0x1f * 2 ^ 21 + 4 * 2 ^ 16 + 5 * 2 ^ 11 + 6 * 2 ^ 8 + 1 * 2 ^ 5 + 9) = .ok (.vor 31 4 5 6 .i16) ∧
    decodeA (0x10 * 2 ^ 26 + 0x1f * 2 ^ 21 + 4 * 2 ^ 16 + 5 * 2 ^ 11 + 6 * 2 ^ 8 + 1 * 2 ^ 5 + 0xa) = .ok (.vxor 31 4 5 6 .i16) ∧
    decodeA (0x10 * 2 ^ 26 + 0x1f * 2 ^ 21 + 4 * 2 ^ 16 + 5 * 2 ^ 11 + 6 * 2 ^ 8 + 1 * 2 ^ 5 + 0xb) = .ok (.vsll 31 4 5 6 .i16) ∧
    decodeA (0x10 * 2 ^ 26 + 0x1f * 2 ^ 21 + 4 * 2 ^ 16 + 5 * 2 ^ 11 + 6 * 2 ^ 8 + 1 * 2 ^ 5 + 0xc) = .ok (.vsrl 31 4 5 6 .i16) ∧
    decodeA (0x10 * 2 ^ 26 + 0x1f * 2 ^ 21 + 4 * 2 ^ 16 + 5 * 2 ^ 11 + 6 * 2 ^ 8 + 1 * 2 ^ 5 + 0xd) = .ok (.vsra 31 4 5 6 .i16) ∧
    decodeA (0x10 * 2 ^ 26 + 0x1f * 2 ^ 21 + 4 * 2 ^ 16 + 5 * 2 ^ 11 + 6 * 2 ^ 8 + 1 * 2 ^ 5 + 0xe) = .ok (.vadds 31 4 5 6 .i16) ∧
    decodeA (0x10 * 2 ^ 26 + 0x1f * 2 ^ 21 + 4 * 2 ^ 16 + 5 * 2 ^ 11 + 6 * 2 ^ 8 + 1 * 2 ^ 5 + 0xf) = .ok (.vsubs 31 4 5 6 .i16) ∧
    decodeA (0x10 * 2 ^ 26 + 0x1f * 2 ^ 21 + 4 * 2 ^ 16 + 6 * 2 ^ 8 + 3 * 2 ^ 5 + 0x10) = .ok (.vabs 31 4 6 .i64) ∧
    decodeA (0x10 * 2 ^ 26 + 0x1f * 2 ^ 21 + 4 * 2 ^ 16 + 6 * 2 ^ 8 + 3 * 2 ^ 5 + 0x11) = .ok (.vneg 31 4 6 .i64) := by decide

theorem test_decode_vector_float_1 :
    decodeA (0x11 * 2 ^ 26 + 0x1f * 2 ^ 21 + 4 * 2 ^ 16 + 5 * 2 ^ 11 + 6 * 2 ^ 8 + 1 * 2 ^ 7 + 2 * 2 ^ 5) = .ok (.vfadd 31 4 5 6 .fp16) ∧
    decodeA (0x11 * 2 ^ 26 + 0x1f * 2 ^ 21 + 4 * 2 ^ 16 + 5 * 2 ^ 11 + 6 * 2 ^ 8 + 1 * 2 ^ 7 + 2 * 2 ^ 5 + 1) = .ok (.vfsub 31 4 5 6 .fp16) ∧
    decodeA (0x11 * 2 ^ 26 + 0x1f * 2 ^ 21 + 4 * 2 ^ 16 + 5 * 2 ^ 11 + 6 * 2 ^ 8 + 1 * 2 ^ 7 + 2 * 2 ^ 5 + 2) = .ok (.vfmul 31 4 5 6 .fp16) ∧
    decodeA (0x11 * 2 ^ 26 + 0x1f * 2 ^ 21 + 4 * 2 ^ 16 + 5 * 2 ^ 11 + 6 * 2 ^ 8 + 1 * 2 ^ 7 + 2 * 2 ^ 5 + 3) = .ok (.vfdiv 31 4 5 6 .fp16) ∧
    decodeA (0x11 * 2 ^ 26 + 0x1f * 2 ^ 21 + 4 * 2 ^ 16 + 6 * 2 ^ 8 + 1 * 2 ^ 7 + 1 * 2 ^ 5 + 4) = .ok (.vfsqrt 31 4 6 .bf16) ∧
    decodeA (0x11 * 2 ^ 26 + 0x1f * 2 ^ 21 + 4 * 2 ^ 16 + 5 * 2 ^ 11 + 6 * 2 ^ 8 + 1 * 2 ^ 7 + 2 * 2 ^ 5 + 5) = .ok (.vfmin 31 4 5 6 .fp16) ∧
    decodeA (0x11 * 2 ^ 26 + 0x1f * 2 ^ 21 + 4 * 2 ^ 16 + 5 * 2 ^ 11 + 6 * 2 ^ 8 + 1 * 2 ^ 7 + 2 * 2 ^ 5 + 6) = .ok (.vfmax 31 4 5 6 .fp16) := by decide

theorem test_decode_vector_float_2 :
    decodeA (0x11 * 2 ^ 26 + 0x1f * 2 ^ 21 + 4 * 2 ^ 16 + 6 * 2 ^ 8 + 1 * 2 ^ 7 + 1 * 2 ^ 5 + 7) = .ok (.vfabs 31 4 6 .bf16) ∧
    decodeA (0x11 * 2 ^ 26 + 0x1f * 2 ^ 21 + 4 * 2 ^ 16 + 6 * 2 ^ 8 + 1 * 2 ^ 7 + 1 * 2 ^ 5 + 8) = .ok (.vfneg 31 4 6 .bf16) ∧
    decodeA (0x12 * 2 ^ 26 + 0x1f * 2 ^ 21 + 4 * 2 ^ 16 + 5 * 2 ^ 11 + 6 * 2 ^ 8 + 1 * 2 ^ 7 + 0 * 2 ^ 5 + 3) = .ok (.vfmadd 31 4 5 6 .f32 .rup) ∧
    decodeA (0x12 * 2 ^ 26 + 0x1f * 2 ^ 21 + 4 * 2 ^ 16 + 5 * 2 ^ 11 + 6 * 2 ^ 8 + 1 * 2 ^ 7 + 0 * 2 ^ 5 + 1 * 2 ^ 3 + 3) = .ok (.vfmsub 31 4 5 6 .f32 .rup) ∧
    decodeA (0x12 * 2 ^ 26 + 0x1f * 2 ^ 21 + 4 * 2 ^ 16 + 5 * 2 ^ 11 + 6 * 2 ^ 8 + 1 * 2 ^ 7 + 0 * 2 ^ 5 + 2 * 2 ^ 3 + 3) = .ok (.vfnmadd 31 4 5 6 .f32 .rup) ∧
    decodeA (0x12 * 2 ^ 26 + 0x1f * 2 ^ 21 + 4 * 2 ^ 16 + 5 * 2 ^ 11 + 6 * 2 ^ 8 + 1 * 2 ^ 7 + 0 * 2 ^ 5 + 3 * 2 ^ 3 + 3) = .ok (.vfnmsub 31 4 5 6 .f32 .rup) := by decide

theorem test_decode_vector_other :
    decodeA (0x13 * 2 ^ 26 + 3 * 2 ^ 23 + 4 * 2 ^ 16 + 5 * 2 ^ 11 + 6 * 2 ^ 8 + 2 * 2 ^ 5 + 9) = .ok (.vcmp 3 4 5 6 .geu (.int .i32)) ∧
    decodeA (0x14 * 2 ^ 26 + 0x1f * 2 ^ 21 + 4 * 2 ^ 16 + 5 * 2 ^ 11 + 6 * 2 ^ 8 + 4 * 2 ^ 5) = .ok (.vsel 31 4 5 6 (.fp .f32)) ∧
    decodeA (0x15 * 2 ^ 26 + 3 * 2 ^ 21 + 4 * 2 ^ 16 + 6 * 2 ^ 8 + 6 * 2 ^ 5 + 0xb) = .ok (.vred (.fp 3 .fmaxabs .fp16) 4 6) ∧
    decodeA (0x16 * 2 ^ 26 + 0x1f * 2 ^ 21 + 4 * 2 ^ 16 + 5 * 2 ^ 11 + 6 * 2 ^ 8 + 4 * 2 ^ 5) = .ok (.vperm 31 4 5 6 (.fp .f32)) ∧
    decodeA (0x17 * 2 ^ 26 + 0x1f * 2 ^ 21 + 4 * 2 ^ 16 + 6 * 2 ^ 8 + 3 * 2 ^ 5) = .ok (.vbcastX 31 4 6 (.int .i64)) ∧
    decodeA (0x17 * 2 ^ 26 + 0x1f * 2 ^ 21 + 4 * 2 ^ 16 + 6 * 2 ^ 8 + 1 * 2 ^ 7 + 0 * 2 ^ 5 + 1) = .ok (.vbcastF 31 4 6 .f32) ∧
    decodeA (0x17 * 2 ^ 26 + 0x1f * 2 ^ 21 + 4 * 2 ^ 16 + 5 * 2 ^ 11 + 6 * 2 ^ 8 + 4 * 2 ^ 5 + 2) = .ok (.vbcastV 31 4 5 6 (.fp .f32)) ∧
    decodeA (0x18 * 2 ^ 26 + 3 * 2 ^ 21 + 4 * 2 ^ 16 + 3 * 2 ^ 9 + 1 * 2 ^ 2 + 1) = .ok (.vcvt 3 4 .fp16 .fp32 1) ∧
    decodeA (0x19 * 2 ^ 26 + 4 * 2 ^ 21 + 6 * 2 ^ 16 + 0x51 * 2 ^ 9 + 5 * 2 ^ 4) = .ok (.vquant 4 6 (.b8 3 false true) 5) := by decide

theorem test_decode_masks :
    decodeA (0x1a * 2 ^ 26 + 3 * 2 ^ 21 + 4 * 2 ^ 16 + 5 * 2 ^ 11) = .ok (.mand 3 4 5) ∧
    decodeA (0x1a * 2 ^ 26 + 3 * 2 ^ 21 + 4 * 2 ^ 16 + 5 * 2 ^ 11 + 1) = .ok (.mor 3 4 5) ∧
    decodeA (0x1a * 2 ^ 26 + 3 * 2 ^ 21 + 4 * 2 ^ 16 + 5 * 2 ^ 11 + 2) = .ok (.mxor 3 4 5) ∧
    decodeA (0x1a * 2 ^ 26 + 3 * 2 ^ 21 + 4 * 2 ^ 16 + 5 * 2 ^ 11 + 3) = .ok (.mandn 3 4 5) ∧
    decodeA (0x1a * 2 ^ 26 + 3 * 2 ^ 21 + 4 * 2 ^ 16 + 4) = .ok (.mnot 3 4) ∧
    decodeA (0x1a * 2 ^ 26 + 3 * 2 ^ 21 + 4 * 2 ^ 16 + 5) = .ok (.mfromx 3 4) ∧
    decodeA (0x1a * 2 ^ 26 + 3 * 2 ^ 21 + 4 * 2 ^ 16 + 6) = .ok (.mtox 3 4) ∧
    decodeA (0x1a * 2 ^ 26 + 3 * 2 ^ 21 + 4 * 2 ^ 16 + 7) = .ok (.mpopc 3 4) := by decide

theorem test_decode_sfu_1 :
    decodeA (0x1b * 2 ^ 26 + 3 * 2 ^ 21 + 4 * 2 ^ 16) = .ok (.exp 3 4) ∧
    decodeA (0x1b * 2 ^ 26 + 3 * 2 ^ 21 + 4 * 2 ^ 16 + 0x2000) = .ok (.log 3 4) ∧
    decodeA (0x1b * 2 ^ 26 + 3 * 2 ^ 21 + 4 * 2 ^ 16 + 0x4000) = .ok (.rcp 3 4) ∧
    decodeA (0x1b * 2 ^ 26 + 3 * 2 ^ 21 + 4 * 2 ^ 16 + 0x6000) = .ok (.rsqrt 3 4) ∧
    decodeA (0x1b * 2 ^ 26 + 3 * 2 ^ 21 + 4 * 2 ^ 16 + 0x8000) = .ok (.tanh 3 4) ∧
    decodeA (0x1b * 2 ^ 26 + 3 * 2 ^ 21 + 4 * 2 ^ 16 + 0xa000) = .ok (.sigm 3 4) ∧
    decodeA (0x1b * 2 ^ 26 + 3 * 2 ^ 21 + 4 * 2 ^ 16 + 0xc000) = .ok (.gelu 3 4) ∧
    decodeA (0x1b * 2 ^ 26 + 0x1f * 2 ^ 21 + 4 * 2 ^ 16 + 1 * 2 ^ 12 + 6 * 2 ^ 9) = .ok (.vexp 31 4 6) := by decide

theorem test_decode_sfu_2 :
    decodeA (0x1b * 2 ^ 26 + 0x1f * 2 ^ 21 + 4 * 2 ^ 16 + 3 * 2 ^ 12 + 6 * 2 ^ 9) = .ok (.vlog 31 4 6) ∧
    decodeA (0x1b * 2 ^ 26 + 0x1f * 2 ^ 21 + 4 * 2 ^ 16 + 5 * 2 ^ 12 + 6 * 2 ^ 9) = .ok (.vrcp 31 4 6) ∧
    decodeA (0x1b * 2 ^ 26 + 0x1f * 2 ^ 21 + 4 * 2 ^ 16 + 7 * 2 ^ 12 + 6 * 2 ^ 9) = .ok (.vrsqrt 31 4 6) ∧
    decodeA (0x1b * 2 ^ 26 + 0x1f * 2 ^ 21 + 4 * 2 ^ 16 + 9 * 2 ^ 12 + 6 * 2 ^ 9) = .ok (.vtanh 31 4 6) ∧
    decodeA (0x1b * 2 ^ 26 + 0x1f * 2 ^ 21 + 4 * 2 ^ 16 + 0xb * 2 ^ 12 + 6 * 2 ^ 9) = .ok (.vsigm 31 4 6) ∧
    decodeA (0x1b * 2 ^ 26 + 0x1f * 2 ^ 21 + 4 * 2 ^ 16 + 0xd * 2 ^ 12 + 6 * 2 ^ 9) = .ok (.vgelu 31 4 6) ∧
    decodeA (0x1c * 2 ^ 26 + 0xf * 2 ^ 22 + 7 * 2 ^ 17) = .ok (.vloop 15 7) ∧
    decodeA (0x1d * 2 ^ 26 + 3 * 2 ^ 21 + 4 * 2 ^ 16) = .ok (.vsetl 3 4) := by decide

theorem test_decode_branches_1 :
    decodeC (1 * 2 ^ 24 + 3 * 2 ^ 19 + 0x40001) none = .ok (.jal 3 0x40001) ∧
    decodeC (2 * 2 ^ 24 + 3 * 2 ^ 19 + 4 * 2 ^ 14 + 0x2001) none = .ok (.jalr 3 4 0x2001) ∧
    decodeC (3 * 2 ^ 24 + 5 * 2 ^ 21 + 0x2003) none = .ok (.bmaskAny 5 0x2003) ∧
    decodeC (3 * 2 ^ 24 + 5 * 2 ^ 21 + 0x20 * 2 ^ 14 + 0x2003) none = .ok (.bmaskNone 5 0x2003) ∧
    decodeC (3 * 2 ^ 24 + 5 * 2 ^ 21 + 0x40 * 2 ^ 14 + 0x2003) none = .ok (.bmaskAll 5 0x2003) ∧
    decodeC (4 * 2 ^ 24 + 5 * 2 ^ 19 + 6 * 2 ^ 14 + 0x3fff) none = .ok (.beq 5 6 0x3FFF) := by decide

theorem test_decode_branches_2 :
    decodeC (5 * 2 ^ 24 + 5 * 2 ^ 19 + 6 * 2 ^ 14 + 0x3fff) none = .ok (.bne 5 6 0x3FFF) ∧
    decodeC (6 * 2 ^ 24 + 5 * 2 ^ 19 + 6 * 2 ^ 14 + 0x3fff) none = .ok (.blt 5 6 0x3FFF) ∧
    decodeC (7 * 2 ^ 24 + 5 * 2 ^ 19 + 6 * 2 ^ 14 + 0x3fff) none = .ok (.bge 5 6 0x3FFF) ∧
    decodeC (8 * 2 ^ 24 + 5 * 2 ^ 19 + 6 * 2 ^ 14 + 0x3fff) none = .ok (.bltu 5 6 0x3FFF) ∧
    decodeC (9 * 2 ^ 24 + 5 * 2 ^ 19 + 6 * 2 ^ 14 + 0x3fff) none = .ok (.bgeu 5 6 0x3FFF) := by decide

theorem test_decode_local_memory_1 :
    decodeC (0x10 * 2 ^ 24 + 3 * 2 ^ 19 + 4 * 2 ^ 14 + 2 * 2 ^ 12 + 2 * 2 ^ 9 + 0x101) none = .ok (.llb 3 4 .c .tk 0x101) ∧
    decodeC (0x11 * 2 ^ 24 + 3 * 2 ^ 19 + 4 * 2 ^ 14 + 2 * 2 ^ 12 + 2 * 2 ^ 9 + 0x101) none = .ok (.llbu 3 4 .c .tk 0x101) ∧
    decodeC (0x12 * 2 ^ 24 + 3 * 2 ^ 19 + 4 * 2 ^ 14 + 2 * 2 ^ 12 + 2 * 2 ^ 9 + 0x101) none = .ok (.llh 3 4 .c .tk 0x101) ∧
    decodeC (0x13 * 2 ^ 24 + 3 * 2 ^ 19 + 4 * 2 ^ 14 + 2 * 2 ^ 12 + 2 * 2 ^ 9 + 0x101) none = .ok (.llhu 3 4 .c .tk 0x101) ∧
    decodeC (0x14 * 2 ^ 24 + 3 * 2 ^ 19 + 4 * 2 ^ 14 + 2 * 2 ^ 12 + 2 * 2 ^ 9 + 0x101) none = .ok (.llw 3 4 .c .tk 0x101) ∧
    decodeC (0x15 * 2 ^ 24 + 3 * 2 ^ 19 + 4 * 2 ^ 14 + 2 * 2 ^ 12 + 2 * 2 ^ 9 + 0x101) none = .ok (.llwu 3 4 .c .tk 0x101) ∧
    decodeC (0x16 * 2 ^ 24 + 3 * 2 ^ 19 + 4 * 2 ^ 14 + 2 * 2 ^ 12 + 2 * 2 ^ 9 + 0x101) none = .ok (.lld 3 4 .c .tk 0x101) ∧
    decodeC (0x18 * 2 ^ 24 + 3 * 2 ^ 19 + 4 * 2 ^ 14 + 1 * 2 ^ 12 + 3 * 2 ^ 9 + 0x101) none = .ok (.slb 3 4 .a .we 0x101) ∧
    decodeC (0x19 * 2 ^ 24 + 3 * 2 ^ 19 + 4 * 2 ^ 14 + 1 * 2 ^ 12 + 3 * 2 ^ 9 + 0x101) none = .ok (.slh 3 4 .a .we 0x101) := by decide

theorem test_decode_local_memory_2 :
    decodeC (0x1a * 2 ^ 24 + 3 * 2 ^ 19 + 4 * 2 ^ 14 + 1 * 2 ^ 12 + 3 * 2 ^ 9 + 0x101) none = .ok (.slw 3 4 .a .we 0x101) ∧
    decodeC (0x1b * 2 ^ 24 + 3 * 2 ^ 19 + 4 * 2 ^ 14 + 1 * 2 ^ 12 + 3 * 2 ^ 9 + 0x101) none = .ok (.sld 3 4 .a .we 0x101) ∧
    decodeC (0x1c * 2 ^ 24 + 0x1f * 2 ^ 19 + 4 * 2 ^ 14 + 3 * 2 ^ 12 + 6 * 2 ^ 9 + 0x1ff) none = .ok (.vld 31 4 .l 6 0x1FF) ∧
    decodeC (0x1d * 2 ^ 24 + 0x1f * 2 ^ 19 + 4 * 2 ^ 14 + 3 * 2 ^ 12 + 6 * 2 ^ 9 + 0x1ff) none = .ok (.vst 31 4 .l 6 0x1FF) ∧
    decodeC (0x1e * 2 ^ 24 + 0x1f * 2 ^ 19 + 4 * 2 ^ 14 + 5 * 2 ^ 9 + 1 * 2 ^ 7 + 6 * 2 ^ 4 + 2 * 2 ^ 2) none = .ok (.vlds 31 4 5 .a 6 .e4) ∧
    decodeC (0x1f * 2 ^ 24 + 0x1f * 2 ^ 19 + 4 * 2 ^ 14 + 5 * 2 ^ 9 + 1 * 2 ^ 7 + 6 * 2 ^ 4 + 2 * 2 ^ 2) none = .ok (.vsts 31 4 5 .a 6 .e4) ∧
    decodeC (0x20 * 2 ^ 24 + 0x1f * 2 ^ 19 + 4 * 2 ^ 14 + 5 * 2 ^ 9 + 2 * 2 ^ 7 + 6 * 2 ^ 4 + 3 * 2 ^ 2) none = .ok (.vldx 31 4 5 .c 6 .e8) ∧
    decodeC (0x21 * 2 ^ 24 + 0x1f * 2 ^ 19 + 4 * 2 ^ 14 + 5 * 2 ^ 9 + 2 * 2 ^ 7 + 6 * 2 ^ 4 + 3 * 2 ^ 2) none = .ok (.vstx 31 4 5 .c 6 .e8) := by decide

theorem test_decode_global_memory_1 :
    decodeC (0x22 * 2 ^ 24 + 3 * 2 ^ 19 + 4 * 2 ^ 14 + 1 * 2 ^ 7 + 2 * 2 ^ 4 + 5) none = .ok (.ld 3 4 .adp .tk .w) ∧
    decodeC (0x460 * 2 ^ 19 + 4 * 2 ^ 14 + 5 * 2 ^ 9 + 2 * 2 ^ 7 + 4 * 2 ^ 4 + 2) none = .ok (.st 4 5 .spr .fl .h) ∧
    decodeC (0x24 * 2 ^ 24 + 3 * 2 ^ 19 + 4 * 2 ^ 14 + 5 * 2 ^ 9 + 1 * 2 ^ 7 + 1 * 2 ^ 4) none = .ok (.aadd 3 4 5 .adp true) ∧
    decodeC (0x24 * 2 ^ 24 + 3 * 2 ^ 19 + 4 * 2 ^ 14 + 5 * 2 ^ 9 + 1 * 2 ^ 7 + 1 * 2 ^ 4 + 1) none = .ok (.amin 3 4 5 .adp true) ∧
    decodeC (0x24 * 2 ^ 24 + 3 * 2 ^ 19 + 4 * 2 ^ 14 + 5 * 2 ^ 9 + 1 * 2 ^ 7 + 1 * 2 ^ 4 + 2) none = .ok (.amax 3 4 5 .adp true) ∧
    decodeC (0x24 * 2 ^ 24 + 3 * 2 ^ 19 + 4 * 2 ^ 14 + 5 * 2 ^ 9 + 1 * 2 ^ 7 + 1 * 2 ^ 4 + 3) none = .ok (.aand 3 4 5 .adp true) := by decide

theorem test_decode_global_memory_2 :
    decodeC (0x24 * 2 ^ 24 + 3 * 2 ^ 19 + 4 * 2 ^ 14 + 5 * 2 ^ 9 + 1 * 2 ^ 7 + 1 * 2 ^ 4 + 4) none = .ok (.aor 3 4 5 .adp true) ∧
    decodeC (0x24 * 2 ^ 24 + 3 * 2 ^ 19 + 4 * 2 ^ 14 + 5 * 2 ^ 9 + 1 * 2 ^ 7 + 1 * 2 ^ 4 + 5) none = .ok (.axor 3 4 5 .adp true) ∧
    decodeC (0x24 * 2 ^ 24 + 3 * 2 ^ 19 + 4 * 2 ^ 14 + 5 * 2 ^ 9 + 1 * 2 ^ 7 + 1 * 2 ^ 4 + 6) none = .ok (.aswap 3 4 5 .adp true) ∧
    decodeC (0x24 * 2 ^ 24 + 3 * 2 ^ 19 + 4 * 2 ^ 14 + 5 * 2 ^ 9 + 1 * 2 ^ 7 + 1 * 2 ^ 4 + 7) none = .ok (.acas 3 4 5 .adp true) ∧
    decodeC (0x24 * 2 ^ 24 + 3 * 2 ^ 19 + 4 * 2 ^ 14 + 5 * 2 ^ 9 + 1 * 2 ^ 7 + 1 * 2 ^ 4 + 8) none = .ok (.afadd 3 4 5 .adp true) := by decide

theorem test_decode_system_1 :
    decodeC (0x25 * 2 ^ 24 + 4 * 2 ^ 21 + 9 * 2 ^ 17 + 7 * 2 ^ 12) none = .ok (.fence 4 9 7) ∧
    decodeC (0x26000000) none = .ok .rfence ∧
    decodeC (0x26000001) none = .ok .ifence ∧
    decodeC (0x26 * 2 ^ 24 + 0x1e * 2 ^ 19 + 2) none = .ok (.recv 30) ∧
    decodeC (0x26000003) none = .ok .waitm ∧
    decodeC (0x26 * 2 ^ 24 + 0x1e * 2 ^ 19 + 4) none = .ok (.peekm 30) ∧
    decodeC (0x26000008) none = .ok .svc := by decide

theorem test_decode_system_2 :
    decodeC (0x26000009) none = .ok .sret ∧
    decodeC (0x2600000a) none = .ok .wfi ∧
    decodeC (0x2600000b) none = .ok .halt ∧
    decodeC (0x2600000c) none = .ok .hret ∧
    decodeC (0x27 * 2 ^ 24 + 3 * 2 ^ 19 + 0x6f * 2 ^ 11) none = .ok (.getc 3 (.relayTerm 7)) ∧
    decodeC (0x28 * 2 ^ 24 + 4 * 2 ^ 19 + 0xe * 2 ^ 11) none = .ok (.setc 4 .vlen) ∧
    decodeC (0x29 * 2 ^ 24 + 0xabcd * 2 ^ 8) none = .ok (.safept 0xABCD) := by decide

theorem test_decode_supersteps :
    decodeC (0x2a * 2 ^ 24 + 0xc8 * 2 ^ 16) none = .ok (.sync 200) ∧
    decodeC (0x2a * 2 ^ 24 + 0xc8 * 2 ^ 16 + 1) none = .ok (.xend 200) ∧
    decodeC (0x2b * 2 ^ 24 + 3 * 2 ^ 19 + 4 * 2 ^ 14 + 0xc8 * 2 ^ 6) none = .ok (.xsend 3 4 200) ∧
    decodeC (0x580 * 2 ^ 19 + 4 * 2 ^ 14) none = .ok (.xexpect 4) ∧
    decodeC (0x2d * 2 ^ 24 + 0x1f * 2 ^ 19 + 3 * 2 ^ 17 + 0x10000) none = .ok (.nqsend 31 .w) ∧
    decodeC (0x2d * 2 ^ 24 + 0x1f * 2 ^ 19 + 3 * 2 ^ 17) none = .ok (.nqrecv 31 .w) := by decide

theorem test_decode_engines_1 :
    decodeC (0x2e * 2 ^ 24 + 3 * 2 ^ 19 + 4 * 2 ^ 14) none = .ok (.wlpush 3 4) ∧
    decodeC (0x2e * 2 ^ 24 + 3 * 2 ^ 19 + 4 * 2 ^ 14 + 0x10) none = .ok (.wlpop 3 4) ∧
    decodeC (0xb800 * 2 ^ 14 + 0xc8 * 2 ^ 6 + 0x20) none = .ok (.wldone 200) ∧
    decodeC (0x2f * 2 ^ 24 + 3 * 2 ^ 19 + 4 * 2 ^ 14 + 0xc8 * 2 ^ 6 + 2 * 2 ^ 4) none = .ok (.part 3 4 200 .meshY) ∧
    decodeC (0x30 * 2 ^ 24 + 3 * 2 ^ 19 + 0xc8 * 2 ^ 11) none = .ok (.gid 3 200) ∧
    decodeC (0x31 * 2 ^ 24 + 3 * 2 ^ 19 + 4 * 2 ^ 14) none = .ok (.postrx 3 4) := by decide

theorem test_decode_engines_2 :
    decodeC (0x32 * 2 ^ 24 + 3 * 2 ^ 19 + 4 * 2 ^ 14) none = .ok (.send 3 4) ∧
    decodeC (0x660 * 2 ^ 19 + 4 * 2 ^ 14) none = .ok (.cancelrx 4) ∧
    decodeC (0x680 * 2 ^ 19 + 4 * 2 ^ 14 + 5 * 2 ^ 9) none = .ok (.gatepost 4 5) ∧
    decodeC (0x6a0 * 2 ^ 19 + 4 * 2 ^ 14 + 5 * 2 ^ 9) none = .ok (.mktrun 4 5) ∧
    decodeC (0x35 * 2 ^ 24 + 3 * 2 ^ 19 + 4 * 2 ^ 14 + 1) none = .ok (.mktrd 3 4) ∧
    decodeC (0x6a0 * 2 ^ 19 + 4 * 2 ^ 14 + 5 * 2 ^ 9 + 2) none = .ok (.mktwr 4 5) := by decide

theorem test_decode_residency_and_convoys :
    decodeC (0x36 * 2 ^ 24 + 3 * 2 ^ 19 + 4 * 2 ^ 14) none = .ok (.rqry 3 4) ∧
    decodeC (0x36 * 2 ^ 24 + 3 * 2 ^ 19 + 4 * 2 ^ 14 + 1) none = .ok (.rqryFetch 3 4) ∧
    decodeC (0x36 * 2 ^ 24 + 3 * 2 ^ 19 + 4 * 2 ^ 14 + 2) none = .ok (.rqryPin 3 4) ∧
    decodeC (0x36 * 2 ^ 24 + 3 * 2 ^ 19 + 4 * 2 ^ 14 + 3) none = .ok (.rqryUnpin 3 4) ∧
    decodeC (0x37 * 2 ^ 24 + 3 * 2 ^ 19 + 4 * 2 ^ 14) none = .ok (.tokacq 3 4) ∧
    decodeC (0x37 * 2 ^ 24 + 3 * 2 ^ 19 + 4 * 2 ^ 14 + 1) none = .ok (.tokrel 3 4) ∧
    decodeC (0x700 * 2 ^ 19 + 4 * 2 ^ 14 + 5 * 2 ^ 9) none = .ok (.cvarm 4 5) ∧
    decodeC (0x700 * 2 ^ 19 + 4 * 2 ^ 14 + 5 * 2 ^ 9 + 1) none = .ok (.cvplay 4 5) ∧
    decodeC (0x39 * 2 ^ 24 + 3 * 2 ^ 19 + 4 * 2 ^ 14 + 5 * 2 ^ 9 + 1) none = .ok (.cpreplay 3 4 5 .abandon) := by decide

/-- The MMA of the example under R215. -/
theorem test_decode_mma_example :
    decodeMat (0x3F000000000705A4 + 0x0280013000001000 * 2 ^ 64 + 0x0000080008000200 * 2 ^ 128) =
      .ok (.mma { pair := .sf 4 4, cscale := 0x3F000000, tag := 7, sca := true, gate := false, swap := true, k := 40, rows := 1,
                  soff := 0x30000, boff := 0x1000, sstr := 8, bstr := 128, coff := 0x200 }) := by decide

theorem test_decode_matrix :
    decodeMat (0x01 + 1 * 2 ^ 9 + 1 * 2 ^ 11 + 3 * 2 ^ 16 + (0x40 + 0x7000 * 2 ^ 20) * 2 ^ 64 + (0x80 * 2 ^ 20 + 8 * 2 ^ 40) * 2 ^ 128) =
      .ok (.mload { tag := 3, gate := true, scw := true, soff := 0x7000, boff := 0x40, sstr := 8, bstr := 0x80 }) ∧
    decodeMat (0x02 + 9 * 2 ^ 16) = .ok (.mswap { tag := 9, gate := false }) ∧
    decodeMat (0x03 + 9 * 2 ^ 16 + (0x40 + 5 * 2 ^ 40) * 2 ^ 64 + (0x80 * 2 ^ 20) * 2 ^ 128 + 0x1234 * 2 ^ 192 +
        (0xFFFFFFC0 + 1 * 2 ^ 32) * 2 ^ 256) =
      .ok (.mdrain { tag := 9, gate := false, rows := 5, boff := 0x40, bstr := 0x80, dest := 0x1234, cls := .adp, dstr := 0xFFFFFFC0 }) ∧
    decodeMat (0x04 + 1 * 2 ^ 9 + (0x40 + 2048 * 2 ^ 40) * 2 ^ 64) =
      .ok (.mzero { tag := 0, gate := true, rows := 2048, boff := 0x40, bstr := 0 }) ∧
    decodeMat (0x05 + 0xA * 2 ^ 12) = .ok (.mshape { tag := 0, gate := false, bands := 0xA }) := by decide

/-- Illegal words (R216) and malformed records (R215) are rejected, each by its reason. -/
theorem test_decode_rejects :
    (decodeC (0x3A * 2 ^ 24) none).isOk = false ∧ (decodeC (0x0B * 2 ^ 24) none).isOk = false ∧
    (decodeC 0x26000005 none).isOk = false ∧ (decodeC (0x26 * 2 ^ 24 + 3 * 2 ^ 19 + 2) none).isOk = false ∧
    (decodeC (0x22 * 2 ^ 24 + 3 * 2 ^ 7) none).isOk = false ∧ (decodeC (0x27 * 2 ^ 24 + 0x1C * 2 ^ 11) none).isOk = false ∧
    (decodeA (0x05 * 2 ^ 26)).isOk = false ∧ (decodeA (0x04 * 2 ^ 26 + 63 * 2 ^ 10 + 1 * 2 ^ 4)).isOk = false ∧
    (decodeA (0x10 * 2 ^ 26 + 4 * 2 ^ 5)).isOk = false ∧ (decodeA (0x08 * 2 ^ 26 + 4 * 2 ^ 3)).isOk = false ∧
    (decodeA (0x08 * 2 ^ 26 + 16 * 2 ^ 16)).isOk = false ∧ (decodeMat 0xC0).isOk = false ∧ (decodeMat 0x06).isOk = false := by decide

theorem test_table_words :
    decodeTableWord 32 (2 * 2 ^ 26 + 3 * 2 ^ 21 + 4 * 2 ^ 16 + 0x801) = some (.addi 3 4 0x801) ∧
    decodeTableWord 32 0x2600000B = some .halt ∧ decodeTableWord 32 0 = some .cSlotNop := by decide

/-! ## Ill-formed terms, one for each check of `Instr.wf` -/

def mloadGood : MloadCmd := { tag := 0, gate := false, scw := true, soff := 0, boff := 0, sstr := 8, bstr := 0x80 }
def rowsGood : MzeroCmd := { tag := 0, gate := false, rows := 1, boff := 0, bstr := 64 }
def drainGood : MdrainCmd := { tag := 0, gate := false, rows := 1, boff := 0, bstr := 64, dest := 0, cls := .ord, dstr := 64 }
def mmaGood : MmaCmd := { pair := .sf 4 4, cscale := 0, tag := 0, sca := true, gate := false, swap := true, k := 128, rows := 1,
                          soff := 0, boff := 0, sstr := 8, bstr := 128, coff := 0 }

theorem test_wf_bundle_words :
    Instr.wf (.recv 3) = false ∧ Instr.wf (.peekm 31) = false ∧ Instr.wf (.recv 30) = true ∧
    Instr.wf (.bextu 1 2 1 63) = false ∧ Instr.wf (.bext 1 2 32 32) = false ∧ Instr.wf (.bins 1 2 63 1) = false ∧
    Instr.wf (.bext 1 2 32 31) = true ∧
    Instr.wf (.fcvtf 1 2 .fp32 .fpctl .rne) = false ∧ Instr.wf (.fcvtx 1 2 .mxf4 .fpctl .rne) = false ∧
    Instr.wf (.vcmp 1 2 3 0 .ltu (.fp .f32)) = false ∧ Instr.wf (.vcmp 1 2 3 0 .geu (.fp .bf16)) = false ∧
    Instr.wf (.vcvt 1 2 .mxf4 .fp32 0) = false ∧ Instr.wf (.vcvt 1 2 .fp32 .int64 0) = false ∧
    Instr.wf (.vcvt 1 2 .fp16 .fp32 2) = false ∧ Instr.wf (.vcvt 1 2 .fp16 .fp32 1) = true ∧
    Instr.wf (.vquant 1 3 .int8 4) = false ∧ Instr.wf (.vquant 1 2 .fp16 4) = false ∧ Instr.wf (.vloop 0 1) = false := by decide

theorem test_wf_matrix :
    mloadGood.wf = true ∧ { mloadGood with boff := 32 }.wf = false ∧ { mloadGood with bstr := 32 }.wf = false ∧
    { mloadGood with boff := 0x7FFC0 }.wf = false ∧ { mloadGood with soff := 0x7FFFF }.wf = false ∧
    rowsGood.wf = true ∧ { rowsGood with rows := 0 }.wf = false ∧ { rowsGood with rows := 2049 }.wf = false ∧
    { rowsGood with boff := 1 }.wf = false ∧ { rowsGood with bstr := 1 }.wf = false ∧ { rowsGood with boff := 0x20000 }.wf = false ∧
    drainGood.wf = true ∧ { drainGood with rows := 0 }.wf = false ∧ { drainGood with dstr := 8 }.wf = false ∧
    mmaGood.wf = true ∧ { mmaGood with pair := .si 0 0 }.wf = false ∧ { mmaGood with k := 0 }.wf = false ∧
    { mmaGood with k := 129 }.wf = false ∧ { mmaGood with rows := 0 }.wf = false ∧ { mmaGood with rows := 2049 }.wf = false ∧
    { mmaGood with boff := 1 }.wf = false ∧ { mmaGood with bstr := 1 }.wf = false ∧ { mmaGood with coff := 1 }.wf = false ∧
    { mmaGood with boff := 0x3FFC0 }.wf = false ∧ { mmaGood with soff := 0x3FFFF }.wf = false ∧
    { mmaGood with coff := 0x1FFC0, rows := 2 }.wf = false ∧ { mmaGood with pair := .mxf4, sca := false }.wf = false := by decide

def reqGood : FabReq := { dev := 0, addr := 0, kind := .load 8, hdr := 0x10000000 }
def chunkGood : Chunk := { dev := 0, graph := 0, play := 0, op := 0, cidx := 0, offset := 0, total := 4, trig := none, data := [1, 2, 3, 4] }

theorem test_wf_events :
    Instr.wf (.sprForward reqGood) = true ∧ Instr.wf (.sprForward { reqGood with kind := .load 3 }) = false ∧
    Instr.wf (.accessPerform (.fabric { reqGood with kind := .store 16 0 })) = false ∧
    Instr.wf (.convoyChunkArrival chunkGood) = true ∧ Instr.wf (.convoyChunkArrival { chunkGood with offset := 1 }) = false ∧
    Instr.wf (.sensorSample { temps := [], rails := [], diodes := [] }) = false ∧ Instr.wf (.budgetPeriod [1] 0) = false := by decide

/-! ## One step on a small state

Expected values are worked out from the tables of the spec. -/

/-- Core 0 runs, at privilege U where `u`, with values in x1 and x2. -/
def runner (u : Bool) (x1 x2 : Word) : Core :=
  { Core.reset with
    main := { MainCtx.reset with x := (MainCtx.reset.x.set 1 x1).set 2 x2 }
    ctl := { CtlRegs.reset with coreStatus := if u then 0 else 1 }
    slot := { Slot.reset with st := .running } }

def small (x1 x2 : Word) : State := { State.reset with cores := [(0, runner false x1 x2)] }

/-- Whether an outcome is a next state with a property. -/
def goes (o : Out) (p : State → Bool) : Bool :=
  match o with
  | .next t => p t
  | _ => false

def xIs (i : Instr) (s : State) (d : XReg) (w : Word) : Bool := goes (exec i s) fun t => t.cc.main.x[d] == w

/-- R219, R220: wraps, shift counts modulo 64, truncated division. -/
theorem test_integer_register :
    xIs (.add 3 1 2) (small 0xFFFFFFFFFFFFFFFF 2) 3 1 ∧ xIs (.sub 3 1 2) (small 1 2) 3 0xFFFFFFFFFFFFFFFF ∧
    xIs (.sra 3 1 2) (small 0x8000000000000000 65) 3 0xC000000000000000 ∧
    xIs (.slt 3 1 2) (small 0xFFFFFFFFFFFFFFFF 0) 3 1 ∧ xIs (.sltu 3 1 2) (small 0xFFFFFFFFFFFFFFFF 0) 3 0 ∧
    xIs (.mulh 3 1 2) (small 0xFFFFFFFFFFFFFFFF 2) 3 0xFFFFFFFFFFFFFFFF ∧ xIs (.mulhu 3 1 2) (small 0xFFFFFFFFFFFFFFFF 2) 3 1 ∧
    xIs (.div 3 1 2) (small 0xFFFFFFFFFFFFFFF9 2) 3 0xFFFFFFFFFFFFFFFD ∧ xIs (.rem 3 1 2) (small 0xFFFFFFFFFFFFFFF9 2) 3 0xFFFFFFFFFFFFFFFF ∧
    xIs (.divu 3 1 2) (small 7 0) 3 0xFFFFFFFFFFFFFFFF ∧ xIs (.clz 3 1) (small 0 0) 3 64 ∧ xIs (.ctz 3 1) (small 8 0) 3 3 ∧
    xIs (.add 0 1 2) (small 1 2) 0 0 := by decide

/-- R221 to R223. -/
theorem test_integer_immediate :
    xIs (.addi 1 1 0xFFF) (small 5 0) 1 4 ∧ xIs (.slti 3 1 0xFFF) (small 0 0) 3 0 ∧ xIs (.sltiu 3 1 0xFFF) (small 0 0) 3 1 ∧
    xIs (.hset 1 0x4000 3) (small 0xFFFF 0) 1 0x4000000000000000 ∧ xIs (.hins 1 0x4000 1) (small 0xFFFFFFFF 0) 1 0x4000FFFF ∧
    xIs (.bext 3 1 4 3) (small 0x80 0) 3 0xFFFFFFFFFFFFFFF8 ∧ xIs (.bins 2 1 8 7) (small 0xAB 0x111111) 2 0x11AB11 := by decide

/-- R225, R226: the branch offset counts bundles. -/
theorem test_branches :
    goes (exec (.beq 1 2 0x3FFF) (small 4 4)) (fun t => t.cc.main.npc == 0x1FFF8) ∧
    goes (exec (.bltu 1 2 3) (small 4 5)) (fun t => t.cc.main.npc == 24) ∧
    goes (exec (.blt 1 2 3) (small 5 4)) (fun t => t.cc.main.npc == 0) ∧
    goes (exec (.jal 5 2) (small 0 0)) (fun t => t.cc.main.npc == 16 && t.cc.main.x[5] == 8) ∧
    goes (exec (.jalr 5 1 1) (small 0x100 0)) (fun t => t.cc.main.npc == 0x108) ∧
    goes (exec (.jalr 5 1 0) (small 0x104 0)) (fun t => t.bundle == .trapped) := by decide

/-- R112: entry of a trap with a handler, and the way back. -/
theorem test_svc_and_sret :
    goes (exec .svc { State.reset with
        cores := [(0, { runner true 0 0 with ctl := { CtlRegs.reset with coreStatus := 4, tvec := 0x8000000000000400 } })] })
      (fun t => t.cc.ctl.trapCause == 3 && t.cc.main.pc == 0x400 && t.cc.ctl.coreStatus == 0x29) ∧
    goes (exec .sret { State.reset with
        cores := [(0, { runner false 0 0 with ctl := { CtlRegs.reset with coreStatus := 0x29, trapPc := 0x88 } })] })
      (fun t => t.cc.main.npc == 0x88 && t.cc.ctl.coreStatus == 0xC) := by decide

/-! ## States that meet the hypotheses of the statements, clause by clause -/

def withCore (c : Core) : State := { State.reset with cores := [(0, c)] }

/-- A result that has not arrived. -/
def waiting (id : Nat) : Flight := { id := id, dst := .x 5, vals := [], more := true, aged := false, dead := false }

/-- Core 0 executes its handler context. -/
def inHandler : State :=
  { withCore { runner false 0x100 2 with hnd := { HandlerCtx.reset with row := some { stamp := 0, dest := 0, cls := .ord, last := false } } } with
    curH := true }

/-- The sequencer of core 0 holds `n` entries of which none executes. -/
def queued (n : Nat) : Core :=
  let e : SeqEntry := { ins := .mand 1 2 3, a := 0, b := 0, flight := none, handler := false, pc := 0, stamp := 0 }
  { runner false 1 2 with seq := { SeqState.reset with queue := List.replicate n e } }

def fetched (w : Nat) : State := State.reset.withFetchWord 32 w

/-- A bundle of two words at the program counter of core 0. -/
def fetched2 (c a : Nat) : State :=
  { fetched 0 with istore := [(0, writeLE [] 0 8 (c + a * 2 ^ 32))] }

theorem test_meets_StepKeepsCanonical : ∃ t, State.reset.Canonical ∧ step { State.reset with agenda := [.elapse 1] } = .next t :=
  ⟨_, ⟨by decide, by decide⟩, rfl⟩

theorem test_meets_DecodeEncode :
    (Instr.wf (.vloop 1 3) ∧ kindOf (.vloop 1 3) = .aWord) ∧ (Instr.wf (.recv 30) ∧ kindOf (.recv 30) = .cWord) ∧
    (Instr.wf (.mma 0 mmaGood) ∧ kindOf (.mma 0 mmaGood) = .matrix ∧ matOf (.mma 0 mmaGood) = some (.mma mmaGood)) ∧
    (Instr.wf .perstN ∧ kindOf .perstN = .event) := by decide

theorem test_meets_BundleDecodeEncode :
    (kindOf (.jal 1 0x7FFFF) = .cWord ∧ kindOf (.vsetl 31 31) = .aWord ∧ litOf (.jal 1 0x7FFFF) = none) ∧
    (kindOf (.liF 15 7) = .cWord ∧ litOf (.liF 15 7) = some 7) := by decide

/-- A step from a placed word: the registers of the next state. -/
theorem test_step_runs_addi :
    goes (step (fetched (2 * 2 ^ 26 + 3 * 2 ^ 21 + 0x801))) (fun t => t.cc.main.x[3] == 0xFFFFFFFFFFFFF801 && t.cc.main.pc == 8) := by
  decide

theorem test_meets_StepRunsBundle :
    let s := fetched (2 * 2 ^ 26 + 3 * 2 ^ 21 + 0x801)
    let t := s.seqDrain s.cur
    let u := t.setCtx s.cur false
    s.agenda = [] ∧ s.turn = false ∧ s.stopped = false ∧ (t.core s.cur).handlerReady = false ∧ (u.core s.cur).mayIssue = true ∧
    u.boundary s.cur = none ∧ (u.core s.cur).main.marker = false ∧ (u.core s.cur).main.pc.toNat < u.codeLen s.cur ∧
    decodeBundle (u.fetchWords s.cur 0).1 (u.fetchWords s.cur 0).2 = .ok { c := .cSlotNop, a := .addi 3 0 0x801, marker := false } ∧
    goes (exec .cSlotNop (u.setNpc 8)) (fun s1 => s1.bundle == .ok && goes (exec (.addi 3 0 0x801) s1) fun s2 => s2.bundle == .ok) := by
  decide

theorem test_meets_SlotsReadBeforeWrite :
    let s := small 5 6
    (s.curH = false ∧ s.bundle = .ok ∧ s.slotSrc = none ∧ kindOf (.addi 3 1 1) = .aWord ∧ intResult (.addi 3 1 1) s = some (3, 6)) ∧
    goes (runBundle s { c := .jal 1 2, a := .addi 3 1 1, marker := false } 0 0)
      (fun t => t.cc.main.x[3] == 6 && t.cc.main.x[1] == 8 && t.cc.main.pc == 16) := by decide

/-- An A slot that holds, an A slot that traps and a C slot that traps. -/
theorem test_meets_HeldBundleHasNoEffect :
    goes (exec .cSlotNop (withCore (queued 16))) (fun s1 => s1.bundle == .ok && goes (exec (.mand 1 2 3) s1) fun s2 => s2.bundle == .held) ∧
    goes (exec .cSlotNop inHandler) (fun s1 => s1.bundle == .ok && goes (exec (.add 16 1 2) s1) fun s2 => s2.bundle == .trapped) ∧
    goes (exec .svc (small 0 0)) (fun s1 => s1.bundle == .trapped) := by decide

theorem test_meets_LiteralWord :
    ((0x8A000000 : Half).getLsbD 31 = true ∧ decodeBundle 0x8A000000 7 = .ok { c := .li 0 7, a := .aSlotNop, marker := false }) ∧
    ((0x80000000 : Half).getLsbD 31 = true ∧ (0x80000000 : Half).toNat / 2 ^ 24 % 2 ^ 6 ≠ 0x0A) ∧
    ((0x0A000000 : Half).getLsbD 31 = false ∧ (0x0A000000 : Half).toNat / 2 ^ 24 % 2 ^ 6 = 0x0A) := by decide

/-- At CODE_LEN; an illegal C word; an illegal A word beside a legal C word. -/
theorem test_meets_IllegalBundleTraps :
    (small 0 0).codeLen 0 ≤ (small 0 0).curPc.toNat ∧
    ((fetched2 0x3A000000 0).curPc.toNat < (fetched2 0x3A000000 0).codeLen 0 ∧
      (decodeC ((fetched2 0x3A000000 0).fetchWords 0 0).1.toNat none).isOk = false) ∧
    ((decodeC ((fetched2 0 0x14000000).fetchWords 0 0).1.toNat none).isOk = true ∧
      (decodeA ((fetched2 0 0x14000000).fetchWords 0 0).2.toNat).isOk = false) := by decide

/-- A handler installed and no trap entered; no handler; a trap entered. -/
theorem test_meets_TrapEntry :
    (bit (0 : Word) 5 = false ∧ bit (0x8000000000000400 : Word) 63 = true) ∧ bit CtlRegs.reset.tvec 63 = false ∧
    bit (0x20 : Word) 5 = true ∧ ((small 0 0).curH = false ∧ bit (small 0 0).cc.ctl.coreStatus 0 = true) := by decide

theorem test_meets_PreciseTrap :
    ((small 0 0).curH = false ∧ (small 0 0).cc.settled false = true ∧ (small 0 0).cc.seq.loop = none) ∧
    bit (withCore (runner true 0 0)).cc.ctl.coreStatus 0 = false ∧
    (withCore { runner false 0 0 with main := { MainCtx.reset with flights := [waiting 1] } }).cc.settled false = false ∧
    inHandler.curH = true := by decide

theorem test_meets_IntegerResults :
    (Instr.wf (.bins 31 1 0 63) ∧ intResult (.bins 31 1 0 63) (small 5 6) = some (31, 5)) ∧
    (Instr.wf (.add 15 1 2) ∧ intResult (.add 15 1 2) inHandler = some (15, 0) ∧ inHandler.curH = true ∧ (15 : XReg).val < 16) := by
  decide

theorem test_meets_DivisionCorners :
    ((small 5 0).rx 2 = 0) ∧
    ((small 0x8000000000000000 0xFFFFFFFFFFFFFFFF).rx 1 = 0x8000000000000000 ∧
      (small 0x8000000000000000 0xFFFFFFFFFFFFFFFF).rx 2 = 0xFFFFFFFFFFFFFFFF) := by decide

theorem test_meets_ScalarWrites :
    (inHandler.curH = true ∧ (15 : XReg).val < 16) ∧ (small 1 2).curH = false ∧ (small 1 2).wx 0 7 = small 1 2 :=
  ⟨⟨rfl, by decide⟩, rfl, rfl⟩

theorem test_meets_HandlerMayNot :
    inHandler.curH = true ∧ intResult (.add 16 1 2) inHandler = some (16, 0) ∧ 16 ≤ (16 : XReg).val ∧
    goes (exec .halt inHandler) (fun t => t.bundle == .trapped) := by decide

def floats (a b : Half) : Core :=
  { runner false 0 0 with main := { MainCtx.reset with f := (MainCtx.reset.f.set 1 a).set 2 b } }

/-- 1.5 + 2 = 3.5, 1.5 / 0 is an infinity with DZ, 1.5 < 2, NaN < 2 sets NV. -/
theorem test_scalar_float :
    goes (exec (.fadd 3 1 2 .rne) (withCore (floats 0x3FC00000 0x40000000))) (fun t => t.cc.main.f[3] == 0x40600000) ∧
    goes (exec (.fdiv 3 1 2 .rne) (withCore (floats 0x3FC00000 0))) (fun t => t.cc.main.f[3] == 0x7F800000 && t.cc.ctl.fpctl != 0) ∧
    goes (exec (.flt 3 1 2) (withCore (floats 0x3FC00000 0x40000000))) (fun t => t.cc.main.x[3] == 1 && t.cc.ctl.fpctl == 0) ∧
    goes (exec (.flt 3 1 2) (withCore (floats 0x7FC00000 0x40000000))) (fun t => t.cc.main.x[3] == 0 && t.cc.ctl.fpctl != 0) ∧
    goes (exec (.fcvtx 3 1 .int32 .fpctl .rtz) (withCore (floats 0xC0600000 0))) (fun t => t.cc.main.x[3] == 0xFFFFFFFFFFFFFFFD) := by
  decide

theorem test_meets_FloatResults :
    (∃ r fl, floatResult (.fmadd 15 1 2 3 .dyn) (withCore (floats 1 2)) = some (15, r, fl)) ∧
    (∃ w fl, floatToX (.fclass 15 1) inHandler = some (15, w, fl)) ∧ (withCore (floats 1 2)).curH = false := ⟨⟨_, _, rfl⟩, ⟨_, _, rfl⟩, rfl⟩

theorem test_meets_SfuScalarResults :
    (∃ r fl, sfuResult (.exp 3 1) (withCore (floats 0 0)) = some (3, r, fl)) ∧ (withCore (floats 0 0)).curH = false ∧
    (withCore (floats 0 0)).cc.main.flights.length < 32 := ⟨⟨_, _, rfl⟩, rfl, by decide⟩

theorem test_meets_RoundsToNeighbour :
    (fp32 ∈ [fp32, bf16, fp16] ∧ (toFmt (.fin true 3 0 false) fp32 .rne false).2.getLsbD 2 = false ∧
      (toFmt (.fin true 3 0 false) fp32 .rne false).1 = 0xC0400000) ∧
    ((toFmt (.fin false 1 (-200) false) fp32 .rup false).2.getLsbD 2 = false ∧
      (toFmt (.fin false 1 (-200) false) fp32 .rup false).1 % 2 ^ 31 = 1) := by decide

theorem test_meets_Conversions :
    (fmtKind (.b8 3 true true) = .flt (b8 4 true true) ∧ (255 : Nat) < 2 ^ (8 * Fmt.bytes (.b8 3 true true))) ∧
    (fmtKind .mxf4 = .flt mxf4 ∧ (fpDecode mxf4 15 matches .fin _ _ _ _) = true) ∧
    (toInt (.fin true 7 (-1) false) 8 .rtz).1 = -3 ∧ (toInt (.fin false 1 7 false) 8 .rtz).1 = 127 ∧
    toInt (.inf true) 64 .rtz = (-0x8000000000000000, .nv) := by decide

def masked (w : Word) : Core := { runner false 4 5 with main := { MainCtx.reset with m := MainCtx.reset.m.set 3 w } }

/-- A taken and an untaken branch, a mask that an earlier entry still writes, a jump to and off the grid. -/
theorem test_meets_BranchesAndJumps :
    (∃ taken, branchSpec (.beq 1 1 0x2000) (small 4 5) = some (taken, 0x2000)) ∧ (small 4 5).bundle = .ok ∧
    maskRead (.bmaskAny 3 1) = some 3 ∧ (withCore (masked 0)).cc.maskPending 3 = false ∧
    (withCore { queued 1 with seq := { SeqState.reset with queue := [
      { ins := .mand 3 1 2, a := 0, b := 0, flight := none, handler := false, pc := 0, stamp := 0 }] } }).cc.maskPending 3 = true ∧
    (((small 8 0).rx 1).toNat + 8 * (0x2000 : BitVec 14).toInt) % 131072 % 8 = 0 ∧
    (((small 9 0).rx 1).toNat + 8 * (1 : BitVec 14).toInt) % 131072 % 8 ≠ 0 ∧
    goes (exec (.bmaskAll 3 1) (withCore (masked 0xFFFFFFFFFFFFFFFF))) (fun t => t.cc.main.npc == 8) := by
  refine ⟨⟨_, rfl⟩, ?_⟩; decide

def msg (p : Word) : Msg := { kind := 0x10, status := 0, source := 3, xid := 9, payload := p }
def withInbox (l : List Msg) : Core := { runner false 0 0 with evt := { EventState.reset with inbox := l } }

theorem test_meets_InboxReads :
    ((30 : XReg).val % 2 = 0 ∧ ((withCore (withInbox [msg 5, msg 6])).cc.flights false).length + 2 ≤ 32 ∧
      (withCore (withInbox [msg 5])).cc.evt.held = []) ∧ (inHandler.curH = true ∧ (14 : XReg).val < 16) ∧
    goes (exec (.recv 30) (withCore (withInbox [msg 5, msg 6]))) (fun t => t.cc.evt.inbox == [msg 6] && t.cc.main.flights.length == 2) := by
  decide

def preempted : Core :=
  { runner false 0 0 with slot := { Slot.reset with st := .stopping, preq := some 7 } }

theorem test_meets_MarkersAndWaits :
    ((small 0 0).curH = false ∧ (small 0 0).cc.settled false = true ∧ (small 0 0).cc.slot.preq = none ∧ (small 0 0).net = [] ∧
      (small 0 0).cc.seq.loop = none ∧ (small 0 0).cc.seq.queue = [] ∧ (small 0 0).cc.mat.mq = [] ∧ (small 0 0).cc.hnd.row = none) ∧
    (withCore { runner false 0 0 with main := { MainCtx.reset with flights := [waiting 1] } }).cc.settled false = false ∧
    ((withCore preempted).cc.slot.preq ≠ none ∧ (withCore preempted).cc.exch.group = none) ∧
    goes (exec .waitm (small 0 0)) (fun t => t.bundle == .held) ∧
    goes (exec .waitm (withCore (withInbox [msg 1]))) (fun t => t.bundle == .ok) ∧
    goes (exec .halt (small 0 0)) (fun t => t.cc.slot.st == .halted) := by decide

theorem test_meets_ControlRegisterReads :
    (sRead .trapVal = true ∧ (withCore (runner true 0 0)).privNow = false) ∧
    (sRead .fpctl = false ∧ (small 0 0).cc.seq.queue = [] ∧ (small 0 0).cc.seq.loop = none ∧
      CReg.fpctl ∉ [CReg.intPend, .xphStat, .mqStat, .fduty]) ∧
    ((small 0 0).privNow = true ∧ CReg.mqStat ∈ [CReg.intPend, .xphStat, .mqStat, .fduty] ∧
      ((small 0 0).cc.flights (small 0 0).curH).length < 32) ∧
    xIs (.getc 3 .mqAddr) (small 0 0) 3 0x800000000001FFC0 ∧ xIs (.getc 3 .timerCmp) (small 0 0) 3 0xFFFFFFFFFFFFFFFF := by decide

theorem test_meets_ControlRegisterWrites :
    ((small 0 0).curH = false ∧ sWrite .tvec = true ∧ (withCore (runner true 0 0)).privNow = false) ∧
    ((small 0 0).privNow = true ∧ (small 0 0).cc.seq.queue = [] ∧ (small 0 0).cc.seq.loop = none) ∧
    goes (exec (.setc 1 .tvec) (small 0xFFFFFFFFFFFFFFFF 0)) (fun t => t.cc.ctl.tvec == 0x800000000001FFF8) ∧
    goes (exec (.setc 1 .time) (small 5 0)) (fun t => t.cc.ctl == (small 5 0).cc.ctl) := by decide

/-- A quotient of finite values, by zero, of zeros; a root of a positive and of a negative value. -/
theorem test_meets_ExactOperations :
    divVal (.fin false 3 0 false) (.fin true 0 0 false) = (.inf true, .dz) ∧ divVal (.fin false 0 0 false) (.fin false 0 0 false) = (.nan, .nv) ∧
    (divVal (.fin false 3 0 false) (.fin false 2 0 false)).2 = .none ∧ (sqrtVal (.fin false 4 0 false)).2 = .none ∧
    sqrtVal (.fin true 4 0 false) = (.nan, .nv) := by decide +kernel

/-- Values in v1, v2 and v3, a mask in m1. -/
def vecs (a b c : Vec) (m1 : Word) : Core :=
  { runner false 3 70 with
    main := { MainCtx.reset with
      x := (MainCtx.reset.x.set 1 3).set 2 70
      f := MainCtx.reset.f.set 1 0x3FC00000
      v := ((MainCtx.reset.v.set 1 a).set 2 b).set 3 c
      m := MainCtx.reset.m.set 1 m1 } }

def vecSt (a b c : Vec) (m1 : Word) : State := withCore (vecs a b c m1)

theorem vecSt_idle (a b c : Vec) (m1 : Word) : (vecSt a b c m1).SeqIdle :=
  ⟨rfl, rfl, rfl, rfl, rfl,
   by show ∀ n : Fin 4, SeqState.reset.ports[n].en = false ∧ SeqState.reset.ports[n].outq = []; decide, fun _ h => nomatch h⟩

def laneIs (i : Instr) (s : State) (d : VReg) (e j v : Nat) : Bool :=
  goes (exec i s) fun t => elem t.cc.main.v[d] e j == v

/-- R256: wraps in the element, saturation with its flag, shift counts modulo the width; m0 selects every element. -/
theorem test_vector_integer :
    laneIs (.vadd 3 1 2 0 .i8) (vecSt 0xFF 2 0 0) 3 1 0 1 ∧ laneIs (.vmulh 3 1 2 0 .i16) (vecSt 0xFFFF 2 0 0) 3 2 0 0xFFFF ∧
    laneIs (.vsra 3 1 2 0 .i32) (vecSt 0x80000000 33 0 0) 3 4 0 0xC0000000 ∧
    laneIs (.vadds 3 1 2 0 .i8) (vecSt 0x7F 1 0 0) 3 1 0 0x7F ∧
    goes (exec (.vadds 3 1 2 0 .i8) (vecSt 0x7F 1 0 0)) (fun t => t.cc.ctl.fpctl != 0) ∧
    laneIs (.vadd 3 1 2 1 .i32) (vecSt 1 2 9 0) 3 4 0 9 := by decide +kernel

theorem test_meets_VectorInteger :
    (vecSt 1 2 3 1).SeqIdle ∧ (∃ g, vIntSpec (.vabs 31 1 7 .i64) = some (31, 1, 1, 7, .i64, g)) ∧
    (∃ g, vSatSpec (.vsubs 31 1 2 7 .i8) = some (31, 1, 2, 7, .i8, g)) ∧ (inHandler.curH = true ∧ (7 : VReg).val < 8) :=
  ⟨vecSt_idle _ _ _ _, ⟨_, rfl⟩, ⟨_, rfl⟩, rfl, by decide +kernel⟩

theorem test_meets_VectorFloat :
    (vecSt 1 2 3 1).SeqIdle ∧ (∃ g, vFpSpec (.vfnmsub 31 1 2 7 .fp16 .rup) = some (31, 1, 2, 7, .fp16, g)) ∧
    (∃ g, vFpSpec (.vexp 31 1 7) = some (31, 1, 1, 7, .f32, g)) :=
  ⟨vecSt_idle _ _ _ _, ⟨_, rfl⟩, ⟨_, rfl⟩⟩

/-- 1.5 + 1 in FP16; v3 := v1 · v2 + v3 in FP32. -/
theorem test_vector_float :
    laneIs (.vfadd 3 1 2 0 .fp16) (vecSt 0x3E00 0x3C00 0 0) 3 2 0 0x4100 ∧
    laneIs (.vfmadd 3 1 2 0 .f32 .rne) (vecSt 0x40000000 0x40400000 0x3F800000 0) 3 4 0 0x40E00000 := by decide +kernel

theorem test_meets_VectorMasks :
    inHandler.curH = true ∧ (∃ w, maskSpec (.mnot 7 1) (vecSt 0 0 0 5) = some (7, w)) ∧ (vecSt 0 0 0 5).curH = false ∧
    (vecSt 0 0 0 5).SeqIdle ∧ Cc.forEt .geu (.int .i64) = true ∧
    goes (exec (.vcmp 2 1 2 0 .lt (.int .i32)) (vecSt 1 2 0 0)) (fun t => t.cc.main.m[2] == 0xF) ∧
    goes (exec (.mandn 2 1 3) (vecSt 0 0 0 5)) (fun t => t.cc.main.m[2] == 5) :=
  ⟨rfl, ⟨_, rfl⟩, rfl, vecSt_idle _ _ _ _, rfl, by decide +kernel, by decide +kernel⟩

theorem test_meets_VectorMoves :
    (vecSt 1 2 3 1).SeqIdle ∧ laneIs (.vsel 3 1 2 1 (.int .i32)) (vecSt 1 2 3 0xF) 3 4 0 1 ∧
    laneIs (.vsel 3 1 2 1 (.int .i32)) (vecSt 1 2 3 0) 3 4 0 2 ∧ laneIs (.vperm 3 1 2 0 (.int .i8)) (vecSt 0x0807 65 3 0) 3 1 0 8 ∧
    laneIs (.vbcastX 3 1 0 (.int .i16)) (vecSt 1 2 3 0) 3 2 31 3 ∧ laneIs (.vbcastF 3 1 0 .bf16) (vecSt 1 2 3 0) 3 2 31 0x3FC0 ∧
    laneIs (.vbcastV 3 1 1 0 (.int .i8)) (vecSt 0x09000000 2 3 0) 3 1 63 9 :=
  ⟨vecSt_idle _ _ _ _, by decide +kernel, by decide +kernel, by decide +kernel, by decide +kernel, by decide +kernel, by decide +kernel⟩

/-- A widening and a narrowing conversion, at their last parts; a quantization of an even pair. -/
theorem test_meets_VectorConvert :
    (vecSt 1 2 3 1).SeqIdle ∧ (Instr.vcvt 3 1 .fp32 .fp16 1).wf = true ∧ (Instr.vcvt 3 1 .int8 .fp32 3).wf = true ∧
    (Instr.vquant 3 2 (.b8 3 false true) 31).wf = true ∧ ((vecSt 1 2 3 1).cc.flights false).length < 32 ∧
    laneIs (.vcvt 3 1 .fp32 .fp16 0) (vecSt 0x3E00 2 3 0) 3 4 0 0x3FC00000 ∧
    laneIs (.vcvt 3 1 .int8 .fp32 3) (vecSt 0xC0600000 2 3 0) 3 1 48 0xFC :=
  ⟨vecSt_idle _ _ _ _, rfl, rfl, rfl, by decide +kernel, by decide +kernel, by decide +kernel⟩

theorem vecSt_fresh (a b c : Vec) (m1 : Word) : (vecSt a b c m1).FreshIds := fun _ h => nomatch h

theorem test_meets_VectorToScalar :
    ((vecSt 1 2 3 1).cc.flights (vecSt 1 2 3 1).curH).length < 32 ∧ (vecSt 1 2 3 1).SeqIdle ∧ (vecSt 1 2 3 1).FreshIds ∧
    (vecSt 1 2 3 1).curH = false ∧
    goes (exec (.mpopc 5 1) (vecSt 1 2 3 0xF0F)) (fun t => (t.cc.main.flights.map (·.vals)) == [[8]]) ∧
    goes (exec (.vred (.int 5 .sum .i8) 1 0) (vecSt 0xFF02 2 3 0)) (fun t => (t.cc.main.flights.map (·.vals)) == [[1]]) ∧
    (withCore { queued 1 with seq := { SeqState.reset with queue := [
      { ins := .mand 1 1 2, a := 0, b := 0, flight := none, handler := false, pc := 0, stamp := 0 }] } }).cc.maskPending 1 = true :=
  ⟨by decide +kernel, vecSt_idle _ _ _ _, vecSt_fresh _ _ _ _, rfl, by decide +kernel, by decide +kernel, by decide +kernel⟩

theorem test_meets_VectorLength :
    inHandler.curH = true ∧ (vecSt 1 2 3 1).curH = false ∧ (vecSt 1 2 3 1).SeqIdle ∧
    goes (exec (.vsetl 5 2) (vecSt 1 2 3 1)) (fun t => t.cc.main.x[5] == 64 && t.cc.ctl.vlen == 64) ∧
    goes (exec (.vsetl 5 1) (vecSt 1 2 3 1)) (fun t => t.cc.main.x[5] == 3 && t.cc.ctl.vlen == 3) :=
  ⟨rfl, rfl, vecSt_idle _ _ _ _, by decide +kernel, by decide +kernel⟩

/-- A block of one addition that runs three times. -/
theorem test_meets_VectorLoop :
    (vecSt 1 2 3 1).cc.seq.loop = none ∧ (vecSt 1 2 3 1).SeqIdle ∧ (vecSt 1 2 3 1).curH = false ∧
    goes (exec (.vloop 1 1) (vecSt 1 2 3 1)) (fun t => t.cc.seq.loop.isSome &&
      goes (exec (.vadd 3 3 1 0 .i32) t) fun u => elem u.cc.main.v[(3 : VReg)] 4 0 == 6 && u.cc.seq.loop.isNone) ∧
    (withCore { vecs 1 2 3 1 with seq := { SeqState.reset with
      loop := some { stamp := 0, want := 1, count := 1, body := [], pos := 0, left := 1 } } }).cc.seq.loop ≠ none :=
  ⟨rfl, vecSt_idle _ _ _ _, rfl, by decide +kernel, by decide +kernel⟩

theorem test_meets_SequencerQueue :
    (∃ g, vIntSpec (.vadd 31 1 2 0 .i8) = some (31, 1, 2, 0, .i8, g)) ∧ 16 ≤ (withCore (queued 16)).cc.seq.queue.length ∧
    ((withCore (queued 15)).cc.seq.queue.length < 16 ∧ (withCore (queued 15)).cc.seq.loop = none) ∧
    goes (exec (.vadd 3 1 2 0 .i8) (withCore (queued 16))) (fun t => t.bundle == .held) ∧
    goes (exec (.vadd 3 1 2 0 .i8) { withCore (queued 15) with seqHold := true }) (fun t => t.cc.seq.queue.length == 16) :=
  ⟨⟨_, rfl⟩, by decide +kernel, by decide +kernel, by decide +kernel, by decide +kernel⟩

def window (o : Nat) : Word := BitVec.ofNat 64 (2 ^ 62 + o)

/-- Memory of core 0's L buffer holds 0xF1 at offset 0 of L; `e` are the words that are empty. -/
def lmem (e : List Nat) : State := { small 0x1FFFF 8 with mem := [(0xE0000, 0xF1)], empties := e }

theorem test_meets_LocalLoads :
    localLoadSpec (.llb 31 1 .l .plain 1) = some (31, 1, .l, .plain, 1, 1, true) ∧
    (((lmem []).cc.flights (lmem []).curH).length < 32 ∧ (lmem []).ownPending 0 (lmem []).nextId = [] ∧ (lmem []).behindSeq = false ∧
      ((lmem []).token 0).checked = false ∧ (lmem []).full 0xE0000 = true) ∧
    ((lmem [0xE0000 / 8]).full 0xE0000 = false ∧ (lmem []).bad = [] ∧ (lmem []).waitingAt (homeOf 0xE0000) < 512) ∧
    (((lmem []).rx 1).toNat + 8 * (0 : BitVec 9).toInt) % 131072 % 8 ≠ 0 ∧
    goes (exec (.llb 31 1 .l .plain 1) (lmem [])) (fun t => (t.cc.main.flights.map (·.vals)) == [[0xFFFFFFFFFFFFFFF1]]) ∧
    goes (exec (.llbu 31 1 .l .tk 1) (lmem [])) (fun t => t.full 0xE0000 == false) ∧
    goes (exec (.lld 31 1 .l .plain 0) (lmem [])) (fun t => t.bundle == .trapped) :=
  ⟨rfl, by decide +kernel⟩

theorem test_meets_Unwaited : (lmem []).Unwaited 0xE0000 ∧ (lmem []).Canonical := by
  refine ⟨?_, by decide, by decide⟩
  intro r h
  cases h

theorem test_meets_LocalStores :
    localStoreSpec (.slb 2 1 .l .we 0x1FF) = some (2, 1, .l, .we, 0x1FF, 1) ∧ (lmem [0xFFFFE / 8]).full 0xFFFFE = false ∧
    goes (exec (.slb 2 1 .l .we 0x1FF) (lmem [0xFFFFE / 8])) (fun t => memGet t.mem 0xFFFFE == 8 && t.full 0xFFFFE && t.mem.length == 2) ∧
    goes (exec (.slh 2 1 .l .plain 0) (lmem [])) (fun t => t.bundle == .trapped) := ⟨rfl, by decide +kernel⟩

/-- Offset 0 and the last 64 bytes before the queue address; a stride and an index that are no multiple. -/
theorem test_meets_VectorMemory :
    (vecSt 1 2 3 1).SeqIdle ∧
    (((vecSt 1 2 3 1).rx 3).toNat + 64 * (0x1FF : BitVec 9).toInt) % 0x20000 % 64 = 0 ∧
    (vecSt 1 2 3 1).cc.isQueueAddr .l 0x1FF80 = false ∧ (vecSt 1 2 3 1).cc.isQueueAddr .l 0x1FFC0 = true ∧
    (((vecSt 1 2 3 1).rx 1).toNat % 4 ≠ 0 ∧ ((vecSt 1 2 3 1).rx 3).toNat % 4 = 0 ∧ ((vecSt 1 2 3 1).rx 2).toNat % 4 ≠ 0) ∧
    goes (exec (.vst 1 3 .l 0 0) (vecSt 0x0A0B 2 3 0)) (fun t => memGet t.mem 0xE0000 == 0x0B && memGet t.mem 0xE0001 == 0x0A) ∧
    goes (exec (.vld 1 3 .l 0 0) { vecSt 1 2 3 0 with mem := [(0xE003F, 7)] }) (fun t => t.cc.main.v[(1 : VReg)] == 7 * 2 ^ 504) ∧
    goes (exec (.vsts 1 3 2 .w 0 .e2) (vecSt 0x00050004 2 3 0)) (fun t => memGet t.mem 0 == 4 && memGet t.mem 70 == 5) ∧
    goes (exec (.vldx 3 3 2 .w 0 .e1) { vecSt 1 0x0302 3 0 with mem := [(3, 9)] }) (fun t => elem t.cc.main.v[(3 : VReg)] 1 1 == 9) :=
  ⟨vecSt_idle _ _ _ _, by decide, by decide, by decide, by decide, by decide +kernel, by decide +kernel, by decide +kernel,
   by decide +kernel⟩

/-- A register-kind address at privilege U, a misaligned one, the first doubleword of core 1's window. -/
theorem test_meets_GlobalIssue :
    (globalSpec (.ld 31 1 .adp .wf .d) (small 0 0) = some (.load 8, .adp, .wf, 1, some 31, .zero 8)) ∧
    (bits (0x8000000000000000 : Word) 62 2 = 2 ∧ (withCore (runner true 0x8000000000000000 0)).privNow = false) ∧
    ((window 0x100004).toNat % 8 ≠ 0 ∧ (window 0x100000).toNat % 8 = 0) ∧
    (((small (window 0x100000) 5).xlate (some 0) 0 false .read (window 0x100000)).2 matches .ok _) ∧
    (((small (window 0x100000) 5).xlate (some 0) 0 false .read (BitVec.ofNat 64 (2 ^ 62 + 2 ^ 32))).2 matches .error .fault) ∧
    goes (exec (.st 1 2 .ord .plain .d) (small (window 0x100000) 5)) (fun t => t.net.length == 1 && t.mem.isEmpty) ∧
    goes (exec (.ld 3 1 .ord .plain .d) (small (window 0x100004) 5)) (fun t => t.cc.ctl.trapCause == 0 && t.bundle == .trapped) :=
  ⟨rfl, by decide +kernel⟩

/-- A request of core 0 for an address of this device. -/
def reqAt (id : Nat) (a : Nat) (op : ReqOp) (fe : FeMode) (ph : Phase) : Req :=
  { id := id, src := .core 0 false 0x40, op := op, cls := .ord, fe := fe, ga := window a, sys := BitVec.ofNat 50 a, reg := false,
    loc := false, tokchk := false, ext := .zero 8, flight := some 1, phase := ph, due := 5, ctx := 0, nocache := true, plane := none }

def oneReq (r : Req) (e : List Nat) : State :=
  { withCore { runner false 0 0 with main := { MainCtx.reset with flights := [waiting 1] } } with
    net := [r], empties := e, mem := [(0xE0008, 0x7F)], nextId := 9 }

theorem test_meets_AccessPerformed :
    let s := oneReq (reqAt 2 0xE0008 (.acc (.atomic .add 2 0)) .plain .sent) []
    let w := oneReq (reqAt 2 8 (.acc (.load 8)) .wf .sent) [1]
    (s.req 2 = some (reqAt 2 0xE0008 (.acc (.atomic .add 2 0)) .plain .sent) ∧
      s.heldBack (reqAt 2 0xE0008 (.acc (.atomic .add 2 0)) .plain .sent) = false ∧
      s.verdict (reqAt 2 0xE0008 (.acc (.atomic .add 2 0)) .plain .sent) (.atomic .add 2 0) = .perform) ∧
    (w.verdict (reqAt 2 8 (.acc (.load 8)) .wf .sent) (.load 8) = .wait ∧ w.waitingAt (homeOf 8) < 512) ∧
    (oneReq (reqAt 2 0x3A0000000 (.acc (.load 8)) .plain .sent) []).verdict (reqAt 2 0xF0F0000000 (.acc (.load 8)) .plain .sent) (.load 8) =
      .refuse 3 ∧
    goes (exec (.accessPerform (.own 2 ownReply)) s) (fun t => memGet t.mem 0xE0008 == 0x81) := by decide +kernel

/-- The register space of another device refuses all but a plain 8-byte read of FAB_CAP (spec/02 R28); no route is logged at
the source die (R37). -/
theorem test_peer_answers :
    let s (r : Req) : State := { State.reset with
      net := [r]
      fab := { State.reset.fab with peers := [(5, { planes := 1, keyslot := 0, enc := false, xt := true, foreign := false, valid := true })] } }
    let peer (a n : Nat) (fe : FeMode) : Req := { reqAt 2 0 (.acc (.load n)) fe .sent with sys := sysOf 5 a, plane := some 0 }
    let back (a : Nat) (st : BitVec 4) : PeerReply := mkReply (sysOf 5 a) st false 8 7
    goes (exec (.accessPerform (.own 2 (back 0xF000000008 0))) (s (peer 0xF000000008 8 .plain))) (fun t => t.net.map (·.phase) == [.answered 3]) ∧
    goes (exec (.accessPerform (.own 2 (back 0xF000000000 0))) (s (peer 0xF000000000 8 .wf))) (fun t => t.net.map (·.phase) == [.answered 3]) ∧
    goes (exec (.accessPerform (.own 2 (back 0xF000000000 0))) (s (peer 0xF000000000 8 .plain))) (fun t => t.net.map (·.phase) != [.answered 3]) ∧
    goes (exec (.accessPerform (.own 2 (back 0 1))) (s (peer 0 8 .plain)))
      (fun t => t.net.map (·.phase) == [.answered 1] && (t.vlog 0).count == 1) ∧
    goes (exec (.accessPerform (.own 2 ownReply)) (s { peer 0 8 .plain with plane := none }))
      (fun t => t.net.map (·.phase) == [.answered 1] && t.fab.out.isEmpty) ∧
    goes (exec (.accessPerform (.own 2 { back 0 0 with data := 8 })) (s (peer 0 8 .plain)))
      (fun t => t.net.map (·.phase) == [.answered 8]) ∧
    goes (exec (.accessPerform (.damaged 2)) (s (reqAt 2 8 (.acc (.load 8)) .plain .sent))) (fun t => t.net.map (·.phase) == [.answered 8]) := by
  decide +kernel


theorem test_meets_Responses :
    (oneReq (reqAt 2 8 (.acc (.store 8 0)) .plain (.answered 0)) []).req 2 =
      some (reqAt 2 8 (.acc (.store 8 0)) .plain (.answered 0)) ∧
    goes (exec (.feTimeout 2) { oneReq (reqAt 2 8 (.acc (.load 8)) .wf (.waiting 7)) [1] with now := 7 })
      (fun t => t.net.map (·.phase) == [.answered 6]) ∧
    goes (exec (.feTimeout 2) { oneReq (reqAt 2 8 (.acc (.load 8)) .wf (.waiting 7)) [1] with now := 6 })
      (fun t => t.net.map (·.phase) == [.waiting 7]) ∧
    goes (exec (.fabRspTimeout 2) { oneReq { reqAt 2 (2 ^ 40) (.acc (.load 8)) .plain .sent with plane := some 0 } [] with now := 5 })
      (fun t => t.fab.overdue == [2] && t.net.map (·.phase) == [.answered 9]) ∧
    goes (exec (.fabRspTimeout 2) { oneReq (reqAt 2 (2 ^ 40) (.acc (.load 8)) .plain .sent) [] with now := 5 })
      (fun t => t.fab.overdue.isEmpty && t.net.map (·.phase) == [.sent]) ∧
    goes (exec (.responseTrap 0) (oneReq (reqAt 2 8 (.acc (.load 8)) .plain (.answered 3)) []))
      (fun t => t.cc.evt.respTraps == [{ cause := 5, val := 8 }] && t.net.isEmpty) ∧
    goes (exec (.resultLanding 0 false 0) (withCore { runner false 0 0 with main := { MainCtx.reset with
      flights := [{ waiting 1 with vals := [77], more := false, aged := true }] } })) (fun t => t.cc.main.x[5] == 77) := by
  decide +kernel

/-- The scope of one core, and a scope that R151 rejects. -/
theorem test_meets_Fences :
    scopeLegal 0x01010000 ∧ ¬ scopeLegal 0x00000001 ∧ (small 0x01010000 0).EnginesIdle ∧
    (oneReq (reqAt 2 8 (.acc (.store 8 0)) .plain .sent) []).covers 1 2 0x3F3F0000 (reqAt 2 8 (.acc (.store 8 0)) .plain .sent) ∧
    goes (exec (.fence 1 2 1) { oneReq (reqAt 2 8 (.acc (.store 8 0)) .plain .sent) [] with
      cores := [(0, runner false 0x3F3F0000 0)] }) (fun t => t.bundle == .held) ∧
    goes (exec (.fence 7 15 1) (small 0x3F3F0000 0)) (fun t => t.bundle == .ok) := by
  refine ⟨by unfold scopeLegal; decide, by unfold scopeLegal; decide, ⟨rfl, rfl, by decide, rfl, rfl, rfl, fun _ h => nomatch h⟩, ?_,
    by decide +kernel, by decide +kernel⟩
  exact ⟨Or.inl ⟨false, 0x40, rfl⟩, Or.inr ⟨⟨false, 0x40, rfl⟩, rfl⟩, rfl,
    Or.inr ⟨Or.inl rfl, by show inRect 0x3F3F0000 0; unfold inRect; decide⟩⟩

/-- A launch whose group 0 is cores 0 and 1, with its packet's number and a state. -/
def launchOf (st : LaunchSt) : Launch :=
  { lid := 0, queue := 0, pseq := 0, tag := 0, prio := 0, ctx := 0, hdrVa := 0, param := 0, deps := [], hdr := [], groups := [[0, 1]],
    data := [], st := st, x0 := 0, y0 := 0, reason := 0, cause := 0, core := 0, arrival := 0, started := 0, saved := false,
    exitVal := none, cancelAt := none }

/-- Core of group 0 with an exchange. -/
def member (e : Exchange) : Core :=
  { runner false (window 0x180000) 0xC000000000000040 with
    ctl := { CtlRegs.reset with gmem := CtlRegs.reset.gmem.set 0 (2 ^ 37), gscope := CtlRegs.reset.gscope.set 0 0x3F3F0000 }, exch := e }

def pair (e f : Exchange) : State :=
  { State.reset with cores := [(0, member e), (1, member f)], sched := { State.reset.sched with launches := [launchOf .running] } }

def parkedAt (p : Barrier) (back : Bool) : Exchange := { Exchange.reset with parked := p, back := back, group := some 0 }

theorem test_meets_Supersteps :
    let a := pair Exchange.reset Exchange.reset
    let r := pair (parkedAt (.sync 0) false) (parkedAt (.sync 0) false)
    let x := pair (parkedAt (.xend 0) false) (parkedAt (.xend 0) false)
    (a.cc.groupEntry 0 = some 0 ∧ a.cc.exch.group = none ∧ a.cc.groupEntry 1 = none ∧ a.cc.main.flights = []) ∧
    a.members 0 0 = [0, 1] ∧
    goes (exec (.sync 0) a) (fun t => t.bundle == .held && t.cc.exch.parked == .sync 0) ∧
    goes (exec (.sync 255) a) (fun t => t.bundle == .trapped) ∧
    goes (exec (.syncRelease 0 0) r) (fun t => (t.core 1).exch.back && (t.core 0).exch.back && (t.core 1).exch.group == some 0) ∧
    goes (exec (.syncRelease 0 0) (pair (parkedAt (.sync 0) false) Exchange.reset)) (fun t => !(t.core 0).exch.back) ∧
    goes (exec (.xend 0) (pair (parkedAt .none false) Exchange.reset)) (fun t => t.cc.exch.parked == .xend 0 && t.bundle == .held) ∧
    goes (exec (.xendReturn 0 0) x) (fun t => (t.core 0).exch.back && (t.core 1).exch.group == none) ∧
    goes (exec (.sync 0) (pair (parkedAt (.sync 0) true) Exchange.reset)) (fun t => t.bundle == .ok && t.cc.exch.parked == .none) ∧
    goes (exec (.xexpect 1) (pair (parkedAt .none false) Exchange.reset)) (fun t => t.cc.exch.remain == 0xFFFFFFFF) := by
  decide +kernel

/-- An interrupt that waited in SYNC is not taken before the bundle of the returned barrier completes (R244). -/
theorem test_returning_boundary :
    let due (e : Exchange) : State := (pair e Exchange.reset).modCore 0 fun c =>
      { c with evt := { c.evt with respTraps := [{ cause := 5, val := 9 }] } }
    (due (parkedAt (.sync 0) false)).boundary 0 = none ∧ (due (parkedAt (.sync 0) true)).boundary 0 = none ∧
    ((due (parkedAt .none false)).boundary 0).isSome := by decide +kernel

def sending : XTransfer := { id := 4, src := 0, buf := .l, off := 0, len := 64, dst := 0x180000, ga := window 0x180000, slot := 2, start := 128, late := false, entered := false }

/-- The last slot; a length of 0; a misaligned offset, length and destination; before and at the slot of a transfer. -/
theorem test_meets_ExchangeTransfers :
    let s := { pair (parkedAt .none false) Exchange.reset with mem := [(0xE0000, 9)] }
    let x := { s with xfers := [sending], now := 128 }
    let earlier : XTransfer := { sending with id := 3, dst := 0x2E0000, entered := true }
    let y := { x with xfers := [earlier, sending] }
    goes (exec (.xsend 1 2 255) s) (fun t => t.xfers.map (fun y => (y.off, y.len, y.dst, y.slot)) == [(0, 64, 0x180000, 255)]) ∧
    goes (exec (.xsend 1 0 0) s) (fun t => t.bundle == .trapped) ∧
    goes (exec (.xsend 1 2 0) (pair Exchange.reset Exchange.reset)) (fun t => t.bundle == .trapped) ∧
    x.xfers.find? (·.id == 4) = some sending ∧
    goes (exec (.xsendLinkEntry 4 false) { x with now := 127 }) (fun t => t.xfers.map (·.entered) == [false]) ∧
    goes (exec (.xsendLinkEntry 4 false) x) (fun t => t.xfers.map (·.entered) == [true] && !t.cc.exch.xcol && t.cc.exch.ncol == 0) ∧
    goes (exec (.xsendLinkEntry 4 true) y) (fun t => t.xfers.map (fun v => (v.entered, v.start, v.late)) == [(true, 128, false), (false, 192, true)] &&
      t.cc.exch.xcol && t.cc.exch.ncol == 1) ∧
    goes (exec (.xsendLinkEntry 4 true) { y with xfers := [earlier, { sending with late := true }] }) (fun t => t.cc.exch.ncol == 0) ∧
    goes (exec (.xsendLinkEntry 4 false) y) (fun t => t.xfers.map (·.entered) == [true, false]) ∧
    goes (exec (.xsendLinkEntry 4 false) { x with now := 192 }) (fun t => t.xfers.map (·.entered) == [true] && t.cc.exch.ncol == 1) ∧
    goes (exec (.xsendLinkEntry 3 false) y) (fun t => t.xfers.map (·.entered) == [true, false]) ∧
    earlier.sharesLink sending ∧ !(({ sending with src := 1, dst := 0xE0000 } : XTransfer).sharesLink sending) ∧
    goes (exec (.xsendLanding 4) x) (fun t => t.xfers.length == 1) ∧
    goes (exec (.xsendLanding 4) { x with xfers := [{ sending with entered := true }] })
      (fun t => memGet t.mem 0x180000 == 9 && t.xfers.isEmpty) := by decide +kernel

theorem test_meets_NeighbourQueues :
    let two := { vecSt 5 6 7 1 with cores := [(0, vecs 5 6 7 1), (1, vecs 5 6 7 1)] }
    let near := fun l : List Vec => { two with cores := [(0, { vecs 5 6 7 1 with seq := { SeqState.reset with nq := SeqState.reset.nq.set 1 l } }),
      (1, vecs 5 6 7 1)] }
    meshNext 0 .s = none ∧ meshNext 4095 .n = none ∧ meshNext 0 .e = some 1 ∧ meshNext 0 .n = some 64 ∧
    goes (exec (.nqsend 1 .w) two) (fun t => t.bundle == .trapped) ∧
    goes (exec (.nqsend 1 .e) two) (fun t => (t.core 1).seq.nqIn[3] == [(none, 5)]) ∧
    goes (exec (.nqrecv 2 .e) (near [8, 9])) (fun t => t.cc.main.v[(2 : VReg)] == 8 && t.cc.seq.nq[1] == [9]) ∧
    goes (exec (.nqrecv 2 .e) (near [])) (fun t => t.cc.seq.queue.length == 1 && t.cc.seq.nqWait == some 0) ∧
    goes (exec (.nqsend 1 .e) { two with cores := [(0, vecs 5 6 7 1), (1, { vecs 5 6 7 1 with
      seq := { SeqState.reset with nq := SeqState.reset.nq.set 3 (List.replicate 8 0) } })] }) (fun t => t.cc.seq.queue.length == 1) ∧
    goes (exec (.neighbourQueueArrival 1 .w) { two with cores := [(0, vecs 5 6 7 1), (1, { vecs 5 6 7 1 with
      seq := { SeqState.reset with nqIn := SeqState.reset.nqIn.set 3 [(none, 4)] } })] }) (fun t => (t.core 1).seq.nq[3] == [4]) := by
  decide +kernel

/-- A receive that has waited just longer than QTIMEOUT, and one that has waited as long; the first element of a bound port. -/
theorem test_meets_NeighbourQueues_waits :
    let c := { vecs 5 6 7 1 with
      ctl := { CtlRegs.reset with qtimeout := 1 }
      seq := { SeqState.reset with
        queue := [{ ins := .nqrecv 2 .e, a := 0, b := 0, flight := none, handler := false, pc := 0x40, stamp := 0 }]
        nqWait := some 10 } }
    goes (exec (.queueTimeout 0) { withCore c with now := 1811 }) (fun t => t.cc.seq.queue.isEmpty && t.cc.evt.qto == some (1, 0x40)) ∧
    goes (exec (.queueTimeout 0) { withCore c with now := 1810 }) (fun t => t.cc.seq.queue.length == 1) ∧
    goes (exec (.streamElementArrival 0 0) { withCore { vecs 5 6 7 1 with
      seq := { SeqState.reset with ports := SeqState.reset.ports.set 0 { Port.reset with cfg := 0x8000000000000000 } } } with mem := [(0, 3)] })
      (fun t => t.cc.seq.ports[0].arrived == [some 3]) := by decide +kernel

/-- A record of 8 BF16 elements in the L buffer of core 0, as its 24 doublewords. -/
def rec8 : List Word :=
  [0x0201000000000000, 0x40000000000E2000, 0, 0, 8, 1, 1, 1, 1, 1, 2, 0, 0, 0, 0, 0, 0, 0, 0, 0, 0, 0, 0, 0]

def withRecord (stale : Bool) (ws : List Word) : State :=
  let s := pair (parkedAt .none false) Exchange.reset
  { s with cores := [(0, { member Exchange.reset with evt := { EventState.reset with
      records := [{ ga := window 0x180000, phys := [], words := ws, stale := stale }] } })] }

theorem test_meets_GroupsAndWorkSets_part :
    recOk rec8 = true ∧ recOk [] = false ∧
    ((withRecord false rec8).cc.groupEntry 0 = some 0 ∧ (withRecord false rec8).cc.groupEntry 255 = none ∧
      ((withRecord false rec8).rx 1).toNat % 64 = 0 ∧ ((withRecord false rec8).cc.flights (withRecord false rec8).curH).length < 32) ∧
    goes (exec (.gid 5 0) (withRecord false rec8)) (fun t => t.cc.main.x[5] == 0x2000000000) ∧
    goes (exec (.part 5 1 0 .meshX) (withRecord false rec8)) (fun t => (t.cc.main.flights.map (·.vals)) == [[0]]) ∧
    goes (exec (.part 5 1 0 .rank) (withRecord true rec8)) (fun t => t.cc.main.flights.isEmpty && t.bundle == .trapped) ∧
    goes (exec (.part 5 1 0 .rank) (withRecord false [])) (fun t => t.bundle == .trapped) := by decide +kernel

/-- Rank 1 of 4 members takes elements 2 and 3 of 8: COUNT is GMEM bits 28:16 (R67, R107, R285). -/
theorem test_part_rank :
    let s := withRecord false rec8
    goes (exec (.part 5 1 0 .rank) (s.mod fun c => { c with ctl := { c.ctl with gmem := c.ctl.gmem.set 0 0x2000040001 } }))
      (fun t => t.cc.main.flights.map (·.vals) == [[0x400000002]]) := by decide +kernel

def item (id dst : Nat) : PushedItem := { id := id, src := 0, hpc := none, dst := Fin.ofNat 4096 dst, item := 7 }
def work (k : CoreIx) (x : BitVec 128) : WorkItem := { core := k, lid := 0, item := x }
def voted : CoreEng := { CoreEng.reset with votes := [0] }

theorem test_meets_GroupsAndWorkSets_items :
    let two := pair Exchange.reset Exchange.reset
    let quiet := { two with cores := [(0, { member Exchange.reset with eng := voted }), (1, { member Exchange.reset with eng := voted })] }
    ((vecSt 1 2 3 1).rx 2).toNat < 4096 ∧ 4096 ≤ ((small 4096 0).rx 1).toNat ∧
    goes (exec (.wlpush 1 2) (vecSt 9 2 3 1)) (fun t => t.pushed.map (·.item) == [9] && t.pushed.map (·.dst) == [70]) ∧
    goes (exec (.wlpush 1 1) (small 4096 0)) (fun t => t.bundle == .trapped) ∧
    goes (exec (.wlpop 5 3) { vecSt 1 2 3 1 with lists := [(0, [work 0 6, work 0 7])] })
      (fun t => elem t.cc.main.v[(3 : VReg)] 16 0 == 6 && (t.cc.main.flights.map (·.vals)) == [[1]] && t.lists == [(0, [work 0 7])]) ∧
    goes (exec (.wlpop 5 3) (vecSt 1 2 3 1)) (fun t => (t.cc.main.flights.map (·.vals)) == [[0x8000000000000000]]) ∧
    goes (exec (.wldone 0) two) (fun t => t.cc.eng.votes == [0]) ∧
    goes (exec (.workItemArrival 5) { two with pushed := [item 5 1] }) (fun t => t.lists == [(1, [work 1 7])] && t.pushed.isEmpty) ∧
    goes (exec (.workItemArrival 6) { two with pushed := [item 5 1, item 6 1] }) (fun t => t.pushed.length == 2) ∧
    goes (exec (.workItemArrival 5) { two with pushed := [item 5 2] }) (fun t => t.cc.evt.respTraps.length == 1) ∧
    goes (exec (.quiescenceMessage 0 0) quiet) (fun t => (t.core 1).evt.inbox.map (·.kind) == [0x50] && (t.core 0).eng.votes.isEmpty) ∧
    goes (exec (.quiescenceMessage 0 0) two) (fun t => (t.core 1).evt.inbox.isEmpty) := by decide +kernel

/-- A die whose store is full, with room in the spill area of context 0. -/
theorem test_meets_GroupsAndWorkSets_spill :
    let s := { pair Exchange.reset Exchange.reset with
      lists := [(0, List.replicate 65536 (work 0 0))], dev := { DevRegs.reset with wlSpill := [(0, 2 ^ 40)] } }
    65536 ≤ s.stored 0 ∧ (look [] s.spilled 0).length < bits (look 0 s.dev.wlSpill 0) 40 22 * 256 := by
  refine ⟨?_, by decide +kernel⟩
  unfold State.stored
  simp only [List.foldl_cons, List.foldl_nil, List.length_replicate]
  decide

/-- A receive from any source at record offset 0xE1000 of core 0, a send of 8 bytes to core 1. -/
def recvDesc : Vec := BitVec.ofNat 512 (2 ^ 62 + 0xE1000 + 0xFFFFFFFF00000055 * 2 ^ 64 + 0xC000000000000000 * 2 ^ 128)
def sendDesc : Vec := BitVec.ofNat 512 (2 ^ 62 + 0xE0000 + (0x55 + 8 * 2 ^ 32) * 2 ^ 64 + 1 * 2 ^ 16 * 2 ^ 128)

def messaging : State :=
  { withCore { vecs recvDesc sendDesc 0 1 with main := { (vecs recvDesc sendDesc 0 1).main with x := MainCtx.reset.x.set 1 1 } } with
    cores := [(0, { vecs recvDesc sendDesc 0 1 with main := { (vecs recvDesc sendDesc 0 1).main with x := MainCtx.reset.x.set 1 1 } }),
              (1, runner false 0 0)]
    mem := writeLE [(0xE0000, 0x21)] 0xE1000 192 (rec8.foldr (fun w n => w.toNat + 2 ^ 64 * n) 0) }

def posted : PostedRecv :=
  { core := 0, lid := 0, ctx := 0, handle := 1, recGa := window 0xE1000, words := rec8, mask := 0xFFFFFFFF, tag := 0x55, anyDev := true, anyCore := true,
    fromCore := 0, fromDev := 0 }

def sentMsg (dst : CoreIx) (tag : BitVec 32) : Message :=
  { id := 3, dev := 0, core := 0, dst := dst, tag := tag, cls := .adp, payload := [1, 0, 0, 0, 0, 0, 0, 0], handle := 1, lid := 0 }

theorem test_meets_Messages_issue :
    messaging.OwnWindow (dword recvDesc 0) 192 ∧ messaging.OwnWindow (dword sendDesc 0) 8 ∧ messaging.cc.NextHandle 1 ∧
    goes (exec (.postrx 5 1) messaging) (fun t => t.pre.posted.map (·.words) == [rec8] && t.pre.posted.map (·.tag) == [0x55]) ∧
    goes (exec (.send 5 2) messaging) (fun t => t.pre.sent.map (·.payload) == [[0x21, 0, 0, 0, 0, 0, 0, 0]] && t.pre.sent.map (·.dst) == [1]) ∧
    goes (exec (.postrx 5 2) messaging) (fun t => t.pre.posted.isEmpty && t.cc.evt.inbox.map (fun m => (m.kind, m.status)) == [(0x30, 3)]) ∧
    goes (exec (.send 5 1) messaging) (fun t => t.pre.sent.isEmpty && t.cc.evt.inbox.map (fun m => (m.kind, m.status)) == [(0x31, 2)]) ∧
    goes (exec (.cancelrx 1) { messaging with pre := { messaging.pre with posted := [posted] } })
      (fun t => t.pre.posted.isEmpty && t.cc.evt.inbox.map (fun m => (m.kind, m.status)) == [(0x30, 2)]) ∧
    goes (exec (.cancelrx 1) (small 65536 0)) (fun t => t.bundle == .trapped) :=
  ⟨⟨by decide +kernel, by decide +kernel, by decide +kernel, by decide +kernel, by decide +kernel, rfl, rfl, rfl⟩,
   ⟨by decide +kernel, by decide +kernel, by decide +kernel, by decide +kernel, by decide +kernel, rfl, rfl, rfl⟩, ⟨by decide, by decide, by decide⟩,
   by decide +kernel, by decide +kernel, by decide +kernel, by decide +kernel, by decide +kernel, by decide +kernel⟩

theorem test_meets_Messages_arrival :
    let s (l : List PostedRecv) (m : Message) : State := { messaging with pre := { messaging.pre with posted := l, sent := [m] } }
    (posted.accepts (sentMsg 0 0x55) = true ∧ posted.accepts (sentMsg 0 0x54) = false ∧ (s [posted] (sentMsg 0 0x55)).landStall posted
      (sentMsg 0 0x55) = none ∧ (s [] (sentMsg 0 1)).roomFor (sentMsg 0 1) = true) ∧
    goes (exec (.messageArrival (.own 3)) (s [posted] (sentMsg 0 0x55))) (fun t => t.pre.posted.isEmpty && memGet t.mem 0xE2000 == 1) ∧
    goes (exec (.messageArrival (.own 3)) (s [posted] (sentMsg 0 0x54))) (fun t => t.pre.unexpected.length == 1) ∧
    goes (exec (.messageArrival (.own 3)) (s [] (sentMsg 2 1))) (fun t => t.pre.sent.isEmpty && t.pre.unexpected.isEmpty) ∧
    goes (exec (.messageArrival (.peer { dev := 5, core := 1, dst := 1, tag := 9, payload := [] }))
      { messaging with fab := { messaging.fab with domainEn := true } })
      (fun t => t.pre.unexpected.length == 1 && t.fab.out.length == 1) ∧
    goes (exec (.sendAnswer 0 1 (mkReply (sysOf 5 0x100000) 0 false 8 1)) { withCore { runner false 0 0 with eng := { CoreEng.reset with
        sends := [{ handle := 1, id := 2, dst := 1, dev := 5, tag := 9, len := 8, due := 0, answer := none }] } } with
        fab := { State.reset.fab with devid := 0 } })
      (fun t => t.cc.evt.inbox.map (fun m => (m.kind, m.status)) == [(0x31, 1)] && t.cc.eng.sends.isEmpty) := by decide +kernel

/-- A response whose XCRC does not match counts as status 0x8 and is logged at the sender's die (spec/02 R31, R37). -/
theorem test_send_crc :
    let s : State := { withCore { runner false 0 0 with eng := { CoreEng.reset with
        sends := [{ handle := 1, id := 2, dst := 1, dev := 5, tag := 9, len := 8, due := 0, answer := none }] } } with
        fab := { State.reset.fab with peers := [(5, { PeerEntry.reset with planes := 1, xt := true, valid := true })] } }
    goes (exec (.sendAnswer 0 1 { hdr := 0x10000000, data := 1 }) s)
      (fun t => t.cc.evt.inbox.map (fun m => (m.kind, m.status, m.payload)) == [(0x31, 2, 8)] && (t.vlog 0).count == 1) := by
  decide +kernel

/-- A MARKET-mode partition of two experts, one slot per token, that the launch of context 0 holds; capacities of 1 each. -/
def part2 : Partition := { Partition.reset with cfg := 2 ^ 62 + 2 ^ 58 + 4 * 2 ^ 50 + 2 * 2 ^ 39, owner := some (0, 0), bids := window 0xE0000 }

def market (q : Partition) (x1 x2 : Word) : State := { small x1 x2 with parts := [(0, q)], caps := [(0, 1), (1, 1)] }

theorem small_idle (q : Partition) (x1 x2 : Word) : (market q x1 x2).SeqIdle :=
  ⟨rfl, rfl, rfl, rfl, rfl,
   by show ∀ n : Fin 4, SeqState.reset.ports[n].en = false ∧ SeqState.reset.ports[n].outq = []; decide, fun _ h => nomatch h⟩

def stepping (n : Nat) : Partition := { part2 with run := some { core := 0, tokens := n, out := window 0xE1000 } }

def chunkAt (id : Nat) (c : Nat) : Posting := { id := id, stamp := id, core := 0, word := BitVec.ofNat 64 (c * 2 ^ 16), data := 5, taken := none }

/-- Two tokens and the partition; an empty step; a Sort job without records; a place for each clause of the writes. -/
theorem test_meets_Market_issue :
    ((market part2 0 0).holdsPart 0 0 = true ∧ (market part2 0 0).holdsPart 1 0 = false ∧ (market part2 0 0).cc.slot.ctx = 0) ∧
    goes (exec (.gatepost 1 1) (market part2 0 0)) (fun t => t.posts.map (·.id) == [1]) ∧
    goes (exec (.gatepost 1 1) (market part2 (2 ^ 24) 0)) (fun t => t.bundle == .trapped) ∧
    goes (exec (.mktrun 1 2) (market part2 (2 * 2 ^ 32) (window 0xE1000))) (fun t => t.part 0 == stepping 2) ∧
    goes (exec (.mktrun 1 2) (market part2 (3 * 2 ^ 32) (window 0xE1000)))
      (fun t => (t.part 0).run.isNone && t.cc.evt.inbox.map (fun m => (m.kind, m.status)) == [(0x70, 1)]) ∧
    goes (exec (.mktrun 1 2) (market part2 (2 * 2 ^ 32) 8))
      (fun t => t.cc.evt.inbox.map (fun m => (m.kind, m.status)) == [(0x70, 2)]) ∧
    goes (exec (.mktrd 3 1) (market part2 0x801 0)) (fun t => (t.cc.main.flights.map (·.vals)) == [[1]]) ∧
    goes (exec (.mktrd 3 1) (market part2 0x802 0)) (fun t => t.cc.evt.respTraps == [{ cause := 9, val := 0 }]) ∧
    goes (exec (.mktrd 3 1) (market (stepping 2) 0 0)) (fun t => t.mktWaits.length == 1) ∧
    goes (exec (.mktwr 1 2) (market part2 1 0x7F7FFFFF)) (fun t => (t.part 0).eps == 0x7F7FFFFF) ∧
    goes (exec (.mktwr 1 2) (market part2 1 0x7F800000)) (fun t => (t.part 0).eps == 0x3C000000 && t.cc.evt.respTraps.length == 1) ∧
    goes (exec (.mktwr 1 2) (market part2 2 7)) (fun t => (t.part 0).step == 7) ∧
    goes (exec (.mktwr 1 2) (market part2 3 0x40)) (fun t => (t.part 0).bids == 0x40) ∧
    goes (exec (.mktwr 1 2) (market part2 0x401 0x3F800000)) (fun t => t.prices == [(1, 0x3F800000)]) ∧
    goes (exec (.mktwr 1 2) (market part2 0x801 65536)) (fun t => t.caps == [(0, 1), (1, 65536)]) ∧
    goes (exec (.mktwr 1 2) (market part2 0x801 65537)) (fun t => t.caps == [(0, 1), (1, 1)] && t.cc.evt.respTraps.length == 1) := by
  decide +kernel

theorem test_meets_Market_steps :
    goes (exec (.gatepostChunkWrite 4) { market (stepping 2) 0 0 with posts := [chunkAt 4 0] }) (fun t => t.posts.length == 1) ∧
    goes (exec (.gatepostChunkWrite 4) { market part2 0 0 with posts := [chunkAt 4 1] }) (fun t => t.posts.isEmpty && t.postsLost == 1) ∧
    goes (exec (.gatepostChunkWrite 4) { market part2 0 0 with posts := [chunkAt 4 0] })
      (fun t => t.posts.isEmpty && memGet t.mem 0xE0000 == 5) ∧
    (∃ s1, State.getWords (brokerAcc (market (stepping 0) 0 0) 0 .adp) 0 (market (stepping 0) 0 0) (window 0xE0000) = (s1, .ok [])) ∧
    goes (exec (.marketStepComplete 0) (market (stepping 0) 0 0))
      (fun t => (t.part 0).step == 1 && (t.part 0).stat == 256 && t.cc.evt.inbox.map (·.payload) == [256]) ∧
    goes (exec (.sortComplete 0) (market { part2 with sort := [{ core := 0, recs := [], nexp := 0, ebase := 0, out := 0, step := 3, fail := none }] } 0 0))
      (fun t => (t.part 0).sort.isEmpty && t.cc.evt.inbox.map (·.kind) == [0x60]) ∧
    [(0, 1, false), (1, 0, true)].Pairwise (fun a b : Nat × Nat × Bool => a.1 < b.1) ∧
    dispatchOrder [(0, 1, false), (1, 0, true), (2, 0, false)] = [(1, 0, true), (2, 0, false), (0, 1, false)] := by
  refine ⟨by decide +kernel, by decide +kernel, by decide +kernel, ⟨_, rfl⟩, by decide +kernel, by decide +kernel, by decide +kernel,
    by decide +kernel⟩

/-- Two tokens bid on two experts with bids (2, 1) and (2, 1): the first keeps expert 0, the second takes expert 1. -/
theorem test_market_round :
    goes (exec (.marketStepComplete 0) { market (stepping 2) 0 0 with
        mem := [(0xE0000, 0x00), (0xE0001, 0x40), (0xE0002, 0x80), (0xE0003, 0x3F), (0xE0040, 0x00), (0xE0041, 0x40),
                (0xE0042, 0x80), (0xE0043, 0x3F)].filter (·.2 != 0) })
      (fun t => (t.part 0).run.isNone && (t.part 0).step == 1 && bits (t.part 0).stat 8 1 == 1 &&
        t.cc.evt.inbox.map (fun m => (m.kind, m.status)) == [(0x70, 0)]) := by decide +kernel

/-- An entry of context 0 that asks for the 64 bytes at PA 0x1000000000 in the W buffer of core 0. -/
def entry (st : BitVec 2) : ResEntry :=
  { ResEntry.reset with state := st, pin := 255, plen := 64, wbase := 0x40, srcVa := 0x1000, xid := 7 }

def query (fn : Fin 4) : Req := { reqAt 2 0xF006000000 (.query fn 0) .plain .sent with reg := true, cls := .adp }

def entryStore (i : Nat) (d : Word) : Req :=
  { reqAt 2 (0xF006000000 + 8 * i) (.acc (.store 8 d)) .plain .sent with reg := true, flight := none }

def resident (r : Req) (e : ResEntry) : State :=
  let s := pair Exchange.reset Exchange.reset
  let c := { member Exchange.reset with main := { (member Exchange.reset).main with flights := [waiting 1] } }
  { s with cores := [(0, c), (1, member Exchange.reset)], net := [r], nextId := 9, dev := { s.dev with residency := [(0, e)] } }

theorem test_meets_Residency_queries :
    ((small 1023 0).rx 1).toNat < 1024 ∧
    goes (exec (.rqryPin 5 1) (small 1023 0)) (fun t => t.net.map (·.op) == [.query 2 1023]) ∧
    goes (exec (.rqry 5 1) (small 1024 0)) (fun t => t.bundle == .trapped) ∧
    goes (exec (.accessPerform (.own 2 ownReply)) (resident (query 2) (entry 2)))
      (fun t => (t.res 0).pin == 255 && t.net.map (·.phase) == [.answered 0]) ∧
    goes (exec (.accessPerform (.own 2 ownReply)) (resident (query 3) { entry 2 with pin := 0 })) (fun t => (t.res 0).pin == 0) ∧
    goes (exec (.accessPerform (.own 2 ownReply)) (resident (query 0) { entry 2 with ctx := 1 })) (fun t => t.net.map (·.phase) == [.answered 3]) ∧
    (resident (query 1) (entry 0)).members 0 0 = [0, 1] ∧
    goes (exec (.accessPerform (.own 2 ownReply)) (resident (query 1) (entry 0)))
      (fun t => (t.res 0).state == 1 && (t.res 0).xid == 1 && (t.core 0).eng.copies.map (·.xid) == [1]) ∧
    goes (exec (.accessPerform (.own 2 ownReply)) { resident (query 1) (entry 0) with
        dev := { (resident (query 1) (entry 0)).dev with residency := [(0, entry 0), (1, entry 1)] } })
      (fun t => (t.res 0).state == 0 && t.net.map (fun r => (r.phase, bit r.ga 43)) == [(.answered 0, true)]) ∧
    goes (exec (.storeAcknowledgement 2) (resident { query 1 with phase := .answered 0, ga := 5 } (entry 1)))
      (fun t => t.net.isEmpty && t.cc.main.flights.map (·.vals) == [[5]]) := by decide +kernel

theorem test_meets_Residency_stores :
    (resident (entryStore 0 (2 * 2 ^ 62 + 3 * 2 ^ 54)) (entry 2)).heldBack (entryStore 0 (2 * 2 ^ 62 + 3 * 2 ^ 54)) = false ∧
    physOf (entryStore 2 0).sys = 0xF006000000 + 32 * 0 + 8 * 2 ∧
    goes (exec (.residencyEntryStore 2) (resident (entryStore 0 (2 * 2 ^ 62 + 3 * 2 ^ 54)) (entry 2)))
      (fun t => (t.res 0).hgrp == 3 && (t.res 0).state == 2 && t.net.map (·.phase) == [.answered 0]) ∧
    goes (exec (.residencyEntryStore 2) (resident (entryStore 0 (2 ^ 62)) (entry 2)))
      (fun t => (t.res 0).hgrp == 0 && t.net.map (·.phase) == [.answered 3]) ∧
    goes (exec (.residencyEntryStore 2) (resident (entryStore 1 0x5000) (entry 1))) (fun t => t.net.map (·.phase) == [.answered 3]) ∧
    goes (exec (.residencyEntryStore 2) (resident (entryStore 2 (0x80 * 2 ^ 32 + 0x7FF80)) (entry 2)))
      (fun t => (t.res 0).plen == 0x80 && (t.res 0).wbase == 0x7FF80) ∧
    goes (exec (.residencyEntryStore 2) (resident (entryStore 2 (0x80 * 2 ^ 32 + 0x7FFC0)) (entry 2)))
      (fun t => (t.res 0).plen == 64 && t.net.map (·.phase) == [.answered 3]) := by decide +kernel

/-! Tokens -/

def tokenAt (t : TokEntry) : State := { small (window 0x100000) 0 with fab := { State.reset.fab with domainEn := true, peers := [(6, { PeerEntry.reset with planes := 1, xt := true, valid := true })], tokens := [(0, t)] }, now := 1800 }

def tok (h : Fin 1024) (m : Bool) (q : List TokParty) (due : Option Nat) : TokEntry :=
  { checked := true, moving := m, holder := h, queue := q, recallDue := due }

theorem test_meets_Tokens :
    ((small (window 0x100000) 5).xlate (some (clusterOf 0)) 0 false .any (window 0x100000)).2 = .ok { sys := 0x100000, nc := true, reg := false } ∧
    goes (exec (.tokacq 5 1) (small (window 0x100000) 0)) (fun t => t.net.map (·.op) == [.tok false]) ∧
    goes (exec (.tokenAcquire 0 (.peer 5)) (tokenAt (tok 5 false [] none))) (fun t => t.fab.out == [.token 5 0 1]) ∧
    goes (exec (.tokenAcquire 0 (.peer 5)) (tokenAt (tok 0 false [] none |> fun t => { t with checked := false, holder := 6 })))
      (fun t => t.fab.out == [.token 5 0 2]) ∧
    goes (exec (.tokenAcquire 0 (.peer 5)) (small 0 0)) (fun t => (t.vlog 0).count == 1 && (t.token 0).holder == 0) ∧
    goes (exec (.tokenAcquire 0 (.peer 5)) (tokenAt (tok 0 false [] none)))
      (fun t => t.fab.out == [.token 5 0 0] && (t.token 0).holder == 5) ∧
    goes (exec (.tokenAcquire 0 (.peer 5)) (tokenAt (tok 6 false [] none)))
      (fun t => t.fab.out == [.recall 6 0] && (t.token 0).moving && (t.token 0).recallDue == some 1801800) ∧
    goes (exec (.tokenAcquire 0 (.peer 5)) (tokenAt (tok 6 true [.peer 7] (some 9)))) (fun t => (t.token 0).queue == [.peer 7, .peer 5]) ∧
    goes (exec (.tokenRelease 0 (.peer 5)) (tokenAt (tok 5 false [] none))) (fun t => t.fab.out == [.token 5 0 4] && (t.token 0).holder == 0) ∧
    goes (exec (.tokenRelease 0 (.peer 5)) (tokenAt (tok 6 false [] none))) (fun t => t.fab.out == [.token 5 0 5]) ∧
    goes (exec (.recallReply 0) (tokenAt (tok 6 true [.peer 5] (some 1801)))) (fun t => t.fab.out == [.token 5 0 0]) ∧
    goes (exec (.recallReply 0) (tokenAt (tok 6 false [] none))) (fun t => t.fab.out.isEmpty) ∧
    goes (exec (.tokenRelease 0 (.peer 6)) (tokenAt (tok 6 true [.peer 5] (some 1801))))
      (fun t => t.fab.out == [.token 6 0 4, .token 5 0 0] && (t.token 0).holder == 5 && !(t.token 0).moving) ∧
    goes (exec (.tokTimeout 0) (tokenAt (tok 6 true [.peer 5] (some 1801)))) (fun t => t.fab.out.isEmpty) ∧
    goes (exec (.tokTimeout 0) (tokenAt (tok 6 true [.peer 5] (some 1800)))) (fun t => t.fab.out == [.token 5 0 3] && (t.token 0).holder == 5) := by
  decide +kernel

/-- The request of a TOKACQ of core 0, at its home. -/
def tokReq (rel : Bool) : State := oneReq (reqAt 2 0x100000 (.tok rel) .plain .sent) []

theorem test_meets_Tokens_own :
    (((tokReq false).token 0).holder = (tokReq false).fab.devid ∧
      (reqAt 2 0x100000 (.tok false) .plain .sent).flight = some 1 ∧ (tokReq false).net = [reqAt 2 0x100000 (.tok false) .plain .sent]) ∧
    goes (exec (.tokenAcquire 0 (.core 0 5 1)) (tokReq false)) (fun t => t.net.isEmpty && (t.cc.main.flights.map (·.vals)) == [[1]]) ∧
    goes (exec (.tokenRelease 0 (.core 0 5 1)) (tokReq true)) (fun t => t.net.isEmpty && (t.cc.main.flights.map (·.vals)) == [[4]]) ∧
    goes (exec (.tokenRecall 0 0) { oneReq (reqAt 2 0x100000 (.acc (.load 8)) .plain .sent) [] with fab := { State.reset.fab with domainEn := true } }) (fun t => t.fab.out.isEmpty) ∧
    goes (exec (.tokenRecall 7 0) { tokReq false with fab := { State.reset.fab with domainEn := true, held := [(7, 0)] } })
      (fun t => t.fab.held.isEmpty && t.fab.out == [.recallReply 7 0]) := by decide +kernel

/-! Copies -/

def cpOf (flags : Word) (src dst : Nat) : CpRegs := { CpRegs.reset with src := window src, dst := window dst, flags := flags }

def copying (r : CpRegs) (l : List Xfer) : State :=
  { withCore { runner true 0 7 with eng := { CoreEng.reset with cp := r, copies := l } } with mem := [(0xE0000, 9), (0xE0006, 4)] }

def xfer (st : XferState) (started : Nat) : Xfer :=
  { xid := 7, stamp := 1, regs := cpOf 1 0xE0000 0xE0008, priv := true, state := st, base := 0, started := started, landed := [], lost := [],
    failed := none, fetch := none, ended := false }

theorem test_meets_Copies :
    ((copying (cpOf 1 0xE0000 0xE0008) []).cc.eng.xid + 1 ≠ 0 ∧ bits (cpOf 1 0 0).cls 0 2 ≠ 3) ∧
    goes (exec (.cpLaunch 5) (copying (cpOf 1 0xE0000 0xE0008) []))
      (fun t => t.cc.eng.copies.map (fun y => (y.xid, y.state, y.started)) == [(1, .running, 1)]) ∧
    goes (exec (.cpLaunch 5) (copying (cpOf (2 ^ 62 + 1) 0xE0000 0xE0008) []))
      (fun t => t.cc.eng.copies.map (fun y => (y.xid, y.state, y.started)) == [(1, .prepared, 0)]) ∧
    goes (exec (.cpLaunch 5) (copying (cpOf 0 0xE0000 0xE0008) [])) (fun t => t.cc.evt.inbox.map (fun m => (m.kind, m.status)) == [(0x20, 1)]) ∧
    goes (exec (.cpLaunch 5) (copying { cpOf 1 0xE0000 0xE0008 with count := CpRegs.reset.count.set 1 0 } []))
      (fun t => t.cc.evt.inbox.map (fun m => (m.kind, m.status)) == [(0x20, 0)]) ∧
    goes (exec (.cpLaunch 5) (copying (cpOf 1 0xE0000 0xE0008) (List.replicate 16 (xfer .prepared 0))))
      (fun t => t.cc.main.flights.map (·.vals) == [[0]] && t.cc.eng.copies.length == 16) ∧
    goes (exec (.copyChunkLanding 0 7 0) (copying CpRegs.reset [xfer .running 1]))
      (fun t => memGet t.mem 0xE0008 == 9 && memGet t.mem 0xE000E == 4 && t.cc.evt.inbox.map (fun m => (m.kind, m.payload)) == [(0x20, 8)]) ∧
    goes (exec (.cpreplay 5 1 2 .resume) (withCore (runner true 0 7))) (fun t => t.bundle == .trapped) ∧
    goes (exec (.cpreplay 5 1 2 .resume) (withCore (runner false 4096 7))) (fun t => t.bundle == .trapped) ∧
    goes (exec (.cpreplay 5 1 2 .resume) (withCore (runner false 1 7))) (fun t => t.cc.main.flights.map (·.vals) == [[2]]) ∧
    goes (exec (.cpreplay 5 1 2 .resume) (withCore (runner false 0 7))) (fun t => t.cc.main.flights.map (·.vals) == [[1]]) ∧
    goes (exec (.cpreplay 5 1 2 .resume) (withCore { runner false 0 7 with eng := { CoreEng.reset with copies := [xfer .suspended 1] } }))
      (fun t => t.cc.main.flights.map (·.vals) == [[0]] && t.cc.eng.copies.map (·.state) == [.running]) ∧
    goes (exec (.cpreplay 5 1 2 .abandon) (withCore { runner false 0 7 with eng := { CoreEng.reset with copies := [xfer .suspended 1] } }))
      (fun t => t.cc.main.flights.map (·.vals) == [[0]] && t.cc.evt.inbox.map (fun m => (m.kind, m.status)) == [(0x20, 2)]) := by
  decide +kernel

theorem test_meets_Copies_windows :
    (copying CpRegs.reset [xfer .running 1]).OwnWindow (window 0xE0000) 8 ∧
    (copying CpRegs.reset [xfer .running 1]).OwnWindow (window 0xE0008) 8 ∧ (copying CpRegs.reset []).Canonical :=
  ⟨⟨by decide +kernel, by decide +kernel, by decide +kernel, by decide +kernel, by decide +kernel, rfl, rfl, rfl⟩,
   ⟨by decide +kernel, by decide +kernel, by decide +kernel, by decide +kernel, by decide +kernel, rfl, rfl, rfl⟩, by decide, by decide⟩

/-- Operations: COPY of 64 bytes from base 0 to base 1 with one successor; SEND to peer 0; a RECV from peer 0; a REDUCE of two. -/
def opCopy : ConvOp := { w0 := 4 * 2 ^ 60 + 1 * 2 ^ 24 + 2 ^ 10, w1 := 2 ^ 58 + 2 ^ 45, w2 := 0 }
def opSend : ConvOp := { w0 := 1 * 2 ^ 60, w1 := 2 ^ 45, w2 := 0 }
def opRecv : ConvOp := { w0 := 2 * 2 ^ 60, w1 := 2 ^ 45, w2 := 0 }
def opRed (cdep : Word) : ConvOp := { w0 := 3 * 2 ^ 60 + cdep * 2 ^ 36, w1 := 2 ^ 58 + 2 ^ 45 + 2 * 2 ^ 34 + 2 * 2 ^ 9, w2 := 0 }

def playOf (l : List OpState) : Play :=
  { bases := [window 0xE0000, window 0xE2000, 0, 0, 0, 0, 0, 0], ops := l, flags := 0, partials := [], lates := 0, fault := none,
    progress := 0, sends := [], lost := [], landing := [] }

def graphOf (ops : List ConvOp) (run : Option Play) : Graph :=
  { ctx := 0, core := 0, lid := 0, armed := true, header := 0, peers := [5, 6], trigs := [], ops := ops, play := 0, run := run, ended := [],
    queued := none, bases := [], area := none, nextTrigs := [], discarded := 0 }

def convoyAt (g : Graph) (now : Nat) : State :=
  { withCore (runner false 0 0) with
    mem := [(0xE0000, 9)], now := now, convoy := { State.reset.convoy with graphs := [(0, g)] },
    fab := { State.reset.fab with
      domainEn := true
      stations := State.reset.fab.stations.set 0 { up := true, outstanding := 0 }
      peers := [(5, { planes := 1, keyslot := 0, enc := false, xt := true, foreign := false, valid := true })] } }

def armed (s : State) (im : Word) : State := { s with convoy := { s.convoy with arms := [(0, { core := 0, lid := 0, ctx := 0, image := im })] } }
def playing (s : State) (ctx : BitVec 12) : State :=
  { s with convoy := { s.convoy with plays := [(0, { core := 0, lid := 0, ctx := ctx, bases := [1], stamp := 1 })] } }

def told (t : State) : List (BitVec 8 × BitVec 8 × Word) := t.cc.evt.inbox.map fun m => (m.kind, m.status, m.payload)

/-- An image of one COPY, as its doublewords; `h` is its header, `w0` the record's first word. -/
def image (h w0 : Word) : List Word :=
  [h, 0, 0, 0, 0, 0, 0, 0, 5, 0, 0, 0, 0, 0, 0, 0, 0, 0, 0, 0, 0, 0, 0, 0, w0, 2 ^ 58 + 2 ^ 45, 0, 0]

def imaged (l : List Word) : State :=
  armed { withCore (runner false 0 0) with mem := writeLE [] 0xE1000 224 (l.foldr (fun w n => w.toNat + 2 ^ 64 * n) 0) } (window 0xE1000)

theorem test_meets_Convoys_requests :
    goes (exec (.cvarm 1 2) (small 64 15)) (fun t => t.convoy.arms.map (·.1) == [15]) ∧
    goes (exec (.cvarm 1 2) (small 64 16)) (fun t => t.bundle == .trapped) ∧ goes (exec (.cvarm 1 2) (small 32 15)) (fun t => t.bundle == .trapped) ∧
    goes (exec (.cvplay 1 2) (small 64 15)) (fun t => t.convoy.plays.map (·.1) == [15]) ∧
    goes (exec (.cvplay 1 2) (small 64 16)) (fun t => t.bundle == .trapped) ∧ State.reset.SeqIdle :=
  ⟨by decide +kernel, by decide +kernel, by decide +kernel, by decide +kernel, by decide +kernel, rfl, rfl, rfl, rfl,
   rfl,
   by show ∀ n : Fin 4, SeqState.reset.ports[n].en = false ∧ SeqState.reset.ports[n].outq = []; decide, fun _ h => nomatch h⟩

theorem test_meets_Convoys_arming :
    let good := 1 + 2 ^ 24 + 2 ^ 32
    goes (exec (.convoyArmComplete 0) (armed (convoyAt { graphOf [opCopy] none with ctx := 1 } 0) 0)) (fun t => told t == [(0x41, 6, 0)]) ∧
    goes (exec (.convoyArmComplete 0) (armed (convoyAt (graphOf [opCopy] (some (playOf [.ready]))) 0) 0)) (fun t => told t == [(0x41, 4, 0)]) ∧
    goes (exec (.convoyArmComplete 0) (armed (withCore (runner false 0 0)) 0)) (fun t => told t == [(0x41, 6, 0)]) ∧
    goes (exec (.convoyArmComplete 0) (armed (convoyAt (graphOf [opCopy] none) 0) 0))
      (fun t => told t == [(0x41, 0, 0)] && t.convoy.graphs.isEmpty) ∧
    goes (exec (.convoyArmComplete 0) (imaged (image good (4 * 2 ^ 60)))) (fun t => told t == [(0x41, 0, 0)] && t.convoy.graphs.length == 1) ∧
    goes (exec (.convoyArmComplete 0) (imaged (image 0 (4 * 2 ^ 60)))) (fun t => told t == [(0x41, 7, 0xFFF * 2 ^ 52)]) ∧
    goes (exec (.convoyArmComplete 0) (imaged (image good (5 * 2 ^ 60)))) (fun t => told t == [(0x41, 7, 0)] && t.convoy.graphs.isEmpty) := by
  decide +kernel

/-- The records of `test_meets_Convoys_arming` as the statement's predicates read them. -/
theorem test_meets_Convoys_image :
    HeaderOk (image (1 + 2 ^ 24 + 2 ^ 32) (4 * 2 ^ 60)) ∧ ListsOk (image (1 + 2 ^ 24 + 2 ^ 32) (4 * 2 ^ 60)) ∧
    RecordOk 0 (image (1 + 2 ^ 24 + 2 ^ 32) (4 * 2 ^ 60)) 0 ∧ ¬ RecordOk 0 (image (1 + 2 ^ 24 + 2 ^ 32) (5 * 2 ^ 60)) 0 := by
  refine ⟨⟨by decide, by decide, by decide, by decide, by decide, by decide, by decide, by decide, ?_⟩, ⟨?_, ?_⟩, ?_, ?_⟩
  · intro j h k
    have : j = 1 ∨ j = 2 ∨ j = 3 ∨ j = 4 ∨ j = 5 ∨ j = 6 ∨ j = 7 := by omega
    rcases this with rfl | rfl | rfl | rfl | rfl | rfl | rfl <;> rfl
  · intro i h
    have : i = 0 := by have : imgPeers (image (1 + 2 ^ 24 + 2 ^ 32) (4 * 2 ^ 60)) = 1 := by decide
                       omega
    subst this; decide
  · intro i h
    have : imgTrigs (image (1 + 2 ^ 24 + 2 ^ 32) (4 * 2 ^ 60)) = 0 := by decide
    omega
  · unfold RecordOk; decide +kernel
  · unfold RecordOk; decide +kernel

theorem test_meets_Convoys_plays :
    let idle := convoyAt (graphOf [opCopy, opSend] none) 0
    let runs := convoyAt (graphOf [opCopy, opSend] (some (playOf [.ready, .ready]))) 0
    let waits := convoyAt { graphOf [opCopy, opSend] (some (playOf [.ready, .ready])) with queued := some [2] } 0
    goes (exec (.playStart 0) (playing idle 0)) (fun t => t.convoy.graphs.map (fun p => (p.2.play, p.2.run.map (·.ops), p.2.bases)) ==
      [(1, some [.ready, .ready], [1])]) ∧
    goes (exec (.playStart 0) (playing runs 0)) (fun t => t.convoy.graphs.map (·.2.queued) == [some [1]]) ∧
    goes (exec (.playStart 0) (playing waits 0)) (fun t => told t == [(0x40, 4, 0)]) ∧
    goes (exec (.playStart 0) (playing idle 1)) (fun t => told t == [(0x40, 6, 0)]) ∧
    goes (exec (.playStart 0) (playing (withCore (runner false 0 0)) 0)) (fun t => told t == [(0x40, 6, 0)]) ∧
    goes (exec (.playStart 0) { playing idle 0 with net := [reqAt 0 8 (.acc (.store 8 0)) .plain .sent] })
      (fun t => t.convoy.plays.length == 1) := by decide +kernel

theorem test_meets_Convoys_operations :
    let s := convoyAt (graphOf [opCopy, opSend] (some (playOf [.ready, .waiting 1]))) 0
    let p := fun l => convoyAt (graphOf [opSend, opCopy] (some (playOf l))) 0
    let timed := fun (o : ConvOp) now => convoyAt (graphOf [o, opCopy] (some (playOf [.timed 0, .ready]))) now
    let st := fun (t : State) => t.convoy.graphs.map fun g => g.2.run.map (·.ops)
    let answer : BitVec 4 → Bool → PeerReply := fun a l => mkReply (ingress 5) a l 0 0
    goes (exec (.convoyOpComplete 0 0 .own) s) (fun t => st t == [some [.done, .ready]] && memGet t.mem 0xE2000 == 9) ∧
    (∃ z, (p [.ready, .ready]).route 5 .adp true = .ok z) ∧
    goes (exec (.convoyOpComplete 0 0 (.answered (answer 0 false))) (p [.ready, .ready])) (fun t => st t == [some [.done, .ready]]) ∧
    goes (exec (.convoyOpComplete 0 0 (.answered (answer 3 true))) (p [.ready, .ready]))
      (fun t => t.convoy.graphs.map (fun g => g.2.run.map (·.lates)) == [some 1]) ∧
    goes (exec (.convoyOpComplete 0 0 (.answered (answer 7 false))) (p [.ready, .ready]))
      (fun t => t.convoy.graphs.map (fun g => g.2.run.map (·.sends)) == [some [(0, 0)]]) ∧
    goes (exec (.convoyOpComplete 0 0 (.answered (answer 1 false))) (p [.ready, .ready])) (fun t => st t == [some [.failed, .ready]]) ∧
    goes (exec (.cvTimeout 0 0) (timed opRecv 179999)) (fun t => st t == [some [.timed 0, .ready]]) ∧
    goes (exec (.cvTimeout 0 0) (timed opRecv 180000)) (fun t => t.convoy.graphs.map (fun g => g.2.run.map (·.partials)) == [some [(0, 1)]]) ∧
    goes (exec (.cvTimeout 0 0) (timed (opRed 0) 180000)) (fun t => t.convoy.graphs.map (fun g => g.2.run.map (·.partials)) == [some [(0, 3)]]) ∧
    goes (exec (.playStall 0) (convoyAt (graphOf [opRecv] (some (playOf [.timed 0]))) 11519999)) (fun t => (told t).isEmpty) ∧
    goes (exec (.playStall 0) (convoyAt (graphOf [opRecv] (some (playOf [.timed 0]))) 11520000)) (fun t => told t == [(0x40, 8, 0)]) := by
  refine ⟨by decide +kernel, ⟨_, rfl⟩, by decide +kernel, by decide +kernel, by decide +kernel, by decide +kernel, by decide +kernel,
    by decide +kernel, by decide +kernel, by decide +kernel, by decide +kernel⟩

def chunk (op : BitVec 12) (play : BitVec 16) (total : Nat) : Chunk :=
  { dev := 5, graph := 0, play := play, op := op, cidx := 0, offset := 0, total := total, trig := none, hdr := 0x10000000, data := List.replicate 64 1 }

theorem test_meets_Convoys_chunks :
    let s := convoyAt (graphOf [opRecv, opRed 0] none) 0
    let st := fun (t : State) => t.fab.out.map fun o => match o with | .reply d st h _ => (d.val, st.toNat, bit h 2) | _ => (0, 99, false)
    goes (exec (.convoyChunkArrival (chunk 1 1 64)) (withCore (runner false 0 0))) (fun t => st t == [(5, 3, false)]) ∧
    goes (exec (.convoyChunkArrival (chunk 2 1 64)) s) (fun t => st t == [(5, 3, false)]) ∧
    goes (exec (.convoyChunkArrival (chunk 1 2 64)) s) (fun t => st t == [(5, 3, false)]) ∧
    goes (exec (.convoyChunkArrival (chunk 1 1 128)) s) (fun t => st t == [(5, 2, false)]) ∧
    goes (exec (.convoyChunkArrival (chunk 1 0xFFFF 64)) s) (fun t => st t == [(5, 3, true)] && t.convoy.late == 1) ∧
    goes (exec (.convoyChunkArrival (chunk 1 1 64)) s) (fun t => st t == [(5, 0, false)] && t.convoy.slots.length == 1) ∧
    goes (exec (.convoyChunkArrival (chunk 1 1 64)) { s with convoy := { s.convoy with slots := [(0, { key := some (0, 1, 7), staged := [] })] } })
      (fun t => st t == [(5, 7, false)]) := by decide +kernel

/-- A disarmed graph whose launch was cancelled at tick 0. -/
theorem test_meets_Convoys_stop :
    let g := { graphOf [opRecv] (some (playOf [.timed 0])) with armed := false }
    let l := { launchOf .running with cancelAt := some 0 }
    let s := fun (n : Nat) => { convoyAt g n with sched := { State.reset.sched with launches := [l] } }
    goes (exec (.convoyPlayStop 0) (s 179999)) (fun t => t.convoy.graphs.length == 1) ∧
    goes (exec (.convoyPlayStop 0) (s 180000)) (fun t => t.convoy.graphs.isEmpty) := by decide +kernel

/-- Core 0 with matrix commands held and the queue address at offset 320 of L. -/
def matCore (v : Vec) (l : List MatEntry) : Core :=
  { vecs v 0 0 0 with ctl := { CtlRegs.reset with mqAddr := 2 ^ 63 + 320 }, mat := { MatState.reset with mq := l } }

def held (cmd : MatCmd) (started : Bool) (rows : Nat) : MatEntry :=
  { cmd := cmd, stamp := 0, started := started, rows := rows, released := false }

def swapCmd : MatCmd := .mswap { tag := 0, gate := false }

theorem test_meets_MatrixQueue_store :
    let s := withCore (matCore (BitVec.ofNat 512 (encodeMat (.mzero rowsGood))) [])
    let hnd := { withCore { matCore 0 [] with hnd := { HandlerCtx.reset with row := some { stamp := 0, dest := 0, cls := .ord, last := false } } } with curH := true }
    (bit s.cc.ctl.mqAddr 63 = true ∧ (((s.rx 3).toNat + 64 * (5 : BitVec 9).toInt) % 0x20000).toNat = 64 * bits s.cc.ctl.mqAddr 6 11) ∧
    goes (exec (.vst 1 3 .l 0 5) s) (fun t => t.cc.mat.mq.map (·.cmd) == [.mzero rowsGood] && t.mem.isEmpty) ∧
    goes (exec (.vst 1 3 .l 1 5) s) (fun t => t.cc.mat.mq.isEmpty && t.cc.evt.respTraps.map (·.cause) == [2]) ∧
    goes (exec (.vst 1 3 .l 0 5) (withCore (matCore 0 []))) (fun t => t.cc.mat.mq.isEmpty && t.cc.evt.respTraps.map (·.cause) == [2]) ∧
    goes (exec (.vst 1 3 .l 0 5) hnd) (fun t => t.bundle == .trapped && t.cc.hnd.faults.length == 1) ∧
    goes (exec (.vst 1 3 .l 0 5) (withCore (matCore 0 (List.replicate 8 (held swapCmd false 0)))))
      (fun t => t.cc.mat.mq.length == 8 && t.cc.seq.queue.length == 1) := by decide +kernel

/-- C(0, 0) is 3.0; A(0, 0) and W(0, 0) are the BF16 1.0; CSCALE is 2.0; the result is 5.0. -/
def mmaOne : MmaCmd := { pair := .f16 false false, cscale := 0x40000000, tag := 0, sca := false, gate := false, swap := false, k := 1, rows := 1,
                         soff := 0, boff := 0, sstr := 0, bstr := 64, coff := 0 }

theorem test_meets_MatrixQueue_commands :
    let one := { MatState.reset with
      mq := [held (.mma mmaOne) false 0]
      active := { Plane.zero with cols := Plane.zero.cols.set 0 0x3F80, scales := Vector.replicate 16 0x7F7F7F7F7F7F7F7F } }
    let s := { withCore { runner false 0 0 with mat := one } with mem := [(0x80000, 0x80), (0x80001, 0x3F), (0xC0002, 0x40), (0xC0003, 0x40)] }
    let load := held (.mload mloadGood)
    let gated := held (.mswap { tag := 0, gate := true }) false 0
    goes (exec (.mma 0 mmaOne) s) (fun t => t.mem == [(0x80000, 0x80), (0x80001, 0x3F), (0xC0002, 0xA0), (0xC0003, 0x40)]) ∧
    goes (exec (.mload 0 mloadGood) { withCore (matCore 0 [load false 0]) with mem := [(0, 7)] })
      (fun t => t.cc.mat.shadow.cols[0] == 7 && t.cc.mat.mq.map (·.started) == [true]) ∧
    goes (exec (.mload 0 mloadGood) (withCore (matCore 0 [load true 0, load false 0]))) (fun t => t.cc.mat.mq.map (·.started) == [true, false]) ∧
    goes (exec (.mswap 0 { tag := 0, gate := false }) (withCore (matCore 0 [load true 0, held swapCmd false 0])))
      (fun t => t.cc.mat.mq.map (·.started) == [true, false]) ∧
    goes (exec (.mswap 0 { tag := 0, gate := false }) (withCore (matCore 0 [held swapCmd false 0]))) (fun t => t.cc.mat.mq.map (·.started) == [true]) ∧
    goes (exec (.mswap 0 { tag := 0, gate := true }) (withCore (matCore 0 [gated]))) (fun t => t.cc.mat.mq.map (·.started) == [false]) ∧
    goes (exec (.mshape 0 { tag := 0, gate := false, bands := 0xA }) (withCore (matCore 0 [held (.mshape { tag := 0, gate := false, bands := 0xA }) false 0])))
      (fun t => t.cc.mat.bands == 0xA) ∧
    goes (exec (.mdrain 0 drainGood) (withCore (matCore 0 [held (.mdrain drainGood) false 0]))) (fun t => t.cc.mat.mq.map (·.started) == [true]) ∧
    goes (exec (.mzero 0 rowsGood) { withCore (matCore 0 [held (.mzero rowsGood) false 0]) with mem := [(0xC003F, 1), (0xC0040, 2)] })
      (fun t => t.mem == [(0xC0040, 2)]) ∧
    goes (exec (.matrixCommandEnd 0) (withCore (matCore 0 [held swapCmd true 0]))) (fun t => t.cc.mat.mq.isEmpty) ∧
    ((matCore 0 [held swapCmd true 0, load true 0]).endCommand (load true 0)).mat.mq.map (·.cmd) = [swapCmd] ∧
    goes (exec (.matrixCommandEnd 0) (withCore (matCore 0 [held (.mdrain drainGood) true 0]))) (fun t => t.cc.mat.mq.length == 1) := by decide +kernel

theorem test_meets_MatrixQueue_drain :
    let row : Word → Row := fun d => { stamp := 0, dest := d, cls := .ord, last := true }
    let hnd := fun (d : Word) => { withCore { matCore 0 [held (.mdrain drainGood) true 1] with hnd := { HandlerCtx.reset with row := some (row d) } } with curH := true }
    let s := { withCore (matCore 0 [held (.mdrain drainGood) true 0]) with sched := { State.reset.sched with launches := [launchOf .running] } }
    mmaOne.wf = true ∧ s.launchOf 0 = some (launchOf .running) ∧
    goes (exec (.drainRowDispatch 0) { s with mem := [(0xC0000, 5)] }) (fun t => t.cc.hnd.v[0] == 5 && t.cc.hnd.row == some (row 0)) ∧
    goes (exec (.drainRowDispatch 0) (withCore (matCore 0 [held (.mdrain drainGood) true 1]))) (fun t => t.cc.hnd.row == none) ∧
    goes (exec .hret (hnd (window 0xE0000))) (fun t => t.net.length == 1 && t.cc.hnd.row == none && t.cc.mat.mq.isEmpty) ∧
    goes (exec .hret (hnd (window 0xE0020))) (fun t => t.net.isEmpty && t.cc.hnd.faults.map (·.1) == [1]) ∧
    goes (exec .hret (hnd 0x8000000000000000)) (fun t => t.net.isEmpty && t.cc.hnd.faults.map (·.1) == [5]) ∧
    goes (exec .hret (hnd 0x8000010000000000)) (fun t => t.net.isEmpty && t.cc.hnd.faults.map (·.1) == [4]) ∧
    goes (exec .hret (small 0 0)) (fun t => t.bundle == .trapped) := by decide +kernel

theorem test_meets_dot :
    ∀ i, i < 1 → (rowElem .bf16 0x3F80 (0 + i)).rat = some 1 ∧ (rowElem .int8 0xFE (0 + i)).rat = some (-2) := by
  intro i h
  obtain rfl : i = 0 := by omega
  have e1 : rowElem .bf16 0x3F80 0 = .fin false 128 (-7) false := by decide +kernel
  have e2 : rowElem .int8 0xFE 0 = .fin true 2 0 false := by decide +kernel
  rw [Nat.zero_add, e1, e2]
  constructor <;> simp [Val.rat]
  norm_num

/-! Slots -/

def bindRec : BindRec := { prio := 1, ctx := 2, lid := 3, lrank := 0, seq := 9, crec := 0x1000000000 }

def inState (st : SlotSt) : State := withCore { runner false 0 0 with slot := { Slot.reset with st := st } }
def slotIs (i : Instr) (st st' : SlotSt) (err : Bool) : Bool :=
  goes (exec i (inState st)) fun t => t.cc.slot.st == st' && t.cc.slot.err == err && t.cc.slot.aseq == 9

theorem test_meets_SlotsAndCoreEvents_records :
    slotIs (.slotActNone 0 bindRec) .running .running false ∧ slotIs (.bindNew 0 bindRec) .idle .loading false ∧
    slotIs (.bindNew 0 bindRec) .running .running true ∧ slotIs (.bindResume 0 bindRec) .idle .idle true ∧
    slotIs (.preempt 0 bindRec) .running .stopping false ∧ slotIs (.preempt 0 bindRec) .halted .saving false ∧
    slotIs (.preempt 0 bindRec) .frozen .frozen true ∧ slotIs (.freeze 0 bindRec) .loading .loading true ∧
    slotIs (.release 0 bindRec) .idle .idle true ∧ slotIs (.release 0 bindRec) .running .idle false ∧
    goes (exec (.bindResume 0 bindRec) { inState .idle with mem := [(0x1000000007, 0x80)] }) (fun t => t.cc.slot.st == .loading) ∧
    goes (exec (.freeze 0 bindRec) (withCore { runner false 0 0 with slot := { Slot.reset with st := .running, lrank := 1 } }))
      (fun t => t.cc.slot.st == .frozen) ∧
    goes (exec (.bindNew 1 bindRec) (inState .running)) (fun t => (t.core 1).slot.err) := by decide +kernel

/-- A leaf of 1 GB with every permission maps virtual address x of context 0 to 0x1040000000 + x. -/
def paged (s : State) (m : List Host.Cell) : State :=
  { s with dev := { s.dev with xlatRoot := [(0, 0x8000001000000000)] },
           mem := [(0x1000000000, 0x1F), (0x1000000003, 0x40), (0x1000000004, 0x10)] ++ m }

/-- A launch whose text is the 8 bytes at virtual address 0, with ENTRY 1. -/
def loads : Launch := { launchOf .ready with hdr := [0, 0, 0, 1 * 2 ^ 16 + 8 * 2 ^ 32, 0, 0, 0, 0], param := 77 }

/-- A core that loads launch 0. -/
def loading (k : LoadKind) (have_ : Bool) : State :=
  { withCore { runner false 0 0 with slot := { Slot.reset with st := .loading, load := k, lrank := 3, crec := 0x1080000000 } } with
    sched := { State.reset.sched with launches := [loads] }, text := if have_ then [(0, (0, 8))] else [] }

theorem test_meets_SlotsAndCoreEvents_loading :
    ((loading .new true).launchOf 0 = some loads ∧ look ((0 : BitVec 16), 0) (loading .new true).text (clusterOf 0) = (0, 8) ∧
      (loading .resume true).pre.unexpected = [] ∧
      ∀ x ∈ ((loading .resume true).savedOf 0).map.ranges, x.2.1 + x.2.2 ≤ x.1.size) ∧
    (∃ s1 ws, State.engReadWords (hartAcc 0 0) 1 (paged (loading .new false) [(0x1040000000, 5)]) 0 = (s1, .ok ws)) ∧
    goes (exec (.loadingComplete 0) { loading .new true with mem := [(0xE0000, 9), (0x100000, 3)] })
      (fun t => t.cc.slot.st == .running && t.cc.main.x[10] == 77 && t.cc.main.x[11] == 3 && t.cc.main.pc == 8 && t.mem == [(0x100000, 3)]) ∧
    goes (exec (.loadingComplete 0) (paged (loading .new false) [(0x1040000000, 5)]))
      (fun t => t.cc.slot.st == .running && t.istore == [(0, [(0, 5)])] && t.text == [(0, (0, 8))]) ∧
    goes (exec (.loadingComplete 0) (loading .new false)) (fun t => t.cc.slot.st == .idle && t.sched.launches.all (·.reason == 2)) ∧
    goes (exec (.loadingComplete 0) { loading .resume true with mem := [(0x1080000007, 0x40), (0x1080000008, 0x88)] })
      (fun t => t.cc.slot.st == .running && t.cc.main.pc == 0x88) ∧
    goes (exec (.loadingComplete 0) (inState .running)) (fun t => t.cc.slot.st == .running) := by
  refine ⟨by decide +kernel, ⟨_, _, rfl⟩, by decide +kernel, by decide +kernel, by decide +kernel, by decide +kernel, by decide +kernel⟩

def saving (stop : StopKind) : State :=
  { withCore { runner false 5 6 with slot := { Slot.reset with st := .stopping, stop := stop, lrank := 1, crec := 0x1080000000 } } with
    mem := [(0xE0000, 9)], sched := { State.reset.sched with launches := [loads] } }

theorem test_meets_SlotsAndCoreEvents_save :
    goes (exec (.contextSave 0) (inState .running)) (fun t => t.cc.slot.st == .running) ∧
    goes (exec (.contextSave 0) (saving .no)) (fun t => t.cc.slot.st == .stopping) ∧
    ((saving .forced).core 0).slot.stop = .forced ∧ ((saving .forced).core 0).slot.st = .stopping ∧ (saving .forced).net = [] := by
  decide +kernel

/-- Core 0 is the only one of its launch that holds a slot, so every core of the launch has stopped. -/
theorem test_meets_SlotsAndCoreEvents_alone (j : CoreIx) (h : ((saving .forced).core j).slot.st ≠ .idle) :
    ((saving .forced).core j).slot.stop ≠ .no := by
  by_cases e : j.val = 0
  · obtain rfl : j = 0 := Fin.ext e
    decide
  · refine absurd ?_ h
    show (look Core.reset [(0, _)] j.val).slot.st = .idle
    simp only [look, Ne.symm e, if_false]
    rfl

def interrupts (en now : Nat) : Core :=
  { runner false 0 0 with
    ctl := { CtlRegs.reset with coreStatus := 5, intEn := BitVec.ofNat 64 en, timerCmp := BitVec.ofNat 64 now, tvec := 0x8000000000000400 }
    evt := { EventState.reset with inbox := [msg 0], errQ := [(1, 2)] } }

theorem test_meets_SlotsAndCoreEvents_timed :
    let s := fun (en : Nat) => { withCore (interrupts en 50) with now := 50 }
    let wd := fun (n : Nat) => { withCore { runner false 0 0 with ctl := { CtlRegs.reset with wdog := 1 }, evt := { EventState.reset with holdSince := some 0 } } with now := n }
    let st := fun (n : Nat) => { withCore { runner false 0 0 with slot := { Slot.reset with st := .stopping, preq := some 0 } } with now := n }
    goes (exec (.interruptTaken 0) (s 0)) (fun t => t.cc.main.pc == 0) ∧
    goes (exec (.interruptTaken 0) (s 4)) (fun t => t.cc.ctl.trapCause == 0x11 && t.cc.ctl.trapVal == 50 && t.cc.main.pc == 0x400) ∧
    goes (exec (.interruptTaken 0) (s 8)) (fun t => t.cc.ctl.trapCause == 0x12 && t.cc.ctl.trapVal == 0x10042 && t.cc.evt.errQ.isEmpty) ∧
    goes (exec (.timerCompare 0) { s 4 with now := 7 }) (fun t => t.now == 50) ∧
    goes (exec (.watchdogExpiry 0) (wd 1799)) (fun t => !t.cc.evt.wdogHit) ∧ goes (exec (.watchdogExpiry 0) (wd 1800)) (fun t => t.cc.evt.wdogHit) ∧
    goes (exec (.safeTimeout 0) (st 3599999)) (fun t => t.cc.slot.stop == .no) ∧
    goes (exec (.safeTimeout 0) (st 3600000)) (fun t => t.cc.slot.stop == .forced) := by decide +kernel

/-- A packet that interface 0 has taken, with its first words. -/
def packet (n : Nat) (w : List Word) : Packet :=
  { seq := n, words := w, started := false, moved := 0, retried := [], waitPage := none, result := none, fin := 0 }

def ring (ps : List Packet) : Qi := { Qi.reset with st := .active, sqLog2 := 6, cqLog2 := 6, packets := ps }
def host (x : Qi) : State :=
  { State.reset with host := { State.reset.host with ready := true, qis := [(0, x)] } }

/-- The header of a launch of w by h cores, movable, whose text is the 8 bytes at virtual address 64. -/
def header (w h : Word) : List Word := [0x42584C31 * 2 ^ 32 + 2 ^ 24, w * 2 ^ 50 + h * 2 ^ 43, 64, 8 * 2 ^ 32, 0, 0, 0, 0]

def launched (l : Launch) : State :=
  let s := host (ring [{ packet 0 [3] with started := true }])
  { s with sched := { s.sched with launches := [l] } }

def pend : Launch := { launchOf .pending with groups := [] }

def withHeader (h : List Word) : State :=
  paged (launched pend) (writeLE [] 0x1040000000 64 (h.foldr (fun w n => w.toNat + 2 ^ 64 * n) 0))

/-- A launch of 2 by 2 that may be placed; core 0 is bound to another launch where `busy`. -/
def readyTwo (busy : Bool) : State :=
  let s := launched { launchOf .ready with hdr := header 2 2, groups := [[0, 1, 2, 3]] }
  { s with cores := if busy then [(0, { runner false 0 0 with slot := { Slot.reset with st := .running, lid := 9 } })] else [] }

theorem test_meets_Launches_start :
    let p := packet 0 [3 + 2 ^ 41 * 5 + 2 ^ 48 * 7, 0x40, 9]
    let st := fun (t : State) => t.sched.launches.map fun l => (l.st, l.reason)
    goes (exec (.launchPacket 0 0) (host (ring [p]))) (fun t => t.sched.launches.map (fun l => (l.prio, l.tag, l.hdrVa, l.param)) == [(5, 7, 0x40, 9)]) ∧
    goes (exec (.launchPacket 0 1) (host (ring [packet 0 [1], { p with seq := 1 }]))) (fun t => t.sched.launches.isEmpty) ∧
    goes (exec (.launchPacket 0 0) { host (ring [p]) with sched := { State.reset.sched with launches := [{ pend with tag := 7 }] } })
      (fun t => t.sched.launches.length == 1 && (t.qi 0).packets.map (·.result) == [some (7, 0)]) ∧
    ((withHeader (header 2 2)).launch 0 = some pend ∧
      (State.engReadWords (hartAcc 0 0) 2 (withHeader (header 2 2)) 0).2.toOption = some ((header 2 2).take 2)) ∧
    goes (exec (.launchReady 0) (withHeader (header 2 2))) (fun t => st t == [(.ready, 0)]) ∧
    goes (exec (.launchReady 0) (withHeader (header 65 2))) (fun t => (t.qi 0).packets.map (·.result) == [some (8, 0x1000000)]) ∧
    goes (exec (.launchReady 0) (withHeader (header 0 2))) (fun t => (t.qi 0).packets.map (·.result) == [some (0, 0)]) ∧
    goes (exec (.launchReady 0) (launched pend)) (fun t => (t.qi 0).packets.map (·.result) == [some (8, 0x2000000)]) ∧
    goes (exec (.launchReady 0) (launched { pend with hdrVa := 8 })) (fun t => (t.qi 0).packets.map (·.result) == [some (8, 0x1000000)]) ∧
    goes (exec (.launchReady 0) (launched { pend with deps := [0] })) (fun t => st t == [(.pending, 0)]) := by
  decide +kernel

theorem test_meets_Launches_end :
    let run := fun (st : SlotSt) => { launched { launchOf .running with exitVal := some 3 } with
      cores := [(0, { runner false 0 0 with slot := { Slot.reset with st := st } })] }
    let fault := { pair Exchange.reset Exchange.reset with
      sched := { State.reset.sched with launches := [{ launchOf .running with groups := [[0, 1], [0]] }], faults := [0] },
      cores := [(0, { member Exchange.reset with slot := { Slot.reset with st := .running, fatal := some (5, 8) } }), (1, member Exchange.reset)] }
    goes (exec (.launchPlacement 0) (readyTwo false)) (fun t => t.sched.launches.map (fun l => (l.st, l.x0, l.y0)) == [(.running, 0, 0)] &&
      (t.core 65).slot.st == .loading && (t.core 65).slot.lrank == 3) ∧
    goes (exec (.launchPlacement 0) (readyTwo true)) (fun t => t.sched.launches.map (fun l => (l.x0, l.y0)) == [(4, 0)] &&
      (t.core 4).slot.lrank == 0 && (t.core 0).slot.lid == 9) ∧
    goes (exec (.launchEnd 0) (run .running)) (fun t => t.sched.launches.map (·.st) == [.running]) ∧
    goes (exec (.launchEnd 0) (run .halted)) (fun t => (t.qi 0).packets.map (·.result) == [some (0, 3 * 2 ^ 32)] && t.cc.slot.st == .idle) ∧
    goes (exec (.groupFaultHandling 0) fault) (fun t => t.cc.slot.st == .frozen && (t.core 1).slot.st == .running &&
      (t.core 1).evt.inbox.map (fun m => (m.kind, m.payload)) == [(0x10, 5 * 2 ^ 56 + 8)] && t.sched.launches.map (·.reason) == [5]) := by
  decide +kernel

/-! Host packets -/

/-- A packet's bytes with their phase and CRC (R57). -/
def packetBytes (w0 : Nat) : BitVec 512 :=
  let b := BitVec.ofNat 512 (w0 + 2 ^ 40)
  b ||| BitVec.ofNat 512 (crc16 b 62 * 2 ^ 496)

def fetching (at_ : Option Nat) (n : Nat) (now : Nat) : State :=
  { host { ring [] with sqTail := 1, rereadAt := at_, rereads := n } with now := now }

theorem test_meets_HostPackets_fetch :
    goes (exec (.packetFetch 0 (packetBytes 0)) (fetching none 0 0))
      (fun t => (t.qi 0).sqHead == 1 && (t.qi 0).packets.map (·.result) == [none]) ∧
    goes (exec (.packetFetch 0 (packetBytes 5)) (fetching none 0 0)) (fun t => (t.qi 0).packets.map (·.result) == [some (3, 0)]) ∧
    goes (exec (.packetFetch 0 (packetBytes (2 ^ 20))) (fetching none 0 0))
      (fun t => (t.qi 0).packets.map (·.result) == [some (1, 0)] && t.host.refusals == [(0, 0)]) ∧
    goes (exec (.packetFetch 0 1) (fetching none 0 7)) (fun t => (t.qi 0).sqHead == 0 && (t.qi 0).rereadAt == some 7) ∧
    goes (exec (.packetReread 0 (packetBytes 0)) (fetching (some 0) 0 1799)) (fun t => (t.qi 0).sqHead == 0) ∧
    goes (exec (.packetReread 0 (packetBytes 0)) (fetching (some 0) 0 1800)) (fun t => (t.qi 0).sqHead == 1) ∧
    goes (exec (.packetReread 0 1) (fetching (some 0) 6 1800)) (fun t => (t.qi 0).st == .active && (t.qi 0).rereads == 7) ∧
    goes (exec (.packetReread 0 1) (fetching (some 0) 7 1800))
      (fun t => (t.qi 0).st == .error && t.host.out == [.completion 0 0 (1 + 2 * 2 ^ 8) 0]) := by decide +kernel

/-- PUT of 8 bytes to L of core 0's window, and the like. -/
def started (w : List Word) : State := host (ring [{ packet 0 w with started := true }])

theorem test_meets_HostPackets_work :
    let put := [1, 0x5000, 0x1040, 8]
    let get := [2, 0x5000, 0x1040, 8]
    let res := fun (t : State) => (t.qi 0).packets.map (·.result)
    goes (exec (.nopPacket 0 0) (host (ring [packet 0 [0]]))) (fun t => res t == [some (0, 0)]) ∧
    goes (exec (.nopPacket 0 0) (host (ring [packet 0 [1]]))) (fun t => res t == [none]) ∧
    goes (exec (.put 0 0) (host (ring [packet 0 put]))) (fun t => (t.qi 0).packets.map (·.started) == [true]) ∧
    goes (exec (.get 0 1) (host (ring [packet 0 put, packet 1 get]))) (fun t => (t.qi 0).packets.map (·.started) == [false, false]) ∧
    goes (exec (.cancel 0 1) (host (ring [packet 0 put, packet 1 [4, 0]]))) (fun t => res t == [some (6, 0), some (0, 0)]) ∧
    goes (exec (.cancel 0 0) (host (ring [packet 0 [4, 0]]))) (fun t => res t == [some (0, 1)]) ∧
    goes (exec (.putGetChunk 0 0 (.data [7])) (paged (started put) [])) (fun t => res t == [some (0, 8)] && memGet t.mem 0x1040001040 == 7) ∧
    goes (exec (.putGetChunk 0 0 (.data [7])) (started put)) (fun t => res t == [some (5, 0x1040)]) ∧
    goes (exec (.putGetChunk 0 0 (.noAccess 0x5000)) (started put)) (fun t => res t == [some (4, 0x5000)]) ∧
    goes (exec (.putGetChunk 0 0 (.data [])) (paged (started get) [(0x1040001040, 5)]))
      (fun t => res t == [some (0, 8)] && t.host.out == [.data 0 0x5000 [5, 0, 0, 0, 0, 0, 0, 0]]) ∧
    goes (exec (.packetCompletion 0 0) (host (ring [packet 0 [0]]))) (fun t => t.host.out.isEmpty) ∧
    goes (exec (.packetCompletion 0 0) (host (ring [{ packet 0 [3 + 7 * 2 ^ 48] with result := some (8, 9) }])))
      (fun t => t.host.out == [.completion 0 0 (1 + 8 * 2 ^ 8 + 3 * 2 ^ 24 + 7 * 2 ^ 48) 9] && (t.qi 0).packets.isEmpty) := by decide +kernel

def accepting (f : Word) (ready : Bool) : State :=
  { host (ring []) with host := { State.reset.host with ready := ready, featDrv := State.reset.host.featDrv.set 0 f, qis := [(0, ring [])] } }

/-- Interface 0's traffic is bound to selective stream 1. -/
def ideHost (f : Word) : State :=
  let s := accepting f true
  { s with host := { s.host with featOk := true, streams := [(0, 1)] } }

theorem test_meets_HostFunctions :
    let dis := fun (n : BitVec 5) (ok : Bool) => { host { ring [] with st := .disabled, sqLog2 := n, sqHead := 5, failed := [1] } with
      host := { State.reset.host with featOk := ok, qis := [(0, { ring [] with st := .disabled, sqLog2 := n, sqHead := 5, failed := [1] })] } }
    goes (exec .featuresOk (accepting 1 true)) (fun t => t.host.featOk) ∧ goes (exec .featuresOk (accepting 127 true)) (fun t => t.host.featOk) ∧
    goes (exec .featuresOk (accepting 128 true)) (fun t => t.host.featBad) ∧ goes (exec .featuresOk (accepting 5 true)) (fun t => t.host.featBad) ∧
    goes (exec .featuresOk (accepting 1 false)) (fun t => !t.host.featOk && !t.host.featBad) ∧
    goes (exec (.sqTail 0 63) (host (ring []))) (fun t => (t.qi 0).sqTail == 63) ∧
    goes (exec (.sqTail 0 64) (host (ring []))) (fun t => (t.qi 0).sqTail == 0 && (t.qi 0).errors == 1) ∧
    goes (exec (.cqHead 0 63) (host Qi.reset)) (fun t => (t.qi 0).cqHead == 0) ∧
    goes (exec (.qiEnable 0) (dis 6 true)) (fun t => (t.qi 0).st == .active && (t.qi 0).sqHead == 0 && (t.qi 0).failed.isEmpty) ∧
    goes (exec (.qiEnable 0) (dis 12 true)) (fun t => (t.qi 0).st == .active) ∧ goes (exec (.qiEnable 0) (dis 13 true)) (fun t => (t.qi 0).err == 3) ∧
    goes (exec (.qiEnable 0) (dis 6 false)) (fun t => (t.qi 0).err == 3) ∧
    goes (exec (.qiDisable 0) (host (ring [packet 0 [0]]))) (fun t => (t.qi 0).st == .disabled && t.host.out == [.completion 0 0 (1 + 6 * 2 ^ 8) 0]) ∧
    goes (exec (.revoke 0) (host (ring [packet 0 [0]]))) (fun t => (t.qi 0).st == .revoked && t.host.refusals == [(0, 0)]) ∧
    goes (exec (.ideIntegrityFailure (some 1) [0]) (ideHost 8)) (fun t => (t.qi 0).st == .error && t.mgmt.plog.length == 1) ∧
    goes (exec (.ideIntegrityFailure (some 1) [0]) (ideHost 0)) (fun t => (t.qi 0).st == .active && t.mgmt.plog.isEmpty) ∧
    goes (exec .functionReset (host (ring []))) (fun t => (t.qi 0).st == .disabled) ∧
    goes (exec (.pageRequestResponse 0 0x5000 false) { host (ring [{ packet 0 [1] with waitPage := some 0x5008 }]) with
        host := { (host (ring [{ packet 0 [1] with waitPage := some 0x5008 }])).host with pageReqs := [(0, 0x5000)] } })
      (fun t => (t.qi 0).packets.map (·.result) == [some (4, 0x5008)] && t.host.pageReqs.isEmpty) := by decide +kernel

/-! Fabric, registers, power, failures and management -/

def fabReq (leg : Bool) (dev : Nat) : FabReq :=
  { dev := 3, addr := BitVec.ofNat 50 (dev * 2 ^ 40), kind := .load 8, hdr := BitVec.ofNat 64 (2 ^ 28 + if leg then 2 ^ 10 else 0) }

def peerOf (planes : BitVec 16) : PeerEntry := { planes := planes, keyslot := 0, enc := false, xt := true, foreign := false, valid := true }

def withPeer : State := { State.reset with fab := { State.reset.fab with domainEn := true, fixed := true, peers := [(3, peerOf 3), (5, peerOf 3)] } }

/-- Peer 3, whose packets are encrypted. -/
def withKeyed : State := { withPeer with fab := { withPeer.fab with peers := [(3, { peerOf 3 with enc := true })] } }

theorem test_meets_FabricBringup :
    let answers : List (Fin 1024 × Option (BitVec 64)) := [(4, some 0x464C533100000100), (6, none)]
    (answers.map (·.1)).Nodup ∧
    goes (exec (.stationBringup 1 4 answers) withPeer) (fun t => t.fab.stations[1].up && !t.fab.domainEn && (t.peer 5).planes == 1 &&
      (t.peer 4).planes == 2 && (t.peer 4).xt && !(t.peer 4).foreign && (t.peer 6).foreign) ∧
    goes (exec (.stationBringup 1 3 answers) withPeer) (fun t => !t.fab.stations[1].up && (t.peer 5).planes == 1 &&
      t.mgmt.plog == [.event 6 1 0]) ∧
    goes (exec (.stationLoss 0) withPeer) (fun t => (t.peer 5).planes == 2 && t.fab.domainEn) ∧
    goes (exec (.devid 1023) State.reset) (fun t => t.fab.devid == 1023) ∧
    goes (exec (.devid 7) { State.reset with fab := { State.reset.fab with idSet := true } }) (fun t => t.fab.devid == 0) ∧
    goes (exec (.domainEn 1) State.reset) (fun t => t.fab.domainEn) ∧
    goes (exec (.fabRspTimeoutWrite .fe 20000) State.reset) (fun t => t.fab.feTimeout == 20000 && t.fab.rspTimeout == 22000) ∧
    goes (exec (.fabRspTimeoutWrite .fabRsp 2001) State.reset) (fun t => t.fab.rspTimeout == 2001) ∧
    goes (exec (.fabRspTimeoutWrite .fabRsp 2000) State.reset) (fun t => t.fab.rspTimeout == 3000) ∧
    goes (exec (.sprForward (fabReq false 5)) withPeer) (fun t => t.fab.out == [.forward { fabReq false 5 with hdr := legHeader (fabReq false 5) } 0]) ∧
    bits (legHeader (fabReq false 5)) 0 32 = 2 ^ 28 + 2 ^ 10 ∧
    goes (exec (.sprForward (fabReq false 6)) withPeer) (fun t => t.fab.out.map (fun o => match o with
        | .reply d _ h _ => (d.val, bits h 12 4)
        | _ => (0, 0)) == [(3, 1)]) ∧
    goes (exec (.sprForward (fabReq true 5)) withPeer) (fun t => t.fab.out.isEmpty) ∧
    goes (exec (.sprForward (fabReq false 0)) withPeer) (fun t => t.fab.out.isEmpty) ∧
    (let from_ (foreign : Bool) : State :=
       { withPeer with fab := { withPeer.fab with peers := [(3, { peerOf 3 with xt := false, foreign := foreign }), (5, peerOf 3)] } }
     let sends (t : State) : Nat := t.fab.out.length
     goes (exec (.sprForward (fabReq false 5)) (from_ false)) (fun t => sends t == 1) ∧
     goes (exec (.sprForward (fabReq false 5)) (from_ true)) (fun t => sends t == 0) ∧
     goes (exec (.sprForward { fabReq false 5 with hdr := 0 }) (from_ false)) (fun t => sends t == 0) ∧
     goes (exec (.accessPerform (.fabric { fabReq false 0 with hdr := 3 })) (from_ false))
       (fun t => t.fab.out.map (fun o => match o with | .reply _ st h _ => (st.toNat, bits h 12 4) | _ => (0, 0)) == [(2, 2)])) ∧
    goes (exec (.accessPerform (.fabric { fabReq false 0 with tagOk := false })) withKeyed)
      (fun t => t.fab.tagFails == 1 && t.mgmt.plog.length == 1 && t.fab.out.isEmpty) := by decide +kernel

def leaf (ctx : BitVec 12) : Leaf := { ctx := ctx, page := 0, bits := 16, addr := 0, nc := false, e := true, w := true, r := true }

/-- A write of a register by its address. -/
def wr (a : Nat) (v : Word) (s : State) (p : State → Bool) : Bool := goes (execRegisterWrite (BitVec.ofNat 40 a) v s) p

theorem test_meets_RegistersAndPower_registers :
    let s := { withPeer with tlb := [(0, [leaf 1, leaf 2])] }
    goes (exec (.xlatInv (2 ^ 63 + 1 * 2 ^ 61 + 1 * 2 ^ 48)) s) (fun t => t.tlb == [(0, [leaf 2])]) ∧
    goes (exec (.xlatInv (2 ^ 63 + 2 * 2 ^ 61)) s) (fun t => (look [] t.tlb 0).isEmpty) ∧
    goes (exec (.xlatInv (2 ^ 63 + 1 * 2 ^ 48)) s) (fun t => t.tlb == [(0, [leaf 2])]) ∧
    goes (exec (.xlatInv 0x10000) s) (fun t => t.tlb == [(0, [leaf 1, leaf 2])] && t.dev.xlatInv == 0x10000) ∧
    wr 0xF000000008 9 State.reset (fun t => t.fab.devid == 9) ∧ wr 0xF002000000 5 State.reset (fun t => t.dev.cvTimeout == 5) ∧
    wr (0xF000010000 + 8 * 1023) (7 * 2 ^ 40 + 8) State.reset (fun t => (t.peer 1023).keyslot == 7 && (t.peer 1023).enc) ∧
    wr (0xF000010000 + 8 * 5) (7 * 2 ^ 40 + 8) withPeer (fun t => (t.peer 5).keyslot == 0) ∧
    wr (0xF001000000 + 2 * (2 ^ 19 - 1)) 0x8005 State.reset (fun t => (t.token (2 ^ 19 - 1)).checked && (t.token (2 ^ 19 - 1)).holder == 5) ∧
    wr (0xF003000000 + 8 * 383) 0xFFFFFFFFFFFFFFFF State.reset (fun t => look 0 t.dev.fabImport 383 == 0x8000000000000FFF) ∧
    wr (0xF003800000 + 8 * 4095) 0xFFFFFFFFFFFFFFFF State.reset (fun t => look 0 t.dev.xlatRoot 4095 == 0x800000FFFFE00000) ∧
    wr (0xF004000000 + 32 * 4095) (1 * 2 ^ 60 + 3 * 2 ^ 24) State.reset (fun t => (t.core 4095).slot.st == .loading && (t.core 4095).slot.lid == 3) ∧
    wr (0xF004000000 + 32 * 4095 + 8) 0x40 State.reset (fun t => (t.core 4095).slot.rec1 == 0x40) ∧
    wr (0xF004000000) (6 * 2 ^ 60) State.reset (fun t => t.cc.slot.err) ∧
    wr (0xF006000000 + 32 * 1023) (7 * 2 ^ 32) State.reset (fun t => (t.res 1023).ctx == 7) ∧
    wr (0xF00A000000 + 8 * 255) 5 State.reset (fun t => look 6000 t.mgmt.budget 255 == 5) ∧
    wr (0xF00A001000 + 8 * 255) (4 * 2 ^ 20) State.reset (fun t => look 15 t.mgmt.cap 255 == 4) ∧
    wr (0xF00A010000 + 8 * 4095) 0 State.reset (fun t => (t.core 4095).ctl.fduty == 1) ∧
    wr 0x10 5 State.reset (fun t => t.host.featDrv[0] == 5) ∧ wr 0x1018 0 (host (ring [])) (fun t => (t.qi 0).st == .disabled) ∧
    wr (0x1000 + 64 * 63 + 0x10) (9 * 2 ^ 32 + 6) State.reset (fun t => (t.qi 63).pasid == 9 && (t.qi 63).sqLog2 == 6) := by decide +kernel

/-- What a budget period may distribute, above and below 0, with PKG_LIMIT at reset. -/
theorem test_meets_RegistersAndPower_power :
    (∀ other : Nat, other = 0 ∨ other = 3000000 → ((max 512 (min 2800 State.reset.mgmt.pkgLimit.toNat) : Nat) : Int) * 1000 - other - 256000 =
      2544000 - other) ∧
    goes (exec (.controllerInterval 0 4000) State.reset)
      (fun t => look 0 t.mgmt.integ 0 == 2000 && look 0 t.mgmt.est 0 == 4000) ∧
    goes (exec .currentLimit State.reset) (fun t => look 15 t.mgmt.cap 255 == 13) ∧
    goes (exec .currentLimit { State.reset with mgmt := { State.reset.mgmt with cap := [(0, 1)] } }) (fun t => look 15 t.mgmt.cap 0 == 0) := by
  refine ⟨?_, by decide +kernel, by decide +kernel, by decide +kernel⟩
  rintro other (rfl | rfl) <;> decide

/-- An image of a version, otherwise as the one of slot A at reset. -/
def image3 (v : BitVec 32) : FwImage := { FwImage.reset with svn := v }

/-- A device without power and without an image. -/
def noImage : State := { State.reset with mgmt := { State.reset.mgmt with powered := false, slotA := none } }

/-- Valid if both signatures verify; never with a version above 64. -/
theorem test_firmware_valid :
    (let i := image3 3
     Config.edVerify i.edKey i.edSig (imageHead i) = true → Config.mlVerify i.mlKey i.mlSig (imageHead i) = true →
      State.reset.mgmt.valid i = true) ∧
    ∀ i : FwImage, i.svn = 65 → State.reset.mgmt.valid i = false := by
  refine ⟨?_, fun i h => by simp [Mgmt.valid, h]⟩
  intro i h1 h2
  have a : i.edKey.length = 32 := List.length_replicate
  have b : i.edSig.length = 64 := List.length_replicate
  have c : i.mlKey.length = 1952 := List.length_replicate
  have d : i.mlSig.length = 3309 := List.length_replicate
  have signed : imageSigned i = true := by simp only [imageSigned, a, b, c, d, h1, h2, beq_self_eq_true, Bool.and_true]
  have keys : Config.sha384 i.edKey = State.reset.mgmt.fusedKeys.1 ∧ Config.sha384 i.mlKey = State.reset.mgmt.fusedKeys.2 := ⟨rfl, rfl⟩
  have body : Config.sha384 i.body = i.digest := rfl
  simp only [Mgmt.valid, keys, body, signed, beq_self_eq_true, Bool.and_true]
  rfl

/-- An image of 8 KiB and two bytes, field by field (spec/06 R84). -/
def image65 : List Byte :=
  [0x57, 0x46, 0x4C, 0x46, 65, 0, 0, 0, 2, 0, 0, 0, 0, 0, 0, 0] ++ List.replicate 48 0 ++ List.replicate 64 2 ++ List.replicate 3309 3 ++
    List.replicate 19 0 ++ List.replicate 32 4 ++ List.replicate 1952 5 ++ List.replicate 2752 0 ++ [6, 7]

theorem test_firmware_fields :
    let i := fwImage image65
    i.magic = 0x464C4657 ∧ i.svn = 65 ∧ i.len = 2 ∧ i.digest = 0 ∧ i.edSig = List.replicate 64 2 ∧ i.mlSig = List.replicate 3309 3 ∧
      i.edKey = List.replicate 32 4 ∧ i.mlKey = List.replicate 1952 5 ∧ i.body = [6, 7] := by decide +kernel

theorem test_firmware_write :
    goes (exec (.firmwareImageWrite true image65) State.reset) (fun t => t.mgmt.plog.length == 1) = true ∧
    exec (.firmwareImageWrite false image65) State.reset = .next State.reset := by
  have e : exec (.firmwareImageWrite true image65) State.reset =
      .next (let s := { State.reset with mgmt := { State.reset.mgmt with slotB := some (fwImage image65) } }
        if State.reset.mgmt.valid (fwImage image65) = true then s else s.logEvent 0x0B 1) := rfl
  refine ⟨?_, rfl⟩
  rw [e, test_firmware_valid.2 _ test_firmware_fields.2.1]
  rfl

theorem test_meets_FailuresFirmwareManagement :
    let codes := fun (t : State) => t.mgmt.plog.map fun e => match e with | .event c _ _ => c.toNat | _ => 0
    let logged := { State.reset with dev := { State.reset.dev with vlogs := [(0, { entries := [(0, { status := 3, dev := 0, addr := 8, core := 0, src := 1, time := 0 })], count := 1, copied := 0, overflow := 0 })] } }
    State.reset.mgmt.plog.length + 10 ≤ 262144 ∧
    goes (exec (.railFault 0) withPeer) (fun t => t.mgmt.fatal == some (1, 0) && !t.fab.domainEn && codes t == [1]) ∧
    goes (exec (.clockLoss 0) withPeer) (fun t => t.devStatus == 0x201) ∧
    goes (exec (.thermalTrip 0) { State.reset with dev := { State.reset.dev with acct := [(2, Vector.replicate 16 1)] } })
      (fun t => !t.mgmt.powered && codes t == [3, 9, 0, 0, 0, 0, 0, 0, 0, 0]) ∧
    goes (exec (.linkLoss 1 2) { State.reset with mgmt := { State.reset.mgmt with fatal := some (1, 0) } })
      (fun t => t.mgmt.fatal == some (1, 0) && codes t == [4]) ∧
    goes (exec (.linkRetry 1 2) State.reset) (fun t => look 0 t.dev.linkCount 18 == 1) ∧
    goes (exec (.moduleFailure 0 1 7) State.reset) (fun t => t.mgmt.fatal == none && codes t == [5]) ∧
    goes (exec (.moduleFailure 0 1 7) { State.reset with dev := { State.reset.dev with modules := [(1, [0, 1, 2, 3, 4, 5, 6])] } })
      (fun t => t.mgmt.fatal == some (4, 1) && codes t == [5, 4]) ∧
    goes (exec (.patrolScrub 0 0x1000000020 false) State.reset) (fun t => t.bad == [0x1000000000]) ∧
    goes (exec (.patrolScrub 0 0x20 false) State.reset) (fun t => t.bad.isEmpty) ∧
    goes (exec (.violationLogCopy 0) logged) (fun t => t.mgmt.plog.length == 1 && (t.vlog 0).copied == 1) ∧
    goes (exec (.violationLogCopy 0) State.reset) (fun t => t.mgmt.plog.isEmpty) ∧
    goes (exec .perstN { noImage with mem := [(2 ^ 36, 1)] }) (fun t => t.mem.isEmpty && t.mgmt.powered && !t.host.ready) ∧
    goes (exec .firmwareCommit { State.reset with mgmt := { State.reset.mgmt with slotA := some (image3 3) } }) (fun t => t.mgmt.fuseSvn == 3) ∧
    goes (exec (.spdmRequest (.fabricKey 255 true true)) State.reset) (fun t => (look KeySlot.reset t.fab.keys 255).kphase) ∧
    goes (exec (.spdmRequest (.fabricKey 255 true false)) State.reset) (fun t => t.fab.keys.isEmpty) ∧
    goes (exec (.pldmMonitoringAndControl (.setPkgLimit 700)) State.reset) (fun t => t.mgmt.pkgLimit == 700) := by decide +kernel

/-! Clauses beside the main case -/

/-- A C slot that holds, a block that waits for its end, with the cycle counted since tick 9. -/
theorem test_meets_HeldBundle_more :
    let s : State := { small 0 0 with now := 9 }
    goes (runBundle s { c := .waitm, a := .addi 3 1 1, marker := true } 0 0)
      (fun t => t.bundle == .held && t.cc.main.x[3] == 0 && t.cc.evt.holdSince == some 9 && t.free == s.free + 1) ∧
    goes (exec .cSlotNop (withCore (queued 1))) (fun s1 => goes (exec (.vloop 1 1) { s1 with cores := [(0, { queued 1 with seq :=
      { (queued 1).seq with loop := some { stamp := 0, want := 1, count := 1, body := [], pos := 0, left := 1 } } })] })
        fun s2 => s2.bundle == .held) := by decide +kernel

/-- Results that a handler may not have. -/
theorem test_meets_HandlerMayNot_more :
    (∃ w fl, floatToX (.fclass 16 1) inHandler = some (16, w, fl)) ∧ (∃ r fl, floatResult (.liF 0 7) inHandler = some (0, r, fl)) ∧
    (∃ r fl, sfuResult (.exp 0 1) inHandler = some (0, r, fl)) ∧ (kindOf (.vadd 8 1 2 0 .i8) = .aWord ∧ vDest (.vadd 8 1 2 0 .i8) = some 8) ∧
    mDest (.mand 1 2 3) = some 1 ∧
    goes (exec (.vred (.int 16 .sum .i8) 1 0) inHandler) (fun t => t.bundle == .trapped) ∧
    goes (exec (.vred (.fp 1 .fsum .f32) 1 0) inHandler) (fun t => t.bundle == .trapped && t.cc.hnd.faults.length == 1) ∧
    goes (exec (.vsetl 3 4) inHandler) (fun t => t.bundle == .trapped) ∧
    goes (exec (.fadd 1 2 3 .rne) inHandler) (fun t => t.bundle == .trapped && t.cc.hnd.row == none) :=
  ⟨⟨_, _, rfl⟩, ⟨_, _, rfl⟩, ⟨_, _, rfl⟩, by decide, by decide, by decide, by decide, by decide, by decide⟩

/-- A word in error, of a scalar load and of one lane of a vector access. -/
theorem test_meets_LocalLoads_more :
    let s : State := { lmem [] with bad := [0xE0000] }
    let v : State := { vecSt 1 2 3 1 with bad := [0xE0038] }
    s.badAt 0xE0000 1 = true ∧ { lmem [] with weak := [0xE0000] }.badAt 0xE0000 1 = false ∧
    goes (exec (.llb 31 1 .l .plain 1) s)
      (fun t => t.net.map (·.phase) == [.answered 4] && t.cc.main.flights.map (fun f => (f.vals, f.more)) == [([], true)]) ∧
    goes (exec (.llb 31 1 .l .plain 1) { lmem [] with weak := [0xE0000] }) (fun t => t.weak.isEmpty && t.net.isEmpty) ∧
    ((v.cc.mask 0).getLsbD 56 = true ∧ 56 < v.cc.vl ∧ v.badAt (0xE0000 + 56) 1 = true ∧ v.badAt (0xE0000 + 55) 1 = false) ∧
    goes (exec (.vst 1 3 .l 0 0) v) (fun t => t.mem.isEmpty && t.cc.evt.respTraps == [{ cause := 5, val := 0xE0038 }]) ∧
    goes (exec (.vld 1 3 .l 0 0) v) (fun t => t.cc.main == v.cc.main && t.cc.evt.respTraps.length == 1) := by decide +kernel

/-- The read of the peers' register space waits in `sent`; a store's acknowledgement waits for the replicas of its entry. -/
theorem test_meets_Responses_more :
    let r := entryStore 0 0
    let s : State := { resident { r with phase := .answered 0 } (entry 2) with
      dev := { (resident r (entry 2)).dev with replicas := [(1, entry 2)] } }
    ({ r with phase := .answered 0 } : Req).entry = some 0 ∧ s.replicated 0 = false ∧ (resident r (entry 2)).replicated 0 = true ∧
    goes (exec (.storeAcknowledgement 2) s) (fun t => t.net.length == 1) ∧
    goes (exec (.storeAcknowledgement 2) (resident { r with phase := .answered 0 } (entry 2))) (fun t => t.net.isEmpty) := by decide +kernel

/-- A transfer whose destination is IDLE when it lands, and one whose receiver has declared nothing. -/
theorem test_meets_Exchange_more :
    let s := { pair (parkedAt .none false) (parkedAt .none false) with mem := [(0xE0000, 9)], xfers := [{ sending with entered := true }], now := 128 }
    let gone := { s with cores := [(0, member (parkedAt .none false)), (1, { member Exchange.reset with slot := Slot.reset })] }
    s.badAt (winAddr 0 .l 0) 64 = false ∧
    goes (exec (.xsendLanding 4) gone) (fun t => memGet t.mem 0x180000 == 0 && t.cc.evt.respTraps == [{ cause := 5, val := 0x180000 }]) ∧
    goes (exec (.xsendLanding 4) s) (fun t => (t.core 1).exch.held == 64 && t.cc.evt.respTraps.isEmpty) := by decide +kernel

/-- An entry of a handler bundle that arrives at a core of another launch. -/
theorem test_meets_NeighbourQueues_more :
    let other : Core := { vecs 5 6 7 1 with slot := { Slot.reset with st := .running, lid := 9 },
                                            seq := { SeqState.reset with nqIn := SeqState.reset.nqIn.set 3 [(some 0x40, 4)] } }
    goes (exec (.neighbourQueueArrival 1 .w) { vecSt 5 6 7 1 with cores := [(0, vecs 5 6 7 1), (1, other)] })
      (fun t => (t.core 1).seq.nq[3].isEmpty && t.cc.hnd.faults == [(5, 0x40)] && t.cc.evt.respTraps.isEmpty) := by decide +kernel

/-- PART of a register-kind address at U; an empty list whose item lies in the spill area; a refused item of a handler bundle. -/
theorem test_meets_GroupsAndWorkSets_more :
    let u := withRecord false rec8
    let s : State := { vecSt 1 2 3 1 with spilled := [(0, [work 1 8, work 0 9, work 0 10])], lists := [(1, List.replicate 65536 (work 1 0))] }
    goes (exec (.part 5 1 0 .rank) (u.mod fun c => { c with
        main := { c.main with x := c.main.x.set 1 0x8000000000000000 }, ctl := { c.ctl with coreStatus := 0 } }))
      (fun t => t.bundle == .trapped && t.cc.ctl.trapCause == 0 && t.cc.slot.fatal.map (·.1) == some 3) ∧
    look [] s.lists 0 = [] ∧
    goes (exec (.wlpop 5 3) s) (fun t => elem t.cc.main.v[(3 : VReg)] 16 0 == 9 && t.cc.main.flights.map (·.vals) == [[1]] &&
      t.spilled == [(0, [work 1 8, work 0 10])]) ∧
    goes (exec (.workItemArrival 5) { pair Exchange.reset Exchange.reset with pushed := [{ item 5 2 with hpc := some 0x40 }] })
      (fun t => t.cc.hnd.faults == [(5, 0x40)] && t.pushed.isEmpty) := by
  refine ⟨by decide +kernel, by decide +kernel, ?_, by decide +kernel⟩
  decide +kernel

/-- A send that no route takes, one that leaves; a peer's message in error; a receive of a saved launch. -/
theorem test_meets_Messages_more :
    let far := dword sendDesc 2 + 5
    let desc : Vec := BitVec.ofNat 512 (2 ^ 62 + 0xE0000 + (0x55 + 8 * 2 ^ 32) * 2 ^ 64 + far.toNat * 2 ^ 128)
    let m := messaging.mod fun c => { c with main := { c.main with v := c.main.v.set 2 desc } }
    let up := { m with fab := { State.reset.fab with domainEn := true, peers := [(5, { PeerEntry.reset with planes := 1, xt := true, valid := true })] } }
    let kept := { messaging with cores := [(1, runner false 0 0)], pre := { messaging.pre with posted := [posted], sent := [sentMsg 0 0x55] } }
    bits (dword desc 2) 0 10 = 5 ∧
    goes (exec (.send 5 2) m) (fun t => t.fab.out.isEmpty && t.cc.evt.inbox.map (fun m => (m.kind, m.status, m.payload)) == [(0x31, 2, 1)]) ∧
    goes (exec (.send 5 2) up) (fun t => t.fab.out.length == 1 && t.cc.evt.inbox.isEmpty) ∧
    goes (exec (.messageArrival (.peer { dev := 5, core := 1, dst := 1, tag := 9, payload := [], crcOk := false })) up)
      (fun t => t.pre.unexpected.isEmpty && t.fab.out.map (fun o => match o with
        | .reply _ st _ _ => st
        | _ => 0) == [8]) ∧
    goes (exec (.messageArrival (.own 3)) kept) (fun t => t.pre.sent.isEmpty && t.pre.unexpected.isEmpty && t.pre.posted.length == 1) := by
  decide +kernel

/-- A chunk whose table is no address; a step without a table; a queue of the Market behind a step. -/
theorem test_meets_Market_more :
    let lost : Partition := { part2 with bids := 0xC000000000000000 }
    let busy := market (stepping 2) 0 7
    (bits lost.bids 62 2 = 3 ∧ State.reset.mktWaits = []) ∧
    goes (exec (.gatepostChunkWrite 4) { market lost 0 0 with posts := [chunkAt 4 0] })
      (fun t => t.posts.isEmpty && t.mem.isEmpty && t.cc.evt.inbox.map (fun m => (m.kind, m.status)) == [(0x21, 4), (0x22, 0)]) ∧
    goes (exec (.marketStepComplete 0) (market { stepping 2 with bids := 0xC000000000000000 } 0 0))
      (fun t => (t.part 0).run.isNone && (t.part 0).stat == 0x0400000000000000 &&
        t.cc.evt.inbox.map (fun m => (m.kind, m.status)) == [(0x70, 3)]) ∧
    goes (exec (.mktwr 1 2) busy) (fun t => t.mktWaits.map (·.op) == [.write 0 7]) ∧
    goes (exec (.gatepostChunkWrite 4) { market { part2 with bids := window 0xE1000 } 0 0 with
        posts := [{ chunkAt 4 0 with taken := some (window 0xE0000, 1) }] })
      (fun t => memGet t.mem 0xE0000 == 5 && memGet t.mem 0xE1000 == 0) ∧
    goes (exec (.sortComplete 0) (market { part2 with sort := [
        { core := 0, recs := [(0, 1, false), (1, 0, true)], nexp := 2, ebase := 0, out := window 0xE0000, step := 3, fail := none }] } 0 0))
      (fun t => readLE t.mem 0xE0020 4 == 1 && readLE t.mem 0xE002C 4 == 0 && t.cc.evt.inbox.map (·.payload) == [2]) := by decide +kernel

/-- Windows of the Market's bid table and records. -/
theorem test_meets_Market_windows :
    (market (stepping 2) 0 0).BrokerWindow 0 (window 0xE0000) 128 ∧ (market (stepping 2) 0 0).BrokerWindow 0 (window 0xE1000) 32 :=
  ⟨⟨by decide +kernel, by decide +kernel, by decide +kernel, by decide +kernel, by decide +kernel, rfl, rfl, rfl, rfl, fun _ h => nomatch h⟩,
   ⟨by decide +kernel, by decide +kernel, by decide +kernel, by decide +kernel, by decide +kernel, rfl, rfl, rfl, rfl, fun _ h => nomatch h⟩⟩

/-- A replica that still holds the older entry. -/
theorem test_meets_Residency_more :
    let s : State := { resident (query 0) (entry 2) with dev := { (resident (query 0) (entry 2)).dev with replicas := [(0, { entry 2 with pin := 3 })] } }
    (s.replica (dieOf 0) 0).pin = 3 ∧ (s.res 0).pin = 255 ∧
    goes (exec (.accessPerform (.own 2 ownReply)) s) (fun t => t.cc.main.flights.map (·.vals) == [[0x0000800003000040]]) ∧
    goes (exec (.storeAcknowledgement 2) { s with net := [{ query 1 with phase := .answered 0, ga := 5 }] }) (fun t => t.net.length == 1) := by
  decide +kernel

/-- A token of another device's region: asked for, or refused at the source. -/
theorem test_meets_Tokens_more :
    let far : Word := BitVec.ofNat 64 (5 * 2 ^ 40)
    let s : State := paged (small 0 0) []
    let up : State := { s with
      fab := { State.reset.fab with domainEn := true, peers := [(5, { PeerEntry.reset with planes := 1, valid := true })] }
      dev := { s.dev with fabImport := [(0, 0x8000000000000005)] } }
    far ≠ 0 ∧ up.route 5 .ord true = .ok 0 ∧ (up.peer 5).enc = false ∧ (s.route 5 .ord true matches .error 1) = true := by decide +kernel

/-- Commands of a core that is stopped by force do not start. -/
theorem test_meets_MatrixQueue_more :
    let c := { matCore 0 [held swapCmd false 0] with slot := { Slot.reset with st := .stopping, stop := .forced } }
    let d := { matCore 0 [held (.mdrain drainGood) true 0] with slot := { Slot.reset with st := .frozen } }
    goes (exec (.mswap 0 { tag := 0, gate := false }) (withCore c)) (fun t => t.cc.mat.mq.map (·.started) == [false]) ∧
    goes (exec (.drainRowDispatch 0) { withCore d with sched := { State.reset.sched with launches := [launchOf .running] } })
      (fun t => t.cc.hnd.row == none) := by decide +kernel

/-- The completion of a send whose core is saved. -/
theorem test_meets_SlotsAndCoreEvents_saved :
    let c : Core := { Core.reset with eng := { CoreEng.reset with
      sends := [{ handle := 1, id := 2, dst := 1, dev := 0, tag := 9, len := 8, due := 0, answer := some (0, 0) }] } }
    let s : State := { State.reset with saves := [(5 * 4096, { crec := 0x1080000000, map := SaveMap.all, core := c, held := [] })] }
    s.savedSend 0 1 matches some (20480, _, _) ∧
    goes (exec (.sendAnswer 0 1 ownReply) s) (fun t => readLE t.mem 0x1080000014 4 == 1 && readLE t.mem 0x1080004000 8 == 0x100010031 &&
      t.saves.all fun p => p.2.core.eng.sends.isEmpty) := by decide +kernel

/-- A launch of higher priority asks the core of the one in its way to stop. -/
theorem test_meets_Launches_preempts :
    let high := { launchOf .ready with lid := 1, prio := 3, hdr := header 64 64, groups := [List.range 4096] }
    let low := { launchOf .running with prio := 1 }
    let s := launched high
    let t := { s with sched := { s.sched with launches := [low, high] }, cores := [(0, { runner false 0 0 with
      slot := { Slot.reset with st := .running, lid := 0 } })], now := 77 }
    goes (exec (.launchPlacement 1) t) (fun u => u.cc.slot.st == .stopping && u.cc.slot.preq == some 77 &&
      u.sched.launches.map (·.st) == [.running, .ready]) ∧
    goes (exec (.launchPlacement 1) { t with sched := { s.sched with launches := [{ low with prio := 3 }, high] } })
      (fun u => u.cc.slot.st == .running) := by decide +kernel

/-- A second identity of the PASID is revoked; packets that finished in another order; a masked vector. -/
theorem test_meets_HostPackets_more :
    let s := fetching none 0 0
    let barred := { s with host := { s.host with qis := [(0, { ring [] with sqTail := 1 }), (1, { Qi.reset with st := .revoked })] } }
    let late := { packet 0 [0] with result := some (0, 0), fin := 9 }
    let early := { packet 1 [0] with result := some (0, 0), fin := 8 }
    goes (exec (.packetFetch 0 (packetBytes 0)) barred) (fun t => (t.qi 0).packets.isEmpty) ∧
    goes (exec (.packetCompletion 0 0) (host (ring [late, early]))) (fun t => t.host.out.isEmpty) ∧
    goes (exec (.packetCompletion 0 1) (host (ring [late, early]))) (fun t => t.host.out.length == 1) ∧
    goes (exec (.packetCompletion 0 1) (host { ring [early] with ien := true })) (fun t => t.host.out.length == 1 && t.host.pba == [0]) ∧
    goes (exec (.packetCompletion 0 1) (let h := host { ring [early] with ien := true }
      { h with host := { h.host with msix := [(0, { MsixVector.reset with masked := false })] } })) (fun t => t.host.out.length == 2) := by
  decide +kernel

/-- A malformed and a damaged request; a SEND that no answer came for. -/
theorem test_meets_FabricBringup_more :
    let st := fun (t : State) => t.fab.out.map fun o => match o with
      | .reply _ st _ _ => st
      | _ => 0
    let good : FabReq := { fabReq false 0 with hdr := withCrc 0 (2 ^ 28) [] }
    goes (exec (.accessPerform (.fabric { fabReq false 0 with hdr := 2 ^ 28 + 3 })) withPeer) (fun t => st t == [2]) ∧
    goes (exec (.accessPerform (.fabric { good with hdr := good.hdr + 2 ^ 40 })) withPeer) (fun t => st t == [8] && (t.vlog 0).count == 1) ∧
    goes (exec (.sprForward (fabReq false 5)) { withPeer with fab := { withPeer.fab with domainEn := false } }) (fun t => st t == [3]) ∧
    goes (exec (.fabRspTimeout 2) (withCore { runner false 0 0 with eng := { CoreEng.reset with
        sends := [{ handle := 1, id := 2, dst := 1, dev := 5, tag := 9, len := 8, due := 0, answer := none }] } }))
      (fun t => t.fab.overdue == [2] && (t.vlog 0).count == 1 && t.cc.eng.sends.map (·.answer) == [some (2, 9)]) := by decide +kernel

def readsAs (s : State) (a : Nat) (v : Word) : Bool :=
  goes (step { s with agenda := [.read (BitVec.ofNat 40 a)] }) fun t => t.host.out == s.host.out ++ [.value a v]

/-- Reads of registers, the notify pages and the MSI-X table. -/
theorem test_meets_RegistersAndPower_reads :
    let s := host { ring [] with sqTail := 5 }
    readsAs s 0x1018 5 ∧ readsAs s 0x40000 5 ∧ readsAs State.reset 8 0x7F ∧ readsAs (inState .halted) 0xF004800000 0x600 ∧
    readsAs State.reset 0xF003808000 0 ∧
    wr 0x40001 7 s (fun t => (t.qi 0).errors == 1 && (t.qi 0).sqTail == 5) ∧ wr 0x80000 7 s (fun t => (t.qi 0).errors == 1) ∧
    wr 0x40000 7 s (fun t => (t.qi 0).sqTail == 7) ∧
    wr 0x10008 5 { s with host := { s.host with pba := [0] } } (fun t => t.host.out == [.msix 0] && t.host.pba.isEmpty) ∧
    wr 0x10008 (2 ^ 32 + 5) { s with host := { s.host with pba := [0] } } (fun t => t.host.out.isEmpty && t.host.pba == [0]) := by decide +kernel

/-- A word and a burst in error; an access that waits at one; links that have not trained. -/
theorem test_meets_Failures_more :
    let waiting := { reqAt 2 0x1000000008 (.acc (.load 8)) .wf (.waiting 9) with sys := 0x1000000008 }
    let lacks := fun (n : Nat) => ((List.finRange 16).take n).map fun m => ((0 : DieIx), (15 : Fin 16), m)
    goes (step { State.reset with agenda := [.upset 9 true] }) (fun t => t.weak == [8] && t.bad.isEmpty) ∧
    goes (step { State.reset with agenda := [.upset 9 false] }) (fun t => t.bad == [8]) ∧
    linkAt 0 15 = some 15 ∧ linkAt 0 14 = none ∧
    goes (exec (.patrolScrub 0 0x1000000000 false) { oneReq waiting [0x1000000008 / 8] with mem := [] })
      (fun t => t.net.map (·.phase) == [.answered 4]) ∧
    linksTrained (untrainedLinks (lacks 8)) = true ∧ linksTrained (untrainedLinks (lacks 9)) = false ∧
    !(noImage.restart true (lacks 8) []).host.ready ∧ (noImage.restart true (lacks 9) []).dev.modules.length = 1 := by decide +kernel

/-! Clauses added beside those above -/

/-- Results that the handler's registers do not hold, of jumps, reads, loads, atomics, token moves and messages. -/
theorem test_meets_HandlerMayNot_results :
    let h := inHandler
    let g := { withRecord false rec8 with curH := true, cores := [(0, { member Exchange.reset with
      hnd := { HandlerCtx.reset with x := HandlerCtx.reset.x.set 1 0x40, row := some { stamp := 0, dest := 0, cls := .ord, last := false } } })] }
    let stops (s : State) (i : Instr) : Bool := goes (exec i s) fun t => t.bundle == .trapped && t.cc.hnd.faults.length == 1 && t.mem == s.mem
    (((h.rx 1).toNat + 8 * (0 : BitVec 14).toInt) % 8 = 0 ∧ ((h.rx 1).toNat + 64 * (0 : BitVec 9).toInt) % 64 = 0 ∧
      (h.rx 1).toNat % Esz.bytes .e1 = 0 ∧ meshNext h.cur .e ≠ none) ∧
    (stops h (.jal 16 0) ∧ stops h (.jalr 31 1 0) ∧ stops h (.getc 16 .time) ∧ stops g (.part 16 1 0 .rank) ∧ stops h (.llb 16 1 .l .plain 0) ∧
      stops h (.ld 16 1 .ord .plain .d) ∧ stops h (.aadd 16 1 2 .ord false) ∧ stops h (.tokacq 16 1) ∧ stops h (.recv 16)) ∧
    (stops h (.vld 8 1 .l 0 0) ∧ stops h (.vlds 8 1 1 .l 0 .e1) ∧ stops h (.vldx 31 1 2 .l 0 .e1) ∧ stops h (.nqrecv 8 .e)) := by decide +kernel

/-- A NaN, and the boundaries of the exact cases of R181. -/
theorem test_meets_SfuScalarResults_cases :
    (fpDecode fp32 0x7FC00000 = .nan ∧ 0x7F800000 < (0xFF800001 : Nat) % 2 ^ 31) ∧
    (sfuExp 0x42B17218 = (0x7F800000, .of) ∧ sfuLog 0x80000001 = (0x7FC00000, .nv) ∧ sfuRcp 0x00200000 = (0x7F800000, .of) ∧
      sfuRcp 0x80000001 = (0xFF800000, .of) ∧ sfuRsqrt 0xFF800000 = (0x7FC00000, .nv)) ∧
    (fpDecode fp32 0x3F800000 = .fin false 0x800000 (-23) false ∧ rcpCode false 0x800000 (-23) % 2 ^ 31 ≠ 0x7F800000) := by decide +kernel

/-- Every field that is written, and what is computed from it. -/
theorem test_meets_ControlRegisterWrites_more :
    let put (r : CReg) (v : Word) (p : State → Bool) : Bool := goes (exec (.setc 1 r) (small v 0)) p
    put .cpIdx (-1) (fun t => t.cc.eng.cp.idx == -1) ∧ put .cpFlags (-1) (fun t => t.readCtl t.cc .cpFlags == 0xE000000000FFFFFF) ∧
    put .arrayShape (-1) (fun t => t.readCtl t.cc .arrayShape == 0xF) ∧ put (.cpStride 2) (-1) (fun t => t.readCtl t.cc (.cpStride 2) == -1) ∧
    put (.cpCount 0) (-1) (fun t => t.readCtl t.cc (.cpCount 0) == 0xFFFFFFFF) ∧
    put (.strmCfg 3) (-1) (fun t => t.readCtl t.cc (.strmCfg 3) == 0xF0003FFF00000000 && t.cc.seq.ports[3].i0 == 0) ∧
    put (.strmStr 0) (-1) (fun t => t.readCtl t.cc (.strmStr 0) == 0xFFFFFFFFFFFF) ∧
    put .xphStat (2 ^ 32) (fun t => !t.cc.exch.xcol) ∧ put (.relayTerm 7) 5 (fun t => t.cc.eng.relayTerm[7] == 5) := by decide +kernel

/-- A loop at its last entry, and inside its body. -/
theorem test_meets_VectorLoop_step :
    let e : SeqEntry := { ins := .vadd 4 1 2 1 .i8, a := 0, b := 0, flight := none, handler := false, pc := 0, stamp := 3 }
    let l (pos left : Nat) : Loop := { stamp := 2, want := 0, count := 2, body := [e, e], pos := pos, left := left }
    let s (pos left : Nat) : State := withCore { vecs 5 6 7 1 with seq := { SeqState.reset with loop := some (l pos left) } }
    let ends (r : Except State State) (p : State → Bool) : Bool := match r with
      | .ok u => p u
      | .error _ => false
    (vIntSpec e.ins).isSome ∧ (l 1 1).body[1]? = some e ∧
    ends ((s 0 1).seqStep 0) (fun u => u.cc.seq.loop == some (l 1 1) && elem u.cc.main.v[(4 : VReg)] 1 0 == 11) ∧
    ends ((s 1 2).seqStep 0) (fun u => u.cc.seq.loop == some (l 0 1)) ∧ ends ((s 1 1).seqStep 0) (fun u => u.cc.seq.loop == none) := by decide +kernel

/-- An entry of each kind of operand, the queue with one place and without, a block that takes one more. -/
theorem test_meets_SequencerQueue_more :
    let s (n : Nat) (l : Option Loop) : State := { withCore { queued n with seq := { (queued n).seq with loop := l } } with seqHold := true }
    let l : Loop := { stamp := 0, want := 2, count := 1, body := [], pos := 0, left := 1 }
    let len (t : State) : Nat := t.cc.seq.queue.length
    ((s 0 none).entrySpec (.mnot 1 2) = some (0, 0, none) ∧ (s 0 none).entrySpec (.mtox 5 1) = some (0, 0, some (.x 5)) ∧
      (s 0 none).entrySpec (.vld 1 3 .l 0 0) = some (0, 0, none) ∧ (s 0 none).entrySpec (.wlpush 1 2) = some (2, 0, none) ∧
      (s 0 none).entrySpec (.cvplay 1 2) = some (2, 0, none) ∧ ((s 0 none).entrySpec (.vred (.fp 1 .fsum .f32) 1 0)).isSome) ∧
    goes (exec (.mnot 1 2) (s 16 none)) (fun t => t.bundle == .held) ∧ goes (exec (.mnot 1 2) (s 15 none)) (fun t => len t == 16) ∧
    goes (exec (.mtox 5 1) (s 0 none)) (fun t => len t == 1 && t.cc.main.flights.length == 1) ∧
    goes (exec (.wlpush 1 2) (s 0 (some l))) (fun t => len t == 0 && (t.cc.seq.loop.map fun q => (q.want, q.body.length)) == some (1, 1)) := by
  decide +kernel

/-- What decides over a request, clause by clause. -/
theorem test_meets_AccessPerformed_verdict :
    let k := withCore (runner false 0 0)
    let acc (a : Nat) (op : AccKind) (fe : FeMode) : Req := reqAt 2 a (.acc op) fe .sent
    let peer (a : Nat) : Req := { acc a (.load 8) .plain with src := .peer 5 0 false, sys := BitVec.ofNat 50 a }
    let open_ (d : Bool) : State := { k with fab := { k.fab with domainEn := d }, dev := { k.dev with fabImport := [(0, 0x8000000000000000)] } }
    let moved (m : Bool) (h : Fin 1024) (r : Req) : Verdict :=
      { k with fab := { k.fab with tokens := [(0, tok h m [] none)] } }.verdict r (.load 8)
    k.verdict (acc 0x100000 (.load 8) .plain) (.load 8) = .refuse 3 ∧ k.verdict (acc 0 (.store 8 0) .plain) (.store 8 0) = .refuse 3 ∧
    k.verdict (acc 0x80000 (.atomic .add 2 0) .plain) (.atomic .add 2 0) = .refuse 3 ∧ k.verdict (acc 0xFFF8 (.load 8) .plain) (.load 8) = .perform ∧
    (open_ true).verdict (peer 0x1000000000) (.load 8) = .perform ∧ (open_ false).verdict (peer 0x1000000000) (.load 8) = .refuse 3 ∧
    (open_ true).verdict (peer 0x1040000000) (.load 8) = .refuse 3 ∧ (open_ true).verdict (peer 0xE0000) (.load 8) = .refuse 3 ∧
    moved false 6 (acc 8 (.load 8) .plain) = .refuse 5 ∧ moved true 6 (acc 8 (.load 8) .plain) = .wait ∧
    moved true 6 { acc 8 (.load 8) .plain with tokchk := true } = .refuse 5 ∧ moved true 0 (acc 8 (.load 8) .plain) = .perform ∧
    { k with bad := [8] }.verdict (acc 8 (.load 8) .plain) (.load 8) = .refuse 4 ∧
    { k with empties := [1] }.verdict (acc 8 (.load 8) .wf) (.load 8) = .wait ∧ k.verdict (acc 0xE0008 (.store 8 0) .we) (.store 8 0) = .wait ∧
    { k with empties := [0x1C001] }.verdict (acc 0xE0008 (.store 8 0) .we) (.store 8 0) = .perform := by decide +kernel


/-- WFI parks with a timer that is not enabled and a request for the future; SAFEPT with a row of the handler left. -/
theorem test_meets_MarkersAndWaits_parked :
    let stop (row : Bool) : State := { withCore { preempted with hnd := { HandlerCtx.reset with
        row := if row then some { stamp := 0, dest := 0, cls := .ord, last := false } else none } } with
      sched := { State.reset.sched with launches := [{ launchOf .running with hdr := [0, 0, 0, 0, 0, 2 ^ 48] }] } }
    (stop true).nsafe 0 = 1 ∧
    goes (exec .wfi (small 0 0)) (fun t => t.bundle == .held && t.cc.evt.parkedAt == some 0 && (t.boundary 0).isNone) ∧
    goes (exec .wfi (withCore { runner false 0 0 with evt := { EventState.reset with qto := some (1, 0) } })) (fun t => t.bundle == .ok) ∧
    goes (exec (.safept 0) (stop false)) (fun t => t.bundle == .ok && t.cc.slot.stop == .safe 0) ∧
    goes (exec (.safept 0) (stop true)) (fun t => t.bundle == .held && t.cc.slot.stop == .no) ∧
    goes (exec (.safept 1) (stop true)) (fun t => t.bundle == .ok) ∧
    goes (exec .halt (stop false)) (fun t => t.cc.slot.preq == some 7) := by decide +kernel

/-- A transfer that has entered behind one whose time has come. -/
theorem test_meets_ExchangeTransfers_waits :
    let ahead : XTransfer := { sending with id := 3, dst := 0x2E0000 }
    let s := { pair (parkedAt .none false) Exchange.reset with mem := [(0xE0000, 9)], now := 128, xfers := [ahead, { sending with entered := true }] }
    ahead.sharesLink sending ∧ goes (exec (.xsendLanding 4) s) (fun t => t.xfers.length == 2) ∧
    goes (exec (.xsendLanding 4) { s with now := 127 }) (fun t => t.xfers.length == 1 && memGet t.mem 0x180000 == 9) ∧
    goes (exec (.xsendLanding 4) { s with xfers := [{ sending with entered := true }], dev := { s.dev with torn := [.item 4] } })
      (fun t => memGet t.mem 0x180000 == 0 && t.dev.torn.isEmpty) := by decide +kernel

/-- A bound input and a bound output: an element there, room and none, the W buffer, a write that is performed; an entry whose flits fail. -/
theorem test_meets_NeighbourQueues_ports :
    let add (d : VReg) : SeqEntry := { ins := .vadd d 28 2 0 .i8, a := 0, b := 0, flight := none, handler := false, pc := 0, stamp := 3 }
    let port (cfg : Word) (arrived : List (Option Vec)) (n : Nat) : Port :=
      { Port.reset with cfg := cfg, arrived := arrived, outq := List.replicate n ({ id := 5, stamp := 3, addr := 0xE0000, data := 7 } : PortWrite) }
    let c (d : VReg) (p : Port) : Core := { vecs 5 6 7 1 with seq := { SeqState.reset with queue := [add d], ports := SeqState.reset.ports.set 0 p } }
    let l : Word := 2 ^ 63 + 3 * 2 ^ 60
    let ends (r : Except State State) (good : Bool) (p : State → Bool) : Bool := match r with
      | .ok u => good && p u
      | .error u => !good && p u
    let out := withCore { c 5 (port (l + 2 ^ 62) [] 1) with seq := { (c 5 (port (l + 2 ^ 62) [] 1)).seq with queue := [] } }
    (vIntSpec (add 5).ins).isSome ∧
    ends ((withCore (c 5 (port l [some 1, some 9] 0))).seqStep 0) true
      (fun u => u.cc.seq.ports[0].arrived == [some 9] && elem u.cc.main.v[(5 : VReg)] 1 0 == 7) ∧
    ends ((withCore (c 28 (port (l + 2 ^ 62) [] 0))).seqStep 0) true (fun u => u.cc.seq.ports[0].outq.map (·.addr) == [0xE0000]) ∧
    ends ((withCore (c 28 (port (l + 2 ^ 62) [] 8))).seqStep 0) false (fun u => u.cc.seq.queue.length == 1) ∧
    ends ((withCore (c 28 (port (2 ^ 63 + 2 ^ 62) [] 0))).seqStep 0) true
      (fun u => !u.cc.seq.ports[0].en && u.cc.evt.respTraps.length == 1 && u.mem.isEmpty) ∧
    (oldestWrite out.cc.portWrites = some { id := 5, stamp := 3, addr := 0xE0000, data := 7 } ∧ out.badAt 0xE0000 64 = false ∧
      (out.portPerform 0).mem = [(0xE0000, 7)] ∧ (out.portPerform 0).cc.portWrites = []) ∧
    goes (exec (.neighbourQueueArrival 1 .w) { vecSt 5 6 7 1 with
      cores := [(0, vecs 5 6 7 1), (1, { vecs 5 6 7 1 with seq := { SeqState.reset with nqIn := SeqState.reset.nqIn.set 3 [(none, 4)] } })],
      dev := { DevRegs.reset with torn := [.queue 1 .w] } })
      (fun t => (t.core 1).seq.nq[3].isEmpty && t.cc.evt.respTraps.length == 1) := by decide +kernel

/-- An item whose flits fail; one behind an item of its die in the area; a message whose flits fail. -/
theorem test_meets_GroupsAndWorkSets_torn :
    let two := { pair Exchange.reset Exchange.reset with pushed := [item 5 1] }
    goes (exec (.workItemArrival 5) { two with dev := { DevRegs.reset with torn := [.item 5] } })
      (fun t => t.lists.isEmpty && t.cc.evt.respTraps.length == 1 && t.dev.torn.isEmpty) ∧
    goes (exec (.workItemArrival 5) { two with spilled := [(0, [work 0 3])], dev := { DevRegs.reset with wlSpill := [(0, 2 ^ 40)] } })
      (fun t => t.lists.isEmpty && (look [] t.spilled 0) == [work 0 3, work 1 7]) ∧
    goes (exec (.messageArrival (.own 3)) { messaging with pre := { messaging.pre with sent := [sentMsg 0 0x55] }, dev := { DevRegs.reset with torn := [.item 3] } })
      (fun t => t.pre.sent.isEmpty && t.pre.unexpected.isEmpty && (t.vlog 0).count == 1) := by
  decide +kernel

/-- A step without values: two tokens of one slot, two experts of one place each. -/
def fairStep : Step := { tokens := 2, k := 1, nexp := 2, vals := [], caps := [1, 1], eps := 0x3A83126F }
def fairPlace : Place := { t := 0, s := 0, j := 1, β := 0x3A83126F, fb := false }

theorem fairStep_sound : fairStep.Sound := by
  refine ⟨rfl, by unfold Fp32Finite; decide, by decide +kernel, fun t j => ?_⟩
  have h : fairStep.val t j = 0 := by simp [Step.val, fairStep]
  rw [h]
  unfold Fp32Finite
  decide

theorem fairStep_fair : fairStep.Fair [] ∧ fairStep.Fair [fairPlace] := by
  unfold Step.Fair Fp32Finite
  decide +kernel

theorem test_meets_Market_assignment :
    fairStep.Sound ∧ fairStep.Fair [fairPlace] ∧ (∀ x ∈ [0, 0x3A83126F], Fp32Finite x) ∧ [0, 0x3A83126F].length = fairStep.nexp ∧
    assigned [fairPlace] 1 0 = false ∧
    ((fairStep.cands.filter fun j => decide ((holders [fairPlace] j).length < fairStep.cap j) && !heldBy [fairPlace] 1 j) = [0]) ∧
    fairStep.tokens * fairStep.k ≤ ((List.range fairStep.nexp).map fun j => min (fairStep.cap j) fairStep.tokens).sum ∧
    ((List.range fairStep.nexp).map fairStep.cap).sum = fairStep.tokens * fairStep.k ∧ (∀ j, j < fairStep.nexp → fairStep.cap j ≤ fairStep.tokens) ∧
    ((fairStep.result 1 4 [0, 0]).places.map fun p => (p.t, p.s, p.j)) = [(0, 0, 0), (1, 0, 1)] :=
  ⟨fairStep_sound, fairStep_fair.2, by unfold Fp32Finite; decide, rfl, by decide +kernel, by decide +kernel, by decide +kernel, by decide +kernel,
   by decide +kernel, by decide +kernel⟩

/-- A token that holds the only expert with room: the holder of the other one moves to it. -/
theorem test_meets_Market_alternating :
    let m : Step := { tokens := 2, k := 2, nexp := 2, vals := [], caps := [2, 1], eps := 0x3A83126F }
    let p : Place := { t := 0, s := 0, j := 1, β := 0, fb := false }
    let l : List Place := [p, { t := 1, s := 0, j := 0, β := 0, fb := false }]
    m.Fair l ∧ assigned l 1 1 = false ∧
      (m.cands.filter fun j => decide ((holders l j).length < m.cap j) && !heldBy l 1 j) = [] ∧ m.AltPath l 1 [p] 0 := by
  refine ⟨by unfold Step.Fair Fp32Finite; decide +kernel, by decide +kernel, by decide +kernel, by decide +kernel, by decide +kernel,
    by decide +kernel, by decide +kernel, by decide +kernel, by decide +kernel⟩


/-- The answer of a token move of another device; a peer with encryption; recalls: refused, held up, of a region with a dirty word. -/
theorem test_meets_Tokens_answers :
    let r : Req := { reqAt 2 0x100000 (.tok false) .plain .sent with sys := sysOf 5 0x100000, plane := some 0 }
    let one (r : Req) : State := oneReq r []
    let s : State := { one r with
      fab := { State.reset.fab with domainEn := true, peers := [(5, { PeerEntry.reset with planes := 1, xt := true, valid := true })] } }
    let back (st : BitVec 4) (n : Nat) : PeerReply := mkReply (sysOf 5 0x100000) st false (if st = 0 then 8 else 0) n
    let line (d : BitVec 8) : State := { s with net := [], fab := { s.fab with held := [(5, 3)], cache := [(5 * 2 ^ 34 + 3 * 2 ^ 15, { data := 7, valid := 1, dirty := d })] } }
    (s.req 2 = some r ∧ s.heldBack r = false ∧ r.ext = .zero 8 ∧ s.isTorn (.item 2) = false ∧ (s.peer 5).enc = false) ∧
    goes (exec (.accessPerform (.own 2 (back 0 3))) s) (fun t => t.fab.held == [(5, 0)] && t.cc.main.flights.map (·.vals) == [[3]] && t.net.isEmpty) ∧
    goes (exec (.accessPerform (.own 2 (back 0 2))) s) (fun t => t.fab.held.isEmpty && t.cc.main.flights.map (·.vals) == [[2]]) ∧
    goes (exec (.accessPerform (.own 2 (back 3 0))) s) (fun t => t.fab.held.isEmpty && t.net.map (·.phase) == [.answered 3]) ∧
    (withKeyed.peer 3).enc = true ∧
    goes (exec (.tokenRecall 5 3) { line 0 with fab := { (line 0).fab with domainEn := false } })
      (fun t => t.fab.held == [(5, 3)] && t.fab.cache.length == 1 && t.fab.out.length == 1) ∧
    goes (exec (.tokenRecall 5 3) (line 0)) (fun t => t.fab.held.isEmpty && t.fab.cache.isEmpty && t.fab.out == [.recallReply 5 3]) ∧
    goes (exec (.tokenRecall 5 3) (line 1)) (fun t => t.fab.held == [(5, 3)] && t.fab.cache.isEmpty && t.net.map (·.src) == [.cache]) := by decide +kernel

/-- A play behind a buffered write; SENDs without an answer; a successor of a faulted operation; chunks malformed and damaged. -/
theorem test_meets_Convoys_more :
    let idle := playing (convoyAt (graphOf [opCopy, opSend] none) 0) 0
    let late (n : Nat) : State := { idle with cores := [(0, { runner false 0 0 with seq := { SeqState.reset with
      ports := SeqState.reset.ports.set 0 { Port.reset with outq := [{ id := 9, stamp := n, addr := 0xE0000, data := 7 }] } } })] }
    let p (l : List OpState) (q : Play → Play) : State := convoyAt (graphOf [opSend, opCopy] (some (q (playOf l)))) 7
    let answer : BitVec 4 → PeerReply := fun a => mkReply (ingress 5) a false 0 0
    let run (t : State) : List (Option Play) := t.convoy.graphs.map (·.2.run)
    let two := convoyAt (graphOf [{ opCopy with w1 := 2 * 2 ^ 61 + 2 ^ 58 + 2 ^ 45 }, opCopy, opSend] (some (playOf [.ready, .waiting 1, .ready]))) 0
    let st := fun (t : State) => t.fab.out.map fun o => match o with | .reply _ st _ _ => st.toNat | _ => 99
    let good := convoyAt (graphOf [opRecv, opRed 0] none) 0
    goes (exec (.playStart 0) (late 0)) (fun t => t.convoy.plays.length == 1) ∧ goes (exec (.playStart 0) (late 1)) (fun t => t.convoy.plays.isEmpty) ∧
    goes (exec (.convoyOpComplete 0 0 (.answered (answer 9))) (p [.ready, .ready] id)) (fun t => (run t).map (·.map (·.lost)) == [some [(0, 18000007)]]) ∧
    goes (exec (.convoyOpComplete 0 0 .own) (p [.ready, .ready] fun q => { q with lost := [(0, 8)] })) (fun t => (run t).map (·.map (·.ops)) == [some [.ready, .ready]]) ∧
    goes (exec (.convoyOpComplete 0 0 .own) (p [.ready, .ready] fun q => { q with lost := [(0, 7)] }))
      (fun t => (run t).map (·.map fun q => (q.ops, q.fault.map (·.2.1))) == [some ([.failed, .ready], some 5)]) ∧
    goes (exec (.convoyOpComplete 0 0 .own) two) (fun t => (run t).map (·.map (·.ops)) == [some [.failed, .barred, .ready]]) ∧
    goes (exec (.convoyChunkArrival { chunk 1 1 64 with hdr := 3 }) good) (fun t => st t == [2]) ∧
    goes (exec (.convoyChunkArrival { chunk 1 1 64 with crcOk := false }) good) (fun t => st t == [8]) := by decide +kernel

/-- Words in error under a command and under a row that is drained. -/
theorem test_meets_MatrixQueue_bad :
    let load := held (.mload mloadGood) false 0
    let one := { MatState.reset with mq := [held (.mma mmaOne) false 0] }
    let row := { withCore (matCore 0 [held (.mdrain drainGood) true 0]) with sched := { State.reset.sched with launches := [launchOf .running] } }
    goes (exec (.mload 0 mloadGood) { withCore (matCore 0 [load]) with mem := [(0, 7)], bad := [0] })
      (fun t => t.cc.mat.shadow == (matCore 0 []).mat.shadow && t.cc.evt.respTraps.map (·.cause) == [5]) ∧
    goes (exec (.mma 0 mmaOne) { withCore { runner false 0 0 with mat := one } with bad := [0x80000] })
      (fun t => t.cc.evt.respTraps.map (·.cause) == [5] && t.mem.isEmpty) ∧
    goes (exec (.drainRowDispatch 0) { row with bad := [0xC0000] })
      (fun t => t.cc.hnd.v[0] == 0 && t.cc.evt.respTraps.map (·.cause) == [5] && t.cc.hnd.row.isSome) := by decide +kernel

/-- A release with a store and a load on their way; a record with a bad burst; TIME of a new binding; a core that is parked. -/
theorem test_meets_SlotsAndCoreEvents_more :
    let going : State := { inState .running with net := [{ reqAt 2 0xE0000 (.acc (.store 8 0)) .plain .sent with flight := none },
      reqAt 3 0xE0000 (.acc (.load 8)) .plain .sent] }
    goes (exec (.release 0 bindRec) going) (fun t => t.net.map (fun r => (r.id, r.src)) == [(2, .left 0 0)]) ∧
    goes (exec (.loadingComplete 0) { loading .resume true with bad := [0x1080000000] })
      (fun t => t.cc.slot.st == .idle && t.sched.launches.all (·.reason == 2)) ∧
    goes (exec (.bindNew 0 bindRec) { inState .idle with now := 50 }) (fun t => t.cc.ctl.timeOff == 50) ∧
    goes (exec (.contextSave 0) { saving .forced with cores := [(0, { (saving .forced).cc with slot := { (saving .forced).cc.slot with err := true } })] })
      (fun t => t.cc.slot.st == .idle && t.cc.slot.err) ∧
    goes (exec (.interruptTaken 0) { withCore { interrupts 4 50 with evt := { (interrupts 4 50).evt with parkedAt := some 0 } } with now := 50 })
      (fun t => t.cc.main.pc == 0 && t.cc.ctl.trapCause == 0) := by decide +kernel

/-- A launch behind one of its TAG; a header in a core's window; a write that a core of the launch has left. -/
theorem test_meets_Launches_behind :
    let p := packet 0 [3 + 2 ^ 48 * 7, 0x40, 9]
    let low (s : State) : State := { s with dev := { s.dev with xlatRoot := [(0, 0x8000001000000000)] }, mem := [(0x1000000000, 0x1F)] }
    let ended : State := { launched { launchOf .running with exitVal := some 3 } with
      cores := [(0, { runner false 0 0 with slot := { Slot.reset with st := .halted } })] }
    let w : Req := { reqAt 2 0xE0000 (.acc (.store 8 0)) .plain .sent with src := .left 0 0, flight := none }
    goes (exec (.launchPacket 0 1) (host (ring [p, { p with seq := 1 }]))) (fun t => t.sched.launches.isEmpty) ∧
    ((low (launched pend)).xlate none 0 true .read 0).2.toOption.map (·.sys) = some 0 ∧
    goes (exec (.launchReady 0) (low (launched pend))) (fun t => (t.qi 0).packets.map (·.result) == [some (8, 0x2000000)]) ∧
    goes (exec (.launchEnd 0) { ended with net := [w] }) (fun t => t.sched.launches.length == 1) ∧
    goes (exec (.launchEnd 0) ended) (fun t => (t.qi 0).packets.map (·.result) == [some (0, 3 * 2 ^ 32)]) := by decide +kernel

/-- A second page of a chunk; a LAUNCH that ends at its fetch; one that is revoked before it runs. -/
theorem test_meets_Host_more :
    let put := [1, 0x5FF8, 0x1040, 16]
    let pri (p : Packet) : State := { host (ring [p]) with
      host := { State.reset.host with ready := true, featOk := true, featDrv := State.reset.host.featDrv.set 0 4, qis := [(0, ring [p])] } }
    let p : Packet := { packet 0 put with started := true, retried := [0x5000] }
    let uses (l : List (Option (Fin 4))) (n : Nat) : State :=
      { host { ring [] with past := l, nextSeq := n } with host := { (ideHost 8).host with qis := [(0, { ring [] with past := l, nextSeq := n })] } }
    goes (exec (.putGetChunk 0 0 (.noAccess 0x6000)) (pri p)) (fun t => t.host.pageReqs == [(0, 0x6000)]) ∧
    goes (exec (.putGetChunk 0 0 (.noAccess 0x5FF8)) (pri p)) (fun t => (t.qi 0).packets.map (·.result) == [some (4, 0x5FF8)]) ∧
    goes (exec (.packetFetch 0 (packetBytes (3 + 2 ^ 20 + 9 * 2 ^ 48))) (fetching none 0 0)) (fun t => (t.qi 0).failed == [9]) ∧
    goes (exec (.revoke 0) (launched pend)) (fun t => t.sched.launches.all (·.st == .ended) && t.host.refusals.length == 1 && (t.qi 0).failed == [0]) ∧
    goes (exec (.ideIntegrityFailure (some 1) []) (uses [] 1)) (fun t => (t.qi 0).st == .error) ∧
    goes (exec (.ideIntegrityFailure (some 2) []) (uses [some 2] 1)) (fun t => (t.qi 0).st == .error) ∧
    goes (exec (.ideIntegrityFailure (some 3) []) (uses [some 2] 1)) (fun t => (t.qi 0).st == .active) ∧
    goes (exec .functionReset (ideHost 8)) (fun t => t.host.streams.isEmpty) := by decide +kernel

/-- A region with an access on its way; a transfer through a leaf that is dropped; FEATURES_OK written as 0; a flit that fails. -/
theorem test_meets_RegistersAndPower_pending :
    let s : State := { pair Exchange.reset Exchange.reset with tlb := [(0, [leaf 0])] }
    let x : XTransfer := { sending with ga := 0x40 }
    wr 0xF001000000 0x8005 (oneReq (reqAt 2 8 (.acc (.load 8)) .plain .sent) []) (fun t => !(t.token 0).checked) ∧
    wr 0xF001000000 0x8005 (oneReq (reqAt 2 8 (.acc (.load 8)) .plain (.answered 0)) []) (fun t => (t.token 0).checked) ∧
    goes (exec (.xlatInv (2 ^ 63 + 2 * 2 ^ 61)) { s with xfers := [x] }) (fun t => t.dev.invPend == [4] && t.invalidating) ∧
    goes (exec (.xlatInv (2 ^ 63 + 2 * 2 ^ 61)) { s with xfers := [sending] }) (fun t => t.dev.invPend.isEmpty) ∧
    wr 0x18 0 (ideHost 8) (fun t => !t.host.featOk && (t.qi 0).st == .active) ∧
    goes (step { State.reset with agenda := [.tear (.item 4)] }) (fun t => t.dev.torn == [.item 4]) := by decide +kernel

end Sys2Proof.Tests
end

section
/-!
O60 fails. A waiting access whose burst turns uncorrectable is refused with 0x4 (spec/01 R14), but its response still crosses the mesh: where
the flit of that response fails its CRC, the requester is answered with 0x8 (spec/01 R17, spec/06 R89, log 116). The clause on patrol
scrubbing leaves out that the response arrives undamaged.
-/

namespace Sys2Proof.Machine

/-! ## An answer whose flit fails -/

@[simp] theorem State.logViolation_net (s : State) (die : Nat) (st : BitVec 4) (dev : Nat) (sys : BitVec 50) (core : Nat) (src : BitVec 4) :
    (s.logViolation die st dev sys core src).net = s.net := by
  simp only [State.logViolation]
  split_ifs <;> rfl

@[simp] theorem State.logViolation_torn (s : State) (die : Nat) (st : BitVec 4) (dev : Nat) (sys : BitVec 50) (core : Nat) (src : BitVec 4) :
    (s.logViolation die st dev sys core src).dev.torn = s.dev.torn := by
  simp only [State.logViolation]
  split_ifs <;> rfl

@[simp] theorem State.answerTorn_logViolation (s : State) (r : Req) (die : Nat) (st : BitVec 4) (dev : Nat) (sys : BitVec 50) (core : Nat)
    (src : BitVec 4) : (s.logViolation die st dev sys core src).answerTorn r = s.answerTorn r := by
  simp only [State.answerTorn, State.isTorn, State.logViolation_torn]

/-- Whatever the home answers, a response whose flit fails leaves its request answered with 0x8. -/
theorem State.answer_net_of_torn {s : State} {r : Req} (h : s.answerTorn r = true) (st : BitVec 4) (v : Word) :
    (s.answer r st v).net = (s.putReq { r with phase := .answered 8 }).net := by
  simp only [State.answer, h, if_true, State.putReq, State.logViolation_net]
  rfl

/-- So does a refusal, with whatever status. -/
theorem State.refuse_net_of_torn {s : State} {r : Req} (h : s.answerTorn r = true) (st : BitVec 4) :
    (s.refuse r st).net = (s.putReq { r with phase := .answered 8 }).net := by
  have ht (die dev core : Nat) : (s.logViolation die st dev r.sys core 0).answerTorn r = true := by simp [h]
  rw [State.refuse, State.answer_net_of_torn (ht _ _ _)]
  simp only [State.putReq, State.logViolation_net]

end Sys2Proof.Machine

namespace Sys2Proof.Proofs

open Sys2Proof.Machine

/-! ## A store that waits, and whose response fails -/

/-- A global store `.we` of core 0 that waits at the first word of stack 0, which is full. -/
def waitingStore : Req :=
  { id := 0, src := .core 0 false 0, op := .acc (.store 8 1), cls := .ord, fe := .we, ga := 0, sys := 0x1000000000, reg := false, loc := false,
    tokchk := false, ext := .zero 8, flight := none, phase := .waiting 1800000, due := 18000000, ctx := 0, nocache := true, plane := none }

/-- Core 0 runs, and its store waits. -/
def storeWaits : State :=
  { State.reset with cores := [(0, { Core.reset with slot := { Slot.reset with st := .running } })], net := [waitingStore], nextId := 1 }

/-- The same device where the flit of the response to that store is to fail. -/
def responseTorn : State := { storeWaits with dev := { DevRegs.reset with torn := [.item 0] } }

/-- The damage is one move of the agenda away (spec/01 R17), so no hypothesis of the clause rules it out. -/
theorem step_tear_storeWaits : step { storeWaits with agenda := [.tear (.item 0)] } = .next responseTorn := rfl

/-- A scrub that finds the burst uncorrectable refuses the waiting store with 0x4. -/
theorem patrolScrub_responseTorn : exec (.patrolScrub 0 0x1000000000 false) responseTorn =
    .next (State.refuse { responseTorn with bad := [0x1000000000] } waitingStore 4) := rfl

/-- Refutes O60: in `responseTorn` a store of core 0 waits at the burst that the scrub finds uncorrectable, and the flit of its response fails;
it is answered with 0x8, where the clause on patrol scrubbing asks for 0x4. -/
theorem not_failuresFirmwareManagement : ¬ Obligations.FailuresFirmwareManagement := by
  intro h
  obtain ⟨-, -, -, -, hscrub, -⟩ := h
  obtain ⟨-, hhere, -⟩ := hscrub responseTorn 0 0x1000000000
  obtain ⟨-, -, hwaiting⟩ := hhere (by decide) (by decide) (by decide) (by decide)
  obtain ⟨t, ht, -, -, hnet⟩ := hwaiting waitingStore 0 false 0 (.store 8 1) rfl rfl rfl ⟨_, rfl⟩ (by decide) (by decide) (by decide)
    (by decide) (by decide)
  have e : State.refuse { responseTorn with bad := [0x1000000000] } waitingStore 4 = t :=
    Host.Outcome.next.inj (patrolScrub_responseTorn.symm.trans ht)
  rw [← e, State.refuse_net_of_torn (by decide)] at hnet
  exact absurd hnet (by decide)

end Sys2Proof.Proofs
end

section
/-!
O52 fails. The clause on a SEND to another device reads the XT bit of entry d of the peer table, where d is the peer that the graph's list
names. The model checks the answer against the device in the system address of the ingress window, which holds ten bits of a device ID. The
statement bounds neither the peer list nor the keys of the peer table, and for d = 1024 the two entries differ: the clause asks for a fault
where the model completes the SEND. The premise that is missing is d < 1024 (spec/03 R39); an image that names such a peer is not armed (R40).
-/

namespace Sys2Proof.Machine

/-! ## Reading a chunk -/

/-- Where every byte of [ga, ga + n) reads as b and a read leaves the state as it is, so does the whole. -/
theorem State.readAll_const {a : Acc} {s : State} {b n : Nat} {ga : Word} (h : ∀ k, k < n → s.engRead a (ga + natW k) 1 = (s, .ok b)) :
    State.readAll a n s ga = (s, .ok (List.replicate n (BitVec.ofNat 8 b))) := by
  induction n generalizing ga with
  | zero => rfl
  | succ n ih =>
    have hfirst : s.engRead a ga 1 = (s, .ok b) := by simpa [natW] using h 0 (Nat.succ_pos n)
    have hrest : State.readAll a n s (ga + 1) = (s, .ok (List.replicate n (BitVec.ofNat 8 b))) := ih fun k hk => by
      have hnext : ga + 1 + natW k = ga + natW (k + 1) := by
        simp only [natW, BitVec.ofNat_add]
        ac_rfl
      rw [hnext]
      exact h (k + 1) (Nat.succ_lt_succ hk)
    simp only [State.readAll, hfirst, hrest, List.replicate_succ]

/-! ## A SEND and its answer -/

@[simp] theorem State.peer_fabOut (s : State) (o : FabOut) (d : Nat) : (s.fabOut o).peer d = s.peer d := by
  have hpeers : (s.outFab o).peers = s.fab.peers := by
    unfold State.outFab
    split
    · rfl
    · split <;> rfl
  simp only [State.peer, State.fabOut, hpeers]

@[simp] theorem State.peer_charge (s : State) (ctx : BitVec 12) (n amount d : Nat) : (s.charge ctx n amount).peer d = s.peer d := rfl

/-- A system address keeps ten bits of the device (spec/02 R28). -/
theorem devOf_ingress (d : Nat) : devOf (ingress d) = d % 1024 := by
  simp only [devOf, ingress, sysOf, BitVec.toNat_ofNat]
  omega

/-- From a device whose peer-table entry has XT = 0 a status is taken as it was sent: there is no XCRC to check (spec/02 R31). -/
theorem State.seenStatus_of_bare {s : State} {sys : BitVec 50} {r : PeerReply} (hxt : (s.peer (devOf sys)).xt = false)
    (hsent : (xstatOf r).toNat < 10) (n : Nat) : s.seenStatus sys n r = xstatOf r := by
  simp [State.seenStatus, State.bare, hxt, Nat.not_le.mpr hsent]

/-- So it is entry d modulo 1024 that says whether the answer of peer d is checked. -/
theorem State.sendHears_of_bare {s : State} {d : Nat} {r : PeerReply} (henc : (s.peer d).enc = false) (hxt : (s.peer (d % 1024)).xt = false)
    (hsent : xstatOf r = 0) (g : Fin 16) (x : Graph) (p : Play) (i : Nat) : s.sendHears g x p i d r = s.sendEnds g i 0 (lateOf r) := by
  have hseen : s.seenStatus (ingress d) 0 r = 0 := by
    rw [State.seenStatus_of_bare (by rwa [devOf_ingress]) (by rw [hsent]; decide), hsent]
  simp [State.sendHears, State.tagFails, henc, hseen, State.noteStatus, hsent]

/-- The state once the chunk of a SEND to device d has left. -/
def State.chunkSent (s : State) (g : Fin 16) (x : Graph) (i d : Nat) (bs : List Byte) : State :=
  (s.charge x.ctx 12 (x.op i).len).fabOut (.chunk (Fin.ofNat 1024 d) (s.chunkOf x g i d bs))

@[simp] theorem State.peer_chunkSent (s : State) (g : Fin 16) (x : Graph) (i d : Nat) (bs : List Byte) (j : Nat) :
    (s.chunkSent g x i d bs).peer j = s.peer j := by simp [State.chunkSent]

/-- A SEND whose source is read and whose peer has a route hears the answer of that peer. -/
theorem State.sendOp_of_route {s s' : State} {g : Fin 16} {x : Graph} {p : Play} {i : Nat} {bs : List Byte} {z : Fin 16}
    (hread : State.readAll (x.acc .copy) (x.op i).len s ((x.op i).src p.bases) = (s', .ok bs)) (hpeer : x.dev (x.op i).peer ≠ s'.own)
    (hroute : s'.route (x.dev (x.op i).peer) .adp true = .ok z) (r : PeerReply) :
    s.sendOp g x p i r = (s'.chunkSent g x i (x.dev (x.op i).peer) bs).sendHears g x p i (x.dev (x.op i).peer) r := by
  simp only [State.sendOp, hread, if_neg hpeer, hroute, State.chunkSent]

/-- A SEND that is ready, not sent yet and without an answer that is lost, is sent. -/
theorem exec_convoyOpComplete_send {s : State} {g : Fin 16} {op : BitVec 12} {x : Graph} {p : Play} (hx : s.graph g = some x)
    (hrun : x.run = some p) (hready : p.st op.toNat = .ready) (hop : op.toNat < x.ops.length) (hlost : p.lost = []) (hsends : p.sends = [])
    (hkind : (x.op op.toNat).kind = 1) (r : PeerReply) :
    exec (.convoyOpComplete g op (.answered r)) s = convoyOk (s.sendOp g x p op.toNat r) := by
  change execConvoyOpComplete g op (.answered r) s = _
  simp [execConvoyOpComplete, hx, hrun, hready, Nat.not_le.mpr hop, hlost, hsends, hkind, outcomeReply]

end Sys2Proof.Machine

namespace Sys2Proof.Proofs

open Sys2Proof.Machine

/-! ## A SEND to peer 1024 -/

/-- A SEND of 64 bytes to entry 0 of the peer list. -/
def sendChunk : ConvOp := { w0 := natW (2 ^ 60), w1 := natW (2 ^ 45), w2 := 0 }

/-- A play of two SENDs that are ready, from the L buffer of core 0. -/
def twoSends : Play :=
  { bases := List.replicate 8 (natW (2 ^ 62 + 0xE0000)), ops := [.ready, .ready], flags := 0, partials := [], lates := 0, fault := none,
    progress := 0, sends := [], lost := [], landing := [] }

/-- Its graph, whose peer list names 1024. -/
def strayGraph : Graph :=
  { ctx := 0, core := 0, lid := 0, armed := true, header := natW (2 * 2 ^ 32 + 2 ^ 24 + 1), peers := [1024], trigs := [],
    ops := [sendChunk, sendChunk], play := 1, run := some twoSends, ended := [], queued := none, bases := twoSends.bases, area := none,
    nextTrigs := [], discarded := 0 }

/-- Core 0 runs, its graph plays, and the only entry of the peer table is that of 1024, with XT = 1. -/
def straySend : State :=
  { State.reset with
    cores := [(0, { Core.reset with slot := { Slot.reset with st := .running } })]
    convoy := { State.reset.convoy with graphs := [(0, strayGraph)] }
    fab := { State.reset.fab with domainEn := true, peers := [(1024, { PeerEntry.reset with planes := 1, xt := true, valid := true })] } }

/-- An answer of status 0 without an extension header. -/
def bareAnswer : PeerReply := { hdr := 0, data := 0 }

theorem readAll_straySend :
    State.readAll (strayGraph.acc .copy) 64 straySend (natW (2 ^ 62 + 0xE0000)) = (straySend, .ok (List.replicate 64 0)) :=
  State.readAll_const fun k hk => by interval_cases k <;> rfl

theorem route_straySend : straySend.route 1024 .adp true = .ok 0 := rfl

/-- `straySend` once the chunk has left. -/
def strayChunkSent : State := straySend.chunkSent 0 strayGraph 0 1024 (List.replicate 64 0)

/-- The model takes the answer as status 0, by the entry of device 0, of which the peer table holds none. -/
theorem exec_straySend :
    exec (.convoyOpComplete 0 0 (.answered bareAnswer)) straySend = convoyOk (strayChunkSent.sendEnds 0 0 0 (lateOf bareAnswer)) := by
  have hsent : straySend.sendOp 0 strayGraph twoSends 0 bareAnswer = strayChunkSent.sendHears 0 strayGraph twoSends 0 1024 bareAnswer :=
    State.sendOp_of_route (i := 0) (p := twoSends) readAll_straySend (by decide) route_straySend bareAnswer
  have hheard : strayChunkSent.sendHears 0 strayGraph twoSends 0 1024 bareAnswer = strayChunkSent.sendEnds 0 0 0 (lateOf bareAnswer) :=
    State.sendHears_of_bare (by rw [strayChunkSent, State.peer_chunkSent]; rfl) (by rw [strayChunkSent, State.peer_chunkSent]; rfl) rfl
      0 strayGraph twoSends 0
  rw [← hheard, ← hsent]
  exact exec_convoyOpComplete_send (g := 0) (op := 0) (x := strayGraph) rfl rfl rfl (by decide) rfl rfl rfl bareAnswer

/-- So the SEND is done in the play that goes on. -/
theorem graph_strayChunkSent_sendEnds :
    (strayChunkSent.sendEnds 0 0 0 (lateOf bareAnswer)).triggers.graph 0 = some { strayGraph with run := some (twoSends.complete sendChunk 0 0) } :=
  rfl

/-- The clause asks for a fault: the entry of peer 1024 has XT = 1, and the answer holds no XCRC of its packet. -/
theorem bareAnswer_mismatches :
    ¬ ((straySend.peer 1024).xt = false ∨ crcMatches (sysOf 1024 0x8000000000) bareAnswer.hdr [] = true) := by
  decide +kernel

/-- Refutes O52: in `straySend` a SEND to peer 1024, whose entry has XT = 1, is answered with status 0 and no XCRC. The model reads the entry
of device 0 and completes the SEND, where the clause on operations asks for a fault with cause 5. -/
theorem not_convoys : ¬ Obligations.Convoys := by
  intro h
  obtain ⟨-, -, -, -, hops, -⟩ := h
  obtain ⟨-, -, hsend, -⟩ := hops straySend 0 0 strayGraph twoSends rfl rfl rfl (by decide) rfl (by decide) (by decide)
    ⟨1, by decide, by decide, rfl⟩
  obtain ⟨-, hanswered⟩ := hsend false bareAnswer straySend (List.replicate 64 0) 0 rfl rfl (fun _ hy => nomatch hy) readAll_straySend (by decide)
    route_straySend rfl rfl rfl
  obtain ⟨-, -, -, -, -, hfault⟩ := hanswered (by decide)
  obtain ⟨t, q, ht, hgraph, hst, -⟩ := hfault (.inl bareAnswer_mismatches)
  have hfailed : q.st 0 = .failed := hst 0 (by decide)
  have htriggers : (strayChunkSent.sendEnds 0 0 0 (lateOf bareAnswer)).triggers = t := Host.Outcome.next.inj (exec_straySend.symm.trans ht)
  rw [← htriggers, graph_strayChunkSent_sendEnds] at hgraph
  obtain rfl : twoSends.complete sendChunk 0 0 = q := by simpa using hgraph
  exact absurd hfailed (by decide)

end Sys2Proof.Proofs
end

section
/-!
SUPPORT. The host port: what its shared operations do to a queue interface, said once: a table entry that is written, a packet whose work
ends, a completion that is written, and the packets that a CANCEL or a REVOKE ends together.
-/

namespace Sys2Proof.Machine

/-! ## The table of interfaces -/

@[simp] theorem State.qi_setQi_self (s : State) (q : Fin 64) (x : Qi) : (s.setQi q x).qi q = x := by
  simp [State.qi, State.setQi]

theorem State.qi_setQi_of_ne (s : State) {q j : Fin 64} (x : Qi) (h : j ≠ q) : (s.setQi q x).qi j = s.qi j := by
  simp [State.qi, State.setQi, look_put, Fin.val_inj, h]

@[simp] theorem State.setQi_setQi (s : State) (q : Fin 64) (x y : Qi) : (s.setQi q x).setQi q y = s.setQi q y := by
  simp [State.setQi]

/-- What the operations on the packets of an interface leave alone: everything but the numbering and the table of interfaces, and of that
table the other interfaces. -/
structure State.QiFrame (q : Fin 64) (s t : State) : Prop where
  rest : t = { s with nextId := t.nextId, host := { s.host with qis := t.host.qis } }
  others : ∀ j, j ≠ q → t.qi j = s.qi j

section
variable {q : Fin 64} {s t u : State}

theorem State.QiFrame.refl (q : Fin 64) (s : State) : QiFrame q s s := ⟨rfl, fun _ _ => rfl⟩

theorem State.QiFrame.trans (h : QiFrame q s t) (k : QiFrame q t u) : QiFrame q s u where
  rest := by rw [k.rest, h.rest]
  others j hj := (k.others j hj).trans (h.others j hj)

theorem State.QiFrame.mem (h : QiFrame q s t) : t.mem = s.mem := by rw [h.rest]
theorem State.QiFrame.cores (h : QiFrame q s t) : t.cores = s.cores := by rw [h.rest]
theorem State.QiFrame.sched (h : QiFrame q s t) : t.sched = s.sched := by rw [h.rest]
theorem State.QiFrame.mgmt (h : QiFrame q s t) : t.mgmt = s.mgmt := by rw [h.rest]
theorem State.QiFrame.out (h : QiFrame q s t) : t.host.out = s.host.out := congrArg (·.host.out) h.rest
theorem State.QiFrame.atc (h : QiFrame q s t) : t.host.atc = s.host.atc := congrArg (·.host.atc) h.rest
theorem State.QiFrame.refusals (h : QiFrame q s t) : t.host.refusals = s.host.refusals := congrArg (·.host.refusals) h.rest
theorem State.QiFrame.pageReqs (h : QiFrame q s t) : t.host.pageReqs = s.host.pageReqs := congrArg (·.host.pageReqs) h.rest
theorem State.QiFrame.vector (h : QiFrame q s t) : t.vector = s.vector := by rw [h.rest]; rfl

end

theorem State.setQi_frame (q : Fin 64) (s : State) (x : Qi) : QiFrame q s (s.setQi q x) :=
  ⟨rfl, fun _ hj => s.qi_setQi_of_ne x hj⟩

theorem State.markTag_frame (q : Fin 64) (s : State) (t : BitVec 16) (st : BitVec 8) : QiFrame q s (s.markTag q t st) := s.setQi_frame q _

theorem State.setPacket_frame (q : Fin 64) (s : State) (p : Packet) : QiFrame q s (s.setPacket q p) := s.setQi_frame q _

theorem State.finishPacket_frame (q : Fin 64) (s : State) (n : Nat) (st : BitVec 8) (res : Word) : QiFrame q s (s.finishPacket q n st res) :=
  ⟨rfl, fun _ hj => State.qi_setQi_of_ne _ _ hj⟩

/-- A TAG's FAILED bit is set. -/
theorem State.qi_markTag {st : BitVec 8} (h : st ≠ 0) (s : State) (q : Fin 64) (t : BitVec 16) :
    (s.markTag q t st).qi q = { s.qi q with failed := t :: (s.qi q).failed.filter (· != t) } := by
  simp only [State.markTag, if_neg h, State.qi_setQi_self]

/-- A TAG that is marked joins those that are FAILED. -/
theorem mem_markTag (t u : BitVec 16) (l : List (BitVec 16)) : u ∈ t :: l.filter (· != t) ↔ u ∈ l ∨ u = t := by
  by_cases h : u = t <;> simp [h]

/-! ## Packets whose work ends -/

/-- A packet whose work has ended, with status and RESULT, as the k-th that did. -/
def Packet.ended (p : Packet) (r : BitVec 8 × Word) (k : Nat) : Packet := { p with result := some r, waitPage := none, fin := k }

/-- What `State.finishPacket` does to each packet of its interface. -/
def Packet.endIf (n : Nat) (r : BitVec 8 × Word) (k : Nat) (p : Packet) : Packet := if p.seq = n && p.result.isNone then p.ended r k else p

@[simp] theorem Packet.ended_result (p : Packet) (r : BitVec 8 × Word) (k : Nat) : (p.ended r k).result = some r := rfl

theorem Packet.endIf_of_open {p : Packet} (h : p.result = none) (r : BitVec 8 × Word) (k : Nat) : p.endIf p.seq r k = p.ended r k := by
  simp [Packet.endIf, h]

theorem Packet.endIf_of_ended {p : Packet} (h : p.result ≠ none) (n : Nat) (r : BitVec 8 × Word) (k : Nat) : p.endIf n r k = p := by
  simp [Packet.endIf, h]

theorem Packet.endIf_of_ne {p : Packet} {n : Nat} (h : p.seq ≠ n) (r : BitVec 8 × Word) (k : Nat) : p.endIf n r k = p := by
  simp [Packet.endIf, h]

theorem State.qi_finishPacket (s : State) (q : Fin 64) (n : Nat) (st : BitVec 8) (res : Word) :
    (s.finishPacket q n st res).qi q = { s.qi q with packets := (s.qi q).packets.map (Packet.endIf n (st, res) s.nextId) } := by
  rw [State.finishPacket, State.qi_setQi_self]
  rfl

@[simp] theorem State.nextId_finishPacket (s : State) (q : Fin 64) (n : Nat) (st : BitVec 8) (res : Word) :
    (s.finishPacket q n st res).nextId = s.nextId + 1 := rfl

theorem State.qi_setPacket (s : State) (q : Fin 64) (p : Packet) :
    (s.setPacket q p).qi q = { s.qi q with packets := (s.qi q).packets.map fun e => if e.seq = p.seq then p else e } := by
  rw [State.setPacket, State.qi_setQi_self]

/-- A packet that is written and then ends is written as ended. -/
theorem map_replace_endIf {p : Packet} (h : p.result = none) (l : List Packet) (r : BitVec 8 × Word) (k : Nat) :
    (l.map fun e => if e.seq = p.seq then p else e).map (Packet.endIf p.seq r k) = l.map fun e => if e.seq = p.seq then p.ended r k else e := by
  rw [List.map_map]
  refine List.map_congr_left fun e _ => ?_
  by_cases he : e.seq = p.seq
  · simp [he, Packet.endIf_of_open h]
  · simp [he, Packet.endIf_of_ne he]

theorem Qi.packet_seq {x : Qi} {n : Nat} {p : Packet} (h : x.packet n = some p) : p.seq = n := by simpa using List.find?_some h

theorem Qi.packet_mem {x : Qi} {n : Nat} {p : Packet} (h : x.packet n = some p) : p ∈ x.packets := List.mem_of_find?_eq_some h

/-- A packet's number is that of no other packet. -/
theorem Qi.eq_of_seq {x : Qi} {n : Nat} {p e : Packet} (hd : (x.packets.map (·.seq)).Nodup) (hp : x.packet n = some p) (he : e ∈ x.packets)
    (hn : e.seq = n) : e = p :=
  List.inj_on_of_nodup_map hd he (Qi.packet_mem hp) (hn.trans (Qi.packet_seq hp).symm)

/-- A packet that is written ends like any other. -/
theorem map_endIf_of_packet {x : Qi} {n : Nat} {p : Packet} (hd : (x.packets.map (·.seq)).Nodup) (hp : x.packet n = some p)
    (ho : p.result = none) (r : BitVec 8 × Word) (k : Nat) :
    x.packets.map (Packet.endIf n r k) = x.packets.map fun e => if e.seq = n then p.ended r k else e := by
  refine List.map_congr_left fun e he => ?_
  split
  · rename_i hn
    obtain rfl := Qi.eq_of_seq hd hp he hn
    rw [← hn, Packet.endIf_of_open ho]
  · exact Packet.endIf_of_ne ‹_› r k

/-! ## Packets that end together -/

/-- The packets ps once those of a list have ended, one after the other from the k-th on. -/
def endAll (r : Packet → BitVec 8 × Word) : Nat → List Packet → List Packet → List Packet
  | _, [], ps => ps
  | k, e :: l, ps => endAll r (k + 1) l (ps.map (Packet.endIf e.seq (r e) k))

section
variable {r : Packet → BitVec 8 × Word} {p : Packet}

@[simp] theorem length_endAll (k : Nat) (l ps : List Packet) : (endAll r k l ps).length = ps.length := by
  induction l generalizing k ps with
  | nil => rfl
  | cons e l ih => simp [endAll, ih]

/-- A packet that has ended, or has the number of none in the list, stays as it is. -/
theorem mem_endAll_of_stays {k : Nat} {l ps : List Packet} (hp : p ∈ ps) (h : p.result ≠ none ∨ ∀ e ∈ l, e.seq ≠ p.seq) : p ∈ endAll r k l ps := by
  induction l generalizing k ps with
  | nil => exact hp
  | cons e l ih =>
    refine ih (List.mem_map.mpr ⟨p, hp, ?_⟩) (h.imp_right fun h e he => h e (List.mem_cons_of_mem _ he))
    rcases h with h | h
    · exact Packet.endIf_of_ended h _ _ _
    · exact Packet.endIf_of_ne (h e List.mem_cons_self).symm _ _

/-- A packet that has not ended ends with what the list has for its number. -/
theorem mem_endAll_ended {k : Nat} {l ps : List Packet} {v : BitVec 8 × Word} (hp : p ∈ ps) (ho : p.result = none) (hl : ∃ e ∈ l, e.seq = p.seq)
    (hv : ∀ e ∈ l, e.seq = p.seq → r e = v) : ∃ f, p.ended v f ∈ endAll r k l ps := by
  induction l generalizing k ps with
  | nil => simp at hl
  | cons e l ih =>
    by_cases he : e.seq = p.seq
    · refine ⟨k, mem_endAll_of_stays (ps := ps.map _) (List.mem_map.mpr ⟨p, hp, ?_⟩) (.inl (by simp))⟩
      rw [he, hv e List.mem_cons_self he, Packet.endIf_of_open ho]
    · refine ih (List.mem_map.mpr ⟨p, hp, Packet.endIf_of_ne (Ne.symm he) _ _⟩) ?_ fun e' h' => hv e' (List.mem_cons_of_mem _ h')
      obtain ⟨e', h', hs⟩ := hl
      rcases List.mem_cons.mp h' with rfl | h'
      · exact absurd hs he
      · exact ⟨e', h', hs⟩

end

/-- A packet ends with what r has for it; where m holds of it, its TAG is FAILED. -/
def State.endWith (q : Fin 64) (r : Packet → BitVec 8 × Word) (m : Packet → Bool) (s : State) (p : Packet) : State :=
  (if m p then s.markTag q p.tag (r p).1 else s).finishPacket q p.seq (r p).1 (r p).2

/-- What the ending of a list of packets does to their interface. -/
structure State.EndsAll (q : Fin 64) (r : Packet → BitVec 8 × Word) (m : Packet → Bool) (l : List Packet) (s t : State) : Prop where
  frame : QiFrame q s t
  nextId : t.nextId = s.nextId + l.length
  qi : t.qi q = { s.qi q with packets := endAll r s.nextId l (s.qi q).packets, failed := (t.qi q).failed }
  failed : ∀ tag, tag ∈ (t.qi q).failed ↔ tag ∈ (s.qi q).failed ∨ ∃ p ∈ l, m p = true ∧ tag = p.tag

section
variable {q : Fin 64} {r : Packet → BitVec 8 × Word} {m : Packet → Bool}

theorem State.endWith_frame (s : State) (p : Packet) : QiFrame q s (s.endWith q r m p) := by
  refine QiFrame.trans (t := if m p then s.markTag q p.tag (r p).1 else s) ?_ (State.finishPacket_frame _ _ _ _ _)
  split
  · exact s.markTag_frame _ _ _
  · exact .refl q s

@[simp] theorem State.nextId_endWith (s : State) (p : Packet) : (s.endWith q r m p).nextId = s.nextId + 1 := by
  unfold State.endWith
  split <;> rfl

theorem State.qi_endWith {p : Packet} (h : (r p).1 ≠ 0) (s : State) : (s.endWith q r m p).qi q =
    { s.qi q with packets := (s.qi q).packets.map (Packet.endIf p.seq (r p) s.nextId),
                  failed := if m p then p.tag :: (s.qi q).failed.filter (· != p.tag) else (s.qi q).failed } := by
  rw [State.endWith, State.qi_finishPacket]
  split
  · rw [State.qi_markTag h]
    rfl
  · rfl

theorem State.endsAll_foldl (l : List Packet) (h : ∀ p ∈ l, (r p).1 ≠ 0) (s : State) :
    EndsAll q r m l s (l.foldl (fun s p => s.endWith q r m p) s) := by
  induction l generalizing s with
  | nil => exact ⟨.refl q s, rfl, rfl, by simp⟩
  | cons p l ih =>
    obtain ⟨hframe, hid, hqi, hfailed⟩ := ih (fun p hp => h p (List.mem_cons_of_mem _ hp)) (s.endWith q r m p)
    have hfirst := State.qi_endWith (q := q) (m := m) (h p List.mem_cons_self) s
    refine ⟨(s.endWith_frame p).trans hframe, ?_, ?_, fun tag => ?_⟩
    · rw [List.foldl_cons, hid, State.nextId_endWith, List.length_cons, Nat.add_assoc, Nat.add_comm 1]
    · rw [List.foldl_cons, hqi, hfirst, State.nextId_endWith]
      rfl
    · rw [List.foldl_cons, hfailed, hfirst]
      by_cases hm : m p = true
      · simp only [hm, if_true, mem_markTag, List.exists_mem_cons_iff, true_and, or_assoc]
      · simp [hm]

end

/-! ## Completions -/

/-- The first word of a completion entry (spec/04 R63). -/
def Qi.entry (x : Qi) (tag : BitVec 16) (op : Nat) (st : BitVec 8) : Word :=
  BitVec.ofNat 64 ((if x.cqPass % 2 = 0 then 1 else 0) + st.toNat * 2 ^ 8 + op % 256 * 2 ^ 24 + x.sqHead % 65536 * 2 ^ 32 + tag.toNat * 2 ^ 48)

theorem bits_lt (w : Word) (lo n : Nat) : bits w lo n < 2 ^ n := Nat.mod_lt _ (Nat.two_pow_pos n)

theorem Packet.op_lt (p : Packet) : p.op < 256 := bits_lt _ 0 8

theorem Packet.tag_toNat (p : Packet) : p.tag.toNat = bits (p.words.getD 0 0) 48 16 := by
  rw [Packet.tag, BitVec.toNat_ofNat, Nat.mod_eq_of_lt (bits_lt _ 48 16)]

theorem Qi.entry_eq (x : Qi) (tag : BitVec 16) {op : Nat} (h : op < 256) (st : BitVec 8) : x.entry tag op st =
    natW ((if x.cqPass % 2 = 0 then 1 else 0) + st.toNat * 2 ^ 8 + op * 2 ^ 24 + x.sqHead % 65536 * 2 ^ 32 + tag.toNat * 2 ^ 48) := by
  rw [Qi.entry, Nat.mod_eq_of_lt h]
  rfl

/-- The completion entry of a packet holds its OP and its TAG. -/
theorem Qi.entry_packet (x : Qi) (p : Packet) (st : BitVec 8) : x.entry p.tag p.op st =
    natW ((if x.cqPass % 2 = 0 then 1 else 0) + st.toNat * 2 ^ 8 + bits (p.words.getD 0 0) 0 8 * 2 ^ 24 + x.sqHead % 65536 * 2 ^ 32 +
      bits (p.words.getD 0 0) 48 16 * 2 ^ 48) := by
  rw [Qi.entry_eq _ _ p.op_lt, p.tag_toNat]
  rfl

/-- The completion entry of no packet. -/
theorem Qi.entry_bare (x : Qi) (st : BitVec 8) : x.entry 0 0 st =
    natW ((if x.cqPass % 2 = 0 then 1 else 0) + st.toNat * 2 ^ 8 + x.sqHead % 65536 * 2 ^ 32) := by
  rw [Qi.entry_eq _ _ (by decide)]
  simp

/-- An interface that has written a completion. -/
def Qi.completed (x : Qi) (st : BitVec 8) : Qi :=
  { x with cqTail := (x.cqTail + 1) % x.cqSize, cqPass := if (x.cqTail + 1) % x.cqSize = 0 then x.cqPass + 1 else x.cqPass,
           err := if st = 0 then x.err else st }

/-- The message that follows a completion: none where the vector is masked. -/
def State.follows (s : State) (q : Fin 64) : List HostWrite :=
  if (s.qi q).ien = true ∧ (s.vector q.val).masked = false then [.msix q] else []

/-- What a completion that is written does. -/
structure State.Completes (q : Fin 64) (tag : BitVec 16) (op : Nat) (st : BitVec 8) (res : Word) (s t : State) : Prop where
  mem : t.mem = s.mem
  cores : t.cores = s.cores
  mgmt : t.mgmt = s.mgmt
  now : t.now = s.now
  qi : t.qi q = (s.qi q).completed st
  others : ∀ j, j ≠ q → t.qi j = s.qi j
  out : t.host.out = s.host.out ++ .completion q (s.qi q).cqTail ((s.qi q).entry tag op st) res :: s.follows q
  held : (s.qi q).ien = true → (s.vector q.val).masked = true → q.val ∈ t.host.pba

/-- A translation that enters the ATC changes nothing else. -/
theorem State.cacheXlat_eq (s : State) (pasid : BitVec 20) (iova : Word) :
    s.cacheXlat pasid iova = { s with host := { s.host with atc := (s.cacheXlat pasid iova).host.atc } } := by
  unfold State.cacheXlat
  split <;> rfl

theorem State.writeCompletion_completes {s : State} (hf : s.mgmt.fatal = none) (q : Fin 64) (tag : BitVec 16) (op : Nat) (st : BitVec 8)
    (res : Word) : Completes q tag op st res s (s.writeCompletion q tag op st res) := by
  let x := s.qi q
  let t : State := ((s.setQi q (x.completed st)).cacheXlat x.pasid (x.cqBase + BitVec.ofNat 64 (16 * x.cqTail))).hostOut
    (.completion q x.cqTail (x.entry tag op st) res)
  have ht : s.writeCompletion q tag op st res = if x.ien then t.raise q else t := by
    simp only [State.writeCompletion, hf, Option.isSome_none, Bool.false_eq_true, if_false]
    rfl
  have hqi (j : Fin 64) : t.qi j = (s.setQi q (x.completed st)).qi j := by
    simp only [t]
    rw [State.cacheXlat_eq]
    rfl
  have hout : t.host.out = s.host.out ++ [.completion q x.cqTail (x.entry tag op st) res] := by
    simp only [t]
    rw [State.cacheXlat_eq]
    rfl
  have hrest : t.mem = s.mem ∧ t.cores = s.cores ∧ t.mgmt = s.mgmt ∧ t.now = s.now ∧ t.vector q.val = s.vector q.val := by
    simp only [t]
    rw [State.cacheXlat_eq]
    exact ⟨rfl, rfl, rfl, rfl, rfl⟩
  obtain ⟨hmem, hcores, hmgmt, hnow, hvector⟩ := hrest
  have hself : t.qi q = x.completed st := by rw [hqi, State.qi_setQi_self]
  have hothers (j : Fin 64) (hj : j ≠ q) : t.qi j = s.qi j := by rw [hqi, State.qi_setQi_of_ne _ _ hj]
  rw [ht]
  by_cases hien : x.ien = true
  · by_cases hmask : (s.vector q.val).masked = true
    · by_cases hpba : q.val ∈ t.host.pba
      · have hraise : t.raise q = t := by simp [State.raise, hvector, hmask, hpba]
        rw [if_pos hien, hraise]
        exact ⟨hmem, hcores, hmgmt, hnow, hself, hothers, by rw [hout]; simp [State.follows, hmask, x], fun _ _ => hpba⟩
      · have hraise : t.raise q = { t with host := { t.host with pba := t.host.pba ++ [q.val] } } := by
          simp [State.raise, hvector, hmask, hpba]
        rw [if_pos hien, hraise]
        exact ⟨hmem, hcores, hmgmt, hnow, hself, hothers, hout.trans (by simp [State.follows, hmask, x]), fun _ _ => by simp⟩
    · have hraise : t.raise q = t.hostOut (.msix q) := by simp [State.raise, hvector, hmask]
      rw [if_pos hien, hraise]
      refine ⟨hmem, hcores, hmgmt, hnow, hself, hothers, ?_, fun _ h => absurd h hmask⟩
      show t.host.out ++ _ = _
      rw [hout]
      simp [State.follows, hmask, x, show (s.qi q).ien = true from hien]
  · rw [if_neg hien]
    exact ⟨hmem, hcores, hmgmt, hnow, hself, hothers, by rw [hout]; simp [State.follows, show ¬ (s.qi q).ien = true from hien, x],
      fun h => absurd h hien⟩

/-- The completion of a packet that has ended goes out after those that ended before it (spec/04 R63). -/
theorem State.completePacket_of_first {s : State} {q : Fin 64} {n : Nat} {p : Packet} {st : BitVec 8} {res : Word}
    (hp : (s.qi q).packet n = some p) (hr : p.result = some (st, res)) (hdone : (s.qi q).cancelDone p = true)
    (hfirst : (s.qi q).finishedBefore p = false) : s.completePacket q n =
      ((s.setQi q { s.qi q with packets := (s.qi q).packets.filter (·.seq ≠ n) }).writeCompletion q p.tag p.op st res).closeQi q := by
  simp [State.completePacket, hp, hr, hdone, hfirst]

theorem State.closeQi_of_open {s : State} {q : Fin 64} (h : (s.qi q).closing = false) : s.closeQi q = s := by simp [State.closeQi, h]

theorem State.closeQi_of_closing {s : State} {q : Fin 64} (h : (s.qi q).closing = true) (hp : (s.qi q).packets = []) :
    s.closeQi q = s.setQi q { s.qi q with st := .disabled, closing := false, rereadAt := none } := by simp [State.closeQi, h, hp]

end Sys2Proof.Machine
end

section
/-!
SUPPORT. Negotiation, the states of a queue interface, revocation, link security and translation (spec/04 R50 to R62): what each event of the
host port does, in the terms of the layer above.
-/

namespace Sys2Proof.Machine

/-! ## Negotiation (R54, R55) -/

/-- A word has no bit beside its low n ones just where it is below 2^n. -/
theorem and_not_low_eq_zero_iff (w : Word) (n : Nat) : w &&& ~~~(BitVec.ofNat 64 (2 ^ n - 1)) = 0 ↔ w.toNat < 2 ^ n := by
  have hbit (i : Nat) : (w &&& ~~~(BitVec.ofNat 64 (2 ^ n - 1))).getLsbD i = (w.getLsbD i && !decide (i < n)) := by
    simp only [BitVec.getLsbD_and, BitVec.getLsbD_not, BitVec.getLsbD_ofNat, Nat.testBit_two_pow_sub_one]
    by_cases hi : i < 64
    · simp [hi]
    · simp [BitVec.getLsbD_of_ge w i (Nat.not_lt.mp hi)]
  constructor
  · intro h
    refine Nat.lt_pow_two_of_testBit _ fun i hi => ?_
    have hz : (w.getLsbD i && !decide (i < n)) = false := by rw [← hbit, h]; exact BitVec.getLsbD_zero
    rw [← BitVec.getLsbD]
    simpa [Nat.not_lt.mpr hi] using hz
  · intro h
    refine BitVec.eq_of_getLsbD_eq fun i _ => ?_
    rw [hbit, show (0 : Word).getLsbD i = false from BitVec.getLsbD_zero]
    by_cases hin : i < n
    · simp [hin]
    · have hz : w.getLsbD i = false := Nat.testBit_lt_two_pow (Nat.lt_of_lt_of_le h (Nat.pow_le_pow_right (by decide) (Nat.not_lt.mp hin)))
      simp [hz]

/-- FEATURES_OK is kept where only offered bits are accepted, BASE is, and PRI is not accepted without ATS. -/
theorem featuresGood_iff (f : Vector Word 4) : featuresGood f = true ↔
    f[(0 : Fin 4)].toNat < 128 ∧ f[(1 : Fin 4)] = 0 ∧ f[(2 : Fin 4)] = 0 ∧ f[(3 : Fin 4)] = 0 ∧ bit f[(0 : Fin 4)] 0 = true ∧
      (bit f[(0 : Fin 4)] 2 = true → bit f[(0 : Fin 4)] 1 = true) := by
  have h0 : f[(0 : Fin 4)] &&& ~~~(Config.featDev 0) = 0 ↔ f[(0 : Fin 4)].toNat < 128 := and_not_low_eq_zero_iff _ 7
  have hj (j : BitVec 2) (w : Word) (h : j ≠ 0) : w &&& ~~~(Config.featDev j) = 0 ↔ w = 0 := by
    rw [Config.featDev, if_neg (by simpa using h)]
    exact (and_not_low_eq_zero_iff w 0).trans (by simp [← BitVec.toNat_inj])
  have hall : ((List.finRange 4).all fun i => f[i] &&& ~~~(Config.featDev (BitVec.ofNat 2 i.val)) == 0) = true ↔
      f[(0 : Fin 4)].toNat < 128 ∧ f[(1 : Fin 4)] = 0 ∧ f[(2 : Fin 4)] = 0 ∧ f[(3 : Fin 4)] = 0 := by
    simp only [List.finRange, List.ofFn_succ, List.ofFn_zero, List.all_cons, List.all_nil, Bool.and_true, Bool.and_eq_true, beq_iff_eq]
    exact and_congr h0 (and_congr (hj 1 _ (by decide)) (and_congr (hj 2 _ (by decide)) (hj 3 _ (by decide))))
  have hpri : (!bit f[(0 : Fin 4)] 2 || bit f[(0 : Fin 4)] 1) = true ↔ (bit f[(0 : Fin 4)] 2 = true → bit f[(0 : Fin 4)] 1 = true) := by
    cases bit f[(0 : Fin 4)] 2 <;> simp
  rw [featuresGood, Bool.and_eq_true, Bool.and_eq_true, hall, hpri]
  simp only [and_assoc]

theorem State.feature_iff (s : State) (i : Nat) : s.feature i = true ↔ s.host.featOk = true ∧ bit s.host.featDrv[(0 : Fin 4)] i = true := by
  simp [State.feature]

/-! ## Notify pages (R53) -/

/-- A notify register of an interface that is not ACTIVE ignores its writes. -/
theorem exec_notify_of_inactive {s : State} {q : Fin 64} (h : (s.qi q).st ≠ .active) (v : BitVec 32) :
    exec (.sqTail q v) s = .next s ∧ exec (.cqHead q v) s = .next s := by
  constructor
  · show execSqTail q v s = _
    simp [execSqTail, h, ok]
  · show execCqHead q v s = _
    simp [execCqHead, h, ok]

/-- An ACTIVE interface takes an index of its ring as SQ_TAIL and counts anything else. -/
theorem exec_sqTail_of_active {s : State} {q : Fin 64} (h : (s.qi q).st = .active) (v : BitVec 32) :
    exec (.sqTail q v) s = .next (s.setQi q (if v.toNat < (s.qi q).sqSize ∧ v.toNat < 65536
      then { s.qi q with sqTail := v } else { s.qi q with errors := (s.qi q).errors + 1 })) := by
  show execSqTail q v s = _
  by_cases hv : v.toNat < (s.qi q).sqSize ∧ v.toNat < 65536
  · simp [execSqTail, h, ok, hv]
  · have hv' : (s.qi q).sqSize ≤ v.toNat ∨ 65536 ≤ v.toNat := by omega
    simp [execSqTail, h, ok, hv, hv']

theorem exec_cqHead_of_active {s : State} {q : Fin 64} (h : (s.qi q).st = .active) (v : BitVec 32) :
    exec (.cqHead q v) s = .next (s.setQi q (if v.toNat < (s.qi q).cqSize ∧ v.toNat < 65536
      then { s.qi q with cqHead := v } else { s.qi q with errors := (s.qi q).errors + 1 })) := by
  show execCqHead q v s = _
  by_cases hv : v.toNat < (s.qi q).cqSize ∧ v.toNat < 65536
  · simp [execCqHead, h, ok, hv]
  · have hv' : (s.qi q).cqSize ≤ v.toNat ∨ 65536 ≤ v.toNat := by omega
    simp [execCqHead, h, ok, hv, hv']

/-! ## Enabling and disabling (R56) -/

/-- The sizes of both rings are in range. -/
theorem Qi.logsOk_iff (x : Qi) (big : Bool) : x.logsOk big = true ↔
    6 ≤ x.sqLog2.toNat ∧ x.sqLog2.toNat ≤ (if big then 16 else 12) ∧ 6 ≤ x.cqLog2.toNat ∧ x.cqLog2.toNat ≤ (if big then 16 else 12) := by
  simp [Qi.logsOk, and_assoc]

/-- An interface after EN := 1 where its fields are in range. -/
def Qi.enabled (x : Qi) : Qi :=
  { x with st := .active, sqHead := 0, cqTail := 0, sqPass := 0, cqPass := 0, sqTail := 0, cqHead := 0, failed := [],
           rereadAt := none, rereads := 0, nextSeq := 0, packets := [], past := [] }

theorem State.enableQi_of_good {s : State} {q : Fin 64} (hd : (s.qi q).st = .disabled) (hok : s.host.featOk = true)
    (hl : (s.qi q).logsOk (s.feature 4) = true) : s.enableQi q = s.setQi q (s.qi q).enabled := by
  simp only [State.enableQi, hd, hok, hl, ne_eq, not_true, if_false, Bool.and_true, if_true]
  rfl

theorem State.enableQi_of_bad {s : State} {q : Fin 64} (hd : (s.qi q).st = .disabled)
    (hb : (s.host.featOk && (s.qi q).logsOk (s.feature 4)) = false) : s.enableQi q = s.setQi q { s.qi q with err := 3 } := by
  simp [State.enableQi, hd, hb]

/-- An interface without packets is disabled at once. -/
theorem State.disableQi_of_idle {s : State} {q : Fin 64} (hp : (s.qi q).packets = []) :
    s.disableQi q = if (s.qi q).st = .disabled then s else s.setQi q { s.qi q with st := .disabled, closing := false, rereadAt := none } := by
  unfold State.disableQi
  split
  · rfl
  · simp [State.cancelAll, hp, State.closeQi]

theorem State.disableQi_frame_of_idle {s : State} {q : Fin 64} (hp : (s.qi q).packets = []) : QiFrame q s (s.disableQi q) := by
  rw [State.disableQi_of_idle hp]
  split
  · exact .refl q s
  · exact s.setQi_frame q _

theorem State.disableQi_disables_idle {s : State} {q : Fin 64} (hp : (s.qi q).packets = []) :
    ((s.disableQi q).qi q).st = .disabled ∧ ((s.disableQi q).qi q).packets = [] := by
  rw [State.disableQi_of_idle hp]
  split
  · exact ⟨‹_›, hp⟩
  · simp [hp]

/-- Status and RESULT of a packet that is cancelled (log 70). -/
def Packet.cancelled (p : Packet) : BitVec 8 × Word := (6, if p.started then natW p.moved else 0)

/-- A LAUNCH that is withdrawn before it starts sets its TAG's FAILED bit. -/
def Packet.withdrawn (p : Packet) : Bool := !p.started && p.op = 3

/-- What cancelling does to a packet that no launch runs for. -/
theorem State.cancelPacket_of_open {s : State} {p : Packet} (ho : p.result = none) (hl : p.started = true → p.op ≠ 3) (q : Fin 64) :
    s.cancelPacket q p = s.endWith q Packet.cancelled Packet.withdrawn p := by
  cases hs : p.started
  · simp [State.cancelPacket, State.endWith, Packet.cancelled, Packet.withdrawn, ho, hs]
  · simp [State.cancelPacket, State.endWith, Packet.cancelled, Packet.withdrawn, ho, hs, hl hs, natW]

/-- EN := 0 with one packet that has not started: its completion is written with status 6, and the interface is DISABLED. -/
theorem State.disableQi_of_unstarted {s : State} {q : Fin 64} {p : Packet} (hd : (s.qi q).st ≠ .disabled) (hp : (s.qi q).packets = [p])
    (ho : p.result = none) (hs : p.started = false) (hf : s.mgmt.fatal = none) :
    (s.disableQi q).mem = s.mem ∧ ((s.disableQi q).qi q).st = .disabled ∧ ((s.disableQi q).qi q).packets = [] ∧
      (s.disableQi q).host.out = s.host.out ++ .completion q (s.qi q).cqTail ((s.qi q).entry p.tag p.op 6) 0 :: s.follows q := by
  have hcancel : s.cancelAll q = s.endWith q Packet.cancelled Packet.withdrawn p := by
    simp only [State.cancelAll, hp, List.foldl_cons, List.foldl_nil]
    exact State.cancelPacket_of_open ho (fun h => by simp [hs] at h) q
  let v := s.endWith q Packet.cancelled Packet.withdrawn p
  have hv : v.qi q = { s.qi q with packets := [p.ended (6, 0) s.nextId], failed := (v.qi q).failed } := by
    have h := State.qi_endWith (q := q) (r := Packet.cancelled) (m := Packet.withdrawn) (p := p) (by simp [Packet.cancelled]) s
    have hr : p.cancelled = (6, 0) := by simp [Packet.cancelled, hs]
    rw [hp, List.map_singleton, Packet.endIf_of_open ho, hr] at h
    rw [show v.qi q = _ from h]
  let w := v.setQi q { v.qi q with closing := true, rereadAt := none }
  have hw : (w.qi q).packets = [p.ended (6, 0) s.nextId] := by
    rw [State.qi_setQi_self, hv]
  have hdisable : s.disableQi q = (w.completePacket q p.seq).closeQi q := by
    have hseqs : (w.qi q).packets.map (·.seq) = [p.seq] := by rw [hw]; rfl
    unfold State.disableQi
    rw [if_neg hd, hcancel]
    show ((List.range ((w.qi q).packets.map (·.seq)).length).foldl
      (fun s _ => ((w.qi q).packets.map (·.seq)).foldl (fun s n => s.completePacket q n) s) w).closeQi q = _
    rw [hseqs]
    rfl
  have hfound : (w.qi q).packet p.seq = some (p.ended (6, 0) s.nextId) := by
    rw [Qi.packet, hw]
    simp [Packet.ended]
  have hdone : (w.qi q).cancelDone (p.ended (6, 0) s.nextId) = true := by
    simp [Qi.cancelDone]
  have hfirst : (w.qi q).finishedBefore (p.ended (6, 0) s.nextId) = false := by simp [Qi.finishedBefore, hw]
  let u := w.setQi q { w.qi q with packets := (w.qi q).packets.filter (·.seq ≠ p.seq) }
  have hframe : QiFrame q s u := ((s.endWith_frame p).trans (v.setQi_frame q _)).trans (w.setQi_frame q _)
  have hu : u.qi q = { s.qi q with packets := [], failed := (v.qi q).failed, closing := true, rereadAt := none } := by
    rw [State.qi_setQi_self, hw, State.qi_setQi_self, hv]
    simp [Packet.ended]
  have hc := State.writeCompletion_completes (s := u) (by rw [hframe.mgmt]; exact hf) q p.tag p.op 6 0
  let c := u.writeCompletion q p.tag p.op 6 0
  have hclosing : (c.qi q).closing = true ∧ (c.qi q).packets = [] := by
    rw [hc.qi, hu]
    exact ⟨rfl, rfl⟩
  have ht : s.disableQi q = c.setQi q { c.qi q with st := .disabled, closing := false, rereadAt := none } := by
    rw [hdisable, State.completePacket_of_first hfound rfl hdone hfirst]
    show (c.closeQi q).closeQi q = _
    rw [State.closeQi_of_closing hclosing.1 hclosing.2, State.closeQi_of_open (by rw [State.qi_setQi_self])]
  rw [ht, State.qi_setQi_self]
  refine ⟨hc.mem.trans hframe.mem, rfl, hclosing.2, hc.out.trans ?_⟩
  rw [hframe.out, State.follows, hframe.vector, hu]
  rfl

end Sys2Proof.Machine
end

section
/-!
SUPPORT. Resets, revocation, link security and page responses (spec/04 R50, R52, R54, R59, R60).
-/

namespace Sys2Proof.Machine

/-! ## Resets (R54) -/

/-- Interfaces without packets are disabled one after the other. -/
theorem State.disableAll_of_idle (l : List (Fin 64)) (s : State) (hp : ∀ q, (s.qi q).packets = []) :
    l.foldl State.disableQi s = { s with
      nextId := (l.foldl State.disableQi s).nextId, host := { s.host with qis := (l.foldl State.disableQi s).host.qis } } ∧
    ∀ q, q ∈ l ∨ (s.qi q).st = .disabled → ((l.foldl State.disableQi s).qi q).st = .disabled := by
  induction l generalizing s with
  | nil => exact ⟨rfl, by simp⟩
  | cons i l ih =>
    have hframe := State.disableQi_frame_of_idle (hp i)
    obtain ⟨hst, hpackets⟩ := State.disableQi_disables_idle (hp i)
    obtain ⟨hrest, hdisabled⟩ := ih (s.disableQi i) fun q => by
      by_cases hq : q = i
      · rw [hq, hpackets]
      · rw [hframe.others q hq, hp q]
    refine ⟨by rw [List.foldl_cons, hrest, hframe.rest], fun q hq => hdisabled q ?_⟩
    by_cases hqi : q = i
    · exact .inr (hqi ▸ hst)
    · rw [hframe.others q hqi]
      exact hq.imp_left fun h => (List.mem_cons.mp h).resolve_left hqi

/-- A reset of a function without packets in work sends nothing, and every feature, translation and binding is gone. -/
theorem State.resetHost_of_idle {s : State} (hp : ∀ q, (s.qi q).packets = []) : s.resetHost.mem = s.mem ∧ s.resetHost.cores = s.cores ∧
    (∀ q, (s.resetHost.qi q).st = .disabled) ∧ s.resetHost.host.featOk = false ∧ s.resetHost.host.featBad = false ∧
    s.resetHost.host.featDrv = Vector.replicate 4 0 ∧ s.resetHost.host.atc = [] ∧ s.resetHost.host.streams = [] ∧
    s.resetHost.host.out = s.host.out := by
  obtain ⟨hrest, hdisabled⟩ := State.disableAll_of_idle queues s hp
  unfold State.resetHost
  generalize queues.foldl State.disableQi s = u at hrest hdisabled
  exact ⟨by rw [hrest], by rw [hrest], fun q => hdisabled q (.inl (List.mem_finRange q)), rfl, rfl, rfl, rfl, rfl, by rw [hrest]⟩

/-! ## Revocation (R59) -/

/-- Several refusals are logged. -/
def State.logRefusals (s : State) (q : Fin 64) (l : List Packet) : State :=
  { s with host := { s.host with refusals := s.host.refusals ++ l.map fun p => (q.val, p.seq) } }

/-- What a REVOKE does to a packet that has not started. -/
theorem State.refusePacket_of_unstarted {s : State} {q : Fin 64} {p : Packet} (hs : p.started = false) :
    s.refusePacket q p = some ((s.endWith q (fun _ => (1, 0)) (fun p => p.op = 3) p).logRefusal q p.seq) := by
  simp [State.refusePacket, State.endWith, hs]

theorem State.endWith_logRefusal (s : State) (q : Fin 64) (r : Packet → BitVec 8 × Word) (m : Packet → Bool) (n : Nat) (p : Packet) :
    (s.logRefusal q n).endWith q r m p = (s.endWith q r m p).logRefusal q n := by
  unfold State.endWith
  split <;> rfl

/-- A log of refusals may wait until every packet has ended. -/
theorem State.foldl_endWith_logRefusal (q : Fin 64) (r : Packet → BitVec 8 × Word) (m : Packet → Bool) (l : List Packet) (s : State) :
    l.foldl (fun s p => (s.endWith q r m p).logRefusal q p.seq) s = (l.foldl (fun s p => s.endWith q r m p) s).logRefusals q l := by
  have hcomm (l : List Packet) (s : State) (n : Nat) :
      l.foldl (fun s p => s.endWith q r m p) (s.logRefusal q n) = (l.foldl (fun s p => s.endWith q r m p) s).logRefusal q n := by
    induction l generalizing s with
    | nil => rfl
    | cons p l ih => rw [List.foldl_cons, State.endWith_logRefusal, ih, List.foldl_cons]
  induction l generalizing s with
  | nil => simp [State.logRefusals]
  | cons p l ih =>
    rw [List.foldl_cons, ih, hcomm, List.foldl_cons]
    simp [State.logRefusals, State.logRefusal, List.append_assoc]

/-- An interface that is REVOKED, before anything becomes of its packets. -/
def State.revoking (s : State) (q : Fin 64) : State := s.setQi q { s.qi q with st := .revoked, rereadAt := none }

/-- What a REVOKE does to a packet. -/
def State.revokePacket (q : Fin 64) (s : State) (p : Packet) : State :=
  if p.result.isSome then s else (s.refusePacket q p).getD (s.cancelPacket q p)

theorem State.revokeQi_eq {s : State} {q : Fin 64} (hst : (s.qi q).st = .active ∨ (s.qi q).st = .error) :
    s.revokeQi q = ((s.qi q).packets.foldl (State.revokePacket q) (s.revoking q)).flushPasid (s.qi q).pasid := by
  unfold State.revokeQi
  rw [if_neg (by rcases hst with h | h <;> simp [h])]
  rfl

/-- Where no packet in work has started, a REVOKE ends each with status 1, one after the other. -/
theorem State.revokeQi_eq_of_unstarted {s : State} {q : Fin 64} (hst : (s.qi q).st = .active ∨ (s.qi q).st = .error)
    (hs : ∀ p ∈ (s.qi q).packets, p.result = none → p.started = false) :
    let l := (s.qi q).packets.filter fun p => p.result.isNone
    s.revokeQi q = ((l.foldl (fun s p => s.endWith q (fun _ => (1, 0)) (fun p => p.op = 3) p) (s.revoking q)).logRefusals q l).flushPasid
      (s.qi q).pasid := by
  intro l
  have hfold : (s.qi q).packets.foldl (State.revokePacket q) (s.revoking q) =
      l.foldl (fun s p => (s.endWith q (fun _ => (1, 0)) (fun p => p.op = 3) p).logRefusal q p.seq) (s.revoking q) := by
    rw [List.foldl_filter]
    refine List.foldl_ext _ _ _ fun t p hp => ?_
    cases hr : p.result with
    | some v => simp [State.revokePacket, hr]
    | none => simp [State.revokePacket, hr, State.refusePacket_of_unstarted (hs p hp hr)]
  rw [State.revokeQi_eq hst, hfold, State.foldl_endWith_logRefusal]

/-- What a REVOKE does where no packet in work has started: those without a result end with status 1 and are logged, the TAGs of the LAUNCHes
among them are FAILED, and the PASID's translations are gone. -/
theorem State.revokeQi_of_unstarted {s : State} {q : Fin 64} (hst : (s.qi q).st = .active ∨ (s.qi q).st = .error)
    (hs : ∀ p ∈ (s.qi q).packets, p.result = none → p.started = false) :
    let x := s.qi q
    let t := s.revokeQi q
    t.mem = s.mem ∧ t.cores = s.cores ∧ t.host.out = s.host.out ∧ t.host.atc = s.host.atc.filter (fun e => e.1 != x.pasid) ∧
      t.host.refusals = s.host.refusals ++ (x.packets.filter fun p => p.result.isNone).map (fun p => (q.val, p.seq)) ∧
      { t.qi q with packets := [], failed := [] } = { x with st := .revoked, rereadAt := none, packets := [], failed := [] } ∧
      (∀ tag, tag ∈ (t.qi q).failed ↔ tag ∈ x.failed ∨ ∃ p ∈ x.packets, p.result = none ∧ p.op = 3 ∧ tag = p.tag) ∧
      (t.qi q).packets.length = x.packets.length ∧
      ∀ p ∈ x.packets, (p.result = none → ∃ f, p.ended (1, 0) f ∈ (t.qi q).packets) ∧ (p.result ≠ none → p ∈ (t.qi q).packets) := by
  intro x t
  have ht : t = _ := State.revokeQi_eq_of_unstarted hst hs
  have hu := State.endsAll_foldl (q := q) (r := fun _ => (1, 0)) (m := fun p => p.op = 3) (x.packets.filter fun p => p.result.isNone)
    (fun _ _ => by decide) (s.revoking q)
  have hqi : (s.revoking q).qi q = { x with st := .revoked, rereadAt := none } := s.qi_setQi_self q _
  have hopen (p : Packet) : p ∈ x.packets.filter (fun p => p.result.isNone) ↔ p ∈ x.packets ∧ p.result = none := by simp
  rw [ht]
  generalize (x.packets.filter fun p => p.result.isNone).foldl _ (s.revoking q) = u at hu
  show u.mem = _ ∧ u.cores = _ ∧ u.host.out = _ ∧ u.host.atc.filter _ = _ ∧ u.host.refusals ++ _ = _ ∧
    ({ u.qi q with packets := [], failed := [] } : Qi) = _ ∧ (∀ tag, tag ∈ (u.qi q).failed ↔ _) ∧ (u.qi q).packets.length = _ ∧
    ∀ p ∈ x.packets, (p.result = none → ∃ f, p.ended (1, 0) f ∈ (u.qi q).packets) ∧ (p.result ≠ none → p ∈ (u.qi q).packets)
  refine ⟨hu.frame.mem, hu.frame.cores, hu.frame.out, congrArg _ hu.frame.atc, congrArg (· ++ _) hu.frame.refusals, ?_, fun tag => ?_, ?_,
    fun p hp => ⟨fun ho => ?_, fun ho => ?_⟩⟩
  · rw [hu.qi, hqi]
  · rw [hu.failed, hqi]
    exact or_congr_right (exists_congr fun p => by rw [hopen, and_assoc, decide_eq_true_iff])
  · rw [hu.qi, length_endAll, hqi]
  · rw [hu.qi, hqi]
    exact mem_endAll_ended hp ho ⟨p, (hopen p).mpr ⟨hp, ho⟩, rfl⟩ fun _ _ _ => rfl
  · rw [hu.qi, hqi]
    exact mem_endAll_of_stays hp (.inl ho)

/-! ## A launch that is revoked before it runs (log 117) -/

/-- What a launch that is forgotten leaves alone, as long as nothing is spilled. -/
structure State.ForgetFrame (s t : State) : Prop where
  mem : t.mem = s.mem
  cores : t.cores = s.cores
  sched : t.sched = s.sched
  host : t.host = s.host
  nextId : t.nextId = s.nextId
  spilled : t.spilled = s.spilled

theorem State.ForgetFrame.trans {s t u : State} (h : ForgetFrame s t) (k : ForgetFrame t u) : ForgetFrame s u :=
  ⟨k.mem.trans h.mem, k.cores.trans h.cores, k.sched.trans h.sched, k.host.trans h.host, k.nextId.trans h.nextId, k.spilled.trans h.spilled⟩

theorem State.ForgetFrame.qi {s t : State} (h : ForgetFrame s t) (q : Fin 64) : t.qi q = s.qi q := by rw [State.qi, h.host, State.qi]

/-- With nothing spilled, items that go leave only their lists. -/
theorem State.dropItems_frame {s : State} (h : s.spilled = []) (gone : WorkItem → Bool) : ForgetFrame s (s.dropItems gone) := by
  have hrefill (t : State) (ht : t.spilled = []) (die : Nat) : t.refill die = t := by simp [State.refill, ht]
  have hall (l : List Nat) (t : State) (ht : t.spilled = []) : l.foldl State.refill t = t := by
    induction l with
    | nil => rfl
    | cons i l ih => rw [List.foldl_cons, hrefill t ht, ih]
  simp only [State.dropItems, h, List.foldl_nil]
  rw [hall _ _ rfl]
  exact ⟨rfl, rfl, rfl, rfl, rfl, h.symm⟩

theorem State.releaseSaved_frame (s : State) (l : Launch) : ForgetFrame s (s.releaseSaved l) := by
  simp only [State.releaseSaved]
  split_ifs <;> exact ⟨rfl, rfl, rfl, rfl, rfl, rfl⟩

theorem State.forgetLaunch_frame {s : State} (h : s.spilled = []) (l : Launch) : ForgetFrame s (s.forgetLaunch l) := by
  have hsaved := s.releaseSaved_frame l
  unfold State.forgetLaunch
  refine hsaved.trans (ForgetFrame.trans ?_ (State.dropItems_frame ?_ _))
  · exact ⟨rfl, rfl, rfl, rfl, rfl, rfl⟩
  · exact hsaved.spilled.trans h

/-- A launch that is closed with a status other than 0: its packet ends, its TAG is FAILED, and nothing is written. -/
structure State.Closes (l : Launch) (st : BitVec 8) (res : Word) (s t : State) : Prop where
  mem : t.mem = s.mem
  cores : t.cores = s.cores
  launches : t.sched.launches = (s.setLaunch { l with st := .ended }).sched.launches
  host : t.host = { s.host with qis := t.host.qis }
  qi : t.qi l.queue = { s.qi l.queue with
    packets := (s.qi l.queue).packets.map (Packet.endIf l.pseq (st, res) s.nextId)
    failed := l.tag :: (s.qi l.queue).failed.filter (· != l.tag) }

theorem State.Closes.launch {l : Launch} {st : BitVec 8} {res : Word} {s t : State} (h : Closes l st res s t) (hl : s.sched.launches = [l]) :
    t.launch l.lid = none := by
  rw [State.launch, h.launches, State.setLaunch]
  simp only [hl, List.map_singleton]
  split <;> simp_all

theorem State.closeLaunch_closes {s : State} (h : s.spilled = []) (l : Launch) {st : BitVec 8} (hst : st ≠ 0) (res : Word) :
    Closes l st res s (s.closeLaunch l st res) := by
  have hmark := State.markTag_frame l.queue (s.setLaunch { l with st := .ended }) l.tag st
  have hforget := State.forgetLaunch_frame (s := (s.setLaunch { l with st := .ended }).markTag l.queue l.tag st) h l
  have hend := State.finishPacket_frame l.queue (((s.setLaunch { l with st := .ended }).markTag l.queue l.tag st).forgetLaunch l) l.pseq st res
  refine ⟨hend.mem.trans (hforget.mem.trans hmark.mem), hend.cores.trans (hforget.cores.trans hmark.cores),
    congrArg Sched.launches (hend.sched.trans (hforget.sched.trans hmark.sched)), ?_, ?_⟩
  · refine (congrArg State.host hend.rest).trans ?_
    rw [hforget.host]
    rfl
  · refine (State.qi_finishPacket _ _ _ _ _).trans ?_
    rw [hforget.qi, hforget.nextId, State.qi_markTag hst]
    rfl

/-- What a REVOKE does while the one packet in work is a LAUNCH without a bind: its launch is closed with status 1. -/
theorem State.revokeQi_of_launch {s : State} {q : Fin 64} {p : Packet} {l : Launch} (hst : (s.qi q).st = .active ∨ (s.qi q).st = .error)
    (hp : (s.qi q).packets = [p]) (ho : p.result = none) (hs : p.started = true) (hl : s.sched.launches = [l]) (hq : l.queue = q)
    (hseq : l.pseq = p.seq) (hwaits : l.st = .pending ∨ l.st = .ready) (hsaved : l.saved = false) (hspilled : s.spilled = []) :
    let t := s.revokeQi q
    t.mem = s.mem ∧ t.cores = s.cores ∧ t.host.out = s.host.out ∧ t.launch l.lid = none ∧
      t.host.refusals = s.host.refusals ++ [(q.val, p.seq)] ∧ (t.qi q).st = .revoked ∧ l.tag ∈ (t.qi q).failed ∧
      (t.qi q).packets = [p.ended (1, 0) s.nextId] := by
  subst hq
  intro t
  have hlaunches : (s.revoking l.queue).sched.launches = [l] := hl
  have hrefuse : (s.revoking l.queue).refusePacket l.queue p = some (((s.revoking l.queue).closeLaunch l 1 0).logRefusal l.queue p.seq) := by
    simp [State.refusePacket, hs, hlaunches, hseq, hwaits, hsaved]
  have ht : t = (((s.revoking l.queue).closeLaunch l 1 0).logRefusal l.queue p.seq).flushPasid (s.qi l.queue).pasid := by
    simp only [t]
    rw [State.revokeQi_eq hst, hp, List.foldl_cons, List.foldl_nil, State.revokePacket, hrefuse]
    simp [ho]
  have hc := State.closeLaunch_closes (s := s.revoking l.queue) hspilled l (st := 1) (by decide) 0
  have hqi : (s.revoking l.queue).qi l.queue = { s.qi l.queue with st := .revoked, rereadAt := none } := s.qi_setQi_self _ _
  rw [ht]
  generalize (s.revoking l.queue).closeLaunch l 1 0 = u at hc
  show u.mem = _ ∧ u.cores = _ ∧ u.host.out = _ ∧ u.launch l.lid = none ∧ u.host.refusals ++ _ = _ ∧ (u.qi l.queue).st = _ ∧
    l.tag ∈ (u.qi l.queue).failed ∧ (u.qi l.queue).packets = _
  rw [hc.host, hc.qi, hqi]
  refine ⟨hc.mem, hc.cores, rfl, hc.launch hl, rfl, rfl, List.mem_cons_self, ?_⟩
  show (s.qi l.queue).packets.map _ = _
  rw [hp, hseq, List.map_singleton, Packet.endIf_of_open ho]
  rfl

/-! ## Link security (R50, R52) -/

/-- An interface whose traffic used the failed stream. -/
def Qi.failedIde (x : Qi) : Qi := if x.st = .active then Qi.completed { x with st := .error, rereadAt := none } 9 else x

/-- What the failure of a stream does to an interface that used it. -/
theorem State.ideError_spec {s : State} (hf : s.mgmt.fatal = none) (q : Fin 64) :
    (s.ideError q).mem = s.mem ∧ (s.ideError q).cores = s.cores ∧ (s.ideError q).mgmt = (s.logEvent 7 q.val).mgmt ∧
      (s.ideError q).qi q = (s.qi q).failedIde ∧ ∀ j, j ≠ q → (s.ideError q).qi j = s.qi j := by
  by_cases ha : (s.qi q).st = .active
  · have hc := State.writeCompletion_completes (s := s.setQi q { s.qi q with st := .error, rereadAt := none }) hf q 0 0 9 0
    have he : s.ideError q = ((s.setQi q { s.qi q with st := .error, rereadAt := none }).writeCompletion q 0 0 9 0).logEvent 7 q.val := by
      simp [State.ideError, ha]
    rw [he]
    refine ⟨hc.mem, hc.cores, ?_, ?_, fun j hj => (hc.others j hj).trans (s.qi_setQi_of_ne _ hj)⟩
    · simp only [State.logEvent, State.us]
      rw [hc.mgmt, hc.now]
      rfl
    · rw [Qi.failedIde, if_pos ha]
      exact hc.qi.trans (by rw [State.qi_setQi_self])
  · have he : s.ideError q = s.logEvent 7 q.val := by simp [State.ideError, ha]
    rw [he]
    exact ⟨rfl, rfl, rfl, by rw [Qi.failedIde, if_neg ha]; rfl, fun _ _ => rfl⟩

/-- An ACTIVE interface that used it writes a completion of status 9. -/
theorem State.ideError_out {s : State} (hf : s.mgmt.fatal = none) (q : Fin 64) :
    ((s.qi q).st ≠ .active → (s.ideError q).host.out = s.host.out) ∧
    ((s.qi q).st = .active → (s.ideError q).host.out = s.host.out ++ .completion q (s.qi q).cqTail ((s.qi q).entry 0 0 9) 0 :: s.follows q) := by
  constructor <;> intro ha
  · simp [State.ideError, ha]
  · have hc := State.writeCompletion_completes (s := s.setQi q { s.qi q with st := .error, rereadAt := none }) hf q 0 0 9 0
    have he : s.ideError q = ((s.setQi q { s.qi q with st := .error, rereadAt := none }).writeCompletion q 0 0 9 0).logEvent 7 q.val := by
      simp [State.ideError, ha]
    rw [he]
    refine hc.out.trans ?_
    rw [State.follows, State.qi_setQi_self]
    rfl

/-- Interfaces that used it, one after the other. -/
theorem State.ideErrors_spec {l : List (Fin 64)} (hn : l.Nodup) {s : State} (hf : s.mgmt.fatal = none) :
    (l.foldl State.ideError s).mem = s.mem ∧ (l.foldl State.ideError s).cores = s.cores ∧
      ∀ j, (l.foldl State.ideError s).qi j = if j ∈ l then (s.qi j).failedIde else s.qi j := by
  induction l generalizing s with
  | nil => exact ⟨rfl, rfl, by simp⟩
  | cons i l ih =>
    obtain ⟨hi, hn⟩ := List.nodup_cons.mp hn
    obtain ⟨hmem, hcores, hmgmt, hself, hothers⟩ := State.ideError_spec hf i
    obtain ⟨hmem', hcores', hqi⟩ := ih hn (s := s.ideError i) (by rw [hmgmt]; exact hf)
    refine ⟨hmem'.trans hmem, hcores'.trans hcores, fun j => ?_⟩
    rw [List.foldl_cons, hqi]
    by_cases hj : j = i
    · rw [hj, if_neg hi, if_pos List.mem_cons_self, hself]
    · simp [hj, hothers j hj]

/-- The interfaces that the failure of a stream reaches. -/
def State.reached (s : State) (stream : Option (Fin 4)) (qs : List (Fin 64)) : List (Fin 64) :=
  (List.finRange 64).filter fun q => s.usedStream q stream || (qs.contains q && s.streamOf q = stream)

theorem State.mem_reached (s : State) (stream : Option (Fin 4)) (qs : List (Fin 64)) (q : Fin 64) :
    q ∈ s.reached stream qs ↔ s.usedStream q stream = true ∨ q ∈ qs ∧ s.streamOf q = stream := by
  simp [State.reached]

theorem State.nodup_reached (s : State) (stream : Option (Fin 4)) (qs : List (Fin 64)) : (s.reached stream qs).Nodup :=
  (List.nodup_finRange 64).filter _

/-- Traffic used a stream: the one its interface uses, or one that it used before. -/
theorem State.usedStream_iff (s : State) (q : Fin 64) (stream : Option (Fin 4)) : s.usedStream q stream = true ↔
    (s.qi q).st ≠ .disabled ∧
      ((((s.qi q).nextSeq ≠ 0 ∨ (s.qi q).rereadAt ≠ none) ∧ s.streamOf q = stream) ∨ stream ∈ (s.qi q).past) := by
  simp [State.usedStream, Qi.hadTraffic, Option.isSome_iff_ne_none]

theorem exec_ideIntegrityFailure {s : State} {stream : Option (Fin 4)} (h : stream = none ∨ s.feature 3 = true) (qs : List (Fin 64)) :
    exec (.ideIntegrityFailure stream qs) s = ok (if stream.isNone || (s.reached stream qs).isEmpty
      then ((s.reached stream qs).foldl State.ideError s).logEvent 7 0xFF else (s.reached stream qs).foldl State.ideError s) := by
  show execIdeIntegrityFailure stream qs s = _
  rw [execIdeIntegrityFailure, if_neg]
  · rfl
  · rcases h with h | h <;> simp [h]

/-- Whatever it is logged as, a failure changes just the interfaces that it reaches. -/
theorem exec_ideIntegrityFailure_reaches {s : State} {stream : Option (Fin 4)} (h : stream = none ∨ s.feature 3 = true) (qs : List (Fin 64))
    (hf : s.mgmt.fatal = none) : ∃ t : State, exec (.ideIntegrityFailure stream qs) s = .next t ∧ t.mem = s.mem ∧ t.cores = s.cores ∧
      ∀ j, t.qi j = if j ∈ s.reached stream qs then (s.qi j).failedIde else s.qi j := by
  refine ⟨_, exec_ideIntegrityFailure h qs, ?_⟩
  split
  · exact State.ideErrors_spec (s.nodup_reached stream qs) hf
  · exact State.ideErrors_spec (s.nodup_reached stream qs) hf

/-- A failure that reaches no interface is logged as 0xFF (log 105). -/
theorem exec_ideIntegrityFailure_of_none {s : State} {stream : Option (Fin 4)} (h : stream = none ∨ s.feature 3 = true) {qs : List (Fin 64)}
    (hr : ∀ j, j ∉ s.reached stream qs) : exec (.ideIntegrityFailure stream qs) s = .next (s.logEvent 7 0xFF) := by
  rw [exec_ideIntegrityFailure h qs, List.eq_nil_iff_forall_not_mem.mpr hr]
  simp [ok]

/-- A failure of a selective stream that reaches one interface is logged as that interface's. -/
theorem exec_ideIntegrityFailure_of_one {s : State} {stream : Option (Fin 4)} (hs : stream ≠ none) (h : s.feature 3 = true) {qs : List (Fin 64)}
    {q : Fin 64} (hr : ∀ j, j ∈ s.reached stream qs ↔ j = q) : exec (.ideIntegrityFailure stream qs) s = .next (s.ideError q) := by
  have hone : s.reached stream qs = [q] := List.perm_singleton.mp
    ((List.perm_ext_iff_of_nodup (s.nodup_reached stream qs) (List.nodup_singleton q)).mpr fun j => by simp [hr])
  rw [exec_ideIntegrityFailure (.inr h) qs, hone]
  simp [ok, hs]

/-- An event joins a log that has room for it. -/
theorem State.logEvent_plog {s : State} (h : s.mgmt.plog.length < 262144) (code : BitVec 8) (subject : Nat) :
    (s.logEvent code subject).mgmt.plog =
      s.mgmt.plog ++ [.event code (BitVec.ofNat 24 subject) (BitVec.ofNat 48 (s.now / 1800))] := by
  simp only [State.logEvent, logPut, if_pos h]
  rfl

/-! ## Page responses (R60) -/

theorem exec_pageRequestResponse_of_none {s : State} {q : Fin 64} {page : Word} (h : (q.val, pageOf page) ∉ s.host.pageReqs) (good : Bool) :
    exec (.pageRequestResponse q page good) s = .next s := by
  show execPageRequestResponse q page good s = _
  simp [execPageRequestResponse, h, ok]

/-- The answer to a page request reaches the one packet in work: it goes on, or fails with status 4. -/
theorem exec_pageRequestResponse_of_one {s : State} {q : Fin 64} {page i : Word} {p : Packet} (h : (q.val, pageOf page) ∈ s.host.pageReqs)
    (hp : (s.qi q).packets = [p]) (hw : p.waitPage = some i) (hi : pageOf i = pageOf page) (ho : p.result = none) (good : Bool) :
    let s' : State := { s with host := { s.host with pageReqs := s.host.pageReqs.erase (q.val, pageOf page) } }
    let y : Packet := if good then { p with waitPage := none, retried := pageOf page :: p.retried } else p.ended (4, i) s.nextId
    ∃ t : State, exec (.pageRequestResponse q page good) s = .next t ∧ State.QiFrame q s' t ∧ (t.qi q).packets = [y] := by
  intro s' y
  have hp' : (s'.qi q).packets = [p] := hp
  have he : exec (.pageRequestResponse q page good) s = .next (if good
      then s'.setPacket q { p with waitPage := none, retried := pageOf page :: p.retried } else s'.finishPacket q p.seq 4 i) := by
    show execPageRequestResponse q page good s = _
    rw [execPageRequestResponse, if_pos (by simpa using h)]
    show ok ((s'.qi q).packets.foldl _ s') = _
    simp [hp', hw, hi, ok]
  refine ⟨_, he, ?_, ?_⟩
  · split
    · exact s'.setPacket_frame q _
    · exact s'.finishPacket_frame q _ _ _
  · cases good
    · simp [y, State.qi_finishPacket, hp', Packet.endIf_of_open ho, s']
    · simp [y, State.qi_setPacket, hp']

end Sys2Proof.Machine
end

section
/-!
O57: negotiation, notify pages, the states of an interface, revocation, link security, resets and translation.
-/

namespace Sys2Proof.Proofs

open Sys2Proof.Machine

/-- Settles O57, clause by clause from what each event does. -/
theorem hostFunctions : Obligations.HostFunctions := by
  unfold Obligations.HostFunctions
  refine ⟨?_, ?_, ?_, ?_, ?_, ?_⟩
  · intro s f good
    have hgood : featuresGood s.host.featDrv = true ↔ good := featuresGood_iff _
    refine ⟨fun h => ?_, fun h hg => ?_, fun h hg => ?_⟩
    · show execFeaturesOk s = _
      simp [execFeaturesOk, h, ok]
    · show execFeaturesOk s = _
      simp [execFeaturesOk, h, ok, hgood.mpr hg]
    · show execFeaturesOk s = _
      simp [execFeaturesOk, h, ok, Bool.eq_false_iff.mpr (mt hgood.mp hg)]
  · intro q v s x inRing
    refine ⟨fun h => exec_notify_of_inactive h v, fun h => ⟨fun hv => ?_, fun hv => ?_, fun hv => ?_, fun hv => ?_⟩⟩
    · exact (exec_sqTail_of_active h v).trans (congrArg (fun x => ok (s.setQi q x)) (if_pos hv))
    · exact (exec_sqTail_of_active h v).trans (congrArg (fun x => ok (s.setQi q x)) (if_neg hv))
    · exact (exec_cqHead_of_active h v).trans (congrArg (fun x => ok (s.setQi q x)) (if_pos hv))
    · exact (exec_cqHead_of_active h v).trans (congrArg (fun x => ok (s.setQi q x)) (if_neg hv))
  · intro q s x limit sizes
    have hlimit : (if s.feature 4 = true then 16 else 12) = limit := if_congr (s.feature_iff 4) rfl rfl
    have hsizes : x.logsOk (s.feature 4) = true ↔ sizes := by rw [Qi.logsOk_iff, hlimit]
    refine ⟨fun h => ?_, fun h hok hs => ?_, fun h hb => ?_, fun h => ?_, fun h hp => ?_, fun p h hp ho hu _ hf => ?_, fun h h' => ?_,
      fun h hu => ?_, fun p l h hp ho hu hop hl hq hseq hst hsaved hspill => ?_, ?_⟩
    · show ok (s.enableQi q) = _
      simp [State.enableQi, ok, show (s.qi q).st ≠ .disabled from h]
    · refine ⟨s.enableQi q, rfl, ?_⟩
      rw [State.enableQi_of_good h hok (hsizes.mpr hs)]
      exact ⟨rfl, rfl, (s.setQi_frame q _).others, s.qi_setQi_self q _⟩
    · show ok (s.enableQi q) = _
      rw [State.enableQi_of_bad h]
      · rfl
      · rw [Bool.and_eq_false_iff]
        exact hb.imp_right fun hs => Bool.eq_false_iff.mpr (mt hsizes.mp hs)
    · show ok (s.disableQi q) = _
      rw [State.disableQi, if_pos h]
      rfl
    · refine ⟨s.disableQi q, rfl, ?_⟩
      rw [State.disableQi_of_idle hp, if_neg h]
      exact ⟨rfl, rfl, (s.setQi_frame q _).others, s.qi_setQi_self q _⟩
    · obtain ⟨hmem, hst, hpackets, hout⟩ := State.disableQi_of_unstarted h hp ho hu hf
      exact ⟨s.disableQi q, rfl, hmem, hst, hpackets, by rw [hout, Qi.entry_packet]; rfl⟩
    · show ok (s.revokeQi q) = _
      simp [State.revokeQi, ok, show (s.qi q).st ≠ .active from h, show (s.qi q).st ≠ .error from h']
    · refine ⟨s.revokeQi q, rfl, ?_⟩
      simpa only [Packet.op, Packet.tag, Packet.ended] using State.revokeQi_of_unstarted h hu
    · exact ⟨s.revokeQi q, s.nextId, rfl, State.revokeQi_of_launch h hp ho hu hl hq hseq hst hsaved hspill⟩
    · intro ide bound uses stream hf hroom logs
      have hide : s.feature 3 = true ↔ ide := s.feature_iff 3
      have hbound (j : Fin 64) : s.streamOf j = bound j := if_congr hide rfl rfl
      have huses (j : Fin 64) : s.usedStream j stream = true ↔ uses stream j := by rw [State.usedStream_iff, hbound]
      have hreached (qs : List (Fin 64)) (j : Fin 64) : j ∈ s.reached stream qs ↔ uses stream j ∨ (j ∈ qs ∧ bound j = stream) := by
        rw [State.mem_reached, huses, hbound]
      have hlog (subject : Nat) : logs (s.logEvent 7 subject) subject := State.logEvent_plog (by omega) 7 subject
      refine ⟨fun hs hi => ?_, fun qs h => ?_, fun hs hi hno hq => ?_, fun hs hi hno hq => ?_, fun hs hno => ?_⟩
      · show execIdeIntegrityFailure stream [q] s = _
        rw [execIdeIntegrityFailure, if_pos (by simp [Option.isSome_iff_ne_none, hs, Bool.eq_false_iff.mpr (mt hide.mp hi)])]
        rfl
      · obtain ⟨t, ht, hmem, hcores, hqi⟩ := exec_ideIntegrityFailure_reaches (h.imp_right hide.mpr) qs hf
        refine ⟨t, ht, hmem, hcores, fun j => ⟨fun hj ha => ?_, fun hn hj => ?_⟩⟩
        · rw [hqi, if_pos ((hreached qs j).mpr hj), Qi.failedIde, if_pos ha]
          exact ⟨rfl, rfl, rfl⟩
        · rw [hqi, if_neg fun hr => ((hreached qs j).mp hr).elim hn fun h => hj.elim (· h.1) (· h.2)]
      · refine ⟨_, exec_ideIntegrityFailure_of_none (.inr (hide.mpr hi)) fun j hj => ?_, rfl, hlog 0xFF⟩
        refine ((hreached _ j).mp hj).elim (hno j) fun ⟨hjq, hb⟩ => hq ?_
        rwa [← List.mem_singleton.mp hjq]
      · obtain ⟨hmem, hcores, hmgmt, hself, -⟩ := State.ideError_spec hf q
        obtain ⟨hquiet, hwrites⟩ := State.ideError_out hf q
        refine ⟨s.ideError q, exec_ideIntegrityFailure_of_one hs (hide.mpr hi) fun j => ?_, hmem, hcores, ?_, fun ha => ?_, fun ha => ?_⟩
        · rw [hreached]
          refine ⟨fun hj => ?_, fun hj => ?_⟩
          · exact hj.elim (fun hu => by_contra fun hne => hno j hne hu) fun h => List.mem_singleton.mp h.1
          · rw [hj]
            exact hq.imp_right fun h => ⟨List.mem_singleton_self q, h⟩
        · show (s.ideError q).mgmt.plog = _
          rw [hmgmt]
          exact hlog q.val
        · exact ⟨by rw [hself, Qi.failedIde, if_neg ha], hquiet ha⟩
        · rw [hself, Qi.failedIde, if_pos ha]
          exact ⟨rfl, rfl, rfl, by rw [hwrites ha, Qi.entry_bare]; rfl⟩
      · subst hs
        refine ⟨_, exec_ideIntegrityFailure_of_none (.inl rfl) fun j hj => ?_, rfl, rfl, hlog 0xFF⟩
        exact ((hreached _ j).mp hj).elim (hno j) fun h => absurd h.1 List.not_mem_nil
  · intro s hp e he
    have hreset := State.resetHost_of_idle hp
    rcases List.mem_pair.mp he with rfl | rfl <;> exact ⟨s.resetHost, rfl, hreset⟩
  · intro pasid page s pg
    rfl
  · intro q page good s pg
    refine ⟨fun h => exec_pageRequestResponse_of_none h good, fun p i h hp hw hi ho => ?_⟩
    obtain ⟨t, ht, hframe, hpackets⟩ := exec_pageRequestResponse_of_one h hp hw hi ho good
    exact ⟨t, _, ht, hframe.mem, hframe.pageReqs, hpackets, rfl⟩

end Sys2Proof.Proofs
end

section
/-!
SUPPORT. What an engine's access never touches is the host port: neither its translation, nor the checks at home, nor the requests that its
write wakes, nor the way to another device. So a PUT or a GET changes the queue interfaces only by what the packet itself does.
-/

namespace Sys2Proof.Machine

/-! ## Logs, errors and memory -/

@[simp] theorem State.mend_host (s : State) (c : Crossing) : (s.mend c).host = s.host := rfl
@[simp] theorem State.correct_host (s : State) (a n : Nat) : (s.correct a n).host = s.host := rfl

@[simp] theorem State.logViolation_host (s : State) (die : Nat) (st : BitVec 4) (dev : Nat) (sys : BitVec 50) (core : Nat) (src : BitVec 4) :
    (s.logViolation die st dev sys core src).host = s.host := by
  simp only [State.logViolation]
  split_ifs <;> rfl

@[simp] theorem State.touch_host (s : State) (a n : Nat) : (s.touch a n).host = s.host := by
  unfold State.touch
  split
  · dsimp only
    split
    · rfl
    · split <;> rfl
  · rfl

@[simp] theorem State.store_host (s : State) (a n v : Nat) : (s.store a n v).host = s.host := by simp [State.store]

/-! ## Requests that a write wakes (spec/02 R32) -/

@[simp] theorem State.effect_host (s : State) (kind : AccKind) (fe : FeMode) (a : Nat) : (s.effect kind fe a).1.host = s.host := by
  cases kind with
  | load w => dsimp only [State.effect]; split <;> simp
  | store w d => dsimp only [State.effect]; split <;> simp
  | atomic op o c => simp [State.effect]
  | row d => simp [State.effect]

@[simp] theorem State.answer_host (s : State) (r : Req) (st : BitVec 4) (v : Word) : (s.answer r st v).host = s.host := by
  unfold State.answer
  split
  · simp
  · cases r.src with
    | core k h p =>
      dsimp only
      split
      · cases r.flight with
        | some f => simp
        | none => dsimp only; split <;> simp
      · simp
    | row k f d => dsimp only; split <;> simp
    | peer d k bare => simp [State.reply]
    | cache => simp
    | left k l => simp

@[simp] theorem State.refuse_host (s : State) (r : Req) (st : BitVec 4) : (s.refuse r st).host = s.host := by simp [State.refuse]

@[simp] theorem State.chargeAccess_host (s : State) (r : Req) (kind : AccKind) (a : Nat) : (s.chargeAccess r kind a).host = s.host := by
  unfold State.chargeAccess
  dsimp only
  split <;> split <;> simp

@[simp] theorem State.tryWaiting_host (s : State) (id : Nat) : (s.tryWaiting id).1.host = s.host := by
  unfold State.tryWaiting
  split
  · rfl
  · split
    · split <;> simp
    · rfl

@[simp] theorem State.examinePass_host (l : List Nat) (s : State) : (State.examinePass l s).1.host = s.host := by
  induction l generalizing s with
  | nil => rfl
  | cons id l ih => simp [State.examinePass, ih]

@[simp] theorem State.examineN_host (n w : Nat) (s : State) : (State.examineN n w s).host = s.host := by
  induction n generalizing s with
  | zero => rfl
  | succ n ih =>
    have hpass := State.examinePass_host ((s.net.filter (·.waitsAt s.own w)).map (·.id)) s
    unfold State.examineN
    split <;> rename_i he <;> rw [he] at hpass
    · exact (ih _).trans hpass
    · exact hpass

@[simp] theorem State.examine_host (s : State) (ws : List Nat) : (s.examine ws).host = s.host := by
  unfold State.examine
  induction ws generalizing s with
  | nil => rfl
  | cons w ws ih => rw [List.foldl_cons, ih, State.examineN_host]

@[simp] theorem State.engineWrite_host (s : State) (a n v : Nat) : (s.engineWrite a n v).host = s.host := by simp [State.engineWrite]

/-! ## Translation (spec/08 R117 to R122) -/

@[simp] theorem State.entryAt_host (s : State) (a : Nat) : (s.entryAt a).1.host = s.host := by
  unfold State.entryAt
  split <;> rfl

@[simp] theorem State.walkFrom_host (ctx : BitVec 12) (va : Nat) (l : List (Nat × Nat × Nat)) (s : State) (t : Nat) :
    (State.walkFrom ctx va l s t).1.host = s.host := by
  induction l generalizing s t with
  | nil => rfl
  | cons e l ih =>
    obtain ⟨nbits, entries, align⟩ := e
    have hentry := s.entryAt_host (t + 8 * (va / 2 ^ nbits % entries))
    unfold State.walkFrom
    split <;> rename_i he <;> rw [he] at hentry
    · exact hentry
    · split
      · exact hentry
      · exact (ih _ _).trans hentry
      · exact hentry

@[simp] theorem State.walk_host (s : State) (ctx : BitVec 12) (va : Nat) : (s.walk ctx va).1.host = s.host := by
  unfold State.walk
  dsimp only
  split <;> simp

@[simp] theorem State.leaf_host (s : State) (cl : Option Nat) (ctx : BitVec 12) (va : Nat) : (s.leaf cl ctx va).1.host = s.host := by
  have hwalk := s.walk_host ctx va
  unfold State.leaf
  split
  · exact hwalk
  · dsimp only
    split
    · rfl
    · split <;> rename_i he <;> rw [he] at hwalk <;> exact hwalk

@[simp] theorem State.xlate_host (s : State) (cl : Option Nat) (ctx : BitVec 12) (eng : Bool) (n : Need) (ga : Word) :
    (s.xlate cl ctx eng n ga).1.host = s.host := by
  have hleaf := s.leaf_host cl ctx (bits ga 0 48)
  unfold State.xlate
  split
  · split
    · rfl
    · split <;> rename_i he <;> rw [he] at hleaf
      · exact hleaf
      · split <;> exact hleaf
  · split <;> rfl
  · split <;> rfl
  · rfl

/-! ## Engine accesses (spec/02 R32, R33, spec/10 R147) -/

@[simp] theorem State.engRefuse_host (s : State) (e : Acc) (st : BitVec 4) (sys : BitVec 50) : (s.engRefuse e st sys).1.host = s.host := by
  simp [State.engRefuse]

@[simp] theorem State.engStand_host (s : State) (e : Acc) (sys : BitVec 50) : (s.engStand e sys).1.host = s.host := by
  unfold State.engStand
  split
  · split <;> simp
  · split <;> simp

@[simp] theorem State.noteStatus_host (s : State) (sent seen : BitVec 4) (sys : BitVec 50) (core : CoreIx) (src : BitVec 4) :
    (s.noteStatus sent seen sys core src).host = s.host := by
  unfold State.noteStatus
  split <;> simp

@[simp] theorem State.tagDrawn_host (s : State) (dev : Nat) : (s.tagDrawn dev).1.host = s.host := by
  unfold State.tagDrawn State.tagFails
  split
  · split
    · rename_i he
      split at he
      · cases he; rfl
      · cases he
    · rfl
  · rfl

@[simp] theorem State.writeBack_host (s : State) (sys : BitVec 50) (w : Word) : (s.writeBack sys w).host = s.host := by
  unfold State.writeBack
  dsimp only
  split
  · simp
  · split <;> simp

@[simp] theorem State.dropLine_host (s : State) (key : Nat) : (s.dropLine key).host = s.host := by
  have hfold (f : Nat → Bool) (g : Nat → BitVec 50) (h : Nat → Word) (l : List Nat) (t : State) :
      (l.foldl (fun s i => if f i then s.writeBack (g i) (h i) else s) t).host = t.host := by
    induction l generalizing t with
    | nil => rfl
    | cons i l ih =>
      rw [List.foldl_cons, ih]
      split <;> simp
  unfold State.dropLine
  split
  · rfl
  · exact hfold _ _ _ _ _

@[simp] theorem State.engSend_host (s : State) (e : Acc) (wr : Option Word) (sys : BitVec 50) (n : Nat) : (s.engSend e wr sys n).host = s.host := by
  unfold State.engSend State.engPacket
  dsimp only
  split <;> simp

@[simp] theorem State.engOverdue_host (s : State) (e : Acc) (wr : Option Word) (sys : BitVec 50) (n : Nat) :
    (s.engOverdue e wr sys n).1.host = s.host := by
  unfold State.engOverdue
  split
  · rfl
  · split <;> simp

@[simp] theorem State.engPeer_host (s : State) (e : Acc) (wr : Option Word) (sys : BitVec 50) (n : Nat) :
    (s.engPeer e wr sys n).1.host = s.host := by
  unfold State.engPeer
  split
  · simp
  · split
    · rfl
    · split
      · simp
      · dsimp only
        rw [apply_ite Prod.fst, ite_self]
        simp

@[simp] theorem State.engTarget_host (s : State) (e : Acc) (wr : Option Word) (ga : Word) (n : Nat) :
    (s.engTarget e wr ga n).1.host = s.host := by
  have hxlate := s.xlate_host e.cl e.ctx e.eng (if wr.isSome then .write else .read) ga
  unfold State.engTarget
  split <;> rename_i he <;> rw [he] at hxlate
  · exact hxlate
  · exact (State.engRefuse_host _ _ _ _).trans hxlate
  · refine Eq.trans ?_ hxlate
    split
    · simp
    · split
      · dsimp only
        split
        · simp
        · split
          · simp
          · split
            · simp
            · simp
            · split <;> simp
      · simp

theorem State.engRead_host (s : State) (e : Acc) (ga : Word) (n : Nat) : (s.engRead e ga n).1.host = s.host := by
  have htarget := s.engTarget_host e none ga n
  unfold State.engRead
  split <;> rename_i he <;> rw [he] at htarget
  · exact htarget
  · dsimp only
    split <;> simpa using htarget
  · simpa using htarget

theorem State.engWrite_host (s : State) (e : Acc) (ga : Word) (n v : Nat) : (s.engWrite e ga n v).1.host = s.host := by
  have htarget := s.engTarget_host e (some (BitVec.ofNat 64 (v % 2 ^ (8 * n)))) ga n
  unfold State.engWrite
  split <;> rename_i he <;> rw [he] at htarget
  · exact htarget
  · dsimp only
    split <;> simpa using htarget
  · simpa using htarget

/-! ## Chunks (spec/04 R61) -/

@[simp] theorem State.logPacket_host (s : State) (ga : Word) : (s.logPacket ga).host = s.host := by simp [State.logPacket]

/-- Bytes of a PUT that are written leave the host port alone. -/
theorem State.moveIn_host (a : Acc) (bs : List Byte) (s : State) (ga : Word) : (State.moveIn a bs s ga).1.host = s.host := by
  induction bs generalizing s ga with
  | nil => rfl
  | cons b bs ih =>
    have hwrite := s.engWrite_host a ga 1 b.toNat
    unfold State.moveIn
    split
    · simp
    · split <;> rename_i he <;> rw [he] at hwrite
      · exact hwrite
      · exact hwrite
      · exact (ih _ _).trans hwrite

/-- Bytes of a GET that are read leave the host port alone. -/
theorem State.moveOut_host (a : Acc) (n : Nat) (s : State) (ga : Word) : (State.moveOut a n s ga).1.host = s.host := by
  induction n generalizing s ga with
  | zero => rfl
  | succ n ih =>
    have hread := s.engRead_host a ga 1
    unfold State.moveOut
    split
    · simp
    · split <;> rename_i he <;> rw [he] at hread
      · exact hread
      · exact hread
      · rename_i t b
        have hrest := ih t (ga + 1)
        split <;> rename_i hn <;> rw [hn] at hrest <;> exact hrest.trans hread

end Sys2Proof.Machine
end

section
/-!
SUPPORT. Packets from fetch to completion (spec/04 R57 to R63): what makes a packet valid and well formed, what a fetch that takes one does,
when a packet may start, what a CANCEL ends and which completion is next.
-/

namespace Sys2Proof.Machine

/-! ## Fetching (R57, R59) -/

/-- A PASID is barred while an interface of it stands REVOKED (log 104). -/
theorem State.revoked_iff (s : State) (pasid : BitVec 20) : s.revoked pasid = true ↔ ∃ e ∈ s.host.qis, e.2.st = .revoked ∧ e.2.pasid = pasid := by
  simp [State.revoked]

theorem dw_eq_dword (v : Vec) (i : Nat) : dw v i = dword v i := rfl

theorem packetValid_iff (bytes : BitVec 512) (pass : Nat) : packetValid bytes pass = true ↔
    (bit (dword bytes 0) 40 = true ↔ pass % 2 = 0) ∧ bits (dword bytes 7) 48 16 = crc16 bytes 62 := by
  have hphase : (bit (dw bytes 0) 40 == (pass % 2 == 0)) = true ↔ (bit (dw bytes 0) 40 = true ↔ pass % 2 = 0) := by
    rw [beq_iff_eq, Bool.eq_iff_iff, beq_iff_eq]
  rw [packetValid, Bool.and_eq_true, hphase, beq_iff_eq, eq_comm (a := crc16 bytes 62), dw_eq_dword, dw_eq_dword]

/-- The rules of R57 for the fields of a packet. -/
theorem packetFormed_iff (w : Nat → Word) :
    let op := bits (w 0) 0 8
    packetFormed ((List.range 8).map w) = true ↔ bits (w 0) 8 11 = 0 ∧ bits (w 7) 0 48 = 0 ∧ w 5 = 0 ∧ w 6 = 0 ∧ op ≤ 4 ∧
      (op ≠ 3 → bits (w 0) 41 7 = 0) ∧ (op = 0 → w 1 = 0 ∧ w 2 = 0 ∧ w 3 = 0 ∧ w 4 = 0) ∧
      (op = 1 → bits (w 2) 48 16 = 0) ∧ (op = 1 ∨ op = 2 → bits (w 3) 32 32 = 0 ∧ bits (w 3) 0 32 ≠ 0 ∧ w 4 = 0) ∧
      (op = 3 → bits (w 0) 44 4 ≤ 8 ∧ ∀ i, i < 8 → bits (w 0) 44 4 ≤ i → bits (w (3 + i / 4)) (16 * (i % 4)) 16 = 0) ∧
      (op = 4 → bits (w 1) 16 48 = 0 ∧ w 2 = 0 ∧ w 3 = 0 ∧ w 4 = 0) := by
  intro op
  let ws := (List.range 8).map w
  have hword (i : Nat) (hi : i < 8) : ws.getD i 0 = w i := by simp [ws, List.getD, hi]
  have hlaunch : bits (w 0) 41 7 = 0 ↔ bits (w 0) 44 4 = 0 ∧ bits (w 0) 41 3 = 0 := by
    simp only [bits]
    omega
  have hdeps : (List.range 8).all (fun i => i < bits (w 0) 44 4 || bits (ws.getD (3 + i / 4) 0) (16 * (i % 4)) 16 == 0) = true ↔
      ∀ i, i < 8 → bits (w 0) 44 4 ≤ i → bits (w (3 + i / 4)) (16 * (i % 4)) 16 = 0 := by
    simp only [List.all_eq_true, List.mem_range, Bool.or_eq_true, decide_eq_true_iff, beq_iff_eq, ← Nat.not_lt, imp_iff_not_or, not_not]
    exact forall_congr' fun i => or_congr_right' fun hi => by rw [hword (3 + i / 4) (by omega)]
  have hformed : packetFormed ws = (bits (w 0) 8 11 == 0 && bits (w 7) 0 48 == 0 && w 5 == 0 && w 6 == 0 &&
      (op == 3 || (bits (w 0) 44 4 == 0 && bits (w 0) 41 3 == 0)) &&
      (if op = 0 then w 1 == 0 && w 2 == 0 && w 3 == 0 && w 4 == 0
       else if op = 1 || op = 2 then (op == 2 || bits (w 2) 48 16 == 0) && bits (w 3) 32 32 == 0 && bits (w 3) 0 32 ≠ 0 && w 4 == 0
       else if op = 3 then
         bits (w 0) 44 4 ≤ 8 && (List.range 8).all fun i => i < bits (w 0) 44 4 || bits (ws.getD (3 + i / 4) 0) (16 * (i % 4)) 16 == 0
       else if op = 4 then bits (w 1) 16 48 == 0 && w 2 == 0 && w 3 == 0 && w 4 == 0
       else false)) := rfl
  rw [hformed, hlaunch]
  generalize (List.range 8).all _ = deps at hdeps ⊢
  clear_value op
  by_cases hop : op ≤ 4
  · interval_cases op <;> simp [hdeps, and_assoc]
  · have h0 : op ≠ 0 := by omega
    have h1 : op ≠ 1 := by omega
    have h2 : op ≠ 2 := by omega
    have h3 : op ≠ 3 := by omega
    have h4 : op ≠ 4 := by omega
    simp [hop, h0, h1, h2, h3, h4]

/-- The packet that a fetch finds in the words ws. -/
def Qi.fetched (x : Qi) (ws : List Word) (res : Option (BitVec 8 × Word)) (k : Nat) : Packet :=
  { seq := x.nextSeq, words := ws, started := false, moved := 0, retried := [], waitPage := none, result := res, fin := k }

/-- How a fetch ends a packet at once: a foreign PASID with status 1, a malformed one with status 3 (log 69). -/
def Qi.refusal (x : Qi) (ws : List Word) : Option (BitVec 8 × Word) :=
  if bits (ws.getD 0 0) 20 20 ≠ x.pasid.toNat then some (1, 0) else if packetFormed ws then none else some (3, 0)

/-- An interface that has taken a packet. -/
def Qi.taken (x : Qi) (ws : List Word) (res : Option (BitVec 8 × Word)) (k : Nat) : Qi :=
  let p := x.fetched ws res k
  let next := (x.sqHead + 1) % x.sqSize
  { x with sqHead := next, sqPass := if next = 0 then x.sqPass + 1 else x.sqPass, nextSeq := x.nextSeq + 1,
           failed := if p.op = 3 ∧ res ≠ none then p.tag :: x.failed.filter (· != p.tag) else x.failed,
           packets := x.packets ++ [p], rereads := 0, rereadAt := none }

/-- What a fetch that takes a packet does. -/
theorem State.takePacket_spec (s : State) (q : Fin 64) (bytes : BitVec 512) :
    let x := s.qi q
    let ws := (List.range 8).map (dw bytes)
    let t := s.takePacket q bytes
    t.mem = s.mem ∧ t.host.refusals = s.host.refusals ++ (if bits (ws.getD 0 0) 20 20 ≠ x.pasid.toNat then [(q.val, x.nextSeq)] else []) ∧
      t.host.out = s.host.out ∧ t.qi q = x.taken ws (x.refusal ws) s.nextId := by
  intro x ws t
  let res := x.refusal ws
  let p := x.fetched ws res s.nextId
  let y : Qi := { x.taken ws res s.nextId with failed := x.failed }
  let u := ({ s with nextId := s.nextId + 1 }.cacheXlat x.pasid (x.sqBase + BitVec.ofNat 64 (64 * x.sqHead))).setQi q y
  let v := if p.op = 3 && res.isSome then u.markTag q p.tag 1 else u
  have ht : t = if bits (ws.getD 0 0) 20 20 ≠ x.pasid.toNat then v.logRefusal q x.nextSeq else v := rfl
  have hu : u.mem = s.mem ∧ u.host.refusals = s.host.refusals ∧ u.host.out = s.host.out := by
    simp only [u]
    rw [State.cacheXlat_eq]
    exact ⟨rfl, rfl, rfl⟩
  obtain ⟨hmem, hrefusals, hout⟩ := hu
  have hv : QiFrame q u v ∧ v.qi q = x.taken ws res s.nextId := by
    by_cases hm : p.op = 3 ∧ res ≠ none
    · have hv : v = u.markTag q p.tag 1 := if_pos (by simpa [Option.isSome_iff_ne_none] using hm)
      rw [hv]
      refine ⟨u.markTag_frame q _ _, ?_⟩
      rw [State.qi_markTag (by decide), State.qi_setQi_self]
      simp only [y, Qi.taken]
      rw [if_pos hm]
    · have hv : v = u := if_neg (by simpa [Option.isSome_iff_ne_none] using hm)
      rw [hv]
      refine ⟨.refl q u, ?_⟩
      rw [State.qi_setQi_self]
      simp only [y, Qi.taken]
      rw [if_neg hm]
  obtain ⟨hframe, hqi⟩ := hv
  rw [ht]
  split
  · exact ⟨hframe.mem.trans hmem, congrArg (· ++ _) (hframe.refusals.trans hrefusals), hframe.out.trans hout, hqi⟩
  · exact ⟨hframe.mem.trans hmem, (hframe.refusals.trans hrefusals).trans (List.append_nil _).symm, hframe.out.trans hout, hqi⟩

/-- Whether an interface fetches. -/
theorem Qi.mayFetch_iff (x : Qi) : x.mayFetch = true ↔ x.st = .active ∧ x.closing = false ∧ x.sqHead ≠ x.sqTail.toNat ∧
    x.packets.length < 32 ∧ x.packets.length + x.cqUsed + 1 < x.cqSize := by
  simp [Qi.mayFetch, and_assoc]

section
variable {s : State} {q : Fin 64} {bytes : BitVec 512}

theorem exec_packetFetch_idle (h : ((s.qi q).mayFetch = true → s.revoked (s.qi q).pasid = true) ∨ (s.qi q).rereadAt ≠ none) :
    exec (.packetFetch q bytes) s = .next s := by
  show execPacketFetch q bytes s = _
  rw [execPacketFetch, if_pos]
  · rfl
  · rcases h with h | h
    · cases hm : (s.qi q).mayFetch
      · simp
      · simp [h hm]
    · simp [Option.isSome_iff_ne_none, h]

theorem exec_packetFetch_reads (hm : (s.qi q).mayFetch = true) (hb : s.revoked (s.qi q).pasid = false) (hr : (s.qi q).rereadAt = none) :
    exec (.packetFetch q bytes) s = .next (if packetValid bytes (s.qi q).sqPass then s.takePacket q bytes
      else s.setQi q { s.qi q with rereadAt := some s.now, rereads := 0 }) := by
  show execPacketFetch q bytes s = _
  simp [execPacketFetch, hm, hb, hr, ok, apply_ite (Host.Outcome.next (φ := Fault) (ρ := Refusal))]

theorem exec_packetReread_idle (h : (s.qi q).rereadAt = none ∨ s.revoked (s.qi q).pasid = true) :
    exec (.packetReread q bytes) s = .next s := by
  show execPacketReread q bytes s = _
  rcases h with h | h
  · simp [execPacketReread, h, ok]
  · unfold execPacketReread
    dsimp only
    split <;> simp [h, ok]

/-- A packet that was invalid is read again 1 µs later. -/
theorem exec_packetReread_reads {t0 : Nat} (hr : (s.qi q).rereadAt = some t0) (hb : s.revoked (s.qi q).pasid = false)
    (hst : (s.qi q).st = .active) (hc : (s.qi q).closing = false) : exec (.packetReread q bytes) s =
      .next (if s.now < t0 + 1800 then s
        else if packetValid bytes (s.qi q).sqPass then s.takePacket q bytes
        else if (s.qi q).rereads + 1 < 8 then s.setQi q { s.qi q with rereadAt := some s.now, rereads := (s.qi q).rereads + 1 }
        else (s.setQi q { s.qi q with st := .error, rereadAt := none, rereads := 8 }).writeCompletion q 0 0 2 (natW (s.qi q).sqHead)) := by
  show execPacketReread q bytes s = _
  simp [execPacketReread, hr, hst, hc, hb, ok, natW, apply_ite (Host.Outcome.next (φ := Fault) (ρ := Refusal)), show Config.ticksPerUs = 1800 from rfl]

end

end Sys2Proof.Machine
end

section
/-!
SUPPORT. Packets from their start to their completion (spec/04 R61 to R63).
-/

namespace Sys2Proof.Machine

/-! ## Starting (R61) -/

/-- The packets before one that hold it back. -/
theorem Qi.mayStart_iff (x : Qi) (p : Packet) : x.mayStart p = true ↔
    ∀ e ∈ x.packets, e.seq < p.seq → p.fen = false ∧ (p.op = 2 → e.op ≠ 1 ∧ e.op ≠ 3) ∧ (p.op = 3 → e.op ≠ 1) := by
  simp only [Qi.mayStart, List.all_eq_true, Bool.or_eq_true, Bool.and_eq_true, decide_eq_true_iff, Bool.not_eq_true', ← Nat.not_lt,
    imp_iff_not_or, and_assoc]

/-- What a packet needs to start by its OP, LAUNCH apart. -/
theorem State.startable_of_may {s : State} {q : Fin 64} {n op : Nat} {p : Packet} (hp : (s.qi q).packet n = some p) (h3 : op ≠ 3)
    (h : p.op = op ∧ p.started = false ∧ p.result = none ∧
      ∀ e ∈ (s.qi q).packets, e.seq < n → p.fen = false ∧ (op = 2 → e.op ≠ 1 ∧ e.op ≠ 3)) : s.startable q n op = some p := by
  obtain ⟨hop, hs, ho, hall⟩ := h
  have hmay : (s.qi q).mayStart p = true := (Qi.mayStart_iff _ _).mpr fun e he hlt => by
    obtain ⟨hfen, hget⟩ := hall e he (Qi.packet_seq hp ▸ hlt)
    exact ⟨hfen, hop ▸ hget, fun h => absurd (hop ▸ h) h3⟩
  simp [State.startable, hp, hop, hs, ho, hmay]

theorem State.startable_of_not_may {s : State} {q : Fin 64} {n op : Nat} {p : Packet} (hp : (s.qi q).packet n = some p)
    (h : ¬ (p.op = op ∧ p.started = false ∧ p.result = none ∧
      ∀ e ∈ (s.qi q).packets, e.seq < n → p.fen = false ∧ (op = 2 → e.op ≠ 1 ∧ e.op ≠ 3))) : s.startable q n op = none := by
  have hcond : (p.op = op && !p.started && p.result.isNone && (s.qi q).mayStart p) = false := by
    rw [Bool.eq_false_iff]
    intro hc
    simp only [Bool.and_eq_true, decide_eq_true_iff, Bool.not_eq_true', Option.isNone_iff_eq_none] at hc
    obtain ⟨⟨⟨hop, hs⟩, ho⟩, hmay⟩ := hc
    refine h ⟨hop, hs, ho, fun e he hlt => ?_⟩
    obtain ⟨hfen, hget, -⟩ := (Qi.mayStart_iff _ _).mp hmay e he (Qi.packet_seq hp ▸ hlt)
    exact ⟨hfen, hop ▸ hget⟩
  simp only [State.startable, hp, hcond, Bool.false_eq_true, if_false]

section
variable {s : State} {q : Fin 64} {n : Nat} {p : Packet}

theorem exec_put_blocked (h : s.startable q n 1 = none) : exec (.put q n) s = .next s := by
  show s.startMove q n 1 = _
  rw [State.startMove, h]
  rfl

theorem exec_put_starts (h : s.startable q n 1 = some p) : exec (.put q n) s = .next (s.setPacket q { p with started := true }) := by
  show s.startMove q n 1 = _
  rw [State.startMove, h]
  rfl

theorem exec_get_blocked (h : s.startable q n 2 = none) : exec (.get q n) s = .next s := by
  show s.startMove q n 2 = _
  rw [State.startMove, h]
  rfl

theorem exec_get_starts (h : s.startable q n 2 = some p) : exec (.get q n) s = .next (s.setPacket q { p with started := true }) := by
  show s.startMove q n 2 = _
  rw [State.startMove, h]
  rfl

theorem exec_nopPacket_blocked (h : s.startable q n 0 = none) : exec (.nopPacket q n) s = .next s := by
  show execNopPacket q n s = _
  rw [execNopPacket, h]
  rfl

theorem exec_nopPacket_starts (h : s.startable q n 0 = some p) :
    exec (.nopPacket q n) s = .next ((s.setPacket q { p with started := true }).finishPacket q n 0 0) := by
  show execNopPacket q n s = _
  rw [execNopPacket, h]
  rfl

theorem exec_cancel_blocked (h : s.startable q n 4 = none) : exec (.cancel q n) s = .next s := by
  show execCancel q n s = _
  rw [execCancel, h]
  rfl

end

/-- A packet that is written and then ends. -/
theorem State.qi_setPacket_finishPacket (s : State) (q : Fin 64) {p : Packet} (ho : p.result = none) (st : BitVec 8) (res : Word) :
    ((s.setPacket q p).finishPacket q p.seq st res).qi q =
      { s.qi q with packets := (s.qi q).packets.map fun e => if e.seq = p.seq then p.ended (st, res) s.nextId else e } := by
  rw [State.qi_finishPacket, State.qi_setPacket]
  simp only [map_replace_endIf ho]
  rfl

/-! ## Cancellation (R62) -/

/-- Whether a CANCEL acts on a packet before it. -/
def Packet.hits (p e : Packet) : Bool := e.seq < p.seq && e.op ≠ 4 && e.tag.toNat = bits (p.words.getD 1 0) 0 16

theorem Packet.hits_iff (p e : Packet) : p.hits e = true ↔
    e.seq < p.seq ∧ e.op ≠ 4 ∧ (e.words.getD 0 0).toNat / 2 ^ 48 = bits (p.words.getD 1 0) 0 16 := by
  have htag : e.tag.toNat = (e.words.getD 0 0).toNat / 2 ^ 48 := by
    rw [Packet.tag_toNat, bits, Nat.mod_eq_of_lt]
    have := (e.words.getD 0 0).isLt
    omega
  simp [Packet.hits, htag, and_assoc]

/-- The packets of an interface after a CANCEL that no running launch is subject to. -/
def Qi.afterCancel (x : Qi) (p : Packet) (k : Nat) (res : Word) : List Packet :=
  let l := (x.packets.filter p.hits).filter fun e => e.result.isNone
  (endAll Packet.cancelled k l (x.packets.map fun e => if e.seq = p.seq then { p with started := true } else e)).map
    (Packet.endIf p.seq (0, res) (k + l.length))

/-- What a CANCEL does that no running launch is subject to. -/
theorem exec_cancel {s : State} {q : Fin 64} {n : Nat} {p : Packet} (hp : (s.qi q).packet n = some p) (hs : s.startable q n 4 = some p)
    (hl : ∀ e ∈ (s.qi q).packets, p.hits e = true → e.started = true → e.op ≠ 3) :
    let x := s.qi q
    let res : Word := if (x.packets.filter p.hits).isEmpty then 1 else 0
    ∃ t : State, exec (.cancel q n) s = .next t ∧ t.mem = s.mem ∧ t.nextId = s.nextId + ((x.packets.filter p.hits).filter fun e => e.result.isNone).length + 1 ∧
      (t.qi q).packets = x.afterCancel p s.nextId res ∧
      ∀ tag, tag ∈ (t.qi q).failed ↔ tag ∈ x.failed ∨
        ∃ e ∈ x.packets, p.hits e = true ∧ e.result = none ∧ e.started = false ∧ e.op = 3 ∧ tag = e.tag := by
  intro x res
  obtain rfl := Qi.packet_seq hp
  let l := (x.packets.filter p.hits).filter fun e => e.result.isNone
  let s' := s.setPacket q { p with started := true }
  have hfold : (x.packets.filter p.hits).foldl (fun s e => s.cancelPacket q e) s' =
      l.foldl (fun s e => s.endWith q Packet.cancelled Packet.withdrawn e) s' := by
    rw [List.foldl_filter (p := fun e : Packet => e.result.isNone)]
    refine List.foldl_ext _ _ _ fun t e he => ?_
    obtain ⟨hmem, hhits⟩ := List.mem_filter.mp he
    cases hr : e.result with
    | some v => simp [State.cancelPacket, hr]
    | none => simp [State.cancelPacket_of_open hr (hl e hmem hhits)]
  have hcancel : exec (.cancel q p.seq) s =
      ok (((x.packets.filter p.hits).foldl (fun s e => s.cancelPacket q e) s').finishPacket q p.seq 0 res) := by
    show execCancel q p.seq s = _
    rw [execCancel, hs]
    rfl
  have hu := State.endsAll_foldl (q := q) (r := Packet.cancelled) (m := Packet.withdrawn) l (fun _ _ => by simp [Packet.cancelled]) s'
  rw [hfold] at hcancel
  refine ⟨_, hcancel, ?_⟩
  generalize l.foldl (fun s e => s.endWith q Packet.cancelled Packet.withdrawn e) s' = u at hu
  have hqi := hu.qi
  rw [State.qi_setPacket] at hqi
  refine ⟨hu.frame.mem, congrArg (· + 1) hu.nextId, ?_, fun tag => ?_⟩
  · rw [State.qi_finishPacket, hqi, hu.nextId]
    rfl
  · rw [State.qi_finishPacket]
    refine (hu.failed tag).trans ?_
    rw [State.qi_setPacket]
    refine or_congr_right (exists_congr fun e => ?_)
    simp only [l, x, Packet.withdrawn, List.mem_filter, Option.isNone_iff_eq_none, Bool.and_eq_true, Bool.not_eq_true', decide_eq_true_iff,
      and_assoc]

section
variable {x : Qi} {p e : Packet} {k : Nat} {res : Word}

@[simp] theorem Qi.length_afterCancel : (x.afterCancel p k res).length = x.packets.length := by simp [Qi.afterCancel]

/-- A packet beside the CANCEL stands there as the ending of the others leaves it. -/
theorem Qi.mem_afterCancel {e' : Packet} (hn : e'.seq ≠ p.seq)
    (h : e' ∈ endAll Packet.cancelled k ((x.packets.filter p.hits).filter fun e => e.result.isNone)
      (x.packets.map fun e => if e.seq = p.seq then { p with started := true } else e)) : e' ∈ x.afterCancel p k res :=
  List.mem_map.mpr ⟨e', h, Packet.endIf_of_ne hn _ _⟩

/-- A packet that the CANCEL acts on ends with status 6. -/
theorem Qi.mem_afterCancel_of_hit (hd : (x.packets.map (·.seq)).Nodup) (he : e ∈ x.packets) (hh : p.hits e = true) (ho : e.result = none) :
    ∃ f, e.ended e.cancelled f ∈ x.afterCancel p k res := by
  have hn : e.seq ≠ p.seq := Nat.ne_of_lt ((Packet.hits_iff p e).mp hh).1
  have hopen : e ∈ (x.packets.filter p.hits).filter fun e => e.result.isNone := by simp [he, hh, ho]
  obtain ⟨f, hf⟩ := mem_endAll_ended (r := Packet.cancelled) (k := k) (l := (x.packets.filter p.hits).filter fun e => e.result.isNone)
    (ps := x.packets.map fun e => if e.seq = p.seq then { p with started := true } else e) (p := e) (v := e.cancelled)
    (List.mem_map.mpr ⟨e, he, if_neg hn⟩) ho ⟨e, hopen, rfl⟩ fun e' he' hs => by
      rw [List.inj_on_of_nodup_map hd (List.mem_of_mem_filter (List.mem_of_mem_filter he')) he hs]
  exact ⟨f, Qi.mem_afterCancel hn hf⟩

/-- Any other packet stays as it is. -/
theorem Qi.mem_afterCancel_of_other (hd : (x.packets.map (·.seq)).Nodup) (he : e ∈ x.packets) (hh : p.hits e = false ∨ e.result ≠ none)
    (hn : e.seq ≠ p.seq) : e ∈ x.afterCancel p k res := by
  refine Qi.mem_afterCancel hn (mem_endAll_of_stays (List.mem_map.mpr ⟨e, he, if_neg hn⟩) ?_)
  refine hh.symm.imp_right fun hh e' he' hs => ?_
  have hhits := (List.mem_filter.mp (List.mem_of_mem_filter he')).2
  rw [List.inj_on_of_nodup_map hd (List.mem_of_mem_filter (List.mem_of_mem_filter he')) he hs, hh] at hhits
  exact Bool.noConfusion hhits

/-- The CANCEL itself ends with status 0. -/
theorem Qi.mem_afterCancel_self (hp : p ∈ x.packets) (ho : p.result = none) :
    ({ p with started := true } : Packet).ended (0, res) (k + ((x.packets.filter p.hits).filter fun e => e.result.isNone).length) ∈
      x.afterCancel p k res := by
  refine List.mem_map.mpr ⟨{ p with started := true }, mem_endAll_of_stays (List.mem_map.mpr ⟨p, hp, if_pos rfl⟩) (.inr fun e he => ?_),
    Packet.endIf_of_open (p := { p with started := true }) ho _ _⟩
  exact Nat.ne_of_lt ((Packet.hits_iff p e).mp (List.mem_filter.mp (List.mem_of_mem_filter he)).2).1

end

/-! ## Completions (R63) -/

/-- Whether a CANCEL that was performed still has a packet to wait for. -/
theorem Qi.cancelDone_iff (x : Qi) (c : Packet) : x.cancelDone c = false ↔ c.op = 4 ∧ (∀ st v, c.result = some (st, v) → st = 0) ∧
    ∃ e ∈ x.packets, e.seq < c.seq ∧ e.op ≠ 4 ∧ (e.words.getD 0 0).toNat / 2 ^ 48 = bits (c.words.getD 1 0) 0 16 := by
  have hrefused : (match c.result with | some (st, _) => decide (st ≠ 0) | none => false) = false ↔ ∀ st v, c.result = some (st, v) → st = 0 := by
    cases c.result with
    | none => simp
    | some r =>
      obtain ⟨a, b⟩ := r
      simp only [ne_eq, decide_eq_false_iff_not, not_not, Option.some.injEq]
      exact ⟨fun h st v e => (Prod.mk.inj e).1 ▸ h, fun h => h a b rfl⟩
  have hwaits : (x.packets.all fun e => c.seq ≤ e.seq || e.op = 4 || e.tag.toNat ≠ bits (c.words.getD 1 0) 0 16) = false ↔
      ∃ e ∈ x.packets, c.hits e = true := by
    simp [Packet.hits, and_assoc]
  rw [Qi.cancelDone, Bool.or_eq_false_iff, Bool.or_eq_false_iff, hwaits, and_assoc]
  simp only [Packet.hits_iff]
  exact and_congr (by simp) (and_congr hrefused Iff.rfl)

theorem Qi.finishedBefore_iff (x : Qi) (p : Packet) :
    x.finishedBefore p = true ↔ ∃ e ∈ x.packets, e.result ≠ none ∧ e.fin < p.fin ∧ x.cancelDone e = true := by
  simp [Qi.finishedBefore, Option.isSome_iff_ne_none, and_assoc]

/-- A packet whose completion is not next stays in work. -/
theorem exec_packetCompletion_waits {s : State} {q : Fin 64} {n : Nat} {p : Packet} (hp : (s.qi q).packet n = some p)
    (h : p.result = none ∨ (s.qi q).cancelDone p = false ∨ (s.qi q).finishedBefore p = true) : exec (.packetCompletion q n) s = .next s := by
  show ok (s.completePacket q n) = .next s
  unfold State.completePacket
  simp only [hp]
  split
  · rfl
  · rename_i hr
    rw [if_neg, ok]
    rcases h with h | h | h
    · rw [h] at hr; cases hr
    · simp [h]
    · simp [h]

/-- The completion that is next is written, and its packet is in work no longer. -/
theorem exec_packetCompletion_writes {s : State} {q : Fin 64} {n : Nat} {p : Packet} {st : BitVec 8} {res : Word}
    (hp : (s.qi q).packet n = some p) (hr : p.result = some (st, res)) (hdone : (s.qi q).cancelDone p = true)
    (hfirst : (s.qi q).finishedBefore p = false) (hf : s.mgmt.fatal = none) (hc : (s.qi q).closing = false) :
    ∃ t : State, exec (.packetCompletion q n) s = .next t ∧ t.mem = s.mem ∧ t.cores = s.cores ∧
      t.qi q = Qi.completed { s.qi q with packets := (s.qi q).packets.filter (·.seq ≠ n) } st ∧
      t.host.out = s.host.out ++ .completion q (s.qi q).cqTail ((s.qi q).entry p.tag p.op st) res :: s.follows q ∧
      ((s.qi q).ien = true → (s.vector q.val).masked = true → q.val ∈ t.host.pba) := by
  have hw := State.writeCompletion_completes (s := s.setQi q { s.qi q with packets := (s.qi q).packets.filter (·.seq ≠ n) }) hf q p.tag p.op st res
  have hqi := hw.qi
  have hout := hw.out
  have hheld := hw.held
  rw [State.qi_setQi_self] at hqi hheld
  rw [State.follows, State.qi_setQi_self] at hout
  refine ⟨_, ?_, hw.mem, hw.cores, hqi, hout, hheld⟩
  show ok (s.completePacket q n) = _
  rw [State.completePacket_of_first hp hr hdone hfirst, State.closeQi_of_open (by rw [hqi]; exact hc)]
  rfl

/-! ## Chunks (R60, R61) -/

theorem State.qi_of_host {s t : State} (h : t.host = s.host) (q : Fin 64) : t.qi q = s.qi q := by rw [State.qi, h, State.qi]

section
variable {s : State} {q : Fin 64} {n : Nat} {p : Packet}

theorem exec_putGetChunk_idle (hp : (s.qi q).packet n = some p) (h : s.revoked (s.qi q).pasid = true ∨ p.started = false ∨ p.result ≠ none ∨
    p.waitPage ≠ none ∨ (p.op ≠ 1 ∧ p.op ≠ 2)) (a : HostAccess) : exec (.putGetChunk q n a) s = .next s := by
  show execPutGetChunk q n a s = _
  simp only [execPutGetChunk, hp]
  rw [if_pos]
  · rfl
  · simp only [Option.isSome_iff_ne_none, Bool.or_eq_true, Bool.and_eq_true, Bool.not_eq_true', decide_eq_true_iff]
    tauto

/-- A PUT or a GET that is under way and waits for no page. -/
def State.moves (s : State) (q : Fin 64) (p : Packet) : Prop :=
  s.revoked (s.qi q).pasid = false ∧ p.started = true ∧ p.result = none ∧ p.waitPage = none ∧ (p.op = 1 ∨ p.op = 2)

theorem State.moves.guard (h : s.moves q p) :
    (!p.started || p.result.isSome || p.waitPage.isSome || (p.op ≠ 1 && p.op ≠ 2) || s.revoked (s.qi q).pasid) = false := by
  obtain ⟨hb, hs, ho, hw, hop⟩ := h
  rcases hop with hop | hop <;> simp [hb, hs, ho, hw, hop]

theorem exec_putGetChunk_refused (hp : (s.qi q).packet n = some p) (h : s.moves q p) (i : Word) :
    exec (.putGetChunk q n (.noAccess i)) s = .next (s.hostRefuses q p i) ∧
      exec (.putGetChunk q n (.needsPage i)) s = .next (s.hostRefuses q p i) := by
  constructor
  · show execPutGetChunk q n (.noAccess i) s = _
    simp only [execPutGetChunk, hp, h.guard]
    rfl
  · show execPutGetChunk q n (.needsPage i) s = _
    simp only [execPutGetChunk, hp, h.guard]
    rfl

theorem State.inAtc_iff (s : State) (pasid : BitVec 20) (i : Word) :
    s.inAtc pasid i = true ↔ s.feature 1 = true ∧ (pasid, pageOf i) ∈ s.host.atc := by
  simp [State.inAtc]

theorem State.hostRefuses_of_cached {i : Word} (h : s.inAtc (s.qi q).pasid i = true) : s.hostRefuses q p i = s := by
  simp [State.hostRefuses, h]

theorem State.hostRefuses_of_failed {i : Word} (h : s.inAtc (s.qi q).pasid i = false) (hr : s.feature 2 = false ∨ pageOf i ∈ p.retried) :
    s.hostRefuses q p i = s.finishPacket q p.seq 4 i := by
  rcases hr with hr | hr <;> simp [State.hostRefuses, h, hr]

/-- A page is asked for once. -/
theorem State.hostRefuses_of_page {i : Word} (h : s.inAtc (s.qi q).pasid i = false) (hf : s.feature 2 = true) (hr : pageOf i ∉ p.retried)
    (hroom : s.host.pageReqs.length < 256) :
    let t := s.hostRefuses q p i
    t.mem = s.mem ∧ t.qi q = { s.qi q with packets := (s.qi q).packets.map fun e => if e.seq = p.seq then { p with waitPage := some i } else e } ∧
      t.host.out = s.host.out ++ [.pageRequest (s.qi q).pasid (pageOf i)] ∧
      t.host.pageReqs = s.host.pageReqs ++ [(q.val, pageOf i)] := by
  intro t
  let u := s.setPacket q { p with waitPage := some i }
  let v : State := { u with host := { u.host with pageReqs := u.host.pageReqs ++ [(q.val, pageOf i)] } }
  have hqi : v.qi q = { s.qi q with packets := (s.qi q).packets.map fun e => if e.seq = p.seq then { p with waitPage := some i } else e } :=
    s.qi_setPacket q { p with waitPage := some i }
  have ht : t = v.hostOut (.pageRequest (v.qi q).pasid (pageOf i)) := by
    simp [t, State.hostRefuses, h, hf, hr, Nat.not_le.mpr hroom, v, u]
  rw [ht]
  refine ⟨rfl, hqi, ?_, rfl⟩
  rw [hqi]
  rfl

theorem State.cacheRange_of_not_ats (h : s.feature 1 = false) (pasid : BitVec 20) (iova : Word) (k : Nat) : s.cacheRange pasid iova k = s := by
  have hxlate (i : Word) : s.cacheXlat pasid i = s := by simp [State.cacheXlat, h]
  simp [State.cacheRange, hxlate]

/-- A chunk ends at a multiple of 4 KiB of its destination (log 111). -/
theorem Packet.chunk_eq (p : Packet) : p.chunk =
    min (4096 - ((if p.op = 1 then p.words.getD 2 0 else p.words.getD 1 0).toNat + p.moved) % 4096) (p.len - p.moved) := by
  rw [Packet.chunk, apply_ite (p.words.getD · 0)]

/-- What a chunk that has moved does to its packet. -/
def Packet.advanced (p : Packet) (k : Nat) : Packet :=
  if p.moved + p.chunk = p.len then ({ p with moved := p.moved + p.chunk, retried := [] } : Packet).ended (0, natW p.len) k
  else { p with moved := p.moved + p.chunk, retried := [] }

theorem State.chunkMoved_spec (ho : p.result = none) (s : State) (q : Fin 64) :
    let t := s.chunkMoved q p p.chunk
    t.mem = s.mem ∧ t.host.out = s.host.out ∧
      t.qi q = { s.qi q with packets := (s.qi q).packets.map fun e => if e.seq = p.seq then p.advanced (t.nextId - 1) else e } := by
  intro t
  let u := s.charge (s.qi q).ctx 14 p.chunk
  let y : Packet := { p with moved := p.moved + p.chunk, retried := [] }
  have ht : t = if p.moved + p.chunk = p.len then (u.setPacket q y).finishPacket q y.seq 0 (BitVec.ofNat 64 p.len) else u.setPacket q y := rfl
  by_cases hend : p.moved + p.chunk = p.len
  · rw [if_pos hend] at ht
    have hframe := (u.setPacket_frame q y).trans (State.finishPacket_frame q _ y.seq 0 (BitVec.ofNat 64 p.len))
    rw [ht]
    refine ⟨hframe.mem, hframe.out, ?_⟩
    rw [State.qi_setPacket_finishPacket u q (p := y) ho, Packet.advanced, if_pos hend]
    rfl
  · rw [if_neg hend] at ht
    rw [ht]
    refine ⟨rfl, rfl, ?_⟩
    rw [State.qi_setPacket, Packet.advanced, if_neg hend]
    rfl

/-- The write of a chunk of a PUT from the host, where no translation is cached. -/
def State.putChunk (s : State) (q : Fin 64) (p : Packet) (bytes : List Byte) : State × Except (Option Word) Unit :=
  State.moveIn (packetAcc (s.qi q).ctx) ((List.range p.chunk).map fun i => bytes.getD i 0) s (p.words.getD 2 0 + natW p.moved)

/-- The read of a chunk of a GET. -/
def State.getChunk (s : State) (q : Fin 64) (p : Packet) : State × Except (Option Word) (List Byte) :=
  State.moveOut (packetAcc (s.qi q).ctx) p.chunk s (p.words.getD 2 0 + natW p.moved)

theorem exec_putGetChunk_put (hp : (s.qi q).packet n = some p) (h : s.moves q p) (hop : p.op = 1) (hats : s.feature 1 = false)
    (bytes : List Byte) (s' : State) :
    (s.putChunk q p bytes = (s', .ok ()) → exec (.putGetChunk q n (.data bytes)) s = .next (s'.chunkMoved q p p.chunk)) ∧
    (∀ f, s.putChunk q p bytes = (s', .error (some f)) → exec (.putGetChunk q n (.data bytes)) s = .next (s'.finishPacket q n 5 f)) := by
  have hexec : exec (.putGetChunk q n (.data bytes)) s = execPutGetChunk q n (.data bytes) s := rfl
  simp only [hexec, execPutGetChunk, hp, h.guard, State.cacheRange_of_not_ats hats, if_pos hop, Bool.false_eq_true, if_false]
  constructor
  · intro hin
    rw [State.putChunk, natW] at hin
    rw [hin]
    rfl
  · intro f hin
    rw [State.putChunk, natW] at hin
    rw [hin]
    rfl

theorem exec_putGetChunk_get (hp : (s.qi q).packet n = some p) (h : s.moves q p) (hop : p.op = 2) (hats : s.feature 1 = false)
    (bytes : List Byte) (s' : State) :
    (∀ bs, s.getChunk q p = (s', .ok bs) → exec (.putGetChunk q n (.data bytes)) s =
      .next ((s'.hostOut (.data q (p.words.getD 1 0 + natW p.moved) bs)).chunkMoved q p p.chunk)) ∧
    (∀ f, s.getChunk q p = (s', .error (some f)) → exec (.putGetChunk q n (.data bytes)) s = .next (s'.finishPacket q n 5 f)) := by
  have hexec : exec (.putGetChunk q n (.data bytes)) s = execPutGetChunk q n (.data bytes) s := rfl
  have hput : p.op ≠ 1 := by omega
  simp only [hexec, execPutGetChunk, hp, h.guard, State.cacheRange_of_not_ats hats, if_neg hput, Bool.false_eq_true, if_false]
  constructor
  · intro bs hout
    rw [State.getChunk, natW] at hout
    rw [hout]
    rfl
  · intro f hout
    rw [State.getChunk, natW] at hout
    rw [hout]
    rfl

end

end Sys2Proof.Machine
end

section
/-!
O56: packets of a queue interface, from fetch to completion.
-/

namespace Sys2Proof.Proofs

open Sys2Proof.Machine

/-- Settles O56, clause by clause: the fetch and the re-read, then each packet's start, work and completion. -/
theorem hostPackets : Obligations.HostPackets := by
  unfold Obligations.HostPackets
  intro entry follows held barred moved
  have hentry (x : Qi) (tag : BitVec 16) {op : Nat} (hop : op < 256) (st : BitVec 8) : x.entry tag op st = entry x tag op st.toNat :=
    Qi.entry_eq x tag hop st
  refine ⟨?_, ?_⟩
  · intro q bytes s x size used may ws w op valid formed takes taken
    have hbarred : s.revoked x.pasid = true ↔ barred s x := s.revoked_iff _
    have hmay : may ↔ x.mayFetch = true ∧ s.revoked x.pasid = false := by
      rw [← Bool.not_eq_true, hbarred, Qi.mayFetch_iff]
      exact and_comm
    have hvalid : packetValid bytes x.sqPass = true ↔ valid := packetValid_iff bytes x.sqPass
    have hformed : packetFormed ws = true ↔ formed := packetFormed_iff w
    have htaken (e : Instr) (he : exec e s = .next (s.takePacket q bytes)) : taken e := by
      obtain ⟨hmem, hrefusals, hout, hqi⟩ := s.takePacket_spec q bytes
      refine ⟨fun hp => ⟨_, he, hmem, ?_, hout, ?_⟩, fun hp hf => ⟨_, he, hmem, ?_, hout, ?_⟩, fun hp hf => ⟨_, he, hmem, ?_, hout, ?_⟩⟩
      · exact hrefusals.trans (congrArg _ (if_pos hp))
      · exact hqi.trans (congrArg (fun r => x.taken ws r s.nextId) (if_pos hp))
      · exact hrefusals.trans (congrArg _ (if_neg (not_not.mpr hp)))
      · exact hqi.trans (congrArg (fun r => x.taken ws r s.nextId) ((if_neg (not_not.mpr hp)).trans (if_neg (mt hformed.mp hf))))
      · exact hrefusals.trans (congrArg _ (if_neg (not_not.mpr hp)))
      · exact hqi.trans (congrArg (fun r => x.taken ws r s.nextId) ((if_neg (not_not.mpr hp)).trans (if_pos (hformed.mpr hf))))
    refine ⟨fun h => ?_, fun h hr hv => ?_, fun h hr hv => ?_, fun h => exec_packetReread_idle (h.imp_right hbarred.mpr),
      fun t0 hr hb hst hc => ?_⟩
    · refine exec_packetFetch_idle (h.imp_left fun h hm => ?_)
      exact Bool.not_eq_false _ ▸ fun hb => h (hmay.mpr ⟨hm, hb⟩)
    · obtain ⟨hm, hb⟩ := hmay.mp h
      exact htaken _ ((exec_packetFetch_reads hm hb hr).trans (congrArg _ (if_pos (hvalid.mpr hv))))
    · obtain ⟨hm, hb⟩ := hmay.mp h
      exact (exec_packetFetch_reads hm hb hr).trans (congrArg _ (if_neg (mt hvalid.mp hv)))
    · have hreads := exec_packetReread_reads (bytes := bytes) hr (Bool.eq_false_iff.mpr (mt hbarred.mp hb)) hst hc
      refine ⟨fun ht => ?_, fun ht hv => htaken _ ?_, fun ht hv hn => ?_, fun ht hv hn hf => ?_⟩
      · rw [hreads, if_pos ht]
      · rw [hreads, if_neg (Nat.not_lt.mpr ht), if_pos (hvalid.mpr hv)]
      · rw [hreads, if_neg (Nat.not_lt.mpr ht), if_neg (mt hvalid.mp hv), if_pos (Nat.succ_lt_succ hn)]
      · rw [if_neg (Nat.not_lt.mpr ht), if_neg (mt hvalid.mp hv), if_neg (Nat.not_lt.mpr (Nat.succ_le_succ hn))] at hreads
        have hw := State.writeCompletion_completes (s := s.setQi q { x with st := .error, rereadAt := none, rereads := 8 }) hf q 0 0 2
          (natW x.sqHead)
        have hqi := hw.qi
        have hout := hw.out
        have hheld := hw.held
        rw [State.qi_setQi_self] at hqi hheld
        rw [State.follows, State.qi_setQi_self] at hout
        exact ⟨_, hreads, hw.mem, hqi, hout.trans (by rw [hentry _ _ (by decide)]; rfl), hheld⟩
  · intro q n s p hp x w opOf may becomes only hd
    obtain rfl := Qi.packet_seq hp
    have hbarred : s.revoked x.pasid = true ↔ barred s x := s.revoked_iff _
    have hhit (e : Packet) : p.hits e = true ↔ e.seq < p.seq ∧ opOf e ≠ 4 ∧ (e.words.getD 0 0).toNat / 2 ^ 48 = bits (w 1) 0 16 :=
      Packet.hits_iff p e
    have hstart {op : Nat} (h3 : op ≠ 3) (h : may op) : s.startable q p.seq op = some p := State.startable_of_may hp h3 h
    have hblocked {op : Nat} (h : ¬ may op) : s.startable q p.seq op = none := State.startable_of_not_may hp h
    refine ⟨fun h => ?_, fun h => ?_, fun h => ?_, fun h => ?_, fun h => ?_, fun h => ?_, fun h => ?_, fun h => ?_,
      fun a h => exec_putGetChunk_idle hp (h.imp_left hbarred.mpr) a, fun hb hs ho hw hop => ?_,
      fun ho => exec_packetCompletion_waits hp (.inl ho), fun st v hr hf hc => ?_⟩
    · exact exec_nopPacket_blocked (hblocked h)
    · have hframe := (s.setPacket_frame q { p with started := true }).trans (State.finishPacket_frame q _ p.seq 0 0)
      exact ⟨_, exec_nopPacket_starts (hstart (by decide) h), hframe.mem, hframe.sched, hframe.out.trans (List.append_nil _).symm,
        s.qi_setPacket_finishPacket q (p := { p with started := true }) h.2.2.1 0 0⟩
    · exact exec_put_blocked (hblocked h)
    · exact ⟨_, exec_put_starts (hstart (by decide) h), rfl, rfl, (List.append_nil _).symm, s.qi_setPacket q _⟩
    · exact exec_get_blocked (hblocked h)
    · exact ⟨_, exec_get_starts (hstart (by decide) h), rfl, rfl, (List.append_nil _).symm, s.qi_setPacket q _⟩
    · exact exec_cancel_blocked (hblocked h)
    · intro hit hl
      obtain ⟨t, ht, hmem, hid, hpackets, hfailed⟩ := exec_cancel hp (hstart (by decide) h) fun e he hh => hl e he ((hhit e).mp hh)
      have hlast : t.nextId - 1 = s.nextId + (((s.qi q).packets.filter p.hits).filter fun e => e.result.isNone).length := by omega
      refine ⟨t, ht, hmem, by rw [hpackets, Qi.length_afterCancel], fun e he hh ho => ?_, fun e he hh ho hs hop => ?_, fun e he hh hn => ?_,
        if (x.packets.filter p.hits).isEmpty then 1 else 0, ?_, fun ⟨e, he, hh⟩ => ?_, fun hno => ?_⟩
      · rw [hpackets]
        exact Qi.mem_afterCancel_of_hit hd he ((hhit e).mpr hh) ho
      · exact (hfailed _).mpr (.inr ⟨e, he, (hhit e).mpr hh, ho, hs, hop, rfl⟩)
      · rw [hpackets]
        exact Qi.mem_afterCancel_of_other hd he (hh.imp_left fun hh => Bool.eq_false_iff.mpr (mt (hhit e).mp hh)) hn
      · rw [hpackets, hlast]
        exact Qi.mem_afterCancel_self (Qi.packet_mem hp) h.2.2.1
      · exact if_neg fun hempty => by simpa using (List.isEmpty_iff.mp hempty ▸ List.mem_filter.mpr ⟨he, (hhit e).mpr hh⟩ : e ∈ [])
      · exact if_pos (List.isEmpty_iff.mpr (List.filter_eq_nil_iff.mpr fun e he hh => hno e he ((hhit e).mp hh)))
    · intro len dst size page iova ga pri ats cached next goes fails
      have hmoves : s.moves q p := ⟨Bool.eq_false_iff.mpr (mt hbarred.mp hb), hs, ho, hw, hop⟩
      have hsize : p.chunk = size := p.chunk_eq
      have hnext (k : Nat) : p.advanced k = next k := by
        rw [Packet.advanced, hsize]
        rfl
      have hpri : s.feature 2 = true ↔ pri := s.feature_iff 2
      have hats (h : ¬ ats) : s.feature 1 = false := Bool.eq_false_iff.mpr (mt (s.feature_iff 1).mp h)
      have hcached (i : Word) : s.inAtc x.pasid i = true ↔ cached i := (s.inAtc_iff _ _).trans (and_congr_left' (s.feature_iff 1))
      have hmiss {i : Word} (h : ¬ cached i) : s.inAtc x.pasid i = false := Bool.eq_false_iff.mpr (mt (hcached i).mp h)
      have hfails {a : HostAccess} {st : BitVec 8} {v : Word} {s' : State} (he : exec (.putGetChunk q p.seq a) s = .next (s'.finishPacket q p.seq st v))
          (hh : s'.host = s.host) : fails a st v := by
        refine ⟨_, he, ?_⟩
        rw [State.qi_finishPacket, State.qi_of_host hh, map_endIf_of_packet hd hp ho]
        rfl
      have hgoes {a : HostAccess} {s' : State} {out : List HostWrite} (he : exec (.putGetChunk q p.seq a) s = .next (s'.chunkMoved q p p.chunk))
          (hqi : s'.qi q = x) (hout : s'.host.out = s.host.out ++ out) : goes a s' out := by
        obtain ⟨hmem, hout', hqi'⟩ := State.chunkMoved_spec ho s' q
        refine ⟨_, he, hmem, hout'.trans hout, ?_⟩
        rw [hqi', hqi, hnext]
      refine ⟨fun i hi => ?_, fun i hi hr => ?_, fun i hi hr hn hroom => ?_, fun bytes s1 hop hn => ⟨fun hin => ?_, fun f hin => ?_⟩,
        fun bytes s1 hop hn => ⟨fun bs hout => ?_, fun f hout => ?_⟩⟩
      · have hrefused := exec_putGetChunk_refused hp hmoves i
        rwa [State.hostRefuses_of_cached ((hcached i).mpr hi)] at hrefused
      · have hrefused := exec_putGetChunk_refused hp hmoves i
        rw [State.hostRefuses_of_failed (hmiss hi) (hr.imp_left fun h => Bool.eq_false_iff.mpr (mt hpri.mp h))] at hrefused
        exact ⟨hfails hrefused.1 rfl, hfails hrefused.2 rfl⟩
      · obtain ⟨hmem, hqi, hout, hreqs⟩ := State.hostRefuses_of_page (hmiss hi) (hpri.mpr hr) hn hroom
        exact ⟨_, (exec_putGetChunk_refused hp hmoves i).1, hmem, hqi, hout, hreqs⟩
      · have hput : s.putChunk q p bytes = (s1, .ok ()) := by rw [State.putChunk, hsize]; exact hin
        have hhost : s1.host = s.host := (congrArg (·.1.host) hin).symm.trans (State.moveIn_host _ _ _ _)
        exact hgoes ((exec_putGetChunk_put hp hmoves hop (hats hn) bytes s1).1 hput) (State.qi_of_host hhost q)
          ((congrArg (·.out) hhost).trans (List.append_nil _).symm)
      · have hput : s.putChunk q p bytes = (s1, .error (some f)) := by rw [State.putChunk, hsize]; exact hin
        exact hfails ((exec_putGetChunk_put hp hmoves hop (hats hn) bytes s1).2 f hput)
          ((congrArg (·.1.host) hin).symm.trans (State.moveIn_host _ _ _ _))
      · have hget : s.getChunk q p = (s1, .ok bs) := by rw [State.getChunk, hsize]; exact hout
        have hhost : s1.host = s.host := (congrArg (·.1.host) hout).symm.trans (State.moveOut_host _ _ _ _)
        exact hgoes (s' := s1.hostOut (.data q iova bs)) ((exec_putGetChunk_get hp hmoves hop (hats hn) bytes s1).1 bs hget) (State.qi_of_host hhost q)
          (congrArg (fun h : HostPort => h.out ++ [HostWrite.data q iova bs]) hhost)
      · have hget : s.getChunk q p = (s1, .error (some f)) := by rw [State.getChunk, hsize]; exact hout
        exact hfails ((exec_putGetChunk_get hp hmoves hop (hats hn) bytes s1).2 f hget)
          ((congrArg (·.1.host) hout).symm.trans (State.moveOut_host _ _ _ _))
    · intro cancels waits
      have hcancels (c : Packet) : x.cancelDone c = false ↔ cancels c := Qi.cancelDone_iff x c
      have hdone (c : Packet) : x.cancelDone c = true ↔ ¬ cancels c := by rw [← hcancels, Bool.not_eq_false]
      have hwaits : waits ↔ x.cancelDone p = false ∨ x.finishedBefore p = true := by
        rw [hcancels, Qi.finishedBefore_iff]
        simp only [hdone]
        exact Iff.rfl
      refine ⟨fun h => exec_packetCompletion_waits hp (.inr (hwaits.mp h)), fun h => ?_⟩
      obtain ⟨hdone, hfirst⟩ := not_or.mp (mt hwaits.mpr h)
      obtain ⟨t, ht, hmem, hcores, hqi, hout, hheld⟩ :=
        exec_packetCompletion_writes hp hr (Bool.eq_true_of_not_eq_false hdone) (Bool.eq_false_of_not_eq_true hfirst) hf hc
      exact ⟨t, ht, hmem, hcores, hqi, hout.trans (by rw [hentry _ _ p.op_lt]; rfl), hheld⟩

end Sys2Proof.Proofs
end

section
/-!
SUPPORT. The reads of the scheduler hart (spec/05 R64, R65, spec/08 R121): what an engine's read of memory, of this device or another, can
change at all. A read under a code of the violation log that joins no error queue leaves every core as it is (spec/07 R113).
-/

namespace Sys2Proof.Machine

/-- What a read of an engine without an error queue leaves alone: all but the error marks, translation caches, requests and fabric, logs and
charges. -/
structure State.ReadFrame (s t : State) : Prop where
  rest : t = { s with weak := t.weak, tlb := t.tlb, net := t.net, engWaits := t.engWaits, nextId := t.nextId, fab := t.fab, dev := t.dev,
                      mgmt := t.mgmt, free := t.free }

section
variable {s t u : State}

theorem State.ReadFrame.refl (s : State) : ReadFrame s s := ⟨rfl⟩

theorem State.ReadFrame.trans (h : ReadFrame s t) (k : ReadFrame t u) : ReadFrame s u where
  rest := by rw [k.rest, h.rest]

theorem State.ReadFrame.mem (h : ReadFrame s t) : t.mem = s.mem := by rw [h.rest]
theorem State.ReadFrame.cores (h : ReadFrame s t) : t.cores = s.cores := by rw [h.rest]
theorem State.ReadFrame.core (h : ReadFrame s t) (k : CoreIx) : t.core k = s.core k := by rw [State.core, h.cores, State.core]
theorem State.ReadFrame.istore (h : ReadFrame s t) : t.istore = s.istore := by rw [h.rest]
theorem State.ReadFrame.text (h : ReadFrame s t) : t.text = s.text := by rw [h.rest]
theorem State.ReadFrame.spilled (h : ReadFrame s t) : t.spilled = s.spilled := by rw [h.rest]
theorem State.ReadFrame.sched (h : ReadFrame s t) : t.sched = s.sched := by rw [h.rest]
theorem State.ReadFrame.host (h : ReadFrame s t) : t.host = s.host := by rw [h.rest]

end

/-! ## Logs, errors and the fabric -/

theorem State.correct_reads (s : State) (a n : Nat) : ReadFrame s (s.correct a n) := ⟨rfl⟩
theorem State.charge_reads (s : State) (ctx : BitVec 12) (n amount : Nat) : ReadFrame s (s.charge ctx n amount) := ⟨rfl⟩
theorem State.fabOut_reads (s : State) (o : FabOut) : ReadFrame s (s.fabOut o) := ⟨rfl⟩
theorem State.noFill_reads (s : State) (sys : BitVec 50) (n : Nat) : ReadFrame s (s.noFill sys n) := ⟨rfl⟩
theorem State.engLeave_reads (s : State) (e : Acc) (sys : BitVec 50) : ReadFrame s (s.engLeave e sys) := ⟨rfl⟩
theorem State.mend_reads (s : State) (c : Crossing) : ReadFrame s (s.mend c) := ⟨rfl⟩
theorem State.expect_reads (s : State) (id : Nat) : ReadFrame s (s.expect id) := ⟨rfl⟩

/-- A code of the violation log whose entries join no core's error queue (spec/07 R113). -/
def silentSrc (src : BitVec 4) : Prop := (src == 1 || src == 2 || src == 3) = false

/-- That of the cache, and that of the host (spec/06 R90). -/
theorem silentSrc_zero : silentSrc 0 := rfl
theorem silentSrc_four : silentSrc 4 := rfl

theorem State.logViolation_reads {src : BitVec 4} (h : silentSrc src) (s : State) (die : Nat) (st : BitVec 4) (dev : Nat) (sys : BitVec 50)
    (core : Nat) : ReadFrame s (s.logViolation die st dev sys core src) := by
  unfold silentSrc at h
  simp only [State.logViolation, h, Bool.and_false, Bool.false_eq_true, if_false]
  split <;> exact ⟨rfl⟩

theorem State.logPacket_reads (s : State) (ga : Word) : ReadFrame s (s.logPacket ga) := State.logViolation_reads silentSrc_four _ _ _ _ _ _

theorem State.noteStatus_reads {src : BitVec 4} (h : silentSrc src) (s : State) (sent seen : BitVec 4) (sys : BitVec 50) (core : CoreIx) :
    ReadFrame s (s.noteStatus sent seen sys core src) := by
  unfold State.noteStatus
  split
  · exact State.logViolation_reads h _ _ _ _ _ _
  · exact .refl s

theorem State.tagDrawn_reads (s : State) (dev : Nat) : ReadFrame s (s.tagDrawn dev).1 := by
  unfold State.tagDrawn State.tagFails
  split
  · split
    · rename_i he
      split at he
      · cases he
        exact ⟨rfl⟩
      · cases he
    · exact ⟨rfl⟩
  · exact .refl s

theorem State.writeBack_reads (s : State) (sys : BitVec 50) (w : Word) : ReadFrame s (s.writeBack sys w) := by
  unfold State.writeBack
  dsimp only
  split
  · exact ReadFrame.trans (t := { s with nextId := s.nextId + 1 }) ⟨rfl⟩ (State.logViolation_reads silentSrc_zero _ _ _ _ _ _)
  · split <;> exact ⟨rfl⟩

theorem State.dropLine_reads (s : State) (key : Nat) : ReadFrame s (s.dropLine key) := by
  have hfold (f : Nat → Bool) (g : Nat → BitVec 50) (h : Nat → Word) (l : List Nat) (t : State) :
      ReadFrame t (l.foldl (fun s i => if f i then s.writeBack (g i) (h i) else s) t) := by
    induction l generalizing t with
    | nil => exact .refl t
    | cons i l ih =>
      rw [List.foldl_cons]
      refine ReadFrame.trans ?_ (ih _)
      split
      · exact t.writeBack_reads _ _
      · exact .refl t
  unfold State.dropLine
  split
  · exact .refl s
  · rename_i line _
    exact ReadFrame.trans (t := { s with fab := { s.fab with cache := drop s.fab.cache key } }) ⟨rfl⟩ (hfold _ _ _ _ _)

/-! ## Translation (spec/08 R117 to R122) -/

theorem State.entryAt_reads (s : State) (a : Nat) : ReadFrame s (s.entryAt a).1 := by
  unfold State.entryAt
  split <;> exact ⟨rfl⟩

theorem State.walkFrom_reads (ctx : BitVec 12) (va : Nat) (l : List (Nat × Nat × Nat)) (s : State) (t : Nat) :
    ReadFrame s (State.walkFrom ctx va l s t).1 := by
  induction l generalizing s t with
  | nil => exact .refl s
  | cons e l ih =>
    obtain ⟨nbits, entries, align⟩ := e
    have hentry := s.entryAt_reads (t + 8 * (va / 2 ^ nbits % entries))
    unfold State.walkFrom
    split <;> rename_i he <;> rw [he] at hentry
    · exact hentry
    · split
      · exact hentry
      · exact hentry.trans (ih _ _)
      · exact hentry

theorem State.walk_reads (s : State) (ctx : BitVec 12) (va : Nat) : ReadFrame s (s.walk ctx va).1 := by
  unfold State.walk
  dsimp only
  split
  · exact .refl s
  · exact State.walkFrom_reads _ _ _ _ _

theorem State.leaf_reads (s : State) (cl : Option Nat) (ctx : BitVec 12) (va : Nat) : ReadFrame s (s.leaf cl ctx va).1 := by
  have hwalk := s.walk_reads ctx va
  unfold State.leaf
  split
  · exact hwalk
  · dsimp only
    split
    · exact ⟨rfl⟩
    · split <;> rename_i he <;> rw [he] at hwalk
      · exact hwalk
      · exact hwalk.trans ⟨rfl⟩

theorem State.xlate_reads (s : State) (cl : Option Nat) (ctx : BitVec 12) (eng : Bool) (n : Need) (ga : Word) :
    ReadFrame s (s.xlate cl ctx eng n ga).1 := by
  have hleaf := s.leaf_reads cl ctx (bits ga 0 48)
  unfold State.xlate
  split
  · split
    · exact .refl s
    · split <;> rename_i he <;> rw [he] at hleaf
      · exact hleaf
      · split <;> exact hleaf
  · split <;> exact .refl s
  · split <;> exact .refl s
  · exact .refl s

/-! ## Engine accesses (spec/02 R32, R33, spec/10 R147) -/

section
variable {e : Acc} (he : silentSrc e.src)
include he

theorem State.engRefuse_reads (s : State) (st : BitVec 4) (sys : BitVec 50) : ReadFrame s (s.engRefuse e st sys).1 :=
  State.logViolation_reads he _ _ _ _ _ _

theorem State.engStand_reads (s : State) (sys : BitVec 50) : ReadFrame s (s.engStand e sys).1 := by
  unfold State.engStand
  split
  · split
    · exact (s.engLeave_reads e sys).trans (State.engRefuse_reads he _ _ _)
    · exact .refl s
  · split
    · exact State.engRefuse_reads he _ _ _
    · exact ⟨rfl⟩

omit he in
theorem State.engSend_reads (s : State) (wr : Option Word) (sys : BitVec 50) (n : Nat) : ReadFrame s (s.engSend e wr sys n) := by
  refine (s.dropLine_reads (sys.toNat / 64)).trans ?_
  unfold State.engSend State.engPacket
  dsimp only
  split
  · exact State.fabOut_reads _ _
  · exact (State.noFill_reads _ _ _).trans ((State.charge_reads _ _ _ _).trans (State.fabOut_reads _ _))

theorem State.engOverdue_reads (s : State) (wr : Option Word) (sys : BitVec 50) (n : Nat) : ReadFrame s (s.engOverdue e wr sys n).1 := by
  unfold State.engOverdue
  split
  · exact ⟨rfl⟩
  · split
    · exact .refl s
    · dsimp only
      exact (s.engLeave_reads e sys).trans ((State.engSend_reads _ _ _ _).trans ((State.expect_reads _ _).trans
        ((State.tagDrawn_reads _ _).trans (State.noteStatus_reads he _ _ _ _ _))))

theorem State.engPeer_reads (s : State) (wr : Option Word) (sys : BitVec 50) (n : Nat) : ReadFrame s (s.engPeer e wr sys n).1 := by
  unfold State.engPeer
  split
  · exact (s.engLeave_reads e sys).trans (State.engRefuse_reads he _ _ _)
  · split
    · exact .refl s
    · split
      · exact State.engOverdue_reads he _ _ _ _
      · dsimp only
        rw [apply_ite Prod.fst, ite_self]
        exact (State.engSend_reads s wr sys n).trans
          (ReadFrame.trans (t := { s.engSend e wr sys n with free := (s.engSend e wr sys n).free + 1 }) ⟨rfl⟩
            (State.noteStatus_reads he _ _ _ _ _))

theorem State.engTarget_reads (s : State) (wr : Option Word) (ga : Word) (n : Nat) : ReadFrame s (s.engTarget e wr ga n).1 := by
  have hxlate := s.xlate_reads e.cl e.ctx e.eng (if wr.isSome then .write else .read) ga
  unfold State.engTarget
  split <;> rename_i hx <;> rw [hx] at hxlate
  · exact hxlate
  · exact hxlate.trans (State.engRefuse_reads he _ _ _)
  · refine hxlate.trans ?_
    split
    · exact State.engRefuse_reads he _ _ _
    · split
      · dsimp only
        split
        · exact (State.mend_reads _ _).trans ((State.engLeave_reads _ _ _).trans (State.engRefuse_reads he _ _ _))
        · split
          · exact State.engRefuse_reads he _ _ _
          · split
            · exact State.engStand_reads he _ _
            · exact (State.engLeave_reads _ _ _).trans (State.engRefuse_reads he _ _ _)
            · split
              · exact (State.engLeave_reads _ _ _).trans (State.engRefuse_reads he _ _ _)
              · exact (State.engLeave_reads _ _ _).trans (State.correct_reads _ _ _)
      · exact State.engPeer_reads he _ _ _ _

theorem State.engRead_reads (s : State) (ga : Word) (n : Nat) : ReadFrame s (s.engRead e ga n).1 := by
  have htarget := State.engTarget_reads he s none ga n
  unfold State.engRead
  split <;> rename_i hx <;> rw [hx] at htarget
  · exact htarget
  · refine htarget.trans ?_
    dsimp only
    split
    · exact State.charge_reads _ _ _ _
    · exact .refl _
  · exact htarget.trans ⟨rfl⟩

theorem State.engReadWords_reads (n : Nat) (s : State) (ga : Word) : ReadFrame s (State.engReadWords e n s ga).1 := by
  induction n generalizing s ga with
  | zero => exact .refl s
  | succ n ih =>
    have hread := State.engRead_reads he s ga 8
    unfold State.engReadWords
    split <;> rename_i hx <;> rw [hx] at hread
    · exact hread
    · rename_i t b
      have hrest := ih t (ga + 8)
      split <;> rename_i hy <;> rw [hy] at hrest <;> exact hread.trans hrest

end

/-- As many words are read as are asked for. -/
theorem State.engReadWords_length {e : Acc} {n : Nat} {s t : State} {ga : Word} {ws : List Word}
    (h : State.engReadWords e n s ga = (t, .ok ws)) : ws.length = n := by
  induction n generalizing s ga ws with
  | zero =>
    cases h
    rfl
  | succ n ih =>
    unfold State.engReadWords at h
    split at h
    · cases h
    · split at h
      · cases h
      · rename_i hrest
        cases h
        rw [List.length_cons, ih hrest]

/-- The scheduler hart's reads. -/
theorem hartAcc_silent (ctx : BitVec 12) (core : Nat) : silentSrc (hartAcc ctx core).src := silentSrc_four

end Sys2Proof.Machine
end

section
/-!
SUPPORT. Releases (spec/05 R69, R71): what ends with a transfer that loses its supervisor, with the items and the engines of a core, and what a
RELEASE leaves of its core, said once.
-/

namespace Sys2Proof.Machine

/-- A fold none of whose steps does anything. -/
theorem foldl_fixed_of_mem {α β : Type} {f : α → β → α} {s : α} {l : List β} (h : ∀ b ∈ l, f s b = s) : l.foldl f s = s := by
  induction l with
  | nil => rfl
  | cons b l ih => rw [List.foldl_cons, h b List.mem_cons_self, ih fun b hb => h b (List.mem_cons_of_mem _ hb)]

/-- What a table holds is its default or stands in it. -/
theorem look_eq_or_mem {α : Type} (d : α) (l : Assoc α) (k : Nat) : look d l k = d ∨ (k, look d l k) ∈ l := by
  induction l with
  | nil => exact .inl rfl
  | cons p r ih =>
    obtain ⟨k', a⟩ := p
    by_cases h : k' = k
    · subst h
      simp [look]
    · simpa [look, h, Ne.symm h] using ih

/-- A core that holds a slot stands in the table. -/
theorem State.mem_cores {s : State} {k : CoreIx} (h : (s.core k).slot.st ≠ .idle) : (k.val, s.core k) ∈ s.cores := by
  rcases look_eq_or_mem Core.reset s.cores k.val with hk | hk
  · exact absurd (congrArg (·.slot.st) hk) h
  · exact hk

theorem toCore_val (k : CoreIx) : toCore k.val = k := Fin.ext (Nat.mod_eq_of_lt k.isLt)

theorem State.mem_listed {s : State} {k : CoreIx} (h : (s.core k).slot.st ≠ .idle) : k ∈ s.listed :=
  List.mem_map.mpr ⟨_, s.mem_cores h, toCore_val k⟩

/-! ## Transfers without a supervisor (spec/09 R136) -/

theorem Core.RelayFrame.inbox {c d : Core} (h : Core.RelayFrame c d) : Core.InboxFrame c d :=
  ⟨h.main, h.hnd, h.ctl, h.slot, h.exch, h.seq, h.pwr, by rw [h.evt]⟩

theorem State.res_setRes (s : State) (e j : Nat) (r : ResEntry) : (s.setRes e r).res j = if j = e then r else s.res j := by
  simp [State.res, State.setRes, look_put]

/-- Transfers of the cores of a launch end: of the cores only engines, inboxes and what waits for them change, and entries that were fetched
become absent. -/
structure State.EndsXfers (lid : BitVec 16) (s t : State) : Prop where
  rest : t = { s with cores := t.cores, dev := t.dev, free := t.free }
  core : ∀ j, Core.InboxFrame (s.core j) (t.core j)
  others : ∀ j, (s.core j).slot.lid ≠ lid ∨ (s.core j).slot.st = .idle → t.core j = s.core j
  res : ∀ e, t.res e = s.res e ∨ t.res e = { s.res e with state := 0, xid := 0 }

section
variable {lid : BitVec 16} {s t u : State}

theorem State.EndsXfers.refl (lid : BitVec 16) (s : State) : EndsXfers lid s s := ⟨rfl, fun _ => .refl _, fun _ _ => rfl, fun _ => .inl rfl⟩

theorem State.EndsXfers.trans (h : EndsXfers lid s t) (k : EndsXfers lid t u) : EndsXfers lid s u where
  rest := by rw [k.rest, h.rest]
  core j := (h.core j).trans (k.core j)
  others j hj := by
    have hslot := (h.core j).slot
    exact (k.others j (by rwa [hslot])).trans (h.others j hj)
  res e := by
    rcases k.res e with hk | hk <;> rcases h.res e with hh | hh <;> simp [hk, hh]

theorem State.EndsXfers.slot (h : EndsXfers lid s t) (j : CoreIx) : (t.core j).slot = (s.core j).slot := (h.core j).slot

/-- A transfer that ends abnormally. -/
theorem State.endXfer_ends {k : CoreIx} (hlid : (s.core k).slot.lid = lid) (hst : (s.core k).slot.st ≠ .idle) (x : Xfer) {st : Nat}
    (h0 : st ≠ 0) (payload : Nat) : EndsXfers lid s (s.endXfer k x st payload) := by
  let c1 := (s.core k).setXfer { x with ended := true }
  let c2 := (c1.relayPulses [(2, 0), (3, x.xid.toNat)]).place
    { msgs := [mkMsg 0x20 st k.val x.xid.toNat (BitVec.ofNat 64 payload)], act := .freeXfer x.xid }
  have hframe : Core.InboxFrame (s.core k) c2 :=
    Core.InboxFrame.trans (b := c1) ⟨rfl, rfl, rfl, rfl, rfl, rfl, rfl, rfl⟩
      ((Core.relayPulses_frame _ _).inbox.trans (Core.place_frame _ _))
  have hcore (j : CoreIx) : (s.endXfer k x st payload).core j = if j = k then c2 else s.core j := by
    have hmod (f g h : Core → Core) :
        (((s.modCore k f).modCore k g).modCore k h).core j = if j = k then h (g (f (s.core k))) else s.core j := by
      simp only [State.modCore, setCore_setCore, core_setCore, if_true]
    unfold State.endXfer
    cases hf : x.fetch <;> simp only [h0, if_false]
    · exact (hmod (·.setXfer _) (·.relayPulses _) (·.place _)).trans (by rw [← hf])
    · exact (hmod (·.setXfer _) (·.relayPulses _) (·.place _)).trans (by rw [← hf])
  refine ⟨?_, fun j => ?_, fun j hj => ?_, fun e => ?_⟩
  · unfold State.endXfer
    cases x.fetch <;> simp only [h0, if_false] <;> rfl
  · rw [hcore]
    split
    · rename_i hj
      exact hj ▸ hframe
    · exact .refl _
  · rw [hcore, if_neg]
    rintro rfl
    exact hj.elim (· hlid) hst
  · unfold State.endXfer
    cases hf : x.fetch with
    | none => exact .inl rfl
    | some f =>
      simp only [h0, if_false]
      show ((s.modCore k _).setRes f.entry _).res e = _ ∨ ((s.modCore k _).setRes f.entry _).res e = _
      rw [State.res_setRes]
      split
      · rename_i he
        exact .inr (by rw [he]; rfl)
      · exact .inl rfl

theorem State.orphanXfers_ends (lid : BitVec 16) (s : State) : EndsXfers lid s (s.orphanXfers lid) := by
  refine List.foldlRecOn _ _ (motive := EndsXfers lid s) (.refl lid s) fun t ht k _ => ht.trans ?_
  split
  · rename_i hk
    simp only [Bool.and_eq_true, beq_iff_eq, decide_eq_true_eq] at hk
    refine List.foldlRecOn _ _ (motive := EndsXfers lid t) (.refl lid t) fun u hu x _ => ?_
    split
    · exact hu.trans (State.endXfer_ends (by rw [hu.slot, hk.1]) (by rw [hu.slot]; exact hk.2) x (by decide) _)
    · exact hu
  · exact .refl lid t

/-- Where none is suspended, none ends. -/
theorem State.orphanXfers_of_none (h : ∀ j, ∀ x ∈ (s.core j).eng.copies, x.state ≠ .suspended) (lid : BitVec 16) : s.orphanXfers lid = s := by
  refine foldl_fixed_of_mem fun k _ => ?_
  split
  · exact foldl_fixed_of_mem fun x hx => by simp [h k x hx]
  · rfl

end

/-! ## Stores beyond the windows -/

/-- A store outside the core windows changes memory alone. -/
theorem State.store_of_ge {a : Nat} (h : 2 ^ 32 ≤ a) (s : State) (n v : Nat) : s.store a n v = { s with mem := writeLE s.mem a n v } := by
  rw [State.store, State.touch, if_neg (Nat.not_lt.mpr h)]

theorem State.storeWords_of_ge {a : Nat} (h : 2 ^ 32 ≤ a) (ws : List Word) (s : State) :
    s.storeWords a ws = { s with mem := (s.storeWords a ws).mem } := by
  induction ws generalizing s a with
  | nil => rfl
  | cons w ws ih =>
    rw [State.storeWords, ih (Nat.le_add_right_of_le h), State.store_of_ge h]

/-! ## Items (spec/09 R140) -/

/-- Items change only the lists, the spill areas and the memory that holds these. -/
structure State.ItemFrame (s t : State) : Prop where
  rest : t = { s with mem := t.mem, lists := t.lists, spilled := t.spilled }

theorem State.ItemFrame.refl (s : State) : ItemFrame s s := ⟨rfl⟩

theorem State.ItemFrame.trans {s t u : State} (h : ItemFrame s t) (k : ItemFrame t u) : ItemFrame s u where
  rest := by rw [k.rest, h.rest]

theorem State.setArea_spilled (s : State) (ctx : Nat) (l : List WorkItem) :
    (s.setArea ctx l).spilled = put s.spilled ctx l ∧ (s.setArea ctx l).lists = s.lists ∧ ItemFrame s (s.setArea ctx l) := by
  unfold State.setArea
  dsimp only
  split
  · rename_i h
    have hge : 2 ^ 32 ≤ bits (look 0 s.dev.wlSpill ctx) 0 40 := by
      simp only [inStacks, Bool.and_eq_true, decide_eq_true_eq] at h
      exact Nat.le_trans (by decide) h.1
    rw [State.storeWords_of_ge hge]
    exact ⟨rfl, rfl, ⟨rfl⟩⟩
  · exact ⟨rfl, rfl, ⟨rfl⟩⟩

theorem firstSpilled_mem {f : WorkItem → Bool} {a : Assoc (List WorkItem)} {c : Nat} {rest : List WorkItem} {x : WorkItem}
    (h : firstSpilled f a = some (c, rest, x)) : ∃ l, (c, l) ∈ a ∧ x ∈ l ∧ ∀ y ∈ rest, y ∈ l := by
  induction a with
  | nil => cases h
  | cons p r ih =>
    obtain ⟨c', l⟩ := p
    unfold firstSpilled at h
    split at h
    · rename_i y hy
      cases h
      exact ⟨l, List.mem_cons_self, List.mem_of_find?_eq_some hy, fun y hy => List.mem_of_mem_erase hy⟩
    · obtain ⟨l', hl', hx⟩ := ih h
      exact ⟨l', List.mem_cons_of_mem _ hl', hx⟩

/-- Every item of the lists and of the spill areas has a property. -/
structure State.Items (P Q : WorkItem → Prop) (s : State) : Prop where
  lists : ∀ p ∈ s.lists, ∀ x ∈ p.2, P x
  spilled : ∀ p ∈ s.spilled, ∀ x ∈ p.2, Q x

section
variable {s : State}

theorem State.refillOne_frame (s : State) (die : Nat) : ItemFrame s (s.refillOne die) := by
  unfold State.refillOne
  split
  · exact .refl s
  · split
    · exact .refl s
    · exact (State.setArea_spilled _ _ _).2.2.trans ⟨rfl⟩

theorem State.refill_frame (s : State) (die : Nat) : ItemFrame s (s.refill die) :=
  List.foldlRecOn _ _ (motive := ItemFrame s) (.refl s) fun t ht _ _ => ht.trans (t.refillOne_frame die)

theorem State.dropItems_items (s : State) (gone : WorkItem → Bool) : ItemFrame s (s.dropItems gone) := by
  refine List.foldlRecOn (motive := ItemFrame s) _ _ ?_ fun t ht die _ => ht.trans (t.refill_frame die)
  refine ItemFrame.trans (List.foldlRecOn (motive := ItemFrame s) _ _ (.refl s) fun t ht p _ => ht.trans ?_) ⟨rfl⟩
  split
  · exact (State.setArea_spilled _ _ _).2.2
  · exact .refl t

/-- A spilled item that moves up is still an item. -/
theorem State.Items.refillOne {P Q : WorkItem → Prop} (hQ : ∀ x, Q x → P x) (h : s.Items P Q) (die : Nat) : (s.refillOne die).Items P Q := by
  unfold State.refillOne
  split
  · exact h
  · split
    · exact h
    · rename_i c rest x hfirst
      obtain ⟨l, hl, hx, hrest⟩ := firstSpilled_mem hfirst
      obtain ⟨hspilled, hlists, -⟩ := s.setArea_spilled c rest
      refine ⟨fun p hp y hy => ?_, fun p hp y hy => ?_⟩
      · replace hp : p ∈ put (s.setArea c rest).lists x.core.val (look [] (s.setArea c rest).lists x.core.val ++ [x]) := hp
        rw [hlists] at hp
        rcases mem_put hp with rfl | hp
        · rcases List.mem_append.mp hy with hy | hy
          · rcases look_eq_or_mem [] s.lists x.core.val with he | he
            · rw [he] at hy
              cases hy
            · exact h.lists _ he y hy
          · exact hQ _ (List.mem_singleton.mp hy ▸ h.spilled _ hl x hx)
        · exact h.lists p hp y hy
      · replace hp : p ∈ (s.setArea c rest).spilled := hp
        rw [hspilled] at hp
        rcases mem_put hp with rfl | hp
        · exact h.spilled _ hl y (hrest y hy)
        · exact h.spilled p hp y hy

/-- Where no spilled item goes, the items that stay are those of before. -/
theorem State.dropItems_spec {gone : WorkItem → Bool} (h : ∀ p ∈ s.spilled, ∀ x ∈ p.2, gone x = false) :
    (s.dropItems gone).Items (fun x => gone x = false ∧ ((∃ q ∈ s.lists, x ∈ q.2) ∨ ∃ q ∈ s.spilled, x ∈ q.2))
      (fun x => gone x = false ∧ ∃ q ∈ s.spilled, x ∈ q.2) := by
  unfold State.dropItems
  rw [foldl_fixed_of_mem (fun (p : Nat × List WorkItem) hp => if_neg (by simpa using h p hp))]
  refine List.foldlRecOn (motive := State.Items _ _) _ _ ⟨fun p hp x hx => ?_, fun p hp x hx => ⟨h p hp x hx, p, hp, hx⟩⟩ fun t ht die _ =>
    List.foldlRecOn (motive := State.Items _ _) _ _ ht fun u hu _ _ => hu.refillOne (fun x hx => ⟨hx.1, .inr hx.2⟩) die
  obtain ⟨q, hq, rfl⟩ := List.mem_map.mp (List.mem_of_mem_filter hp)
  obtain ⟨hx, hgone⟩ := List.mem_filter.mp hx
  exact ⟨by simpa using hgone, .inl ⟨q, hq, hx⟩⟩

end

/-! ## The engines of a core (spec/05 R71) -/

/-- What a release of core k ends at the engines of the device. -/
structure State.EndsEngines (k : CoreIx) (lid : BitVec 16) (s t : State) : Prop where
  rest : t = { s with mem := t.mem, lists := t.lists, spilled := t.spilled, fab := t.fab, net := t.net, engWaits := t.engWaits,
                      xfers := t.xfers, pushed := t.pushed, pre := t.pre, posts := t.posts, mktWaits := t.mktWaits, parts := t.parts,
                      convoy := t.convoy }
  net : t.net = s.net.filterMap fun r => if r.src.ownedBy k then r.leave k lid else some r
  pre : t.pre = s.pre.drop k lid
  graphs : t.convoy.graphs = s.convoy.graphs
  parts : ∀ p ∈ t.parts, ∃ q ∈ s.parts, p.2.owner = q.2.owner
  calm : s.spilled = [] → t.mem = s.mem ∧ t.spilled = []
  lists : (∀ p ∈ s.spilled, ∀ x ∈ p.2, x.core ≠ k ∨ x.lid ≠ lid) → ∀ p ∈ t.lists, ∀ x ∈ p.2,
    (x.core ≠ k ∨ x.lid ≠ lid) ∧ ((∃ q ∈ s.lists, x ∈ q.2) ∨ ∃ q ∈ s.spilled, x ∈ q.2)

section
variable {k : CoreIx} {lid : BitVec 16} {s t : State}

theorem State.EndsEngines.cores (h : EndsEngines k lid s t) : t.cores = s.cores := by rw [h.rest]
theorem State.EndsEngines.saves (h : EndsEngines k lid s t) : t.saves = s.saves := by rw [h.rest]
theorem State.EndsEngines.sched (h : EndsEngines k lid s t) : t.sched = s.sched := by rw [h.rest]
theorem State.EndsEngines.host (h : EndsEngines k lid s t) : t.host = s.host := by rw [h.rest]
theorem State.EndsEngines.res (h : EndsEngines k lid s t) (e : Nat) : t.res e = s.res e := by rw [State.res, h.rest, State.res]

end

/-- Requests that are over leave their stations. -/
theorem State.leaveStations_eq (s : State) (l : List Req) :
    ∃ f, l.foldl (fun (s : State) r => match r.plane with | some p => s.subOutstanding p | none => s) s = { s with fab := f } :=
  List.foldlRecOn (motive := fun t : State => ∃ f, t = { s with fab := f }) _ _ ⟨s.fab, rfl⟩ fun t ⟨f, ht⟩ r _ => by
    subst ht
    cases r.plane with
    | none => exact ⟨f, rfl⟩
    | some p => exact ⟨_, rfl⟩

theorem State.endEngines_ends (s : State) (k : CoreIx) : EndsEngines k (s.core k).slot.lid s (s.endEngines k) := by
  have hfor (x : WorkItem) : s.isFor k x = false ↔ x.core ≠ k ∨ x.lid ≠ (s.core k).slot.lid := by
    simp [State.isFor, imp_iff_not_or]
  unfold State.endEngines
  extract_lets lid gone s1 part tok convoy fab s'
  obtain ⟨f, hf⟩ : ∃ f, s1 = { s with fab := f } := s.leaveStations_eq _
  clear_value s1
  subst hf
  have hrest := (State.dropItems_items s' (s.isFor k)).rest
  have hcalm (hs : s.spilled = []) := State.dropItems_frame (s := s') hs (s.isFor k)
  have hitems (hs : ∀ p ∈ s.spilled, ∀ x ∈ p.2, x.core ≠ k ∨ x.lid ≠ lid) :=
    State.dropItems_spec (s := s') (gone := s.isFor k) fun p hp x hx => (hfor x).mpr (hs p hp x hx)
  change EndsEngines k lid s (s'.dropItems (s.isFor k))
  generalize s'.dropItems (s.isFor k) = t at *
  refine ⟨by rw [hrest], by rw [hrest], by rw [hrest], by rw [hrest], fun p hp => ?_, fun hs => ?_, fun hs p hp x hx => ?_⟩
  · rw [hrest] at hp
    obtain ⟨q, hq, rfl⟩ := List.mem_map.mp hp
    exact ⟨q, hq, rfl⟩
  · exact ⟨(hcalm hs).mem, (hcalm hs).spilled.trans hs⟩
  · obtain ⟨hgone, hfrom⟩ := (hitems hs).lists p hp x hx
    exact ⟨(hfor x).mp hgone, hfrom⟩

/-! ## Tables that lose entries -/

theorem lookup_drop_self {α : Type} (l : Assoc α) (k : Nat) : lookup (drop l k) k = none := by
  unfold drop
  induction l with
  | nil => rfl
  | cons p r ih =>
    obtain ⟨k', a⟩ := p
    by_cases h : k' = k
    · simpa [h] using ih
    · simpa [h, lookup] using ih

theorem look_filter_of_not {α : Type} (d : α) (l : Assoc α) {f : Nat → Bool} {k : Nat} (h : f k = false) :
    look d (l.filter fun p => f p.1) k = d := by
  induction l with
  | nil => rfl
  | cons p r ih =>
    obtain ⟨k', a⟩ := p
    by_cases hk : k' = k
    · subst hk
      simpa [h] using ih
    · by_cases hf : f k' = true
      · simpa [hf, look, hk] using ih
      · simpa [hf] using ih

theorem look_map {α : Type} {d : α} {f : α → α} (hd : f d = d) (l : Assoc α) (k : Nat) :
    look d (l.map fun p => (p.1, f p.2)) k = f (look d l k) := by
  induction l with
  | nil => exact hd.symm
  | cons p r ih =>
    obtain ⟨k', a⟩ := p
    by_cases hk : k' = k
    · simp [look, hk]
    · simpa [look, hk] using ih

/-! ## RELEASE (spec/05 R69) -/

/-- A fetch that has not ended leaves its entry absent, and nothing else happens (spec/08 R129). -/
theorem State.absentFetches_spec (s : State) (k : CoreIx) :
    s.absentFetches k = { s with dev := (s.absentFetches k).dev } ∧
      ∀ e, (s.absentFetches k).res e = s.res e ∨ (s.absentFetches k).res e = { s.res e with state := 0, xid := 0 } := by
  refine List.foldlRecOn (motive := fun t : State => t = { s with dev := t.dev } ∧
    ∀ e, t.res e = s.res e ∨ t.res e = { s.res e with state := 0, xid := 0 }) _ _ ⟨rfl, fun _ => .inl rfl⟩ fun t ⟨hrest, hres⟩ x _ => ?_
  cases x.fetch with
  | none => exact ⟨hrest, hres⟩
  | some f =>
    dsimp only
    split
    · exact ⟨hrest, hres⟩
    · refine ⟨by rw [State.setRes, hrest], fun e => ?_⟩
      rw [State.res_setRes]
      split
      · rename_i he
        subst he
        rcases hres f.entry with h | h <;> simp [h]
      · exact hres e

/-- The entries of a context once its experts are released (spec/08 R129). -/
theorem State.res_releaseExperts (s : State) (ctx : BitVec 12) (e : Nat) :
    (s.releaseExperts ctx).res e = if (s.res e).ctx = ctx then { s.res e with state := 0, pin := 0, xid := 0 } else s.res e := by
  have hmap := look_map (d := ResEntry.reset) (f := fun r => if r.ctx == ctx then { r with state := 0, pin := 0, xid := 0 } else r)
    (by split <;> rfl) s.dev.residency e
  refine Eq.trans (show (s.releaseExperts ctx).res e = _ from hmap) ?_
  simp only [beq_iff_eq]
  rfl

/-- The core and what is held for it at the Caravanserai before its slot is IDLE. -/
def State.withdrawn (s : State) (i : CoreIx) : State := ((s.absentFetches i).disarm (s.core i).slot.ctx).endEngines i

/-- And with launch rank 0 the partitions and the experts. -/
def State.cleared (s : State) (i : CoreIx) : State :=
  if (s.core i).slot.lrank = 0 then ((s.withdrawn i).releaseParts (s.core i).slot.lid).releaseExperts (s.core i).slot.ctx else s.withdrawn i

/-- Then its slot is IDLE. -/
def State.idled (s : State) (i : CoreIx) : State := (s.cleared i).modCore i Core.toIdle

/-- And with launch rank 0 the suspended transfers of its launch end. -/
def State.orphaned (s : State) (i : CoreIx) : State :=
  if (s.core i).slot.lrank = 0 then (s.idled i).orphanXfers (s.core i).slot.lid else s.idled i

theorem State.unbind_eq (s : State) (i : CoreIx) : s.unbind i = { s.orphaned i with
    saves := drop (s.idled i).saves (saveKey (s.core i).slot.lid i)
    sched := { (s.idled i).sched with faults := (s.idled i).sched.faults.filter (· ≠ i) } } := rfl

/-- What a release leaves of core i, and elsewhere. -/
structure State.Unbinds (i : CoreIx) (s t : State) : Prop where
  self : t.core i = (s.core i).toIdle
  frame : ∀ j, j ≠ i → Core.InboxFrame (s.core j) (t.core j)
  others : ∀ j, j ≠ i → (s.core j).slot.lid ≠ (s.core i).slot.lid ∨ (s.core j).slot.st = .idle → t.core j = s.core j
  alone : (s.core i).slot.lrank ≠ 0 ∨ (∀ j, ∀ x ∈ (s.core j).eng.copies, x.state ≠ .suspended) → ∀ j, j ≠ i → t.core j = s.core j
  launches : t.sched.launches = s.sched.launches
  faults : t.sched.faults = s.sched.faults.filter (· ≠ i)
  host : t.host = s.host
  calm : s.spilled = [] → t.mem = s.mem ∧ t.spilled = []
  net : t.net = s.net.filterMap fun r => if r.src.ownedBy i then r.leave i (s.core i).slot.lid else some r
  pre : t.pre = s.pre.drop i (s.core i).slot.lid
  graphs : ∀ g ∈ t.convoy.graphs, g.2.ctx = (s.core i).slot.ctx → g.2.armed = false ∧ g.2.trigs = [] ∧ g.2.queued = none
  saved : lookup t.saves (saveKey (s.core i).slot.lid i) = none
  lists : (∀ p ∈ s.spilled, ∀ x ∈ p.2, x.core ≠ i ∨ x.lid ≠ (s.core i).slot.lid) → ∀ p ∈ t.lists, ∀ x ∈ p.2,
    (x.core ≠ i ∨ x.lid ≠ (s.core i).slot.lid) ∧ ((∃ q ∈ s.lists, x ∈ q.2) ∨ ∃ q ∈ s.spilled, x ∈ q.2)
  parts : (s.core i).slot.lrank = 0 → ∀ p ∈ t.parts, ∀ x, p.2.owner ≠ some ((s.core i).slot.lid, x)
  experts : (s.core i).slot.lrank = 0 → ∀ e, (s.res e).ctx = (s.core i).slot.ctx →
    (t.res e).state = 0 ∧ (t.res e).pin = 0 ∧ look (0 : Half) t.prices e = 0 ∧ look 0 t.caps e = 0

/-- What is withdrawn before the slot is IDLE. -/
theorem State.withdrawn_ends (s : State) (i : CoreIx) :
    (∃ u : State, u = { s with dev := u.dev, convoy := u.convoy } ∧ (∀ e, u.res e = s.res e ∨ u.res e = { s.res e with state := 0, xid := 0 }) ∧
      (∀ g ∈ u.convoy.graphs, g.2.ctx = (s.core i).slot.ctx → g.2.armed = false ∧ g.2.trigs = [] ∧ g.2.queued = none) ∧
      EndsEngines i (s.core i).slot.lid u (s.withdrawn i)) := by
  obtain ⟨hrest, hres⟩ := s.absentFetches_spec i
  have hends := State.endEngines_ends ((s.absentFetches i).disarm (s.core i).slot.ctx) i
  have hcore : (((s.absentFetches i).disarm (s.core i).slot.ctx).core i).slot.lid = (s.core i).slot.lid := by
    show ((s.absentFetches i).core i).slot.lid = _
    rw [hrest]
    rfl
  rw [hcore] at hends
  refine ⟨(s.absentFetches i).disarm (s.core i).slot.ctx, ?_, hres, fun g hg hctx => ?_, hends⟩
  · show ({ s.absentFetches i with convoy := _ } : State) = _
    rw [hrest]
    rfl
  · obtain ⟨g', -, rfl⟩ := List.mem_map.mp (List.mem_of_mem_filter hg)
    have hctx' : g'.2.ctx = (s.core i).slot.ctx := by
      by_cases hm : g'.2.ctx = (s.core i).slot.ctx
      · exact hm
      · simp [hm] at hctx
    simp [hctx']

theorem State.orphaned_ends (s : State) (i : CoreIx) :
    EndsXfers (s.core i).slot.lid (s.idled i) (s.orphaned i) ∧
      ((s.core i).slot.lrank ≠ 0 ∨ (∀ j, ∀ x ∈ ((s.idled i).core j).eng.copies, x.state ≠ .suspended) → s.orphaned i = s.idled i) := by
  unfold State.orphaned
  split
  · rename_i h
    exact ⟨State.orphanXfers_ends _ _, fun hn => State.orphanXfers_of_none (hn.resolve_left (· h)) _⟩
  · exact ⟨.refl _ _, fun _ => rfl⟩

/-- What a release does before suspended transfers end: elsewhere the cores stay as they are. -/
structure State.Idles (i : CoreIx) (s t : State) : Prop where
  cores : ∀ j, t.core j = if j = i then (s.core i).toIdle else s.core j
  sched : t.sched = s.sched
  host : t.host = s.host
  calm : s.spilled = [] → t.mem = s.mem ∧ t.spilled = []
  net : t.net = s.net.filterMap fun r => if r.src.ownedBy i then r.leave i (s.core i).slot.lid else some r
  pre : t.pre = s.pre.drop i (s.core i).slot.lid
  graphs : ∀ g ∈ t.convoy.graphs, g.2.ctx = (s.core i).slot.ctx → g.2.armed = false ∧ g.2.trigs = [] ∧ g.2.queued = none
  lists : (∀ p ∈ s.spilled, ∀ x ∈ p.2, x.core ≠ i ∨ x.lid ≠ (s.core i).slot.lid) → ∀ p ∈ t.lists, ∀ x ∈ p.2,
    (x.core ≠ i ∨ x.lid ≠ (s.core i).slot.lid) ∧ ((∃ q ∈ s.lists, x ∈ q.2) ∨ ∃ q ∈ s.spilled, x ∈ q.2)
  parts : (s.core i).slot.lrank = 0 → ∀ p ∈ t.parts, ∀ x, p.2.owner ≠ some ((s.core i).slot.lid, x)
  experts : (s.core i).slot.lrank = 0 → ∀ e, (s.res e).ctx = (s.core i).slot.ctx →
    (t.res e).state = 0 ∧ (t.res e).pin = 0 ∧ look (0 : Half) t.prices e = 0 ∧ look 0 t.caps e = 0

theorem State.idled_idles (s : State) (i : CoreIx) : Idles i s (s.idled i) := by
  obtain ⟨u, hu, hres, hgraphs, hends⟩ := s.withdrawn_ends i
  have hu' : u.cores = s.cores ∧ u.sched = s.sched ∧ u.host = s.host ∧ u.mem = s.mem ∧ u.spilled = s.spilled ∧ u.lists = s.lists ∧
      u.net = s.net ∧ u.pre = s.pre := by
    rw [hu]
    exact ⟨rfl, rfl, rfl, rfl, rfl, rfl, rfl, rfl⟩
  obtain ⟨hcores, hsched, hhost, hmem, hspilled, hlists, hnet, hpre⟩ := hu'
  have hexperts (e : Nat) : (u.res e).ctx = (s.res e).ctx := by rcases hres e with h | h <;> rw [h]
  unfold State.idled State.cleared
  generalize s.withdrawn i = w at hends
  have hw (j : CoreIx) : w.core j = s.core j := by rw [State.core, hends.cores, hcores, State.core]
  let c : State := if (s.core i).slot.lrank = 0 then (w.releaseParts (s.core i).slot.lid).releaseExperts (s.core i).slot.ctx else w
  have hc : c = { w with parts := c.parts, prices := c.prices, caps := c.caps, dev := c.dev } := by
    simp only [c]
    split <;> rfl
  have hcleared (h : (s.core i).slot.lrank = 0) : c = (w.releaseParts (s.core i).slot.lid).releaseExperts (s.core i).slot.ctx := if_pos h
  change Idles i s (c.modCore i Core.toIdle)
  clear_value c
  refine ⟨fun j => ?_, ?_, ?_, fun hs => ?_, ?_, ?_, fun g hg => ?_, fun hs p hp x hx => ?_, fun h p hp x => ?_, fun h e he => ?_⟩
  · rw [State.modCore, core_setCore, hc]
    show (if j = i then (w.core i).toIdle else w.core j) = _
    rw [hw, hw]
  · rw [State.modCore_sched, hc]
    exact hends.sched.trans hsched
  · rw [State.modCore_host, hc]
    exact hends.host.trans hhost
  · rw [State.modCore_mem, State.modCore_spilled, hc]
    obtain ⟨hm, hsp⟩ := hends.calm (hspilled.trans hs)
    exact ⟨hm.trans hmem, hsp⟩
  · rw [State.modCore_net, hc]
    exact hends.net.trans (by rw [hnet])
  · rw [State.modCore_pre, hc]
    exact hends.pre.trans (by rw [hpre])
  · rw [State.modCore_convoy, hc] at hg
    exact hgraphs g (hends.graphs ▸ hg)
  · rw [State.modCore_lists, hc] at hp
    have := hends.lists (by rwa [hspilled]) p hp x hx
    rwa [hspilled, hlists] at this
  · rw [State.modCore_parts, hcleared h] at hp
    have hother := (List.mem_filter.mp hp).2
    intro ho
    simp [ho] at hother
  · have hres' : (c.res e).state = 0 ∧ (c.res e).pin = 0 := by
      rw [hcleared h, State.res_releaseExperts]
      have hctx : ((w.releaseParts (s.core i).slot.lid).res e).ctx = (s.core i).slot.ctx := by
        show (w.res e).ctx = _
        rw [hends.res, hexperts, he]
      rw [if_pos hctx]
      exact ⟨rfl, rfl⟩
    have hother : (((w.releaseParts (s.core i).slot.lid).res e).ctx != (s.core i).slot.ctx) = false := by
      show ((w.res e).ctx != _) = false
      rw [hends.res, hexperts, he]
      simp
    refine ⟨hres'.1, hres'.2, ?_, ?_⟩
    · rw [State.modCore_prices, hcleared h]
      exact look_filter_of_not _ _ (f := fun p => ((w.releaseParts (s.core i).slot.lid).res p).ctx != (s.core i).slot.ctx) hother
    · rw [State.modCore_caps, hcleared h]
      exact look_filter_of_not _ _ (f := fun p => ((w.releaseParts (s.core i).slot.lid).res p).ctx != (s.core i).slot.ctx) hother

/-- What RELEASE does at core i, which then is IDLE. -/
theorem State.unbind_unbinds (s : State) (i : CoreIx) : Unbinds i s (s.unbind i) := by
  have hi := s.idled_idles i
  obtain ⟨hends, hnone⟩ := s.orphaned_ends i
  rw [s.unbind_eq]
  generalize s.idled i = u at *
  generalize s.orphaned i = t at *
  have hself : t.core i = (s.core i).toIdle := by
    rw [hends.others i (.inr (by rw [hi.cores, if_pos rfl]; rfl)), hi.cores, if_pos rfl]
  have hother {j : CoreIx} (hj : j ≠ i) : u.core j = s.core j := by rw [hi.cores, if_neg hj]
  have hrest := hends.rest
  refine ⟨hself, fun j hj => ?_, fun j hj hb => ?_, fun hn j hj => ?_, ?_, ?_, ?_, fun hs => ?_, ?_, ?_, fun g hg => ?_, lookup_drop_self _ _,
    fun hs p hp => ?_, fun h p hp => ?_, fun h e he => ?_⟩
  · exact (hother hj) ▸ hends.core j
  · exact (hends.others j (by rwa [hother hj])).trans (hother hj)
  · refine Eq.trans (congrArg (·.core j) (hnone (hn.imp_right fun hn k x hx => ?_))) (hother hj)
    rw [hi.cores] at hx
    split at hx
    · cases hx
    · exact hn k x hx
  · show u.sched.launches = _
    rw [hi.sched]
  · show u.sched.faults.filter (· ≠ i) = _
    rw [hi.sched]
  · show t.host = _
    rw [hrest]
    exact hi.host
  · show t.mem = _ ∧ t.spilled = []
    rw [hrest]
    exact hi.calm hs
  · show t.net = _
    rw [hrest]
    exact hi.net
  · show t.pre = _
    rw [hrest]
    exact hi.pre
  · replace hg : g ∈ t.convoy.graphs := hg
    rw [hrest] at hg
    exact hi.graphs g hg
  · replace hp : p ∈ t.lists := hp
    rw [hrest] at hp
    exact hi.lists hs p hp
  · replace hp : p ∈ t.parts := hp
    rw [hrest] at hp
    exact hi.parts h p hp
  · obtain ⟨hst, hpin, hprice, hcap⟩ := hi.experts h e he
    have hres : (t.res e).state = 0 ∧ (t.res e).pin = 0 := by
      rcases hends.res e with hr | hr <;> rw [hr]
      · exact ⟨hst, hpin⟩
      · exact ⟨rfl, hpin⟩
    refine ⟨hres.1, hres.2, ?_, ?_⟩
    · show look 0 t.prices e = 0
      rw [hrest]
      exact hprice
    · show look 0 t.caps e = 0
      rw [hrest]
      exact hcap

end Sys2Proof.Machine
end

section
/-!
SUPPORT. Bind records (spec/05 R68, R69): the record as the slot holds it, the cores of a cluster, what each action does of a record that is
accepted and of one that is refused.
-/

namespace Sys2Proof.Machine

/-! ## The record and its refusal -/

theorem bindWord_eq (act : BitVec 4) (r : BindRec) : bindWord act.toNat r = natW (act.toNat * 2 ^ 60 + r.prio.toNat * 2 ^ 57 +
    r.ctx.toNat * 2 ^ 40 + r.lid.toNat * 2 ^ 24 + r.lrank.toNat * 2 ^ 12 + r.seq.toNat * 2 ^ 4) := by
  rw [bindWord, Nat.mod_eq_of_lt act.isLt, natW]

theorem setWidth_crec (r : BindRec) : r.crec.setWidth 64 = natW r.crec.toNat := by
  rw [natW, BitVec.ofNat_toNat]

/-- Word 0 of a record as it is written. -/
def recordWord (act : BitVec 4) (r : BindRec) : Word := natW (act.toNat * 2 ^ 60 + r.prio.toNat * 2 ^ 57 + r.ctx.toNat * 2 ^ 40 +
  r.lid.toNat * 2 ^ 24 + r.lrank.toNat * 2 ^ 12 + r.seq.toNat * 2 ^ 4)

/-- A slot with the record it was written and its answer to it, whatever the word it then shows. -/
theorem Slot.answer_eq {act : BitVec 4} {r : BindRec} {w : Word} (hw : recordWord act r = w) (t : Slot) (err : Bool) :
    t.answer act.toNat r err = { t with rec0 := w, rec1 := natW r.crec.toNat, act := act, seq := r.seq, aseq := r.seq, err := err } := by
  rw [Slot.answer, bindWord_eq, setWidth_crec, BitVec.ofNat_toNat, BitVec.setWidth_eq, ← hw, recordWord]

/-- An answer leaves what a bind set. -/
theorem Slot.answered (t : Slot) (w v : Word) (act : BitVec 4) (seq : BitVec 8) (err : Bool) :
    ({ t with rec0 := w, rec1 := v, act := act, seq := seq, aseq := seq, err := err } : Slot).st = t.st ∧
    ({ t with rec0 := w, rec1 := v, act := act, seq := seq, aseq := seq, err := err } : Slot).lid = t.lid ∧
    ({ t with rec0 := w, rec1 := v, act := act, seq := seq, aseq := seq, err := err } : Slot).lrank = t.lrank ∧
    ({ t with rec0 := w, rec1 := v, act := act, seq := seq, aseq := seq, err := err } : Slot).ctx = t.ctx ∧
    ({ t with rec0 := w, rec1 := v, act := act, seq := seq, aseq := seq, err := err } : Slot).aseq = seq ∧
    ({ t with rec0 := w, rec1 := v, act := act, seq := seq, aseq := seq, err := err } : Slot).err = err :=
  ⟨rfl, rfl, rfl, rfl, rfl, rfl⟩

section
variable (t : Slot) (act : Nat) (r : BindRec) (err : Bool)

@[simp] theorem Slot.answer_st : (t.answer act r err).st = t.st := (Slot.answered ..).1
@[simp] theorem Slot.answer_lid : (t.answer act r err).lid = t.lid := (Slot.answered ..).2.1
@[simp] theorem Slot.answer_lrank : (t.answer act r err).lrank = t.lrank := (Slot.answered ..).2.2.1
@[simp] theorem Slot.answer_ctx : (t.answer act r err).ctx = t.ctx := (Slot.answered ..).2.2.2.1
@[simp] theorem Slot.answer_aseq : (t.answer act r err).aseq = r.seq := (Slot.answered ..).2.2.2.2.1
@[simp] theorem Slot.answer_err : (t.answer act r err).err = err := (Slot.answered ..).2.2.2.2.2

end

/-! ## What a record needs -/

/-- The cores of a cluster are those of its square of four by four. -/
theorem mem_clusterCores {i j : CoreIx} : j ∈ clusterCores i ↔ j.val % 64 / 4 = i.val % 64 / 4 ∧ j.val / 64 / 4 = i.val / 64 / 4 := by
  have hi := i.isLt
  have hj := j.isLt
  simp only [clusterCores, coreX, coreY, List.mem_map, List.mem_range, toCore, Fin.ext_iff, Fin.val_ofNat]
  constructor
  · rintro ⟨a, ha, h⟩
    have hrow : i.val / 64 % 64 = i.val / 64 := Nat.mod_eq_of_lt (by omega)
    rw [hrow, Nat.mod_eq_of_lt (by omega)] at h
    have hy : j.val / 64 = i.val / 64 / 4 * 4 + a / 4 := by omega
    have hx : j.val % 64 = i.val % 64 / 4 * 4 + a % 4 := by omega
    omega
  · rintro ⟨hx, hy⟩
    exact ⟨4 * (j.val / 64 % 4) + j.val % 4, by omega, by omega⟩

theorem State.clusterTaken_eq_false {s : State} {i : CoreIx} {lid : BitVec 16} : s.clusterTaken i lid = false ↔
    ∀ j : CoreIx, j ≠ i → j.val % 64 / 4 = i.val % 64 / 4 → j.val / 64 / 4 = i.val / 64 / 4 →
      (s.core j).slot.st = .idle ∨ (s.core j).slot.lid = lid := by
  simp only [State.clusterTaken, List.any_eq_false, mem_clusterCores, Bool.and_eq_true, decide_eq_true_eq, and_imp, not_and, not_not,
    or_iff_not_imp_left]
  exact forall_congr' fun j => ⟨fun h hj hx hy => h hx hy hj, fun h hx hy hj => h hj hx hy⟩

theorem State.recordOf_iff {s : State} {i : CoreIx} {crec : Nat} :
    s.recordOf i crec = true ↔ readLE s.mem crec 8 / 2 ^ 62 ≠ 0 ∧ readLE s.mem (crec + 16) 8 % 4096 = i.val := by
  simp [State.recordOf, State.load]

/-! ## Binding -/

section
variable {s : State} {i : CoreIx} {r : BindRec} {act : BitVec 4} {load : LoadKind}

theorem State.doBind_refused (h : accepts act.toNat (s.core i).slot.st = false ∨ s.clusterTaken i r.lid = true ∨
      (act = 2 ∧ s.recordOf i r.crec.toNat = false)) : s.doBind i act.toNat r load = s.refuseRecord i act.toNat r := by
  refine if_neg fun hall => ?_
  simp only [Bool.and_eq_true, Bool.not_eq_true', Bool.or_eq_true, decide_eq_true_eq] at hall
  obtain ⟨⟨haccepts, hfree⟩, hrecord⟩ := hall
  rcases h with h | h | ⟨rfl, h⟩
  · simp [h] at haccepts
  · simp [h] at hfree
  · simp [h] at hrecord

theorem State.doBind_taken (haccepts : accepts act.toNat (s.core i).slot.st = true) (hfree : s.clusterTaken i r.lid = false)
    (hrecord : act.toNat = 2 → s.recordOf i r.crec.toNat = true) :
    s.doBind i act.toNat r load = (s.takeRecord i act.toNat r).bindCore i r load := by
  refine if_pos ?_
  simp only [haccepts, hfree, Bool.not_false, Bool.and_true, Bool.true_and, Bool.or_eq_true, decide_eq_true_eq]
  exact or_iff_not_imp_left.mpr fun h => hrecord (not_not.mp h)

theorem State.cores_bindCore (s : State) (i : CoreIx) (r : BindRec) (load : LoadKind) : (s.bindCore i r load).cores = (s.setCore i
    { (s.core i).toIdle.withSlot fun t =>
        { t with prio := r.prio, ctx := r.ctx, lid := r.lid, lrank := r.lrank, crec := r.crec, st := .loading, load := load, preq := none,
                 stop := .no, fatal := none } with
      ctl := { (s.core i).toIdle.ctl with timeOff := BitVec.ofNat 64 s.now } }).cores := rfl

/-- A core that is bound. -/
theorem State.core_bindCore {w : Word} (hw : recordWord act r = w) (s : State) (load : LoadKind) (j : CoreIx) :
    ((s.takeRecord i act.toNat r).bindCore i r load).core j = if j = i then
      { Core.reset with
          ctl := { CtlRegs.reset with fduty := (s.core i).ctl.fduty, timeOff := BitVec.ofNat 64 s.now }
          pwr := (s.core i).pwr
          slot := { Slot.reset with
            rec0 := w, rec1 := natW r.crec.toNat, act := act, seq := r.seq, aseq := r.seq,
            skind := (s.core i).slot.skind, prio := r.prio, ctx := r.ctx, lid := r.lid, lrank := r.lrank, crec := r.crec, st := .loading,
            load := load } }
      else s.core j := by
  rw [State.core, State.cores_bindCore, ← State.core, core_setCore]
  split
  · simp only [State.takeRecord, core_modCore_self, State.modCore_now, Core.withSlot, Slot.answer_eq hw]
    rfl
  · rename_i h
    exact core_modCore_ne _ _ _ _ h

/-- The launch that a bind names runs, unless it has ended. -/
theorem State.launches_bindCore {m : Launch} (hm : m ∈ ((s.takeRecord i act.toNat r).bindCore i r load).sched.launches)
    (hlid : m.lid = r.lid) : m.st = .running ∨ m.st = .ended := by
  obtain ⟨l, -, rfl⟩ := List.mem_map.mp hm
  split
  · exact .inl rfl
  · rename_i h
    rw [if_neg h] at hlid
    simp only [Bool.and_eq_true, beq_iff_eq, decide_eq_true_eq, not_and, not_not] at h
    exact .inr (h hlid)

end

/-! ## Pre-emption -/

/-- Of a core only the slot changes, twice. -/
theorem State.modCore_withSlot_withSlot (s : State) (i : CoreIx) (f g : Slot → Slot) :
    (s.modCore i (·.withSlot f)).modCore i (·.withSlot g) = s.setCore i { s.core i with slot := g (f (s.core i).slot) } := by
  simp only [State.modCore, core_setCore_self, setCore_setCore, Core.withSlot]

theorem State.doPreempt_of_running {s : State} {i : CoreIx} (r : BindRec) (h : (s.core i).slot.st = .running) :
    s.doPreempt i r = s.setCore i { s.core i with slot :=
      { (s.core i).slot.answer 3 r false with st := .stopping, crec := r.crec, preq := some s.now } } := by
  have hst : ((s.core i).slot.answer 3 r false).st ≠ .halted := by rw [Slot.answer_st, h]; decide
  rw [State.doPreempt, if_pos (by rw [h]; rfl)]
  refine (State.modCore_withSlot_withSlot s i _ _).trans ?_
  exact congrArg (fun t => s.setCore i { s.core i with slot := t }) (if_neg hst)

theorem State.doPreempt_of_halted {s : State} {i : CoreIx} (r : BindRec) (h : (s.core i).slot.st = .halted) :
    s.doPreempt i r = s.setCore i { s.core i with slot := { (s.core i).slot.answer 3 r false with st := .saving, crec := r.crec } } := by
  have hst : ((s.core i).slot.answer 3 r false).st = .halted := (Slot.answer_st ..).trans h
  rw [State.doPreempt, if_pos (by rw [h]; rfl)]
  refine (State.modCore_withSlot_withSlot s i _ _).trans ?_
  exact congrArg (fun t => s.setCore i { s.core i with slot := t }) (if_pos hst)

/-! ## Freezing -/

/-- What was held for the inbox is dropped and counted; where it frees nothing, nothing else changes (spec/05 R76). -/
theorem Core.dropHeld_of_keep {c : Core} (h : ∀ x ∈ c.evt.held, x.act = .keep) :
    c.dropHeld = { c with evt := { c.evt with held := [], dropped := c.evt.dropped + c.evt.held.length } } := by
  have hfold : c.evt.held.foldl (fun c x => c.placeAct x.act) c = c :=
    foldl_fixed_of_mem fun x hx => by rw [h x hx, Core.placeAct]
  rw [Core.dropHeld, hfold]

theorem State.abandonXfers_of_nil {s : State} {k : CoreIx} (h : (s.core k).eng.copies = []) : s.abandonXfers k = s := by
  rw [State.abandonXfers, h, List.foldl_nil]

/-- A core that an accepted FREEZE reaches, before its transfers end. -/
def Core.frozenBy (c : Core) (r : BindRec) : Core :=
  ({ c with slot := { c.slot.answer 5 r false with st := .frozen, preq := none } } : Core).dropHeld

theorem Core.frozenBy_of_keep {c : Core} (r : BindRec) (h : ∀ x ∈ c.evt.held, x.act = .keep) : c.frozenBy r = { c with
    slot := { c.slot.answer 5 r false with st := .frozen, preq := none }
    evt := { c.evt with held := [], dropped := c.evt.dropped + c.evt.held.length } } :=
  Core.dropHeld_of_keep (c := { c with slot := { c.slot.answer 5 r false with st := .frozen, preq := none } }) h

/-- FREEZE where no transfer has to end. -/
theorem State.doFreeze_of_nil {s : State} {i : CoreIx} (r : BindRec) (haccepts : accepts 5 (s.core i).slot.st = true)
    (hcopies : ((s.core i).frozenBy r).eng.copies = [])
    (hrank : ((s.core i).frozenBy r).slot.lrank ≠ 0 ∨ ∀ j, j ≠ i → (s.core j).eng.copies = []) :
    s.doFreeze i r = s.setCore i ((s.core i).frozenBy r) := by
  have hfrozen : (((s.takeRecord i 5 r).modCore i (·.withSlot fun t => { t with st := .frozen, preq := none })).modCore i Core.dropHeld) =
      s.setCore i ((s.core i).frozenBy r) := by
    simp only [State.takeRecord, State.modCore, setCore_setCore, core_setCore_self, Core.withSlot, Core.frozenBy]
  unfold State.doFreeze
  rw [if_pos haccepts]
  simp only [hfrozen]
  rw [State.abandonXfers_of_nil (by rwa [core_setCore_self])]
  split
  · rename_i h
    rw [core_setCore_self] at h
    refine State.orphanXfers_of_none (fun j x hx => ?_) _
    rw [core_setCore] at hx
    split at hx
    · rw [hcopies] at hx
      cases hx
    · rename_i hj
      rw [hrank.resolve_left (· h) j hj] at hx
      cases hx
  · rfl

/-! ## What stays on its way after a release (spec/05 R71) -/

/-- The requests of a core that its launch leaves: its writes on their way. -/
theorem Req.leave_eq_some {z q : Req} {i : CoreIx} {lid : BitVec 16} : z.leave i lid = some q ↔
    ∃ kind, z.op = .acc kind ∧ accWrites kind = true ∧ z.loc = false ∧ (z.phase = .sent ∨ ∃ due, z.phase = .waiting due) ∧
      q = { z with src := .left i lid, flight := none } := by
  unfold Req.leave
  split
  · rename_i kind hop hphase
    simp only [hop, hphase, ReqOp.acc.injEq]
    split <;> rename_i h <;> simp only [Bool.and_eq_true, Bool.not_eq_true'] at h
    · simp [h, eq_comm]
    · simp only [reduceCtorEq, false_iff]
      rintro ⟨_, rfl, hw, hl, -⟩
      exact h ⟨hw, hl⟩
  · rename_i kind due hop hphase
    simp only [hop, hphase, ReqOp.acc.injEq]
    split <;> rename_i h <;> simp only [Bool.and_eq_true, Bool.not_eq_true'] at h
    · simp [h, eq_comm]
    · simp only [reduceCtorEq, false_iff]
      rintro ⟨_, rfl, hw, hl, -⟩
      exact h ⟨hw, hl⟩
  · rename_i hsent hwaiting
    simp only [reduceCtorEq, false_iff]
    rintro ⟨kind, hop, -, -, hphase | ⟨due, hphase⟩, -⟩
    · exact hsent kind hop hphase
    · exact hwaiting kind due hop hphase

/-- What a release leaves of the requests: those of others, and writes on their way. -/
theorem mem_left {l : List Req} {q : Req} {i : CoreIx} {lid : BitVec 16} :
    (q ∈ l.filterMap fun r => if r.src.ownedBy i then r.leave i lid else some r) ↔ (q ∈ l ∧ q.src.ownedBy i = false) ∨
      ∃ z ∈ l, ∃ kind, z.src.ownedBy i = true ∧ z.op = .acc kind ∧ accWrites kind = true ∧ z.loc = false ∧
        (z.phase = .sent ∨ ∃ due, z.phase = .waiting due) ∧ q = { z with src := .left i lid, flight := none } := by
  simp only [List.mem_filterMap]
  constructor
  · rintro ⟨z, hz, h⟩
    split at h
    · rename_i howned
      obtain ⟨kind, hkind⟩ := Req.leave_eq_some.mp h
      exact .inr ⟨z, hz, kind, howned, hkind⟩
    · rename_i howned
      cases h
      exact .inl ⟨hz, Bool.not_eq_true _ ▸ howned⟩
  · rintro (⟨hq, howned⟩ | ⟨z, hz, kind, howned, hkind⟩)
    · exact ⟨q, hq, by rw [howned]; rfl⟩
    · exact ⟨z, hz, (if_pos howned).trans (Req.leave_eq_some.mpr ⟨kind, hkind⟩)⟩

end Sys2Proof.Machine
end

section
/-!
SUPPORT. The events of a core (spec/07 R110, R113): what is pending and enabled, and the boundary that takes a maskable interrupt.
-/

namespace Sys2Proof.Machine

theorem bit_and (x y : Word) (j : Nat) : bit (x &&& y) j = (bit x j && bit y j) := BitVec.getLsbD_and

/-- A word of four flags. -/
theorem bit_flags (p0 p1 p2 p3 : Bool) (j : Fin 4) : bit (BitVec.ofNat 64 ((if p0 then 1 else 0) + (if p1 then 2 else 0) +
    (if p2 then 4 else 0) + (if p3 then 8 else 0))) j = if j = 0 then p0 else if j = 1 then p1 else if j = 2 then p2 else p3 := by
  revert p0 p1 p2 p3 j
  decide

/-- The sources of INT_PEND. -/
theorem State.bit_intPend (s : State) (c : Core) (j : Fin 4) : bit (s.intPend c) j = true ↔
    if j = 0 then c.slot.preq ≠ none
    else if j = 1 then ∃ m ∈ c.evt.inbox, m.kind ≠ 0x10
    else if j = 2 then c.ctl.timerCmp.toNat ≤ (s.time c).toNat
    else c.evt.errQ ≠ [] ∨ ∃ n : Fin 8, bit c.eng.relayTerm[n] 43 = true := by
  have hterm : c.eng.relayTerm.toList.any (fun t => bit t 43) = true ↔ ∃ n : Fin 8, bit c.eng.relayTerm[n] 43 = true := by
    simp only [List.any_eq_true, Vector.mem_toList_iff, Vector.mem_iff_getElem]
    constructor
    · rintro ⟨_, ⟨n, hn, rfl⟩, hb⟩
      exact ⟨⟨n, hn⟩, hb⟩
    · rintro ⟨n, hb⟩
      exact ⟨_, ⟨n.val, n.isLt, rfl⟩, hb⟩
  have hflags := bit_flags c.slot.preq.isSome (c.evt.inbox.any fun m => m.kind != 0x10)
    (decide (c.ctl.timerCmp.toNat ≤ (s.time c).toNat)) (!c.evt.errQ.isEmpty || c.eng.relayTerm.toList.any fun t => bit t 43) j
  simp only [decide_eq_true_eq] at hflags
  rw [State.intPend, hflags]
  split
  · exact Option.isSome_iff_ne_none
  · split
    · simp
    · split
      · simp
      · rw [Bool.or_eq_true, hterm]
        simp

/-- The event of an open boundary at which nothing of a higher order is due. -/
theorem State.boundary_of_open {s : State} {k : CoreIx} (hbit : bit (s.core k).ctl.coreStatus 2 = true) (hintrap : (s.core k).intrap = false)
    (hreturning : (s.core k).returning = false) (hpark : (s.core k).evt.parkedAt ≠ some (s.core k).main.pc)
    (hovr : (s.core k).exch.ovrDue = false) (hparked : (s.core k).exch.parked = .none) (hresp : (s.core k).evt.respTraps = [])
    (hfaults : (s.core k).hnd.faults = []) (hpeer : (s.core k).evt.peer = []) (hqto : (s.core k).evt.qto = none)
    (hwdog : (s.core k).evt.wdogHit = false) :
    s.boundary k = (intCause (s.intPend (s.core k) &&& (s.core k).ctl.intEn)).map .int := by
  have hopen : (s.core k).inBarrier = false := by simp [Core.inBarrier, hparked]
  simp [State.boundary, *]

/-- An interrupt is taken only while interrupts are enabled. -/
theorem State.boundary_int {s : State} {k : CoreIx} {cause : BitVec 8} (h : s.boundary k = some (.int cause)) :
    bit (s.core k).ctl.coreStatus 2 = true ∧ intCause (s.intPend (s.core k) &&& (s.core k).ctl.intEn) = some cause := by
  unfold State.boundary at h
  extract_lets c open_ at h
  split at h
  · cases h
  split at h
  · cases h
  split at h
  · cases h
  split at h
  · cases h
  split at h
  · cases h
  split at h
  · cases h
  split at h
  · cases h
  split at h
  · rename_i hon
    obtain ⟨e, he, hcause⟩ := Option.map_eq_some_iff.mp h
    cases hcause
    exact ⟨(Bool.and_eq_true_iff.mp hon).2, he⟩
  · cases h

theorem Core.landAll_of_nil {c : Core} (h : c.main.flights = []) : c.landAll false = c := by
  show (landList false c.main.flights c).setFlights false [] = c
  rw [h]
  show ({ c with main := { c.main with flights := [] } } : Core) = c
  rw [← h]

/-- A calm core that runs takes the interrupt of its boundary. -/
theorem State.exec_interruptTaken {s : State} {k : CoreIx} {cause : BitVec 8} (hb : s.boundary k = some (.int cause))
    (hflights : (s.core k).main.flights = []) (hloop : (s.core k).seq.loop = none)
    (hdrain : (s.core k).seq.drain = false ∨ (s.core k).seq.queue = []) (hst : (s.core k).slot.st = .running)
    (hstop : (s.core k).slot.stop = .no) (hfatal : (s.core k).slot.fatal = none) :
    exec (.interruptTaken k) s = .next (s.takeEvent k (.int cause)) := by
  have hcalm : (s.core k).calm = true := by
    have hsettled : (s.core k).settled false = true := by
      show (s.core k).main.flights.all _ = true
      rw [hflights]
      rfl
    rcases hdrain with h | h <;> simp [Core.calm, hsettled, hloop, h]
  show execInterruptTaken k s = _
  simp [execInterruptTaken, hb, hcalm, hst, hstop, hfatal, ok]

/-- Without a source that is enabled no interrupt is taken. -/
theorem State.exec_interruptTaken_of_not {s : State} {k : CoreIx} (h : ∀ cause, s.boundary k ≠ some (.int cause)) :
    exec (.interruptTaken k) s = .next s := by
  show execInterruptTaken k s = _
  unfold execInterruptTaken
  split
  · rename_i hb
    exact absurd hb (h _)
  · rfl

theorem Core.closeCapture_of_none {c : Core} (h : c.seq.loop = none) : c.closeCapture = c := by
  unfold Core.closeCapture
  rw [h]

/-- The term of the Relay whose pending bit is the lowest. -/
theorem pendTerm_eq {t : Vector Word 8} {n : Fin 8} (hn : bit t[n] 43 = true) (hbefore : ∀ i, i < n → bit t[i] 43 = false) :
    pendTerm t = some n := by
  rw [pendTerm, List.find?_eq_some_iff_getElem]
  refine ⟨hn, n.val, by simp, by simp, fun j hj => ?_⟩
  simpa using hbefore ⟨j, by omega⟩ hj

/-- The event of a core without results in flight. -/
theorem State.takeEvent_eq {s : State} {k : CoreIx} {e : Event} {d : Core} {imp : Bool} {cause : BitVec 8} {pc : Pc} {v : Word}
    (h : s.eventTrap (s.core k) e = (d, imp, cause, pc, v)) (hflights : d.main.flights = []) :
    s.takeEvent k e = (s.setCore k d).takeTrap k imp cause pc v := by
  rw [State.takeEvent, h]
  dsimp only
  rw [Core.landAll_of_nil hflights]

/-! ## The timer, the watchdog and SAFE_TIMEOUT -/

/-- At the tick at which the timer stands its time has come. -/
theorem State.timer_reached (s : State) (c : Core) :
    c.ctl.timerCmp.toNat ≤ (natW (s.now + (c.ctl.timerCmp.toNat - (s.time c).toNat)) - c.ctl.timeOff).toNat := by
  have hsum (n : Nat) : natW (s.now + n) - c.ctl.timeOff = s.time c + BitVec.ofNat 64 n := by
    rw [natW, BitVec.ofNat_add, State.time]
    ring
  have htime := (s.time c).isLt
  have hcmp := c.ctl.timerCmp.isLt
  rw [hsum, BitVec.toNat_add, BitVec.toNat_ofNat]
  omega

theorem State.exec_watchdogExpiry (s : State) (k : CoreIx) : exec (.watchdogExpiry k) s =
    match (s.core k).evt.holdSince with
    | none => .next s
    | some t =>
      if bits (s.core k).ctl.wdog 0 32 * 1800 = 0 || s.now < t + bits (s.core k).ctl.wdog 0 32 * 1800 then .next s
      else .next (s.setCore k { s.core k with evt := { (s.core k).evt with wdogHit := true, wdogIn := (s.core k).intrap } }) := rfl

theorem State.exec_safeTimeout (s : State) (k : CoreIx) : exec (.safeTimeout k) s =
    match (s.core k).slot.preq with
    | none => .next s
    | some t =>
      if (s.core k).slot.st ≠ .stopping || (s.core k).slot.stop ≠ .no || s.now < t + max 1 s.dev.safeTimeout.toNat * 1800 then .next s
      else .next (s.setCore k { (s.core k).closeCapture with slot := { (s.core k).slot with stop := .forced } }) := rfl

end Sys2Proof.Machine
end

section
/-!
SUPPORT. Images of memory (spec/05 R74, R75): what a byte is after an area is cleared, copied or written, and writes that stay within an area
outside the core windows.
-/

namespace Sys2Proof.Machine

/-! ## Listed bytes -/

/-- The bytes of a canonical memory are those that it lists. -/
theorem mem_iff_memGet {l : List Host.Cell} {lo x : Nat} (h : memWf lo l = true) {b : Byte} : (x, b) ∈ l ↔ memGet l x = b ∧ b ≠ 0 := by
  induction l generalizing lo with
  | nil =>
    simp only [List.not_mem_nil, memGet, false_iff, not_and, not_not]
    exact fun h => h.symm
  | cons c r ih =>
    obtain ⟨k, v⟩ := c
    have hbelow (hx : x < k + 1) : memGet r x = 0 := by
      simp only [memWf, Bool.and_eq_true] at h
      exact memGet_below h.2 hx
    simp only [memWf, Bool.and_eq_true, decide_eq_true_eq, bne_iff_ne] at h
    obtain ⟨⟨-, hv⟩, hr⟩ := h
    rw [List.mem_cons, ih hr, memGet]
    rcases Nat.lt_trichotomy x k with hx | rfl | hx
    · rw [hbelow (by omega), if_neg (by omega), if_pos hx]
      simp [show x ≠ k by omega]
    · rw [hbelow (by omega), if_pos rfl]
      constructor
      · rintro (he | ⟨rfl, hb⟩)
        · cases he
          exact ⟨rfl, hv⟩
        · exact absurd rfl hb
      · rintro ⟨rfl, -⟩
        exact .inl rfl
    · rw [if_neg (by omega), if_neg (by omega)]
      simp [show x ≠ k by omega]

/-- Two bytes of canonical memories that are listed alike are equal. -/
theorem memGet_congr {l m : List Host.Cell} {x y : Nat} (hl : Memory.wf l = true) (hm : Memory.wf m = true)
    (h : ∀ b, b ≠ 0 → ((x, b) ∈ l ↔ (y, b) ∈ m)) : memGet l x = memGet m y := by
  have heq (b : Byte) (hb : b ≠ 0) : memGet l x = b ↔ memGet m y = b := by
    have := h b hb
    rwa [mem_iff_memGet hl, mem_iff_memGet hm, and_iff_left hb, and_iff_left hb] at this
  by_cases hx : memGet l x = 0
  · by_cases hy : memGet m y = 0
    · rw [hx, hy]
    · exact (heq _ hy).mpr rfl
  · exact ((heq _ hx).mp rfl).symm

theorem memWf_of_memIn {lo hi : Nat} {l : List Host.Cell} (h : memIn lo hi l = true) : memWf lo l = true := by
  induction l generalizing lo with
  | nil => rfl
  | cons c r ih =>
    obtain ⟨k, b⟩ := c
    simp only [memIn, memWf, Bool.and_eq_true] at h ⊢
    exact ⟨⟨h.1.1.1, h.1.2⟩, ih h.2⟩

theorem mem_of_memIn {lo hi x : Nat} {b : Byte} {l : List Host.Cell} (h : memIn lo hi l = true) (hx : (x, b) ∈ l) : lo ≤ x ∧ x < hi := by
  induction l generalizing lo with
  | nil => cases hx
  | cons c r ih =>
    obtain ⟨k, v⟩ := c
    simp only [memIn, Bool.and_eq_true, decide_eq_true_eq] at h
    obtain ⟨⟨⟨hlo, hhi⟩, -⟩, hr⟩ := h
    rcases List.mem_cons.mp hx with he | hx
    · cases he
      exact ⟨hlo, hhi⟩
    · have := ih hr hx
      omega

theorem mem_memReplace {l block : List Host.Cell} {a n x : Nat} {b : Byte} :
    (x, b) ∈ memReplace l a n block ↔ ((x, b) ∈ l ∧ x < a) ∨ (x, b) ∈ block ∨ (x, b) ∈ l ∧ a + n ≤ x := by
  simp [memReplace]

section
variable {l block : List Host.Cell} {a n x : Nat} (h : Memory.wf l = true) (hb : memIn a (a + n) block = true)
include h hb

theorem memGet_memReplace_of_not_mem (hx : x < a ∨ a + n ≤ x) : memGet (memReplace l a n block) x = memGet l x := by
  refine memGet_congr (memReplace_wf h hb) h fun b _ => ?_
  rw [mem_memReplace]
  constructor
  · rintro (⟨hm, -⟩ | hm | ⟨hm, -⟩)
    · exact hm
    · have := mem_of_memIn hb hm
      omega
    · exact hm
  · intro hm
    rcases hx with hx | hx
    · exact .inl ⟨hm, hx⟩
    · exact .inr (.inr ⟨hm, hx⟩)

theorem memGet_memReplace_of_mem (h1 : a ≤ x) (h2 : x < a + n) : memGet (memReplace l a n block) x = memGet block x := by
  refine memGet_congr (memReplace_wf h hb) (memWf_mono (memWf_of_memIn hb) (Nat.zero_le _)) fun b _ => ?_
  rw [mem_memReplace]
  constructor
  · rintro (⟨-, hm⟩ | hm | ⟨-, hm⟩)
    · omega
    · exact hm
    · omega
  · exact fun hm => .inr (.inl hm)

end

theorem memGet_shiftCells {l : List Host.Cell} (h : Memory.wf l = true) {src dst n o : Nat} (ho : o < n) :
    memGet (shiftCells l src dst n) (dst + o) = memGet l (src + o) := by
  refine memGet_congr (memWf_mono (memWf_of_memIn (shiftCells_in h src dst n)) (Nat.zero_le _)) h fun b _ => ?_
  simp only [shiftCells, List.mem_map, List.mem_filter, Bool.and_eq_true, decide_eq_true_eq, Prod.mk.injEq, Prod.exists]
  constructor
  · rintro ⟨y, c, ⟨hy, h1, h2⟩, h3, rfl⟩
    rwa [show src + o = y by omega]
  · exact fun hm => ⟨src + o, b, ⟨hm, by omega, by omega⟩, by omega, rfl⟩

/-! ## Numbers in memory -/

theorem readLE_congr {l m : List Host.Cell} {a b n : Nat} (h : ∀ o, o < n → memGet l (a + o) = memGet m (b + o)) :
    readLE l a n = readLE m b n := by
  induction n generalizing a b with
  | zero => rfl
  | succ n ih =>
    rw [readLE, readLE, ih fun o ho => ?_, show memGet l a = memGet m b from h 0 (Nat.succ_pos n)]
    have := h (o + 1) (by omega)
    rwa [show a + 1 + o = a + (o + 1) by omega, show b + 1 + o = b + (o + 1) by omega]

/-! ## Writes within an area -/

/-- Between two states free values are drawn, full-empty bits and bytes of [lo, hi) written, and nothing else. -/
structure State.Writes (lo hi : Nat) (s t : State) : Prop where
  rest : t = { s with mem := t.mem, free := t.free, empties := t.empties }
  wf : Memory.wf s.mem = true → Memory.wf t.mem = true
  other : Memory.wf s.mem = true → ∀ a, a < lo ∨ hi ≤ a → memGet t.mem a = memGet s.mem a

section
variable {s t u : State} {lo hi a n : Nat}

theorem State.Writes.refl (lo hi : Nat) (s : State) : Writes lo hi s s := ⟨rfl, id, fun _ _ _ => rfl⟩

theorem State.Writes.trans (h : Writes lo hi s t) (k : Writes lo hi t u) : Writes lo hi s u where
  rest := by rw [k.rest, h.rest]
  wf hs := k.wf (h.wf hs)
  other hs a ha := (k.other (h.wf hs) a ha).trans (h.other hs a ha)

theorem State.Writes.mono {lo' hi' : Nat} (h : Writes lo hi s t) (hlo : lo' ≤ lo) (hhi : hi ≤ hi') : Writes lo' hi' s t where
  rest := h.rest
  wf := h.wf
  other hs a ha := h.other hs a (by omega)

theorem State.Writes.readLE (h : Writes lo hi s t) (hs : Memory.wf s.mem = true) (ha : a + n ≤ lo ∨ hi ≤ a) :
    readLE t.mem a n = readLE s.mem a n := readLE_congr fun o ho => h.other hs _ (by omega)

theorem State.Writes.cores (h : Writes lo hi s t) : t.cores = s.cores := by rw [h.rest]
theorem State.Writes.core (h : Writes lo hi s t) (k : CoreIx) : t.core k = s.core k := by rw [State.core, h.cores, State.core]

theorem State.store_writes (ha : 2 ^ 32 ≤ a) (s : State) (n v : Nat) : Writes a (a + n) s (s.store a n v) where
  rest := by rw [State.store_of_ge ha]
  wf hs := State.store_wf hs _ _ _
  other hs x hx := by
    rw [State.store_mem]
    exact memGet_writeLE_other hs hx

theorem State.clearImage_writes (a n : Nat) (s : State) : Writes a (a + n) s (s.clearImage a n) where
  rest := rfl
  wf hs := State.clearImage_wf hs _ _
  other hs _ hx := memGet_memReplace_of_not_mem hs rfl hx

theorem State.copyImage_writes (src dst n : Nat) (s : State) : Writes dst (dst + n) s (s.copyImage src dst n) where
  rest := rfl
  wf hs := State.copyImage_wf hs _ _ _
  other hs _ hx := memGet_memReplace_of_not_mem hs (shiftCells_in hs _ _ _) hx

theorem State.feImage_writes (w dst n : Nat) (s : State) : Writes dst (dst + n) s (s.feImage w dst n) where
  rest := rfl
  wf hs := State.feImage_wf hs _ _ _
  other hs x hx := by
    refine memGet_memReplace_of_not_mem hs ?_ hx
    have h := memIn_bytes (s.feByte w) dst n 0
    rwa [← List.range_eq_range'] at h

/-- What a copied area holds. -/
theorem State.memGet_copyImage (hs : Memory.wf s.mem = true) {src dst o : Nat} (ho : o < n) :
    memGet (s.copyImage src dst n).mem (dst + o) = memGet s.mem (src + o) :=
  (memGet_memReplace_of_mem hs (shiftCells_in hs _ _ _) (by omega) (by omega)).trans (memGet_shiftCells hs ho)

/-- A cleared area holds zeros. -/
theorem State.memGet_clearImage (hs : Memory.wf s.mem = true) {x : Nat} (h1 : a ≤ x) (h2 : x < a + n) :
    memGet (s.clearImage a n).mem x = 0 := memGet_memReplace_of_mem hs rfl h1 h2

theorem State.storeFree_writes (ha : 2 ^ 32 ≤ a) (s : State) : Writes a (a + 8 * n) s (s.storeFree a n) := by
  induction n generalizing s a with
  | zero => exact .refl _ _ s
  | succ n ih =>
    have hfirst := s.store_writes ha 8 (Config.savedWord s.free).toNat
    refine State.Writes.trans (t := { s.store a 8 (Config.savedWord s.free).toNat with free := s.free + 1 })
      ⟨by rw [hfirst.rest], hfirst.wf, fun hs x hx => hfirst.other hs x (by omega)⟩ ?_
    exact (ih (by omega) _).mono (by omega) (by omega)

/-! ## Rows of values -/

theorem State.storeWords_writes (ha : 2 ^ 32 ≤ a) (ws : List Word) (s : State) : Writes a (a + 8 * ws.length) s (s.storeWords a ws) := by
  induction ws generalizing s a with
  | nil => exact .refl _ _ s
  | cons w ws ih =>
    rw [List.length_cons]
    exact ((s.store_writes ha 8 w.toNat).mono (by omega) (by omega)).trans
      ((ih (by omega) _).mono (by omega) (by omega))

theorem State.readLE_storeWords (ha : 2 ^ 32 ≤ a) (hs : Memory.wf s.mem = true) {ws : List Word} {i : Nat} (hi : i < ws.length) :
    readLE (s.storeWords a ws).mem (a + 8 * i) 8 = ws[i].toNat := by
  induction ws generalizing s a i with
  | nil => cases hi
  | cons w ws ih =>
    have hs' := (s.store_writes ha 8 w.toNat).wf hs
    cases i with
    | zero =>
      refine ((State.storeWords_writes (by omega) ws _).readLE hs' (by omega)).trans ?_
      rw [State.store_mem, Nat.mul_zero, Nat.add_zero, readLE_writeLE hs]
      exact Nat.mod_eq_of_lt w.isLt
    | succ i =>
      rw [show a + 8 * (i + 1) = a + 8 + 8 * i by omega]
      exact ih (by omega) hs' (Nat.lt_of_succ_lt_succ hi)

theorem State.storeLive_writes (ha : 2 ^ 32 ≤ a) (vs : List Nat) (live : Nat → Bool) (s : State) :
    Writes a (a + n * vs.length) s (s.storeLive a n live vs) := by
  induction vs generalizing s a live with
  | nil => exact .refl _ _ s
  | cons v vs ih =>
    rw [List.length_cons, Nat.mul_succ]
    refine State.Writes.trans (t := if live 0 then s.store a n v else s) ?_ ((ih (by omega) _ _).mono (by omega) (by omega))
    split
    · exact (s.store_writes ha n v).mono (by omega) (by omega)
    · exact .refl _ _ s

theorem State.readLE_storeLive (ha : 2 ^ 32 ≤ a) (hs : Memory.wf s.mem = true) {vs : List Nat} {live : Nat → Bool} {i : Nat}
    (hi : i < vs.length) (hlive : live i = true) : readLE (s.storeLive a n live vs).mem (a + n * i) n = vs[i] % 2 ^ (8 * n) := by
  induction vs generalizing s a i live with
  | nil => cases hi
  | cons v vs ih =>
    cases i with
    | zero =>
      refine ((State.storeLive_writes (by omega) vs _ _).readLE ?_ (by omega)).trans ?_
      · rw [if_pos hlive]
        exact (s.store_writes ha n v).wf hs
      · rw [if_pos hlive, State.store_mem, Nat.mul_zero, Nat.add_zero, readLE_writeLE hs]
        rfl
    | succ i =>
      rw [show a + n * (i + 1) = a + n + n * i by rw [Nat.mul_succ]; omega]
      refine ih (by omega) ?_ (Nat.lt_of_succ_lt_succ hi) hlive
      split
      · exact (s.store_writes ha n v).wf hs
      · exact hs

end

end Sys2Proof.Machine
end

section
/-!
SUPPORT. The inbox area of a context record (spec/05 R75), and the completion of a send for a saved core.
-/

namespace Sys2Proof.Machine

/-! ## Pairs in a row -/

theorem length_pairs {α β : Type} (f g : α → β) (l : List α) : (l.map fun x => [f x, g x]).flatten.length = 2 * l.length := by
  induction l with
  | nil => rfl
  | cons x l ih => simp [ih, Nat.mul_succ]

theorem getElem?_pairs {α β : Type} (f g : α → β) (l : List α) (j : Nat) :
    (l.map fun x => [f x, g x]).flatten[2 * j]? = l[j]?.map f ∧ (l.map fun x => [f x, g x]).flatten[2 * j + 1]? = l[j]?.map g := by
  induction l generalizing j with
  | nil => simp
  | cons x l ih =>
    cases j with
    | zero => simp
    | succ j => simpa [Nat.mul_succ] using ih j

/-! ## The area -/

section
variable {s : State} {r : Nat} {ms : List Msg} (hr : 2 ^ 32 ≤ r)
include hr

theorem State.writeInbox_writes (hms : ms.length ≤ 256) : Writes (r + 0x4000) (r + 0x5000) s (s.writeInbox r ms) := by
  refine (State.clearImage_writes (r + 0x4000) 4096 s).trans ((State.storeWords_writes (by omega) _ _).mono (Nat.le_refl _) ?_)
  rw [length_pairs]
  omega

theorem State.readLE_writeInbox (hs : Memory.wf s.mem = true) {j : Nat} (hj : j < ms.length) :
    readLE (s.writeInbox r ms).mem (r + 0x4000 + 16 * j) 8 = ms[j].header.toNat ∧
      readLE (s.writeInbox r ms).mem (r + 0x4008 + 16 * j) 8 = ms[j].payload.toNat := by
  have hlen := length_pairs Msg.header Msg.payload ms
  obtain ⟨hheader, hpayload⟩ := getElem?_pairs Msg.header Msg.payload ms j
  rw [List.getElem?_eq_getElem hj, Option.map_some] at hheader hpayload
  have hclear := (State.clearImage_writes (r + 0x4000) 4096 s).wf hs
  have hread (i : Nat) (hi : i < (ms.map fun m : Msg => [m.header, m.payload]).flatten.length) :
      readLE (s.writeInbox r ms).mem (r + 0x4000 + 8 * i) 8 = (ms.map fun m : Msg => [m.header, m.payload]).flatten[i].toNat :=
    State.readLE_storeWords (by omega) hclear hi
  refine ⟨?_, ?_⟩
  · rw [show r + 0x4000 + 16 * j = r + 0x4000 + 8 * (2 * j) by omega, hread _ (by rw [hlen]; omega),
      (List.getElem_eq_iff _).mpr hheader]
  · rw [show r + 0x4008 + 16 * j = r + 0x4000 + 8 * (2 * j + 1) by omega, hread _ (by rw [hlen]; omega),
      (List.getElem_eq_iff _).mpr hpayload]

end

/-- The number in the header of a message. -/
theorem header_mkMsg {kind status source xid : Nat} (h1 : kind < 2 ^ 8) (h2 : status < 2 ^ 8) (h3 : source < 2 ^ 16) (h4 : xid < 2 ^ 16)
    (payload : Word) : (mkMsg kind status source xid payload).header.toNat = kind + 2 ^ 8 * status + 2 ^ 16 * source + 2 ^ 32 * xid := by
  simp only [mkMsg, Msg.header, BitVec.toNat_ofNat, Nat.mod_eq_of_lt h1, Nat.mod_eq_of_lt h2, Nat.mod_eq_of_lt h3, Nat.mod_eq_of_lt h4]
  omega

/-! ## A completion for a saved core -/

/-- What the record of a saved core holds once a completion is appended to its inbox area. -/
structure State.Appends (key : Nat) (sv : SavedCore) (m : Msg) (act : PlaceAct) (s t : State) : Prop where
  count : readLE t.mem (sv.crec + 20) 4 = sv.core.evt.inbox.length + 1
  header : readLE t.mem (sv.crec + 0x4000 + 16 * sv.core.evt.inbox.length) 8 = m.header.toNat
  payload : readLE t.mem (sv.crec + 0x4008 + 16 * sv.core.evt.inbox.length) 8 = m.payload.toNat
  cores : t.cores = s.cores
  other : ∀ a, a < sv.crec + 20 ∨ sv.crec + 0x5000 ≤ a → memGet t.mem a = memGet s.mem a
  saved : ∃ sv', lookup t.saves key = some sv' ∧
    sv'.core = { sv.core with evt := { sv.core.evt with inbox := sv.core.evt.inbox ++ [m] } }.placeAct act

theorem lookup_put_self {α : Type} (l : Assoc α) (k : Nat) (a : α) : lookup (put l k a) k = some a := by
  induction l with
  | nil => simp [put, lookup]
  | cons p r ih =>
    obtain ⟨k', b⟩ := p
    unfold put
    split
    · simp [lookup]
    · split
      · simp [lookup]
      · rename_i h _
        simpa [lookup, h] using ih

theorem State.placeSaved_appends {s : State} {key : Nat} {sv : SavedCore} {m : Msg} (act : PlaceAct) (hs : Memory.wf s.mem = true)
    (hr : 2 ^ 32 ≤ sv.crec) (hheld : sv.held = []) (hroom : sv.core.evt.inbox.length < 256) :
    Appends key sv m act s (s.placeSaved key sv { msgs := [m], act := act }) := by
  let inbox := sv.core.evt.inbox ++ [m]
  have hlen : inbox.length = sv.core.evt.inbox.length + 1 := List.length_append
  let s1 : State := { s with saves := put s.saves key { sv with
    core := { sv.core with evt := { sv.core.evt with inbox := inbox } }.placeAct act } }
  have heq : s.placeSaved key sv { msgs := [m], act := act } =
      (s1.writeInbox sv.crec inbox).store (sv.crec + 20) 4 inbox.length := by
    unfold State.placeSaved
    rw [if_pos (by simpa [hheld] using hroom)]
    simp only [Core.placeAct_evt]
    rfl
  have hinbox := State.writeInbox_writes (s := s1) (ms := inbox) hr (by omega)
  have hcount := (s1.writeInbox sv.crec inbox).store_writes (a := sv.crec + 20) (by omega) 4 inbox.length
  have hwf := hinbox.wf hs
  have hlast : inbox[sv.core.evt.inbox.length]'(by omega) = m := by simp [inbox]
  obtain ⟨hheader, hpayload⟩ := State.readLE_writeInbox (s := s1) (ms := inbox) hr hs (j := sv.core.evt.inbox.length) (by omega)
  rw [hlast] at hheader hpayload
  rw [heq]
  refine ⟨?_, ?_, ?_, ?_, fun a ha => ?_, ?_⟩
  · rw [State.store_mem, readLE_writeLE hwf, hlen]
    exact Nat.mod_eq_of_lt (by omega)
  · exact (hcount.readLE hwf (by omega)).trans hheader
  · exact (hcount.readLE hwf (by omega)).trans hpayload
  · exact hcount.cores.trans hinbox.cores
  · exact (hcount.other hwf a (by omega)).trans (hinbox.other hs a (by omega))
  · refine ⟨{ sv with core := { sv.core with evt := { sv.core.evt with inbox := inbox } }.placeAct act }, ?_, rfl⟩
    rw [hcount.rest]
    show lookup (s1.writeInbox sv.crec inbox).saves key = _
    rw [hinbox.rest]
    exact lookup_put_self _ _ _

/-- The answer of a send that is known reaches the record of its core. -/
theorem State.exec_sendAnswer_saved {s : State} {k : CoreIx} {h : BitVec 16} {r : PeerReply} {key : Nat} {sv : SavedCore} {sr : SendRec}
    {st : BitVec 8} {x : BitVec 4} (hno : ∀ q ∈ (s.core k).eng.sends, q.handle ≠ h) (hsaved : s.savedSend k h = some (key, sv, sr))
    (hanswer : sr.answer = some (st, x)) (hst : st ≠ 2) (hheld : sv.held = []) :
    exec (.sendAnswer k h r) s = .next (s.placeSaved key sv
      { msgs := [mkMsg 0x31 st.toNat sr.dst.val sr.handle.toNat (recvPayload sr.tag sr.dev.val sr.len)], act := .freeSend h }) := by
  have hfind : (s.core k).eng.sends.find? (·.handle == h) = none := by simpa using hno
  have hst' : ¬ st = 2#8 := hst
  show execSendAnswer k h r s = _
  simp [execSendAnswer, hfind, hsaved, hheld, State.answerLost, State.sendMsg, State.noteAnswer, hanswer, hst', ok]

end Sys2Proof.Machine
end

section
/-!
SUPPORT. The record that a forced save writes (spec/05 R74, R75), area by area in rising order: where each is written, and what it then holds.
-/

namespace Sys2Proof.Machine

theorem State.ctlWords_length (s : State) (k : CoreIx) : (s.ctlWords k).length = 28 := by simp [State.ctlWords]

/-- The control registers of a core by their numbers. -/
theorem State.getElem_ctlWords {s : State} {k : CoreIx} {n : Nat} (hn : n < (s.ctlWords k).length) {q : CReg} (hq : cregOf n = .ok q) :
    (s.ctlWords k)[n] = ({ s with cur := k } : State).readCtl (s.core k) q := by
  simp [State.ctlWords, hq]

/-- The registers of the main context and the control registers, as a forced save writes them. -/
def State.writeMain (s : State) (k : CoreIx) (r : Nat) : State :=
  let c := s.core k
  let s := s.storeLive (r + 0x40) 8 (SaveMap.all.x.getLsbD ·) (c.main.x.toList.map (·.toNat))
  let s := s.storeLive (r + 0x140) 4 (SaveMap.all.f.getLsbD ·) (c.main.f.toList.map (·.toNat))
  let s := s.storeLive (r + 0x180) 8 (SaveMap.all.m.getLsbD ·) (c.main.m.toList.map (·.toNat))
  let s := (s.clearImage (r + 0x200) 512).storeWords (r + 0x200) (s.ctlWords k)
  s.storeLive (r + 0x400) 64 (SaveMap.all.v.getLsbD ·) (c.main.v.toList.map (·.toNat))

/-- The registers of the handler context. -/
def State.writeHandler (s : State) (r : Nat) (h : HandlerCtx) : State :=
  ((s.storeFree (r + 0xC00) 8).storeWords (r + 0xC40) h.x.toList).storeLive (r + 0xCC0) 64 (fun _ => true) (h.v.toList.map (·.toNat))

theorem State.writeRegs_all (s : State) (k : CoreIx) (r : Nat) :
    s.writeRegs k r SaveMap.all = (s.writeMain k r).writeHandler r (s.core k).hnd := rfl

/-- What the registers' areas of a record hold. -/
structure State.HoldsMain (r : Nat) (c : Core) (t : State) : Prop where
  x : ∀ j : XReg, readLE t.mem (r + 0x40 + 8 * j.val) 8 = c.main.x[j].toNat
  f : ∀ j : FReg, readLE t.mem (r + 0x140 + 4 * j.val) 4 = c.main.f[j].toNat
  m : ∀ j : MReg, readLE t.mem (r + 0x180 + 8 * j.val) 8 = c.main.m[j].toNat
  v : ∀ j : VReg, readLE t.mem (r + 0x400 + 64 * j.val) 64 = c.main.v[j].toNat
  trapCause : readLE t.mem (r + 0x208) 8 = c.ctl.trapCause.toNat
  tvec : readLE t.mem (r + 0x228) 8 = c.ctl.tvec.toNat

/-- Writes behind these areas leave them. -/
theorem State.HoldsMain.writes {r hi : Nat} {c : Core} {t u : State} (h : HoldsMain r c t) (hs : Memory.wf t.mem = true)
    (hw : Writes (r + 0xC00) hi t u) : HoldsMain r c u where
  x j := (hw.readLE hs (by have := j.isLt; omega)).trans (h.x j)
  f j := (hw.readLE hs (by have := j.isLt; omega)).trans (h.f j)
  m j := (hw.readLE hs (by have := j.isLt; omega)).trans (h.m j)
  v j := (hw.readLE hs (by have := j.isLt; omega)).trans (h.v j)
  trapCause := (hw.readLE hs (by omega)).trans h.trapCause
  tvec := (hw.readLE hs (by omega)).trans h.tvec

/-! ## Buffers and their images -/

/-- Whether an offset of the window lies in a listed range. -/
def inRange (x : Buf × Nat × Nat) (o : Nat) : Prop := winOff x.1 + x.2.1 ≤ o ∧ o < winOff x.1 + x.2.1 + x.2.2

/-- Bytes of a window or of its image at some offsets come from the other; those at the other offsets stay. -/
structure State.Copies (src dst : Nat) (P : Nat → Prop) (s t : State) : Prop where
  copied : ∀ o, o < 2 ^ 20 → P o → memGet t.mem (dst + o) = memGet s.mem (src + o)
  kept : ∀ o, o < 2 ^ 20 → ¬ P o → memGet t.mem (dst + o) = memGet s.mem (dst + o)

theorem State.Copies.writes {src dst lo hi : Nat} {P : Nat → Prop} {s t u : State} (h : Copies src dst P s t) (ht : Memory.wf t.mem = true)
    (hw : Writes lo hi t u) (hd : dst + 2 ^ 20 ≤ lo ∨ hi ≤ dst) : Copies src dst P s u where
  copied o ho hp := (hw.other ht _ (by omega)).trans (h.copied o ho hp)
  kept o ho hp := (hw.other ht _ (by omega)).trans (h.kept o ho hp)

/-- One range. -/
theorem State.copyImage_copies {s : State} (hs : Memory.wf s.mem = true) {src dst : Nat} {x : Buf × Nat × Nat} :
    Copies src dst (inRange x) s (s.copyImage (src + (winOff x.1 + x.2.1)) (dst + (winOff x.1 + x.2.1)) x.2.2) where
  copied o _ hp := by
    obtain ⟨h1, h2⟩ := hp
    have hin := State.memGet_copyImage (n := x.2.2) hs (src := src + (winOff x.1 + x.2.1)) (dst := dst + (winOff x.1 + x.2.1))
      (o := o - (winOff x.1 + x.2.1)) (by omega)
    rwa [show dst + (winOff x.1 + x.2.1) + (o - (winOff x.1 + x.2.1)) = dst + o by omega,
      show src + (winOff x.1 + x.2.1) + (o - (winOff x.1 + x.2.1)) = src + o by omega] at hin
  kept o _ hp := by
    refine (State.copyImage_writes _ _ _ s).other hs _ ?_
    simp only [inRange, not_and, not_lt] at hp
    omega

/-- A list of ranges, each copied in turn from where nothing is written. -/
theorem State.foldl_copies {f : State → Buf × Nat × Nat → State} {src dst lo hi : Nat} {l : List (Buf × Nat × Nat)}
    (hsrc : src + 2 ^ 20 ≤ lo ∨ hi ≤ src)
    (hstep : ∀ s x, x ∈ l → Memory.wf s.mem = true → Writes lo hi s (f s x) ∧ Copies src dst (inRange x) s (f s x)) {s : State}
    (hs : Memory.wf s.mem = true) : Copies src dst (∃ x ∈ l, inRange x ·) s (l.foldl f s) := by
  induction l generalizing s with
  | nil => exact ⟨fun _ _ ⟨_, h, _⟩ => (List.not_mem_nil h).elim, fun _ _ _ => rfl⟩
  | cons x l ih =>
    obtain ⟨hw, hx⟩ := hstep s x List.mem_cons_self hs
    have hl := ih (fun s y hy => hstep s y (List.mem_cons_of_mem _ hy)) (hw.wf hs)
    rw [List.foldl_cons]
    refine ⟨fun o ho ⟨y, hy, hyo⟩ => ?_, fun o ho hn => ?_⟩
    · by_cases hlater : ∃ z ∈ l, inRange z o
      · exact (hl.copied o ho hlater).trans (hw.other hs _ (by omega))
      · rcases List.mem_cons.mp hy with rfl | hy
        · exact (hl.kept o ho hlater).trans (hx.copied o ho hyo)
        · exact absurd ⟨y, hy, hyo⟩ hlater
    · have hnone : ¬ ∃ z ∈ l, inRange z o := fun ⟨z, hz, hzo⟩ => hn ⟨z, List.mem_cons_of_mem _ hz, hzo⟩
      exact (hl.kept o ho hnone).trans (hx.kept o ho fun hxo => hn ⟨x, List.mem_cons_self, hxo⟩)

section
variable {s : State} {r : Nat} (hr : 2 ^ 32 ≤ r)
include hr

/-! ## The header -/

theorem State.writeHeader_writes (k : CoreIx) (kind ix : Nat) : Writes r (r + 0x40) s (s.writeHeader k r kind ix) :=
  (State.storeWords_writes hr _ s).mono (Nat.le_refl r) (Nat.le_refl (r + 8 * 8))

theorem State.readLE_writeHeader (hs : Memory.wf s.mem = true) (k : CoreIx) (hlen : (s.core k).evt.inbox.length ≤ 256) :
    readLE (s.writeHeader k r 2 0).mem r 8 =
      2 * 2 ^ 62 + (if (s.core k).priv then 2 ^ 61 else 0) + (if (s.core k).exch.group.isSome then 2 ^ 60 else 0) ∧
    readLE (s.writeHeader k r 2 0).mem (r + 8) 8 = (s.core k).main.pc.toNat ∧
    readLE (s.writeHeader k r 2 0).mem (r + 16) 8 = (s.core k).evt.inbox.length * 2 ^ 32 + k.val := by
  have hread {ws : List Word} (i : Nat) (hi : i < ws.length) : readLE (s.storeWords r ws).mem (r + 8 * i) 8 = ws[i].toNat :=
    State.readLE_storeWords hr hs hi
  have hk := k.isLt
  refine ⟨(hread 0 (by simp)).trans ?_, (hread 1 (by simp)).trans ?_, (hread 2 (by simp)).trans ?_⟩
  · simp only [List.getElem_cons_zero, BitVec.toNat_ofNat]
    split <;> split <;> rfl
  · simp only [List.getElem_cons_succ, List.getElem_cons_zero, BitVec.toNat_setWidth]
    have := (s.core k).main.pc.isLt
    omega
  · simp only [List.getElem_cons_succ, List.getElem_cons_zero, BitVec.toNat_ofNat]
    omega

/-! ## The registers -/

/-- The elements of a vector as the record holds them. -/
theorem State.readLE_storeVec (hs : Memory.wf s.mem = true) {m w n : Nat} (hw : w = 8 * n) (v : Vector (BitVec w) m) {live : Nat → Bool}
    (j : Fin m) (hlive : live j.val = true) :
    readLE (s.storeLive r n live (v.toList.map (·.toNat))).mem (r + n * j.val) n = v[j].toNat := by
  subst hw
  rw [State.readLE_storeLive hr hs (by simp) hlive]
  simp

theorem State.storeVec_writes {m w n hi : Nat} (v : Vector (BitVec w) m) (live : Nat → Bool) (hhi : r + n * m ≤ hi) :
    Writes r hi s (s.storeLive r n live (v.toList.map (·.toNat))) := by
  refine (State.storeLive_writes hr _ live s).mono (Nat.le_refl r) ?_
  rwa [List.length_map, Vector.length_toList]

theorem State.writeHandler_writes (h : HandlerCtx) : Writes (r + 0xC00) (r + 0x1000) s (s.writeHandler r h) := by
  have hx := State.storeWords_writes (a := r + 0xC40) (by omega) h.x.toList (s.storeFree (r + 0xC00) 8)
  rw [Vector.length_toList] at hx
  exact ((State.storeFree_writes (n := 8) (by omega) s).mono (Nat.le_refl _) (by omega)).trans
    ((hx.mono (by omega) (by omega)).trans ((State.storeVec_writes (by omega) h.v _ (Nat.le_refl _)).mono (by omega) (by omega)))

theorem State.writeMain_writes (hs : Memory.wf s.mem = true) (k : CoreIx) :
    Writes (r + 0x40) (r + 0xC00) s (s.writeMain k r) ∧ HoldsMain r (s.core k) (s.writeMain k r) := by
  unfold State.writeMain
  extract_lets c sx sf sm sc
  have hx : Writes (r + 0x40) (r + 0x140) s sx := State.storeVec_writes (by omega) _ _ (by omega)
  have hf : Writes (r + 0x140) (r + 0x180) sx sf := State.storeVec_writes (by omega) _ _ (by omega)
  have hm : Writes (r + 0x180) (r + 0x1C0) sf sm := State.storeVec_writes (by omega) _ _ (by omega)
  have hclear := State.clearImage_writes (r + 0x200) 512 sm
  have hctl := State.storeWords_writes (a := r + 0x200) (by omega) (sm.ctlWords k) (sm.clearImage (r + 0x200) 512)
  rw [State.ctlWords_length] at hctl
  have hc : Writes (r + 0x200) (r + 0x400) sm sc := hclear.trans (hctl.mono (Nat.le_refl _) (by omega))
  have hv : Writes (r + 0x400) (r + 0xC00) sc (sc.storeLive (r + 0x400) 64 (SaveMap.all.v.getLsbD ·) (c.main.v.toList.map (·.toNat))) :=
    State.storeVec_writes (by omega) _ _ (by omega)
  have wx := hx.wf hs
  have wf := hf.wf wx
  have wm := hm.wf wf
  have wc := hc.wf wm
  have core : sm.core k = c := by rw [hm.core, hf.core, hx.core]
  have afterM := (hc.mono (Nat.le_refl _) (by omega)).trans (hv.mono (by omega) (Nat.le_refl _))
  have afterF := (hm.mono (Nat.le_refl _) (by omega)).trans (afterM.mono (by omega) (Nat.le_refl _))
  have afterX := (hf.mono (Nat.le_refl _) (by omega)).trans (afterF.mono (by omega) (Nat.le_refl _))
  have creg {n : Nat} {q : CReg} (hn : n < 28) (hq : cregOf n = .ok q) :
      readLE (sc.storeLive (r + 0x400) 64 (SaveMap.all.v.getLsbD ·) (c.main.v.toList.map (·.toNat))).mem (r + 0x200 + 8 * n) 8 =
        (({ sm with cur := k } : State).readCtl c q).toNat := by
    refine (hv.readLE wc (by omega)).trans ?_
    refine (State.readLE_storeWords (by omega) (hclear.wf wm) (by rwa [State.ctlWords_length])).trans ?_
    rw [State.getElem_ctlWords _ hq, core]
  refine ⟨(hx.mono (Nat.le_refl _) (by omega)).trans (afterX.mono (by omega) (Nat.le_refl _)), fun j => ?_, fun j => ?_, fun j => ?_,
    fun j => ?_, creg (n := 1) (by omega) rfl, creg (n := 5) (by omega) rfl⟩
  · refine (afterX.readLE wx (by have := j.isLt; omega)).trans (State.readLE_storeVec (by omega) hs rfl _ j ?_)
    revert j
    decide
  · refine (afterF.readLE wf (by have := j.isLt; omega)).trans (State.readLE_storeVec (by omega) wx rfl _ j ?_)
    revert j
    decide
  · refine (afterM.readLE wm (by have := j.isLt; omega)).trans (State.readLE_storeVec (by omega) wf rfl _ j ?_)
    revert j
    decide
  · refine State.readLE_storeVec (by omega) wc rfl _ j ?_
    revert j
    decide

/-! ## Queues, planes, ports, the Relay and the areas without a layout -/

theorem State.writeQueue_writes (c : Core) (hmq : c.mat.mq.length ≤ 8) : Writes (r + 0x1000) (r + 0x1400) s (s.writeQueue r c) := by
  have hq := State.storeLive_writes (a := r + 0x1000) (n := 64) (by omega) (c.mat.mq.map fun e => encodeMat e.cmd) (fun _ => true)
    (s.clearImage (r + 0x1000) 512)
  rw [List.length_map] at hq
  exact ((State.clearImage_writes _ _ s).mono (Nat.le_refl _) (by omega)).trans
    ((hq.mono (Nat.le_refl _) (by omega)).trans ((State.storeFree_writes (by omega) _).mono (by omega) (by omega)))

/-- One plane: its columns and its scales. -/
theorem State.writePlane_writes (p : Plane) {a b : Nat} (ha : r + 0x1400 ≤ a) (ha' : a ≤ r + 0x1C00) (hb : r + 0x2E00 ≤ b)
    (hb' : b ≤ r + 0x2E80) : Writes (r + 0x1400) (r + 0x2F00) s ((s.storeLive a 128 (fun _ => true) (p.cols.toList.map (·.toNat))).storeLive b 8
      (fun _ => true) (p.scales.toList.map (·.toNat))) :=
  ((State.storeVec_writes (by omega) p.cols _ (Nat.le_refl _)).mono ha (by omega)).trans
    ((State.storeVec_writes (by omega) p.scales _ (Nat.le_refl _)).mono (by omega) (by omega))

theorem State.writePlanes_writes (c : Core) : Writes (r + 0x1400) (r + 0x2F00) s (s.writePlanes r c) :=
  (State.writePlane_writes hr c.mat.active (Nat.le_refl _) (by omega) (Nat.le_refl _) (by omega)).trans
    (State.writePlane_writes hr c.mat.shadow (by omega) (Nat.le_refl _) (by omega) (Nat.le_refl _))

theorem State.writeRelay_writes (c : Core) : Writes (r + 0x2500) (r + 0x2600) s (s.writeRelay r c) := by
  have hw := State.storeWords_writes (a := r + 0x2500) (by omega) (c.eng.relayCnt.toList ++ c.eng.relayTerm.toList)
    (s.clearImage (r + 0x2500) 256)
  rw [List.length_append, Vector.length_toList, Vector.length_toList] at hw
  exact (State.clearImage_writes _ _ s).trans ((hw.mono (Nat.le_refl _) (by omega)).trans
    ((State.store_writes (by omega) _ _ _).mono (by omega) (by omega)))

theorem State.writeNq_writes (c : Core) (hnq : ∀ q : Fin 4, c.seq.nq[q].length ≤ 8) : Writes (r + 0x2600) (r + 0x2E00) s (s.writeNq r c) := by
  refine List.foldlRecOn _ _ (motive := Writes (r + 0x2600) (r + 0x2E00) s) (.refl _ _ s) fun t ht q _ => ht.trans ?_
  have hq := State.storeLive_writes (a := r + 0x2600 + 512 * q.val) (n := 64) (by omega) (c.seq.nq[q].map (·.toNat)) (fun _ => true)
    (t.clearImage (r + 0x2600 + 512 * q.val) 512)
  rw [List.length_map] at hq
  have hlen := hnq q
  have hlt := q.isLt
  exact ((State.clearImage_writes _ _ t).mono (by omega) (by omega)).trans (hq.mono (by omega) (by omega))

/-! ## The buffers -/

/-- One range of a save. -/
def State.writeRange (s : State) (k : CoreIx) (r : Nat) (x : Buf × Nat × Nat) : State :=
  (s.copyImage (k.val * 2 ^ 20 + (winOff x.1 + x.2.1)) (r + 0x10000 + (winOff x.1 + x.2.1)) x.2.2).feImage
    ((k.val * 2 ^ 20 + (winOff x.1 + x.2.1)) / 8) (r + 0x110000 + (winOff x.1 + x.2.1) / 64) (x.2.2 / 64)

section
variable {k : CoreIx} {x : Buf × Nat × Nat} (hx : winOff x.1 + x.2.1 + x.2.2 ≤ 2 ^ 20)
include hx

omit hr in
theorem State.writeRange_writes : Writes (r + 0x10000) (r + 0x114000) s (s.writeRange k r x) :=
  ((State.copyImage_writes _ _ _ s).mono (by omega) (by omega)).trans ((State.feImage_writes _ _ _ _).mono (by omega) (by omega))

omit hr hx in
theorem State.writeRange_copies (hs : Memory.wf s.mem = true) : Copies (k.val * 2 ^ 20) (r + 0x10000) (inRange x) s (s.writeRange k r x) :=
  (State.copyImage_copies hs).writes (State.copyImage_wf hs _ _ _) (State.feImage_writes _ _ _ _) (by omega)

end

omit hr in
theorem State.writeRanges_writes {k : CoreIx} {l : List (Buf × Nat × Nat)} (hl : ∀ x ∈ l, winOff x.1 + x.2.1 + x.2.2 ≤ 2 ^ 20) :
    Writes (r + 0x10000) (r + 0x114000) s (s.writeRanges k r l) :=
  List.foldlRecOn _ _ (motive := Writes (r + 0x10000) (r + 0x114000) s) (.refl _ _ s) fun _ ht x hx => ht.trans (State.writeRange_writes (hl x hx))

/-- What the images of the buffers hold: the bytes of the listed ranges. -/
theorem State.writeRanges_copies {k : CoreIx} {l : List (Buf × Nat × Nat)} (hl : ∀ x ∈ l, winOff x.1 + x.2.1 + x.2.2 ≤ 2 ^ 20)
    (hs : Memory.wf s.mem = true) : Copies (k.val * 2 ^ 20) (r + 0x10000) (∃ x ∈ l, inRange x ·) s (s.writeRanges k r l) :=
  State.foldl_copies (f := fun s x => s.writeRange k r x) (by have := k.isLt; omega)
    (fun _ x hx ht => ⟨State.writeRange_writes (hl x hx), State.writeRange_copies ht⟩) hs

/-! ## The whole record -/

/-- What a forced save writes between the registers and the inbox area. -/
def State.writeParts (s : State) (r : Nat) (c : Core) : State :=
  ((((((s.writeQueue r c).clearImage (r + 0x2F00) 256).writePlanes r c).storeFree (r + 0x2400) 32).writeRelay r c).writeNq r c).storeFree
    (r + 0x3000) 256

theorem State.writeParts_writes {c : Core} (hmq : c.mat.mq.length ≤ 8) (hnq : ∀ q : Fin 4, c.seq.nq[q].length ≤ 8) :
    Writes (r + 0x1000) (r + 0x4000) s (s.writeParts r c) := by
  unfold State.writeParts
  refine (((((((State.writeQueue_writes hr c hmq).mono ?_ ?_).trans ((State.clearImage_writes _ _ _).mono ?_ ?_)).trans
    ((State.writePlanes_writes hr c).mono ?_ ?_)).trans ((State.storeFree_writes ?_ _).mono ?_ ?_)).trans
    ((State.writeRelay_writes hr c).mono ?_ ?_)).trans ((State.writeNq_writes hr c hnq).mono ?_ ?_)).trans
    ((State.storeFree_writes ?_ _).mono ?_ ?_) <;> omega

omit hr in
/-- The record of a core that has no part in the Market. -/
theorem State.writeRecord_forced {k : CoreIx} (hrank : (s.core k).slot.lrank ≠ 0) : s.writeRecord k r 2 0 SaveMap.all =
    (((((s.writeHeader k r 2 0).writeRegs k r SaveMap.all).writeParts r (s.core k)).writeInbox r (s.core k).evt.inbox)).writeRanges k r
      SaveMap.all.ranges := by
  unfold State.writeRecord
  simp only [hrank, if_false]
  rfl

/-- What the record of a forced save holds. -/
structure State.Recorded (k : CoreIx) (r : Nat) (s t : State) : Prop where
  writes : Writes r (r + 0x114000) s t
  kind : readLE t.mem r 8 = 2 * 2 ^ 62 + (if (s.core k).priv then 2 ^ 61 else 0) + (if (s.core k).exch.group.isSome then 2 ^ 60 else 0)
  pc : readLE t.mem (r + 8) 8 = (s.core k).main.pc.toNat
  count : readLE t.mem (r + 16) 8 = (s.core k).evt.inbox.length * 2 ^ 32 + k.val
  main : HoldsMain r (s.core k) t
  inbox : ∀ j (h : j < (s.core k).evt.inbox.length),
    readLE t.mem (r + 0x4000 + 16 * j) 8 = ((s.core k).evt.inbox[j]'h).header.toNat ∧
      readLE t.mem (r + 0x4008 + 16 * j) 8 = ((s.core k).evt.inbox[j]'h).payload.toNat
  window : ∀ o, o < 2 ^ 20 → memGet t.mem (r + 0x10000 + o) = memGet s.mem (k.val * 2 ^ 20 + o)

theorem State.writeRecord_recorded (hs : Memory.wf s.mem = true) {k : CoreIx} (hrank : (s.core k).slot.lrank ≠ 0)
    (hinbox : (s.core k).evt.inbox.length ≤ 256) (hmq : (s.core k).mat.mq.length ≤ 8) (hnq : ∀ q : Fin 4, (s.core k).seq.nq[q].length ≤ 8) :
    Recorded k r s (s.writeRecord k r 2 0 SaveMap.all) := by
  rw [State.writeRecord_forced hrank, State.writeRegs_all]
  have hheader := State.writeHeader_writes (s := s) hr k 2 0
  obtain ⟨hkind, hpc, hcount⟩ := State.readLE_writeHeader hr hs k hinbox
  generalize s.writeHeader k r 2 0 = s1 at *
  have w1 := hheader.wf hs
  obtain ⟨hregs, hmain⟩ := State.writeMain_writes hr w1 k
  rw [hheader.core] at hmain ⊢
  generalize s1.writeMain k r = s2 at *
  have w2 := hregs.wf w1
  have hhandler := State.writeHandler_writes (s := s2) hr (s.core k).hnd
  generalize s2.writeHandler r (s.core k).hnd = s3 at *
  have w3 := hhandler.wf w2
  have hparts := State.writeParts_writes (s := s3) hr hmq hnq
  generalize s3.writeParts r (s.core k) = s4 at *
  have w4 := hparts.wf w3
  have hbox := State.writeInbox_writes (s := s4) hr hinbox
  have hmsgs (j : Nat) (hj : j < (s.core k).evt.inbox.length) := State.readLE_writeInbox (s := s4) hr w4 hj
  generalize s4.writeInbox r (s.core k).evt.inbox = s5 at *
  have w5 := hbox.wf w4
  have hranges : ∀ x ∈ SaveMap.all.ranges, winOff x.1 + x.2.1 + x.2.2 ≤ 2 ^ 20 := by decide
  have hlast := State.writeRanges_writes (s := s5) (r := r) (k := k) hranges
  have hwindow := (State.writeRanges_copies hr (k := k) hranges w5).copied
  generalize s5.writeRanges k r SaveMap.all.ranges = s6 at *
  have h56 : Writes (r + 0x4000) (r + 0x114000) s4 s6 := (hbox.mono (by omega) (by omega)).trans (hlast.mono (by omega) (by omega))
  have h26 : Writes (r + 0xC00) (r + 0x114000) s2 s6 :=
    ((hhandler.mono (by omega) (by omega)).trans (hparts.mono (by omega) (by omega))).trans (h56.mono (by omega) (by omega))
  have h16 : Writes (r + 0x40) (r + 0x114000) s1 s6 := (hregs.mono (by omega) (by omega)).trans (h26.mono (by omega) (by omega))
  have h05 : Writes r (r + 0x5000) s s5 := (hheader.mono (by omega) (by omega)).trans ((hregs.mono (by omega) (by omega)).trans
    ((hhandler.mono (by omega) (by omega)).trans ((hparts.mono (by omega) (by omega)).trans (hbox.mono (by omega) (by omega)))))
  refine ⟨(hheader.mono (by omega) (by omega)).trans (h16.mono (by omega) (by omega)), (h16.readLE w1 (by omega)).trans hkind,
    (h16.readLE w1 (by omega)).trans hpc, (h16.readLE w1 (by omega)).trans hcount, hmain.writes w2 h26, fun j hj => ?_, fun o ho => ?_⟩
  · obtain ⟨hheader, hpayload⟩ := hmsgs j hj
    exact ⟨(hlast.readLE w5 (by omega)).trans hheader, (hlast.readLE w5 (by omega)).trans hpayload⟩
  · refine (hwindow o ho ?_).trans (h05.other hs _ (by have := k.isLt; omega))
    simp only [SaveMap.all, List.mem_cons, List.not_mem_nil, or_false, exists_eq_or_imp, exists_eq_left, inRange, winOff]
    omega

end

end Sys2Proof.Machine
end

section
/-!
SUPPORT. When a core may be saved (spec/05 R72, R73), and what its forced save leaves (R74, R75).
-/

namespace Sys2Proof.Machine

/-! ## When a save begins -/

theorem Core.hasStopped_iff {c : Core} : c.hasStopped = true ↔
    c.slot.stop ≠ .no ∨ c.slot.st = .halted ∨ c.slot.st = .saving ∨ c.slot.st = .frozen := by
  simp [Core.hasStopped, or_assoc]

theorem State.mem_boundOf {s : State} {lid : BitVec 16} {j : CoreIx} :
    j ∈ s.boundOf lid ↔ (s.core j).slot.lid = lid ∧ (s.core j).slot.st ≠ .idle := by
  simp only [State.boundOf, List.mem_filter, Bool.and_eq_true, beq_iff_eq, decide_eq_true_eq]
  exact ⟨fun h => h.2, fun h => ⟨State.mem_listed h.2, h⟩⟩

/-- Of a core that waits for the boundary there is nothing to save yet, nor of one whose launch is not to be saved. -/
theorem State.maySave_of_state {s : State} {k : CoreIx} (h1 : (s.core k).slot.st ≠ .stopping) (h2 : (s.core k).slot.st ≠ .saving)
    (h3 : (s.core k).slot.st = .halted → (s.core k).slot.preq = none) : s.maySave k = false := by
  have h3' : (decide ((s.core k).slot.st = .halted) && (s.core k).slot.preq.isSome) = false := by
    simpa [Option.isSome_eq_false_iff] using h3
  unfold State.maySave
  simp only [h1, h2, h3', decide_false, Bool.false_and, Bool.or_false]

theorem State.maySave_of_running {s : State} {k j : CoreIx} (hlid : (s.core j).slot.lid = (s.core k).slot.lid)
    (hst : (s.core j).slot.st ≠ .idle) (hstop : (s.core j).hasStopped = false) : s.maySave k = false := by
  have hall : ((s.boundOf (s.core k).slot.lid).all fun j => (s.core j).hasStopped) = false :=
    List.all_eq_false.mpr ⟨j, State.mem_boundOf.mpr ⟨hlid, hst⟩, by rw [hstop]; decide⟩
  unfold State.maySave
  simp only [hall, Bool.and_false, Bool.false_and]

theorem State.exec_contextSave_of_not {s : State} {k : CoreIx} (h : s.maySave k = false) : exec (.contextSave k) s = .next s := by
  show execContextSave k s = _
  unfold execContextSave
  rw [h]
  rfl

/-- Where nothing is under way, a save begins once every core of the launch has stopped. -/
theorem State.maySave_of_quiet {s : State} {k : CoreIx} (hst : (s.core k).slot.st = .stopping) (hstop : (s.core k).slot.stop = .forced)
    (hall : ∀ j, (s.core j).slot.lid = (s.core k).slot.lid → (s.core j).slot.st ≠ .idle → (s.core j).hasStopped = true)
    (hmain : (s.core k).main.flights = []) (hhnd : (s.core k).hnd.flights = []) (hnet : s.net = []) (hxfers : s.xfers = [])
    (hposts : s.posts = []) (hpushed : s.pushed = []) (hparts : s.parts = []) (hgraphs : s.convoy.graphs = [])
    (hplays : s.convoy.plays = []) (hports : (s.core k).portWrites = []) : s.maySave k = true := by
  have hbound : ((s.boundOf (s.core k).slot.lid).all fun j => (s.core j).hasStopped) = true :=
    List.all_eq_true.mpr fun j hj => (State.mem_boundOf.mp hj).elim (hall j)
  have hsettled : (s.core k).settled false = true ∧ (s.core k).settled true = true := by
    constructor
    · show (s.core k).main.flights.all _ = true
      rw [hmain]
      rfl
    · show (s.core k).hnd.flights.all _ = true
      rw [hhnd]
      rfl
  unfold State.maySave
  simp only [hbound, hsettled]
  simp [State.writesTo, State.accPending, State.marketBusy, State.playing, hst, hstop, hnet, hxfers, hposts, hpushed, hparts, hgraphs,
    hplays, hports]

/-! ## What it meets, and what it leaves -/

theorem State.sweep_of_nil {s : State} (h : s.bad = []) (k : CoreIx) (a n : Nat) : s.sweep k a n = s.correct a n := by
  rw [State.sweep, h]
  rfl

theorem State.ReadFrame.bad {s t : State} (h : ReadFrame s t) : t.bad = s.bad := by rw [h.rest]

/-- Without uncorrectable errors a save only corrects what it meets. -/
theorem State.sweepSave_reads {s : State} (h : s.bad = []) (k : CoreIx) (r : Nat) (l : List (Buf × Nat × Nat)) :
    ReadFrame s (s.sweepSave k r l) := by
  have hfold : ReadFrame s (l.foldl (fun s x => s.sweep k (k.val * 2 ^ 20 + winOff x.1 + x.2.1) x.2.2) s) := by
    refine List.foldlRecOn _ _ (motive := ReadFrame s) (.refl s) fun t ht x _ => ht.trans ?_
    rw [State.sweep_of_nil (ht.bad.trans h)]
    exact State.correct_reads _ _ _
  unfold State.sweepSave
  rw [State.sweep_of_nil (hfold.bad.trans h)]
  exact hfold.trans (State.correct_reads _ _ _)

theorem State.freeBad_of_nil {s : State} (h : s.bad = []) (k : CoreIx) (r : Nat) (l : List (Buf × Nat × Nat)) : s.freeBad k r l = s :=
  foldl_fixed_of_mem fun x _ => by
    rw [h]
    rfl

theorem Core.landAll_true_of_nil {c : Core} (h : c.hnd.flights = []) : c.landAll true = c := by
  show (landList true c.hnd.flights c).setFlights true [] = c
  rw [h]
  show ({ c with hnd := { c.hnd with flights := [] } } : Core) = c
  rw [← h]

/-- With its last core a launch is READY again (R72). -/
theorem State.saveDone_spec (s : State) (lid : BitVec 16) :
    s.saveDone lid = { s with sched := (s.saveDone lid).sched } ∧
      ((∀ j, (s.core j).slot.lid = lid → (s.core j).slot.st = .idle) →
        ∀ m ∈ (s.saveDone lid).sched.launches, m.lid = lid → m.st = .ready ∨ m.st = .ended) := by
  unfold State.saveDone
  split
  · refine ⟨rfl, fun _ m hm hlid => ?_⟩
    obtain ⟨m', -, rfl⟩ := List.mem_map.mp hm
    split
    · exact .inl rfl
    · rename_i hn
      rw [if_neg hn] at hlid
      simp only [Bool.and_eq_true, beq_iff_eq, decide_eq_true_eq, not_and, not_not] at hn
      exact .inr (hn hlid)
  · rename_i hn
    refine ⟨rfl, fun h => absurd ?_ hn⟩
    rw [List.isEmpty_iff, List.eq_nil_iff_forall_not_mem]
    intro j hj
    obtain ⟨hlid, hst⟩ := State.mem_boundOf.mp hj
    exact hst (h j hlid)

/-- What a forced save leaves of core k. -/
structure State.Saves (k : CoreIx) (s t : State) : Prop where
  record : ∃ u v, u.mem = s.mem ∧ (∀ j, u.core j = s.core j) ∧ Recorded k (s.core k).slot.crec.toNat u v ∧ t.mem = v.mem
  self : t.core k = { (s.core k).toIdle with slot := { (s.core k).toIdle.slot with skind := 2 } }
  others : ∀ j, j ≠ k → t.core j = s.core j
  done : (∀ j, j ≠ k → (s.core j).slot.lid = (s.core k).slot.lid → (s.core j).slot.st = .idle) →
    ∀ m ∈ t.sched.launches, m.lid = (s.core k).slot.lid → m.st = .ready ∨ m.st = .ended

/-- The forced save of a core that has no part in the Market, where no memory has failed. -/
theorem State.exec_contextSave_forced {s : State} {k : CoreIx} (hmay : s.maySave k = true) (hstop : (s.core k).slot.stop = .forced)
    (hmain : (s.core k).main.flights = []) (hhnd : (s.core k).hnd.flights = []) (hbad : s.bad = [])
    (hrecord : ∀ u : State, u.mem = s.mem → (∀ j, u.core j = s.core j) → Recorded k (s.core k).slot.crec.toNat u
      (u.writeRecord k (s.core k).slot.crec.toNat 2 0 SaveMap.all)) :
    ∃ t, exec (.contextSave k) s = .next t ∧ Saves k s t := by
  let r := (s.core k).slot.crec.toNat
  let u0 := s.setCore k (s.core k)
  have hu0 (j : CoreIx) : u0.core j = s.core j := by
    rw [core_setCore]
    split
    · rename_i hj
      rw [hj]
    · rfl
  have hland : (s.modCore k fun c => (c.landAll false).landAll true) = u0 := by
    rw [State.modCore, Core.landAll_of_nil hmain, Core.landAll_true_of_nil hhnd]
  have hmap : u0.saveMap k = .ok (u0, SaveMap.all, 2, 0) := by
    have hstop' : (u0.core k).slot.stop = .forced := by rw [hu0, hstop]
    simp only [State.saveMap, hstop']
  have hsweep : ReadFrame u0 (u0.sweepSave k r SaveMap.all.ranges) := State.sweepSave_reads (s := u0) hbad k r _
  have hv : Recorded k r (u0.sweepSave k r SaveMap.all.ranges) ((u0.sweepSave k r SaveMap.all.ranges).writeRecord k r 2 0 SaveMap.all) :=
    hrecord _ hsweep.mem fun j => (hsweep.core j).trans (hu0 j)
  obtain ⟨u, hu⟩ : ∃ u, u = u0.sweepSave k r SaveMap.all.ranges := ⟨_, rfl⟩
  obtain ⟨v, hveq⟩ : ∃ v, v = u.writeRecord k r 2 0 SaveMap.all := ⟨_, rfl⟩
  rw [← hu] at hsweep hv
  rw [← hveq] at hv
  have hmem : u.mem = s.mem := hsweep.mem
  have hcore (j : CoreIx) : u.core j = s.core j := (hsweep.core j).trans (hu0 j)
  have hvcore (j : CoreIx) : v.core j = s.core j := (hv.writes.core j).trans (hcore j)
  have hvbad : v.bad = [] := by
    rw [hv.writes.rest]
    exact hsweep.bad.trans hbad
  let idle (c : Core) : Core := c.toIdle.withSlot fun t => { t with skind := BitVec.ofNat 2 2 }
  let kept : Core := { s.core k with eng := { (s.core k).eng with copies := (s.core k).eng.copies.map Xfer.atCursor } }
  let saved : SavedCore := { crec := r, map := SaveMap.all, core := kept, held := (s.core k).evt.held }
  let w : State := ({ v with saves := put v.saves (saveKey (s.core k).slot.lid k) saved } : State).chargeRecord (s.core k).slot.ctx true
  have hexec : exec (.contextSave k) s = .next ((w.modCore k idle).saveDone (s.core k).slot.lid) := by
    show execContextSave k s = _
    unfold execContextSave
    rw [hmay, hland, hmap]
    simp only [Bool.not_true, Bool.false_eq_true, if_false, hu0]
    rw [← hu, ← hveq, State.freeBad_of_nil hvbad]
    rfl
  have hw (j : CoreIx) : (w.modCore k idle).core j = if j = k then idle (s.core k) else s.core j := by
    have hwcore (j : CoreIx) : w.core j = s.core j := hvcore j
    rw [State.modCore, core_setCore, hwcore, hwcore]
  obtain ⟨hrest, hdone⟩ := (w.modCore k idle).saveDone_spec (s.core k).slot.lid
  have hfinal (j : CoreIx) : ((w.modCore k idle).saveDone (s.core k).slot.lid).core j = (w.modCore k idle).core j := by rw [hrest]; rfl
  refine ⟨_, hexec, ⟨u, v, hmem, hcore, hv, ?_⟩, ?_, fun j hj => ?_, fun hothers => hdone fun j hlid => ?_⟩
  · rw [hrest]
    rfl
  · rw [hfinal, hw, if_pos rfl]
    rfl
  · rw [hfinal, hw, if_neg hj]
  · rw [hw] at hlid ⊢
    split
    · rfl
    · rename_i hj
      rw [if_neg hj] at hlid
      exact hothers j hj hlid

end Sys2Proof.Machine
end

section
/-!
SUPPORT. RELEASE to every slot of a launch (spec/05 R69, R71), and the launch whose load failed (R64).
-/

namespace Sys2Proof.Machine

/-- Cores of a launch are released: those become IDLE, or keep their slot; every other core stays as it is. -/
structure State.Releases (lid : BitVec 16) (s t : State) : Prop where
  slot : ∀ j, (t.core j).slot.st = .idle ∨ (t.core j).slot = (s.core j).slot
  others : ∀ j, (s.core j).slot.lid ≠ lid ∨ (s.core j).slot.st = .idle → t.core j = s.core j
  launches : t.sched.launches = s.sched.launches
  host : t.host = s.host
  calm : s.spilled = [] → t.mem = s.mem ∧ t.spilled = []

section
variable {lid : BitVec 16} {s t u : State}

theorem State.Releases.refl (lid : BitVec 16) (s : State) : Releases lid s s :=
  ⟨fun _ => .inr rfl, fun _ _ => rfl, rfl, rfl, fun h => ⟨rfl, h⟩⟩

theorem State.Releases.trans (h : Releases lid s t) (k : Releases lid t u) : Releases lid s u where
  slot j := by
    rcases h.slot j with hj | hj
    · exact .inl (by rw [k.others j (.inr hj), hj])
    · exact (k.slot j).imp_right (·.trans hj)
  others j hj := by
    have heq := h.others j hj
    exact (k.others j (by rwa [heq])).trans heq
  launches := k.launches.trans h.launches
  host := k.host.trans h.host
  calm hs := ⟨(k.calm (h.calm hs).2).1.trans (h.calm hs).1, (k.calm (h.calm hs).2).2⟩

/-- RELEASE to one slot. -/
theorem State.doRelease_releases {i : CoreIx} (hlid : (s.core i).slot.lid = lid) (hst : (s.core i).slot.st ≠ .idle) (r : BindRec) :
    Releases lid s (s.doRelease i r) ∧ ((s.doRelease i r).core i).slot.st = .idle := by
  have hdo : s.doRelease i r = (s.takeRecord i 4 r).unbind i := if_pos (decide_eq_true hst)
  have hun := (s.takeRecord i 4 r).unbind_unbinds i
  rw [hdo]
  generalize (s.takeRecord i 4 r).unbind i = t at *
  have htake (j : CoreIx) : (s.takeRecord i 4 r).core j =
      if j = i then (s.core i).withSlot (fun x => x.answer 4 r false) else s.core j := core_setCore _ _ _ _
  have hself : ((s.takeRecord i 4 r).core i).slot.lid = lid := by
    rw [htake, if_pos rfl]
    exact (Slot.answer_lid ..).trans hlid
  have hidle : (t.core i).slot.st = .idle := by
    rw [hun.self]
    rfl
  refine ⟨⟨fun j => ?_, fun j hj => ?_, hun.launches, hun.host, hun.calm⟩, hidle⟩
  · by_cases hj : j = i
    · exact .inl (hj ▸ hidle)
    · right
      rw [(hun.frame j hj).slot, htake, if_neg hj]
  · have hji : j ≠ i := by
      rintro rfl
      exact hj.elim (· hlid) hst
    have hjcore : (s.takeRecord i 4 r).core j = s.core j := by rw [htake, if_neg hji]
    rw [hun.others j hji (by rwa [hjcore, hself]), hjcore]

theorem State.releases_fold (lid : BitVec 16) (l : List CoreIx) (s : State) :
    Releases lid s (l.foldl (fun s i =>
      if (s.core i).slot.lid == lid && (s.core i).slot.st ≠ .idle then s.doRelease i (s.hartRec i) else s) s) ∧
    ∀ j ∈ l, (s.core j).slot.lid = lid → ((l.foldl (fun s i =>
      if (s.core i).slot.lid == lid && (s.core i).slot.st ≠ .idle then s.doRelease i (s.hartRec i) else s) s).core j).slot.st = .idle := by
  induction l generalizing s with
  | nil => exact ⟨.refl lid s, fun _ h => (List.not_mem_nil h).elim⟩
  | cons i l ih =>
    let u := if (s.core i).slot.lid == lid && (s.core i).slot.st ≠ .idle then s.doRelease i (s.hartRec i) else s
    have hu : Releases lid s u ∧ ((s.core i).slot.lid = lid → (u.core i).slot.st = .idle) := by
      simp only [u, Bool.and_eq_true, beq_iff_eq, decide_eq_true_eq]
      split
      · rename_i h
        obtain ⟨hrel, hidle⟩ := State.doRelease_releases h.1 h.2 (s.hartRec i)
        exact ⟨hrel, fun _ => hidle⟩
      · rename_i h
        exact ⟨.refl lid s, fun hlid => not_not.mp fun hst => h ⟨hlid, hst⟩⟩
    obtain ⟨hrest, hidle⟩ := ih u
    rw [List.foldl_cons]
    refine ⟨hu.1.trans hrest, fun j hj hlid => ?_⟩
    have hstays (h : (u.core j).slot.st = .idle) : ((l.foldl (fun s i =>
        if (s.core i).slot.lid == lid && (s.core i).slot.st ≠ .idle then s.doRelease i (s.hartRec i) else s) u).core j).slot.st = .idle := by
      rw [hrest.others j (.inr h), h]
    rcases List.mem_cons.mp hj with rfl | hj
    · exact hstays (hu.2 hlid)
    · rcases hu.1.slot j with h | h
      · exact hstays h
      · exact hidle j hj (by rw [h, hlid])

/-- RELEASE to every slot of a launch leaves all of them IDLE. -/
theorem State.releaseLaunch_releases (s : State) (lid : BitVec 16) : Releases lid s (s.releaseLaunch lid) ∧
    ∀ j, (s.core j).slot.lid = lid → ((s.releaseLaunch lid).core j).slot.st = .idle := by
  obtain ⟨hrel, hidle⟩ := State.releases_fold lid s.listed s
  refine ⟨hrel, fun j hlid => ?_⟩
  by_cases hst : (s.core j).slot.st = .idle
  · exact (congrArg (·.slot.st) (hrel.others j (.inr hst))).trans hst
  · exact hidle j (State.mem_listed hst) hlid

/-! ## A load that fails -/

theorem State.failLoad_spec (s : State) (l : Launch) (i : CoreIx) (hlid : (s.core i).slot.lid = l.lid) :
    ((s.failLoad l).core i).slot.st = .idle ∧ ∀ m ∈ (s.failLoad l).sched.launches, m.lid = l.lid → m.st ≠ .ended → m.reason = 2 := by
  unfold State.failLoad
  extract_lets set
  obtain ⟨hrel, hidle⟩ := State.releaseLaunch_releases { s with sched := { s.sched with launches := s.sched.launches.map set } } l.lid
  refine ⟨hidle i hlid, fun m hm hm1 hm2 => ?_⟩
  rw [hrel.launches] at hm
  obtain ⟨m', -, rfl⟩ := List.mem_map.mp hm
  simp only [set] at hm1 hm2 ⊢
  split
  · rfl
  · rename_i h
    rw [if_neg h] at hm1 hm2
    simp only [Bool.and_eq_true, beq_iff_eq, decide_eq_true_eq, not_and, not_not] at h
    exact absurd (h hm1) hm2

end

end Sys2Proof.Machine
end

section
/-!
SUPPORT. The end of LOADING (spec/05 R65, R69): the text of a cluster, a window cleared, and a core started anew.
-/

namespace Sys2Proof.Machine

/-! ## Text -/

/-- The cells of a text from an address on. -/
def textCells (l : List Host.Cell) (a : Nat) (ws : List Word) : List Host.Cell :=
  (ws.foldl (fun (m : List Host.Cell × Nat) w => (writeLE m.1 m.2 8 w.toNat, m.2 + 8)) (l, a)).1

theorem textCells_cons (l : List Host.Cell) (a : Nat) (w : Word) (ws : List Word) :
    textCells l a (w :: ws) = textCells (writeLE l a 8 w.toNat) (a + 8) ws := rfl

theorem memGet_textCells {l : List Host.Cell} (h : Memory.wf l = true) (ws : List Word) {a x : Nat} (hx : x < a) :
    memGet (textCells l a ws) x = memGet l x := by
  induction ws generalizing l a with
  | nil => rfl
  | cons w ws ih =>
    rw [textCells_cons, ih (writeLE_wf h _ _ _) (by omega)]
    exact memGet_writeLE_other h (.inl hx)

theorem readLE_textCells {l : List Host.Cell} (h : Memory.wf l = true) {ws : List Word} {a j : Nat} (hj : j < ws.length) :
    readLE (textCells l a ws) (a + 8 * j) 8 = ws[j].toNat := by
  induction ws generalizing l a j with
  | nil => cases hj
  | cons w ws ih =>
    have hw := writeLE_wf h a 8 w.toNat
    rw [textCells_cons]
    cases j with
    | zero =>
      refine (readLE_congr (b := a) fun o ho => memGet_textCells hw ws (by omega)).trans ?_
      rw [readLE_writeLE h]
      exact Nat.mod_eq_of_lt w.isLt
    | succ j =>
      rw [show a + 8 * (j + 1) = a + 8 + 8 * j by omega]
      exact ih hw (Nat.lt_of_succ_lt_succ hj)

section
variable {s : State} {i : CoreIx} {l : Launch}

theorem State.loadText_of_loaded (h : look ((0 : BitVec 16), 0) s.text (clusterOf i.val) = (l.lid, l.codeLen)) : s.loadText i l = (s, none) :=
  if_pos h

theorem State.loadText_of_error {t : State} {e : AccErr} (h : look ((0 : BitVec 16), 0) s.text (clusterOf i.val) ≠ (l.lid, l.codeLen))
    (hread : State.engReadWords (hartAcc l.ctx i.val) (l.codeLen / 8) s l.codeVa = (t, .error e)) : s.loadText i l = (t, some e) := by
  unfold State.loadText
  rw [if_neg h, hread]

theorem State.loadText_of_ok {t : State} {ws : List Word} (h : look ((0 : BitVec 16), 0) s.text (clusterOf i.val) ≠ (l.lid, l.codeLen))
    (hread : State.engReadWords (hartAcc l.ctx i.val) (l.codeLen / 8) s l.codeVa = (t, .ok ws)) :
    s.loadText i l = ({ t with istore := put t.istore (clusterOf i.val) (textCells [] 0 ws),
                               text := put t.text (clusterOf i.val) (l.lid, l.codeLen) }, none) := by
  unfold State.loadText
  rw [if_neg h, hread]
  rfl

end

/-- The scheduler hart's reads, by their outcome. -/
theorem State.ReadFrame.of_reads {s t : State} {ctx : BitVec 12} {core n : Nat} {ga : Word} {x : Except AccErr (List Word)}
    (h : State.engReadWords (hartAcc ctx core) n s ga = (t, x)) : ReadFrame s t := by
  have hreads := State.engReadWords_reads (hartAcc_silent ctx core) n s ga
  rwa [h] at hreads

/-! ## The window (R65) -/

/-- A window that is cleared holds zeros, and all its words are full. -/
theorem State.clearWindow_spec {s : State} (hs : Memory.wf s.mem = true) (k : CoreIx) :
    (∀ a, memGet (s.clearWindow k).mem a =
      if k.val * 2 ^ 20 ≤ a ∧ a < k.val * 2 ^ 20 + 2 ^ 20 then 0 else memGet s.mem a) ∧
    ∀ w, w ∈ (s.clearWindow k).empties ↔ w ∈ s.empties ∧ ¬ (k.val * 2 ^ 20 / 8 ≤ w ∧ w < k.val * 2 ^ 20 / 8 + 2 ^ 17) := by
  refine ⟨fun a => ?_, fun w => ?_⟩
  · split
    · rename_i h
      exact State.memGet_clearImage hs h.1 h.2
    · rename_i h
      exact (State.clearImage_writes (k.val * 2 ^ 20) (2 ^ 20) s).other hs a (by omega)
  · simp only [State.clearWindow, List.mem_filter, Bool.or_eq_true, decide_eq_true_eq]
    exact and_congr_right fun _ => by omega

/-! ## A core started anew (R69) -/

/-- What BIND_NEW makes of a core. -/
theorem Core.startNew_spec (c : Core) (i : CoreIx) (l : Launch) :
    (c.startNew i l).main.x[(10 : XReg)] = l.param ∧ (c.startNew i l).main.x[(11 : XReg)] = natW c.slot.lrank.toNat ∧
      (∀ j : XReg, j ≠ 10 → j ≠ 11 → (c.startNew i l).main.x[j] = 0) ∧ (c.startNew i l).main.f = Vector.replicate 16 0 ∧
      (c.startNew i l).main.v = Vector.replicate 32 0 ∧ (c.startNew i l).main.pc = l.entry ∧ (c.startNew i l).main.npc = l.entry ∧
      (c.startNew i l).slot = { c.slot with st := .running, load := .none } ∧ (c.startNew i l).ctl.coreStatus = c.ctl.coreStatus := by
  have hx : (c.startNew i l).main.x = ((Vector.replicate 32 (0 : Word)).set 10 l.param).set 11 (c.slot.lrank.setWidth 64) := rfl
  refine ⟨?_, ?_, fun j h1 h2 => ?_, rfl, rfl, rfl, rfl, rfl, rfl⟩
  · rw [hx]
    rfl
  · rw [hx]
    show c.slot.lrank.setWidth 64 = _
    rw [natW, BitVec.ofNat_toNat]
  · have h1' : (10 : Nat) ≠ j.val := fun h => h1 (Fin.ext h.symm)
    have h2' : (11 : Nat) ≠ j.val := fun h => h2 (Fin.ext h.symm)
    rw [hx, Fin.getElem_fin, Vector.getElem_set_ne _ _ h2', Vector.getElem_set_ne _ _ h1', Vector.getElem_replicate]

/-! ## LOADING completes -/

theorem State.launchOf_lid {s : State} {i : CoreIx} {l : Launch} (h : s.launchOf i = some l) : (s.core i).slot.lid = l.lid := by
  have := List.find?_some h
  simp only [Bool.and_eq_true, beq_iff_eq] at this
  exact this.1.symm

/-- The hart's sweep of a record leaves every core as it is. -/
theorem State.sweep_reads (s : State) (k : CoreIx) (a n : Nat) : ReadFrame s (s.sweep k a n) :=
  List.foldlRecOn _ _ (motive := ReadFrame s) (State.correct_reads s a n) fun _ ht _ _ =>
    ht.trans (State.logViolation_reads silentSrc_four _ _ _ _ _ _)

section
variable {s s1 : State} {i : CoreIx} {l : Launch} (hst : (s.core i).slot.st = .loading) (hl : s.launchOf i = some l)
include hst hl

theorem State.exec_loadingComplete_error {x : AccErr} (htext : s.loadText i l = (s1, some x)) (hx : x ≠ .wait) :
    exec (.loadingComplete i) s = .next (s1.failLoad l) := by
  show execLoadingComplete i s = _
  cases x <;> simp_all [execLoadingComplete, ok]

theorem State.exec_loadingComplete_new (htext : s.loadText i l = (s1, none)) (hload : (s.core i).slot.load = .new) (hdata : l.data = []) :
    exec (.loadingComplete i) s = .next ((s1.clearWindow i).modCore i (·.startNew i l)) := by
  show execLoadingComplete i s = _
  simp [execLoadingComplete, hst, hl, htext, hload, State.loadNew, hdata, State.loadData, ok]

theorem State.exec_loadingComplete_resume (htext : s.loadText i l = (s1, none)) (hload : (s.core i).slot.load = .resume) :
    exec (.loadingComplete i) s =
      if s1.badAt (s.core i).slot.crec.toNat recordLen then .next ((s1.sweep i (s.core i).slot.crec.toNat recordLen).failLoad l)
      else .next ((s1.correct (s.core i).slot.crec.toNat recordLen).restored i l) := by
  show execLoadingComplete i s = _
  simp [execLoadingComplete, hst, hl, htext, hload, ok]

end

end Sys2Proof.Machine
end

section
/-!
SUPPORT. The resume of a saved core (spec/05 R69, R74, R75): its window, its registers and its control registers.
-/

namespace Sys2Proof.Machine

/-! ## Reserved bits at zero (spec/00 R4) -/

/-- A field of a word, in place. -/
theorem getLsbD_field (x : Word) (lo n j : Nat) : (natW (2 ^ lo * bits x lo n)).getLsbD j =
    (decide (j < 64) && decide (lo ≤ j) && decide (j < lo + n) && x.getLsbD j) := by
  simp only [natW, bits, BitVec.getLsbD_ofNat, Nat.testBit_two_pow_mul, Nat.testBit_mod_two_pow, Nat.testBit_div_two_pow, BitVec.testBit_toNat]
  by_cases h : lo ≤ j
  · rw [show j - lo + lo = j by omega]
    by_cases h' : j < lo + n
    · simp [h, h', show j - lo < n by omega]
    · simp [h, h', show ¬ j - lo < n by omega]
  · simp [h]

/-- A word under a mask of one field. -/
theorem field_eq_and {x mask : Word} {lo n : Nat} (hmask : ∀ j, j < 64 → mask.getLsbD j = (decide (lo ≤ j) && decide (j < lo + n))) :
    x &&& mask = natW (2 ^ lo * bits x lo n) := by
  refine BitVec.eq_of_getLsbD_eq fun j hj => ?_
  rw [getLsbD_field, BitVec.getLsbD_and, hmask j hj, decide_eq_true hj, Bool.true_and, Bool.and_comm]

/-- A word under a mask of two fields, the higher one behind the lower. -/
theorem fields_eq_and {x mask : Word} {lo n lo' n' : Nat} (h : lo + n ≤ lo')
    (hmask : ∀ j, j < 64 → mask.getLsbD j = (decide (lo ≤ j) && decide (j < lo + n) || decide (lo' ≤ j) && decide (j < lo' + n'))) :
    x &&& mask = natW (2 ^ lo * bits x lo n + 2 ^ lo' * bits x lo' n') := by
  have hsum : natW (2 ^ lo * bits x lo n + 2 ^ lo' * bits x lo' n') = natW (2 ^ lo * bits x lo n) + natW (2 ^ lo' * bits x lo' n') :=
    BitVec.ofNat_add _ _
  have hdisjoint : natW (2 ^ lo * bits x lo n) &&& natW (2 ^ lo' * bits x lo' n') = 0#64 := by
    refine BitVec.eq_of_getLsbD_eq fun j hj => ?_
    rw [BitVec.getLsbD_and, getLsbD_field, getLsbD_field, BitVec.getLsbD_zero]
    by_cases h1 : j < lo + n
    · simp [show ¬ lo' ≤ j by omega]
    · simp [h1]
  rw [hsum, BitVec.add_eq_or_of_and_eq_zero _ _ hdisjoint]
  refine BitVec.eq_of_getLsbD_eq fun j hj => ?_
  rw [BitVec.getLsbD_or, getLsbD_field, getLsbD_field, BitVec.getLsbD_and, hmask j hj, decide_eq_true hj]
  cases x.getLsbD j <;> simp

/-- The control registers of a resume that have reserved bits. -/
theorem CtlRegs.restore_spec (c : CtlRegs) (rd : Nat → Word) (now : Nat) :
    (c.restore rd now).trapCause = natW (bits (rd 1) 0 8 + 2 ^ 63 * bits (rd 1) 63 1) ∧ (c.restore rd now).trapPc = rd 2 ∧
      (c.restore rd now).trapVal = rd 3 ∧ (c.restore rd now).tvec = natW (8 * bits (rd 5) 3 14 + 2 ^ 63 * bits (rd 5) 63 1) ∧
      (c.restore rd now).intEn = natW (bits (rd 6) 0 4) ∧ (c.restore rd now).vlen = natW (bits (rd 14) 0 7) ∧
      (c.restore rd now).fpctl = natW (bits (rd 12) 0 6 + 2 ^ 8 * bits (rd 12) 8 3) := by
  have hcause := fields_eq_and (x := rd 1) (mask := 0x80000000000000FF) (lo := 0) (n := 8) (lo' := 63) (n' := 1) (by decide) (by decide)
  have htvec := fields_eq_and (x := rd 5) (mask := 0x800000000001FFF8) (lo := 3) (n := 14) (lo' := 63) (n' := 1) (by decide) (by decide)
  have hint := field_eq_and (x := rd 6) (mask := 0xF) (lo := 0) (n := 4) (by decide)
  have hvlen := field_eq_and (x := rd 14) (mask := 0x7F) (lo := 0) (n := 7) (by decide)
  have hfpctl := fields_eq_and (x := rd 12) (mask := 0x73F) (lo := 0) (n := 6) (lo' := 8) (n' := 3) (by decide) (by decide)
  rw [Nat.pow_zero, Nat.one_mul] at hcause hint hvlen hfpctl
  exact ⟨hcause, rfl, rfl, htvec, hint, hvlen, hfpctl⟩

/-- An offset of a bundle as a record holds it. -/
theorem pcOf_natW {n : Nat} (h : n < 2 ^ 64) : pcOf (BitVec.ofNat 64 n) = BitVec.ofNat 17 (n / 8 * 8) := by
  refine BitVec.eq_of_toNat_eq ?_
  simp only [pcOf, bits, BitVec.toNat_ofNat, Nat.mod_eq_of_lt h]
  omega

/-! ## The window -/

/-- The restored ranges of a window. -/
theorem State.restoreRanges_spec {s : State} (hs : Memory.wf s.mem = true) (k : CoreIx) {r : Nat} (hr : 2 ^ 32 ≤ r)
    {l : List (Buf × Nat × Nat)} (hl : ∀ x ∈ l, winOff x.1 + x.2.1 + x.2.2 ≤ 2 ^ 20) :
    Writes (k.val * 2 ^ 20) (k.val * 2 ^ 20 + 2 ^ 20) s (s.restoreRanges k r l) ∧
      Copies (r + 0x10000) (k.val * 2 ^ 20) (∃ x ∈ l, inRange x ·) s (s.restoreRanges k r l) := by
  have hk := k.isLt
  have hstep (s : State) (x : Buf × Nat × Nat) (hx : x ∈ l) (hs : Memory.wf s.mem = true) :
      Writes (k.val * 2 ^ 20) (k.val * 2 ^ 20 + 2 ^ 20) s ((s.copyImage (r + 0x10000 + (winOff x.1 + x.2.1))
        (k.val * 2 ^ 20 + (winOff x.1 + x.2.1)) x.2.2).feRestore (r + 0x110000 + (winOff x.1 + x.2.1) / 64)
        ((k.val * 2 ^ 20 + (winOff x.1 + x.2.1)) / 8) (x.2.2 / 64)) ∧
      Copies (r + 0x10000) (k.val * 2 ^ 20) (inRange x) s ((s.copyImage (r + 0x10000 + (winOff x.1 + x.2.1))
        (k.val * 2 ^ 20 + (winOff x.1 + x.2.1)) x.2.2).feRestore (r + 0x110000 + (winOff x.1 + x.2.1) / 64)
        ((k.val * 2 ^ 20 + (winOff x.1 + x.2.1)) / 8) (x.2.2 / 64)) := by
    have hlx := hl x hx
    have hw := (State.copyImage_writes (r + 0x10000 + (winOff x.1 + x.2.1)) (k.val * 2 ^ 20 + (winOff x.1 + x.2.1)) x.2.2 s).mono
      (lo' := k.val * 2 ^ 20) (hi' := k.val * 2 ^ 20 + 2 ^ 20) (by omega) (by omega)
    have hc := State.copyImage_copies hs (src := r + 0x10000) (dst := k.val * 2 ^ 20) (x := x)
    exact ⟨⟨rfl, hw.wf, hw.other⟩, ⟨hc.copied, hc.kept⟩⟩
  refine ⟨?_, State.foldl_copies (by omega) hstep hs⟩
  have hfold : Memory.wf s.mem = true → Writes (k.val * 2 ^ 20) (k.val * 2 ^ 20 + 2 ^ 20) s (s.restoreRanges k r l) := fun hs =>
    List.foldlRecOn _ _ (motive := Writes (k.val * 2 ^ 20) (k.val * 2 ^ 20 + 2 ^ 20) s) (.refl _ _ s) fun t ht x hx =>
      ht.trans (hstep t x hx (ht.wf hs)).1
  exact hfold hs

/-! ## The core -/

/-- A window as a resume restores it. -/
def State.restoreWindow (s : State) (i : CoreIx) : State :=
  (s.clearWindow i).restoreRanges i (s.core i).slot.crec.toNat (s.savedOf i).map.ranges

/-- The core as a resume restores it, from its record and its restored window. -/
def State.resumedCore (s : State) (i : CoreIx) (l : Launch) : Core :=
  let u := s.restoreWindow i
  let r := (s.core i).slot.crec.toNat
  (((u.restoreCore (s.savedOf i) r (u.core i)).withGroups i l.groups).withSlot fun t =>
    { t with st := if u.load r 8 / 2 ^ 62 = 3 then .halted else .running, load := .none }).settle

/-- A resume of a core that has no part in the Market, where no message waits for a receive: of its core only engines and inbox may change after
it is restored, and no memory. -/
theorem State.restored_spec {s : State} {i : CoreIx} (l : Launch) (hrank : (s.core i).slot.lrank ≠ 0)
    (hmsgs : (s.restoreWindow i).pre.unexpected = []) :
    Core.InboxFrame (s.resumedCore i l) ((s.restored i l).core i) ∧ (s.restored i l).mem = (s.restoreWindow i).mem := by
  unfold State.restored
  extract_lets t r key sv u0 u st c c' v0 v
  have hu : u = s.restoreWindow i := if_neg hrank
  have hc' : c' = s.resumedCore i l := by
    simp only [c', c, st, hu]
    rfl
  let w : State := ({ u.setCore i c' with saves := drop u.saves key } : State).chargeRecord t.ctx false
  have hv : v = w := by
    show w.pre.unexpected.foldl State.rematchOne w = w
    rw [show w.pre.unexpected = [] from (congrArg (·.pre.unexpected) hu).trans hmsgs]
    rfl
  have hcore : w.core i = s.resumedCore i l := (core_setCore_self u i c').trans hc'
  have hmem : w.mem = (s.restoreWindow i).mem := by
    show u.mem = _
    rw [hu]
  clear_value v w
  subst hv
  split
  · have hends := State.orphanXfers_ends t.lid v
    refine ⟨hcore ▸ hends.core i, ?_⟩
    rw [hends.rest]
    exact hmem
  · exact ⟨hcore ▸ .refl _, hmem⟩

/-- The window of a resume: written within itself alone, the listed ranges from the record and zeros elsewhere. -/
theorem State.restoreWindow_spec {s : State} (hs : Memory.wf s.mem = true) (i : CoreIx) (hr : 2 ^ 32 ≤ (s.core i).slot.crec.toNat)
    (hl : ∀ x ∈ (s.savedOf i).map.ranges, winOff x.1 + x.2.1 + x.2.2 ≤ 2 ^ 20) :
    Writes (i.val * 2 ^ 20) (i.val * 2 ^ 20 + 2 ^ 20) s (s.restoreWindow i) ∧ ∀ o, o < 2 ^ 20 →
      ((∃ x ∈ (s.savedOf i).map.ranges, inRange x o) →
        memGet (s.restoreWindow i).mem (i.val * 2 ^ 20 + o) = memGet s.mem ((s.core i).slot.crec.toNat + 0x10000 + o)) ∧
      ((¬ ∃ x ∈ (s.savedOf i).map.ranges, inRange x o) → memGet (s.restoreWindow i).mem (i.val * 2 ^ 20 + o) = 0) := by
  have hk := i.isLt
  have hclear := State.clearImage_writes (i.val * 2 ^ 20) (2 ^ 20) s
  have hw : Writes (i.val * 2 ^ 20) (i.val * 2 ^ 20 + 2 ^ 20) s (s.clearWindow i) := ⟨rfl, hclear.wf, hclear.other⟩
  obtain ⟨hranges, hcopies⟩ := State.restoreRanges_spec (hw.wf hs) i hr hl
  refine ⟨hw.trans hranges, fun o ho => ⟨fun hin => ?_, fun hout => ?_⟩⟩
  · exact (hcopies.copied o ho hin).trans (hw.other hs _ (by omega))
  · refine (hcopies.kept o ho hout).trans (((State.clearWindow_spec hs i).1 _).trans (if_pos ?_))
    omega

/-- What the record gives a resumed core. -/
theorem State.resumedCore_spec (s : State) (i : CoreIx) (l : Launch) :
    (s.resumedCore i l).main =
        (s.restoreWindow i).restoreMain (s.core i).slot.crec.toNat (s.savedOf i).map (s.savedOf i).core.main ∧
      (s.resumedCore i l).slot = { ((s.restoreWindow i).core i).slot with
        st := if (s.restoreWindow i).load (s.core i).slot.crec.toNat 8 / 2 ^ 62 = 3 then .halted else .running, load := .none } ∧
      ∃ gmem gscope, (s.resumedCore i l).ctl = { ((s.restoreWindow i).core i).ctl.restore
        (fun n => BitVec.ofNat 64 ((s.restoreWindow i).load ((s.core i).slot.crec.toNat + 0x200 + 8 * n) 8)) (s.restoreWindow i).now with
        gmem := gmem, gscope := gscope } := by
  unfold State.resumedCore
  extract_lets u r
  have hframe := Core.settle_frame (((u.restoreCore (s.savedOf i) r (u.core i)).withGroups i l.groups).withSlot fun t =>
    { t with st := if u.load r 8 / 2 ^ 62 = 3 then .halted else .running, load := .none })
  exact ⟨hframe.main, hframe.slot, _, _, hframe.ctl⟩

/-- The registers of a resume. -/
theorem State.restoreMain_spec (s : State) (r : Nat) (m : SaveMap) (old : MainCtx) :
    (s.restoreMain r m old).pc = pcOf (BitVec.ofNat 64 (s.load (r + 8) 8)) ∧
      (∀ j : XReg, (s.restoreMain r m old).x[j] = BitVec.ofNat 64 (s.recVal r (0x40 + 8 * j.val) 8 (m.x.getLsbD j.val))) ∧
      (∀ j : FReg, (s.restoreMain r m old).f[j] = BitVec.ofNat 32 (s.recVal r (0x140 + 4 * j.val) 4 (m.f.getLsbD j.val))) ∧
      (∀ j : MReg, (s.restoreMain r m old).m[j] = BitVec.ofNat 64 (s.recVal r (0x180 + 8 * j.val) 8 (m.m.getLsbD j.val))) ∧
      ∀ j : VReg, (s.restoreMain r m old).v[j] = BitVec.ofNat 512 (s.recVal r (0x400 + 64 * j.val) 64 (m.v.getLsbD j.val)) := by
  simp [State.restoreMain]

/-- A number of a record, where it was saved. -/
theorem State.recVal_eq {s u : State} {r : Nat} (hread : ∀ a n, r ≤ a → u.load a n = readLE s.mem a n) (off n : Nat) (live : Bool) :
    u.recVal r off n live = if live then readLE s.mem (r + off) n else 0 := by
  rw [State.recVal, hread _ _ (Nat.le_add_right r off)]

/-- What a resumed core has of its record at r, saved with a map, and its window. -/
structure State.Resumes (i : CoreIx) (r : Nat) (map : SaveMap) (s t : State) : Prop where
  slot : (t.core i).slot =
    { (s.core i).slot with load := .none, st := if readLE s.mem r 8 / 2 ^ 62 = 3 then .halted else .running }
  pc : (t.core i).main.pc = BitVec.ofNat 17 (readLE s.mem (r + 8) 8 / 8 * 8)
  x : ∀ j : XReg, (t.core i).main.x[j] = natW (if map.x.getLsbD j.val then readLE s.mem (r + (0x40 + 8 * j.val)) 8 else 0)
  f : ∀ j : FReg, (t.core i).main.f[j] = BitVec.ofNat 32 (if map.f.getLsbD j.val then readLE s.mem (r + (0x140 + 4 * j.val)) 4 else 0)
  m : ∀ j : MReg, (t.core i).main.m[j] = natW (if map.m.getLsbD j.val then readLE s.mem (r + (0x180 + 8 * j.val)) 8 else 0)
  v : ∀ j : VReg, (t.core i).main.v[j] = BitVec.ofNat 512 (if map.v.getLsbD j.val then readLE s.mem (r + (0x400 + 64 * j.val)) 64 else 0)
  ctl : ∃ gmem gscope, (t.core i).ctl = { (s.core i).ctl.restore (fun n => natW (readLE s.mem (r + 0x200 + 8 * n) 8)) s.now with
    gmem := gmem, gscope := gscope }
  other : ∀ a, a < i.val * 2 ^ 20 ∨ i.val * 2 ^ 20 + 2 ^ 20 ≤ a → memGet t.mem a = memGet s.mem a
  window : ∀ o, o < 2 ^ 20 →
    ((∃ x ∈ map.ranges, inRange x o) → memGet t.mem (i.val * 2 ^ 20 + o) = memGet s.mem (r + 0x10000 + o)) ∧
    ((¬ ∃ x ∈ map.ranges, inRange x o) → memGet t.mem (i.val * 2 ^ 20 + o) = 0)

theorem State.restored_resumes {s : State} (hs : Memory.wf s.mem = true) {i : CoreIx} (l : Launch) (hrank : (s.core i).slot.lrank ≠ 0)
    (hmsgs : s.pre.unexpected = []) (hr : 2 ^ 32 ≤ (s.core i).slot.crec.toNat)
    (hl : ∀ x ∈ (s.savedOf i).map.ranges, winOff x.1 + x.2.1 + x.2.2 ≤ 2 ^ 20) :
    Resumes i (s.core i).slot.crec.toNat (s.savedOf i).map s (s.restored i l) := by
  obtain ⟨hwrites, hwindow⟩ := State.restoreWindow_spec hs i hr hl
  obtain ⟨hmain, hslot, gmem, gscope, hctl⟩ := s.resumedCore_spec i l
  have hrest := hwrites.rest
  obtain ⟨hframe, hmem⟩ := State.restored_spec (s := s) (i := i) l hrank (by rw [hrest]; exact hmsgs)
  have hnow : (s.restoreWindow i).now = s.now := by rw [hrest]
  have hcore : (s.restoreWindow i).core i = s.core i := hwrites.core i
  have hread (a n : Nat) (ha : (s.core i).slot.crec.toNat ≤ a) : (s.restoreWindow i).load a n = readLE s.mem a n :=
    hwrites.readLE hs (by have := i.isLt; omega)
  generalize s.restored i l = t at hframe hmem ⊢
  generalize s.resumedCore i l = d at hmain hslot hctl hframe
  generalize s.restoreWindow i = u at hmain hslot hctl hmem hwindow hwrites hcore hread hnow
  generalize (s.core i).slot.crec.toNat = r at *
  obtain ⟨hpc, hx, hf, hm, hv⟩ := u.restoreMain_spec r (s.savedOf i).map (s.savedOf i).core.main
  simp only [State.recVal_eq hread] at hx hf hm hv
  rw [hread _ _ (by omega)] at hpc hslot
  have hwords : (fun n => BitVec.ofNat 64 (u.load (r + 0x200 + 8 * n) 8)) = fun n => natW (readLE s.mem (r + 0x200 + 8 * n) 8) :=
    funext fun n => by rw [hread _ _ (by omega), natW]
  rw [hcore, hwords, hnow] at hctl
  rw [hcore] at hslot
  refine ⟨hframe.slot.trans hslot, ?_, ?_, ?_, ?_, ?_, ⟨gmem, gscope, hframe.ctl.trans hctl⟩, fun a ha => ?_, fun o ho => ?_⟩
  · rw [hframe.main, hmain, hpc]
    exact pcOf_natW (readLE_lt s.mem (r + 8) 8)
  · rw [hframe.main, hmain]
    exact hx
  · rw [hframe.main, hmain]
    exact hf
  · rw [hframe.main, hmain]
    exact hm
  · rw [hframe.main, hmain]
    exact hv
  · rw [hmem]
    exact hwrites.other hs a ha
  · rw [hmem]
    exact hwindow o ho

end Sys2Proof.Machine
end

section
namespace Sys2Proof.Proofs
open Sys2Proof.Machine

/-- Settles O54, clause by clause: bind records by what each action does of a record that is taken and of one that is refused; LOADING by the
reads of the scheduler hart and, for a resume, by the record; a save by the areas of the record in rising order; the answer of a send by the inbox
area; interrupts, timer and timeouts by their definitions. -/
theorem slotsAndCoreEvents : Obligations.SlotsAndCoreEvents := by
  refine ⟨fun i r s => ?_, fun i s l hst hl => ?_, fun i s h => ?_, fun k s => ?_, fun k h r s key sv sr st x => ?_, fun k s => ?_⟩
  · intro c t0 word rec_ leaves free isRecord binds
    have hword (act : BitVec 4) : recordWord act r = word act := rfl
    have hrec (act : BitVec 4) (err : Bool) : rec_ act err = t0.answer act.toNat r err := (Slot.answer_eq (hword act) t0 err).symm
    clear_value rec_ word
    have htake (act : BitVec 4) : s.takeRecord i act.toNat r = s.setCore i { c with slot := rec_ act false } := by
      rw [hrec]
      rfl
    have hrefuse (act : BitVec 4) : s.refuseRecord i act.toNat r = s.setCore i { c with slot := rec_ act true } := by
      rw [hrec]
      rfl
    have hfree : s.clusterTaken i r.lid = false ↔ free := State.clusterTaken_eq_false
    have htaken : s.clusterTaken i r.lid = true ↔ ¬ free := by rw [← hfree, Bool.not_eq_false]
    have hrecord : s.recordOf i r.crec.toNat = true ↔ isRecord := State.recordOf_iff
    have hbinds {act : BitVec 4} {l : LoadKind} {e : Instr} (he : exec e s = .next (s.doBind i act.toNat r l))
        (hdo : s.doBind i act.toNat r l = (s.takeRecord i act.toNat r).bindCore i r l) : binds e act l := by
      refine ⟨_, he.trans (congrArg ok hdo), rfl, rfl, fun j hj => ?_, ?_, ?_,
        fun m hm hlid => State.launches_bindCore (s := s) (i := i) (act := act) (load := l) hm hlid⟩
      · rw [State.core_bindCore (hword act), if_neg hj]
      · rw [State.core_bindCore (hword act), if_pos rfl]
        rfl
      · exact (look_put _ _ _ _ _).trans (if_pos rfl)
    refine ⟨?_, ?_, ?_, ?_, ?_, ?_, ?_, ?_, ?_, ?_, ?_, ?_⟩
    · exact congrArg ok (htake 0)
    · intro h
      refine congrArg ok ((State.doBind_refused (act := 1) ?_).trans (hrefuse 1))
      exact h.imp (fun h => decide_eq_false h) fun h => .inl (htaken.mpr h)
    · intro h hf
      exact hbinds rfl (State.doBind_taken (decide_eq_true h) (hfree.mpr hf) fun h => absurd h (by decide))
    · intro h
      refine congrArg ok ((State.doBind_refused (act := 2) ?_).trans (hrefuse 2))
      refine h.imp (fun h => decide_eq_false h) (.imp (fun h => htaken.mpr h) fun h => ⟨rfl, ?_⟩)
      rwa [← hrecord, Bool.not_eq_true] at h
    · intro h hf hr
      exact hbinds rfl (State.doBind_taken (decide_eq_true h) (hfree.mpr hf) fun _ => hrecord.mpr hr)
    · intro h1 h2
      refine congrArg ok ((if_neg ?_).trans (hrefuse 3))
      simp [accepts, t0, c] at *
      exact ⟨h1, h2⟩
    · intro h
      exact congrArg ok ((State.doPreempt_of_running r h).trans (by rw [hrec]; rfl))
    · intro h
      exact congrArg ok ((State.doPreempt_of_halted r h).trans (by rw [hrec]; rfl))
    · intro h1 h2 h3
      exact congrArg ok ((if_neg (by simp [accepts, c, t0] at *; exact ⟨⟨h1, h2⟩, h3⟩)).trans (hrefuse 5))
    · intro h hcopies hrank hheld
      have hfrozen : (s.core i).frozenBy r = { c with
          slot := { rec_ 5 false with st := .frozen, preq := none }
          evt := { c.evt with held := [], dropped := c.evt.dropped + c.evt.held.length } } := by
        rw [hrec]
        exact Core.frozenBy_of_keep r hheld
      refine congrArg ok ((State.doFreeze_of_nil r ?_ ?_ ?_).trans (by rw [hfrozen]))
      · rcases h with h | h | h <;> simp [accepts, c, t0] at * <;> simp [h]
      · rw [hfrozen]
        exact hcopies
      · rw [hfrozen]
        refine .inl (show (rec_ 5 false).lrank ≠ 0 from ?_)
        rw [hrec, Slot.answer_lrank]
        exact hrank
    · intro h
      exact congrArg ok ((if_neg (by simp [accepts, c, t0] at *; exact h)).trans (hrefuse 4))
    · intro h
      have hdo : s.doRelease i r = (s.setCore i { c with slot := rec_ 4 false }).unbind i :=
        (if_pos (decide_eq_true h)).trans (congrArg (·.unbind i) (htake 4))
      have hun := State.unbind_unbinds (s.setCore i { c with slot := rec_ 4 false }) i
      have hself := hun.self
      have hslot : (rec_ 4 false).lid = t0.lid ∧ (rec_ 4 false).lrank = t0.lrank ∧ (rec_ 4 false).ctx = t0.ctx ∧
          (rec_ 4 false).aseq = r.seq ∧ (rec_ 4 false).err = false := by
        rw [hrec]
        exact ⟨Slot.answer_lid .., Slot.answer_lrank .., Slot.answer_ctx .., Slot.answer_aseq .., Slot.answer_err ..⟩
      generalize rec_ 4 false = t1 at *
      obtain ⟨hlid, hlrank, hctx, haseq, herr⟩ := hslot
      rw [core_setCore_self] at hself
      have hcopies (j : CoreIx) : ((s.setCore i { c with slot := t1 }).core j).eng.copies = (s.core j).eng.copies := by
        rw [core_setCore]
        split
        · rename_i hj
          rw [hj]
        · rfl
      have hslots := hun.alone
      have hnet := hun.net
      have hpre := hun.pre
      have hgraphs := hun.graphs
      have hsaved := hun.saved
      have hlists := hun.lists
      have hparts := hun.parts
      have hexperts := hun.experts
      simp only [core_setCore_self, hlid, hlrank, hctx, hcopies, State.setCore_net, State.setCore_pre, State.setCore_spilled,
        State.setCore_lists] at hslots hnet hpre hgraphs hsaved hlists hparts hexperts
      refine ⟨_, congrArg ok hdo, fun hs => (hun.calm hs).1, fun hn j hj => ?_, ?_, ?_, ?_, ?_, ?_, ?_, ?_, fun q => ?_, fun p hp => ?_,
        fun m hm => ?_, ?_, hgraphs, hsaved, ?_, hlists, fun h0 => ⟨hparts h0, fun e _ he => hexperts h0 e he⟩⟩
      · rw [hslots hn j hj, core_setCore_ne _ _ _ _ hj]
      · rw [hself]
        rfl
      · rw [hself]
        exact haseq
      · rw [hself]
        exact herr
      · rw [hself]
        rfl
      · rw [hself]
        rfl
      · rw [hself]
        rfl
      · rw [hself]
        rfl
      · rw [hnet]
        exact mem_left
      · rw [hpre] at hp
        simpa [Pre.drop, not_and_or] using (List.mem_filter.mp hp).2
      · rw [hpre] at hm
        simpa [Pre.drop, not_and_or] using (List.mem_filter.mp hm).2
      · rw [hpre]
        simp [Pre.drop, beq_eq_decide]
      · rw [hun.faults]
        simp
  · intro c cl e base codeLen codeVa entry loaded reads runs
    have hlid := State.launchOf_lid hl
    have hentry : l.entry = entry := congrArg (BitVec.ofNat 17) (Nat.mul_comm _ _)
    have hruns {u : State} (hu : (u.core i) = s.core i) : runs ((u.clearWindow i).modCore i (·.startNew i l)) := by
      have hcore : ((u.clearWindow i).modCore i (·.startNew i l)).core i = c.startNew i l :=
        (core_modCore_self _ _ _).trans (congrArg (·.startNew i l) hu)
      obtain ⟨h10, h11, hx, hf, hv, hpc, hnpc, hslot, hstatus⟩ := c.startNew_spec i l
      simp only [runs, hcore]
      exact ⟨h10, h11, hx, hf, hv, hpc.trans hentry, hnpc.trans hentry, hslot, hstatus⟩
    have hfails {u : State} (hu : State.ReadFrame s u) : ((u.failLoad l).core i).slot.st = .idle ∧
        ∀ m ∈ (u.failLoad l).sched.launches, m.lid = l.lid → m.st ≠ .ended → m.reason = 2 :=
      State.failLoad_spec u l i (by rw [hu.core]; exact hlid)
    refine ⟨fun hload hloaded hdata hs => ?_, fun s1 ws hload hnot hdata hreads => ?_, fun s1 x hnot hreads hx => ?_, ?_⟩
    · obtain ⟨hmem, hempties⟩ := State.clearWindow_spec hs.1 i
      exact ⟨_, State.exec_loadingComplete_new hst hl (State.loadText_of_loaded hloaded) hload hdata, hruns rfl, rfl, hmem, hempties,
        fun j hj => core_modCore_ne _ _ _ _ hj⟩
    · have hframe : State.ReadFrame s s1 := .of_reads hreads
      refine ⟨_, State.exec_loadingComplete_new hst hl (State.loadText_of_ok hnot hreads) hload hdata, hruns (hframe.core i), ?_,
        fun j hj => ?_, fun x hx => ?_⟩
      · exact (look_put _ _ _ _ _).trans (if_pos rfl)
      · have hlen : j < ws.length := by rwa [State.engReadWords_length hreads]
        have hstore : look [] (put s1.istore cl (textCells [] 0 ws)) cl = textCells [] 0 ws := (look_put _ _ _ _ _).trans (if_pos rfl)
        have hread := readLE_textCells (l := []) rfl (a := 0) hlen
        rw [Nat.zero_add] at hread
        refine (congrArg (readLE · (8 * j) 8) hstore).trans (hread.trans ?_)
        rw [List.getD_eq_getElem _ _ hlen]
      · exact (look_put _ _ _ _ _).trans ((if_neg hx).trans (by rw [hframe.istore]))
    · have hframe : State.ReadFrame s s1 := .of_reads hreads
      exact ⟨_, State.exec_loadingComplete_error hst hl (State.loadText_of_error hnot hreads) hx, hfails hframe⟩
    · intro r sv val ctl
      refine ⟨fun hload hloaded hbad => ?_, fun hload hloaded hrank hmsgs hr hs hbad hranges => ?_⟩
      · exact ⟨_, (State.exec_loadingComplete_resume hst hl (State.loadText_of_loaded hloaded) hload).trans (if_pos hbad),
          hfails (s.sweep_reads _ _ _)⟩
      · have hl' : ∀ x ∈ ((s.correct r recordLen).savedOf i).map.ranges, winOff x.1 + x.2.1 + x.2.2 ≤ 2 ^ 20 := fun x hx => by
          have := hranges x hx
          cases hb : x.1 <;> rw [hb] at this <;> simp only [Buf.size, winOff] at this ⊢ <;> omega
        have hres := State.restored_resumes (s := s.correct r recordLen) hs.1 l hrank hmsgs hr hl'
        refine ⟨_, (State.exec_loadingComplete_resume hst hl (State.loadText_of_loaded hloaded) hload).trans (if_neg ?_), ?_⟩
        · rw [Bool.not_eq_true]
          exact hbad
        generalize (s.correct r recordLen).restored i l = t at hres ⊢
        obtain ⟨hslot, hpc, hx, hf, hm, hv, ⟨gmem, gscope, hctl⟩, hother, hwindow⟩ := hres
        have hwords := (CtlRegs.restore_spec ((s.correct r recordLen).core i).ctl ctl (s.correct r recordLen).now)
        obtain ⟨hcause, htpc, htval, htvec, hint, hvlen, hfpctl⟩ := hwords
        refine ⟨hslot, hpc, hx, hf, hm, hv, ?_, ?_, ?_, ?_, ?_, ?_, ?_, hother, fun o ho => ⟨(hwindow o ho).1, fun hout => (hwindow o ho).2 ?_⟩⟩
        · rw [hctl]
          exact hcause
        · rw [hctl]
          exact htpc
        · rw [hctl]
          exact htval
        · rw [hctl]
          exact htvec
        · rw [hctl]
          exact hint
        · rw [hctl]
          exact hvlen
        · rw [hctl]
          exact hfpctl
        · rintro ⟨x, hx, hxo⟩
          have := hout x hx
          unfold inRange at hxo
          omega
  · exact show execLoadingComplete i s = ok s from if_pos h
  · intro c r base stopped
    refine ⟨fun h1 h2 h3 => State.exec_contextSave_of_not (State.maySave_of_state h1 h2 h3), fun ⟨j, hlid, hst, hj⟩ => ?_,
      fun hst hstop hrank hr hs hbad hall hmain hhnd hnet hxfers hposts hpushed hparts hgraphs hplays hports hmq hinbox herr hnq => ?_⟩
    · refine State.exec_contextSave_of_not (State.maySave_of_running hlid hst ?_)
      rwa [← Bool.not_eq_true, Core.hasStopped_iff]
    · have hmay := State.maySave_of_quiet hst hstop (fun j hlid hj => Core.hasStopped_iff.mpr (hall j hlid hj)) hmain hhnd hnet hxfers hposts
        hpushed hparts hgraphs hplays hports
      obtain ⟨t, hexec, ⟨u, v, hmem, hcore, hrec, htmem⟩, hself, hothers, hdone⟩ :=
        State.exec_contextSave_forced hmay hstop hmain hhnd hbad fun u hmem hcore => by
          have hk := hcore k
          exact State.writeRecord_recorded hr (hmem ▸ hs.1) (by rwa [hk]) (by rwa [hk]) (by rwa [hk]) (by rwa [hk])
      have hu : u.core k = c := hcore k
      obtain ⟨hwrites, hkind, hpc, hcount, ⟨hx, hf, hm, hv, hcause, htvec⟩, hmsgs, hwindow⟩ := hrec
      simp only [hu, hmem] at hkind hpc hcount hx hf hm hv hcause htvec hmsgs hwindow
      rw [← htmem] at hkind hpc hcount hx hf hm hv hcause htvec hmsgs hwindow
      refine ⟨t, hexec, hkind.trans ?_, hpc, hcount, hx, hf, hm, hv, hcause, htvec, hmsgs, hwindow, fun a ha => ?_, ?_, ?_, ?_, ?_, hothers, hdone⟩
      · cases c.exch.group <;> rfl
      · rw [htmem, hwrites.other (hmem ▸ hs.1) a ha, hmem]
      · rw [hself]
        rfl
      · rw [hself]
      · rw [hself]
        rfl
      · rw [hself]
        rfl
  · intro n hno hsaved hanswer hst hheld hn hr hs
    have happends := State.placeSaved_appends (key := key) (m := mkMsg 0x31 st.toNat sr.dst.val sr.handle.toNat
      (recvPayload sr.tag sr.dev.val sr.len)) (.freeSend h) hs.1 hr hheld hn
    refine ⟨_, State.exec_sendAnswer_saved hno hsaved hanswer hst hheld, happends.count, ?_, happends.payload, fun j => ?_, happends.other, ?_⟩
    · exact happends.header.trans (header_mkMsg (by decide) st.isLt (by omega) sr.handle.isLt _)
    · rw [State.core, happends.cores, State.core]
    · obtain ⟨sv', hlookup, hcore⟩ := happends.saved
      refine ⟨sv', hlookup, fun q hq => ?_⟩
      rw [hcore] at hq
      simpa using (List.mem_filter.mp hq).2
  · intro c time due first takes
    have hdue (j : Fin 4) : bit (s.intPend c &&& c.ctl.intEn) j = true ↔ due j := by
      rw [bit_and, Bool.and_eq_true, and_comm, s.bit_intPend]
      simp only [due, Fin.ext_iff]
      rfl
    have hd0 : bit (s.intPend c &&& c.ctl.intEn) 0 = true ↔ due 0 := hdue 0
    have hd1 : bit (s.intPend c &&& c.ctl.intEn) 1 = true ↔ due 1 := hdue 1
    have hd2 : bit (s.intPend c &&& c.ctl.intEn) 2 = true ↔ due 2 := hdue 2
    have hd3 : bit (s.intPend c &&& c.ctl.intEn) 3 = true ↔ due 3 := hdue 3
    clear_value due
    refine ⟨fun h => State.exec_interruptTaken_of_not fun cause hb => ?_, fun hbit hintrap hreturning hpark hovr hparked hresp hfaults hpeer
      hqto hwdog hflights hloop hdrain hst hstop hfatal => ?_, ?_, ⟨?_, ?_⟩, ?_, ?_⟩
    · obtain ⟨hbit, hcause⟩ := State.boundary_int hb
      rcases h with h | h
      · cases h.symm.trans hbit
      · have hnone : intCause (s.intPend c &&& c.ctl.intEn) = none := by
          simp [intCause, hd0, hd1, hd2, hd3, h]
        cases hnone.symm.trans hcause
    · have hboundary := State.boundary_of_open hbit hintrap hreturning hpark hovr hparked hresp hfaults hpeer hqto hwdog
      have htakes {cause : BitVec 8} {d : Core} {v : Word} (h : intCause (s.intPend c &&& c.ctl.intEn) = some cause)
          (he : s.eventTrap c (.int cause) = (d, false, cause, c.main.pc, v)) (hf : d.main.flights = []) : takes d cause v :=
        (State.exec_interruptTaken (hboundary.trans (congrArg _ h)) hflights hloop hdrain hst hstop hfatal).trans
          (congrArg ok (State.takeEvent_eq he hf))
      have hlast (h : first 3) : intCause (s.intPend c &&& c.ctl.intEn) = some 0x12 := by
        obtain ⟨h3, hnot⟩ := h
        simp [intCause, hd0, hd1, hd2, hd3, h3, hnot]
      refine ⟨fun ⟨h0, _⟩ => ?_, fun ⟨h1, hnot⟩ => ?_, fun ⟨h2, hnot⟩ => ?_, fun d i r h herr => ?_, fun n h herr hn hbefore => ?_⟩
      · exact htakes (by simp [intCause, hd0, h0]) rfl hflights
      · exact htakes (by simp [intCause, hd0, hd1, h1, hnot]) rfl hflights
      · exact htakes (by simp [intCause, hd0, hd1, hd2, h2, hnot]) rfl hflights
      · exact htakes (hlast h) (by simp [State.eventTrap, herr, natW]) hflights
      · exact htakes (hlast h) (by simp [State.eventTrap, herr, natW, pendTerm_eq hn hbefore]) hflights
    · exact ⟨_, rfl, rfl, s.timer_reached c⟩
    · intro t0 ht0 hlimit hnow
      rw [State.exec_watchdogExpiry, ht0]
      refine if_neg ?_
      simp only [Bool.or_eq_true, decide_eq_true_eq, not_or, Nat.not_lt]
      exact ⟨hlimit, hnow⟩
    · intro h
      rw [State.exec_watchdogExpiry]
      rcases h with h | h | ⟨t0, ht0, h⟩
      · rw [h]
      · split
        · rfl
        · exact if_pos (by simp [show bits (s.core k).ctl.wdog 0 32 * 1800 = 0 from h])
      · rw [ht0]
        exact if_pos (by simpa using .inr h)
    · intro t0 hpreq hst hstop hnow hloop
      rw [State.exec_safeTimeout, hpreq, Core.closeCapture_of_none hloop]
      refine if_neg ?_
      simp only [Bool.or_eq_true, decide_eq_true_eq, not_or, Nat.not_lt, not_not]
      exact ⟨⟨hst, hstop⟩, hnow⟩
    · intro h
      rw [State.exec_safeTimeout]
      rcases h with h | h | h | ⟨t0, ht0, h⟩
      · rw [h]
      · split
        · rfl
        · exact if_pos (by simpa using .inl (.inl h))
      · split
        · rfl
        · exact if_pos (by simpa using .inl (.inr h))
      · rw [ht0]
        exact if_pos (by simpa using .inr h)

end Sys2Proof.Proofs
end

section
/-!
SUPPORT. The packet of a launch and the end of a launch (spec/04 R61, R63, spec/05 R71): when a LAUNCH packet may start, and what a launch that
ends leaves of its packet and of its TAG.
-/

namespace Sys2Proof.Machine

/-! ## The packet -/

/-- What a LAUNCH packet needs to start: no FEN behind another packet, and no PUT before it. -/
theorem State.startable_launch_iff {s : State} {q : Fin 64} {n : Nat} {p : Packet} (hp : (s.qi q).packet n = some p) :
    s.startable q n 3 = some p ↔ p.op = 3 ∧ p.started = false ∧ p.result = none ∧
      ∀ e ∈ (s.qi q).packets, e.seq < n → p.fen = false ∧ e.op ≠ 1 := by
  have hmay (hop : p.op = 3) : (s.qi q).mayStart p = true ↔ ∀ e ∈ (s.qi q).packets, e.seq < n → p.fen = false ∧ e.op ≠ 1 := by
    simp only [Qi.mayStart_iff, hop, Qi.packet_seq hp]
    exact forall₃_congr fun e _ _ => by simp
  simp only [State.startable, hp, Option.ite_none_right_eq_some, and_true, Bool.and_eq_true, decide_eq_true_eq, Bool.not_eq_true',
    Option.isNone_iff_eq_none, and_assoc]
  exact and_congr_right fun hop => and_congr_right fun _ => and_congr_right fun _ => hmay hop

theorem State.startable_eq_none {s : State} {q : Fin 64} {n op : Nat} {p : Packet} (hp : (s.qi q).packet n = some p)
    (h : s.startable q n op ≠ some p) : s.startable q n op = none := by
  simp only [State.startable, hp, ne_eq, Option.ite_none_right_eq_some, and_true] at h ⊢
  exact if_neg h

/-- A packet whose work ends, as the last that did. -/
theorem State.finishPacket_ended (s : State) (q : Fin 64) (n : Nat) (st : BitVec 8) (res : Word) {e : Packet} (he : e ∈ (s.qi q).packets)
    (hseq : e.seq = n) (hres : e.result = none) :
    { e with result := some (st, res), waitPage := none, fin := (s.finishPacket q n st res).nextId - 1 } ∈
      ((s.finishPacket q n st res).qi q).packets := by
  subst hseq
  rw [State.qi_finishPacket, State.nextId_finishPacket, Nat.add_sub_cancel]
  exact List.mem_map.mpr ⟨e, he, Packet.endIf_of_open hres _ _⟩

/-- A packet that is written. -/
theorem State.mem_setPacket {s : State} {q : Fin 64} {n : Nat} {p : Packet} (p' : Packet) (hp : (s.qi q).packet n = some p) (hseq : p'.seq = n) :
    p' ∈ ((s.setPacket q p').qi q).packets := by
  rw [State.qi_setPacket]
  exact List.mem_map.mpr ⟨p, Qi.packet_mem hp, if_pos ((Qi.packet_seq hp).trans hseq.symm)⟩

/-- TAGs of packets. -/
theorem Packet.tag_eq_iff {p e : Packet} : e.tag = p.tag ↔ bits (e.words.getD 0 0) 48 16 = bits (p.words.getD 0 0) 48 16 := by
  unfold Packet.tag
  constructor
  · intro h
    have := congrArg BitVec.toNat h
    rwa [BitVec.toNat_ofNat, BitVec.toNat_ofNat, Nat.mod_eq_of_lt (bits_lt _ _ _), Nat.mod_eq_of_lt (bits_lt _ _ _)] at this
  · intro h
    rw [h]

/-- A launch as its packet describes it. -/
def State.newLaunch (s : State) (q : Fin 64) (n : Nat) (p : Packet) : Launch :=
  { lid := s.sched.lidNext, queue := q, pseq := n, tag := p.tag, prio := BitVec.ofNat 3 (bits (p.words.getD 0 0) 41 3),
    ctx := (s.qi q).ctx, hdrVa := p.words.getD 1 0, param := p.words.getD 2 0, deps := p.deps, hdr := [], groups := [],
    data := [], st := .pending, x0 := 0, y0 := 0, reason := 0, cause := 0, core := 0, arrival := s.sched.arrivals,
    started := 0, saved := false, exitVal := none, cancelAt := none }

section
variable {s : State} {q : Fin 64} {n : Nat} {p : Packet}

theorem exec_launchPacket_waits (h : s.startable q n 3 = none ∨ (s.startable q n 3 = some p ∧ ∃ e ∈ (s.qi q).packets, e.seq < n ∧ e.op = 3 ∧
    e.tag = p.tag ∧ e.started = false ∧ e.result = none)) : exec (.launchPacket q n) s = .next s := by
  show execLaunchPacket q n s = _
  rcases h with h | ⟨h, e, he⟩
  · simp [execLaunchPacket, h, ok]
  · have hany : ((s.qi q).packets.any fun e => e.seq < n && e.op = 3 && e.tag == p.tag && !e.started && e.result.isNone) = true :=
      List.any_eq_true.mpr ⟨e, he.1, by simp [he.2]⟩
    simp only [execLaunchPacket, h, hany, if_true, ok]

variable (hstart : s.startable q n 3 = some p)
  (hfront : ¬ ∃ e ∈ (s.qi q).packets, e.seq < n ∧ e.op = 3 ∧ e.tag = p.tag ∧ e.started = false ∧ e.result = none)
include hstart hfront

theorem exec_launchPacket_front : exec (.launchPacket q n) s =
    if s.sched.launches.any fun l => l.queue = q && l.tag == p.tag && l.st ≠ .ended then .next (s.finishPacket q n 7 0)
    else .next (({ s with sched := { s.sched with
      launches := s.sched.launches ++ [s.newLaunch q n p]
      lidNext := nextFree (s.sched.lidNext :: (s.sched.launches.filter (·.st ≠ .ended)).map (·.lid))
        ((s.sched.lidNext :: (s.sched.launches.filter (·.st ≠ .ended)).map (·.lid)).length + 1) s.sched.lidNext
      arrivals := s.sched.arrivals + 1 } } : State).setPacket q { p with started := true }) := by
  have hany : ((s.qi q).packets.any fun e => e.seq < n && e.op = 3 && e.tag == p.tag && !e.started && e.result.isNone) = false := by
    rw [← Bool.not_eq_true, List.any_eq_true]
    rintro ⟨e, he, h⟩
    simp only [Bool.and_eq_true, decide_eq_true_eq, beq_iff_eq, Bool.not_eq_true', Option.isNone_iff_eq_none, and_assoc] at h
    exact hfront ⟨e, he, h⟩
  show execLaunchPacket q n s = _
  simp only [execLaunchPacket, hstart, hany, Bool.false_eq_true, if_false]
  rfl

end

/-! ## Launches by their identifier -/

theorem State.launch_eq_some {s : State} {lid : BitVec 16} {l : Launch} (h : s.launch lid = some l) :
    l ∈ s.sched.launches ∧ l.lid = lid ∧ l.st ≠ .ended := by
  have hl := List.find?_some h
  simp only [Bool.and_eq_true, beq_iff_eq, decide_eq_true_eq] at hl
  exact ⟨List.mem_of_find?_eq_some h, hl.1, hl.2⟩

/-- A launch that is written is found under its identifier, unless it has ended. -/
theorem State.launch_setLaunch {s : State} {l m : Launch} (h : s.launch l.lid = some l) (hlid : m.lid = l.lid) (hst : m.st ≠ .ended) :
    (s.setLaunch m).launch l.lid = some m := by
  unfold State.launch State.setLaunch at *
  dsimp only
  rw [List.find?_map]
  have hcongr : (fun n : Launch => n.lid == l.lid && decide (n.st ≠ .ended)) ∘
      (fun n : Launch => if n.lid == m.lid && decide (n.st ≠ .ended) then m else n) =
      fun n : Launch => n.lid == l.lid && decide (n.st ≠ .ended) := by
    funext n
    simp only [Function.comp, hlid]
    split
    · rename_i hn
      rw [hn]
      simp [hlid, hst]
    · rfl
  rw [hcongr, h, Option.map_some]
  have hl := List.find?_some h
  rw [hlid, if_pos hl]

theorem State.launch_setLaunch_ended (s : State) {m : Launch} (hst : m.st = .ended) : (s.setLaunch m).launch m.lid = none := by
  refine List.find?_eq_none.mpr fun n hn => ?_
  obtain ⟨n', -, rfl⟩ := List.mem_map.mp hn
  split
  · simp [hst]
  · assumption

theorem State.launch_of_sched {s t : State} (h : t.sched.launches = s.sched.launches) (lid : BitVec 16) : t.launch lid = s.launch lid := by
  rw [State.launch, h, State.launch]

/-! ## The end -/

/-- What is forgotten with a launch: cores, schedule, packets and numbers stay; memory too as long as nothing is spilled. -/
theorem State.forgetLaunch_keeps (s : State) (l : Launch) : (s.forgetLaunch l).cores = s.cores ∧ (s.forgetLaunch l).sched = s.sched ∧
    (s.forgetLaunch l).host = s.host ∧ (s.forgetLaunch l).nextId = s.nextId := by
  have hsaved := s.releaseSaved_frame l
  unfold State.forgetLaunch
  extract_lets s1 gone pre convoy s2
  have hitems := (State.dropItems_items (s2.releaseParts l.lid) (·.lid == l.lid)).rest
  generalize (s2.releaseParts l.lid).dropItems (·.lid == l.lid) = t at hitems
  rw [hitems]
  exact ⟨hsaved.cores, hsaved.sched, hsaved.host, hsaved.nextId⟩

/-- What a launch that ends leaves of its packet and of its TAG. -/
structure State.Ends (l : Launch) (st : BitVec 8) (res : Word) (s t : State) : Prop where
  launch : t.launch l.lid = none
  cores : t.cores = s.cores
  calm : s.spilled = [] → t.mem = s.mem
  packet : ∀ e ∈ (s.qi l.queue).packets, e.seq = l.pseq → e.result = none →
    { e with result := some (st, res), waitPage := none, fin := t.nextId - 1 } ∈ (t.qi l.queue).packets
  failed : l.tag ∈ (t.qi l.queue).failed ↔ st ≠ 0

theorem State.closeLaunch_ends (s : State) (l : Launch) (st : BitVec 8) (res : Word) : Ends l st res s (s.closeLaunch l st res) := by
  let u := (s.setLaunch { l with st := .ended }).markTag l.queue l.tag st
  have hmark : QiFrame l.queue (s.setLaunch { l with st := .ended }) u := State.markTag_frame l.queue _ l.tag st
  have hqi : u.qi l.queue = { s.qi l.queue with failed :=
      if st = 0 then (s.qi l.queue).failed.filter (· != l.tag) else l.tag :: (s.qi l.queue).failed.filter (· != l.tag) } :=
    State.qi_setQi_self _ _ _
  obtain ⟨hcores, hsched, hhost, -⟩ := u.forgetLaunch_keeps l
  have hend := State.finishPacket_frame l.queue (u.forgetLaunch l) l.pseq st res
  have hfqi : (u.forgetLaunch l).qi l.queue = u.qi l.queue := by rw [State.qi, hhost, State.qi]
  have hclose : s.closeLaunch l st res = (u.forgetLaunch l).finishPacket l.queue l.pseq st res := rfl
  rw [hclose]
  refine ⟨?_, ?_, fun hs => ?_, fun e he hseq hres => ?_, ?_⟩
  · rw [State.launch_of_sched (s := s.setLaunch { l with st := .ended })]
    · exact s.launch_setLaunch_ended (m := { l with st := .ended }) rfl
    · rw [hend.sched, hsched, hmark.sched]
  · rw [hend.cores, hcores, hmark.cores]
    rfl
  · rw [hend.mem, (State.forgetLaunch_frame (s := u) hs l).mem, hmark.mem]
    rfl
  · refine State.finishPacket_ended _ _ _ _ _ ?_ hseq hres
    rw [hfqi, hqi]
    exact he
  · rw [State.qi_finishPacket, hfqi, hqi]
    show l.tag ∈ (if st = 0 then _ else _) ↔ st ≠ 0
    split
    · rename_i h
      simp [h]
    · rename_i h
      exact ⟨fun _ => h, fun _ => List.mem_cons_self⟩

/-- A launch that ends with a REASON, before or after it has run; a CAUSE and a CORE go with REASON 5 alone. -/
theorem State.endLaunch_ends (s : State) (l : Launch) (h6 : l.reason ≠ 6) : Ends l (reasonStatus l.reason)
    (endWord (l.exitVal.getD 0) l.reason (if l.reason = 5 then l.cause else 0) (if l.reason = 5 then l.core else 0)) s (s.endLaunch l) := by
  have hst : reasonStatus l.reason ≠ 6 := by
    unfold reasonStatus
    rw [if_neg h6]
    split <;> decide
  have hclose := s.closeLaunch_ends l (reasonStatus l.reason)
    (endWord (l.exitVal.getD 0) l.reason (if l.reason = 5 then l.cause else 0) (if l.reason = 5 then l.core else 0))
  unfold State.endLaunch
  dsimp only
  rwa [if_neg hst]

/-- A launch that fails before it runs. -/
theorem State.failLaunch_ends {s : State} {l : Launch} (hexit : l.exitVal = none) {n : Nat} (hn : n ∈ [1, 2, 4, 7, 8]) :
    Ends l 8 (natW (n * 2 ^ 24)) s (s.failLaunch l (BitVec.ofNat 8 n)) := by
  have hreason : BitVec.ofNat 8 n ≠ 0 ∧ BitVec.ofNat 8 n ≠ 5 ∧ BitVec.ofNat 8 n ≠ 6 ∧ (BitVec.ofNat 8 n).toNat = n := by
    revert n
    decide
  obtain ⟨h0, h5, h6, hval⟩ := hreason
  have hends := s.endLaunch_ends { l with reason := BitVec.ofNat 8 n } h6
  generalize BitVec.ofNat 8 n = reason at *
  subst hval
  have hword : endWord ((l.exitVal).getD 0) reason (if reason = 5 then l.cause else 0) (if reason = 5 then l.core else 0) =
      natW (reason.toNat * 2 ^ 24) := by
    rw [hexit, if_neg h5, if_neg h5]
    simp [endWord, natW]
  have hstatus : reasonStatus reason = 8 := by rw [reasonStatus, if_neg h0, if_neg h6]
  simp only [hword, hstatus] at hends
  exact ⟨hends.launch, hends.cores, hends.calm, hends.packet, hends.failed⟩

/-- A launch of no cores, which ends at once. -/
theorem State.endLaunch_ends_empty {s : State} {l : Launch} (hexit : l.exitVal = none) (h0 : l.reason = 0) :
    Ends l 0 (natW (0 * 2 ^ 24)) s (s.endLaunch l) := by
  have hends := s.endLaunch_ends l (by rw [h0]; decide)
  have hword : endWord (l.exitVal.getD 0) l.reason (if l.reason = 5 then l.cause else 0) (if l.reason = 5 then l.core else 0) =
      natW (0 * 2 ^ 24) := by
    rw [hexit, h0, if_neg (by decide), if_neg (by decide)]
    rfl
  rwa [hword, h0, reasonStatus, if_pos rfl] at hends

end Sys2Proof.Machine
end

section
/-!
SUPPORT. The checks of a launch (spec/05 R64, spec/04 R61): its dependencies, its header and its image, each by its outcome.
-/

namespace Sys2Proof.Machine

/-! ## Dependencies -/

section
variable {s : State} {l : Launch} {d : BitVec 16}

/-- A dependency that is waited for: a launch of its TAG that has not ended, or a LAUNCH packet of it before the launch's that has not been
taken. -/
def State.awaited (s : State) (l : Launch) (d : BitVec 16) : Prop :=
  (∃ m ∈ s.sched.launches, m.queue = l.queue ∧ m.tag = d ∧ m.st ≠ .ended) ∨
    ∃ p ∈ (s.qi l.queue).packets, p.seq < l.pseq ∧ p.op = 3 ∧ p.tag = d ∧ p.started = false ∧ p.result = none

theorem State.depState_pending_iff : s.depState l d = .pending ↔ s.awaited l d := by
  have hcond : (s.sched.launches.any (fun m => m.queue = l.queue && m.tag == d && m.st ≠ .ended) ||
      (s.qi l.queue).packets.any fun p => p.seq < l.pseq && p.op = 3 && p.tag == d && !p.started && p.result.isNone) = true ↔
      s.awaited l d := by
    simp only [Bool.or_eq_true, List.any_eq_true, Bool.and_eq_true, decide_eq_true_eq, beq_iff_eq, Bool.not_eq_true',
      Option.isNone_iff_eq_none, and_assoc, State.awaited]
  rw [← hcond, State.depState]
  split
  · rename_i h
    exact iff_of_true rfl h
  · rename_i h
    rw [Bool.not_eq_true] at h
    rw [h]
    split <;> simp

theorem State.depState_failed_iff : s.depState l d = .failed ↔ ¬ s.awaited l d ∧ d ∈ (s.qi l.queue).failed := by
  by_cases h : s.awaited l d
  · simp [State.depState_pending_iff.mpr h, h]
  · have hn := State.depState_pending_iff.not.mpr h
    unfold State.depState at hn ⊢
    split
    · rename_i hp
      rw [if_pos hp] at hn
      exact absurd rfl hn
    · simp [h]

end

section
variable {s t : State} {lid : BitVec 16} {l : Launch} (hl : s.launch lid = some l)
include hl

theorem exec_launchReady_not_pending (h : l.st ≠ .pending) : exec (.launchReady lid) s = .next s := by
  show execLaunchReady lid s = _
  simp [execLaunchReady, hl, h, ok]

variable (hst : l.st = .pending)
include hst

theorem exec_launchReady_waits (h : ∃ d ∈ l.deps, s.awaited l d) : exec (.launchReady lid) s = .next s := by
  have hany : (l.deps.any fun t => s.depState l t = .pending) = true := by
    simpa [State.depState_pending_iff] using h
  show execLaunchReady lid s = _
  simp only [execLaunchReady, hl, hst, hany, if_true]
  rfl

variable (hdeps : ∀ d ∈ l.deps, ¬ s.awaited l d)
include hdeps

theorem exec_launchReady_failed (h : ∃ d ∈ l.deps, d ∈ (s.qi l.queue).failed) : exec (.launchReady lid) s = .next (s.failLaunch l 7) := by
  have hpend : (l.deps.any fun t => s.depState l t = .pending) = false := by
    simpa [State.depState_pending_iff] using hdeps
  have hany : (l.deps.any fun t => s.depState l t = .failed) = true := by
    obtain ⟨d, hd, hfailed⟩ := h
    exact List.any_eq_true.mpr ⟨d, hd, decide_eq_true (State.depState_failed_iff.mpr ⟨hdeps d hd, hfailed⟩)⟩
  show execLaunchReady lid s = _
  simp only [execLaunchReady, hl, hst, hpend, hany, if_true]
  rfl

variable (hmet : ∀ d ∈ l.deps, d ∉ (s.qi l.queue).failed)
include hmet

/-- A launch whose dependencies are met, by the outcome of its checks. -/
theorem exec_launchReady_checked : exec (.launchReady lid) s =
    match s.checkLaunch l with
    | (s', .error none) => .next (s.stall s')
    | (s, .error (some e)) => .next (s.failLaunch l e)
    | (s, .ok none) => .next (s.endLaunch l)
    | (s, .ok (some m)) => .next (s.setLaunch m) := by
  have hpend : (l.deps.any fun t => s.depState l t = .pending) = false := by
    simpa [State.depState_pending_iff] using hdeps
  have hfail : (l.deps.any fun t => s.depState l t = .failed) = false := by
    rw [← Bool.not_eq_true, List.any_eq_true]
    rintro ⟨d, hd, hf⟩
    exact hmet d hd (State.depState_failed_iff.mp (of_decide_eq_true hf)).2
  show execLaunchReady lid s = _
  simp only [execLaunchReady, hl, hst, hpend, hfail]
  rfl

theorem exec_launchReady_error {e : BitVec 8} (h : s.checkLaunch l = (t, .error (some e))) :
    exec (.launchReady lid) s = .next (t.failLaunch l e) := by rw [exec_launchReady_checked hl hst hdeps hmet, h]

theorem exec_launchReady_empty (h : s.checkLaunch l = (t, .ok none)) : exec (.launchReady lid) s = .next (t.endLaunch l) := by
  rw [exec_launchReady_checked hl hst hdeps hmet, h]

theorem exec_launchReady_ready {m : Launch} (h : s.checkLaunch l = (t, .ok (some m))) : exec (.launchReady lid) s = .next (t.setLaunch m) := by
  rw [exec_launchReady_checked hl hst hdeps hmet, h]

end

/-! ## The header -/

section
variable {s t u : State} {l : Launch}

theorem readFail_of_ne {x : AccErr} (h : x ≠ .wait) : readFail x = some 2 := if_neg h

theorem State.movable_eq_false {ctx : BitVec 12} {ga : Word}
    (h : ∃ x, (s.xlate none ctx true .read ga).2 = .ok x ∧ devOf x.sys = s.own ∧ inStacks (physOf x.sys) = false) :
    s.movable (hartAcc ctx 0) false ga = false := by
  obtain ⟨x, hx, hown, hstacks⟩ := h
  show (match (s.xlate none ctx true .read ga).2 with | .ok x => _ | .error _ => _) = false
  rw [hx]
  simp [hown, hstacks]

theorem State.movable_eq_true {ctx : BitVec 12} {ga : Word}
    (h : ∀ x, (s.xlate none ctx true .read ga).2 = .ok x → devOf x.sys ≠ s.own ∨ inStacks (physOf x.sys) = true) :
    s.movable (hartAcc ctx 0) false ga = true := by
  unfold State.movable
  split
  · rename_i x hx
    simpa using h x hx
  · rfl

theorem State.readHeader_misaligned (h : l.hdrVa.toNat % 64 ≠ 0) : s.readHeader l = (s, .error (some 1)) := if_pos h

section
variable (halign : l.hdrVa.toNat % 64 = 0) (hva : bits l.hdrVa 48 16 = 0)
include halign hva

theorem State.readHeader_foreign (h : s.movable (hartAcc l.ctx 0) false l.hdrVa = false) :
    s.readHeader l = (s.logPacket l.hdrVa, .error (some 2)) := by
  simp [State.readHeader, halign, vaOk, hva, h]

variable (hmove : s.movable (hartAcc l.ctx 0) false l.hdrVa = true)
include hmove

theorem State.readHeader_unread {x : AccErr} (h : State.engReadWords (hartAcc l.ctx 0) 2 s l.hdrVa = (t, .error x)) (hx : x ≠ .wait) :
    s.readHeader l = (t, .error (some 2)) := by
  simp [State.readHeader, halign, vaOk, hva, hmove, h, readFail_of_ne hx]

theorem State.readHeader_empty {ws : List Word} (h : State.engReadWords (hartAcc l.ctx 0) 2 s l.hdrVa = (t, .ok ws))
    (hcores : ({ l with hdr := ws } : Launch).cores = 0) : s.readHeader l = (t, .ok { l with hdr := ws }) := by
  simp [State.readHeader, halign, vaOk, hva, hmove, h, hcores]

theorem State.readHeader_whole {ws r : List Word} (h : State.engReadWords (hartAcc l.ctx 0) 2 s l.hdrVa = (t, .ok ws))
    (hcores : ({ l with hdr := ws } : Launch).cores ≠ 0)
    (h' : State.engReadWords (hartAcc l.ctx 0) 6 t (l.hdrVa + 16) = (u, .ok r)) : s.readHeader l = (u, .ok { l with hdr := ws ++ r }) := by
  have h'' : State.engReadWords (hartAcc l.ctx 0) 6 t (l.hdrVa + 16#64) = (u, .ok r) := h'
  simp [State.readHeader, halign, vaOk, hva, hmove, h, hcores, h'']

end

/-! ## The checks in order -/

theorem State.checkLaunch_unread {e : Option (BitVec 8)} (h : s.readHeader l = (t, .error e)) : s.checkLaunch l = (t, .error e) := by
  simp [State.checkLaunch, h]

section
variable {m : Launch} (h : s.readHeader l = (t, .ok m))
include h

theorem State.checkLaunch_head (hhead : headOk (m.hdr.getD 0 0) (m.hdr.getD 1 0) = false) : s.checkLaunch l = (t, .error (some 1)) := by
  simp only [State.checkLaunch, h, hhead]
  rfl

variable (hhead : headOk (m.hdr.getD 0 0) (m.hdr.getD 1 0) = true)
include hhead

theorem State.checkLaunch_features (hfeat : t.featuresFor m = false) : s.checkLaunch l = (t, .error (some 4)) := by
  simp only [State.checkLaunch, h, hhead, hfeat]
  rfl

variable (hfeat : t.featuresFor m = true)
include hfeat

theorem State.checkLaunch_empty (hcores : m.cores = 0) : s.checkLaunch l = (t, .ok none) := by
  simp only [State.checkLaunch, h, hhead, hfeat, hcores]
  rfl

variable (hcores : m.cores ≠ 0)
include hcores

theorem State.checkLaunch_outside (hmesh : (m.usesFixed && (64 < m.hdrX0 + m.w || 64 < m.hdrY0 + m.h)) = true) :
    s.checkLaunch l = (t, .error (some 8)) := by
  simp only [State.checkLaunch, h, hhead, hfeat, hcores, hmesh]
  rfl

variable (hmesh : (m.usesFixed && (64 < m.hdrX0 + m.w || 64 < m.hdrY0 + m.h)) = false)
include hmesh

theorem State.checkLaunch_image_error {e : Option (BitVec 8)} (himage : t.checkImage m = (u, .error e)) : s.checkLaunch l = (u, .error e) := by
  simp only [State.checkLaunch, h, hhead, hfeat, hcores, hmesh, himage]
  rfl

theorem State.checkLaunch_image_ok {n : Launch} (himage : t.checkImage m = (u, .ok n)) :
    s.checkLaunch l = (u, .ok (some { n with st := .ready })) := by
  simp only [State.checkLaunch, h, hhead, hfeat, hcores, hmesh, himage]
  rfl

end

theorem State.checkImage_rest (h : restOk l.hdr = false) : s.checkImage l = (s, .error (some 1)) := by
  simp only [State.checkImage, h]
  rfl

theorem State.checkImage_unread {x : AccErr} (h : restOk l.hdr = true)
    (hread : State.engReadWords (hartAcc l.ctx 0) (l.codeLen / 8) s l.codeVa = (t, .error x)) (hx : x ≠ .wait) :
    s.checkImage l = (t, .error (some 2)) := by
  simp [State.checkImage, h, hread, readFail_of_ne hx]

/-- A launch without explicit groups and data entries. -/
theorem State.checkImage_plain {ws : List Word} (h : restOk l.hdr = true)
    (hread : State.engReadWords (hartAcc l.ctx 0) (l.codeLen / 8) s l.codeVa = (t, .ok ws)) (hgroups : l.ngrp = 0) (hdata : l.ndata = 0) :
    s.checkImage l = (t, .ok { l with groups := [List.range l.cores], data := [] }) := by
  have hok : groupsOk l.cores [List.range l.cores] = true :=
    List.all_eq_true.mpr fun i _ => decide_eq_true (Nat.le_trans (List.length_filter_le _ _) (by simp))
  simp [State.checkImage, h, hread, hgroups, hdata, State.readGroups, State.readData, hok]

end

/-! ## What the checks say of the words -/

theorem headOk_iff {w0 w1 : Word} : headOk w0 w1 = true ↔ bits w0 32 32 = 0x42584C31 ∧ bits w0 24 8 = 1 ∧ bits w0 19 5 = 0 ∧
    (bit w0 17 = false → bits w0 0 16 = 0) ∧ bits w1 57 7 = 0 ∧ bits w1 50 7 ≤ 64 ∧ bits w1 43 7 ≤ 64 ∧ bits w1 0 31 = 0 := by
  simp only [headOk, Bool.and_eq_true, Bool.or_eq_true, beq_iff_eq, decide_eq_true_eq, and_assoc, ← Bool.not_eq_true, imp_iff_not_or, not_not]

theorem restOk_iff {h : List Word} : restOk h = true ↔
    bits (h.getD 2 0) 48 16 = 0 ∧ bits (h.getD 2 0) 0 6 = 0 ∧ bits (h.getD 3 0) 50 14 = 0 ∧ bits (h.getD 3 0) 32 18 % 8 = 0 ∧
      8 ≤ bits (h.getD 3 0) 32 18 ∧ bits (h.getD 3 0) 32 18 ≤ 131072 ∧ bits (h.getD 3 0) 16 16 < bits (h.getD 3 0) 32 18 / 8 ∧
      bits (h.getD 3 0) 0 16 < bits (h.getD 3 0) 32 18 / 8 ∧ bits (h.getD 4 0) 48 8 = 0 ∧ bits (h.getD 4 0) 0 4 = 0 ∧
      bits (h.getD 5 0) 0 6 = 0 ∧ bits (h.getD 6 0) 48 8 = 0 ∧ bits (h.getD 6 0) 0 4 = 0 ∧ h.getD 7 0 = 0 := by
  simp only [restOk, Bool.and_eq_true, beq_iff_eq, decide_eq_true_eq, and_assoc]

theorem State.featuresFor_iff {s : State} {l : Launch} : s.featuresFor l = true ↔
    (bit (l.hdr.getD 0 0) 17 = true → bit (if s.host.featOk then s.host.featDrv[(0 : Fin 4)] else 0) 5 = true) ∧
      (bit (l.hdr.getD 0 0) 18 = true → bit (if s.host.featOk then s.host.featDrv[(0 : Fin 4)] else 0) 6 = true) := by
  simp only [State.featuresFor, Launch.usesMarket, Launch.usesFabric, Bool.and_eq_true, Bool.or_eq_true, Bool.not_eq_true', ← Bool.not_eq_true,
    imp_iff_not_or]

/-- A rectangle that a launch fixes and that leaves the mesh. -/
theorem Launch.outside_iff {l : Launch} : (l.usesFixed && (64 < l.hdrX0 + l.w || 64 < l.hdrY0 + l.h)) = true ↔
    ¬ (l.usesFixed = true → l.hdrX0 + l.w ≤ 64 ∧ l.hdrY0 + l.h ≤ 64) := by
  simp only [Bool.and_eq_true, Bool.or_eq_true, decide_eq_true_eq, Classical.not_imp, not_and_or, Nat.not_le]

theorem Launch.inside {l : Launch} (h : l.usesFixed = true → l.hdrX0 + l.w ≤ 64 ∧ l.hdrY0 + l.h ≤ 64) :
    (l.usesFixed && (64 < l.hdrX0 + l.w || 64 < l.hdrY0 + l.h)) = false := by
  rw [← Bool.not_eq_true, Launch.outside_iff, not_not]
  exact h

/-! ## The end of a launch that was only checked -/

theorem State.Ends.framed {l : Launch} {st : BitVec 8} {res : Word} {s u t : State} (h : Ends l st res u t) (hu : ReadFrame s u) :
    Ends l st res s t where
  launch := h.launch
  cores := h.cores.trans hu.cores
  calm hs := (h.calm (hu.spilled.trans hs)).trans hu.mem
  packet := by
    have hqi : u.qi l.queue = s.qi l.queue := by rw [State.qi, hu.host, State.qi]
    exact hqi ▸ h.packet
  failed := h.failed

end Sys2Proof.Machine
end

section
/-!
SUPPORT. The end of a launch that has run (spec/05 R71): what holds it back, and what it leaves.
-/

namespace Sys2Proof.Machine

section
variable {s : State} {l : Launch} {k : CoreIx}

theorem Req.ownedBy_iff {x : ReqSrc} : x.ownedBy k = true ↔ (∃ b f, x = .core k b f) ∨ ∃ f d, x = .row k f d := by
  cases x <;> simp [ReqSrc.ownedBy]

/-- Nothing that a core has started is still under way. -/
def State.quiet (s : State) (k : CoreIx) : Prop :=
  (∀ q ∈ s.net, (∀ b f, q.src ≠ .core k b f) ∧ ∀ f d, q.src ≠ .row k f d) ∧ (∀ x ∈ s.xfers, x.src ≠ k) ∧
    (∀ p ∈ s.posts, p.core ≠ k) ∧ (s.core k).portWrites = []

theorem State.writing_eq_false : s.writing k = false ↔ s.quiet k := by
  have hnet : (s.net.any fun r => r.src.ownedBy k) = false ↔ ∀ q ∈ s.net, (∀ b f, q.src ≠ .core k b f) ∧ ∀ f d, q.src ≠ .row k f d := by
    simp only [List.any_eq_false, Req.ownedBy_iff, not_or, not_exists, ne_eq]
  simp only [State.writing, State.accPending, Bool.or_eq_false_iff, hnet, State.quiet, List.any_eq_false, decide_eq_true_eq,
    Bool.not_eq_false', List.isEmpty_iff]
  constructor
  · rintro ⟨⟨⟨h1, h2⟩, h3⟩, h4⟩
    exact ⟨h2, h3, h4, h1⟩
  · rintro ⟨h2, h3, h4, h1⟩
    exact ⟨⟨⟨h1, h2⟩, h3⟩, h4⟩

/-! ## What holds an end back -/

theorem exec_launchEnd_of_not {lid : BitVec 16} (hl : s.launch lid = some l) (h : s.mayEnd l = false) :
    exec (.launchEnd lid) s = .next s := by
  show execLaunchEnd lid s = _
  simp [execLaunchEnd, hl, h, ok]

theorem exec_launchEnd_of_may {lid : BitVec 16} (hl : s.launch lid = some l) (h : s.mayEnd l = true) :
    exec (.launchEnd lid) s = .next ((s.releaseLaunch lid).endLaunch l) := by
  show execLaunchEnd lid s = _
  simp [execLaunchEnd, hl, h, ok]

theorem State.mayEnd_of_state (h : l.st ≠ .running) : s.mayEnd l = false := by
  unfold State.mayEnd
  simp only [h, decide_false, Bool.false_and]

/-- A core that is bound and has not stopped. -/
theorem State.mayEnd_of_unstopped (hlid : (s.core k).slot.lid = l.lid) (hst : (s.core k).slot.st ≠ .idle)
    (hhalted : (s.core k).slot.st ≠ .halted) (hfrozen : (s.core k).slot.st ≠ .frozen) : s.mayEnd l = false := by
  have hmem : k ∈ s.boundOf l.lid := State.mem_boundOf.mpr ⟨hlid, hst⟩
  have hempty : (s.boundOf l.lid).isEmpty = false := by
    rw [List.isEmpty_eq_false_iff_exists_mem]
    exact ⟨k, hmem⟩
  have hall : ((s.boundOf l.lid).all fun i => (s.core i).slot.st = .halted || (s.core i).slot.st = .frozen) = false :=
    List.all_eq_false.mpr ⟨k, hmem, by simp [hhalted, hfrozen]⟩
  unfold State.mayEnd
  simp only [hempty, hall, Bool.and_false, ite_self, Bool.false_and]

/-- A core with something under way. -/
theorem State.mayEnd_of_busy (hlid : (s.core k).slot.lid = l.lid) (hst : (s.core k).slot.st ≠ .idle)
    (h : (∃ x ∈ (s.core k).eng.copies, x.ended = false) ∨ ¬ s.quiet k) : s.mayEnd l = false := by
  have hall : ((s.boundOf l.lid).all fun i => (s.core i).enginesDone && !s.writing i) = false := by
    refine List.all_eq_false.mpr ⟨k, State.mem_boundOf.mpr ⟨hlid, hst⟩, ?_⟩
    rcases h with ⟨x, hx, hopen⟩ | h
    · have hdone : (s.core k).enginesDone = false := by
        simp only [Core.enginesDone, Bool.and_eq_false_iff, List.all_eq_false]
        exact .inl ⟨x, hx, by simp [hopen]⟩
      simp [hdone]
    · rw [← State.writing_eq_false, Bool.not_eq_false] at h
      simp [h]
  unfold State.mayEnd
  simp only [hall, Bool.and_false, Bool.false_and]

theorem State.mayEnd_of_left (h : ∃ q ∈ s.net, ∃ j, q.src = .left j l.lid) : s.mayEnd l = false := by
  have hleft : s.leftOf l.lid = true := by
    obtain ⟨q, hq, j, hsrc⟩ := h
    exact List.any_eq_true.mpr ⟨q, hq, by simp [hsrc]⟩
  unfold State.mayEnd
  simp only [hleft, Bool.not_true, Bool.and_false, Bool.false_and]

/-- A launch that is half saved. -/
theorem State.mayEnd_of_saved (h : ∃ p ∈ s.saves, p.1 / 4096 = l.lid.toNat) (h2 : l.reason ≠ 2) (h5 : l.reason ≠ 5) (h6 : l.reason ≠ 6) :
    s.mayEnd l = false := by
  have hsaves : (s.savesOf l.lid).isEmpty = false := by
    obtain ⟨p, hp, hlid⟩ := h
    rw [List.isEmpty_eq_false_iff_exists_mem]
    exact ⟨p.2, List.mem_map.mpr ⟨p, List.mem_filter.mpr ⟨hp, decide_eq_true hlid⟩, rfl⟩⟩
  unfold State.mayEnd
  simp only [hsaves, decide_eq_false h2, decide_eq_false h5, decide_eq_false h6, Bool.or_false, Bool.false_eq_true, if_false, Bool.and_false,
    Bool.false_and]

/-- Where every core has stopped and nothing is under way, a launch that has run ends. -/
theorem State.mayEnd_of_quiet (hst : l.st = .running) (hreason : l.reason = 0 ∨ l.reason = 5)
    (hsome : ∃ k, (s.core k).slot.lid = l.lid ∧ (s.core k).slot.st ≠ .idle)
    (hall : ∀ k, (s.core k).slot.lid = l.lid → (s.core k).slot.st ≠ .idle → ((s.core k).slot.st = .halted ∨ (s.core k).slot.st = .frozen) ∧
      s.quiet k ∧ (∀ x ∈ (s.core k).eng.copies, x.ended = true) ∧ (s.core k).eng.sends = [])
    (hparts : s.marketBusy l.lid = false) (hplays : s.playing l.ctx = false) (hleft : ∀ q ∈ s.net, ∀ j, q.src ≠ .left j l.lid)
    (hsaves : ∀ p ∈ s.saves, p.1 / 4096 ≠ l.lid.toNat) : s.mayEnd l = true := by
  obtain ⟨k, hk⟩ := hsome
  have hempty : (s.boundOf l.lid).isEmpty = false := by
    rw [List.isEmpty_eq_false_iff_exists_mem]
    exact ⟨k, State.mem_boundOf.mpr hk⟩
  have hbound (i : CoreIx) (hi : i ∈ s.boundOf l.lid) := (State.mem_boundOf.mp hi).elim (hall i)
  have hstopped : ((s.boundOf l.lid).all fun i => (s.core i).slot.st = .halted || (s.core i).slot.st = .frozen) = true :=
    List.all_eq_true.mpr fun i hi => by simpa using (hbound i hi).1
  have hdone : ((s.boundOf l.lid).all fun i => (s.core i).enginesDone && !s.writing i) = true := by
    refine List.all_eq_true.mpr fun i hi => ?_
    obtain ⟨-, hquiet, hcopies, hsends⟩ := hbound i hi
    have hengines : (s.core i).enginesDone = true := by
      simpa [Core.enginesDone, hsends] using hcopies
    simp [hengines, State.writing_eq_false.mpr hquiet]
  have hsaved : s.savesOf l.lid = [] := by
    rw [State.savesOf, List.map_eq_nil_iff, List.filter_eq_nil_iff]
    simpa using hsaves
  have hleft' : s.leftOf l.lid = false := by
    refine List.any_eq_false.mpr fun q hq h => ?_
    split at h
    · rename_i j lid hsrc
      exact hleft q hq j (hsrc.trans (by rw [beq_iff_eq.mp h]))
    · cases h
  have h26 : (l.reason = 6 || l.reason = 2) = false := by rcases hreason with h | h <;> rw [h] <;> decide
  unfold State.mayEnd
  simp only [h26, Bool.false_eq_true, if_false]
  simp [hst, hempty, hstopped, hdone, hsaved, State.savedDone, hleft', hparts, hplays]

theorem State.marketBusy_eq_false {lid : BitVec 16} (h : ∀ p ∈ s.parts, ∀ c, p.2.owner = some (lid, c) →
    p.2.run = none ∧ p.2.sort = [] ∧ ∀ w ∈ s.mktWaits, w.part.val ≠ p.1) : s.marketBusy lid = false := by
  refine List.any_eq_false.mpr fun p hp hb => ?_
  simp only [Bool.and_eq_true] at hb
  obtain ⟨howner, hbusy⟩ := hb
  split at howner
  · rename_i o c ho
    obtain ⟨hrun, hsort, hwaits⟩ := h p hp c (by rw [ho, beq_iff_eq.mp howner])
    have hany : (s.mktWaits.any fun w => decide (w.part.val = p.1)) = false := by simpa using hwaits
    simp [hrun, hsort, hany] at hbusy
  · cases howner

theorem State.playing_eq_false {ctx : BitVec 12} (hgraphs : ∀ g ∈ s.convoy.graphs, g.2.ctx = ctx → g.2.run = none ∧ g.2.queued = none)
    (hplays : ∀ p ∈ s.convoy.plays, p.2.ctx ≠ ctx) : s.playing ctx = false := by
  rw [State.playing, Bool.or_eq_false_iff]
  refine ⟨List.any_eq_false.mpr fun g hg hb => ?_, by simpa using hplays⟩
  simp only [Bool.and_eq_true, beq_iff_eq] at hb
  obtain ⟨hrun, hqueued⟩ := hgraphs g hg hb.1
  simp [hrun, hqueued] at hb

end

/-! ## What it leaves -/

/-- The slots of a launch are released, then it ends. -/
theorem State.releaseLaunch_ends {s : State} {l : Launch} (h6 : l.reason ≠ 6) :
    Ends l (reasonStatus l.reason)
        (endWord (l.exitVal.getD 0) l.reason (if l.reason = 5 then l.cause else 0) (if l.reason = 5 then l.core else 0))
        (s.releaseLaunch l.lid) ((s.releaseLaunch l.lid).endLaunch l) ∧
      Releases l.lid s (s.releaseLaunch l.lid) ∧ ∀ j, (s.core j).slot.lid = l.lid → ((s.releaseLaunch l.lid).core j).slot.st = .idle :=
  ⟨State.endLaunch_ends _ l h6, s.releaseLaunch_releases l.lid⟩

theorem faultFields_eq (p : Prop) [Decidable p] (a : Nat) (cause : BitVec 8) (core : BitVec 12) :
    a + (if p then cause else 0).toNat * 2 ^ 16 + (if p then core else 0).toNat = a + if p then cause.toNat * 2 ^ 16 + core.toNat else 0 := by
  split
  · exact Nat.add_assoc ..
  · simp

/-- The end word: a CAUSE and a CORE with REASON 5 alone. -/
theorem endWord_eq (exit : BitVec 32) (reason cause : BitVec 8) (core : BitVec 12) :
    endWord exit reason (if reason = 5 then cause else 0) (if reason = 5 then core else 0) =
      natW (exit.toNat * 2 ^ 32 + reason.toNat * 2 ^ 24 + if reason = 5 then cause.toNat * 2 ^ 16 + core.toNat else 0) :=
  congrArg natW (faultFields_eq (reason = 5) _ cause core)

end Sys2Proof.Machine
end

section
/-! SUPPORT. A core that faults: who is frozen with it and who is told (spec/05 R76). -/

namespace Sys2Proof.Machine

/-! ## Groups -/

theorem sharedGroup_ne_zero {groups : List (List Nat)} {i j : Nat} : sharedGroup groups i j ≠ 0 ↔
    ∃ g, g ≠ 0 ∧ g < groups.length ∧ i ∈ groups.getD g [] ∧ j ∈ groups.getD g [] := by
  unfold sharedGroup
  cases hfind : (List.range groups.length).find? fun g => g ≠ 0 && (groups.getD g []).contains i && (groups.getD g []).contains j with
  | none =>
    refine iff_of_false (fun h => h rfl) ?_
    rintro ⟨g, h0, hlt, hi, hj⟩
    have := List.find?_eq_none.mp hfind g (List.mem_range.mpr hlt)
    simp only [Bool.and_eq_true, decide_eq_true_eq, List.contains_iff_mem] at this
    exact this ⟨⟨h0, hi⟩, hj⟩
  | some g =>
    have hmem := List.mem_range.mp (List.mem_of_find?_eq_some hfind)
    have hg := List.find?_some hfind
    simp only [Bool.and_eq_true, decide_eq_true_eq, List.contains_iff_mem] at hg
    obtain ⟨⟨h0, hi⟩, hj⟩ := hg
    exact iff_of_true h0 ⟨g, h0, hmem, hi, hj⟩

theorem mem_frozenSet {groups : List (List Nat)} {k i : Nat} : i ∈ frozenSet groups k ↔ i ∈ groups.getD 0 [] ∧
    (i = k ∨ ∃ g, g ≠ 0 ∧ g < groups.length ∧ k ∈ groups.getD g [] ∧ i ∈ groups.getD g []) := by
  simp only [frozenSet, List.mem_filter, Bool.or_eq_true, decide_eq_true_eq, sharedGroup_ne_zero]

/-- A core of no group of the faulted one is told group 0. -/
theorem faultPayload_zero (cause : BitVec 8) (val : Word) : faultPayload cause 0 val = natW (cause.toNat * 2 ^ 56 + val.toNat % 2 ^ 48) :=
  congrArg (fun n => natW (n + val.toNat % 2 ^ 48)) (by rw [Nat.zero_mod, Nat.zero_mul, Nat.add_zero])

/-! ## Freezing the members -/

theorem count_put {α : Type} (l : Assoc α) (a : α) {i j : CoreIx} (h : j ≠ i) :
    ((put l i.val a).map fun p => toCore p.1).count j = (l.map fun p => toCore p.1).count j := by
  have hi : (toCore i.val == j) = false := by rw [toCore_val]; exact beq_eq_false_iff_ne.mpr h.symm
  induction l with
  | nil => simp [put, List.count_cons, hi]
  | cons p r ih =>
    simp only [put]
    split
    · rename_i hp
      simp [List.count_cons, hp]
    · split
      · simp [List.count_cons, hi]
      · simp [List.count_cons, ih]

theorem State.count_listed_setCore (s : State) (c : Core) {i j : CoreIx} (h : j ≠ i) : (s.setCore i c).listed.count j = s.listed.count j :=
  count_put s.cores c h

theorem Core.placeAct_copies_nil {c : Core} (h : c.eng.copies = []) (a : PlaceAct) : (c.placeAct a).eng.copies = [] := by
  cases a <;> simp [Core.placeAct, h]

theorem Core.dropHeld_spec {c : Core} (h : c.eng.copies = []) : c.dropHeld.eng.copies = [] ∧ c.dropHeld.slot = c.slot ∧
    c.dropHeld.evt.inbox = c.evt.inbox := by
  have hfold (l : List Completion) (d : Core) (hd : d.eng.copies = []) : (l.foldl (fun c x => c.placeAct x.act) d).eng.copies = [] ∧
      (l.foldl (fun c x => c.placeAct x.act) d).slot = d.slot ∧ (l.foldl (fun c x => c.placeAct x.act) d).evt.inbox = d.evt.inbox := by
    induction l generalizing d with
    | nil => exact ⟨hd, rfl, rfl⟩
    | cons x r ih =>
      obtain ⟨h1, h2, h3⟩ := ih (d.placeAct x.act) (d.placeAct_copies_nil hd x.act)
      exact ⟨h1, h2.trans (d.placeAct_slot _), h3.trans (by rw [d.placeAct_evt])⟩
  exact hfold _ c h

/-- Whether a slot is frozen or can be. -/
def SlotSt.Freezable (st : SlotSt) : Prop := accepts 5 st = true ∨ st = .frozen

/-- A frozen core keeps its inbox. -/
theorem Core.frozenBy_spec {c : Core} (h : c.eng.copies = []) (r : BindRec) : (c.frozenBy r).eng.copies = [] ∧ (c.frozenBy r).slot.st = .frozen ∧
    (c.frozenBy r).evt.inbox = c.evt.inbox := by
  unfold Core.frozenBy
  generalize c.slot.answer 5 r false = t
  obtain ⟨hcopies, hslot, hinbox⟩ := Core.dropHeld_spec (c := { c with slot := { t with st := .frozen, preq := none } }) h
  exact ⟨hcopies, congrArg Slot.st hslot, hinbox⟩

theorem Core.refused_spec (c : Core) (r : BindRec) : (c.withSlot fun t => t.answer 5 r true).eng.copies = c.eng.copies ∧
    (c.withSlot fun t => t.answer 5 r true).slot.st = c.slot.st ∧ (c.withSlot fun t => t.answer 5 r true).evt.inbox = c.evt.inbox := by
  have hkeep (f : Slot → Slot) : (c.withSlot f).eng = c.eng ∧ (c.withSlot f).slot = f c.slot ∧ (c.withSlot f).evt = c.evt := ⟨rfl, rfl, rfl⟩
  obtain ⟨heng, hslot, hevt⟩ := hkeep fun t => t.answer 5 r true
  rw [heng, hslot, hevt]
  exact ⟨rfl, Slot.answer_st .., rfl⟩

/-- FREEZE where no core has a transfer changes its core alone, which keeps its inbox. -/
theorem State.doFreeze_core {s : State} (h : ∀ j, (s.core j).eng.copies = []) (i : CoreIx) (r : BindRec) : ∃ c : Core,
    s.doFreeze i r = s.setCore i c ∧ c.eng.copies = [] ∧ c.evt.inbox = (s.core i).evt.inbox ∧
      ((s.core i).slot.st.Freezable → c.slot.st = .frozen) := by
  cases haccepts : accepts 5 (s.core i).slot.st with
  | true =>
    obtain ⟨hcopies, hst, hinbox⟩ := Core.frozenBy_spec (h i) r
    exact ⟨_, State.doFreeze_of_nil r haccepts hcopies (.inr fun j _ => h j), hcopies, hinbox, fun _ => hst⟩
  | false =>
    obtain ⟨hcopies, hst, hinbox⟩ := (s.core i).refused_spec r
    have hrefuse : s.doFreeze i r = s.refuseRecord i 5 r := if_neg (by rw [haccepts]; decide)
    exact ⟨_, hrefuse, hcopies.trans (h i), hinbox, fun hf => hst.trans (hf.resolve_left (by rw [haccepts]; decide))⟩

/-- What the FREEZE of some cores, none of which has a transfer, changes. -/
structure State.Freezes (l : List CoreIx) (s t : State) : Prop where
  mem : t.mem = s.mem
  sched : t.sched = s.sched
  copies : ∀ j, (t.core j).eng.copies = []
  others : ∀ j, j ∉ l → t.core j = s.core j ∧ t.listed.count j = s.listed.count j
  inbox : ∀ j, (t.core j).evt.inbox = (s.core j).evt.inbox
  keeps : ∀ j, (s.core j).slot.st = .frozen → (t.core j).slot.st = .frozen
  frozen : ∀ j ∈ l, (s.core j).slot.st.Freezable → (t.core j).slot.st = .frozen

theorem State.freeze_fold (l : List CoreIx) (s : State) (h : ∀ j, (s.core j).eng.copies = []) :
    Freezes l s (l.foldl (fun s i => s.doFreeze i (s.hartRec i)) s) := by
  induction l generalizing s with
  | nil => exact ⟨rfl, rfl, h, fun _ _ => ⟨rfl, rfl⟩, fun _ => rfl, fun _ h => h, fun _ h => absurd h (List.not_mem_nil)⟩
  | cons i r ih =>
    obtain ⟨c, heq, hcopies, hinbox, hfrozen⟩ := s.doFreeze_core h i (s.hartRec i)
    have hcore (j : CoreIx) : (s.setCore i c).core j = if j = i then c else s.core j := core_setCore ..
    have hrec := ih (s.setCore i c) fun j => by
      rw [hcore]
      split
      · exact hcopies
      · exact h j
    rw [List.foldl_cons, heq]
    have hkeeps (j : CoreIx) (hj : (s.core j).slot.st = .frozen) : ((s.setCore i c).core j).slot.st = .frozen := by
      rw [hcore]
      split
      · rename_i hji
        exact hfrozen (.inr (hji ▸ hj))
      · exact hj
    refine ⟨hrec.mem, hrec.sched, hrec.copies, fun j hj => ?_, fun j => ?_, fun j hj => hrec.keeps j (hkeeps j hj), fun j hj hf => ?_⟩
    · obtain ⟨hji, hjr⟩ := not_or.mp (List.mem_cons.not.mp hj)
      obtain ⟨h1, h2⟩ := hrec.others j hjr
      exact ⟨h1.trans ((hcore j).trans (if_neg hji)), h2.trans (s.count_listed_setCore c hji)⟩
    · rw [hrec.inbox, hcore]
      split
      · rename_i hji
        rw [hji, hinbox]
      · rfl
    · by_cases hji : j = i
      · subst hji
        exact hrec.keeps j (by rw [hcore, if_pos rfl]; exact hfrozen hf)
      · exact hrec.frozen j ((List.mem_cons.mp hj).resolve_left hji) (by rw [hcore, if_neg hji]; exact hf)

/-! ## Telling the others -/

/-- A message to each of some cores. -/
def State.tellEach (m : CoreIx → Msg) (l : List CoreIx) (s : State) : State := l.foldl (fun s i => s.place i [m i] .keep) s

theorem State.tellEach_keeps (m : CoreIx → Msg) (l : List CoreIx) (s : State) : (s.tellEach m l).mem = s.mem ∧ (s.tellEach m l).sched = s.sched := by
  induction l generalizing s with
  | nil => exact ⟨rfl, rfl⟩
  | cons i r ih => exact ih _

theorem State.core_place_ne (s : State) {i j : CoreIx} (h : j ≠ i) (ms : List Msg) (a : PlaceAct) : (s.place i ms a).core j = s.core j :=
  core_modCore_ne _ _ _ _ h

theorem State.core_tellEach_of_not_mem (m : CoreIx → Msg) {l : List CoreIx} {j : CoreIx} (h : j ∉ l) (s : State) : (s.tellEach m l).core j = s.core j := by
  induction l generalizing s with
  | nil => rfl
  | cons i r ih =>
    obtain ⟨hji, hjr⟩ := not_or.mp (List.mem_cons.not.mp h)
    exact (ih hjr _).trans (s.core_place_ne hji _ _)

/-- A core that stands once in the list is told once. -/
theorem State.core_tellEach_of_count (m : CoreIx → Msg) {l : List CoreIx} {j : CoreIx} (h : l.count j = 1) (s : State) :
    (s.tellEach m l).core j = (s.core j).place { msgs := [m j], act := .keep } := by
  induction l generalizing s with
  | nil => simp at h
  | cons i r ih =>
    rw [List.count_cons] at h
    by_cases hij : i = j
    · subst hij
      have hnot : i ∉ r := List.count_eq_zero.mp (by simpa using h)
      exact (State.core_tellEach_of_not_mem m hnot _).trans (core_modCore_self ..)
    · rw [if_neg (by simpa using hij), Nat.add_zero] at h
      refine (ih h _).trans ?_
      rw [s.core_place_ne (Ne.symm hij)]

theorem Core.place_keep_told {c : Core} (m : Msg) (h : c.Takes) : (c.place { msgs := [m], act := .keep }).evt.inbox = c.evt.inbox ++ [m] := by
  obtain ⟨hst, hheld, hlen⟩ := h
  rw [Core.place_takes c { msgs := [m], act := .keep } hst (Nat.succ_le_of_lt hlen) hheld, Core.deliver_inbox]

/-! ## The step -/

section
variable {s : State} {k : CoreIx} {l : Launch} {cause : BitVec 8} {val : Word}

theorem exec_groupFaultHandling_none (h : k ∉ s.sched.faults) : exec (.groupFaultHandling k) s = .next s := by
  simp [exec, execGroupFaultHandling, h, ok]

/-- The fault is taken from the list, and the launch will end with REASON 5. -/
def State.faultTaken (s : State) (k : CoreIx) (l : Launch) (cause : BitVec 8) : State :=
  let t := { s with sched := { s.sched with faults := s.sched.faults.filter (· ≠ k) } }
  if l.reason = 0 then t.setLaunch { l with reason := 5, cause := cause, core := BitVec.ofNat 12 k.val } else t

/-- The cores that are frozen with the faulted one. -/
def Launch.frozen (l : Launch) (k : CoreIx) : List CoreIx := (frozenSet l.groups k.val).map toCore

/-- What the other cores of the launch are told. -/
def Launch.faultMsg (l : Launch) (k : CoreIx) (cause : BitVec 8) (val : Word) (i : CoreIx) : Msg :=
  mkMsg 0x10 0 k.val 0 (faultPayload cause (sharedGroup l.groups k.val i.val) val)

/-- Whether a core of the launch runs, stops or has halted. -/
def State.faultReaches (s : State) (l : Launch) (i : CoreIx) : Bool :=
  (s.core i).slot.lid == l.lid && ((s.core i).slot.st = .running || (s.core i).slot.st = .stopping || (s.core i).slot.st = .halted)

theorem exec_groupFaultHandling (h : k ∈ s.sched.faults) (hl : s.launchOf k = some l) (hfatal : (s.core k).slot.fatal = some (cause, val)) :
    exec (.groupFaultHandling k) s = .next (
      let t := (l.frozen k).foldl (fun s i => s.doFreeze i (s.hartRec i)) (s.faultTaken k l cause)
      t.tellEach (l.faultMsg k cause val) (t.listed.filter (t.faultReaches l))) := by
  have hin : (!s.sched.faults.contains k) = false := by simpa using h
  have hl' : State.launchOf { s with sched := { s.sched with faults := s.sched.faults.filter (· ≠ k) } } k = some l := hl
  have hfatal' : (State.core { s with sched := { s.sched with faults := s.sched.faults.filter (· ≠ k) } } k).slot.fatal = some (cause, val) := hfatal
  show execGroupFaultHandling k s = _
  unfold execGroupFaultHandling
  rw [if_neg (by rw [hin]; decide)]
  simp only [hl', hfatal', Launch.frozen, List.foldl_map]
  rfl

theorem State.faultTaken_keeps (s : State) (k : CoreIx) (l : Launch) (cause : BitVec 8) : (s.faultTaken k l cause).mem = s.mem ∧
    (s.faultTaken k l cause).cores = s.cores ∧ k ∉ (s.faultTaken k l cause).sched.faults := by
  have hnot : k ∉ s.sched.faults.filter (· ≠ k) := by simp
  unfold State.faultTaken
  split <;> exact ⟨rfl, rfl, hnot⟩

theorem State.launch_faultTaken (hl : s.launchOf k = some l) (h0 : l.reason = 0) :
    (s.faultTaken k l cause).launch l.lid = some { l with reason := 5, cause := cause, core := BitVec.ofNat 12 k.val } := by
  obtain ⟨-, hlid, hst⟩ := State.launch_eq_some hl
  rw [State.faultTaken, if_pos h0]
  refine State.launch_setLaunch ?_ rfl hst
  rw [hlid]
  exact hl

theorem Launch.mem_frozen (hgroups : ∀ g ∈ l.groups, ∀ i ∈ g, i < 4096) {j : CoreIx} : j ∈ l.frozen k ↔ j.val ∈ frozenSet l.groups k.val := by
  have hlt (i : Nat) (hi : i ∈ frozenSet l.groups k.val) : i < 4096 := by
    have hmem := (mem_frozenSet.mp hi).1
    rw [List.getD_eq_getElem?_getD] at hmem
    cases hg : l.groups[0]? with
    | none => simp [hg] at hmem
    | some g =>
      rw [hg, Option.getD_some] at hmem
      exact hgroups g (List.mem_of_getElem? hg) i hmem
  simp only [Launch.frozen, List.mem_map]
  constructor
  · rintro ⟨i, hi, rfl⟩
    rwa [toCore, Fin.val_ofNat, Nat.mod_eq_of_lt (hlt i hi)]
  · exact fun h => ⟨j.val, h, toCore_val j⟩

/-- A core that is frozen is not told. -/
theorem State.tellEach_frozen (m : CoreIx → Msg) {j : CoreIx} (h : (s.core j).slot.st = .frozen) :
    (s.tellEach m (s.listed.filter (s.faultReaches l))).core j = s.core j := by
  refine State.core_tellEach_of_not_mem m (fun hj => ?_) s
  have hreach := (List.mem_filter.mp hj).2
  simp [State.faultReaches, h] at hreach

/-- A core of the launch that runs, stops or has halted is told once. -/
theorem State.tellEach_reached (m : CoreIx → Msg) {j : CoreIx} (hlid : (s.core j).slot.lid = l.lid)
    (hst : (s.core j).slot.st = .running ∨ (s.core j).slot.st = .stopping ∨ (s.core j).slot.st = .halted) (hcount : s.listed.count j = 1) :
    (s.tellEach m (s.listed.filter (s.faultReaches l))).core j = (s.core j).place { msgs := [m j], act := .keep } := by
  refine State.core_tellEach_of_count m ?_ s
  rw [List.count_filter (by simp [State.faultReaches, hlid, or_assoc, hst]), hcount]

theorem Launch.faultMsg_of_not_shared {j : CoreIx} (h : sharedGroup l.groups k.val j.val = 0) : l.faultMsg k cause val j =
    { kind := 0x10, status := 0, source := BitVec.ofNat 16 k.val, xid := 0, payload := natW (cause.toNat * 2 ^ 56 + val.toNat % 2 ^ 48) } := by
  rw [Launch.faultMsg, h, faultPayload_zero]
  rfl

end

end Sys2Proof.Machine
end

section
/-! SUPPORT. Where a READY launch is placed (spec/05 R70): the origins in their order, and what stands in the way. -/

namespace Sys2Proof.Machine

/-! ## The first origin that is free -/

/-- In an ordered list the element with a property before which none has it is the first with it. -/
theorem find?_eq_some_of_pairwise {α : Type} {R : α → α → Prop} {p : α → Bool} {l : List α} (hl : l.Pairwise R) {a : α} (ha : a ∈ l)
    (hp : p a = true) (hfirst : ∀ b ∈ l, R b a → p b = false) : l.find? p = some a := by
  induction l with
  | nil => cases ha
  | cons x r ih =>
    obtain ⟨hx, hr⟩ := List.pairwise_cons.mp hl
    rcases List.mem_cons.mp ha with rfl | ha'
    · exact List.find?_cons_of_pos hp
    · rw [List.find?_cons_of_neg (by rw [hfirst x List.mem_cons_self (hx a ha')]; decide)]
      exact ih hr ha' fun b hb => hfirst b (List.mem_cons_of_mem x hb)

/-- The lowest y first, then the lowest x (R70). -/
def originBefore (a b : Nat × Nat) : Prop := a.2 < b.2 ∨ (a.2 = b.2 ∧ a.1 < b.1)

theorem gridOrigins_pairwise : (((List.range 16).map fun y => (List.range 16).map fun x => (4 * x, 4 * y)).flatten).Pairwise originBefore := by
  refine List.pairwise_flatten.mpr ⟨fun row hrow => ?_, ?_⟩
  · obtain ⟨y, -, rfl⟩ := List.mem_map.mp hrow
    exact List.pairwise_map.mpr (List.pairwise_lt_range.imp fun h => .inr ⟨rfl, by dsimp only; omega⟩)
  · refine List.pairwise_map.mpr (List.pairwise_lt_range.imp fun {y y'} h a ha b hb => ?_)
    obtain ⟨x, -, rfl⟩ := List.mem_map.mp ha
    obtain ⟨x', -, rfl⟩ := List.mem_map.mp hb
    exact .inl (by dsimp only; omega)

section
variable {l : Launch}

/-- A launch fits into the mesh at an origin. -/
def Launch.Fits (l : Launch) (x y : Nat) : Prop := x + l.w ≤ 64 ∧ y + l.h ≤ 64

theorem Launch.origins_fixed (hsaved : l.saved = false) (hfixed : l.usesFixed = true) : l.origins = [(l.hdrX0, l.hdrY0)] := by
  rw [Launch.origins, hsaved, if_neg (by decide), if_pos hfixed]

theorem Launch.mem_origins (hsaved : l.saved = false) (hfixed : l.usesFixed = false) (hw : 1 ≤ l.w) (hh : 1 ≤ l.h) {x y : Nat} :
    (x, y) ∈ l.origins ↔ x % 4 = 0 ∧ y % 4 = 0 ∧ l.Fits x y := by
  rw [Launch.origins, hsaved, if_neg (by decide), hfixed, if_neg (by decide)]
  simp only [List.mem_filter, List.mem_flatten, List.mem_map, List.mem_range, exists_exists_and_eq_and, Prod.mk.injEq, Bool.and_eq_true,
    decide_eq_true_eq, Launch.Fits]
  constructor
  · rintro ⟨⟨b, hb, a, ha, rfl, rfl⟩, hfits⟩
    exact ⟨by omega, by omega, hfits⟩
  · rintro ⟨hx, hy, hfits⟩
    exact ⟨⟨y / 4, by omega, x / 4, by omega, by omega, by omega⟩, hfits⟩

theorem Launch.origins_pairwise (hsaved : l.saved = false) : l.origins.Pairwise originBefore := by
  rw [Launch.origins, hsaved, if_neg (by decide)]
  split
  · exact List.pairwise_singleton ..
  · exact gridOrigins_pairwise.filter _

/-- An origin that the launch may be given. -/
def Launch.Origin (l : Launch) (x y : Nat) : Prop :=
  if l.usesFixed = true then x = l.hdrX0 ∧ y = l.hdrY0 else x % 4 = 0 ∧ y % 4 = 0

/-- Where its own origin fits, if it has one, the origins are those it may be given at which it fits. -/
theorem Launch.mem_origins_iff (hsaved : l.saved = false) (hw : 1 ≤ l.w) (hh : 1 ≤ l.h)
    (hown : l.usesFixed = true → l.Fits l.hdrX0 l.hdrY0) {x y : Nat} : (x, y) ∈ l.origins ↔ l.Origin x y ∧ l.Fits x y := by
  cases hfixed : l.usesFixed with
  | true =>
    simp only [l.origins_fixed hsaved hfixed, List.mem_singleton, Prod.mk.injEq, Launch.Origin, hfixed, if_true]
    exact ⟨fun h => ⟨h, h.1 ▸ h.2 ▸ hown hfixed⟩, fun h => h.1⟩
  | false => simp only [Launch.mem_origins hsaved hfixed hw hh, Launch.Origin, hfixed, Bool.false_eq_true, if_false, and_assoc]

end

/-! ## What stands in the way -/

section
variable {s : State} {l : Launch} {x y : Nat}

/-- A core's cluster is one that the rectangle at an origin touches. -/
def Launch.Touches (l : Launch) (x y k : Nat) : Prop :=
  x / 4 ≤ k % 64 / 4 ∧ k % 64 / 4 ≤ (x + l.w - 1) / 4 ∧ y / 4 ≤ k / 64 % 64 / 4 ∧ k / 64 % 64 / 4 ≤ (y + l.h - 1) / 4

theorem touches_iff {k : Nat} : touches x y l.w l.h k = true ↔ l.Touches x y k := by
  simp only [touches, Bool.and_eq_true, decide_eq_true_eq, and_assoc]
  rfl

/-- No core of a touched cluster is bound, and no partition that the launch names is another's. -/
def State.CoresFree (s : State) (l : Launch) (x y : Nat) : Prop := ∀ p ∈ s.cores, p.2.slot.st ≠ .idle → ¬ l.Touches x y p.1
def State.PartsFree (s : State) (l : Launch) : Prop := ∀ p ∈ s.parts, l.mpart.testBit p.1 = true → ∀ o c, p.2.owner = some (o, c) → o = l.lid

theorem State.partTaken_eq_false : s.partTaken l = false ↔ s.PartsFree l := by
  simp only [State.partTaken, List.any_eq_false, Bool.and_eq_true, not_and, State.PartsFree]
  refine forall_congr' fun p => forall_congr' fun _ => forall_congr' fun _ => ?_
  cases p.2.owner with
  | none => simp
  | some oc => simp [Prod.ext_iff]

theorem State.inWay_iff {lid : BitVec 16} : s.inWay l x y lid = true ↔
    lid ≠ l.lid ∧ ∃ p ∈ s.cores, p.2.slot.st ≠ .idle ∧ p.2.slot.lid = lid ∧ l.Touches x y p.1 := by
  simp [State.inWay, touches_iff, and_assoc]

theorem State.mem_holders {lid : BitVec 16} : lid ∈ s.holders ↔ ∃ p ∈ s.cores, p.2.slot.st ≠ .idle ∧ p.2.slot.lid = lid := by
  simp [State.holders, and_assoc]

/-- Whether no launch stands in the way at an origin, those named left out. -/
def State.clearAt (s : State) (l : Launch) (gone : List (BitVec 16)) (o : Nat × Nat) : Bool :=
  s.holders.all fun lid => gone.contains lid || !s.inWay l o.1 o.2 lid

theorem State.place?_eq (h : s.PartsFree l) (gone : List (BitVec 16)) : s.place? l gone = l.origins.find? (s.clearAt l gone) :=
  if_neg (by rw [State.partTaken_eq_false.mpr h]; decide)

theorem State.clearAt_iff (hunbound : ∀ p ∈ s.cores, p.2.slot.st ≠ .idle → p.2.slot.lid ≠ l.lid) :
    s.clearAt l [] (x, y) = true ↔ s.CoresFree l x y := by
  simp only [State.clearAt, List.all_eq_true, List.contains_nil, Bool.false_or, Bool.not_eq_true', ← Bool.not_eq_true, State.inWay_iff,
    State.mem_holders, State.CoresFree]
  constructor
  · exact fun h p hp hb ht => h _ ⟨p, hp, hb, rfl⟩ ⟨hunbound p hp hb, p, hp, hb, rfl, ht⟩
  · exact fun h _ _ ⟨_, p, hp, hb, _, ht⟩ => h p hp hb ht

/-- It is placed at the free origin before which none is free. -/
theorem State.place?_eq_some (hsaved : l.saved = false) (hw : 1 ≤ l.w) (hh : 1 ≤ l.h)
    (hunbound : ∀ p ∈ s.cores, p.2.slot.st ≠ .idle → p.2.slot.lid ≠ l.lid) (hfits : l.Fits x y) (hcores : s.CoresFree l x y)
    (hparts : s.PartsFree l) (horigin : l.Origin x y)
    (hfirst : l.usesFixed = false → ∀ x' y', x' % 4 = 0 → y' % 4 = 0 → l.Fits x' y' → y' < y ∨ (y' = y ∧ x' < x) → ¬ s.CoresFree l x' y') :
    s.place? l [] = some (x, y) := by
  rw [State.place?_eq hparts]
  have hclear := (State.clearAt_iff hunbound).mpr hcores
  cases hfixed : l.usesFixed with
  | true =>
    rw [Launch.Origin, if_pos hfixed] at horigin
    obtain ⟨rfl, rfl⟩ := horigin
    rw [l.origins_fixed hsaved hfixed, List.find?_cons_of_pos hclear]
  | false =>
    rw [Launch.Origin, hfixed, if_neg (by decide)] at horigin
    have hmem {x y : Nat} := Launch.mem_origins (x := x) (y := y) hsaved hfixed hw hh
    refine find?_eq_some_of_pairwise (Launch.origins_pairwise hsaved) (hmem.mpr ⟨horigin.1, horigin.2, hfits⟩) hclear fun ⟨x', y'⟩ ho hbefore => ?_
    obtain ⟨hx, hy, hf⟩ := hmem.mp ho
    exact Bool.eq_false_iff.mpr ((State.clearAt_iff hunbound).not.mpr (hfirst hfixed x' y' hx hy hf hbefore))

/-- It is placed nowhere where no origin is free. -/
theorem State.place?_eq_none (hsaved : l.saved = false) (hw : 1 ≤ l.w) (hh : 1 ≤ l.h)
    (hunbound : ∀ p ∈ s.cores, p.2.slot.st ≠ .idle → p.2.slot.lid ≠ l.lid) (hown : l.usesFixed = true → l.Fits l.hdrX0 l.hdrY0)
    (h : ∀ x y, l.Fits x y → l.Origin x y → ¬ (s.CoresFree l x y ∧ s.PartsFree l)) : s.place? l [] = none := by
  by_cases hparts : s.PartsFree l
  · rw [State.place?_eq hparts]
    refine List.find?_eq_none.mpr fun ⟨x, y⟩ ho hclear => ?_
    obtain ⟨horigin, hfits⟩ := (Launch.mem_origins_iff hsaved hw hh hown).mp ho
    exact h x y hfits horigin ⟨(State.clearAt_iff hunbound).mp hclear, hparts⟩
  · exact if_pos ((Bool.not_eq_false _).mp (State.partTaken_eq_false.not.mpr hparts))

end

/-! ## The plan of a pre-emption -/

theorem mem_insertBy {f : Launch → Launch → Bool} {l m : Launch} {ls : List Launch} : m ∈ insertBy f l ls ↔ m = l ∨ m ∈ ls := by
  induction ls with
  | nil => simp [insertBy]
  | cons a r ih =>
    rw [insertBy]
    split
    · exact List.mem_cons
    · rw [List.mem_cons, ih, List.mem_cons, or_left_comm]

theorem mem_sortBy {f : Launch → Launch → Bool} {m : Launch} {ls : List Launch} : m ∈ sortBy f ls ↔ m ∈ ls := by
  induction ls with
  | nil => rfl
  | cons a r ih => rw [sortBy, List.foldr_cons, mem_insertBy, List.mem_cons]; exact or_congr_right ih

section
variable {s : State} {l m : Launch}

theorem State.mem_victims : m ∈ s.victims l ↔ m ∈ s.sched.launches ∧ m.st = .running ∧ m.reason = 0 ∧ m.prio.toNat < l.prio.toNat := by
  simp only [State.victims, mem_sortBy, List.mem_filter, Bool.and_eq_true, decide_eq_true_eq, and_assoc]

/-- With no launch of lower priority it waits. -/
theorem State.plan_eq_nil (h : ∀ m ∈ s.sched.launches, m.st = .running → l.prio.toNat ≤ m.prio.toNat) : s.plan l = [] := by
  have hnone : s.victims l = [] := List.eq_nil_iff_forall_not_mem.mpr fun m hm => by
    obtain ⟨hmem, hst, -, hprio⟩ := State.mem_victims.mp hm
    exact absurd (h m hmem hst) (Nat.not_le.mpr hprio)
  rw [State.plan, hnone, State.planFrom]

/-- With one launch in the way, which has a lower priority, that one is to go. -/
theorem State.plan_eq_one (hsaved : l.saved = false) (hw : 1 ≤ l.w) (hh : 1 ≤ l.h) (hw64 : l.w ≤ 64) (hh64 : l.h ≤ 64)
    (hunbound : ∀ p ∈ s.cores, p.2.slot.st ≠ .idle → p.2.slot.lid ≠ l.lid) (hown : l.usesFixed = true → l.Fits l.hdrX0 l.hdrY0)
    (hparts : s.PartsFree l) (hnone : ∀ x y, l.Fits x y → l.Origin x y → ¬ s.CoresFree l x y)
    (hm : m ∈ s.victims l) (honly : ∀ m' ∈ s.victims l, m' = m) (hbound : ∀ p ∈ s.cores, p.2.slot.st ≠ .idle → p.2.slot.lid = m.lid) :
    s.plan l = [m.lid] := by
  obtain ⟨o, r, hr⟩ : ∃ o r, l.origins = o :: r := by
    refine List.exists_cons_of_ne_nil (List.ne_nil_of_mem (a := if l.usesFixed then (l.hdrX0, l.hdrY0) else (0, 0)) ?_)
    cases hfixed : l.usesFixed with
    | true => simp [l.origins_fixed hsaved hfixed]
    | false => exact (Launch.mem_origins hsaved hfixed hw hh).mpr ⟨rfl, rfl, by unfold Launch.Fits; omega⟩
  have hplace : s.place? l [m.lid] = some o := by
    rw [State.place?_eq hparts, hr, List.find?_cons_of_pos]
    refine List.all_eq_true.mpr fun lid hlid => ?_
    obtain ⟨p, hp, hb, rfl⟩ := State.mem_holders.mp hlid
    simp [hbound p hp hb]
  obtain ⟨horigin, hfits⟩ := (Launch.mem_origins_iff hsaved hw hh hown).mp (hr ▸ List.mem_cons_self : o ∈ l.origins)
  have hway : s.inWay l o.1 o.2 m.lid = true := by
    have h := hnone o.1 o.2 hfits horigin
    simp only [State.CoresFree, not_forall, not_not] at h
    obtain ⟨p, hp, hb, ht⟩ := h
    exact State.inWay_iff.mpr ⟨hbound p hp hb ▸ hunbound p hp hb, p, hp, hb, hbound p hp hb, ht⟩
  cases hv : s.victims l with
  | nil => rw [hv] at hm; cases hm
  | cons v vs =>
    have hvm : v = m := honly v (hv ▸ List.mem_cons_self)
    rw [State.plan, hv, State.planFrom, List.nil_append, hvm, hplace]
    simp [hway]

end

end Sys2Proof.Machine
end

section
/-! SUPPORT. What a placement writes: the launch, its partitions and its bind records (spec/05 R69, R70, spec/11 R168); and what the
pre-emption of a launch asks of its cores (spec/05 R72). -/

namespace Sys2Proof.Machine

/-! ## Partitions -/

/-- Of partitions alone some are changed. -/
structure State.PartFrame (s t : State) : Prop where
  rest : t = { s with parts := t.parts }

theorem State.takePart_fold (l : Launch) (ps : List Nat) (s : State) :
    PartFrame s (ps.foldl (fun s p => if l.mpart.testBit p then s.setPart p { Partition.reset with owner := some (l.lid, l.ctx) } else s) s) ∧
    ∀ p, (ps.foldl (fun s p => if l.mpart.testBit p then s.setPart p { Partition.reset with owner := some (l.lid, l.ctx) } else s) s).part p =
      if p ∈ ps ∧ l.mpart.testBit p = true then { Partition.reset with owner := some (l.lid, l.ctx) } else s.part p := by
  induction ps generalizing s with
  | nil => exact ⟨⟨rfl⟩, fun p => by simp⟩
  | cons q r ih =>
    rw [List.foldl_cons]
    split
    · rename_i hq
      obtain ⟨⟨hrest⟩, hparts⟩ := ih (s.setPart q { Partition.reset with owner := some (l.lid, l.ctx) })
      refine ⟨⟨hrest⟩, fun p => (hparts p).trans ?_⟩
      simp only [State.part, State.setPart, look_put, List.mem_cons]
      grind
    · rename_i hq
      obtain ⟨hrest, hparts⟩ := ih s
      refine ⟨hrest, fun p => (hparts p).trans ?_⟩
      simp only [List.mem_cons]
      grind

theorem State.takeParts_frame (s : State) (l : Launch) : PartFrame s (s.takeParts l) := (s.takePart_fold l _).1

theorem State.part_takeParts (s : State) (l : Launch) {p : Nat} (hp : p < 16) : (s.takeParts l).part p =
    if l.mpart.testBit p = true then { Partition.reset with owner := some (l.lid, l.ctx) } else s.part p := by
  refine ((s.takePart_fold l _).2 p).trans ?_
  simp [hp]

/-! ## Bind records -/

section
variable {s : State} {m : Launch}

/-- The record that binds a core to a launch. -/
def State.freshRec (s : State) (m : Launch) (i : CoreIx) : BindRec :=
  { prio := m.prio, ctx := m.ctx, lid := m.lid, lrank := BitVec.ofNat 12 ((m.groups.getD 0 []).idxOf i.val), seq := (s.core i).slot.seq + 1, crec := 0 }

/-- A core that a launch holds and that loads. -/
def Core.BoundTo (c : Core) (m : Launch) (i : CoreIx) : Prop :=
  c.slot.st = .loading ∧ c.slot.load = .new ∧ c.slot.lid = m.lid ∧ c.slot.ctx = m.ctx ∧
    c.slot.lrank = BitVec.ofNat 12 ((m.groups.getD 0 []).idxOf i.val) ∧ c.slot.prio = m.prio ∧ c.slot.err = false

/-- What the binding of some cores to a launch changes. -/
structure State.Binds (m : Launch) (l : List CoreIx) (s t : State) : Prop where
  mem : t.mem = s.mem
  net : t.net = s.net
  parts : t.parts = s.parts
  launch : t.launch m.lid = some m
  bound : ∀ i ∈ l, (t.core i).BoundTo m i
  others : ∀ i, i ∉ l → t.core i = s.core i

theorem State.launch_bindCore (hl : s.launch m.lid = some m) (hst : m.st = .running) (i : CoreIx) (act : Nat) {r : BindRec} (hlid : r.lid = m.lid)
    (load : LoadKind) : ((s.takeRecord i act r).bindCore i r load).launch m.lid = some m := by
  show ((s.sched.launches.map fun l : Launch => if l.lid == r.lid && decide (l.st ≠ .ended) then { l with st := .running } else l).find?
    fun l => l.lid == m.lid && decide (l.st ≠ .ended)) = some m
  rw [List.find?_map]
  have hcongr : (fun n : Launch => n.lid == m.lid && decide (n.st ≠ .ended)) ∘
      (fun n : Launch => if n.lid == r.lid && decide (n.st ≠ .ended) then { n with st := .running } else n) =
      fun n : Launch => n.lid == m.lid && decide (n.st ≠ .ended) := by
    funext n
    simp only [Function.comp, hlid]
    split
    · rename_i hn
      rw [hn]
      simp only [Bool.and_eq_true] at hn
      simp [hn.1]
    · rfl
  rw [hcongr, show s.sched.launches.find? _ = some m from hl, Option.map_some]
  split
  · rw [← hst]
  · rfl

theorem State.doBind_fresh {i : CoreIx} (hl : s.launch m.lid = some m) (hst : m.st = .running) (hidle : (s.core i).slot.st = .idle)
    (hfree : s.clusterTaken i m.lid = false) : Binds m [i] s (s.doBind i 1 (s.freshRec m i) .new) := by
  have hact : s.doBind i 1 (s.freshRec m i) .new = (s.takeRecord i (1 : BitVec 4).toNat (s.freshRec m i)).bindCore i (s.freshRec m i) .new :=
    State.doBind_taken (act := 1) (by rw [hidle]; rfl) hfree fun h => absurd h (by decide)
  rw [hact]
  obtain ⟨w, hw⟩ : ∃ w, recordWord 1 (s.freshRec m i) = w := ⟨_, rfl⟩
  have hcore := State.core_bindCore (i := i) hw s .new
  refine ⟨rfl, rfl, rfl, State.launch_bindCore hl hst i _ rfl .new, fun j hj => ?_, fun j hj => ?_⟩
  · have hi := (hcore i).trans (if_pos rfl)
    rw [List.mem_singleton.mp hj, hi]
    exact ⟨rfl, rfl, rfl, rfl, rfl, rfl, rfl⟩
  · exact (hcore j).trans (if_neg (List.mem_singleton.not.mp hj))

/-- Where its cores are idle and no other launch holds a cluster of them, a launch binds them all. -/
theorem State.bind_fold (l : List CoreIx) (hnodup : l.Nodup) (hl : s.launch m.lid = some m) (hst : m.st = .running)
    (hidle : ∀ i ∈ l, (s.core i).slot.st = .idle) (hfree : ∀ i ∈ l, s.clusterTaken i m.lid = false) :
    Binds m l s (l.foldl (fun s i => s.doBind i 1 (s.freshRec m i) .new) s) := by
  induction l generalizing s with
  | nil => exact ⟨rfl, rfl, rfl, hl, fun _ h => absurd h List.not_mem_nil, fun _ _ => rfl⟩
  | cons i r ih =>
    obtain ⟨hir, hr⟩ := List.nodup_cons.mp hnodup
    have hone := State.doBind_fresh hl hst (hidle i List.mem_cons_self) (hfree i List.mem_cons_self)
    rw [List.foldl_cons]
    generalize s.doBind i 1 (s.freshRec m i) .new = u at hone
    have hother {j : CoreIx} (hj : j ≠ i) : u.core j = s.core j := hone.others j (List.mem_singleton.not.mpr hj)
    have hbound := hone.bound i List.mem_cons_self
    have hrest := ih (s := u) hr hone.launch (fun j hj => by
        rw [hother fun h => hir (h ▸ hj)]
        exact hidle j (List.mem_cons_of_mem i hj)) fun j hj => State.clusterTaken_eq_false.mpr fun j' hne hx hy => by
      by_cases hj' : j' = i
      · exact .inr (hj' ▸ hbound.2.2.1)
      · rw [hother hj']
        exact State.clusterTaken_eq_false.mp (hfree j (List.mem_cons_of_mem i hj)) j' hne hx hy
    refine ⟨hrest.mem.trans hone.mem, hrest.net.trans hone.net, hrest.parts.trans hone.parts, hrest.launch, fun j hj => ?_, fun j hj => ?_⟩
    · by_cases hjr : j ∈ r
      · exact hrest.bound j hjr
      · rw [hrest.others j hjr]
        exact hone.bound j (by simpa [hjr] using hj)
    · obtain ⟨hji, hjr⟩ := not_or.mp (List.mem_cons.not.mp hj)
      exact (hrest.others j hjr).trans (hother hji)

/-- The cores of a launch, in ascending order. -/
def Launch.members (m : Launch) : List CoreIx := ((List.range 4096).filter (m.groups.getD 0 []).contains).map toCore

theorem Launch.mem_members {i : CoreIx} : i ∈ m.members ↔ i.val ∈ m.groups.getD 0 [] := by
  simp only [Launch.members, List.mem_map, List.mem_filter, List.mem_range, List.contains_iff_mem]
  constructor
  · rintro ⟨k, ⟨hk, hmem⟩, rfl⟩
    rwa [toCore, Fin.val_ofNat, Nat.mod_eq_of_lt hk]
  · exact fun h => ⟨i.val, ⟨i.isLt, h⟩, toCore_val i⟩

theorem Launch.members_nodup : m.members.Nodup := by
  refine List.Nodup.map_on (fun a ha b hb h => ?_) (List.nodup_range.filter _)
  have hlt {k : Nat} (hk : k ∈ (List.range 4096).filter (m.groups.getD 0 []).contains) : k < 4096 := List.mem_range.mp (List.mem_filter.mp hk).1
  have hval := congrArg Fin.val h
  rwa [toCore, toCore, Fin.val_ofNat, Fin.val_ofNat, Nat.mod_eq_of_lt (hlt ha), Nat.mod_eq_of_lt (hlt hb)] at hval

theorem State.bindLaunch_fresh (hsaved : m.saved = false) (s : State) :
    s.bindLaunch m = m.members.foldl (fun s i => s.doBind i 1 (s.freshRec m i) .new) s := by
  rw [State.bindLaunch, Launch.members, List.foldl_map]
  refine List.foldl_ext _ _ _ fun t k hk => ?_
  have hlt := List.mem_range.mp (List.mem_filter.mp hk).1
  simp only [hsaved, Bool.false_eq_true, if_false, State.freshRec, toCore, Fin.val_ofNat, Nat.mod_eq_of_lt hlt]

end

end Sys2Proof.Machine
end

section
/-! SUPPORT. The rectangle of a launch in rank order, and the step that places a launch or asks for a pre-emption (spec/05 R70, R72). -/

namespace Sys2Proof.Machine

/-! ## The rectangle -/

/-- The core of a rank. -/
def Launch.coreAt (l : Launch) (x y r : Nat) : Nat := (y + r / l.w) * 64 + x + r % l.w

section
variable {l : Launch} {x y r : Nat}

theorem Launch.rectCores_eq : rectCores x y l.w l.cores = (List.range (l.w * l.h)).map (l.coreAt x y) := rfl

/-- Column and row of a rank. -/
theorem Launch.rank_lt (hw : 1 ≤ l.w) (hr : r < l.w * l.h) : r % l.w < l.w ∧ r / l.w < l.h :=
  ⟨Nat.mod_lt _ hw, Nat.div_lt_of_lt_mul hr⟩

theorem Launch.coreAt_lt (hw : 1 ≤ l.w) (hfits : l.Fits x y) (hr : r < l.w * l.h) : l.coreAt x y r < 4096 := by
  obtain ⟨hx, hy⟩ := hfits
  obtain ⟨hcol, hrow⟩ := Launch.rank_lt hw hr
  unfold Launch.coreAt
  omega

/-- A cluster that holds a core of the rectangle is touched. -/
theorem Launch.touches_coreAt (hw : 1 ≤ l.w) (hfits : l.Fits x y) (hr : r < l.w * l.h) {j : Nat} (hj : j < 4096)
    (hcol : j % 64 / 4 = l.coreAt x y r % 64 / 4) (hrow : j / 64 / 4 = l.coreAt x y r / 64 / 4) : l.Touches x y j := by
  obtain ⟨hx, hy⟩ := hfits
  obtain ⟨hc, hr'⟩ := Launch.rank_lt hw hr
  have hmod : l.coreAt x y r % 64 = x + r % l.w := by unfold Launch.coreAt; omega
  have hdiv : l.coreAt x y r / 64 = y + r / l.w := by unfold Launch.coreAt; omega
  unfold Launch.Touches
  rw [Nat.mod_eq_of_lt (show j / 64 < 64 by omega), hcol, hrow, hmod, hdiv]
  generalize r % l.w = a at hc
  generalize r / l.w = b at hr'
  omega

theorem Launch.coreAt_inj (hw : 1 ≤ l.w) (hfits : l.Fits x y) {a b : Nat} (h : l.coreAt x y a = l.coreAt x y b) : a = b := by
  have hfit := hfits.1
  have ha := Nat.mod_lt a hw
  have hb := Nat.mod_lt b hw
  unfold Launch.coreAt at h
  have hrow : a / l.w = b / l.w := by omega
  have hcol : a % l.w = b % l.w := by omega
  rw [← Nat.div_add_mod a l.w, ← Nat.div_add_mod b l.w, hrow, hcol]

/-- The launch-rank of a core of the rectangle. -/
theorem Launch.idxOf_coreAt (hw : 1 ≤ l.w) (hfits : l.Fits x y) (hr : r < l.w * l.h) :
    ((List.range (l.w * l.h)).map (l.coreAt x y)).idxOf (l.coreAt x y r) = r := by
  have hnodup : ((List.range (l.w * l.h)).map (l.coreAt x y)).Nodup :=
    List.nodup_range.map fun a b h => Launch.coreAt_inj hw hfits h
  have hlt : r < ((List.range (l.w * l.h)).map (l.coreAt x y)).length := by simpa using hr
  have hget : ((List.range (l.w * l.h)).map (l.coreAt x y))[r] = l.coreAt x y r := by simp
  rw [← hget]
  exact hnodup.idxOf_getElem r hlt

/-- A launch as its placement leaves it. -/
def Launch.placedAt (l : Launch) (now x y : Nat) : Launch :=
  { l with st := .running, started := now, x0 := x, y0 := y, groups := l.groups.map fun g => g.map fun r => (rectCores x y l.w l.cores).getD r 0 }

theorem Launch.getD_rectCores : (rectCores x y l.w l.cores).getD r 0 = if r < l.w * l.h then l.coreAt x y r else 0 := by
  rw [Launch.rectCores_eq, List.getD_eq_getElem?_getD, List.getElem?_map]
  split <;> rename_i h
  · rw [List.getElem?_range h]; rfl
  · rw [List.getElem?_eq_none (by simpa using h)]; rfl

theorem Launch.group_placedAt (hgroup : l.groups.getD 0 [] = List.range (l.w * l.h)) (now : Nat) :
    (l.placedAt now x y).groups.getD 0 [] = (List.range (l.w * l.h)).map (l.coreAt x y) := by
  refine (List.getD_map (n := 0) l.groups [] fun g : List Nat => g.map fun r => (rectCores x y l.w l.cores).getD r 0).trans ?_
  rw [hgroup]
  exact List.map_congr_left fun r hr => Launch.getD_rectCores.trans (if_pos (List.mem_range.mp hr))

theorem Launch.groups_placedAt (l : Launch) (now x y : Nat) : (l.placedAt now x y).groups =
    l.groups.map fun g => g.map fun r => if r < l.w * l.h then l.coreAt x y r else 0 :=
  List.map_congr_left fun _ _ => List.map_congr_left fun _ _ => Launch.getD_rectCores

theorem Launch.mem_members_placedAt (hgroup : l.groups.getD 0 [] = List.range (l.w * l.h)) {now : Nat} {i : CoreIx} :
    i ∈ (l.placedAt now x y).members ↔ ∃ r, r < l.w * l.h ∧ l.coreAt x y r = i.val := by
  simp only [Launch.mem_members, Launch.group_placedAt hgroup, List.mem_map, List.mem_range]

/-- Its own origin, or a multiple of 4 of which something more is said. -/
theorem Launch.origin_of_chosen {P : Prop} (h : if l.usesFixed = true then x = l.hdrX0 ∧ y = l.hdrY0 else x % 4 = 0 ∧ y % 4 = 0 ∧ P) :
    l.Origin x y ∧ (l.usesFixed = false → P) := by
  unfold Launch.Origin
  split at h
  · rename_i hfixed
    exact ⟨by rwa [if_pos hfixed], fun hf => by rw [hfixed] at hf; cases hf⟩
  · rename_i hfixed
    obtain ⟨hx, hy, hP⟩ := h
    exact ⟨by rw [if_neg hfixed]; exact ⟨hx, hy⟩, fun _ => hP⟩

end

/-! ## A placement -/

section
variable {s : State} {l : Launch} {x y : Nat}

/-- The state in which the bind records of a placement are written. -/
def State.placing (s : State) (l : Launch) (x y : Nat) : State := (s.setLaunch (l.placedAt s.now x y)).takeParts (l.placedAt s.now x y)

theorem State.placing_frame (s : State) (l : Launch) (x y : Nat) : PartFrame (s.setLaunch (l.placedAt s.now x y)) (s.placing l x y) :=
  State.takeParts_frame ..

theorem State.core_placing (s : State) (l : Launch) (x y : Nat) (j : CoreIx) : (s.placing l x y).core j = s.core j := by
  rw [State.core, (s.placing_frame l x y).rest]
  rfl

/-- A placement binds the cores of its rectangle. -/
theorem State.placeLaunch_binds (hl : s.launch l.lid = some l) (hsaved : l.saved = false) (hw : 1 ≤ l.w)
    (hgroup : l.groups.getD 0 [] = List.range (l.w * l.h)) (hfits : l.Fits x y) (hcores : s.CoresFree l x y) :
    Binds (l.placedAt s.now x y) (l.placedAt s.now x y).members (s.placing l x y) (s.placeLaunch l (x, y)) := by
  have hplace : s.placeLaunch l (x, y) = (s.placing l x y).bindLaunch (l.placedAt s.now x y) := by
    simp only [State.placeLaunch, if_neg (Bool.eq_false_iff.mp hsaved)]
    rfl
  have hsaved' : (l.placedAt s.now x y).saved = false := hsaved
  have hidle {r : Nat} (hr : r < l.w * l.h) {j : CoreIx} (hcol : j.val % 64 / 4 = l.coreAt x y r % 64 / 4)
      (hrow : j.val / 64 / 4 = l.coreAt x y r / 64 / 4) : (s.core j).slot.st = .idle := by
    by_contra hb
    exact hcores _ (State.mem_cores hb) hb (Launch.touches_coreAt hw hfits hr j.isLt hcol hrow)
  rw [hplace, State.bindLaunch_fresh hsaved']
  refine State.bind_fold _ Launch.members_nodup ?_ rfl (fun i hi => ?_) fun i hi => State.clusterTaken_eq_false.mpr fun j _ hcol hrow => ?_
  · refine (State.launch_of_sched ?_ _).trans (State.launch_setLaunch (l := l) (m := l.placedAt s.now x y) hl rfl (show LaunchSt.running ≠ .ended by decide))
    rw [(s.placing_frame l x y).rest]
  · obtain ⟨r, hr, hri⟩ := (Launch.mem_members_placedAt hgroup).mp hi
    rw [State.core_placing]
    exact hidle hr (by rw [hri]) (by rw [hri])
  · obtain ⟨r, hr, hri⟩ := (Launch.mem_members_placedAt hgroup).mp hi
    rw [State.core_placing]
    exact .inl (hidle hr (by rw [hri, hcol]) (by rw [hri, hrow]))

/-- A core of the rectangle loads under its rank. -/
theorem Core.BoundTo.placed {c : Core} {now r : Nat} {k : CoreIx} (h : c.BoundTo (l.placedAt now x y) k) (hw : 1 ≤ l.w)
    (hgroup : l.groups.getD 0 [] = List.range (l.w * l.h)) (hfits : l.Fits x y) (hr : r < l.w * l.h) (hk : k.val = l.coreAt x y r) :
    c.slot.st = .loading ∧ c.slot.load = .new ∧ c.slot.lid = l.lid ∧ c.slot.ctx = l.ctx ∧ c.slot.lrank = BitVec.ofNat 12 r ∧
      c.slot.prio = l.prio ∧ c.slot.err = false := by
  obtain ⟨hst, hload, hlid, hctx, hlrank, hprio, herr⟩ := h
  rw [Launch.group_placedAt hgroup, hk, Launch.idxOf_coreAt hw hfits hr] at hlrank
  exact ⟨hst, hload, hlid, hctx, hlrank, hprio, herr⟩

theorem State.part_placing (s : State) (l : Launch) (x y : Nat) {p : Nat} (hp : p < 16) : (s.placing l x y).part p =
    if l.mpart.testBit p = true then { Partition.reset with owner := some (l.lid, l.ctx) } else s.part p :=
  State.part_takeParts _ (l.placedAt s.now x y) hp

end

/-! ## A pre-emption -/

/-- What PREEMPT, once or again, leaves of a slot. -/
structure Slot.Preempted (now : Nat) (t u : Slot) : Prop where
  running : t.st = .running → u.st = .stopping ∧ u.preq = some now
  halted : t.st = .halted → u.st = .saving
  kept : t.st ≠ .running → t.st ≠ .halted → u.st = t.st ∧ u.preq = t.preq

theorem Slot.Preempted.trans {now : Nat} {t u v : Slot} (h : Preempted now t u) (k : Preempted now u v) : Preempted now t v where
  running ht := by
    obtain ⟨hst, hpreq⟩ := h.running ht
    obtain ⟨hst', hpreq'⟩ := k.kept (by rw [hst]; decide) (by rw [hst]; decide)
    exact ⟨hst'.trans hst, hpreq'.trans hpreq⟩
  halted ht := by
    have hst := h.halted ht
    exact (k.kept (by rw [hst]; decide) (by rw [hst]; decide)).1.trans hst
  kept h1 h2 := by
    obtain ⟨hst, hpreq⟩ := h.kept h1 h2
    obtain ⟨hst', hpreq'⟩ := k.kept (hst ▸ h1) (hst ▸ h2)
    exact ⟨hst'.trans hst, hpreq'.trans hpreq⟩

theorem Slot.answer_preq (t : Slot) (act : Nat) (r : BindRec) (err : Bool) : (t.answer act r err).preq = t.preq := by
  unfold Slot.answer
  generalize bindWord act r = w
  rfl

/-- PREEMPT changes one slot. -/
theorem State.doPreempt_core (s : State) (i : CoreIx) (r : BindRec) : ∃ c : Core, s.doPreempt i r = s.setCore i c ∧
    (s.core i).slot.Preempted s.now c.slot := by
  by_cases hrun : (s.core i).slot.st = .running
  · exact ⟨_, State.doPreempt_of_running r hrun, fun _ => ⟨rfl, rfl⟩, fun h => absurd h (by rw [hrun]; decide), fun h => absurd hrun h⟩
  by_cases hhalt : (s.core i).slot.st = .halted
  · exact ⟨_, State.doPreempt_of_halted r hhalt, fun h => absurd h hrun, fun _ => rfl, fun _ h => absurd hhalt h⟩
  · refine ⟨(s.core i).withSlot fun t => t.answer 3 r true, if_neg (by simp [accepts, hrun, hhalt]), fun h => absurd h hrun, fun h => absurd h hhalt,
      fun _ _ => ⟨Slot.answer_st .., Slot.answer_preq ..⟩⟩

/-- What the pre-emption of some cores changes. -/
structure State.Preempts (l : List CoreIx) (s t : State) : Prop where
  mem : t.mem = s.mem
  net : t.net = s.net
  sched : t.sched = s.sched
  now : t.now = s.now
  others : ∀ j, j ∉ l → t.core j = s.core j
  reached : ∀ j ∈ l, (s.core j).slot.Preempted s.now (t.core j).slot

theorem State.preempt_fold (l : List CoreIx) (s : State) : Preempts l s (l.foldl (fun s i =>
    ({ s with free := s.free + 1 }).doPreempt i { s.hartRec i with crec := crecAt s.free }) s) := by
  induction l generalizing s with
  | nil => exact ⟨rfl, rfl, rfl, rfl, fun _ _ => rfl, fun _ h => absurd h List.not_mem_nil⟩
  | cons i r ih =>
    rw [List.foldl_cons]
    obtain ⟨c, heq, hslot⟩ := State.doPreempt_core { s with free := s.free + 1 } i { s.hartRec i with crec := crecAt s.free }
    rw [heq]
    have hcore (j : CoreIx) : (State.setCore { s with free := s.free + 1 } i c).core j = if j = i then c else s.core j := core_setCore ..
    have hrec := ih (State.setCore { s with free := s.free + 1 } i c)
    refine ⟨hrec.mem, hrec.net, hrec.sched, hrec.now, fun j hj => ?_, fun j hj => ?_⟩
    · obtain ⟨hji, hjr⟩ := not_or.mp (List.mem_cons.not.mp hj)
      exact (hrec.others j hjr).trans ((hcore j).trans (if_neg hji))
    · by_cases hji : j = i
      · subst hji
        have hself := (hcore j).trans (if_pos rfl)
        by_cases hjr : j ∈ r
        · have hagain := hrec.reached j hjr
          rw [hself] at hagain
          exact hslot.trans hagain
        · rw [hrec.others j hjr, hself]
          exact hslot
      · have hjr := (List.mem_cons.mp hj).resolve_left hji
        have hother := (hcore j).trans (if_neg hji)
        have hreached := hrec.reached j hjr
        rw [hother] at hreached
        exact hreached

theorem State.mem_preemptable {s : State} {lid : BitVec 16} {j : CoreIx} (hlid : (s.core j).slot.lid = lid)
    (hst : (s.core j).slot.st = .running ∨ (s.core j).slot.st = .halted) : j ∈ s.preemptable lid := by
  refine List.mem_filter.mpr ⟨State.mem_boundOf.mpr ⟨hlid, by rcases hst with h | h <;> rw [h] <;> decide⟩, ?_⟩
  rcases hst with h | h <;> simp [h]

/-! ## The step -/

section
variable {s : State} {l : Launch} {lid : BitVec 16}

theorem exec_launchPlacement_not_ready (hl : s.launch lid = some l) (h : l.st ≠ .ready) : exec (.launchPlacement lid) s = .next s := by
  simp [exec, execLaunchPlacement, hl, h, ok]

/-- The one READY launch is placed, or the launches of its plan are pre-empted. -/
theorem exec_launchPlacement (hl : s.launch lid = some l) (hst : l.st = .ready) (hfirst : ∀ m ∈ s.sched.launches, m.st = .ready → m.lid = lid) :
    (∀ o, s.place? l [] = some o → exec (.launchPlacement lid) s = .next (s.placeLaunch l o)) ∧
    (s.place? l [] = none → exec (.launchPlacement lid) s = .next ((s.plan l).foldl State.preemptLaunch s)) := by
  have hnone : (s.sched.launches.any fun m => m.st = .ready && m.lid != lid && readyBefore m l && s.comesFirst m) = false := by
    refine List.any_eq_false.mpr fun m hm h => ?_
    simp only [Bool.and_eq_true, decide_eq_true_eq, bne_iff_ne] at h
    obtain ⟨⟨⟨hready, hne⟩, -⟩, -⟩ := h
    exact hne (hfirst m hm hready)
  refine ⟨fun o ho => ?_, fun h => ?_⟩
  · show execLaunchPlacement lid s = _
    simp only [execLaunchPlacement, hl, hst, ne_eq, not_true, if_false, hnone, Bool.false_eq_true, ho, ok]
  · show execLaunchPlacement lid s = _
    simp only [execLaunchPlacement, hl, hst, ne_eq, not_true, if_false, hnone, Bool.false_eq_true, h, ok]

end

end Sys2Proof.Machine
end

section
namespace Sys2Proof.Proofs
open Sys2Proof.Machine

/-- Settles O55: a LAUNCH packet by what stands before it in its ring and by the launches of its TAG; a PENDING launch along `checkLaunch`, one
lemma for each way the check ends; a READY one by the first free origin (`State.place?_eq_some`), whose bind records are a fold over the
rectangle that no other launch touches (`State.bind_fold`), or by the plan of a pre-emption (`State.plan_eq_one`); a RUNNING one by the
conditions of its end, each of which holds it back alone, and by what the release of its slots leaves (`State.Releases`, `State.Ends`); a
faulted core by the fold of FREEZE over its groups (`State.freeze_fold`) and of kind 0x10 over the others. -/
theorem launches : Obligations.Launches := by
  unfold Obligations.Launches
  intro finished
  refine ⟨fun q n s p hp => ?_, fun lid s l hl => ?_, fun lid s l hl => ?_, fun lid s l hl => ?_, ?_⟩
  · intro w0 may tag used behind
    have hmay : s.startable q n 3 = some p ↔ may := State.startable_launch_iff hp
    have hbehind : (∃ e ∈ (s.qi q).packets, e.seq < n ∧ e.op = 3 ∧ e.tag = p.tag ∧ e.started = false ∧ e.result = none) ↔ behind := by
      simp only [Packet.tag_eq_iff]
      rfl
    have hused : (s.sched.launches.any fun l => l.queue = q && l.tag == p.tag && l.st ≠ .ended) = true ↔ used := by
      simp only [List.any_eq_true, Bool.and_eq_true, decide_eq_true_eq, beq_iff_eq, and_assoc]
      rfl
    refine ⟨fun h => exec_launchPacket_waits (p := p) ?_, fun h1 h2 h3 => ?_, fun h1 h2 h3 => ?_⟩
    · by_cases hstart : s.startable q n 3 = some p
      · exact .inr ⟨hstart, hbehind.mpr (h.resolve_left (not_not.mpr (hmay.mp hstart)))⟩
      · exact .inl (State.startable_eq_none hp hstart)
    · refine ⟨_, (exec_launchPacket_front (hmay.mpr h1) (hbehind.not.mpr h2)).trans (if_pos (hused.mpr h3)), ?_, ?_,
        fun e he => State.finishPacket_ended s q n 7 0 he⟩
      · rfl
      · rfl
    · refine ⟨_, s.newLaunch q n p, (exec_launchPacket_front (hmay.mpr h1) (hbehind.not.mpr h2)).trans (if_neg (hused.not.mpr h3)), rfl, rfl, rfl, rfl, rfl,
        rfl, rfl, rfl, rfl, rfl, rfl, rfl, rfl, rfl, ?_⟩
      exact State.mem_setPacket { p with started := true } hp (Qi.packet_seq (p := p) hp)
  · intro e live failed ends a reads
    obtain ⟨-, hlid, -⟩ := State.launch_eq_some hl
    have hends {u t : State} (hu : State.ReadFrame s u) {st : BitVec 8} {n reason : Nat} (h : State.Ends l st (natW (reason * 2 ^ 24)) u t)
        (hst : st = BitVec.ofNat 8 n) (hn : st ≠ 0 ↔ n ≠ 0) (hexec : exec e s = .next t) : ends n reason := by
      obtain ⟨hlaunch, -, hcalm, hpacket, hfailed⟩ := h.framed hu
      subst hst
      exact ⟨t, hexec, hlid ▸ hlaunch, hcalm, hpacket, hfailed.trans hn⟩
    refine ⟨fun h => exec_launchReady_not_pending hl h, fun hst h => exec_launchReady_waits hl hst h, fun hst hexit hdeps => ?_⟩
    have hfails {u : State} (hu : State.ReadFrame s u) {reason : Nat} (hr : reason ∈ [1, 2, 4, 7, 8])
        (hexec : exec e s = .next (u.failLaunch l (BitVec.ofNat 8 reason))) : ends 8 reason := by
      have hends' : State.Ends l 8 (natW (reason * 2 ^ 24)) u (u.failLaunch l (BitVec.ofNat 8 reason)) :=
        State.failLaunch_ends hexit hr
      exact hends hu hends' rfl (by decide) hexec
    refine ⟨fun ⟨d, hd, hf⟩ => ?_, fun hmet' => ?_⟩
    · exact hfails (.refl s) (by decide) (exec_launchReady_failed hl hst hdeps ⟨d, hd, hf.2⟩)
    have hmet : ∀ d ∈ l.deps, d ∉ (s.qi l.queue).failed := fun d hd hf => hmet' d hd ⟨hdeps d hd, hf⟩
    have herror {u : State} (hu : State.ReadFrame s u) {reason : Nat} (hr : reason ∈ [1, 2, 4, 7, 8])
        (h : s.checkLaunch l = (u, .error (some (BitVec.ofNat 8 reason)))) : ends 8 reason :=
      hfails hu hr (exec_launchReady_error hl hst hdeps hmet h)
    refine ⟨fun h => ?_, fun halign hva h => ?_, fun halign hva hmove => ⟨fun s1 x hread hx => ?_, fun s1 s2 h hlen hread => ?_⟩⟩
    · exact herror (.refl s) (by decide) (State.checkLaunch_unread (State.readHeader_misaligned h))
    · exact herror (State.logPacket_reads _ _) (by decide)
        (State.checkLaunch_unread (State.readHeader_foreign halign hva (State.movable_eq_false h)))
    · exact herror (.of_reads hread) (by decide)
        (State.checkLaunch_unread (State.readHeader_unread halign hva (State.movable_eq_true hmove) hread hx))
    · intro w f head feats cores inMesh len rest
      have hframe1 : State.ReadFrame s s1 := .of_reads hread
      have hmv := State.movable_eq_true hmove
      have hw0 : (h.take 2).getD 0 0 = w 0 := by simp [w]
      have hw1 : (h.take 2).getD 1 0 = w 1 := by simp [w]
      have hcores1 : ({ l with hdr := h.take 2 } : Launch).cores = cores := by
        rw [Launch.cores, Launch.w, Launch.h, hw1]
      have hfeats {u : State} (hu : State.ReadFrame s u) {m : Launch} (hm : m.hdr.getD 0 0 = w 0) : u.featuresFor m = true ↔ feats := by
        rw [State.featuresFor_iff, hm, hu.host]
      refine ⟨fun hc h0 hhead hfeat => ?_, fun hc hread' => ?_⟩
      · refine hends hframe1 (State.endLaunch_ends_empty hexit h0) rfl (by decide) (exec_launchReady_empty hl hst hdeps hmet
          (State.checkLaunch_empty (State.readHeader_empty halign hva hmv hread (hcores1.trans hc)) ?_ ((hfeats hframe1 hw0).mpr hfeat)
            (hcores1.trans hc)))
        exact headOk_iff.mpr (hw0 ▸ hw1 ▸ hhead)
      · have hframe2 : State.ReadFrame s s2 := hframe1.trans (.of_reads hread')
        have hheader := State.readHeader_whole halign hva hmv hread (by rw [hcores1]; exact hc) hread'
        rw [List.take_append_drop] at hheader
        have hheadOk : headOk (h.getD 0 0) (h.getD 1 0) = true ↔ head := headOk_iff
        have hfeatsOk : s2.featuresFor { l with hdr := h } = true ↔ feats := hfeats hframe2 rfl
        have hrest : restOk h = true ↔ rest := restOk_iff
        refine ⟨fun h1 => ?_, fun h1 h2 => ?_, fun h1 h2 h3 => ?_, fun h1 h2 h3 h4 => ?_, fun s3 x h1 h2 h3 h4 hread3 hx => ?_,
          fun s3 ws h1 h2 h3 h4 hread3 hgroups hdata => ?_⟩
        · exact herror hframe2 (by decide) (State.checkLaunch_head hheader (Bool.eq_false_iff.mpr (hheadOk.not.mpr h1)))
        · exact herror hframe2 (by decide) (State.checkLaunch_features hheader (hheadOk.mpr h1) (Bool.eq_false_iff.mpr (hfeatsOk.not.mpr h2)))
        · exact herror hframe2 (by decide) (State.checkLaunch_outside hheader (hheadOk.mpr h1) (hfeatsOk.mpr h2) hc
            (Launch.outside_iff.mpr h3))
        · exact herror hframe2 (by decide) (State.checkLaunch_image_error hheader (hheadOk.mpr h1) (hfeatsOk.mpr h2) hc (Launch.inside h3)
            (State.checkImage_rest (Bool.eq_false_iff.mpr (hrest.not.mpr h4))))
        · exact herror (hframe2.trans (.of_reads hread3)) (by decide) (State.checkLaunch_image_error hheader (hheadOk.mpr h1) (hfeatsOk.mpr h2) hc
            (Launch.inside h3) (State.checkImage_unread (hrest.mpr h4) hread3 hx))
        · have hframe3 : State.ReadFrame s s3 := hframe2.trans (.of_reads hread3)
          refine ⟨_, exec_launchReady_ready hl hst hdeps hmet (State.checkLaunch_image_ok hheader (hheadOk.mpr h1) (hfeatsOk.mpr h2) hc
            (Launch.inside h3) (State.checkImage_plain (hrest.mpr h4) hread3 hgroups hdata)), hframe3.mem, ?_⟩
          subst hlid
          refine State.launch_setLaunch ?_ rfl (by simp)
          exact (State.launch_of_sched (congrArg Sched.launches hframe3.sched) _).trans hl
  · intro e w h fixed mpart bound touched free fits chosen
    obtain ⟨-, hlid, -⟩ := State.launch_eq_some hl
    subst hlid
    refine ⟨fun h => exec_launchPlacement_not_ready hl h, fun hst hsaved hfirst hunbound hw hh => ?_⟩
    obtain ⟨hplaced, hwaits⟩ := exec_launchPlacement hl hst hfirst
    have hfree {x y : Nat} : free x y ↔ s.CoresFree l x y ∧ s.PartsFree l := Iff.rfl
    refine ⟨fun x0 y0 hgroup hfits hfreeAt hchosen => ?_, fun hnone hown => ⟨fun hprio => ?_, fun m hm hrun hreason hprio hw64 hh64 honly hall hparts => ?_⟩⟩
    · obtain ⟨hcores, hparts⟩ := hfree.mp hfreeAt
      obtain ⟨horigin, hbefore⟩ := Launch.origin_of_chosen hchosen
      have hexec := hplaced (x0, y0) (State.place?_eq_some hsaved hw hh hunbound hfits hcores hparts horigin fun hfixed x y hx hy hf hb hc =>
        hbefore hfixed x y hx hy hf hb (hfree.mpr ⟨hc, hparts⟩))
      have hbinds := State.placeLaunch_binds hl hsaved hw hgroup hfits hcores
      have hrest := (s.placing_frame l x0 y0).rest
      have hcore := s.core_placing l x0 y0
      have hpart {p : Nat} (hp : p < 16) := s.part_placing l x0 y0 hp
      generalize s.placing l x0 y0 = u at hbinds hrest hcore hpart
      generalize s.placeLaunch l (x0, y0) = t at hbinds hexec
      have hmember {i : CoreIx} := Launch.mem_members_placedAt (x := x0) (y := y0) hgroup (now := s.now) (i := i)
      refine ⟨t, l.placedAt s.now x0 y0, hexec, ?_, ?_, hbinds.launch, rfl, rfl, rfl, rfl, ?_, fun r hr k hk => ?_, fun k hk => ?_, fun p hp => ?_⟩
      · rw [hbinds.mem, hrest]
        rfl
      · rw [hbinds.net, hrest]
        rfl
      · exact l.groups_placedAt s.now x0 y0
      · exact (hbinds.bound k (hmember.mpr ⟨r, hr, hk.symm⟩)).placed hw hgroup hfits hr hk
      · refine (hbinds.others k fun hmem => ?_).trans (hcore k)
        obtain ⟨r, hr, hrk⟩ := hmember.mp hmem
        exact hk r hr hrk.symm
      · rw [State.part, hbinds.parts]
        exact hpart hp
    · have hexec := hwaits (State.place?_eq_none hsaved hw hh hunbound hown fun x y hfits horigin hf => hnone x y hfits horigin (hfree.mpr hf))
      rw [State.plan_eq_nil hprio] at hexec
      exact hexec
    · have hexec := hwaits (State.place?_eq_none hsaved hw hh hunbound hown fun x y hfits horigin hf => hnone x y hfits horigin (hfree.mpr hf))
      have hvictim : m ∈ s.victims l := State.mem_victims.mpr ⟨hm, hrun, hreason, hprio⟩
      have hplan : s.plan l = [m.lid] := State.plan_eq_one hsaved hw hh hw64 hh64 hunbound hown hparts
        (fun x y hfits horigin hf => hnone x y hfits horigin (hfree.mpr ⟨hf, hparts⟩)) hvictim
        (fun m' hm' => honly m' (State.mem_victims.mp hm').1 (State.mem_victims.mp hm').2.1) hall
      rw [hplan] at hexec
      have hpre := State.preempt_fold (s.preemptable m.lid) s
      refine ⟨_, hexec, hpre.mem, hpre.net, (State.launch_of_sched (congrArg Sched.launches hpre.sched) _).trans hl, fun k hk => ⟨fun hr => ?_, fun hr => ?_⟩⟩
      · exact (hpre.reached k (State.mem_preemptable hk (.inl hr))).running hr
      · exact (hpre.reached k (State.mem_preemptable hk (.inr hr))).halted hr
  · intro mine stopped quiet
    obtain ⟨-, hlid, -⟩ := State.launch_eq_some hl
    subst hlid
    refine ⟨fun h => exec_launchEnd_of_not hl (State.mayEnd_of_state h), fun ⟨k, hk, hstop⟩ => ?_,
      fun ⟨k, hk, h⟩ => exec_launchEnd_of_not hl (State.mayEnd_of_busy hk.1 hk.2 h), fun h => exec_launchEnd_of_not hl (State.mayEnd_of_left h),
      fun h h2 h5 h6 => exec_launchEnd_of_not hl (State.mayEnd_of_saved h h2 h5 h6),
      fun hst hreason hsome hall hparts hgraphs hplays hleft hsaves => ?_⟩
    · obtain ⟨hhalted, hfrozen⟩ := not_or.mp hstop
      exact exec_launchEnd_of_not hl (State.mayEnd_of_unstopped hk.1 hk.2 hhalted hfrozen)
    · intro st word
      have hmay : s.mayEnd l = true := State.mayEnd_of_quiet hst hreason hsome (fun k h1 h2 => hall k ⟨h1, h2⟩)
        (State.marketBusy_eq_false hparts) (State.playing_eq_false hgraphs hplays) hleft hsaves
      have h6 : l.reason ≠ 6 := by rcases hreason with h | h <;> rw [h] <;> decide
      obtain ⟨hends, hrel, hidle⟩ := State.releaseLaunch_ends (s := s) h6
      have hexec := exec_launchEnd_of_may hl hmay
      generalize (s.releaseLaunch l.lid).endLaunch l = t at hends hexec
      generalize s.releaseLaunch l.lid = u at hends hrel hidle
      have hqi : u.qi l.queue = s.qi l.queue := by rw [State.qi, hrel.host, State.qi]
      have htcore (k : CoreIx) : t.core k = u.core k := by rw [State.core, hends.cores, State.core]
      have hstatus : reasonStatus l.reason = st := by
        simp only [reasonStatus, if_neg h6, st]
      have hst0 : st ≠ 0 ↔ l.reason ≠ 0 := by
        simp only [st]
        split
        · rename_i h
          simp [h]
        · rename_i h
          exact iff_of_true (by decide) h
      have hpacket := hends.packet
      rw [hqi, endWord_eq, hstatus] at hpacket
      refine ⟨t, hexec, fun hs => ?_, hends.launch, fun k hk => ?_, fun k hk => ?_, ?_, ?_⟩
      · obtain ⟨hmem, hspilled⟩ := hrel.calm hs
        exact (hends.calm hspilled).trans hmem
      · rw [htcore]
        exact hidle k hk.1
      · rw [htcore]
        exact hrel.others k (by simpa only [mine, not_and_or, not_not] using hk)
      · exact hpacket
      · exact hends.failed.trans (hstatus ▸ hst0)
  · refine fun k s => ⟨exec_groupFaultHandling_none, fun l cause val hin hl hfatal hnodup hgroups hcopies => ?_⟩
    intro bound shares
    obtain ⟨hmem, hcores, hfaults⟩ := s.faultTaken_keeps k l cause
    have hlaunch := State.launch_faultTaken (cause := cause) hl
    have hexec := exec_groupFaultHandling hin hl hfatal
    generalize s.faultTaken k l cause = s1 at hmem hcores hfaults hlaunch hexec
    have hcore1 (j : CoreIx) : s1.core j = s.core j := by rw [State.core, hcores, State.core]
    have hlisted1 : s1.listed = s.listed := by rw [State.listed, hcores, State.listed]
    have hfrozen := State.freeze_fold (l.frozen k) s1 fun j => (congrArg (·.eng.copies) (hcore1 j)).trans (hcopies j)
    generalize (l.frozen k).foldl (fun s i => s.doFreeze i (s.hartRec i)) s1 = s2 at hfrozen hexec
    obtain ⟨hmem2, hsched2⟩ := s2.tellEach_keeps (l.faultMsg k cause val) (s2.listed.filter (s2.faultReaches l))
    have hshares {j : CoreIx} (hb : bound j) : j ∈ l.frozen k ↔ shares j :=
      (Launch.mem_frozen hgroups).trans (mem_frozenSet.trans ((and_iff_right hb.2.1).trans (or_congr Fin.val_inj Iff.rfl)))
    refine ⟨_, hexec, hmem2.trans (hfrozen.mem.trans hmem), ?_, fun h0 => ?_, fun j hb hs => ?_, fun j hb hs => ?_⟩
    · rw [hsched2, hfrozen.sched]
      exact hfaults
    · exact (State.launch_of_sched (congrArg Sched.launches (hsched2.trans hfrozen.sched)) _).trans (hlaunch h0)
    · have hfreezable : (s1.core j).slot.st.Freezable := by
        rw [hcore1]
        exact .inl (by rcases hb.2.2 with h | h | h <;> rw [h] <;> rfl)
      have hst := hfrozen.frozen j ((hshares hb).mpr hs) hfreezable
      have htold := State.tellEach_frozen (l := l) (l.faultMsg k cause val) hst
      exact ⟨(congrArg (·.slot.st) htold).trans hst, (congrArg (·.evt.inbox) htold).trans ((hfrozen.inbox j).trans (by rw [hcore1]))⟩
    · obtain ⟨hcore2, hcount⟩ := hfrozen.others j ((hshares hb).not.mpr hs)
      obtain ⟨hlid, -, hst⟩ := hb
      rw [hcore1] at hcore2
      have hbound : (s.core j).slot.st ≠ .idle := by rcases hst with h | h | h <;> rw [h] <;> decide
      rw [hlisted1, List.count_eq_one_of_mem hnodup (State.mem_listed hbound)] at hcount
      have htold := State.tellEach_reached (l := l) (l.faultMsg k cause val) (by rwa [hcore2]) (by rwa [hcore2]) hcount
      rw [hcore2, Launch.faultMsg_of_not_shared (not_not.mp (sharedGroup_ne_zero.not.mpr fun hg => hs (.inr hg)))] at htold
      exact ⟨(congrArg Core.slot htold).trans (Core.place_frame ..).slot,
        fun htakes => (congrArg (·.evt.inbox) htold).trans (Core.place_keep_told _ htakes)⟩

end Sys2Proof.Proofs
end
